-- ==== Sys2Proof/Word.lean ====
section
/-! DEFINITION. The word types of the KA8040 (spec/00_scope.md R3): bytes, 16-, 32- and 64-bit words, the
32 lanes of a gang, and the finite table that every sparse piece of state is held in. -/

namespace Sys2Proof

/-- A byte; memory is byte-addressed (spec/00_scope.md R3). -/
abbrev Byte := BitVec 8
/-- A 16-bit halfword. -/
abbrev W16 := BitVec 16
/-- A 32-bit instruction word. -/
abbrev W32 := BitVec 32
/-- A 64-bit register lane, literal or address. -/
abbrev W64 := BitVec 64

/-- One bit for each of the 32 lanes of a gang; bit l is lane l (spec/10_blocks_assembly.md R274). -/
abbrev Mask := BitVec 32

/-- Sparse data by key, keys strictly rising; an absent key reads as the reader's default. -/
abbrev Table (α : Type) := List (Nat × α)

/-- The 64-bit value of each of the 32 lanes, lane 0 first. -/
abbrev Lanes := List W64

end Sys2Proof
end

