-- ==== Sys2Proof/Config.lean ====
section
/-! DEFINITION. What the spec leaves to an implementation or leaves open: constants with no body, so that no proof can
see a value of one. Every use of a free value takes a fresh number from `State.free` (notes/assumptions/4.md). -/

namespace Sys2Proof

/-- A value that the spec leaves open, by a number used once. -/
opaque Config.freeValue : Nat → W64
/-- A delay in cycles of an operation that leaves the core (spec/06_cores.md R203), by a number used once. -/
opaque Config.freeDelay : Nat → Nat
/-- The set of a die's snoop filter that a line belongs to; only the number of sets and ways is given (spec/03_pool.md R74). -/
opaque Config.snoopSet : Nat → Nat
/-- The set of its home agent's directory that a line belongs to (spec/03_pool.md R74). -/
opaque Config.dirSet : Nat → Nat
/-- The set of a TLB or walk cache that an entry belongs to, by its context, page size and page (spec/08_translation_faults.md R241). -/
opaque Config.tlbSet : Nat → Nat → Nat → Nat
/-- Does an elastic function take its slow path, and how long (spec/13_isa_float.md R385)? -/
opaque Config.slowPath : Nat → Nat
/-- The fused device secret from which the identity key comes (spec/04_host_commands.md R124). -/
opaque Config.deviceSecret : List Byte
/-- The random value that a signature of a message takes in (R125). -/
opaque Config.signRandom : List Byte → List Byte
/-- The public key of a service-core boot image, whose place in the image is not given (R100). -/
opaque Config.bootKey : List Byte → List Byte
/-- The X.509 certificate of the identity key (R124). -/
opaque Config.certificate : List Byte
/-- The serial number of the package (R125). -/
opaque Config.serial : W64
/-- Has a driver on the service cores taken an MSI-X vector as an interrupt source of theirs (spec/04_host_commands.md R100)? -/
opaque Config.vectorOnCores : Nat → Bool
/-- The microword at an address of the control store of the Owl (false) or of a die sequencer (true), whose contents are not given (R121). -/
opaque Config.controlStore : Bool → Nat → BitVec 96
/-- The root key hash in fuses (R123). -/
opaque Config.rootKeyHash : List Byte
/-- Does an equal test of the lanes find this physical lane failing (spec/06_cores.md R197)? -/
opaque Config.laneFails : Nat → Bool

end Sys2Proof
end

