-- ==== Sys2Proof/Syntax.lean ====
section
/-! DEFINITION. The instructions and the package steps of spec/opcode_table.json, one constructor per row.
The 164 Oluask instructions carry the fields of spec/11_encoding.md R307 to R319; the 148 package steps
(spec/95_what_each_step_holds.md) carry what the step is about and what arrives with it from outside. -/

namespace Sys2Proof

/-! ### Fields of an instruction -/

/-- Slot of a target (R309). -/
inductive Slot where
  | a | b | c | p
  deriving DecidableEq, Repr

/-- A target field: slot and forward distance (R309). Distance 127 with slot a is "no target". -/
structure Target where
  slot : Slot
  dist : BitVec 7
  deriving DecidableEq, Repr

/-- The no-target code `0x07F` (R309). -/
def Target.none : Target := ⟨.a, 127⟩

/-- PR field (R308); code 11 is reserved and no constructor stands for it. -/
inductive Pred where
  | always | ifTrue | ifFalse
  deriving DecidableEq, Repr

/-- VC field: class of the result token (R308); code 11 is reserved. -/
inductive TokClass where
  | lane | uni | mask
  deriving DecidableEq, Repr

/-- TY codes 0 to 21 (R312). -/
inductive Ty where
  | i8 | i16 | i32 | i64 | n8 | n16 | n32 | n64 | b32 | b64
  | f16 | bf16 | f32 | f64 | e4m3 | e5m2 | e2m1
  | mx8a | mx8b | mx4 | mxi8 | mask
  deriving DecidableEq, Repr

/-- The fields common to every instruction: W0 and, in the extended form, W1, and the literal (R307 to R310).
`rm` is the field named RM or ORD and `cp` the field named CP or AOP in R310. -/
structure Form where
  ext : Bool
  pr  : Pred
  vc  : TokClass
  t0  : Target
  t1  : Target
  ty  : Ty
  rm  : BitVec 3
  sc  : BitVec 3
  cp  : BitVec 3
  t2  : Target
  t3  : Target
  lit : Option W64
  deriving DecidableEq, Repr

/-- A register of class V (R317). -/
inductive Reg where
  | v (n : BitVec 7)
  | s (n : BitVec 6)
  | k (n : BitVec 4)
  deriving DecidableEq, Repr

/-- Address spaces AS 000 to 101 (R318). -/
inductive Space where
  | global | stash | rstash | tile | ctx | pool
  deriving DecidableEq, Repr

/-- W2 of class M (R317). -/
structure MemArg where
  lsid : BitVec 5
  as   : Space
  off  : BitVec 24
  deriving DecidableEq, Repr

/-- SUB of `lid` (spec/12_isa_control_integer.md R333). -/
inductive LidKind where
  | lane | slice | gang | team
  | level (n : BitVec 3)
  | rank | lgid | place
  deriving DecidableEq, Repr

/-- SUB of `cmp` (R346). -/
inductive CmpRel where
  | eq | ne | lt | le | gt | ge
  deriving DecidableEq, Repr

/-- SUB of `fcmp` (spec/13_isa_float.md R377). -/
inductive FCmpRel where
  | eq | ne | lt | le | gt | ge | un | nn
  deriving DecidableEq, Repr

/-- SUB of `vote` (R346). -/
inductive VoteKind where
  | all | any | eq | ballot
  deriving DecidableEq, Repr

/-- SUB of `shfl` (R346). -/
inductive ShflKind where
  | idx | up | down | xor
  deriving DecidableEq, Repr

/-- SUB of `redux` and `scan` (R346). -/
inductive RedOp where
  | add | min | max | and | or | xor
  deriving DecidableEq, Repr

/-- SUB of `pcvt` (R388). -/
inductive PcvtKind where
  | lo | hi | pk | p8 | u8
  deriving DecidableEq, Repr

/-- The four in-flight counters (spec/14_isa_memory_sync.md R406). -/
inductive Path where
  | st | cp | ta | sf
  deriving DecidableEq, Repr

/-- Reduction function of `predx` and `pgath` (spec/15_isa_tile_copy_pool.md R453). -/
inductive BadgerFn where
  | add | min | max
  deriving DecidableEq, Repr

/-- ARG of `tmma` and `tdist` (R433). -/
structure MmaArg where
  vb    : BitVec 7
  z     : BitVec 4
  bfmt  : Ty
  reuse : Bool
  zero  : Bool
  deriving DecidableEq, Repr

/-- System registers (spec/16_isa_system.md R458). -/
inductive SysReg where
  | fst | lck | exm | gangId | sfmask | xinv | lrm | ctxinfo
  | flm | fcause | fpc | fva | pmres | privst
  deriving DecidableEq, Repr

/-! ### Operands of the package steps -/

/-- A unit that can fail training (spec/01_package.md R30). -/
inductive FailUnit where
  | die (d : Nat)
  | stack (k : Nat)
  | dieLink (a b : Nat)
  | hubLink (d : Nat)
  deriving DecidableEq, Repr

/-- A link: a scale-up port `8 d + p` or a die-to-die link (spec/02_links.md R38, R46), or a port or H-die link of another package `n`. -/
inductive Link where
  | port (d p : Nat)
  | dieDie (a b : Nat)
  | dieHub (d : Nat)
  | far (n d p : Nat)
  | farHub (n d : Nat)
  deriving DecidableEq, Repr

/-- A 256-byte flit (spec/02_links.md R39). `check` is the CRC-64 of bytes 247:0. -/
structure Flit where
  seq     : BitVec 12
  ack     : BitVec 12
  vc      : BitVec 3
  ftype   : BitVec 5
  credit  : BitVec 16
  rsvd    : BitVec 16
  payload : List Byte
  check   : W64
  deriving DecidableEq, Repr

/-- A hello (spec/02_links.md R52). -/
structure Hello where
  domain : W64
  pkg    : Nat
  die    : Nat
  port   : Nat
  swport : Nat
  epoch  : W32
  deriving DecidableEq, Repr

/-- A census of one launch from one package (spec/02_links.md R58). -/
structure CensusPart where
  pkg     : Nat
  launch  : Nat
  teams   : Nat
  gangs   : Nat
  threads : Nat
  tasks   : Nat
  ranges  : List (Nat × Nat)
  deriving DecidableEq, Repr

/-- What a scrub read finds (spec/01_package.md R34, R35). -/
inductive ScrubResult where
  | clean | corrected | uncorrectable
  deriving DecidableEq, Repr

/-- Which sequencer restarts (spec/01_package.md R36). -/
inductive Sequencer where
  | owl
  | die (d : Nat)
  deriving DecidableEq, Repr

/-- Snoop probes (spec/03_pool.md R75). -/
inductive ProbeKind where
  | share | own | invalidate | writeBack
  deriving DecidableEq, Repr

/-- A packet that a queue has accepted: its queue (64 is the admin queue), its number in acceptance order and
its words, header first (spec/04_host_commands.md R112). -/
structure Packet where
  queue : Nat
  num   : Nat
  words : List W64
  deriving DecidableEq, Repr

/-- PCIe AtomicOp kinds (spec/04_host_commands.md R96). -/
inductive PcieAtomic where
  | fetchAdd | swap | cas
  deriving DecidableEq, Repr

/-- Sensors that management reads (spec/04_host_commands.md R126). -/
inductive Sensor where
  | dieTemp (d : Nat)
  | packagePower
  | coolantInlet
  | portStatus (i : Nat)
  | domainStatus
  deriving DecidableEq, Repr

/-- Firmware components (spec/04_host_commands.md R126). -/
inductive Component where
  | patch | serviceBoot
  deriving DecidableEq, Repr

/-- A steal request: the core queue that asks and the core queue asked (spec/05_distribution.md R137, R138).
Core queues are numbered 144 d + core, and the distributor of die d 576 + d. -/
structure StealReq where
  thief  : Nat
  victim : Nat
  launch : Nat
  deriving DecidableEq, Repr

/-- A 64-byte task descriptor (spec/05_distribution.md R143), with the address it was copied from. -/
structure TaskDesc where
  addr     : W64
  entry    : W64
  args     : W64
  place    : W64
  exitrec  : W64
  gangs    : Nat
  stash    : Nat
  tile     : Nat
  quota    : Nat
  barriers : Nat
  deriving DecidableEq, Repr

/-- A line request's fate (spec/01_package.md R36; spec/06_cores.md R182): its data, an uncorrectable error in it, or one in a dirty line
of the core's own storage. -/
inductive ReplyFate where
  | data | uncorrectable | dirtyLost
  deriving DecidableEq, Repr

/-- An edge-queue request from a gang (spec/03_pool.md R93): `pos` is its held position (R254). -/
structure EdgeReq where
  gang    : Nat
  handler : Bool
  pos     : Nat
  desc    : W64
  payload : List Byte
  deriving DecidableEq, Repr

/-- Badger operation kinds (spec/03_pool.md R84). -/
inductive BadgerKind where
  | fill | copy | cmp | redx | gath
  deriving DecidableEq, Repr

/-- A Badger operation with its descriptor (R454) and its pool-logical page lists (R82):
pairs of virtual page number and pool page number. -/
structure BadgerOp where
  kind   : BadgerKind
  gang   : Nat
  ctx    : Nat
  dst    : W64
  src    : W64
  idx    : W64
  status : W64
  len    : W64
  stride : W64
  fill   : W64
  n      : W32
  bound  : W32
  elem   : Ty
  fn     : BadgerFn
  outty  : Ty
  rm     : BitVec 3
  pages  : List (Nat × Nat)
  deriving DecidableEq, Repr

/-- How a Badger operation ended (spec/03_pool.md R87). -/
inductive EndStatus where
  | done | homeLost | memUncorrectable
  deriving DecidableEq, Repr

/-! ### The instructions -/

/-- One row of spec/opcode_table.json each: the Oluask instructions, then the package steps. -/
inductive Instr where
  -- group 00: control, dataflow and work creation (spec/12_isa_control_integer.md)
  | rd (f : Form) (r : Reg)
  | wr (f : Form) (r : Reg)
  | mov (f : Form)
  | const (f : Form)
  | nul (f : Form)
  | sel (f : Form)
  | lid (f : Form) (k : LidKind)
  | br (f : Form) (disp : W32)
  | bl (f : Form) (disp : W32)
  | jr (f : Form)
  | regang (f : Form) (disp : W32)
  | exit (f : Form)
  | yield (f : Form)
  | rquota (f : Form)
  | spawn (f : Form) (disp : W32)
  | enq (f : Form)
  | chunk (f : Form)
  | qsend (f : Form)
  | qtake (f : Form)
  -- group 01: integers, lanes and masks
  | add (f : Form)
  | sub (f : Form)
  | mul (f : Form)
  | mulhi (f : Form)
  | mad (f : Form)
  | div (f : Form)
  | rem (f : Form)
  | adc (f : Form)
  | sbc (f : Form)
  | min (f : Form)
  | max (f : Form)
  | abs (f : Form)
  | neg (f : Form)
  | adr (f : Form)
  | cvt (f : Form) (src : Ty)
  | and (f : Form)
  | or (f : Form)
  | xor (f : Form)
  | not (f : Form)
  | shl (f : Form)
  | shr (f : Form)
  | sra (f : Form)
  | rot (f : Form)
  | bfx (f : Form)
  | bfi (f : Form)
  | popc (f : Form)
  | clz (f : Form)
  | ctz (f : Form)
  | brev (f : Form)
  | cmp (f : Form) (rel : CmpRel)
  | vote (f : Form) (k : VoteKind)
  | shfl (f : Form) (k : ShflKind)
  | redux (f : Form) (op : RedOp)
  | scan (f : Form) (op : RedOp) (excl : Bool)
  | kand (f : Form)
  | kor (f : Form)
  | kxor (f : Form)
  | knot (f : Form)
  | kpop (f : Form)
  | kfst (f : Form)
  -- group 10: floating point (spec/13_isa_float.md)
  | fadd (f : Form)
  | fsub (f : Form)
  | fmul (f : Form)
  | fma (f : Form)
  | fdiv (f : Form)
  | fsqrt (f : Form)
  | frcp (f : Form)
  | frsqrt (f : Form)
  | fmin (f : Form)
  | fmax (f : Form)
  | fabs (f : Form)
  | fneg (f : Form)
  | fcmp (f : Form) (rel : FCmpRel)
  | fclass (f : Form)
  | fcvt (f : Form) (src : Ty)
  | fcvti (f : Form) (src : Ty)
  | icvtf (f : Form) (src : Ty)
  | frnd (f : Form)
  | fldx (f : Form)
  | ffrx (f : Form)
  | fexp (f : Form)
  | fexp2 (f : Form)
  | flog (f : Form)
  | flog2 (f : Form)
  | fsin (f : Form)
  | fcos (f : Form)
  | ftanh (f : Form)
  | flgst (f : Form)
  | ferf (f : Form)
  | fatan2 (f : Form)
  | fpow (f : Form)
  | pfma (f : Form)
  | padd (f : Form)
  | pmul (f : Form)
  | pmax (f : Form)
  | pcvt (f : Form) (k : PcvtKind) (src : Ty)
  | pdot (f : Form)
  | xclr (f : Form) (j : BitVec 2)
  | xacc (f : Form) (j : BitVec 2)
  | xadd (f : Form) (j : BitVec 2)
  | xrnd (f : Form) (j : BitVec 2)
  | xsgn (f : Form) (j : BitVec 2)
  -- group 11: memory and synchronisation (spec/14_isa_memory_sync.md)
  | ld (f : Form) (m : MemArg)
  | ldp (f : Form) (m : MemArg)
  | st (f : Form) (m : MemArg)
  | atom (f : Form) (m : MemArg)
  | cas (f : Form) (m : MemArg)
  | red (f : Form) (m : MemArg)
  | pref (f : Form) (m : MemArg)
  | fence (f : Form) (lsid : BitVec 5)
  | smap (f : Form) (lsid : BitVec 5)
  | sunmap (f : Form) (lsid : BitVec 5)
  | swb (f : Form) (lsid : BitVec 5)
  | sinv (f : Form) (lsid : BitVec 5)
  | halloc (f : Form) (lsid : BitVec 5)
  | hfree (f : Form) (lsid : BitVec 5)
  | wait (f : Form) (st cp ta sf : BitVec 6)
  | waitr (f : Form) (path : Path)
  | semAcq (f : Form) (s : BitVec 6) (m : BitVec 10)
  | semRel (f : Form) (s : BitVec 6) (m : BitVec 10)
  | semTry (f : Form) (s : BitVec 6) (m : BitVec 10)
  | barInit (f : Form) (b : BitVec 9)
  | barArr (f : Form) (b : BitVec 9)
  | barWait (f : Form) (b : BitVec 9)
  | barAw (f : Form) (b : BitVec 9)
  | barDrop (f : Form) (b : BitVec 9)
  | barTx (f : Form) (b : BitVec 9)
  | barGen (f : Form) (b : BitVec 9)
  | tlwait (f : Form)
  | tlread (f : Form)
  | dsync (f : Form)
  | lclk (f : Form)
  | prov (f : Form) (clear : Bool)
  | stalls (f : Form)
  -- tile array, Beaver and Badger (spec/15_isa_tile_copy_pool.md)
  | tmma (f : Form) (a : MmaArg)
  | tdist (f : Form) (a : MmaArg)
  | ttopk (f : Form) (zs zd : BitVec 4) (k1 : BitVec 5) (largest : Bool)
  | tld (f : Form) (z : BitVec 4)
  | tst (f : Form) (z : BitVec 4)
  | tclr (f : Form) (z : BitVec 4)
  | tcvt (f : Form) (z : BitVec 4) (trans : Bool) (src : Ty)
  | trmax (f : Form) (z : BitVec 4)
  | trsum (f : Form) (z : BitVec 4)
  | trscl (f : Form) (z : BitVec 4)
  | cpy (f : Form) (p1 : BitVec 5)
  | cpyg (f : Form) (p1 : BitVec 5)
  | cpyx (f : Form) (p1 : BitVec 5)
  | cfill (f : Form) (p1 : BitVec 5)
  | trc (f : Form)
  | pfill (f : Form)
  | pcopy (f : Form)
  | pcmp (f : Form)
  | predx (f : Form) (elem : Ty) (fn : BadgerFn)
  | pgath (f : Form) (elem : Ty) (fn : BadgerFn)
  -- system, trap and debug (spec/16_isa_system.md)
  | pmap (f : Form)
  | punmap (f : Form)
  | tlbinv (f : Form)
  | sysrd (f : Form) (r : SysReg)
  | syswr (f : Form) (r : SysReg)
  | trap (f : Form) (sub : BitVec 16)
  | tret (f : Form)
  | brk (f : Form)
  | cyc (f : Form)
  | waitc (f : Form)
  | halt (f : Form)
  -- bring-up, power and temperature (spec/01_package.md)
  | trainingFailure (u : FailUnit)
  | targetFrequencyChange (die q mhz : Nat)
  | powerSample (watts : Nat)
  | droopStretch (die core : Nat)
  | thermalWarning (die celsius : Nat)
  | thermalThrottle (die : Nat)
  | thermalThrottleRelease (die : Nat)
  | scrubRead (stack : Nat) (line : Nat) (found : ScrubResult)
  | sequencerWatchdog (which : Sequencer)
  -- links and the rack device (spec/02_links.md)
  | flitReceive (l : Link) (f : Flit)
  | negativeAcknowledgement (l : Link) (expected : BitVec 12)
  | ackTimeout (l : Link)
  | linkRetrain (l : Link)
  | retrainComplete (l : Link) (lanes : Nat)
  | linkDown (l : Link)
  | helloSend (die port : Nat)
  | helloReceive (die port : Nat) (h : Hello)
  | memberSet (members : W64)
  | unreachableReport (from_ : Nat)
  | census (parts : List CensusPart)
  -- directory and pool (spec/03_pool.md)
  | rds (die line : Nat)
  | rdx (die line : Nat)
  | upg (die line : Nat)
  | wb (die line : Nat) (bytes : Option (List (Nat × Byte)))   -- none: its data is lost (01 R36)
  | cleanEviction (die line : Nat)
  | probe (die line : Nat) (k : ProbeKind)
  | probeReply (die line : Nat) (dirty : List (Nat × Byte))
  | redirect (die page stack : Nat)
  | pageMoveStart (page stack : Nat) (retire : Bool)
  | moveCopyComplete (page : Nat)
  | moveFinish (page : Nat)
  | badgerOperation (op : BadgerOp)
  | badgerComplete (stack ctx num : Nat) (e : EndStatus)
  | chunkRequest (handler : Bool) (pos : Nat) (addr : W64)
  | edgeSend (r : EdgeReq)
  | edgeTake (r : EdgeReq)
  | edgeRetry (r : EdgeReq) (send : Bool)
  -- host attachment and the Owl (spec/04_host_commands.md)
  | pcieLinkTrain (rate width : Nat)
  | apertureWrite (off : Nat) (bytes : List Byte)
  | apertureRead (off len : Nat)
  | adminQcb (v : W64)
  | admitDigest (ctx member : Nat) (digest : BitVec 256) (at_ : W64)
  | registerWrite (off : Nat) (v : W64)
  | poolCommandCompletion (status : Byte)
  | powerLimitEffecter (watts : Nat)
  | packageNumberEffecter (tray slot : Nat)
  | domainIdEffecter (v : W64)
  | presentMaskEffecter (v : W64)
  | sensorRead (what : Sensor)
  | firmwareUpdate (c : Component) (image : List Byte)
  | firmwareActivate (c : Component)
  | mctpAttestation (nonce : List Byte)
  -- launches and distribution (spec/05_distribution.md)
  | split (launch : Nat) (die : Option Nat) (teams : List Nat)
  | stealRequest (reqs : List StealReq)
  | stealReply (r : StealReq) (teams : List Nat)
  | binTimer (team bin : Nat)
  | binLaunch (team bin : Nat)
  | taskArrival (launch die core : Nat) (t : TaskDesc)
  | counterPartReport (launch die : Nat) (zero : Bool)
  -- cores and blocks (spec/06_cores.md, 08_translation_faults.md, 10_blocks_assembly.md)
  | registerFill (line : Nat) (fate : ReplyFate)
  | memoryReply (req : Nat) (fate : ReplyFate)
  | missReplay (req : Nat)
  | watchedWrite (line : Nat)
  | lrmRemapComplete (core q : Nat)
  | translationWalk (va : W64) (write fetch sup : Bool)
  | contextFault (tag : W32) (sub code : Nat)
  | copyPartArrive (gang team part p flight : Nat) (kind : BitVec 2) (sup : Bool) (lck : W64) (sord : BitVec 24) (desc : List Byte)
  | copyComplete (team num : Nat)
  | copyFailureReport (team num : Nat)
  | smapComplete (team region : Nat)
  | regionWritebackComplete (gang team region : Nat)
  | droopEnd (die core : Nat)
  | domainReform (members : W64)
  | pcieAtomicop (kind : PcieAtomic) (off : Nat) (wide : Bool) (operand compare : W64)
  | badgerFailureReport (gang stack num : Nat) (e : EndStatus)
  | partitionRestore (fate : ReplyFate)
  -- package steps whose subject (gang, core, partition, context, queue, launch or packet) is the one the step is
  -- focused on: the state holds it (`State.gid`, `State.subj`, `State.pkt`)
  | standbyPowerGood
  | coldReset
  | warmReset
  | bootComplete
  | trainingEnd
  | serviceTransitionTimeout
  | droopGuard
  | partitionAdmission
  | thermalStop
  | domainPublish
  | formationTimeout
  | heartbeat
  | heartbeatTimeout
  | standbyTakeover
  | freeze
  | thaw
  | adminDoorbell
  | doorbell
  | tailPoll
  | packetAdmission
  | admitTimeout
  | launch
  | graph
  | tlwaitPacket
  | tlwaitSatisfied
  | tlwaitTimeout
  | tlsignal
  | fencePacket
  | preempt
  | traceOpen
  | traceClose
  | traceDrainTimeout
  | wrap
  | ctxCreate
  | ctxDestroy
  | queueResume
  | queueResumeSkip
  | queueResumeReset
  | hostHalt
  | poolMap
  | poolUnmap
  | migrate
  | eqCreate
  | tableBase
  | patchStage
  | owlRestart
  | attest
  | attestSigned
  | pairBind
  | owlWatchdog
  | owlRestartDone
  | pldmDiscovery
  | certificateRead
  | teamAdmit
  | stealBackoff
  | launchComplete
  | partitionPreempt
  | partitionHalted
  | shadowSaveComplete
  | restoreComplete
  | blockStall
  | blockFetch
  | headerDecode
  | blockCommit
  | timedDeadline
  | parkTimeout
  | slotTakeover
  | tlbinvComplete
  | tileQueueStart
  | tileQueueComplete
  | sampleDue
  | coreCycle
  deriving DecidableEq, Repr

end Sys2Proof
end

