-- ==== Sys2Proof/WellFormed.lean ====
section
/-! DEFINITION. What a well-formed instruction is: the signature of every instruction (the tables of
spec/12 to spec/16, read by R324), and the field checks of spec/11_encoding.md R308 to R319 in the order of
the ILLEGAL subcodes of R322. -/

namespace Sys2Proof

/-- W2 classes (R316). -/
inductive W2Class where
  | n | v | d | m | l | s
  deriving DecidableEq, Repr

/-- What a signature says of one slot (R275, R324); `opt` is the optional slot of R336 and R433. -/
inductive SlotUse where
  | no
  | need (c : TokClass)
  | opt (c : TokClass)
  deriving DecidableEq, Repr

/-- What W1 [26:24] may hold (R210, R313). -/
inductive RmRule where
  | zero      -- neither rounds nor saturates: 000
  | sat       -- 000 or 101
  | all       -- 000 to 111, 110 only for destinations of 16 bits or fewer
  | no110     -- every code but 110
  | ordLd | ordSt | ordAtom | ordFence
  deriving DecidableEq, Repr

/-- What W1 [20:18] may hold (R314, R395). -/
inductive CpRule where
  | zero | cache | pref | atom | red
  deriving DecidableEq, Repr

/-- A signature: what the decoder and the header check need to know of one instruction (R324). -/
structure Sig where
  cls  : W2Class
  vcs  : List TokClass
  tok  : Bool
  a    : SlotUse := .no
  b    : SlotUse := .no
  c    : SlotUse := .no
  tys  : List Ty
  rm   : RmRule := .zero
  sc   : Bool := false
  cp   : CpRule := .zero
  lit  : Bool := false    -- the literal is the immediate of the entry (`const`)
  args : Bool := true     -- the W2 operands lie in their listed ranges (subcode 6)
  deriving DecidableEq, Repr

/-- The type code of TY (R312). -/
def Ty.code : Ty → BitVec 5
  | .i8 => 0 | .i16 => 1 | .i32 => 2 | .i64 => 3 | .n8 => 4 | .n16 => 5 | .n32 => 6 | .n64 => 7
  | .b32 => 8 | .b64 => 9 | .f16 => 10 | .bf16 => 11 | .f32 => 12 | .f64 => 13 | .e4m3 => 14
  | .e5m2 => 15 | .e2m1 => 16 | .mx8a => 17 | .mx8b => 18 | .mx4 => 19 | .mxi8 => 20 | .mask => 21

/-- Width in bits of a scalar type (R312); an MX form counts its element. -/
def Ty.width : Ty → Nat
  | .i8 | .n8 | .e4m3 | .e5m2 | .mx8a | .mx8b | .mxi8 => 8
  | .i16 | .n16 | .f16 | .bf16 => 16
  | .i32 | .n32 | .b32 | .f32 | .mask => 32
  | .i64 | .n64 | .b64 | .f64 => 64
  | .e2m1 | .mx4 => 4

/-- i types (signed). -/
def Ty.isI : Ty → Bool
  | .i8 | .i16 | .i32 | .i64 => true
  | _ => false

/-- n types (unsigned). -/
def Ty.isN : Ty → Bool
  | .n8 | .n16 | .n32 | .n64 => true
  | _ => false

/-- b types (bit patterns). -/
def Ty.isB : Ty → Bool
  | .b32 | .b64 => true
  | _ => false

/-- Scalar floating-point formats (R360). -/
def Ty.isFloat : Ty → Bool
  | .f16 | .bf16 | .f32 | .f64 | .e4m3 | .e5m2 | .e2m1 => true
  | _ => false

/-- Block-scaled forms (R363). -/
def Ty.isMx : Ty → Bool
  | .mx8a | .mx8b | .mx4 | .mxi8 => true
  | _ => false

/-- I of R352. -/
def tysI : List Ty := [.i8, .i16, .i32, .i64, .n8, .n16, .n32, .n64]
/-- I and B of R352. -/
def tysIB : List Ty := tysI ++ [.b32, .b64]
/-- The wide types of R352, R354, R358. -/
def tysWide : List Ty := [.i32, .i64, .n32, .n64]
/-- `bfx` and `bfi` (R352). -/
def tysWideB : List Ty := tysWide ++ [.b32, .b64]
/-- F of R373. -/
def tysF : List Ty := [.f64, .f32, .f16, .bf16]
/-- F and the narrow formats (R373). -/
def tysFN : List Ty := tysF ++ [.e4m3, .e5m2, .e2m1]
/-- The packed formats of R386. -/
def tysP : List Ty := [.f16, .bf16]
/-- Codes 0 to 15 (R395). -/
def tysMem : List Ty := tysIB ++ [.f16, .bf16, .f32, .f64, .e4m3, .e5m2]
/-- A formats of the tile array (R430). -/
def tysA : List Ty := [.bf16, .f16, .e4m3, .e5m2, .e2m1, .i8, .mx8a, .mx8b, .mx4, .mxi8]

/-- The B formats that go with an A format (R430). -/
def bFormats : Ty → List Ty
  | .bf16 => [.bf16]
  | .f16 => [.f16]
  | .e4m3 | .e5m2 => [.e4m3, .e5m2]
  | .e2m1 => [.e2m1]
  | .i8 => [.i8]
  | .mx8a | .mx8b => [.mx8a, .mx8b]
  | .mx4 => [.mx4]
  | .mxi8 => [.mxi8]
  | _ => []

/-- TY of `redux` and `scan` by operation (R349). -/
def tysRed : RedOp → List Ty
  | .add | .min | .max => tysWide ++ [.f32, .f64]
  | .and | .or | .xor => tysWideB

/-- TY of `atom` and `red` by AOP (R399). -/
def tysAop (aop : BitVec 3) : List Ty :=
  if aop.toNat ≤ 2 then tysWide
  else if aop.toNat ≤ 5 then tysWideB
  else if aop = 6 then tysWideB ++ [.f32, .f64]
  else [.f32, .f64]

/-- Class of a system register (R458). -/
def SysReg.cls : SysReg → TokClass
  | .exm | .sfmask | .flm => .mask
  | .xinv | .fva | .pmres => .lane
  | _ => .uni

/-- Registers with write access (R458). -/
def SysReg.writable : SysReg → Bool
  | .fst | .lrm => true
  | _ => false

/-- Registers privileged for a read (R458). -/
def SysReg.privRead : SysReg → Bool
  | .flm | .fcause | .fpc | .fva | .pmres => true
  | _ => false

/-- Registers privileged for a write (R458). -/
def SysReg.privWrite : SysReg → Bool
  | .lrm => true
  | _ => false

/-- Class of a register token (R328). -/
def Reg.cls : Reg → TokClass
  | .v _ => .lane
  | .s _ => .uni
  | .k _ => .mask

/-- Class V of a slot: the class of the result (R324). -/
def Form.v (f : Form) : SlotUse := .need f.vc
/-- A slot that is uniform for VC 01 and per-lane otherwise (R328, R346). -/
def Form.lu (f : Form) : SlotUse := .need (if f.vc = .uni then .uni else .lane)

/-- The destination and source combinations of `pcvt` (R388). -/
def pcvtOk : PcvtKind → Ty → Ty → Bool
  | .lo, s, t | .hi, s, t => tysP.contains s && t == .f32
  | .pk, s, t => s == .f32 && tysP.contains t
  | .p8, s, t => tysP.contains s && [Ty.e4m3, .e5m2, .e2m1].contains t
  | .u8, s, t => [Ty.e4m3, .e5m2, .e2m1].contains s && tysP.contains t

/-- TY of `tcvt` by source type (R443); with a source that is not listed, which the W2 check refuses, any of them. -/
def tysTcvt : Ty → List Ty
  | .f32 => [.f32, .bf16, .f16, .e4m3, .e5m2, .e2m1, .mx8a, .mx8b, .mx4, .mxi8]
  | .i32 => [.i32, .i8, .f32, .bf16, .f16]
  | _ => [.f32, .bf16, .f16, .e4m3, .e5m2, .e2m1, .mx8a, .mx8b, .mx4, .mxi8, .i32, .i8]

/-- Element types of `predx` and `pgath` (R84). -/
def tysBadgerElem : List Ty := [.f64, .f32, .bf16, .f16, .i32, .i64, .n32, .n64]

/-- Result types of `predx` and `pgath` by element type (R453); for bf16 and f16 elements the element type and f32
(log 129).  With an element type that is not listed, which the W2 check refuses, any listed type. -/
def tysBadger : Ty → List Ty
  | .bf16 => [.bf16, .f32]
  | .f16 => [.f16, .f32]
  | e => if tysBadgerElem.contains e then [e] else tysBadgerElem

/-- An integer instruction of R352. -/
def sigInt (f : Form) (tys : List Ty) (b c sat : Bool) : Sig :=
  { cls := .n, vcs := [.lane, .uni], tok := true, a := f.v,
    b := if b then f.v else .no, c := if c then f.v else .no, tys := tys,
    rm := if sat && !f.ty.isB then .sat else .zero }

/-- A scalar floating-point instruction of R373 or R384. -/
def sigFp (f : Form) (b c : Bool) (rm : RmRule) : Sig :=
  { cls := .n, vcs := [.lane, .uni], tok := true, a := f.v,
    b := if b then f.v else .no, c := if c then f.v else .no, tys := tysF, rm := rm }

/-- An exact-accumulator instruction of R390. -/
def sigX (a b tok : Bool) (tys : List Ty) (rm : RmRule) : Sig :=
  { cls := .s, vcs := [.lane], tok := tok, a := if a then .need .lane else .no,
    b := if b then .need .lane else .no, tys := tys, rm := rm }

/-- A class L, S or N instruction of group 11 with uniform slots and no token. -/
def sigU (cls : W2Class) (a b c : Bool) : Sig :=
  { cls := cls, vcs := [.lane], tok := false, a := if a then .need .uni else .no,
    b := if b then .need .uni else .no, c := if c then .need .uni else .no, tys := [.b64] }

/-- The spaces an access instruction takes (R395). -/
def spaceOk (loads : Bool) : Space → Bool
  | .ctx => loads
  | _ => true

/-- A class M instruction (R395). -/
def sigM (f : Form) (m : MemArg) (tok : Bool) (tys : List Ty) (b c : SlotUse) (rm : RmRule) (cp : CpRule)
    (asOk : Bool) : Sig :=
  { cls := .m, vcs := if tok then [.lane, .uni] else [.lane], tok := tok,
    a := if tok then f.v else .need .lane, b := b, c := c, tys := tys, rm := rm, sc := rm != .zero,
    cp := if cp = .cache && !(m.as == .global || m.as == .pool) then .zero else cp, args := asOk }

/-- The signature of each Oluask instruction; `none` for a package step, which has no encoding. -/
def Instr.sig : Instr → Option Sig
  | .rd _ r => some { cls := .v, vcs := [r.cls], tok := true, tys := [.i64] }
  | .wr _ r => some { cls := .v, vcs := [.lane], tok := false, a := .need r.cls, tys := [.i64] }
  | .mov f => some { cls := .n, vcs := [.lane, .uni, .mask], tok := true, a := f.v, tys := [.i64] }
  | .const _ => some { cls := .n, vcs := [.lane, .uni, .mask], tok := true, tys := [.i64], lit := true }
  | .nul f => some { cls := .n, vcs := [.lane, .uni, .mask], tok := true, a := f.lu, tys := [.i64] }
  | .sel f => some { cls := .n, vcs := [.lane, .uni, .mask], tok := true, a := f.v, b := f.v,
                     c := .need (if f.vc = .uni then .uni else .mask), tys := [.i64] }
  | .lid _ k => some { cls := .s, vcs := if k = .lane ∨ k = .slice then [.lane] else [.lane, .uni],
                       tok := true, tys := [.i64] }
  | .br _ _ => some { cls := .d, vcs := [.lane], tok := false, tys := [.i64] }
  | .bl _ _ => some { cls := .d, vcs := [.lane, .uni], tok := true, tys := [.i64] }
  | .jr _ => some { cls := .n, vcs := [.lane], tok := false, a := .need .lane, tys := [.i64] }
  | .regang _ _ => some { cls := .d, vcs := [.lane], tok := false, a := .need .mask, tys := [.i64], sc := true }
  | .exit _ => some { cls := .n, vcs := [.lane], tok := false, b := .opt .uni, tys := [.i64], sc := true }
  | .yield _ => some { cls := .n, vcs := [.lane], tok := false, tys := [.i64] }
  | .rquota _ => some { cls := .n, vcs := [.uni], tok := true, a := .need .uni, tys := [.i64] }
  | .spawn _ _ => some { cls := .d, vcs := [.lane], tok := false, a := .need .lane, tys := [.i64], sc := true }
  | .enq _ => some { cls := .n, vcs := [.lane], tok := false, a := .need .lane, tys := [.i64], sc := true }
  | .chunk _ => some { cls := .n, vcs := [.uni], tok := true, a := .need .uni, tys := [.i64] }
  | .qsend _ => some { cls := .n, vcs := [.uni], tok := true, a := .need .uni, b := .need .lane, tys := [.i64],
                       sc := true }
  | .qtake _ => some { cls := .n, vcs := [.lane], tok := true, a := .need .uni, tys := [.i64], sc := true }
  | .add f => some (sigInt f tysI true false true)
  | .sub f => some (sigInt f tysI true false true)
  | .mul f => some (sigInt f tysI true false true)
  | .mulhi f => some (sigInt f tysI true false false)
  | .mad f => some (sigInt f tysI true true true)
  | .div f => some (sigInt f tysI true false false)
  | .rem f => some (sigInt f tysI true false false)
  | .adc _ => some { cls := .n, vcs := [.lane, .mask], tok := true, a := .need .lane, b := .need .lane,
                     c := .need .mask, tys := tysWide }
  | .sbc _ => some { cls := .n, vcs := [.lane, .mask], tok := true, a := .need .lane, b := .need .lane,
                     c := .need .mask, tys := tysWide }
  | .min f => some (sigInt f tysI true false false)
  | .max f => some (sigInt f tysI true false false)
  | .abs f => some (sigInt f tysI false false true)
  | .neg f => some (sigInt f tysI false false true)
  | .adr f => some (sigInt f tysWide true true false)
  | .cvt f src => some { sigInt f tysIB false false true with cls := .s, args := tysIB.contains src }
  | .and f => some (sigInt f tysIB true false false)
  | .or f => some (sigInt f tysIB true false false)
  | .xor f => some (sigInt f tysIB true false false)
  | .not f => some (sigInt f tysIB false false false)
  | .shl f => some (sigInt f tysIB true false false)
  | .shr f => some (sigInt f tysIB true false false)
  | .sra f => some (sigInt f tysIB true false false)
  | .rot f => some (sigInt f tysIB true false false)
  | .bfx f => some (sigInt f tysWideB true false false)
  | .bfi f => some (sigInt f tysWideB true true false)
  | .popc f => some (sigInt f tysIB false false false)
  | .clz f => some (sigInt f tysIB false false false)
  | .ctz f => some (sigInt f tysIB false false false)
  | .brev f => some (sigInt f tysIB false false false)
  | .cmp f rel => some { cls := .s, vcs := [.lane, .uni, .mask], tok := true, a := f.lu, b := f.lu,
                         tys := if rel = .eq ∨ rel = .ne then tysIB else tysI }
  | .vote _ k => some { cls := .s, vcs := if k = .ballot then [.mask] else [.lane, .uni], tok := true,
                        a := .need .lane, tys := [.i64] }
  | .shfl _ _ => some { cls := .s, vcs := [.lane], tok := true, a := .need .lane, b := .need .lane,
                        c := .need .lane, tys := [.i64] }
  | .redux f op => some { cls := .s, vcs := [.lane, .uni], tok := true, a := .need .lane, tys := tysRed op,
                          rm := if op = .add ∧ f.ty.isFloat then .no110 else .zero }
  | .scan f op _ => some { cls := .s, vcs := [.lane], tok := true, a := .need .lane, tys := tysRed op,
                           rm := if op = .add ∧ f.ty.isFloat then .no110 else .zero }
  | .kand _ => some { cls := .n, vcs := [.mask], tok := true, a := .need .mask, b := .need .mask, tys := [.i64] }
  | .kor _ => some { cls := .n, vcs := [.mask], tok := true, a := .need .mask, b := .need .mask, tys := [.i64] }
  | .kxor _ => some { cls := .n, vcs := [.mask], tok := true, a := .need .mask, b := .need .mask, tys := [.i64] }
  | .knot _ => some { cls := .n, vcs := [.mask], tok := true, a := .need .mask, tys := [.i64] }
  | .kpop _ => some { cls := .n, vcs := [.lane, .uni], tok := true, a := .need .mask, tys := [.i64] }
  | .kfst _ => some { cls := .n, vcs := [.lane, .uni], tok := true, a := .need .mask, tys := [.i64] }
  | .fadd f => some (sigFp f true false .all)
  | .fsub f => some (sigFp f true false .all)
  | .fmul f => some (sigFp f true false .all)
  | .fma f => some (sigFp f true true .all)
  | .fdiv f => some (sigFp f true false .all)
  | .fsqrt f => some (sigFp f false false .all)
  | .frcp f => some (sigFp f false false .all)
  | .frsqrt f => some (sigFp f false false .all)
  | .fmin f => some (sigFp f true false .zero)
  | .fmax f => some (sigFp f true false .zero)
  | .fabs f => some (sigFp f false false .zero)
  | .fneg f => some (sigFp f false false .zero)
  | .fcmp f _ => some { cls := .s, vcs := [.lane, .uni, .mask], tok := true, a := f.lu, b := f.lu, tys := tysF }
  | .fclass f => some { sigFp f false false .zero with tys := tysFN }
  | .fcvt f src => some { sigFp f false false .all with
      cls := .s, tys := tysFN, args := tysFN.contains src }
  | .fcvti f src => some { sigFp f false false .no110 with cls := .s, tys := tysI, args := tysF.contains src }
  | .icvtf f src => some { sigFp f false false .all with cls := .s, args := tysI.contains src }
  | .frnd f => some (sigFp f false false .no110)
  | .fldx f => some (sigFp f true false .all)
  | .ffrx f => some (sigFp f false false .zero)
  | .fexp f => some (sigFp f false false .no110)
  | .fexp2 f => some (sigFp f false false .no110)
  | .flog f => some (sigFp f false false .no110)
  | .flog2 f => some (sigFp f false false .no110)
  | .fsin f => some (sigFp f false false .no110)
  | .fcos f => some (sigFp f false false .no110)
  | .ftanh f => some (sigFp f false false .no110)
  | .flgst f => some (sigFp f false false .no110)
  | .ferf f => some (sigFp f false false .no110)
  | .fatan2 f => some (sigFp f true false .no110)
  | .fpow f => some (sigFp f true false .no110)
  | .pfma f => some { sigFp f true true .all with tys := tysP }
  | .padd f => some { sigFp f true false .all with tys := tysP }
  | .pmul f => some { sigFp f true false .all with tys := tysP }
  | .pmax f => some { sigFp f true false .zero with tys := tysP }
  | .pcvt f k src => some
      { cls := .s, vcs := [.lane, .uni], tok := true, a := f.v, b := if k = .pk then f.v else .no,
        tys := tysF ++ [.e4m3, .e5m2, .e2m1], rm := if k = .pk ∨ k = .p8 then .all else .zero,
        args := pcvtOk k src f.ty }
  | .pdot f => some { sigFp f true true .no110 with tys := tysP }
  | .xclr _ _ => some (sigX false false false [.f64] .zero)
  | .xacc _ _ => some (sigX true true false tysF .zero)
  | .xadd _ _ => some (sigX true false false tysF .zero)
  | .xrnd _ _ => some (sigX false false true tysF .all)
  | .xsgn _ _ => some (sigX false false true [.f64] .zero)
  | .ld f m => some (sigM f m true tysMem .no .no .ordLd .cache true)
  | .ldp f m => some (sigM f m true [.i32, .i64, .n32, .n64, .b32, .b64, .f32, .f64] .no .no .ordLd .zero
      (m.as == .global))
  | .st f m => some (sigM f m false tysMem (.need .lane) .no .ordSt .cache true)
  | .atom f m => some (sigM f m true (tysAop f.cp) f.v .no .ordAtom .atom (spaceOk false m.as))
  | .cas f m => some (sigM f m true tysWideB f.v f.v .ordAtom .zero (spaceOk false m.as))
  | .red f m => some (sigM f m false (tysAop f.cp) (.need .lane) .no .ordSt .red (spaceOk false m.as))
  | .pref f m => some (sigM f m false [.b64] .no .no .zero .pref (m.as == .global))
  | .fence _ _ => some { cls := .l, vcs := [.lane], tok := false, tys := [.b64], rm := .ordFence, sc := true }
  | .smap _ _ => some (sigU .l true true true)
  | .sunmap _ _ => some (sigU .l true false false)
  | .swb _ _ => some (sigU .l true true false)
  | .sinv _ _ => some (sigU .l true true false)
  | .halloc f _ => some { cls := .l, vcs := [.lane, .uni], tok := true, a := f.v, tys := [.b64] }
  | .hfree _ _ => some { cls := .l, vcs := [.lane], tok := false, a := .need .lane, b := .need .lane, tys := [.b64] }
  | .wait _ _ _ _ _ => some (sigU .s false false false)
  | .waitr _ _ => some (sigU .s true false false)
  | .semAcq _ _ m => some { sigU .s false false false with sc := true, args := m != 0 }
  | .semRel _ _ m => some { sigU .s false false false with sc := true, args := m != 0 }
  | .semTry _ _ m => some { sigU .s false false false with vcs := [.uni], tok := true, sc := true, args := m != 0 }
  | .barInit _ _ => some (sigU .s true false false)
  | .barArr _ _ => some { sigU .s false false false with vcs := [.uni], tok := true, sc := true }
  | .barWait _ _ => some { sigU .s true false false with sc := true }
  | .barAw _ _ => some { sigU .s false false false with vcs := [.uni], tok := true, sc := true }
  | .barDrop _ _ => some { sigU .s false false false with vcs := [.uni], tok := true, sc := true }
  | .barTx _ _ => some (sigU .s true false false)
  | .barGen _ _ => some { sigU .s false false false with vcs := [.uni], tok := true }
  | .tlwait _ => some { sigU .s true true false with sc := true }
  | .tlread _ => some { sigU .s true false false with vcs := [.uni], tok := true }
  | .dsync _ => some { sigU .n false false false with sc := true }
  | .lclk _ => some { sigU .n false false false with vcs := [.uni], tok := true }
  | .prov _ _ => some { sigU .s false false false with tok := true }
  | .stalls _ => some { sigU .n false false false with tok := true }
  | .tmma f a => some { sigU .s true f.ty.isMx false with
      tys := tysA, args := (bFormats f.ty).contains a.bfmt && decide (a.vb.toNat + (if f.ty.isMx then 16 else 15) ≤ 127) }
  | .tdist f a => some { sigU .s true f.ty.isMx false with
      tys := tysA, args := (bFormats f.ty).contains a.bfmt && decide (a.vb.toNat + (if f.ty.isMx then 16 else 15) ≤ 127) }
  | .ttopk _ _ _ _ _ => some { sigU .s false false false with tys := [.f32, .i32] }
  | .tld _ _ => some (sigU .s true true false)
  | .tst _ _ => some (sigU .s true true false)
  | .tclr _ _ => some (sigU .s false false false)
  | .tcvt f _ _ src => some { sigU .s true true f.ty.isMx with
      tys := tysTcvt src, args := src == .f32 || src == .i32,
      rm := if src = .i32 ∧ f.ty.isI then .sat else .all }
  | .trmax _ _ => some { sigU .s false false false with tok := true, a := .opt .lane, tys := [.f32, .i32] }
  | .trsum f _ => some { sigU .s false false false with
      tok := true, a := .opt .lane, tys := [.f32, .i32], rm := if f.ty = .f32 then .no110 else .zero }
  | .trscl _ _ => some { sigU .s false false false with a := .need .lane, tys := [.f32], rm := .no110 }
  | .cpy _ _ => some (sigU .s true false false)
  | .cpyg _ _ => some (sigU .s true false false)
  | .cpyx _ _ => some (sigU .s true false false)
  | .cfill _ _ => some (sigU .s true false false)
  | .trc _ => some (sigU .s false false false)
  | .pfill _ => some (sigU .s true false false)
  | .pcopy _ => some (sigU .s true false false)
  | .pcmp _ => some (sigU .s true false false)
  | .predx f e _ => some { sigU .s true false false with
      tys := tysBadger e, rm := if f.ty.isFloat then .no110 else .zero, args := tysBadgerElem.contains e }
  | .pgath f e _ => some { sigU .s true false false with
      tys := tysBadger e, rm := if f.ty.isFloat then .no110 else .zero, args := tysBadgerElem.contains e }
  | .pmap _ => some { sigU .s false false false with a := .need .lane }
  | .punmap _ => some { sigU .s false false false with a := .need .lane }
  | .tlbinv _ => some (sigU .n true true false)
  | .sysrd _ r => some { sigU .s false false false with vcs := [r.cls], tok := true }
  | .syswr _ r => some { sigU .s false false false with a := .need r.cls, args := r.writable }
  | .trap _ _ => some (sigU .s false false false)
  | .tret _ => some (sigU .n false false false)
  | .brk _ => some (sigU .n false false false)
  | .cyc _ => some { sigU .n false false false with vcs := [.uni], tok := true }
  | .waitc _ => some (sigU .n true false false)
  | .halt _ => some (sigU .n false false false)
  | _ => none

/-- The fields common to every instruction; `none` for a package step. -/
def Instr.form : Instr → Option Form
  | .rd f _ | .wr f _ | .mov f | .const f | .nul f | .sel f | .lid f _ | .br f _ | .bl f _ | .jr f
  | .regang f _ | .exit f | .yield f | .rquota f | .spawn f _ | .enq f | .chunk f | .qsend f | .qtake f
  | .add f | .sub f | .mul f | .mulhi f | .mad f | .div f | .rem f | .adc f | .sbc f | .min f | .max f
  | .abs f | .neg f | .adr f | .cvt f _ | .and f | .or f | .xor f | .not f | .shl f | .shr f | .sra f
  | .rot f | .bfx f | .bfi f | .popc f | .clz f | .ctz f | .brev f | .cmp f _ | .vote f _ | .shfl f _
  | .redux f _ | .scan f _ _ | .kand f | .kor f | .kxor f | .knot f | .kpop f | .kfst f
  | .fadd f | .fsub f | .fmul f | .fma f | .fdiv f | .fsqrt f | .frcp f | .frsqrt f | .fmin f | .fmax f
  | .fabs f | .fneg f | .fcmp f _ | .fclass f | .fcvt f _ | .fcvti f _ | .icvtf f _ | .frnd f | .fldx f
  | .ffrx f | .fexp f | .fexp2 f | .flog f | .flog2 f | .fsin f | .fcos f | .ftanh f | .flgst f | .ferf f
  | .fatan2 f | .fpow f | .pfma f | .padd f | .pmul f | .pmax f | .pcvt f _ _ | .pdot f | .xclr f _
  | .xacc f _ | .xadd f _ | .xrnd f _ | .xsgn f _
  | .ld f _ | .ldp f _ | .st f _ | .atom f _ | .cas f _ | .red f _ | .pref f _ | .fence f _ | .smap f _
  | .sunmap f _ | .swb f _ | .sinv f _ | .halloc f _ | .hfree f _ | .wait f _ _ _ _ | .waitr f _
  | .semAcq f _ _ | .semRel f _ _ | .semTry f _ _ | .barInit f _ | .barArr f _ | .barWait f _ | .barAw f _
  | .barDrop f _ | .barTx f _ | .barGen f _ | .tlwait f | .tlread f | .dsync f | .lclk f | .prov f _
  | .stalls f | .tmma f _ | .tdist f _ | .ttopk f _ _ _ _ | .tld f _ | .tst f _ | .tclr f _ | .tcvt f _ _ _
  | .trmax f _ | .trsum f _ | .trscl f _ | .cpy f _ | .cpyg f _ | .cpyx f _ | .cfill f _ | .trc f
  | .pfill f | .pcopy f | .pcmp f | .predx f _ _ | .pgath f _ _ | .pmap f | .punmap f | .tlbinv f
  | .sysrd f _ | .syswr f _ | .trap f _ | .tret f | .brk f | .cyc f | .waitc f | .halt f => some f
  | _ => none

/-- LEN allowed for the class, and a literal only where it has a use (R316, R319): subcode 3. -/
def lenOk (g : Sig) (f : Form) : Bool :=
  (g.cls == .n || f.ext) &&
  (if g.lit then f.lit.isSome else f.lit.isNone || g.b != .no)

/-- VC accepted (R308): subcode 4. -/
def vcOk (g : Sig) (f : Form) : Bool := g.vcs.contains f.vc

/-- RM or ORD accepted (R210, R313). -/
def rmOk (g : Sig) (f : Form) : Bool :=
  match g.rm with
  | .zero => f.rm == 0
  | .sat => f.rm == 0 || f.rm == 5
  | .all => f.rm != 6 || decide (f.ty.width ≤ 16)
  | .no110 => f.rm != 6
  | .ordLd => f.rm == 0 || f.rm == 1
  | .ordSt => f.rm == 0 || f.rm == 2
  | .ordAtom => decide (f.rm.toNat ≤ 4)
  | .ordFence => decide (1 ≤ f.rm.toNat ∧ f.rm.toNat ≤ 4)

/-- CP or AOP accepted (R314). -/
def cpOk (g : Sig) (f : Form) : Bool :=
  match g.cp with
  | .zero => f.cp == 0
  | .cache => decide (f.cp.toNat ≤ 4)
  | .pref => decide (f.cp.toNat ≤ 3)
  | .atom => true
  | .red => f.cp != 6

/-- W1 accepted (R310 to R315): subcode 5. -/
def w1Ok (g : Sig) (f : Form) : Bool :=
  g.tys.contains f.ty && rmOk g f && (g.sc || f.sc == 0) && cpOk g f

/-- An instruction without W1 holds the fields of R311. -/
def shortOk (d : Ty) (f : Form) : Bool :=
  f.ext || (f.ty == d && f.rm == 0 && f.sc == 0 && f.cp == 0 && f.t2 == Target.none && f.t3 == Target.none)

/-- Is a package step's operand one the package has: a die, a partition, a core, a link (R9, R10, R38)? -/
def Instr.stepOk : Instr → Bool
  | .targetFrequencyChange d q m => decide (d < 4 ∧ q < 4 ∧ 560 ≤ m ∧ m ≤ 960 ∧ m % 20 = 0)
  | .droopStretch d c | .droopEnd d c => decide (d < 4 ∧ c < 144)
  | .thermalWarning d _ | .thermalThrottle d | .thermalThrottleRelease d => decide (d < 4)
  | .scrubRead k _ _ => decide (k < 512)
  | .helloSend d p | .helloReceive d p _ => decide (d < 4 ∧ p < 8)
  | .unreachableReport p => decide (p < 64)
  | .rds d _ | .rdx d _ | .upg d _ | .wb d _ _ | .cleanEviction d _ | .probe d _ _ | .probeReply d _ _ =>
      decide (d < 256)
  | .redirect d _ k => decide (d < 4 ∧ k < 512)
  | .pageMoveStart p k _ => decide (p < 2 ^ 31 ∧ k < 512)
  | .admitDigest c m _ _ => decide (c < 64 ∧ m < 2)
  | .powerLimitEffecter w => decide (1200 ≤ w ∧ w ≤ 2400 ∧ w % 25 = 0)
  | .packageNumberEffecter t s => decide (t < 16 ∧ s < 4)
  | .lrmRemapComplete c q => decide (c < 576 ∧ q < 4)
  | .binTimer _ b | .binLaunch _ b => decide (b < 8)
  | _ => true

/-- The group default of TY by opcode group (R311): i64, i64, f64, b64; the group is that of the class of the
signature's mnemonic, so it is read from the opcode in Decode. -/
def groupDefault (op : BitVec 8) : Ty :=
  if op.toNat < 0x80 then .i64 else if op.toNat < 0xC0 then .f64 else .b64

end Sys2Proof
end

