-- ==== Sys2Proof/Decode.lean ====
section
/-! DEFINITION. The encoding of spec/11_encoding.md: the field codes, the opcode map of R320, the decoder (total on
any bytes, refusing by the ILLEGAL subcode of R322) and, after it, the encoder. -/

namespace Sys2Proof

/-- Why a run of words is no instruction, by the ILLEGAL subcodes of R322; `truncated` is the header walk's
subcode 1 (R306): the words end inside the instruction. -/
inductive DecodeErr where
  | truncated | unassigned | length | predClass | w1 | w2
  deriving DecidableEq, Repr

/-- The ILLEGAL subcode of a decoding failure (R322). -/
def DecodeErr.subcode : DecodeErr → Nat
  | .truncated => 1 | .unassigned => 2 | .length => 3 | .predClass => 4 | .w1 => 5 | .w2 => 6

/-! ### Field codes -/

/-- Slot code (R309). -/
def Slot.code : Slot → BitVec 2
  | .a => 0 | .b => 1 | .c => 2 | .p => 3
/-- Slot from its code. -/
def Slot.ofCode (x : BitVec 2) : Slot :=
  if x = 0 then .a else if x = 1 then .b else if x = 2 then .c else .p
/-- A target field (R309). -/
def Target.bits (t : Target) : BitVec 9 := t.slot.code ++ t.dist
/-- A target from its field. -/
def Target.ofBits (x : BitVec 9) : Target := ⟨Slot.ofCode (x.extractLsb' 7 2), x.extractLsb' 0 7⟩
/-- PR code (R308). -/
def Pred.code : Pred → BitVec 2
  | .always => 0 | .ifTrue => 1 | .ifFalse => 2
/-- VC code (R308). -/
def TokClass.code : TokClass → BitVec 2
  | .lane => 0 | .uni => 1 | .mask => 2
/-- PR from its code; 11 reads as `always` and is refused beside. -/
def Pred.ofCode (x : BitVec 2) : Pred := if x = 1 then .ifTrue else if x = 2 then .ifFalse else .always
/-- VC from its code; 11 reads as per-lane and is refused beside. -/
def TokClass.ofCode (x : BitVec 2) : TokClass := if x = 1 then .uni else if x = 2 then .mask else .lane
/-- TY from its code (R312); codes from 22 are reserved. -/
def Ty.ofCode (x : BitVec 5) : Option Ty :=
  match x.toNat with
  | 0 => some .i8 | 1 => some .i16 | 2 => some .i32 | 3 => some .i64 | 4 => some .n8 | 5 => some .n16
  | 6 => some .n32 | 7 => some .n64 | 8 => some .b32 | 9 => some .b64 | 10 => some .f16 | 11 => some .bf16
  | 12 => some .f32 | 13 => some .f64 | 14 => some .e4m3 | 15 => some .e5m2 | 16 => some .e2m1
  | 17 => some .mx8a | 18 => some .mx8b | 19 => some .mx4 | 20 => some .mxi8 | 21 => some .mask
  | _ => none
/-- AS code (R318). -/
def Space.code : Space → BitVec 3
  | .global => 0 | .stash => 1 | .rstash => 2 | .tile => 3 | .ctx => 4 | .pool => 5
/-- AS from its code; 110 and 111 are reserved. -/
def Space.ofCode (x : BitVec 3) : Option Space :=
  match x.toNat with
  | 0 => some .global | 1 => some .stash | 2 => some .rstash | 3 => some .tile | 4 => some .ctx
  | 5 => some .pool | _ => none
/-- SUB codes of `cmp` (R346). -/
def CmpRel.code : CmpRel → BitVec 6
  | .eq => 0 | .ne => 1 | .lt => 2 | .le => 3 | .gt => 4 | .ge => 5
/-- SUB of `cmp` from its code; a code that is not listed reads as one that accepts every type, and is refused beside. -/
def CmpRel.ofCode (x : BitVec 6) : CmpRel :=
  match x.toNat with
  | 0 => .eq | 2 => .lt | 3 => .le | 4 => .gt | 5 => .ge | _ => .ne
/-- SUB codes of `fcmp` (R377). -/
def FCmpRel.code : FCmpRel → BitVec 6
  | .eq => 0 | .ne => 1 | .lt => 2 | .le => 3 | .gt => 4 | .ge => 5 | .un => 6 | .nn => 7
/-- SUB of `fcmp` from its code. -/
def FCmpRel.ofCode (x : BitVec 6) : FCmpRel :=
  match x.toNat with
  | 0 => .eq | 1 => .ne | 2 => .lt | 3 => .le | 4 => .gt | 5 => .ge | 6 => .un | _ => .nn
/-- SUB codes of `vote` (R346). -/
def VoteKind.code : VoteKind → BitVec 6
  | .all => 0 | .any => 1 | .eq => 2 | .ballot => 3
/-- SUB of `vote` from its code. -/
def VoteKind.ofCode (x : BitVec 6) : VoteKind :=
  match x.toNat with
  | 0 => .all | 1 => .any | 3 => .ballot | _ => .eq
/-- SUB codes of `shfl` (R346). -/
def ShflKind.code : ShflKind → BitVec 6
  | .idx => 0 | .up => 1 | .down => 2 | .xor => 3
/-- SUB of `shfl` from its code. -/
def ShflKind.ofCode (x : BitVec 6) : ShflKind :=
  match x.toNat with
  | 0 => .idx | 1 => .up | 2 => .down | _ => .xor
/-- SUB codes of `redux` and `scan` (R346). -/
def RedOp.code : RedOp → BitVec 6
  | .add => 0 | .min => 1 | .max => 2 | .and => 3 | .or => 4 | .xor => 5
/-- SUB of `redux` and `scan` from its code. -/
def RedOp.ofCode (x : BitVec 6) : RedOp :=
  match x.toNat with
  | 0 => .add | 1 => .min | 2 => .max | 3 => .and | 4 => .or | _ => .xor
/-- SUB codes of `pcvt` (R388). -/
def PcvtKind.code : PcvtKind → BitVec 6
  | .lo => 0 | .hi => 1 | .pk => 2 | .p8 => 3 | .u8 => 4
/-- SUB of `pcvt` from its code. -/
def PcvtKind.ofCode (x : BitVec 6) : PcvtKind :=
  match x.toNat with
  | 0 => .lo | 1 => .hi | 2 => .pk | 3 => .p8 | _ => .u8
/-- Path codes of `waitr` (R407). -/
def Path.code : Path → BitVec 26
  | .st => 0 | .cp => 1 | .ta => 2 | .sf => 3
/-- Path of `waitr` from its code. -/
def Path.ofCode (x : BitVec 2) : Path :=
  if x = 0 then .st else if x = 1 then .cp else if x = 2 then .ta else .sf
/-- Function codes of `predx` and `pgath` (R453); 3 is reserved. -/
def BadgerFn.code : BadgerFn → BitVec 2
  | .add => 0 | .min => 1 | .max => 2
/-- Function of `predx` and `pgath` from its code. -/
def BadgerFn.ofCode (x : BitVec 2) : BadgerFn := if x = 0 then .add else if x = 1 then .min else .max
/-- System register numbers (R458). -/
def SysReg.code : SysReg → BitVec 8
  | .fst => 0 | .lck => 1 | .exm => 2 | .gangId => 3 | .sfmask => 4 | .xinv => 5 | .lrm => 6 | .ctxinfo => 7
  | .flm => 8 | .fcause => 9 | .fpc => 10 | .fva => 11 | .pmres => 12 | .privst => 13
/-- System register from its number; `0x0E` to `0xFF` are reserved. -/
def SysReg.ofCode (x : BitVec 8) : Option SysReg :=
  match x.toNat with
  | 0 => some .fst | 1 => some .lck | 2 => some .exm | 3 => some .gangId | 4 => some .sfmask | 5 => some .xinv
  | 6 => some .lrm | 7 => some .ctxinfo | 8 => some .flm | 9 => some .fcause | 10 => some .fpc | 11 => some .fva
  | 12 => some .pmres | 13 => some .privst | _ => none

/-! ### W2 layouts (R317) -/

/-- A class S word: SUB above ARG. -/
def sW2 (sub : BitVec 6) (arg : BitVec 26) : W32 := sub ++ arg
/-- One bit in a 26-bit ARG. -/
def boolBit (b : Bool) : BitVec 26 := (BitVec.ofBool b).setWidth 26
/-- One bit. -/
def boolBit1 (b : Bool) : BitVec 1 := BitVec.ofBool b
/-- SUB of a class S word. -/
def sub (w : W32) : BitVec 6 := w.extractLsb' 26 6
/-- ARG of a class S word. -/
def arg (w : W32) : BitVec 26 := w.extractLsb' 0 26
/-- W2 of class V. -/
def Reg.w2 : Reg → W32
  | .v n => (0 : BitVec 25) ++ n
  | .s n => (1 : BitVec 2) ++ (0 : BitVec 24) ++ n
  | .k n => (2 : BitVec 2) ++ (0 : BitVec 26) ++ n
/-- W2 of class M. -/
def MemArg.w2 (m : MemArg) : W32 := m.lsid ++ m.as.code ++ m.off
/-- ARG of `tmma` and `tdist` (R433). -/
def MmaArg.arg (a : MmaArg) : BitVec 26 :=
  (0 : BitVec 8) ++ boolBit1 a.zero ++ boolBit1 a.reuse ++ a.bfmt.code ++ a.z ++ a.vb
/-- W2 of `lid` (R333). -/
def lidW2 : LidKind → W32
  | .lane => sW2 0 0 | .slice => sW2 1 0 | .gang => sW2 2 0 | .team => sW2 3 0
  | .level n => sW2 4 (n.setWidth 26) | .rank => sW2 5 0 | .lgid => sW2 6 0 | .place => sW2 7 0
/-- The register whose class a VC names, for a register number that is not listed (R322: the number is refused, not the VC). -/
def regOfClass : TokClass → Reg
  | .lane => .v 0 | .uni => .s 0 | .mask => .k 0
/-- The system register whose class a VC names, for a number that is not listed. -/
def sysOfClass : TokClass → SysReg
  | .lane => .xinv | .uni => .fst | .mask => .exm
/-- An operation of `redux` and `scan` that accepts a type, for a SUB that is not listed. -/
def redOfTy (t : Ty) : RedOp := if t.isB then .xor else .add
/-- SUB of `redux` and `scan` from W2. -/
def redOf (w : W32) (t : Ty) : RedOp := if sub w < 6 then RedOp.ofCode (sub w) else redOfTy t
/-- `lid` kind from W2. -/
def lidOf (w : W32) : Option LidKind :=
  if sub w = 4 then (if w.extractLsb' 3 23 = 0 then some (.level (w.extractLsb' 0 3)) else none)
  else if arg w ≠ 0 then none
  else match (sub w).toNat with
    | 0 => some .lane | 1 => some .slice | 2 => some .gang | 3 => some .team
    | 5 => some .rank | 6 => some .lgid | 7 => some .place | _ => none
/-- A source type in ARG[4:0], SUB 0. -/
def tyArg (w : W32) (k : Ty → Instr) : Instr × Bool :=
  match Ty.ofCode (w.extractLsb' 0 5) with
  | some t => (k t, w.extractLsb' 5 27 == 0)
  | none => (k .mask, false)
/-- ARG of `tmma` and `tdist`. -/
def mmaArg (w : W32) (k : MmaArg → Instr) : Instr × Bool :=
  match Ty.ofCode (w.extractLsb' 11 5) with
  | some t => (k ⟨w.extractLsb' 0 7, w.extractLsb' 7 4, t, w.getLsbD 16, w.getLsbD 17⟩, w.extractLsb' 18 14 == 0)
  | none => (k ⟨w.extractLsb' 0 7, w.extractLsb' 7 4, .mask, w.getLsbD 16, w.getLsbD 17⟩, false)
/-- ARG of `predx` and `pgath`. -/
def badgerArg (w : W32) (k : Ty → BadgerFn → Instr) : Instr × Bool :=
  match Ty.ofCode (w.extractLsb' 0 5) with
  | some t => (k t (BadgerFn.ofCode (w.extractLsb' 5 2)), w.extractLsb' 5 2 != 3 && w.extractLsb' 7 25 == 0)
  | none => (k .mask .add, false)
/-- A system register number in ARG[7:0]. -/
def sysArg (w : W32) (vc : TokClass) (k : SysReg → Instr) : Instr × Bool :=
  match SysReg.ofCode (w.extractLsb' 0 8) with
  | some r => (k r, w.extractLsb' 8 24 == 0)
  | none => (k (sysOfClass vc), false)
/-- A register of class V. -/
def regArg (w : W32) (vc : TokClass) (k : Reg → Instr) : Instr × Bool :=
  if w.extractLsb' 30 2 = 0 then (k (.v (w.extractLsb' 0 7)), w.extractLsb' 7 23 == 0)
  else if w.extractLsb' 30 2 = 1 then (k (.s (w.extractLsb' 0 6)), w.extractLsb' 6 24 == 0)
  else if w.extractLsb' 30 2 = 2 then (k (.k (w.extractLsb' 0 4)), w.extractLsb' 4 26 == 0)
  else (k (regOfClass vc), false)
/-- W2 of class M. -/
def memArg (w : W32) (k : MemArg → Instr) : Instr × Bool :=
  match Space.ofCode (w.extractLsb' 24 3) with
  | some a => (k ⟨w.extractLsb' 27 5, a, w.extractLsb' 0 24⟩, true)
  | none => (k ⟨w.extractLsb' 27 5, .global, w.extractLsb' 0 24⟩, false)

/-! ### The opcode map -/

/-- The opcode OP of each Oluask instruction (R320); `none` for a package step. -/
def Instr.op : Instr → Option (BitVec 8)
  | .rd _ _ => some 0x00
  | .wr _ _ => some 0x01
  | .mov _ => some 0x02
  | .const _ => some 0x03
  | .nul _ => some 0x04
  | .sel _ => some 0x05
  | .lid _ _ => some 0x06
  | .br _ _ => some 0x08
  | .bl _ _ => some 0x09
  | .jr _ => some 0x0A
  | .regang _ _ => some 0x0B
  | .exit _ => some 0x0C
  | .yield _ => some 0x0D
  | .rquota _ => some 0x0E
  | .spawn _ _ => some 0x10
  | .enq _ => some 0x11
  | .chunk _ => some 0x12
  | .qsend _ => some 0x13
  | .qtake _ => some 0x14
  | .add _ => some 0x40
  | .sub _ => some 0x41
  | .mul _ => some 0x42
  | .mulhi _ => some 0x43
  | .mad _ => some 0x44
  | .div _ => some 0x45
  | .rem _ => some 0x46
  | .adc _ => some 0x47
  | .sbc _ => some 0x48
  | .min _ => some 0x49
  | .max _ => some 0x4A
  | .abs _ => some 0x4B
  | .neg _ => some 0x4C
  | .adr _ => some 0x4D
  | .cvt _ _ => some 0x4E
  | .and _ => some 0x50
  | .or _ => some 0x51
  | .xor _ => some 0x52
  | .not _ => some 0x53
  | .shl _ => some 0x54
  | .shr _ => some 0x55
  | .sra _ => some 0x56
  | .rot _ => some 0x57
  | .bfx _ => some 0x58
  | .bfi _ => some 0x59
  | .popc _ => some 0x5A
  | .clz _ => some 0x5B
  | .ctz _ => some 0x5C
  | .brev _ => some 0x5D
  | .cmp _ _ => some 0x60
  | .vote _ _ => some 0x61
  | .shfl _ _ => some 0x62
  | .redux _ _ => some 0x63
  | .scan _ _ _ => some 0x64
  | .kand _ => some 0x68
  | .kor _ => some 0x69
  | .kxor _ => some 0x6A
  | .knot _ => some 0x6B
  | .kpop _ => some 0x6C
  | .kfst _ => some 0x6D
  | .fadd _ => some 0x80
  | .fsub _ => some 0x81
  | .fmul _ => some 0x82
  | .fma _ => some 0x83
  | .fdiv _ => some 0x84
  | .fsqrt _ => some 0x85
  | .frcp _ => some 0x86
  | .frsqrt _ => some 0x87
  | .fmin _ => some 0x88
  | .fmax _ => some 0x89
  | .fabs _ => some 0x8A
  | .fneg _ => some 0x8B
  | .fcmp _ _ => some 0x8C
  | .fclass _ => some 0x8D
  | .fcvt _ _ => some 0x90
  | .fcvti _ _ => some 0x91
  | .icvtf _ _ => some 0x92
  | .frnd _ => some 0x93
  | .fldx _ => some 0x94
  | .ffrx _ => some 0x95
  | .fexp _ => some 0x98
  | .fexp2 _ => some 0x99
  | .flog _ => some 0x9A
  | .flog2 _ => some 0x9B
  | .fsin _ => some 0x9C
  | .fcos _ => some 0x9D
  | .ftanh _ => some 0x9E
  | .flgst _ => some 0x9F
  | .ferf _ => some 0xA0
  | .fatan2 _ => some 0xA1
  | .fpow _ => some 0xA2
  | .pfma _ => some 0xA8
  | .padd _ => some 0xA9
  | .pmul _ => some 0xAA
  | .pmax _ => some 0xAB
  | .pcvt _ _ _ => some 0xAC
  | .pdot _ => some 0xAD
  | .xclr _ _ => some 0xB0
  | .xacc _ _ => some 0xB1
  | .xadd _ _ => some 0xB2
  | .xrnd _ _ => some 0xB3
  | .xsgn _ _ => some 0xB4
  | .ld _ _ => some 0xC0
  | .ldp _ _ => some 0xC1
  | .st _ _ => some 0xC2
  | .atom _ _ => some 0xC3
  | .cas _ _ => some 0xC4
  | .red _ _ => some 0xC5
  | .pref _ _ => some 0xC6
  | .fence _ _ => some 0xC7
  | .smap _ _ => some 0xC8
  | .sunmap _ _ => some 0xC9
  | .swb _ _ => some 0xCA
  | .sinv _ _ => some 0xCB
  | .halloc _ _ => some 0xCC
  | .hfree _ _ => some 0xCD
  | .wait _ _ _ _ _ => some 0xCE
  | .waitr _ _ => some 0xCF
  | .semAcq _ _ _ => some 0xD0
  | .semRel _ _ _ => some 0xD1
  | .semTry _ _ _ => some 0xD2
  | .barInit _ _ => some 0xD3
  | .barArr _ _ => some 0xD4
  | .barWait _ _ => some 0xD5
  | .barAw _ _ => some 0xD6
  | .barDrop _ _ => some 0xD7
  | .barTx _ _ => some 0xD8
  | .barGen _ _ => some 0xD9
  | .tlwait _ => some 0xDA
  | .tlread _ => some 0xDB
  | .dsync _ => some 0xDC
  | .lclk _ => some 0xDD
  | .prov _ _ => some 0xDE
  | .stalls _ => some 0xDF
  | .tmma _ _ => some 0xE0
  | .tdist _ _ => some 0xE1
  | .ttopk _ _ _ _ _ => some 0xE2
  | .tld _ _ => some 0xE3
  | .tst _ _ => some 0xE4
  | .tclr _ _ => some 0xE5
  | .tcvt _ _ _ _ => some 0xE6
  | .trmax _ _ => some 0xE7
  | .trsum _ _ => some 0xE8
  | .trscl _ _ => some 0xE9
  | .cpy _ _ => some 0xEA
  | .cpyg _ _ => some 0xEB
  | .cpyx _ _ => some 0xEC
  | .cfill _ _ => some 0xED
  | .trc _ => some 0xEE
  | .pfill _ => some 0xF0
  | .pcopy _ => some 0xF1
  | .pcmp _ => some 0xF2
  | .predx _ _ _ => some 0xF3
  | .pgath _ _ _ => some 0xF4
  | .pmap _ => some 0xF5
  | .punmap _ => some 0xF6
  | .tlbinv _ => some 0xF7
  | .sysrd _ _ => some 0xF8
  | .syswr _ _ => some 0xF9
  | .trap _ _ => some 0xFA
  | .tret _ => some 0xFB
  | .brk _ => some 0xFC
  | .cyc _ => some 0xFD
  | .waitc _ => some 0xFE
  | .halt _ => some 0xFF
  | _ => none

/-- W2 of each instruction (R317); zero for class N. -/
def Instr.w2 : Instr → W32
  | .rd _ r => r.w2
  | .wr _ r => r.w2
  | .lid _ k => lidW2 k
  | .br _ d => d
  | .bl _ d => d
  | .regang _ d => d
  | .spawn _ d => d
  | .cvt _ t => sW2 0 (t.code.setWidth 26)
  | .cmp _ r => sW2 r.code 0
  | .vote _ k => sW2 k.code 0
  | .shfl _ k => sW2 k.code 0
  | .redux _ o => sW2 o.code 0
  | .scan _ o x => sW2 o.code (boolBit x)
  | .fcmp _ r => sW2 r.code 0
  | .fcvt _ t => sW2 0 (t.code.setWidth 26)
  | .fcvti _ t => sW2 0 (t.code.setWidth 26)
  | .icvtf _ t => sW2 0 (t.code.setWidth 26)
  | .pcvt _ k t => sW2 k.code (t.code.setWidth 26)
  | .xclr _ j => sW2 0 (j.setWidth 26)
  | .xacc _ j => sW2 0 (j.setWidth 26)
  | .xadd _ j => sW2 0 (j.setWidth 26)
  | .xrnd _ j => sW2 0 (j.setWidth 26)
  | .xsgn _ j => sW2 0 (j.setWidth 26)
  | .ld _ m => m.w2
  | .ldp _ m => m.w2
  | .st _ m => m.w2
  | .atom _ m => m.w2
  | .cas _ m => m.w2
  | .red _ m => m.w2
  | .pref _ m => m.w2
  | .fence _ l => l ++ (0 : BitVec 27)
  | .smap _ l => l ++ (0 : BitVec 27)
  | .sunmap _ l => l ++ (0 : BitVec 27)
  | .swb _ l => l ++ (0 : BitVec 27)
  | .sinv _ l => l ++ (0 : BitVec 27)
  | .halloc _ l => l ++ (0 : BitVec 27)
  | .hfree _ l => l ++ (0 : BitVec 27)
  | .wait _ n1 n2 n3 n4 => sW2 0 ((0 : BitVec 2) ++ n1 ++ n2 ++ n3 ++ n4)
  | .waitr _ p => sW2 0 p.code
  | .semAcq _ s m => sW2 0 ((0 : BitVec 10) ++ m ++ s)
  | .semRel _ s m => sW2 0 ((0 : BitVec 10) ++ m ++ s)
  | .semTry _ s m => sW2 0 ((0 : BitVec 10) ++ m ++ s)
  | .barInit _ b => sW2 0 (b.setWidth 26)
  | .barArr _ b => sW2 0 (b.setWidth 26)
  | .barWait _ b => sW2 0 (b.setWidth 26)
  | .barAw _ b => sW2 0 (b.setWidth 26)
  | .barDrop _ b => sW2 0 (b.setWidth 26)
  | .barTx _ b => sW2 0 (b.setWidth 26)
  | .barGen _ b => sW2 0 (b.setWidth 26)
  | .prov _ c => sW2 0 (boolBit c)
  | .tmma _ a => sW2 0 a.arg
  | .tdist _ a => sW2 0 a.arg
  | .ttopk _ zs zd k l => sW2 0 ((0 : BitVec 12) ++ boolBit1 l ++ k ++ zd ++ zs)
  | .tld _ z => sW2 0 (z.setWidth 26)
  | .tst _ z => sW2 0 (z.setWidth 26)
  | .tclr _ z => sW2 0 (z.setWidth 26)
  | .tcvt _ z t s => sW2 0 ((0 : BitVec 16) ++ s.code ++ boolBit1 t ++ z)
  | .trmax _ z => sW2 0 (z.setWidth 26)
  | .trsum _ z => sW2 0 (z.setWidth 26)
  | .trscl _ z => sW2 0 (z.setWidth 26)
  | .cpy _ p => sW2 0 (p.setWidth 26)
  | .cpyg _ p => sW2 0 (p.setWidth 26)
  | .cpyx _ p => sW2 0 (p.setWidth 26)
  | .cfill _ p => sW2 0 (p.setWidth 26)
  | .predx _ e g => sW2 0 ((0 : BitVec 19) ++ g.code ++ e.code)
  | .pgath _ e g => sW2 0 ((0 : BitVec 19) ++ g.code ++ e.code)
  | .sysrd _ r => sW2 0 (r.code.setWidth 26)
  | .syswr _ r => sW2 0 (r.code.setWidth 26)
  | .trap _ n => sW2 0 (n.setWidth 26)
  | _ => 0

/-- The opcode map (R320): the instruction that OP, the common fields and W2 stand for, with `false` when W2 holds
a value that is not listed (subcode 6); `none` for an unassigned opcode (subcode 2). -/
def assemble (op : BitVec 8) (f : Form) (w : W32) : Option (Instr × Bool) :=
  match op.toNat with
  | 0x00 => some (regArg w f.vc (.rd f))
  | 0x01 => some (regArg w f.vc (.wr f))
  | 0x02 => some (.mov f, w == 0)
  | 0x03 => some (.const f, w == 0)
  | 0x04 => some (.nul f, w == 0)
  | 0x05 => some (.sel f, w == 0)
  | 0x06 => some ((lidOf w).elim (.lid f .team, false) fun k => (.lid f k, true))
  | 0x08 => some (.br f w, true)
  | 0x09 => some (.bl f w, true)
  | 0x0A => some (.jr f, w == 0)
  | 0x0B => some (.regang f w, true)
  | 0x0C => some (.exit f, w == 0)
  | 0x0D => some (.yield f, w == 0)
  | 0x0E => some (.rquota f, w == 0)
  | 0x10 => some (.spawn f w, true)
  | 0x11 => some (.enq f, w == 0)
  | 0x12 => some (.chunk f, w == 0)
  | 0x13 => some (.qsend f, w == 0)
  | 0x14 => some (.qtake f, w == 0)
  | 0x40 => some (.add f, w == 0)
  | 0x41 => some (.sub f, w == 0)
  | 0x42 => some (.mul f, w == 0)
  | 0x43 => some (.mulhi f, w == 0)
  | 0x44 => some (.mad f, w == 0)
  | 0x45 => some (.div f, w == 0)
  | 0x46 => some (.rem f, w == 0)
  | 0x47 => some (.adc f, w == 0)
  | 0x48 => some (.sbc f, w == 0)
  | 0x49 => some (.min f, w == 0)
  | 0x4A => some (.max f, w == 0)
  | 0x4B => some (.abs f, w == 0)
  | 0x4C => some (.neg f, w == 0)
  | 0x4D => some (.adr f, w == 0)
  | 0x4E => some (tyArg w (.cvt f))
  | 0x50 => some (.and f, w == 0)
  | 0x51 => some (.or f, w == 0)
  | 0x52 => some (.xor f, w == 0)
  | 0x53 => some (.not f, w == 0)
  | 0x54 => some (.shl f, w == 0)
  | 0x55 => some (.shr f, w == 0)
  | 0x56 => some (.sra f, w == 0)
  | 0x57 => some (.rot f, w == 0)
  | 0x58 => some (.bfx f, w == 0)
  | 0x59 => some (.bfi f, w == 0)
  | 0x5A => some (.popc f, w == 0)
  | 0x5B => some (.clz f, w == 0)
  | 0x5C => some (.ctz f, w == 0)
  | 0x5D => some (.brev f, w == 0)
  | 0x60 => some (.cmp f (CmpRel.ofCode (sub w)), sub w < 6 && arg w == 0)
  | 0x61 => some (.vote f (VoteKind.ofCode (sub w)), sub w < 4 && arg w == 0)
  | 0x62 => some (.shfl f (ShflKind.ofCode (sub w)), sub w < 4 && arg w == 0)
  | 0x63 => some (.redux f (redOf w f.ty), sub w < 6 && arg w == 0)
  | 0x64 => some (.scan f (redOf w f.ty) (w.getLsbD 0), sub w < 6 && w.extractLsb' 1 25 == 0)
  | 0x68 => some (.kand f, w == 0)
  | 0x69 => some (.kor f, w == 0)
  | 0x6A => some (.kxor f, w == 0)
  | 0x6B => some (.knot f, w == 0)
  | 0x6C => some (.kpop f, w == 0)
  | 0x6D => some (.kfst f, w == 0)
  | 0x80 => some (.fadd f, w == 0)
  | 0x81 => some (.fsub f, w == 0)
  | 0x82 => some (.fmul f, w == 0)
  | 0x83 => some (.fma f, w == 0)
  | 0x84 => some (.fdiv f, w == 0)
  | 0x85 => some (.fsqrt f, w == 0)
  | 0x86 => some (.frcp f, w == 0)
  | 0x87 => some (.frsqrt f, w == 0)
  | 0x88 => some (.fmin f, w == 0)
  | 0x89 => some (.fmax f, w == 0)
  | 0x8A => some (.fabs f, w == 0)
  | 0x8B => some (.fneg f, w == 0)
  | 0x8C => some (.fcmp f (FCmpRel.ofCode (sub w)), sub w < 8 && arg w == 0)
  | 0x8D => some (.fclass f, w == 0)
  | 0x90 => some (tyArg w (.fcvt f))
  | 0x91 => some (tyArg w (.fcvti f))
  | 0x92 => some (tyArg w (.icvtf f))
  | 0x93 => some (.frnd f, w == 0)
  | 0x94 => some (.fldx f, w == 0)
  | 0x95 => some (.ffrx f, w == 0)
  | 0x98 => some (.fexp f, w == 0)
  | 0x99 => some (.fexp2 f, w == 0)
  | 0x9A => some (.flog f, w == 0)
  | 0x9B => some (.flog2 f, w == 0)
  | 0x9C => some (.fsin f, w == 0)
  | 0x9D => some (.fcos f, w == 0)
  | 0x9E => some (.ftanh f, w == 0)
  | 0x9F => some (.flgst f, w == 0)
  | 0xA0 => some (.ferf f, w == 0)
  | 0xA1 => some (.fatan2 f, w == 0)
  | 0xA2 => some (.fpow f, w == 0)
  | 0xA8 => some (.pfma f, w == 0)
  | 0xA9 => some (.padd f, w == 0)
  | 0xAA => some (.pmul f, w == 0)
  | 0xAB => some (.pmax f, w == 0)
  | 0xAC => some ((Ty.ofCode (w.extractLsb' 0 5)).elim (.pcvt f (PcvtKind.ofCode (sub w)) .f16, false) fun t => (.pcvt f (PcvtKind.ofCode (sub w)) t, sub w < 5 && w.extractLsb' 5 21 == 0))
  | 0xAD => some (.pdot f, w == 0)
  | 0xB0 => some (.xclr f (w.extractLsb' 0 2), w.extractLsb' 2 30 == 0)
  | 0xB1 => some (.xacc f (w.extractLsb' 0 2), w.extractLsb' 2 30 == 0)
  | 0xB2 => some (.xadd f (w.extractLsb' 0 2), w.extractLsb' 2 30 == 0)
  | 0xB3 => some (.xrnd f (w.extractLsb' 0 2), w.extractLsb' 2 30 == 0)
  | 0xB4 => some (.xsgn f (w.extractLsb' 0 2), w.extractLsb' 2 30 == 0)
  | 0xC0 => some (memArg w (.ld f))
  | 0xC1 => some (memArg w (.ldp f))
  | 0xC2 => some (memArg w (.st f))
  | 0xC3 => some (memArg w (.atom f))
  | 0xC4 => some (memArg w (.cas f))
  | 0xC5 => some (memArg w (.red f))
  | 0xC6 => some (memArg w (.pref f))
  | 0xC7 => some (.fence f (w.extractLsb' 27 5), w.extractLsb' 0 27 == 0)
  | 0xC8 => some (.smap f (w.extractLsb' 27 5), w.extractLsb' 0 27 == 0)
  | 0xC9 => some (.sunmap f (w.extractLsb' 27 5), w.extractLsb' 0 27 == 0)
  | 0xCA => some (.swb f (w.extractLsb' 27 5), w.extractLsb' 0 27 == 0)
  | 0xCB => some (.sinv f (w.extractLsb' 27 5), w.extractLsb' 0 27 == 0)
  | 0xCC => some (.halloc f (w.extractLsb' 27 5), w.extractLsb' 0 27 == 0)
  | 0xCD => some (.hfree f (w.extractLsb' 27 5), w.extractLsb' 0 27 == 0)
  | 0xCE => some (.wait f (w.extractLsb' 18 6) (w.extractLsb' 12 6) (w.extractLsb' 6 6) (w.extractLsb' 0 6), w.extractLsb' 24 8 == 0)
  | 0xCF => some (.waitr f (Path.ofCode (w.extractLsb' 0 2)), w.extractLsb' 2 30 == 0)
  | 0xD0 => some (.semAcq f (w.extractLsb' 0 6) (w.extractLsb' 6 10), w.extractLsb' 16 16 == 0)
  | 0xD1 => some (.semRel f (w.extractLsb' 0 6) (w.extractLsb' 6 10), w.extractLsb' 16 16 == 0)
  | 0xD2 => some (.semTry f (w.extractLsb' 0 6) (w.extractLsb' 6 10), w.extractLsb' 16 16 == 0)
  | 0xD3 => some (.barInit f (w.extractLsb' 0 9), w.extractLsb' 9 23 == 0)
  | 0xD4 => some (.barArr f (w.extractLsb' 0 9), w.extractLsb' 9 23 == 0)
  | 0xD5 => some (.barWait f (w.extractLsb' 0 9), w.extractLsb' 9 23 == 0)
  | 0xD6 => some (.barAw f (w.extractLsb' 0 9), w.extractLsb' 9 23 == 0)
  | 0xD7 => some (.barDrop f (w.extractLsb' 0 9), w.extractLsb' 9 23 == 0)
  | 0xD8 => some (.barTx f (w.extractLsb' 0 9), w.extractLsb' 9 23 == 0)
  | 0xD9 => some (.barGen f (w.extractLsb' 0 9), w.extractLsb' 9 23 == 0)
  | 0xDA => some (.tlwait f, w == 0)
  | 0xDB => some (.tlread f, w == 0)
  | 0xDC => some (.dsync f, w == 0)
  | 0xDD => some (.lclk f, w == 0)
  | 0xDE => some (.prov f (w.getLsbD 0), w.extractLsb' 1 31 == 0)
  | 0xDF => some (.stalls f, w == 0)
  | 0xE0 => some (mmaArg w (.tmma f))
  | 0xE1 => some (mmaArg w (.tdist f))
  | 0xE2 => some (.ttopk f (w.extractLsb' 0 4) (w.extractLsb' 4 4) (w.extractLsb' 8 5) (w.getLsbD 13), w.extractLsb' 14 18 == 0)
  | 0xE3 => some (.tld f (w.extractLsb' 0 4), w.extractLsb' 4 28 == 0)
  | 0xE4 => some (.tst f (w.extractLsb' 0 4), w.extractLsb' 4 28 == 0)
  | 0xE5 => some (.tclr f (w.extractLsb' 0 4), w.extractLsb' 4 28 == 0)
  | 0xE6 => some ((Ty.ofCode (w.extractLsb' 5 5)).elim (.tcvt f 0 false .mask, false) fun t => (.tcvt f (w.extractLsb' 0 4) (w.getLsbD 4) t, w.extractLsb' 10 22 == 0))
  | 0xE7 => some (.trmax f (w.extractLsb' 0 4), w.extractLsb' 4 28 == 0)
  | 0xE8 => some (.trsum f (w.extractLsb' 0 4), w.extractLsb' 4 28 == 0)
  | 0xE9 => some (.trscl f (w.extractLsb' 0 4), w.extractLsb' 4 28 == 0)
  | 0xEA => some (.cpy f (w.extractLsb' 0 5), w.extractLsb' 5 27 == 0)
  | 0xEB => some (.cpyg f (w.extractLsb' 0 5), w.extractLsb' 5 27 == 0)
  | 0xEC => some (.cpyx f (w.extractLsb' 0 5), w.extractLsb' 5 27 == 0)
  | 0xED => some (.cfill f (w.extractLsb' 0 5), w.extractLsb' 5 27 == 0)
  | 0xEE => some (.trc f, w == 0)
  | 0xF0 => some (.pfill f, w == 0)
  | 0xF1 => some (.pcopy f, w == 0)
  | 0xF2 => some (.pcmp f, w == 0)
  | 0xF3 => some (badgerArg w (.predx f))
  | 0xF4 => some (badgerArg w (.pgath f))
  | 0xF5 => some (.pmap f, w == 0)
  | 0xF6 => some (.punmap f, w == 0)
  | 0xF7 => some (.tlbinv f, w == 0)
  | 0xF8 => some (sysArg w f.vc (.sysrd f))
  | 0xF9 => some (sysArg w f.vc (.syswr f))
  | 0xFA => some (.trap f (w.extractLsb' 0 16), w.extractLsb' 16 16 == 0)
  | 0xFB => some (.tret f, w == 0)
  | 0xFC => some (.brk f, w == 0)
  | 0xFD => some (.cyc f, w == 0)
  | 0xFE => some (.waitc f, w == 0)
  | 0xFF => some (.halt f, w == 0)
  | _ => none
/-! ### The decoder -/

/-- The words of one instruction, taken apart by LEN (R307): W0, W1 and W2 when extended, the literal, the rest. -/
structure Taken where
  w0   : W32
  w12  : Option (W32 × W32)
  lit  : Option W64
  rest : List W32
  deriving DecidableEq, Repr

/-- Takes one instruction's words from the front, as LEN gives them (R306, R307). -/
def takeInstr : List W32 → Option Taken
  | [] => none
  | w0 :: ws =>
    match w0.getLsbD 30, w0.getLsbD 31, ws with
    | false, false, r => some ⟨w0, none, none, r⟩
    | true, false, w1 :: w2 :: r => some ⟨w0, some (w1, w2), none, r⟩
    | false, true, l :: h :: r => some ⟨w0, none, some (h ++ l), r⟩
    | true, true, w1 :: w2 :: l :: h :: r => some ⟨w0, some (w1, w2), some (h ++ l), r⟩
    | _, _, _ => none

/-- OP of W0. -/
def opOf (w0 : W32) : BitVec 8 := w0.extractLsb' 22 8

/-- The common fields (R308, R310, R311); reserved codes of PR, VC and TY are refused beside. -/
def formOf (t : Taken) : Form :=
  let w0 := t.w0
  match t.w12 with
  | none =>
    { ext := false, pr := Pred.ofCode (w0.extractLsb' 20 2), vc := TokClass.ofCode (w0.extractLsb' 18 2),
      t0 := Target.ofBits (w0.extractLsb' 9 9), t1 := Target.ofBits (w0.extractLsb' 0 9),
      ty := groupDefault (opOf w0), rm := 0, sc := 0, cp := 0, t2 := .none, t3 := .none, lit := t.lit }
  | some (w1, _) =>
    { ext := true, pr := Pred.ofCode (w0.extractLsb' 20 2), vc := TokClass.ofCode (w0.extractLsb' 18 2),
      t0 := Target.ofBits (w0.extractLsb' 9 9), t1 := Target.ofBits (w0.extractLsb' 0 9),
      ty := (Ty.ofCode (w1.extractLsb' 27 5)).getD .mask, rm := w1.extractLsb' 24 3, sc := w1.extractLsb' 21 3,
      cp := w1.extractLsb' 18 3, t2 := Target.ofBits (w1.extractLsb' 9 9), t3 := Target.ofBits (w1.extractLsb' 0 9),
      lit := t.lit }

/-- W2, zero in the one-word forms (R311). -/
def w2Of (t : Taken) : W32 :=
  match t.w12 with
  | none => 0
  | some (_, w2) => w2

/-- TY is an assigned code (R312). -/
def tyCodeOk (t : Taken) : Bool :=
  match t.w12 with
  | none => true
  | some (w1, _) => (Ty.ofCode (w1.extractLsb' 27 5)).isSome

/-- One instruction from its words: the lowest ILLEGAL subcode that applies to it, or the instruction (R322). -/
def decodeTaken (t : Taken) : Except DecodeErr Instr :=
  match assemble (opOf t.w0) (formOf t) (w2Of t) with
  | none => .error .unassigned
  | some (i, w2ok) =>
    match i.sig with
    | none => .error .unassigned
    | some g =>
      if !lenOk g (formOf t) then .error .length
      else if t.w0.extractLsb' 20 2 == 3 || t.w0.extractLsb' 18 2 == 3 || !vcOk g (formOf t) then .error .predClass
      else if !tyCodeOk t || !w1Ok g (formOf t) then .error .w1
      else if !w2ok || !g.args then .error .w2
      else .ok i

/-- One instruction from the front of a list of words, with the words that follow it. -/
def decodeWords (ws : List W32) : Except DecodeErr (Instr × List W32) :=
  match takeInstr ws with
  | none => .error .truncated
  | some t => (decodeTaken t).map (fun i => (i, t.rest))

/-- 32-bit words from bytes in memory order, little-endian (spec/00_scope.md R3); a last part of a word is dropped. -/
def wordsOfBytes : List Byte → List W32
  | b0 :: b1 :: b2 :: b3 :: r => (b3 ++ b2 ++ b1 ++ b0) :: wordsOfBytes r
  | _ => []

/-- The bytes of a word in memory order. -/
def bytesOfWord (w : W32) : List Byte :=
  [w.extractLsb' 0 8, w.extractLsb' 8 8, w.extractLsb' 16 8, w.extractLsb' 24 8]

/-- The decoder, total on any bytes. -/
def decode (bs : List Byte) : Except DecodeErr Instr := (decodeWords (wordsOfBytes bs)).map Prod.fst

/-- The five words of an instruction whose bits are `w`, of which the first `nbits` are given: the bits above are
zero (the longest instruction has five words, R307). -/
def tableWords (nbits w : Nat) : List W32 :=
  (List.range 5).map fun i => BitVec.ofNat 32 ((w % 2 ^ nbits) >>> (32 * i))

/-- The instruction read from the bits of an opcode-table row. -/
def decodeTableWord (nbits w : Nat) : Option Instr :=
  match decode ((tableWords nbits w).flatMap bytesOfWord) with
  | .ok i => some i
  | .error _ => none

/-! ### Well-formedness and the encoder -/

/-- A well-formed instruction: every field check of R308 to R319 holds of it; a package step names parts that exist. -/
def Instr.wf (i : Instr) : Bool :=
  match i.sig, i.form, i.op with
  | some g, some f, some o =>
    lenOk g f && vcOk g f && w1Ok g f && g.args && shortOk (groupDefault o) f
  | none, none, none => i.stepOk
  | _, _, _ => false

/-- W0 (R308). -/
def w0Of (o : BitVec 8) (f : Form) : W32 :=
  BitVec.ofBool f.lit.isSome ++ BitVec.ofBool f.ext ++ o ++ f.pr.code ++ f.vc.code ++ f.t0.bits ++ f.t1.bits

/-- W1 (R310). -/
def w1Of (f : Form) : W32 := f.ty.code ++ f.rm ++ f.sc ++ f.cp ++ f.t2.bits ++ f.t3.bits

/-- The words of an instruction (R307); a package step has none. -/
def encode (i : Instr) : List W32 :=
  match i.op, i.form with
  | some o, some f =>
    w0Of o f :: ((if f.ext then [w1Of f, i.w2] else []) ++
      (match f.lit with
       | none => []
       | some l => [l.extractLsb' 0 32, l.extractLsb' 32 32]))
  | _, _ => []

end Sys2Proof
end

