-- ==== Sys2Proof/Machine/State.lean ====
section
/-! DEFINITION. The state of one package as plain data: every piece of state that spec/ names, one structure for each
agent that holds it, and the machine after reset. The reset values that the spec does not give are those of
notes/assumptions/1.md. -/

namespace Sys2Proof.Machine

/-! ### Reasons to stop -/

/-- Faults of the machine. The spec's own faults are taken (R243 to R247, R253), so a step never answers one of
these for an instruction; they are raised only by accesses outside the package. -/
inductive Fault where
  /-- A physical access beyond the 512 stacks (03 R66). Raised by no meaning while the indirection entries keep
  their field widths. Safe. -/
  | noSuchStack
  deriving DecidableEq, Repr

/-- Refusals. -/
inductive Refusal where
  /-- The instruction has no meaning in this model. Raised by `exec` alone. Safe. -/
  | notModelled (mnemonic : String)
  /-- The words at the issue point decode to no instruction: `step` was asked to issue from a block that header
  decode has not accepted. Raised by `step` alone; the machine itself never puts such an instruction there (R273).
  Safe. -/
  | undecodable (subcode : Nat)
  deriving DecidableEq, Repr

/-! ### Gangs and blocks (06, 08, 10) -/

/-- One path of a slice: a block address and the lanes of the slice that stand there (R169). -/
structure PathEntry where
  addr : W64 := 0
  lanes : BitVec 4 := 0
  deriving DecidableEq, Repr

/-- A slice: its current path and its path stack, top first (R169). -/
structure Slice where
  cur : PathEntry := {}
  stack : List PathEntry := []
  deriving DecidableEq, Repr

/-- A token in a slot (R274): its value in each lane (a uniform token holds it in every lane, a mask token holds its
32 bits in lane 0), its null bits, and the first cycle in which a consumer may use it (R201); `ready` is none while
the result is still under way. -/
structure Tok where
  cls : TokClass := .lane
  vals : Lanes := []
  nulls : Mask := 0
  ready : Option Nat := none
  deriving DecidableEq, Repr

/-- What an instruction with an effect at commit, or an exit, leaves behind when it fires (R242, R287): its operands
in the lanes where its result is not null. -/
structure Fired where
  idx : Nat
  ins : Instr
  lanes : Mask
  a : Lanes
  b : Lanes
  c : Lanes
  deriving DecidableEq, Repr

/-- A line request that waits for its reply (R182). -/
structure LineReq where
  num : Nat
  idx : Nat
  line : Nat
  lanes : Mask := 0
  held : Bool := true       -- holds a miss-status entry; false: rejected, to be replayed
  aged : Bool := false
  cp : BitVec 3 := 3        -- cache policy (11 R314)
  deriving DecidableEq, Repr

/-- A place in a byte store: 0 pool (the offset is a pool-logical address), 1 a team's stash, 2 a team's tile memory, 3 a
gang's context image. -/
structure Place where
  kind : Nat
  id : Nat := 0
  off : Nat
  deriving DecidableEq, Repr

/-- A store, or a `red`, of one lane of a block, performed at commit (R242, R283, R401): its place for each byte and its
data; `op` is the operation and type of a `red`. -/
structure StoreRec where
  idx : Nat
  lsid : Nat
  lane : Nat
  places : List Place
  data : List Byte
  op : Option (BitVec 3 × Ty) := none
  gated : Bool := false            -- needs the commit token (R229)
  issued : Nat := 0                -- cycle in which its instruction issued (07 R220)
  cp : BitVec 3 := 0               -- its cache policy (11 R314)
  deriving DecidableEq, Repr

/-- Bytes of tile memory that a tile or accumulator instruction writes at commit (R242, R392). -/
structure TileRec where
  idx : Nat
  off : Nat
  data : List Byte
  deriving DecidableEq, Repr

/-- How far a block instance has come (R291, R293). -/
inductive Stage where
  | fetch        -- the header or words are being fetched
  | decode       -- fetched, header decode under way
  | run          -- decoded; instructions may fire
  | commit       -- ready, the commit latency or the token is awaited
  deriving DecidableEq, Repr

/-- Bytes that a load or an issue-time access of a block has read, as memory then held them (07 R216). -/
structure ReadRec where
  lsid : Nat
  bytes : List (Place × Byte)
  deriving DecidableEq, Repr

/-- A fault found in an instance and not yet taken (R243): code, subcode, index, LSID, lanes, addresses. -/
structure FaultRec where
  code : Nat
  sub : Nat := 0
  idx : Nat := 255
  lsid : Nat := 255
  lanes : Mask
  va : Lanes := []
  deriving DecidableEq, Repr

/-- A block instance (R164). Tokens are keyed by 4 * index + slot. -/
structure Blk where
  addr : W64 := 0
  hdr : List W32 := []
  words : List W32 := []
  slices : BitVec 8 := 0
  lanes : Mask := 0
  off : Mask := 0
  offCode : List (Nat × Nat) := []
  stage : Stage := .fetch
  decoded : Nat := 0               -- cycle in which header decode completed
  start : Nat := 0                 -- the later of that and becoming primary (R291)
  due : Nat := 0                   -- cycle from which it may commit
  progress : Nat := 0
  toks : Table Tok := []
  issued : BitVec 96 := 0
  done : BitVec 96 := 0
  fired : List Fired := []
  stores : List StoreRec := []
  tiles : List TileRec := []           -- in index order
  inval : List (Nat × Nat × Mask) := []  -- index, accumulator, its invalid mask after the instruction
  reads : List ReadRec := []           -- what its loads have read
  seq : Option Nat := none             -- place in the order of `seq` operations (07 R215), once an access after one has performed
  flags : BitVec 5 := 0
  prov : List (Nat × Nat) := []
  reqs : List LineReq := []
  replays : List (Nat × Nat) := []
  fills : List Nat := []
  pend : Option FaultRec := none
  why : Nat := 5                   -- stall reason of a wait at commit (R259)
  key : List Nat := []             -- what the instance waits on, as last seen (R427)
  deriving DecidableEq, Repr

/-- An operation counted by an in-flight counter, oldest first in its list (R406). -/
structure Flight where
  num : Nat
  finished : Bool := false
  deriving DecidableEq, Repr

/-- A gang: everything of its context image (R254) and what the core holds beside it. Registers are kept by word of
the image: v i lane l at 32 i + l, s i at 4096 + i, the supervisor bank at 32 * 146 and 32 * 162. -/
structure Gang where
  regs : Table W64 := []
  written : List Nat := []             -- lines written since the gang started (R178)
  ks : List W32 := []
  exm : Mask := 0
  flm : Mask := 0
  sfmask : Mask := 0
  sfcode : W64 := 0
  xinv : List Mask := []
  rset : Mask := 0
  rtgt : W64 := 0
  rmask : Mask := 0
  slices : List Slice := []
  splits : List (BitVec 8) := []
  rels : List (W64 × Mask × BitVec 8) := []   -- released splits: target, lanes not yet placed, slices (R171)
  lck : W64 := 0
  lgid : W64 := 0
  fst : W64 := 0
  quota : Nat := 16
  poll : Nat := 0
  sup : Bool := false
  parked : Bool := false
  excluded : Bool := false
  flST : List Flight := []
  flCP : List Flight := []
  flTA : List Flight := []
  flSF : List Flight := []
  saveFst : W64 := 0
  saveSplits : List (BitVec 8) := []
  saveSlices : List Slice := []
  saveExm : Mask := 0
  ended : Mask := 0                    -- handler lanes that have fired tret or exit (R249)
  held : Table Lanes := []             -- 0 to 3 user positions, 4 to 7 handler positions
  heldNulls : Table Mask := []         -- null lanes of the requests whose outcomes `held` keeps, by position (R150)
  ahead : List (Bool × Place) := []    -- bytes that release atomics of a handler or user block wrote before its stores (07 R210)
  seqAt : Option Nat := none           -- place of its latest committed `seq` operation in their order (07 R215)
  edgeParked : Bool := false           -- a request of it is parked at its home (03 R94)
  gateAt : Option Nat := none          -- cycle from which it waits at a gate that is not open (07 R228)
  marks : BitVec 8 := 0
  fcause : W64 := 0
  fpc : W64 := 0
  hfcause : W64 := 0
  hfpc : W64 := 0
  fva : Lanes := []
  pmres : Lanes := []
  watch : List Nat := []
  ldpAddr : Lanes := []
  ldpVal : Lanes := []
  prov : List W64 := []
  sord : BitVec 24 := 0
  team : Nat := 0
  launch : Nat := 0
  index : Nat := 0
  core : Nat := 0
  quarter : Nat := 0
  slot : Option Nat := none
  stamp : Nat := 0
  unchosen : Nat := 0
  parkedAt : Nat := 0
  waitsSlot : Option Nat := none
  imaged : Bool := true                -- has taken an image of its die's reserve (R255)
  engFaults : List FaultRec := []
  trapNext : Option (FaultRec × W64) := none   -- TRAP to be taken after BREAK's handler, with its FPC (R461)
  tlbWait : Bool := false
  stepOver : Option W64 := none        -- the breakpoint just resumed from (R264)
  started : Nat := 0                   -- 1 + the cycle in which it first became resident; 0 before
  prim : Option Blk := none
  sec : Option Blk := none
  tileBusy : Table Nat := []           -- cycle at which z tile i reaches its result latency (R167)
  accReady : Table Nat := []           -- cycle at which accumulator j may be read (R202)
  retired : Bool := false
  deriving DecidableEq, Repr

/-! ### Teams, cores and engines (05, 06, 14, 15) -/

/-- What a team came from (R131, R140, R143, R144). -/
inductive TeamKind where
  | grid | seed | task | successor
  deriving DecidableEq, Repr

/-- A mapped stash region (R189, R409); lines are numbered from its base. -/
structure Region where
  num : Nat := 0
  off : Nat := 0
  va : W64 := 0
  len : Nat := 0
  pending : Bool := true          -- smap committed and not complete
  leaving : Bool := false         -- sunmap committed and not complete
  filled : Table Nat := []        -- lines filled, each with the pool line that it is a copy of
  dirty : List Nat := []          -- sectors written since they were filled
  deriving DecidableEq, Repr

/-- A spawn bin (R141): its key, its arguments in order and when its timer started. -/
structure Bin where
  key : W64 := 0
  args : List W64 := []
  since : Nat := 0
  due : Option Nat := none         -- cycle from which it is full, or its timer has run out, and waits for a place (06 R185)
  deriving DecidableEq, Repr

/-- The exit-record entry of one team-local gang index (R199, R200). -/
structure GangRec where
  stalls : List W32 := []
  sfmask : Mask := 0
  sfcode : W64 := 0
  tflm : Mask := 0
  tcode : Nat := 0
  uses : Nat := 0
  gstart : Nat := 0
  gend : Nat := 0
  insns : Nat := 0
  deriving DecidableEq, Repr

/-- A team: resident, lingering, or queued (with `admitted` false). -/
structure Team where
  launch : Nat := 0
  kind : TeamKind := .grid
  ident : W64 := 0                -- team index, or the address of the descriptor it was copied from
  program : W64 := 0
  entry : W64 := 0
  args : W64 := 0
  exitrec : W64 := 0
  place : W64 := 0                -- of a task: its placement address (R143)
  stride : Nat := 0
  gangs : Nat := 1
  stashKiB : Nat := 0
  tileKiB : Nat := 0
  quota : Nat := 16
  barriers : Nat := 0
  cluster : Nat := 1
  rank : Nat := 0
  mates : List Nat := []          -- teams of its cluster, by rank
  core : Nat := 0
  admitted : Bool := false
  started : Bool := false
  linger : Bool := false
  replayed : Bool := false
  tstart : Nat := 0
  stash : Table Byte := []        -- unlisted bytes read 0 (R32)
  tile : Table Byte := []
  bars : Table W64 := []          -- barrier state words (R420)
  regions : List Region := []
  bins : Table Bin := []
  succ : Option (Nat × TaskDesc) := none
  copies : Table Nat := []        -- settled copies for each gang index (R448)
  recs : Table GangRec := []
  nextLgid : Nat := 0
  deriving DecidableEq, Repr

/-- A counting semaphore (R417): its count and the requests queued, (gang, amount), head first. -/
structure Sem where
  count : Nat := 0
  queue : List (Nat × Nat) := []
  deriving DecidableEq, Repr

/-- An entry of a core's tile queue (R441). -/
structure TqEntry where
  num : Nat
  gang : Nat
  team : Nat
  fire : Fired
  rmode : BitVec 3
  sixb : W32
  lck : W64                        -- `LCK` before the issuing block, and its last safe point (R269)
  sord : BitVec 24
  start : Nat
  finish : Nat
  started : Bool := false
  out : List (Bool × Nat × List Byte) := []   -- what it writes at completion: to tile memory?, offset, bytes
  event : Option Nat := none                  -- its provenance event
  deriving DecidableEq, Repr

/-- A part of a Beaver copy: its number, the gang that supplied it and its descriptor bytes (R446). -/
structure CopyPart where
  part : Nat
  gang : Nat
  flight : Nat
  kind : BitVec 2
  sup : Bool
  lck : W64                        -- `LCK` before the issuing block, and its last safe point (R269)
  sord : BitVec 24
  desc : List Byte
  deriving DecidableEq, Repr

/-- A Beaver copy (R448). -/
structure Copy where
  num : Nat                        -- number on the core's Beaver timeline of its context
  ord : Nat                        -- number among its team's copies
  team : Nat
  ctx : Nat
  parts : Nat
  supplied : List CopyPart := []   -- in increasing part number
  running : Bool := false
  ended : Bool := false            -- complete; kept while a failure report is under way
  failed : Option (Nat × Nat × Nat × W64) := none   -- CODE, subcode of the walk, part, address
  flags : BitVec 8 := 0
  oor : Nat := 0
  follow : Option (Nat × List Byte × Option Nat) := none   -- the follow-on `tmma` on the tile array: its tile, bytes and first event (R452)
  due : Nat := 0                   -- cycle at which its result is written
  deriving DecidableEq, Repr

/-- A line in a quarter's register cache (R178), most recently used last. -/
structure RegLine where
  gang : Nat
  line : Nat
  owned : Bool := true
  dirty : Bool := false
  deriving DecidableEq, Repr

/-- A quarter of a core (R162, R172, R178, R182). -/
structure Quarter where
  cache : List RegLine := []
  stamps : Nat := 0
  stampAt : Nat := 0               -- cycle of the latest stamps
  fresh : List ((Nat × Nat) × Nat) := []   -- gangs stamped in that cycle: (placed 0 or committed 1, index), gang (R172)
  last : Option Nat := none        -- slot that issued last
  busy : Nat := 0                  -- issue slot, or turn, taken until this cycle
  issued : Option Nat := none      -- gang that issued in the last cycle in which the slot was free
  remap : Bool := false
  committed : Nat := 0             -- cycle after the last commit (R168)
  entries : List Nat := []         -- line requests that hold ordinary miss-status entries
  reserved : Option Nat := none    -- the line request that holds the reserved entry
  aged : List (Nat × Nat) := []    -- requests of aged instructions without an entry: gang, number; oldest first
  fills : List (Nat × Nat) := []   -- register fills under way: gang, line
  accFree : Nat := 0               -- cycle at which an `xacc` may be initiated again (R202)
  failing : List Nat := []         -- physical lanes recorded as failing (R197)
  deriving DecidableEq, Repr

/-- An entry of a page table held in a TLB, as a leaf, or in a walk cache (08 R241): its context, the range of addresses that it covers as
log2 of its size and the number of the range, its level, the division that holds below it (`SPLIT`), and the entry with its address. -/
structure Cached where
  ctx : Nat
  size : Nat
  range : Nat
  level : Nat
  split : Bool
  entry : Nat
  at_ : Nat
  deriving DecidableEq, Repr

/-- A line in a cache, least recently used first in its list; `keep` under CP 010 (11 R314). -/
structure CacheLine where
  line : Nat
  keep : Bool := false
  deriving DecidableEq, Repr

/-- Bytes of one block's stores in a merge step (07 R220): what decides which is later, whose they are, (offset, byte) in
order of lane and LSID, the safe-point ordinal before that block and how many bytes its stores have in pool memory (02 R61). -/
structure MergePart where
  rank : Nat × Nat
  gang : Nat
  bytes : List (Nat × Byte)
  sord : BitVec 24 := 0
  total : Nat := 0
  deriving DecidableEq, Repr

/-- A merge step that has not been written to its line (07 R218, R220): the cycle in which its stores entered the merge unit, its
line request (06 R182) and the in-flight stores that it completes. -/
structure MergeStep where
  num : Nat
  line : Nat
  cycle : Nat
  quarter : Nat
  parts : List MergePart := []
  flights : List (Nat × Nat) := []     -- gang, number of the in-flight store
  held : Bool := true                  -- its request holds a miss-status entry, or needs none
  aged : Bool := false
  replays : Nat := 0
  cp : BitVec 3 := 0
  deriving DecidableEq, Repr

/-- A core. Queued teams are those that its distributor holds for it (R134, R136). -/
structure Core where
  cyc : Nat := 0                   -- cycle counter: the clock of everything that is local to the core (00 R7)
  phase : Nat := 0                 -- part of a cycle gone by, in 1/2400 of one (01 R13, R14)
  lrm : W64 := 0
  quarters : List Quarter := []
  slots : List (Option Nat) := []
  sems : Table Sem := []
  tileFree : Nat := 0
  tq : List TqEntry := []
  tqNext : Nat := 1
  tqDone : Nat := 0
  copies : List Copy := []
  bvNext : Table Nat := []         -- next Beaver number, by context
  bvDone : Table Nat := []         -- Beaver timeline, by context
  fenced : Bool := false
  mark : List (Nat × Nat) := []    -- gangs marked for a sample, with the reason counted (R265, R468)
  queue : List Nat := []           -- queued teams, head first
  l1 : List CacheLine := []        -- lines in L1, 1024 at most (R162)
  tlb : List Cached := []          -- L1 TLB (08 R241), least recently used first
  merge : List MergeStep := []     -- the store merge unit, oldest step first (07 R218)
  deriving DecidableEq, Repr

/-! ### Partitions, contexts, queues and launches (01, 04, 05) -/

/-- A partition of a die (01 R10, R13, R18, R22; 05 R153, R154). -/
structure Partition where
  owner : Option Nat := none
  granted : Nat := 0               -- order of grant
  fixed : Bool := false            -- fixed timing
  mhz : Nat := 800
  taking : Option Nat := none      -- context for which it is being pre-empted
  halted : Bool := false
  waits : List Nat := []           -- contexts that are to have it when it is free and power allows, in order
  releasing : Bool := false
  guard : Bool := false            -- issue has stopped after a droop below the guard level (01 R19)
  deriving DecidableEq, Repr

/-- A saved partition image (05 R155): the gangs and teams of the context that were on its cores. -/
structure Image where
  ctx : Nat
  part : Nat
  sems : List (Nat × Table Sem) := []
  copies : List (Nat × List Copy) := []
  gangs : List (Nat × Nat) := []   -- gangs that were resident, with their slots
  spilled : Bool := false
  order : Nat := 0
  deriving DecidableEq, Repr

/-- The QSTATE of a command queue (04 R105). -/
inductive QState where
  | idle | running | halted | stopped | resetting | destroyed
  deriving DecidableEq, Repr

/-- A packet accepted from a ring and not yet complete (04 R112 to R114). -/
structure Accepted where
  num : Nat
  words : List W64
  started : Bool := false
  launches : List Nat := []
  result : Option (W64 × Nat) := none   -- of an admin packet that has ended: result and status, written in order (R117)
  deriving DecidableEq, Repr

/-- A command queue: 0 to 63 for contexts, 64 the admin queue (04 R102 to R107). -/
structure Queue where
  base : W64 := 0
  log2 : Nat := 0
  qcb : W64 := 0
  alt : Option W64 := none
  tail : W64 := 0
  head : W64 := 0
  qtl : W64 := 0
  admitted : W64 := 0
  detail : W64 := 0
  qstate : QState := .idle
  cause : Nat := 0
  rootchg : Bool := false
  svcchg : Bool := false
  gen : W64 := 0
  accepted : List Accepted := []
  next : Nat := 0
  polls : Bool := false                 -- a poll of TAIL is under way (R103)
  waits : Option (W64 × W64) := none    -- a TLWAIT stands at HEAD: selector and value
  waitNo : Nat := 0                     -- number of that packet
  halfSlot : Option Nat := none         -- time at which one admission slot held a valid AT without the other (R120)
  bare : Bool := false                  -- a packet whose LEN is 0 has been admitted at ADMITTED (R120)
  deriving DecidableEq, Repr

/-- A trace session (09 R263 to R268). -/
structure Trace where
  ring : W64 := 0
  size : Nat := 0
  area : W64 := 0
  period : Nat := 0
  evmask : W64 := 0
  breaks : List (W64 × Nat) := []
  closing : Option Nat := none     -- cause of a close under way (R268)
  num : Nat := 0                   -- number of the session
  deriving DecidableEq, Repr

/-- A context (04 R101, R104, R116). -/
structure Ctx where
  used : Bool := false
  prio : Nat := 0
  fixed : Bool := false
  rr : Bool := false
  checked : Bool := false
  automig : Bool := false
  vector : Nat := 0
  table : W64 := 0
  root : Nat := 0
  standby : Nat := 0
  halt : Bool := false
  frozen : Bool := false
  beat : Nat := 0
  reports : List Nat := []
  census : List CensusPart := []
  trace : Option Trace := none
  badger : Table Nat := []         -- Badger timelines by stack (03 R83)
  badgerNext : Table Nat := []
  want : List Nat := []            -- partitions by package, 16 bits each (R116)
  pkgOnly : Bool := false          -- created in reduced service: package-scoped for its lifetime (01 R28)
  deriving DecidableEq, Repr

/-- The exit message of a team, not yet counted (02 R61, 05 R145): the team as it was, its last ordinal, and whether a successor has taken its
unit. -/
structure Exit where
  team : Team
  sord : Nat
  passed : Bool := false
  deriving DecidableEq, Repr

/-- A launch in progress (05 R127 to R147). -/
structure Launch where
  ctx : Nat := 0
  queue : Nat := 0
  packet : Nat := 0
  tag : W32 := 0
  lr : List Byte := []
  graph : Option Nat := none
  units : Table Int := []          -- spawn-tree counter by part: dies 0 to 3, package 4 (R146)
  parts : List (Nat × Bool) := []
  retired : Nat := 0
  replayed : Nat := 0
  losses : Nat := 0
  steals : Nat := 0
  startAt : Nat := 0
  unsplit : List (List Nat) := []   -- team index lists that wait for a partition of the context
  svc : BitVec 8 := 0               -- service level at the start (01 R31)
  lrAddr : W64 := 0                 -- address of its launch record (09 R267)
  order : List Nat := []            -- for a graph: its launches in packet order (05 R152)
  sent : List (Nat × Nat) := []     -- teams sent to other packages: package, team index (02 R61)
  taken : List Nat := []            -- level-0 indices that this package has accepted (02 R58)
  exits : List Exit := []           -- exit messages on their way to a die distributor (02 R61)
  lossAt : Nat := 0                 -- loss entries written so far (02 R62)
  lossy : Bool := false             -- work was lost and not replayed
  status : Nat := 0
  sub : Nat := 0
  deriving DecidableEq, Repr

/-! ### Home agents and links (01, 02, 03) -/

/-- A Badger operation that has arrived at its lead home (03 R83, R87): its number on that Badger's timeline of its context,
and what its completion record will say. -/
structure BadgerRun where
  stack : Nat
  num : Nat
  op : BadgerOp
  result : W64 := 0
  flags : BitVec 8 := 0
  oor : Nat := 0
  status : EndStatus := .done
  deriving DecidableEq, Repr

/-- State of a line in the directory (03 R73). -/
inductive DirState where
  | i | s | e | m | o
  deriving DecidableEq, Repr

/-- A transaction open on a line (03 R76): the request (0 `RDS`, 1 `RDX`, 2 `UPG`), the die that made it and the dies whose probes
have not been answered. -/
structure OpenReq where
  kind : Nat
  die : Nat
  left : List Nat
  deriving DecidableEq, Repr

/-- The caches of a C-die: its die cache (01 R10, 64 MiB), its snoop filter (03 R73, R74), its last-level TLB and its walk cache (08 R241),
least recently used first, and the requests that it has outstanding, with what it will ask for next (03 R69). -/
structure DieSt where
  cache : List CacheLine := []
  tlb : List Cached := []
  walks : List Cached := []
  snoop : List Nat := []
  asked : List Nat := []
  wants : List (Nat × Nat) := []       -- line and kind of request
  deriving DecidableEq, Repr

/-- A page move in progress (03 R78). -/
structure Move where
  page : Nat
  stack : Nat
  frame : Nat
  retire : Bool := false
  copied : Bool := false
  deriving DecidableEq, Repr

/-- The link layer of one link (02 R39 to R41, R50). -/
structure LinkSt where
  next : BitVec 12 := 0
  expect : BitVec 12 := 0
  retry : List Flit := []
  replays : Nat := 0
  failed : Nat := 0
  retrains : BitVec 8 := 0
  up : Bool := false
  down : Bool := false
  width : Nat := 0
  cabling : Bool := false
  swport : Nat := 0
  fenced : Bool := false
  nakSent : Bool := false
  ackAt : Nat := 0                 -- time of the last acknowledgement, or of the flit that opened the buffer
  training : Bool := false
  trained : Bool := false          -- has been up since reset
  credits : List Nat := []         -- flits that the peer has room for, by virtual channel; a channel not listed has the initial number (R43)
  waiting : List (BitVec 3) := []  -- messages that wait for credit or for room in the retry buffer, by virtual channel
  deriving DecidableEq, Repr

/-- Bring-up stage of the package (01 R26, R30). -/
inductive Bring where
  | off | boot | reduced | full | degraded | failed
  deriving DecidableEq, Repr

/-- State of the rack domain (02 R51). -/
inductive DomState where
  | forming | standalone | member
  deriving DecidableEq, Repr

/-- Events that leave the package: management log, context event log, interrupts, flits, replies. -/
inductive OutEvent where
  | mgmt (what : String) (arg : Nat)
  | ctxEvent (ctx : Nat) (what : String)
  | msix (vector : Nat)
  | flit (l : Link) (f : Flit)
  | nak (l : Link) (expected : BitVec 12)
  | hello (die port : Nat) (h : Hello)
  | reply (what : String) (bytes : List Byte)
  | source (n : Nat)                               -- an interrupt source of the service cores' controller (04 R100)
  | control (pkg : Nat) (what : String) (words : List W64)
  deriving DecidableEq, Repr

/-- Service, rack and link state of the package. -/
structure Pkg where
  bring : Bring := .off
  failedUnits : List FailUnit := []
  service : BitVec 8 := 0x11
  admitting : Bool := true
  tray : Nat := 0
  slot : Nat := 0
  domain : W64 := 0
  present : W64 := 0
  members : W64 := 0
  lost : W64 := 0
  epoch : W32 := 0
  dstate : DomState := .forming
  heard : W64 := 0
  heardAt : Table Nat := []         -- time of the last hello of each sending port at each port (02 R52)
  ended : W64 := 0                  -- packages that have ended their training (02 R53)
  units : Table Nat := []           -- what other packages have reported in service: bit k stack k, bit 8 + d C-die d
  excludedPkgs : W64 := 0
  links : Table LinkSt := []
  pcieRate : Nat := 0
  pcieWidth : Nat := 0
  powerLimit : Nat := 2400
  samples : List Nat := []          -- power samples of the last 1 ms, newest first (01 R21)
  throttled : BitVec 4 := 0
  stretched : List Nat := []
  deriving DecidableEq, Repr

/-- The Owl: register window, patches, identity and attestation (04 R98 to R126). -/
structure Owl where
  restarts : BitVec 8 := 0
  patchcnt : BitVec 9 := 0
  secver : BitVec 7 := 0
  patchrej : Bool := false
  state : BitVec 2 := 0
  patch : Option (List Byte) := none
  staged : Option (List Byte) := none
  flash : Option (List Byte) := none
  bootImage : Option (List Byte) := none
  bootStaged : Option (List Byte) := none
  bootFlash : Option (List Byte) := none
  fuses : Nat := 0
  restartTimes : List Nat := []
  svcCores : Bool := false
  attests : List (Nat × List W64) := []
  aperture : BitVec 20 := 0
  adminQcb : W64 := 0
  adminRing : W64 := 0
  adminWait : Option (W64 × W64) := none   -- a write of `ADMIN_QCB` not yet acted on, with `ADMIN_RING` as it then stood (R102)
  msix : Table W64 := []           -- MSI-X table: 2 v the address, 2 v + 1 data and control of vector v; unlisted entries are masked
  pba : List Nat := []             -- pending bits of masked vectors
  plic : List Nat := []            -- pending interrupt sources of the service cores (R100)
  ram : List (Nat × BitVec 96) := []        -- patch RAM of the Owl in index order: address and microword (R121)
  dieRam : Table (List (Nat × BitVec 96)) := []   -- patch RAM of each die sequencer
  windows : Table (BitVec 256 × W64) := []   -- admission slots: 2 * context + slot to DIGEST and AT (R119)
  partner : Option Nat := none     -- the other member of a checked pair (R118)
  deriving DecidableEq, Repr

/-- What a pending step acts on. -/
inductive Subject where
  | none
  | gang (g : Nat)
  | on (n : Nat)          -- a core, partition, context, queue or launch, as the step needs
  | packet (p : Packet)
  deriving DecidableEq, Repr

/-- A directory entry (03 R73 to R76): state, owner, presence vector, the open transaction, the requests that wait for it in order of
arrival, the one whose turn has come, and dies whose next answer is to be discarded. -/
structure Dir where
  st : DirState := .i
  owner : Nat := 0
  sharers : BitVec 256 := 0
  pending : Option OpenReq := none
  queue : List (Subject × Instr) := []
  turn : Option (Subject × Instr) := none
  stale : List Nat := []
  deriving DecidableEq, Repr

/-- A step to come (notes/assumptions/3.md): when, by which clock (that of the package, or a core's cycle counter, 00 R7), on what,
and which. -/
structure Due where
  time : Nat
  clock : Option Nat
  subj : Subject
  ev : Instr
  deriving DecidableEq, Repr

/-- An instruction chosen to issue in this cycle: gang, primary or secondary, index. -/
structure IssueRef where
  gang : Nat
  sec : Bool
  idx : Nat
  deriving DecidableEq, Repr

/-- The machine. `g` is the gang on which the current step acts, `gid` its number; `gangs` holds the others (its entry
for `gid`, if any, is stale). -/
structure State where
  g : Gang := {}
  gid : Nat := 0
  isec : Bool := false             -- the issuing instance is the secondary
  idx : Nat := 0                   -- index of the issuing instruction
  subj : Nat := 0
  pkt : Packet := ⟨0, 0, []⟩
  gangs : Table Gang := []
  teams : Table Team := []
  cores : Table Core := []
  parts : Table Partition := []
  images : List Image := []
  stealing : Table (List Nat) := []  -- victims asked so far by each requester: core queues, 576 + d for dies, 640 + n for packages (05 R139)
  granted : Table Nat := []          -- time of the last steal that each victim has granted (05 R139)
  graphTurn : Table Nat := []        -- launch of a graph whose team each die distributor has admitted last (05 R152)
  ctxs : Table Ctx := []
  queues : Table Queue := []
  launches : Table Launch := []
  pkg : Pkg := {}
  owl : Owl := {}
  mem : List Host.Cell := []
  ind : Table W64 := []            -- indirection entries by pool page (R71)
  tableBase : Table W64 := []      -- indirection table base by stack (R72)
  homes : List Nat := []           -- the home list (R67)
  hints : Table Nat := []          -- home hints: 2^32 * die + page to stack (R69)
  dir : Table Dir := []
  dirUse : List Nat := []          -- lines of the directories, least recently used first (R74)
  entries : Table (List Nat) := [] -- on-die cache of indirection entries of each stack: pages, least recently used first (R72)
  dies : Table DieSt := []         -- caches of the package's C-dies
  moves : List Move := []
  pinned : Table Nat := []         -- PINNED windows (R79)
  samples : Table (List Nat) := [] -- access monitor (R81)
  reqCount : Table Nat := []       -- requests that each home agent has counted (R81)
  lostLines : List Nat := []
  lostPages : List Nat := []
  corrected : Table (List Nat) := []   -- lines of each stack corrected in this scrub pass, by line of the stack (01 R35)
  scrubbed : Table (List Nat) := []    -- lines of each stack read in this scrub pass
  lastOwner : Table Nat := []      -- context that last held a frame, by 2^19 * stack + frame (01 R32)
  badFrames : List Nat := []       -- frames of retired pages: 2^19 * stack + frame (R35)
  edges : List Nat := []           -- addresses of the lines that EQ_CREATE has written (04 R115)
  parkedEdges : List (EdgeReq × Bool) := []
  badgerOps : List BadgerRun := []
  spare : Table W64 := []          -- spare frame of each die (R251)
  reserve : List Nat := []         -- images free, by die (R255)
  out : List OutEvent := []
  now : Nat := 0
  turn : List Nat := []            -- cores still to take their cycle in this tick
  twice : List Nat := []           -- cores that have a second cycle in this tick (01 R13: above 800 MHz)
  issue : List IssueRef := []
  agenda : List Due := []
  free : Nat := 0
  grantNo : Nat := 0
  nextId : Nat := 1
  deriving DecidableEq, Repr

/-! ### Reset -/

/-- A quarter with every register line, entry and slot free. -/
def resetQuarter : Quarter := {}

/-- A core after reset: all slots free, `LRM` with only lane 32 idle in every quarter (R193). -/
def resetCore : Core :=
  { lrm := 0x0FE00FE00FE00FE0, quarters := List.replicate 4 resetQuarter, slots := List.replicate 32 none }

/-- The registers of a gang that has not started (R132): zero, with `k0` reading all ones. -/
def resetGang : Gang :=
  { ks := 0xFFFFFFFF :: List.replicate 15 0, xinv := List.replicate 4 0, slices := List.replicate 8 {},
    fva := List.replicate 32 0, pmres := List.replicate 32 0, ldpAddr := List.replicate 32 0xFFFFFFFFFFFFFFFF,
    ldpVal := List.replicate 32 0, prov := List.replicate 4 0 }

/-- The machine after reset: nothing started, before the sideband's power-good (01 R26). -/
def State.reset : State :=
  { g := resetGang,
    cores := (List.range 576).map fun n => (n, resetCore),
    parts := (List.range 16).map fun n => (n, {}),
    ctxs := (List.range 64).map fun n => (n, {}),
    queues := (List.range 65).map fun n => (n, {}),
    reserve := List.replicate 4 8192 }

end Sys2Proof.Machine
end

