-- ==== Sys2Proof/Machine/Table.lean ====
section
/-! DEFINITION. Finite tables, memory cells and lane lists: the plain containers of the state. -/

namespace Sys2Proof.Machine

/-- The entry at a key, or none. -/
def tfind {α : Type} : Table α → Nat → Option α
  | [], _ => none
  | (k, v) :: r, n => if k = n then some v else tfind r n

/-- The entry at a key, or the reader's default. -/
def tget {α : Type} (t : Table α) (n : Nat) (d : α) : α := (tfind t n).getD d

/-- The table with the entry at a key replaced or entered, keys rising. -/
def tset {α : Type} : Table α → Nat → α → Table α
  | [], n, v => [(n, v)]
  | (k, w) :: r, n, v => if n < k then (n, v) :: (k, w) :: r else if n = k then (n, v) :: r else (k, w) :: tset r n v

/-- The table without the entry at a key. -/
def tdel {α : Type} : Table α → Nat → Table α
  | [], _ => []
  | (k, w) :: r, n => if k = n then r else (k, w) :: tdel r n

/-- The entry at a key changed by a function, from a default where it is absent. -/
def tmod {α : Type} (t : Table α) (n : Nat) (d : α) (f : α → α) : Table α := tset t n (f (tget t n d))

/-- Lane l of a lane list; absent lanes are zero. -/
def lane (x : Lanes) (l : Nat) : W64 := x.getD l 0

/-- A list of the 32 lanes from a function of the lane number. -/
def lanes (f : Nat → W64) : Lanes := (List.range 32).map f

/-- A value in every lane. -/
def splat (x : W64) : Lanes := List.replicate 32 x

/-- The mask of the lanes that satisfy a test. -/
def maskOf (p : Nat → Bool) : Mask :=
  BitVec.ofNat 32 ((List.range 32).foldl (fun a l => if p l then a + 2 ^ l else a) 0)

/-- All 32 lanes. -/
def allLanes : Mask := 0xFFFFFFFF

/-- A mask that is all ones when the flag holds. -/
def maskIf (c : Bool) : Mask := if c then allLanes else 0

/-- The lanes of a mask in increasing number. -/
def lanesOf (m : Mask) : List Nat := (List.range 32).filter fun l => m.getLsbD l

/-- The lowest lane of a mask, if any. -/
def lowest (m : Mask) : Option Nat := (lanesOf m).head?

/-- The bytes of a number, least significant first. -/
def bytesOf : Nat → Nat → List Byte
  | 0, _ => []
  | n + 1, x => BitVec.ofNat 8 x :: bytesOf n (x / 256)

/-- The number that bytes hold, least significant first. -/
def natOf : List Byte → Nat
  | [] => 0
  | b :: r => b.toNat + 256 * natOf r

/-- Bits [hi:lo] of a number. -/
def bits (x hi lo : Nat) : Nat := (x / 2 ^ lo) % 2 ^ (hi + 1 - lo)

/-- A 64-bit word from a number. -/
def w64 (x : Nat) : W64 := BitVec.ofNat 64 x

/-- The number of bits of a number: 0 for 0, else floor(log2 x) + 1. -/
def bitLen (x : Nat) : Nat := if x = 0 then 0 else Nat.log2 x + 1

/-- Round up to a multiple. -/
def alignUp (x z : Nat) : Nat := (x + z - 1) / z * z

/-! ### Memory cells -/

/-- The byte at a key; a byte that nothing has written reads zero (notes/assumptions/2.md). -/
def memByte : List Host.Cell → Nat → Byte
  | [], _ => 0
  | (k, v) :: r, n => if k = n then v else memByte r n

/-- The cells without a key. -/
def memErase : List Host.Cell → Nat → List Host.Cell
  | [], _ => []
  | (k, v) :: r, n => if k = n then memErase r n else (k, v) :: memErase r n

/-- The cells with a non-zero byte entered, keys rising. -/
def memInsert : List Host.Cell → Nat → Byte → List Host.Cell
  | [], n, b => [(n, b)]
  | (k, v) :: r, n, b =>
    if n < k then (n, b) :: (k, v) :: r else if n = k then (n, b) :: r else (k, v) :: memInsert r n b

/-- A byte written; writing zero removes the entry, so equal memories are equal lists. -/
def memSet (m : List Host.Cell) (n : Nat) (b : Byte) : List Host.Cell :=
  if b = 0 then memErase m n else memInsert m n b

/-- Canonical form: keys strictly rising above `lo`, no zero byte. -/
def cellsOk : Option Nat → List Host.Cell → Bool
  | _, [] => true
  | lo, (k, v) :: r => (match lo with | none => true | some l => decide (l < k)) && v != 0 && cellsOk (some k) r

/-- The canonical form of a memory. -/
def Memory.wf (m : List Host.Cell) : Bool := cellsOk none m

/-- Bytes from a key upward. -/
def memRead (m : List Host.Cell) (n : Nat) : Nat → List Byte
  | 0 => []
  | k + 1 => memByte m n :: memRead m (n + 1) k

/-- Bytes written from a key upward. -/
def memWrite (m : List Host.Cell) (n : Nat) : List Byte → List Host.Cell
  | [] => m
  | b :: r => memWrite (memSet m n b) (n + 1) r

/-! ### Byte tables (stash and tile memory), kept in the same canonical form -/

/-- Bytes of a store from an offset upward. -/
abbrev stRead (t : Table Byte) (n len : Nat) : List Byte := memRead t n len
/-- Bytes written to a store from an offset upward. -/
abbrev stWrite (t : Table Byte) (n : Nat) (bs : List Byte) : Table Byte := memWrite t n bs

end Sys2Proof.Machine
end

