-- ==== Sys2Proof/Machine/Hash.lean ====
section
/-! DEFINITION. SHAKE256 and SLH-DSA-SHAKE-256s, which spec/04_host_commands.md R119 to R125 name: the permutation and the sponge of
FIPS 202, and signing and verification by FIPS 205 (notes/assumptions/64.md). -/

namespace Sys2Proof.Machine

/-! ### SHAKE256

The state of the permutation is five planes of five words: plane y holds the words of (x, y) for x = 0 to 4. -/

/-- A list turned by some places: the entry at x is the one that stood at x + n. -/
def turned (row : List W64) (n : Nat) : List W64 := row.drop n ++ row.take n

/-- Two rows, or two lists of bits, added word by word. -/
def addRows (a b : List W64) : List W64 := List.zipWith (fun x y => x ^^^ y) a b

/-- The step theta: to each word come the parities of the column before it and, turned by one bit, of the column after it. -/
def mixColumns (planes : List (List W64)) : List (List W64) :=
  let parity := planes.foldl addRows (List.replicate 5 0)
  let sum := addRows (turned parity 4) ((turned parity 1).map fun w => w.rotateLeft 1)
  planes.map (addRows sum)

/-- The path of a word under the step pi, from (1, 0) on: (x, y) goes to (y, 2 x + 3 y). -/
def lanePath : Nat → Nat → Nat → List (Nat × Nat)
  | 0, _, _ => []
  | n + 1, x, y => (x, y) :: lanePath n y ((2 * x + 3 * y) % 5)

/-- By how many bits the step rho turns the word at a place: the sum of 1 to t + 1 for the place t of the path, 0 for (0, 0). -/
def laneTurn (x y : Nat) : Nat :=
  let t := (lanePath 24 1 0).idxOf (x, y)
  if t < 24 then (t + 1) * (t + 2) / 2 % 64 else 0

/-- The steps rho and pi: to (x, y) comes the word of (x + 3 y, x), turned. -/
def moveLanes (planes : List (List W64)) : List (List W64) :=
  (List.range 5).map fun y => (List.range 5).map fun x =>
    let from_ := (x + 3 * y) % 5
    ((planes.getD x []).getD from_ 0).rotateLeft (laneTurn from_ x)

/-- The step chi, on one plane. -/
def mixPlane (row : List W64) : List W64 :=
  addRows row (List.zipWith (fun x y => ~~~x &&& y) (turned row 1) (turned row 2))

/-- The shift register whose low bit gives the round constants, after some steps. -/
def roundBits : Nat → Nat
  | 0 => 1
  | n + 1 =>
    let r := 2 * roundBits n
    if r < 256 then r else r ^^^ 0x171

/-- The constant of a round, for the step iota: bit 2^j - 1 is the register's after 7 i + j steps. -/
def roundConstant (i : Nat) : W64 :=
  (List.range 7).foldl (fun w j => w ||| BitVec.ofNat 64 (roundBits (7 * i + j) % 2) <<< (2 ^ j - 1)) 0

/-- Rounds of the permutation, from a round on. -/
def rounds : Nat → Nat → List (List W64) → List (List W64)
  | 0, _, planes => planes
  | n + 1, i, planes =>
    match (moveLanes (mixColumns planes)).map mixPlane with
    | (w :: row) :: rest => rounds n (i + 1) (((w ^^^ roundConstant i) :: row) :: rest)
    | other => other

/-- The planes of a block of 136 bytes: 17 words, then zeros. -/
def planesOf (block : List Byte) : List (List W64) :=
  (List.range 5).map fun y => (List.range 5).map fun x => BitVec.ofNat 64 (natOf ((block.drop (8 * (5 * y + x))).take 8))

/-- The planes after the whole input, its padding added at its end. -/
def takeIn : Nat → List (List W64) → List Byte → List (List W64)
  | 0, planes, _ => planes
  | n + 1, planes, bs =>
    let add (block : List Byte) := rounds 24 0 (List.zipWith addRows planes (planesOf block))
    if bs.length < 136 then
      let padded := bs ++ (0x1F : Byte) :: List.replicate (135 - bs.length) 0
      add (padded.mapIdx fun i b => if i = 135 then b ||| 0x80 else b)
    else takeIn n (add (bs.take 136)) (bs.drop 136)

/-- Bytes of the output, 136 between two permutations. -/
def giveOut : Nat → List (List W64) → List Byte
  | 0, _ => []
  | n + 1, planes => (planes.flatten.take 17).flatMap (fun w => bytesOf 8 w.toNat) ++ giveOut n (rounds 24 0 planes)

/-- SHAKE256 with an output of some bytes. -/
def shake256 (bs : List Byte) (n : Nat) : List Byte :=
  (giveOut (n / 136 + 1) (takeIn (bs.length / 136 + 1) (planesOf []) bs)).take n

/-- The 256-bit SHAKE256 of some bytes. -/
def shake32 (bs : List Byte) : List Byte := shake256 bs 32

/-! ### SLH-DSA: addresses and hashes -/

/-- The bytes of a number, most significant first. -/
def bigBytes (n x : Nat) : List Byte := (bytesOf n x).reverse

/-- An address: layer, tree, type and three words whose use depends on the type. -/
structure HashAdr where
  layer : Nat := 0
  tree : Nat := 0
  kind : Nat := 0
  pair : Nat := 0
  mid : Nat := 0
  low : Nat := 0
  deriving DecidableEq, Repr

/-- The 32 bytes of an address. -/
def adrBytes (a : HashAdr) : List Byte :=
  bigBytes 4 a.layer ++ bigBytes 12 a.tree ++ bigBytes 4 a.kind ++ bigBytes 4 a.pair ++ bigBytes 4 a.mid ++ bigBytes 4 a.low

/-- The hash of some bytes at an address, 32 bytes: F, H and T of FIPS 205. -/
def hashAt (seed : List Byte) (a : HashAdr) (bs : List Byte) : List Byte := shake32 (seed ++ adrBytes a ++ bs)

/-- Digits of b bits, most significant first. -/
def digits (bs : List Byte) (b n : Nat) : List Nat :=
  let x := natOf bs.reverse
  (List.range n).map fun i => x / 2 ^ (8 * bs.length - b * (i + 1)) % 2 ^ b

/-- The i-th run of 32 bytes. -/
def node32 (bs : List Byte) (i : Nat) : List Byte := (bs.drop (32 * i)).take 32

/-- Parameters: height of a tree, layers, height and number of FORS trees. -/
structure SlhParams where
  hp : Nat
  d : Nat
  a : Nat
  k : Nat
  deriving DecidableEq, Repr

/-- SLH-DSA-SHAKE-256s. -/
def slh256s : SlhParams := ⟨8, 8, 14, 22⟩

/-- The digest of a message: FORS digits' bytes, tree and leaf (FIPS 205, with m bytes of output). -/
def slhDigest (p : SlhParams) (r seed root m : List Byte) : List Byte × Nat × Nat :=
  let x := (p.k * p.a + 7) / 8
  let y := (p.hp * (p.d - 1) + 7) / 8
  let z := (p.hp + 7) / 8
  let g := shake256 (r ++ seed ++ root ++ m) (x + y + z)
  (g.take x, natOf ((g.drop x).take y).reverse % 2 ^ (p.hp * (p.d - 1)), natOf ((g.drop (x + y)).take z).reverse % 2 ^ p.hp)

/-! ### One-time signatures -/

/-- Steps of a hash chain, from a position on. -/
def chain (seed : List Byte) (a : HashAdr) : Nat → Nat → List Byte → List Byte
  | _, 0, x => x
  | i, n + 1, x => chain seed a (i + 1) n (hashAt seed { a with low := i } x)

/-- The 67 digits that a message of 32 bytes signs with: 64 of its own and 3 of the checksum. -/
def wotsDigits (m : List Byte) : List Nat :=
  let xs := digits m 4 64
  let sum := xs.foldl (fun s x => s + (15 - x)) 0
  xs ++ digits (bigBytes 2 (sum * 16)) 4 3

/-- The public value that a one-time signature stands for. -/
def wotsFromSig (seed : List Byte) (a : HashAdr) (sig m : List Byte) : List Byte :=
  let tmp := (wotsDigits m).zipIdx.flatMap fun (x, i) => chain seed { a with mid := i } x (15 - x) (node32 sig i)
  hashAt seed { layer := a.layer, tree := a.tree, kind := 1, pair := a.pair } tmp

/-- The secret value of a chain. -/
def wotsSecret (skSeed seed : List Byte) (a : HashAdr) (i : Nat) : List Byte :=
  shake32 (seed ++ adrBytes { layer := a.layer, tree := a.tree, kind := 5, pair := a.pair, mid := i } ++ skSeed)

/-- A one-time signature. -/
def wotsSign (skSeed seed : List Byte) (a : HashAdr) (m : List Byte) : List Byte :=
  (wotsDigits m).zipIdx.flatMap fun (x, i) => chain seed { a with mid := i } 0 x (wotsSecret skSeed seed a i)

/-- The public value of a leaf. -/
def wotsPublic (skSeed seed : List Byte) (a : HashAdr) : List Byte :=
  let tmp := (List.range 67).flatMap fun i => chain seed { a with mid := i } 0 15 (wotsSecret skSeed seed a i)
  hashAt seed { layer := a.layer, tree := a.tree, kind := 1, pair := a.pair } tmp

/-! ### Trees -/

/-- Climbing an authentication path: `adr` gives the address of a node by height and index. -/
def climb (seed : List Byte) (adr : Nat → Nat → HashAdr) : Nat → Nat → List (List Byte) → List Byte → List Byte
  | _, _, [], x => x
  | h, i, y :: ys, x => climb seed adr (h + 1) (i / 2) ys (hashAt seed (adr (h + 1) (i / 2)) (if i % 2 = 0 then x ++ y else y ++ x))

/-- The node of a tree at a height and index, from its leaves. -/
def treeNode (seed : List Byte) (adr : Nat → Nat → HashAdr) (leaf : Nat → List Byte) : Nat → Nat → List Byte
  | 0, i => leaf i
  | h + 1, i => hashAt seed (adr (h + 1) i) (treeNode seed adr leaf h (2 * i) ++ treeNode seed adr leaf h (2 * i + 1))

/-- The sibling of a leaf's ancestor at each height. -/
def authPath (seed : List Byte) (adr : Nat → Nat → HashAdr) (leaf : Nat → List Byte) (i n : Nat) : List Byte :=
  (List.range n).flatMap fun h => treeNode seed adr leaf h (i / 2 ^ h ^^^ 1)

/-- The address of a node of a Merkle tree of one-time keys. -/
def xmssAdr (layer tree h i : Nat) : HashAdr := { layer := layer, tree := tree, kind := 2, mid := h, low := i }

/-- The root that a signature of one layer stands for. -/
def xmssFromSig (p : SlhParams) (seed : List Byte) (layer tree leaf : Nat) (sig m : List Byte) : List Byte :=
  let x := wotsFromSig seed { layer := layer, tree := tree, pair := leaf } (sig.take (32 * 67)) m
  climb seed (xmssAdr layer tree) 0 leaf ((List.range p.hp).map fun j => node32 sig (67 + j)) x

/-- The root of one layer's tree. -/
def xmssRoot (p : SlhParams) (skSeed seed : List Byte) (layer tree : Nat) : List Byte :=
  treeNode seed (xmssAdr layer tree) (fun i => wotsPublic skSeed seed { layer := layer, tree := tree, pair := i }) p.hp 0

/-- A signature of one layer. -/
def xmssSign (p : SlhParams) (skSeed seed : List Byte) (layer tree leaf : Nat) (m : List Byte) : List Byte :=
  wotsSign skSeed seed { layer := layer, tree := tree, pair := leaf } m ++
    authPath seed (xmssAdr layer tree) (fun i => wotsPublic skSeed seed { layer := layer, tree := tree, pair := i }) leaf p.hp

/-- The root that the layers' signatures stand for, from a layer on. -/
def layersFromSig (p : SlhParams) (seed sig : List Byte) : Nat → Nat → Nat → Nat → List Byte → List Byte
  | 0, _, _, _, m => m
  | n + 1, layer, tree, leaf, m =>
    layersFromSig p seed sig n (layer + 1) (tree / 2 ^ p.hp) (tree % 2 ^ p.hp)
      (xmssFromSig p seed layer tree leaf ((sig.drop (32 * (67 + p.hp) * layer)).take (32 * (67 + p.hp))) m)

/-- The signatures of the layers. -/
def layersSign (p : SlhParams) (skSeed seed : List Byte) : Nat → Nat → Nat → Nat → List Byte → List Byte
  | 0, _, _, _, _ => []
  | n + 1, layer, tree, leaf, m =>
    xmssSign p skSeed seed layer tree leaf m ++
      layersSign p skSeed seed n (layer + 1) (tree / 2 ^ p.hp) (tree % 2 ^ p.hp) (xmssRoot p skSeed seed layer tree)

/-! ### Few-time signatures -/

/-- The address of a node of the FORS trees. -/
def forsAdr (tree leaf h i : Nat) : HashAdr := { tree := tree, kind := 3, pair := leaf, mid := h, low := i }

/-- The FORS public value of a leaf from the roots of its trees. -/
def forsPublic (seed : List Byte) (tree leaf : Nat) (roots : List Byte) : List Byte :=
  hashAt seed { tree := tree, kind := 4, pair := leaf } roots

/-- The FORS public value that a signature stands for. -/
def forsFromSig (p : SlhParams) (seed : List Byte) (tree leaf : Nat) (sig md : List Byte) : List Byte :=
  forsPublic seed tree leaf ((digits md p.a p.k).zipIdx.flatMap fun (x, i) =>
    let at_ := i * (p.a + 1)
    climb seed (forsAdr tree leaf) 0 (i * 2 ^ p.a + x) ((List.range p.a).map fun j => node32 sig (at_ + 1 + j))
      (hashAt seed (forsAdr tree leaf 0 (i * 2 ^ p.a + x)) (node32 sig at_)))

/-- The secret value of a FORS leaf. -/
def forsSecret (skSeed seed : List Byte) (tree leaf i : Nat) : List Byte :=
  shake32 (seed ++ adrBytes { tree := tree, kind := 6, pair := leaf, low := i } ++ skSeed)

/-- A FORS leaf. -/
def forsLeaf (skSeed seed : List Byte) (tree leaf i : Nat) : List Byte :=
  hashAt seed (forsAdr tree leaf 0 i) (forsSecret skSeed seed tree leaf i)

/-- A FORS signature. -/
def forsSign (p : SlhParams) (skSeed seed : List Byte) (tree leaf : Nat) (md : List Byte) : List Byte :=
  (digits md p.a p.k).zipIdx.flatMap fun (x, i) =>
    forsSecret skSeed seed tree leaf (i * 2 ^ p.a + x) ++
      (List.range p.a).flatMap fun h =>
        treeNode seed (forsAdr tree leaf) (forsLeaf skSeed seed tree leaf) h (i * 2 ^ (p.a - h) + (x / 2 ^ h ^^^ 1))

/-! ### Signing and verifying -/

/-- The bytes that are signed for a message with an empty context. -/
def slhMessage (m : List Byte) : List Byte := 0 :: 0 :: m

/-- Does a signature verify for a public key (seed and root, 32 bytes each)? -/
def slhVerify (p : SlhParams) (pub m sig : List Byte) : Bool :=
  let seed := pub.take 32
  let root := pub.drop 32
  let fors := 32 * p.k * (p.a + 1)
  let (md, tree, leaf) := slhDigest p (sig.take 32) seed root (slhMessage m)
  pub.length == 64 && sig.length == 32 + fors + 32 * p.d * (67 + p.hp) &&
    layersFromSig p seed (sig.drop (32 + fors)) p.d 0 tree leaf (forsFromSig p seed tree leaf (sig.drop 32) md) == root

/-- The public key of three seeds: secret, message and public. -/
def slhPublic (p : SlhParams) (skSeed pkSeed : List Byte) : List Byte := pkSeed ++ xmssRoot p skSeed pkSeed (p.d - 1) 0

/-- A signature with the key of three seeds, and the random value that goes into it. -/
def slhSign (p : SlhParams) (skSeed skPrf pkSeed random m : List Byte) : List Byte :=
  let root := (slhPublic p skSeed pkSeed).drop 32
  let r := shake32 (skPrf ++ random ++ slhMessage m)
  let (md, tree, leaf) := slhDigest p r pkSeed root (slhMessage m)
  let sig := forsSign p skSeed pkSeed tree leaf md
  r ++ sig ++ layersSign p skSeed pkSeed p.d 0 tree leaf (forsFromSig p pkSeed tree leaf sig md)

end Sys2Proof.Machine
end

