-- ==== Sys2Proof/Machine/Ops.lean ====
section
/-! DEFINITION. The named operations over the state: focus, registers, the current block instance, the agenda, fault
records, and taking a fault (R243 to R249, R253). -/

namespace Sys2Proof.Machine

/-- The outcome type of every meaning. -/
abbrev Out := Host.Outcome State Fault Refusal

/-! ### Gangs, teams, cores and the rest by number -/

/-- A gang by number; the focused one is held in `g`. -/
def State.gangAt (s : State) (n : Nat) : Option Gang := if n = s.gid then some s.g else tfind s.gangs n

/-- A gang changed by a function. -/
def State.modGang (s : State) (n : Nat) (f : Gang → Gang) : State :=
  if n = s.gid then { s with g := f s.g }
  else match tfind s.gangs n with
    | some x => { s with gangs := tset s.gangs n (f x) }
    | none => s

/-- Focus on a gang: the focused one goes back to the table, the other comes out of it. -/
def State.focus (s : State) (n : Nat) : State :=
  if n = s.gid then s
  else match tfind s.gangs n with
    | some x => { s with g := x, gid := n, gangs := tdel (tset s.gangs s.gid s.g) n }
    | none => s

/-- Every gang, the focused one included, by number. -/
def State.allGangs (s : State) : List (Nat × Gang) := tset s.gangs s.gid s.g

/-- A team by number. -/
def State.teamAt (s : State) (n : Nat) : Team := tget s.teams n {}
/-- A team changed, if it exists. -/
def State.modTeam (s : State) (n : Nat) (f : Team → Team) : State :=
  match tfind s.teams n with
  | some t => { s with teams := tset s.teams n (f t) }
  | none => s
/-- The focused gang's team. -/
def State.team (s : State) : Team := s.teamAt s.g.team
/-- A core by number 144 * die + core. -/
def State.coreAt (s : State) (n : Nat) : Core := tget s.cores n resetCore
/-- A core changed. -/
def State.modCore (s : State) (n : Nat) (f : Core → Core) : State := { s with cores := tmod s.cores n resetCore f }
/-- The focused gang's core. -/
def State.core (s : State) : Core := s.coreAt s.g.core
/-- A quarter of a core. -/
def Core.quarterAt (c : Core) (q : Nat) : Quarter := c.quarters.getD q {}
/-- A quarter changed. -/
def Core.modQuarter (c : Core) (q : Nat) (f : Quarter → Quarter) : Core :=
  { c with quarters := c.quarters.set q (f (c.quarterAt q)) }
/-- A context by number. -/
def State.ctxAt (s : State) (n : Nat) : Ctx := tget s.ctxs n {}
/-- A context changed. -/
def State.modCtx (s : State) (n : Nat) (f : Ctx → Ctx) : State := { s with ctxs := tmod s.ctxs n {} f }
/-- A queue by number; 64 is the admin queue. -/
def State.queueAt (s : State) (n : Nat) : Queue := tget s.queues n {}
/-- A queue changed. -/
def State.modQueue (s : State) (n : Nat) (f : Queue → Queue) : State := { s with queues := tmod s.queues n {} f }
/-- A launch by number. -/
def State.launchAt (s : State) (n : Nat) : Launch := tget s.launches n {}
/-- A launch changed, if it exists. -/
def State.modLaunch (s : State) (n : Nat) (f : Launch → Launch) : State :=
  match tfind s.launches n with
  | some l => { s with launches := tset s.launches n (f l) }
  | none => s
/-- A partition by number 4 * die + partition. -/
def State.partAt (s : State) (n : Nat) : Partition := tget s.parts n {}
/-- A partition changed. -/
def State.modPart (s : State) (n : Nat) (f : Partition → Partition) : State := { s with parts := tmod s.parts n {} f }
/-- The package's service record changed. -/
def State.modPkg (s : State) (f : Pkg → Pkg) : State := { s with pkg := f s.pkg }
/-- The focused gang's launch. -/
def State.launchOf (s : State) : Launch := s.launchAt s.team.launch
/-- The focused gang's context number. -/
def State.ctxNo (s : State) : Nat := s.launchOf.ctx
/-- The C-die of a core. -/
def dieOf (core : Nat) : Nat := core / 144
/-- The partition, 4 * die + q, that a core belongs to (01 R10): cores 0 to 127 in four runs of 32, 128 to 143 in
four runs of 4. -/
def partOf (core : Nat) : Nat :=
  let k := core % 144
  4 * dieOf core + (if k < 128 then k / 32 else (k - 128) / 4)
/-- The team of a gang by number. -/
def State.teamOf (s : State) (n : Nat) : Nat := ((s.gangAt n).map (·.team)).getD 0
/-- The package number SELF (02 R45): 4 * tray + slot. -/
def State.self (s : State) : Nat := 4 * s.pkg.tray + s.pkg.slot

/-! ### Little-endian fields of byte records -/

/-- Bytes [off + n - 1 : off] of a record as a number. -/
def fieldOf (bs : List Byte) (off n : Nat) : Nat := natOf ((bs.drop off).take n)

/-- A 64-byte record set at an offset. -/
def putBytes (rec_ : List Byte) (off : Nat) (bs : List Byte) : List Byte :=
  rec_.take off ++ bs ++ rec_.drop (off + bs.length)

/-- FLAGS of a launch record (R128). -/
def Launch.flags (l : Launch) : Nat := fieldOf l.lr 24 8
/-- FIXORD (R128). -/
def Launch.fixord (l : Launch) : Bool := l.flags.testBit 2
/-- DOMCL (R128). -/
def Launch.domcl (l : Launch) : Bool := l.flags.testBit 3
/-- ALLOC_NULL (R128). -/
def Launch.allocNull (l : Launch) : Bool := l.flags.testBit 5
/-- SEED (R127). -/
def Launch.seed (l : Launch) : W64 := w64 (fieldOf l.lr 72 8)

/-! ### The agenda -/

/-- A step entered for a later time of the package; steps due at one time keep the order in which they were entered. -/
def State.later (s : State) (delay : Nat) (subj : Subject) (ev : Instr) : State :=
  { s with agenda := s.agenda ++ [⟨s.now + delay, none, subj, ev⟩] }

/-- The cycle of the focused gang's core: every count that is local to a core is a count of that core's cycles (00 R7). -/
def State.clock (s : State) : Nat := s.core.cyc

/-- A step entered for a number of a core's cycles from now (00 R7). -/
def State.laterOn (s : State) (core delay : Nat) (subj : Subject) (ev : Instr) : State :=
  { s with agenda := s.agenda ++ [⟨(s.coreAt core).cyc + delay, some core, subj, ev⟩] }

/-- A step entered for a number of cycles of the focused gang's core from now. -/
def State.laterHere (s : State) (delay : Nat) (subj : Subject) (ev : Instr) : State := s.laterOn s.g.core delay subj ev

/-- The counter of free values past the one just read. -/
def State.drawn (s : State) : State := { s with free := s.free + 1 }

/-- A step entered after a delay that the spec leaves open (R203), at least one cycle. -/
def State.offCore (s : State) (subj : Subject) (ev : Instr) : State :=
  { s with agenda := s.agenda ++ [⟨s.now + 1 + Config.freeDelay s.free, none, subj, ev⟩], free := s.free + 1 }

/-- A step entered to run next, before time advances. -/
def State.soon (s : State) (subj : Subject) (ev : Instr) : State := s.later 0 subj ev

/-- An event that leaves the package. -/
def State.emit (s : State) (e : OutEvent) : State := { s with out := s.out ++ [e] }

/-- A fresh number. -/
def State.fresh (s : State) : Nat × State := (s.nextId, { s with nextId := s.nextId + 1 })

/-! ### Registers (R177) -/

/-- Image word of a v register's lane. -/
def vKey (n l : Nat) : Nat := 32 * n + l
/-- Image word of an s register. -/
def sKey (n : Nat) : Nat := 4096 + n
/-- Image word for a v register at a privilege: v112 to v127 of a handler are the supervisor bank (R247). -/
def vKeyAt (sup : Bool) (n l : Nat) : Nat := if sup && decide (112 ≤ n) then 32 * (146 + (n - 112)) + l else vKey n l
/-- Image word for an s register at a privilege. -/
def sKeyAt (sup : Bool) (n : Nat) : Nat := if sup && decide (48 ≤ n) then 32 * 162 + (n - 48) else sKey n
/-- Image line of a register word. -/
def lineOf (key : Nat) : Nat := key / 32

/-- A register word. -/
def Gang.word (g : Gang) (k : Nat) : W64 := tget g.regs k 0
/-- A register word written; its line has then been written (R178). -/
def Gang.setWord (g : Gang) (k : Nat) (x : W64) : Gang :=
  { g with regs := tset g.regs k x, written := if g.written.contains (lineOf k) then g.written else lineOf k :: g.written }
/-- A k register: k0 reads all ones (R329). -/
def Gang.kreg (g : Gang) (n : Nat) : W32 := if n = 0 then 0xFFFFFFFF else g.ks.getD n 0
/-- A k register written; a write of k0 changes nothing (R330). -/
def Gang.setK (g : Gang) (n : Nat) (x : W32) : Gang := if n = 0 then g else { g with ks := g.ks.set n x }

/-- The value of a register as a token's lanes (R329). -/
def Gang.readReg (g : Gang) : Reg → Lanes
  | .v n => lanes fun l => g.word (vKeyAt g.sup n.toNat l)
  | .s n => splat (g.word (sKeyAt g.sup n.toNat))
  | .k n => splat ((g.kreg n.toNat).setWidth 64)

/-- A register written in the lanes of a mask (R281). -/
def Gang.writeReg (g : Gang) (r : Reg) (m : Mask) (x : Lanes) : Gang :=
  match r with
  | .v n => (lanesOf m).foldl (fun g l => g.setWord (vKeyAt g.sup n.toNat l) (lane x l)) g
  | .s n => if m = 0 then g else g.setWord (sKeyAt g.sup n.toNat) (lane x 0)
  | .k n => g.setK n.toNat ((g.kreg n.toNat &&& ~~~m) ||| ((lane x 0).setWidth 32 &&& m))

/-! ### The current block instance -/

/-- The instance on which the current step acts. -/
def State.blk? (s : State) : Option Blk := if s.isec then s.g.sec else s.g.prim

/-- The current instance replaced. -/
def State.setBlk (s : State) (b : Blk) : State :=
  if s.isec then { s with g := { s.g with sec := some b } } else { s with g := { s.g with prim := some b } }

/-- The instructions of a run of words, by LEN alone, with what decoding gives for each (R306). -/
def walk : Nat → List W32 → List (Except DecodeErr Instr)
  | 0, _ => []
  | _ + 1, [] => []
  | n + 1, w :: ws =>
    match takeInstr (w :: ws) with
    | none => [.error .truncated]
    | some t => decodeTaken t :: walk n t.rest

/-- NI of the header (R305). -/
def Blk.ni (b : Blk) : Nat := bits (b.hdr.getD 0 0).toNat 27 21
/-- NW of the header. -/
def Blk.nw (b : Blk) : Nat := bits (b.hdr.getD 0 0).toNat 20 11
/-- TIMED of the header. -/
def Blk.timed (b : Blk) : Bool := (b.hdr.getD 0 0).getLsbD 0
/-- STOP of the header. -/
def Blk.stop (b : Blk) : Bool := (b.hdr.getD 0 0).getLsbD 1
/-- ORDINAL of the header. -/
def Blk.ordinal (b : Blk) : BitVec 24 := (b.hdr.getD 2 0).extractLsb' 8 24
/-- TLEN of the header. -/
def Blk.tlen (b : Blk) : Nat := (b.hdr.getD 3 0).toNat / 65536

/-- The instructions of the instance in index order, as far as they decode. -/
def Blk.code (b : Blk) : List (Except DecodeErr Instr) := walk b.words.length b.words

/-- The instruction at an index. -/
def Blk.instrAt (b : Blk) (i : Nat) : Except DecodeErr Instr := b.code.getD i (.error .truncated)

/-- The decoded instructions with their indices. -/
def Blk.instrs (b : Blk) : List (Nat × Instr) :=
  (b.code.zip (List.range b.code.length)).filterMap fun p =>
    match p.1 with
    | .ok i => some (p.2, i)
    | .error _ => none

/-- The active lanes: the lanes of the instance that are not switched off (R285). -/
def Blk.active (b : Blk) : Mask := b.lanes &&& ~~~b.off

/-- The slot's number in a token key. -/
def Slot.num : Slot → Nat
  | .a => 0 | .b => 1 | .c => 2 | .p => 3

/-- The token in a slot of an instruction. -/
def Blk.tok (b : Blk) (idx : Nat) (sl : Slot) : Option Tok := tfind b.toks (4 * idx + Slot.num sl)

/-- A token sent to a target (R276); the no-target code sends nothing. -/
def Blk.send (b : Blk) (idx : Nat) (t : Target) (x : Tok) : Blk :=
  if t = Target.none then b
  else { b with toks := tset b.toks (4 * (idx + t.dist.toNat) + Slot.num t.slot) x }

/-- One bit per instruction. -/
def bit96 (i : Nat) : BitVec 96 := BitVec.ofNat 96 (2 ^ i)

/-- The instruction has issued. -/
def Blk.markIssued (b : Blk) (idx : Nat) (now : Nat) : Blk :=
  { b with issued := b.issued ||| bit96 idx, progress := now }

/-- The instruction has completed (R287). -/
def Blk.markDone (b : Blk) (idx : Nat) : Blk := { b with issued := b.issued ||| bit96 idx, done := b.done ||| bit96 idx }

/-- The result token sent to all four targets, and the instruction complete. -/
def Blk.deliver (b : Blk) (idx : Nat) (f : Form) (x : Tok) : Blk :=
  ((((b.send idx f.t0 x).send idx f.t1 x).send idx f.t2 x).send idx f.t3 x).markDone idx

/-- A result pair sent: T0 and T2 the first, T1 and T3 the second (R343, R383). -/
def Blk.deliverPair (b : Blk) (idx : Nat) (f : Form) (x y : Tok) : Blk :=
  ((((b.send idx f.t0 x).send idx f.t1 y).send idx f.t2 x).send idx f.t3 y).markDone idx

/-- What the instruction leaves for the commit point. -/
def Blk.leave (b : Blk) (r : Fired) : Blk := { b with fired := b.fired ++ [r] }

/-- Flights finished by number, and the run of finished ones at the head dropped (14 R406). -/
def finishFlight (n : Nat) (l : List Flight) : List Flight :=
  (l.map fun x => if x.num = n then { x with finished := true } else x).dropWhile (·.finished)

/-- Order of pairs, the first component deciding first. -/
def pairLt (a b : Nat × Nat) : Bool := decide (a.1 < b.1) || (a.1 == b.1 && decide (a.2 < b.2))

/-! ### Timing -/

/-- Two-pass mode of the focused gang's quarter: DUAL of LRM (R193). -/
def State.twoPass (s : State) : Bool := s.core.lrm.getLsbD (16 * s.g.quarter + 15)

/-- Fixed timing of the focused gang's partition (R18). -/
def State.fixedTiming (s : State) : Bool := (s.partAt (partOf s.g.core)).fixed

/-- A latency of R202: one-pass and two-pass columns. -/
def State.lat (s : State) (l : Nat × Nat) : Nat := if s.twoPass then l.2 else l.1

/-! ### Faults (R243) -/

/-- An execution fault entered for the instance: the first to be detected is kept; among those of one cycle the lowest
index issues first in a quarter, so the first entered is the one R243 takes. -/
def Blk.faulted (b : Blk) (r : FaultRec) : Blk :=
  match b.pend with
  | some _ => b
  | none => { b with pend := some r }

/-- FCAUSE of a fault (R247). -/
def causeOf (r : FaultRec) : W64 :=
  w64 (r.idx * 2 ^ 40 + r.lsid * 2 ^ 32 + r.sub * 2 ^ 16 + r.code)

/-- A lane has left its current path: it has retired, or it waits at regang. -/
def Gang.gone (g : Gang) (l : Nat) : Bool := g.exm.getLsbD l || g.rset.getLsbD l

/-- The lanes of a set of slices. -/
def sliceMask (sl : BitVec 8) : Mask := maskOf fun l => sl.getLsbD (l / 4)

/-- The lanes of the current paths of a split (R285). -/
def Gang.pathLanes (g : Gang) (sp : BitVec 8) : Mask :=
  maskOf fun l => sp.getLsbD (l / 4) && ((g.slices.getD (l / 4) {}).cur.lanes.getLsbD (l % 4)) && !(g.exm.getLsbD l)

/-- The block address of a split: that of its lowest slice. -/
def Gang.splitAddr (g : Gang) (sp : BitVec 8) : W64 :=
  match (List.range 8).find? (fun i => sp.getLsbD i) with
  | some i => (g.slices.getD i {}).cur.addr
  | none => 0

/-- The supervisor page (R246). -/
def supPage : Nat := 0x00FFFFFFFFFE0000

/-- A slice reached by a release from `regang`: a path of other lanes is pushed first (R171). -/
def Slice.receive (s : Slice) (addr : W64) (m : BitVec 4) : Slice :=
  if s.cur.lanes = 0 then { s with cur := ⟨addr, m⟩ } else { cur := ⟨addr, m⟩, stack := s.cur :: s.stack }

/-- Slices that an uncommitted instance of the gang holds. -/
def Gang.heldSlices (g : Gang) : BitVec 8 :=
  ((g.prim.map (·.slices)).getD 0) ||| ((g.sec.map (·.slices)).getD 0)

/-- A slice taken out of every split; a split left with none leaves the table. -/
def dropSlice (i : Nat) (l : List (BitVec 8)) : List (BitVec 8) :=
  (l.map fun sp => sp &&& ~~~(BitVec.ofNat 8 (2 ^ i))).filter fun sp => sp != 0

/-- A released split placed in the slices from `i` on that no uncommitted instance holds; what is left of it (R171). -/
def Gang.placeSlices (g : Gang) (tgt : W64) (m : Mask) : Nat → Nat → Gang × Mask
  | 0, _ => (g, m)
  | n + 1, i =>
    let x := m.extractLsb' (4 * i) 4
    if x = 0 || g.heldSlices.getLsbD i then g.placeSlices tgt m n (i + 1)
    else
      let g1 := { g with slices := g.slices.set i ((g.slices.getD i {}).receive tgt x), splits := dropSlice i g.splits }
      g1.placeSlices tgt (m &&& ~~~(BitVec.ofNat 32 (15 * 16 ^ i))) n (i + 1)

/-- Released splits placed as far as their slices are free; one that is placed whole is the first of the table (R171). The
stand kept at a handler's entry has none left. -/
def Gang.placeRels (g : Gang) : Gang :=
  g.rels.foldl (fun (g : Gang) r =>
    let x := Gang.placeSlices g r.1 r.2.1 8 0
    if x.2 = 0 then { x.1 with splits := r.2.2 :: x.1.splits } else { x.1 with rels := x.1.rels ++ [(r.1, x.2, r.2.2)] })
    { g with rels := [] }

/-- Both instances discarded (R243, R290); fills and requests free their entries when their replies arrive. -/
def Gang.discard (g : Gang) : Gang := ({ g with prim := none, sec := none } : Gang).placeRels

/-- A slice that stands at an address with the lanes of a mask, nothing stacked. -/
def freshSlice (addr : W64) (m : Mask) (i : Nat) : Slice :=
  { cur := { addr := addr, lanes := m.extractLsb' (4 * i) 4 } }

/-- The slices that hold lanes of a mask. -/
def slicesOf (m : Mask) : BitVec 8 := BitVec.ofNat 8 ((List.range 8).foldl (fun a i =>
  if m.extractLsb' (4 * i) 4 = 0 then a else a + 2 ^ i) 0)

/-- Taking a user fault: the gang enters the handler (R247). The stand of every slice and the split table are kept for
the return; every lane outside FLM waits. `addr` is FPC. -/
def Gang.enterHandler (g : Gang) (r : FaultRec) (addr : W64) : Gang :=
  let g := g.discard
  { g with
    sup := true, fcause := causeOf r, fpc := addr, flm := r.lanes,
    fva := if r.va.isEmpty then splat 0 else r.va,
    saveFst := g.fst, saveSplits := g.splits, saveSlices := g.slices, saveExm := g.exm, ended := 0,
    slices := (List.range 8).map (freshSlice (w64 supPage) r.lanes),
    splits := [slicesOf r.lanes], held := g.held.filter fun p => p.1 < 4 }

/-- What a queue stops with: DETAIL of R104 and R253: TAG, subcode and code. -/
def detailOf (tag : W32) (sub code : Nat) : W64 := w64 (tag.toNat * 2 ^ 32 + sub % 65536 * 2 ^ 16 + code % 65536)

/-- The handler state is dropped and the gang stands where its user fault was taken (R253, R463). -/
def Gang.dropHandler (g : Gang) : Gang :=
  { g.discard with sup := false, fst := g.saveFst, splits := g.saveSplits, slices := g.saveSlices,
                   exm := g.saveExm, ended := 0, held := g.held.filter fun p => p.1 < 4 }

/-- Return to user privilege when the handler ends (R249): FST and the stand are restored, and every lane that fired
`exit` is retired, with its unrecovered trap for the exit record. -/
def Gang.leaveHandler (g : Gang) (retired : Mask) : Gang :=
  { g.discard with
    sup := false, fst := g.saveFst, exm := g.saveExm ||| retired, splits := g.saveSplits, slices := g.saveSlices,
    ended := 0, held := g.held.filter fun p => p.1 < 4 }

end Sys2Proof.Machine
end

