-- ==== Sys2Proof/Machine/Pool.lean ====
section
/-! DEFINITION. Pool memory and translation: frames and indirection entries (spec/03_pool.md R66 to R72, spec/04 R481),
the page-table walk (spec/08_translation_faults.md R234 to R240), and typed accesses to them. -/

namespace Sys2Proof.Machine

/-- A failed access: fault code of R245 and subcode. -/
abbrev Fail := Nat × Nat

/-! ### Indirection (R66 to R72) -/

/-- The pool page of a pool-logical address. -/
def pageOf (a : Nat) : Nat := a / 2 ^ 17

/-- Mix(P) (R68). -/
def mix (p : Nat) : Nat := (p * 0x9E3779B1 % 2 ^ 32) ^^^ (p / 2 ^ 16)

/-- The hash home of a page (R68); stack 0 of the package while the home list is empty. -/
def State.hashHome (s : State) (p : Nat) : Nat := s.homes.getD (mix p % max 1 s.homes.length) (8 * s.self)

/-- The package gives service: `BOOT` has ended (01 R26), and it has not failed (01 R30). -/
def State.inService (s : State) : Bool := s.pkg.bring == .reduced || s.pkg.bring == .full || s.pkg.bring == .degraded

/-- Is a package one of the domain, or this one? In reduced service the package acts as a domain of one (01 R27). -/
def State.inDomain (s : State) (pkg : Nat) : Bool :=
  pkg == s.self || (s.pkg.bring != .reduced && s.pkg.members.getLsbD pkg)

/-- Is the page one of the admin region of a package of the domain (R481)? -/
def State.isAdmin (s : State) (p : Nat) : Bool := decide (p < 1024) && s.inDomain (p / 16)

/-- An indirection entry (R71). -/
def indEntry (valid explicit : Bool) (home frame ctx : Nat) : W64 :=
  w64 ((if valid then 2 ^ 63 else 0) + (if explicit then 2 ^ 62 else 0) + home % 512 * 2 ^ 39 + frame % 2 ^ 19 * 2 ^ 13 + ctx % 64)

/-- The indirection entry of a page; the pages of the admin regions have entries of their own, which at this package become valid at the end
of `BOOT` (R481). -/
def State.entryOf (s : State) (p : Nat) : W64 :=
  if s.isAdmin p then indEntry (s.inService || p / 16 != s.self) true (8 * (p / 16)) (521984 + p % 16) 0 else tget s.ind p 0

/-- VALID. -/
def entValid (e : W64) : Bool := e.getLsbD 63
/-- EXPLICIT. -/
def entExplicit (e : W64) : Bool := e.getLsbD 62
/-- PINNED. -/
def entPinned (e : W64) : Bool := e.getLsbD 61
/-- MIGRATING. -/
def entMigrating (e : W64) : Bool := e.getLsbD 60
/-- LOSTPAGE. -/
def entLost (e : W64) : Bool := e.getLsbD 59
/-- MOVES. -/
def entMoves (e : W64) : Nat := bits e.toNat 58 56
/-- WIN. -/
def entWin (e : W64) : Nat := bits e.toNat 55 48
/-- HOME. -/
def entHome (e : W64) : Nat := bits e.toNat 47 39
/-- FRAME. -/
def entFrame (e : W64) : Nat := bits e.toNat 31 13
/-- CTX. -/
def entCtx (e : W64) : Nat := bits e.toNat 5 0

/-- The current home of a page (R69). -/
def State.homeOf (s : State) (p : Nat) : Nat :=
  let e := s.entryOf p
  if entValid e then entHome e else s.hashHome p

/-- Is a stack lost or out of service: a failed unit of this package, or a package outside the domain (R28, R64)? In reduced service every
stack but 0 and 1 of the package is. -/
def State.stackLost (s : State) (k : Nat) : Bool :=
  if k / 8 = s.self then
    s.pkg.failedUnits.contains (.stack (k % 8)) || s.pkg.failedUnits.contains (.die (k % 8 / 2)) ||
      ((s.pkg.bring == .boot || s.pkg.bring == .reduced) && decide (2 ≤ k % 8))
  else !(s.inDomain (k / 8)) || s.pkg.lost.getLsbD (k / 8)

/-- The physical key of a pool-logical address. -/
def State.poolKey (s : State) (a : Nat) : Nat :=
  let e := s.entryOf (pageOf a)
  entHome e * 2 ^ 36 + entFrame e * 2 ^ 17 + a % 2 ^ 17

/-- The checks of R70, R64 and R28 on an access to a page, for a context or (none) untranslated. -/
def State.pageFail (s : State) (ctx : Option Nat) (p : Nat) : Option Fail :=
  let e := s.entryOf p
  if s.isAdmin p && ctx.isSome then some (6, 6)
  else if !entValid e then some (5, 4)
  else if (match ctx with | some c => decide (entCtx e ≠ c) && !s.isAdmin p | none => false) then some (6, 6)
  else if s.stackLost (entHome e) then some (8, 0)
  else none

/-- Is a line of lost data (R37)? -/
def State.lineLost (s : State) (a : Nat) : Bool := s.lostLines.contains (a / 256) || s.lostPages.contains (pageOf a)

/-! ### Owned copies (06 R189, 07 R218) -/

/-- The byte of a mapped stash region that holds a pool address dirty: an owned copy, newer than memory. -/
def State.dirtyByte (s : State) (a : Nat) : Option Byte :=
  s.teams.findSome? fun p => p.2.regions.findSome? fun r => r.filled.findSome? fun k =>
    if k.2 = a / 256 && r.dirty.contains (2 * k.1 + a / 128 % 2) then some (memByte p.2.stash (r.off + 256 * k.1 + a % 256)) else none

/-- The byte at a pool-logical address as every agent sees it: from the copy that owns its line, else from memory. -/
def State.poolByte (s : State) (a : Nat) : Byte := (s.dirtyByte a).getD (memByte s.mem (s.poolKey a))

/-- The bytes at a pool-logical address; each byte is found by its own page. -/
def State.poolRead (s : State) (a n : Nat) : List Byte := (List.range n).map fun i => s.poolByte (a + i)

/-- Bytes put into memory at pool-logical addresses. -/
def State.memCells (s : State) : List (Nat × Byte) → State
  | [] => s
  | (p, b) :: r => State.memCells { s with mem := memSet s.mem (s.poolKey p) b } r

/-- The dirty sectors of one line of a region, with their bytes by pool address. -/
def Team.dirtyCells (t : Team) (r : Region) (k line : Nat) : List (Nat × Byte) :=
  ((List.range 2).filter fun h => r.dirty.contains (2 * k + h)).flatMap fun h =>
    (List.range 128).map fun i => (256 * line + 128 * h + i, memByte t.stash (r.off + 256 * k + 128 * h + i))

/-- A region without some of its lines, or with them clean. -/
def Region.release (r : Region) (keep : Bool) (out : Nat → Bool) : Region :=
  { r with filled := if keep then r.filled else r.filled.filter fun k => !out k.1, dirty := r.dirty.filter fun h => !out (h / 2) }

/-- The copies of a pool line in mapped regions: team, region, line of the region. -/
def State.copiesOf (s : State) (line : Nat) : List (Nat × Region × Nat) :=
  s.teams.flatMap fun p => p.2.regions.flatMap fun r => (r.filled.filter fun k => k.2 == line).map fun k => (p.1, r, k.1)

/-- One copy of a line given up: its dirty sectors go to memory, and unless it is kept the line is unfilled (R189). -/
def State.yieldCopy (s : State) (line : Nat) (keep : Bool) (x : Nat × Region × Nat) : State :=
  let s1 := s.memCells ((s.teamAt x.1).dirtyCells x.2.1 x.2.2 line)
  s1.modTeam x.1 fun t => { t with regions := t.regions.map fun r => if r.num = x.2.1.num then r.release keep fun k => k == x.2.2 else r }

/-- The copies of a line given up by the regions that a test names. -/
def State.yieldCopies (s : State) (line : Nat) (keep : Bool) (who : Nat → Nat → Bool) : State :=
  ((s.copiesOf line).filter fun x => who x.1 x.2.1.num).foldl (fun s x => s.yieldCopy line keep x) s

/-- The caches of a C-die of the package. -/
def State.dieAt (s : State) (d : Nat) : DieSt := tget s.dies d {}
/-- They changed. -/
def State.modDie (s : State) (d : Nat) (f : DieSt → DieSt) : State := { s with dies := tmod s.dies d {} f }

/-- A line dropped from the L1s of a die's cores. -/
def State.dropL1 (s : State) (d line : Nat) : State :=
  { s with cores := s.cores.map fun c =>
      if dieOf c.1 = d && c.2.l1.any (fun x => x.line == line) then (c.1, { c.2 with l1 := c.2.l1.filter fun x => x.line != line }) else c }

/-- Writes to lines reported to the gangs that watch them (06 R186): each that is parked and holds no slot will wait for one. -/
def State.noteWrites (s : State) (lines : List Nat) : State :=
  lines.foldl (fun s n => (s.allGangs.filter fun p => p.2.parked && p.2.slot.isNone && p.2.watch.contains n).foldl
    (fun s p => s.soon (.gang p.1) (.watchedWrite n)) s) s

/-- A write to a line by an agent other than the regions that a test excepts: every other copy in the package is given up, and the gangs
that watch the line hear of it. The dies' requests say the same to the directory (03 R75). -/
def State.claimLine (s : State) (who : Nat → Nat → Bool) (line : Nat) : State :=
  let s1 := s.yieldCopies line false who
  let s2 := (List.range 4).foldl (fun s d => if (s.dieAt d).snoop.contains line then s.dropL1 d line else s) s1
  s2.noteWrites [line]

/-- Bytes written at pool-logical addresses by an agent that holds no copy of its own. -/
def State.writeCells (s : State) (cells : List (Nat × Byte)) : State :=
  (((cells.map fun c => c.1 / 256).eraseDups).foldl (fun s l => s.claimLine (fun _ _ => true) l) s).memCells cells

/-- Bytes written at a pool-logical address. -/
def State.poolWrite (s : State) (a : Nat) (bs : List Byte) : State :=
  s.writeCells (((List.range bs.length).map (a + ·)).zip bs)

/-- A 64-bit word at a pool-logical address. -/
def State.poolWord (s : State) (a : Nat) : W64 := w64 (natOf (s.poolRead a 8))

/-! ### The walk (R235 to R239) -/

/-- An access as translation sees it. -/
structure Acc where
  write : Bool := false
  fetch : Bool := false
  sup : Bool := false
  deriving DecidableEq, Repr

/-- Index of a virtual address in a table (R235). -/
def tableIndex (level : Nat) (split : Bool) (va : Nat) : Nat :=
  match level with
  | 0 => va / 2 ^ 40 % 65536
  | 1 => va / 2 ^ 31 % 512
  | 2 => if split then va / 2 ^ 27 % 16 else va / 2 ^ 22 % 512
  | _ => if split then va / 2 ^ 17 % 1024 else va / 2 ^ 17 % 32

/-- log2 of the page that a leaf maps. -/
def leafSize (level : Nat) (split : Bool) : Nat :=
  match level with
  | 1 => 31
  | 2 => if split then 27 else 22
  | _ => 17

/-- Malformed entries (R238). -/
def entryMalformed (level : Nat) (split : Bool) (e : Nat) : Bool :=
  if e.testBit 62 then
    level == 0 || bits e 56 48 != 0 || bits e 16 0 != 0 || bits e 47 17 % 2 ^ (leafSize level split - 17) != 0
  else
    level == 3 || (e.testBit 61 && level != 1) || bits e 60 48 != 0 || bits e 7 0 != 0

/-- What a walk finds: the leaf, the pool-logical address of its entry, the address it maps to, and log2 of the page. -/
structure Leaf where
  entry : Nat
  at_ : Nat
  pa : Nat
  size : Nat := 17
  deriving DecidableEq, Repr

/-- The walk from a table down; it stops at the first entry that meets a row of R238 other than W, X and SUP. -/
def State.walkFrom (s : State) (ctx : Nat) (va : Nat) : Nat → Nat → Bool → Nat → Except Fail Leaf
  | 0, _, _, _ => .error (6, 2)
  | n + 1, level, split, table =>
    let at_ := table + 8 * tableIndex level split va
    match s.pageFail (some ctx) (pageOf at_) with
    | some x => .error x
    | none =>
      if s.lineLost at_ then .error (9, 0)
      else
        let e := (s.poolWord at_).toNat
        if !e.testBit 63 then .error (5, level)
        else if entryMalformed level split e then .error (6, 2)
        else if e.testBit 62 then
          let k := leafSize level split
          .ok ⟨e, at_, bits e 47 17 * 2 ^ 17 + va % 2 ^ k, k⟩
        else s.walkFrom ctx va n (level + 1) (if level = 1 then e.testBit 61 else split) (bits e 47 8 * 256)

/-- The walk of a context's tables for an address (R234, R238). -/
def State.walkVa (s : State) (ctx : Nat) (va : Nat) : Except Fail Leaf :=
  if 2 ^ 56 ≤ va then .error (6, 1)
  else s.walkFrom ctx va 4 0 false (s.ctxAt ctx).table.toNat

/-! ### TLBs and walk caches (R240, R241) -/

/-- The table entries that a walk passes through, from a table down. -/
def State.tablesFrom (s : State) (ctx : Nat) (va : Nat) : Nat → Nat → Bool → Nat → List Cached
  | 0, _, _, _ => []
  | n + 1, level, split, table =>
    let at_ := table + 8 * tableIndex level split va
    let e := (s.poolWord at_).toNat
    if !e.testBit 63 || e.testBit 62 then []
    else
      let k := match level with | 0 => 40 | 1 => 31 | _ => if split then 27 else 22
      let below := if level = 1 then e.testBit 61 else split
      ⟨ctx, k, va / 2 ^ k, level, below, e, at_⟩ :: s.tablesFrom ctx va n (level + 1) below (bits e 47 8 * 256)

/-- An entry covers an address of a context. -/
def Cached.covers (c : Cached) (ctx va : Nat) : Bool := c.ctx == ctx && va / 2 ^ c.size == c.range

/-- What a leaf in a TLB maps an address to. -/
def Cached.leaf (c : Cached) (va : Nat) : Leaf := ⟨c.entry, c.at_, bits c.entry 47 17 * 2 ^ 17 + va % 2 ^ c.size, c.size⟩

/-- What the focused gang's core and die have cached for an address: the leaf of a TLB, or the walk below a cached table. -/
def State.cachedWalks (s : State) (ctx va : Nat) : List (Except Fail Leaf) :=
  let d := s.dieAt (dieOf s.g.core)
  let tlbs := s.core.tlb ++ d.tlb
  ((tlbs.filter fun c => c.covers ctx va).map fun c => .ok (c.leaf va)) ++
    (d.walks.filter fun c => c.covers ctx va).map fun c => s.walkFrom ctx va (3 - c.level) (c.level + 1) c.split (bits c.entry 47 8 * 256)

/-- Two outcomes of a walk are the same. -/
def sameWalk : Except Fail Leaf → Except Fail Leaf → Bool
  | .ok x, .ok y => x == y
  | .error x, .error y => x == y
  | _, _ => false

/-- The outcome of translation for an address: what the tables hold now; where something cached says otherwise, it is open which of the
outcomes an access meets, until a `tlbinv` has completed (R240, 07 R224). -/
def State.mapping (s : State) (ctx va : Nat) : Except Fail Leaf × State :=
  let now := s.walkVa ctx va
  match (s.cachedWalks ctx va).filter fun x => !(sameWalk x now) with
  | [] => (now, s)
  | old => ((now :: old).getD (Config.freeDelay s.free % (old.length + 1)) now, { s with free := s.free + 1 })

/-- An entry put into a cache of some sets and ways as its most recently used one; a full set gives up its least recently used. -/
def putCached (sets ways : Nat) (c : Cached) (l : List Cached) : List Cached :=
  let set := fun (x : Cached) => Config.tlbSet x.ctx x.size x.range % sets
  let rest := l.filter fun x => !(x.ctx == c.ctx && x.size == c.size && x.range == c.range && x.level == c.level)
  (if rest.length < ways then rest
   else
     let mine := rest.filter fun x => set x == set c
     match mine with
     | v :: _ => if mine.length < ways then rest else rest.filter fun x => x != v
     | [] => rest) ++ [c]

/-- A leaf that an access has used enters the TLBs of the focused gang's core (64 entries) and die (2048 in 8 ways). -/
def State.keepLeaf (s : State) (ctx va : Nat) (l : Leaf) (entry : Nat) : State :=
  let c : Cached := ⟨ctx, l.size, va / 2 ^ l.size, 3, false, entry, l.at_⟩
  (s.modCore s.g.core fun x => { x with tlb := putCached 1 64 c x.tlb }).modDie (dieOf s.g.core) fun x => { x with tlb := putCached 256 8 c x.tlb }

/-- The tables of a walk enter the die's walk cache (512 entries in 8 ways), where no TLB had the leaf. -/
def State.keepTables (s : State) (ctx va : Nat) : State :=
  let d := s.dieAt (dieOf s.g.core)
  if (s.core.tlb ++ d.tlb).any fun c => c.covers ctx va then s
  else
    let ts := s.tablesFrom ctx va 3 0 false (s.ctxAt ctx).table.toNat
    if ts.isEmpty then s else s.modDie (dieOf s.g.core) fun x => { x with walks := ts.foldl (fun a c => putCached 64 8 c a) x.walks }

/-- Rows W, X and SUP of R238. -/
def leafDenies (a : Acc) (e : Nat) : Option Fail :=
  if a.write && !e.testBit 61 then some (6, 3)
  else if a.fetch && !e.testBit 60 then some (6, 4)
  else if !a.sup && e.testBit 59 then some (6, 5)
  else none

/-- Bits of a leaf entry, which the walker has found clear, set in memory by an atomic OR at its home (R239). -/
def State.orLeaf (s : State) (l : Leaf) (m : Nat) : State :=
  if l.entry &&& m = m then s else s.poolWrite l.at_ (bytesOf 8 ((s.poolWord l.at_).toNat ||| m))

/-- Translation of one address (R234 to R239, R70): the pool-logical address or the fault, and the state with ACC and
DRT updated; these updates stand whatever becomes of the access. -/
def State.translate (s : State) (ctx : Nat) (va : Nat) (a : Acc) : Except Fail Nat × State :=
  let m := s.mapping ctx va
  match m.1 with
  | .error x => (.error x, m.2)
  | .ok l =>
    let dirt := if a.write && (leafDenies a l.entry).isNone then 2 ^ 58 + 2 ^ 57 else 2 ^ 58
    let s1 := (m.2.keepTables ctx va).orLeaf l (2 ^ 58)
    let s2 := s1.keepLeaf ctx va l (l.entry ||| dirt)
    match leafDenies a l.entry with
    | some x => (.error x, s2)
    | none =>
      match s2.pageFail (some ctx) (pageOf l.pa) with
      | some x => (.error x, s2)
      | none => (.ok l.pa, if a.write then s2.orLeaf l (2 ^ 58 + 2 ^ 57) else s2)

/-- Translation of a run of bytes after a byte already translated: within a 128 KiB page addresses follow on. -/
def State.translateFrom (s : State) (ctx : Nat) (a : Acc) : Nat → Nat → Option Nat → Except (Fail × Nat) (List Nat) × State
  | 0, _, _ => (.ok [], s)
  | n + 1, va, prev =>
    let r := match prev with
      | some p => if va % 2 ^ 17 = 0 then s.translate ctx va a else (.ok (p + 1), s)
      | none => s.translate ctx va a
    match r.1 with
    | .error x => (.error (x, va), r.2)
    | .ok p =>
      let rest := State.translateFrom r.2 ctx a n (va + 1) (some p)
      (rest.1.map fun ps => p :: ps, rest.2)

/-- Translation of a run of bytes: the pool-logical address of each, or the first fault in byte order; every page that
the run touches is checked (R396). -/
def State.translateRun (s : State) (ctx : Nat) (va : Nat) (a : Acc) (n : Nat) : Except (Fail × Nat) (List Nat) × State :=
  s.translateFrom ctx a n va none

/-- Bytes read at pool addresses, one after another; a listed line fails the read of the whole. -/
def State.readAt (s : State) (va : Nat) (ps : List Nat) : Except (Fail × Nat) (List Byte) × State :=
  if ps.any s.lineLost then (.error ((9, 0), va), s) else (.ok (ps.map s.poolByte), s)

/-- Reads bytes at the virtual addresses of a context. -/
def State.readVirt (s : State) (ctx : Nat) (va n : Nat) (a : Acc) : Except (Fail × Nat) (List Byte) × State :=
  let r := s.translateRun ctx va a n
  match r.1 with
  | .error x => (.error x, r.2)
  | .ok ps => r.2.readAt va ps

/-! ### Lost lines under a write (01 R37) -/

/-- All 256 bytes of a line are among some pool addresses. -/
def coversLine (as : List Nat) (line : Nat) : Bool := (List.range 256).all fun i => as.contains (256 * line + i)

/-- The listed lines that a write of some addresses reaches without supplying them whole: the merge must read them. -/
def State.mergesLost (s : State) (as : List Nat) : Bool :=
  ((as.map (· / 256)).eraseDups).any fun l => s.lineLost (256 * l) && !(coversLine as l)

/-- Listed lines that a write supplies whole leave the table. -/
def State.clearLost (s : State) (as : List Nat) : State :=
  if s.lostLines.isEmpty then s else { s with lostLines := s.lostLines.filter fun l => !(coversLine as l) }

/-- Bytes written at pool addresses; a write that must merge into a listed line fails (01 R37). -/
def State.writeAt (s : State) (va : Nat) (ps : List Nat) (bs : List Byte) : Except (Fail × Nat) Unit × State :=
  if s.mergesLost ps then (.error ((9, 0), va), s) else (.ok (), (s.writeCells (ps.zip bs)).clearLost ps)

/-- Writes bytes at the virtual addresses of a context; a write that must merge into a listed line fails (01 R37). -/
def State.writeVirt (s : State) (ctx : Nat) (va : Nat) (bs : List Byte) (a : Acc) : Except (Fail × Nat) Unit × State :=
  let r := s.translateRun ctx va { a with write := true } bs.length
  match r.1 with
  | .error x => (.error x, r.2)
  | .ok ps => r.2.writeAt va ps bs

end Sys2Proof.Machine
end

