-- ==== Sys2Proof/Machine/Cache.lean ====
section
/-! DEFINITION. What the dies and cores hold of the pool's lines: L1s, die caches and snoop filters (spec/06_cores.md R162, spec/03_pool.md
R73, R74), the requests that a die has outstanding (R69), the directory's entries (R74), and the store merge unit of a core
(spec/07_memory_model.md R218, R220). Caches hold no bytes of their own: which lines they hold decides latencies and messages; the bytes are those
of memory, of the region that owns a line, and of the merge unit. -/

namespace Sys2Proof.Machine

/-! ### Directory entries (03 R73, R74) -/

/-- The directory entry of a line; a line without one is in state I. -/
def State.dirAt (s : State) (line : Nat) : Dir := tget s.dir line {}

/-- An entry with nothing to remember. -/
def Dir.idle (d : Dir) : Bool := d.st == .i && d.pending.isNone && d.queue.isEmpty && d.turn.isNone && d.stale.isEmpty

/-- A directory entry written, as the most recently used one; an idle one leaves the table. -/
def State.setDir (s : State) (line : Nat) (d : Dir) : State :=
  let use := s.dirUse.filter fun l => l != line
  if d.idle then { s with dir := tdel s.dir line, dirUse := use } else { s with dir := tset s.dir line d, dirUse := use ++ [line] }

/-- Presence bit of a C-die 4 n + d. -/
def dieBit (die : Nat) : BitVec 256 := BitVec.ofNat 256 (2 ^ die)

/-- The C-dies of a presence vector. -/
def diesOf (m : BitVec 256) : List Nat := (List.range 256).filter fun i => m.getLsbD i

/-- The number in the domain of a C-die of this package. -/
def State.dieNo (s : State) (d : Nat) : Nat := 4 * s.self + d

/-! ### Caches (06 R162, 11 R314) -/

/-- A line put into a cache of some capacity under a cache policy: `stream` as the least recently used, `keep` ahead of the others. The
line that leaves is the least recently used that is not kept, else the least recently used. -/
def cachePut (cap : Nat) (cp : BitVec 3) (line : Nat) (l : List CacheLine) : List CacheLine × Option Nat :=
  let rest := l.filter fun x => x.line != line
  let out := if rest.length < cap then none else ((rest.find? fun x => !x.keep).or rest.head?).map (·.line)
  let left := match out with | some v => rest.filter fun x => x.line != v | none => rest
  (if cp = 1 then ⟨line, false⟩ :: left else left ++ [⟨line, cp == 2⟩], out)

/-- Is a line in a cache? -/
def holdsLine (l : List CacheLine) (line : Nat) : Bool := l.any fun x => x.line == line

/-- A line is held above the die cache: in an L1 or a mapped region of the die. -/
def State.heldAbove (s : State) (d line : Nat) : Bool :=
  (s.cores.any fun c => dieOf c.1 == d && holdsLine c.2.l1 line) ||
  (s.copiesOf line).any fun x => dieOf (s.teamAt x.1).core == d

/-- After a line was dropped somewhere on a die: out of the snoop filter when nothing above holds it, and with no copy left the home
hears of it: a write-back from the owner of changed data, else a clean eviction (03 R75). -/
def State.settleDie (s : State) (d line : Nat) : State :=
  if s.heldAbove d line then s
  else
    let s1 := s.modDie d fun x => { x with snoop := x.snoop.filter fun l => l != line }
    let e := s1.dirAt line
    if holdsLine (s1.dieAt d).cache line || !(e.sharers.getLsbD (s.dieNo d)) then s1
    else s1.soon .none (if (e.st == .m || e.st == .o) && e.owner == s.dieNo d then .wb (s.dieNo d) line (some []) else .cleanEviction (s.dieNo d) line)

/-- A die gives up a line everywhere: dirty sectors of mapped regions go to memory and the line is unfilled there (R74, 06 R189). -/
def State.leaveDie (s : State) (d line : Nat) (keep : Bool) : State :=
  let s1 := s.yieldCopies line keep fun t _ => dieOf (s.teamAt t).core == d
  if keep then s1
  else (s1.dropL1 d line).modDie d fun x =>
    { x with snoop := x.snoop.filter fun l => l != line, cache := x.cache.filter fun y => y.line != line }

/-- A line entered in a die's snoop filter of 16384 sets of 16 ways; a full set gives up its least recently used line (R74). -/
def State.snoopIn (s : State) (d line : Nat) : State :=
  let f := (s.dieAt d).snoop
  let put := fun (s : State) => s.modDie d fun x => { x with snoop := (x.snoop.filter fun l => l != line) ++ [line] }
  let ways := f.filter fun l => l != line && Config.snoopSet l % 16384 == Config.snoopSet line % 16384
  match (if f.contains line || f.length < 16 || ways.length < 16 then none else ways.head?) with
  | none => put s
  | some v =>
    let s1 := (s.yieldCopies v false fun t _ => dieOf (s.teamAt t).core == d).dropL1 d v
    put (s1.settleDie d v)

/-- A line entered in a die cache of 64 MiB; the line that leaves it stays on the die while an L1 or a region holds it. -/
def State.cacheIn (s : State) (d line : Nat) (cp : BitVec 3) : State :=
  if cp = 4 then s
  else
    let r := cachePut 262144 cp line (s.dieAt d).cache
    let s1 := s.modDie d fun x => { x with cache := r.1 }
    match r.2 with
    | some v => s1.settleDie d v
    | none => s1

/-- A line entered in a core's L1 of 256 KiB, and in what lies below it. -/
def State.lineIn (s : State) (core line : Nat) (cp : BitVec 3) : State :=
  let d := dieOf core
  let s1 := s.cacheIn d line cp
  if 3 ≤ cp.toNat then s1
  else
    let r := cachePut 1024 cp line (s1.coreAt core).l1
    let s2 := (s1.modCore core fun c => { c with l1 := r.1 }).snoopIn d line
    match r.2 with
    | some v => s2.settleDie d v
    | none => s2

/-! ### Requests of a die (03 R69, R75) -/

/-- The message of a kind of request. -/
def requestOf (kind die line : Nat) : Instr :=
  match kind with
  | 0 => .rds die line
  | 1 => .rdx die line
  | _ => .upg die line

/-- A C-die of the package needs a line to read (kind 0) or to own: nothing is sent where it has what it needs, and a line in E becomes M
without a message (R75); while one request for the line is outstanding the next one waits (R69). -/
def State.ask (s : State) (d kind line : Nat) : State :=
  let n := s.dieNo d
  let e := s.dirAt line
  let has := e.sharers.getLsbD n
  if has && kind = 0 then s
  else if has && (e.st == .m || e.st == .e) && e.owner == n then s.setDir line { e with st := .m }
  else
    let k := if has then 2 else kind
    if (s.dieAt d).asked.contains line then
      if k = 0 then s else s.modDie d fun x => { x with wants := if x.wants.contains (line, 1) then x.wants else x.wants ++ [(line, 1)] }
    else (s.modDie d fun x => { x with asked := x.asked ++ [line] }).soon .none (requestOf k n line)

/-- A die's request has been answered; what waited for that is asked now. -/
def State.answered (s : State) (die line : Nat) : State :=
  if die / 4 ≠ s.self then s
  else
    let d := die % 4
    let more := (s.dieAt d).wants.any fun w => w.1 == line
    let s1 := s.modDie d fun x => { x with asked := x.asked.filter fun l => l != line, wants := x.wants.filter fun w => w.1 != line }
    if more then s1.ask d 1 line else s1

/-! ### The store merge unit (07 R218, R220) -/

/-- The bytes of a merge step by pool address; where two overlap the later one stands last. -/
def MergeStep.cells (m : MergeStep) : List (Nat × Byte) := m.parts.flatMap fun p => p.bytes.map fun b => (256 * m.line + b.1, b.2)

/-- A part entered where its rank puts it: the later part stands later (R220). -/
def insertPart (p : MergePart) : List MergePart → List MergePart
  | [] => [p]
  | x :: xs => if pairLt p.rank x.rank then p :: x :: xs else x :: insertPart p xs

/-- The byte that a core's merge unit holds for an address: the newest. -/
def State.mergeByte (s : State) (core a : Nat) : Option Byte :=
  (((s.coreAt core).merge.filter fun m => m.line == a / 256).flatMap (·.cells)).reverse.findSome? fun c =>
    if c.1 = a then some c.2 else none

/-- The byte at a pool address as the gangs of a core see it (R218). -/
def State.coreByte (s : State) (core a : Nat) : Byte := (s.mergeByte core a).getD (s.poolByte a)

/-- A quarter without a line request. -/
def Quarter.dropReq (q : Quarter) (n : Nat) : Quarter :=
  { q with entries := q.entries.filter fun m => m != n, reserved := if q.reserved = some n then none else q.reserved,
           aged := q.aged.filter fun p => p.2 != n }

/-- A merge step written to its line at one instant, and visible to every agent: its request's entry is free, the stores that it completes
leave the in-flight counters (R218, 14 R406). A line of a lost home is not written (02 R64). -/
def State.drainStep (s : State) (core : Nat) (m : MergeStep) : State :=
  let c := m.cells
  let lost := match s.pageFail none (m.line / 512) with | some _ => true | none => false
  let s1 := if lost then s else (s.writeCells c).clearLost (c.map (·.1))
  let s2 := s1.modCore core fun x => { x with merge := x.merge.filter fun y => y.num != m.num, quarters := x.quarters.map fun q => q.dropReq m.num }
  let open_ := ((s2.coreAt core).merge).flatMap (·.flights)
  let s3 := (m.flights.filter fun f => !open_.contains f).foldl (fun s f => s.modGang f.1 fun g => { g with flST := finishFlight f.2 g.flST }) s2
  if lost then s3 else (s3.lineIn core m.line m.cp).ask (dieOf core) 1 m.line

/-- The merge steps of a core for lines that a test names, written in order. -/
def State.flushWhere (s : State) (core : Nat) (p : Nat → Bool) : State :=
  ((s.coreAt core).merge.filter fun m => p m.line).foldl (fun s m => s.drainStep core m) s

/-- Every merge step of a core written: what a release at a scope beyond the core, an engine or a retiring team needs (R210, R213, R222). -/
def State.flushCore (s : State) (core : Nat) : State := s.flushWhere core fun _ => true

/-- The merge steps of a core for some lines written. -/
def State.flushLines (s : State) (core : Nat) (lines : List Nat) : State := s.flushWhere core fun l => lines.contains l

/-- The core that holds a merge step. -/
def State.mergeCore (s : State) (num : Nat) : Option (Nat × MergeStep) :=
  s.cores.findSome? fun c => (c.2.merge.find? fun m => m.num == num).map fun m => (c.1, m)

/-- A merge step's line request (06 R182): one that hits an owned line in L1 is written in the next cycle; one that misses, or bypasses L1,
takes an ordinary miss-status entry, or is rejected and replayed 8 cycles later. -/
def State.requestStep (s : State) (core q : Nat) (m : MergeStep) : State :=
  let e := s.dirAt m.line
  let n := s.dieNo (dieOf core)
  let add := fun (s : State) (m : MergeStep) => s.modCore core fun c => { c with merge := c.merge ++ [m] }
  if m.cp.toNat < 3 && holdsLine (s.coreAt core).l1 m.line && (e.st == .m || e.st == .e) && e.owner == n then
    (add s m).laterOn core 1 (.on core) (.memoryReply m.num .data)
  else if ((s.coreAt core).quarterAt q).entries.length < 64 then
    let s1 := (add s m).modCore core fun c => c.modQuarter q fun x => { x with entries := x.entries ++ [m.num] }
    (s1.ask (dieOf core) 1 m.line).offCore (.on core) (.memoryReply m.num .data)
  else (add s { m with held := false }).laterOn core 8 (.on core) (.missReplay m.num)

/-- A `red` that has performed waits for the reply of its line request (06 R182): a step with no bytes. -/
def State.awaitLine (s : State) (core q gang line flight : Nat) : State :=
  let r := s.fresh
  r.2.requestStep core q { num := r.1, line := line, cycle := (s.coreAt core).cyc, quarter := q, flights := [(gang, flight)], cp := 3 }

/-- A store's bytes of one line entered in the merge unit (R220): into the step of this cycle for the line, or as a new step. -/
def State.enterMerge (s : State) (core q line : Nat) (cp : BitVec 3) (p : MergePart) (flight : Nat) : State :=
  let now := (s.coreAt core).cyc
  let same := fun (m : MergeStep) => m.line == line && m.cycle == now && !m.parts.isEmpty
  let f := (p.gang, flight)
  if (s.coreAt core).merge.any same then
    let join := fun (m : MergeStep) =>
      if same m then { m with parts := insertPart p m.parts, flights := if m.flights.contains f then m.flights else m.flights ++ [f] } else m
    s.modCore core fun c => { c with merge := c.merge.map join }
  else
    let r := s.fresh
    r.2.requestStep core q { num := r.1, line := line, cycle := now, quarter := q, parts := [p], flights := [f], cp := cp }

end Sys2Proof.Machine
end

