-- ==== Sys2Proof/Machine/Class.lean ====
section
/-! DEFINITION. Classes of instructions that the block rules name: which perform at issue (spec/08 R242), which fixed order
gates (spec/07 R227), exits, memory instructions and their LSIDs, privileged opcodes (spec/11 R321). -/

namespace Sys2Proof

/-- Does the instruction perform at issue, with its outcome held (R242)? -/
def Instr.atIssue : Instr → Bool
  | .atom _ _ | .cas _ _ | .chunk _ | .qsend _ | .qtake _ | .halloc _ _
  | .semAcq _ _ _ | .semRel _ _ _ | .semTry _ _ _ | .barInit _ _ | .barArr _ _ | .barWait _ _ | .barAw _ _
  | .barDrop _ _ | .barTx _ _ | .barGen _ _ => true
  | _ => false

/-- Instructions that fixed order gates whatever their operands (R227). -/
def Instr.gated : Instr → Bool
  | .semAcq _ _ _ | .semRel _ _ _ | .semTry _ _ _ | .barInit _ _ | .barArr _ _ | .barWait _ _ | .barAw _ _
  | .barDrop _ _ | .barTx _ _ | .barGen _ _ | .dsync _ | .qsend _ | .qtake _ | .chunk _ | .spawn _ _ => true
  | _ => false

/-- Exit instructions (R272). -/
def Instr.isExit : Instr → Bool
  | .br _ _ | .bl _ _ | .jr _ | .regang _ _ | .exit _ => true
  | _ => false

/-- The LSID of a memory instruction (R272, R282). -/
def Instr.lsid : Instr → Option Nat
  | .ld _ m | .ldp _ m | .st _ m | .atom _ m | .cas _ m | .red _ m | .pref _ m => some m.lsid.toNat
  | .fence _ l | .smap _ l | .sunmap _ l | .swb _ l | .sinv _ l | .halloc _ l | .hfree _ l => some l.toNat
  | _ => none

/-- The address space of an access instruction (R318). -/
def Instr.space : Instr → Option Space
  | .ld _ m | .ldp _ m | .st _ m | .atom _ m | .cas _ m | .red _ m | .pref _ m => some m.as
  | _ => none

/-- The commit set: every `st` and `red` (R282). -/
def Instr.inCommitSet : Instr → Bool
  | .st _ _ | .red _ _ => true
  | _ => false

/-- Privileged opcodes (R321). -/
def Instr.privileged : Instr → Bool
  | .pmap _ | .punmap _ | .tlbinv _ | .halt _ | .tret _ => true
  | _ => false

/-- The decode-time PRIV subcode of an instruction in a user block (R321, R458). -/
def Instr.privSub (i : Instr) : Option Nat :=
  if i.privileged then some 1
  else match i.space with
    | some .ctx | some .pool => some 2
    | _ =>
      match i with
      | .sysrd _ r => if r.privRead then some 3 else none
      | .syswr _ r => if r.privWrite then some 3 else none
      | _ => none

/-- Group 11 of the opcode map (R308). -/
def Instr.group11 (i : Instr) : Bool :=
  match i.op with
  | some o => decide (0xC0 ≤ o.toNat)
  | none => false

/-- Instructions of a secondary instance that wait for every earlier instance (R166). -/
def Instr.waitsPrimary (i : Instr) : Bool :=
  i.group11 || (match i with
    | .spawn _ _ | .enq _ | .chunk _ | .qsend _ | .qtake _ | .rquota _ => true
    | _ => false)

/-- The registers an instruction reads at issue: `rd`, and the A fragment of the tile array (R431). -/
def Instr.readsRegs : Instr → List Reg
  | .rd _ r => [r]
  | .tmma f a | .tdist f a =>
    (List.range (if f.ty.isMx then 17 else 16)).map fun k => .v (a.vb + BitVec.ofNat 7 k)
  | _ => []

/-- The register that a `wr` names. -/
def Instr.writesReg : Instr → Option Reg
  | .wr _ r => some r
  | _ => none

/-- The z tiles that a tile instruction reads or writes at issue (R167). -/
def Instr.tilesUsed : Instr → List Nat
  | .tmma _ a | .tdist _ a => [a.z.toNat]
  | .ttopk _ zs zd _ _ => [zs.toNat, zd.toNat]
  | .trmax _ z | .trsum _ z | .trscl _ z => [z.toNat]
  | _ => []

/-- The z tiles that an instruction reads or writes, at issue or through the tile queue (R167, spec/15 R440). -/
def Instr.tilesNamed : Instr → List Nat
  | .tld _ z | .tst _ z | .tclr _ z | .tcvt _ z _ _ => [z.toNat]
  | i => i.tilesUsed

/-- The z tile that a synchronous tile instruction writes. -/
def Instr.tileWritten : Instr → Option Nat
  | .tmma _ a | .tdist _ a => some a.z.toNat
  | .ttopk _ _ zd _ _ => some zd.toNat
  | .trscl _ z => some z.toNat
  | _ => none

/-- The accumulator that an instruction names, and whether it changes it (R392). -/
def Instr.accum : Instr → Option (Nat × Bool)
  | .xclr _ j | .xacc _ j | .xadd _ j => some (j.toNat, true)
  | .xrnd _ j | .xsgn _ j => some (j.toNat, false)
  | _ => none

/-- Copy instructions (R445). -/
def Instr.isCopy : Instr → Bool
  | .cpy _ _ | .cpyg _ _ | .cpyx _ _ | .cfill _ _ => true
  | _ => false

/-- Badger instructions (R453). -/
def Instr.isBadger : Instr → Bool
  | .pfill _ | .pcopy _ | .pcmp _ | .predx _ _ _ | .pgath _ _ _ => true
  | _ => false

/-- Tile-queue instructions (R440). -/
def Instr.isTileQueue : Instr → Bool
  | .tld _ _ | .tst _ _ | .tclr _ _ | .tcvt _ _ _ _ => true
  | _ => false

/-- Instructions whose acquire holds back every group-11 instruction of higher index (R405; `qtake` by spec/07 R211). -/
def Instr.acquires : Instr → Bool
  | .wait _ _ _ _ _ | .waitr _ _ | .tlwait _ | .semAcq _ _ _ | .semTry _ _ _ | .barWait _ _ | .barAw _ _ | .dsync _ | .qtake _ => true
  | _ => false

/-- Instructions whose release waits for the earlier accesses of their block (R405; `qsend` by spec/07 R211). -/
def Instr.releases : Instr → Bool
  | .semRel _ _ _ | .barArr _ _ | .barDrop _ _ | .barAw _ _ | .dsync _ | .qsend _ => true
  | _ => false

/-- `ld` and `ldp`. -/
def Instr.isLoad : Instr → Bool
  | .ld _ _ | .ldp _ _ => true
  | _ => false

/-- `atom`, `cas` and `halloc`: they perform at issue and carry an LSID. -/
def Instr.isLsidOp : Instr → Bool
  | .atom _ _ | .cas _ _ | .halloc _ _ => true
  | _ => false

/-- Acquire accesses and fences: higher LSIDs wait for them. -/
def Instr.acquiresLsid : Instr → Bool
  | .ld f _ | .ldp f _ => f.rm == 1
  | .atom f _ | .cas f _ => f.rm == 1 || f.rm == 3 || f.rm == 4
  | .fence _ _ => true
  | _ => false

/-- Release accesses and fences at a scope beyond the gang (spec/07 R210): `rel`, `ar` and `seq`. -/
def Instr.releasesLsid : Instr → Bool
  | .st f _ | .red f _ | .atom f _ | .cas f _ | .fence f _ => (f.rm == 2 || f.rm == 3 || f.rm == 4) && f.sc != 0
  | _ => false

/-- `seq` operations at a scope beyond the gang (spec/07 R215). -/
def Instr.isSeq : Instr → Bool
  | .atom f _ | .cas f _ | .fence f _ => f.rm == 4 && f.sc != 0
  | _ => false

/-- The scope code of an instruction that carries one (spec/02 R55). -/
def Instr.scope (i : Instr) : Nat := ((i.form).map fun f => f.sc.toNat).getD 0

/-- The kind of a copy instruction and P (R445). -/
def Instr.copyKind : Instr → Option (BitVec 2 × Nat)
  | .cpy _ p => some (0, p.toNat + 1)
  | .cpyg _ p => some (1, p.toNat + 1)
  | .cpyx _ p => some (2, p.toNat + 1)
  | .cfill _ p => some (3, p.toNat + 1)
  | _ => none

end Sys2Proof
end

