-- ==== Sys2Proof/Machine/Operands.lean ====
section
/-! DEFINITION. Operands of an instruction in a block: tokens, predicates and null (spec/10_blocks_assembly.md R274 to
R281), and the reading of integer operands (spec/12_isa_control_integer.md R325). -/

namespace Sys2Proof.Machine

/-! ### Tokens at the slots -/

/-- The operands of an instruction: active lanes, lanes whose predicate holds and is not null, slots a, b and c. -/
structure Opnd where
  act : Mask := 0
  pred : Mask := 0
  a : Tok := {}
  b : Tok := {}
  c : Tok := {}
  deriving DecidableEq, Repr

/-- The token that a literal stands for in slot b (R277, R319): in every lane, its null bits clear. -/
def litTok (x : W64) : Tok := { cls := .uni, vals := splat x, nulls := 0, ready := some 0 }

/-- What an unused slot reads as: zero, not null. -/
def noTok : Tok := { vals := splat 0 }

/-- The lanes in which a token in slot p is true (R277). -/
def Tok.truth (t : Tok) : Mask :=
  match t.cls with
  | .mask => (lane t.vals 0).setWidth 32
  | _ => maskOf fun l => lane t.vals l != 0

/-- The lanes in which an instruction fires by its predicate (R279, R280). -/
def predLanes (pr : Pred) (p : Tok) : Mask :=
  match pr with
  | .always => allLanes
  | .ifTrue => p.truth &&& ~~~p.nulls
  | .ifFalse => ~~~p.truth &&& ~~~p.nulls

/-- The operands of the instruction at an index. -/
def Blk.opnd (b : Blk) (idx : Nat) (f : Form) : Opnd :=
  { act := b.active,
    pred := predLanes f.pr ((b.tok idx .p).getD noTok),
    a := (b.tok idx .a).getD noTok,
    b := match f.lit with
         | some x => litTok x
         | none => (b.tok idx .b).getD noTok,
    c := (b.tok idx .c).getD noTok }

/-- The lanes in which a result is null by R280: no predicate, or a null operand. -/
def Opnd.nulls (o : Opnd) : Mask := ~~~o.pred ||| o.a.nulls ||| o.b.nulls ||| o.c.nulls

/-- The lanes in which the instruction acts: active and not null. -/
def Opnd.live (o : Opnd) : Mask := o.act &&& ~~~o.nulls

/-- The instruction's predicate holds in some active lane and no uniform slot is null: an instruction that acts once for
the gang acts (R280, R428). -/
def Opnd.acts (o : Opnd) : Bool := o.live != 0

/-- A mask token's 32 bits. -/
def Tok.mask (t : Tok) : Mask := (lane t.vals 0).setWidth 32
/-- A uniform token's value. -/
def Tok.uval (t : Tok) : W64 := lane t.vals 0

/-- A result token. -/
def tokOf (cls : TokClass) (vals : Lanes) (nulls : Mask) : Tok := { cls := cls, vals := vals, nulls := nulls }

/-- A result token of the class that VC gives: per-lane values, or one value, or the mask of the lanes that are active
and not null and whose value is odd (R327). -/
def Opnd.result (o : Opnd) (vc : TokClass) (nulls : Mask) (v : Nat → W64) : Tok :=
  match vc with
  | .lane => tokOf .lane (lanes v) nulls
  | .uni => tokOf .uni (splat (v 0)) nulls
  | .mask => tokOf .mask (splat ((maskOf fun l => (o.act &&& ~~~nulls).getLsbD l && (v l).getLsbD 0).setWidth 64)) nulls

/-! ### Integer operands (R325) -/

/-- The low w bits of x read by the type: signed for i types, unsigned for n and b types. -/
def ext (t : Ty) (x : W64) : Int :=
  let m := x.toNat % 2 ^ t.width
  if t.isI && decide (2 ^ (t.width - 1) ≤ m) then (m : Int) - 2 ^ t.width else m

/-- The w-bit pattern of an integer. -/
def pat (t : Ty) (v : Int) : Nat := (v % (2 ^ t.width : Int)).toNat

/-- Lo(T). -/
def lo (t : Ty) : Int := if t.isI then -(2 ^ (t.width - 1) : Int) else 0
/-- Hi(T). -/
def hi (t : Ty) : Int := if t.isI then (2 ^ (t.width - 1) : Int) - 1 else (2 ^ t.width : Int) - 1

/-- Fit(v, T): clamped under RM 101, else wrapped and read by Ext. -/
def fit (rm : BitVec 3) (t : Ty) (v : Int) : Int :=
  if rm = 5 then max (lo t) (min (hi t) v) else ext t (BitVec.ofNat 64 (pat t v))

/-- Out(v, T): 64 bits, sign-extended for i types, zero-extended for n and b types. -/
def outI (v : Int) : W64 := BitVec.ofInt 64 v

/-! ### Firing -/

/-- The fields of an instruction's environment that a value rule may read: rounding mode in force, SIXB, SEED, index. -/
structure Env where
  rmode : BitVec 3
  sixb : W32
  seed : W64
  idx : Nat
  deriving DecidableEq, Repr

/-- The environment of the issuing instruction: RMODE and SIXB after the last committed block (R370). -/
def State.env (s : State) : Env :=
  { rmode := s.g.fst.extractLsb' 8 3, sixb := s.g.fst.extractLsb' 32 32, seed := s.launchOf.seed, idx := s.idx }

/-- A compute instruction: its token is formed from its operands, is ready after the latency, and its flags are
collected in the instance (R278, R370). Nothing but the instance changes. -/
def compute (f : Form) (l : Nat × Nat) (res : Env → Opnd → Tok × BitVec 5) (s : State) : Out :=
  match s.blk? with
  | none => .next s
  | some b =>
    let r := res s.env (b.opnd s.idx f)
    let t := { r.1 with ready := some (s.clock + s.lat l) }
    .next (s.setBlk ({ b with flags := b.flags ||| r.2, progress := s.clock }.deliver s.idx f t))

/-- A compute instruction with a result pair (R383). -/
def computePair (f : Form) (l : Nat × Nat) (res : Env → Opnd → (Tok × Tok) × BitVec 5) (s : State) : Out :=
  match s.blk? with
  | none => .next s
  | some b =>
    let r := res s.env (b.opnd s.idx f)
    let at_ := some (s.clock + s.lat l)
    .next (s.setBlk ({ b with flags := b.flags ||| r.2, progress := s.clock }.deliverPair s.idx f
      { r.1.1 with ready := at_ } { r.1.2 with ready := at_ }))

/-- Latencies of R202. -/
def latInt : Nat × Nat := (2, 3)
/-- Integer multiply forms. -/
def latMul : Nat × Nat := (4, 5)
/-- `div`, `rem`. -/
def latDiv : Nat × Nat := (20, 21)
/-- Floating-point add, multiply, compare and convert; packed operations. -/
def latFp : Nat × Nat := (4, 5)
/-- `shfl`, `vote`. -/
def latShfl : Nat × Nat := (4, 6)
/-- `redux`, `scan`. -/
def latRed : Nat × Nat := (10, 12)

/-- A lane-wise integer instruction: in each lane the exact value of the operands read by Ext, fitted (R325). -/
def intOp (f : Form) (l : Nat × Nat) (v : Int → Int → Int → Int) (s : State) : Out :=
  compute f l (fun _ o => (o.result f.vc o.nulls fun i =>
    outI (fit f.rm f.ty (v (ext f.ty (lane o.a.vals i)) (ext f.ty (lane o.b.vals i)) (ext f.ty (lane o.c.vals i)))), 0)) s

/-- A lane-wise instruction on the w-bit patterns of its operands; the pattern is read back by Ext and extended by
Out (R355 to R357). The third argument is the whole of slot b. -/
def patOp (f : Form) (l : Nat × Nat) (v : Nat → Nat → Nat → Nat) (s : State) : Out :=
  compute f l (fun _ o => (o.result f.vc o.nulls fun i =>
    outI (ext f.ty (w64 (v (pat f.ty (ext f.ty (lane o.a.vals i))) (lane o.b.vals i).toNat
      (pat f.ty (ext f.ty (lane o.c.vals i))))))
    , 0)) s

/-! ### Cross-lane reading (R326) -/

/-- The lanes that contribute: active, predicate holding, slot a not null. -/
def Opnd.contributes (o : Opnd) : Mask := o.act &&& o.pred &&& ~~~o.a.nulls

end Sys2Proof.Machine
end

