-- ==== Sys2Proof/Machine/IntOps.lean ====
section
/-! DEFINITION. Group 01: integer, lane and mask instructions (spec/12_isa_control_integer.md R346 to R359), but for the
cross-lane reductions, which need floating point (FpOps). -/

namespace Sys2Proof.Machine

/-! ### Integer arithmetic (R352, R353) -/

/-- Truncating division with the cases of R353. -/
def divT (t : Ty) (a b : Int) : Int :=
  if b = 0 then 0 else if t.isI && a == lo t && b == -1 then lo t else a.tdiv b
/-- Remainder with the cases of R353. -/
def remT (t : Ty) (a b : Int) : Int :=
  if b = 0 then a else if t.isI && a == lo t && b == -1 then 0 else a - b * a.tdiv b

/-- `add` (R352). -/
def execAdd (f : Form) (s : State) : Out := intOp f latInt (fun a b _ => a + b) s
/-- `sub` (R352). -/
def execSub (f : Form) (s : State) : Out := intOp f latInt (fun a b _ => a - b) s
/-- `mul` (R352). -/
def execMul (f : Form) (s : State) : Out := intOp f latMul (fun a b _ => a * b) s
/-- `mulhi` (R352): floor(A × B / 2^w). -/
def execMulhi (f : Form) (s : State) : Out := intOp f latMul (fun a b _ => a * b / (2 ^ f.ty.width : Int)) s
/-- `mad` (R352). -/
def execMad (f : Form) (s : State) : Out := intOp f latMul (fun a b c => a * b + c) s
/-- `div` (R353). -/
def execDiv (f : Form) (s : State) : Out := intOp f latDiv (fun a b _ => divT f.ty a b) s
/-- `rem` (R353). -/
def execRem (f : Form) (s : State) : Out := intOp f latDiv (fun a b _ => remT f.ty a b) s
/-- `min` (R352). -/
def execMin (f : Form) (s : State) : Out := intOp f latInt (fun a b _ => min a b) s
/-- `max` (R352). -/
def execMax (f : Form) (s : State) : Out := intOp f latInt (fun a b _ => max a b) s
/-- `abs` (R352). -/
def execAbs (f : Form) (s : State) : Out := intOp f latInt (fun a _ _ => (a.natAbs : Int)) s
/-- `neg` (R352). -/
def execNeg (f : Form) (s : State) : Out := intOp f latInt (fun a _ _ => -a) s

/-- Carry out of `adc`, borrow out of `sbc`, on unsigned patterns (R354). -/
def carryOut (sub : Bool) (t : Ty) (a b : Int) (k : Nat) : Bool :=
  if sub then decide (pat t a < pat t b + k) else decide (2 ^ t.width ≤ pat t a + pat t b + k)

/-- `adc` and `sbc` (R354): the sum for VC 00, the carry for VC 10. -/
def carryOp (sub : Bool) (f : Form) (s : State) : Out :=
  compute f latInt (fun _ o =>
    let k := fun (i : Nat) => if o.c.mask.getLsbD i then 1 else 0
    let a := fun (i : Nat) => ext f.ty (lane o.a.vals i)
    let b := fun (i : Nat) => ext f.ty (lane o.b.vals i)
    (o.result f.vc o.nulls fun i =>
      if f.vc = .mask then (if carryOut sub f.ty (a i) (b i) (k i) then 1 else 0)
      else outI (fit 0 f.ty (if sub then a i - b i - (k i : Nat) else a i + b i + (k i : Nat))), 0)) s

/-- `adc` (R354). -/
def execAdc (f : Form) (s : State) : Out := carryOp false f s
/-- `sbc` (R354). -/
def execSbc (f : Form) (s : State) : Out := carryOp true f s

/-- `adr` (R358): a + Ext(b, T) × 2^(c mod 64), all 64 bits. -/
def execAdr (f : Form) (s : State) : Out :=
  compute f latInt (fun _ o => (o.result f.vc o.nulls fun i =>
    BitVec.ofInt 64 ((lane o.a.vals i).toNat + ext f.ty (lane o.b.vals i) * 2 ^ ((lane o.c.vals i).toNat % 64)), 0)) s

/-- `cvt` (R359). -/
def execCvt (f : Form) (src : Ty) (s : State) : Out :=
  compute f latInt (fun _ o => (o.result f.vc o.nulls fun i =>
    outI (fit f.rm f.ty (ext src (lane o.a.vals i))), 0)) s

/-! ### Logic, shifts and bit fields (R352, R355 to R357) -/

/-- A two-operand bitwise instruction on the w-bit patterns. -/
def bitOp (f : Form) (v : Nat → Nat → Nat) (s : State) : Out :=
  patOp f latInt (fun a b _ => v a (b % 2 ^ f.ty.width)) s

/-- `and`. -/
def execAnd (f : Form) (s : State) : Out := bitOp f (fun a b => a &&& b) s
/-- `or`. -/
def execOr (f : Form) (s : State) : Out := bitOp f (fun a b => a ||| b) s
/-- `xor`. -/
def execXor (f : Form) (s : State) : Out := bitOp f (fun a b => a ^^^ b) s
/-- `not`. -/
def execNot (f : Form) (s : State) : Out := patOp f latInt (fun a _ _ => 2 ^ f.ty.width - 1 - a) s
/-- `shl` (R355): s := b mod w. -/
def execShl (f : Form) (s : State) : Out := patOp f latInt (fun a b _ => a * 2 ^ (b % f.ty.width)) s
/-- `shr` (R355). -/
def execShr (f : Form) (s : State) : Out := patOp f latInt (fun a b _ => a / 2 ^ (b % f.ty.width)) s

/-- A w-bit pattern read as signed. -/
def signed (w a : Nat) : Int := if 2 ^ (w - 1) ≤ a then (a : Int) - 2 ^ w else a

/-- `sra` (R355): the pattern is read as signed for every type. -/
def execSra (f : Form) (s : State) : Out :=
  patOp f latInt (fun a b _ => ((signed f.ty.width a / (2 ^ (b % f.ty.width) : Int)) % (2 ^ f.ty.width : Int)).toNat) s
/-- `rot` (R355): left by s. -/
def execRot (f : Form) (s : State) : Out :=
  patOp f latInt (fun a b _ =>
    let w := f.ty.width
    let n := b % w
    (a * 2 ^ n) % 2 ^ w + a / 2 ^ (w - n)) s

/-- The field that slot b describes: position and length after Min(len, w − pos) (R356); none when empty. -/
def fieldAt (w b : Nat) : Option (Nat × Nat) :=
  let pos := b % 256
  let len := min (b / 256 % 256) (w - pos)
  if w ≤ pos ∨ len = 0 then none else some (pos, len)

/-- `bfx` on patterns (R356). -/
def bfxP (t : Ty) (a b : Nat) : Nat :=
  match fieldAt t.width b with
  | none => 0
  | some (pos, len) =>
    let x := a / 2 ^ pos % 2 ^ len
    if t.isI && x.testBit (len - 1) then x + (2 ^ t.width - 2 ^ len) else x
/-- `bfi` on patterns (R356). -/
def bfiP (t : Ty) (a b c : Nat) : Nat :=
  match fieldAt t.width b with
  | none => a
  | some (pos, len) => a - (a / 2 ^ pos % 2 ^ len) * 2 ^ pos + (c % 2 ^ len) * 2 ^ pos

/-- `bfx` (R356). -/
def execBfx (f : Form) (s : State) : Out := patOp f latInt (fun a b _ => bfxP f.ty a b) s
/-- `bfi` (R356). -/
def execBfi (f : Form) (s : State) : Out := patOp f latInt (fun a b c => bfiP f.ty a b c) s

/-- The number of set bits below a width. -/
def popcount (w a : Nat) : Nat := ((List.range w).filter fun i => a.testBit i).length
/-- Bit i moved to bit w − 1 − i. -/
def reverseBits (w a : Nat) : Nat := (List.range w).foldl (fun r i => if a.testBit i then r + 2 ^ (w - 1 - i) else r) 0
/-- The lowest set bit below a width, or the width. -/
def lowBit (w a : Nat) : Nat := ((List.range w).find? fun i => a.testBit i).getD w

/-- `popc` (R357). -/
def execPopc (f : Form) (s : State) : Out := patOp f latInt (fun a _ _ => popcount f.ty.width a) s
/-- `clz` (R357). -/
def execClz (f : Form) (s : State) : Out := patOp f latInt (fun a _ _ => f.ty.width - bitLen a) s
/-- `ctz` (R357). -/
def execCtz (f : Form) (s : State) : Out := patOp f latInt (fun a _ _ => lowBit f.ty.width a) s
/-- `brev` (R357). -/
def execBrev (f : Form) (s : State) : Out := patOp f latInt (fun a _ _ => reverseBits f.ty.width a) s

/-! ### Comparison, votes and shuffles (R347, R348) -/

/-- The relation of `cmp` (R347). -/
def relHolds (r : CmpRel) (a b : Int) : Bool :=
  match r with
  | .eq => decide (a = b) | .ne => decide (a ≠ b) | .lt => decide (a < b)
  | .le => decide (a ≤ b) | .gt => decide (b < a) | .ge => decide (b ≤ a)

/-- `cmp` (R347). -/
def execCmp (f : Form) (r : CmpRel) (s : State) : Out :=
  compute f latInt (fun _ o => (o.result f.vc o.nulls fun i =>
    if relHolds r (ext f.ty (lane o.a.vals i)) (ext f.ty (lane o.b.vals i)) then 1 else 0, 0)) s

/-- The nulls of a uniform or broadcast cross-lane result: each lane's own predicate, and every lane when no lane
contributes (R326). -/
def Opnd.crossNulls (o : Opnd) : Mask := ~~~o.pred ||| maskIf (o.contributes == 0)

/-- `vote` (R347). The ballot's bits are the contributing lanes with a ≠ 0; its null bits follow R327. -/
def execVote (f : Form) (k : VoteKind) (s : State) : Out :=
  compute f latShfl (fun _ o =>
    let ls := lanesOf o.contributes
    let one := fun (c : Bool) => if c then (1 : W64) else 0
    match k with
    | .ballot => (tokOf .mask (splat ((maskOf fun l => o.contributes.getLsbD l && lane o.a.vals l != 0).setWidth 64))
        (~~~o.pred ||| o.a.nulls), 0)
    | .all => (o.result f.vc o.crossNulls fun _ => one (ls.all fun l => lane o.a.vals l != 0), 0)
    | .any => (o.result f.vc o.crossNulls fun _ => one (ls.any fun l => lane o.a.vals l != 0), 0)
    | .eq => (o.result f.vc o.crossNulls fun _ =>
        one (ls.all fun l => lane o.a.vals l == lane o.a.vals (ls.headD 0)), 0)) s

/-- The source lane of `shfl` (R348); none when it is outside 0 to 31. -/
def shflSource (k : ShflKind) (l b : Nat) : Option Nat :=
  match k with
  | .idx => if b ≤ 31 then some b else none
  | .up => if b ≤ l then some (l - b) else none
  | .down => if l + b ≤ 31 then some (l + b) else none
  | .xor => some (l ^^^ (b % 32))

/-- Does lane l of `shfl` take a contributing lane's value, and which? -/
def Opnd.shflFrom (o : Opnd) (k : ShflKind) (l : Nat) : Option Nat :=
  (shflSource k l (lane o.b.vals l).toNat).filter fun n => o.contributes.getLsbD n

/-- `shfl` (R348): null where b is null, or where c is chosen and null, or by the lane's own predicate. -/
def execShfl (f : Form) (k : ShflKind) (s : State) : Out :=
  compute f latShfl (fun _ o =>
    let nul := ~~~o.pred ||| o.b.nulls ||| maskOf (fun l => (o.shflFrom k l).isNone && o.c.nulls.getLsbD l)
    (o.result .lane nul fun l =>
      match o.shflFrom k l with
      | some n => lane o.a.vals n
      | none => lane o.c.vals l, 0)) s

/-! ### Masks (R351) -/

/-- A mask instruction: bitwise on all 32 bits; null bits by R327. -/
def maskOp (f : Form) (v : Mask → Mask → Mask) (s : State) : Out :=
  compute f latInt (fun _ o => (tokOf .mask (splat ((v o.a.mask o.b.mask).setWidth 64)) o.nulls, 0)) s

/-- `kand`. -/
def execKand (f : Form) (s : State) : Out := maskOp f (fun a b => a &&& b) s
/-- `kor`. -/
def execKor (f : Form) (s : State) : Out := maskOp f (fun a b => a ||| b) s
/-- `kxor`. -/
def execKxor (f : Form) (s : State) : Out := maskOp f (fun a b => a ^^^ b) s
/-- `knot`. -/
def execKnot (f : Form) (s : State) : Out := maskOp f (fun a _ => ~~~a) s

/-- A count of a mask: null by predicate, and everywhere when slot a is null in every active lane (R351). -/
def countOp (f : Form) (v : Nat → Nat) (s : State) : Out :=
  compute f latInt (fun _ o =>
    (o.result f.vc (~~~o.pred ||| maskIf (o.act &&& ~~~o.a.nulls == 0)) fun _ => w64 (v o.a.mask.toNat), 0)) s

/-- `kpop`. -/
def execKpop (f : Form) (s : State) : Out := countOp f (popcount 32) s
/-- `kfst`. -/
def execKfst (f : Form) (s : State) : Out := countOp f (lowBit 32) s

end Sys2Proof.Machine
end

