-- ==== Sys2Proof/Machine/RegCache.lean ====
section
/-! DEFINITION. The register cache of a quarter (spec/06_cores.md R177 to R181): which lines are present, owned and dirty.
Values are kept with the gang, so a line that is pushed out loses nothing. -/

namespace Sys2Proof.Machine

/-- Lines a quarter's cache holds (R162). -/
def cacheLines : Nat := 768

/-- Is the line in the cache? -/
def Quarter.holds (q : Quarter) (gang line : Nat) : Bool := q.cache.any fun r => r.gang == gang && r.line == line

/-- The first entry that satisfies a test changed by a function, none when there is none. -/
def changeFirst (p : RegLine → Bool) (f : RegLine → RegLine) : List RegLine → List RegLine
  | [] => []
  | r :: rs => if p r then f r :: rs else r :: changeFirst p f rs

/-- The first entry that satisfies a test dropped. -/
def dropFirst (p : RegLine → Bool) : List RegLine → List RegLine
  | [] => []
  | r :: rs => if p r then rs else r :: dropFirst p rs

/-- A line used by a gang: made most recently used, owned and, for a write, dirty. At its quota the gang first makes its
own least recently used line evictable; a full cache pushes out the least recently used evictable line (R178). -/
def Quarter.touch (q : Quarter) (gang line quota : Nat) (dirty : Bool) : Quarter :=
  let old := q.cache.find? fun r => r.gang == gang && r.line == line
  let rest := q.cache.filter fun r => !(r.gang == gang && r.line == line)
  let owned := (rest.filter fun r => r.gang == gang && r.owned).length
  let rest := if min quota 130 ≤ owned then changeFirst (fun r => r.gang == gang && r.owned) (fun r => { r with owned := false }) rest
              else rest
  let rest := if rest.length < cacheLines then rest else dropFirst (fun r => !r.owned) rest
  { q with cache := rest ++ [⟨gang, line, true, dirty || (old.map (·.dirty)).getD false⟩] }

/-- A gang's lines made evictable (R179). -/
def Quarter.release (q : Quarter) (gang : Nat) : Quarter :=
  { q with cache := q.cache.map fun r => if r.gang == gang then { r with owned := false } else r }

/-- Lines of a gang beyond a lower quota made evictable, least recently used first (R179). -/
def Quarter.lower (q : Quarter) (gang quota : Nat) : Quarter :=
  let n := (q.cache.filter fun r => r.gang == gang && r.owned).length - min quota 130
  { q with cache := n.repeat (changeFirst (fun r => r.gang == gang && r.owned) fun r => { r with owned := false }) q.cache }

/-- A gang's lines discarded (R179: at retirement dirty lines are not written back). -/
def Quarter.forget (q : Quarter) (gang : Nat) : Quarter := { q with cache := q.cache.filter fun r => !(r.gang == gang) }

/-- The image lines of a register at a privilege (R177, R247); k registers use none. -/
def regLines (sup : Bool) : Reg → List Nat
  | .v n => [lineOf (vKeyAt sup n.toNat 0)]
  | .s n => [lineOf (sKeyAt sup n.toNat)]
  | .k _ => []

/-- The focused gang's line used in its quarter. -/
def State.touchLine (s : State) (line : Nat) (dirty : Bool) : State :=
  s.modCore s.g.core fun c => c.modQuarter s.g.quarter fun q => q.touch s.gid line s.g.quota dirty

/-- Is a line ready without a fill: in the cache, or never written since the gang started (R178)? -/
def State.lineReady (s : State) (line : Nat) : Bool :=
  ((s.core.quarterAt s.g.quarter).holds s.gid line) || !s.g.written.contains line

end Sys2Proof.Machine
end

