-- ==== Sys2Proof/Machine/Trace.lean ====
section
/-! DEFINITION. Trace records (spec/09_debug.md R266, R267) and taking a fault of a gang (spec/08_translation_faults.md R243,
R246, R247, R253). -/

namespace Sys2Proof.Machine

/-- Package reference time in 10 ns ticks: eight core cycles at 800 MHz (notes/assumptions/5.md). -/
def State.refTime (s : State) : Nat := s.now / 8

/-- PLACE of a record (R62): package, C-die and core. -/
def State.placeField (s : State) (core : Nat) : Nat := s.self + dieOf core * 64 + core % 144 * 256

/-- The bytes of a trace record; its body starts at byte 16. -/
def recordBytes (type flags place tag time : Nat) (body : List Byte) : List Byte :=
  bytesOf 1 type ++ bytesOf 1 flags ++ bytesOf 2 place ++ bytesOf 4 tag ++ bytesOf 8 time ++ (body ++ List.replicate 48 0).take 48

/-- A 64-bit counter of a session's status area. -/
def State.areaWord (s : State) (ctx : Nat) (t : Trace) (k : Nat) : Nat :=
  match (s.readVirt ctx (t.area.toNat + 8 * k) 8 {}).1 with
  | .ok bs => natOf bs
  | .error _ => 0

/-- A counter of the status area written. -/
def State.setArea (s : State) (ctx : Nat) (t : Trace) (k x : Nat) : State :=
  (s.writeVirt ctx (t.area.toNat + 8 * k) (bytesOf 8 x) {}).2

/-- A record put into the ring when room allows (R266), or dropped and counted; `room` is the space it must leave. -/
def State.putRecord (s : State) (ctx : Nat) (t : Trace) (room : Nat) (bs : List Byte) : State :=
  let w := s.areaWord ctx t 0
  let c := s.areaWord ctx t 1
  if w - c + room ≤ t.size then
    (s.writeVirt ctx (t.ring.toNat + w % t.size) bs {}).2.setArea ctx t 0 (w + 64)
  else s.setArea ctx t 2 (s.areaWord ctx t 2 + 1)

/-- A record of a context's session, when one is open and enables its type (R263). -/
def State.traceRecord (s : State) (ctx bit type core : Nat) (tag : W32) (body : List Byte) : State :=
  match (s.ctxAt ctx).trace with
  | none => s
  | some t =>
    if t.closing.isSome || !(t.evmask.getLsbD bit) then s
    else s.putRecord ctx t 128 (recordBytes type 0 (s.placeField core) tag.toNat s.refTime body)

/-- A fault record (type 6) of the focused gang. -/
def State.traceFault (s : State) : State :=
  s.traceRecord s.ctxNo 4 6 s.g.core s.launchOf.tag
    (bytesOf 8 s.g.fcause.toNat ++ bytesOf 8 s.g.fpc.toNat ++ bytesOf 4 s.g.flm.toNat ++ bytesOf 1 s.g.index)

/-- The provenance record of an event: its 12 bytes, the last safe point, `LCK` before the block, the program (R269). -/
def provRecord (e : Nat) (sord : BitVec 24) (lck program : W64) : List W64 :=
  [w64 e, w64 (e / 2 ^ 64 % 2 ^ 32 + sord.toNat * 2 ^ 32), lck, program]

/-- An event stored in a gang's provenance record while that is zero (R269, R270). -/
def State.recordProv (s : State) (gang e : Nat) (sord : BitVec 24) (lck : W64) : State :=
  match s.gangAt gang with
  | none => s
  | some g =>
    if g.prov.any (· != 0) then s
    else
      let t := s.teamAt g.team
      let r := provRecord e sord lck t.program
      (s.modGang gang fun g => { g with prov := r }).traceRecord (s.launchAt t.launch).ctx 5 7 g.core (s.launchAt t.launch).tag
        (r.flatMap fun x => bytesOf 8 x.toNat)

/-- The requests that the focused gang has queued at its core's semaphores withdrawn (R419). -/
def State.withdraw (s : State) : State :=
  s.modCore s.g.core fun c => { c with sems := c.sems.map fun p => (p.1, { p.2 with queue := p.2.queue.filter fun r => r.1 != s.gid }) }

/-- Taking a fault of the focused gang (R243, R246, R247, R253): to the handler from a user block; from a handler block
the Owl stops the queue (the `CONTEXT_FAULT` step), and the gang stands where its user fault was taken. -/
def State.takeFault (s : State) (r : FaultRec) (addr : W64) (entry : Bool) : State :=
  let s := { s.withdraw with g := { s.g with excluded := false } }
  if s.g.sup then
    let tag := s.launchOf.tag
    let c := s.ctxNo
    ({ s with g := { s.g.dropHandler with hfcause := causeOf r, hfpc := addr } }).soon (.on c)
      (.contextFault tag (if entry then 2 else 1) r.code)
  else State.traceFault { s with g := s.g.enterHandler r addr }

end Sys2Proof.Machine
end

