-- ==== Sys2Proof/Machine/Flow.lean ====
section
/-! DEFINITION. Group 00: dataflow, exits and quota (spec/12_isa_control_integer.md R328 to R339), and what the later
families share: instructions that act at commit, execution faults, held outcomes and fixed-order gates. -/

namespace Sys2Proof.Machine

/-! ### Shared shapes -/

/-- An execution fault of the current instance (R243): taken at once for the primary; a secondary's waits until its
turn, and is dropped with it when an earlier instance faults. -/
def State.raise (s : State) (r : FaultRec) : State :=
  match s.blk? with
  | none => s
  | some b => if s.isec then s.setBlk (b.faulted r) else s.takeFault r b.addr false

/-- A fault record of the issuing instruction. -/
def State.execFault (s : State) (code sub lsid : Nat) (m : Mask) (va : Lanes) : FaultRec :=
  { code := code, sub := sub, idx := s.idx, lsid := lsid, lanes := m, va := va }

/-- What an instruction that acts at commit leaves behind (R242). -/
def Opnd.left (o : Opnd) (idx : Nat) (i : Instr) : Fired :=
  { idx := idx, ins := i, lanes := o.live, a := o.a.vals, b := o.b.vals, c := o.c.vals }

/-- An instruction without a token whose effect is applied at commit: it is done when it fires (R287). -/
def depart (f : Form) (i : Instr) (s : State) : Out :=
  match s.blk? with
  | none => .next s
  | some b => .next (s.setBlk (({ b with progress := s.clock }.leave ((b.opnd s.idx f).left s.idx i)).markDone s.idx))

/-- As `depart`, with a check of the operands at issue: a fault of some lanes, or none. -/
def departIf (f : Form) (i : Instr) (chk : Opnd → Option FaultRec) (s : State) : Out :=
  match s.blk? with
  | none => .next s
  | some b =>
    match chk (b.opnd s.idx f) with
    | some r => .next (s.raise r)
    | none => depart f i s

/-- The instruction fires and its result is under way: tokens come with a later step. -/
def State.issuedNow (s : State) : State :=
  match s.blk? with
  | none => s
  | some b => s.setBlk (b.markIssued s.idx s.clock)

/-- The lanes of a mask that satisfy a test. -/
def lanesWhere (m : Mask) (p : Nat → Bool) : Mask := maskOf fun l => m.getLsbD l && p l

/-- The position of an instruction among those of its block that perform at issue, in index order (R254); handler blocks
have positions 4 to 7. -/
def Blk.position (b : Blk) (sup : Bool) (idx : Nat) : Nat :=
  ((b.instrs.filter fun p => p.2.atIssue && decide (p.1 < idx)).length) + (if sup then 4 else 0)

/-- The outcome held for the issuing instruction (R150). -/
def State.heldHere (s : State) : Option Lanes :=
  match s.blk? with
  | none => none
  | some b => tfind s.g.held (b.position s.g.sup s.idx)

/-- The null lanes of the issuing instruction kept for its held outcome: a run again receives it whatever its operands then hold (R150). -/
def State.holdNulls (s : State) (m : Mask) : State :=
  match s.blk? with
  | none => s
  | some b => { s with g := { s.g with heldNulls := tset s.g.heldNulls (b.position s.g.sup s.idx) m } }

/-- The null lanes kept with the outcome held for the issuing instruction. -/
def State.nullsHere (s : State) : Mask :=
  match s.blk? with
  | none => 0
  | some b => tget s.g.heldNulls (b.position s.g.sup s.idx) 0

/-- The outcome of the issuing instruction entered, with its null lanes (R150). -/
def State.hold (s : State) (x : Lanes) (m : Mask) : State :=
  match s.blk? with
  | none => s
  | some b => ({ s with g := { s.g with held := tset s.g.held (b.position s.g.sup s.idx) x } } : State).holdNulls m

/-- A uniform outcome as it is held: its value in lane 0 (R254). -/
def uniOutcome (x : W64) : Lanes := lanes fun l => if l = 0 then x else 0

/-- Supervisor privilege is required: at user privilege the decode fault `PRIV` of R321, in every active lane. -/
def needSup (sub : Nat) (k : State → Out) (s : State) : Out :=
  if s.g.sup then k s
  else match s.blk? with
    | none => .next s
    | some b => .next (s.raise { code := 16, sub := sub, lanes := b.active })

/-- In a handler block `regang`, and under fixed order a gated instruction, is a fault inside the handler (R248). -/
def State.handlerBars (s : State) (i : Instr) : Bool :=
  s.g.sup && ((match i with | .regang _ _ => true | _ => false) || (i.gated && s.launchOf.fixord))

/-- The block address of a D-class target (R317): own address plus 16 × DISP. -/
def dTarget (addr : W64) (disp : W32) : W64 := addr + disp.signExtend 64 * 16

/-- The link of `bl` (R335): the 16-byte boundary after the block. -/
def Blk.link (b : Blk) : W64 := b.addr + w64 (alignUp (16 + 4 * b.nw) 16)

/-! ### Registers and values (R329 to R333) -/

/-- `rd` (R329): the register after the last committed block. A line that must be filled uses a register fill entry, and the
token comes with the fill (R181); with no entry free the read waits. -/
def execRd (f : Form) (r : Reg) (s : State) : Out :=
  match s.blk? with
  | none => .next s
  | some b =>
    let o := b.opnd s.idx f
    let t := { tokOf r.cls (s.g.readReg r) (~~~o.pred) with ready := some (s.clock + s.lat latInt) }
    match regLines s.g.sup r with
    | [] => .next (s.setBlk ({ b with progress := s.clock }.deliver s.idx f t))
    | n :: _ =>
      if s.lineReady n then
        .next ((s.setBlk ({ b with progress := s.clock }.deliver s.idx f t)).touchLine n false)
      else if b.fills.contains n then
        .next s.issuedNow
      else if (s.core.quarterAt s.g.quarter).fills.length < 8 then
        .next (((s.setBlk ({ b with fills := n :: b.fills }.markIssued s.idx s.clock)).modCore s.g.core fun c =>
          c.modQuarter s.g.quarter fun q => { q with fills := q.fills ++ [(s.gid, n)] }).offCore (.gang s.gid) (.registerFill n .data))
      else .next s

/-- `wr` (R330): leaves its token for the commit. -/
def execWr (f : Form) (r : Reg) (s : State) : Out := depart f (.wr f r) s
/-- `mov` (R330): the token unchanged. -/
def execMov (f : Form) (s : State) : Out :=
  compute f latInt (fun _ o => (tokOf f.vc o.a.vals o.nulls, 0)) s
/-- `const` (R330): the literal; its low 32 bits as a mask. -/
def execConst (f : Form) (s : State) : Out :=
  compute f latInt (fun _ o =>
    let x := f.lit.getD 0
    (tokOf f.vc (splat (if f.vc = .mask then x &&& 0xFFFFFFFF else x)) (~~~o.pred), 0)) s
/-- `nul` (R331): reads a null token as a value; only its predicate makes its result null. -/
def execNul (f : Form) (s : State) : Out :=
  compute f latInt (fun _ o => (o.result f.vc (~~~o.pred) fun i => if o.a.nulls.getLsbD i then 1 else 0, 0)) s

/-- The condition of `sel` in a lane (R332). -/
def selCond (c : Tok) (i : Nat) : Bool := if c.cls = .mask then c.mask.getLsbD i else lane c.vals i != 0

/-- `sel` (R332): null where c is null or the chosen operand is. -/
def execSel (f : Form) (s : State) : Out :=
  compute f latInt (fun _ o =>
    let pick := fun (i : Nat) => if selCond o.c i then o.a else o.b
    let nul := ~~~o.pred ||| o.c.nulls ||| maskOf (fun i => (pick i).nulls.getLsbD i)
    match f.vc with
    | .mask => (tokOf .mask (splat ((maskOf fun i => (pick i).mask.getLsbD i).setWidth 64)) nul, 0)
    | vc => (tokOf vc (lanes fun i => lane (pick i).vals i) nul, 0)) s

/-! ### Identities (R333) -/

/-- Extent of level i of a launch (R129). -/
def Launch.extent (l : Launch) (i : Nat) : Nat := fieldOf l.lr (200 + 16 * i) 8
/-- DOMAIN of level i. -/
def Launch.domain (l : Launch) (i : Nat) : Nat := fieldOf l.lr (208 + 16 * i) 1 % 8
/-- SCOPE of level i. -/
def Launch.scope (l : Launch) (i : Nat) : Nat := fieldOf l.lr (209 + 16 * i) 1 % 8
/-- The number of levels. -/
def Launch.nlevels (l : Launch) : Nat := bits l.flags 10 8 + 1

/-- The digit of a mixed-radix number at a level, over levels `i` to `n − 1`, level `i` the most significant (R131); the most
significant digit takes what is left. -/
def digitAt (l : Launch) (first n i x : Nat) : Nat :=
  let below := (((List.range n).filter fun j => i < j).map l.extent).foldl (· * ·) 1
  if i = first then x / below else x / below % max 1 (l.extent i)

/-- The first gang level of a launch. -/
def Launch.firstGang (l : Launch) : Nat := ((List.range l.nlevels).find? fun i => l.domain i == 0).getD l.nlevels

/-- `lid.level` (R333). -/
def levelIndex (l : Launch) (t : Team) (gang n : Nat) : Nat :=
  if t.kind ≠ .grid ∨ l.nlevels ≤ n then 0
  else if n < l.firstGang then digitAt l 0 l.firstGang n t.ident.toNat
  else digitAt l l.firstGang l.nlevels n gang

/-- PLACE of `lid` and of GANG_ID's fields (R333). -/
def State.placeWord (s : State) : W64 :=
  w64 (s.self + dieOf s.g.core * 2 ^ 6 + s.g.core % 144 * 2 ^ 8 + s.g.quarter * 2 ^ 16 + (s.g.slot.getD 0) * 2 ^ 18)

/-- The value of `lid` in a lane (R333). -/
def State.lidValue (s : State) (k : LidKind) (i : Nat) : W64 :=
  match k with
  | .lane => w64 i
  | .slice => w64 (i / 4)
  | .gang => w64 s.g.index
  | .team => if s.team.kind = .seed then 0 else s.team.ident
  | .level n => w64 (levelIndex s.launchOf s.team s.g.index n.toNat)
  | .rank => w64 s.team.rank
  | .lgid => if s.launchOf.fixord then s.g.lgid else w64 s.g.index
  | .place => s.placeWord

/-- `lid` (R333). -/
def execLid (f : Form) (k : LidKind) (s : State) : Out :=
  compute f latInt (fun _ o => (o.result f.vc (~~~o.pred) (s.lidValue k), 0)) s

/-! ### Exits (R335 to R339) -/

/-- `br` (R335). -/
def execBr (f : Form) (d : W32) (s : State) : Out := depart f (.br f d) s

/-- `bl` (R335): an exit, and the link. -/
def execBl (f : Form) (d : W32) (s : State) : Out :=
  match s.blk? with
  | none => .next s
  | some b =>
    let o := b.opnd s.idx f
    let t := { tokOf f.vc (splat b.link) (~~~o.pred) with ready := some (s.clock + s.lat latInt) }
    .next (s.setBlk (({ b with progress := s.clock }.leave (o.left s.idx (.bl f d))).deliver s.idx f t))

/-- `jr` (R335, R286): a target that is not 16-byte aligned faults `MISALIGN`. -/
def execJr (f : Form) (s : State) : Out :=
  departIf f (.jr f) (fun o =>
    let bad := lanesWhere o.live fun l => (lane o.a.vals l).toNat % 16 != 0
    if bad = 0 then none
    else some (s.execFault 7 0 255 bad (lanes fun l => if bad.getLsbD l then lane o.a.vals l else 0))) s

/-- `regang` (R337); in a handler block `ILLEGAL` with subcode 20 when it fires in some lane (R248). -/
def execRegang (f : Form) (d : W32) (s : State) : Out :=
  departIf f (.regang f d) (fun o =>
    if s.g.sup && o.acts then some (s.execFault 1 20 255 o.live []) else none) s

/-- `exit` (R336): slot b, where it has a source, names a successor's descriptor, 64-byte aligned. -/
def execExit (f : Form) (s : State) : Out :=
  departIf f (.exit f) (fun o =>
    if o.acts && (lane o.b.vals 0).toNat % 64 != 0 then
      some (s.execFault 7 0 255 o.live (splat (lane o.b.vals 0)))
    else none) s

/-- `yield` (R338): acts when its block commits. -/
def execYield (f : Form) (s : State) : Out := depart f (.yield f) s

/-- `rquota` (R339): the quota in force; the request takes effect at commit. -/
def execRquota (f : Form) (s : State) : Out :=
  match s.blk? with
  | none => .next s
  | some b =>
    let o := b.opnd s.idx f
    let q := (lane o.a.vals 0).toNat
    if o.acts && ((1 ≤ q && q ≤ 15) || 256 < q : Bool) then .next (s.raise (s.execFault 1 19 255 o.live []))
    else
      let t := { tokOf .uni (splat (w64 s.g.quota)) o.nulls with ready := some (s.clock + s.lat latInt) }
      .next (s.setBlk (({ b with progress := s.clock }.leave (o.left s.idx (.rquota f))).deliver s.idx f t))

/-- `spawn` (R341): threads are placed at commit. -/
def execSpawn (f : Form) (d : W32) (s : State) : Out :=
  departIf f (.spawn f d) (fun o =>
    if s.handlerBars (.spawn f d) && o.acts then some (s.execFault 1 20 255 o.live []) else none) s

/-- `enq` (R342): a misaligned descriptor address faults at execution; the tasks are sent at commit. -/
def execEnq (f : Form) (s : State) : Out :=
  departIf f (.enq f) (fun o =>
    let bad := lanesWhere o.live fun l => (lane o.a.vals l).toNat % 64 != 0
    if bad = 0 then none
    else some (s.execFault 7 0 255 bad (lanes fun l => if bad.getLsbD l then lane o.a.vals l else 0))) s

/-! ### Requests to a home agent at issue (R343, R344) -/

/-- The reply of a request delivered as the instruction's result (R150): `chunk` gives a pair, `qsend` a uniform token,
`qtake` a per-lane one. -/
def deliverReply (i : Instr) (x : Lanes) (s : State) : State :=
  match s.blk? with
  | none => s
  | some b =>
    let ok := some (s.clock + s.lat latInt)
    match i with
    | .chunk f =>
      s.setBlk (b.deliverPair s.idx f { tokOf .uni (splat (lane x 0)) 0 with ready := ok }
        { tokOf .uni (splat (lane x 1)) 0 with ready := ok })
    | .qsend f => s.setBlk (b.deliver s.idx f { tokOf .uni (splat (lane x 0)) 0 with ready := ok })
    | .qtake f => s.setBlk (b.deliver s.idx f { tokOf .lane x s.nullsHere with ready := ok })
    | _ => s

/-- A request that is null: it sends nothing, and its results are null (R343). -/
def nullReply (f : Form) (pair : Bool) (cls : TokClass) (s : State) : Out :=
  match s.blk? with
  | none => .next s
  | some b =>
    let t := { tokOf cls (splat 0) allLanes with ready := some (s.clock + s.lat latInt) }
    .next (s.setBlk (if pair then b.deliverPair s.idx f t t else b.deliver s.idx f t))

/-- The checks of a descriptor address: alignment, then translation, writable where asked. -/
def State.checkAddr (s : State) (a : W64) (align : Nat) (write : Bool) (m : Mask) : Except FaultRec Nat × State :=
  if a.toNat % align ≠ 0 then (.error (s.execFault 7 0 255 m (splat a)), s)
  else
    let r := s.translate s.ctxNo a.toNat { write := write, sup := s.g.sup }
    match r.1 with
    | .ok p => (.ok p, r.2)
    | .error x => (.error (s.execFault x.1 x.2 255 m (splat a)), r.2)

/-- A request of the focused gang at a position has gone out and its reply is still to come; it is not made again (R150). -/
def State.requestOut (s : State) (handler : Bool) (pos : Nat) : Bool :=
  let mine := fun (r : EdgeReq) => r.gang == s.gid && r.handler == handler && r.pos == pos
  (s.agenda.any fun d => match d.ev with
    | .chunkRequest h p _ => d.subj == .gang s.gid && h == handler && p == pos
    | .edgeSend r | .edgeTake r | .edgeRetry r _ => mine r
    | _ => false) || s.parkedEdges.any fun e => mine e.1

/-- The line at its home that a near-memory request is for, and the gang that made it. -/
def requestLine (d : Due) : Option (Nat × Nat) :=
  match d.ev, d.subj with
  | .chunkRequest _ _ a, .gang g => some (g, a.toNat / 256)
  | .edgeSend r, _ | .edgeTake r, _ | .edgeRetry r _, _ => some (r.gang, r.desc.toNat / 256)
  | _, _ => none

/-- A request for a line leaves the core: it arrives after a delay that the spec leaves open (R203), and not before those that its die has
sent for the line (02 R49). -/
def State.sendRequest (s : State) (line : Nat) (ev : Instr) : State :=
  let die := dieOf s.g.core
  let mine := s.agenda.filter fun d => match requestLine d with
    | some (g, l) => l == line && ((s.gangAt g).map fun x => dieOf x.core == die).getD false
    | none => false
  let at_ := mine.foldl (fun t d => max t d.time) (s.now + 1 + Config.freeDelay s.free)
  { s with agenda := s.agenda ++ [⟨at_, none, .gang s.gid, ev⟩], free := s.free + 1 }

/-- `chunk` (R343): one request to the counter's home, held by R150. -/
def execChunk (f : Form) (s : State) : Out :=
  match s.blk? with
  | none => .next s
  | some b =>
    let o := b.opnd s.idx f
    match s.heldHere with
    | some x => .next (deliverReply (.chunk f) x s)
    | none =>
      if s.requestOut s.g.sup (b.position s.g.sup s.idx) then .next s.issuedNow
      else if !o.acts then nullReply f true .uni s
      else if s.handlerBars (.chunk f) then .next (s.raise (s.execFault 1 20 255 o.live []))
      else
        let r := s.checkAddr (lane o.a.vals 0) 32 true o.live
        match r.1 with
        | .error x => .next (r.2.raise x)
        | .ok p => .next (r.2.issuedNow.sendRequest (p / 256) (.chunkRequest s.g.sup (b.position s.g.sup s.idx) (w64 p)))

/-- The payload of `qsend`: lane l supplies 8 bytes; inactive and null lanes supply zero (R344). -/
def Opnd.payload (o : Opnd) (n : Nat) : List Byte :=
  (List.range n).flatMap fun l => if (o.live).getLsbD l then bytesOf 8 (lane o.b.vals l).toNat else bytesOf 8 0

/-- A request to an edge queue: the descriptor's checks of R344, then the request. -/
def edgeRequest (f : Form) (i : Instr) (send : Bool) (s : State) : Out :=
  match s.blk? with
  | none => .next s
  | some b =>
    let o := b.opnd s.idx f
    let gate := o.act &&& o.pred &&& ~~~o.a.nulls
    match s.heldHere with
    | some x => .next (deliverReply i x s)
    | none =>
      if s.requestOut s.g.sup (b.position s.g.sup s.idx) then .next s.issuedNow
      else if gate = 0 then nullReply f false (if send then .uni else .lane) s
      else if s.handlerBars i then .next (s.raise (s.execFault 1 20 255 gate []))
      else
        let r := s.checkAddr (lane o.a.vals 0) 256 false gate
        match r.1 with
        | .error x => .next (r.2.raise x)
        | .ok p =>
          if !s.edges.contains p then .next (r.2.raise (s.execFault 1 19 255 gate []))
          else
            let slot := natOf (r.2.poolRead (p + 12) 2)
            let q : EdgeReq := { gang := s.gid, handler := s.g.sup, pos := b.position s.g.sup s.idx, desc := w64 p,
                                 payload := if send then o.payload (slot / 8) else [] }
            -- the release of `qsend` at rack: every earlier store of the core is visible first (R211)
            let s1 := (r.2.holdNulls (~~~o.pred)).issuedNow
            .next ((if send then s1.flushCore s1.g.core else s1).sendRequest (p / 256) (if send then .edgeSend q else .edgeTake q))

/-- `qsend` (R344). -/
def execQsend (f : Form) (s : State) : Out := edgeRequest f (.qsend f) true s
/-- `qtake` (R344). -/
def execQtake (f : Form) (s : State) : Out := edgeRequest f (.qtake f) false s

end Sys2Proof.Machine
end

