-- ==== Sys2Proof/Machine/Fp.lean ====
section
/-! DEFINITION. Floating-point values and rounding (spec/13_isa_float.md R360 to R368, R371, R372): formats, the exact
intermediate result, RoundTo and stochastic rounding. -/

namespace Sys2Proof

/-! ### Formats (R360, R361) -/

/-- Fraction bits of a format. -/
def Ty.frac : Ty → Nat
  | .f64 => 52 | .f32 => 23 | .f16 => 10 | .bf16 => 7 | .e4m3 => 3 | .e5m2 => 2 | .e2m1 => 1
  | .mx8a => 3 | .mx8b => 2 | .mx4 => 1
  | _ => 0
/-- Bias of a format. -/
def Ty.bias : Ty → Nat
  | .f64 => 1023 | .f32 => 127 | .f16 => 15 | .bf16 => 127 | .e4m3 => 7 | .e5m2 => 15 | .e2m1 => 1
  | .mx8a => 7 | .mx8b => 15 | .mx4 => 1
  | _ => 0
/-- Encoding of the largest finite magnitude. -/
def Ty.maxEnc : Ty → Nat
  | .f64 => 0x7FEFFFFFFFFFFFFF | .f32 => 0x7F7FFFFF | .f16 => 0x7BFF | .bf16 => 0x7F7F
  | .e4m3 | .mx8a => 0x7E | .e5m2 | .mx8b => 0x7B | .e2m1 | .mx4 => 7
  | _ => 0
/-- Does the format have infinities? -/
def Ty.hasInf : Ty → Bool
  | .f64 | .f32 | .f16 | .bf16 | .e5m2 | .mx8b => true
  | _ => false
/-- The canonical NaN (R361); e2m1 has none and takes +0 (R367). -/
def Ty.nan : Ty → Nat
  | .f64 => 0x7FF8000000000000 | .f32 => 0x7FC00000 | .f16 => 0x7E00 | .bf16 => 0x7FC0
  | .e4m3 | .mx8a => 0x7F | .e5m2 | .mx8b => 0x7E
  | _ => 0
/-- The sign bit of a format. -/
def Ty.signBit (t : Ty) (neg : Bool) : Nat := if neg then 2 ^ (t.width - 1) else 0
/-- Encoding of an infinity, one above the largest finite value. -/
def Ty.infEnc (t : Ty) (neg : Bool) : Nat := t.signBit neg + t.maxEnc + 1
/-- Exponent of the smallest subnormal: 1 − bias − f. -/
def Ty.emin (t : Ty) : Int := 1 - (t.bias : Int) - (t.frac : Int)

end Sys2Proof

namespace Sys2Proof.Machine

/-- A floating-point operand: NaN (signalling or quiet), infinity, or the exact number ±m × 2^e. -/
inductive FVal where
  | nan (sig : Bool)
  | inf (neg : Bool)
  | num (neg : Bool) (m : Nat) (e : Int)
  deriving DecidableEq, Repr

/-- FIn(x, T) (R362). -/
def fIn (t : Ty) (x : Nat) : FVal :=
  let p := x % 2 ^ t.width
  let neg := p.testBit (t.width - 1)
  let mag := p % 2 ^ (t.width - 1)
  let frac := mag % 2 ^ t.frac
  let ex := mag / 2 ^ t.frac
  if t.maxEnc < mag then
    if t.hasInf && frac == 0 then .inf neg
    else .nan (t.hasInf && !frac.testBit (t.frac - 1))
  else if ex = 0 then .num neg frac t.emin
  else .num neg (2 ^ t.frac + frac) (t.emin + (ex : Int) - 1)

/-- A result pattern with its flags: NV bit 0, DZ 1, OF 2, UF 3, NX 4 (R369). -/
abbrev FRes := Nat × BitVec 5

/-- Flag NV. -/
def fNV : BitVec 5 := 1
/-- Flag DZ. -/
def fDZ : BitVec 5 := 2
/-- Flag OF. -/
def fOF : BitVec 5 := 4
/-- Flag UF. -/
def fUF : BitVec 5 := 8
/-- Flag NX. -/
def fNX : BitVec 5 := 16

/-! ### Rounding (R365 to R368) -/

/-- Rounding in force: a mode code 0 to 6 (R313) and the 32 random bits of a stochastic result. -/
structure Rnd where
  mode : Nat
  rand : Nat
  deriving DecidableEq, Repr

/-- Mix64 (R368). -/
def mix64 (z : W64) : W64 :=
  let z1 := (z ^^^ (z >>> 30)) * 0xBF58476D1CE4E5B9
  let z2 := (z1 ^^^ (z1 >>> 27)) * 0x94D049BB133111EB
  z2 ^^^ (z2 >>> 31)

/-- Rand32 (R368). -/
def rand32 (seed e0 e1 : W64) : Nat := (mix64 (mix64 (seed ^^^ e0) ^^^ e1)).toNat / 2 ^ 32

/-- The mode that an RM code selects: RM 111 takes RMODE; stochastic rounding only where the instruction and its
destination allow it, RNE otherwise (R313, R373). -/
def modeOf (rm rmode : BitVec 3) (stochOk : Bool) : Nat :=
  let m := if rm = 7 then rmode else rm
  if m = 7 then 0 else if m = 6 && !stochOk then 0 else m.toNat

/-- The rounding of element j of lane l in an instruction of group 10 (R368). -/
def Env.rnd (v : Env) (rm : BitVec 3) (stochOk : Bool) (l j : Nat) : Rnd :=
  { mode := modeOf rm v.rmode stochOk,
    rand := rand32 v.seed (v.sixb.setWidth 64) (w64 (128 * v.idx + 4 * l + j)) }

/-- Is a magnitude n + (r + sticky) / 2^k, with k the width of the cut, rounded up to n + 1? -/
def roundsUp (rn : Rnd) (neg : Bool) (n r k : Nat) (sticky : Bool) : Bool :=
  let half := 2 ^ k
  let inexact := r != 0 || sticky
  match rn.mode with
  | 1 => false
  | 2 => neg && inexact
  | 3 => !neg && inexact
  | 4 => decide (half ≤ 2 * r)
  | 6 => inexact && decide (rn.rand < r * 2 ^ 32 / half)
  | _ => decide (half < 2 * r) || (decide (2 * r = half) && (sticky || n % 2 == 1))

/-- A magnitude m × 2^e, or just above it, cut to a multiple of 2^q: the multiple and whether it differs. -/
def cutAt (rn : Rnd) (neg : Bool) (m : Nat) (e : Int) (sticky : Bool) (q : Int) : Nat × Bool :=
  if q ≤ e then (m * 2 ^ (e - q).toNat, sticky)
  else
    let k := (q - e).toNat
    let n := m / 2 ^ k
    let r := m % 2 ^ k
    ((if roundsUp rn neg n r k sticky then n + 1 else n), r != 0 || sticky)

/-- The overflow value (R366). -/
def overflow (t : Ty) (rn : Rnd) (neg : Bool) : Nat :=
  let toMax := match rn.mode with
    | 1 | 5 => true
    | 2 => !neg
    | 3 => neg
    | _ => false
  if toMax then t.signBit neg + t.maxEnc
  else if t.hasInf then t.infEnc neg
  else if t.nan != 0 then t.nan
  else t.signBit neg + t.maxEnc

/-- RoundTo(x, T, rm) of x = ±m × 2^e, or of a value strictly between m × 2^e and (m + 1) × 2^e when `sticky` (R365). A
sticky m carries at least 34 bits more than the precision of T. -/
def roundTo (t : Ty) (rn : Rnd) (neg : Bool) (m : Nat) (e : Int) (sticky : Bool) : FRes :=
  if m = 0 && !sticky then (t.signBit neg, 0)
  else
    let qu := e + (bitLen m : Int) - (t.frac + 1 : Nat)
    let q := max qu t.emin
    let c := cutAt rn neg m e sticky q
    let enc := ((q - t.emin) * (2 ^ t.frac : Int) + c.1).toNat
    let u := cutAt rn neg m e sticky qu
    let tiny := decide (qu < t.emin) && decide ((bitLen u.1 : Int) - 1 + qu < 1 - (t.bias : Int))
    if t.maxEnc < enc then (overflow t rn neg, fOF ||| fNX)
    else (t.signBit neg + enc, if c.2 then (if tiny then fUF ||| fNX else fNX) else 0)

/-- NV when some operand is a signalling NaN (R371). -/
def sigFlag (vs : List FVal) : BitVec 5 := if vs.contains (.nan true) then fNV else 0

/-- Is some operand a NaN? -/
def FVal.isNan : FVal → Bool
  | .nan _ => true
  | _ => false

/-- The sign of a value. -/
def FVal.neg : FVal → Bool
  | .nan _ => false
  | .inf n => n
  | .num n _ _ => n

/-- The negated value. -/
def FVal.flip : FVal → FVal
  | .nan q => .nan q
  | .inf n => .inf (!n)
  | .num n m e => .num (!n) m e

/-- Is the value a zero? -/
def FVal.isZero : FVal → Bool
  | .num _ m _ => m == 0
  | _ => false

/-- The number ±m × 2^e as an integer multiple of 2^q, for q ≤ e. -/
def scaled (neg : Bool) (m : Nat) (e q : Int) : Int :=
  let x : Int := (m * 2 ^ (e - q).toNat : Nat)
  if neg then -x else x

/-- The sum of two numbers, exactly; the sign of an exact zero by R374. -/
def addNum (mode : Nat) (x y : Bool × Nat × Int) : FVal :=
  let q := min x.2.2 y.2.2
  let z := scaled x.1 x.2.1 x.2.2 q + scaled y.1 y.2.1 y.2.2 q
  if z = 0 then
    .num (if x.2.1 = 0 ∧ y.2.1 = 0 ∧ x.1 = y.1 then x.1 else mode == 2) 0 q
  else .num (decide (z < 0)) z.natAbs q

/-- The exact sum of two values with its flags; `mode` fixes the sign of an exact zero. -/
def fAdd (mode : Nat) (x y : FVal) : FVal × BitVec 5 :=
  match x, y with
  | .nan _, _ => (.nan false, sigFlag [x, y])
  | _, .nan _ => (.nan false, sigFlag [x, y])
  | .inf a, .inf b => if a = b then (.inf a, 0) else (.nan false, fNV)
  | .inf a, _ => (.inf a, 0)
  | _, .inf b => (.inf b, 0)
  | .num a m e, .num b n d => (addNum mode (a, m, e) (b, n, d), 0)

/-- The exact product of two values with its flags. -/
def fMul (x y : FVal) : FVal × BitVec 5 :=
  match x, y with
  | .nan _, _ => (.nan false, sigFlag [x, y])
  | _, .nan _ => (.nan false, sigFlag [x, y])
  | .inf a, .inf b => (.inf (a != b), 0)
  | .inf a, .num b n _ => if n = 0 then (.nan false, fNV) else (.inf (a != b), 0)
  | .num a m _, .inf b => if m = 0 then (.nan false, fNV) else (.inf (a != b), 0)
  | .num a m e, .num b n d => (.num (a != b) (m * n) (e + d), 0)

/-- The value delivered in a format: the canonical NaN, an infinity (R366 for formats without), or RoundTo (R362). -/
def finish (t : Ty) (rn : Rnd) (r : FVal × BitVec 5) : FRes :=
  match r.1 with
  | .nan _ => (t.nan, r.2)
  | .inf n => (if t.hasInf then t.infEnc n else if t.nan != 0 then t.nan else t.signBit n + t.maxEnc, r.2)
  | .num n m e => let q := roundTo t rn n m e false; (q.1, q.2 ||| r.2)

/-! ### Arithmetic (R374 to R376) -/

/-- RoundTo(A + B). -/
def fpAdd (t : Ty) (rn : Rnd) (x y : Nat) : FRes := finish t rn (fAdd rn.mode (fIn t x) (fIn t y))
/-- RoundTo(A − B). -/
def fpSub (t : Ty) (rn : Rnd) (x y : Nat) : FRes :=
  let b := fIn t y
  let r := fAdd rn.mode (fIn t x) b.flip
  finish t rn r
/-- RoundTo(A × B). -/
def fpMul (t : Ty) (rn : Rnd) (x y : Nat) : FRes := finish t rn (fMul (fIn t x) (fIn t y))

/-- A × B + C, exactly; 0 × ∞ raises NV even when C is a quiet NaN (R374). -/
def fMulAdd (mode : Nat) (a b c : FVal) : FVal × BitVec 5 :=
  let p := fMul a b
  if a.isNan || b.isNan || c.isNan then (.nan false, sigFlag [a, b, c] ||| (if a.isNan || b.isNan then 0 else p.2))
  else
    let r := fAdd mode p.1 c
    (r.1, p.2 ||| (if p.1.isNan then 0 else r.2))

/-- RoundTo(A × B + C), one rounding. -/
def fpFma (t : Ty) (rn : Rnd) (x y z : Nat) : FRes := finish t rn (fMulAdd rn.mode (fIn t x) (fIn t y) (fIn t z))

/-- Integer square root, bit by bit from bit i − 1 down. -/
def isqrtGo (n : Nat) : Nat → Nat → Nat
  | 0, r => r
  | i + 1, r => isqrtGo n i (if (r + 2 ^ i) * (r + 2 ^ i) ≤ n then r + 2 ^ i else r)

/-- Floor of the square root. -/
def isqrt (n : Nat) : Nat := isqrtGo n (bitLen n / 2 + 1) 0

/-- The quotient of two positive numbers, with enough bits for any format, and whether it is exact. -/
def quotient (m : Nat) (e : Int) (n : Nat) (d : Int) : Nat × Int × Bool :=
  let k := 130 + bitLen n
  let a := m * 2 ^ k
  (a / n, e - d - (k : Int), a % n != 0)

/-- RoundTo(A / B) with the cases of R375. -/
def fDiv (t : Ty) (rn : Rnd) (a b : FVal) : FRes :=
  match a, b with
  | .nan _, _ => (t.nan, sigFlag [a, b])
  | _, .nan _ => (t.nan, sigFlag [a, b])
  | .inf _, .inf _ => (t.nan, fNV)
  | .inf x, .num y _ _ => finish t rn (.inf (x != y), 0)
  | .num x _ _, .inf y => (t.signBit (x != y), 0)
  | .num x m e, .num y n d =>
    if n = 0 then (if m = 0 then (t.nan, fNV) else finish t rn (.inf (x != y), fDZ))
    else let q := quotient m e n d; roundTo t rn (x != y) q.1 q.2.1 q.2.2

/-- 1. -/
def fOne : FVal := .num false 1 0

/-- The square root of a positive number, with enough bits, and whether it is inexact. -/
def rootOf (m : Nat) (e : Int) : Nat × Int × Bool :=
  let k : Nat := if e % 2 = 0 then 260 else 261
  let a := m * 2 ^ k
  let r := isqrt a
  (r, (e - (k : Int)) / 2, r * r != a)

/-- RoundTo(√A) (R375). -/
def fSqrt (t : Ty) (rn : Rnd) (a : FVal) : FRes :=
  match a with
  | .nan _ => (t.nan, sigFlag [a])
  | .inf n => if n then (t.nan, fNV) else finish t rn (.inf false, 0)
  | .num n m e =>
    if m = 0 then (t.signBit n, 0)
    else if n then (t.nan, fNV)
    else let q := rootOf m e; roundTo t rn false q.1 q.2.1 q.2.2

/-- RoundTo(1 / √A) (R375). -/
def fRsqrt (t : Ty) (rn : Rnd) (a : FVal) : FRes :=
  match a with
  | .nan _ => (t.nan, sigFlag [a])
  | .inf n => if n then (t.nan, fNV) else (0, 0)
  | .num n m e =>
    if m = 0 then finish t rn (.inf n, fDZ)
    else if n then (t.nan, fNV)
    else
      -- m' × 2^(2h) with 1/√ = √(2^(2k) / m') / 2^(k + h)
      let odd := e % 2 ≠ 0
      let m1 := if odd then m * 2 else m
      let h := (if odd then e - 1 else e) / 2
      let k := 200 + bitLen m1
      let r := isqrt (2 ^ (2 * k) / m1)
      roundTo t rn false r (-(k : Int) - h) (r * r * m1 != 2 ^ (2 * k))

/-- Order of two numbers or infinities: −1, 0 or 1; zeros compare equal. -/
def fOrder (a b : FVal) : Int :=
  match a, b with
  | .inf x, .inf y => if x = y then 0 else if x then -1 else 1
  | .inf x, _ => if x then -1 else 1
  | _, .inf y => if y then 1 else -1
  | .num x m e, .num y n d =>
    let q := min e d
    let u := scaled x m e q
    let v := scaled y n d q
    if u < v then -1 else if v < u then 1 else 0
  | _, _ => 0

/-- minimumNumber and maximumNumber (R376): the bits of the operand chosen; −0 is below +0. -/
def fpMinMax (t : Ty) (mx : Bool) (x y : Nat) : FRes :=
  let a := fIn t x
  let b := fIn t y
  let fl := sigFlag [a, b]
  let px := x % 2 ^ t.width
  let py := y % 2 ^ t.width
  if a.isNan && b.isNan then (t.nan, fl)
  else if a.isNan then (py, fl)
  else if b.isNan then (px, fl)
  else
    let less := match fOrder a b with
      | -1 => true
      | 1 => false
      | _ => a.neg && !b.neg
    let greater := match fOrder a b with
      | -1 => false
      | 1 => true
      | _ => !a.neg && b.neg
    (if mx then (if greater then px else py) else (if less then px else py), fl)

/-- The integer nearest to a magnitude under a mode, and whether it differs (R380, R382). -/
def roundInt (mode : Nat) (neg : Bool) (m : Nat) (e : Int) : Nat × Bool := cutAt ⟨mode, 0⟩ neg m e false 0

/-- A conversion between formats (R379, R367). -/
def fpConvert (t : Ty) (rn : Rnd) (a : FVal) : FRes :=
  let srne := rn.mode == 5
  match a with
  | .nan sig =>
    if t.hasInf || t.nan != 0 then (t.nan, if sig then fNV else 0) else (0, fNV)
  | .inf n =>
    if t.hasInf then (t.infEnc n, 0)
    else if t.nan != 0 then (if srne then (t.signBit n + t.maxEnc, 0) else (t.nan, fNV))
    else (t.signBit n + t.maxEnc, if srne then 0 else fNV)
  | .num n m e => roundTo t rn n m e false

end Sys2Proof.Machine
end

