-- ==== Sys2Proof/Machine/FpFun.lean ====
section
/-! DEFINITION. The correctly rounded functions (spec/13_isa_float.md R384). A result that is no exact dyadic number is
enclosed between two fixed-point numbers, at growing precision, until both round alike (Ziv's strategy); the exact
cases are found first. Fixed-point numbers here are integers scaled by 2^P. -/

namespace Sys2Proof.Machine

/-- A magnitude X × 2^e known to within `err` units of X. -/
structure Approx where
  neg : Bool := false
  x : Nat
  err : Nat
  e : Int
  deriving DecidableEq, Repr

/-- Both ends of the enclosure round alike: the result. -/
def decideRound (t : Ty) (rn : Rnd) (a : Approx) : Option FRes :=
  let l := a.x - a.err
  if bitLen l < t.frac + 36 then none
  else
    let r := roundTo t rn a.neg l a.e true
    if roundTo t rn a.neg (a.x + a.err) a.e true = r then some r else none

/-- The enclosure tried at precision P, 2P, 4P, …; the last one is taken as it stands. -/
def ziv (t : Ty) (rn : Rnd) (f : Nat → Approx) : Nat → Nat → FRes
  | 0, p => let a := f p; roundTo t rn a.neg a.x a.e true
  | n + 1, p =>
    match decideRound t rn (f p) with
    | some r => r
    | none => ziv t rn f n (2 * p)

/-- The number of doublings tried. -/
def zivSteps : Nat := 7

/-! ### Series in fixed point -/

/-- Σ of x^(2k+1) / (2k+1), alternating when `alt`: arctangent or inverse hyperbolic tangent of x = n / d. -/
def atanSeries (alt : Bool) (p n2 d2 : Nat) : Nat → Nat → Nat → Int → Int
  | 0, _, _, acc => acc
  | fuel + 1, term, k, acc =>
    let v : Int := (term / (2 * k + 1) : Nat)
    atanSeries alt p n2 d2 fuel (term * n2 / d2) (k + 1) (if alt && k % 2 == 1 then acc - v else acc + v)

/-- arctan or artanh of n / d, scaled by 2^p. -/
def atanFrac (alt : Bool) (p n d : Nat) : Int :=
  if n = 0 then 0 else atanSeries alt p (n * n) (d * d) (p + 4) (n * 2 ^ p / d) 0 0

/-- ln 2, scaled by 2^p. -/
def ln2Fix (p : Nat) : Int := 18 * atanFrac false p 1 26 - 2 * atanFrac false p 1 4801 + 8 * atanFrac false p 1 8749

/-- π, scaled by 2^p. -/
def piFix (p : Nat) : Int := 16 * atanFrac true p 1 5 - 4 * atanFrac true p 1 239

/-- Σ of terms t(k+1) = t(k) × r / (k + 1): the exponential of r, scaled by 2^p. -/
def expSeries (p : Nat) (r : Int) : Nat → Int → Nat → Int → Int
  | 0, _, _, acc => acc
  | fuel + 1, term, k, acc =>
    expSeries p r fuel (term * r / (2 ^ p : Int) / ((k : Int) + 1)) (k + 1) (acc + term)

/-- e^r for a fixed-point r of small magnitude. -/
def expFix (p : Nat) (r : Int) : Int := expSeries p r (p + 8) (2 ^ p) 0 0

/-- Σ of the sine (odd = 1) or cosine (odd = 0) series of r. -/
def trigSeries (p : Nat) (r2 : Int) : Nat → Int → Nat → Int → Int
  | 0, _, _, acc => acc
  | fuel + 1, term, k, acc =>
    trigSeries p r2 fuel (-(term * r2 / (2 ^ p : Int)) / (((k : Int) + 1) * ((k : Int) + 2))) (k + 2) (acc + term)

/-- sin r, |r| below 1. -/
def sinFix (p : Nat) (r : Int) : Int := trigSeries p (r * r / (2 ^ p : Int)) (p + 8) r 1 0
/-- cos r, |r| below 1. -/
def cosFix (p : Nat) (r : Int) : Int := trigSeries p (r * r / (2 ^ p : Int)) (p + 8) (2 ^ p) 0 0

/-- m × 2^e scaled by 2^p, rounded down. -/
def toFix (p m : Nat) (e : Int) : Nat :=
  if 0 ≤ e + (p : Int) then m * 2 ^ (e + (p : Int)).toNat else m / 2 ^ (-(e + (p : Int))).toNat

/-- The position of the leading bit of m × 2^e. -/
def topBit (m : Nat) (e : Int) : Int := (bitLen m : Int) - 1 + e

/-- Extra precision for operands far from 1. -/
def guard (m : Nat) (e : Int) : Nat := 160 + 3 * (topBit m e).natAbs

/-- A value just below or just above a dyadic number c × 2^-200. -/
def nearBelow (t : Ty) (rn : Rnd) (neg : Bool) (c : Nat) : FRes := roundTo t rn neg (c * 2 ^ 200 - 1) (-200) true
/-- As `nearBelow`, from above. -/
def nearAbove (t : Ty) (rn : Rnd) (neg : Bool) (c : Nat) : FRes := roundTo t rn neg (c * 2 ^ 200) (-200) true
/-- A magnitude beyond every format. -/
def hugeRes (t : Ty) (rn : Rnd) (neg : Bool) : FRes := roundTo t rn neg (2 ^ 200) 20000 true
/-- A magnitude below every format. -/
def tinyRes (t : Ty) (rn : Rnd) (neg : Bool) : FRes := roundTo t rn neg (2 ^ 200) (-20000) true

/-! ### Exponentials -/

/-- e^x for a fixed-point x (scaled by 2^p): n and y with e^x = y × 2^(n − p). -/
def expParts (p : Nat) (x : Int) : Int × Nat :=
  let l := ln2Fix p
  let n := x / l
  (n, (expFix p (x - n * l)).toNat)

/-- e^(±m × 2^e), of magnitude between 2^-200 and 2^14. -/
def expApprox (neg : Bool) (m : Nat) (e : Int) (p : Nat) : Approx :=
  let q := p + 64
  let x : Int := toFix q m e
  let r := expParts q (if neg then -x else x)
  { x := r.2, err := 2 ^ 50, e := r.1 - (q : Int) }

/-- RoundTo(e^A). -/
def fpExp (t : Ty) (rn : Rnd) (a : FVal) : FRes :=
  match a with
  | .nan _ => (t.nan, sigFlag [a])
  | .inf n => if n then (0, 0) else finish t rn (.inf false, 0)
  | .num n m e =>
    if m = 0 then roundTo t rn false 1 0 false
    else if topBit m e < -200 then (if n then nearBelow t rn false 1 else nearAbove t rn false 1)
    else if 14 ≤ topBit m e then (if n then tinyRes t rn false else hugeRes t rn false)
    else ziv t rn (expApprox n m e) zivSteps (guard m e)

/-- RoundTo(2^A); exact for an integer. -/
def fpExp2 (t : Ty) (rn : Rnd) (a : FVal) : FRes :=
  match a with
  | .nan _ => (t.nan, sigFlag [a])
  | .inf n => if n then (0, 0) else finish t rn (.inf false, 0)
  | .num n m e =>
    if m = 0 then roundTo t rn false 1 0 false
    else if topBit m e < -200 then (if n then nearBelow t rn false 1 else nearAbove t rn false 1)
    else if 14 ≤ topBit m e then (if n then tinyRes t rn false else hugeRes t rn false)
    else if 0 ≤ e ∨ m % 2 ^ (-e).toNat = 0 then
      let k : Int := toFix 0 m e
      roundTo t rn false 1 (if n then -k else k) false
    else ziv t rn (fun p =>
      let q := p + 64
      let x : Int := toFix q m e
      let z := if n then -x else x
      let k := z / (2 ^ q : Int)
      { x := (expFix q ((z - k * 2 ^ q) * ln2Fix q / (2 ^ q : Int))).toNat, err := 2 ^ 50, e := k - (q : Int) })
      zivSteps (guard m e)

/-! ### Logarithms -/

/-- ln of m × 2^e scaled by 2^p: ln y + n ln 2 with y in [3/4, 3/2). -/
def lnFix (p m : Nat) (e : Int) : Int :=
  let b := bitLen m
  -- y = m / 2^(b − 1) in [1, 2), or half of it above 3/2
  let up := decide (3 * 2 ^ b ≤ 4 * m)
  let d := if up then 2 ^ b else 2 ^ (b - 1)
  let n : Int := topBit m e + (if up then 1 else 0)
  let z : Int := if d ≤ m then atanFrac false p (m - d) (m + d) else -(atanFrac false p (d - m) (m + d))
  2 * z + n * ln2Fix p

/-- A signed fixed-point number as an approximation. -/
def signedApprox (x : Int) (err p : Nat) : Approx := { neg := decide (x < 0), x := x.natAbs, err := err, e := -(p : Int) }

/-- RoundTo(ln A) or RoundTo(log2 A); a power of two has an exact log2. -/
def fpLog (two : Bool) (t : Ty) (rn : Rnd) (a : FVal) : FRes :=
  match a with
  | .nan _ => (t.nan, sigFlag [a])
  | .inf n => if n then (t.nan, fNV) else finish t rn (.inf false, 0)
  | .num n m e =>
    if m = 0 then finish t rn (.inf true, fDZ)
    else if n then (t.nan, fNV)
    else if m = 2 ^ (bitLen m - 1) ∧ (two ∨ topBit m e = 0) then
      roundTo t rn (decide (topBit m e < 0)) (topBit m e).natAbs 0 false
    else ziv t rn (fun p =>
      let q := p + 40
      let x := lnFix q m e
      if two then signedApprox (x * 2 ^ q / ln2Fix q) (2 ^ 36) q else signedApprox x (2 ^ 30) q) zivSteps 200

/-! ### Trigonometric functions -/

/-- Quadrant and remainder of m × 2^e by π / 2: the remainder within ±π/4, scaled by 2^p. -/
def reduceTrig (p m : Nat) (e : Int) : Int × Int :=
  let w := p + (topBit m e).toNat + 8
  let x : Int := toFix w m e
  let h := piFix w / 2
  let k := (2 * x + h) / (2 * h)
  (k, (x - k * h) / (2 ^ (w - p) : Int))

/-- sin (`c` false) or cos (`c` true) of ±m × 2^e. -/
def trigApprox (c neg : Bool) (m : Nat) (e : Int) (p : Nat) : Approx :=
  let q := p + 30
  let r := reduceTrig q m e
  let k := ((if c then r.1 + 1 else r.1) % 4).toNat
  let v := if k % 2 = 0 then sinFix q r.2 else cosFix q r.2
  let v := if 2 ≤ k then -v else v
  signedApprox (if neg && !c then -v else v) (2 ^ 24) q

/-- RoundTo(sin A) or RoundTo(cos A). -/
def fpTrig (c : Bool) (t : Ty) (rn : Rnd) (a : FVal) : FRes :=
  match a with
  | .nan _ => (t.nan, sigFlag [a])
  | .inf _ => (t.nan, fNV)
  | .num n m e =>
    if m = 0 then (if c then roundTo t rn false 1 0 false else (t.signBit n, 0))
    else if c && decide (topBit m e < -110) then nearBelow t rn false 1
    else ziv t rn (trigApprox c n m e) zivSteps (if topBit m e < 0 then guard m e else 200)

/-! ### tanh, the logistic function and erf -/

/-- RoundTo(tanh A): (1 − u) / (1 + u) with u = e^(−2|A|). -/
def fpTanh (t : Ty) (rn : Rnd) (a : FVal) : FRes :=
  match a with
  | .nan _ => (t.nan, sigFlag [a])
  | .inf n => roundTo t rn n 1 0 false
  | .num n m e =>
    if m = 0 then (t.signBit n, 0)
    else if 7 ≤ topBit m e then nearBelow t rn n 1
    else ziv t rn (fun p =>
      let q := p + 64
      let r := expParts q (-(toFix q m (e + 1) : Int))
      let u := toFix q r.2 (r.1 - (q : Int))
      { neg := n, x := (2 ^ q - u) * 2 ^ q / (2 ^ q + u), err := 2 ^ 56, e := -(q : Int) }) zivSteps (guard m e)

/-- RoundTo(1 / (1 + e^−A)). -/
def fpLogistic (t : Ty) (rn : Rnd) (a : FVal) : FRes :=
  match a with
  | .nan _ => (t.nan, sigFlag [a])
  | .inf n => if n then (0, 0) else roundTo t rn false 1 0 false
  | .num n m e =>
    if m = 0 then roundTo t rn false 1 (-1) false
    else if topBit m e < -200 then
      (if n then roundTo t rn false (2 ^ 200 - 1) (-201) true else roundTo t rn false (2 ^ 200) (-201) true)
    else if 14 ≤ topBit m e then (if n then tinyRes t rn false else nearBelow t rn false 1)
    else if !n && decide (8 ≤ topBit m e) then nearBelow t rn false 1
    else ziv t rn (fun p =>
      let q := p + 64
      let r := expParts q (-(toFix q m e : Int))
      let u := toFix q r.2 (r.1 - (q : Int))
      if n then { x := r.2 * 2 ^ q / (2 ^ q + u), err := 2 ^ 56, e := r.1 - (q : Int) }
      else { x := 2 ^ (2 * q) / (2 ^ q + u), err := 2 ^ 56, e := -(q : Int) }) zivSteps (guard m e)

/-- Σ of 2^k x^(2k+1) / (2k+1)!!: terms t(k+1) = t(k) × 2x² / (2k + 3). -/
def erfSeries (p : Nat) (x2 : Nat) : Nat → Nat → Nat → Nat → Nat
  | 0, _, _, acc => acc
  | fuel + 1, term, k, acc => erfSeries p x2 fuel (2 * term * x2 / 2 ^ p / (2 * k + 3)) (k + 1) (acc + term)

/-- RoundTo(erf A): (2 / √π) e^(−x²) Σ of positive terms. -/
def fpErf (t : Ty) (rn : Rnd) (a : FVal) : FRes :=
  match a with
  | .nan _ => (t.nan, sigFlag [a])
  | .inf n => roundTo t rn n 1 0 false
  | .num n m e =>
    if m = 0 then (t.signBit n, 0)
    else if 4 ≤ topBit m e then nearBelow t rn n 1
    else ziv t rn (fun p =>
      let q := p + 400
      let x := toFix q m e
      let x2 := x * x / 2 ^ q
      let g := expParts q (-(x2 : Int))
      let u := toFix q g.2 (g.1 - (q : Int))
      let sum := erfSeries q x2 (4 * q + 1200) x 0 0
      let rootPi := isqrt ((piFix q).toNat * 2 ^ q)
      { neg := n, x := 2 * (u * sum / 2 ^ q) * 2 ^ q / rootPi, err := 2 ^ 390, e := -(q : Int) }) zivSteps (guard m e)

/-! ### atan2 and pow -/

/-- arctan of a fixed-point number in [0, 1], by halving the angle three times. -/
def atanFix (p : Nat) (x : Nat) : Int :=
  let half := fun (y : Nat) => y * 2 ^ p / (2 ^ p + isqrt (2 ^ (2 * p) + y * y))
  let y := half (half (half x))
  8 * atanFrac true p y (2 ^ p)

/-- k × π / 4, rounded. -/
def quarterPi (t : Ty) (rn : Rnd) (neg : Bool) (k : Nat) : FRes :=
  ziv t rn (fun p => { neg := neg, x := k * (piFix (p + 10)).toNat, err := 2 ^ 9, e := -(p : Int) - 12 }) zivSteps 200

/-- RoundTo(atan2(A, B)), A the ordinate. -/
def fpAtan2 (t : Ty) (rn : Rnd) (a b : FVal) : FRes :=
  match a, b with
  | .nan _, _ => (t.nan, sigFlag [a, b])
  | _, .nan _ => (t.nan, sigFlag [a, b])
  | .inf n, .inf x => quarterPi t rn n (if x then 3 else 1)
  | .inf n, .num _ _ _ => quarterPi t rn n 2
  | .num n _ _, .inf x => if x then quarterPi t rn n 4 else (t.signBit n, 0)
  | .num n m e, .num x k d =>
    if m = 0 then (if x then quarterPi t rn n 4 else (t.signBit n, 0))
    else if k = 0 then quarterPi t rn n 2
    else ziv t rn (fun p =>
      let q := p + 30
      -- the ratio of the smaller to the greater magnitude
      let sw := decide (0 < fOrder (.num false m e) (.num false k d))
      let u := if sw then (k, d, m, e) else (m, e, k, d)
      let sh := u.2.1 - u.2.2.2 + (q : Int)
      let r := if 0 ≤ sh then u.1 * 2 ^ sh.toNat / u.2.2.1 else u.1 / (u.2.2.1 * 2 ^ (-sh).toNat)
      let y := atanFix q r
      let y := if sw then piFix q / 2 - y else y
      let y := if x then piFix q - y else y
      { neg := n, x := y.toNat, err := 2 ^ 24, e := -(q : Int) })
      zivSteps (200 + 3 * (topBit m e - topBit k d).natAbs)

/-- Is ±m × 2^e an odd integer? -/
def isOddInt (m : Nat) (e : Int) : Bool :=
  m != 0 && (if 0 ≤ e then decide (e = 0) && m % 2 == 1
             else m % 2 ^ (-e).toNat == 0 && (m / 2 ^ (-e).toNat) % 2 == 1)
/-- Is m × 2^e an integer? -/
def isInt (m : Nat) (e : Int) : Bool := decide (0 ≤ e) || m % 2 ^ (-e).toNat == 0

/-- m with its factors of two moved to the exponent. -/
def oddPart : Nat → Nat → Int → Nat × Int
  | 0, m, e => (m, e)
  | n + 1, m, e => if m % 2 = 0 then oddPart n (m / 2) (e + 1) else (m, e)

/-- The 2^k-th root of an odd number times 2^e, where it is exact. -/
def exactRoot : Nat → Nat → Int → Option (Nat × Int)
  | 0, m, e => some (m, e)
  | k + 1, m, e =>
    let r := isqrt m
    if r * r = m ∧ e % 2 = 0 then exactRoot k r (e / 2) else none

/-- x^y for positive x = m × 2^e and y = ±k × 2^d, where it is an exact dyadic number of moderate size. -/
def exactPow (m : Nat) (e : Int) (yneg : Bool) (k : Nat) (d : Int) : Option (Nat × Int) :=
  let x := oddPart (bitLen m) m e
  let y := oddPart (bitLen k) k d
  let base := if 0 ≤ y.2 then some x else if (-y.2).toNat ≤ 12 then exactRoot (-y.2).toNat x.1 x.2 else
    if x = (1, 0) then some x else none
  match base with
  | none => none
  | some r =>
    let n := y.1 * 2 ^ (min y.2.toNat 20)
    if r.1 = 1 then some (1, if yneg then -(r.2 * (n : Int)) else r.2 * (n : Int))
    else if yneg then none
    else if bitLen r.1 * n ≤ 4096 ∧ y.2 ≤ 12 then some (r.1 ^ n, r.2 * (n : Int))
    else none

/-- RoundTo(|A|^B) for finite non-zero A and B. -/
def powAbs (t : Ty) (rn : Rnd) (neg : Bool) (m : Nat) (e : Int) (yneg : Bool) (k : Nat) (d : Int) : FRes :=
  let l := lnFix 1400 m e
  if m = 2 ^ (bitLen m - 1) ∧ topBit m e = 0 then roundTo t rn neg 1 0 false
  else
    -- is |A|^B above or below 1, and how far is its logarithm from 0?
    let down := decide (l < 0) != yneg
    let mag := topBit l.natAbs (-1400) + topBit k d
    if 15 ≤ mag then (if down then tinyRes t rn neg else hugeRes t rn neg)
    else match exactPow m e yneg k d with
      | some r => roundTo t rn neg r.1 r.2 false
      | none =>
        if mag < -205 then (if down then nearBelow t rn neg 1 else nearAbove t rn neg 1)
        else ziv t rn (fun p =>
          let g := p + 40 + (topBit k d).natAbs
          let x := lnFix g m e
          let z := if 0 ≤ d then x * k * 2 ^ d.toNat else x * k / (2 ^ (-d).toNat : Int)
          let w := (if yneg then -z else z) / (2 ^ (g - p) : Int)
          let r := expParts p w
          { neg := neg, x := r.2, err := 2 ^ 40, e := r.1 - (p : Int) }) zivSteps 260

/-- RoundTo(A^B) with the cases of IEEE 754-2019 clause 9.2.1. -/
def fpPow (t : Ty) (rn : Rnd) (a b : FVal) : FRes :=
  let one := roundTo t rn false 1 0 false
  let inf := fun (n : Bool) (fl : BitVec 5) => finish t rn (.inf n, fl)
  let isOne := fOrder a fOne == 0 && !a.isNan
  if a = .nan true ∨ b = .nan true then (t.nan, fNV)
  else if b.isZero || isOne then one
  else if a.isNan || b.isNan then (t.nan, 0)
  else match a, b with
    | .num _ m e, .inf yn =>
      let c := fOrder (.num false m e) fOne
      if c = 0 then one
      else if m = 0 then (if yn then inf false 0 else (0, 0))
      else if (decide (c < 0)) == yn then inf false 0 else (0, 0)
    | .inf _, .inf yn => if yn then (0, 0) else inf false 0
    | .inf xn, .num yn k d =>
      let neg := xn && isOddInt k d
      if yn then (t.signBit neg, 0) else inf neg 0
    | .num xn m e, .num yn k d =>
      let neg := xn && isOddInt k d
      if m = 0 then (if yn then inf neg fDZ else (t.signBit neg, 0))
      else if xn && !isInt k d then (t.nan, fNV)
      else powAbs t rn neg m e yn k d
    | _, _ => (t.nan, 0)

end Sys2Proof.Machine
end

