-- ==== Sys2Proof/Machine/Flags.lean ====
section
/-! DEFINITION. Collecting the floating-point flags (spec/13_isa_float.md R369 to R371) and the shapes of a
floating-point instruction: one value and its flags for each lane. -/

namespace Sys2Proof.Machine

/-- The flags of the lanes that are active and not null ORed together; a uniform instruction collects once (R370). -/
def flagsOf (m : Mask) (vc : TokClass) (fl : Nat → BitVec 5) : BitVec 5 :=
  match vc with
  | .uni => if m = 0 then 0 else fl 0
  | _ => (lanesOf m).foldl (fun a l => a ||| fl l) 0

/-- A lane-wise floating-point instruction: each lane's result with its flags. -/
def fpLanes (f : Form) (l : Nat × Nat) (v : Env → Opnd → Nat → FRes) (s : State) : Out :=
  compute f l (fun env o =>
    (o.result f.vc o.nulls (fun i => w64 (v env o i).1), flagsOf o.live f.vc fun i => (v env o i).2)) s

/-- Slot a of a lane as a pattern. -/
def Opnd.av (o : Opnd) (i : Nat) : Nat := (lane o.a.vals i).toNat
/-- Slot b of a lane as a pattern. -/
def Opnd.bv (o : Opnd) (i : Nat) : Nat := (lane o.b.vals i).toNat
/-- Slot c of a lane as a pattern. -/
def Opnd.cv (o : Opnd) (i : Nat) : Nat := (lane o.c.vals i).toNat

/-- The rounding of an instruction that accepts every RM code: stochastic for 16 bits or fewer (R313, R373). -/
def Env.rndAll (v : Env) (f : Form) (l j : Nat) : Rnd := v.rnd f.rm (decide (f.ty.width ≤ 16)) l j
/-- The rounding of an instruction that does not accept 110. -/
def Env.rndNo (v : Env) (f : Form) (l : Nat) : Rnd := v.rnd f.rm false l 0

/-- FST with flags ORed into it (R370). -/
def orFlags (fst : W64) (fl : BitVec 5) : W64 := fst ||| fl.setWidth 64

/-- A write of FST: reserved bits read zero, and RMODE 111 writes 000 (R369). -/
def fstWrite (x : W64) : W64 :=
  let y := x &&& 0xFFFFFFFF0000071F
  if (y >>> 8) &&& 7 = 7 then y &&& 0xFFFFFFFF0000001F else y

end Sys2Proof.Machine
end

