-- ==== Sys2Proof/Machine/FpOps.lean ====
section
/-! DEFINITION. Group 10: scalar and packed floating point (spec/13_isa_float.md R373 to R388) and the cross-lane
reductions `redux` and `scan` (spec/12_isa_control_integer.md R349, R350). -/

namespace Sys2Proof.Machine

/-- Latencies of the division row of R202; f16 and bf16 take the f32 row (R375). -/
def latDivF (t : Ty) : Nat × Nat := if t = .f64 then (24, 25) else (16, 17)

/-! ### Scalar arithmetic (R374 to R378) -/

/-- `fadd`. -/
def execFadd (f : Form) (s : State) : Out :=
  fpLanes f latFp (fun v o i => fpAdd f.ty (v.rndAll f i 0) (o.av i) (o.bv i)) s
/-- `fsub`. -/
def execFsub (f : Form) (s : State) : Out :=
  fpLanes f latFp (fun v o i => fpSub f.ty (v.rndAll f i 0) (o.av i) (o.bv i)) s
/-- `fmul`. -/
def execFmul (f : Form) (s : State) : Out :=
  fpLanes f latFp (fun v o i => fpMul f.ty (v.rndAll f i 0) (o.av i) (o.bv i)) s
/-- `fma`. -/
def execFma (f : Form) (s : State) : Out :=
  fpLanes f latFp (fun v o i => fpFma f.ty (v.rndAll f i 0) (o.av i) (o.bv i) (o.cv i)) s
/-- `fdiv`. -/
def execFdiv (f : Form) (s : State) : Out :=
  fpLanes f (latDivF f.ty) (fun v o i => fDiv f.ty (v.rndAll f i 0) (fIn f.ty (o.av i)) (fIn f.ty (o.bv i))) s
/-- `fsqrt`. -/
def execFsqrt (f : Form) (s : State) : Out :=
  fpLanes f (latDivF f.ty) (fun v o i => fSqrt f.ty (v.rndAll f i 0) (fIn f.ty (o.av i))) s
/-- `frcp`. -/
def execFrcp (f : Form) (s : State) : Out :=
  fpLanes f (latDivF f.ty) (fun v o i => fDiv f.ty (v.rndAll f i 0) fOne (fIn f.ty (o.av i))) s
/-- `frsqrt`. -/
def execFrsqrt (f : Form) (s : State) : Out :=
  fpLanes f (latDivF f.ty) (fun v o i => fRsqrt f.ty (v.rndAll f i 0) (fIn f.ty (o.av i))) s
/-- `fmin` (R376). -/
def execFmin (f : Form) (s : State) : Out := fpLanes f latFp (fun _ o i => fpMinMax f.ty false (o.av i) (o.bv i)) s
/-- `fmax` (R376). -/
def execFmax (f : Form) (s : State) : Out := fpLanes f latFp (fun _ o i => fpMinMax f.ty true (o.av i) (o.bv i)) s
/-- `fabs` (R376): clears the sign bit, no flag. -/
def execFabs (f : Form) (s : State) : Out :=
  fpLanes f latFp (fun _ o i => (o.av i % 2 ^ (f.ty.width - 1), 0)) s
/-- `fneg` (R376): inverts the sign bit, no flag. -/
def execFneg (f : Form) (s : State) : Out :=
  fpLanes f latFp (fun _ o i => (o.av i % 2 ^ f.ty.width ^^^ 2 ^ (f.ty.width - 1), 0)) s

/-- The relation of `fcmp`, and whether it signals on a quiet NaN (R377). -/
def fcmpHolds (r : FCmpRel) (a b : FVal) : Bool × BitVec 5 :=
  let un := a.isNan || b.isNan
  let c := fOrder a b
  let sig := sigFlag [a, b]
  let sg := if un then fNV else sig
  match r with
  | .eq => (!un && c == 0, sig)
  | .ne => (un || c != 0, sig)
  | .lt => (!un && decide (c < 0), sg)
  | .le => (!un && decide (c ≤ 0), sg)
  | .gt => (!un && decide (0 < c), sg)
  | .ge => (!un && decide (0 ≤ c), sg)
  | .un => (un, sig)
  | .nn => (!un, sig)

/-- `fcmp` (R377). -/
def execFcmp (f : Form) (r : FCmpRel) (s : State) : Out :=
  fpLanes f latFp (fun _ o i =>
    let x := fcmpHolds r (fIn f.ty (o.av i)) (fIn f.ty (o.bv i))
    (if x.1 then 1 else 0, x.2)) s

/-- The bit of `fclass` (R378). -/
def classBit (t : Ty) (a : FVal) : Nat :=
  match a with
  | .nan sig => if sig then 8 else 9
  | .inf n => if n then 0 else 7
  | .num n m e =>
    if m = 0 then (if n then 3 else 4)
    else if topBit m e < 1 - (t.bias : Int) then (if n then 2 else 5)
    else if n then 1 else 6

/-- `fclass` (R378). -/
def execFclass (f : Form) (s : State) : Out :=
  fpLanes f latFp (fun _ o i => (2 ^ classBit f.ty (fIn f.ty (o.av i)), 0)) s

/-! ### Conversions (R379 to R383) -/

/-- `fcvt` (R379). -/
def execFcvt (f : Form) (src : Ty) (s : State) : Out :=
  fpLanes f latFp (fun v o i => fpConvert f.ty (v.rndAll f i 0) (fIn src (o.av i))) s

/-- `fcvti` of one value (R380). -/
def toInt (t : Ty) (mode : Nat) (a : FVal) : W64 × BitVec 5 :=
  match a with
  | .nan _ => (0, fNV)
  | .inf n => (outI (if n then lo t else hi t), fNV)
  | .num n m e =>
    let r := roundInt mode n m e
    let z : Int := if n then -(r.1 : Int) else r.1
    if hi t < z then (outI (hi t), fNV)
    else if z < lo t then (outI (lo t), fNV)
    else (outI z, if r.2 then fNX else 0)

/-- `fcvti` (R380). -/
def execFcvti (f : Form) (src : Ty) (s : State) : Out :=
  fpLanes f latFp (fun v o i =>
    let r := toInt f.ty (v.rndNo f i).mode (fIn src (o.av i))
    (r.1.toNat, r.2)) s

/-- `icvtf` of one integer (R381): 0 gives +0. -/
def ofInt (t : Ty) (rn : Rnd) (z : Int) : FRes := roundTo t rn (decide (z < 0)) z.natAbs 0 false

/-- `icvtf` (R381). -/
def execIcvtf (f : Form) (src : Ty) (s : State) : Out :=
  fpLanes f latFp (fun v o i => ofInt f.ty (v.rndAll f i 0) (ext src (lane o.a.vals i))) s

/-- `frnd` (R382): never NX. -/
def execFrnd (f : Form) (s : State) : Out :=
  fpLanes f latFp (fun v o i =>
    match fIn f.ty (o.av i) with
    | .num n m e =>
      if 0 ≤ e then (o.av i % 2 ^ f.ty.width, 0)
      else ((roundTo f.ty ⟨0, 0⟩ n (roundInt (v.rndNo f i).mode n m e).1 0 false).1, 0)
    | a => finish f.ty ⟨0, 0⟩ (a, sigFlag [a])) s

/-- A × 2^n (R383); an n beyond every format acts as the nearest that is not. -/
def ldx (t : Ty) (rn : Rnd) (a : FVal) (n : Int) : FRes :=
  match a with
  | .num x m e => roundTo t rn x m (e + max (-20000) (min 20000 n)) false
  | a => finish t rn (a, sigFlag [a])

/-- `fldx` (R383). -/
def execFldx (f : Form) (s : State) : Out :=
  fpLanes f latFp (fun v o i => ldx f.ty (v.rndAll f i 0) (fIn f.ty (o.av i)) (lane o.b.vals i).toInt) s

/-- The fraction and exponent of `ffrx` (R383). -/
def frx (t : Ty) (x : Nat) : FRes × Int :=
  match fIn t x with
  | .num n m e =>
    if m = 0 then ((x % 2 ^ t.width, 0), 0)
    else (roundTo t ⟨0, 0⟩ n m (-(bitLen m : Int)) false, topBit m e + 1)
  | a => (finish t ⟨0, 0⟩ (a, sigFlag [a]), 0)

/-- `ffrx` (R383): a pair. -/
def execFfrx (f : Form) (s : State) : Out :=
  computePair f latFp (fun _ o =>
    ((o.result f.vc o.nulls (fun i => w64 (frx f.ty (o.av i)).1.1),
      o.result f.vc o.nulls (fun i => outI (frx f.ty (o.av i)).2)),
     flagsOf o.live f.vc fun i => (frx f.ty (o.av i)).1.2)) s

/-! ### Functions (R384, R385) -/

/-- The latency of a function: 64 in fixed timing; in elastic timing 14 on the fast path, up to 64 on the slow one, which
the spec leaves open (R385). -/
def State.latFun (s : State) : Nat × Nat :=
  if s.fixedTiming then (64, 65)
  else
    let n := 14 + Config.slowPath s.free % 51
    (n, n + 1)

/-- A correctly rounded function. Under elastic timing it uses up one free value. -/
def fpFun (f : Form) (v : Rnd → FVal → FVal → FRes) (s : State) : Out :=
  let s' := if s.fixedTiming then s else { s with free := s.free + 1 }
  fpLanes f s.latFun (fun env o i => v (env.rndNo f i) (fIn f.ty (o.av i)) (fIn f.ty (o.bv i))) s'

/-- `fexp`. -/
def execFexp (f : Form) (s : State) : Out := fpFun f (fun r a _ => fpExp f.ty r a) s
/-- `fexp2`. -/
def execFexp2 (f : Form) (s : State) : Out := fpFun f (fun r a _ => fpExp2 f.ty r a) s
/-- `flog`. -/
def execFlog (f : Form) (s : State) : Out := fpFun f (fun r a _ => fpLog false f.ty r a) s
/-- `flog2`. -/
def execFlog2 (f : Form) (s : State) : Out := fpFun f (fun r a _ => fpLog true f.ty r a) s
/-- `fsin`. -/
def execFsin (f : Form) (s : State) : Out := fpFun f (fun r a _ => fpTrig false f.ty r a) s
/-- `fcos`. -/
def execFcos (f : Form) (s : State) : Out := fpFun f (fun r a _ => fpTrig true f.ty r a) s
/-- `ftanh`. -/
def execFtanh (f : Form) (s : State) : Out := fpFun f (fun r a _ => fpTanh f.ty r a) s
/-- `flgst`. -/
def execFlgst (f : Form) (s : State) : Out := fpFun f (fun r a _ => fpLogistic f.ty r a) s
/-- `ferf`. -/
def execFerf (f : Form) (s : State) : Out := fpFun f (fun r a _ => fpErf f.ty r a) s
/-- `fatan2`. -/
def execFatan2 (f : Form) (s : State) : Out := fpFun f (fun r a b => fpAtan2 f.ty r a b) s
/-- `fpow`. -/
def execFpow (f : Form) (s : State) : Out := fpFun f (fun r a b => fpPow f.ty r a b) s

/-! ### Packed 16-bit instructions (R386 to R388) -/

/-- Element j of a packed operand, w bits each. -/
def elem (w x j : Nat) : Nat := x / 2 ^ (w * j) % 2 ^ w

/-- Packs n elements of w bits with their flags ORed. -/
def packed (w n : Nat) (v : Nat → FRes) : FRes :=
  (List.range n).foldl (fun a j => (a.1 + (v j).1 * 2 ^ (w * j), a.2 ||| (v j).2)) (0, 0)

/-- A packed instruction of four 16-bit elements. -/
def packOp (f : Form) (v : Rnd → Nat → Nat → Nat → FRes) (s : State) : Out :=
  fpLanes f latFp (fun env o i => packed 16 4 fun j =>
    v (env.rndAll f i j) (elem 16 (o.av i) j) (elem 16 (o.bv i) j) (elem 16 (o.cv i) j)) s

/-- `pfma`. -/
def execPfma (f : Form) (s : State) : Out := packOp f (fun r a b c => fpFma f.ty r a b c) s
/-- `padd`. -/
def execPadd (f : Form) (s : State) : Out := packOp f (fun r a b _ => fpAdd f.ty r a b) s
/-- `pmul`. -/
def execPmul (f : Form) (s : State) : Out := packOp f (fun r a b _ => fpMul f.ty r a b) s
/-- `pmax`. -/
def execPmax (f : Form) (s : State) : Out := packOp f (fun _ a b _ => fpMinMax f.ty true a b) s

/-- `pcvt` of one lane (R388). -/
def pcvtLane (f : Form) (k : PcvtKind) (src : Ty) (rn : Nat → Rnd) (a b : Nat) : FRes :=
  match k with
  | .lo => packed 32 2 fun j => fpConvert f.ty (rn j) (fIn src (elem 16 a j))
  | .hi => packed 32 2 fun j => fpConvert f.ty (rn j) (fIn src (elem 16 a (j + 2)))
  | .pk => packed 16 4 fun j => fpConvert f.ty (rn j) (fIn src (if j < 2 then elem 32 a j else elem 32 b (j - 2)))
  | .p8 => packed f.ty.width 4 fun j => fpConvert f.ty (rn j) (fIn src (elem 16 a j))
  | .u8 => packed 16 4 fun j => fpConvert f.ty (rn j) (fIn src (elem src.width a j))

/-- `pcvt` (R388). -/
def execPcvt (f : Form) (k : PcvtKind) (src : Ty) (s : State) : Out :=
  fpLanes f latFp (fun v o i => pcvtLane f k src (v.rndAll f i) (o.av i) (o.bv i)) s

/-- The sum c + Σ products, exactly; NV for 0 × ∞ and for unlike infinities even beside a NaN input (R387). -/
def dotSum (mode : Nat) (c : FVal) (ps : List (FVal × FVal)) : FVal × BitVec 5 :=
  let ins := c :: ps.flatMap fun p => [p.1, p.2]
  let prods := ps.map fun p => fMul p.1 p.2
  let terms := c :: prods.map (·.1)
  let unlike := terms.contains (.inf true) && terms.contains (.inf false)
  let fl := sigFlag ins ||| (prods.foldl (fun a p => a ||| p.2) 0) ||| (if unlike then fNV else 0)
  if terms.any (·.isNan) || unlike then (.nan false, fl)
  else if terms.contains (.inf true) then (.inf true, fl)
  else if terms.contains (.inf false) then (.inf false, fl)
  else
    -- an exact zero sum of zeros of like sign keeps the sign
    let allNeg := terms.all fun t => t.isZero && t.neg
    let allPos := terms.all fun t => t.isZero && !t.neg
    let sum := (prods.foldl (fun a p => (fAdd mode a p.1).1) c)
    match sum with
    | .num n m e => (.num (if m = 0 then (if allNeg then true else if allPos then false else mode == 2) else n) m e, fl)
    | x => (x, fl)

/-- `pdot` (R387): one f32 result. -/
def execPdot (f : Form) (s : State) : Out :=
  fpLanes f latFp (fun v o i =>
    let rn := v.rndNo f i
    finish .f32 rn (dotSum rn.mode (fIn .f32 (o.cv i))
      ((List.range 4).map fun j => (fIn f.ty (elem 16 (o.av i) j), fIn f.ty (elem 16 (o.bv i) j))))) s

/-! ### Reductions over the lanes (R349, R350) -/

/-- Node(x, y) of R349 on w-bit patterns, with its flags. -/
def redNode (op : RedOp) (t : Ty) (rn : Rnd) (x y : Nat) : FRes :=
  if t.isFloat then
    match op with
    | .add => fpAdd t rn x y
    | .min => fpMinMax t false x y
    | .max => fpMinMax t true x y
    | _ => (x, 0)
  else
    let a := ext t (w64 x)
    let b := ext t (w64 y)
    match op with
    | .add => (pat t (a + b), 0)
    | .min => (pat t (min a b), 0)
    | .max => (pat t (max a b), 0)
    | .and => (x &&& y, 0)
    | .or => (x ||| y, 0)
    | .xor => (x ^^^ y, 0)

/-- Identity(op, T) of R349 as a pattern. -/
def redIdentity (op : RedOp) (t : Ty) : Nat :=
  if t.isFloat then
    match op with
    | .add => t.signBit true
    | .min => t.infEnc false
    | _ => t.infEnc true
  else
    match op with
    | .add | .or | .xor => 0
    | .min => pat t (hi t)
    | .max => pat t (lo t)
    | .and => 2 ^ t.width - 1


/-- The node of the block of 2^m lanes from lane lo, with the flags raised below it (R349). -/
def redBlock (node : Nat → Nat → FRes) (x : Nat → Nat) : Nat → Nat → FRes
  | 0, l => (x l, 0)
  | m + 1, l =>
    let a := redBlock node x m l
    let b := redBlock node x m (l + 2 ^ m)
    let r := node a.1 b.1
    (r.1, a.2 ||| b.2 ||| r.2)

/-- A pattern delivered: Out for integers, zero-extended for floats. -/
def outPat (t : Ty) (x : Nat) : W64 := if t.isFloat then w64 x else outI (ext t (w64 x))

/-- The lanes' entries: a where the lane contributes, the identity elsewhere. -/
def redEntry (o : Opnd) (op : RedOp) (t : Ty) (l : Nat) : Nat :=
  if o.contributes.getLsbD l then o.av l % 2 ^ t.width else redIdentity op t

/-- `redux` (R349). -/
def execRedux (f : Form) (op : RedOp) (s : State) : Out :=
  compute f latRed (fun v o =>
    let r := redBlock (redNode op f.ty (v.rndNo f 0)) (redEntry o op f.ty) 5 0
    (o.result f.vc o.crossNulls fun _ => outPat f.ty r.1, if o.contributes = 0 then 0 else r.2)) s

/-- The prefix of the first n lanes: the blocks that the set bits of n cover, from the highest (R350). -/
def scanPrefix (node : Nat → Nat → FRes) (x : Nat → Nat) (ident n : Nat) : FRes :=
  (([5, 4, 3, 2, 1, 0].filter fun m => n.testBit m).foldl (fun (st : Option FRes × Nat) m =>
      let b := redBlock node x m st.2
      (match st.1 with
       | none => some b
       | some a => let r := node a.1 b.1; some (r.1, a.2 ||| b.2 ||| r.2), st.2 + 2 ^ m)) (none, 0)).1.getD (ident, 0)

/-- `scan` (R350): only the lane's own predicate makes its result null. -/
def execScan (f : Form) (op : RedOp) (excl : Bool) (s : State) : Out :=
  compute f latRed (fun v o =>
    let r := fun (l : Nat) => scanPrefix (redNode op f.ty (v.rndNo f 0)) (redEntry o op f.ty) (redIdentity op f.ty)
      (if excl then l else l + 1)
    (o.result .lane (~~~o.pred) fun l => outPat f.ty (r l).1,
     flagsOf (o.act &&& o.pred) .lane fun l => (r l).2)) s

end Sys2Proof.Machine
end

