-- ==== Sys2Proof/Machine/Badger.lean ====
section
/-! DEFINITION. Badger operations (spec/03_pool.md R82 to R88, spec/15_isa_tile_copy_pool.md R453 to R456): the descriptor, its checks
and page list at the commit point, and what an operation reads, writes and results in. -/

namespace Sys2Proof.Machine

/-! ### The descriptor and its checks (R454, R455) -/

/-- The operation that a descriptor of 64 bytes asks for. -/
def badgerDesc (kind : BadgerKind) (gang ctx : Nat) (elem outty : Ty) (fn : BadgerFn) (rm : BitVec 3) (bs : List Byte) : BadgerOp :=
  let f := fun (a n : Nat) => fieldOf bs a n
  { kind := kind, gang := gang, ctx := ctx, dst := w64 (f 0 8), src := w64 (f 8 8), idx := w64 (f 16 8), status := w64 (f 24 8),
    len := w64 (f 32 8), stride := w64 (f 40 8), fill := w64 (f 48 8), n := BitVec.ofNat 32 (f 56 4), bound := BitVec.ofNat 32 (f 60 4),
    elem := elem, fn := fn, outty := outty, rm := rm, pages := [] }

end Sys2Proof.Machine

namespace Sys2Proof

/-- `predx` and `pgath`. -/
def BadgerOp.reduces (o : BadgerOp) : Bool := o.kind == .redx || o.kind == .gath
/-- Bytes of an element. -/
def BadgerOp.es (o : BadgerOp) : Nat := o.elem.width / 8
/-- Bytes that the destination takes. -/
def BadgerOp.outLen (o : BadgerOp) : Nat :=
  if o.reduces then o.len.toNat / o.es * (o.outty.width / 8) else if o.kind = .cmp then 0 else o.len.toNat

/-- The fault of a descriptor (R84, R455): code and subcode. -/
def BadgerOp.fault (o : BadgerOp) : Option (Nat × Nat) :=
  let len := o.len.toNat
  let bad := if o.reduces then
      decide (65536 < len) || len % o.es != 0 || o.stride.toNat % 8 != 0 ||
        decide ((if o.kind = .redx then 2 ^ 24 else 65536) < o.n.toNat)
    else decide (2 ^ 32 < len)
  if bad then some (1, 19)
  else if o.dst.toNat % 8 != 0 || (o.kind != .fill && o.src.toNat % 8 != 0) || len % 8 != 0 ||
      (o.kind == .gath && o.idx.toNat % 4 != 0) || o.status.toNat % 16 != 0 then some (7, 0)
  else none

/-- The ranges that an operation covers: address, length, whether it is written. -/
def BadgerOp.ranges (o : BadgerOp) : List (Nat × Nat × Bool) :=
  let len := o.len.toNat
  let src := o.src.toNat
  let none_ := len == 0
  (o.status.toNat, 16, true) ::
  (match o.kind with
   | .fill => [(o.dst.toNat, len, true)]
   | .copy => [(o.dst.toNat, len, true), (src, len, false)]
   | .cmp => [(src, len, false), (o.dst.toNat, len, false)]
   | .redx => (o.dst.toNat, o.outLen, true) ::
       (if none_ then [] else (List.range o.n.toNat).map fun r => (src + r * o.stride.toNat, len, false))
   | .gath => (o.dst.toNat, o.outLen, true) ::
       (if none_ then [] else [(src, o.bound.toNat * o.stride.toNat, false), (o.idx.toNat, 4 * o.n.toNat, false)]))

/-- The pool-logical address of a byte of an operation. -/
def BadgerOp.addr (o : BadgerOp) (va : Nat) : Nat :=
  ((o.pages.find? fun p => p.1 == va / 2 ^ 17).map (·.2)).getD 0 * 2 ^ 17 + va % 2 ^ 17

/-- The reduction as a lane operation. -/
def BadgerFn.red : BadgerFn → RedOp
  | .add => .add | .min => .min | .max => .max

/-- A row of fill values. -/
def BadgerOp.fillRow (o : BadgerOp) : List Byte :=
  (List.range (o.len.toNat / o.es)).flatMap fun _ => Machine.bytesOf o.es o.fill.toNat

/-- The code of an end. -/
def EndStatus.code : EndStatus → Nat
  | .done => 0 | .homeLost => 1 | .memUncorrectable => 2

end Sys2Proof

namespace Sys2Proof.Machine

/-- The pages of a range, translated one after another; a page that fails gives the fault and its address. -/
def State.coverPages (s : State) (ctx : Nat) (a : Acc) (va : Nat) : List Nat → List (Nat × Nat) →
    Except (Fail × Nat) (List (Nat × Nat)) × State
  | [], acc => (.ok acc, s)
  | p :: rest, acc =>
    let at_ := max va (p * 2 ^ 17)
    let r := s.translate ctx at_ a
    match r.1 with
    | .error x => (.error (x, at_), r.2)
    | .ok l => State.coverPages r.2 ctx a va rest (if acc.any (fun q => q.1 == p) then acc else acc ++ [(p, pageOf l)])

/-- Every range of an operation translated page by page (R82). -/
def State.coverRanges (s : State) (ctx : Nat) : List (Nat × Nat × Bool) → List (Nat × Nat) →
    Except (Fail × Nat) (List (Nat × Nat)) × State
  | [], acc => (.ok acc, s)
  | (va, n, w) :: rest, acc =>
    if n = 0 then State.coverRanges s ctx rest acc
    else
      let p := va / 2 ^ 17
      let r := s.coverPages ctx { write := w, sup := s.g.sup } va ((List.range ((va + n - 1) / 2 ^ 17 + 1 - p)).map (· + p)) acc
      match r.1 with
      | .error x => (.error x, r.2)
      | .ok acc' => State.coverRanges r.2 ctx rest acc'

/-- The checks and translations of the commit point: the operation with its page list, or a fault with its address. -/
def State.badgerPrepare (s : State) (o : BadgerOp) : Except (Fail × Nat) BadgerOp × State :=
  match o.fault with
  | some x => (.error (x, 0), s)
  | none =>
    let r := s.coverRanges o.ctx o.ranges []
    (r.1.map fun ps => { o with pages := ps }, r.2)

/-! ### Reads and writes through the page list -/

/-- The lead home (R82): the current home of the first destination byte, of the first source byte for `pcmp`, or of the
completion record when the ranges hold no byte. -/
def State.leadHome (s : State) (o : BadgerOp) : Nat :=
  let va := if o.len = 0 then o.status else if o.kind = .cmp then o.src else o.dst
  s.homeOf (pageOf (o.addr va.toNat))

/-- Why a line cannot be reached, if it cannot: its home is lost, or its data. -/
def State.lineFails (s : State) (a : Nat) : Option EndStatus :=
  if s.stackLost (s.homeOf (pageOf a)) then some .homeLost else if s.lineLost a then some .memUncorrectable else none

/-- Bytes of an operation read; the first line that cannot be read gives the failure. -/
def State.badgerRead (s : State) (o : BadgerOp) (va n : Nat) : Except EndStatus (List Byte) :=
  let as := (List.range n).map fun i => o.addr (va + i)
  match as.filterMap s.lineFails with
  | e :: _ => .error e
  | [] => .ok (as.map s.poolByte)

/-- Bytes from an address on cut at line boundaries, with fuel. -/
def cutLines : Nat → Nat → List Byte → List (Nat × List Byte)
  | 0, _, _ => []
  | k + 1, va, bs =>
    if bs.isEmpty then []
    else (va, bs.take (256 - va % 256)) :: cutLines k (va + (256 - va % 256)) (bs.drop (256 - va % 256))

/-- The bytes of one line written, unless an earlier line failed: a lost home, or lost data into which the bytes would have to merge
(01 R37), is a failure. -/
def badgerLine (o : BadgerOp) (w : Option EndStatus × State) (r : Nat × List Byte) : Option EndStatus × State :=
  let a := o.addr r.1
  let as := (List.range r.2.length).map (a + ·)
  if w.1.isSome then w
  else if w.2.stackLost (w.2.homeOf (pageOf a)) then (some .homeLost, w.2)
  else if w.2.mergesLost as then (some .memUncorrectable, w.2)
  else (none, (w.2.writeCells (as.zip r.2)).clearLost as)

/-- Bytes of an operation written in increasing address up to the first line that cannot be written. -/
def State.badgerWrite (s : State) (o : BadgerOp) (va : Nat) (bs : List Byte) : Option EndStatus × State :=
  (cutLines (bs.length / 256 + 2) va bs).foldl (badgerLine o) (none, s)

/-! ### Reductions (R85, R86) -/

/-- The type in which a node works. -/
def nodeTy (t : Ty) : Ty := if t = .f16 ∨ t = .bf16 then .f32 else t

/-- An element's pattern widened exactly to its node type; a signalling NaN stays one. -/
def widen (t : Ty) (x : Nat) : Nat :=
  if t = .bf16 then x * 2 ^ 16
  else if t = .f16 then
    match fIn .f16 x with
    | .nan true => 0x7FA00000
    | .nan false => 0x7FC00000
    | v => (fpConvert .f32 ⟨0, 0⟩ v).1
  else x

/-- One level of the tree: pairs joined, an unpaired last entry passed up; the flags of its nodes. -/
def treeLevel (node : Nat → Nat → FRes) : List Nat → List Nat × BitVec 5
  | x :: y :: r =>
    let n := node x y
    let rest := treeLevel node r
    (n.1 :: rest.1, n.2 ||| rest.2)
  | l => (l, 0)

/-- The tree of R85 over a list, with as many levels as its fuel allows. -/
def treeOf (node : Nat → Nat → FRes) : Nat → List Nat → BitVec 5 → List Nat × BitVec 5
  | 0, l, fl => (l, fl)
  | k + 1, l, fl =>
    match l with
    | [] | [_] => (l, fl)
    | _ => let r := treeLevel node l; treeOf node k r.1 (fl ||| r.2)

/-- One column: the result pattern in the output type, and flags. -/
def badgerColumn (o : BadgerOp) (xs : List Nat) : FRes :=
  let t := nodeTy o.elem
  let r := treeOf (redNode o.fn.red t ⟨0, 0⟩) (bitLen xs.length + 1) (xs.map (widen o.elem)) 0
  match r.1 with
  | [] => (redIdentity o.fn.red o.outty, 0)
  | x :: _ =>
    if t.isFloat then
      let c := fpConvert o.outty ⟨o.rm.toNat, 0⟩ (fIn t x)
      (c.1, r.2 ||| c.2)
    else (x, r.2)

/-- Every column of some rows: the bytes of the result row and the flags. -/
def badgerColumns (o : BadgerOp) (rows : List (List Byte)) : List Byte × BitVec 5 :=
  let cs := (List.range (o.len.toNat / o.es)).map fun c =>
    badgerColumn o (rows.map fun r => natOf ((r.drop (c * o.es)).take o.es))
  (cs.flatMap fun c => bytesOf (o.outty.width / 8) c.1, cs.foldl (fun a c => a ||| c.2) 0)

/-- The rows of `predx`, in order. -/
def State.redxRows (s : State) (o : BadgerOp) : Except EndStatus (List (List Byte)) :=
  (List.range o.n.toNat).mapM fun r => s.badgerRead o (o.src.toNat + r * o.stride.toNat) o.len.toNat

/-- The rows of `pgath`: each index read once, in order; the count of those out of range. -/
def State.gathRows (s : State) (o : BadgerOp) : Except EndStatus (List (List Byte) × Nat) := do
  let rs ← (List.range o.n.toNat).mapM fun (p : Nat) => do
    let i := natOf (← s.badgerRead o (o.idx.toNat + 4 * p) 4)
    if o.bound.toNat ≤ i then pure (o.fillRow, 1)
    else pure (← s.badgerRead o (o.src.toNat + i * o.stride.toNat) o.len.toNat, 0)
  pure (rs.map (·.1), (rs.map (·.2)).foldl (· + ·) 0)

/-- Record flags from floating-point flags: invalid, overflow, inexact. -/
def badgerFlags (fl : BitVec 5) (oor : Nat) : BitVec 8 :=
  (if fl &&& fNV = 0 then 0 else 1) ||| (if fl &&& fOF = 0 then 0 else 2) ||| (if fl &&& fNX = 0 then 0 else 4) |||
  (if oor = 0 then 0 else 8)

/-- The offset of the first byte that differs. -/
def firstDiff : Nat → List Byte → List Byte → Option Nat
  | n, x :: xs, y :: ys => if x = y then firstDiff (n + 1) xs ys else some n
  | _, _, _ => none

/-- Writes of a result that were made, closing a run. -/
def badgerEnd (run : BadgerRun) (n : Nat) (w : Option EndStatus × State) : BadgerRun × State :=
  match w.1 with
  | some e => ({ run with status := e }, w.2)
  | none => ({ run with result := w64 n }, w.2)

/-- The pattern of `pfill` over a number of bytes. -/
def fillBytes (x : W64) (n : Nat) : List Byte := (List.range (n / 8)).flatMap fun _ => bytesOf 8 x.toNat

/-- An operation performed (R84): what its record will say, and memory. -/
def State.badgerPerform (s : State) (run : BadgerRun) : BadgerRun × State :=
  let o := run.op
  let len := o.len.toNat
  if len = 0 then ({ run with result := if o.kind = .cmp then 0xFFFFFFFFFFFFFFFF else 0 }, s)
  else match o.kind with
  | .fill => badgerEnd run len (s.badgerWrite o o.dst.toNat (fillBytes o.fill len))
  | .copy =>
    match s.badgerRead o o.src.toNat len with
    | .error e => ({ run with status := e }, s)
    | .ok bs => badgerEnd run len (s.badgerWrite o o.dst.toNat bs)
  | .cmp =>
    match s.badgerRead o o.src.toNat len, s.badgerRead o o.dst.toNat len with
    | .ok a, .ok b => ({ run with result := match firstDiff 0 a b with | some n => w64 n | none => 0xFFFFFFFFFFFFFFFF }, s)
    | .error e, _ => ({ run with status := e }, s)
    | _, .error e => ({ run with status := e }, s)
  | .redx =>
    match s.redxRows o with
    | .error e => ({ run with status := e }, s)
    | .ok rows =>
      let r := badgerColumns o rows
      badgerEnd { run with flags := badgerFlags r.2 0 } r.1.length (s.badgerWrite o o.dst.toNat r.1)
  | .gath =>
    match s.gathRows o with
    | .error e => ({ run with status := e }, s)
    | .ok rows =>
      let r := badgerColumns o rows.1
      badgerEnd { run with flags := badgerFlags r.2 rows.2, oor := rows.2 } r.1.length (s.badgerWrite o o.dst.toNat r.1)

/-- The completion record (R87). -/
def BadgerRun.bytes (r : BadgerRun) : List Byte :=
  bytesOf 8 r.result.toNat ++ bytesOf 1 r.status.code ++ [r.flags] ++ bytesOf 2 (min r.oor 65535) ++ List.replicate 4 0

end Sys2Proof.Machine
end

