-- ==== Sys2Proof/Machine/Image.lean ====
section
/-! DEFINITION. The context image of a gang (spec/08_translation_faults.md R254), as 64-bit words: word w holds bytes
[8 w + 7 : 8 w]. Lines 0 to 129 and the supervisor bank are the register words themselves. -/

namespace Sys2Proof.Machine

/-- A 64-bit word from two 32-bit halves, low half first. -/
def pairW (l h : Nat) : W64 := w64 (l % 2 ^ 32 + h % 2 ^ 32 * 2 ^ 32)

/-- The 4 bytes that stand for k register n: those of k0 hold W while a regang is pending, all ones otherwise (R337). -/
def Gang.kWord (g : Gang) (n : Nat) : Nat :=
  if n = 0 then (if g.rset = 0 then 0xFFFFFFFF else g.rmask.toNat) else (g.ks.getD n 0).toNat

/-- Word w of line 130. -/
def Gang.line130 (g : Gang) (w : Nat) : W64 :=
  if w < 8 then pairW (g.kWord (2 * w)) (g.kWord (2 * w + 1))
  else if w = 8 then pairW g.exm.toNat g.flm.toNat
  else if w = 9 then pairW g.sfmask.toNat g.sfcode.toNat
  else if w = 10 then pairW (g.sfcode.toNat / 2 ^ 32) ((g.xinv.getD 0 0).toNat)
  else if w = 11 then pairW (g.xinv.getD 1 0).toNat (g.xinv.getD 2 0).toNat
  else if w = 12 then pairW (g.xinv.getD 3 0).toNat g.rset.toNat
  else if w = 13 then g.rtgt
  else 0

/-- A path as the image holds it: address bits [55:4] with the lane mask in bits [3:0] (R254). -/
def PathEntry.word (p : PathEntry) : W64 := (p.addr &&& 0x00FFFFFFFFFFFFF0) ||| p.lanes.setWidth 64

/-- Word w of line 131: the slices' paths, stacks bottom first. -/
def Gang.line131 (g : Gang) (w : Nat) : W64 :=
  let sl := g.slices.getD (w / 4) {}
  if w % 4 = 0 then (if sl.cur.lanes = 0 then 0 else sl.cur.word)
  else match sl.stack.reverse[w % 4 - 1]? with
    | some p => p.word
    | none => 0

/-- Byte j of the split table (R254). -/
def splitWord (l : List (BitVec 8)) : Nat := natOf (((l.map fun x => (x : Byte)) ++ List.replicate 8 0).take 8)

/-- Outstanding operations of an in-flight counter (R406). -/
def inFlight (l : List Flight) : Nat := l.length

/-- Word w of line 132. -/
def Gang.line132 (g : Gang) (w : Nat) : W64 :=
  let sp := splitWord g.splits
  if w = 0 then g.lck
  else if w = 1 then g.lgid
  else if w = 2 then g.fst
  else if w = 3 then
    pairW (inFlight g.flST + inFlight g.flCP * 2 ^ 8 + inFlight g.flTA * 2 ^ 16 + inFlight g.flSF * 2 ^ 24) 0
  else if w = 4 then pairW 0 (sp % 2 ^ 32)
  else if w = 5 then w64 (sp / 2 ^ 32 % 2 ^ 32 + g.quota * 2 ^ 32 % 2 ^ 48 + g.poll * 2 ^ 48 % 2 ^ 64)
  else if w = 6 then
    w64 ((if g.sup then 1 else 0) + (if g.parked then 2 else 0) + (if g.excluded then 4 else 0))
  else 0

/-- A word of lines 130 to 145. -/
def Gang.sysWord (g : Gang) (line w : Nat) : W64 :=
  if line = 130 then g.line130 w
  else if line = 131 then g.line131 w
  else if line = 132 then g.line132 w
  else if line = 133 then (if w = 0 then g.saveFst else if w = 1 then w64 (splitWord g.saveSplits) else 0)
  else if line < 142 then lane (tget g.held (line - 134) []) w
  else if line = 142 then
    (if w = 0 then g.fcause else if w = 1 then g.fpc else if w = 2 then pairW g.flm.toNat 0
     else if w = 3 then g.hfcause else if w = 4 then g.hfpc else 0)
  else if line = 143 then lane g.fva w
  else if line = 144 then w64 (256 * g.watch.getD w 0)
  else if line = 145 then (if w = 0 then g.marks.setWidth 64 else 0)
  else 0

/-- Word w of the image. -/
def Gang.imageWord (g : Gang) (w : Nat) : W64 :=
  let line := w / 32
  if line < 130 ∨ (146 ≤ line ∧ line ≤ 162) then g.word w
  else if line < 146 then g.sysWord line (w % 32)
  else 0

/-- A byte of the image. -/
def Gang.imageByte (g : Gang) (off : Nat) : Byte := BitVec.ofNat 8 ((g.imageWord (off / 8)).toNat / 2 ^ (8 * (off % 8)))

/-- A byte of lines 0 to 129 written (R403). -/
def Gang.setImageByte (g : Gang) (off : Nat) (b : Byte) : Gang :=
  let w := (g.word (off / 8)).toNat
  let sh := 2 ^ (8 * (off % 8))
  g.setWord (off / 8) (w64 (w - w / sh % 256 * sh + b.toNat * sh))

end Sys2Proof.Machine
end

