-- ==== Sys2Proof/Machine/Access.lean ====
section
/-! DEFINITION. Lane accesses to the six address spaces (spec/14_isa_memory_sync.md R396, R397, R403; spec/06_cores.md R187
to R190): which bytes an access covers, how it can fail, forwarding inside a block (spec/10 R283), and the requests
that a miss makes (spec/06 R182, R183). -/

namespace Sys2Proof.Machine

/-! ### Bytes by place -/

/-- The byte at a place, as committed blocks left it and as the focused gang's core sees it (07 R218). -/
def State.placeByte (s : State) (p : Place) : Byte :=
  match p.kind with
  | 0 => s.coreByte s.g.core p.off
  | 1 => memByte (s.teamAt p.id).stash p.off
  | 2 => memByte (s.teamAt p.id).tile p.off
  | _ => match s.gangAt p.id with
    | some g => g.imageByte p.off
    | none => 0

/-! ### Regions (R189) -/

/-- Does a region hold some of the bytes from a stash offset on? -/
def Region.meets (r : Region) (off n : Nat) : Bool := decide (r.off < off + n ∧ off < r.off + r.len)

/-- A region whose `smap` and `sunmap` stand where its team left them. -/
def Region.settled (r : Region) : Bool := !r.pending && !r.leaving

/-- A line of a region taken for writing: every other copy of it is given up, and the die asks for ownership (03 R75). -/
def State.ownLine (s : State) (team num line : Nat) : State :=
  let d := dieOf (s.teamAt team).core
  let s1 := s.yieldCopies line false fun t n => !(t == team && n == num)
  let s2 := (List.range 4).foldl (fun s d => if (s.dieAt d).snoop.contains line then s.dropL1 d line else s) s1
  s2.ask d 1 line

/-- The bytes of a line fetched into a region, with the stores that the core has still to write to it before them: `RDS`, or `RDX` for a
write. -/
def State.fetchLine (s : State) (team : Nat) (r : Region) (k line : Nat) (write : Bool) : State :=
  let core := (s.teamAt team).core
  let s1 := s.flushLines core [line]
  let s2 := (s1.modTeam team fun t =>
    { t with stash := stWrite t.stash (r.off + 256 * k) (s1.poolRead (256 * line) 256),
             regions := t.regions.map fun x => if x.num = r.num then { x with filled := tset x.filled k line } else x }).snoopIn
      (dieOf core) line
  if write then s2.ownLine team r.num line else s2.ask (dieOf core) 0 line

/-- A line of a region filled from its home (R189): translation first, for a write when the access stores. A line whose page the tables now
map elsewhere is given up first. -/
def State.fillLine (s : State) (team : Nat) (r : Region) (k : Nat) (write : Bool) : Except Fail Unit × State :=
  let q := s.translate (s.launchAt (s.teamAt team).launch).ctx (r.va.toNat + 256 * k) { write := write, sup := s.g.sup }
  match q.1 with
  | .error x => (.error x, q.2)
  | .ok p =>
    let old := tfind r.filled k
    if old = some (p / 256) then (.ok (), if write then q.2.ownLine team r.num (p / 256) else q.2)
    else
      let s1 := match old with
        | some l => q.2.yieldCopy l false (team, r, k)
        | none => q.2
      if s1.lineLost p then (.error (9, 0), s1) else (.ok (), s1.fetchLine team r k (p / 256) write)

/-- The lines of an access in a region filled one after another. -/
def State.fillLines (s : State) (team : Nat) (num : Nat) (write : Bool) : List Nat → Except Fail Unit × State
  | [] => (.ok (), s)
  | l :: rest =>
    match (s.teamAt team).regions.find? (fun x => x.num == num) with
    | none => (.ok (), s)
    | some r =>
      let q := s.fillLine team r l write
      match q.1 with
      | .error x => (.error x, q.2)
      | .ok _ => State.fillLines q.2 team num write rest

/-- The lines of a region that the bytes from a stash offset on touch. -/
def Region.linesAt (r : Region) (off n : Nat) : List Nat :=
  let first := (max off r.off - r.off) / 256
  let last := (min (off + n) (r.off + r.len) - 1 - r.off) / 256
  (List.range (last + 1 - first)).map (· + first)

/-- The lines of an access filled in every region that it touches. -/
def State.fillAll (s : State) (team off n : Nat) (write : Bool) : List Region → Except Fail Unit × State
  | [] => (.ok (), s)
  | r :: rest =>
    let q := s.fillLines team r.num write (r.linesAt off n)
    match q.1 with
    | .error x => (.error x, q.2)
    | .ok _ => State.fillAll q.2 team off n write rest

/-- A stash byte about to be written: where it lies in a mapped region, its line is an owned copy at that moment (07 R218), taken again if
it was given up since the access issued; watchers of the line hear of the write (R186). -/
def State.ownStash (s : State) (team off : Nat) : State :=
  match (s.teamAt team).regions.find? fun r => r.meets off 1 && r.settled with
  | none => s
  | some r =>
    let k := (off - r.off) / 256
    let s1 := match tfind r.filled k with
      | some l => s.ownLine team r.num l
      | none => (s.fillLine team r k true).2
    match (s1.teamAt team).regions.find? (fun x => x.num == r.num) with
    | none => s1
    | some x => match tfind x.filled k with
      | some l => s1.noteWrites [l]
      | none => s1

/-- Sectors (128 bytes) of a team's filled region lines marked dirty at a stash offset (R189). -/
def Team.dirtyAt (t : Team) (off : Nat) : Team :=
  { t with regions := t.regions.map fun r =>
      if r.meets off 1 && (tfind r.filled ((off - r.off) / 256)).isSome && !r.dirty.contains ((off - r.off) / 128) then
        { r with dirty := (off - r.off) / 128 :: r.dirty } else r }

/-- A byte written at a place outside the pool. -/
def State.setPlace (s : State) (p : Place) (b : Byte) : State :=
  match p.kind with
  | 1 => s.modTeam p.id fun t => { t with stash := memSet t.stash p.off b }.dirtyAt p.off
  | 2 => s.modTeam p.id fun t => { t with tile := memSet t.tile p.off b }
  | _ => s.modGang p.id fun g => g.setImageByte p.off b

/-- The stash lines, (team, line of 256 bytes), among some places. -/
def stashLines (ps : List Place) : List (Nat × Nat) :=
  ((ps.filter fun p => p.kind == 1).map fun p => (p.id, p.off / 256)).eraseDups

/-- Bytes written at places in order; those in the pool by an agent that holds no copy of its own. -/
def State.setPlaces (s : State) (l : List (Place × Byte)) : State :=
  let s1 := (stashLines (l.map (·.1))).foldl (fun s x => s.ownStash x.1 (256 * x.2)) s
  let s2 := (l.filter fun x => x.1.kind != 0).foldl (fun s x => s.setPlace x.1 x.2) s1
  match l.filterMap fun x => if x.1.kind = 0 then some (x.1.off, x.2) else none with
  | [] => s2
  | cells => s2.writeCells cells

/-- The dirty sectors of some lines of a region written to memory (R189); a listed line that is written whole leaves the lost-line table. -/
def State.writeBack (s : State) (team : Nat) (r : Region) (line : Nat → Bool) : State :=
  (r.filled.filter fun k => line k.1).foldl (fun s k =>
    let c := (s.teamAt team).dirtyCells r k.1 k.2
    (s.memCells c).clearLost (c.map (·.1))) s

/-- Lines that regions of a die have given up are settled with its snoop filter. -/
def State.settleLines (s : State) (team : Nat) (r : Region) (line : Nat → Bool) : State :=
  (r.filled.filter fun k => line k.1).foldl (fun s k => s.settleDie (dieOf (s.teamAt team).core) k.2) s

/-! ### One lane's access -/

/-- What an access of one lane meets: its places, a stash condition (R188), or a fault code with its subcode. -/
inductive LaneRes where
  | ok (ps : List Place)
  | off (code : Nat)
  | bad (code sub : Nat)
  deriving DecidableEq, Repr

/-- A stash access of a team's stash: the rules of every region that it touches (R188, R189), then its bytes. -/
def State.stashAccess (s : State) (team off n : Nat) (write : Bool) : LaneRes × State :=
  let ps := (List.range n).map fun i => (⟨1, team, off + i⟩ : Place)
  let rs := (s.teamAt team).regions.filter fun r => r.meets off n
  if rs.any fun r => !r.settled then (.off 1, s)
  else
    let q := s.fillAll team off n write rs
    match q.1 with
    | .error x => (.bad x.1 x.2, q.2)
    | .ok _ => (.ok ps, q.2)

/-- The checks of R396 for one lane's bytes EA to EA + n − 1; `store` for an access that writes, `atomic` for `atom`, `cas` and
`red`. A plain store reads no line, so it meets lost data only where it must merge (01 R37, `State.lostStore`). -/
def State.resolve (s : State) (sp : Space) (n : Nat) (store atomic : Bool) (ea : Nat) : LaneRes × State :=
  let t := s.team
  match sp with
  | .global =>
    let r := s.translateRun s.ctxNo ea { write := store, sup := s.g.sup } n
    match r.1 with
    | .error x => (.bad x.1.1 x.1.2, r.2)
    | .ok ps =>
      if !(store && !atomic) && ps.any r.2.lineLost then (.bad 9 0, r.2) else (.ok (ps.map fun p => ⟨0, 0, p⟩), r.2)
  | .stash => if ea + n ≤ t.stashKiB * 1024 then s.stashAccess s.g.team ea n store else (.off 0, s)
  | .rstash =>
    let rank := bits ea 20 18
    let off := bits ea 17 0
    if 2 ^ 21 ≤ ea then (.off 0, s)
    else if t.cluster ≤ rank then (.off 3, s)
    else
      let m := if rank = t.rank then s.g.team else t.mates.getD rank s.g.team
      let mt := s.teamAt m
      if mt.stashKiB * 1024 < off + n then (.off 0, s)
      else if mt.linger && (store || atomic) then (.off 2, s)
      else s.stashAccess m off n store
  | .tile =>
    if ea + n ≤ t.tileKiB * 1024 then (.ok ((List.range n).map fun i => ⟨2, s.g.team, ea + i⟩), s) else (.bad 1 19, s)
  | .ctx =>
    if 65536 < ea + n then (.bad 1 19, s)
    else if store && decide (130 * 256 < ea + n) then (.bad 1 19, s)
    else (.ok ((List.range n).map fun i => ⟨3, s.gid, ea + i⟩), s)
  | .pool =>
    if 2 ^ 48 < ea + n then (.bad 1 19, s)
    else match (s.pageFail none (pageOf ea)).or (s.pageFail none (pageOf (ea + n - 1))) with
      | some x => (.bad x.1 x.2, s)
      | none =>
        if !(store && !atomic) && (s.lineLost ea || s.lineLost (ea + n - 1)) then (.bad 9 0, s)
        else (.ok ((List.range n).map fun i => ⟨0, 0, ea + i⟩), s)

/-- EA of a lane: slot a plus OFFSET, sign-extended from 24 bits, modulo 2^64 (R396). -/
def effAddr (m : MemArg) (a : W64) : Nat := (a + m.off.signExtend 64).toNat

/-- Every lane of a list resolved in turn. -/
def State.resolveAll (m : MemArg) (n : Nat) (store atomic aligned : Bool) (ea : Nat → Nat) :
    List Nat → State → List (Nat × LaneRes) × State
  | [], s => ([], s)
  | l :: r, s =>
    let x := if aligned && ea l % n != 0 then (LaneRes.bad 7 0, s) else s.resolve m.as n store atomic (ea l)
    let y := State.resolveAll m n store atomic aligned ea r x.2
    ((l, x.1) :: y.1, y.2)

/-- Two fault outcomes of lanes: the lowest code is taken, with the subcode of its lowest lane (R243). -/
def lowestFault (rs : List (Nat × LaneRes)) : Option (Nat × Nat) :=
  rs.foldl (fun a r =>
    match r.2, a with
    | .bad c u, none => some (c, u)
    | .bad c u, some (d, v) => if c < d then some (c, u) else some (d, v)
    | _, a => a) none

/-- The lanes that raised a fault code. -/
def faultLanes (rs : List (Nat × LaneRes)) (code : Nat) : Mask :=
  rs.foldl (fun a r => match r.2 with
    | .bad c _ => if c = code then a ||| BitVec.ofNat 32 (2 ^ r.1) else a
    | _ => a) 0

/-- The lanes whose access is good, with their places. -/
def okLanes (rs : List (Nat × LaneRes)) : List (Nat × List Place) :=
  rs.filterMap fun r => match r.2 with
    | .ok ps => some (r.1, ps)
    | _ => none

/-- The lanes switched off, with their codes. -/
def offLanes (rs : List (Nat × LaneRes)) : List (Nat × Nat) :=
  rs.filterMap fun r => match r.2 with
    | .off c => some (r.1, c)
    | _ => none

/-- Lanes switched off (R188): they leave the active set at once; the first code of each lane is kept. -/
def Blk.switchOff (b : Blk) (ls : List (Nat × Nat)) : Blk :=
  ls.foldl (fun b p =>
    if b.off.getLsbD p.1 then b
    else { b with off := b.off ||| BitVec.ofNat 32 (2 ^ p.1), offCode := b.offCode ++ [p] }) b

/-- The accesses of an instruction: each live lane, or once for a uniform one. A fault of some lane is the instruction's
fault; otherwise stash conditions switch lanes off, and the good lanes are handed on with the places they cover. -/
def accesses (f : Form) (m : MemArg) (n : Nat) (store atomic aligned : Bool) (uni : Bool)
    (k : State → Opnd → List (Nat × List Place) → Out) (s : State) : Out :=
  match s.blk? with
  | none => .next s
  | some b =>
    if (m.as == .ctx || m.as == .pool) && !s.g.sup then .next (s.raise { code := 16, sub := 2, lanes := b.active }) else
    let o := b.opnd s.idx f
    let ls := if uni then (if o.live = 0 then [] else [0]) else lanesOf o.live
    let ea := fun l => effAddr m (lane o.a.vals l)
    let r := s.resolveAll m n store atomic aligned ea ls
    match lowestFault r.1 with
    | some x =>
      let bad := if uni then o.live else faultLanes r.1 x.1
      .next (r.2.raise (s.execFault x.1 x.2 m.lsid.toNat bad (lanes fun l =>
        if bad.getLsbD l && m.as == .global then w64 (ea (if uni then 0 else l)) else 0)))
    | none =>
      let offs := if uni then (offLanes r.1).flatMap fun p => (lanesOf o.act).map fun l => (l, p.2) else offLanes r.1
      k (r.2.setBlk (b.switchOff offs)) o (okLanes r.1)

/-! ### Atomic operations and forwarding -/

/-- The w-bit result of an AOP on an old value and an operand, with the flags of `.fadd` (R399). -/
def aopNew (aop : BitVec 3) (t : Ty) (old b : Nat) : FRes :=
  let x := ext t (w64 old)
  let y := ext t (w64 b)
  let p := b % 2 ^ t.width
  match aop.toNat with
  | 0 => (pat t (x + y), 0)
  | 1 => (pat t (min x y), 0)
  | 2 => (pat t (max x y), 0)
  | 3 => (old &&& p, 0)
  | 4 => (old ||| p, 0)
  | 5 => (old ^^^ p, 0)
  | 6 => (p, 0)
  | _ => fpAdd t ⟨0, 0⟩ old b

/-- Bytes written so far, newest first. -/
abbrev Overlay := List (Place × Byte)

/-- The byte at a place under an overlay. -/
def State.overByte (s : State) (ov : Overlay) (p : Place) : Byte :=
  match ov.find? fun q => q.1 == p with
  | some q => q.2
  | none => s.placeByte p

/-- The bytes that a store record writes, over what is there before it (R401). -/
def State.recBytes (s : State) (ov : Overlay) (r : StoreRec) : List Byte :=
  match r.op with
  | none => r.data
  | some (aop, t) =>
    bytesOf r.places.length (aopNew aop t (natOf (r.places.map (s.overByte ov))) (natOf r.data)).1

/-- A store record laid over the bytes before it; a later lane wins (R207). -/
def State.layOver (s : State) (ov : Overlay) (r : StoreRec) : Overlay := ((r.places.zip (s.recBytes ov r)).reverse) ++ ov

/-- What the block's loads of higher LSID have already read: a load of the same bytes then reads no later value (07 R216). -/
def Blk.readAfter (b : Blk) (lsid : Nat) : Overlay := (b.reads.filter fun r => lsid < r.lsid).flatMap (·.bytes)

/-- The overlay that a load with an LSID sees: the block's stores with lower LSIDs in order (R283), over what its later loads have read. -/
def State.forwarded (s : State) (b : Blk) (lsid : Nat) : Overlay :=
  (b.stores.filter fun r => r.lsid < lsid && b.active.getLsbD r.lane).foldl s.layOver (b.readAfter lsid)

/-- A store record entered in LSID order, after those of equal LSID. -/
def insertStore (r : StoreRec) : List StoreRec → List StoreRec
  | [] => [r]
  | x :: xs => if r.lsid < x.lsid then r :: x :: xs else x :: insertStore r xs

/-- A `seq` operation of the block stands before an LSID (07 R215). -/
def Blk.seqBefore (b : Blk) (lsid : Nat) : Bool := b.instrs.any fun q => q.2.isSeq && decide (q.2.lsid.getD 32 < lsid)

/-- An `atom` or `cas` that is a release, by its own ordering or through a fence before it in its block (07 R210, 14 R404). -/
def Blk.releasesAt (b : Blk) (i : Instr) : Bool :=
  let j := i.lsid.getD 0
  i.releasesLsid || b.instrs.any fun q => (match q.2 with | .fence _ _ => q.2.releasesLsid | _ => false) && decide (q.2.lsid.getD 32 < j)

/-- Bytes at a context's virtual addresses as the focused gang reads them: what its core has still to write there comes first. -/
def State.readOwn (s : State) (va n : Nat) (a : Acc) : Except (Fail × Nat) (List Byte) × State :=
  let r := s.translateRun s.ctxNo va a n
  match r.1 with
  | .error x => (.error x, r.2)
  | .ok ps => (r.2.flushLines s.g.core (ps.map (· / 256)).eraseDups).readAt va ps

/-- Bytes at a context's virtual addresses written as the focused gang writes them: what its core has still to write there comes first. -/
def State.writeOwn (s : State) (va : Nat) (bs : List Byte) (a : Acc) : Except (Fail × Nat) Unit × State :=
  let r := s.translateRun s.ctxNo va { a with write := true } bs.length
  match r.1 with
  | .error x => (.error x, r.2)
  | .ok ps => (r.2.flushLines s.g.core (ps.map (· / 256)).eraseDups).writeAt va ps bs

/-! ### Requests (R182, R183) -/

/-- The distinct 256-byte lines of a list of pool addresses. -/
def linesOf (ps : List Place) : List Nat := ((ps.filter fun p => p.kind == 0).map fun p => p.off / 256).eraseDups

/-- The pool addresses among some places. -/
def poolAddrs (ps : List Place) : List Nat := (ps.filter fun p => p.kind == 0).map (·.off)

/-- Passes of a stash access: the most 8-byte words that one bank must serve (R187). -/
def stashPasses (ps : List Place) : Nat :=
  let ws := (ps.map fun p => p.off / 8).eraseDups
  (ws.map fun w => (ws.filter fun v => v % 64 == w % 64).length).foldl max 1

/-- A line request of an instruction: it takes an ordinary miss-status entry, or is rejected and replayed 8 cycles later; with its reply the
line enters the caches that the policy names. -/
def State.lineRequest (s : State) (idx line : Nat) (cp : BitVec 3) : State :=
  match s.blk? with
  | none => s
  | some b =>
    let n := s.nextId
    let q := s.core.quarterAt s.g.quarter
    let s1 := { s with nextId := n + 1 }
    if q.entries.length < 64 then
      let s2 := s1.setBlk { b with reqs := b.reqs ++ [{ num := n, idx := idx, line := line, cp := cp }] }
      let s3 := s2.modCore s.g.core fun c => c.modQuarter s.g.quarter fun q => { q with entries := q.entries ++ [n] }
      s3.offCore (.gang s.gid) (.memoryReply n .data)
    else
      (s1.setBlk { b with reqs := b.reqs ++ [{ num := n, idx := idx, line := line, held := false, cp := cp }] }).laterHere 8
        (.gang s.gid) (.missReplay n)

/-- A reply from off the core that holds no miss-status entry. -/
def State.plainRequest (s : State) (idx : Nat) : State :=
  match s.blk? with
  | none => s
  | some b =>
    let s1 : State := { s with nextId := s.nextId + 1 }
    let s2 := s1.setBlk { b with reqs := b.reqs ++ [{ num := s.nextId, idx := idx, line := 0, held := false, aged := true }] }
    s2.offCore (.gang s.gid) (.memoryReply s.nextId .data)

/-- Requests for lines, each asked for by the die where it does not hold what is needed (03 R73, R75). -/
def State.requestLines (s : State) (idx : Nat) (own : Bool) (cp : BitVec 3) : List Nat → State
  | [] => s
  | l :: r => State.requestLines ((s.lineRequest idx l cp).ask (dieOf s.g.core) (if own then 1 else 0) l) idx own cp r

/-- Lines that hit in the focused gang's L1 become its most recently used ones (11 R314). -/
def State.hitLines (s : State) (cp : BitVec 3) (ls : List Nat) : State :=
  ls.foldl (fun s l => s.modCore s.g.core fun c => { c with l1 := (cachePut 1024 cp l c.l1).1 }) s

/-- A load's tokens: with a fixed latency, or under way until its replies have come (R201 to R203). An `rstash` access to the team's own
rank is a local stash access (R190). -/
def State.deliverLoad (s : State) (f : Form) (t : Tok) (sp : Space) (ps : List Place) (bypass : Bool) (cp : BitVec 3) : State :=
  match s.blk? with
  | none => s
  | some b =>
    let b : Blk := { b with progress := s.clock }
    let fixed := fun (n : Nat) => s.setBlk (b.deliver s.idx f ({ t with ready := some (s.clock + n) } : Tok))
    let d := b.deliver s.idx f t
    let sent : Blk := { d with done := b.done, issued := b.issued ||| bit96 s.idx }
    match sp with
    | .stash => fixed (s.lat (10, 11) + 2 * (stashPasses ps - 1))
    | .tile => fixed (s.lat (10, 11))
    | .ctx => if ps.isEmpty then fixed (s.lat (10, 11)) else (s.setBlk sent).plainRequest s.idx
    | .rstash =>
      if ps.all fun p => p.kind == 1 && p.id == s.g.team then fixed (s.lat (10, 11) + 2 * (stashPasses ps - 1))
      else (s.setBlk sent).plainRequest s.idx
    | .global | .pool =>
      let ls := linesOf ps
      let miss := if bypass then ls else ls.filter fun l => !(holdsLine s.core.l1 l)
      let s1 := s.hitLines cp (ls.filter fun l => !(miss.contains l))
      if miss.isEmpty then s1.setBlk (b.deliver s.idx f { t with ready := some (s.clock + s.lat (28, 29) + 2 * (ls.length - 1)) })
      else (s1.setBlk sent).requestLines s.idx false cp miss

end Sys2Proof.Machine
end

