-- ==== Sys2Proof/Machine/MemOps.lean ====
section
/-! DEFINITION. Loads, stores, atomics, fences, counters, mapped regions and the device heap
(spec/14_isa_memory_sync.md R394 to R416). -/

namespace Sys2Proof.Machine

/-- Bytes of an access (R395). -/
def accBytes (t : Ty) : Nat := t.width / 8

/-- A loaded value delivered: Out(Ext) for i, n and b types, zero-extended for floats (R397). -/
def loadVal (t : Ty) (bs : List Byte) : W64 := outPat t (natOf bs)

/-- The value of a list of (lane, value) pairs at a lane. -/
def laneVal (vs : List (Nat × W64)) (l : Nat) : W64 :=
  match vs.find? fun p => p.1 == l with
  | some p => p.2
  | none => 0

/-- The token of a load: null outside the good lanes; a uniform load's value in every lane. -/
def loadTok (f : Form) (o : Opnd) (vs : List (Nat × W64)) : Tok :=
  if f.vc = .uni then tokOf .uni (splat (laneVal vs 0)) (if vs.isEmpty then allLanes else 0)
  else tokOf .lane (lanes (laneVal vs)) (~~~(maskOf fun l => o.live.getLsbD l && vs.any fun p => p.1 == l))

/-- What a load has read is kept while a load of lower LSID of its block has still to perform (07 R216). -/
def State.noteRead (s : State) (b : Blk) (lsid : Nat) (ps : List Place) : Blk :=
  if b.instrs.any fun q => q.2.isLoad && decide (q.2.lsid.getD 32 < lsid) && !b.issued.getLsbD q.1 then
    { b with reads := b.reads ++ [{ lsid := lsid, bytes := ps.map fun p => (p, s.overByte (b.readAfter lsid) p) }] }
  else b

/-- An access that follows a `seq` operation of its block gives the block its place in the order of 07 R215. -/
def State.placeSeq (s : State) (lsid : Nat) : State :=
  match s.blk? with
  | none => s
  | some b =>
    if b.seq.isSome || !(b.seqBefore lsid) then s
    else
      let r := s.fresh
      r.2.setBlk { b with seq := some r.1 }

/-- A load (R397): each lane's bytes as R283 gives them; `mark` leaves what was read for the commit. -/
def loadOp (f : Form) (m : MemArg) (aligned bypass : Bool) (mark : Option Instr) (s : State) : Out :=
  accesses f m (accBytes f.ty) false false aligned (f.vc == .uni) (fun s o ls =>
    match s.blk? with
    | none => .next s
    | some b =>
      let ov := s.forwarded b m.lsid.toNat
      let vs := ls.map fun p => (p.1, loadVal f.ty (p.2.map (s.overByte ov)))
      let b1 := s.noteRead b m.lsid.toNat (ls.flatMap (·.2))
      let b2 := match mark with
        | none => b1
        | some i => b1.leave
            { idx := s.idx, ins := i, lanes := maskOf fun l => ls.any fun p => p.1 == l,
              a := lanes fun l => w64 (effAddr m (lane o.a.vals l)), b := lanes (laneVal vs), c := [] }
      .next (((s.setBlk b2).placeSeq m.lsid.toNat).deliverLoad f (loadTok f o vs) m.as (ls.flatMap (·.2)) bypass f.cp)) s

/-- `ld` (R397). CP 011 and 100 bypass L1 (R314). -/
def execLd (f : Form) (m : MemArg) (s : State) : Out := loadOp f m false (decide (3 ≤ f.cp.toNat)) none s

/-- `ldp` (R398): the coherent value, bypassing L1; addresses and values are left for the polling count and the watch list
(R184, R186). -/
def execLdp (f : Form) (m : MemArg) (s : State) : Out := loadOp f m true true (some (.ldp f m)) s

/-- Does an access of n bytes lie in a private window of the launch (R230)? -/
def inWindow (l : Launch) (ea n : Nat) : Bool :=
  let w := fun (off : Nat) =>
    let base := fieldOf l.lr off 8
    let len := fieldOf l.lr (off + 8) 8
    decide (len ≠ 0 ∧ base ≤ ea ∧ ea + n ≤ base + len)
  w 168 || w 184

/-- Does a store to an address need the commit token (R229)? -/
def needsToken (s : State) (sp : Space) (ea n : Nat) : Bool :=
  s.launchOf.fixord && (match sp with
    | .global => !(inWindow s.launchOf ea n)
    | .pool => true
    | _ => false)

/-- The records of a store or `red` for its good lanes. -/
def storeRecs (f : Form) (m : MemArg) (s : State) (o : Opnd) (op : Option (BitVec 3 × Ty)) (ls : List (Nat × List Place)) :
    List StoreRec :=
  ls.map fun p => { idx := s.idx, lsid := m.lsid.toNat, lane := p.1, places := p.2,
                    data := bytesOf (accBytes f.ty) (lane o.b.vals p.1).toNat, op := op, issued := s.clock,
                    cp := if op.isSome then 3 else f.cp,
                    gated := needsToken s m.as (effAddr m (lane o.a.vals p.1)) (accBytes f.ty) }

/-- A member of the commit set: its records are kept for the commit (R287, R288). -/
def storeOp (f : Form) (m : MemArg) (i : Instr) (aligned : Bool) (op : Option (BitVec 3 × Ty)) (s : State) : Out :=
  accesses f m (accBytes f.ty) true (op.isSome) aligned false (fun s o ls =>
    match s.blk? with
    | none => .next s
    | some b =>
      .next (s.setBlk ((({ b with progress := s.clock, stores := (storeRecs f m s o op ls).foldl (fun a r => insertStore r a) b.stores
        }.leave (o.left s.idx i)).markDone s.idx)))) s

/-- `st` (R397). -/
def execSt (f : Form) (m : MemArg) (s : State) : Out := storeOp f m (.st f m) false none s

/-- Lanes of an atomic that fixed order refuses (R227, R231): outside stash, tile memory, the private windows and the
`rstash` of a domain member. -/
def orderRefuses (s : State) (sp : Space) (n ea : Nat) : Bool :=
  match sp with
  | .stash | .tile => false
  | .rstash => !(s.launchOf.domcl || decide (bits ea 20 18 = s.team.rank))
  | .global => !(inWindow s.launchOf ea n)
  | _ => true

/-- `red` (R401); `.fadd` outside the private windows raises `ORDER_RETURN` under fixed order (R231). -/
def execRed (f : Form) (m : MemArg) (s : State) : Out :=
  match s.blk? with
  | none => .next s
  | some b =>
    let o := b.opnd s.idx f
    let bad := if s.launchOf.fixord && f.cp == 7 then
        lanesWhere o.live fun l =>
          let ea := effAddr m (lane o.a.vals l)
          !(m.as == .global && inWindow s.launchOf ea (accBytes f.ty))
      else 0
    if bad ≠ 0 then .next (s.raise (s.execFault 13 0 m.lsid.toNat bad []))
    else storeOp f m (.red f m) true (some (f.cp, f.ty)) s

/-- The steps of `atom` and `cas` in increasing lane (R400): values returned, flags, and whether some `cas` left memory as
it was. -/
def rmwSteps (n : Nat) (new : Nat → Nat → FRes × Bool) :
    List (Nat × List Place) → State → List (Nat × W64) × BitVec 5 × Bool × State
  | [], s => ([], 0, false, s)
  | (l, ps) :: r, s =>
    let old := natOf (ps.map s.placeByte)
    let w := new l old
    let s1 := if w.2 then s.setPlaces (ps.zip (bytesOf n w.1.1)) else s
    let rest := rmwSteps n new r s1
    ((l, w64 old) :: rest.1, w.1.2 ||| rest.2.1, !w.2 || rest.2.2.1, rest.2.2.2)

/-- The outcome of an issue-time access delivered: at once where it was held, else when its reply has come. -/
def State.deliverAtomic (s : State) (f : Form) (t : Tok) (sp : Space) (ps : List Place) : State :=
  match sp with
  | .global | .pool =>
    match s.blk? with
    | none => s
    | some b =>
      let sent : Blk := { b.deliver s.idx f t with done := b.done, issued := b.issued ||| bit96 s.idx, progress := s.clock }
      if (linesOf ps).isEmpty then s.setBlk ((b.deliver s.idx f { t with ready := some s.clock }))
      else (s.setBlk sent).requestLines s.idx true 3 (linesOf ps)
  | .rstash => s.deliverLoad f t .rstash ps true 3
  | _ => match s.blk? with
    | none => s
    | some b => (s.setBlk { b.deliver s.idx f t with done := b.done, issued := b.issued ||| bit96 s.idx, progress := s.clock }).plainRequest s.idx

/-- A release atomic of a block whose stores of lower LSID are still to perform: no other gang sees its bytes before them (07 R210). -/
def State.runAhead (s : State) (b : Blk) (m : MemArg) (i : Instr) (ps : List Place) : State :=
  if b.releasesAt i && b.stores.any (fun r => decide (r.lsid < m.lsid.toNat)) then
    { s with g := { s.g with ahead := s.g.ahead ++ (ps.filter fun p => p.kind == 0 || p.kind == 1).map fun p => (s.g.sup, p) } }
  else s

/-- The values of an atomic as its result token's values. -/
def atomVals (t : Ty) (vs : List (Nat × W64)) : List (Nat × W64) := vs.map fun p => (p.1, outPat t p.2.toNat)

/-- `atom` and `cas` (R400): at issue, once; a held outcome is delivered again (R150). -/
def atomicOp (f : Form) (m : MemArg) (i : Instr) (isCas : Bool) (new : Opnd → Nat → Nat → FRes × Bool) (s : State) : Out :=
  match s.blk? with
  | none => .next s
  | some b =>
    let o := b.opnd s.idx f
    let n := accBytes f.ty
    match s.heldHere with
    | some x =>
      -- a held `cas` demotes its split by its held outcome (06 R171); one that is uniform has it in lane 0
      let mine := if f.vc = .uni then (if s.nullsHere = allLanes then [] else [0]) else lanesOf (~~~s.nullsHere)
      let unchanged := isCas && mine.any fun l => !(new o l (lane x l).toNat).2
      let t := tokOf f.vc (if f.vc = .uni then splat (lane x 0) else x) s.nullsHere
      let b' := if unchanged then b.leave { (o.left s.idx i) with lanes := ~~~s.nullsHere } else b
      .next ((s.setBlk { b'.deliver s.idx f t with done := b'.done, issued := b'.issued ||| bit96 s.idx, progress := s.clock }).plainRequest s.idx)
    | none =>
      let ea := fun (l : Nat) => effAddr m (lane o.a.vals l)
      let bad := if s.launchOf.fixord then lanesWhere o.live fun l => orderRefuses s m.as n (ea l) else 0
      if bad ≠ 0 then .next (s.raise (s.execFault 13 0 m.lsid.toNat bad []))
      else if s.launchOf.fixord && s.g.sup && o.acts then .next (s.raise (s.execFault 1 20 m.lsid.toNat o.live []))
      else accesses f m n true true true (f.vc == .uni) (fun s o ls =>
        let ps := ls.flatMap (·.2)
        let s0 := match s.blk? with
          | some b => if b.releasesAt i then s.flushCore s.g.core else s.flushLines s.g.core (linesOf ps)
          | none => s
        let r := rmwSteps n (new o) ls s0
        let vs := atomVals f.ty r.1
        let s1 := r.2.2.2
        match s1.blk? with
        | none => .next s1
        | some b =>
          let b' := { b with flags := b.flags ||| r.2.1 }
          let b' := if isCas && r.2.2.1 then b'.leave (o.left s.idx i) else b'
          let t := loadTok f o vs
          let s2 := (((s1.setBlk b').placeSeq m.lsid.toNat).runAhead b' m i ps).hold
            (if f.vc = .uni then uniOutcome (laneVal vs 0) else lanes (laneVal vs)) t.nulls
          .next (s2.deliverAtomic f t m.as ps)) s

/-- `atom` (R399, R400). -/
def execAtom (f : Form) (m : MemArg) (s : State) : Out :=
  atomicOp f m (.atom f m) false (fun o l old => (aopNew f.cp f.ty old (lane o.b.vals l).toNat, true)) s

/-- `cas` (R400): compares patterns; memory is written only when the value differs. A lane whose memory is left as it was
demotes the split. -/
def execCas (f : Form) (m : MemArg) (s : State) : Out :=
  atomicOp f m (.cas f m) true (fun o l old =>
    let w := 2 ^ f.ty.width
    let new := (lane o.c.vals l).toNat % w
    if old % w = (lane o.b.vals l).toNat % w ∧ new ≠ old % w then ((new, 0), true) else ((old % w, 0), false)) s

/-- `pref` (R402): never faults; a line that can be reached is read as `RDS`, the others are dropped. -/
def execPref (f : Form) (m : MemArg) (s : State) : Out :=
  match s.blk? with
  | none => .next s
  | some b =>
    let o := b.opnd s.idx f
    let s1 := (lanesOf o.live).foldl (fun s l =>
      let r := s.translate s.ctxNo (effAddr m (lane o.a.vals l)) { sup := s.g.sup }
      match r.1 with
      | .error _ => s
      | .ok p => (r.2.lineIn s.g.core (p / 256) f.cp).ask (dieOf s.g.core) 0 (p / 256)) s
    .next (s1.setBlk ({ b with progress := s.clock }.markDone s.idx))

/-! ### Mapped regions (R408 to R411) -/

/-- Slot values of a uniform instruction. -/
def Opnd.ua (o : Opnd) : Nat := (lane o.a.vals 0).toNat
/-- Slot b. -/
def Opnd.ub (o : Opnd) : Nat := (lane o.b.vals 0).toNat
/-- Slot c. -/
def Opnd.uc (o : Opnd) : Nat := (lane o.c.vals 0).toNat

/-- Every active lane switched off with `STASH_RANGE`. -/
def switchAllOff (f : Form) (s : State) : Out :=
  match s.blk? with
  | none => .next s
  | some b =>
    let o := b.opnd s.idx f
    .next (s.setBlk ((b.switchOff ((lanesOf o.act).map fun l => (l, 0))).markDone s.idx))

/-- Do two byte ranges overlap? -/
def overlap (a n b m : Nat) : Bool := decide (a < b + m ∧ b < a + n)

/-- The conditions under which `smap` is refused (R409). -/
def smapRefused (t : Team) (a v n : Nat) : Bool :=
  a % 256 != 0 || v % 256 != 0 || n % 256 != 0 || n == 0 || decide (t.stashKiB * 1024 < a + n) ||
  decide (16 ≤ t.regions.length) ||
  t.regions.any fun r => overlap a n r.off r.len || overlap v n r.va.toNat r.len

/-- The regions that earlier instructions of the block are about to map. -/
def Blk.smaps (b : Blk) : List Region :=
  b.fired.filterMap fun r => match r.ins with
    | .smap _ _ => if r.lanes = 0 then none else
        some { off := (lane r.a 0).toNat, va := lane r.b 0, len := (lane r.c 0).toNat }
    | _ => none

/-- `smap` (R409): refused by switching every active lane off; otherwise sent at commit. -/
def execSmap (f : Form) (l : BitVec 5) (s : State) : Out :=
  match s.blk? with
  | none => .next s
  | some b =>
    let o := b.opnd s.idx f
    if o.acts && smapRefused { s.team with regions := s.team.regions ++ b.smaps } o.ua o.ub o.uc then switchAllOff f s
    else depart f (.smap f l) s

/-- `sunmap` (R410). -/
def execSunmap (f : Form) (l : BitVec 5) (s : State) : Out :=
  match s.blk? with
  | none => .next s
  | some b =>
    let o := b.opnd s.idx f
    if o.acts && !(s.team.regions.any fun r => decide (r.off = o.ua) && !r.pending && !r.leaving) then switchAllOff f s
    else depart f (.sunmap f l) s

/-- `swb` (R411). -/
def execSwb (f : Form) (l : BitVec 5) (s : State) : Out := depart f (.swb f l) s
/-- `sinv` (R411). -/
def execSinv (f : Form) (l : BitVec 5) (s : State) : Out := depart f (.sinv f l) s

/-! ### Device heap (R413 to R416) -/

/-- Virtual address of the heap descriptor of the gang's die (R413). -/
def State.heapAt (s : State) : Nat := supPage + 0x14000 + 128 * (4 * s.self + dieOf s.g.core)

/-- Size class of a size (R414). -/
def sizeClass (n : Nat) : Nat := bitLen (n - 1) - 6

/-- A 64-bit word of the context's memory read as supervisor. -/
def State.supWord (s : State) (va : Nat) : Except (Fail × Nat) Nat × State :=
  let r := s.readOwn va 8 { sup := true }
  (r.1.map natOf, r.2)

/-- A 64-bit word of the context's memory written as supervisor. -/
def State.setSupWord (s : State) (va x : Nat) : Except (Fail × Nat) Unit × State :=
  s.writeOwn va (bytesOf 8 x) { sup := true }

/-- One lane's request: the address, none when exhausted, or a fault of the descriptor or a list link (R414). -/
def State.heapTake (s : State) (size : Nat) : Except (Fail × Nat) (Option Nat) × State :=
  if size = 0 then (.ok (some 0), s)
  else
    let h := s.heapAt
    let c := sizeClass size
    let z := 2 ^ (6 + c)
    let fr := s.supWord (h + 32 + 8 * c)
    let ba := fr.2.supWord h
    let li := ba.2.supWord (h + 8)
    let bu := li.2.supWord (h + 16)
    match fr.1, ba.1, li.1, bu.1 with
    | .ok head, .ok base, .ok limit, .ok bump =>
      if head ≠ 0 then
        let nx := bu.2.supWord head
        match nx.1 with
        | .error x => (.error x, nx.2)
        | .ok link =>
          let w := nx.2.setSupWord (h + 32 + 8 * c) link
          (w.1.map fun _ => some head, w.2)
      else if base ≠ 0 ∧ alignUp bump z + z ≤ limit then
        let w := bu.2.setSupWord (h + 16) (alignUp bump z + z)
        (w.1.map fun _ => some (alignUp bump z), w.2)
      else (.ok none, bu.2)
    | .error x, _, _, _ => (.error x, bu.2)
    | _, .error x, _, _ => (.error x, bu.2)
    | _, _, .error x, _ => (.error x, bu.2)
    | _, _, _, .error x => (.error x, bu.2)

/-- The lanes served in turn: addresses given, lanes exhausted, and a fault if one arose. -/
def State.heapServe (size : Nat → Nat) : List Nat → State → List (Nat × W64) × List Nat × Option (Fail × Nat) × State
  | [], s => ([], [], none, s)
  | l :: r, s =>
    let q := s.heapTake (size l)
    match q.1 with
    | .error x => ([], [], some x, q.2)
    | .ok (some a) =>
      let rest := State.heapServe size r q.2
      ((l, w64 a) :: rest.1, rest.2)
    | .ok none =>
      let rest := State.heapServe size r q.2
      (rest.1, l :: rest.2.1, rest.2.2)

/-- The lanes that ask for a block in a run of `halloc`: those that act, or, run again, those whose outcome is held (R150, R415). -/
def State.hallocLanes (s : State) (o : Opnd) : Mask := if s.heldHere.isSome then o.act &&& ~~~s.nullsHere else o.live

/-- `halloc` (R414, R415): held lanes receive their addresses again; the exhausted ones are served from the descriptor as it then stands. -/
def execHalloc (f : Form) (l : BitVec 5) (s : State) : Out :=
  match s.blk? with
  | none => .next s
  | some b =>
    let o := b.opnd s.idx f
    let uni := f.vc == .uni
    let live := s.hallocLanes o
    let ls := if uni then (if live = 0 then [] else [0]) else lanesOf live
    let size := fun (i : Nat) => (lane o.a.vals i).toNat
    let had := s.heldHere.getD []
    let todo := if s.launchOf.allocNull && s.heldHere.isSome then [] else ls.filter fun i => lane had i == 0
    let big := todo.filter fun i => decide (131072 < size i)
    if !big.isEmpty then
      .next (s.raise (s.execFault 1 19 l.toNat (if uni then live else maskOf fun i => big.contains i) []))
    else
      let r := s.heapServe size todo
      let given := (ls.filterMap fun i => if lane had i == 0 then none else some (i, lane had i)) ++ r.1
      let s1 := r.2.2.2.hold (lanes fun i => laneVal given i) (~~~live)
      match r.2.2.1 with
      | some x => .next (s1.raise (s.execFault x.1.1 x.1.2 l.toNat live (splat (w64 x.2))))
      | none =>
        if !r.2.1.isEmpty && !s.launchOf.allocNull then
          let m := if uni then o.act else maskOf fun i => r.2.1.contains i
          .next (s1.raise (s.execFault 10 0 l.toNat m (lanes fun i => if m.getLsbD i then lane o.a.vals (if uni then 0 else i) else 0)))
        else
          let t := if uni then tokOf .uni (splat (laneVal given 0)) (if ls.isEmpty then allLanes else 0)
            else tokOf .lane (lanes (laneVal given)) (~~~live)
          .next (s1.deliverLoad f t .rstash [⟨0, 0, 0⟩] true 3)

/-- `hfree` (R416): its operands are checked at issue. -/
def execHfree (f : Form) (l : BitVec 5) (s : State) : Out :=
  match s.blk? with
  | none => .next s
  | some b =>
    let o := b.opnd s.idx f
    if (lanesOf o.live).all fun i => lane o.a.vals i == 0 then depart f (.hfree f l) s else
    let ba := s.supWord s.heapAt
    let bu := ba.2.supWord (s.heapAt + 16)
    match ba.1, bu.1 with
    | .ok base, .ok bump =>
      let bad := lanesWhere o.live fun i =>
        let p := (lane o.a.vals i).toNat
        let n := (lane o.b.vals i).toNat
        p != 0 && (n == 0 || decide (131072 < n) || p % 2 ^ (6 + sizeClass n) != 0 || decide (p < base) || decide (bump ≤ p))
      if bad ≠ 0 then .next (bu.2.raise (s.execFault 1 19 l.toNat bad []))
      else depart f (.hfree f l) bu.2
    | .error x, _ => .next (bu.2.raise (s.execFault x.1.1 x.1.2 l.toNat o.live (splat (w64 x.2))))
    | _, .error x => .next (bu.2.raise (s.execFault x.1.1 x.1.2 l.toNat o.live (splat (w64 x.2))))

/-! ### In-flight counters (R406, R407) -/

/-- Are the four counters at or below their thresholds? -/
def Gang.drained (g : Gang) (st cp ta sf : Nat) : Bool :=
  decide (inFlight g.flST ≤ st ∧ inFlight g.flCP ≤ cp ∧ inFlight g.flTA ≤ ta ∧ inFlight g.flSF ≤ sf)

/-- An instruction that completes when a condition holds: it stays to be issued until then. An instruction that is null does
nothing and completes. -/
def waitFor (f : Form) (ok : Opnd → Bool) (s : State) : Out :=
  match s.blk? with
  | none => .next s
  | some b =>
    let o := b.opnd s.idx f
    if !o.acts || ok o then .next (s.setBlk ({ b with progress := s.clock }.markDone s.idx)) else .next s

/-- `fence` (R404): its place in the block's order is kept by what waits for it (`Blk.lsidHolds`); as a release at a scope beyond the core it
leaves no earlier store of the core to be written. -/
def execFence (f : Form) (lsid : BitVec 5) (s : State) : Out :=
  waitFor f (fun _ => true) (if (Instr.fence f lsid).releasesLsid && decide (2 ≤ f.sc.toNat) then s.flushCore s.g.core else s)

/-- `wait` (R407). -/
def execWait (f : Form) (n1 n2 n3 n4 : BitVec 6) (s : State) : Out :=
  waitFor f (fun _ => s.g.drained n1.toNat n2.toNat n3.toNat n4.toNat) s

/-- The operations counted on a path. -/
def Gang.flight (g : Gang) : Path → List Flight
  | .st => g.flST | .cp => g.flCP | .ta => g.flTA | .sf => g.flSF

/-- `waitr` (R407). -/
def execWaitr (f : Form) (p : Path) (s : State) : Out :=
  waitFor f (fun o => decide (inFlight (s.g.flight p) ≤ min o.ua 63)) s

end Sys2Proof.Machine
end

