-- ==== Sys2Proof/Machine/SyncOps.lean ====
section
/-! DEFINITION. Semaphores, named barriers, timelines, the logical clock, provenance and stall counters
(spec/14_isa_memory_sync.md R417 to R427; spec/16_isa_system.md R468). Gates of fixed order (R227) and the order of
R405 are applied where the core chooses what to issue (Machine/Block.lean). -/

namespace Sys2Proof.Machine

/-! ### Completing an instruction of another gang -/

/-- An instruction of a gang's primary instance that has issued and not completed. -/
def Blk.pendingAt (b : Blk) (idx : Nat) : Bool := b.issued.getLsbD idx && !b.done.getLsbD idx

/-- The lowest such instruction that satisfies a test. -/
def Gang.waitingInstr (g : Gang) (p : Instr → Bool) : Option (Nat × Instr) :=
  match g.prim with
  | none => none
  | some b => b.instrs.find? fun q => b.pendingAt q.1 && p q.2

/-- The outcome of an instruction of the primary entered (R150). -/
def Gang.holdAt (g : Gang) (b : Blk) (idx : Nat) (x : Lanes) : Gang :=
  { g with held := tset g.held (b.position g.sup idx) x }

/-- A waiting instruction of the gang completes in a cycle: its outcome is held where it was not before, its token is delivered, and the
gang is excluded no longer (R228). -/
def Gang.finish (g : Gang) (now idx : Nat) (f : Form) (x : Option Lanes) (t : Option Tok) : Gang :=
  match g.prim with
  | none => g
  | some b =>
    let g1 := match x with | some v => g.holdAt b idx v | none => g
    let b1 := match t with | some v => b.deliver idx f v | none => b.markDone idx
    { g1 with prim := some { b1 with progress := now }, excluded := false }

/-- An outcome that stands for "performed" (R254): 1 in lane 0. -/
def performed : Lanes := lanes fun l => if l = 0 then 1 else 0

/-! ### Semaphores (R417 to R419) -/

/-- A semaphore of the focused gang's core. -/
def Core.semAt (c : Core) (n : Nat) : Sem := tget c.sems n {}

/-- A queued request granted to its gang in a cycle of the core: the `sem.acq` completes. -/
def Gang.grant (g : Gang) (now n : Nat) : Gang :=
  match g.waitingInstr (fun i => match i with | .semAcq _ m _ => m.toNat == n | _ => false) with
  | some (idx, .semAcq f _ _) => g.finish now idx f (some performed) none
  | _ => g

/-- The head requests of a semaphore served while they fit (R418). -/
def State.serveSem (s : State) (core n : Nat) : Nat → State
  | 0 => s
  | k + 1 =>
    let m := (s.coreAt core).semAt n
    match m.queue with
    | (gang, amt) :: rest =>
      if amt ≤ m.count then
        State.serveSem ((s.modCore core fun c => { c with sems := tset c.sems n { count := m.count - amt, queue := rest } }).modGang gang
          fun g => g.grant (s.coreAt core).cyc n) core n k
      else s
    | [] => s

/-- A semaphore raised and its queue served. -/
def State.raiseSem (s : State) (core n amt : Nat) : State :=
  let m := (s.coreAt core).semAt n
  (s.modCore core fun c => { c with sems := tset c.sems n { m with count := m.count + amt } }).serveSem core n (m.queue.length)

/-- A gang's place in fixed order: (`LCK`, id). -/
def State.orderKey (s : State) (g : Nat) : Nat × Nat :=
  match s.gangAt g with
  | some x => (x.lck.toNat, x.lgid.toNat)
  | none => (0, 0)


/-- A request entered: by arrival, or under fixed order by (`LCK`, id) (R228). -/
def insertReq (key : Nat → Nat × Nat) (r : Nat × Nat) : List (Nat × Nat) → List (Nat × Nat)
  | [] => [r]
  | x :: xs => if pairLt (key r.1) (key x.1) then r :: x :: xs else x :: insertReq key r xs

/-- A release of R211 at a scope beyond the core leaves no earlier store of the core to be written; its own scope is the team, and SC can
widen it. -/
def State.releaseAt (s : State) (f : Form) : State := if 2 ≤ f.sc.toNat then s.flushCore s.g.core else s

/-- A gated or issue-time instruction: its held outcome again, whatever its operands then hold (08 R242, R150); nothing when it does not act;
a fault of the handler by R248; else it performs. -/
def issueOnce (f : Form) (i : Instr) (again : Blk → Opnd → Lanes → State → State) (perform : Blk → Opnd → State → Out)
    (s : State) : Out :=
  match s.blk? with
  | none => .next s
  | some b =>
    let o := b.opnd s.idx f
    match s.heldHere with
    | some x => .next (again b o x s)
    | none =>
      if !o.acts then nullReply f false f.vc s
      else if s.handlerBars i then .next (s.raise (s.execFault 1 20 255 o.live []))
      else perform b o s

/-- The instruction completes without a token. -/
def State.doneNow (s : State) : State :=
  match s.blk? with
  | none => s
  | some b => s.setBlk ({ b with progress := s.clock }.markDone s.idx)

/-- The instruction delivers a uniform token after the latency of R202. -/
def State.deliverUni (s : State) (f : Form) (x : W64) : State :=
  match s.blk? with
  | none => s
  | some b => s.setBlk ({ b with progress := s.clock }.deliver s.idx f { tokOf .uni (splat x) 0 with ready := some (s.clock + s.lat latInt) })

/-- The instruction waits after performing its request; under fixed order its gang is excluded from the minimum (R228). -/
def State.waitHere (s : State) : State :=
  let s1 := s.issuedNow
  { s1 with g := { s1.g with excluded := s.launchOf.fixord } }

/-- `sem.acq` (R418). -/
def execSemAcq (f : Form) (n : BitVec 6) (m : BitVec 10) (s : State) : Out :=
  issueOnce f (.semAcq f n m) (fun _ _ _ s => s.doneNow) (fun _ _ s =>
    let x := s.core.semAt n.toNat
    if x.queue.isEmpty && decide (m.toNat ≤ x.count) then
      .next ((s.modCore s.g.core fun c => { c with sems := tset c.sems n.toNat { x with count := x.count - m.toNat } }).hold
        performed 0).doneNow
    else
      let q := if s.launchOf.fixord then insertReq s.orderKey (s.gid, m.toNat) x.queue else x.queue ++ [(s.gid, m.toNat)]
      .next ((s.waitHere.modCore s.g.core fun c => { c with sems := tset c.sems n.toNat { x with queue := q } }).serveSem
        s.g.core n.toNat q.length)) s

/-- `sem.rel` (R418). -/
def execSemRel (f : Form) (n : BitVec 6) (m : BitVec 10) (s : State) : Out :=
  issueOnce f (.semRel f n m) (fun _ _ _ s => s.doneNow) (fun _ o s =>
    if 65535 < (s.core.semAt n.toNat).count + m.toNat then .next (s.raise (s.execFault 12 0 255 o.live []))
    else .next (((s.releaseAt f).raiseSem s.g.core n.toNat m.toNat).hold performed 0).doneNow) s

/-- `sem.try` (R418). -/
def execSemTry (f : Form) (n : BitVec 6) (m : BitVec 10) (s : State) : Out :=
  issueOnce f (.semTry f n m) (fun _ _ x s => s.deliverUni f (lane x 0)) (fun _ _ s =>
    let x := s.core.semAt n.toNat
    let ok := x.queue.isEmpty && decide (m.toNat ≤ x.count)
    let s1 := if ok then s.modCore s.g.core fun c => { c with sems := tset c.sems n.toNat { x with count := x.count - m.toNat } } else s
    let r : W64 := if ok then 1 else 0
    .next ((s1.hold (uniOutcome r) 0).deliverUni f r)) s

/-! ### Named barriers (R420 to R423) -/

/-- GEN of a barrier's state word. -/
def barGenOf (w : W64) : Nat := bits w.toNat 31 0
/-- ARRIVED. -/
def barArrived (w : W64) : Nat := bits w.toNat 37 32
/-- EXPECT. -/
def barExpect (w : W64) : Nat := bits w.toNat 43 38
/-- DROPS. -/
def barDrops (w : W64) : Nat := bits w.toNat 49 44
/-- TXPEND, 14 bits. -/
def barTxPend (w : W64) : Nat := bits w.toNat 63 50

/-- A state word from its fields. -/
def barWord (gen arrived expect drops tx : Nat) : W64 :=
  w64 (gen % 2 ^ 32 + arrived % 64 * 2 ^ 32 + expect % 64 * 2 ^ 38 + drops % 64 * 2 ^ 44 + tx % 16384 * 2 ^ 50)

/-- Check (R422). -/
def barCheck (w : W64) : W64 :=
  if 0 < barExpect w ∧ barArrived w = barExpect w ∧ barTxPend w = 0 then
    barWord (barGenOf w + 1) 0 (barExpect w - barDrops w) 0 0
  else w

/-- Done(g) (R422). -/
def barDone (w : W64) (g : Nat) : Bool :=
  let d := (barGenOf w + 2 ^ 32 - g % 2 ^ 32) % 2 ^ 32
  decide (1 ≤ d ∧ d ≤ 2 ^ 31)

/-- A barrier's state word. -/
def Team.bar (t : Team) (b : Nat) : W64 := tget t.bars b 0

/-- The generation that a waiting barrier instruction waits for. -/
def Gang.barGoal (g : Gang) (idx : Nat) (i : Instr) : Option Nat :=
  match g.prim with
  | none => none
  | some b =>
    match i with
    | .barWait f _ => some ((lane (b.opnd idx f).a.vals 0).toNat % 2 ^ 32)
    | .barAw _ _ => (tfind g.held (b.position g.sup idx)).map fun x => (lane x 0).toNat
    | _ => none

/-- Does an instruction wait on barrier b? -/
def waitsBar (b : Nat) (i : Instr) : Bool :=
  match i with
  | .barWait _ n | .barAw _ n => n.toNat == b
  | _ => false

/-- The gang's wait on a barrier ends when its generation is done. -/
def Gang.wakeBar (g : Gang) (now b : Nat) (w : W64) : Gang :=
  match g.waitingInstr (waitsBar b) with
  | none => g
  | some (idx, i) =>
    match g.barGoal idx i, i with
    | some gen, .barWait f _ => if barDone w gen then g.finish now idx f (some performed) none else g
    | some gen, .barAw f _ =>
      if barDone w gen then g.finish now idx f none (some { tokOf .uni (splat (w64 gen)) 0 with ready := some (now + 1) }) else g
    | _, _ => g

/-- A barrier's state word replaced, and every gang of the team whose wait has ended woken. -/
def State.setBar (s : State) (team b : Nat) (w : W64) : State :=
  let s1 := s.modTeam team fun t => { t with bars := tset t.bars b w }
  (s1.allGangs.filter fun p => p.2.team == team).foldl (fun s p => s.modGang p.1 fun g => g.wakeBar s.clock b w) s1

/-- Does a gang of the team wait on the barrier? -/
def State.barWaited (s : State) (team b : Nat) : Bool :=
  s.allGangs.any fun p => p.2.team == team && (p.2.waitingInstr (waitsBar b)).isSome

/-- A barrier instruction: a barrier number that the team does not hold faults (R421). -/
def barOp (f : Form) (i : Instr) (b : BitVec 9) (again : Blk → Opnd → Lanes → State → State)
    (perform : Opnd → W64 → State → Out) (s : State) : Out :=
  issueOnce f i again (fun _ o s =>
    if s.team.barriers ≤ b.toNat then .next (s.raise (s.execFault 1 19 255 o.live []))
    else perform o (s.team.bar b.toNat) s) s

/-- Arrive(drop) (R422): the state word before Check, or none for an over-arrival. -/
def barArrive (drop : Bool) (w : W64) : Option W64 :=
  if barExpect w = 0 ∨ barArrived w = barExpect w then none
  else some (barWord (barGenOf w) (barArrived w + 1) (barExpect w) (barDrops w + if drop then 1 else 0) (barTxPend w))

/-- `bar.arr` and `bar.drop`. -/
def arriveOp (drop : Bool) (f : Form) (i : Instr) (b : BitVec 9) (s : State) : Out :=
  barOp f i b (fun _ _ x s => s.deliverUni f (lane x 0)) (fun o w s =>
    match barArrive drop w with
    | none => .next (s.raise (s.execFault 11 0 255 o.live []))
    | some w' =>
      let g := w64 (barGenOf w)
      .next ((((s.releaseAt f).hold (uniOutcome g) 0).setBar s.g.team b.toNat (barCheck w')).deliverUni f g)) s

/-- `bar.arr` (R422). -/
def execBarArr (f : Form) (b : BitVec 9) (s : State) : Out := arriveOp false f (.barArr f b) b s
/-- `bar.drop` (R422). -/
def execBarDrop (f : Form) (b : BitVec 9) (s : State) : Out := arriveOp true f (.barDrop f b) b s

/-- `bar.wait` (R422): completes when Done(a mod 2^32). -/
def execBarWait (f : Form) (b : BitVec 9) (s : State) : Out :=
  barOp f (.barWait f b) b (fun _ _ _ s => s.doneNow) (fun o w s =>
    if barDone w o.ua then .next (s.hold performed 0).doneNow else .next s.waitHere) s

/-- `bar.aw` (R422): arrives once, then waits; an arrival that stands is not made again (R423). -/
def execBarAw (f : Form) (b : BitVec 9) (s : State) : Out :=
  barOp f (.barAw f b) b
    (fun _ _ x s => if barDone (s.team.bar b.toNat) (lane x 0).toNat then s.deliverUni f (lane x 0) else s.waitHere)
    (fun o w s =>
      match barArrive false w with
      | none => .next (s.raise (s.execFault 11 0 255 o.live []))
      | some w' =>
        let g := w64 (barGenOf w)
        .next (((s.releaseAt f).hold (uniOutcome g) 0).waitHere.setBar s.g.team b.toNat (barCheck w'))) s

/-- `bar.tx` (R422). -/
def execBarTx (f : Form) (b : BitVec 9) (s : State) : Out :=
  barOp f (.barTx f b) b (fun _ _ _ s => s.doneNow) (fun o w s =>
    let a := (lane o.a.vals 0).toInt
    if a < -8192 ∨ 8191 < a then .next (s.raise (s.execFault 1 19 255 o.live []))
    else
      let tx := (((barTxPend w : Int) + a) % 16384).toNat
      .next ((s.hold performed 0).setBar s.g.team b.toNat
        (barCheck (barWord (barGenOf w) (barArrived w) (barExpect w) (barDrops w) tx))).doneNow) s

/-- `bar.init` (R422). -/
def execBarInit (f : Form) (b : BitVec 9) (s : State) : Out :=
  barOp f (.barInit f b) b (fun _ _ _ s => s.doneNow) (fun o w s =>
    if 63 < o.ua ∨ barArrived w ≠ 0 ∨ barDrops w ≠ 0 ∨ s.barWaited s.g.team b.toNat = true then
      .next (s.raise (s.execFault 1 19 255 o.live []))
    else
      .next ((s.hold performed 0).modTeam s.g.team fun t =>
        { t with bars := tset t.bars b.toNat (barWord (barGenOf w) 0 o.ua 0 0) }).doneNow) s

/-- `bar.gen` (R421): the state word. -/
def execBarGen (f : Form) (b : BitVec 9) (s : State) : Out :=
  barOp f (.barGen f b) b (fun _ _ x s => s.deliverUni f (lane x 0)) (fun _ w s =>
    .next ((s.hold (uniOutcome w) 0).deliverUni f w)) s

/-! ### Timelines (R424) -/

/-- The fault of a selector for a context, or the timeline it names as kind and index. -/
def State.timelineOf (s : State) (ctx : Nat) (sel : Nat) : Except Fail (Nat × Nat) :=
  match sel / 2 ^ 60 with
  | 0 =>
    if bits sel 59 6 ≠ 0 then .error (1, 19)
    else if sel % 64 ≠ ctx then .error (16, 4)
    else .ok (0, sel % 64)
  | 1 =>
    if bits sel 59 9 ≠ 0 ∨ !s.inDomain (sel % 512 / 8) then .error (1, 19)
    else if s.stackLost (sel % 512) then .error (8, 0)
    else .ok (1, sel % 512)
  | k =>
    let core := sel % 256
    let pkg := bits sel 15 10
    if 3 < k ∨ bits sel 59 16 ≠ 0 ∨ 143 < core ∨ !s.inDomain pkg then .error (1, 19)
    else if pkg = s.self ∧ s.pkg.failedUnits.contains (.die (bits sel 9 8)) then .error (8, 0)
    else .ok (k, pkg * 1024 + bits sel 9 8 * 144 + core)

/-- The value of a timeline of a context; one of another package is a free value. -/
def State.timelineValue (s : State) (ctx : Nat) (t : Nat × Nat) : W64 × State :=
  match t.1 with
  | 0 => ((s.queueAt t.2).qtl, s)
  | 1 =>
    if t.2 / 8 = s.self then (w64 (tget (s.ctxAt ctx).badger t.2 0), s)
    else (Config.freeValue s.free, { s with free := s.free + 1 })
  | k =>
    if t.2 / 1024 = s.self then
      let c := s.coreAt (t.2 % 1024)
      (w64 (if k = 2 then tget c.bvDone ctx 0 else c.tqDone), s)
    else (Config.freeValue s.free, { s with free := s.free + 1 })

/-- A timeline instruction. -/
def timelineOp (f : Form) (k : Opnd → W64 → State → State) (s : State) : Out :=
  match s.blk? with
  | none => .next s
  | some b =>
    let o := b.opnd s.idx f
    if !o.acts then nullReply f false f.vc s
    else match s.timelineOf s.ctxNo o.ua with
      | .error x => .next (s.raise (s.execFault x.1 x.2 255 o.live []))
      | .ok t =>
        let v := s.timelineValue s.ctxNo t
        .next (k o v.1 v.2)

/-- `tlwait` (R424): completes when the timeline holds b or more; until then it stays to be issued. -/
def execTlwait (f : Form) (s : State) : Out :=
  timelineOp f (fun o v s => if o.ub ≤ v.toNat then s.doneNow else s) s

/-- `tlread` (R424): its value, after a delay that the spec leaves open (R203). -/
def execTlread (f : Form) (s : State) : Out :=
  timelineOp f (fun _ v s => match s.blk? with
    | none => s
    | some b =>
      let sent : Blk := { b.deliver s.idx f (tokOf .uni (splat v) 0) with done := b.done, issued := b.issued ||| bit96 s.idx, progress := s.clock }
      (s.setBlk sent).plainRequest s.idx) s

/-- `dsync` (R425); in a handler block under fixed order it is a fault inside the handler (R248). As a release at the determinism domain it
leaves no store of the core to be written where that domain has more than one team, or SC widens it (R211). -/
def execDsync (f : Form) (s : State) : Out :=
  match s.blk? with
  | none => .next s
  | some b =>
    let o := b.opnd s.idx f
    if o.acts && s.handlerBars (.dsync f) then .next (s.raise (s.execFault 1 20 255 o.live []))
    else .next (if o.acts && (s.launchOf.domcl || decide (2 ≤ f.sc.toNat)) then s.flushCore s.g.core else s).doneNow

/-- `lclk` (R426). -/
def execLclk (f : Form) (s : State) : Out :=
  compute f latInt (fun _ o => (o.result f.vc (~~~o.pred) fun _ => s.g.lck, 0)) s

/-! ### Observation (R468) -/

/-- Word l mod 4 of the provenance record in every lane. -/
def provLanes (p : List W64) : Lanes := lanes fun l => p.getD (l % 4) 0

/-- `prov` (R468): what was read is left for the clear at commit. -/
def execProv (f : Form) (clear : Bool) (s : State) : Out :=
  match s.blk? with
  | none => .next s
  | some b =>
    let o := b.opnd s.idx f
    let t := { o.result f.vc (~~~o.pred) (fun l => lane (provLanes s.g.prov) l) with ready := some (s.clock + s.lat latInt) }
    .next (s.setBlk (({ b with progress := s.clock }.leave
      { idx := s.idx, ins := .prov f clear, lanes := o.live, a := provLanes s.g.prov, b := [], c := [] }).deliver s.idx f t))

/-- The exit-record entry of the focused gang's index (R260). -/
def State.gangRec (s : State) : GangRec := tget s.team.recs s.g.index {}

/-- `stalls` (R468). -/
def execStalls (f : Form) (s : State) : Out :=
  compute f latInt (fun _ o => (o.result f.vc (~~~o.pred) fun l => (s.gangRec.stalls.getD (l % 16) 0).setWidth 64, 0)) s

end Sys2Proof.Machine
end

