-- ==== Sys2Proof/Machine/TileArray.lean ====
section
/-! DEFINITION. The arithmetic of the tile array (spec/15_isa_tile_copy_pool.md R429 to R439), as functions of bytes, with the
first provenance event of each operation (spec/09_debug.md R269). -/

namespace Sys2Proof.Machine

/-- A list cut into k pieces of n. -/
def pieces {α : Type} (n : Nat) : Nat → List α → List (List α)
  | 0, _ => []
  | k + 1, l => l.take n :: pieces n k (l.drop n)

/-! ### Formats (R430, R431) -/

/-- Elements of a 64-byte row or column. -/
def rowElems (t : Ty) : Nat := 512 / t.width
/-- G: elements of a k-group. -/
def groupSize (t : Ty) : Nat := if t.width = 16 then 16 else 32
/-- Number of k-groups. -/
def groupCount (t : Ty) : Nat := rowElems t / groupSize t

/-- The element patterns of a row's bytes in increasing k. -/
def rowPats (t : Ty) (bs : List Byte) : List Nat :=
  if t.width = 4 then bs.flatMap fun b => [b.toNat % 16, b.toNat / 16]
  else if t.width = 16 then (pieces 2 (bs.length / 2) bs).map natOf
  else bs.map (·.toNat)

/-- An 8-bit two's-complement value. -/
def sbyte (p : Nat) : Int := if p < 128 then p else (p : Int) - 256

/-- The value of an element before its scale (R361, R363). -/
def elemVal (t : Ty) (p : Nat) : FVal :=
  if t = .mxi8 then .num (decide (128 ≤ p)) (sbyte p).natAbs (-6) else fIn t p

/-- A value times an E8M0 scale (R363). -/
def scaleBy (e : Nat) (v : FVal) : FVal :=
  if e = 255 then .nan false
  else match v with
    | .num n m x => .num n m (x + e - 127)
    | w => w

/-- The k-groups of a row: its scaled element values. `scales` holds the row's scales. -/
def rowGroups (t : Ty) (bs : List Byte) (scales : List Byte) : List (List FVal) :=
  let gs := pieces (groupSize t) (groupCount t) ((rowPats t bs).map (elemVal t))
  if t.isMx then (gs.zip scales).map fun p => p.1.map (scaleBy p.2.toNat) else gs

/-- Every row of a 4096-byte fragment with its scales. -/
def fragment (t : Ty) (bs scales : List Byte) : List (List (List FVal)) :=
  let n := groupCount t
  ((pieces 64 64 bs).zip (pieces n 64 scales ++ List.replicate 64 [])).map fun p => rowGroups t p.1 p.2

/-! ### Products (R434) -/

/-- The exact sum s of a group's terms. -/
def sumTerms (qs : List FVal) : FVal :=
  if qs.any (·.isNan) || (qs.contains (.inf true) && qs.contains (.inf false)) then .nan false
  else if qs.contains (.inf true) then .inf true
  else if qs.contains (.inf false) then .inf false
  else match qs.foldl (fun a q => (fAdd 0 a q).1) (.num true 0 0) with
    | .num n m e => .num (if m = 0 then qs.all (fun q => q.isZero && q.neg) else n) m e
    | v => v

/-- The term q of `tmma` or `tdist`. -/
def mmaTerm (dist : Bool) (a b : FVal) : FVal :=
  if dist then
    let d := (fAdd 0 a b.flip).1
    (fMul d d).1
  else (fMul a b).1

/-- One step: an element's k-group, with the accumulator before and after. -/
structure MmaStep where
  accIn : Nat
  aNan : Bool
  bNan : Bool
  finite : Bool
  accOut : Nat
  deriving DecidableEq, Repr

/-- Is a value finite? -/
def FVal.finite : FVal → Bool
  | .num _ _ _ => true
  | _ => false

/-- The steps of one element from its accumulator. -/
def elemSteps (dist : Bool) : Nat → List (List FVal × List FVal) → List MmaStep
  | _, [] => []
  | acc, (a, b) :: r =>
    let s := sumTerms ((a.zip b).map fun p => mmaTerm dist p.1 p.2)
    let out := (finish .f32 ⟨0, 0⟩ (fAdd 0 (fIn .f32 acc) s)).1
    { accIn := acc, aNan := a.any (·.isNan), bNan := b.any (·.isNan),
      finite := a.all (·.finite) && b.all (·.finite) && (fIn .f32 acc).finite, accOut := out } :: elemSteps dist out r

/-- The steps of every element: row, column, k-group. -/
def mmaSteps (dist : Bool) (a b : List (List (List FVal))) (d : List (List Nat)) : List (List (List MmaStep)) :=
  (a.zip d).map fun p => (b.zip p.2).map fun q => elemSteps dist q.2 (p.1.zip q.1)

/-- The event of a step: KIND and OPND (R269). -/
def MmaStep.event (r : MmaStep) : Option (Nat × Nat) :=
  if r.aNan then some (1, 0)
  else if r.bNan then some (1, 1)
  else if (fIn .f32 r.accIn).isNan then some (1, 2)
  else if (fIn .f32 r.accOut).isNan then some (2, 3)
  else if !(fIn .f32 r.accOut).finite && r.finite then some (3, 3)
  else none

/-- A provenance event: KIND, OPND, FMT, OPC, ROW, COL, KGROUP, TILE as bytes [11:0] of the record. -/
def provWord (kind opnd fmt opc row col kgroup tile : Nat) : Nat :=
  kind + opnd * 2 ^ 8 + fmt * 2 ^ 16 + opc * 2 ^ 24 + row * 2 ^ 32 + col * 2 ^ 48 + kgroup * 2 ^ 64 + tile * 2 ^ 80

/-- The first element of a list that gives something, with its position. -/
def firstSome {α β : Type} (f : Nat → α → Option β) : Nat → List α → Option β
  | _, [] => none
  | n, x :: r =>
    match f n x with
    | some y => some y
    | none => firstSome f (n + 1) r

/-- The first event of a product: k-group, row, column (R269). -/
def mmaEvent (ta tb : Ty) (opc tile : Nat) (st : List (List (List MmaStep))) : Option Nat :=
  firstSome (fun _ g => firstSome (fun i row => firstSome (fun j (steps : List MmaStep) =>
      match steps[g]? with
      | none => none
      | some r => r.event.map fun e =>
          let fmt := if e.2 = 0 then ta.code.toNat else if e.2 = 1 then tb.code.toNat else 12
          provWord e.1 e.2 fmt opc i j g tile) 0 row) 0 st) 0 (List.range (groupCount ta))

/-- The integer product of one element: acc + Σ a × b modulo 2^32. -/
def elemInt (dist : Bool) (acc : Nat) (a b : List Nat) : Nat :=
  let s := (a.zip b).foldl (fun z p =>
    let x := sbyte p.1
    let y := sbyte p.2
    z + (if dist then (x - y) * (x - y) else x * y)) (acc : Int)
  (s % (2 ^ 32 : Int)).toNat

/-- The elements of a tile's 16,384 bytes by row. -/
def tileRows (bs : List Byte) : List (List Nat) := (pieces 256 64 bs).map fun r => (pieces 4 64 r).map natOf
/-- The bytes of a tile from its elements. -/
def tileBytes (rows : List (List Nat)) : List Byte := rows.flatMap fun r => r.flatMap (bytesOf 4)
/-- A tile of zeros. -/
def zeroTile : List (List Nat) := List.replicate 64 (List.replicate 64 0)

/-- `tmma` and `tdist`: the new tile and the first event. -/
def mmaResult (dist : Bool) (ta tb : Ty) (zero : Bool) (tile : Nat) (aBytes aScales bBytes bScales : List Byte)
    (d : List (List Nat)) : List (List Nat) × Option Nat :=
  let d := if zero then zeroTile else d
  if ta = .i8 then
    let a := (pieces 64 64 aBytes).map (rowPats .i8)
    let b := (pieces 64 64 bBytes).map (rowPats .i8)
    ((a.zip d).map fun p => (b.zip p.2).map fun q => elemInt dist q.2 p.1 q.1, none)
  else
    let st := mmaSteps dist (fragment ta aBytes aScales) (fragment tb bBytes bScales) d
    (st.map fun r => r.map fun e => (e.getLast?.map (·.accOut)).getD 0, mmaEvent ta tb (if dist then 1 else 0) tile st)

/-! ### Row operations (R437 to R439) -/

/-- Does entry x rank before entry y (R437)? Equal entries keep their column order. -/
def ranksBefore (t : Ty) (largest : Bool) (x y : Nat) : Bool :=
  if t = .i32 then
    let a := ext .i32 (w64 x)
    let b := ext .i32 (w64 y)
    if largest then decide (b < a) else decide (a < b)
  else
    let a := fIn .f32 x
    let b := fIn .f32 y
    if a.isNan then false
    else if b.isNan then true
    else
      let o := fOrder a b
      let c := if o ≠ 0 then o else if a.neg && !b.neg then -1 else if !a.neg && b.neg then 1 else 0
      if largest then c == 1 else c == -1

/-- An entry (value, column) inserted after every entry that does not rank behind it. -/
def rankInsert (t : Ty) (largest : Bool) (x : Nat × Nat) : List (Nat × Nat) → List (Nat × Nat)
  | [] => [x]
  | y :: r => if ranksBefore t largest x.1 y.1 then x :: y :: r else y :: rankInsert t largest x r

/-- A row's destination: k entries, zeros, their columns, zeros. -/
def topRow (t : Ty) (largest : Bool) (k : Nat) (row : List Nat) : List Nat :=
  let ranked := ((row.zip (List.range 64)).foldl (fun a x => rankInsert t largest x a) []).take k
  let pad := fun (l : List Nat) => l ++ List.replicate (32 - l.length) 0
  pad (ranked.map (·.1)) ++ pad (ranked.map (·.2))

/-- `ttopk`: the destination tile and the first NaN consumed. -/
def topResult (t : Ty) (largest : Bool) (k tile : Nat) (rows : List (List Nat)) : List (List Nat) × Option Nat :=
  (rows.map (topRow t largest k),
   if t = .i32 then none
   else firstSome (fun i row => firstSome (fun j x =>
     if (fIn .f32 x).isNan then some (provWord 1 2 12 2 i j 0 tile) else none) 0 row) 0 rows)

/-- Pairs of a list joined by a node. -/
def pairUp (node : Nat → Nat → Nat) : List Nat → List Nat
  | x :: y :: r => node x y :: pairUp node r
  | l => l

/-- The six levels of a row's tree. -/
def rowTree (node : Nat → Nat → Nat) (x : List Nat) : Nat := (Nat.repeat (pairUp node) 6 x).headD 0

/-- The half of a lane value that belongs to row i (R438). -/
def rowHalf (x : Lanes) (i : Nat) : Nat := bits (lane x (i / 2)).toNat (32 * (i % 2) + 31) (32 * (i % 2))

/-- `trmax` and `trsum` of one row with L entries. -/
def rowReduce (mx : Bool) (t : Ty) (mode n : Nat) (row : List Nat) : Nat :=
  let op := if mx then RedOp.max else .add
  let id := redIdentity op t
  rowTree (fun x y => (redNode op t ⟨mode, 0⟩ x y).1) ((row.zip (List.range 64)).map fun p => if p.2 < n then p.1 else id)

/-- The event of a row result. -/
def rowEvent (mx : Bool) (t : Ty) (n i tile : Nat) (row : List Nat) (r : Nat) : Option Nat :=
  let opc := if mx then 4 else 5
  let ins := (row.take n).map (fIn .f32)
  if t = .i32 ∨ n = 0 then none
  else match firstSome (fun j (x : FVal) => if x.isNan then some j else none) 0 ins with
    | some j => some (provWord 1 2 12 opc i j 0 tile)
    | none =>
      if (fIn .f32 r).isNan then some (provWord 2 3 12 opc i 0 0 tile)
      else if !(fIn .f32 r).finite && ins.all (·.finite) then some (provWord 3 3 12 opc i 0 0 tile)
      else none

/-- One element of `trscl` with its event. -/
def sclEvent (i tile j : Nat) (x s : FVal) (r : Nat) : Option Nat :=
  if x.isNan then some (provWord 1 2 12 6 i j 0 tile)
  else if (fIn .f32 r).isNan then some (provWord 2 3 12 6 i j 0 tile)
  else if !(fIn .f32 r).finite && x.finite && s.finite then some (provWord 3 3 12 6 i j 0 tile)
  else none

/-- `trscl`: the scaled tile and the first event. `scale` is none for a row left unchanged. -/
def sclResult (mode tile : Nat) (scale : Nat → Option Nat) (rows : List (List Nat)) : List (List Nat) × Option Nat :=
  let out := (rows.zip (List.range 64)).map fun p => match scale p.2 with
    | none => p.1
    | some s => p.1.map fun x => (fpMul .f32 ⟨mode, 0⟩ x s).1
  (out, firstSome (fun i (p : List Nat × List Nat) => match scale i with
    | none => none
    | some s =>
      let sv := fIn .f32 s
      if sv.isNan then some (provWord 1 1 12 6 i 0 0 tile)
      else firstSome (fun j (q : Nat × Nat) => sclEvent i tile j (fIn .f32 q.1) sv q.2) 0 (p.1.zip p.2)) 0 (rows.zip out))

end Sys2Proof.Machine
end

