-- ==== Sys2Proof/Machine/TileOps.lean ====
section
/-! DEFINITION. The tile instructions (spec/15_isa_tile_copy_pool.md R428 to R443) and the exact accumulators
(spec/13_isa_float.md R389 to R393): checks at issue, what they compute from a block's view of tile memory, and what they
leave for the commit. -/

namespace Sys2Proof.Machine

/-! ### The block's view of tile memory (R392, R435) -/

/-- Bytes from `off` with a record laid over them. -/
def TileRec.patch (r : TileRec) (off : Nat) (base : List Byte) : List Byte :=
  let n := base.length
  let a := max off r.off
  let z := min (off + n) (r.off + r.data.length)
  if a < z then base.take (a - off) ++ (r.data.drop (a - r.off)).take (z - a) ++ base.drop (z - off) else base

/-- Tile memory as an instruction of the block sees it: with the results of the lower indices. -/
def State.tileView (s : State) (b : Blk) (idx off n : Nat) : List Byte :=
  (b.tiles.filter fun r => r.idx < idx).foldl (fun a r => r.patch off a) (stRead s.team.tile off n)

/-- Records kept in index order. -/
def insertTile (r : TileRec) : List TileRec → List TileRec
  | [] => [r]
  | x :: xs => if r.idx < x.idx then r :: x :: xs else x :: insertTile r xs

/-- Does z tile i of the focused gang's team exist (R192)? -/
def State.tileExists (s : State) (z : Nat) : Bool := decide (16 * (z + 1) ≤ s.team.tileKiB)

/-- The rows of a z tile as the block sees it. -/
def State.tileOf (s : State) (b : Blk) (idx z : Nat) : List (List Nat) := tileRows (s.tileView b idx (16384 * z) 16384)

/-- The tile array taken for some cycles (R436). -/
def State.takeArray (s : State) (n : Nat) : State := s.modCore s.g.core fun c => { c with tileFree := s.clock + n }

/-- A z tile reaches its result latency at a later cycle (R167). -/
def State.tileDue (s : State) (z n : Nat) : State := { s with g := { s.g with tileBusy := tset s.g.tileBusy z (s.clock + n) } }

/-- A tile result left for the commit, with the operation's first event. -/
def Blk.leaveTile (b : Blk) (idx z : Nat) (r : List (List Nat) × Option Nat) : Blk :=
  { b with tiles := insertTile { idx := idx, off := 16384 * z, data := tileBytes r.1 } b.tiles,
           prov := match r.2 with | some e => b.prov ++ [(idx, e)] | none => b.prov }

/-- The reduced-service check of R430: only bf16. -/
def State.reduced (s : State) : Bool := s.pkg.bring == .reduced

/-- A tile instruction without a token: a fault of its checks, nothing when it does not act, or its result left for the
commit with the array and the tile's scoreboard taken. -/
def tileInstr (f : Form) (zr zw occupy due : Nat) (chk : Opnd → Option (Nat × Nat))
    (res : Env → Opnd → Blk → List (List Nat) × Option Nat) (s : State) : Out :=
  match s.blk? with
  | none => .next s
  | some b =>
    let o := b.opnd s.idx f
    if !o.acts then .next (s.setBlk ({ b with progress := s.clock }.markDone s.idx))
    else if !(s.tileExists zr && s.tileExists zw) then .next (s.raise (s.execFault 1 16 255 o.live []))
    else match chk o with
      | some x => .next (s.raise (s.execFault x.1 x.2 255 o.live []))
      | none =>
        .next (((s.setBlk (({ b with progress := s.clock }.leaveTile s.idx zw (res s.env o b)).markDone s.idx)).takeArray
          occupy).tileDue zw due)

/-- Bytes of the A fragment (R431): registers vb to vb + 15, lane 0 first. -/
def Gang.fragBytes (g : Gang) (vb n : Nat) : List Byte :=
  (List.range n).flatMap fun r => (g.readReg (.v (BitVec.ofNat 7 (vb + r)))).flatMap fun x => bytesOf 8 x.toNat

/-- The checks of `tmma` and `tdist` on their operands (R428, R430, R432). -/
def State.mmaCheck (s : State) (ta tb : Ty) (off soff : Nat) : Option (Nat × Nat) :=
  let size := s.team.stashKiB * 1024
  if s.reduced && !(ta == .bf16 && tb == .bf16) then some (1, 18)
  else if size < off + 4096 ∨ (ta.isMx ∧ size < soff + 64 * groupCount ta) then some (1, 19)
  else if off % 256 ≠ 0 ∨ (ta.isMx ∧ soff % 64 ≠ 0) then some (7, 0)
  else none

/-- `tmma` or `tdist` (R434). -/
def mmaOp (dist : Bool) (f : Form) (a : MmaArg) (s : State) : Out :=
  let z := a.z.toNat
  tileInstr f z z 16 24 (fun o => s.mmaCheck f.ty a.bfmt (lane o.a.vals 0).toNat (lane o.b.vals 0).toNat)
    (fun _ o b =>
      let off := (lane o.a.vals 0).toNat
      let soff := (lane o.b.vals 0).toNat
      let n := groupCount f.ty
      mmaResult dist f.ty a.bfmt a.zero z (s.g.fragBytes a.vb.toNat 16)
        (if f.ty.isMx then s.g.fragBytes (a.vb.toNat + 16) 1 else [])
        (stRead s.team.stash off 4096) (if f.ty.isMx then stRead s.team.stash soff (64 * n) else [])
        (s.tileOf b s.idx z)) s

/-- `tmma` (R434). -/
def execTmma (f : Form) (a : MmaArg) (s : State) : Out := mmaOp false f a s
/-- `tdist` (R434). -/
def execTdist (f : Form) (a : MmaArg) (s : State) : Out := mmaOp true f a s

/-- `ttopk` (R437). -/
def execTtopk (f : Form) (zs zd : BitVec 4) (k1 : BitVec 5) (largest : Bool) (s : State) : Out :=
  tileInstr f zs.toNat zd.toNat 8 20 (fun _ => none) (fun _ _ b =>
    topResult f.ty largest (k1.toNat + 1) zs.toNat (s.tileOf b s.idx zs.toNat)) s

/-- `trscl` (R439). -/
def execTrscl (f : Form) (z : BitVec 4) (s : State) : Out :=
  tileInstr f z.toNat z.toNat 4 12 (fun _ => none) (fun v o b =>
    sclResult (modeOf f.rm v.rmode false) z.toNat
      (fun i => if o.live.getLsbD (i / 2) then some (rowHalf o.a.vals i) else none) (s.tileOf b s.idx z.toNat)) s

/-- Slot a of a row reduction has a source: a token or none at all (R438). -/
def Blk.hasA (b : Blk) (idx : Nat) : Bool := (b.tok idx .a).isSome

/-- `trmax` and `trsum` (R438): they act once for the gang when the predicate holds in some active lane. -/
def rowOp (mx : Bool) (f : Form) (z : BitVec 4) (s : State) : Out :=
  match s.blk? with
  | none => .next s
  | some b =>
    let o := b.opnd s.idx f
    let out := fun (b : Blk) (x : Lanes) =>
      b.deliver s.idx f { tokOf .lane x o.nulls with ready := some (s.clock + s.lat (12, 13)) }
    if o.act &&& o.pred = 0 then .next (s.setBlk (out { b with progress := s.clock } (splat 0)))
    else if !s.tileExists z.toNat then .next (s.raise (s.execFault 1 16 255 (o.act &&& o.pred) []))
    else
      let n := fun (i : Nat) => if b.hasA s.idx then min 64 (rowHalf o.a.vals i) else 64
      let rows := s.tileOf b s.idx z.toNat
      let mode := modeOf f.rm s.env.rmode false
      let rs := (rows.zip (List.range 64)).map fun p => rowReduce mx f.ty mode (n p.2) p.1
      let ev := firstSome (fun i (p : List Nat × Nat) => rowEvent mx f.ty (n i) i z.toNat p.1 p.2) 0 (rows.zip rs)
      let b' : Blk := { b with progress := s.clock, prov := match ev with | some e => b.prov ++ [(s.idx, e)] | none => b.prov }
      .next ((s.setBlk (out b' (lanes fun l => w64 (rs.getD (2 * l) 0 + 2 ^ 32 * rs.getD (2 * l + 1) 0)))).takeArray 4)

/-- `trmax` (R438). -/
def execTrmax (f : Form) (z : BitVec 4) (s : State) : Out := rowOp true f z s
/-- `trsum` (R438). -/
def execTrsum (f : Form) (z : BitVec 4) (s : State) : Out := rowOp false f z s

/-! ### The tile queue's instructions (R440): checked at issue, entered at commit (R441) -/

/-- The pitch in force: 0 selects the row size. -/
def pitchOf (p size : Nat) : Nat := if p = 0 then size else p

/-- The checks of R440 and R428 on offset and pitch for rows of a size. -/
def State.pitchBad (s : State) (off pitch size : Nat) : Bool :=
  off % 16 != 0 || pitchOf pitch size % 16 != 0 || decide (pitchOf pitch size < size) ||
  decide (s.team.stashKiB * 1024 < off + 63 * pitchOf pitch size + size)

/-- A queue instruction: checks, then its operands left for the commit. -/
def queueInstr (f : Form) (i : Instr) (z : Nat) (bad : Opnd → Bool) (s : State) : Out :=
  departIf f i (fun o =>
    if !o.acts then none
    else if !s.tileExists z then some (s.execFault 1 16 255 o.live [])
    else if bad o then some (s.execFault 1 19 255 o.live []) else none) s

/-- `tld` (R442). -/
def execTld (f : Form) (z : BitVec 4) (s : State) : Out :=
  queueInstr f (.tld f z) z.toNat (fun o => s.pitchBad (lane o.a.vals 0).toNat (lane o.b.vals 0).toNat 256) s
/-- `tst` (R442). -/
def execTst (f : Form) (z : BitVec 4) (s : State) : Out :=
  queueInstr f (.tst f z) z.toNat (fun o => s.pitchBad (lane o.a.vals 0).toNat (lane o.b.vals 0).toNat 256) s
/-- `tclr` (R442). -/
def execTclr (f : Form) (z : BitVec 4) (s : State) : Out := queueInstr f (.tclr f z) z.toNat (fun _ => false) s
/-- `tcvt` (R443). -/
def execTcvt (f : Form) (z : BitVec 4) (trans : Bool) (src : Ty) (s : State) : Out :=
  queueInstr f (.tcvt f z trans src) z.toNat (fun o =>
    s.pitchBad (lane o.a.vals 0).toNat (lane o.b.vals 0).toNat (8 * f.ty.width) ||
    (f.ty.isMx && decide (s.team.stashKiB * 1024 < (lane o.c.vals 0).toNat + 128))) s

/-! ### Exact accumulators (R389 to R393) -/

/-- Base of accumulator j of the gang in tile memory, if it exists (R192). -/
def State.accBase (s : State) (j : Nat) : Option Nat :=
  let need := 17408 * (4 * s.g.index + j + 1)
  if need ≤ s.team.tileKiB * 1024 then some (s.team.tileKiB * 1024 - need) else none

/-- The number in 544 bytes: 4352-bit two's complement. -/
def accValue (bs : List Byte) : Int :=
  let n := natOf bs
  if 2 ^ 4351 ≤ n then (n : Int) - 2 ^ 4352 else n

/-- The 544 bytes of a number modulo 2^4352. -/
def accBytesOf (v : Int) : List Byte := bytesOf 544 (v % (2 ^ 4352 : Int)).toNat

/-- The invalid mask of an accumulator as the block sees it. -/
def State.invalView (s : State) (b : Blk) (idx j : Nat) : Mask :=
  (b.inval.filter fun p => p.1 < idx && p.2.1 == j).foldl (fun _ p => p.2.2) (s.g.xinv.getD j 0)

/-- Invalid masks kept in index order. -/
def insertInval (r : Nat × Nat × Mask) : List (Nat × Nat × Mask) → List (Nat × Nat × Mask)
  | [] => [r]
  | x :: xs => if r.1 < x.1 then r :: x :: xs else x :: insertInval r xs

/-- An exact number in units of 2^−2176. -/
def accUnits (neg : Bool) (m : Nat) (e : Int) : Int := (if neg then -1 else 1) * (m * 2 ^ (e + 2176).toNat : Nat)

/-- An instruction that changes accumulator j: the lane's new value, or none when it becomes invalid, and its flags. -/
def accUpdate (f : Form) (j : Nat) (new : Opnd → Nat → Int → Option Int × BitVec 5) (clears : Bool) (s : State) : Out :=
  match s.blk? with
  | none => .next s
  | some b =>
    let o := b.opnd s.idx f
    if !o.acts then .next (s.setBlk ({ b with progress := s.clock }.markDone s.idx))
    else match s.accBase j with
      | none => .next (s.raise (s.execFault 1 16 255 o.live []))
      | some base =>
        let ls := lanesOf o.live
        let old := fun (l : Nat) => accValue (s.tileView b s.idx (base + 544 * l) 544)
        let rs := ls.map fun l => (l, new o l (old l))
        let inv := s.invalView b s.idx j
        let bad := maskOf fun l => rs.any fun r => r.1 == l && r.2.1.isNone
        let inv' := if clears then inv &&& ~~~o.live else inv ||| bad
        let b1 := rs.foldl (fun (b : Blk) r => match r.2.1 with
          | some v => { b with tiles := insertTile { idx := s.idx, off := base + 544 * r.1, data := accBytesOf v } b.tiles }
          | none => b) b
        let b2 : Blk := { b1 with
          inval := insertInval (s.idx, j, inv') b1.inval, progress := s.clock,
          flags := b1.flags ||| rs.foldl (fun a r => a ||| r.2.2) 0 }
        let s1 := s.setBlk (b2.markDone s.idx)
        let s2 : State := { s1 with g := { s1.g with accReady := tset s1.g.accReady j (s.clock + s.lat (6, 7)) } }
        .next (s2.modCore s.g.core fun c => c.modQuarter s.g.quarter fun q => { q with accFree := s.clock + s.lat (4, 8) })

/-- `xclr` (R390). -/
def execXclr (f : Form) (j : BitVec 2) (s : State) : Out := accUpdate f j.toNat (fun _ _ _ => (some 0, 0)) true s

/-- An operand added exactly; a NaN or infinity makes the lane invalid, NV only when signalling. -/
def accAdd (old : Int) (v : FVal) (flags : BitVec 5) : Option Int × BitVec 5 :=
  match v with
  | .num n m e => (some (old + accUnits n m e), flags)
  | _ => (none, flags)

/-- `xacc` (R390): the exact product is added. -/
def execXacc (f : Form) (j : BitVec 2) (s : State) : Out :=
  accUpdate f j.toNat (fun o l old =>
    let a := fIn f.ty (o.av l)
    let b := fIn f.ty (o.bv l)
    match a, b with
    | .num n m e, .num n' m' e' => accAdd old (.num (n != n') (m * m') (e + e')) 0
    | _, _ => (none, sigFlag [a, b])) false s

/-- `xadd` (R390). -/
def execXadd (f : Form) (j : BitVec 2) (s : State) : Out :=
  accUpdate f j.toNat (fun o l old => let a := fIn f.ty (o.av l); accAdd old a (sigFlag [a])) false s

/-- An instruction that reads accumulator j in each live lane: value and whether invalid. -/
def accRead (f : Form) (j : Nat) (v : Env → Nat → Int → Bool → FRes) (s : State) : Out :=
  match s.blk? with
  | none => .next s
  | some b =>
    let o := b.opnd s.idx f
    let rs := fun (base l : Nat) =>
      v s.env l (accValue (s.tileView b s.idx (base + 544 * l) 544)) ((s.invalView b s.idx j).getLsbD l)
    let out := fun (b : Blk) (x : Lanes) =>
      b.deliver s.idx f { tokOf .lane x o.nulls with ready := some (s.clock + s.lat (12, 13)) }
    if !o.acts then .next (s.setBlk (out { b with progress := s.clock } (splat 0)))
    else match s.accBase j with
      | none => .next (s.raise (s.execFault 1 16 255 o.live []))
      | some base =>
        let b' : Blk := { b with
          flags := b.flags ||| (lanesOf o.live).foldl (fun a l => a ||| (rs base l).2) 0, progress := s.clock }
        .next (s.setBlk (out b' (lanes fun l => if o.live.getLsbD l then w64 (rs base l).1 else 0)))

/-- `xrnd` (R391). -/
def execXrnd (f : Form) (j : BitVec 2) (s : State) : Out :=
  accRead f j.toNat (fun v l x invalid =>
    if invalid then (f.ty.nan, fNV) else roundTo f.ty (v.rndAll f l 0) (decide (x < 0)) x.natAbs (-2176) false) s

/-- `xsgn` (R390): −1, 0 or +1; 2 when invalid. -/
def execXsgn (f : Form) (j : BitVec 2) (s : State) : Out :=
  accRead f j.toNat (fun _ _ x invalid =>
    (if invalid then 2 else if x < 0 then 2 ^ 64 - 1 else if x = 0 then 0 else 1, 0)) s

end Sys2Proof.Machine
end

