-- ==== Sys2Proof/Machine/Copy.lean ====
section
/-! DEFINITION. Beaver copies (spec/15_isa_tile_copy_pool.md R446 to R452): the part descriptor, its checks at the commit point, and
what a whole copy reads and writes. -/

namespace Sys2Proof.Machine

/-! ### The descriptor (R446) -/

/-- A number of w bits read as two's complement. -/
def signedOf (w x : Nat) : Int := if 2 ^ (w - 1) ≤ x then (x : Int) - 2 ^ w else x

/-- A part descriptor's fields. -/
structure CopyDesc where
  src : Nat
  dst : Nat
  idx : Nat
  fill : Nat
  bound : Nat
  status : Nat
  oormap : Nat
  spaces : Nat
  ndim : Nat
  esize : Nat
  flags : Nat
  sem : Nat
  bar : Nat
  ext : List Nat
  sstr : List Int
  dstr : List Int
  fArg : Nat
  fTy : Nat
  fOffs : List Nat
  deriving DecidableEq, Repr

/-- The fields of a descriptor's 384 bytes, with the entries of its NDIM dimensions. -/
def copyDesc (bs : List Byte) : CopyDesc :=
  let f := fieldOf bs
  let n := min 12 (f 46 1)
  { src := f 0 8, dst := f 8 8, idx := f 16 8, fill := f 24 8, bound := f 32 8, status := f 40 2, oormap := f 42 2, spaces := f 44 2,
    ndim := f 46 1, esize := f 47 1, flags := f 48 2, sem := f 50 1, bar := f 52 2,
    ext := (List.range n).map fun d => f (64 + 4 * d) 4,
    sstr := (List.range n).map fun d => signedOf 64 (f (112 + 8 * d) 8),
    dstr := (List.range n).map fun d => signedOf 64 (f (208 + 8 * d) 8),
    fArg := f 304 4, fTy := f 308 1, fOffs := (List.range 4).map fun k => f (312 + 4 * k) 4 }

/-- Bytes of an element. -/
def CopyDesc.elem (d : CopyDesc) : Nat := 2 ^ (d.esize % 4)
/-- The address space of the source (0), the destination (1) or the index list (2). -/
def CopyDesc.space (d : CopyDesc) (k : Nat) : Nat := d.spaces / 8 ^ k % 8
/-- Bytes of an index entry. -/
def CopyDesc.width (d : CopyDesc) : Nat := if d.flags.testBit 2 then 8 else 4
/-- Extent of the outermost dimension. -/
def CopyDesc.outer (d : CopyDesc) : Nat := d.ext.getLastD 0
/-- Number of positions below one index of the outermost dimension. -/
def CopyDesc.inner (d : CopyDesc) : Nat := d.ext.dropLast.foldl (· * ·) 1

/-- The kinds: 0 copy, 1 gather, 2 scatter, 3 fill (R445). -/
def readsSource (kind : BitVec 2) : Bool := kind != 3
/-- Gather and scatter use an index list. -/
def usesIndex (kind : BitVec 2) : Bool := kind == 1 || kind == 2

/-- The address spaces that a part uses. -/
def CopyDesc.used (d : CopyDesc) (kind : BitVec 2) : List Nat :=
  (if readsSource kind then [d.space 0] else []) ++ [d.space 1] ++ (if usesIndex kind then [d.space 2] else [])

/-! ### Checks at the commit point (R447) -/

/-- Every byte of a range is zero. -/
def zeroBytes (bs : List Byte) (a n : Nat) : Bool := ((bs.drop a).take n).all (· == 0)

/-- A reserved field or bit is not zero, or a field is out of range; `first` for part 0, whose `STATUS`, `SEM`, `BAR`, `FOLLOW` and
FLAGS bits 3, 4 and 6 alone count. Entries of dimensions beyond NDIM are reserved (spec/18_program_attention.md R472). -/
def copyReserved (bs : List Byte) (d : CopyDesc) (kind : BitVec 2) (first : Bool) (barriers : Nat) : Bool :=
  !(zeroBytes bs 51 1 && zeroBytes bs 54 10 && zeroBytes bs 336 48) || 4 ≤ d.esize || 128 ≤ d.flags || 512 ≤ d.spaces ||
  d.ndim == 0 || decide (12 < d.ndim) || d.ext.contains 0 ||
  !(zeroBytes bs (64 + 4 * d.ndim) (48 - 4 * d.ndim) && zeroBytes bs (112 + 8 * d.ndim) (96 - 8 * d.ndim) &&
    zeroBytes bs (208 + 8 * d.ndim) (96 - 8 * d.ndim)) ||
  (d.used kind).any (fun a => !([0, 1, 2, 3, 5].contains a)) ||
  (first && (63 < d.sem || (d.flags.testBit 4 && decide (barriers ≤ d.bar)) ||
    (d.flags.testBit 6 && (d.fArg % 128 != 0 || decide (2 ^ 18 ≤ d.fArg) || !(zeroBytes bs 309 3 && zeroBytes bs 328 8)))))

/-- A stash, tile or `rstash` span that leaves its store, or an `rstash` rank that does not exist. -/
def spanLeaves (t : Team) (space base : Nat) (dims : List (Nat × Int)) (es : Nat) : Bool :=
  if !([1, 2, 3].contains space) || dims.any (fun p => p.1 == 0) then false
  else
    let b := if space = 2 then base % 2 ^ 18 else base
    let ends := dims.map fun p => ((p.1 : Int) - 1) * p.2
    let low := (b : Int) + (ends.map (min 0)).foldl (· + ·) 0
    let high := (b : Int) + (ends.map (max 0)).foldl (· + ·) 0 + es
    let size := (if space = 3 then t.tileKiB else t.stashKiB) * 1024
    (space == 2 && (decide (2 ^ 21 ≤ base) || decide (t.cluster ≤ base / 2 ^ 18 % 8))) || decide (low < 0) || decide ((size : Int) < high)

/-- The extents with the outermost replaced by BOUND. -/
def CopyDesc.indexed (d : CopyDesc) : List Nat := d.ext.dropLast ++ [d.bound]

/-- The spans of a part. -/
def CopyDesc.spansLeave (d : CopyDesc) (t : Team) (kind : BitVec 2) (first : Bool) (mx : Bool) (groups : Nat) : Bool :=
  (readsSource kind && spanLeaves t (d.space 0) d.src ((if kind = 1 then d.indexed else d.ext).zip d.sstr) d.elem) ||
  spanLeaves t (d.space 1) d.dst ((if kind = 2 then d.indexed else d.ext).zip d.dstr) d.elem ||
  (usesIndex kind && (spanLeaves t (d.space 2) d.idx [(d.outer, d.width)] d.width ||
    (d.flags.testBit 5 && spanLeaves t 1 d.oormap [] ((d.outer + 7) / 8)))) ||
  (first && (spanLeaves t 1 d.status [] 16 ||
    (d.flags.testBit 6 &&
      (spanLeaves t 1 (d.fOffs.getD 0 0) [] 4096 || spanLeaves t 1 (d.fOffs.getD 1 0) [] 4096 ||
       (mx && (spanLeaves t 1 (d.fOffs.getD 2 0) [] 256 || spanLeaves t 1 (d.fOffs.getD 3 0) [] (64 * groups)))))))

/-- An address, stride or offset that lacks the alignment of R447. -/
def CopyDesc.misaligned (d : CopyDesc) (kind : BitVec 2) (first mx : Bool) : Bool :=
  let es := d.elem
  (readsSource kind && (d.src % es != 0 || d.sstr.dropLast.any fun x => x % es != 0)) ||
  d.dst % es != 0 || (d.dstr.dropLast.any fun x => x % es != 0) ||
  (usesIndex kind && (d.idx % d.width != 0 || (d.flags.testBit 5 && d.oormap % 8 != 0))) ||
  (first && (d.status % 16 != 0 || (d.flags.testBit 6 &&
    (d.fOffs.getD 0 0 % 256 != 0 || d.fOffs.getD 1 0 % 256 != 0 ||
     (mx && (d.fOffs.getD 2 0 % 64 != 0 || d.fOffs.getD 3 0 % 64 != 0))))))

/-- The fault of a `FOLLOW` word (R430, R447). -/
def CopyDesc.followFault (d : CopyDesc) (s : State) : Option Fail :=
  match Ty.ofCode (BitVec.ofNat 5 d.fTy), Ty.ofCode (BitVec.ofNat 5 (d.fArg / 2 ^ 11)) with
  | some a, some b =>
    if 32 ≤ d.fTy ∨ !tysA.contains a ∨ !(bFormats a).contains b then some (1, 6)
    else if s.reduced && !(a == .bf16 && b == .bf16) then some (1, 18)
    else if !s.tileExists (d.fArg / 128 % 16) then some (1, 16)
    else none
  | _, _ => some (1, 6)

/-- The checks of R447 on the descriptor of the focused gang's part, in the order of its table. `k` copy instructions of the
block stand before this one. -/
def State.copyFault (s : State) (bs : List Byte) (kind : BitVec 2) (parts k : Nat) : Option Fail :=
  let d := copyDesc bs
  let t := s.team
  let first := s.g.index == 0
  let ta := (Ty.ofCode (BitVec.ofNat 5 d.fTy)).getD .bf16
  let ord := tget t.copies s.g.index 0 + k
  if copyReserved bs d kind first t.barriers then some (1, 19)
  else if 2 ^ 40 < d.ext.foldl (· * ·) 1 then some (1, 19)
  else if d.spansLeave t kind first ta.isMx (groupCount ta) then some (1, 19)
  else if (d.used kind).contains 5 && !s.g.sup then some (16, 2)
  else if d.misaligned kind first ta.isMx then some (7, 0)
  else
    match (if first && d.flags.testBit 6 then d.followFault s else none) with
    | some x => some x
    | none =>
      if parts ≤ s.g.index || s.core.copies.any (fun c => !c.ended && c.team == s.g.team && c.ord == ord && c.parts != parts) then
        some (1, 19)
      else none

/-! ### One element (R449, R450) -/

/-- A copy under way: the state, the writes to come (latest first), and what the status record will say. -/
structure CopyAcc where
  s : State
  writes : List (CopyPart × Nat × Int × List Byte) := []
  flags : BitVec 8 := 0
  oor : Nat := 0
  fail : Option (Nat × Nat × Nat × W64) := none
  made : Nat := 0                  -- bytes of the writes made (R204)
  deriving DecidableEq, Repr

/-- CODE of R451 for a fault of translation or of the pool. -/
def copyCode (x : Fail) : Nat × Nat :=
  match x.1 with
  | 5 => (1, x.2)
  | 6 => if x.2 = 6 then (1, 4) else (2, x.2)
  | 8 => (3, 0)
  | _ => (4, 0)

/-- The page is unmapped: an entry with V = 0, `VALID` clear, or a page of another context (R70, R450). -/
def unmapped (x : Nat × Nat) : Bool := x.1 == 1

/-- The places of n bytes at an address of a space, for a part of a team; `none` for a write that is discarded because its team
lingers. -/
def State.copyPlaces (s : State) (team : Nat) (sup : Bool) (space : Nat) (addr : Int) (n : Nat) (write : Bool) :
    Except (Nat × Nat) (Option (List Place)) × State :=
  let t := s.teamAt team
  let ctx := (s.launchAt t.launch).ctx
  let a := (addr % 2 ^ 64).toNat
  let stash := fun (m off : Nat) =>
    let r := s.stashAccess m off n write
    match r.1 with
    | .bad c u => (Except.error (copyCode (c, u)), r.2)
    | .ok ps => (.ok (some ps), r.2)
    | .off _ => (.ok (some ((List.range n).map fun i => ⟨1, m, off + i⟩)), r.2)
  match space with
  | 0 =>
    let r := s.translateRun ctx a { write := write, sup := sup } n
    match r.1 with
    | .error x => (.error (copyCode x.1), r.2)
    | .ok ps => if ps.any r.2.lineLost then (.error (4, 0), r.2) else (.ok (some (ps.map fun p => ⟨0, 0, p⟩)), r.2)
  | 1 => stash team a
  | 2 =>
    let m := if a / 2 ^ 18 % 8 = t.rank then team else t.mates.getD (a / 2 ^ 18 % 8) team
    if write && (s.teamAt m).linger then (.ok none, s) else stash m (a % 2 ^ 18)
  | 3 => (.ok (some ((List.range n).map fun i => ⟨2, team, a + i⟩)), s)
  | _ =>
    match s.pageFail none (pageOf a) with
    | some x => (.error (copyCode x), s)
    | none =>
      if 2 ^ 48 ≤ a then (.error (1, 4), s)
      else if s.lineLost a || s.lineLost (a + n - 1) then (.error (4, 0), s)
      else (.ok (some ((List.range n).map fun i => ⟨0, 0, a + i⟩)), s)

/-- What the index list gives for a position of the outermost dimension. -/
inductive CopyIndex where
  | use (i : Nat)
  | fillIn           -- `FILL` is delivered, or the writes are skipped
  | stop
  deriving DecidableEq, Repr

/-- The byte at a place as an engine of the core reads it. -/
def State.engineByte (s : State) (p : Place) : Byte := if p.kind = 0 then s.poolByte p.off else s.placeByte p

/-- Bit q of the bitmap at OORMAP set. -/
def State.setMapBit (s : State) (team off q : Nat) : State :=
  let s1 := s.ownStash team (off + q / 8)
  s1.setPlace ⟨1, team, off + q / 8⟩ (memByte (s1.teamAt team).stash (off + q / 8) ||| BitVec.ofNat 8 (2 ^ (q % 8)))

/-- An index entry read and judged (R450). -/
def copyIndex (team : Nat) (p : CopyPart) (d : CopyDesc) (q : Nat) (x : CopyAcc) : CopyIndex × CopyAcc :=
  let at_ : Int := (d.idx + q * d.width : Nat)
  let r := x.s.copyPlaces team p.sup (d.space 2) at_ d.width false
  match r.1 with
  | .error e =>
    if unmapped e && d.flags.testBit 0 then (.fillIn, { x with s := r.2, flags := x.flags ||| 4 })
    else (.stop, { x with s := r.2, fail := some (e.1, e.2, p.part, BitVec.ofInt 64 at_) })
  | .ok ps =>
    let n := natOf ((ps.getD []).map r.2.engineByte)
    let v := if d.flags.testBit 1 then signedOf (8 * d.width) n else (n : Int)
    if 0 ≤ v ∧ v < d.bound then (.use v.toNat, { x with s := r.2 })
    else if v < 0 ∧ !d.flags.testBit 0 then (.stop, { x with s := r.2, fail := some (5, 0, p.part, BitVec.ofInt 64 at_) })
    else (.fillIn, { x with
      s := if d.flags.testBit 5 then r.2.setMapBit team d.oormap q else r.2,
      oor := x.oor + 1, flags := x.flags ||| (if v < 0 then 2 else 1) })

/-- The sum of the strided indices of the dimensions below the outermost at an inner position. -/
def innerOffset : List Nat → List Int → Nat → Int
  | e :: es, st :: ss, k => ((k % e : Nat) : Int) * st + innerOffset es ss (k / e)
  | _, _, _ => 0

/-- One element: its source read, its write entered. -/
def copyElement (team : Nat) (p : CopyPart) (d : CopyDesc) (q k : Nat) (i : CopyIndex) (x : CopyAcc) : CopyAcc :=
  if x.fail.isSome then x else
  let j := match i with | .use n => n | _ => q
  let so := (d.src : Int) + innerOffset d.ext.dropLast d.sstr k + (if p.kind = 1 then (j : Int) else q) * d.sstr.getLastD 0
  let do_ := (d.dst : Int) + innerOffset d.ext.dropLast d.dstr k + (if p.kind = 2 then (j : Int) else q) * d.dstr.getLastD 0
  let fill := bytesOf d.elem d.fill
  let put := fun (x : CopyAcc) (bs : List Byte) => { x with writes := (p, d.space 1, do_, bs) :: x.writes }
  if p.kind = 3 ∨ (p.kind = 1 ∧ i = .fillIn) then put x fill
  else if p.kind = 2 ∧ i = .fillIn then x
  else
    let r := x.s.copyPlaces team p.sup (d.space 0) so d.elem false
    match r.1 with
    | .error e =>
      if unmapped e && d.flags.testBit 0 then put { x with s := r.2, flags := x.flags ||| 4 } fill
      else { x with s := r.2, fail := some (e.1, e.2, p.part, BitVec.ofInt 64 so) }
    | .ok ps => put { x with s := r.2 } ((ps.getD []).map r.2.engineByte)

/-- The elements below one index of the outermost dimension, dimension 0 varying fastest. -/
def copyRow (team : Nat) (p : CopyPart) (d : CopyDesc) (q : Nat) (i : CopyIndex) : Nat → CopyAcc → CopyAcc
  | 0, x => x
  | k + 1, x => copyElement team p d q k i (copyRow team p d q i k x)

/-- The positions of a part in increasing order. -/
def copyPart (team : Nat) (p : CopyPart) (d : CopyDesc) : Nat → CopyAcc → CopyAcc
  | 0, x => x
  | q + 1, x =>
    let x1 := copyPart team p d q x
    if x1.fail.isSome then x1
    else
      let r := if usesIndex p.kind then copyIndex team p d q x1 else (.use q, x1)
      match r.1 with
      | .stop => r.2
      | i => copyRow team p d q i d.inner r.2

/-- The reads of a copy: parts in increasing number; a failed part is the last. -/
def Copy.reads (c : Copy) (s : State) : CopyAcc :=
  c.supplied.foldl (fun x p =>
    if x.fail.isSome then x
    else
      let d := copyDesc p.desc
      copyPart c.team p d d.outer x) { s := s }

/-- The writes in order; the first that cannot be made stops the copy. -/
def copyWrites (team : Nat) : List (CopyPart × Nat × Int × List Byte) → CopyAcc → CopyAcc
  | [], x => x
  | (p, sp, a, bs) :: rest, x =>
    let r := x.s.copyPlaces team p.sup sp a bs.length true
    match r.1 with
    | .ok (some ps) => copyWrites team rest { x with s := r.2.setPlaces (ps.zip bs), made := x.made + bs.length }
    | .ok none => copyWrites team rest { x with s := r.2, flags := x.flags ||| 8 }
    | .error e =>
      if unmapped e && (copyDesc p.desc).flags.testBit 0 then copyWrites team rest { x with s := r.2, flags := x.flags ||| 4 }
      else { x with s := r.2, fail := some (e.1, e.2, p.part, BitVec.ofInt 64 a) }

/-- A copy whole: every read precedes every write (R449). -/
def Copy.run (c : Copy) (s : State) : CopyAcc :=
  let r := c.reads s
  copyWrites c.team r.writes.reverse r

/-! ### Starting (R448, R204) -/

/-- A copy lies in its core's own stash and tile memory (R204). -/
def Copy.isLocal (c : Copy) : Bool := c.supplied.all fun p => ((copyDesc p.desc).used p.kind).all fun a => a == 1 || a == 3

/-- The descriptor of part 0, if it was supplied. -/
def Copy.head (c : Copy) : Option CopyDesc := (c.supplied.find? fun p => p.part == 0).map fun p => copyDesc p.desc

/-- The copy names a follow-on `tmma`. -/
def Copy.follows (c : Copy) : Bool := match c.head with
  | some d => d.flags.testBit 6
  | none => false

/-- A live gang of the team holds an index. -/
def State.indexLive (s : State) (team i : Nat) : Bool := s.allGangs.any fun p => p.2.team == team && p.2.index == i && !p.2.retired

/-- Every part has arrived, or no gang holds its index. -/
def State.copyReady (s : State) (c : Copy) : Bool :=
  (List.range c.parts).all fun p => (c.supplied.any fun q => q.part == p) || !s.indexLive c.team p

/-- The entry of a copy in its core's list changed. -/
def Core.modCopy (c : Core) (num ctx : Nat) (f : Copy → Copy) : Core :=
  { c with copies := c.copies.map fun x => if x.num == num && x.ctx == ctx then f x else x }

/-- A copy started: missing parts count as settled, its elements are read and written as memory stands after every store of the core
(07 R222), and its last element is written after the time of R204, or after a time that is not fixed. -/
def State.startCopy (s : State) (core : Nat) (c : Copy) : State :=
  let s1 := s.modTeam c.team fun t => { t with
    copies := (List.range c.parts).foldl (fun m p => if c.supplied.any (fun q => q.part == p) then m
      else tset m p (max (tget m p 0) (c.ord + 1))) t.copies }
  let r := c.run (s1.flushCore core)
  let s2 := r.s.modCore core fun x => x.modCopy c.num c.ctx fun y =>
    { y with running := true, failed := r.fail, flags := r.flags, oor := r.oor }
  if c.isLocal then s2.laterOn core (20 + (r.made + 511) / 512) (.on core) (.copyComplete c.team c.num) else s2.offCore (.on core) (.copyComplete c.team c.num)

/-- The copies of a core that may start are started. -/
def State.tryCopies (s : State) (core : Nat) : State :=
  ((s.coreAt core).copies.filter fun c => !c.running && !c.ended).foldl (fun s c =>
    if s.copyReady c then s.startCopy core c else s) s

/-- A part enters its copy; a copy whose first part arrives takes the next number of its timeline (R448). -/
def State.addPart (s : State) (core team parts : Nat) (p : CopyPart) : State :=
  let ord := tget (s.teamAt team).copies p.part 0
  let ctx := (s.launchAt (s.teamAt team).launch).ctx
  let s1 := s.modTeam team fun t => { t with copies := tset t.copies p.part (ord + 1) }
  let c := s1.coreAt core
  let s2 := match c.copies.find? fun x => x.team == team && x.ord == ord && !x.ended with
    | some x => s1.modCore core fun y => y.modCopy x.num x.ctx fun z =>
        { z with supplied := (z.supplied.filter fun (q : CopyPart) => q.part < p.part) ++ p :: z.supplied.filter fun (q : CopyPart) => p.part < q.part }
    | none =>
      let n := tget c.bvNext ctx 0 + 1
      s1.modCore core fun y => { y with bvNext := tset y.bvNext ctx n,
                                        copies := y.copies ++ [({ num := n, ord := ord, team := team, ctx := ctx, parts := parts, supplied := [p] } : Copy)] }
  s2.tryCopies core

/-! ### Completion (R451, R452) -/

/-- The follow-on `tmma` of a copy (R452 step 1): the new bytes of its tile and the first event. -/
def State.followOn (s : State) (team : Nat) (d : CopyDesc) : Nat × List Byte × Option Nat :=
  let t := s.teamAt team
  let ta := (Ty.ofCode (BitVec.ofNat 5 d.fTy)).getD .bf16
  let tb := (Ty.ofCode (BitVec.ofNat 5 (d.fArg / 2 ^ 11))).getD .bf16
  let z := d.fArg / 128 % 16
  let n := groupCount ta
  let r := mmaResult false ta tb (d.fArg.testBit 17) z (stRead t.stash (d.fOffs.getD 0 0) 4096)
    (if ta.isMx then stRead t.stash (d.fOffs.getD 2 0) 256 else []) (stRead t.stash (d.fOffs.getD 1 0) 4096)
    (if ta.isMx then stRead t.stash (d.fOffs.getD 3 0) (64 * n) else []) (tileRows (stRead t.tile (16384 * z) 16384))
  (16384 * z, tileBytes r.1, r.2)

/-- The status record (R451). -/
def Copy.statusBytes (c : Copy) (flags : BitVec 8) : List Byte :=
  let e := c.failed.getD (0, 0, 0, 0)
  bytesOf 1 e.1 ++ [flags] ++ bytesOf 1 e.2.2.1 ++ [0] ++ bytesOf 4 (min c.oor (2 ^ 32 - 1)) ++ bytesOf 8 e.2.2.2.toNat

/-- The fault of a gang whose copy failed (R451). -/
def copyFaultRec (e : Nat × Nat × Nat × W64) : FaultRec :=
  let x : Fail := match e.1 with
    | 1 => (5, 16 + e.2.1)
    | 2 => (6, 16 + e.2.1)
    | 3 => (8, 0)
    | 4 => (9, 0)
    | _ => (1, 19)
  { code := x.1, sub := x.2, lanes := allLanes, va := splat e.2.2.2 }

/-- The Beaver timeline of a context on a core: all operations below the oldest that has not ended (R221). -/
def Core.beaverValue (c : Core) (ctx : Nat) : Nat :=
  match (c.copies.filter fun x => x.ctx == ctx && !x.ended).map (·.num) with
  | [] => tget c.bvNext ctx 0
  | x :: r => r.foldl min x - 1

end Sys2Proof.Machine
end

