-- ==== Sys2Proof/Machine/Paths.lean ====
section
/-! DEFINITION. Slices, splits and `regang` at a commit (spec/06_cores.md R169 to R171, spec/12_isa_control_integer.md R337). -/

namespace Sys2Proof.Machine

/-- The path at an address of the lanes of a slice that go there. -/
def pathTo (i : Nat) (to_ : Nat → Option W64) (a : W64) : PathEntry :=
  { addr := a, lanes := BitVec.ofNat 4 ((List.range 4).foldl (fun x j => if to_ (4 * i + j) = some a then x + 2 ^ j else x) 0) }

/-- A list without its later repeats. -/
def firsts : List W64 → List W64
  | [] => []
  | a :: r => a :: (firsts r).filter fun x => x != a

/-- A slice after its split's commit (R170 steps 1 and 3): the target of its lowest lane stays, the others are pushed so that that
of the next-lowest lane is on top; with no lane left it pops. The flag says whether it popped. -/
def Slice.next (s : Slice) (i : Nat) (to_ : Nat → Option W64) : Slice × Bool :=
  match firsts ((List.range 4).filterMap fun j => to_ (4 * i + j)) with
  | a :: others => ({ cur := pathTo i to_ a, stack := others.map (pathTo i to_) ++ s.stack }, false)
  | [] => match s.stack with
    | p :: r => ({ cur := p, stack := r }, true)
    | [] => ({}, false)

/-- The slices of a set. -/
def slicesIn (sp : BitVec 8) : List Nat := (List.range 8).filter fun i => sp.getLsbD i

/-- The set of some slices. -/
def sliceSet (l : List Nat) : BitVec 8 := BitVec.ofNat 8 (l.foldl (fun a i => a + 2 ^ i) 0)

/-- Slices grouped by address, in increasing order of their lowest slice (R170 step 2). -/
def groupsOf (slices : List Slice) (l : List Nat) : List (BitVec 8) :=
  let at_ := fun (i : Nat) => (slices.getD i {}).cur.addr
  (firsts (l.map at_)).map fun a => sliceSet (l.filter fun i => at_ i == a)

/-- The split table and the slices after a commit of the split of an instance (R170, R171): `to_` gives each lane's next block, if it
has one. -/
def Gang.nextPaths (g : Gang) (sl : BitVec 8) (to_ : Nat → Option W64) (demote : Bool) : Gang :=
  let moved := (List.range 8).map fun i =>
    let s := g.slices.getD i {}
    if sl.getLsbD i then s.next i to_ else (s, false)
  let slices := moved.map (·.1)
  let mine := slicesIn sl
  let popped := mine.filter fun i => (moved.getD i ({}, false)).2
  let stay := mine.filter fun i => !(popped.contains i) && (slices.getD i {}).cur.lanes != 0
  let groups := groupsOf slices stay
  let lone := popped.map fun i => sliceSet [i]
  let before := g.splits.takeWhile fun sp => sp &&& sl == 0
  let after := (g.splits.dropWhile fun sp => sp &&& sl == 0).drop 1
  { g with slices := slices, splits := if demote then before ++ after ++ lone ++ groups else before ++ groups ++ after ++ lone }

/-- CheckRelease (R337): when every lane of W has arrived or exited, the set is released as one split at T. -/
def Gang.checkRelease (g : Gang) : Gang :=
  if g.rset ≠ 0 ∧ g.rmask &&& ~~~(g.rset ||| g.exm) = 0 then
    { g with rels := g.rels ++ [(g.rtgt, g.rset, slicesOf g.rset)], rset := 0, rmask := 0 }
  else g

/-- Lanes parked at `regang` with a target and a mask value (R337); none while a set with another target is pending. -/
def Gang.parkLanes (g : Gang) (p : Mask) (t : W64) (w : Mask) : Option Gang :=
  if g.rset ≠ 0 ∧ g.rtgt ≠ t then none
  else some ({ g with rset := g.rset ||| p, rtgt := t, rmask := g.rmask ||| w } : Gang).checkRelease

/-- A slice without the lanes that have exited; with no lane left on its current path it pops. -/
def Slice.settle (s : Slice) (gone : BitVec 4) : Slice × Bool :=
  let cut := fun (p : PathEntry) => { p with lanes := p.lanes &&& ~~~gone }
  let stack := (s.stack.map cut).filter fun p => p.lanes != 0
  if s.cur.lanes &&& ~~~gone ≠ 0 then ({ cur := cut s.cur, stack := stack }, false)
  else match stack with
    | p :: r => ({ cur := p, stack := r }, true)
    | [] => ({}, false)

/-- The slices and the split table after lanes retired outside a commit of their own split (R249): a slice that pops forms a split
of its own at the end. -/
def Gang.settle (g : Gang) : Gang :=
  let moved := (List.range 8).map fun i => (g.slices.getD i {}).settle (g.exm.extractLsb' (4 * i) 4)
  let stays := sliceSet ((List.range 8).filter fun i =>
    !((moved.getD i ({}, false)).2) && ((moved.getD i ({}, false)).1).cur.lanes != 0)
  let popped := (List.range 8).filter fun i => (moved.getD i ({}, false)).2
  { g with slices := moved.map (·.1),
           splits := ((g.splits.map fun sp => sp &&& stays).filter fun sp => sp != 0) ++ popped.map fun i => sliceSet [i] }

end Sys2Proof.Machine
end

