-- ==== Sys2Proof/Machine/Header.lean ====
section
/-! DEFINITION. Header decode (spec/10_blocks_assembly.md R272 to R277, spec/11_encoding.md R305, R306, R309, R321, R322): the checks
of a fetched block before any of its instructions fires, and the fault they give. -/

namespace Sys2Proof.Machine

/-! ### The header (R305, R306) -/

/-- H0 [31:28]. -/
def Blk.tag (b : Blk) : Nat := bits (b.hdr.getD 0 0).toNat 31 28
/-- WCNT. -/
def Blk.wcnt (b : Blk) : Nat := bits (b.hdr.getD 0 0).toNat 10 5
/-- XCNT. -/
def Blk.xcnt (b : Blk) : Nat := bits (b.hdr.getD 0 0).toNat 4 2
/-- SCNT. -/
def Blk.scnt (b : Blk) : Nat := bits (b.hdr.getD 1 0).toNat 5 0

/-- The opcodes of a walk by LEN, and the words left when it ends. -/
def walkOps : Nat → List W32 → Option (List (BitVec 8) × List W32)
  | 0, ws => some ([], ws)
  | n + 1, ws =>
    match takeInstr ws with
    | none => none
    | some t => (walkOps n t.rest).map fun r => (opOf t.w0 :: r.1, r.2)

/-- The opcodes of the block, when NI instructions end exactly at word NW. -/
def Blk.ops (b : Blk) : Option (List (BitVec 8)) :=
  match walkOps b.ni b.words with
  | some (o, []) => some o
  | _ => none

/-- A condition of R306. -/
def Blk.headerBad (b : Blk) : Bool :=
  b.ni == 0 || decide (96 < b.ni) || b.nw == 0 || decide (480 < b.nw) || decide (32 < b.wcnt) || decide (32 < b.scnt) ||
  (b.hdr.getD 1 0).toNat / 64 != 0 || (b.hdr.getD 2 0).toNat % 256 != 0 || (b.hdr.getD 3 0).toNat % 65536 != 0 ||
  (b.stop == (b.ordinal == 0)) || (if b.timed then decide (b.tlen < 4) else b.tlen != 0) ||
  (match b.ops with
   | none => true
   | some o => (o.filter fun x => x == 0x01).length != b.wcnt ||
       (o.filter fun x => decide (8 ≤ x.toNat ∧ x.toNat ≤ 12)).length != b.xcnt + 1)

/-- SCNT differs from the commit set's size (R282). -/
def Blk.scntBad (b : Blk) : Bool :=
  match b.ops with
  | none => false
  | some o => (o.filter fun x => x == 0xC2 || x == 0xC5).length != b.scnt

/-! ### Targets and slots (R275 to R277, R309) -/

/-- The targets of an instruction that name a slot. -/
def targetsOf (f : Form) : List Target := [f.t0, f.t1, f.t2, f.t3].filter fun t => t != Target.none

/-- A reserved target value. -/
def reservedTarget (t : Target) : Bool := t.dist == 0 || decide (96 ≤ t.dist.toNat)

/-- The sources of a slot of the instruction at an index: producers by index. -/
def sourcesOf (is : List (Nat × Instr)) (idx : Nat) (sl : Slot) : List (Nat × Instr) :=
  is.flatMap fun p => match p.2.form with
    | none => []
    | some f => (targetsOf f).filterMap fun t => if t.slot = sl ∧ p.1 + t.dist.toNat = idx then some p else none

/-- How a slot is used by an instruction; slot p is needed exactly when PR is 01 or 10. -/
def slotUse (g : Sig) (f : Form) : Slot → SlotUse
  | .a => g.a
  | .b => g.b
  | .c => g.c
  | .p => if f.pr = .always then .no else .need .lane

/-- The number of sources of a slot, its literal included (R275, R319). -/
def sourceCount (is : List (Nat × Instr)) (p : Nat × Instr) (g : Sig) (f : Form) (sl : Slot) : Nat :=
  (sourcesOf is p.1 sl).length + (if sl = .b && !g.lit && f.lit.isSome then 1 else 0)

/-- An instruction breaks the target rules (subcode 7). -/
def targetsBad (is : List (Nat × Instr)) (ni : Nat) (p : Nat × Instr) : Bool :=
  match p.2.form, p.2.sig with
  | some f, some g =>
    (targetsOf f).any (fun t => reservedTarget t || decide (ni ≤ p.1 + t.dist.toNat)) ||
    (!g.tok && !(targetsOf f).isEmpty) ||
    [Slot.a, .b, .c, .p].any fun sl =>
      match slotUse g f sl with
      | .no => sourceCount is p g f sl != 0
      | .need _ => sourceCount is p g f sl != 1
      | .opt _ => decide (1 < sourceCount is p g f sl)
  | _, _ => false

/-- Is a token of a class delivered to a slot of a class (R277)? -/
def deliverable (tok slot : TokClass) : Bool :=
  match tok, slot with
  | .lane, .lane | .uni, .lane | .uni, .uni | .mask, .mask => true
  | _, _ => false

/-- An instruction receives a token that its slots do not take (subcode 8). -/
def classesBad (is : List (Nat × Instr)) (p : Nat × Instr) : Bool :=
  match p.2.form, p.2.sig with
  | some f, some g =>
    ([Slot.a, .b, .c].any fun sl =>
      match slotUse g f sl with
      | .need c | .opt c => (sourcesOf is p.1 sl).any fun q => !deliverable ((q.2.form.map (·.vc)).getD .lane) c
      | .no => false) ||
    (f.vc == .uni && (sourcesOf is p.1 .p).any fun q => q.2.form.map (·.vc) != some .uni)
  | _, _ => false

/-! ### Limits (R272) -/

/-- Some element occurs twice. -/
def repeats {α : Type} [DecidableEq α] : List α → Bool
  | [] => false
  | x :: r => r.contains x || repeats r

/-- The block breaks a limit of R272 or R242 (subcode 9). -/
def Blk.limitsBad (b : Blk) (is : List (Nat × Instr)) : Bool :=
  decide (32 < (is.filter fun p => !p.2.readsRegs.isEmpty && p.2.tilesUsed.isEmpty).length) ||
  repeats (is.filterMap fun p => p.2.writesReg) ||
  decide (32 < (is.filterMap fun p => p.2.lsid).length) || repeats (is.filterMap fun p => p.2.lsid) ||
  decide (4 < (is.filter fun p => p.2.atIssue).length) || b.scntBad

/-- The lowest of a list of numbers. -/
def lowestOf : List Nat → Option Nat
  | [] => none
  | x :: r => match lowestOf r with
    | none => some x
    | some y => some (min x y)

/-- The subcodes of instructions that do not decode. -/
def Blk.wordErrors (b : Blk) : List Nat :=
  b.code.filterMap fun c => match c with
    | .error e => some e.subcode
    | .ok _ => none

/-- The subcode of `ILLEGAL` that the block's words raise, if any (R322): the lowest that applies. -/
def Blk.illegal (b : Blk) : Option Nat :=
  if b.headerBad then some 1
  else match lowestOf b.wordErrors with
    | some n => some n
    | none =>
      let is := b.instrs
      if is.any (targetsBad is b.ni) then some 7
      else if is.any (classesBad is) then some 8
      else if b.limitsBad is then some 9 else none

/-- The register lines that the block names (R329, R431). -/
def Blk.lineSet (b : Blk) (sup : Bool) : List Nat :=
  (b.instrs.flatMap fun p => (p.2.readsRegs ++ p.2.writesReg.toList).flatMap (regLines sup)).eraseDups

/-- The decode fault of a fetched block: code and subcode, in the order of R243. -/
def Blk.decodeFault (b : Blk) (sup : Bool) (quota : Nat) : Option (Nat × Nat) :=
  if b.tag ≠ 11 then some (2, 0)
  else match b.illegal with
    | some n => some (1, n)
    | none =>
      match (if sup then none else lowestOf (b.instrs.filterMap fun p => p.2.privSub)) with
      | some n => some (16, n)
      | none => if quota < (b.lineSet sup).length then some (18, 0) else none

end Sys2Proof.Machine
end

