-- ==== Sys2Proof/Machine/Sched.lean ====
section
/-! DEFINITION. What a quarter may issue (spec/06_cores.md R164 to R176): readiness of an instruction, fixed-order gates (spec/07
R227 to R229), choice of a gang, and stall reasons (spec/09 R259). -/

namespace Sys2Proof.Machine

/-! ### Operands -/

/-- The slot holds a token that a consumer may use in this cycle (R201). -/
def Blk.tokenReady (b : Blk) (idx : Nat) (sl : Slot) (now : Nat) : Bool :=
  match b.tok idx sl with
  | some t => match t.ready with
    | some r => decide (r ≤ now)
    | none => false
  | none => false

/-- The needed slots of an instruction all hold tokens (R278). -/
def Blk.operandsReady (b : Blk) (is : List (Nat × Instr)) (p : Nat × Instr) (now : Nat) : Bool :=
  match p.2.form, p.2.sig with
  | some f, some g => [Slot.a, .b, .c, .p].all fun sl =>
      let lit := sl == .b && f.lit.isSome
      match slotUse g f sl with
      | .no => true
      | .need _ => lit || b.tokenReady p.1 sl now
      | .opt _ => lit || (sourcesOf is p.1 sl).isEmpty || b.tokenReady p.1 sl now
  | _, _ => true

/-! ### Order inside a block (R283, R284, R210, R404, R405) -/

/-- The instructions whose operands come from an instruction, through any number of others. -/
def dependents (is : List (Nat × Instr)) (idx : Nat) : List Nat :=
  is.foldl (fun acc q => if is.any (fun r => acc.contains r.1 && (match r.2.form with
    | some f => (targetsOf f).any fun t => r.1 + t.dist.toNat == q.1
    | none => false)) then q.1 :: acc else acc) [idx]

/-- Does a memory instruction wait for one with a lower LSID that has not issued? A release atomic waits for the stores before it too,
but for those that take its own result (07 R210). -/
def waitsForLower (is : List (Nat × Instr)) (release : Bool) (p q : Nat × Instr) : Bool :=
  if p.2.isLoad then q.2.inCommitSet || q.2.isLsidOp || q.2.acquiresLsid
  else if p.2.isLsidOp then
    q.2.isLsidOp || q.2.acquiresLsid || ((q.2.isLoad || (release && q.2.inCommitSet)) && !(dependents is p.1).contains q.1)
  else match p.2 with
    | .fence _ _ => q.2.isLoad || q.2.isLsidOp || q.2.acquiresLsid
    | _ => false

/-- The instruction waits for a memory instruction of lower LSID. -/
def Blk.lsidHolds (b : Blk) (is : List (Nat × Instr)) (p : Nat × Instr) : Bool :=
  match p.2.lsid with
  | none => false
  | some j => is.any fun q => match q.2.lsid with
    | some k => decide (k < j) && !b.issued.getLsbD q.1 && waitsForLower is (b.releasesAt p.2) p q
    | none => false

/-- The instruction waits for one of lower index: an issue-time operation before it, an acquire (R405), a `waitc` (R467), a
tile or accumulator instruction on the same storage (R392, R435), or, as a release, the loads and issue-time
operations before it. -/
def Blk.indexHolds (b : Blk) (is : List (Nat × Instr)) (p : Nat × Instr) : Bool :=
  let noLsid := fun (i : Instr) => i.atIssue && i.lsid.isNone
  is.any fun q => decide (q.1 < p.1) &&
    ((noLsid p.2 && noLsid q.2 && !b.issued.getLsbD q.1) ||
     (p.2.group11 && q.2.acquires && !b.done.getLsbD q.1) ||
     ((match q.2 with | .waitc _ => true | _ => false) && !b.done.getLsbD q.1) ||
     (p.2.releases && (q.2.isLoad || q.2.atIssue) && !b.done.getLsbD q.1) ||
     (!b.issued.getLsbD q.1 && p.2.tilesUsed.any fun z => q.2.tilesUsed.contains z) ||
     (!b.issued.getLsbD q.1 && (match p.2.accum, q.2.accum with | some x, some y => x.1 == y.1 | _, _ => false)))

/-! ### Order between gangs that perform at issue (07 R210, R215) -/

/-- The bytes that a load or an issue-time access would touch now. -/
def State.touches (s : State) (b : Blk) (i : Instr) : List Place :=
  let of := fun (f : Form) (m : MemArg) (store : Bool) =>
    let o := b.opnd s.idx f
    let ls := if f.vc == .uni then (if o.live = 0 then [] else [0]) else lanesOf o.live
    (okLanes (s.resolveAll m (accBytes f.ty) store store false (fun l => effAddr m (lane o.a.vals l)) ls).1).flatMap (·.2)
  match i with
  | .ld f m | .ldp f m => of f m false
  | .atom f m | .cas f m => of f m true
  | _ => []

/-- The stores of an uncommitted block that stand before a `seq` operation of it that others must take as earlier than a place in
their order (R215). -/
def Blk.seqStores (b : Blk) (limit : Nat) : List Place :=
  match b.seq with
  | none => []
  | some k =>
    if limit ≤ k then []
    else
      let last := (b.instrs.filterMap fun q => if q.2.isSeq then q.2.lsid else none).foldl max 0
      (b.stores.filter fun r => decide (r.lsid < last)).flatMap (·.places)

/-- The bytes that an access of the focused gang may not touch yet: those that another gang's release atomic wrote before the stores of its
block (R210), and those of another gang's stores that a `seq` operation before the access makes visible to it (R215). -/
def State.barredPlaces (s : State) (b : Blk) (lsid : Nat) : List Place :=
  let others := (s.allGangs.filter fun p => p.1 != s.gid && !p.2.retired).map (·.2)
  let limit := if b.seqBefore lsid then some (b.seq.getD s.nextId) else s.g.seqAt
  others.flatMap (fun g => g.ahead.map (·.2)) ++ (match limit with
    | some n => others.flatMap fun g => (g.prim.map fun x => x.seqStores n).getD []
    | none => [])

/-- The access waits for another gang's block to commit (R210, R215). -/
def State.orderHolds (s : State) (b : Blk) (i : Instr) : Bool :=
  match i with
  | .ld _ m | .ldp _ m | .atom _ m | .cas _ m =>
    let bar := s.barredPlaces b m.lsid.toNat
    !bar.isEmpty && (s.touches b i).any bar.contains
  | _ => false

/-! ### Fixed-order gates (R227 to R229) -/

/-- The teams of the focused gang's determinism domain (R225). -/
def State.domainTeams (s : State) : List Nat := if s.launchOf.domcl then s.g.team :: s.team.mates else [s.g.team]

/-- The other live gangs of the domain that are not excluded. -/
def State.rivals (s : State) : List (Nat × Gang) :=
  s.allGangs.filter fun p => p.1 != s.gid && p.2.started != 0 && !p.2.retired && !p.2.excluded && s.domainTeams.contains p.2.team

/-- (`LCK`, id) of the focused gang is below that of every other live gang of its domain (R227, R229). -/
def State.isMinimum (s : State) : Bool :=
  s.rivals.all fun p => pairLt (s.g.lck.toNat, s.g.lgid.toNat) (p.2.lck.toNat, p.2.lgid.toNat)

/-- The block at an address as memory holds it, read without effect; empty where it cannot be fetched. -/
def State.peekBlock (s : State) (addr : W64) : Blk :=
  let a : Acc := { fetch := true, sup := s.g.sup }
  match (s.readVirt s.ctxNo addr.toNat 16 a).1 with
  | .error _ => {}
  | .ok h =>
    let b : Blk := { addr := addr, hdr := wordsOfBytes h }
    match (s.readVirt s.ctxNo (addr.toNat + 16) (4 * b.nw) a).1 with
    | .error _ => b
    | .ok w => { b with words := wordsOfBytes w }

/-- Does a block hold a gated operation? -/
def Blk.holdsGate (b : Blk) : Bool :=
  b.instrs.any fun p => p.2.gated || (match p.2 with | .atom _ _ | .cas _ _ => true | _ => false)

/-- AllSplitsAtGate (R227): the split of the primary stands at its gate; any other split does when the block at which it
stands holds a gated operation. -/
def State.splitsAtGate (s : State) : Bool :=
  s.g.splits.all fun sp =>
    (match s.g.prim with
     | some b => b.slices &&& sp != 0
     | none => false) || (s.peekBlock (s.g.splitAddr sp)).holdsGate

/-- GateOpen (R227). -/
def State.gateOpen (s : State) : Bool := s.splitsAtGate && s.isMinimum

/-- Is the instruction gated here: under fixed order, outside the handler, not yet performed, acting (R227, R248)? An atomic that raises
`ORDER_RETURN` (R231) waits at no gate. -/
def State.gateApplies (s : State) (i : Instr) : Bool :=
  s.launchOf.fixord && !s.g.sup && s.heldHere.isNone &&
  (match i with
   | .spawn _ _ => false
   | .atom f m | .cas f m => match s.blk? with
     | some b =>
       let o := b.opnd s.idx f
       (lanesOf o.live).all fun l => !orderRefuses s m.as (accBytes f.ty) (effAddr m (lane o.a.vals l))
     | none => false
   | _ => i.gated) &&
  (match s.blk?, i.form with
   | some b, some f => (b.opnd s.idx f).acts
   | _, _ => false)

/-! ### Holds (R166, R167, R173) -/

/-- The other instance of a gang. -/
def State.isPrimaryChange (s : State) (p : Instr → Bool) : Bool :=
  match s.g.prim with
  | some b => b.instrs.any fun q => p q.2
  | none => false

/-- The register scoreboard holds the instruction (R167, R392, R403, R464). -/
def State.scoreboard (s : State) (b : Blk) (i : Instr) : Bool :=
  let busy := fun (z : Nat) => decide (s.clock < tget s.g.tileBusy z 0)
  i.tilesNamed.any busy ||
  (match i with
   | .rd _ r => s.isec && s.isPrimaryChange fun q => q.writesReg == some r
   | .ld f m | .atom f m | .cas f m =>
     m.as == .tile && ((lanesOf (b.opnd s.idx f).live).any fun l =>
       let ea := effAddr m (lane (b.opnd s.idx f).a.vals l)
       busy (ea / 16384) || busy ((ea + accBytes f.ty - 1) / 16384))
   | _ => false) ||
  (match i.accum with
   | some (j, true) =>
     decide (s.clock < (s.core.quarterAt s.g.quarter).accFree) ||
       (s.isec && s.isPrimaryChange fun q => q.accum == some (j, true))
   | some (j, false) =>
     decide (s.clock < tget s.g.accReady j 0) || (s.isec && s.isPrimaryChange fun q => q.accum == some (j, true))
   | none => false)

/-- A waiting instruction's condition holds, or it would fault (R407, R424, R467). -/
def State.conditionHolds (s : State) (b : Blk) (i : Instr) : Bool :=
  match i with
  | .wait f a c t r => let o := b.opnd s.idx f; !o.acts || s.g.drained a.toNat c.toNat t.toNat r.toNat
  | .waitr f p => let o := b.opnd s.idx f; !o.acts || decide (inFlight (s.g.flight p) ≤ min o.ua 63)
  | .waitc f => let o := b.opnd s.idx f; !o.acts || decide (o.ua ≤ s.core.cyc)
  | .tlwait f =>
    let o := b.opnd s.idx f
    !o.acts || (match s.timelineOf s.ctxNo o.ua with
      | .error _ => true
      | .ok t => decide (o.ub ≤ (s.timelineValue s.ctxNo t).1.toNat))
  | _ => true

/-- The instruction at a place of a gang's instance. -/
def Gang.instrOf (g : Gang) (r : IssueRef) : Option Instr :=
  match (if r.sec then g.sec else g.prim) with
  | some b => match b.instrAt r.idx with
    | .ok i => some i
    | .error _ => none
  | none => none

/-- An instruction that another quarter issues in this cycle takes the tile array (R202: an occupancy of 16). -/
def State.tileTaken (s : State) : Bool :=
  s.issue.any fun r => ((s.gangAt r.gang).bind fun g => g.instrOf r).any fun i => !i.tilesUsed.isEmpty

/-- Why an instruction whose operands are present may not issue, as a stall reason, or none when nothing but the bins of its domain can
hold it. The instance and index are in focus. -/
def State.holdBase (s : State) (b : Blk) (is : List (Nat × Instr)) (p : Nat × Instr) : Option Nat :=
  if s.isec && p.2.waitsPrimary then some 14
  else if s.scoreboard b p.2 then some 3
  else if (match p.2 with
      | .rd _ r => (regLines s.g.sup r).any fun n =>
          !s.lineReady n && !b.fills.contains n && decide (8 ≤ (s.core.quarterAt s.g.quarter).fills.length)
      | _ => false) then some 4
  else if b.lsidHolds is p || b.indexHolds is p || s.orderHolds b p.2 then some 5
  else if !s.conditionHolds b p.2 then some (match p.2 with | .wait _ _ _ _ _ | .waitr _ _ => 8 | _ => 11)
  else if !p.2.tilesUsed.isEmpty && (decide (s.clock < s.core.tileFree) || s.tileTaken) then some 12
  else if s.gateApplies p.2 && !s.gateOpen then some 13
  else none

/-- A bin of the focused gang's determinism domain holds threads. -/
def State.binsHeld (s : State) : Bool := s.domainTeams.any fun t => (s.teamAt t).bins.any fun b => !b.2.args.isEmpty

/-- As `holdBase`; a gated operation waits until the bins of its domain have launched (05 R142). -/
def State.holdReason (s : State) (b : Blk) (is : List (Nat × Instr)) (p : Nat × Instr) : Option Nat :=
  (s.holdBase b is p).or (if s.gateApplies p.2 && s.binsHeld then some 13 else none)

/-- The instances of the focused gang that may issue, the earliest split first (R173). -/
def State.issuers (s : State) : List (Bool × Blk) :=
  let pos := fun (b : Blk) => (s.g.splits.findIdx fun sp => b.slices &&& sp != 0)
  let ok := fun (b : Blk) => b.stage == .run && decide (b.decoded < s.clock) && b.pend.isNone && !s.g.tlbWait
  let p := match s.g.prim with | some b => if ok b then [(false, b)] else [] | none => []
  let q := match s.g.sec with | some b => if ok b then [(true, b)] else [] | none => []
  match p, q with
  | [x], [y] => if pos y.2 < pos x.2 then [y, x] else [x, y]
  | _, _ => p ++ q

/-- The instructions of an instance that have not issued and whose operands are present. -/
def Blk.waiting (b : Blk) (is : List (Nat × Instr)) (now : Nat) : List (Nat × Instr) :=
  is.filter fun p => !b.issued.getLsbD p.1 && b.operandsReady is p now

/-- The first ready instruction of an instance. -/
def State.firstReady (s : State) (sec : Bool) (b : Blk) : Option IssueRef :=
  let is := b.instrs
  let s1 := { s with isec := sec }
  ((b.waiting is s.clock).find? fun p => (State.holdReason { s1 with idx := p.1 } b is p).isNone).map fun p => ⟨s.gid, sec, p.1⟩

/-- A gated operation of the focused gang waits for the bins of its domain alone (05 R142). -/
def State.binsFirst (s : State) : Bool :=
  s.issuers.any fun x =>
    let is := x.2.instrs
    (x.2.waiting is s.clock).any fun p =>
      let s1 : State := { s with isec := x.1, idx := p.1 }
      s1.gateApplies p.2 && s1.binsHeld && (s1.holdBase x.2 is p).isNone

/-- What the focused gang would issue in this cycle (R173). -/
def State.candidate (s : State) : Option IssueRef :=
  match s.issuers with
    | [] => none
    | [x] => s.firstReady x.1 x.2
    | x :: y :: _ => (s.firstReady x.1 x.2).or (s.firstReady y.1 y.2)

/-! ### Choosing a gang (R174 to R176) -/

/-- A resident gang of a quarter as the choice sees it. -/
structure Runner where
  slot : Nat
  gang : Nat
  stamp : Nat
  parked : Bool
  unchosen : Nat
  cand : Option IssueRef
  deriving DecidableEq, Repr

/-- The runner with the lowest stamp. -/
def oldest : List Runner → Option Runner
  | [] => none
  | x :: r => match oldest r with
    | none => some x
    | some y => if y.stamp < x.stamp then some y else some x

/-- Runners from the slot after `last`, wrapping round; the list is in slot order. -/
def rotate (last : Option Nat) (rs : List Runner) : List Runner :=
  match last with
  | none => rs
  | some n => (rs.filter fun r => n < r.slot) ++ rs.filter fun r => r.slot ≤ n

/-- The runner chosen in elastic timing (R174, R175). -/
def chooseElastic (rr : Bool) (last : Option Nat) (rs : List Runner) : Option Runner :=
  let ready := rs.filter fun r => r.cand.isSome
  match oldest (ready.filter fun r => 256 ≤ r.unchosen) with
  | some r => some r
  | none =>
    let awake := ready.filter fun r => !r.parked
    if awake.isEmpty then oldest ready
    else if rr then (rotate last awake).head?
    else match awake.find? fun r => last == some r.slot with
      | some r => some r
      | none => oldest awake

/-! ### Stall reasons (R259) -/

/-- The reasons that hold for the instructions of an instance that have issued and not completed. -/
def Blk.pendingReasons (b : Blk) (is : List (Nat × Instr)) : List Nat :=
  (is.filter fun p => b.pendingAt p.1).flatMap fun p => match p.2 with
    | .rd _ _ => [4]
    | .barWait _ _ | .barAw _ _ => [9]
    | .semAcq _ _ _ => [10]
    | _ => if b.reqs.any (fun r => r.idx == p.1 && (!r.held && !r.aged)) then [6, 7] else [6]

/-- A token of the instruction comes from memory (reason 6 of R259). -/
def givesLoad : Instr → Bool
  | .ld _ _ | .ldp _ _ | .atom _ _ | .cas _ _ | .chunk _ | .qsend _ | .qtake _ | .halloc _ _ => true
  | _ => false

/-- The reason of the oldest instruction that waits for an operand: 6 when what it lacks comes from memory alone, else 5. -/
def Blk.operandReason (b : Blk) (is : List (Nat × Instr)) (now : Nat) : List Nat :=
  match is.find? fun p => !b.issued.getLsbD p.1 with
  | none => []
  | some p =>
    if b.operandsReady is p now then []
    else
      let late := [Slot.a, .b, .c, .p].filter fun sl => !b.tokenReady p.1 sl now
      if (late.flatMap fun sl => sourcesOf is p.1 sl).all fun q => givesLoad q.2 then [6] else [5]

/-- The lowest stall reason that holds for the focused gang. -/
def State.stallReason (s : State) (ready full : Bool) : Nat :=
  let q := s.core.quarterAt s.g.quarter
  let one := fun (sec : Bool) (b : Blk) =>
    let is := b.instrs
    let s1 := { s with isec := sec }
    (if b.stage == .commit then [b.why] else []) ++ b.pendingReasons is ++ (if b.stage == .run then b.operandReason is s.clock else []) ++
      (b.waiting is s.clock).filterMap fun p =>
        if b.lsidHolds is p || b.indexHolds is p then none else State.holdReason { s1 with idx := p.1 } b is p
  let rs := (if q.remap || (s.g.sup && (decide (1 < s.g.saveSplits.length) || s.g.fcause.toNat % 65536 == 17)) then [0] else []) ++
    (match s.g.prim with
     | some b => if b.stage == .fetch || b.stage == .decode then [1] else one false b
     | none => if s.g.splits.isEmpty then [14] else [1]) ++
    (if s.g.rels.isEmpty then [] else [14]) ++
    (if full then [2] else []) ++
    (match s.g.sec with | some b => one true b | none => []) ++
    (if s.g.tlbWait then [11] else []) ++ (if ready then [15] else [])
  (lowestOf rs).getD 5

/-- A stall counter incremented, saturating (R259). -/
def GangRec.count (r : GangRec) (k : Nat) : GangRec :=
  let l := if r.stalls.isEmpty then List.replicate 16 0 else r.stalls
  { r with stalls := l.set k (BitVec.ofNat 32 (min (2 ^ 32 - 1) ((l.getD k 0).toNat + 1))) }

/-- A stall counted for the focused gang in the bank of its index (R260). -/
def State.countStall (s : State) (k : Nat) : State :=
  s.modTeam s.g.team fun t => { t with recs := tmod t.recs s.g.index {} fun r => r.count k }

end Sys2Proof.Machine
end

