-- ==== Sys2Proof/Machine/Team.lean ====
section
/-! DEFINITION. Teams and gangs come and go (spec/05_distribution.md R131 to R136, R141 to R148, R484; spec/06_cores.md R163, R185,
R191, R198 to R200; spec/08 R255): placement, start, spawn bins, retirement, exit records, successors. -/

namespace Sys2Proof.Machine

/-! ### Counting (R145, R146) -/

/-- The spawn-tree counter's part of a die (0 to 3) or of the package (4) changed; a part that reaches or leaves zero
reports to the Owl. -/
def State.addUnits (s : State) (launch part : Nat) (d : Int) : State :=
  match tfind s.launches launch with
  | none => s
  | some l =>
    let old := tget l.units part 0
    let s1 := s.modLaunch launch fun l => { l with units := tset l.units part (old + d) }
    if (old == 0) != (old + d == 0) then s1.soon .none (.counterPartReport launch part (old + d == 0)) else s1

/-! ### Resources of a core (R136) -/

/-- The teams that hold resources of a core. -/
def State.teamsOn (s : State) (core : Nat) : List (Nat × Team) := s.teams.filter fun p => p.2.admitted && p.2.core == core
/-- The sum of a quantity over a list. -/
def sumOf {α : Type} (f : α → Nat) (l : List α) : Nat := l.foldl (fun a x => a + f x) 0
/-- The gangs resident on a core. -/
def State.residents (s : State) (core : Nat) : List (Nat × Gang) :=
  s.allGangs.filter fun p => p.2.core == core && p.2.slot.isSome && !p.2.retired
/-- The live gangs of a team (R163). -/
def State.liveGangs (s : State) (team : Nat) : List (Nat × Gang) := s.allGangs.filter fun p => p.2.team == team && !p.2.retired
/-- Gang slots of a core that are free, lowest first. -/
def Core.freeSlots (c : Core) : List Nat :=
  (c.slots.zip (List.range 32)).filterMap fun p => if p.1.isNone then some p.2 else none
/-- Residents of each quarter, with one more gang of a quota in some of them: numbers and quota sums. -/
def quarterLoad (rs : List (Nat × Gang)) (q : Nat) : Nat × Nat :=
  let m := rs.filter fun p => p.2.quarter == q
  (m.length, sumOf (fun p => p.2.quota) m)
/-- The quarter with the fewest residents, the lower on a tie. -/
def fewestQuarter (rs : List (Nat × Gang)) : Nat :=
  [1, 2, 3].foldl (fun b q => if (quarterLoad rs q).1 < (quarterLoad rs b).1 then q else b) 0

/-- Can a gang of a quota join a quarter that has already been given some gangs of the same quota? -/
def quarterTakes (rs : List (Nat × Gang)) (q extra quota : Nat) : Bool :=
  let l := quarterLoad rs q
  decide (l.1 + extra < 16 ∧ l.2 + (extra + 1) * quota ≤ 768)

/-- The core may take work of its owner: in service, not fenced, its partition neither halted nor being taken. -/
def State.coreOpen (s : State) (core ctx : Nat) : Bool :=
  let p := s.partAt (partOf core)
  !(s.coreAt core).fenced && p.owner == some ctx && !p.halted && !p.guard && p.taking.isNone && !p.releasing && s.pkg.admitting &&
  !(s.ctxAt ctx).halt && !(s.ctxAt ctx).frozen

/-- Does a team fit on a core (R136)? -/
def State.fits (s : State) (core : Nat) (t : Team) : Bool :=
  let on := s.teamsOn core
  let rs := s.residents core
  let b := fewestQuarter rs
  decide (on.length < 8) && decide (t.gangs ≤ (s.coreAt core).freeSlots.length) &&
  decide (sumOf (fun p => p.2.stashKiB) on + t.stashKiB ≤ 256) && decide (sumOf (fun p => p.2.tileKiB) on + t.tileKiB ≤ 256) &&
  decide (sumOf (fun p => p.2.barriers) on + t.barriers ≤ 512) && decide (t.gangs ≤ s.reserve.getD (dieOf core) 0) &&
  s.coreOpen core (s.launchAt t.launch).ctx &&
  (List.range t.gangs).all fun g => quarterTakes rs ((g + b) % 4) (g / 4) t.quota

/-! ### Gangs (R132, R163, R172, R255) -/

/-- A gang entered among those stamped in one cycle: placements before a commit, and in increasing team-local index (R172). -/
def insertFresh (k : Nat × Nat) (n : Nat) : List ((Nat × Nat) × Nat) → List ((Nat × Nat) × Nat)
  | [] => [(k, n)]
  | x :: xs => if pairLt k x.1 then (k, n) :: x :: xs else x :: insertFresh k n xs

/-- A gang given an age stamp (R172): its quarter's counter advances by one, and the stamps that it has given in this cycle stand in the
order of R172. -/
def State.stampGang (s : State) (n : Nat) (commit : Bool) : State :=
  match s.gangAt n with
  | none => s
  | some g =>
    let q := (s.coreAt g.core).quarterAt g.quarter
    let cyc := (s.coreAt g.core).cyc
    let fresh := insertFresh (if commit then 1 else 0, g.index) n (if q.stampAt = cyc then q.fresh else [])
    let first := q.stamps + 1 - fresh.length
    let s1 := s.modCore g.core fun c => c.modQuarter g.quarter fun x => { x with stamps := x.stamps + 1, stampAt := cyc, fresh := fresh }
    (fresh.zip (List.range fresh.length)).foldl (fun s x => s.modGang x.1.2 fun g => { g with stamp := first + x.2 }) s1

/-- A gang given the lowest free slot of its core and a place in a quarter, with an age stamp. -/
def State.placeIn (s : State) (n q : Nat) : State :=
  match s.gangAt n with
  | none => s
  | some g =>
    match (s.coreAt g.core).freeSlots.head? with
    | none => s
    | some sl =>
      let s1 := s.modCore g.core fun c => { c with slots := c.slots.set sl (some n) }
      let cyc := (s.coreAt g.core).cyc
      (s1.modGang n fun g => { g with slot := some sl, quarter := q, waitsSlot := none,
                                      started := if g.started = 0 then cyc + 1 else g.started }).stampGang n false

/-- The entry of a gang index in the exit record when a gang takes it (R199, R200, R260). -/
def GangRec.start (r : GangRec) (cyc : Nat) : GangRec :=
  { r with stalls := if r.stalls.isEmpty then List.replicate 16 0 else r.stalls, uses := min 255 (r.uses + 1),
           gstart := if r.uses = 0 then cyc else r.gstart }

/-- A gang in the state of R132 that has not been placed. -/
def startGang (team index core quota : Nat) (entry args lgid : W64) (exm : Mask) : Gang :=
  { resetGang with
    regs := if args = 0 then [] else [(sKey 0, args)],
    written := [], exm := exm, team := team, index := index, core := core, quota := quota, lgid := lgid,
    slices := (List.range 8).map (freshSlice entry (~~~exm)), splits := [slicesOf (~~~exm)] }

/-- An image of a die's reserve given back, if there was one. -/
def State.restock (s : State) (d : Nat) (back : Bool) : State :=
  { s with reserve := s.reserve.set d (s.reserve.getD d 0 + if back then 1 else 0) }

/-- A new gang of a team: its number and the state; it takes an image of its die's reserve, or where there is none waits for one. -/
def State.newGang (s : State) (team index : Nat) (entry : W64) (lgid : W64) (exm : Mask) : Nat × State :=
  let t := s.teamAt team
  let n := s.nextId
  let d := dieOf t.core
  let g : Gang := { startGang team index t.core t.quota entry t.args lgid exm with launch := t.launch, imaged := decide (0 < s.reserve.getD d 0) }
  (n, { s with nextId := n + 1, gangs := tset s.gangs n g,
               reserve := s.reserve.set d (s.reserve.getD d 0 - 1),
               teams := tset s.teams team { t with
                 recs := tmod t.recs index {} fun r => r.start (s.coreAt t.core).cyc } })

/-- The team that keeps the ids of a determinism domain: rank 0 of the cluster under `DOMCL` (R225). -/
def State.domainHead (s : State) (team : Nat) : Nat :=
  let t := s.teamAt team
  if (s.launchAt t.launch).domcl && t.rank ≠ 0 then t.mates.headD team else team

/-- The gangs that a team starts with, one after another from an index: placed while slots remain, the others wait for one
(R144). -/
def State.startGangs (s : State) (team b : Nat) : Nat → Nat → State
  | 0, _ => s
  | k + 1, i =>
    let t := s.teamAt team
    let id := if (s.launchAt t.launch).domcl then t.rank * t.gangs + i else i
    let r := s.newGang team i t.entry (w64 id) 0
    let q := (i + b) % 4
    let s1 := if decide (0 < s.reserve.getD (dieOf t.core) 0) && !(r.2.coreAt t.core).freeSlots.isEmpty && quarterTakes (r.2.residents t.core) q 0 t.quota then r.2.placeIn r.1 q
      else r.2.modGang r.1 fun g => { g with waitsSlot := some (s.coreAt t.core).cyc }
    State.startGangs s1 team b k (i + 1)

/-- A team admitted to a core (R136): its stash, tile memory and barriers read zero (R32, R420), its gangs start. -/
def State.admitTeam (s : State) (team core : Nat) : State :=
  let t := s.teamAt team
  let b := fewestQuarter (s.residents core)
  let s1 := s.modTeam team fun t => { t with
    admitted := true, core := core, started := true, tstart := (s.coreAt core).cyc,
    nextLgid := if (s.launchAt t.launch).domcl then t.cluster * t.gangs else t.gangs }
  (s1.addUnits t.launch (dieOf core) t.gangs).startGangs team b t.gangs 0

/-! ### Spawn bins (R141, R142) -/

/-- The lowest index that no live gang of the team holds, below 32. -/
def State.freeIndex (s : State) (team : Nat) : Option Nat :=
  let live := (s.liveGangs team).map fun p => p.2.index
  (List.range 32).find? fun i => !live.contains i

/-- A bin launched as a gang of its threads in a quarter that can take it (R141). -/
def State.launchBinAt (s : State) (team bin q : Nat) : Option State :=
  let t := s.teamAt team
  let bn := tget t.bins bin {}
  match bn.args.isEmpty, s.freeIndex team with
  | false, some i =>
    let k := bn.args.length
    let head := s.domainHead team
    let id := (s.teamAt head).nextLgid
    let s1 := s.modTeam head fun t => { t with nextLgid := t.nextLgid + 1 }
    let exm := maskOf fun l => decide (k ≤ l)
    let r := s1.newGang team i bn.key (w64 id) exm
    let s2 := r.2.modGang r.1 fun g => { g with
      regs := ((bn.args.zip (List.range 32)).foldl (fun m p => if p.1 = 0 then m else tset m (vKey 0 p.2) p.1) g.regs) }
    some (((s2.placeIn r.1 q).modTeam team fun t => { t with bins := tdel t.bins bin }).addUnits t.launch (dieOf t.core) (1 - k))
  | _, _ => none

/-- The bin for a key: the one that holds it, else the lowest empty one. -/
def Team.binFor (t : Team) (key : W64) : Option Nat :=
  match (List.range 8).find? fun i => let b := tget t.bins i {}; !b.args.isEmpty && b.key == key with
  | some i => some i
  | none => (List.range 8).find? fun i => (tget t.bins i {}).args.isEmpty

/-- The cycles of BINTIMER of a launch (R128). -/
def Launch.binTimer (l : Launch) : Nat := if fieldOf l.lr 164 4 = 0 then 2048 else fieldOf l.lr 164 4

/-- One thread placed; a bin that fills waits to launch. None when there is no room. -/
def State.placeThread (s : State) (team : Nat) (key arg : W64) : Option State :=
  let t := s.teamAt team
  match t.binFor key with
  | none => none
  | some i =>
    let b := tget t.bins i {}
    if 32 ≤ b.args.length then none
    else
      let first := b.args.isEmpty
      let cyc := (s.coreAt t.core).cyc
      let full := b.args.length + 1 == 32
      let s1 := s.modTeam team fun t => { t with
        bins := tset t.bins i { key := key, args := b.args ++ [arg], since := if first then cyc else b.since,
                                due := if full && b.due.isNone then some cyc else b.due } }
      let l := s.launchAt t.launch
      let s2 := if first && !l.fixord then s1.laterOn t.core l.binTimer .none (.binTimer team i) else s1
      let s3 := s2.addUnits t.launch (dieOf t.core) 1
      some (if full then s3.soon .none (.binLaunch team i) else s3)

/-- Threads placed in order. -/
def State.placeThreads (s : State) (team : Nat) : List (W64 × W64) → Option State
  | [] => some s
  | (k, a) :: r => match s.placeThread team k a with
    | none => none
    | some t => State.placeThreads t team r

/-- A bin that holds threads waits to launch from a cycle on, if it does not already. -/
def Bin.wait (b : Bin) (now : Nat) : Bin := if b.args.isEmpty || b.due.isSome then b else { b with due := some now }

/-- The bins of some teams that hold threads wait to launch (R142). -/
def State.flushBins (s : State) (teams : List Nat) : State :=
  teams.foldl (fun s n => s.modTeam n fun t =>
    { t with bins := t.bins.map fun b => (b.1, b.2.wait (s.coreAt t.core).cyc) }) s

/-! ### Exit records (R148, R198 to R200, R484) -/

/-- Bytes of a gang entry. -/
def GangRec.bytes (r : GangRec) : List Byte :=
  ((if r.stalls.isEmpty then List.replicate 16 0 else r.stalls).flatMap fun x => bytesOf 4 x.toNat) ++
  bytesOf 4 r.sfmask.toNat ++ bytesOf 8 r.sfcode.toNat ++ bytesOf 4 r.tflm.toNat ++ bytesOf 2 r.tcode ++ bytesOf 1 r.uses ++
  List.replicate 5 0 ++ bytesOf 8 r.gstart ++ bytesOf 8 r.gend ++ bytesOf 8 r.insns ++ List.replicate 16 0

/-- A team exit record with n gang entries. -/
def State.exitRecord (s : State) (t : Team) (n : Nat) (truncated : Bool) : List Byte :=
  let flags := (if t.succ.isSome then 1 else 0) + (if truncated then 2 else 0) + (if 1 < t.cluster then 4 else 0) +
    (if t.replayed then 8 else 0)
  bytesOf 8 (if t.kind = .seed then 0 else t.ident.toNat) ++ bytesOf 4 (s.launchAt t.launch).tag.toNat ++ bytesOf 2 (s.placeField t.core) ++
  bytesOf 1 n ++ bytesOf 1 flags ++ bytesOf 8 t.tstart ++ bytesOf 8 (s.coreAt t.core).cyc ++ List.replicate 32 0 ++
  (List.range n).flatMap fun i => (tget t.recs i {}).bytes

/-- A record written at a virtual address with the rights of a user store; where that fails, the Owl stops the queue, after a
delay (R484). -/
def State.recordWrite (s : State) (ctx : Nat) (tag : W32) (va : Nat) (bs : List Byte) (delay : Nat) : State :=
  let r := s.writeVirt ctx va bs {}
  match r.1 with
  | .ok () => r.2
  | .error x => r.2.later delay (.on ctx) (.contextFault tag 6 x.1.1)

/-- A record after which nothing of the same effect is to come. -/
def State.writeRecord (s : State) (ctx : Nat) (tag : W32) (va : Nat) (bs : List Byte) : State := s.recordWrite ctx tag va bs 0

/-- The exit record of a team written where it belongs; the launch that it may complete does so before the queue stops. -/
def State.writeExitRecord (s : State) (team : Nat) : State :=
  let t := s.teamAt team
  let l := s.launchAt t.launch
  let used := (t.recs.map fun p => p.1 + 1).foldl max 1
  if t.exitrec = 0 then s
  else match t.kind with
    | .grid | .seed =>
      let n := min used ((t.stride - 64) / 128)
      if t.stride < 64 then s
      else s.recordWrite l.ctx l.tag (t.exitrec.toNat + (if t.kind = .seed then 0 else t.ident.toNat) * t.stride)
        (s.exitRecord t n (decide (n < used))) 1
    | _ => s.recordWrite l.ctx l.tag t.exitrec.toNat (s.exitRecord t used false) 1

/-! ### Retirement (R142, R144, R145, R148, R189, R191) -/

/-- Every mapped region of a team written back and unmapped. -/
def State.dropRegions (s : State) (team : Nat) : State :=
  let rs := (s.teamAt team).regions
  let s1 := (rs.foldl (fun s r => s.writeBack team r fun _ => true) s).modTeam team fun t => { t with regions := [] }
  rs.foldl (fun s r => s.settleLines team r fun _ => true) s1

/-- A successor team started on the same core with what its predecessor held. -/
def State.startSuccessor (s : State) (old : Nat) (d : TaskDesc) : State :=
  let t := s.teamAt old
  let n := s.nextId
  let new : Team :=
    { launch := t.launch, kind := .successor, ident := d.addr, program := t.program, entry := d.entry, args := d.args,
      exitrec := d.exitrec, gangs := d.gangs, stashKiB := t.stashKiB, tileKiB := t.tileKiB, quota := d.quota, barriers := t.barriers,
      core := t.core, admitted := true, started := true, tstart := (s.coreAt t.core).cyc, stash := t.stash, tile := t.tile, bars := t.bars,
      nextLgid := d.gangs }
  let s1 : State := { s with nextId := n + 1, teams := tset (tdel s.teams old) n new }
  (s1.addUnits t.launch (dieOf t.core) d.gangs).startGangs n (fewestQuarter (s1.residents t.core)) d.gangs 0

/-- A team leaves its core: its successor starts, or its resources are free and its core may take others. -/
def State.finishTeam (s : State) (team : Nat) : State :=
  let t := s.teamAt team
  match t.succ with
  | some (_, d) => s.startSuccessor team d
  | none => ({ s with teams := tdel s.teams team }).soon (.on t.core) .teamAdmit

/-- Stores of a team's blocks that have not reached their homes (02 R61). -/
def State.unreached (s : State) (team : Nat) : List MergePart :=
  ((s.coreAt (s.teamAt team).core).merge.flatMap (·.parts)).filter fun p => s.teamOf p.gang == team

/-- The ordinal of the last block of a team whose stores all reached their homes (02 R61): the highest among its gangs, or the one before the
oldest block with stores on their way. -/
def State.teamOrdinal (s : State) (n : Nat) : Nat :=
  match s.unreached n with
  | [] => (s.allGangs.filter fun p => p.2.team == n).foldl (fun a p => max a p.2.sord.toNat) 0
  | p :: r => r.foldl (fun a x => min a x.sord.toNat) p.sord.toNat

/-- A committed block of the team has stores that have reached their homes and stores that have not (02 R61). -/
def State.teamPartial (s : State) (n : Nat) : Bool :=
  let ps := s.unreached n
  ps.any fun p => decide (sumOf (fun x => x.bytes.length) (ps.filter fun x => x.gang == p.gang && x.sord == p.sord) < p.total)

/-- The exit message of a team sent to its die's distributor (02 R61). -/
def State.sendExit (s : State) (n : Nat) (t : Team) : State :=
  let e : Exit := { team := { t with stash := [], tile := [], bars := [], regions := [], bins := [] }, sord := s.teamOrdinal n, passed := t.succ.isSome }
  (s.modLaunch t.launch fun l => { l with exits := l.exits ++ [e] }).offCore (.on t.core) .teamAdmit

/-- The exit messages of a core's teams counted (R145): each team has retired, and its unit is gone unless a successor has it. -/
def State.countExits (s : State) (core : Nat) : State :=
  s.launches.foldl (fun s p =>
    let mine := p.2.exits.filter fun e => e.team.core == core
    if mine.isEmpty then s
    else
      let s1 := s.modLaunch p.1 fun l => { l with exits := l.exits.filter fun e => e.team.core != core, retired := l.retired + mine.length }
      let n : Int := ((mine.filter fun e => !e.passed).length : Nat)
      if n = 0 then s1 else s1.addUnits p.1 (dieOf core) (-n)) s

/-- The last gang of a team has exited (R148): its core's stores and its regions are written back, the exit record is written and the exit
message sent, and the team lingers while members of its cluster live (R191). -/
def State.retireTeam (s : State) (team : Nat) : State :=
  let t := s.teamAt team
  let s2 := (((s.flushCore t.core).dropRegions team).writeExitRecord team).sendExit team t
  let mates := t.mates.filter fun m => m != team
  if (mates.any fun m => match tfind s2.teams m with | some x => !x.linger | none => false) then
    s2.modTeam team fun t => { t with linger := true, tile := [], bars := [], tileKiB := 0, barriers := 0 }
  else (team :: mates.filter fun m => (tfind s2.teams m).isSome).foldl (fun s m => s.finishTeam m) s2

/-- A gang's slot freed; its lines become evictable, or are discarded when it retires (R179). -/
def State.vacate (s : State) (n : Nat) (retires : Bool) : State :=
  match s.gangAt n with
  | none => s
  | some g =>
    let s1 := s.modCore g.core fun c =>
      ({ c with slots := match g.slot with | some k => c.slots.set k none | none => c.slots, mark := if retires then c.mark.filter fun x => x.1 != n else c.mark }).modQuarter g.quarter fun q =>
        if retires then q.forget n else q.release n
    s1.modGang n fun g => { g with slot := none }

/-- The gang waits at the commit of a block that spawns (R142). -/
def Gang.waitsToSpawn (g : Gang) : Bool :=
  match g.prim with
  | some b => b.stage == .commit && b.fired.any fun r => r.lanes != 0 && (match r.ins with | .spawn _ _ => true | _ => false)
  | none => false

/-- A gang retires: all its lanes have exited. Its entry of the exit record is completed, its image goes back to the reserve, and a
team left with no gang and no thread retires. -/
def State.retireGang (s : State) (n : Nat) : State :=
  match s.gangAt n with
  | none => s
  | some g =>
    if g.retired then s else
    let t := s.teamAt g.team
    let d := dieOf g.core
    let s1 := (s.vacate n true).modGang n fun g => { g.discard with retired := true, excluded := false, parked := false }
    let s2 := s1.modTeam g.team fun t => { t with recs := tmod t.recs g.index {} fun r =>
      { r with gend := (s.coreAt g.core).cyc, sfmask := r.sfmask ||| g.sfmask,
               sfcode := if r.sfmask = 0 then g.sfcode else r.sfcode } }
    let s3 := (s2.restock d g.imaged).addUnits t.launch d (-1)
    let bins := (s3.teamAt g.team).bins.any fun p => !p.2.args.isEmpty
    let s4 := if (s3.launchAt t.launch).fixord && bins && (s3.liveGangs g.team).all (fun p => p.2.waitsToSpawn) then
        (List.range 8).foldl (fun s b => s.soon .none (.binLaunch g.team b)) s3
      else s3
    let s5 := s4.soon (.on g.core) .teamAdmit
    if (s5.liveGangs g.team).isEmpty && !((s5.teamAt g.team).bins.any fun p => !p.2.args.isEmpty) then s5.retireTeam g.team else s5

/-! ### Task descriptors (R143) -/

/-- A task descriptor from its 64 bytes, or none where a field is out of range or a reserved field is not zero. -/
def taskOf (addr : W64) (bs : List Byte) : Option TaskDesc :=
  let f := fieldOf bs
  let d : TaskDesc :=
    { addr := addr, entry := w64 (f 0 8), args := w64 (f 8 8), place := w64 (f 16 8), exitrec := w64 (f 24 8),
      gangs := f 32 1, stash := f 34 2, tile := f 36 2, quota := f 38 2, barriers := f 40 2 }
  if f 0 8 % 16 ≠ 0 ∨ f 24 8 % 64 ≠ 0 ∨ d.gangs = 0 ∨ 32 < d.gangs ∨ f 33 1 ≠ 0 ∨ 256 < d.stash ∨ 256 < d.tile ∨ d.quota < 16 ∨
      256 < d.quota ∨ 512 < d.barriers ∨ f 42 22 ≠ 0 then none
  else some d

end Sys2Proof.Machine
end

