-- ==== Sys2Proof/Machine/Commit.lean ====
section
/-! DEFINITION. The commit point of a block (spec/10_blocks_assembly.md R287, R288): its block faults, what it must wait for, and the
effects that leave it (spec/08_translation_faults.md R242). -/

namespace Sys2Proof.Machine

/-! ### What has fired -/

/-- Records kept in index order. -/
def insertFired (r : Fired) : List Fired → List Fired
  | [] => [r]
  | x :: xs => if r.idx < x.idx then r :: x :: xs else x :: insertFired r xs

/-- What the block's instructions leave behind in its active lanes, in index order (R288). -/
def Blk.effects (b : Blk) : List Fired :=
  ((b.fired.foldl (fun a r => insertFired r a) []).map fun r => { r with lanes := r.lanes &&& b.active }).filter
    fun r => r.lanes != 0

/-- The active lanes that fired no exit, or more than one (R288). -/
def Blk.badExits (b : Blk) : Mask :=
  let es := b.effects.filter fun r => r.ins.isExit
  maskOf fun l => b.active.getLsbD l && (es.filter fun r => r.lanes.getLsbD l).length != 1

/-- The lanes that fired an instruction of a kind. -/
def lanesFired (es : List Fired) (p : Instr → Bool) : Mask :=
  es.foldl (fun m r => if p r.ins then m ||| r.lanes else m) 0

/-- A fault of the block as a whole: index and LSID 255 (R247). -/
def blockFault (code sub : Nat) (m : Mask) (va : Lanes) : FaultRec := { code := code, sub := sub, lanes := m, va := va }

/-! ### Descriptors and checks at the commit point (R342, R447, R455, R195, R341) -/

/-- What commit sends, read and checked at the commit point. -/
inductive Prepared where
  | tasks (ts : List TaskDesc)
  | part (kind : BitVec 2) (parts : Nat) (desc : List Byte)
  | badger (o : BadgerOp)
  deriving DecidableEq, Repr

/-- A task descriptor read and checked. -/
def State.readTask (s : State) (va : W64) : Except (Fail × Nat) TaskDesc × State :=
  let r := s.readOwn va.toNat 64 { sup := s.g.sup }
  match r.1 with
  | .error x => (.error x, r.2)
  | .ok bs => match taskOf va bs with
    | some d => (.ok d, r.2)
    | none => (.error ((1, 19), 0), r.2)

/-- The descriptors of some lanes. -/
def State.readTasks (va : Nat → W64) : List Nat → State → List (Nat × Except (Fail × Nat) TaskDesc) × State
  | [], s => ([], s)
  | l :: r, s =>
    let x := s.readTask (va l)
    let y := State.readTasks va r x.2
    ((l, x.1) :: y.1, y.2)

/-- The fault of a set of lanes' reads, if some lane failed: the lowest code, the subcode of its lowest lane (R243). -/
def tasksFault (rs : List (Nat × Except (Fail × Nat) TaskDesc)) : Option FaultRec :=
  let bad := rs.filterMap fun r => match r.2 with
    | .error x => some (r.1, x)
    | .ok _ => none
  match lowestOf (bad.map fun p => p.2.1.1) with
  | none => none
  | some c =>
    let mine := bad.filter fun p => p.2.1.1 == c
    let va := fun (l : Nat) => match mine.find? fun p => p.1 == l with
      | some p => w64 p.2.2
      | none => 0
    some (blockFault c ((mine.head?.map fun p => p.2.1.2).getD 0) (maskOf fun l => mine.any fun p => p.1 == l) (lanes va))

/-- The tasks read. -/
def tasksRead (rs : List (Nat × Except (Fail × Nat) TaskDesc)) : List TaskDesc :=
  rs.filterMap fun r => match r.2 with
    | .ok d => some d
    | .error _ => none

/-- Does an `exit` name a successor: slot b has a source (R336)? -/
def Blk.namesSuccessor (b : Blk) (idx : Nat) (f : Form) : Bool := f.lit.isSome || (b.tok idx .b).isSome

/-- Physical lanes that a quarter's fields bring into use (R194). -/
def lrmUsed (a p : Nat) : List Nat :=
  ((List.range 33).filter fun n => n != p && !(n == a && decide (a < 32))).take (if p = 63 then 32 else 16)

/-- A quarter's `SKIPA` and `SKIPB`. -/
def lrmFields (x : W64) (q : Nat) : Nat × Nat := (bits x.toNat (16 * q + 5) (16 * q), bits x.toNat (16 * q + 11) (16 * q + 6))

/-- Does a write break the conditions of R195 for a quarter? -/
def lrmBad (c : Core) (x : W64) (q : Nat) : Bool :=
  let old := lrmFields c.lrm q
  let new := lrmFields x q
  let out := fun (f : Nat × Nat) (n : Nat) => (n == f.1 && decide (n < 32)) || n == f.2
  decide (32 < new.1) || (decide (32 < new.2) && new.2 != 63) || !(decide (new.1 < new.2) || new.2 == 63) ||
  ((List.range 33).any fun n => out old n && !out new n) ||
  ((lrmUsed new.1 new.2).any fun n => !(lrmUsed old.1 old.2).contains n && (c.quarterAt q).failing.contains n)

/-- `LRM` as a write leaves it: reserved bits zero, DUAL as `SKIPB` makes it (R193). -/
def lrmWord (x : W64) : W64 :=
  w64 (((List.range 4).map fun q =>
    let f := lrmFields x q
    (f.1 + 64 * f.2 + if f.2 = 63 then 0 else 2 ^ 15) * 2 ^ (16 * q)).foldl (· + ·) 0)

/-- The bytes of a descriptor in the team's stash (R447); a line of a mapped region is filled first. -/
def State.readStash (s : State) (off n : Nat) : Except Fail (List Byte) × State :=
  let r := s.stashAccess s.g.team off n false
  match r.1 with
  | .bad c u => (.error (c, u), r.2)
  | _ => (.ok (stRead r.2.team.stash off n), r.2)

/-- The operation of a Badger instruction for its descriptor (R453, R454). -/
def State.badgerOf (s : State) (i : Instr) (bs : List Byte) : Option BadgerOp :=
  let d := fun (k : BadgerKind) (e o : Ty) (fn : BadgerFn) (rm : BitVec 3) => some (badgerDesc k s.gid s.ctxNo e o fn rm bs)
  let rm := fun (f : Form) => BitVec.ofNat 3 (modeOf f.rm s.env.rmode false)
  match i with
  | .pfill _ => d .fill .n64 .n64 .add 0
  | .pcopy _ => d .copy .n64 .n64 .add 0
  | .pcmp _ => d .cmp .n64 .n64 .add 0
  | .predx f e fn => d .redx e f.ty fn (rm f)
  | .pgath f e fn => d .gath e f.ty fn (rm f)
  | _ => none

/-- One instruction's descriptors read and checked; `k` copy instructions of the block stand before it. -/
def State.prepareOne (s : State) (b : Blk) (k : Nat) (r : Fired) : Except FaultRec (Option Prepared) × State :=
  let stash := fun (n : Nat) => s.readStash (lane r.a 0).toNat n
  let fail := fun (x : Fail) (va : Nat) => blockFault x.1 x.2 r.lanes (splat (w64 va))
  match r.ins with
  | .enq _ =>
    let x := State.readTasks (lane r.a) (lanesOf r.lanes) s
    match tasksFault x.1 with
    | some e => (.error e, x.2)
    | none => (.ok (some (.tasks (tasksRead x.1))), x.2)
  | .exit f =>
    if b.namesSuccessor r.idx f then
      let x := s.readTask (lane r.b 0)
      match x.1 with
      | .error e => (.error (fail e.1 e.2), x.2)
      | .ok d => (.ok (some (.tasks [d])), x.2)
    else (.ok none, s)
  | .syswr _ .lrm =>
    if (List.range 4).any (lrmBad s.core (lane r.a 0)) then (.error (fail (1, 17) 0), s) else (.ok none, s)
  | i =>
    match i.copyKind with
    | some (kind, parts) =>
      let x := stash 384
      match x.1 with
      | .error e => (.error (fail e 0), x.2)
      | .ok bs => match x.2.copyFault bs kind parts k with
        | some e => (.error (fail e 0), x.2)
        | none => (.ok (some (.part kind parts bs)), x.2)
    | none =>
      if i.isBadger then
        let x := stash 64
        match x.1 with
        | .error e => (.error (fail e 0), x.2)
        | .ok bs => match x.2.badgerOf i bs with
          | none => (.ok none, x.2)
          | some o =>
            let y := x.2.badgerPrepare o
            match y.1 with
            | .error e => (.error (fail e.1 e.2), y.2)
            | .ok o' => (.ok (some (.badger o')), y.2)
      else (.ok none, s)

/-- Every descriptor of the block read and checked, in index order; the first fault is the block's. -/
def State.prepareAll (b : Blk) : List Fired → Nat → State → Except FaultRec (List (Nat × Prepared)) × State
  | [], _, s => (.ok [], s)
  | r :: rest, k, s =>
    let x := s.prepareOne b k r
    match x.1 with
    | .error e => (.error e, x.2)
    | .ok p =>
      let y := State.prepareAll b rest (k + if r.ins.isCopy then 1 else 0) x.2
      (y.1.map fun l => match p with | some q => (r.idx, q) :: l | none => l, y.2)

/-- The threads that the block places: entry block and argument, by index and then lane (R341). -/
def Blk.threads (b : Blk) : List (W64 × W64) :=
  b.effects.flatMap fun r => match r.ins with
    | .spawn _ d => (lanesOf r.lanes).map fun l => (dTarget b.addr d, lane r.a l)
    | _ => []

/-- The lanes of the block's spawns. -/
def Blk.spawnLanes (b : Blk) : Mask := lanesFired b.effects fun i => match i with | .spawn _ _ => true | _ => false

/-- The first plain store of the block, in LSID order, that would have to merge into a listed line (01 R37): the block's stores do not
supply that line whole. -/
def State.lostStore (s : State) (b : Blk) : Option FaultRec :=
  let rs := b.stores.filter fun r => b.active.getLsbD r.lane && r.op.isNone
  let as := rs.flatMap fun r => poolAddrs r.places
  let bad := fun (r : StoreRec) => (poolAddrs r.places).any fun a => s.lineLost a && !(coversLine as (a / 256))
  match rs.find? bad with
  | none => none
  | some x =>
    let m := maskOf fun l => rs.any fun r => r.idx == x.idx && r.lane == l && bad r
    let va := fun (l : Nat) => match b.fired.find? fun r => r.idx == x.idx with
      | some r => (match r.ins with | .st _ a => if a.as == .global then w64 (effAddr a (lane r.a l)) else 0 | _ => 0)
      | none => 0
    some { code := 9, idx := x.idx, lsid := x.lsid, lanes := m, va := lanes fun l => if m.getLsbD l then va l else 0 }

/-- The block faults of the commit point in their order (R243, R342, R447, R451, R456), or what commit will send. -/
def State.commitPoint (s : State) (b : Blk) : Except FaultRec (List (Nat × Prepared)) × State :=
  if b.badExits ≠ 0 then (.error (blockFault 3 0 b.badExits []), s)
  else match s.g.engFaults with
    | r :: rest => (.error { r with lanes := b.active }, { s with g := { s.g with engFaults := rest } })
    | [] =>
      let x := State.prepareAll b b.effects 0 s
      match x.1, x.2.lostStore b with
      | .error e, _ => (.error e, x.2)
      | _, some e => (.error e, x.2)
      | .ok p, none =>
        if 8 < (firsts (b.threads.map (·.1))).length then (.error (blockFault 1 19 b.spawnLanes []), x.2) else (.ok p, x.2)

/-! ### Waiting at commit -/

/-- The block holds a store or `red` that needs the commit token (R229). -/
def Blk.needsToken (b : Blk) : Bool := b.stores.any fun r => r.gated && b.active.getLsbD r.lane

/-- How many operations the block adds to each in-flight counter: ST, CP, TA, SF (R406). -/
def Blk.flights (b : Blk) : Nat × Nat × Nat × Nat :=
  let es := b.effects
  let n := fun (p : Instr → Bool) => (es.filter fun r => p r.ins).length
  (n (fun i => match i with | .hfree _ _ => true | .st _ m | .red _ m => m.as == .global || m.as == .pool | _ => false),
   n Instr.isCopy, n Instr.isTileQueue,
   n (fun i => match i with | .smap _ _ | .sunmap _ _ | .swb _ _ | .sinv _ _ => true | _ => false))

/-- The counters stay at 63 or below (R406). -/
def Gang.flightsFit (g : Gang) (n : Nat × Nat × Nat × Nat) : Bool :=
  decide (inFlight g.flST + n.1 ≤ 63 ∧ inFlight g.flCP + n.2.1 ≤ 63 ∧ inFlight g.flTA + n.2.2.1 ≤ 63 ∧ inFlight g.flSF + n.2.2.2 ≤ 63)

/-- The lanes that retire when the block commits: those that fired `exit`, and those switched off (R288). -/
def Blk.retires (b : Blk) : Mask := lanesFired b.effects (fun i => match i with | .exit _ => true | _ => false) ||| (b.lanes &&& b.off)

/-- The block's `regang`s in index order; none where the block must wait for a pending set (R337). -/
def parkAll (b : Blk) : List Fired → Gang → Option Gang
  | [], g => some g
  | r :: rest, g =>
    match r.ins with
    | .regang _ d => match g.parkLanes r.lanes (dTarget b.addr d) ((lane r.a 0).setWidth 32) with
      | none => none
      | some g' => parkAll b rest g'
    | _ => parkAll b rest g

/-- Why the block waits at commit, as a stall reason, if it does (R227, R229, R341, R337, R406). -/
def State.commitWait (s : State) (b : Blk) : Option Nat :=
  let fix := s.launchOf.fixord && !s.g.sup
  if fix && b.needsToken && !s.isMinimum then some 13
  else if fix && b.spawnLanes != 0 && !s.gateOpen then some 13
  else if !s.g.flightsFit b.flights then some 8
  else if (s.placeThreads s.g.team b.threads).isNone then some 5
  else if (parkAll b b.effects { s.g with exm := s.g.exm ||| b.retires }).isNone then some 14
  else none

/-! ### Mapping pages (R251, R464) -/

/-- The lines of a page that a die of the package holds, or that have a directory entry. -/
def State.pageLines (s : State) (p : Nat) : List Nat :=
  ((s.dir.map (·.1) ++ s.dies.flatMap (fun d => d.2.snoop ++ d.2.cache.map (·.line)) ++
    s.teams.flatMap fun t => t.2.regions.flatMap fun r => r.filled.map (·.2)).filter fun l => l / 512 == p).eraseDups

/-- A line given up by every die of the package as a near operation asks (03 R75, 01 R32): dirty sectors reach memory and nothing above it
holds the line; nor does its directory entry. -/
def State.purgeLine (s : State) (line : Nat) : State :=
  let s1 := (List.range 4).foldl (fun s d => s.leaveDie d line false) s
  s1.setDir line { s1.dirAt line with st := .i, sharers := 0 }

/-- A page of the pool made zero (01 R32, R33): stores on their way to it are written first, and its lines leave the caches. -/
def State.zeroPage (s : State) (a : Nat) : State :=
  let p := a / 2 ^ 17
  let s1 := s.cores.foldl (fun s c => s.flushWhere c.1 fun l => l / 512 == p) s
  let s2 := (s1.pageLines p).foldl (fun s l => s.purgeLine l) s1
  let k := s2.poolKey (p * 2 ^ 17)
  { s2 with mem := s2.mem.filter fun c => !(decide (k ≤ c.1) && decide (c.1 < k + 2 ^ 17)) }

/-- TakeFrame (R251, R252): a frame, none when empty, or a fault. -/
def State.takeFrame (s : State) : Except Fail (Option Nat) × State :=
  let die := dieOf s.g.core
  match tfind s.spare die with
  | some f => (.ok (some f.toNat), { s with spare := tdel s.spare die })
  | none =>
    let at_ := supPage + 0x1C000 + 64 * (4 * s.self + die)
    let r := s.readOwn at_ 64 { sup := true }
    match r.1 with
    | .error x => (.error x.1, r.2)
    | .ok bs =>
      let ring := fieldOf bs 0 8
      let cap := fieldOf bs 8 4
      let taken := fieldOf bs 16 8
      if fieldOf bs 24 8 ≤ taken then (.ok none, r.2)
      else if cap = 0 ∨ 2 ^ 24 < cap ∨ ring % 8 ≠ 0 ∨ fieldOf bs 12 4 ≠ 0 ∨ fieldOf bs 32 32 ≠ 0 then (.error (1, 19), r.2)
      else
        let e := r.2.readOwn (ring + 8 * (taken % cap)) 8 { sup := true }
        match e.1 with
        | .error x => (.error x.1, e.2)
        | .ok eb =>
          let f := natOf eb
          let ind := e.2.entryOf (pageOf f)
          if f % 2 ^ 17 ≠ 0 ∨ s.isAdmin (pageOf f) = true ∨ entValid ind = false ∨ entCtx ind ≠ s.ctxNo ∨
              entHome ind / 2 ≠ 4 * s.self + die then (.error (6, 6), e.2)
          else
            let w := e.2.writeOwn (at_ + 16) (bytesOf 8 (taken + 1)) { sup := true }
            match w.1 with
            | .error x => (.error x.1, w.2)
            | .ok () => (.ok (some f), w.2)

/-- Where a walk first meets an invalid entry: its level and the address of the entry; none when it reaches a leaf or fails. -/
def State.missing (s : State) (va : Nat) : Nat → Nat → Bool → Nat → Option (Nat × Nat)
  | 0, _, _, _ => none
  | n + 1, level, split, table =>
    let at_ := table + 8 * tableIndex level split va
    let e := (s.poolWord at_).toNat
    if !e.testBit 63 then some (level, at_)
    else if e.testBit 62 then none
    else s.missing va n (level + 1) (if level = 1 then e.testBit 61 else split) (bits e 47 8 * 256)

/-- The missing tables and the leaf for a page entered one after another (R251): code of R464. -/
def State.mapPage (s : State) (va : Nat) : Nat → Except Fail Nat × State
  | 0 => (.ok 2, s)
  | n + 1 =>
    match s.walkVa s.ctxNo va with
    | .ok _ => (.ok 2, s)
    | .error (5, k) =>
      if k = 4 then (.error (5, 4), s)
      else match s.missing va 4 0 false (s.ctxAt s.ctxNo).table.toNat with
        | none => (.error (5, k), s)
        | some (level, at_) =>
          let f := s.takeFrame
          match f.1 with
          | .error x => (.error x, f.2)
          | .ok none => (.ok 3, f.2)
          | .ok (some p) =>
            if level = 3 then (.ok 1, f.2.poolWrite at_ (bytesOf 8 (7 * 2 ^ 61 + p)))
            else State.mapPage ((f.2.zeroPage p).poolWrite at_ (bytesOf 8 (2 ^ 63 + p))) va n
    | .error x => (.error x, s)

/-- Every dirty sector of a context's mapped regions written back (R189); a region is dropped where the test says so, its bytes staying
as stash bytes (R224). -/
def State.flushRegions (s : State) (ctx : Nat) (drop : Region → Bool) : State :=
  (s.teams.filter fun p => (s.launchAt p.2.launch).ctx == ctx && !p.2.regions.isEmpty).foldl (fun s p =>
    let s1 := (p.2.regions.foldl (fun s r => s.writeBack p.1 r fun _ => true) s).modTeam p.1 fun t =>
      { t with regions := (t.regions.filter fun r => !drop r).map fun r => r.release true fun _ => true }
    (p.2.regions.filter drop).foldl (fun s r => s.settleLines p.1 r fun _ => true) s1) s

/-- `punmap` of one address (R464); dirty sectors of mapped regions leave through the old mapping first (R224). -/
def State.unmapPage (s : State) (va : Nat) : Except Fail Nat × State :=
  match s.walkVa s.ctxNo va with
  | .ok l => (.ok 4, (s.flushRegions s.ctxNo fun _ => false).poolWrite l.at_ (bytesOf 8 (l.entry % 2 ^ 63)))
  | .error (5, _) => (.ok 5, s)
  | .error x => (.error x, s)

/-- `pmap` or `punmap` in some lanes in increasing order; the outcomes so far, and the first fault (R464). -/
def State.mapLanes (unmap : Bool) (a : Lanes) : List Nat → State → Option (Fail × Nat) × State
  | [], s => (none, s)
  | l :: rest, s =>
    let va := (lane a l).toNat
    let r := if unmap then s.unmapPage va else s.mapPage (va / 2 ^ 17 * 2 ^ 17) 5
    match r.1 with
    | .error x => (some (x, l), r.2)
    | .ok c => State.mapLanes unmap a rest { r.2 with g := { r.2.g with pmres := r.2.g.pmres.set l (w64 c) } }

/-! ### The effects (R242) -/

/-- What the block had before it commits. -/
structure Before where
  b : Blk
  lck : W64
  sord : BitVec 24
  rmode : BitVec 3
  sixb : W32
  prep : List (Nat × Prepared)
  deriving DecidableEq, Repr

/-- Does the block publish what its core has stored: an `enq`, a `spawn`, a successor, a `regang`, a fence or an atomic that is a release at a
scope beyond the core (07 R210, R211, R215)? -/
def Blk.publishes (b : Blk) : Bool :=
  (b.effects.any fun r => match r.ins with
    | .enq _ | .spawn _ _ => true
    | .exit f => b.namesSuccessor r.idx f
    | .regang f _ => decide (2 ≤ f.sc.toNat)
    | _ => false) ||
  b.instrs.any fun q => match q.2 with
    | .fence _ _ | .atom _ _ | .cas _ _ => q.2.releasesLsid && decide (2 ≤ q.2.scope)
    | _ => false

/-- A number from the package's counter, entered among the operations of a path. -/
def State.fly (s : State) (p : Path) : Nat × State :=
  let r := s.fresh
  let x : Flight := { num := r.1 }
  let g := r.2.g
  (r.1, { r.2 with g := match p with
    | .st => { g with flST := g.flST ++ [x] }
    | .cp => { g with flCP := g.flCP ++ [x] }
    | .ta => { g with flTA := g.flTA ++ [x] }
    | .sf => { g with flSF := g.flSF ++ [x] } })

/-- Register writes (R281, R288). -/
def State.commitWrites (s : State) (es : List Fired) : State :=
  es.foldl (fun s r => match r.ins with
    | .wr _ reg => (regLines s.g.sup reg).foldl (fun s n => s.touchLine n true) { s with g := s.g.writeReg reg r.lanes r.a }
    | _ => s) s

/-- A `red` performed at its owned line (R401, 07 R218): what the core has still to write there comes first; its in-flight count falls with
the replies of its line requests. -/
def State.commitRed (s : State) (rs : List StoreRec) : State :=
  let ls := linesOf (rs.flatMap (·.places))
  let s1 := rs.foldl (fun s r => s.setPlaces (r.places.zip (s.recBytes [] r))) (s.flushLines s.g.core ls)
  if ls.isEmpty then s1
  else
    let x := s1.fly .st
    ls.foldl (fun s l => s.awaitLine s.g.core s.g.quarter s.gid l x.1) x.2

/-- The bytes of a store in one line, by offset. -/
def lineBytes (rs : List StoreRec) (line : Nat) : List (Nat × Byte) :=
  rs.flatMap fun r => (r.places.zip r.data).filterMap fun x =>
    if x.1.kind = 0 && x.1.off / 256 == line then some (x.1.off % 256, x.2) else none

/-- The records of one plain store: bytes of the pool enter the merge unit, where `rank` decides which store is later (07 R220); a release
beyond the core is preceded by the core's earlier stores (R210). Bytes elsewhere are written. -/
def State.commitStore (s : State) (rank : Nat × Nat) (total : Nat) (flush : Bool) (rs : List StoreRec) : State :=
  let ls := linesOf (rs.flatMap (·.places))
  let s1 := s.setPlaces ((rs.flatMap fun r => r.places.zip r.data).filter fun x => x.1.kind != 0)
  if ls.isEmpty then s1
  else
    let s2 := if flush then s1.flushCore s1.g.core else s1
    let x := s2.fly .st
    let cp := (rs.head?.map (·.cp)).getD 0
    ls.foldl (fun s l => s.enterMerge s.g.core s.g.quarter l cp ⟨rank, s.gid, lineBytes rs l, s.g.sord, total⟩ x.1) x.2

/-- Stores and `red`s in LSID order, lanes rising (R288, R401). A store's rank is its issue cycle and quarter, never below that of a store of
lower LSID of its block; under fixed order it is the logical gang id (R220). -/
def State.commitStores (s : State) (b : Blk) : State :=
  let rs := b.stores.filter fun r => b.active.getLsbD r.lane && !(r.places.any fun p => p.kind == 2)
  let total := sumOf (fun r => if r.op.isSome then 0 else (r.places.filter fun p => p.kind == 0).length) rs
  let one := fun (x : Nat × State) (i : Nat) =>
    let mine := rs.filter fun r => r.idx == i
    let at_ := max x.1 ((mine.head?.map (·.issued)).getD 0)
    let rank := if x.2.launchOf.fixord then (x.2.g.lgid.toNat, 0) else (at_, x.2.g.quarter)
    let rel := match b.instrAt i with
      | .ok j => j.releasesLsid && decide (2 ≤ j.scope)
      | .error _ => false
    (at_, if mine.any fun r => r.op.isSome then x.2.commitRed mine else x.2.commitStore rank total rel mine)
  ((rs.map (·.idx)).eraseDups.foldl one (0, s)).2

/-- The block's place in the order of `seq` operations taken (07 R215), and the core's stores written where the block publishes them. -/
def State.commitOrder (s : State) (b : Blk) : State :=
  let s1 := if b.instrs.any fun q => q.2.isSeq then
      let r := s.fresh
      { r.2 with g := { r.2.g with seqAt := some (b.seq.getD r.1) } }
    else s
  if b.publishes then s1.flushCore s1.g.core else s1

/-- Results in tile memory and tile stores, in index order (R392, R403). -/
def State.commitTiles (s : State) (b : Blk) : State :=
  (List.range 96).foldl (fun s i =>
    let s1 := (b.tiles.filter fun r => r.idx == i).foldl (fun s r =>
      s.modTeam s.g.team fun t => { t with tile := stWrite t.tile r.off r.data }) s
    (b.stores.filter fun r => r.idx == i && b.active.getLsbD r.lane && r.places.any fun p => p.kind == 2).foldl
      (fun s r => s.setPlaces (r.places.zip (s.recBytes [] r))) s1) s

/-- The accumulators' invalid masks (R392). -/
def Gang.commitInval (g : Gang) (b : Blk) : Gang :=
  b.inval.foldl (fun g p => { g with xinv := g.xinv.set p.2.1 p.2.2 }) g

/-- A write of `LRM` (R195): in each quarter whose fields change, instances are discarded, lines written back and freed, and
issue stops until the change is complete. -/
def State.writeLrm (s : State) (x : W64) : State :=
  let old := s.core.lrm
  let new := lrmWord x
  let core := s.g.core
  (List.range 4).foldl (fun s q =>
    if lrmFields old q = lrmFields new q then s
    else
      let s1 := (s.residents core).foldl (fun s p => if p.2.quarter == q then s.modGang p.1 fun g => g.discard else s) s
      let s2 := s1.modCore core fun c => c.modQuarter q fun y => { y with remap := true, cache := [] }
      s2.drawn.laterOn core (1 + Config.freeDelay s2.free % 4096) .none (.lrmRemapComplete core q))
    (s.modCore core fun c => { c with lrm := new })

/-- `syswr` of a register other than `FST` (R460). -/
def State.writeSys (s : State) (r : SysReg) (x : W64) : State :=
  match r with
  | .lrm => s.writeLrm x
  | .fst => { s with g := { s.g with fst := fstWrite x } }
  | _ => s

/-- The last `syswr` of each register takes effect (R460). -/
def State.commitSys (s : State) (es : List Fired) : State :=
  [SysReg.fst, .lrm].foldl (fun s reg =>
    match (es.filter fun r => match r.ins with | .syswr _ x => x == reg | _ => false).getLast? with
    | some r => s.writeSys reg (lane r.a 0)
    | none => s) s

/-- Provenance: the clears, then the block's own events (R270, R468). -/
def State.commitProv (s : State) (p : Before) (es : List Fired) : State :=
  let s1 := es.foldl (fun s r => match r.ins with
    | .prov _ true => if (List.range 4).all (fun k => s.g.prov.getD k 0 == lane r.a k) then
        { s with g := { s.g with prov := List.replicate 4 0 } } else s
    | _ => s) s
  match lowestOf (p.b.prov.map (·.1)) with
  | none => s1
  | some i => match p.b.prov.find? fun e => e.1 == i with
    | some e => s1.recordProv s1.gid e.2 (if p.b.stop then p.b.ordinal else p.sord) p.lck
    | none => s1

/-- Port occupancy and completion time of a tile-queue instruction (R440). -/
def queueTimes : Instr → Nat × Nat
  | .tclr _ _ => (4, 6)
  | .tcvt _ _ _ _ => (16, 24)
  | _ => (8, 12)

/-- An instruction entered in its core's tile queue (R441). -/
def State.enterQueue (s : State) (p : Before) (r : Fired) : State :=
  let c := s.core
  let t := queueTimes r.ins
  let start := match c.tq.getLast? with
    | some e => max (s.clock + 1) (e.start + (queueTimes e.fire.ins).1)
    | none => s.clock + 1
  let e : TqEntry := { num := c.tqNext, gang := s.gid, team := s.g.team, fire := r, rmode := p.rmode, sixb := p.sixb, lck := p.lck,
                       sord := if p.b.stop then p.b.ordinal else p.sord, start := start, finish := start + t.2 }
  let s1 := s.modCore s.g.core fun c => { c with tq := c.tq ++ [e], tqNext := c.tqNext + 1 }
  ({ s1 with g := { s1.g with flTA := s1.g.flTA ++ [{ num := e.num }] } } : State).laterHere (start - s.clock) (.on s.g.core) .tileQueueStart

/-- A copy part sent to the core's Beaver (R447). -/
def State.sendPart (s : State) (p : Before) (kind : BitVec 2) (parts : Nat) (desc : List Byte) : State :=
  let x := s.fly .cp
  x.2.soon (.on s.g.core) (.copyPartArrive s.gid s.g.team s.g.index parts x.1 kind s.g.sup p.lck
    (if p.b.stop then p.b.ordinal else p.sord) desc)

/-- A task sent to its die's distributor (R143, R146). -/
def State.sendTask (s : State) (d : TaskDesc) : State :=
  let l := s.team.launch
  let die := dieOf s.g.core
  let s1 := s.addUnits l die 1
  if d.place = 0 then s1.soon .none (.taskArrival l die (s.g.core % 144) d) else s1.offCore .none (.taskArrival l die (s.g.core % 144) d)

/-- A successor named (R144): the one named by the gang of lowest logical id is kept. -/
def State.nameSuccessor (s : State) (d : TaskDesc) : State :=
  s.modTeam s.g.team fun t => match t.succ with
    | some (id, _) => if s.g.lgid.toNat < id then { t with succ := some (s.g.lgid.toNat, d) } else t
    | none => { t with succ := some (s.g.lgid.toNat, d) }

/-- `smap` sent (R409). -/
def State.sendSmap (s : State) (r : Fired) : State :=
  let x := s.fly .sf
  let s1 := x.2.modTeam s.g.team fun t => { t with
    regions := t.regions ++ [{ num := x.1, off := (lane r.a 0).toNat, va := lane r.b 0, len := (lane r.c 0).toNat }] }
  s1.laterHere 64 .none (.smapComplete s.g.team x.1)

/-- `sunmap` sent (R410): dirty sectors are written back, and a filled line keeps its bytes as plain stash bytes; the region goes when that is
done. -/
def State.sendSunmap (s : State) (r : Fired) : State :=
  let x := s.fly .sf
  let off := (lane r.a 0).toNat
  let mine := s.team.regions.filter fun y => y.off == off && !y.leaving
  let s1 := mine.foldl (fun s y => s.writeBack s.g.team y fun _ => true) x.2
  let s2 := s1.modTeam s.g.team fun t => { t with
    regions := t.regions.map fun y => if y.off == off && !y.leaving then { y.release false (fun _ => true) with num := x.1, leaving := true } else y }
  (mine.foldl (fun s y => s.settleLines s.g.team y fun _ => true) s2).offCore (.gang s.gid) (.regionWritebackComplete s.gid s.g.team x.1)

/-- `swb` and `sinv` (R411): lines partly, or wholly, in the range are written back and, for `sinv`, unfilled. -/
def State.sendSwb (s : State) (r : Fired) (inv : Bool) : State :=
  let x := s.fly .sf
  let a := (lane r.a 0).toNat
  let z := min (a + (lane r.b 0).toNat) (s.team.stashKiB * 1024)
  let hit := fun (y : Region) (n : Nat) =>
    let lo := y.off + 256 * n
    (tfind y.filled n).isSome && (if inv then decide (a ≤ lo ∧ lo + 256 ≤ z) else decide (lo < z ∧ a < lo + 256))
  let live := fun (y : Region) => !y.pending && !y.leaving
  let s1 := s.team.regions.foldl (fun s y => if live y then s.writeBack s.g.team y (hit y) else s) x.2
  let clean := fun (y : Region) => if live y then y.release (!inv) (hit y) else y
  let s2 := s1.modTeam s.g.team fun t => { t with regions := t.regions.map clean }
  let s3 := if inv then s.team.regions.foldl (fun s y => if live y then s.settleLines s.g.team y (hit y) else s) s2 else s2
  s3.offCore (.gang s.gid) (.regionWritebackComplete s.gid s.g.team x.1)

/-- `hfree` (R416): each lane's block goes to the head of its list. -/
def State.heapFree (s : State) (r : Fired) : State :=
  (lanesOf r.lanes).foldl (fun s l =>
    let p := (lane r.a l).toNat
    let at_ := s.heapAt + 32 + 8 * sizeClass (lane r.b l).toNat
    if p = 0 then s
    else
      let h := s.supWord at_
      match h.1 with
      | .error _ => h.2
      | .ok head =>
        let w := h.2.setSupWord p head
        match w.1 with
        | .error _ => w.2
        | .ok () => (w.2.setSupWord at_ p).2) s

/-- `rquota` (R339). -/
def State.setQuota (s : State) (q : Nat) : State :=
  let old := s.g.quota
  let sum := (quarterLoad (s.residents s.g.core) s.g.quarter).2
  if q = 0 then s
  else if q ≤ old then
    let s1 := s.modCore s.g.core fun c => c.modQuarter s.g.quarter fun y => y.lower s.gid q
    { s1 with g := { s1.g with quota := q } }
  else { s with g := { s.g with quota := old + min (q - old) (768 - sum) } }

/-- `yield` (R338): a new stamp, but under fixed timing. -/
def State.restamp (s : State) : State :=
  if s.fixedTiming then s else s.stampGang s.gid true

/-- `trc` (R468): the gang is marked when a session samples. -/
def State.markTrc (s : State) : State :=
  match (s.ctxAt s.ctxNo).trace with
  | none => s
  | some t =>
    if t.closing.isSome || !(t.evmask.getLsbD 0) then s
    else s.modCore s.g.core fun c => { c with mark := (c.mark.filter fun x => x.1 != s.gid) ++ [(s.gid, 255)] }

/-- Cached entries that meet a test leave every TLB and walk cache, and the home hints of some pool pages with them. -/
def State.forgetCached (s : State) (hit : Cached → Bool) (page : Nat → Bool) : State :=
  let out := fun (l : List Cached) => if l.any hit then l.filter fun e => !(hit e) else l
  { s with cores := s.cores.map fun c => if c.2.tlb.any hit then (c.1, { c.2 with tlb := out c.2.tlb }) else c,
           dies := s.dies.map fun d => (d.1, { d.2 with tlb := out d.2.tlb, walks := out d.2.walks }),
           hints := s.hints.filter fun h => !(page (h.1 % 2 ^ 32)) }

/-- The context's translations for the pages that meet a range forgotten, with the home hints that came of them, and the mapped regions over it unmapped; stores of its cores that
went through them are written first (R224, R465). -/
def State.dropTlb (s : State) (ctx a n : Nat) : State :=
  let mine := s.cores.filter fun c => (s.partAt (partOf c.1)).owner == some ctx
  let s := (mine.foldl (fun s c => s.flushCore c.1) s).flushRegions ctx fun r => !r.pending && (n == 0 || overlap r.va.toNat r.len a n)
  let hit := fun (e : Cached) => e.ctx == ctx && (n == 0 || overlap (e.range * 2 ^ e.size) (2 ^ e.size) a n)
  let pages := (s.dies.flatMap fun d => d.2.tlb.filter hit) ++ s.cores.flatMap fun c => c.2.tlb.filter hit
  s.forgetCached hit fun p => pages.any fun e => e.entry % 2 ^ 48 / 2 ^ e.size == p * 2 ^ 17 / 2 ^ e.size

/-- What one instruction sends or changes at commit beside registers, memory, tiles, system registers and provenance. -/
def State.commitOne (s : State) (p : Before) (r : Fired) : State :=
  let prep : Option Prepared := (p.prep.find? fun x => x.1 == r.idx).map (·.2)
  match r.ins, prep with
  | .enq _, some (.tasks ts) => ts.foldl (fun s d => s.sendTask d) s
  | .exit _, some (.tasks (d :: _)) => s.nameSuccessor d
  | .cpy _ _, some (.part k n d) | .cpyg _ _, some (.part k n d) | .cpyx _ _, some (.part k n d)
  | .cfill _ _, some (.part k n d) => s.sendPart p k n d
  | .pfill _, some (.badger o) | .pcopy _, some (.badger o) | .pcmp _, some (.badger o) | .predx _ _ _, some (.badger o)
  | .pgath _ _ _, some (.badger o) => s.offCore .none (.badgerOperation o)
  | .tld _ _, _ | .tst _ _, _ | .tclr _ _, _ | .tcvt _ _ _ _, _ => s.enterQueue p r
  | .smap _ _, _ => s.sendSmap r
  | .sunmap _ _, _ => s.sendSunmap r
  | .swb _ _, _ => s.sendSwb r false
  | .sinv _ _, _ => s.sendSwb r true
  | .hfree _ _, _ => s.heapFree r
  | .rquota _, _ => s.setQuota (lane r.a 0).toNat
  | .yield _, _ => s.restamp
  | .tlbinv _, _ =>
    let s1 := s.dropTlb s.ctxNo (lane r.a 0).toNat (lane r.b 0).toNat
    ({ s1 with g := { s1.g with tlbWait := true } } : State).offCore (.gang s.gid) .tlbinvComplete
  | _, _ => s

/-- `pmap` and `punmap` in index order; a fault is inside the handler (R464). -/
def State.commitMaps (s : State) (es : List Fired) : Option FaultRec × State :=
  let ms := es.filter fun r => match r.ins with | .pmap _ | .punmap _ => true | _ => false
  if ms.isEmpty then (none, s)
  else ms.foldl (fun x r => match x.1 with
    | some _ => x
    | none =>
      let y := State.mapLanes (match r.ins with | .punmap _ => true | _ => false) r.a (lanesOf r.lanes) x.2
      (y.1.map fun e => { code := e.1.1, sub := e.1.2, idx := r.idx, lanes := r.lanes }, y.2))
    (none, { s with g := { s.g with pmres := List.replicate 32 0 } })

/-- Every effect of the block (R288, R242), and a fault of its `pmap` if one arose. -/
def State.commitEffects (s : State) (p : Before) : Option FaultRec × State :=
  let es := p.b.effects
  let s1 := (((s.commitWrites es).commitStores p.b).commitOrder p.b).commitTiles p.b
  let s2 : State := { s1 with g := s1.g.commitInval p.b }
  let s3 := (s2.placeThreads s2.g.team p.b.threads).getD s2
  let s4 := es.foldl (fun s r => s.commitOne p r) s3
  let s5 := (s4.commitProv p es).commitSys es
  ({ s5 with g := { s5.g with fst := s5.g.fst ||| (p.b.flags.setWidth 64) } } : State).commitMaps es

end Sys2Proof.Machine
end

