-- ==== Sys2Proof/Machine/Route.lean ====
section
/-! DEFINITION. Routes (spec/02_links.md R46 to R48): which links a message takes from a C-die of the package, and which of them hold it up
(R42). -/

namespace Sys2Proof.Machine

/-- Number of a link: port p of C-die d is 8 d + p, then the links between C-dies, then those to the H-die; those of other packages follow. -/
def linkKey : Link → Nat
  | .port d p => 8 * d + p
  | .dieDie a b => 32 + 4 * min a b + max a b
  | .dieHub d => 48 + d
  | .far n d p => 4096 + 32 * n + 8 * d + p
  | .farHub n d => 8192 + 4 * n + d

/-- A link's state. -/
def State.linkAt (s : State) (l : Link) : LinkSt := tget s.pkg.links (linkKey l) {}

/-- A port carries traffic, or will when its retraining ends (notes/assumptions/116.md). -/
def State.portWorks (s : State) (d p : Nat) : Bool :=
  let x := s.linkAt (.port d p)
  !x.down && !x.fenced && (x.up || x.trained)

/-- The direct link between two C-dies is not down. -/
def State.joined (s : State) (a b : Nat) : Bool := a == b || !(s.linkAt (.dieDie a b)).down

/-- A path between two C-dies inside the package (R48): the direct link, else through the lowest C-die with working links to both. -/
def State.innerPath (s : State) (a b : Nat) : Option (List Link) :=
  if a = b then some []
  else if s.joined a b then some [.dieDie a b]
  else ([0, 1, 2, 3].find? fun r => r != a && r != b && s.joined a r && s.joined r b).map fun r => [.dieDie a r, .dieDie r b]

/-- A path between the H-die and a C-die inside the package (R48). -/
def State.hubPath (s : State) (d : Nat) : Option (List Link) :=
  let hub := fun (d : Nat) => !(s.linkAt (.dieHub d)).down
  if hub d then some [.dieHub d]
  else ([0, 1, 2, 3].find? fun r => r != d && hub r && s.joined r d).map fun r => [.dieHub r, .dieDie r d]

/-- A C-die reaches a switch: one of its two ports there works (R44). -/
def State.onSwitch (s : State) (d k : Nat) : Bool := s.portWorks d (2 * k) || s.portWorks d (2 * k + 1)

/-- A C-die of another package reaches a switch: not both of its ports there have been reported down (notes/assumptions/117.md). -/
def State.farOn (s : State) (n d k : Nat) : Bool := !(s.linkAt (.far n d (2 * k))).down || !(s.linkAt (.far n d (2 * k + 1))).down

/-- The switches that a C-die of the package and a destination have in common (R47): a C-die of the package, or of another. -/
def State.routeSet (s : State) (d : Nat) (to_ : Option Nat × Nat) : List Nat :=
  [0, 1, 2, 3].filter fun k => s.onSwitch d k && (match to_.1 with | some n => s.farOn n to_.2 k | none => s.onSwitch to_.2 k)

/-- The port of a C-die for a message (R47): switch number H mod m of its route set and the port that bit 8 chooses for a line address, the
lowest switch for a control message. -/
def State.routePort (s : State) (d : Nat) (set : List Nat) (addr : Option Nat) : Option Link :=
  let k := match addr with
    | some a => set[(bits a 15 8 ^^^ bits a 23 16) % max 1 set.length]?
    | none => set.head?
  let b := match addr with | some a => a / 256 % 2 | none => 0
  k.map fun k => .port d (if s.portWorks d (2 * k + b) then 2 * k + b else 2 * k + (1 - b))

/-- A path over a switch between two C-dies of the package. -/
def State.switchPath (s : State) (d e : Nat) (addr : Option Nat) : Option (List Link) :=
  let set := s.routeSet d (none, e)
  match s.routePort d set addr, s.routePort e set addr with
  | some x, some y => some [x, y]
  | _, _ => none

/-- A path between two C-dies of the package (R48): inside it; over a switch; through the lowest C-die that has a route; through the
lowest sibling of the destination. -/
def State.diePath (s : State) (d e : Nat) (addr : Option Nat) : Option (List Link) :=
  let others := [0, 1, 2, 3].filter fun r => r != d && r != e
  let via := others.findSome? fun r =>
    if s.joined d r then (s.switchPath r e addr).map fun p => .dieDie d r :: p else none
  let sibling := others.findSome? fun r =>
    if s.joined r e then (s.switchPath d r addr).map fun p => p ++ [.dieDie r e] else none
  (((s.innerPath d e).or (s.switchPath d e addr)).or via).or sibling

/-- The links of the package that a message takes from a C-die to one of another package (R47, R48): by its own route set; through the lowest
C-die that has one; to the lowest sibling of the destination that can be reached. Without a C-die it goes to the lowest that can be reached. -/
def State.outPath (s : State) (d n : Nat) (die : Option Nat) (addr : Option Nat) : Option (List Link) :=
  let own := fun (r e : Nat) => s.routePort r (s.routeSet r (some n, e)) addr
  let to_ := fun (e : Nat) => ((own d e).map fun p => [p]).or ([0, 1, 2, 3].findSome? fun r =>
    if r == d then none
    else match s.innerPath d r, own r e with
      | some x, some p => some (x ++ [p])
      | _, _ => none)
  match die with
  | some e => (to_ e).or (([0, 1, 2, 3].filter fun x => x != e).findSome? to_)
  | none => [0, 1, 2, 3].findSome? to_

/-- Another package can be reached: some C-die of it shares a switch with some C-die of this one, and its H-die is linked to one (R60). -/
def State.packageReached (s : State) (n : Nat) : Bool :=
  ([0, 1, 2, 3].any fun d => [0, 1, 2, 3].any fun e => !(s.routeSet d (some n, e)).isEmpty) &&
    [0, 1, 2, 3].any fun e => !(s.linkAt (.farHub n e)).down

/-- The links of the package between a C-die and the home of a pool line. -/
def State.homePath (s : State) (d line : Nat) : Option (List Link) :=
  let home := s.homeOf (line / 512)
  if home / 8 = s.self then s.diePath d (home % 8 / 2) (some (256 * line)) else s.outPath d (home / 8) (some (home % 8 / 2)) (some (256 * line))

/-- A link holds up what waits on it (R42): it retrains, or flits on it are in replay. -/
def LinkSt.busy (x : LinkSt) : Bool := x.training || x.replays != 0

/-- An access of a C-die to a pool line waits on a link that replays or retrains. -/
def State.lineHeld (s : State) (d line : Nat) : Bool := ((s.homePath d line).getD []).any fun l => (s.linkAt l).busy

end Sys2Proof.Machine
end

