-- ==== Sys2Proof/Machine/Block.lean ====
section
/-! DEFINITION. A block's life (spec/10_blocks_assembly.md R285 to R293; spec/06_cores.md R164 to R171, R184 to R186): fetch, header
decode, commit, the end of the handler, stalls and deadlines. -/

namespace Sys2Proof.Machine

/-- The context runs on the core: it owns the partition, which is neither halted nor being taken (R154), nor stopped by a droop (01 R19). -/
def State.running (s : State) (core ctx : Nat) : Bool :=
  let p := s.partAt (partOf core)
  p.owner == some ctx && !p.halted && !p.guard && p.taking.isNone && !(s.ctxAt ctx).halt

/-- Every instruction of the instance has completed (R287). -/
def Blk.complete (b : Blk) : Bool := b.instrs.all fun p => b.done.getLsbD p.1

/-! ### Trace records of a block (R263 to R267) -/

/-- The body of a sample, breakpoint or safe-point record. -/
def blockRecord (program : W64) (ordinal : BitVec 24) (index : Nat) (m : Mask) (lck : W64) (reason : Nat) : List Byte :=
  bytesOf 8 program.toNat ++ bytesOf 3 ordinal.toNat ++ bytesOf 1 index ++ bytesOf 4 m.toNat ++ bytesOf 8 lck.toNat ++ bytesOf 1 reason

/-- The records of a safe point that commits: its own, and the sample of a marked gang (R265). -/
def State.safePoint (s : State) (b : Blk) (lck : W64) (m : Mask) : State :=
  if !b.stop then s
  else
    let put := fun (s : State) (bit type reason : Nat) =>
      s.traceRecord s.ctxNo bit type s.g.core s.launchOf.tag (blockRecord s.team.program b.ordinal s.g.index m lck reason)
    let s1 := put s 2 3 0
    match s1.core.mark.find? fun x => x.1 == s1.gid with
    | none => s1
    | some x => (put s1 0 1 x.2).modCore s1.g.core fun c => { c with mark := c.mark.filter fun y => y.1 != s1.gid }

/-! ### What a commit does to the gang (R288) -/

/-- Where a lane goes: the target of its exit; none for a lane that retires, parks at `regang` or ends its part of the handler. -/
def exitTarget (b : Blk) (es : List Fired) (l : Nat) : Option W64 :=
  if es.any (fun r => r.lanes.getLsbD l && (match r.ins with | .tret _ => true | _ => false)) then none
  else
    match es.find? fun r => r.ins.isExit && r.lanes.getLsbD l with
    | none => none
    | some r => match r.ins with
      | .br _ d | .bl _ d => some (dTarget b.addr d)
      | .jr _ => some (lane r.a l)
      | _ => none

/-- Two bits of SFCODE for each lane switched off (R199); the first code of a lane is kept. -/
def sfcodeOf (x : W64) (old : Mask) (codes : List (Nat × Nat)) : W64 :=
  codes.foldl (fun x p => if old.getLsbD p.1 then x else x ||| w64 (p.2 * 4 ^ p.1)) x

/-- The block moves its split to the end of the table: it contains an `ldp`, or a `cas` left memory unchanged (R171). -/
def Blk.demotes (b : Blk) : Bool :=
  (b.instrs.any fun p => match p.2 with | .ldp _ _ => true | _ => false) ||
  b.fired.any fun r => match r.ins with | .cas _ _ => true | _ => false

/-- The gang after its primary's effects: lanes retire, the clock advances, held outcomes clear, lanes take their paths (R288). -/
def Gang.afterCommit (g : Gang) (b : Blk) : Gang :=
  let es := b.effects
  let off := b.lanes &&& b.off
  let trets := lanesFired es fun i => match i with | .tret _ => true | _ => false
  let g1 : Gang := { g with
    prim := none, stepOver := none, exm := g.exm ||| b.retires, sfcode := sfcodeOf g.sfcode g.sfmask b.offCode, sfmask := g.sfmask ||| off,
    ended := g.ended ||| (trets &&& ~~~b.retires), lck := if g.sup then g.lck else g.lck + w64 b.ni,
    held := g.held.filter (fun p => if g.sup then p.1 < 4 else 4 ≤ p.1), ahead := g.ahead.filter (fun p => p.1 != g.sup), sord := if b.stop then b.ordinal else g.sord }
  ((((parkAll b es g1).getD g1).nextPaths b.slices (exitTarget b es) b.demotes).checkRelease).placeRels

/-- Instructions of committed user blocks counted (R199). -/
def State.countInsns (s : State) (n : Nat) : State :=
  if s.g.sup then s
  else s.modTeam s.g.team fun t => { t with recs := tmod t.recs s.g.index {} fun r => { r with insns := min (2 ^ 64 - 1) (r.insns + n) } }

/-- The watch list of an `ldp`: up to 32 lines (R186). -/
def State.watchLines (s : State) (r : Fired) : List Nat :=
  let ps := (lanesOf r.lanes).filterMap fun l =>
    match s.walkVa s.ctxNo (lane r.a l).toNat with
    | .ok x => some (x.pa / 256)
    | .error _ => none
  (ps.foldl (fun a n => if a.contains n then a else a ++ [n]) []).take 32

/-- The polling count (R184, R398): the `ldp` with the highest LSID counts. -/
def State.pollCount (s : State) (b : Blk) : State :=
  let ls := b.effects.filter fun r => match r.ins with | .ldp _ _ => true | _ => false
  match ls.foldl (fun (a : Option Fired) r => match a with
      | none => some r
      | some x => if (x.ins.lsid.getD 0) < (r.ins.lsid.getD 0) then some r else some x) none with
  | none => s
  | some r =>
    let addr := lanes fun l => if r.lanes.getLsbD l then lane r.a l else 0xFFFFFFFFFFFFFFFF
    let val := lanes fun l => if r.lanes.getLsbD l then lane r.b l else 0
    let same := addr == s.g.ldpAddr && val == s.g.ldpVal
    let n := if same then min (s.g.poll + 1) 65535 else 0
    let parks := decide (256 ≤ n)
    { s with g := { s.g with
        poll := n, ldpAddr := addr, ldpVal := val, watch := s.watchLines r,
        parked := parks, parkedAt := if parks && !s.g.parked then s.clock else s.g.parkedAt } }

/-! ### The next primary (R165, R168) -/

/-- The secondary becomes the primary when its split still stands at its block with the same lanes; otherwise it is dropped. -/
def Gang.promote (g : Gang) (now : Nat) : Gang :=
  match g.sec with
  | none => g
  | some b =>
    match g.splits.find? fun sp => sp &&& b.slices != 0 && g.splitAddr sp == b.addr with
    | none => { g with sec := none }
    | some sp =>
      if g.pathLanes sp = b.lanes then { g with prim := some { b with slices := sp, start := max b.decoded now }, sec := none }
      else { g with sec := none }

/-- A complete primary is entered for its commit (R287, R291, R477): the commit latency after its last instruction, or for a timed
block the cycle start + TLEN once it is ready. -/
def State.scheduleCommit (s : State) : State :=
  match s.g.prim with
  | none => s
  | some b =>
    if b.stage != .run || b.pend.isSome || !b.complete then s
    else
      let due := max s.clock (if b.timed then max b.progress (b.start + b.tlen) else b.progress + s.lat (2, 3))
      (({ s with isec := false } : State).setBlk { b with stage := .commit, due := due, why := if b.timed then 11 else 5 }).laterHere (due - s.clock)
        (.gang s.gid) .blockCommit

/-- A primary that has been decoded starts its deadline under fixed timing (R291). -/
def State.startTimer (s : State) : State :=
  match s.g.prim with
  | none => s
  | some b =>
    if b.timed && s.fixedTiming && (b.stage == .run) then
      s.laterHere (b.start + b.tlen - s.clock) (.gang s.gid) .timedDeadline
    else s

/-- The new primary, if any, takes a fault that it met as the secondary, or starts its timer. -/
def State.nextPrimary (s : State) : State :=
  let s1 := { s with g := s.g.promote s.clock }
  match s1.g.prim with
  | none => s1
  | some b => match b.pend with
    | some r => s1.takeFault { r with lanes := if r.idx = 255 then b.lanes else r.lanes } b.addr false
    | none => s1.startTimer

/-! ### The end of the handler and of the gang (R249, R144, R148) -/

/-- The lanes that stood at the faulted block. -/
def Gang.standing (g : Gang) : Mask :=
  maskOf fun l =>
    let p := (g.saveSlices.getD (l / 4) {}).cur
    p.addr == g.fpc && p.lanes.getLsbD (l % 4)

/-- The handler ends (R249): user privilege, the lanes that fired `exit` retired with their unrecovered trap, and a `trap` that
waits behind a `brk` is taken (R461). -/
def State.endHandler (s : State) : State :=
  let g := s.g
  let retired := g.exm &&& ~~~g.saveExm
  let trapped := retired &&& ~~~g.sfmask
  let g1 := (((g.leaveHandler retired).settle).checkRelease).placeRels
  let g2 : Gang := { g1 with
    held := if g.standing &&& ~~~g1.exm = 0 then g1.held.filter fun p => 4 ≤ p.1 else g1.held,
    ahead := if g.standing &&& ~~~g1.exm = 0 then g1.ahead.filter (·.1) else g1.ahead, trapNext := none }
  let s1 := ({ s with g := g2 } : State).modTeam g.team fun t =>
    { t with recs := if trapped = 0 then t.recs else tmod t.recs g.index {} fun r =>
        if r.tflm = 0 then { r with tflm := trapped, tcode := g.fcause.toNat % 65536 } else r }
  match g.trapNext with
  | none => s1
  | some (r, addr) =>
    let m := r.lanes &&& ~~~s1.g.exm
    if m = 0 then s1 else s1.takeFault { r with lanes := m } addr false

/-- A gang whose lanes have all exited retires; copies that waited for its parts may start (R448). -/
def State.retireIfDone (s : State) : State :=
  if !s.g.sup && s.g.exm == allLanes && !s.g.retired then (s.retireGang s.gid).tryCopies s.g.core else s

/-- `trap` and `brk` after a commit (R244, R461): `BREAK` first, `TRAP` behind it. -/
def State.takeTraps (s : State) (b : Blk) : State :=
  let es := b.effects
  let gone := if s.g.sup then 0 else s.g.exm
  let brks := lanesFired es (fun i => match i with | .brk _ => true | _ => false) &&& ~~~gone
  let traps := lanesFired es (fun i => match i with | .trap _ _ => true | _ => false) &&& ~~~gone
  let sub := (es.findSome? fun r => match r.ins with | .trap _ x => some x.toNat | _ => none).getD 0
  let t := blockFault 19 sub traps []
  if brks ≠ 0 then
    let s1 : State := if traps ≠ 0 && !s.g.sup then { s with g := { s.g with trapNext := some (t, b.addr) } } else s
    s1.takeFault (blockFault 17 0 brks []) b.addr false
  else if traps ≠ 0 then s.takeFault t b.addr false
  else s

/-- The block fires a kind of instruction in some active lane. -/
def Blk.fires (b : Blk) (p : Instr → Bool) : Bool := lanesFired b.effects p != 0

/-- What follows a commit: `halt`, traps, the end of the handler, the next primary. -/
def State.afterEffects (s : State) (b : Blk) (sup : Bool) : State :=
  if b.fires (fun i => match i with | .halt _ => true | _ => false) then
    let tag := s.launchOf.tag
    let c := s.ctxNo
    ({ s with g := s.g.dropHandler } : State).soon (.on c) (.contextFault tag 4 0)
  else if b.fires (fun i => match i with | .trap _ _ | .brk _ => true | _ => false) && (sup || s.g.exm != allLanes) then
    (s.takeTraps b).retireIfDone
  else if sup && s.g.flm &&& ~~~(s.g.ended ||| s.g.exm) == 0 then (s.endHandler).retireIfDone
  else (s.nextPrimary).retireIfDone

/-- A block commits: every effect, or a fault of its mapping instructions inside the handler (R288, R289). -/
def State.commitBlock (s : State) (b : Blk) (prep : List (Nat × Prepared)) : State :=
  let p : Before := { b := b, lck := s.g.lck, sord := s.g.sord, rmode := s.env.rmode, sixb := s.env.sixb, prep := prep }
  let sup := s.g.sup
  let x := s.commitEffects p
  let s1 := (x.2.modCore s.g.core fun c => c.modQuarter s.g.quarter fun q => { q with committed := s.clock + 1 })
  match x.1 with
  | some r => s1.takeFault r b.addr false
  | none =>
    let s2 := ((s1.safePoint b p.lck b.active).countInsns b.ni)
    let s3 := (({ s2 with g := s2.g.afterCommit b } : State).pollCount b)
    let s4 := if b.fires (fun i => match i with | .trc _ => true | _ => false) then s3.markTrc else s3
    s4.afterEffects b sup

/-! ### `BLOCK_COMMIT` -/

/-- The commit is tried again later. -/
def State.retryCommit (s : State) (b : Blk) (why delay : Nat) : State :=
  (s.setBlk { b with why := why, due := s.clock + delay }).laterHere delay (.gang s.gid) .blockCommit

/-- An older gang of the quarter may commit in this cycle (R168). -/
def State.olderDue (s : State) : Bool :=
  (s.residents s.g.core).any fun p => p.1 != s.gid && p.2.quarter == s.g.quarter && decide (p.2.stamp < s.g.stamp) &&
    (match p.2.prim with
     | some b => b.stage == .commit && decide (b.due ≤ s.clock)
     | none => false)

/-- A block that cannot commit in its cycle: a timed one under fixed timing faults `TIMING_OVERRUN` (R291), any other waits. -/
def State.delayCommit (s : State) (b : Blk) (why : Nat) : State :=
  if b.timed && s.fixedTiming then s.takeFault (blockFault 14 0 b.active []) b.addr false else s.retryCommit b why 1

/-- `BLOCK_COMMIT` (R288): the focused gang's primary reaches its commit cycle. -/
def execBlockCommit (s : State) : Out :=
  let s := { s with isec := false }
  match s.g.prim with
  | none => .next s
  | some b =>
    if b.stage != .commit || decide (s.clock < b.due) then .next s
    else if !s.running s.g.core s.ctxNo then .next (s.retryCommit b b.why 1)
    else if decide (s.clock < (s.core.quarterAt s.g.quarter).committed) then .next (s.delayCommit b b.why)
    else if s.olderDue then .next (s.retryCommit b b.why 0)
    else
      let x := s.commitPoint b
      match x.1 with
      | .error r => .next (x.2.takeFault r b.addr false)
      | .ok prep =>
        match x.2.commitWait b with
        | some why => .next (x.2.delayCommit b why)
        | none => .next (x.2.commitBlock b prep)

/-! ### Fetch and header decode (R293, R273, R243) -/

/-- The instance that waits for its fetch (`fetch`) or for its decode: the primary before the secondary. -/
def Gang.awaiting (g : Gang) (st : Stage) (now : Nat) : Option (Bool × Blk) :=
  match g.prim, g.sec with
  | some b, q =>
    if b.stage = st && (st = .fetch || decide (b.due ≤ now)) then some (false, b)
    else match q with
      | some c => if c.stage = st && (st = .fetch || decide (c.due ≤ now)) then some (true, c) else none
      | none => none
  | none, _ => none

/-- A fault found before any instruction fires: taken for the primary, kept for the secondary's turn (R243). -/
def State.decodeFaultAt (s : State) (sec : Bool) (b : Blk) (code sub : Nat) (va : W64) : State :=
  let r := blockFault code sub b.lanes (if va = 0 then [] else splat va)
  if sec then { s with g := { s.g with sec := some { b with pend := some r, stage := .decode, due := s.clock + 2 ^ 64 } } }
  else s.takeFault r b.addr (s.g.sup && b.addr == w64 supPage && [5, 6, 8, 9].contains code)

/-- The pool lines of a run of code, as far as it is mapped. -/
def State.codeLines (s : State) (va n : Nat) : List Nat :=
  match (s.translateRun s.ctxNo va { fetch := true, sup := s.g.sup } n).1 with
  | .ok ps => (ps.map (· / 256)).eraseDups
  | .error _ => []

/-- `BLOCK_FETCH` (R293): the header, its tag, then the words; their lines enter L1. -/
def execBlockFetch (s : State) : Out :=
  match s.g.awaiting .fetch s.clock with
  | none => .next s
  | some (sec, b) =>
    let a : Acc := { fetch := true, sup := s.g.sup }
    let h := s.readOwn b.addr.toNat 16 a
    match h.1 with
    | .error x => .next (h.2.decodeFaultAt sec b x.1.1 x.1.2 (w64 x.2))
    | .ok hb =>
      let b1 : Blk := { b with hdr := wordsOfBytes hb }
      if b1.tag ≠ 11 then .next (h.2.decodeFaultAt sec b1 2 0 0)
      else
        let w := h.2.readOwn (b.addr.toNat + 16) (4 * b1.nw) a
        match w.1 with
        | .error x => .next (w.2.decodeFaultAt sec b1 x.1.1 x.1.2 (w64 x.2))
        | .ok wb =>
          let at_ := if b.due = 0 then s.clock + 2 else b.due
          let b2 : Blk := { b1 with words := wordsOfBytes wb, stage := .decode, due := at_ }
          let s1 := (w.2.codeLines b.addr.toNat (16 + 4 * b1.nw)).foldl (fun s l => (s.lineIn s.g.core l 0).ask (dieOf s.g.core) 0 l) w.2
          .next (({ s1 with isec := sec } : State).setBlk b2 |>.laterHere (at_ - s.clock) (.gang s.gid) .headerDecode)

/-- Is a breakpoint of the context's session set at the block (R264)? -/
def State.breakHere (s : State) (b : Blk) : Bool :=
  b.stop && s.g.stepOver != some b.addr &&
  (match (s.ctxAt s.ctxNo).trace with
   | some t => t.closing.isNone && t.breaks.contains (s.team.program, b.ordinal.toNat)
   | none => false)

/-- `HEADER_DECODE` (R273, R243, R264): the block's checks, then a breakpoint; otherwise its instructions may fire from the next
cycle. -/
def execHeaderDecode (s : State) : Out :=
  match s.g.awaiting .decode s.clock with
  | none => .next s
  | some (sec, b) =>
    match b.decodeFault s.g.sup s.g.quota with
    | some x => .next (s.decodeFaultAt sec b x.1 x.2 0)
    | none =>
      let b1 : Blk := { b with stage := .run, decoded := s.clock, start := s.clock, progress := s.clock }
      if s.breakHere b then
        let s1 := s.traceRecord s.ctxNo 1 2 s.g.core s.launchOf.tag (blockRecord s.team.program b.ordinal s.g.index b.lanes s.g.lck 0)
        let s2 : State := { s1 with g := { s1.g with stepOver := if sec then s1.g.stepOver else some b.addr } }
        .next (s2.decodeFaultAt sec b 17 1 0)
      else if sec then .next { s with g := { s.g with sec := some b1 } }
      else .next (({ s with g := { s.g with prim := some b1 } } : State).startTimer)

/-- `TIMED_DEADLINE` (R291): in cycle start + TLEN a timed primary that is not ready faults. -/
def execTimedDeadline (s : State) : Out :=
  match s.g.prim with
  | none => .next s
  | some b =>
    if !(b.timed && s.fixedTiming && (b.start + b.tlen == s.clock)) then .next s
    else if b.stage == .commit then .next s
    else if b.stage == .run && b.complete && b.pend.isNone then .next s.scheduleCommit
    else .next (s.takeFault (blockFault 14 0 b.active []) b.addr false)

/-- `BLOCK_STALL` (R161, R427): 2^20 cycles without progress. -/
def execBlockStall (s : State) : Out :=
  match s.g.prim with
  | none => .next s
  | some b => if b.progress + 2 ^ 20 ≤ s.clock then .next (s.takeFault (blockFault 4 0 b.active []) b.addr false) else .next s

end Sys2Proof.Machine
end

