-- ==== Sys2Proof/Machine/Cycle.lean ====
section
/-! DEFINITION. A core's cycle (spec/06_cores.md R163 to R176, R185; spec/09_debug.md R259): admission of blocks, completion, choice of
the instructions to issue, stall counting, slots for waiting gangs. -/

namespace Sys2Proof.Machine

/-! ### Admission (R164 to R166) -/

/-- Instance slots and chunks that the secondaries of a quarter take. -/
def secondaryLoad (rs : List (Nat × Gang)) (q : Nat) : Nat × Nat :=
  let m := rs.filterMap fun p => if p.2.quarter == q then p.2.sec else none
  (m.length, sumOf (fun (b : Blk) => if b.hdr.isEmpty then 3 else (b.ni + 31) / 32) m)

/-- Is there unreserved room in a quarter for a secondary (R165)? A block that has not been fetched counts three chunks. -/
def roomForSecondary (rs : List (Nat × Gang)) (q : Nat) : Bool :=
  let n := (rs.filter fun p => p.2.quarter == q).length
  let l := secondaryLoad rs q
  decide (l.1 + n < 24 ∧ l.2 + 3 + 3 * n ≤ 48)

/-- A block's lines are all in the focused gang's L1. -/
def State.codeHit (s : State) (addr : W64) : Bool :=
  let ls := s.codeLines addr.toNat (16 + 4 * (s.peekBlock addr).nw)
  !ls.isEmpty && ls.all fun l => holdsLine s.core.l1 l

/-- A block admitted for a split: its fetch is on its way; a hit in L1 takes no time of its own (R293), and header decode takes two cycles
(R202). -/
def State.enterBlk (s : State) (sec : Bool) (addr : W64) (sl : BitVec 8) (m : Mask) : State :=
  let hit := s.codeHit addr
  let b : Blk := { addr := addr, slices := sl, lanes := m, stage := .fetch, due := if hit then s.clock + 2 else 0, progress := s.clock }
  let s1 : State := { s with g := if sec then { s.g with sec := some b } else { s.g with prim := some b } }
  if hit then s1.soon (.gang s.gid) .blockFetch else s1.offCore (.gang s.gid) .blockFetch

/-- The focused gang's primary admitted when it has none (R166). -/
def State.admitPrimary (s : State) : State :=
  match s.g.prim, s.g.sec with
  | some _, _ => s
  | none, some _ => s.nextPrimary
  | none, none =>
    match s.g.splits.find? fun sp => s.g.pathLanes sp != 0 with
    | none => s
    | some sp => s.enterBlk false (s.g.splitAddr sp) sp (s.g.pathLanes sp)

/-- The one address that every active lane's exit of the primary chose, if so (R166). -/
def Blk.commonExit (b : Blk) : Option W64 :=
  let es := b.effects
  let ts := (lanesOf b.active).map (exitTarget b es)
  match ts with
  | some a :: r => if r.all (fun x => x == some a) && b.badExits == 0 then some a else none
  | _ => none

/-- The block that R166 would take as the focused gang's secondary: address, slices, lanes. -/
def State.nextSecondary (s : State) : Option (W64 × BitVec 8 × Mask) :=
  match s.g.prim, s.g.sec with
  | some b, none =>
    match s.g.splits.find? fun sp => sp &&& b.slices == 0 && s.g.pathLanes sp != 0 with
    | some sp => some (s.g.splitAddr sp, sp, s.g.pathLanes sp)
    | none =>
      if b.stage == .run || b.stage == .commit then
        match b.commonExit with
        | some a => if b.active = 0 then none else some (a, b.slices, b.active)
        | none => none
      else none
  | _, _ => none

/-- The focused gang's secondary admitted where there is one and room for it. -/
def State.admitSecondary (s : State) : State :=
  match s.nextSecondary with
  | none => s
  | some (a, sl, m) =>
    if roomForSecondary (s.residents s.g.core) s.g.quarter then s.enterBlk true a sl m else s

/-! ### What an instance waits on (R427) -/

/-- The objects that the instance waits on, as numbers. -/
def State.waitKey (s : State) (b : Blk) : List Nat :=
  let low := s.rivals.map fun p => [p.2.lck.toNat, p.2.lgid.toNat]
  (if b.stage == .commit && b.why == 13 then low.flatten else []) ++
  (if b.stage == .commit then [inFlight s.g.flST, inFlight s.g.flCP, inFlight s.g.flTA, inFlight s.g.flSF] else []) ++
  b.instrs.flatMap fun p =>
    if b.done.getLsbD p.1 then [] else
    match p.2 with
    | .wait _ _ _ _ _ | .waitr _ _ => [inFlight s.g.flST, inFlight s.g.flCP, inFlight s.g.flTA, inFlight s.g.flSF]
    | .semAcq _ n _ => [(s.core.semAt n.toNat).count]
    | .barWait _ n | .barAw _ n => [(s.team.bar n.toNat).toNat]
    | .tlwait f =>
      match s.timelineOf s.ctxNo (b.opnd p.1 f).ua with
      | .ok t => [(s.timelineValue s.ctxNo t).1.toNat]
      | .error _ => []
    | i => if s.launchOf.fixord && i.gated then low.flatten else []

/-- An access of the focused gang's block waits on a link that replays or retrains (02 R42): a line request, a request to a counter or
queue, or the fetch of the block. -/
def State.linkHolds (s : State) (b : Blk) : Bool :=
  let die := dieOf s.g.core
  let near := s.agenda.filterMap fun d => (requestLine d).bind fun x => if x.1 = s.gid then some x.2 else none
  let code := if b.stage == .fetch then s.codeLines b.addr.toNat 16 else []
  ((b.reqs.filterMap fun r => if r.line = 0 then none else some r.line) ++ near ++ code).any fun l => s.lineHeld die l

/-- The stall timer of the focused gang's primary: restarted when what it waits on changes; it does not advance while an access of the block
waits on a link that replays or retrains (02 R42); `BLOCK_STALL` when it runs out. -/
def State.stallTimer (s : State) : State :=
  match s.g.prim with
  | none => s
  | some b =>
    let k := s.waitKey b
    if s.linkHolds b then { s with g := { s.g with prim := some { b with key := k, progress := min s.clock (b.progress + 1) } } }
    else if k ≠ b.key then { s with g := { s.g with prim := some { b with key := k, progress := s.clock } } }
    else if b.progress + 2 ^ 20 ≤ s.clock then s.soon (.gang s.gid) .blockStall
    else s

/-! ### A quarter's choice (R173 to R176) -/

/-- A resident gang as the choice sees it. -/
def State.runner (s : State) (n : Nat) : Option Runner :=
  let s1 := s.focus n
  s1.g.slot.map fun k =>
    { slot := k, gang := n, stamp := s1.g.stamp, parked := s1.g.parked, unchosen := s1.g.unchosen,
      cand := s1.candidate }

/-- Runners in slot order. -/
def insertRunner (r : Runner) : List Runner → List Runner
  | [] => [r]
  | x :: xs => if r.slot < x.slot then r :: x :: xs else x :: insertRunner r xs

/-- The stall of this cycle counted for a gang, and entered in its mark where this is the due cycle of a sample (R259, R265);
`none` for a gang that issued. -/
def State.account (s : State) (n : Nat) (reason : Option Nat) : State :=
  let s1 := s.focus n
  let s2 := match reason with | some k => s1.countStall k | none => s1
  s2.modCore s2.g.core fun c => { c with mark := c.mark.map fun x => if x.1 == n && x.2 == 256 then (n, reason.getD 255) else x }

/-- One quarter's cycle: what it issues, turns, counts of cycles passed over, and stall counters. -/
def State.quarterCycle (s : State) (core q : Nat) : State :=
  let rs := ((s.residents core).filter fun p => p.2.quarter == q).map (·.1)
  let y := (s.coreAt core).quarterAt q
  let fixed := (s.partAt (partOf core)).fixed
  let run := (rs.filterMap s.runner).foldl (fun a r => insertRunner r a) []
  let passes := if (s.coreAt core).lrm.getLsbD (16 * q + 15) then 2 else 1
  let rr := match rs.head? with
    | some n => (s.ctxAt (s.focus n).ctxNo).rr
    | none => false
  let cyc := (s.coreAt core).cyc
  let second := decide (cyc < y.busy)
  let turn : Option Runner := if fixed then (rotate y.last run).head? else none
  let chosen : Option Runner :=
    if second || y.remap then none
    else if fixed then turn.filter fun r => r.cand.isSome
    else chooseElastic rr y.last run
  let issued : Option Nat := if second then y.issued else chosen.map (·.gang)
  let took := match chosen with | some r => some r | none => turn
  let last := if second || y.remap then y.last
    else match took with
      | some r => some r.slot
      | none => if rr || fixed then y.last else none
  let s1 := s.modCore core fun c => c.modQuarter q fun z =>
    { z with last := last, issued := issued, busy := if !second && took.isSome then cyc + passes else z.busy }
  let s2 := match chosen.bind (·.cand) with
    | some r => { s1 with issue := s1.issue ++ [r] }
    | none => s1
  run.foldl (fun s r =>
    let got := issued == some r.gang
    let ready := r.cand.isSome
    let s := s.modGang r.gang fun g =>
      { g with unchosen := if got then 0 else if ready then g.unchosen + 1 else g.unchosen }
    if got then s.account r.gang none
    else
      let f := s.focus r.gang
      let full := !ready && f.nextSecondary.isSome && !roomForSecondary (f.residents core) q
      f.account r.gang (some (f.stallReason ready full))) s2

/-! ### Slots for waiting gangs (R163, R185) -/

/-- What waits for a place on a core: a gang, or a bin of a team that is to launch one. -/
inductive Waiter where
  | gang (n : Nat)
  | bin (team bin : Nat)
  deriving DecidableEq, Repr

/-- A waiter entered by the time from which it waits. -/
def insertWaiter (x : (Nat × Nat) × Waiter) : List ((Nat × Nat) × Waiter) → List ((Nat × Nat) × Waiter)
  | [] => [x]
  | y :: ys => if pairLt x.1 y.1 then x :: y :: ys else y :: insertWaiter x ys

/-- A bin of a team is to launch and lacks only a place: its team has an index free and its die an image (R141). -/
def State.binsWaiting (s : State) (n : Nat) (t : Team) : List ((Nat × Nat) × Waiter) :=
  if (s.freeIndex n).isNone || s.reserve.getD (dieOf t.core) 0 == 0 then []
  else t.bins.filterMap fun b => if b.2.args.isEmpty then none else b.2.due.map fun c => ((c, 2 ^ 32 + 8 * n + b.1), .bin n b.1)

/-- The gangs and bins of a core that wait for a place, in the order in which they began to wait (R185). -/
def State.slotWaiters (s : State) (core : Nat) : List ((Nat × Nat) × Waiter) :=
  let open_ := fun (team : Nat) => s.running core (s.launchAt (s.teamAt team).launch).ctx
  let gs := s.allGangs.filterMap fun p =>
    if p.2.core == core && p.2.slot.isNone && !p.2.retired && open_ p.2.team && (p.2.imaged || decide (0 < s.reserve.getD (dieOf core) 0)) then p.2.waitsSlot.map fun t => ((t, p.1), Waiter.gang p.1) else none
  let bs := ((s.teamsOn core).filter fun p => open_ p.1).flatMap fun p => s.binsWaiting p.1 p.2
  (gs ++ bs).foldl (fun a x => insertWaiter x a) []

/-- The focused gang waits at a gate of fixed order that is not open (R228). -/
def State.atGate (s : State) : Bool :=
  s.launchOf.fixord && !s.g.sup && !s.gateOpen &&
    ((s.issuers.any fun p => (p.2.waiting p.2.instrs s.clock).any fun q => ({ s with isec := p.1, idx := q.1 } : State).gateApplies q.2) ||
      s.g.prim.any fun b => b.stage == .commit && b.spawnLanes != 0)

/-- From when a resident gang counts as parked for a gang of a domain, if it does: it is parked, or it waits at a gate of the same domain
(R184, R228). -/
def State.parkedSince (s : State) (n : Nat) (domain : List Nat) : Option Nat :=
  let f := s.focus n
  if f.g.parked then some f.g.parkedAt
  else if domain.contains f.g.team && f.atGate then some (f.g.gateAt.getD f.clock)
  else none

/-- The resident gang that has been parked longest and whose quarter can accept a gang of a quota in its place. -/
def State.slotVictim (s : State) (core quota : Nat) (domain : List Nat) : Option (Nat × Nat) :=
  let rs := s.residents core
  let ok := rs.filterMap fun p =>
    if quarterTakes (rs.filter fun x => x.1 != p.1) p.2.quarter 0 quota then (s.parkedSince p.1 domain).map fun t => (t, p.1, p.2.quarter) else none
  (ok.foldl (fun (a : Option (Nat × Nat × Nat)) p => match a with
    | none => some p
    | some x => if p.1 < x.1 then some p else some x) none).map (·.2)

/-- A parked gang gives up its slot (R185): its instances are discarded, its lines become evictable, its watch begins. -/
def State.giveUpSlot (s : State) (n : Nat) : State :=
  let s1 := (s.focus n).withdraw
  let parked := s1.g.parked
  let s2 := ({ s1 with g := { s1.g.discard with
    parkedAt := s1.clock, gateAt := none, excluded := s1.g.excluded && parked,
    waitsSlot := if parked then none else some s1.clock } } : State).vacate n false
  if parked && !(s.parkedEdges.any fun e => e.1.gang == n) then s2.laterHere 65536 (.gang n) .parkTimeout else s2

/-- The determinism domain of a team. -/
def State.domainOf (s : State) (team : Nat) : List Nat :=
  let t := s.teamAt team
  if (s.launchAt t.launch).domcl then team :: t.mates else [team]

/-- The completion marks of a gang that returns are taken (R254). -/
def Gang.takeMarks (g : Gang) : Gang := { g with marks := 0 }

/-- A place on a core for a gang of a quota: a free slot and the quarter with the fewest residents, else the slot and quarter of a parked
gang, which gives it up (R163, R185). -/
def State.makePlace (s : State) (core quota : Nat) (domain : List Nat) : Option (Nat × State) :=
  let rs := s.residents core
  let q := fewestQuarter rs
  if !(s.coreAt core).freeSlots.isEmpty && quarterTakes rs q 0 quota then some (q, s)
  else (s.slotVictim core quota domain).map fun v => (v.2, s.giveUpSlot v.1)

/-- A gang that has no image yet takes one of its die's reserve (R255). -/
def State.takeImage (s : State) (n : Nat) : State :=
  match s.gangAt n with
  | some g =>
    if g.imaged then s
    else
      let d := dieOf g.core
      ({ s with reserve := s.reserve.set d (s.reserve.getD d 0 - 1) } : State).modGang n fun g => { g with imaged := true }
  | none => s

/-- A waiter takes a place, if there is one. -/
def State.seat (s : State) : Waiter → Option State
  | .gang n => (s.gangAt n).bind fun g =>
      (s.makePlace g.core g.quota (s.domainOf g.team)).map fun p => ((p.2.takeImage n).placeIn n p.1).modGang n Gang.takeMarks
  | .bin team b =>
      let t := s.teamAt team
      (s.makePlace t.core t.quota (s.domainOf team)).bind fun p => p.2.launchBinAt team b p.1

/-- `SLOT_TAKEOVER` (R185): what has waited longest takes a place; the others are served after it. -/
def execSlotTakeover (s : State) : Out :=
  match s.slotWaiters s.subj with
  | [] => .next s
  | x :: rest =>
    match s.seat x.2 with
    | none => .next s
    | some s1 => .next (if rest.isEmpty then s1 else s1.soon (.on s.subj) .slotTakeover)

/-- A parked gang without a slot waits for one again (R186). -/
def State.awaitSlot (s : State) : State := { s with g := { s.g with waitsSlot := some s.clock, parked := false } }

/-- `PARK_TIMEOUT` (R186). -/
def execParkTimeout (s : State) : Out :=
  if s.g.parked && s.g.slot.isNone && s.g.waitsSlot.isNone && decide (s.g.parkedAt + 65536 ≤ s.clock) &&
      !(s.parkedEdges.any fun e => e.1.gang == s.gid) then
    .next s.awaitSlot
  else .next s

/-- `WATCHED_WRITE` (R186). -/
def execWatchedWrite (line : Nat) (s : State) : Out :=
  if s.g.parked && s.g.slot.isNone && s.g.waitsSlot.isNone && s.g.watch.contains line then .next s.awaitSlot else .next s

/-! ### `CORE_CYCLE` -/

/-- Something done for each gang of a list, in focus. -/
def State.forGangs (s : State) (l : List Nat) (f : State → State) : State := l.foldl (fun s n => f (s.focus n)) s

/-- Numbers of the gangs of a core, oldest stamp first. -/
def State.byAge (s : State) (core : Nat) : List Nat :=
  ((s.residents core).foldl (fun (a : List (Nat × Gang)) x =>
    (a.takeWhile fun y => y.2.stamp ≤ x.2.stamp) ++ x :: (a.dropWhile fun y => y.2.stamp ≤ x.2.stamp)) []).map (·.1)

/-- Since when the focused gang waits at a gate, kept for R185. -/
def State.noteGate (s : State) : State :=
  { s with g := { s.g with gateAt := if s.atGate then s.g.gateAt.or (some s.clock) else none } }

/-- `CORE_CYCLE` (R173): one cycle of the core in `subj`. -/
def execCoreCycle (s : State) : Out :=
  let core := s.subj
  let ns := (s.byAge core).filter fun n => s.running core (s.focus n).ctxNo
  let open_ := ns.filter fun n => !((s.coreAt core).quarterAt (s.focus n).g.quarter).remap
  let s1 := s.forGangs open_ fun s => ({ s with g := if s.g.sup then s.g else s.g.placeRels } : State).admitPrimary
  let s2 := s1.forGangs open_ State.admitSecondary
  let s3 := s2.forGangs open_ fun s => s.scheduleCommit.stallTimer.noteGate
  let s4 := s3.forGangs open_ fun s => if s.binsFirst then s.flushBins s.domainTeams else s
  let s5 := if ns.isEmpty then s4 else (List.range 4).foldl (fun s q => s.quarterCycle core q) s4
  let s6 := if (s5.slotWaiters core).isEmpty then s5 else s5.soon (.on core) .slotTakeover
  .next { s6 with subj := core }

/-! ### Bins (R141) -/

/-- A bin of a team on its core waits to launch. -/
def State.dueBin (s : State) (team bin : Nat) : State :=
  let t := s.teamAt team
  let now := (s.coreAt t.core).cyc
  (s.modTeam team fun t => { t with bins := tset t.bins bin ((tget t.bins bin {}).wait now) }).soon (.on t.core) .slotTakeover

/-- `BIN_LAUNCH` (R141, R142): a bin that is full or whose timer has run out; under fixed order, one whose moment has come. -/
def execBinLaunch (team bin : Nat) (s : State) : Out :=
  let t := s.teamAt team
  let b := tget t.bins bin {}
  let l := s.launchAt t.launch
  let ripe := l.fixord || decide (32 ≤ b.args.length) || decide (b.since + l.binTimer ≤ (s.coreAt t.core).cyc)
  if b.args.isEmpty || !t.admitted || !ripe then .next s else .next (s.dueBin team bin)

/-- `BIN_TIMER` (R141): the bin's timer has run out; a timer of threads that have left the bin, or of a saved team, says nothing. -/
def execBinTimer (team bin : Nat) (s : State) : Out :=
  let t := s.teamAt team
  let b := tget t.bins bin {}
  let l := s.launchAt t.launch
  if b.args.isEmpty || !t.admitted || l.fixord || decide ((s.coreAt t.core).cyc < b.since + l.binTimer) then .next s
  else .next (s.dueBin team bin)

end Sys2Proof.Machine
end

