-- ==== Sys2Proof/Machine/Flits.lean ====
section
/-! DEFINITION. The link layer of the scale-up ports (spec/02_links.md R39 to R43): flits, the retry buffer, credits, and messages to other
packages. What the payload of a flit means is not given; the messages that a flit carries are a free value of it
(notes/assumptions/83.md). -/

namespace Sys2Proof

/-- The messages that a received flit carries, each as the step that it causes; the spec gives no format for them. -/
opaque Config.messages : Flit → List (Machine.Subject × Instr)
/-- The flits of a virtual channel that a peer has room for when a link comes up. -/
opaque Config.initialCredit : Nat → Nat
/-- The credits that the credit-return field of a flit gives back to a channel. -/
opaque Config.creditReturn : BitVec 16 → Nat → Nat

end Sys2Proof

namespace Sys2Proof.Machine

/-! ### Flits (R39) -/

/-- A link changed. -/
def State.modLink (s : State) (l : Link) (f : LinkSt → LinkSt) : State :=
  s.modPkg fun p => { p with links := tmod p.links (linkKey l) {} f }

/-- One bit of the CRC register: the polynomial of ECMA-182, high bit first. -/
def crcBit (r : W64) : W64 := if r.getLsbD 63 then (r <<< 1) ^^^ 0x42F0E1EBA9EA3693 else r <<< 1

/-- One byte of a CRC-64. -/
def crcByte (r : W64) (b : Byte) : W64 := (List.range 8).foldl (fun r _ => crcBit r) (r ^^^ (b.setWidth 64 <<< 56))

/-- CRC-64 of some bytes, from a register of zero (notes/assumptions/64.md). -/
def crc64 (bs : List Byte) : W64 := bs.foldl crcByte 0

/-- Bytes [247:0] of a flit. -/
def flitBytes (f : Flit) : List Byte :=
  bytesOf 8 (f.seq.toNat + f.ack.toNat * 2 ^ 12 + f.vc.toNat * 2 ^ 24 + f.ftype.toNat * 2 ^ 27 + f.credit.toNat * 2 ^ 32 +
    f.rsvd.toNat * 2 ^ 48) ++ (f.payload ++ List.replicate 240 0).take 240

/-- The CRC check; a reserved channel code counts as a failure (R43). -/
def flitGood (f : Flit) : Bool := f.check == crc64 (flitBytes f) && decide (f.vc.toNat ≤ 4)

/-- A flit for a link: its payload, type and credit return are free values. -/
def State.makeFlit (s : State) (x : LinkSt) (vc : BitVec 3) : Flit × State :=
  let v := fun (k : Nat) => Config.freeValue (s.free + k)
  let f : Flit :=
    { seq := x.next, ack := x.expect - 1, vc := vc, ftype := (v 30).setWidth 5, credit := (v 31).setWidth 16, rsvd := 0,
      payload := (List.range 30).flatMap fun k => bytesOf 8 (v k).toNat, check := 0 }
  ({ f with check := crc64 (flitBytes f) }, { s with free := s.free + 32 })

/-! ### Credits and sending (R40, R43) -/

/-- The flits of a channel that the peer has room for. -/
def LinkSt.credit (x : LinkSt) (vc : BitVec 3) : Nat := x.credits.getD vc.toNat (Config.initialCredit vc.toNat)

/-- The credits of the five channels changed. -/
def LinkSt.setCredits (x : LinkSt) (f : Nat → Nat → Nat) : LinkSt :=
  { x with credits := (List.range 5).map fun k => f k (x.credit (BitVec.ofNat 3 k)) }

/-- A flit of a channel may leave now: the link is up, the retry buffer of 512 flits has room and the channel has credit. -/
def LinkSt.open (x : LinkSt) (vc : BitVec 3) : Bool := x.up && !x.training && decide (x.retry.length < 512) && decide (0 < x.credit vc)

/-- A flit put on the wire: it takes the next number and a credit of its channel and stays in the retry buffer until it is acknowledged. -/
def State.launchFlit (s : State) (l : Link) (vc : BitVec 3) : State :=
  let x := s.linkAt l
  let r := s.makeFlit x vc
  let s1 := (r.2.modLink l fun x =>
    ({ x with next := x.next + 1, retry := x.retry ++ [r.1], ackAt := if x.retry.isEmpty then s.now else x.ackAt } : LinkSt).setCredits
      fun k n => if k = vc.toNat then n - 1 else n).emit (.flit l r.1)
  if x.retry.isEmpty then s1.later 1600 .none (.ackTimeout l) else s1

/-- A message offered to a link: sent, or kept in order until its own channel lets it go; no channel waits for another (R43). A link that is
down carries nothing. -/
def State.sendFlit (s : State) (l : Link) (vc : BitVec 3) : State :=
  let x := s.linkAt l
  if x.down || x.fenced then s
  else if x.open vc && !x.waiting.contains vc then s.launchFlit l vc
  else s.modLink l fun x => { x with waiting := x.waiting ++ [vc] }

/-- The messages that wait at a link offered again in their order. -/
def State.sendWaiting (s : State) (l : Link) : State :=
  let w := (s.linkAt l).waiting
  w.foldl (fun s vc => s.sendFlit l vc) (s.modLink l fun x => { x with waiting := [] })

/-! ### Messages to other packages (R43, R47, R48) -/

/-- The port by which a C-die of the package sends to one of another package. -/
def State.outPort (s : State) (d n : Nat) (die addr : Option Nat) : Option Link := (s.outPath d n die addr).bind (·.getLast?)

/-- The port by which the H-die sends to another package: that of the first C-die with which it has a path. -/
def State.hubPort (s : State) (n : Nat) : Option Link :=
  [0, 1, 2, 3].findSome? fun d => if (s.hubPath d).isSome then s.outPort d n none none else none

/-- A message for package n, from a C-die or (none) from the H-die, to a C-die or (none) to the H-die, on a channel; one that carries a line
address takes the port that the address chooses (R47). -/
def State.message (s : State) (d : Option Nat) (n : Nat) (die : Option Nat) (vc : BitVec 3) (addr : Option Nat) (what : String) (words : List W64) :
    State :=
  let port := match d with | some d => s.outPort d n die addr | none => s.hubPort n
  let s1 := s.emit (.control n what words)
  match port with
  | some l => s1.sendFlit l vc
  | none => s1

/-- A control message of the Owl to another package. -/
def State.tell (s : State) (n : Nat) (what : String) (words : List W64) : State := s.message none n none 3 none what words

end Sys2Proof.Machine
end

