-- ==== Sys2Proof/Machine/Replies.lean ====
section
/-! DEFINITION. Replies from off the core (spec/06_cores.md R181 to R183, R195; spec/01_package.md R36, R37): line requests and their
replays, register fills, lost lines, translation walks and the ends of invalidation and remapping. -/

namespace Sys2Proof.Machine

/-! ### Lost data (01 R37) -/

/-- Entries of a home's lost-line table in use: an entry for each line, and one for each page that is lost as a whole
(notes/assumptions/118.md). -/
def State.lostEntries (s : State) (home : Nat) : Nat :=
  (s.lostLines.filter fun l => s.homeOf (l / 512) == home).length + (s.lostPages.filter fun p => s.homeOf p == home).length

/-- A line whose data is lost is entered; with the 64 entries of its home in use its page is lost as a whole: its lines leave the table
for the one entry that then serves the page. -/
def State.loseLine (s : State) (line : Nat) : State :=
  let p := line / 512
  if s.lineLost (256 * line) then s
  else if s.lostEntries (s.homeOf p) < 64 then { s with lostLines := line :: s.lostLines }
  else
    let e := s.entryOf p
    { s with lostPages := p :: s.lostPages, lostLines := s.lostLines.filter fun l => l / 512 != p,
             ind := if s.isAdmin p then s.ind else tset s.ind p (e ||| BitVec.ofNat 64 (2 ^ 59)) }

/-- An uncorrectable error found in a line: it is entered as lost, and its page is retired (R36). -/
def State.uncorrectable (s : State) (line : Nat) : State :=
  (s.loseLine line).soon .none (.pageMoveStart (line / 512) (s.homeOf (line / 512)) true)

/-- A gang faults at its current block (R36, 02 R64): its primary, or the block at which its first split stands. One without a slot takes
the fault and waits for a slot to run its handler. -/
def State.faultGang (s : State) (n code : Nat) : State :=
  let f := s.focus n
  if f.gid ≠ n || f.g.retired then s
  else
    let sp := f.g.splits.headD 0
    let at_ := match f.g.prim with
      | some b => (b.addr, b.active)
      | none => (f.g.splitAddr sp, f.g.pathLanes sp)
    let t := f.takeFault (blockFault code 0 at_.2 []) at_.1 false
    let g := t.g
    if g.slot.isSome then t
    else { t with g := { g with parked := false, waitsSlot := g.waitsSlot.or (some t.clock) } }

/-- Every gang of a team faults (R36: a dirty line of its stash, tile memory or register lines is lost). -/
def State.faultTeam (s : State) (team code : Nat) : State :=
  (s.liveGangs team).foldl (fun s p => s.faultGang p.1 code) s

/-! ### Line requests (R182, R183) -/

/-- A request of one of the gang's instances: which instance, the instance and the request. -/
def Gang.reqOf (g : Gang) (n : Nat) : Option (Bool × Blk × LineReq) :=
  let look := fun (sec : Bool) (o : Option Blk) => o.bind fun b => (b.reqs.find? fun r => r.num == n).map fun r => (sec, b, r)
  (look false g.prim).or (look true g.sec)

/-- The requests of both instances changed. -/
def Gang.modReqs (g : Gang) (f : LineReq → LineReq) : Gang :=
  let h := fun (b : Blk) => ({ b with reqs := b.reqs.map f } : Blk)
  { g with prim := g.prim.map h, sec := g.sec.map h }

/-- A merge step changed. -/
def State.modStep (s : State) (core n : Nat) (f : MergeStep → MergeStep) : State :=
  s.modCore core fun c => { c with merge := c.merge.map fun m => if m.num = n then f m else m }

/-- A request that has waited is accepted: it holds an entry and goes to its home. -/
def State.acceptReq (s : State) (gang n : Nat) : State :=
  match s.mergeCore n with
  | some (core, m) =>
    ((s.modStep core n fun m => { m with held := true }).ask (dieOf core) 1 m.line).offCore (.on core) (.memoryReply n .data)
  | none =>
    let s1 := s.modGang gang fun g => g.modReqs fun r => if r.num == n then { r with held := true } else r
    s1.offCore (.gang gang) (.memoryReply n .data)

/-- Whoever made an aged request still waits for it. -/
def State.stillWaits (s : State) (gang n : Nat) : Bool := (s.mergeCore n).isSome || ((s.gangAt gang).bind fun g => g.reqOf n).isSome

/-- Aged requests of a quarter served, oldest first, through free ordinary entries and one at a time through the reserved one; a
request whose instance is gone is dropped. -/
def State.serveAged (s : State) (core q : Nat) : List (Nat × Nat) → State
  | [] => s
  | (gang, n) :: rest =>
    let y := (s.coreAt core).quarterAt q
    let take := fun (f : Quarter → Quarter) => s.modCore core fun c => c.modQuarter q fun x => f { x with aged := x.aged.filter fun p => p.2 != n }
    if !s.stillWaits gang n then State.serveAged (take id) core q rest
    else if y.entries.length < 64 then
      State.serveAged ((take fun x => { x with entries := x.entries ++ [n] }).acceptReq gang n) core q rest
    else if y.reserved.isNone then
      State.serveAged ((take fun x => { x with reserved := some n }).acceptReq gang n) core q rest
    else s

/-- The aged requests of every quarter of a core served. -/
def State.serveAllAged (s : State) (core : Nat) : State :=
  (List.range 4).foldl (fun s q => s.serveAged core q ((s.coreAt core).quarterAt q).aged) s

/-- The tokens that an instruction sent are ready from a cycle on, and it has completed (R201). -/
def Blk.wake (b : Blk) (idx now : Nat) : Blk :=
  let b1 := b.markDone idx
  match b.instrAt idx with
  | .error _ => b1
  | .ok i =>
    let keys := ((i.form.map targetsOf).getD []).map fun t => 4 * (idx + t.dist.toNat) + Slot.num t.slot
    { b1 with toks := b1.toks.map fun p => if keys.contains p.1 && p.2.ready.isNone then (p.1, { p.2 with ready := some now }) else p }

/-- The virtual addresses of an instruction's lanes that lie in a line: `FVA` of R247. -/
def State.lanesAt (s : State) (b : Blk) (idx line : Nat) : Lanes :=
  match b.instrAt idx with
  | .ok (.ld f m) | .ok (.ldp f m) | .ok (.atom f m) | .ok (.cas f m) =>
    let o := b.opnd idx f
    lanes fun l =>
      let ea := effAddr m (lane o.a.vals l)
      if o.live.getLsbD l && m.as == .global && (match s.walkVa s.ctxNo ea with
          | .ok x => decide (x.pa / 256 = line ∨ (x.pa + accBytes f.ty - 1) / 256 = line)
          | .error _ => false) then w64 ea else 0
  | _ => splat 0

/-- The reply of a merge step's request: the step is written. Where the line's data cannot be read and the step does not supply it whole,
the line is lost, and the step's bytes with it (notes/assumptions/119.md). -/
def State.stepReply (s : State) (core : Nat) (m : MergeStep) (fate : ReplyFate) : State :=
  let s1 := match fate with
    | .data => s.drainStep core m
    | _ =>
      if coversLine (m.cells.map Prod.fst) m.line then s.drainStep core m
      else (s.drainStep core { m with parts := [] }).uncorrectable m.line
  s1.serveAllAged core

/-- The reply of a gang's request: it frees its entry, its line enters the caches, and with the last reply of its instruction the tokens are
ready. Uncorrectable data faults the block that needs it; a dirty stash line that is lost faults every gang of the team (R36). -/
def State.gangReply (s : State) (req : Nat) (fate : ReplyFate) : State :=
  let s1 := (s.modCore s.g.core fun c => { c with quarters := c.quarters.map fun q => q.dropReq req }).serveAllAged s.g.core
  match s1.g.reqOf req with
  | none => s1
  | some (sec, b, r) =>
    let s2 := { s1 with isec := sec, idx := r.idx }
    match fate with
    | .data =>
      let b1 : Blk := { b with reqs := b.reqs.filter fun x => x.num != req, progress := s.clock }
      let s3 := s2.setBlk (if b1.reqs.any fun x => x.idx == r.idx then b1 else b1.wake r.idx s.clock)
      if r.line = 0 then s3 else s3.lineIn s.g.core r.line r.cp
    | .dirtyLost => s2.faultTeam s2.g.team 9
    | .uncorrectable =>
      let lsid := match b.instrAt r.idx with
        | .ok i => i.lsid.getD 255
        | .error _ => 255
      let x := s2.execFault 9 0 lsid b.active (s2.lanesAt b r.idx r.line)
      (if r.line = 0 then s2 else s2.uncorrectable r.line).raise x

/-- `MEMORY_REPLY` (R182): for a merge step of the core in `subj`, or for the focused gang. -/
def execMemoryReply (req : Nat) (fate : ReplyFate) (s : State) : Out :=
  match s.mergeCore req with
  | some (core, m) => .next (s.stepReply core m fate)
  | none => .next (s.gangReply req fate)

/-- Replays of an instruction of an instance. -/
def Blk.replayCount (b : Blk) (idx : Nat) : Nat := ((b.replays.find? fun p => p.1 == idx).map (·.2)).getD 0

/-- An aged request entered in order of first issue. -/
def insertAged (p : Nat × Nat) : List (Nat × Nat) → List (Nat × Nat)
  | [] => [p]
  | x :: xs => if p.2 < x.2 then p :: x :: xs else x :: insertAged p xs

/-- A rejected request of a merge step tried again (R182, R183). -/
def State.stepReplay (s : State) (core : Nat) (m : MergeStep) : State :=
  let y := (s.coreAt core).quarterAt m.quarter
  let put := fun (s : State) (f : Quarter → Quarter) => s.modCore core fun c => c.modQuarter m.quarter f
  if m.held || m.aged then s
  else if 16 ≤ m.replays + 1 then
    (put (s.modStep core m.num fun m => { m with aged := true }) fun z => { z with aged := insertAged (0, m.num) z.aged }).serveAllAged core
  else if y.entries.length < 64 && y.aged.isEmpty then
    (put s fun z => { z with entries := z.entries ++ [m.num] }).acceptReq 0 m.num
  else (s.modStep core m.num fun m => { m with replays := m.replays + 1 }).laterOn core 8 (.on core) (.missReplay m.num)

/-- A rejected request of the focused gang tried again. -/
def State.gangReplay (s : State) (req : Nat) : State :=
  match s.g.reqOf req with
  | none => s
  | some (sec, b, r) =>
    if r.held || r.aged then s
    else
      let n := b.replayCount r.idx + 1
      let b1 : Blk := { b with replays := (r.idx, n) :: b.replays.filter fun p => p.1 != r.idx }
      let s1 := ({ s with isec := sec } : State).setBlk b1
      let q := s.g.quarter
      let y := s.core.quarterAt q
      if 16 ≤ n then
        let old := b1.reqs.filter fun x => x.idx == r.idx && !x.held && !x.aged
        let s2 := s1.setBlk { b1 with reqs := b1.reqs.map fun x => if x.idx == r.idx && !x.held then { x with aged := true } else x }
        let s3 := s2.modCore s.g.core fun c => c.modQuarter q fun z =>
          { z with aged := old.foldl (fun a x => insertAged (s.gid, x.num) a) z.aged }
        s3.serveAllAged s.g.core
      else if y.entries.length < 64 && y.aged.isEmpty then
        (s1.modCore s.g.core fun c => c.modQuarter q fun z => { z with entries := z.entries ++ [req] }).acceptReq s.gid req
      else s1.laterHere 8 (.gang s.gid) (.missReplay req)

/-- `MISS_REPLAY` (R182, R183): a rejected request is tried again; at its instruction's sixteenth replay the instruction is aged. -/
def execMissReplay (req : Nat) (s : State) : Out :=
  match s.mergeCore req with
  | some (core, m) => .next (s.stepReplay core m)
  | none => .next (s.gangReplay req)

/-! ### Register fills (R181) -/

/-- The reads of an instance that waited for a line complete. -/
def State.finishFill (s : State) (sec : Bool) (line : Nat) : State :=
  let s1 := { s with isec := sec }
  match s1.blk? with
  | none => s1
  | some b =>
    if !b.fills.contains line then s1
    else
      let rds := b.instrs.filter fun p => b.pendingAt p.1 && (match p.2 with | .rd _ r => (regLines s.g.sup r).contains line | _ => false)
      s1.setBlk (rds.foldl (fun (b : Blk) p => match p.2 with
        | .rd f r =>
          let o := b.opnd p.1 f
          b.deliver p.1 f { tokOf r.cls (s.g.readReg r) (~~~o.pred) with ready := some s.clock }
        | _ => b) { b with fills := b.fills.filter fun n => n != line, progress := s.clock })

/-- `REGISTER_FILL` (R181): the line has come; every read of it completes. Uncorrectable data faults the block that needs it, and the page of
the image is retired; a dirty line that is lost faults every gang of the team (R36). -/
def execRegisterFill (line : Nat) (fate : ReplyFate) (s : State) : Out :=
  let s1 := s.modCore s.g.core fun c => { c with quarters := c.quarters.map fun q =>
    { q with fills := q.fills.filter fun p => p != (s.gid, line) } }
  let needs := fun (b : Option Blk) => match b with | some b => b.fills.contains line | none => false
  if !(needs s1.g.prim || needs s1.g.sec) then .next s1
  else match fate with
    | .data => .next (((s1.touchLine line false).finishFill true line).finishFill false line)
    | .dirtyLost => .next (s1.faultTeam s1.g.team 9)
    | .uncorrectable =>
      let s2 := { s1 with isec := !needs s1.g.prim }
      .next ((s2.emit (.mgmt "IMAGE_PAGE_RETIRED" s.gid)).raise { code := 9, lanes := ((s2.blk?.map (·.active)).getD 0) })

/-! ### Remapping, invalidation, walks -/

/-- `LRM_REMAP_COMPLETE` (R195): the quarter issues again. -/
def execLrmRemapComplete (core q : Nat) (s : State) : Out :=
  .next (s.modCore core fun c => c.modQuarter q fun y => { y with remap := false })

/-- What a context has translated is still in use: a Beaver copy runs, a Badger operation has not completed, or a near-memory request is on
its way (07 R224). -/
def State.mappingsUsed (s : State) (ctx : Nat) : Bool :=
  (s.cores.any fun c => c.2.copies.any fun y => y.ctx == ctx && y.running && !y.ended) || (s.badgerOps.any fun r => r.op.ctx == ctx) ||
    s.agenda.any fun d => match d.ev with
      | .badgerOperation o => o.ctx == ctx
      | _ => match requestLine d with
        | some (g, _) => (s.launchAt (s.teamAt (s.teamOf g)).launch).ctx == ctx
        | none => false

/-- `TLBINV_COMPLETE` (16 R465): the gang issues again, once nothing that went through the old mapping is under way (07 R224). -/
def execTlbinvComplete (s : State) : Out :=
  if s.mappingsUsed s.ctxNo then .next (s.laterHere 1 (.gang s.gid) .tlbinvComplete)
  else .next { s with g := { s.g with tlbWait := false } }

/-- `TRANSLATION_WALK` (08 R235 to R239): the context's tables are walked for an access, with its effect on the leaf. -/
def execTranslationWalk (va : W64) (write fetch sup : Bool) (s : State) : Out :=
  .next (s.translate s.ctxNo va.toNat { write := write, fetch := fetch, sup := sup }).2

end Sys2Proof.Machine
end

