-- ==== Sys2Proof/Machine/Directory.lean ====
section
/-! DEFINITION. The home agents (spec/03_pool.md): the directory of R73 to R77, redirection (R69), page moves and the access monitor
(R78 to R81), chunk counters (R90, R91) and edge queues (R92 to R95). What the package's own dies hold dirty stands in memory or in the region
that owns it (Machine/Cache.lean), so for them a probe moves no data; a die of another package sends its dirty bytes with its reply. -/

namespace Sys2Proof.Machine

/-! ### Windows and the access monitor (R79, R81) -/

/-- The window number: home agents run at 1.6 GHz, two of their cycles to one core cycle of 800 MHz. -/
def State.window (s : State) : Nat := 2 * s.now / 2 ^ 20

/-- An indirection entry changed. -/
def State.setEntry (s : State) (p : Nat) (e : W64) : State := if s.isAdmin p then s else { s with ind := tset s.ind p e }

/-- Bits of an entry set or cleared. -/
def bitsSet (e : W64) (m : Nat) (on : Bool) : W64 := if on then e ||| w64 m else e &&& ~~~(w64 m)

/-- `PINNED` clears at the first request after its window (R79). -/
def State.unpin (s : State) (p : Nat) : State :=
  match tfind s.pinned p with
  | some w => if w = s.window then s else { (s.setEntry p (bitsSet (s.entryOf p) (2 ^ 61) false)) with pinned := tdel s.pinned p }
  | none => s

/-- Frames of a stack in use: backed pages and moves under way. -/
def State.usedFrames (s : State) (stack : Nat) : List Nat :=
  (s.ind.filterMap fun p => if entValid p.2 && entHome p.2 == stack then some (entFrame p.2) else none) ++
  s.moves.filterMap fun m => if m.stack == stack then some m.frame else none

/-- Is a frame reserved to the device (R480)? The other halves lie below when a die has one stack in service. -/
def State.frameReserved (s : State) (stack frame : Nat) : Bool :=
  let other := if stack % 2 = 0 then stack + 1 else stack - 1
  decide (521984 ≤ frame) || (decide (519696 ≤ frame) && s.stackLost other)

/-- A frame that a home agent may take: the lowest that is neither used nor retired nor reserved. -/
def State.freeFrame (s : State) (stack : Nat) : Option Nat :=
  let used := s.usedFrames stack
  let bad := s.badFrames.filterMap fun n => if n / 2 ^ 19 = stack then some (n % 2 ^ 19) else none
  if s.stackLost stack then none
  else (List.range (used.length + bad.length + 1)).find? fun n => !used.contains n && !bad.contains n && !s.frameReserved stack n

/-- How often a die occurs among some samples. -/
def countOf (die : Nat) (l : List Nat) : Nat := (l.filter fun x => x == die).length

/-- The move that the monitor requests for a page, if any: the stack on the die that sent most. -/
def State.wantedMove (s : State) (p : Nat) : Option Nat :=
  let l := tget s.samples p []
  let home := s.homeOf p
  match (l.find? fun d => 48 ≤ (l.filter fun x => x / 4 == d / 4).length && d / 4 != home / 8) with
  | none => none
  | some d =>
    let n := d / 4
    let die := [1, 2, 3].foldl (fun b k => if countOf (4 * n + b) l < countOf (4 * n + k) l then k else b) 0
    let k := 8 * n + 2 * die
    if n = s.self && (s.freeFrame k).isNone then (if (s.freeFrame (k + 1)).isSome then some (k + 1) else none) else some k

/-- The indirection entry of a page used at a home agent: its on-die cache keeps the 8192 used last (R72). -/
def State.useEntry (s : State) (home p : Nat) : State :=
  let l := (tget s.entries home []).filter fun x => x != p
  { s with entries := tset s.entries home ((if 8192 ≤ l.length then l.drop 1 else l) ++ [p]) }

/-- A request for a page counted at the home agent that serves it; one in 16 is sampled where the page's entry was in its on-die cache and
its context migrates automatically (R81). A move needs 64 samples (notes/assumptions/120.md). -/
def State.monitor (s : State) (home die p : Nat) : State :=
  let n := tget s.reqCount home 0 + 1
  let known := (tget s.entries home []).contains p
  let s1 := State.useEntry { s with reqCount := tset s.reqCount home n } home p
  let e := s.entryOf p
  if n % 16 ≠ 0 || !known || !(s.ctxAt (entCtx e)).automig || entExplicit e || s.isAdmin p then s1
  else
    let s2 := { s1 with samples := tset s1.samples p ((die :: tget s1.samples p []).take 64) }
    if (tget s2.samples p []).length < 64 then s2
    else match s2.wantedMove p with
      | some k => s2.soon .none (.pageMoveStart p k false)
      | none => s2

/-! ### Order of requests (R69, R76) -/

/-- Key of a home hint. -/
def hintKey (die page : Nat) : Nat := 2 ^ 32 * die + page

/-- Where a die sends a request for a page (R69). -/
def State.target (s : State) (die page : Nat) : Nat :=
  if s.isAdmin page then s.homeOf page else tget s.hints (hintKey die page) (s.hashHome page)

/-- The turn of a request at a line still stands: its step is to come. -/
def State.turnLives (s : State) (d : Dir) : Bool := d.turn.any fun x => s.agenda.any fun e => e.subj == x.1 && e.ev == x.2

/-- The next request that waits for a line takes its turn (R76). -/
def State.nextTransaction (s : State) (line : Nat) : State :=
  let d := s.dirAt line
  if d.pending.isSome || s.turnLives d then s
  else match d.queue with
    | x :: rest => (s.setDir line { d with queue := rest, turn := some x }).soon x.1 x.2
    | [] => if d.turn.isSome then s.setDir line { d with turn := none } else s

/-- A request arrives at a line (R76): it waits behind an open transaction and behind earlier requests; else `serve` gives its effect. -/
def State.arrive (s : State) (line : Nat) (x : Subject × Instr) (serve : State → State) : State :=
  let d := s.dirAt line
  if d.turn == some x then serve s
  else if d.pending.isSome || s.turnLives d || !d.queue.isEmpty then
    (s.setDir line { d with queue := d.queue ++ [x] }).nextTransaction line
  else serve s

/-- A request has been served: the line's turn passes on. -/
def State.served (s : State) (line : Nat) : State :=
  (s.setDir line { s.dirAt line with turn := none }).nextTransaction line

/-- Requests for a page are held: a move of it has copied its frame and waits for the open transactions (R78 step 3). -/
def State.moveHolds (s : State) (p : Nat) : Bool := s.moves.any fun m => m.page == p && m.copied

/-- A request of a die of this package for a home of another goes out on the request channel (02 R43). -/
def State.sendHome (s : State) (die line home : Nat) (x : Subject × Instr) : State :=
  if die / 4 = s.self && home / 8 != s.self && (s.dirAt line).turn != some x then
    s.message (some (die % 4)) (home / 8) (some (home % 8 / 2)) 0 (some (256 * line)) "REQUEST" [w64 (line + die * 2 ^ 40)]
  else s

/-- A request of a die for a line on its way to the home: a stack that is not the current home answers with `REDIRECT` (R69), a move holds
it (R78), a lost home takes it nowhere; else it counts as a request for the page (R79, R81) and `serve` gives its effect. -/
def State.atHome (s : State) (die line : Nat) (x : Subject × Instr) (lost serve : State → State) : State :=
  let p := line / 512
  let t := s.target die p
  let home := s.homeOf p
  if t ≠ home then
    (s.soon .none (.redirect die p (if t = s.hashHome p then home else s.hashHome p))).soon x.1 x.2
  else if s.stackLost home then lost s
  else if s.moveHolds p then s.later 1 x.1 x.2
  else serve (((s.sendHome die line home x).unpin p).monitor home die p)

/-! ### Requests (R74, R75) -/

/-- The message that carries a probe to a die of another package. -/
def probeName : ProbeKind → String
  | .share => "PROBE_SHARE"
  | .own => "PROBE_OWN"
  | .invalidate => "PROBE_INVALIDATE"
  | .writeBack => "PROBE_WRITE_BACK"

/-- A probe of a line sent to a die: of this package, or on the snoop channel to another. -/
def State.sendProbe (s : State) (die line : Nat) (k : ProbeKind) : State :=
  if die / 4 = s.self then s.soon .none (.probe die line k)
  else s.message (some (s.homeOf (line / 512) % 8 / 2)) (die / 4) (some (die % 4)) 2 (some (256 * line)) (probeName k) [w64 (line + die * 2 ^ 40)]

/-- A line becomes M at a die. -/
def ownedBy (d : Dir) (die : Nat) : Dir := { d with st := .m, owner := die, sharers := dieBit die, pending := none }

/-- Every holder that a directory entry shows gives up its line, and the entry goes (R74). -/
def State.evictEntry (s : State) (line : Nat) : State :=
  let d := s.dirAt line
  let s1 := (diesOf d.sharers).foldl (fun s i => if i / 4 = s.self then s.leaveDie (i % 4) line false else s.sendProbe i line .writeBack) s
  s1.setDir line { d with st := .i, sharers := 0 }

/-- Room for a new entry in the directory of a line's home, of 32,768 sets of 16 ways: the least recently used entry of a full set that has no
open transaction is evicted (R74). -/
def State.makeRoom (s : State) (line : Nat) : State :=
  let home := s.homeOf (line / 512)
  let set := Config.dirSet line % 32768
  let ways := s.dirUse.filter fun l => Config.dirSet l % 32768 == set && s.homeOf (l / 512) == home
  if (tfind s.dir line).isSome || s.dirUse.length < 16 || ways.length < 16 then s
  else match ways.find? fun l => (s.dirAt l).pending.isNone with
    | some l => s.evictEntry l
    | none => s

/-- A request of kind 0 (`RDS`), 1 (`RDX`) or 2 (`UPG`) at the current home (R75). -/
def State.serveRequest (s : State) (kind die line : Nat) : State :=
  let s := s.makeRoom line
  let d := { s.dirAt line with turn := none }
  let done := fun (d : Dir) => ((s.setDir line d).answered die line).nextTransaction line
  let others := diesOf (d.sharers &&& ~~~(dieBit die))
  let probe := fun (l : List Nat) (k : Nat → ProbeKind) =>
    l.foldl (fun s o => s.sendProbe o line (k o)) (s.setDir line { d with pending := some ⟨kind, die, l⟩ })
  if kind = 0 then
    match d.st with
    | .i => done { d with st := .e, owner := die, sharers := dieBit die }
    | .s => done { d with sharers := d.sharers ||| dieBit die }
    | .e | .m | .o => if d.sharers.getLsbD die then done d else probe [d.owner] fun _ => .share
  else if d.st == .i || others.isEmpty then done (ownedBy d die)
  else probe others fun o => if d.st != .s && o == d.owner then .own else .invalidate

/-- A request as a die sends it. -/
def State.request (s : State) (kind die line : Nat) (again : Instr) : State :=
  s.atHome die line (.none, again) (fun s => s.answered die line) fun s =>
    s.arrive line (.none, again) fun s => s.serveRequest kind die line

/-- A line cleared for a near operation (R75): the package's dies give it up and what they hold dirty reaches memory; dies of other packages
are probed, and until they have answered it is not clear. -/
def State.nearClear (s : State) (line : Nat) : Bool × State :=
  let d := s.dirAt line
  if d.pending.isSome then (false, s)
  else
    let holders := diesOf d.sharers
    let far := holders.filter fun i => i / 4 != s.self
    let s1 := (holders.filter fun i => i / 4 == s.self).foldl (fun s i => s.leaveDie (i % 4) line false) s
    if far.isEmpty then (true, s1.setDir line { d with st := .i, sharers := 0 })
    else
      let mask := far.foldl (fun m i => m ||| dieBit i) 0
      (false, far.foldl (fun s i => s.sendProbe i line .own) (s1.setDir line { d with sharers := mask, pending := some ⟨3, 0, far⟩ }))

/-- Lines cleared for a near operation, all of them. -/
def State.nearClearAll (s : State) (lines : List Nat) : Bool × State :=
  lines.foldl (fun x l => let y := x.2.nearClear l; (x.1 && y.1, y.2)) (true, s)

/-- A near operation's lines after an agent that has cleared them itself: no die holds them (R75). -/
def State.nearLines (s : State) (lines : List Nat) : State := (s.nearClearAll lines).2

/-- A near operation at its line (R75, R76): in its turn, once its lines are clear. -/
def State.nearAt (s : State) (line : Nat) (more : State → List Nat) (x : Subject × Instr) (perform : State → State) : State :=
  s.arrive line x fun s =>
    let c := s.nearClearAll (line :: more s)
    if c.1 then (perform c.2).served line
    else (c.2.setDir line { c.2.dirAt line with turn := some x }).later 1 x.1 x.2

/-- `RDS` (R75). -/
def execRds (die line : Nat) (s : State) : Out := .next (s.request 0 die line (.rds die line))
/-- `RDX` (R75). -/
def execRdx (die line : Nat) (s : State) : Out := .next (s.request 1 die line (.rdx die line))
/-- `UPG` (R75). -/
def execUpg (die line : Nat) (s : State) : Out := .next (s.request 2 die line (.upg die line))

/-- `REDIRECT` (R69): the die's hint names another stack; its hint cache holds 1024 pages. -/
def execRedirect (die page stack : Nat) (s : State) : Out :=
  let key := hintKey die page
  let mine := s.hints.filter fun x => x.1 / 2 ^ 32 == die && x.1 != key
  let hints := if mine.length < 1024 then s.hints else tdel s.hints ((mine.head?.map (·.1)).getD 0)
  .next { s with hints := tset hints key stack }

/-! ### Replies, write-backs and evictions (R75 to R77) -/

/-- Bytes of a line, (offset, byte), written to memory; the other sector is unchanged (R77). -/
def State.lineWrite (s : State) (line : Nat) (bs : List (Nat × Byte)) : State :=
  s.writeCells (bs.filterMap fun p => if p.1 < 256 then some (256 * line + p.1, p.2) else none)

/-- The open probe to a die answered, or served by its write-back: `dirty` when its data was newer than memory. With the last answer the
transaction ends. -/
def State.probeDone (s : State) (die line : Nat) (dirty : Bool) : State :=
  let d := s.dirAt line
  match d.pending with
  | none => s
  | some p =>
    let left := p.left.filter fun i => i != die
    let end_ := fun (x : Dir) => ((s.setDir line { x with pending := none }).answered p.die line).nextTransaction line
    if p.kind = 0 then
      let both := d.sharers ||| dieBit p.die
      let kept := d.sharers.getLsbD d.owner
      end_ { d with st := if kept && (d.st == .o || d.st == .m || dirty) then .o else .s, sharers := both }
    else if !left.isEmpty then s.setDir line { d with pending := some { p with left := left } }
    else if p.kind = 3 then ((s.setDir line { d with st := .i, sharers := 0, pending := none })).nextTransaction line
    else end_ (ownedBy d p.die)

/-- `PROBE_REPLY` (R75, R76): discarded when a write-back has served the probe, or no probe to the die is open. -/
def execProbeReply (die line : Nat) (dirty : List (Nat × Byte)) (s : State) : Out :=
  let d := s.dirAt line
  if d.stale.contains die then .next (s.setDir line { d with stale := d.stale.erase die })
  else if !((d.pending.map (·.left)).getD []).contains die then .next s
  else .next ((s.lineWrite line dirty).probeDone die line (!dirty.isEmpty))

/-- The data of a write-back lost (01 R36): the line is entered as lost, and the event goes to management and to the owning context. -/
def State.loseWriteBack (s : State) (line : Nat) : State :=
  ((s.loseLine line).emit (.mgmt "WRITE_BACK_LOST" line)).emit (.ctxEvent (entCtx (s.entryOf (line / 512))) "WRITE_BACK_LOST")

/-- A write-back from the current owner (R75, R76): M goes to I, and O to S or to I when no sharer remains; an open probe to the die is served
by it, and the probe's reply will be discarded. -/
def State.writeBackLine (s : State) (die line : Nat) (bytes : Option (List (Nat × Byte))) : State :=
  let d := s.dirAt line
  let left := d.sharers &&& ~~~(dieBit die)
  if d.owner ≠ die || d.st == .i || d.st == .s then s
  else
    let s1 := match bytes with
      | some bs => s.lineWrite line bs
      | none => s.loseWriteBack line
    let probed := ((d.pending.map (·.left)).getD []).contains die
    if probed then
      (s1.setDir line { d with st := .s, sharers := left, stale := d.stale ++ [die] }).probeDone die line false
    else s1.setDir line { d with st := if d.st == .o && left != 0 then .s else .i, sharers := if d.st == .o then left else 0 }

/-- `WB` (R75 to R77), without bytes where its data is lost (01 R36). A line of a lost home is not written. -/
def execWb (die line : Nat) (bytes : Option (List (Nat × Byte))) (s : State) : Out :=
  if s.stackLost (s.homeOf (line / 512)) then .next s else .next (s.writeBackLine die line bytes)

/-- `CLEAN_EVICTION` (R75): the die's bit is cleared; the last one leaves the line in I. While a transaction is open its end says which state
follows. -/
def execCleanEviction (die line : Nat) (s : State) : Out :=
  let d := s.dirAt line
  let left := d.sharers &&& ~~~(dieBit die)
  if !d.sharers.getLsbD die || ((d.st == .m || d.st == .o) && d.owner == die) then .next s
  else .next (s.setDir line { d with st := if left = 0 && d.pending.isNone then .i else d.st, sharers := left })

/-! ### Probes at a die of the package (R75, R189) -/

/-- `PROBE` (R75): a die of the package gives the line up, or for a shared read keeps it clean, and answers; under `writeBack` (R74) it leaves
the line without an answer. A probe for a die of another package goes out. -/
def execProbe (die line : Nat) (k : ProbeKind) (s : State) : Out :=
  if die / 4 ≠ s.self then .next (s.sendProbe die line k)
  else
    let s1 := s.leaveDie (die % 4) line (k == .share)
    let home := s.homeOf (line / 512)
    match k with
    | .writeBack => .next s1
    | _ =>
      if home / 8 = s.self then .next (s1.soon .none (.probeReply die line []))
      else .next (s1.message (some (die % 4)) (home / 8) (some (home % 8 / 2)) 2 (some (256 * line)) "PROBE_REPLY" [w64 (line + die * 2 ^ 40)])

/-! ### Page moves (R78 to R80) -/

/-- The attempt of a move counted: `MOVES` restarts in a new window (R79). -/
def State.countMove (s : State) (p : Nat) (retire : Bool) : State :=
  if retire then s
  else
    let e := s.entryOf p
    let n := min 4 (entMoves e + 1)
    let e1 := w64 (e.toNat - entMoves e * 2 ^ 56 + n * 2 ^ 56)
    if n = 4 then
      let s1 := { (s.setEntry p (bitsSet e1 (2 ^ 61) true)) with pinned := tset s.pinned p s.window }
      (s1.emit (.ctxEvent (entCtx e) "PINNED")).emit (.mgmt "PINNED" p)
    else s.setEntry p e1

/-- Does `PINNED` hold a page in this window (R79)? -/
def State.isPinned (s : State) (p : Nat) : Bool := entPinned (s.entryOf p) && tfind s.pinned p == some s.window

/-- `PAGE_MOVE_START` (R78 step 1): `MIGRATING` is set and a frame of the new home is taken. A retirement that meets a move under way waits
for its end. -/
def execPageMoveStart (page stack : Nat) (retire : Bool) (s : State) : Out :=
  let e := s.entryOf page
  if entValid e && entMigrating e && retire && !s.isAdmin page then .next (s.offCore .none (.pageMoveStart page stack retire))
  else if s.isAdmin page || !entValid e || entMigrating e || s.stackLost (entHome e) || (!retire && s.isPinned page) then
    .next s
  else match s.freeFrame stack with
    | none => .next s
    | some f =>
      let w := s.window
      let fresh := entWin e ≠ w % 256
      let e1 := w64 (e.toNat - entMoves e * 2 ^ 56 - entWin e * 2 ^ 48 + (if fresh then 0 else entMoves e) * 2 ^ 56 + w % 256 * 2 ^ 48)
      let s1 := s.setEntry page (bitsSet (if retire then e else e1) (2 ^ 60) true)
      let s2 : State := { s1 with moves := s1.moves ++ [{ page := page, stack := stack, frame := f, retire := retire }] }
      let s3 := if stack / 8 = s.self then s2
        else s2.message (some (entHome e % 8 / 2)) (stack / 8) (some (stack % 8 / 2)) 4 none "PAGE_COPY" [w64 page]
      .next (s3.offCore .none (.moveCopyComplete page))

/-- The end of a move of a page without a new home: `MIGRATING` clears, and the attempt counts (R80). -/
def State.abandonMove (s : State) (m : Move) : State :=
  let s1 := { s with moves := s.moves.filter fun x => x.page != m.page }
  (s1.setEntry m.page (bitsSet (s1.entryOf m.page) (2 ^ 60) false)).countMove m.page m.retire

/-- `MOVE_COPY_COMPLETE` (R78 steps 2 and 3). -/
def execMoveCopyComplete (page : Nat) (s : State) : Out :=
  match s.moves.find? fun m => m.page == page with
  | none => .next s
  | some m =>
    if s.stackLost m.stack then .next (s.abandonMove m)
    else .next (({ s with moves := s.moves.map fun x => if x.page = page then { x with copied := true } else x } : State).offCore
      .none (.moveFinish page))

/-- The cells of a frame put at another frame in place of what was there. -/
def moveFrame (m : List Host.Cell) (old new : Nat) : List Host.Cell :=
  let inside := fun (a k : Nat) => decide (a ≤ k) && decide (k < a + 2 ^ 17)
  let kept := m.filter fun c => !inside old c.1 && !inside new c.1
  (m.filter fun c => inside old c.1).foldl (fun r c => memSet r (c.1 - old + new) c.2) kept

/-- Key of a frame's first byte. -/
def frameKey (stack frame : Nat) : Nat := stack * 2 ^ 36 + frame * 2 ^ 17

/-- A transaction is open on some line of a page. -/
def State.pageBusy (s : State) (p : Nat) : Bool := s.dir.any fun d => d.1 / 512 == p && d.2.pending.isSome

/-- `MOVE_FINISH` (R78 steps 3 to 5): once the open transactions have ended, `HOME` and `FRAME` are written, with the bytes as the old frame
last held them. Requests held meanwhile find the new home. -/
def execMoveFinish (page : Nat) (s : State) : Out :=
  match s.moves.find? fun m => m.page == page && m.copied with
  | none => .next s
  | some m =>
    let e := s.entryOf page
    if s.stackLost m.stack || s.stackLost (entHome e) then .next (s.abandonMove m)
    else if s.pageBusy page then .next (s.later 1 .none (.moveFinish page))
    else
      let e1 := indEntry true (entExplicit e) m.stack m.frame (entCtx e)
      let keep := e.toNat / 2 ^ 48 % 2 ^ 12 * 2 ^ 48 + (if entPinned e then 2 ^ 61 else 0)
      let s1 : State := { s with
        mem := moveFrame s.mem (frameKey (entHome e) (entFrame e)) (frameKey m.stack m.frame),
        moves := s.moves.filter (fun x => x.page != page),
        samples := tdel s.samples page,
        lastOwner := tset s.lastOwner (m.stack * 2 ^ 19 + m.frame) (tget s.lastOwner (entHome e * 2 ^ 19 + entFrame e) (entCtx e)),
        badFrames := if m.retire then (entHome e * 2 ^ 19 + entFrame e) :: s.badFrames else s.badFrames }
      .next ((s1.setEntry page (bitsSet (e1 ||| w64 keep) (2 ^ 60) false)).countMove page m.retire)

/-! ### Replies of near-memory requests (R91, R93, R95) -/

/-- The instruction of a block that performs at issue in a position (R254). -/
def Blk.atPosition (b : Blk) (pos : Nat) : Option (Nat × Instr) := (b.instrs.filter fun p => p.2.atIssue)[pos % 4]?

/-- A gang whose request was parked at its home leaves that parking; one that polling has parked stays so (06 R186). -/
def Gang.unparkEdge (g : Gang) : Gang :=
  { g with parked := if g.edgeParked then decide (256 ≤ g.poll) else g.parked, edgeParked := false }

/-- An outcome reaches the focused gang (R95, R150): held, delivered where its instruction waits, or marked in the image of a gang that
is not resident; one that was parked for it then waits for a slot (R186). -/
def State.reply (s : State) (handler : Bool) (pos : Nat) (x : Lanes) : State :=
  let was := s.g.edgeParked
  let g1 : Gang := { s.g.unparkEdge with held := tset s.g.held pos x, excluded := false }
  if g1.slot.isNone then
    { s with g := { g1 with marks := g1.marks ||| BitVec.ofNat 8 (2 ^ pos),
                            waitsSlot := if was && !g1.parked && !g1.retired then g1.waitsSlot.or (some s.clock) else g1.waitsSlot } }
  else
    let s2 : State := { s with g := g1, isec := false }
    match g1.prim with
    | none => s2
    | some b =>
      match b.atPosition pos with
      | some (idx, i) =>
        if g1.sup == handler && b.pendingAt idx then deliverReply i x { (s2.setBlk { b with progress := s.clock }) with idx := idx } else s2
      | none => s2

/-- A request whose home is lost: the waiting instruction faults `HOME_LOST`; a gang that gave up its slot while the request was parked faults at
its block and waits for a slot (R64, R95). -/
def State.replyLost (s : State) (handler : Bool) (pos : Nat) : State :=
  let was := s.g.edgeParked
  let s0 := { s with g := s.g.unparkEdge }
  match s0.g.prim with
  | none => if was && s0.g.slot.isNone then s0.faultGang s0.gid 8 else s0
  | some b =>
    match b.atPosition pos with
    | some (idx, _) =>
      if s0.g.sup == handler && b.pendingAt idx then
        let s1 : State := { s0 with isec := false, idx := idx }
        s1.raise (s1.execFault 8 0 255 b.active [])
      else s0
    | none => s0

/-- The chunk that a counter hands out (R91): first index and count. -/
def chunkOf (next remain mn dv : Nat) : Nat × Nat :=
  let m := max 1 mn
  let d := max 1 dv
  (next, if remain = 0 then 0 else min remain (max m ((remain + d - 1) / d)))

/-- A chunk handed out of a counter: its first index and count, and the state with the counter changed. -/
def State.takeChunk (s : State) (a : Nat) : (Nat × Nat) × State :=
  let f := fun (o n : Nat) => natOf (s.poolRead (a + o) n)
  let r := chunkOf (f 0 8) (f 8 8) (f 16 4) (f 20 4)
  (r, (s.poolWrite a (bytesOf 8 (r.1 + r.2))).poolWrite (a + 8) (bytesOf 8 (f 8 8 - r.2)))

/-- The domain number of the die of a gang. -/
def State.gangDie (s : State) (n : Nat) : Nat := s.dieNo (((s.gangAt n).map fun g => dieOf g.core).getD 0)

/-- `CHUNK_REQUEST` (R91): a near operation at the counter's line, for the focused gang. -/
def execChunkRequest (handler : Bool) (pos : Nat) (addr : W64) (s : State) : Out :=
  let a := addr.toNat
  let x : Subject × Instr := (.gang s.gid, .chunkRequest handler pos addr)
  .next (s.atHome (s.gangDie s.gid) (a / 256) x (fun s => s.replyLost handler pos) fun s =>
    s.nearAt (a / 256) (fun _ => []) x fun s =>
      let r := s.takeChunk a
      r.2.reply handler pos (lanes fun l => if l = 0 then w64 r.1.1 else if l = 1 then w64 r.1.2 else 0))

/-! ### Edge queues (R92 to R95) -/

/-- An edge queue's descriptor as memory holds it. -/
structure EdgeQ where
  base : Nat
  cap : Nat
  slot : Nat
  head : Nat
  tail : Nat
  free : Nat
  fill : Nat
  deriving DecidableEq, Repr

/-- The descriptor at an address. -/
def State.edgeQ (s : State) (a : Nat) : EdgeQ :=
  let f := fun (o n : Nat) => natOf (s.poolRead (a + o) n)
  { base := f 0 8, cap := f 8 4, slot := f 12 2, head := f 16 8, tail := f 24 8, free := f 32 4, fill := f 36 4 }

/-- The counters of a descriptor written. -/
def State.setEdgeQ (s : State) (a : Nat) (q : EdgeQ) : State :=
  s.poolWrite (a + 16) (bytesOf 8 q.head ++ bytesOf 8 q.tail ++ bytesOf 4 q.free ++ bytesOf 4 q.fill)

/-- Address of slot k. -/
def EdgeQ.at (q : EdgeQ) (k : Nat) : Nat := q.base + k % (max 1 q.cap) * q.slot

/-- The lines of the slot that a send or take would use next. -/
def State.edgeLines (s : State) (desc : W64) (send : Bool) : List Nat :=
  let q := s.edgeQ desc.toNat
  let at_ := q.at (if send then q.tail else q.head)
  [at_ / 256, (at_ + max 1 q.slot - 1) / 256].eraseDups

/-- A send or take performed, if its condition holds: its gang's outcome and memory (R93). -/
def State.edgePerform (s : State) (r : EdgeReq) (send : Bool) : Option (Lanes × State) :=
  let a := r.desc.toNat
  let q := s.edgeQ a
  if send then
    if q.free = 0 then none
    else some (uniOutcome (w64 q.tail), (s.poolWrite (q.at q.tail) (r.payload.take q.slot)).setEdgeQ a
      { q with free := q.free - 1, tail := q.tail + 1, fill := q.fill + 1 })
  else if q.fill = 0 then none
  else
    let bs := s.poolRead (q.at q.head) q.slot
    some (lanes fun l => if l < q.slot / 8 then w64 (fieldOf bs (8 * l) 8) else 0,
      s.setEdgeQ a { q with fill := q.fill - 1, head := q.head + 1, free := q.free + 1 })

/-- A gang in focus while something is done, and the focus given back. -/
def State.within (s : State) (n : Nat) (f : State → State) : State :=
  let s1 := s.focus n
  if s1.gid = n then (f s1).focus s.gid else s

/-- The parked request of a queue and direction that is served next: the oldest, or under fixed order the one whose gang has the lowest
(`LCK`, id) (R94, R228). -/
def State.nextParked (s : State) (desc : W64) (send : Bool) : Option EdgeReq :=
  let l := (s.parkedEdges.filter fun e => e.1.desc == desc && e.2 == send).map (·.1)
  match l with
  | [] => none
  | r :: rest =>
    let fixed := (s.launchAt (s.teamAt (s.teamOf r.gang)).launch).fixord
    if fixed then some (rest.foldl (fun b x => if pairLt (s.orderKey x.gang) (s.orderKey b.gang) then x else b) r) else some r

/-- Parked requests of a queue served while their conditions hold. -/
def State.serveEdges (s : State) (desc : W64) : Nat → State
  | 0 => s
  | n + 1 =>
    let try_ := fun (send : Bool) => (s.nextParked desc send).bind fun r =>
      ((s.nearLines (s.edgeLines desc send)).edgePerform r send).map fun x => (r, send, x)
    match (try_ false).or (try_ true) with
    | none => s
    | some (r, send, x) =>
      let s1 := { x.2 with parkedEdges := x.2.parkedEdges.filter fun e => !(e.1 == r && e.2 == send) }
      State.serveEdges (s1.within r.gang fun s => s.reply r.handler r.pos x.1) desc n

/-- Parked requests whose descriptors one home keeps. -/
def State.parkedAtHome (s : State) (home : Nat) : Nat :=
  (s.parkedEdges.filter fun e => s.homeOf (pageOf e.1.desc.toNat) == home).length

/-- A send or take in its turn at the descriptor's home: performed, parked, or answered `RETRY` (R93, R94). -/
def State.edgeServe (s : State) (r : EdgeReq) (send : Bool) : State :=
  match s.edgePerform r send with
  | some x => (x.2.within r.gang fun s => s.reply r.handler r.pos x.1).serveEdges r.desc (s.parkedEdges.length + 1)
  | none =>
    if s.parkedAtHome (s.homeOf (pageOf r.desc.toNat)) < 4096 then
      ({ s with parkedEdges := s.parkedEdges ++ [(r, send)] } : State).within r.gang fun s =>
        { s with g := { s.g with parked := true, edgeParked := true, parkedAt := s.clock, excluded := s.launchOf.fixord } }
    else s.within r.gang fun s => s.laterHere 256 (.gang r.gang) (.edgeRetry r send)

/-- A send or take arrives: a near operation on the descriptor's line and that of its slot (R75, R76). -/
def State.edgeArrive (s : State) (r : EdgeReq) (send : Bool) (ev : Instr) : State :=
  let x : Subject × Instr := (.gang r.gang, ev)
  s.atHome (s.gangDie r.gang) (r.desc.toNat / 256) x (fun s => s.within r.gang fun s => s.replyLost r.handler r.pos) fun s =>
    s.nearAt (r.desc.toNat / 256) (fun s => s.edgeLines r.desc send) x fun s => s.edgeServe r send

/-- `EDGE_SEND` (R93 to R95). -/
def execEdgeSend (r : EdgeReq) (s : State) : Out := .next (s.edgeArrive r true (.edgeSend r))
/-- `EDGE_TAKE` (R93 to R95). -/
def execEdgeTake (r : EdgeReq) (s : State) : Out := .next (s.edgeArrive r false (.edgeTake r))
/-- `EDGE_RETRY` (R94): the request is sent again. -/
def execEdgeRetry (r : EdgeReq) (send : Bool) (s : State) : Out := .next (s.edgeArrive r send (.edgeRetry r send))

end Sys2Proof.Machine
end

