-- ==== Sys2Proof/Machine/Queue.lean ====
section
/-! DEFINITION. Command queues (spec/04_host_commands.md R101 to R117): the QCB and its updates, reading a ring, the checks of a
header, acceptance and completion of packets, halts and stops, and the packets that only order others. -/

namespace Sys2Proof.Machine

/-! ### The QCB (R104, R105, R107, R111) -/

/-- The code of a QSTATE (R105). -/
def QState.code : QState → Nat
  | .idle => 0 | .running => 1 | .halted => 2 | .stopped => 3 | .resetting => 4 | .destroyed => 5

/-- The queue reads packets. -/
def QState.reads : QState → Bool
  | .idle | .running => true
  | _ => false

/-- Is the queue's work at an end: HEAD at the last TAIL and every accepted packet complete? -/
def Queue.settled (q : Queue) : Bool := q.head == q.tail && q.accepted.isEmpty

/-- The STATUS word of a queue (R105); SPAN reads 0. -/
def State.statusWord (s : State) (n : Nat) (q : Queue) : W64 :=
  let root := if n = 64 then s.self else (s.ctxAt n).root
  w64 (root * 2 ^ 42 + (s.pkg.service &&& 0xF7).toNat * 2 ^ 32 + q.cause * 2 ^ 16 + (if q.rootchg then 128 else 0) +
    (if q.svcchg then 64 else 0) + q.qstate.code)

/-- Why the Owl cannot use a pool page, as a fault code (R482, R111); none when it can. -/
def State.owlFail (s : State) (a : Nat) : Option Nat :=
  match s.pageFail none (pageOf a) with
  | some x => some x.1
  | none => if s.lineLost a then some 9 else none

/-- The bytes of one copy of the queue state. -/
def State.qcbCopy (s : State) (n : Nat) (q : Queue) (g : Nat) : List Byte :=
  bytesOf 8 g ++ bytesOf 8 q.head.toNat ++ bytesOf 8 (s.statusWord n q).toNat ++ bytesOf 8 q.qtl.toNat ++ bytesOf 8 q.detail.toNat ++
    bytesOf 8 q.admitted.toNat ++ bytesOf 8 0 ++ bytesOf 8 g

/-- One update of one QCB: the copy, then GEN (R107). -/
def State.putQcb (s : State) (a n : Nat) (q : Queue) (g : Nat) : State :=
  if (s.owlFail a).isSome then s
  else ((s.poolWrite (a + 32 + 64 * (g % 2)) (s.qcbCopy n q g)).poolWrite (a + 160) (bytesOf 8 g)).nearLines [a / 256]

/-- An update of a queue's QCB, the alternate after it (R107, R111). -/
def State.writeQcb (s : State) (n : Nat) : State :=
  let q0 := s.queueAt n
  let q := { q0 with gen := q0.gen + 1,
                     qstate := if q0.qstate.reads then (if q0.settled then .idle else .running) else q0.qstate }
  let s1 := (s.modQueue n fun _ => q).putQcb q.qcb.toNat n q q.gen.toNat
  match q.alt with
  | some a => s1.putQcb a.toNat n q q.gen.toNat
  | none => s1

/-- A queue changed and the change published. -/
def State.modQcb (s : State) (n : Nat) (f : Queue → Queue) : State := (s.modQueue n f).writeQcb n

/-- The whole QCB line at creation (R102). -/
def State.createQcb (s : State) (n : Nat) (a : Nat) : State :=
  let q := { s.queueAt n with gen := 1 }
  let zero : List Byte := List.replicate 64 0
  (((s.modQueue n fun _ => q).poolWrite a (List.replicate 32 0 ++ zero ++ s.qcbCopy n q 1 ++ List.replicate 96 0)).poolWrite (a + 160)
    (bytesOf 8 1)).nearLines [a / 256]

/-- The MSI-X vector of a queue (R115). -/
def State.vectorOf (s : State) (n : Nat) : Nat :=
  if n = 64 then bits s.owl.adminRing.toNat 58 48 else (s.ctxAt n).vector

/-- Control word of an MSI-X vector: masked until its table entry is written (notes/assumptions/121.md). -/
def Owl.vectorControl (o : Owl) (v : Nat) : Nat := if (tfind o.msix (2 * v + 1)).isSome then (tget o.msix (2 * v + 1) 0).toNat / 2 ^ 32 else 1

/-- An MSI-X vector raised (R98): sent, or kept in the pending-bit array while its entry is masked. -/
def State.sendVector (s : State) (v : Nat) : State :=
  if (s.owl.vectorControl v).testBit 0 then
    { s with owl := { s.owl with pba := if s.owl.pba.contains v then s.owl.pba else s.owl.pba ++ [v] } }
  else s.emit (.msix v)

/-- A vector raised for a driver: one that a driver on the running service cores has taken reaches them as controller source 32 + v, and not
the host (R100, notes/assumptions/122.md). -/
def State.raiseVector (s : State) (v : Nat) : State :=
  if s.owl.svcCores && Config.vectorOnCores v then
    ({ s with owl := { s.owl with plic := if s.owl.plic.contains (32 + v) then s.owl.plic else s.owl.plic ++ [32 + v] } } : State).emit (.source (32 + v))
  else s.sendVector v

/-- A queue's interrupt. -/
def State.interrupt (s : State) (n : Nat) : State := s.raiseVector (s.vectorOf n)

/-! ### Halts and stops (R106) -/

/-- What stands at HEAD is no longer waited for. -/
def Queue.letGo (q : Queue) : Queue := { q with waits := none, accepted := q.accepted.filter (·.started) }

/-- A halt; recorded when the queue is not already halted or stopped. -/
def State.haltQueue (s : State) (n cause : Nat) (tag : W32) (sub : Nat) : State :=
  if (s.queueAt n).qstate.reads then
    (s.modQcb n fun q => { q.letGo with qstate := .halted, cause := cause, detail := detailOf tag sub 0 }).interrupt n
  else s

/-- Gangs of a context on a core. -/
def State.ctxGangs (s : State) (ctx : Nat) : List Nat :=
  (s.allGangs.filter fun p => p.2.slot.isSome && !p.2.retired && (s.launchAt (s.teamAt p.2.team).launch).ctx == ctx).map (·.1)

/-- The gangs of a list stand at their oldest uncommitted blocks; a request queued at a semaphore is withdrawn (R243, R419). -/
def State.standAll (s : State) (l : List Nat) : State :=
  (l.foldl (fun s n => let s1 := (s.focus n).withdraw
    { s1 with g := { s1.g.discard with excluded := s1.g.excluded && s1.g.parked } }) s).focus s.gid

/-- Packages of a context (R101, R116). -/
def Ctx.packages (c : Ctx) : List Nat := (List.range 64).filter fun n => c.want.getD n 0 != 0

/-- Packages of a context that can be reached. -/
def State.reachable (s : State) (c : Ctx) : List Nat := c.packages.filter fun n => n = s.self || !s.pkg.lost.getLsbD n

/-- A message on the control channel to the other packages of a context. -/
def State.tellOthers (s : State) (ctx : Nat) (what : String) (words : List W64) : State :=
  ((s.reachable (s.ctxAt ctx)).filter fun n => n != s.self).foldl (fun s n => s.tell n what (w64 ctx :: words)) s

/-- A context's launches stop on this package: each gang stands at its oldest uncommitted block (R106, 02 R59). -/
def State.stopWork (s : State) (ctx : Nat) : State := (s.modCtx ctx fun c => { c with halt := true }).standAll (s.ctxGangs ctx)

/-- A stop: it replaces a halt, and the context's launches stop, on its other packages by a message. -/
def State.stopQueue (s : State) (ctx cause : Nat) (detail : W64) : State :=
  let q := s.queueAt ctx
  if q.qstate == .stopped || q.qstate == .destroyed || q.qstate == .resetting then s
  else
    (((s.stopWork ctx).modQcb ctx fun q => { q.letGo with qstate := .stopped, cause := cause, detail := detail }).interrupt ctx).tellOthers
      ctx "STOP" []

/-- `CONTEXT_FAULT` (R253, R106): the queue of the context in `subj` stops with the fault; a fault of a context that another package roots is
reported to that root. -/
def execContextFault (tag : W32) (sub code : Nat) (s : State) : Out :=
  let c := s.ctxAt s.subj
  if c.used && c.root != s.self then
    .next (s.tell c.root "CONTEXT_FAULT" [w64 s.subj, tag.setWidth 64, w64 sub, w64 code])
  else .next (s.stopQueue s.subj 0x102 (detailOf tag sub code))

/-! ### Timelines (R113, R114) -/

/-- The timeline of a `TLWAIT` selector: none where it gives `QF_FORMAT`. -/
def State.tlTarget (s : State) (sel : Nat) : Option (Nat × Nat) :=
  match sel / 2 ^ 60 with
  | 0 => if bits sel 59 6 = 0 then some (0, sel % 64) else none
  | 1 => if bits sel 59 9 = 0 ∧ s.homes.contains (sel % 512) then some (1, sel % 512) else none
  | 2 =>
    let pkg := bits sel 15 10
    let die := bits sel 9 8
    if bits sel 59 16 = 0 ∧ sel % 256 ≤ 143 ∧ s.inDomain pkg ∧ !s.pkg.lost.getLsbD pkg ∧
        (pkg ≠ s.self ∨ s.pkg.service.getLsbD (4 + die)) then
      some (2, pkg * 1024 + die * 144 + sel % 256)
    else none
  | _ => none

/-- Does this package hold the timeline? -/
def State.tlLocal (s : State) (t : Nat × Nat) : Bool :=
  match t.1 with
  | 0 => (s.ctxAt t.2).root == s.self
  | 1 => t.2 / 8 == s.self
  | _ => t.2 / 1024 == s.self

/-- The `TLWAIT` at the head of a queue is satisfied, so far as this package can see. -/
def State.tlMet (s : State) (n : Nat) : Bool :=
  match (s.queueAt n).waits with
  | none => false
  | some (sel, v) => match s.tlTarget sel.toNat with
    | none => false
    | some t => s.tlLocal t && decide (v.toNat ≤ (s.timelineValue n t).1.toNat)

/-- Does the `TLWAIT` wait for a timeline that another package holds? -/
def State.tlRemote (s : State) (n : Nat) : Bool :=
  match (s.queueAt n).waits with
  | none => false
  | some (sel, _) => match s.tlTarget sel.toNat with
    | none => false
    | some t => !s.tlLocal t

/-- After a timeline has advanced: every `TLWAIT` that it satisfies ends. -/
def State.wakeTlwaits (s : State) : State :=
  (List.range 64).foldl (fun s n => if s.tlMet n then s.soon (.on n) .tlwaitSatisfied else s) s

/-- `QTL` raised (R147, R113). -/
def State.raiseQtl (s : State) (n : Nat) (v : W64) : State :=
  (s.modQcb n fun q => { q with qtl := if q.qtl < v then v else q.qtl }).wakeTlwaits

/-! ### The ring (R102, R103, R111, R482) -/

/-- Size of the ring in bytes. -/
def Queue.size (q : Queue) : Nat := 2 ^ q.log2

/-- Address of a counter value. -/
def Queue.ringAt (q : Queue) (v : Nat) : Nat := q.base.toNat + v % q.size

/-- The Owl serves the queue: it runs, the package gives service, and the context's root is here. -/
def State.serves (s : State) (n : Nat) : Bool :=
  let q := s.queueAt n
  s.owl.state == 1 && s.inService && q.qstate.reads && q.log2 != 0 && (n == 64 || ((s.ctxAt n).used && (s.ctxAt n).root == s.self))

/-- A page of the QCB or the ring cannot be read: a context's queue stops; the admin queue is left idle until `ADMIN_QCB` is written
again. -/
def State.ringLost (s : State) (n code : Nat) (tag : W32) : State :=
  if n = 64 then (s.modQueue 64 fun q => { q.letGo with qstate := .idle, log2 := 0 }).emit (.mgmt "ADMIN_PAGE" code)
  else s.stopQueue n 0x102 (detailOf tag 5 code)

/-- The value up to which packets may be read: `ADMITTED` in a checked queue. -/
def State.limitOf (s : State) (n : Nat) : W64 :=
  if n ≠ 64 && (s.ctxAt n).checked then (s.queueAt n).admitted else (s.queueAt n).tail

/-- `TAIL` read and checked (R102, R103). -/
def State.readTail (s : State) (n : Nat) : State :=
  let q := s.queueAt n
  if !s.serves n || (n != 64 && (s.ctxAt n).checked) then s
  else match s.owlFail q.qcb.toNat with
    | some code => s.ringLost n code 0
    | none =>
      let t := s.poolWord q.qcb.toNat
      if t.toNat % 8 ≠ 0 ∨ t < q.head ∨ q.head.toNat + q.size < t.toNat then s.haltQueue n 5 0 0
      else s.modQueue n fun q => { q with tail := t, admitted := t }

/-! ### Header checks (R112, R113, R116) -/

/-- Least and greatest LEN of a type in a queue, with `left` words before the ring's end; none for a type not defined there. -/
def lenRange (admin : Bool) (left typ : Nat) : Option (Nat × Nat) :=
  let one := fun (n : Nat) => some (n, n)
  if typ = 0x0F then some (1, left)
  else if admin then
    match typ with
    | 0x40 => one 24 | 0x41 => one 3 | 0x42 => one 3 | 0x43 => one 4 | 0x44 => one 3 | 0x45 => one 4 | 0x46 => one 5 | 0x47 => one 4
    | 0x48 => one 4 | 0x49 => one 2 | 0x4A => one 7 | 0x4B => one 3
    | _ => none
  else
    match typ with
    | 1 => one 65 | 2 => some (3, 258) | 3 => one 4 | 4 => one 4 | 5 => one 2 | 6 => one 2 | 7 => some (2, 65535)
    | _ => none

/-- The bits that a word of a packet may have set. -/
def wordMask (typ k : Nat) : Nat :=
  let any := 2 ^ 64 - 1
  let page := 0xFFFFFFFE0000
  match typ, k with
  | 0x02, 1 => 0x1FF
  | 0x03, 3 => 0xFFFFFFFF
  | 0x04, 1 => 0
  | 0x05, 1 => 7
  | 0x06, 1 => 0xFFFF
  | 0x07, 1 => 0x3FFF
  | 0x40, 2 => 0x07FF1FFF
  | 0x40, 6 => 0xFFFFFFFFF03F
  | 0x40, 7 => 0
  | 0x41, 2 => 0x3F
  | 0x42, 2 => 0x33F
  | 0x43, 2 => page + 0x3F
  | 0x43, 3 => 0x0007FFFF0001FF07
  | 0x44, 2 => page
  | 0x45, 2 => page
  | 0x45, 3 => 0x1FF
  | 0x46, 4 => 0x1FF01FFFFFF
  | 0x47, 2 => 0x1FF
  | 0x48, 3 => 0xFFFFFFFF
  | 0x4B, 2 => 0x3F
  | _, _ => any

/-- Reserved fields of a launch record that are not zero (R127 to R129). -/
def lrReserved (lr : List Byte) : Bool :=
  let n := fieldOf lr 25 1 % 8 + 1
  fieldOf lr 328 184 != 0 || fieldOf lr 162 2 != 0 || fieldOf lr 24 8 / 2 ^ 11 != 0 || fieldOf lr 24 1 / 128 != 0 ||
    (List.range 8).any fun l =>
      let o := 200 + 16 * l
      fieldOf lr (o + 10) 6 != 0 || fieldOf lr (o + 8) 1 / 8 != 0 || fieldOf lr (o + 9) 1 / 8 != 0 ||
        (decide (n ≤ l) && fieldOf lr o 16 != 0)

/-- The fields of a `TRACE` packet are as R263 gives them. -/
def traceOk (w : List W64) : Bool :=
  let x := fun (k : Nat) => (w.getD k 0).toNat
  match x 1 % 256 with
  | 1 =>
    decide (w.length = 8) && x 2 % 4096 == 0 && decide (12 ≤ x 3 ∧ x 3 ≤ 32) && x 4 % 32 == 0 &&
      (x 5 == 0 || decide (1024 ≤ x 5 ∧ x 5 < 2 ^ 32)) && x 6 % 16 == 0 && decide (x 7 ≤ 16) && (x 7 != 0 || x 6 == 0)
  | 2 => decide (w.length = 2)
  | _ => false

/-- Words of a packet as bytes. -/
def wordBytes (ws : List W64) : List Byte := ws.flatMap fun x => bytesOf 8 x.toNat

/-- The launch records of a `LAUNCH` or `GRAPH` packet, with their addresses. -/
def State.recordsOf (s : State) (ws : List W64) : List (W64 × List Byte) :=
  let h := (ws.getD 0 0).toNat % 256
  if h = 1 then [(0, wordBytes (ws.drop 1))]
  else if h = 2 then (ws.drop 2).map fun a => (a, s.poolRead (a.toNat % 2 ^ 48) 512)
  else []

/-- The check of the payload of a whole packet (R112 check 4). -/
def State.formatBad (s : State) (ws : List W64) : Bool :=
  let h := (ws.getD 0 0).toNat
  let typ := h % 256
  bits h 15 10 != 0 ||
    (List.range (min ws.length 24)).any (fun k => k != 0 && (ws.getD k 0).toNat &&& wordMask typ k != (ws.getD k 0).toNat) ||
    (typ == 3 && (s.tlTarget (ws.getD 1 0).toNat).isNone) || (typ == 4 && (ws.getD 3 0).toNat % 8 != 0) ||
    (typ == 7 && !traceOk ws) || (s.recordsOf ws).any fun r => lrReserved r.2

/-- The step that a packet is (95: one for each type, and for each action of `QUEUE_RESUME` and `TRACE`). -/
def packetEvent (ws : List W64) : Instr :=
  match (ws.getD 0 0).toNat % 256 with
  | 1 => .launch | 2 => .graph | 3 => .tlwaitPacket | 4 => .tlsignal | 5 => .fencePacket | 6 => .preempt
  | 7 => if (ws.getD 1 0).toNat % 256 = 1 then .traceOpen else .traceClose
  | 0x40 => .ctxCreate | 0x41 => .ctxDestroy
  | 0x42 => match bits (ws.getD 2 0).toNat 9 8 with
    | 0 => .queueResume | 1 => .queueResumeSkip | 2 => .queueResumeReset | _ => .hostHalt
  | 0x43 => .poolMap | 0x44 => .poolUnmap | 0x45 => .migrate | 0x46 => .eqCreate | 0x47 => .tableBase | 0x48 => .patchStage
  | 0x49 => .owlRestart | 0x4A => .attest | 0x4B => .pairBind
  | _ => .wrap

/-- What the Owl makes of the packet at HEAD: nothing yet, a halt with its cause, a page that cannot be read, or the packet. -/
inductive AtHead where
  | nothing
  | bad (cause : Nat)
  | lost (code : Nat)
  | packet (ws : List W64)
  deriving DecidableEq, Repr

/-- The first page of a run of the ring that cannot be read. -/
def State.ringFail (s : State) (q : Queue) (v n : Nat) : Option Nat :=
  ((List.range n).map fun k => q.ringAt (v + 8 * k)).findSome? s.owlFail

/-- TAG of the packet at a counter value, where the Owl can read it (R104). -/
def State.tagAt (s : State) (n : Nat) (v : W64) : W32 :=
  let a := (s.queueAt n).ringAt v.toNat
  if (s.owlFail a).isSome then 0 else (s.poolWord a).extractLsb' 32 32

/-- Words of the ring from a counter value. -/
def State.ringWords (s : State) (q : Queue) (v n : Nat) : List W64 := (List.range n).map fun k => s.poolWord (q.ringAt (v + 8 * k))

/-- The packet at HEAD with `avail` bytes written (R112; GRAPH's n as R113 gives). -/
def State.headPacket (s : State) (n : Nat) (q : Queue) (avail : Nat) : AtHead :=
  let v := q.head.toNat
  match s.ringFail q v 1 with
  | some c => .lost c
  | none =>
    let h := (s.poolWord (q.ringAt v)).toNat
    let typ := h % 256
    let len := bits h 31 16
    let left := (q.size - v % q.size) / 8
    match lenRange (n == 64) left typ with
    | none => .bad 3
    | some (lo, hi) =>
      if len = 0 ∨ len < lo ∨ hi < len ∨ q.size < 8 * len then .bad 2
      else if left < len then .bad 1
      else if bits h 15 10 ≠ 0 then .bad 4
      else if typ = 2 && decide (16 ≤ avail) && ((s.poolWord (q.ringAt (v + 8))).toNat % 512 != len - 2) then .bad 2
      else if avail < 8 * len then .nothing
      else match s.ringFail q v len with
        | some c => .lost c
        | none =>
          let ws := s.ringWords q v len
          match (s.recordsOf ws).findSome? fun r => if r.1 = 0 then none else s.owlFail r.1.toNat with
          | some c => .lost c
          | none => if s.formatBad ws then .bad 4 else .packet ws

/-! ### Acceptance and completion (R108, R112, R114, R147) -/

/-- TAG of a header. -/
def tagOf (ws : List W64) : W32 := (ws.getD 0 0).extractLsb' 32 32

/-- May a packet start now: `ORDER`, a fence before it, launches held back (R29, R147)? -/
def State.mayStart (s : State) (q : Queue) (ws : List W64) : Bool :=
  let h := ws.getD 0 0
  let n := (s.recordsOf ws).length
  !(h.getLsbD 8 && !q.accepted.isEmpty) && !(q.accepted.any fun a => (a.words.getD 0 0).toNat % 256 == 5) &&
    (n == 0 || (s.pkg.admitting && decide (s.launches.length + n ≤ 1024)))

/-- The next packet of a queue brought to its start, if it may start; `TAIL` is polled while packets may still come. -/
def State.pump (s : State) (n : Nat) : State :=
  let q := s.queueAt n
  let avail := (s.limitOf n).toNat - q.head.toNat
  if !s.serves n then s
  else if avail = 0 then (if q.bare && q.accepted.all (·.started) then s.haltQueue n 2 (s.tagAt n q.head) 0 else s)
  else
    let s1 := if q.polls then s else (s.modQueue n fun q => { q with polls := true }).later 80000 (.on n) .tailPoll
    if q.accepted.any fun a => !a.started then s1
    else
      let tag := s.poolWord (q.ringAt q.head.toNat) |>.extractLsb' 32 32
      match s.headPacket n q avail with
      | .nothing => s1
      | .lost c => s1.ringLost n c tag
      | .bad c => s1.haltQueue n c tag 0
      | .packet ws =>
        if !s.mayStart q ws then s1
        else
          let s2 := s1.modQueue n fun q => { q with next := q.next + 1, accepted := q.accepted ++ [{ num := q.next, words := ws }] }
          s2.soon (.packet ⟨n, q.next, ws⟩) (packetEvent ws)

/-- Where HEAD stands after a packet (R113 `WRAP`). -/
def Queue.after (q : Queue) (ws : List W64) : W64 :=
  if (ws.getD 0 0).toNat % 256 = 0x0F then w64 (q.head.toNat + (q.size - q.head.toNat % q.size)) else q.head + w64 (8 * ws.length)

/-- A packet's entry in its queue. -/
def State.entryOfPacket (s : State) (p : Packet) : Option Accepted := (s.queueAt p.queue).accepted.find? fun a => a.num == p.num

/-- A packet accepted: HEAD advances past it in a QCB update (R108). -/
def State.acceptPacket (s : State) (p : Packet) : State :=
  s.modQcb p.queue fun q => { q with
    head := q.after p.words,
    accepted := q.accepted.map fun a => if a.num = p.num then { a with started := true } else a }

/-- The effect of a packet that starts: it is accepted, acts, and the next one is looked at. -/
def State.starting (s : State) (f : Packet → State → State) : Out :=
  let p := s.pkt
  match s.entryOfPacket p with
  | none => .next s
  | some a =>
    if a.started || !s.serves p.queue then .next s
    else .next ((f p (s.acceptPacket p)).pump p.queue)

/-- The oldest packet not complete looked at again, where it is one that waits for those before it. -/
def State.nudge (s : State) (n : Nat) : State :=
  match (s.queueAt n).accepted with
  | a :: _ =>
    let typ := (a.words.getD 0 0).toNat % 256
    if a.started && (typ == 4 || typ == 5) then s.soon (.packet ⟨n, a.num, a.words⟩) (packetEvent a.words) else s
  | [] => s

/-- A packet complete: its interrupt, the QCB where QSTATE changes, `TAIL` read again (R103, R112). -/
def State.completePacket (s : State) (n num : Nat) : State :=
  match (s.queueAt n).accepted.find? fun a => a.num == num with
  | none => s
  | some a =>
    let s1 := s.modQueue n fun q => { q with accepted := q.accepted.filter fun x => x.num != num }
    let s2 := if (s1.queueAt n).qstate == .running && (s1.queueAt n).settled then s1.writeQcb n else s1
    let s3 := if (a.words.getD 0 0).getLsbD 9 then s2.interrupt n else s2
    ((s3.readTail n).nudge n).pump n

/-- The status of an admin packet written at its status address (R115). -/
def State.writeStatus (s : State) (a : Nat) (result : W64) (status : Nat) : State :=
  if (s.owlFail a).isSome then s
  else (s.poolWrite a (bytesOf 8 result.toNat ++ bytesOf 1 status ++ bytesOf 7 0)).nearLines [a / 256]

/-- Admin packets that have ended complete in order of acceptance (R117). -/
def State.flushAdmin (s : State) : Nat → State
  | 0 => s
  | k + 1 =>
    match (s.queueAt 64).accepted with
    | a :: _ =>
      match a.result with
      | some (r, st) => State.flushAdmin ((s.writeStatus ((a.words.getD 1 0).toNat % 2 ^ 48) r st).completePacket 64 a.num) k
      | none => if a.started && (a.words.getD 0 0).toNat % 256 == 0x0F then State.flushAdmin (s.completePacket 64 a.num) k else s
    | [] => s

/-- An admin packet has ended with a result and a status. -/
def State.endAdmin (s : State) (num : Nat) (result : W64) (status : Nat) : State :=
  (s.modQueue 64 fun q => { q with accepted := q.accepted.map fun a => if a.num = num then { a with result := some (result, status) } else a }).flushAdmin
    (s.queueAt 64).accepted.length

/-- The `QUEUE_RESUME` packet with action 2 that waits for a reset of a context. -/
def State.resetPacket (s : State) (ctx : Nat) : Option Nat :=
  ((s.queueAt 64).accepted.find? fun a =>
    let w := fun (k : Nat) => (a.words.getD k 0).toNat
    a.started && a.result.isNone && w 0 % 256 == 0x42 && bits (w 2) 9 8 == 2 && w 2 % 64 == ctx).map (·.num)

/-- `TAIL` read, and the packets that may start. -/
def State.ring (s : State) (n : Nat) : State := (s.readTail n).pump n

/-! ### Admission slots of a checked queue (R119, R120) -/

/-- An admission slot: DIGEST and AT; AT of all ones while it is free. -/
def State.slotOf (s : State) (ctx member : Nat) : BitVec 256 × W64 := tget s.owl.windows (2 * ctx + member) (0, 0xFFFFFFFFFFFFFFFF)

/-- An admission slot set. -/
def State.setSlot (s : State) (ctx member : Nat) (x : BitVec 256 × W64) : State :=
  { s with owl := { s.owl with windows := tset s.owl.windows (2 * ctx + member) x } }

/-- A slot is free. -/
def slotFree (x : BitVec 256 × W64) : Bool := x.2 == 0xFFFFFFFFFFFFFFFF

/-- A halt with `PAIR_MISMATCH`: the packet concerned is the one that stands at `ADMITTED` (R104, R120). -/
def State.mismatch (s : State) (ctx sub : Nat) : State := s.haltQueue ctx 6 (s.tagAt ctx (s.queueAt ctx).admitted) sub

/-- What the admission slots of a context call for: the packet is looked at, the other slot is awaited, or the pair disagrees (R120). -/
def State.lookAtSlots (s : State) (ctx : Nat) : State :=
  let c := s.ctxAt ctx
  let q := s.queueAt ctx
  let xs := [s.slotOf ctx 0, s.slotOf ctx 1]
  if !(c.used && c.checked && q.qstate.reads) then s
  else if xs.any fun x => !slotFree x && x.2 != q.admitted then s.mismatch ctx 4
  else if xs.all fun x => !slotFree x then (s.modQueue ctx fun q => { q with halfSlot := none }).soon (.on ctx) .packetAdmission
  else if xs.any fun x => !slotFree x then (s.modQueue ctx fun q => { q with halfSlot := some s.now }).later 8000000 (.on ctx) .admitTimeout
  else s

/-! ### The end of a reset -/

/-- A reset ends when no launch of the context is left and its trace session is closed (R115, 09 R268); the queue then reads `TAIL` again
(R103), and a checked one its admission slots. -/
def State.tryEndReset (s : State) (ctx : Nat) : State :=
  if (s.queueAt ctx).qstate != .resetting || (s.ctxAt ctx).trace.isSome || (s.launches.any fun p => p.2.ctx == ctx) then s
  else
    let s1 := ((s.modQcb ctx fun q => { q with qstate := .idle }).ring ctx).lookAtSlots ctx
    match s1.resetPacket ctx with
    | some n => s1.endAdmin n 0 0
    | none => s1

/-! ### Doorbells and polling (R103) -/

/-- `DOORBELL` (R98, R103) of the context in `subj`. -/
def execDoorbell (s : State) : Out := .next (s.ring s.subj)

/-- `ADMIN_DOORBELL` (R98, R103). -/
def execAdminDoorbell (s : State) : Out := .next (s.ring 64)

/-- `TAIL_POLL` (R103): at least every 100 µs while HEAD differs from the last `TAIL` read. -/
def execTailPoll (s : State) : Out := .next ((s.modQueue s.subj fun q => { q with polls := false }).ring s.subj)

/-! ### Packets that order others (R113, R114) -/

/-- `WRAP` (R113): HEAD moves to the next multiple of the ring size. -/
def execWrap (s : State) : Out :=
  s.starting fun p s => if p.queue = 64 then s.flushAdmin (s.queueAt 64).accepted.length else s.completePacket p.queue p.num

/-- `TLWAIT` (R113): it stands at HEAD until its timeline has advanced far enough. -/
def execTlwaitPacket (s : State) : Out :=
  let p := s.pkt
  match s.entryOfPacket p with
  | none => .next s
  | some a =>
    if a.started || !s.serves p.queue then .next s
    else
      let us := (p.words.getD 3 0).toNat % 2 ^ 32
      let s1 := s.modQueue p.queue fun q => { q with waits := some (p.words.getD 1 0, p.words.getD 2 0), waitNo := p.num }
      let s2 := if us = 0 then s1 else s1.later (800 * us) (.packet p) .tlwaitTimeout
      .next (if s2.tlMet p.queue then s2.soon (.on p.queue) .tlwaitSatisfied else s2)

/-- `TLWAIT_SATISFIED` (R113, R114): the packet is accepted and complete. -/
def execTlwaitSatisfied (s : State) : Out :=
  let n := s.subj
  let q := s.queueAt n
  match q.accepted.find? fun a => a.num == q.waitNo && !a.started with
  | none => .next s
  | some a =>
    if q.waits.isNone || !s.serves n || !(s.tlMet n || s.tlRemote n) then .next s
    else
      let s1 := (s.modQueue n fun q => { q with waits := none }).acceptPacket ⟨n, a.num, a.words⟩
      .next (s1.completePacket n a.num)

/-- `TLWAIT_TIMEOUT` (R113): the queue halts with HEAD left on the packet. -/
def execTlwaitTimeout (s : State) : Out :=
  let q := s.queueAt s.pkt.queue
  if q.waits.isSome && q.waitNo == s.pkt.num && (q.accepted.any fun a => a.num == s.pkt.num && !a.started) then
    .next (s.haltQueue s.pkt.queue 7 (tagOf s.pkt.words) 0)
  else .next s

/-- A packet that completes once every earlier packet has: accepted at its start, `f` when it is the oldest. A stopped queue lets it wait. -/
def State.afterAll (s : State) (f : Packet → State → State) : Out :=
  let p := s.pkt
  let last := fun (t : State) =>
    match (t.queueAt p.queue).accepted with
    | a :: _ => if a.num = p.num && (t.queueAt p.queue).qstate != .stopped && t.owl.state == 1 then (f p t).completePacket p.queue p.num else t
    | [] => t
  match s.entryOfPacket p with
  | none => .next s
  | some a => if a.started then .next (last s) else s.starting fun _ s => last s

/-- `TLSIGNAL` (R113, R484). -/
def execTlsignal (s : State) : Out :=
  s.afterAll fun p s =>
    let v := p.words.getD 2 0
    let a := (p.words.getD 3 0).toNat
    let s1 := s.raiseQtl p.queue v
    if a = 0 then s1 else s1.writeRecord p.queue (tagOf p.words) a (bytesOf 8 v.toNat)

/-- `FENCE` (R113): stores of launches that have completed are performed at every scope. -/
def execFencePacket (s : State) : Out := s.afterAll fun _ s => s

end Sys2Proof.Machine
end

