-- ==== Sys2Proof/Machine/TileQueue.lean ====
section
/-! DEFINITION. A core's tile queue (spec/15_isa_tile_copy_pool.md R440 to R444): what `tld`, `tst`, `tclr` and `tcvt` read when they
start and write when they complete. -/

namespace Sys2Proof.Machine

/-! ### `tcvt` (R443, R363, R364) -/

/-- An element converted: its pattern, its scale's event or its own event as KIND and OPND. -/
structure CvtElem where
  pat : Nat
  event : Option (Nat × Nat) := none
  deriving DecidableEq, Repr

/-- The rounding of element (i, j): e0 is `SIXB`, e1 is 2^32 + 64 i + j. -/
def cvtRnd (rm rmode : BitVec 3) (stochOk : Bool) (seed : W64) (sixb : W32) (i j : Nat) : Rnd :=
  { mode := modeOf rm rmode stochOk, rand := rand32 seed (sixb.setWidth 64) (w64 (2 ^ 32 + 64 * i + j)) }

/-- An f32 element to a float format (R379), with its event: NaN consumed, NaN or infinity produced, saturation under RM 101. -/
def cvtFloat (t : Ty) (rn : Rnd) (x : Nat) : CvtElem :=
  let v := fIn .f32 x
  let r := fpConvert t rn v
  let o := fIn t r.1
  let beyond := !v.finite || r.2 &&& fOF != 0
  { pat := r.1,
    event := if v.isNan then some (1, 2)
      else if o.isNan then some (2, 3)
      else if !o.finite && v.finite then some (3, 3)
      else if rn.mode == 5 && o.finite && beyond then some (4, 3)
      else none }

/-- An i32 element to an integer format: Fit of R325. -/
def cvtInt (t : Ty) (rn : Rnd) (x : Nat) : CvtElem :=
  let z := ext .i32 (w64 x)
  let y := if rn.mode = 5 then max (lo t) (min (hi t) z) else z
  { pat := pat t y, event := if rn.mode = 5 && y != z then some (4, 3) else none }

/-- An i32 element to a float format (R381). -/
def cvtFromInt (t : Ty) (rn : Rnd) (x : Nat) : CvtElem :=
  let r := ofInt t rn (ext .i32 (w64 x))
  let o := fIn t r.1
  { pat := r.1, event := if !o.finite && !o.isNan then some (3, 3)
      else if rn.mode == 5 && r.2 &&& fOF != 0 then some (4, 3) else none }

/-- The element format of an MX form and its emax (R363). -/
def mxElem (t : Ty) : Option Ty × Int :=
  match t with
  | .mx8a => (some .e4m3, 8)
  | .mx8b => (some .e5m2, 15)
  | .mx4 => (some .e2m1, 2)
  | _ => (none, 0)

/-- The scale of a block of f32 values, none when one of them is a NaN or infinite (R364). -/
def mxScale (t : Ty) (vs : List FVal) : Option Nat :=
  if vs.any fun v => !v.finite then none
  else
    let tops := vs.filterMap fun v => match v with
      | .num _ m e => if m = 0 then none else some (topBit m e)
      | _ => none
    match tops with
    | [] => some 0
    | x :: r => some (max 0 (min 254 (r.foldl max x - (mxElem t).2 + 127))).toNat

/-- An element of an MX block with scale E (R364). -/
def mxElement (t : Ty) (rn : Rnd) (scale : Nat) (v : FVal) : CvtElem :=
  match v with
  | .num n m e =>
    let e' := e - ((scale : Int) - 127)
    match (mxElem t).1 with
    | some et =>
      let r := roundTo et rn n m e' false
      if r.2 &&& fOF != 0 then { pat := et.signBit n + et.maxEnc, event := some (4, 3) } else { pat := r.1 }
    | none =>
      let q := (cutAt rn n m (e' + 6) false 0).1
      let z := min q 127
      { pat := if n && z != 0 then 256 - z else z, event := if 127 < q then some (4, 3) else none }
  | _ => { pat := 0 }

/-- One line: 64 values with the position in `z` of each; the patterns, the scale bytes and the events by position. -/
structure CvtLine where
  elems : List CvtElem
  scales : List Nat := []
  deriving DecidableEq, Repr

/-- A block of 32 values to an MX form: at the first NaN or infinite value the scale made NaN is an event (R269). -/
def mxBlock (t : Ty) (rnd : Nat → Rnd) (xs : List Nat) : List CvtElem × Nat :=
  let vs := xs.map (fIn .f32)
  match mxScale t vs with
  | none =>
    let first := vs.findIdx fun v => !v.finite
    ((vs.zip (List.range 32)).map fun p =>
      { pat := 0, event := if p.1.isNan then some (1, 2) else if p.2 = first then some (2, 3) else none }, 255)
  | some e => ((vs.zip (List.range 32)).map fun p => mxElement t (rnd p.2) e p.1, e)

/-- A line of `tcvt`: `rnd` gives the rounding at each position of the line. -/
def cvtLine (src t : Ty) (rnd : Nat → Rnd) (xs : List Nat) : CvtLine :=
  if t.isMx then
    let a := mxBlock t rnd (xs.take 32)
    let b := mxBlock t (fun k => rnd (k + 32)) (xs.drop 32)
    { elems := a.1 ++ b.1, scales := [a.2, b.2] }
  else
    let f := if src = .f32 then cvtFloat t else if t = .i32 ∨ t = .i8 then cvtInt t else cvtFromInt t
    { elems := (xs.zip (List.range 64)).map fun p => f (rnd p.2) p.1 }

/-- The bytes of a line: elements in the order of R431, an odd 4-bit element in the high half of its byte. -/
def cvtBytes (t : Ty) (ps : List Nat) : List Byte :=
  if t.width = 4 then (List.range (ps.length / 2)).map fun k => BitVec.ofNat 8 (ps.getD (2 * k) 0 % 16 + 16 * (ps.getD (2 * k + 1) 0 % 16))
  else ps.flatMap (bytesOf (t.width / 8))

/-- The columns of a tile as rows. -/
def transpose (rows : List (List Nat)) : List (List Nat) := (List.range 64).map fun j => rows.map fun r => r.getD j 0

/-- Every line of `tcvt`. -/
def cvtLines (src t : Ty) (tr : Bool) (rnd : Nat → Nat → Rnd) (rows : List (List Nat)) : List CvtLine :=
  ((if tr then transpose rows else rows).zip (List.range 64)).map fun p =>
    cvtLine src t (fun k => if tr then rnd k p.2 else rnd p.2 k) p.1

/-- The first event: by row and column in `z` (R269). -/
def cvtEvent (src t : Ty) (tr : Bool) (tile : Nat) (ls : List CvtLine) : Option Nat :=
  firstSome (fun i (_ : Nat) => firstSome (fun j (_ : Nat) =>
    let l := (ls.getD (if tr then j else i) { elems := [] })
    ((l.elems[if tr then i else j]?).bind (·.event)).map fun e =>
      provWord e.1 e.2 (if e.2 = 2 then src.code.toNat else t.code.toNat) 3 i j 0 tile) 0 (List.range 64)) 0 (List.range 64)

/-! ### Starting and completing (R441) -/

/-- What an entry writes, and its event, from the stash and tile memory that it sees when it starts. -/
def State.queueResult (s : State) (e : TqEntry) : List (Bool × Nat × List Byte) × Option Nat :=
  let t := s.teamAt e.team
  let off := (lane e.fire.a 0).toNat
  let pitch := fun (size : Nat) => pitchOf (lane e.fire.b 0).toNat size
  match e.fire.ins with
  | .tld _ z => ((List.range 64).map fun i => (true, 16384 * z.toNat + 256 * i, stRead t.stash (off + i * pitch 256) 256), none)
  | .tst _ z => ((List.range 64).map fun i => (false, off + i * pitch 256, stRead t.tile (16384 * z.toNat + 256 * i) 256), none)
  | .tclr _ z => ([(true, 16384 * z.toNat, List.replicate 16384 0)], none)
  | .tcvt f z tr src =>
    let seed := (s.launchAt t.launch).seed
    let ls := cvtLines src f.ty tr (fun i j => cvtRnd f.rm e.rmode (decide (f.ty.width ≤ 16)) seed e.sixb i j)
      (tileRows (stRead t.tile (16384 * z.toNat) 16384))
    let p := pitch (8 * f.ty.width)
    let c := (lane e.fire.c 0).toNat
    (((ls.zip (List.range 64)).flatMap fun x =>
      (false, off + x.2 * p, cvtBytes f.ty (x.1.elems.map (·.pat))) ::
        if x.1.scales.isEmpty then [] else [(false, c + 2 * x.2, x.1.scales.flatMap (bytesOf 1))]),
     cvtEvent src f.ty tr z.toNat ls)
  | _ => ([], none)

/-- `TILE_QUEUE_START` (R441): the oldest entry whose start has come reads its sources. -/
def execTileQueueStart (s : State) : Out :=
  match (s.coreAt s.subj).tq.find? fun e => !e.started && decide (e.start ≤ (s.coreAt s.subj).cyc) with
  | none => .next s
  | some e =>
    let r := s.queueResult e
    .next ((s.modCore s.subj fun c => { c with tq := c.tq.map fun x =>
      if x.num = e.num then { x with started := true, out := r.1, event := r.2 } else x }).laterOn s.subj
        (e.finish - (s.coreAt s.subj).cyc) (.on s.subj) .tileQueueComplete)

/-- What an entry writes put into its team's stores. -/
def State.queueWrites (s : State) (team : Nat) (l : List (Bool × Nat × List Byte)) : State :=
  l.foldl (fun s w =>
    if w.1 then s.modTeam team fun t => { t with tile := stWrite t.tile w.2.1 w.2.2 }
    else s.setPlaces (((List.range w.2.2.length).map fun i => (⟨1, team, w.2.1 + i⟩ : Place)).zip w.2.2)) s

/-- The value of a core's tile-queue timeline: every number below those of the entries that have not completed (07 R221). -/
def Core.tileValue (c : Core) : Nat :=
  match c.tq.map (·.num) with
  | [] => c.tqNext - 1
  | x :: r => r.foldl min x - 1

/-- An entry leaves the queue, and the timeline advances as far as it may. -/
def Core.dropEntry (c : Core) (num : Nat) : Core :=
  let c1 := { c with tq := c.tq.filter fun x => x.num != num }
  { c1 with tqDone := c1.tileValue }

/-- `TILE_QUEUE_COMPLETE` (R441, R270): the entry's writes, its event, its gang's TA counter and the core's timeline. -/
def execTileQueueComplete (s : State) : Out :=
  match (s.coreAt s.subj).tq.find? fun e => e.started && decide (e.finish ≤ (s.coreAt s.subj).cyc) with
  | none => .next s
  | some e =>
    let s1 := s.queueWrites e.team e.out
    let s2 := match e.event with
      | some v => s1.recordProv e.gang v e.sord e.lck
      | none => s1
    .next ((s2.modGang e.gang fun g => { g with flTA := finishFlight e.num g.flTA }).modCore s.subj fun c => c.dropEntry e.num)

end Sys2Proof.Machine
end

