-- ==== Sys2Proof/Machine/Engines.lean ====
section
/-! DEFINITION. The Beaver and the Badger as agents (spec/15_isa_tile_copy_pool.md R447 to R452; spec/03_pool.md R82 to R88), mapped
regions (spec/14 R409 to R411) and samples (spec/09 R265). -/

namespace Sys2Proof.Machine

/-! ### Copies (R448, R451, R452) -/

/-- `COPY_PART_ARRIVE` (R447, R448). -/
def execCopyPartArrive (gang team part p flight : Nat) (kind : BitVec 2) (sup : Bool) (lck : W64) (sord : BitVec 24) (desc : List Byte)
    (s : State) : Out :=
  .next (s.addPart s.subj team p { part := part, gang := gang, flight := flight, kind := kind, sup := sup, lck := lck, sord := sord, desc := desc })

/-- Step 1 of R452: the follow-on `tmma` enters the tile array when that is free, before the quarters (R436); its operands are read as they then
stand. -/
def State.copyFollow (s : State) (core : Nat) (c : Copy) : State :=
  let k := s.coreAt core
  if k.cyc < k.tileFree then s.laterOn core (k.tileFree - k.cyc) (.on core) (.copyComplete c.team c.num)
  else
    (s.modCore core fun x => { x.modCopy c.num c.ctx fun y =>
        { y with follow := c.head.map (s.followOn c.team), due := k.cyc + 24 } with tileFree := k.cyc + 16 }).laterOn core 24 (.on core)
      (.copyComplete c.team c.num)

/-- The follow-on reaches its result latency: its tile is written, with its event in the gang of part 0. -/
def State.copyFollowed (s : State) (c : Copy) : State :=
  match c.follow, c.supplied.find? fun p => p.part == 0 with
  | some r, some p =>
    let s1 := s.modTeam c.team fun t => { t with tile := stWrite t.tile r.1 r.2.1 }
    match r.2.2 with
    | some e => s1.recordProv p.gang e p.sord p.lck
    | none => s1
  | _, _ => s

/-- Steps 2 to 4 of R452: the status record, the semaphore and the barrier that part 0 names. -/
def State.copySignals (s : State) (core : Nat) (c : Copy) : State :=
  match c.head with
  | none => s
  | some d =>
    let full := d.flags.testBit 3 && decide (65535 ≤ ((s.coreAt core).semAt d.sem).count)
    let bs := c.statusBytes (c.flags ||| (if full then 16 else 0))
    let s1 := s.setPlaces (((List.range 16).map fun i => (⟨1, c.team, d.status + i⟩ : Place)).zip bs)
    let s2 := if d.flags.testBit 3 && !full then s1.raiseSem core d.sem 1 else s1
    if !d.flags.testBit 4 then s2
    else
      let w := (s2.teamAt c.team).bar d.bar
      s2.setBar c.team d.bar (barCheck (barWord (barGenOf w) (barArrived w) (barExpect w) (barDrops w) (barTxPend w + 16383)))

/-- Steps 5 and 6 of R452: the timeline and the CP counters. -/
def State.copyEnds (s : State) (core : Nat) (c : Copy) : State :=
  let s1 := s.modCore core fun x => x.modCopy c.num c.ctx fun y => { y with ended := true, running := false }
  let s2 := s1.modCore core fun x => { x with bvDone := tset x.bvDone c.ctx (x.beaverValue c.ctx) }
  (c.supplied.foldl (fun s p => s.modGang p.gang fun g => { g with flCP := finishFlight p.flight g.flCP }) s2).wakeTlwaits

/-- A copy that has ended leaves its core's list, unless a failure report is still to come. -/
def State.dropCopy (s : State) (core : Nat) (c : Copy) : State :=
  s.modCore core fun x => { x with copies := x.copies.filter fun y => !(y.num == c.num && y.ctx == c.ctx) }

/-- The running copy of a team by number. -/
def State.copyOf (s : State) (core team num : Nat) (p : Copy → Bool) : Option Copy :=
  (s.coreAt core).copies.find? fun c => c.team == team && c.num == num && p c

/-- `COPY_COMPLETE` (R452): the last element has been written. A follow-on goes first; a failed copy skips it and reports to its gangs. -/
def execCopyComplete (team num : Nat) (s : State) : Out :=
  match s.copyOf s.subj team num fun c => c.running with
  | none => .next s
  | some c =>
    if c.follow.isSome && decide ((s.coreAt s.subj).cyc < c.due) then .next s
    else if c.follows && c.failed.isNone && c.follow.isNone then .next (s.copyFollow s.subj c) else
    let s1 := ((s.copyFollowed c).copySignals s.subj c).copyEnds s.subj c
    if c.failed.isSome then .next (s1.offCore (.on s.subj) (.copyFailureReport team num)) else .next (s1.dropCopy s.subj c)

/-- `COPY_FAILURE_REPORT` (R451): every gang that supplied a part will fault at its next commit point. -/
def execCopyFailureReport (team num : Nat) (s : State) : Out :=
  match s.copyOf s.subj team num fun c => c.ended with
  | none => .next s
  | some c =>
    match c.failed with
    | none => .next s
    | some e =>
      .next ((c.supplied.foldl (fun s p => s.modGang p.gang fun g => { g with engFaults := g.engFaults ++ [copyFaultRec e] }) s).dropCopy s.subj c)

/-! ### Regions (14 R409 to R411) -/

/-- `SMAP_COMPLETE` (R409): the region is installed and SF falls. -/
def execSmapComplete (team region : Nat) (s : State) : Out :=
  let s1 := s.modTeam team fun t => { t with regions := t.regions.map fun r => if r.num = region then { r with pending := false } else r }
  .next ((s1.liveGangs team).foldl (fun s p => s.modGang p.1 fun g => { g with flSF := finishFlight region g.flSF }) s1)

/-- `REGION_WRITEBACK_COMPLETE` (R410, R411): SF falls; a region that `sunmap` removes is gone. -/
def execRegionWritebackComplete (gang team region : Nat) (s : State) : Out :=
  .next ((s.modTeam team fun t => { t with regions := t.regions.filter fun r => !(r.num == region && r.leaving) }).modGang gang fun g =>
    { g with flSF := finishFlight region g.flSF })

/-! ### Badger operations (03 R82 to R87) -/

/-- The lines of the pool under a range of an operation. -/
def badgerSpan (o : BadgerOp) (va n : Nat) : List Nat :=
  if n = 0 then [] else ((List.range ((n + 255) / 256 + 1)).map fun k => o.addr (va + min (256 * k) (n - 1)) / 256).eraseDups

/-- The lines that an operation reads and writes (R84): each is a near operation at its home (R75). -/
def State.badgerLines (s : State) (o : BadgerOp) : List Nat :=
  let len := o.len.toNat
  let src := o.src.toNat
  let row := fun (r : Nat) => badgerSpan o (src + r * o.stride.toNat) len
  if len = 0 then []
  else (badgerSpan o o.dst.toNat (if o.kind = .cmp then len else o.outLen) ++ match o.kind with
    | .fill => []
    | .copy | .cmp => badgerSpan o src len
    | .redx => (List.range o.n.toNat).flatMap row
    | .gath =>
      let index := fun (p : Nat) => natOf ((List.range 4).map fun i => s.poolByte (o.addr (o.idx.toNat + 4 * p + i)))
      badgerSpan o o.idx.toNat (4 * o.n.toNat) ++
        ((List.range o.n.toNat).map index).flatMap fun i => if i < o.bound.toNat then row i else []).eraseDups

/-- The requests of a Badger counted for the pages that they reach (R79, R81). -/
def State.badgerRequests (s : State) (home : Nat) (lines : List Nat) : State :=
  ((lines.map (· / 512)).eraseDups).foldl (fun s p => (s.unpin p).monitor (s.homeOf p) (home / 2) p) s

/-- An operation that comes from another package's home goes out on the request channel (02 R43). -/
def State.sendBadger (s : State) (o : BadgerOp) (home : Nat) : State :=
  if home / 8 = s.self then s else s.message (some (s.gangDie o.gang % 4)) (home / 8) (some (home % 8 / 2)) 0 none "BADGER" [w64 o.gang]

/-- `BADGER_OPERATION` (R83, R84): once its lines are clear (R75), the operation takes its number and is performed; at a lost home it ends
failed (02 R64). -/
def execBadgerOperation (op : BadgerOp) (s : State) : Out :=
  let k := s.leadHome op
  let lines := (s.badgerLines op).filter fun l => !s.stackLost (s.homeOf (l / 512))
  let clear := if s.stackLost k then (true, s) else s.nearClearAll lines
  if !clear.1 then .next (clear.2.later 1 .none (.badgerOperation op))
  else
    let s0 := (clear.2.sendBadger op k).badgerRequests k lines
    let n := tget (s0.ctxAt op.ctx).badgerNext k 0 + 1
    let s1 := s0.modCtx op.ctx fun c => { c with badgerNext := tset c.badgerNext k n }
    let r0 : BadgerRun := { stack := k, num := n, op := op }
    let r := if s1.stackLost k then (({ r0 with status := .homeLost } : BadgerRun), s1) else s1.badgerPerform r0
    .next (({ r.2 with badgerOps := r.2.badgerOps ++ [r.1] } : State).offCore .none (.badgerComplete k op.ctx n r.1.status))

/-- A Badger's timeline of a context: all numbers below the oldest operation that has not written its record. -/
def State.badgerValue (s : State) (ctx stack : Nat) : Nat :=
  match (s.badgerOps.filter fun r => r.stack == stack && r.op.ctx == ctx).map (·.num) with
  | [] => tget (s.ctxAt ctx).badgerNext stack 0
  | x :: r => r.foldl min x - 1

/-- `BADGER_COMPLETE` (R87): the completion record, then the timeline; a failed operation is reported to its gang. -/
def execBadgerComplete (stack ctx num : Nat) (e : EndStatus) (s : State) : Out :=
  match s.badgerOps.find? fun r => r.stack == stack && r.op.ctx == ctx && r.num == num with
  | none => .next s
  | some r =>
    let r1 : BadgerRun := { r with status := e }
    let line := r.op.addr r.op.status.toNat / 256
    let clear := if s.stackLost (s.homeOf (line / 512)) then (true, s) else s.nearClear line
    if !clear.1 then .next (clear.2.later 1 .none (.badgerComplete stack ctx num e)) else
    let s1 := (clear.2.badgerWrite r.op r.op.status.toNat r1.bytes).2
    let s2 : State := { s1 with badgerOps := s1.badgerOps.filter fun x => !(x.stack == stack && x.op.ctx == ctx && x.num == num) }
    let s3 := (s2.modCtx ctx fun c => { c with badger := tset c.badger stack (s2.badgerValue ctx stack) }).wakeTlwaits
    .next (if e = .done then s3 else s3.offCore .none (.badgerFailureReport r.op.gang stack num e))

/-- `BADGER_FAILURE_REPORT` (01 R36, 02 R64): the gang faults at its next commit point. -/
def execBadgerFailureReport (gang stack num : Nat) (e : EndStatus) (s : State) : Out :=
  let _ := (stack, num)
  match e with
  | .done => .next s
  | .homeLost => .next (s.modGang gang fun g => { g with engFaults := g.engFaults ++ [blockFault 8 0 allLanes []] })
  | .memUncorrectable => .next (s.modGang gang fun g => { g with engFaults := g.engFaults ++ [blockFault 9 0 allLanes []] })

/-! ### Samples (09 R265) -/

/-- The subject of a core's sample chain of a session. -/
def sampleSubj (num ctx core : Nat) : Nat := (64 * num + ctx) * 1024 + core

/-- `SAMPLE_DUE` (R265): every resident gang of the context on the core is marked; the reason is that of this cycle. The next sample falls due
one period of the core's cycles later. -/
def execSampleDue (s : State) : Out :=
  let core := s.subj % 1024
  let ctx := s.subj / 1024 % 64
  match (s.ctxAt ctx).trace with
  | none => .next s
  | some t =>
    if t.closing.isSome || t.period = 0 || t.num ≠ s.subj / 65536 || !(t.evmask.getLsbD 0) then .next s
    else
      let s1 := s.laterOn core t.period (.on s.subj) .sampleDue
      if (s.partAt (partOf core)).owner ≠ some ctx then .next s1
      else
        let ns := ((s.residents core).map (·.1)).filter fun n => !((s.coreAt core).mark.any fun x => x.1 == n)
        .next (s1.modCore core fun c => { c with mark := c.mark ++ ns.map fun n => (n, 256) })

end Sys2Proof.Machine
end

