-- ==== Sys2Proof/Machine/Distribution.lean ====
section
/-! DEFINITION. Launches and distribution (spec/05_distribution.md): the launch record's checks, splitting down the tree, placement,
core queues and admission, stealing, tasks, counting and completion. -/

namespace Sys2Proof.Machine

/-! ### The launch record (R127 to R131) -/

/-- A level: EXTENT, DOMAIN and SCOPE (111 acts as 110). -/
structure Level where
  extent : Nat
  domain : Nat
  scope : Nat
  deriving DecidableEq, Repr

/-- The levels of a launch record. -/
def levelsOf (lr : List Byte) : List Level :=
  (List.range (fieldOf lr 25 1 % 8 + 1)).map fun l =>
    let o := 200 + 16 * l
    { extent := fieldOf lr o 8, domain := fieldOf lr (o + 8) 1 % 8, scope := min 6 (fieldOf lr (o + 9) 1 % 8) }

/-- The product of some extents. -/
def extentProduct (l : List Level) : Nat := l.foldl (fun a x => a * x.extent) 1

/-- The team levels. -/
def teamLevels (lr : List Byte) : List Level := (levelsOf lr).filter fun x => x.domain != 0

/-- DOMAIN codes never increase from one level to the next. -/
def domainsFall : List Level → Bool
  | x :: y :: r => decide (y.domain ≤ x.domain) && domainsFall (y :: r)
  | _ => true

/-- GANGS, CLUSTER and the other fields by offset. -/
def lrGangs (lr : List Byte) : Nat := fieldOf lr 152 1
/-- CLUSTER. -/
def lrCluster (lr : List Byte) : Nat := fieldOf lr 153 1
/-- Seed form. -/
def lrSeed (lr : List Byte) : Bool := (fieldOf lr 24 1).testBit 0
/-- Placement by pool home. -/
def lrPlace (lr : List Byte) : Bool := (fieldOf lr 24 1).testBit 1
/-- No team of the launch is stolen. -/
def lrNoSteal (lr : List Byte) : Bool := (fieldOf lr 24 1).testBit 6

/-- Cores of a context on a C-die, in increasing number: those of its partitions that are in service (R133, R197). -/
def State.ctxCores (s : State) (ctx die : Nat) : List Nat :=
  ((List.range 144).map fun c => 144 * die + c).filter fun c =>
    let p := s.partAt (partOf c)
    p.owner == some ctx && p.taking.isNone && !p.releasing && !(s.coreAt c).fenced

/-- C-dies on which a context has cores; in reduced service C-die 0 alone (01 R27). -/
def State.ctxDies (s : State) (ctx : Nat) : List Nat :=
  (if s.pkg.bring == .reduced then [0] else [0, 1, 2, 3]).filter fun d => !(s.ctxCores ctx d).isEmpty

/-- Core groups among some cores. -/
def groupsIn (cores : List Nat) : List Nat := (cores.map (· / 8)).eraseDups

/-- Core groups of a context on a die that can hold a cluster (01 R11). -/
def State.groupsFor (s : State) (ctx die cluster : Nat) : List Nat :=
  let cs := s.ctxCores ctx die
  (groupsIn cs).filter fun g => decide (cluster ≤ (cs.filter fun c => c / 8 == g).length)

/-- Packages in which a context holds partitions (R133); in reduced service, and for a context created in it, this one alone
(01 R27, R28). -/
def State.ctxPackages (s : State) (ctx : Nat) : List Nat :=
  (List.range 64).filter fun n =>
    if n = s.self then !(s.ctxDies ctx).isEmpty
    else !(s.ctxAt ctx).pkgOnly && (s.ctxAt ctx).want.getD n 0 != 0 && s.inDomain n && !s.pkg.lost.getLsbD n

/-- Some core group of a context can hold a cluster (R130, 01 R11): of this package's cores that it has or is to have, or in another package,
where each partition named holds whole groups. -/
def State.holdsCluster (s : State) (ctx cluster : Nat) : Bool :=
  let named := (s.ctxAt ctx).want.getD s.self 0
  let cs := (List.range 576).filter fun c =>
    let p := s.partAt (partOf c)
    !(s.coreAt c).fenced && (p.owner == some ctx || p.waits.contains ctx || p.taking == some ctx || named.testBit (partOf c))
  (groupsIn cs).any (fun g => decide (cluster ≤ (cs.filter fun c => c / 8 == g).length)) || (s.ctxPackages ctx).any fun n => n != s.self

/-- The C-dies of this package for a launch: those with a core group that can hold its clusters (01 R11). -/
def State.launchDies (s : State) (ctx cluster : Nat) : List Nat :=
  (s.ctxDies ctx).filter fun d => decide (cluster ≤ 1) || !(s.groupsFor ctx d cluster).isEmpty

/-- The cores of a die among which a launch is split: with clusters, those of the core groups that can hold one (01 R11). -/
def State.launchCores (s : State) (ctx die cluster : Nat) : List Nat :=
  let cs := s.ctxCores ctx die
  if cluster ≤ 1 then cs else cs.filter fun c => (s.groupsFor ctx die cluster).contains (c / 8)

/-- The subcode of `LR_INVALID` (R130): the lowest that applies, 0 for none; `holds` says that some core group can hold the cluster. -/
def lrCode (holds : Bool) (lr : List Byte) : Nat :=
  let f := fieldOf lr
  let ls := levelsOf lr
  let ts := teamLevels lr
  let g := lrGangs lr
  let c := lrCluster lr
  if ls.any fun x => x.extent == 0 || decide (2 ^ 40 < x.extent) || x.domain == 7 then 1
  else if !domainsFall ls || ls.any fun x => decide (x.scope < x.domain) then 2
  else if extentProduct (ls.filter fun x => x.domain == 0) != g || g == 0 || decide (32 < g) then 3
  else if 256 < f 154 2 ∨ 256 < f 156 2 ∨ f 158 2 < 16 ∨ 256 < f 158 2 ∨ 512 < f 160 2 ∨ c = 0 ∨ 8 < c ∨ 3072 < g * f 158 2 then 4
  else if f 8 8 % 16 ≠ 0 ∨ f 32 8 % 64 ≠ 0 ∨ f 48 8 % 64 ≠ 0 ∨ f 40 8 % 16 ≠ 0 ∨ f 56 4 % 64 ≠ 0 then 5
  else if 2 ^ 48 < extentProduct ts then 6
  else if f 164 4 ≠ 0 ∧ (f 164 4 < 64 ∨ 65536 < f 164 4) then 7
  else if 1 < c ∧ ((ts.getLast?.map fun x => decide (x.domain = 1 ∧ x.extent = c)).getD false = false ∨
      !holds) then 8
  else if lrSeed lr ∧ (ls.length ≠ 1 ∨ (ls.map (·.extent)) ≠ [1]) then 9
  else 0

/-- The subcode of `LR_INVALID` for a context. -/
def State.lrSub (s : State) (ctx : Nat) (lr : List Byte) : Nat := lrCode (s.holdsCluster ctx (lrCluster lr)) lr

/-- Digits of a team index, level 0 first (R131). -/
def digitsOf (exts : List Nat) (i : Nat) : List Nat :=
  (exts.foldr (fun e (a : Nat × List Nat) => (a.1 / max 1 e, (a.1 % max 1 e) :: a.2)) (i, [])).2

/-! ### Splitting (R133, R134) -/

/-- `Split`: `lv` are the levels bound to the children's domain that are not marked split, outermost first. The limits of a level are
those of the set. -/
def splitSet (digit : Nat → Nat → Nat) : List Nat → List Nat → List Nat → List (Nat × List Nat)
  | [], set, kids =>
    match kids with
    | k :: _ => [(k, set)]
    | [] => []
  | l :: rest, set, kids =>
    let ds := set.map (digit l)
    let lo := ds.foldl min (ds.headD 0)
    let n := ds.foldl max 0 + 1 - lo
    let c := kids.length
    if set.isEmpty || c = 0 then []
    else if c ≤ n then
      (List.range c).map fun i =>
        (kids.getD i 0, set.filter fun t => decide (lo + i * n / c ≤ digit l t) && decide (digit l t < lo + (i + 1) * n / c))
    else
      (List.range n).flatMap fun j =>
        splitSet digit rest (set.filter fun t => digit l t == lo + j) ((kids.drop (j * c / n)).take ((j + 1) * c / n - j * c / n))

/-- The team levels bound to a domain that may be split: under `CLUSTER` above 1 not the innermost (R134). -/
def levelsFor (lr : List Byte) (dom : Nat) : List Nat :=
  let ts := teamLevels lr
  let n := if 1 < lrCluster lr then ts.length - 1 else ts.length
  (List.range n).filter fun i => (ts.map (·.domain)).getD i 0 == dom

/-- The digit of a team index at a team level. -/
def teamDigit (lr : List Byte) (l t : Nat) : Nat := (digitsOf ((teamLevels lr).map (·.extent)) t).getD l 0

/-- A die's set of teams split among core groups and cores (R133). -/
def State.splitCores (s : State) (ctx die : Nat) (lr : List Byte) (teams : List Nat) : List (Nat × List Nat) :=
  let cs := s.launchCores ctx die (lrCluster lr)
  let dg := teamDigit lr
  let cores := fun (ts : List Nat) (ks : List Nat) => splitSet dg (levelsFor lr 1) ts ks
  if (teamLevels lr).any fun x => x.domain == 2 then
    (splitSet dg (levelsFor lr 2) teams (groupsIn cs)).flatMap fun p => cores p.2 (cs.filter fun c => c / 8 == p.1)
  else cores teams cs

/-- Where the root sends a set: a C-die of this package by number, or 4 + n for package n. -/
def State.splitTree (s : State) (ctx : Nat) (lr : List Byte) (teams : List Nat) : List (Nat × List Nat) :=
  let dg := teamDigit lr
  let pkgs := s.ctxPackages ctx
  let down := fun (p : Nat × List Nat) =>
    if p.1 = s.self then splitSet dg (levelsFor lr 3) p.2 (s.launchDies ctx (lrCluster lr)) else [(4 + p.1, p.2)]
  if (pkgs.all fun n => n == s.self) || (s.ctxAt ctx).root != s.self then down (s.self, teams)
  else (splitSet dg (levelsFor lr 5) teams ((pkgs.map (· / 4)).eraseDups)).flatMap fun t =>
    (splitSet dg (levelsFor lr 4) t.2 (pkgs.filter fun n => n / 4 == t.1)).flatMap down

/-! ### Placement (R135) -/

/-- The child for a home die: the die itself, or the lowest of its package, its tray, the rack. -/
def State.nearest (s : State) (ctx pkg die : Nat) : Option Nat :=
  let pkgs := s.ctxPackages ctx
  let enter := fun (n : Nat) => if n = s.self then (s.ctxDies ctx).headD 0 else 4 + n
  if pkgs.contains pkg then some (if pkg = s.self ∧ (s.ctxDies ctx).contains die then die else enter pkg)
  else match pkgs.find? fun n => n / 4 == pkg / 4 with
    | some n => some (enter n)
    | none => pkgs.head?.map enter

/-- The child for a placement address; none where the address is unmapped or its page not valid. -/
def State.placeAt (s : State) (ctx a : Nat) : Option Nat :=
  match s.walkVa ctx (a % 2 ^ 56) with
  | .error _ => none
  | .ok l =>
    if entValid (s.entryOf (pageOf l.pa)) then
      let k := s.homeOf (pageOf l.pa)
      s.nearest ctx (k / 8) (k % 8 / 2)
    else none

/-- The placement address of a team (R135), modulo 2^56. -/
def placeAddr (lr : List Byte) (t : Nat) : Nat :=
  let ds := digitsOf ((teamLevels lr).map (·.extent)) t
  (((ds.zip (List.range 8)).foldl (fun a p => a + p.1 * fieldOf lr (88 + 8 * p.2) 8) (fieldOf lr 80 8)) % 2 ^ 64) % 2 ^ 56

/-- Where each team of a set goes. -/
def State.routeTeams (s : State) (ctx : Nat) (lr : List Byte) (teams : List Nat) : List (Nat × List Nat) :=
  let tree := s.splitTree ctx lr teams
  if !lrPlace lr then tree
  else
    let c := max 1 (lrCluster lr)
    let go := teams.map fun t =>
      let first := if 1 < c then t / c * c else t
      ((s.placeAt ctx (placeAddr lr first)).getD (((tree.find? fun p => p.2.contains t).map (·.1)).getD 0), t)
    let dests := (go.map (·.1)).eraseDups
    dests.map fun d => (d, (go.filter fun p => p.1 == d).map (·.2))

/-! ### Core queues (R134, R483) -/

/-- A team put at the end of a core's queue. -/
def State.enqueue (s : State) (core team : Nat) : State :=
  (s.modCore core fun c => { c with queue := c.queue ++ [team] }).modTeam team fun t => { t with core := core }

/-- A team taken out of every queue. -/
def State.unqueue (s : State) (team : Nat) : State :=
  s.modCore (s.teamAt team).core fun c => { c with queue := c.queue.filter fun n => n != team }

/-- A core's queued teams of a context. -/
def State.queuedFor (s : State) (core ctx : Nat) : List Nat :=
  (s.coreAt core).queue.filter fun n => (s.launchAt (s.teamAt n).launch).ctx == ctx

/-- Cores of a context of which each looks at its queue. -/
def State.kick (s : State) (ctx : Nat) : State :=
  ((s.ctxDies ctx).flatMap fun d => s.ctxCores ctx d).foldl (fun s c => s.soon (.on c) .teamAdmit) s

/-- A team of a grid launch by its index. -/
def gridTeam (launch : Nat) (lr : List Byte) (idx core : Nat) : Team :=
  let f := fieldOf lr
  let c := lrCluster lr
  { launch := launch, kind := .grid, ident := w64 idx, program := w64 (f 0 8), entry := w64 (f 8 8), args := w64 (f 16 8),
    exitrec := w64 (f 48 8), stride := f 56 4, gangs := lrGangs lr, stashKiB := f 154 2, tileKiB := f 156 2, quota := f 158 2,
    barriers := f 160 2, cluster := c,
    rank := if 1 < c then idx % c else 0, core := core }

/-- The seed team (R140): one gang. -/
def seedTeam (launch : Nat) (lr : List Byte) (core : Nat) : Team :=
  { gridTeam launch lr 0 core with kind := .seed, gangs := 1, cluster := 1, rank := 0 }

/-- A team entered in a core's queue. -/
def State.addTeam (s : State) (core : Nat) (t : Team) : State :=
  ({ s with nextId := s.nextId + 1, teams := tset s.teams s.nextId t } : State).enqueue core s.nextId

/-- The mates of every cluster among some teams set, by rank. -/
def State.setMates (s : State) (ns : List Nat) : State :=
  ns.foldl (fun s n =>
    let t := s.teamAt n
    if t.cluster ≤ 1 then s
    else
      let c := t.ident.toNat / t.cluster
      let ms := ns.filter fun m => (s.teamAt m).ident.toNat / t.cluster == c
      s.modTeam n fun t => { t with mates := (List.range t.cluster).filterMap fun r => ms.find? fun m => (s.teamAt m).rank == r }) s

/-- Grid teams entered in the queues that a split gives them. -/
def State.queueTeams (s : State) (launch : Nat) (lr : List Byte) (l : List (Nat × List Nat)) : State :=
  let first := s.nextId
  let s1 := l.foldl (fun s p => p.2.foldl (fun s t => s.addTeam p.1 (gridTeam launch lr t p.1)) s) s
  s1.setMates ((List.range (s1.nextId - first)).map (first + ·))

/-- The queue of R483 for a team on a die: that of the context's core with the fewest queued teams. -/
def State.leastCore (s : State) (ctx die : Nat) : Option Nat :=
  let load := fun (c : Nat) => (s.queuedFor c ctx).length
  match s.ctxCores ctx die with
  | [] => none
  | c :: r => some (r.foldl (fun b x => if load x < load b then x else b) c)

/-- The cores of R483 for a cluster on a die. -/
def State.leastGroup (s : State) (ctx die cluster : Nat) : List Nat :=
  let cs := s.ctxCores ctx die
  let load := fun (g : Nat) => sumOf (fun c => (s.queuedFor c ctx).length) (cs.filter fun c => c / 8 == g)
  match s.groupsFor ctx die cluster with
  | [] => []
  | g :: r =>
    let b := r.foldl (fun b x => if load x < load b then x else b) g
    (cs.filter fun c => c / 8 == b).take cluster

/-- The members of a team's cluster among some teams, by rank; the team alone outside a cluster. -/
def State.clusterAmong (s : State) (n : Nat) (ns : List Nat) : List Nat :=
  let t := s.teamAt n
  if t.cluster ≤ 1 then [n] else t.mates.filter fun m => m == n || ns.contains m

/-- Teams placed on a die one at a time (R483): what is left of a cluster goes whole, with its first member, to distinct cores of a group. On a die
where no group can hold it, its queue is that of a single team. -/
def State.placeTeams (s : State) (ctx die : Nat) (ns : List Nat) : State :=
  ns.foldl (fun s n =>
    let ms := s.clusterAmong n ns
    let cs := s.leastGroup ctx die ms.length
    if 1 < ms.length then
      if ms.head? ≠ some n then s
      else if cs.isEmpty then
        let c := (s.leastCore ctx die).getD (s.teamAt n).core
        (ms.foldl (fun s m => s.enqueue c m) s).soon (.on c) .teamAdmit
      else (ms.zip cs).foldl (fun s p => (s.enqueue p.2 p.1).soon (.on p.2) .teamAdmit) s
    else
      let c := (s.leastCore ctx die).getD (s.teamAt n).core
      (s.enqueue c n).soon (.on c) .teamAdmit) s

/-! ### Launches in several packages (R133, R146) -/

/-- The number by which a package names a launch of another package's root. -/
def farLaunch (root id : Nat) : Nat := 2 ^ 32 * (1 + root) + id

/-- The number by which the root knows a launch. -/
def rootNumber (id : Nat) : Nat := id % 2 ^ 32

/-- Teams of a launch sent to another package (R133, R137): its record goes with them, and their units with the teams (R146). The words: number,
context, `TAG`, service level, record address, the record, the team indices. -/
def State.sendWork (s : State) (n id : Nat) (teams : List Nat) : State :=
  let l := s.launchAt id
  let ws := [w64 (rootNumber id), w64 l.ctx, l.tag.setWidth 64, l.svc.setWidth 64, l.lrAddr] ++
    (List.range 64).map (fun k => w64 (fieldOf l.lr (8 * k) 8)) ++ teams.map w64
  (s.modLaunch id fun l => { l with sent := l.sent ++ teams.map fun t => (n, t) }).tell n "LAUNCH" ws

/-- Units of a launch that pass from this package to another (R146); at the root their part is kept for that package. -/
def State.unitsAway (s : State) (n id part : Nat) (k : Int) : State :=
  let s1 := if (s.ctxAt (s.launchAt id).ctx).root = s.self then s.addUnits id (8 + n) k
    else s.tell (s.ctxAt (s.launchAt id).ctx).root "COUNTER_PART_REPORT" [w64 (rootNumber id), w64 (8 + n), 0]
  s1.addUnits id part (-k)

/-! ### Launches start (R130, R140, R145, R152) -/

/-- Body of a launch record of a trace (09 R267). -/
def launchBody (addr : W64) (status : Nat) : List Byte := bytesOf 8 addr.toNat ++ bytesOf 1 status

/-- One launch of a packet started; one whose record is invalid completes with no team started. The standby hears of it, so that it can take over
(02 R58). -/
def State.startLaunch (s : State) (p : Packet) (graph : Option Nat) (order : List Nat) (id : Nat) (addr : W64) (lr : List Byte) : State :=
  let ctx := p.queue
  let sub := s.lrSub ctx lr
  let n := if lrSeed lr then 1 else extentProduct (teamLevels lr)
  let l : Launch :=
    { ctx := ctx, queue := p.queue, packet := p.num, tag := tagOf p.words, lr := lr, graph := graph,
      startAt := s.refTime, svc := s.pkg.service, lrAddr := addr, order := order, status := if sub = 0 then 0 else 2, sub := sub }
  let s1 := ({ s with launches := tset s.launches id l } : State).traceRecord ctx 3 4 0 l.tag (launchBody addr 0)
  let c := s.ctxAt ctx
  let s2 := if c.standby = 64 || sub ≠ 0 then s1 else s1.sendWork c.standby id []
  if sub ≠ 0 then s2.soon (.on id) .launchComplete
  else (s2.addUnits id 4 n).soon .none (.split id none (List.range n))

/-- The launches of a packet started together. -/
def State.startPacket (s : State) (p : Packet) (recs : List (W64 × List Byte)) (graph : Option Nat) : State :=
  let first := s.nextId
  let ids := (List.range recs.length).map (first + ·)
  let s1 := ({ s with nextId := first + recs.length } : State).modQueue p.queue fun q =>
    { q with accepted := q.accepted.map fun a => if a.num = p.num then { a with launches := ids } else a }
  (ids.zip recs).foldl (fun s x => s.startLaunch p graph (if graph.isSome then ids else []) x.1 x.2.1 x.2.2) s1

/-- Teams of a launch that the root of another package has sent (R133): the launch is entered where it is new, and the set is split here. -/
def State.acceptWork (s : State) (root : Nat) (ws : List W64) : State :=
  let w := fun (k : Nat) => (ws.getD k 0).toNat
  let id := farLaunch root (w 0)
  let teams := (ws.drop 69).map BitVec.toNat
  let l : Launch :=
    { ctx := w 1 % 64, queue := w 1 % 64, tag := (ws.getD 2 0).setWidth 32, svc := (ws.getD 3 0).setWidth 8, lrAddr := ws.getD 4 0,
      lr := wordBytes ((ws.drop 5).take 64), startAt := s.refTime }
  let s1 := if (tfind s.launches id).isSome then s else { s with launches := tset s.launches id l }
  if teams.isEmpty then s1 else (s1.addUnits id 4 teams.length).soon .none (.split id none teams)

/-- `LAUNCH` (R113, R130); one that another package's root has sent brings teams of a launch to this package (R133). -/
def execLaunch (s : State) : Out :=
  if 128 ≤ s.pkt.queue then .next (s.acceptWork (s.pkt.queue - 128) s.pkt.words) else
  s.starting fun p s =>
    let q := s.queueAt p.queue
    let at_ := w64 (q.ringAt (q.head.toNat - 8 * p.words.length) + 8)
    s.startPacket p [(at_, wordBytes (p.words.drop 1))] none

/-- `GRAPH` (R113, R152). -/
def execGraph (s : State) : Out := s.starting fun p s => s.startPacket p (s.recordsOf p.words) (some s.nextId)

/-! ### `SPLIT` (R133 to R135, R140, R145) -/

/-- Where the seed team goes (R140): a C-die of this package by number, or 4 + n for package n, where its die is chosen. -/
def State.seedDie (s : State) (ctx : Nat) (lr : List Byte) : Nat :=
  let low := match (s.ctxPackages ctx).head? with
    | some n => if n = s.self || (s.ctxAt ctx).root != s.self then (s.ctxDies ctx).headD 0 else 4 + n
    | none => (s.ctxDies ctx).headD 0
  let place := if lrPlace lr then s.placeAt ctx (fieldOf lr 80 8) else none
  match place with
  | some d => if d < 4 || (s.ctxAt ctx).root == s.self then d else (s.ctxDies ctx).headD 0
  | none => low

/-- The package distributor's split; while the context holds no partition, or is frozen (02 R58), the set waits (01 R22). -/
def State.splitPackage (s : State) (id : Nat) (l : Launch) (teams : List Nat) : State :=
  if (s.ctxPackages l.ctx).isEmpty || (s.ctxAt l.ctx).frozen then s.modLaunch id fun l => { l with unsplit := l.unsplit ++ [teams] }
  else if lrSeed l.lr then
    let d := s.seedDie l.ctx l.lr
    let c := (s.ctxCores l.ctx d).headD 0
    if d < 4 then (((s.addTeam c (seedTeam id l.lr c)).addUnits id d 1).addUnits id 4 (-1)).soon (.on c) .teamAdmit
    else (s.sendWork (d - 4) id [0]).unitsAway (d - 4) id 4 1
  else
    (s.routeTeams l.ctx l.lr teams).foldl (fun s p =>
      if p.2.isEmpty then s
      else if p.1 < 4 then
        (s.modLaunch id fun l => { l with taken := (l.taken ++ p.2.map (teamDigit l.lr 0)).eraseDups }).soon .none (.split id (some p.1) p.2)
      else (s.sendWork (p.1 - 4) id p.2).unitsAway (p.1 - 4) id 4 p.2.length) s

/-- A die distributor's split. -/
def State.splitDie (s : State) (id : Nat) (l : Launch) (d : Nat) (teams : List Nat) : State :=
  if (s.ctxCores l.ctx d).isEmpty || (s.ctxAt l.ctx).frozen then s.soon .none (.split id none teams)
  else (((s.queueTeams id l.lr (s.splitCores l.ctx d l.lr teams)).addUnits id d teams.length).addUnits id 4 (-teams.length)).kick l.ctx

/-- `SPLIT` (R133 to R135): of the package, or of a C-die. -/
def execSplit (launch : Nat) (die : Option Nat) (teams : List Nat) (s : State) : Out :=
  match tfind s.launches launch with
  | none => .next s
  | some l => match die with
    | none => .next (s.splitPackage launch l teams)
    | some d => .next (s.splitDie launch l d teams)

/-- The sets of a context that wait for a partition split again. -/
def State.resplit (s : State) (ctx : Nat) : State :=
  s.launches.foldl (fun s p =>
    if p.2.ctx == ctx then
      p.2.unsplit.foldl (fun s ts => s.soon .none (.split p.1 none ts)) (s.modLaunch p.1 fun l => { l with unsplit := [] })
    else s) s

/-! ### Stealing (R137 to R139) -/

/-- Queued teams of a launch on some cores. -/
def State.queuedOf (s : State) (launch : Nat) (cores : List Nat) : List Nat :=
  cores.flatMap fun c => (s.coreAt c).queue.filter fun n => (s.teamAt n).launch == launch

/-- Cores of a die. -/
def dieCores (d : Nat) : List Nat := (List.range 144).map fun c => 144 * d + c

/-- The die of a requester or victim: a core queue, or 576 + d. -/
def stealDie (n : Nat) : Nat := if n < 576 then dieOf n else n - 576

/-- The launch for which a context's distributors steal: the first with queued teams that may be stolen. -/
def State.stealLaunch (s : State) (ctx : Nat) : Option Nat :=
  (s.launches.find? fun p => p.2.ctx == ctx && !lrNoSteal p.2.lr && !(s.queuedOf p.1 ((List.range 576))).isEmpty).map (·.1)

/-- Cores of a die whose queues hold, or may hold, teams of a context: a partition that is being taken keeps its queued teams open to stealing
(R154). -/
def State.queueCores (s : State) (ctx die : Nat) : List Nat :=
  (dieCores die).filter fun c => (s.ctxCores ctx die).contains c || !(s.queuedFor c ctx).isEmpty

/-- The requester of a package: its distributor is 640, and package n as a victim, or as a requester from outside, is 704 + n. -/
def pkgThief : Nat := 640

/-- The victims of a requester in their order (R137): the other core queues of a die, from its own number on and round; the other C-dies of the
package, then its distributor; the other packages of the tray, then those of other trays. -/
def State.victims (s : State) (ctx thief : Nat) : List Nat :=
  if thief < 576 then
    let cs := s.queueCores ctx (dieOf thief)
    (cs.filter fun c => decide (thief < c)) ++ cs.filter fun c => decide (c < thief)
  else if thief < pkgThief then
    (([0, 1, 2, 3].filter fun d => !(s.queueCores ctx d).isEmpty).map (576 + ·)).filter fun d => d != thief
  else
    let others := (s.ctxPackages ctx).filter fun n => n != s.self
    ((others.filter fun n => n / 4 == s.self / 4) ++ others.filter fun n => n / 4 != s.self / 4).map (704 + ·)

/-- A request entered with the others that reach the same victim now. -/
def askWith (now : Nat) (r : StealReq) : List Due → Option (List Due)
  | [] => none
  | d :: rest =>
    match d.ev with
    | .stealRequest (x :: xs) =>
      if d.time = now ∧ x.victim = r.victim then some ({ d with ev := .stealRequest (x :: xs ++ [r]) } :: rest)
      else (askWith now r rest).map fun l => d :: l
    | _ => (askWith now r rest).map fun l => d :: l

/-- A request sent: to a victim in this package, or as a message to another package. -/
def State.sendSteal (s : State) (r : StealReq) : State :=
  if 704 ≤ r.victim then s.tell (r.victim - 704) "STEAL_REQUEST" [w64 (rootNumber r.launch), w64 (704 + s.self)]
  else match askWith s.now r s.agenda with
    | some a => { s with agenda := a }
    | none => s.soon .none (.stealRequest [r])

/-- The victims that a requester has asked. -/
def State.setAsked (s : State) (thief : Nat) (vs : List Nat) : State := { s with stealing := tset s.stealing thief vs }

/-- A requester asks its next victim; a die distributor that has asked every die lets the package distributor ask, and a requester without
another victim waits to start its list again. -/
def State.askNext (s : State) (thief launch : Nat) : State :=
  let ctx := (s.launchAt launch).ctx
  let asked := tget s.stealing thief []
  match (s.victims ctx thief).find? fun v => !asked.contains v with
  | none =>
    let s1 := (s.setAsked thief asked).later 4096 (.on thief) .stealBackoff
    if 576 ≤ thief && thief < pkgThief && (tfind s.stealing pkgThief).isNone && !(s.victims ctx pkgThief).isEmpty then
      (s1.setAsked pkgThief []).soon (.on pkgThief) .stealBackoff
    else s1
  | some v => (s.setAsked thief (asked ++ [v])).sendSteal ⟨thief, v, launch⟩

/-- Could the core take a team like the first queued one of a launch, with none queued for it? -/
def State.hungry (s : State) (core launch : Nat) : Bool :=
  let ctx := (s.launchAt launch).ctx
  (s.queuedFor core ctx).isEmpty && match s.queuedOf launch (List.range 576) with
    | n :: _ => s.fits core (s.teamAt n)
    | [] => s.fits core (gridTeam launch (s.launchAt launch).lr 0 core)

/-- The launch of another package's root, or one with teams on other packages, for which the package may ask others. -/
def State.farSteal (s : State) (ctx : Nat) : Option Nat :=
  (s.launches.find? fun p => p.2.ctx == ctx && !lrNoSteal p.2.lr && !lrSeed p.2.lr &&
    decide (1 < (s.ctxPackages ctx).length)).map (·.1)

/-- A core without work looks for some: from its die's other queues, else its die distributor asks other dies and then, through the package
distributor, other packages. -/
def State.seek (s : State) (core : Nat) : State :=
  match (s.partAt (partOf core)).owner with
  | none => s
  | some ctx => match (s.stealLaunch ctx).or (s.farSteal ctx) with
    | none => s
    | some l =>
      if !s.hungry core l then s
      else
        let thief := if (s.queuedOf l (dieCores (dieOf core))).isEmpty then 576 + dieOf core else core
        if (tfind s.stealing thief).isSome then s else s.askNext thief l

/-- What a team's levels must allow for a move to a requester (R138): core group, die, package, tray or rack. -/
def State.moveScope (s : State) (r : StealReq) (core : Nat) : Nat :=
  if 704 ≤ r.thief then (if (r.thief - 704) / 4 = s.self / 4 then 5 else 6)
  else if 576 ≤ r.thief then 4
  else if r.thief / 8 = core / 8 then 2 else 3

/-- A requester's cores can hold a cluster of a size (01 R11). -/
def State.thiefHolds (s : State) (r : StealReq) (cluster : Nat) : Bool :=
  let ctx := (s.launchAt r.launch).ctx
  decide (cluster ≤ 1) || decide (640 ≤ r.thief) ||
    (if r.thief < 576 then (s.groupsFor ctx (dieOf r.thief) cluster).contains (r.thief / 8)
     else !(s.groupsFor ctx (r.thief - 576) cluster).isEmpty)

/-- May a queued team move to a requester: no `SCOPE` of its levels keeps it out (R138)? Tasks, which have no levels, stay in the package. -/
def State.movable (s : State) (r : StealReq) (n : Nat) : Bool :=
  let t := s.teamAt n
  let need := s.moveScope r t.core
  t.launch == r.launch && s.thiefHolds r t.cluster &&
    (if t.kind == .task then decide (need ≤ 4)
     else (teamLevels (s.launchAt r.launch).lr).all fun x => decide (need ≤ x.scope))

/-- The order of queued teams: by team index; tasks, which have none, by arrival. -/
def State.stealKey (s : State) (n : Nat) : Nat := let t := s.teamAt n; if t.kind == .task then n else t.ident.toNat

/-- Numbers in falling order of their keys. -/
def insertFalling (key : Nat → Nat) (n : Nat) : List Nat → List Nat
  | [] => [n]
  | x :: r => if key x < key n then n :: x :: r else x :: insertFalling key n r

/-- Teams taken from a falling list until there are enough, at most 64, each with the queued members of its cluster. -/
def State.takeWhole (s : State) (want : Nat) : List Nat → List Nat → List Nat
  | [], got => got
  | n :: rest, got =>
    let t := s.teamAt n
    let unit := if t.cluster ≤ 1 then [n] else t.mates.filter fun m => m == n || (s.coreAt (s.teamAt m).core).queue.contains m
    if want ≤ got.length then got
    else if got.contains n || 64 < got.length + unit.length then State.takeWhole s want rest got
    else State.takeWhole s want rest (got ++ unit)

/-- The teams that a victim gives: the upper half by index, at most 64, clusters whole, in increasing index. -/
def State.stolen (s : State) (r : StealReq) : List Nat :=
  let cores := if r.victim < 576 then [r.victim] else if r.victim < 640 then dieCores (r.victim - 576) else List.range 576
  let q := (cores.flatMap fun c => (s.coreAt c).queue).filter (s.movable r)
  let sorted := q.foldl (fun a n => insertFalling s.stealKey n a) []
  if q.length < 2 ∨ lrNoSteal (s.launchAt r.launch).lr ∨ (s.ctxAt (s.launchAt r.launch).ctx).frozen then []
  else ((s.takeWhole ((q.length + 1) / 2) sorted []).foldl (fun a n => insertFalling s.stealKey n a) []).reverse

/-- Teams that a requester of another package has been given leave this one: their indices go out, their units with them (R137, R146). -/
def State.giveAway (s : State) (r : StealReq) (ts : List Nat) : State :=
  let n := r.thief - 704
  let ids := ts.map fun t => (s.teamAt t).ident.toNat
  let s1 := ts.foldl (fun s t =>
    let d := dieOf (s.teamAt t).core
    ({ s with teams := tdel s.teams t } : State).unitsAway n r.launch d 1) s
  (s1.modLaunch r.launch fun l => { l with sent := l.sent ++ ids.map fun i => (n, i) }).tell n "STEAL_REPLY" (w64 (rootNumber r.launch) :: w64 (704 + s.self) :: ids.map w64)

/-- `STEAL_REQUEST` (R138, R139): a victim grants one steal in an arbitration cycle; of the requests of that cycle the lowest requester is
served. -/
def execStealRequest (reqs : List StealReq) (s : State) : Out :=
  match reqs with
  | [] => .next s
  | r :: rest =>
    let win := rest.foldl (fun a x => if x.thief < a.thief then x else a) r
    let ts := if tfind s.granted r.victim = some s.now then [] else s.stolen win
    let s1 := ts.foldl State.unqueue (if ts.isEmpty then s else { s with granted := tset s.granted r.victim s.now })
    .next (reqs.foldl (fun s x =>
      let got := if x = win then ts else []
      if 704 ≤ x.thief then s.giveAway x got else s.soon .none (.stealReply x got)) s1)

/-- Teams that another package has given, by their indices: entered on the C-die that can hold them (R137, R138). -/
def State.takeFar (s : State) (r : StealReq) (idxs : List Nat) : State :=
  let l := s.launchAt r.launch
  let d := ((s.launchDies l.ctx (lrCluster l.lr)).find? fun d => (s.ctxCores l.ctx d).any fun c => s.hungry c r.launch).getD
    ((s.ctxDies l.ctx).headD 0)
  let first := s.nextId
  let c := (s.ctxCores l.ctx d).headD (144 * d)
  let s1 := idxs.foldl (fun s i => { s with nextId := s.nextId + 1, teams := tset s.teams s.nextId (gridTeam r.launch l.lr i c) }) s
  let ns := (List.range idxs.length).map (first + ·)
  let s2 := s1.modLaunch r.launch fun l => { l with sent := l.sent.filter fun x => !idxs.contains x.2 }
  ((s2.setMates ns).addUnits r.launch d idxs.length).placeTeams l.ctx d ns

/-- `STEAL_REPLY` (R138, R139, R483): the teams move, or the requester waits. -/
def execStealReply (r : StealReq) (teams : List Nat) (s : State) : Out :=
  let ctx := (s.launchAt r.launch).ctx
  let more := (s.victims ctx r.thief).any fun v => !(tget s.stealing r.thief []).contains v
  match teams with
  | [] => .next (s.later (if more then 256 else 4096) (.on r.thief) .stealBackoff)
  | _ :: _ =>
    let s1 := ({ s with stealing := tdel s.stealing r.thief } : State).modLaunch r.launch fun l => { l with steals := l.steals + 1 }
    if 704 ≤ r.victim then .next (s1.takeFar r teams)
    else
      let n : Int := teams.length
      let from_ := stealDie r.victim
      let to_ := stealDie r.thief
      let s2 := if from_ = to_ then s1 else (s1.addUnits r.launch to_ n).addUnits r.launch from_ (-n)
      if r.thief < 576 then .next ((teams.foldl (fun s t => s.enqueue r.thief t) s2).soon (.on r.thief) .teamAdmit)
      else .next (s2.placeTeams ctx to_ teams)

/-- A core of some, and a launch for which it has no work and could take some. -/
def State.hungryAmong (s : State) (cores : List Nat) : Option (Nat × Nat) :=
  cores.findSome? fun c => (s.partAt (partOf c)).owner.bind fun ctx => ((s.stealLaunch ctx).or (s.farSteal ctx)).bind fun l =>
    if s.hungry c l then some (c, l) else none

/-- `STEAL_BACKOFF` (R139): the requester in `subj` asks its next victim, or starts its list again. -/
def execStealBackoff (s : State) : Out :=
  let cores := if s.subj < 576 then [s.subj] else if s.subj < pkgThief then dieCores (s.subj - 576) else List.range 576
  if (tfind s.stealing s.subj).isNone then .next s
  else
    let clear : State := { s with stealing := tdel s.stealing s.subj }
    match s.hungryAmong cores with
    | none => .next clear
    | some (c, l) =>
      let own := (s.queuedOf l (dieCores (dieOf c))).isEmpty
      if (s.victims (s.launchAt l).ctx s.subj).all fun v => (tget s.stealing s.subj []).contains v then
        .next (if s.subj < pkgThief then clear.seek c else clear)
      else if pkgThief ≤ s.subj || own == decide (576 ≤ s.subj) then .next (s.askNext s.subj l)
      else .next (clear.seek c)

/-! ### Admission (R136, R152) -/

/-- The launch of a graph whose turn it is at a die's distributor: the first after the last admitted one that has a queued team there
(R152). -/
def State.graphNext (s : State) (die : Nat) (l : Launch) : Option Nat :=
  let last := tget s.graphTurn die 0
  (((l.order.dropWhile fun x => x != last).drop 1) ++ l.order).find? fun x => !(s.queuedOf x (dieCores die)).isEmpty

/-- The head of a core's queue among the teams of its owner; of a graph's launches the one whose turn it is comes first. -/
def State.headOf (s : State) (core : Nat) : Option Nat :=
  match (s.partAt (partOf core)).owner with
  | none => none
  | some ctx =>
    let q := s.queuedFor core ctx
    match q.head? with
    | none => none
    | some n =>
      let l := s.launchAt (s.teamAt n).launch
      if l.graph.isNone then some n
      else match s.graphNext (dieOf core) l with
        | some x => (q.find? fun m => (s.teamAt m).launch == x).or (some n)
        | none => some n

/-- Members of a team's cluster that are still queued, by rank. -/
def State.queuedMates (s : State) (n : Nat) : List Nat :=
  (s.teamAt n).mates.filter fun m => m == n || (s.coreAt (s.teamAt m).core).queue.contains m

/-- Cores for the queued teams of a cluster, all of one core group: the queues in which they stand, else the first of the group that fit
(R136, 01 R11). -/
def State.clusterCores (s : State) (core n : Nat) : Option (List Nat) :=
  let t := s.teamAt n
  let ms := s.queuedMates n
  let own := ms.map fun m => (s.teamAt m).core
  let fit := fun (c : Nat) => s.fits c t
  let room := decide (ms.length * t.gangs ≤ s.reserve.getD (dieOf core) 0)
  let spread := own.eraseDups.length == own.length && own.all fun c => c / 8 == core / 8
  if spread then
    if room && own.all fit && (ms.all fun m => s.headOf (s.teamAt m).core == some m) then some own else none
  else
    let cs := ((List.range 8).map fun k => core / 8 * 8 + k).filter fit
    if room && decide (ms.length ≤ cs.length) then some (cs.take ms.length) else none

/-- The head team, or the whole cluster of which it is the head, admitted if it fits. -/
def State.admitOne (s : State) (core n : Nat) : Option State :=
  let t := s.teamAt n
  let turn := fun (s : State) => if (s.launchAt t.launch).graph.isNone then s else { s with graphTurn := tset s.graphTurn (dieOf core) t.launch }
  if t.cluster ≤ 1 then
    if s.fits core t then some (turn ((s.unqueue n).admitTeam n core)) else none
  else (s.clusterCores core n).map fun cs =>
    turn (((s.queuedMates n).zip cs).foldl (fun s p => (s.unqueue p.1).admitTeam p.1 p.2) s)

/-- The head team admitted. A graph's launches take turns at the distributor of a die (R152): a team of the launch whose turn it is goes first,
from whichever queue of the die it heads. -/
def State.admitHead (s : State) (core n : Nat) : Option State :=
  let l := s.launchAt (s.teamAt n).launch
  if l.graph.isNone || s.graphNext (dieOf core) l == some (s.teamAt n).launch then s.admitOne core n
  else match s.graphNext (dieOf core) l with
    | none => none
    | some x => (dieCores (dieOf core)).findSome? fun c =>
      (s.headOf c).bind fun m => if (s.teamAt m).launch = x then s.admitOne c m else none

/-- Teams admitted from the head of a core's queue while they fit. -/
def State.admitAll (s : State) (core : Nat) : Nat → State
  | 0 => s
  | k + 1 => match (s.headOf core).bind (s.admitHead core) with
    | some s1 => State.admitAll s1 core k
    | none => s

/-- `TEAM_ADMIT` (R136, R137, R152) at the core in `subj`: exit messages are counted, and what fits is admitted. -/
def execTeamAdmit (s : State) : Out :=
  let core := s.subj
  let s0 := s.countExits core
  let s := if (s0.partAt (partOf core)).releasing then s0.soon (.on (partOf core)) .partitionAdmission else s0
  let s1 := s.admitAll core ((dieCores (dieOf core)).foldl (fun a c => a + (s.coreAt c).queue.length) 1)
  .next (if (s1.headOf core).isNone then s1.seek core else s1)

/-! ### Tasks (R143, R483) -/

/-- A task's team. -/
def taskTeam (launch core : Nat) (program : W64) (t : TaskDesc) : Team :=
  { launch := launch, kind := .task, ident := t.addr, program := program, entry := t.entry, args := t.args, exitrec := t.exitrec,
    place := t.place, gangs := t.gangs, stashKiB := t.stash, tileKiB := t.tile, quota := t.quota, barriers := t.barriers, core := core }

/-- Words of a task sent to another package: the launch, and the descriptor of R143 with its address. -/
def taskWords (launch : Nat) (t : TaskDesc) : List W64 :=
  [w64 (rootNumber launch), t.addr, t.entry, t.args, t.place, t.exitrec, w64 t.gangs, w64 t.stash, w64 t.tile, w64 t.quota, w64 t.barriers]

/-- `TASK_ARRIVAL` (R143, R135, R483): a task sent from a core of a die of this package, or (8 + n) from package n, to the die that its
placement gives. -/
def execTaskArrival (launch die core : Nat) (t : TaskDesc) (s : State) : Out :=
  match tfind s.launches launch with
  | none => .next s
  | some l =>
    let near := decide (die < 4)
    let own := 144 * die + core
    let low := (s.ctxDies l.ctx).headD 0
    let dest := if t.place = 0 then none else s.placeAt l.ctx t.place.toNat
    let d0 := dest.getD (if near then die else low)
    let d := if near then d0 else if d0 < 4 then d0 else low
    let team := taskTeam launch own (w64 (fieldOf l.lr 0 8)) t
    if 4 ≤ d then .next ((s.tell (d - 4) "TASK_ARRIVAL" (taskWords launch t)).unitsAway (d - 4) launch die 1)
    else
      let s1 := if !near then s.addUnits launch d 1 else if d = die then s else (s.addUnits launch d 1).addUnits launch die (-1)
      let c := if near && dest.isNone && (s.ctxCores l.ctx die).contains own then own else (s.leastCore l.ctx d).getD (144 * d)
      .next ((s1.addTeam c { team with core := c }).kick l.ctx)

/-! ### Counting and completion (R145 to R147) -/

/-- Every part that this package holds of a launch is zero. -/
def Launch.quiet (l : Launch) : Bool := (l.units.all fun p => p.2 == 0) && l.unsplit.isEmpty && l.exits.isEmpty

/-- `COUNTER_PART_REPORT` (R146): a part has reached or left zero; for a launch of another package's root the report goes there, as the part
8 + n of this package. A part of another package is emptied by its report. -/
def execCounterPartReport (launch die : Nat) (zero : Bool) (s : State) : Out :=
  match tfind s.launches launch with
  | none => .next s
  | some l =>
    let root := (s.ctxAt l.ctx).root
    if root ≠ s.self then
      .next (if zero && !l.quiet then s else s.tell root "COUNTER_PART_REPORT" [w64 (rootNumber launch), w64 (8 + s.self), if zero then 1 else 0])
    else
    let parts := tset l.parts die zero
    let units := if 8 ≤ die && zero then tdel l.units die else l.units
    let s1 := s.modLaunch launch fun l =>
      { l with parts := parts, units := units, sent := if zero then l.sent.filter fun x => 8 + x.1 != die else l.sent }
    if zero && (parts.all fun p => p.2) && (units.all fun p => p.2 == 0) && l.unsplit.isEmpty then .next (s1.soon (.on launch) .launchComplete)
    else .next s1

/-- Step 1 of R147: a Beaver copy or a Badger operation of the launch has not completed. -/
def State.launchBusy (s : State) (id : Nat) : Bool :=
  let mine := fun (g : Nat) => ((s.gangAt g).map fun x => x.launch == id).getD false
  (s.cores.any fun c => c.2.copies.any fun y => !y.ended && y.supplied.any fun p => mine p.gang) || (s.badgerOps.any fun r => mine r.op.gang) ||
    s.agenda.any fun d => match d.ev with
      | .badgerOperation o => mine o.gang
      | .copyPartArrive g _ _ _ _ _ _ _ _ _ => mine g
      | _ => false

/-- The completion record (R147). -/
def State.completionRecord (s : State) (l : Launch) : List Byte :=
  let span := if l.svc = s.pkg.service then 0 else 8
  bytesOf 8 l.tag.toNat ++ bytesOf 1 l.status ++ bytesOf 1 ((s.pkg.service &&& 0xF7).toNat + span) ++ bytesOf 2 l.sub ++ bytesOf 4 0 ++
    bytesOf 8 l.retired ++ bytesOf 4 l.replayed ++ bytesOf 4 l.losses ++ bytesOf 8 l.steals ++ bytesOf 8 l.startAt ++ bytesOf 8 s.refTime ++
    bytesOf 8 0

/-- What is left of a launch goes. -/
def State.forgetLaunch (s : State) (id : Nat) : State :=
  let gone := (s.allGangs.filter fun p => p.2.launch == id && p.2.retired && p.1 != s.gid).map (·.1)
  { s with launches := tdel s.launches id, gangs := gone.foldl (fun m n => tdel m n) s.gangs }

/-- A launch of a packet has completed; the packet is complete when all of its launches are. -/
def State.packetLaunchDone (s : State) (queue num id : Nat) : State :=
  let s1 := s.modQueue queue fun q =>
    { q with accepted := q.accepted.map fun a => if a.num = num then { a with launches := a.launches.filter fun x => x != id } else a }
  if (s1.queueAt queue).accepted.any fun a => a.num == num && a.launches.isEmpty then s1.completePacket queue num else s1.pump queue

/-- Steps 2 to 4 of R147. -/
def State.finishLaunch (s : State) (id : Nat) (l : Launch) : State :=
  let lr := l.lr
  let s1 := s.writeRecord l.ctx l.tag (fieldOf lr 32 8) (s.completionRecord l)
  let s2 := if fieldOf lr 64 8 = 0 then s1 else s1.raiseQtl l.queue (w64 (fieldOf lr 64 8))
  let s3 := (((s.ctxPackages l.ctx).filter fun n => n != s.self).foldl (fun s n => s.tell n "LAUNCH_COMPLETE" [w64 id]) s2).traceRecord
    l.ctx 3 5 0 l.tag (launchBody l.lrAddr l.status)
  ((s3.forgetLaunch id).packetLaunchDone l.queue l.packet id).tryEndReset l.ctx

/-- `LAUNCH_COMPLETE` (R147): the launch in `subj`; a stopped queue completes none. A launch of another package's root is forgotten when that
root says that it has completed. -/
def execLaunchComplete (s : State) : Out :=
  match tfind s.launches s.subj with
  | none => .next s
  | some l =>
    let c := s.ctxAt l.ctx
    if c.root ≠ s.self then .next (if l.quiet then s.forgetLaunch s.subj else s)
    else if s.owl.state != 1 || c.halt || c.frozen || !(l.units.all fun p => p.2 == 0) || !l.unsplit.isEmpty then .next s
    else if s.launchBusy s.subj then .next (s.later 1 (.on s.subj) .launchComplete)
    else .next (s.finishLaunch s.subj { l with status := if l.lossy && l.status == 0 then 1 else l.status })

end Sys2Proof.Machine
end

