-- ==== Sys2Proof/Machine/Partitions.lean ====
section
/-! DEFINITION. Partitions (spec/01_package.md R10, R18, R22, R23; spec/05_distribution.md R153 to R159): grants, release with its lane test
(spec/06_cores.md R197), pre-emption, saving and restoring. -/

namespace Sys2Proof.Machine

/-- Partitions in increasing number. -/
def partitions : List Nat := List.range 16

/-- Cores of a partition (01 R10). -/
def coresOf (p : Nat) : List Nat := (dieCores (p / 4)).filter fun c => partOf c == p

/-- A context runs in fixed timing: it asks for it, or the package gives reduced service (01 R27). -/
def State.fixedFor (s : State) (ctx : Nat) : Bool := (s.ctxAt ctx).fixed || s.pkg.bring == .reduced

/-- A C-die of this package is in service (01 R31). -/
def State.dieServes (s : State) (d : Nat) : Bool := s.pkg.service.getLsbD (4 + d)

/-! ### Power (R22) -/

/-- A partition whose owner runs in fixed timing: it is reserved for from its admission on, the restore included. -/
def State.fixedPart (s : State) (x : Partition) : Bool := match x.owner with | some c => s.fixedFor c | none => false

/-- Watts reserved: 480, and 120 for each partition in fixed timing. -/
def State.reserved (s : State) : Nat := 480 + 120 * (s.parts.filter fun p => s.fixedPart p.2).length

/-- May a partition be given to a context within the power limit? -/
def State.powerFor (s : State) (ctx : Nat) : Bool := !s.fixedFor ctx || decide (s.reserved + 120 ≤ s.pkg.powerLimit)

/-! ### Lane test (06 R197, R476) -/

/-- The field of `LRM` for the unusable lanes of a quarter, lowest first; none for a third one. -/
def skipField (bad : List Nat) : Option Nat :=
  match bad with
  | [] => some (32 + 63 * 64)
  | [a] => some ((if a = 32 then 32 else a) + 63 * 64)
  | [a, b] => some (a + b * 64 + 2 ^ 15)
  | _ => none

/-- Physical lanes that a field excludes. -/
def skipped (field : Nat) : List Nat :=
  let a := field % 64
  let b := field / 64 % 64
  (if a < 32 then [a] else []) ++ if b ≤ 32 then [b] else []

/-- The lanes of one quarter tested: those recorded as failing, and the new field of `LRM`. -/
def testQuarter (core q seed : Nat) (field : Nat) (known : List Nat) : List Nat × Option Nat :=
  let failing := (List.range 33).filter fun l => known.contains l || Config.laneFails (seed * 2 ^ 18 + (core * 4 + q) * 64 + l)
  let old := skipped field
  (failing, skipField ((List.range 33).filter fun l => failing.contains l || old.contains l))

/-- A core's lanes tested; with a third unusable lane in a quarter the core is fenced. -/
def State.testCore (s : State) (core : Nat) : State :=
  let c := s.coreAt core
  let rs := (List.range 4).map fun q => testQuarter core q s.free (c.lrm.toNat / 2 ^ (16 * q) % 2 ^ 16) ((c.quarterAt q).failing)
  let lrm := w64 ((rs.zip (List.range 4)).foldl (fun a p => a + (p.1.2.getD (c.lrm.toNat / 2 ^ (16 * p.2) % 2 ^ 16)) * 2 ^ (16 * p.2)) 0)
  let new := (rs.zip (List.range 4)).flatMap fun p =>
    (p.1.1.filter fun l => !((c.quarterAt p.2).failing.contains l)).map fun l => (core * 4 + p.2) * 64 + l
  let s1 := s.modCore core fun c =>
    { c with lrm := lrm, fenced := c.fenced || rs.any fun r => r.2.isNone,
             quarters := (c.quarters.zip rs).map fun p => { p.1 with failing := p.2.1 } }
  new.foldl (fun s k => s.emit (.mgmt "LANE" k)) { s1 with free := s1.free + 1 }

/-! ### Grants and releases -/

/-- The image of a context for a partition. -/
def State.imageOf (s : State) (p ctx : Nat) : Option Image := s.images.find? fun i => i.part == p && i.ctx == ctx

/-- The image that a free partition resumes: the higher priority, then the earlier pre-empted (R157). -/
def State.nextImage (s : State) (p : Nat) : Option Image :=
  match s.images.filter fun i => i.part == p && (s.ctxAt i.ctx).used with
  | [] => none
  | i :: r =>
    let prio := fun (x : Image) => (s.ctxAt x.ctx).prio
    some (r.foldl (fun b x => if prio b < prio x ∨ (prio x = prio b ∧ x.order < b.order) then x else b) i)

/-- Does a context own, or is it to be given, a partition? -/
def Partition.goesTo (p : Partition) (ctx : Nat) : Bool := p.taking == some ctx || p.waits.contains ctx || (p.owner == some ctx && p.taking.isNone && !p.releasing)

/-- A partition set to be given to a context, after those that wait for it already. -/
def State.askPart (s : State) (p ctx : Nat) : State :=
  (s.modPart p fun x => { x with waits := if x.waits.contains ctx then x.waits else x.waits ++ [ctx] }).soon (.on p) .partitionAdmission

/-- A free partition set to be given to a context, before those that wait for it: what it resumes (R157), or what `PREEMPT` grants (R153). -/
def State.askFirst (s : State) (p ctx : Nat) : State :=
  (s.modPart p fun x => { x with waits := ctx :: x.waits.filter fun c => c != ctx }).soon (.on p) .partitionAdmission

/-- A partition taken from its owner for a context; 64 stands for none (R154 step 1). -/
def State.takePart (s : State) (p ctx : Nat) : State := (s.modPart p fun x => { x with taking := some ctx }).offCore (.on p) .partitionPreempt

/-- Partitions wanted on a die by a `PREEMPT` packet. -/
def wantedOn (ws : List W64) (die : Nat) : Nat := bits (ws.getD 1 0).toNat (4 * die + 3) (4 * die)

/-- `PREEMPT` packets of a context that have started and are not complete. -/
def State.preempts (s : State) (ctx : Nat) : List Accepted :=
  (s.queueAt ctx).accepted.filter fun a => a.started && (a.words.getD 0 0).toNat % 256 == 6

/-- Every partition that a packet asks for is owned; such packets complete. -/
def State.checkAsks (s : State) (ctx : Nat) : State :=
  let owned := fun (d : Nat) => ((List.range 4).filter fun q => (s.partAt (4 * d + q)).owner == some ctx && (s.partAt (4 * d + q)).taking.isNone).length
  (s.preempts ctx).foldl (fun s a =>
    if (List.range 4).all fun d => decide (wantedOn a.words d ≤ owned d) then s.completePacket ctx a.num else s) s

/-- The partition of a die that is taken next for a context (R153). -/
def State.victimPart (s : State) (ctx die : Nat) : Option Nat :=
  let prio := fun (p : Nat) => match (s.partAt p).owner with | some v => (s.ctxAt v).prio | none => 0
  let cand := ((List.range 4).map (4 * die + ·)).filter fun p =>
    let x := s.partAt p
    x.owner.isSome && x.taking.isNone && decide (prio p < (s.ctxAt ctx).prio)
  match cand with
  | [] => none
  | p :: r => some (r.foldl (fun b x =>
      if prio x < prio b ∨ (prio x = prio b ∧ (s.partAt b).granted ≤ (s.partAt x).granted) then x else b) p)

/-- One more partition of a die for a context: a free one, else one of lower priority. -/
def State.onePart (s : State) (ctx die : Nat) : State :=
  if !s.dieServes die then s
  else match ((List.range 4).map (4 * die + ·)).find? fun p => let x := s.partAt p; x.owner.isNone && !x.waits.contains ctx && x.taking.isNone with
  | some p => s.askFirst p ctx
  | none => match s.victimPart ctx die with
    | some p => s.takePart p ctx
    | none => s

/-- What `PREEMPT` asks for on a die: partitions more, or the surplus released, highest numbers first (R153). -/
def State.pursueDie (s : State) (ctx die want : Nat) : State :=
  let mine := ((List.range 4).map (4 * die + ·)).filter fun p => (s.partAt p).goesTo ctx
  if mine.length < want then (List.range (want - mine.length)).foldl (fun s _ => s.onePart ctx die) s
  else (mine.drop want).reverse.foldl (fun s p =>
    let x := s.partAt p
    if x.owner == some ctx then (s.modPart p fun x => { x with releasing := true }).soon (.on p) .partitionAdmission
    else s.modPart p fun x => { x with waits := x.waits.filter fun c => c != ctx }) s

/-- What the last `PREEMPT` of a context asks for. -/
def State.pursue (s : State) (ctx : Nat) : State :=
  match (s.preempts ctx).getLast? with
  | none => s
  | some a => (List.range 4).foldl (fun s d => s.pursueDie ctx d (wantedOn a.words d)) s

/-- Every `PREEMPT` that waits pursued again, the contexts of higher priority first (R153). -/
def State.pursueAll (s : State) : State :=
  (List.range 8).reverse.foldl (fun s k => (List.range 64).foldl (fun s c =>
    if (s.ctxAt c).prio = k && !(s.preempts c).isEmpty then s.pursue c else s) s) s

/-- `PREEMPT` (R113, R153). -/
def execPreempt (s : State) : Out := s.starting fun p s => (s.pursue p.queue).checkAsks p.queue

/-- A free partition goes to a pre-empted context that waits for it, else to one that is to have it, or to a `PREEMPT` that waits. -/
def State.nextOwner (s : State) (p : Nat) : State :=
  match s.nextImage p with
  | some i => s.askFirst p i.ctx
  | none => (if (s.partAt p).waits.isEmpty then s else s.soon (.on p) .partitionAdmission).pursueAll

/-- Partitions that wait for power looked at again (R22). -/
def State.retryParts (s : State) : State :=
  partitions.foldl (fun s p =>
    let x := s.partAt p
    if x.owner.isSome || x.taking.isSome then s
    else if !x.waits.isEmpty then s.soon (.on p) .partitionAdmission
    else match s.nextImage p with
      | some i => s.askFirst p i.ctx
      | none => s) s

/-- A partition released: its lanes are tested, its slot image of the context is gone, and what waits is looked at (R153, R197). -/
def State.freePart (s : State) (p : Nat) : State :=
  let owner := (s.partAt p).owner
  let s1 := (coresOf p).foldl State.testCore s
  let s2 : State := { s1 with images := s1.images.filter fun i => !(i.part == p && some i.ctx == owner) }
  let s3 := (s2.modPart p fun x => { waits := x.waits }).nextOwner p
  s3.retryParts

/-- Queued teams of a context on a partition's cores put on its other cores (R483), where it has some. -/
def State.moveQueued (s : State) (p ctx : Nat) : State :=
  let ns := (coresOf p).flatMap fun c => s.queuedFor c ctx
  match (if (s.ctxCores ctx (p / 4)).isEmpty then (s.ctxDies ctx).head? else some (p / 4)) with
  | none => s
  | some d =>
    let s1 := ns.foldl State.unqueue s
    let s2 := if d = p / 4 then s1 else ns.foldl (fun s n => let l := (s.teamAt n).launch; (s.addUnits l d 1).addUnits l (p / 4) (-1)) s1
    s2.placeTeams ctx d ns

/-- The frequency at which a partition of a die starts: the fixed one (R16), or an elastic target within the die's thermal limit (R24). -/
def State.startMhz (s : State) (die : Nat) (fixed : Bool) : Nat :=
  if s.pkg.bring == .reduced then 400 else if !fixed && s.pkg.throttled.getLsbD die then 560 else 800

/-- A partition takes the clock mode of its owner (R18). -/
def State.setMode (s : State) (p ctx : Nat) : State :=
  let f := s.fixedFor ctx
  s.modPart p fun x => { x with fixed := f, mhz := s.startMhz (p / 4) f }

/-- A partition given to a context: semaphores zero (14 R417). -/
def State.grantPart (s : State) (p ctx : Nat) : State :=
  let s1 := ({ s with grantNo := s.grantNo + 1 } : State).modPart p fun x =>
    { owner := some ctx, granted := s.grantNo, fixed := x.fixed, mhz := x.mhz, waits := x.waits.filter fun c => c != ctx }
  (coresOf p).foldl (fun s c => s.modCore c fun x => { x with sems := [] }) s1

/-- `PARTITION_ADMISSION` (R22, R153): the partition in `subj` is given to the first context that waits for it and has power, or leaves one that
releases it. It takes its owner's clock mode now, or, where an image is restored, after that (R18). -/
def execPartitionAdmission (s : State) : Out :=
  let p := s.subj
  let x := s.partAt p
  match x.owner, x.waits.find? fun c => (s.ctxAt c).used && s.powerFor c with
  | some ctx, _ =>
    if !x.releasing then .next s
    else
      let s1 := s.moveQueued p ctx
      if (coresOf p).all fun c => (s1.teamsOn c).isEmpty then .next (s1.freePart p) else .next s1
  | none, some ctx =>
    if !s.pkg.admitting || x.taking.isSome then .next s
    else match s.imageOf p ctx with
      | some _ =>
        .next (((s.grantPart p ctx).modPart p fun x => { x with halted := true }).soon (.on p) (.partitionRestore .data)).pursueAll
      | none => .next ((((((s.grantPart p ctx).setMode p ctx).resplit ctx).kick ctx).checkAsks ctx)).pursueAll
  | none, none => .next s

/-! ### Pre-emption (R154 to R156, R257, R412) -/

/-- `PARTITION_PREEMPT` (R154 steps 1 and 2): issue stops, uncommitted instances are discarded. -/
def execPartitionPreempt (s : State) : Out :=
  let p := s.subj
  if (s.partAt p).taking.isNone then .next s
  else
    let ns := (s.allGangs.filter fun g => partOf g.2.core == p && g.2.slot.isSome && !g.2.retired).map (·.1)
    .next ((s.standAll ns).offCore (.on p) .partitionHalted)

/-- Step 3 has ended: the tile queues are empty, no copy within the core and no follow-on runs, and no region instruction is pending. -/
def State.drained (s : State) (p : Nat) : Bool :=
  (coresOf p).all fun c => (s.coreAt c).tq.isEmpty && !((s.coreAt c).copies.any fun y => y.running && (y.isLocal || y.follow.isSome)) &&
    (s.teamsOn c).all fun t => t.2.regions.all fun r => !r.pending && !r.leaving

/-- Every filled line of a team's regions written back and unfilled (R412). -/
def State.unfillRegions (s : State) (team : Nat) : State :=
  let rs := (s.teamAt team).regions
  rs.foldl (fun s r => s.settleLines team r fun _ => true) ((rs.foldl (fun s r => s.writeBack team r fun _ => true) s).modTeam team fun t =>
    { t with regions := t.regions.map fun r => { r with filled := [], dirty := [] } })

/-- A bin as an image holds it: how long its timer has run, and how long it has waited to launch; and as it stands again at a cycle (R155). -/
def Bin.shift (b : Bin) (cyc : Nat) : Bin := { b with since := cyc - b.since, due := b.due.map fun d => cyc - d }

/-- What a core holds of the context put into an image (R155); its stores reach their homes first. -/
def State.saveCore (s : State) (core ctx : Nat) (i : Image) : State × Image :=
  let s := s.flushCore core
  let c := s.coreAt core
  let ts := (s.teamsOn core).map (·.1)
  let gs := (s.residents core).filterMap fun g => g.2.slot.map fun k => (g.1, k)
  let s1 := ts.foldl State.unfillRegions s
  let s2 := ts.foldl (fun s n => s.modTeam n fun t =>
    { t with admitted := false, bins := t.bins.map fun b => (b.1, b.2.shift c.cyc) }) s1
  let s3 := gs.foldl (fun s g => s.vacate g.1 false) s2
  (s3.modCore core fun c => { c with sems := [], copies := c.copies.filter fun y => y.ctx != ctx },
   { i with sems := i.sems ++ [(core, c.sems)], copies := i.copies ++ [(core, c.copies.filter fun y => y.ctx == ctx)], gangs := i.gangs ++ gs })

/-- `PARTITION_HALTED` (R154 steps 3 and 4, R156): once drained, the state is saved; an image that held the slot goes to the spill area. -/
def execPartitionHalted (s : State) : Out :=
  let p := s.subj
  match (s.partAt p).owner with
  | none => .next s
  | some ctx =>
    if (s.partAt p).taking.isNone || (s.partAt p).halted then .next s
    else if !s.drained p then .next (s.later 16 (.on p) .partitionHalted)
    else
      let i0 : Image := { ctx := ctx, part := p, order := s.grantNo }
      let r := (coresOf p).foldl (fun (x : State × Image) c => x.1.saveCore c ctx x.2) ((s.modPart p fun x => { x with halted := true }), i0)
      let old := r.1.images.map fun i => if i.part / 4 = p / 4 then { i with spilled := true } else i
      let kept := if (s.ctxAt ctx).used then old ++ [r.2] else old
      .next (({ r.1 with images := kept, grantNo := s.grantNo + 1 } : State).offCore (.on p) .shadowSaveComplete)

/-- `SHADOW_SAVE_COMPLETE` (R154 step 5): the partition is free for the context for which it was taken. -/
def execShadowSaveComplete (s : State) : Out :=
  let p := s.subj
  match (s.partAt p).taking with
  | none => .next s
  | some c =>
    let s1 := s.modPart p fun x => { waits := x.waits }
    .next (if c < 64 then s1.askFirst p c else s1).retryParts

/-! ### Restoring (R157, 01 R36) -/

/-- `PARTITION_RESTORE` (R157): an uncorrectable error in the slot is a context fault, and the partition stays halted (01 R36). -/
def execPartitionRestore (fate : ReplyFate) (s : State) : Out :=
  let p := s.subj
  match (s.partAt p).owner with
  | none => .next s
  | some ctx =>
    if (s.imageOf p ctx).isNone || !(s.partAt p).halted then .next s
    else match fate with
      | .data => .next (s.offCore (.on p) .restoreComplete)
      | _ => .next (s.stopQueue ctx 0x102 (detailOf 0 3 9))

/-- The bins of a restored team: their timers run on from where they stood. -/
def State.restoreBins (s : State) (team : Nat) : State :=
  let t := s.teamAt team
  let l := s.launchAt t.launch
  let s1 := s.modTeam team fun t => { t with bins := t.bins.map fun b => (b.1, b.2.shift (s.coreAt t.core).cyc) }
  t.bins.foldl (fun s b =>
    if b.2.args.isEmpty then s
    else if b.2.due.isSome then s.soon .none (.binLaunch team b.1)
    else if l.fixord then s
    else s.laterOn t.core (l.binTimer - b.2.since) .none (.binTimer team b.1)) s1

/-- `RESTORE_COMPLETE` (R157, R18): the partition takes its owner's clock mode, the saved gangs take their slots again and issue resumes. -/
def execRestoreComplete (s : State) : Out :=
  let p := s.subj
  match (s.partAt p).owner.bind fun ctx => s.imageOf p ctx with
  | none => .next s
  | some i =>
    let cs := coresOf p
    let back := (s.teams.filter fun t => cs.contains t.2.core && t.2.started && !t.2.admitted && (s.launchAt t.2.launch).ctx == i.ctx).map (·.1)
    let s1 := i.sems.foldl (fun s x => s.modCore x.1 fun c => { c with sems := x.2 }) s
    let s2 := i.copies.foldl (fun s x => s.modCore x.1 fun c => { c with copies := c.copies ++ x.2 }) s1
    let s3 := back.foldl (fun s n => (s.modTeam n fun t => { t with admitted := true }).restoreBins n) s2
    let s4 := i.gangs.foldl (fun s g =>
      let core := ((s.gangAt g.1).map (·.core)).getD 0
      (s.modCore core fun c => { c with slots := c.slots.set g.2 (some g.1) }).modGang g.1 fun y =>
        ({ y with slot := some g.2, waitsSlot := none } : Gang).takeMarks) s3
    let s5 := i.copies.foldl (fun s x => x.2.foldl (fun s y => if y.running then s.offCore (.on x.1) (.copyComplete y.team y.num) else s) s) s4
    let s6 := (({ s5 with images := s5.images.filter fun x => !(x.part == p && x.ctx == i.ctx) } : State).setMode p i.ctx).modPart p fun x =>
      { x with halted := false }
    .next (((s6.resplit i.ctx).kick i.ctx).checkAsks i.ctx)

end Sys2Proof.Machine
end

