-- ==== Sys2Proof/Machine/Session.lean ====
section
/-! DEFINITION. Trace sessions (spec/09_debug.md R263 to R268) and the end of launches and contexts by their owner
(spec/04_host_commands.md R106, R115; spec/05_distribution.md R147). -/

namespace Sys2Proof.Machine

/-! ### Closing a session (R268) -/

/-- A close begins: events after it write nothing. -/
def State.closeSession (s : State) (ctx cause : Nat) : State :=
  match (s.ctxAt ctx).trace with
  | some t =>
    if t.closing.isSome then s
    else (s.modCtx ctx fun c => { c with trace := some { t with closing := some cause } }).soon (.on ctx) .traceDrainTimeout
  | none => s

/-- The final record, for which room is always left; nothing is pending, since records are written with their events. -/
def State.finalRecord (s : State) (ctx : Nat) (t : Trace) (cause : Nat) : State :=
  let cut := s.areaWord ctx t 2 != 0
  (s.putRecord ctx t 64 (recordBytes 8 (if cut then 1 else 0) (s.placeField 0) 0 s.refTime (bytesOf 1 cause ++ bytesOf 7 0 ++ bytesOf 8 0))).modCtx
    ctx fun c => { c with trace := none }

/-- `TRACE_DRAIN_TIMEOUT` (R268): the drain of the session of the context in `subj` ends with its final record. -/
def execTraceDrainTimeout (s : State) : Out :=
  let ctx := s.subj
  match (s.ctxAt ctx).trace with
  | none => .next s
  | some t => match t.closing with
    | none => .next s
    | some cause =>
      let s1 := s.finalRecord ctx t cause
      let ps := (s1.queueAt ctx).accepted.filter fun a => a.started && (a.words.getD 0 0).toNat % 256 == 7
      .next ((ps.foldl (fun s a => s.soon (.packet ⟨ctx, a.num, a.words⟩) (packetEvent a.words)) s1).tryEndReset ctx)

/-- A `TRACE` packet: accepted at its start, and looked at again when a close that it waits for has ended. -/
def State.tracePacket (s : State) (f : Packet → State → State) : Out :=
  match s.entryOfPacket s.pkt with
  | none => .next s
  | some a => if a.started then .next (f s.pkt s) else s.starting f

/-- `TRACE_CLOSE` (R263): without an open session it has no effect. -/
def execTraceClose (s : State) : Out :=
  s.tracePacket fun p s => if (s.ctxAt p.queue).trace.isSome then s.closeSession p.queue 1 else s.completePacket p.queue p.num

/-! ### Opening a session (R263 to R266) -/

/-- The enabled breakpoints of a list: program id and ordinal. -/
def State.breakList (s : State) (ctx va n : Nat) : List (W64 × Nat) :=
  match (s.readVirt ctx va (16 * n) {}).1 with
  | .error _ => []
  | .ok bs => (List.range n).filterMap fun k =>
    let f := fun (o m : Nat) => fieldOf bs (16 * k + o) m
    if f 11 1 % 2 = 1 then some (w64 (f 0 8), f 8 3) else none

/-- A session opened: its counters are zero, and each core's first sample falls due one period of the core's cycles from now. -/
def State.openSession (s : State) (ctx : Nat) (ws : List W64) : State :=
  let x := fun (k : Nat) => (ws.getD k 0).toNat
  let t : Trace := { ring := ws.getD 2 0, size := 2 ^ x 3, area := ws.getD 4 0, period := x 5, evmask := w64 (x 1 / 256),
                     breaks := s.breakList ctx (x 6) (x 7), num := s.nextId }
  let s0 : State := { s with nextId := s.nextId + 1 }
  let s1 := (s0.writeVirt ctx (x 4) (List.replicate 32 0) {}).2.modCtx ctx fun c => { c with trace := some t }
  if t.period = 0 || !(t.evmask.getLsbD 0) then s1
  else (List.range 576).foldl (fun s c => s.laterOn c t.period (.on (sampleSubj t.num ctx c)) .sampleDue) s1

/-- `TRACE_OPEN` (R263): a session that is open is first closed. -/
def execTraceOpen (s : State) : Out :=
  s.tracePacket fun p s =>
    if (s.ctxAt p.queue).trace.isSome then s.closeSession p.queue 1 else (s.openSession p.queue p.words).completePacket p.queue p.num

/-! ### Discarding launches (R106, R147) -/

/-- A gang of a discarded launch leaves its core; its image goes back. -/
def State.dropGang (s : State) (n : Nat) : State :=
  match s.gangAt n with
  | none => s
  | some g =>
    if g.retired then s
    else
      let d := dieOf g.core
      let s1 := ((s.focus n).withdraw.focus s.gid).vacate n true
      (s1.restock d g.imaged).modGang n fun g =>
        { g.discard with retired := true, parked := false, excluded := false, waitsSlot := none }

/-- What runs for some launches is discarded: gangs, teams, queued copies and parked requests. Retired teams stand, and so do committed
stores: what mapped regions hold dirty is written back. -/
def State.discardWork (s : State) (ids : List Nat) : State :=
  let gs := (s.allGangs.filter fun p => ids.contains p.2.launch).map (·.1)
  let ts := (s.teams.filter fun p => ids.contains p.2.launch).map (·.1)
  let s1 := ts.foldl State.dropRegions (gs.foldl State.dropGang s)
  { s1 with
    teams := s1.teams.filter fun p => !ts.contains p.1
    cores := s1.cores.map fun c => (c.1, { c.2 with
      queue := c.2.queue.filter fun n => !ts.contains n, tq := c.2.tq.filter fun e => !ts.contains e.team,
      copies := c.2.copies.filter fun y => y.running || !ts.contains y.team })
    parkedEdges := s1.parkedEdges.filter fun e => !gs.contains e.1.gang
    images := s1.images.map fun i => { i with gangs := i.gangs.filter fun g => !gs.contains g.1,
                                              copies := i.copies.map fun c => (c.1, c.2.filter fun y => !ts.contains y.team) } }

/-- Launches of a context. -/
def State.launchesOf (s : State) (ctx : Nat) : List Nat := (s.launches.filter fun p => p.2.ctx == ctx).map (·.1)

/-- Every launch of a context discarded; each completes with `DISCARDED` (R147). -/
def State.discardAll (s : State) (ctx : Nat) : State :=
  let ids := s.launchesOf ctx
  let s1 := s.discardWork ids
  ids.foldl (fun s n => (s.modLaunch n fun l =>
    { l with units := [], parts := [], unsplit := [], retired := l.retired + l.exits.length, exits := [], status := 3, sub := 0 }).soon
      (.on n) .launchComplete) s1

/-- The launches of a context on a package that does not root it, discarded by order of the root. -/
def State.discardFar (s : State) (ctx : Nat) : State :=
  let ids := s.launchesOf ctx
  let s1 := s.discardWork ids
  { s1 with launches := s1.launches.filter fun p => !ids.contains p.1 }

/-! ### `QUEUE_RESUME` (R103, R115) -/

/-- The context's work goes on: admission, and launches that had become complete. -/
def State.wakeContext (s : State) (ctx : Nat) : State :=
  let ids := (s.launches.filter fun p => p.2.ctx == ctx && p.2.unsplit.isEmpty && p.2.units.all fun u => u.2 == 0).map (·.1)
  ids.foldl (fun s n => s.soon (.on n) .launchComplete) ((s.resplit ctx).kick ctx)

/-- A context's work on this package goes on: its partitions issue again, in a timing mode given or in the one they have. -/
def State.goOn (s : State) (ctx : Nat) (mode : Option Bool) : State :=
  let s1 := s.modCtx ctx fun c => { c with halt := false, fixed := mode.getD c.fixed }
  partitions.foldl (fun s p =>
    if (s.partAt p).owner = some ctx then
      (if mode.isSome then s.setMode p ctx else s).modPart p fun x => { x with guard := false }
    else s) s1

/-- The timing mode in which a queue resumes: after `DROOP_GUARD` the owner may choose either, and no field of the packet names it
(01 R20, notes/assumptions/123.md); else the context keeps its own. -/
def State.resumeMode (s : State) (ctx : Nat) : Option Bool × State :=
  let q := s.queueAt ctx
  if q.cause = 0x102 && q.detail.extractLsb' 0 16 = (15 : BitVec 16) then
    (some ((Config.freeValue s.free).getLsbD 0), { s with free := s.free + 1 })
  else (none, s)

/-- The number by which `THAW` carries a timing mode with a context: 0 none, 1 elastic, 2 fixed. -/
def modeNumber (m : Option Bool) : Nat := match m with | none => 0 | some f => if f then 2 else 1

/-- A queue that was halted or stopped reads again, and the context's work goes on, on its other packages too. -/
def State.resumeQueue (s : State) (ctx : Nat) : State :=
  let m := s.resumeMode ctx
  let s1 := m.2.goOn ctx m.1
  let s2 := s1.modQcb ctx fun q => { q with qstate := if q.qstate == .halted || q.qstate == .stopped then .idle else q.qstate, cause := 0, detail := 0 }
  ((((s2.wakeContext ctx).nudge ctx).ring ctx).lookAtSlots ctx).tellOthers ctx "THAW" [w64 (modeNumber m.1)]

/-- An action on the context that an admin packet names; `INVALID` when this package roots none of that number. -/
def State.onContext (s : State) (f : Packet → Nat → State → State) : Out :=
  s.starting fun p s =>
    let ctx := (p.words.getD 2 0).toNat % 64
    if (s.ctxAt ctx).used && (s.ctxAt ctx).root == s.self then f p ctx s else s.endAdmin p.num 0 4

/-- `QUEUE_RESUME` with action 0: resume at HEAD. -/
def execQueueResume (s : State) : Out := s.onContext fun p ctx s => (s.resumeQueue ctx).endAdmin p.num 0 0

/-- `QUEUE_RESUME` with action 1: HEAD skips the packet that stands there. -/
def execQueueResumeSkip (s : State) : Out :=
  s.onContext fun p ctx s =>
    let q := s.queueAt ctx
    let len := match s.ringFail q q.head.toNat 1 with
      | some _ => 1
      | none => max 1 (bits (s.poolWord (q.ringAt q.head.toNat)).toNat 31 16)
    let s1 := s.modQueue ctx fun q => { q.letGo with bare := false, head := if q.head = q.tail then q.head else w64 (min (q.head.toNat + 8 * len) q.tail.toNat) }
    (s1.resumeQueue ctx).endAdmin p.num 0 0

/-- `QUEUE_RESUME` with action 2: reset. HEAD takes the last `TAIL` read, launches are discarded and the trace session is closed; the
packet completes when that is done. A package that another's root tells discards what it holds of them. -/
def execQueueResumeReset (s : State) : Out :=
  if 128 ≤ s.pkt.queue then
    let ctx := (s.pkt.words.getD 2 0).toNat % 64
    .next ((s.discardFar ctx).goOn ctx none)
  else
  s.onContext fun p ctx s =>
    let s1 := (s.goOn ctx none).modQcb ctx fun q =>
      { q.letGo with qstate := .resetting, cause := 0, detail := 0, head := q.tail, bare := false,
                     accepted := q.accepted.filter fun a => !a.launches.isEmpty }
    (((s1.discardAll ctx).closeSession ctx 2).tryEndReset ctx).tellOthers ctx "QUEUE_RESET" p.words

/-- `QUEUE_RESUME` with action 3: halt with `HOST_HALT`. -/
def execHostHalt (s : State) : Out := s.onContext fun p ctx s => (s.haltQueue ctx 8 0 0).endAdmin p.num 0 0

end Sys2Proof.Machine
end

