-- ==== Sys2Proof/Machine/Admin.lean ====
section
/-! DEFINITION. The packets of the admin queue (spec/04_host_commands.md R115 to R118, R121 to R125): contexts, pool commands, patches,
restarts of the Owl, attestation and pairs. Status: 0 `DONE`, 1 `BUSY`, 2 `PINNED`, 3 `HOME_LOST`, 4 `INVALID`, 5 `REJECTED`, 6 `NO_FRAME`. -/

namespace Sys2Proof.Machine

/-! ### `CTX_CREATE` (R101, R104, R116) -/

/-- Partitions that a `CTX_CREATE` names, by package. -/
def namedParts (ws : List W64) : List Nat :=
  (List.range 64).map fun n => bits (ws.getD (8 + n / 4) 0).toNat (16 * (n % 4) + 15) (16 * (n % 4))

/-- The standby of a context whose root is a package (02 R56); 64 for none. -/
def standbyOf (pkgs : List Nat) (root : Nat) : Nat :=
  let others := pkgs.filter fun n => n != root
  ((others.find? fun n => n / 4 != root / 4).or others.head?).getD 64

/-- A page is valid with an explicit home on a stack of a package (R104). -/
def State.homedAt (s : State) (a pkg : Nat) : Bool :=
  let e := s.entryOf (pageOf a)
  entValid e && entExplicit e && entHome e / 8 == pkg

/-- Partitions of this package among those named. -/
def localParts (named : Nat) : List Nat := (List.range 16).filter fun p => named.testBit p

/-- A C-die of a package is in service, as that package has reported it (01 R31, 02 R53). -/
def State.dieServesAt (s : State) (n d : Nat) : Bool :=
  if n = s.self then s.dieServes d else (tget s.pkg.units n 0xFFF).testBit (8 + d)

/-- A partition of a package is owned by a context: of this package by its owner, of another by a context that names it and still exists. -/
def State.partOwned (s : State) (n p : Nat) : Bool :=
  if n = s.self then (s.partAt p).owner.isSome
  else s.ctxs.any fun c => c.2.used && (c.2.want.getD n 0).testBit p

/-- The status with which `CTX_CREATE` is refused (R104, R116), 0 for none. -/
def State.createStatus (s : State) (ws : List W64) : Nat :=
  let w := fun (k : Nat) => (ws.getD k 0).toNat
  let named := namedParts ws
  let pkgs := (List.range 64).filter fun n => named.getD n 0 != 0
  let standby := standbyOf pkgs s.self
  let log2 := w 6 % 64
  let base := bits (w 6) 47 12 * 4096
  let parts := pkgs.flatMap fun n => (localParts (named.getD n 0)).map fun p => (n, p)
  if (s.ctxAt (w 2 % 64)).used ∨ w 3 % 2 ^ 19 ≠ 0 ∨ w 4 % 256 ≠ 0 ∨ w 5 % 256 ≠ 0 ∨ log2 < 12 ∨ 26 < log2 ∨ base % 2 ^ log2 ≠ 0 ∨
      (pkgs.any fun n => !s.inDomain n) = true ∨ (parts.any fun p => !s.dieServesAt p.1 (p.2 / 4)) = true ∨
      !s.homedAt (w 4) s.self ∨ (w 5 ≠ 0 ∧ (standby = 64 ∨ !s.homedAt (w 5) standby)) ∨ ((w 2).testBit 11 ∧ s.owl.partner = none) then 4
  else if parts.any fun p => s.partOwned p.1 p.2 then 1
  else 0

/-- The other packages of the domain; none in reduced service (01 R27). -/
def State.members (s : State) : List Nat := (List.range 64).filter fun n => n != s.self && s.inDomain n && !s.pkg.lost.getLsbD n

/-- A message of this Owl to every other package of the domain. -/
def State.tellMembers (s : State) (what : String) (words : List W64) : State := s.members.foldl (fun s n => s.tell n what words) s

/-- A context entered in a package's table with its root: its queue's addresses, its tables and its partitions here. -/
def State.enterContext (s : State) (root : Nat) (ws : List W64) : State :=
  let w := fun (k : Nat) => (ws.getD k 0).toNat
  let n := w 2 % 64
  let named := namedParts ws
  let c : Ctx :=
    { used := true, prio := bits (w 2) 8 6, fixed := (w 2).testBit 9, rr := (w 2).testBit 10, checked := (w 2).testBit 11,
      automig := (w 2).testBit 12, vector := bits (w 2) 26 16, table := ws.getD 3 0, root := root,
      standby := standbyOf ((List.range 64).filter fun k => named.getD k 0 != 0) root, want := named, beat := s.now,
      pkgOnly := s.pkg.bring == .reduced }
  let q : Queue :=
    { base := w64 (bits (w 6) 47 12 * 4096), log2 := w 6 % 64, qcb := ws.getD 4 0, alt := if w 5 = 0 then none else some (ws.getD 5 0) }
  (localParts (named.getD s.self 0)).foldl (fun s p => s.askPart p n) ((s.modCtx n fun _ => c).modQueue n fun _ => q)

/-- A context and its queue created; the other packages of the domain hear of it (R101, R111). -/
def State.createContext (s : State) (ws : List W64) : State :=
  let w := fun (k : Nat) => (ws.getD k 0).toNat
  let n := w 2 % 64
  let s1 := (s.enterContext s.self ws).createQcb n (w 4)
  let s2 := (if w 5 = 0 then s1 else s1.createQcb n (w 5)).tellMembers "CTX_CREATE" ws
  if (s2.ctxAt n).standby = 64 then s2 else s2.later 40000 (.on n) .heartbeat

/-- A context that another package's Owl has created, entered here: its packages watch the root's heartbeats (02 R57). -/
def State.joinContext (s : State) (root : Nat) (ws : List W64) : State :=
  let n := (ws.getD 2 0).toNat % 64
  let s1 := s.enterContext root ws
  if (s1.ctxAt n).packages.contains s.self then s1.later 800000 (.on n) .heartbeatTimeout else s1

/-- `CTX_CREATE`; one told by the root of another package enters the context here. -/
def execCtxCreate (s : State) : Out :=
  if 128 ≤ s.pkt.queue then .next (s.joinContext (s.pkt.queue - 128) s.pkt.words) else
  s.starting fun p s =>
    let st := s.createStatus p.words
    (if st = 0 then s.createContext p.words else s).endAdmin p.num 0 st

/-! ### Pool pages (R115, R116, 03 R70 to R72, R480) -/

/-- Every cached line of a page written back and invalidated: first what waits in merge units, then what the dies hold. -/
def State.flushPage (s : State) (page : Nat) : State :=
  let s1 := (s.cores.map (·.1)).foldl (fun s c => s.flushWhere c fun l => l / 512 == page) s
  ((s1.dir.filter fun d => d.1 / 512 == page).map (·.1)).foldl State.evictEntry s1

/-- A valid page given up: its frame is free and remembers its context. -/
def State.releasePage (s : State) (page : Nat) : State :=
  let s1 := s.flushPage page
  { s1 with ind := tdel s1.ind page
            lostLines := s1.lostLines.filter fun l => l / 512 != page, lostPages := s1.lostPages.filter fun q => q != page
            moves := s1.moves.filter fun m => m.page != page, pinned := tdel s1.pinned page, samples := tdel s1.samples page
            edges := s1.edges.filter fun d => pageOf d != page }

/-- A frame's bytes zeroed (01 R32). -/
def zeroFrame (m : List Host.Cell) (stack frame : Nat) : List Host.Cell :=
  let k := frameKey stack frame
  m.filter fun c => !(decide (k ≤ c.1) && decide (c.1 < k + 2 ^ 17))

/-- Is a stack one of the domain? -/
def State.stackKnown (s : State) (k : Nat) : Bool := s.inDomain (k / 8) && (k / 8 != s.self || !s.stackLost k)

/-- A page backed by a frame for a context; the frame is zeroed where another context held it last (R117, 01 R33). -/
def State.backPage (s : State) (page ctx stack frame : Nat) (explicit : Bool) : State :=
  let key := stack * 2 ^ 19 + frame
  let other := match tfind s.lastOwner key with | some c => c != ctx | none => false
  { s with mem := if other then zeroFrame s.mem stack frame else s.mem, lastOwner := tset s.lastOwner key ctx
           ind := tset s.ind page (indEntry true explicit stack frame ctx) }

/-- `POOL_MAP` at this package's home agents: its status, and the pages after it. -/
def State.mapCommand (s : State) (w2 w3 : Nat) : Nat × State :=
  let page := bits w2 47 17
  let reduced := s.pkg.bring == .reduced
  let stack := if w3.testBit 1 then bits w3 16 8 else s.hashHome page
  let e := s.entryOf page
  let named := w3.testBit 2
  let frame := bits w3 50 32
  if s.isAdmin page || !s.stackKnown stack then (4, s)
  else if entValid e then (1, s)
  else if named && (s.frameReserved stack frame || (s.usedFrames stack).contains frame) then (4, s)
  else match (if named then some frame else s.freeFrame stack) with
    | none => (6, s)
    | some f => (0, s.backPage page (w2 % 64) stack f (w3.testBit 0 || reduced))

/-- Is a page's indirection entry kept by this package? -/
def State.entryHere (s : State) (page : Nat) : Bool := s.isAdmin page || s.hashHome page / 8 == s.self

/-- A pool command sent to the Owl of another package (R117). -/
def State.sendCommand (s : State) (p : Packet) (n : Nat) : State := s.tell n "POOL_COMMAND" (w64 p.num :: p.words)

/-- A pool command: carried out here, or sent to the package of the page's hash home, whose report ends it. One that another package's Owl has
sent is carried out and reported to that Owl (R117). -/
def State.poolCommand (s : State) (page : Nat) (f : Packet → State → Nat × State) : Out :=
  if 128 ≤ s.pkt.queue then
    let r := f s.pkt s
    .next (r.2.tell (s.pkt.queue - 128) "POOL_COMMAND_COMPLETION" [w64 s.pkt.num, w64 r.1])
  else s.starting fun p s =>
    if s.entryHere page then (f p s).2.endAdmin p.num 0 (f p s).1 else s.sendCommand p (s.hashHome page / 8)

/-- The page that a pool command names. -/
def pageNamed (p : Packet) : Nat := bits (p.words.getD 2 0).toNat 47 17

/-- `POOL_MAP`. -/
def execPoolMap (s : State) : Out :=
  s.poolCommand (pageNamed s.pkt) fun p s => s.mapCommand (p.words.getD 2 0).toNat (p.words.getD 3 0).toNat

/-- `POOL_UNMAP`: every cached line is written back and invalidated, then `VALID` is cleared. -/
def execPoolUnmap (s : State) : Out :=
  s.poolCommand (pageNamed s.pkt) fun p s =>
    let page := pageNamed p
    if s.isAdmin page then (4, s) else if entValid (s.entryOf page) then (0, s.releasePage page) else (0, s)

/-- The status with which a move of a page to a stack is refused, 0 for none (R115, 03 R78, R79, R481). -/
def State.moveStatus (s : State) (page stack : Nat) : Nat :=
  let e := s.entryOf page
  if s.isAdmin page ∨ !s.stackKnown stack ∨ !entValid e then 4
  else if entMigrating e then 1
  else if s.isPinned page then 2
  else if s.stackLost (entHome e) then 3
  else if (s.freeFrame stack).isNone then 6
  else 0

/-- The stack that a `MIGRATE` names. -/
def stackNamed (p : Packet) : Nat := (p.words.getD 3 0).toNat % 512

/-- The status of a `MIGRATE` command: its move is under way, has ended, or is refused; `end_` reports the status. -/
def State.migrateNow (s : State) (p : Packet) (begun : Bool) (end_ : State → Nat → State) : State :=
  let page := pageNamed p
  if begun then
    if s.moves.any fun m => m.page == page then s.later 64 (.packet p) .migrate
    else end_ s (if entHome (s.entryOf page) = stackNamed p then 0 else 3)
  else
    let st := s.moveStatus page (stackNamed p)
    let wait : Packet := { p with queue := if p.queue = 64 then 64 else p.queue + 64 }
    if st ≠ 0 then end_ s st else (s.soon .none (.pageMoveStart page (stackNamed p) false)).later 1 (.packet wait) .migrate

/-- `MIGRATE`: its status is written when the move has ended. One of another package's Owl (128 + n, then 192 + n while its move goes on) is
reported to that Owl. -/
def execMigrate (s : State) : Out :=
  let p := s.pkt
  if 128 ≤ p.queue then
    .next (s.migrateNow p (decide (192 ≤ p.queue)) fun s st => s.tell (p.queue % 64) "POOL_COMMAND_COMPLETION" [w64 p.num, w64 st])
  else match s.entryOfPacket p with
    | none => .next s
    | some a =>
      if a.started then
        if a.result.isSome then .next s else .next (s.migrateNow p true fun s st => s.endAdmin p.num 0 st)
      else s.starting fun p s =>
        if s.entryHere (pageNamed p) then s.migrateNow p false fun s st => s.endAdmin p.num 0 st
        else s.sendCommand p (s.hashHome (pageNamed p) / 8)

/-- What a pool command that another package's Owl has done changes: the page's entry as its hash home now has it. The frame that a home agent
there takes is a free value. -/
def State.farDone (s : State) (p : Packet) : State :=
  let w2 := (p.words.getD 2 0).toNat
  let w3 := (p.words.getD 3 0).toNat
  let page := pageNamed p
  let e := s.entryOf page
  let any := (Config.freeValue s.free).toNat % 2 ^ 19
  let s1 : State := { s with free := s.free + 1 }
  match (p.words.getD 0 0).toNat % 256 with
  | 0x43 =>
    s1.backPage page (w2 % 64) (if w3.testBit 1 then bits w3 16 8 else s.hashHome page) (if w3.testBit 2 then bits w3 50 32 else any) (w3.testBit 0)
  | 0x44 => if entValid e then s.releasePage page else s
  | 0x45 =>
    { (s1.setEntry page (indEntry true (entExplicit e) (stackNamed p) any (entCtx e))) with
      mem := moveFrame s.mem (frameKey (entHome e) (entFrame e)) (frameKey (stackNamed p) any) }
  | _ => s

/-- `POOL_COMMAND_COMPLETION` (R117): the Owl that carries out the command of the packet in focus reports its status. -/
def execPoolCommandCompletion (status : Byte) (s : State) : Out :=
  match s.entryOfPacket s.pkt with
  | none => .next s
  | some a =>
    if a.started && a.result.isNone && s.pkt.queue == 64 then
      .next ((if status = 0 then s.farDone s.pkt else s).endAdmin s.pkt.num 0 status.toNat)
    else .next s

/-- What `EQ_CREATE` writes: the descriptor of R92 with `FREE` = `CAP`. -/
def edgeLine (base cap slot : Nat) : List Byte :=
  bytesOf 8 base ++ bytesOf 4 cap ++ bytesOf 2 slot ++ bytesOf 2 0 ++ bytesOf 8 0 ++ bytesOf 8 0 ++ bytesOf 4 cap ++ bytesOf 4 0 ++ List.replicate 216 0

/-- Why the Owl cannot write a run of bytes, as a fault code: a page that it cannot use, or a listed line that the run does not supply whole
(01 R37). -/
def State.writeFail (s : State) (a n : Nat) : Option Nat :=
  let as := (List.range n).map (a + ·)
  match ((as.map pageOf).eraseDups).findSome? fun p => s.pageFail none p with
  | some x => some x.1
  | none => if s.mergesLost as then some 9 else none

/-- Bytes written by the Owl, coherently with every cache; listed lines that they supply whole leave the table. -/
def State.agentWrite (s : State) (a : Nat) (bs : List Byte) : State :=
  let as := (List.range bs.length).map (a + ·)
  ((s.poolWrite a bs).clearLost as).nearLines ((as.map (· / 256)).eraseDups)

/-- A descriptor written, and known as an edge queue's. -/
def State.makeEdge (s : State) (desc : Nat) (bs : List Byte) : State :=
  let s1 := s.agentWrite desc bs
  { s1 with edges := if s1.edges.contains desc then s1.edges else desc :: s1.edges }

/-- `EQ_CREATE` (R115, 03 R92). -/
def execEqCreate (s : State) : Out :=
  s.starting fun p s =>
    let desc := (p.words.getD 2 0).toNat
    let base := (p.words.getD 3 0).toNat
    let cap := bits (p.words.getD 4 0).toNat 24 0
    let slot := bits (p.words.getD 4 0).toNat 40 32
    if 2 ^ 48 ≤ desc ∨ 2 ^ 48 ≤ base ∨ desc % 256 ≠ 0 ∨ base % 256 ≠ 0 ∨ cap = 0 ∨ 2 ^ 24 < cap ∨ slot < 8 ∨ 256 < slot ∨ slot % 8 ≠ 0 then s.endAdmin p.num 0 4
    else match s.writeFail desc 256 with
      | some c => s.endAdmin p.num 0 (if c = 8 then 3 else 4)
      | none => (s.makeEdge desc (edgeLine base cap slot)).endAdmin p.num 0 0

/-- `TABLE_BASE` at a home agent of this package (03 R72): `BUSY` once a page whose entry that home agent keeps is valid. -/
def State.baseCommand (s : State) (p : Packet) : Nat × State :=
  let k := (p.words.getD 2 0).toNat % 512
  if s.ind.any fun e => entValid e.2 && s.hashHome e.1 == k then (1, s)
  else (0, { s with tableBase := tset s.tableBase k (p.words.getD 3 0) })

/-- `TABLE_BASE` (R116, 03 R72); the home agents of another package are set by its Owl. -/
def execTableBase (s : State) : Out :=
  if 128 ≤ s.pkt.queue then
    let r := s.baseCommand s.pkt
    .next (r.2.tell (s.pkt.queue - 128) "POOL_COMMAND_COMPLETION" [w64 s.pkt.num, w64 r.1])
  else s.starting fun p s =>
    let k := (p.words.getD 2 0).toNat % 512
    if !s.homes.contains k ∨ (p.words.getD 3 0).toNat % 4096 ≠ 0 then s.endAdmin p.num 0 4
    else if k / 8 = s.self then (s.baseCommand p).2.endAdmin p.num 0 (s.baseCommand p).1
    else s.sendCommand p (k / 8)

/-! ### `CTX_DESTROY` (R115) -/

/-- The pages of a queue that outlive its context. -/
def Queue.pages (q : Queue) : List Nat :=
  [pageOf q.qcb.toNat] ++ (match q.alt with | some a => [pageOf a.toNat] | none => []) ++
    (List.range (pageOf (q.base.toNat + q.size - 1) - pageOf q.base.toNat + 1)).map (pageOf q.base.toNat + ·)

/-- A context's work on this package stopped and discarded. -/
def State.endWork (s : State) (n : Nat) : State :=
  let s1 := ((s.modCtx n fun c => { c with halt := true }).discardFar n)
  { s1 with images := s1.images.filter fun i => i.ctx != n }

/-- What a context holds on this package released: its partitions and its pages' frames, which remember no living owner (R32). -/
def State.releaseContext (s : State) (n : Nat) : State :=
  let q := s.queueAt n
  let s1 := partitions.foldl (fun s p => s.modPart p fun x => { x with waits := x.waits.filter fun c => c != n }) (s.modCtx n fun c => { c with used := false })
  let s2 := partitions.foldl (fun s p => if (s.partAt p).owner == some n && (s.partAt p).taking.isNone then s.freePart p else s) s1
  let gone := (s2.ind.filter fun e => entValid e.2 && entCtx e.2 == n && !q.pages.contains e.1).map (·.1)
  let s3 := gone.foldl State.releasePage s2
  { ((s3.modCtx n fun _ => {}).forgetCached (fun e => e.ctx == n) fun _ => false) with
    lastOwner := s3.lastOwner.map fun f => if f.2 = n then (f.1, 64) else f }

/-- A context stopped and taken down. -/
def State.destroyContext (s : State) (n : Nat) : State :=
  let s1 := s.endWork n
  let s2 := match (s1.ctxAt n).trace with | some t => s1.finalRecord n t 3 | none => s1
  (s2.modQcb n fun q => { q with qstate := .destroyed, waits := none, accepted := [] }).releaseContext n

/-- `CTX_DESTROY`: the status is written after the `QSTATE` writes. The other packages of the domain release what they hold of the context. -/
def execCtxDestroy (s : State) : Out :=
  if 128 ≤ s.pkt.queue then
    let n := (s.pkt.words.getD 2 0).toNat % 64
    .next ((s.endWork n).releaseContext n)
  else s.onContext fun p n s => ((s.destroyContext n).tellMembers "CTX_DESTROY" p.words).endAdmin p.num 0 0

/-! ### Patches and restarts (R109, R110, R121 to R123) -/

/-- Bytes of a signature. -/
def sigLen : Nat := 29792

/-- An entry of a patch image is well formed. -/
def patchEntryOk (bs : List Byte) : Bool := fieldOf bs 1 1 / 16 == 0 && fieldOf bs 14 2 == 0

/-- Owl entries of an image. -/
def patchCount (bs : List Byte) : Nat := fieldOf bs 8 2
/-- Security version of an image. -/
def patchSecver (bs : List Byte) : Nat := fieldOf bs 12 1

/-- A patch image has the layout of R122 and verifies (R123), given the fuses blown. -/
def patchVerifies (fuses : Nat) (bs : List Byte) : Bool :=
  let n := bs.length
  let k := patchCount bs + fieldOf bs 10 2
  fieldOf bs 0 8 == 0x3148435450414B4F && decide (patchCount bs ≤ 256) && decide (fieldOf bs 10 2 ≤ 256) && decide (patchSecver bs ≤ 64) &&
    fieldOf bs 13 3 == 0 && n == 80 + 16 * k + sigLen && ((List.range k).all fun i => patchEntryOk ((bs.drop (80 + 16 * i)).take 16)) &&
    shake32 ((bs.drop 16).take 64) == Config.rootKeyHash && slhVerify slh256s ((bs.drop 16).take 64) (bs.take (n - sigLen)) (bs.drop (n - sigLen)) &&
    decide (fuses ≤ patchSecver bs)

/-- Entries of an image from one of its numbers on: address and microword (R122). -/
def patchEntries (bs : List Byte) (first n : Nat) : List (Nat × BitVec 96) :=
  (List.range n).map fun i =>
    let e := (bs.drop (80 + 16 * (first + i))).take 16
    (fieldOf e 0 2 % 4096, BitVec.ofNat 96 (fieldOf e 2 12))

/-- The patch RAM of each die sequencer loaded from an image (R121, R122). -/
def dieRams (bs : List Byte) : Table (List (Nat × BitVec 96)) :=
  [0, 1, 2, 3].map fun d => (d, patchEntries bs (patchCount bs) (fieldOf bs 10 2))

/-- The word at a control-store address: that of the entry of the patch RAM with the highest index that names it, else that of the mask ROM
(R121). -/
def microword (die : Bool) (ram : List (Nat × BitVec 96)) (a : Nat) : BitVec 96 :=
  ((ram.reverse.find? fun e => e.1 == a).map (·.2)).getD (Config.controlStore die a)

/-- A verified image in force: the patch RAMs hold its entries, and its fuses are blown (R121, R123). -/
def Owl.load (o : Owl) (bs : List Byte) : Owl :=
  { o with patch := some bs, patchcnt := BitVec.ofNat 9 (patchCount bs), secver := BitVec.ofNat 7 (patchSecver bs), fuses := max o.fuses (patchSecver bs),
           ram := patchEntries bs 0 (patchCount bs), dieRam := dieRams bs }

/-- An image offered for staging. -/
def State.stagePatch (s : State) (bs : List Byte) : Bool × State :=
  if patchVerifies s.owl.fuses bs then (true, { s with owl := { s.owl with staged := some bs } })
  else (false, { s with owl := { s.owl with patchrej := true } })

/-- Pages of a run of pool memory that the Owl cannot use: the first fault code. -/
def State.runFail (s : State) (a n : Nat) : Option Nat := ((List.range (n / 256 + 1)).map fun k => a + min (256 * k) (n - 1)).findSome? s.owlFail

/-- `PATCH_STAGE`: `REJECTED` when the image fails to verify. -/
def execPatchStage (s : State) : Out :=
  s.starting fun p s =>
    let a := (p.words.getD 2 0).toNat
    let n := (p.words.getD 3 0).toNat % 2 ^ 32
    if a % 256 ≠ 0 ∨ 2 ^ 48 < a + n then s.endAdmin p.num 0 4
    else match s.runFail a n with
      | some c => s.endAdmin p.num 0 (if c = 8 then 3 else 4)
      | none =>
        let r := s.stagePatch (s.poolRead a n)
        r.2.endAdmin p.num 0 (if r.1 then 0 else 5)

/-- A restart of the Owl begins: it serves nothing until it ends, within 5 ms. -/
def State.beginRestart (s : State) : State :=
  let o := s.owl
  let n := if o.restarts.toNat = 255 then o.restarts else o.restarts + 1
  ({ s with owl := { o with state := 2, restarts := n } } : State).later 4000000 .none .owlRestartDone

/-- `OWL_RESTART`: completes when the Owl runs again. -/
def execOwlRestart (s : State) : Out := s.starting fun _ s => s.beginRestart

/-- `OWL_WATCHDOG` (R109, R110): a restart; the third within 1 s leaves the Owl failed, and contexts without a standby stop. -/
def execOwlWatchdog (s : State) : Out :=
  if s.owl.state != 1 then .next s
  else
    let recent := s.now :: s.owl.restartTimes.filter fun t => decide (s.now < t + 800000000)
    let s1 : State := { s with owl := { s.owl with restartTimes := recent } }
    if recent.length < 3 then .next s1.beginRestart
    else
      let n := if s.owl.restarts.toNat = 255 then s.owl.restarts else s.owl.restarts + 1
      let s2 := ({ s1 with owl := { s1.owl with state := 3, restarts := n } } : State).emit (.mgmt "OWL_FAILED" 0)
      let mine := (List.range 64).filter fun c => (s.ctxAt c).used && (s.ctxAt c).root == s.self && (s.ctxAt c).standby == 64
      .next (mine.foldl (fun s c => s.stopQueue c 0x101 0) s2)

/-- The started `OWL_RESTART` packets complete. -/
def State.endRestarts (s : State) : State :=
  ((s.queueAt 64).accepted.filter fun a => a.started && a.result.isNone && (a.words.getD 0 0).toNat % 256 == 0x49).foldl
    (fun s a => s.endAdmin a.num 0 0) s

/-- The state of a queue code (R105). -/
def QState.ofCode (n : Nat) : QState :=
  match n with
  | 0 => .idle | 1 => .running | 2 => .halted | 3 => .stopped | 4 => .resetting | _ => .destroyed

/-- A queue with the state that the copy `GEN` mod 2 of a QCB holds (R107, R109). -/
def State.fromQcb (s : State) (a : Nat) (q : Queue) : Queue :=
  let g := s.poolWord (a + 160)
  let f := fun (k : Nat) => s.poolWord (a + 32 + 64 * (g.toNat % 2) + 8 * k)
  let st := (f 2).toNat
  { q with gen := g, head := f 1, qtl := f 3, detail := f 4, admitted := f 5, qstate := QState.ofCode (st % 16), cause := bits st 31 16,
           rootchg := st.testBit 7, svcchg := st.testBit 6 }

/-- A queue read again from its QCB after a restart (R109): packets whose acceptance no QCB records are accepted again; a `TLWAIT` that stands
at HEAD goes on waiting. The other copy is rewritten. -/
def State.reread (s : State) (n : Nat) : State :=
  let q := s.queueAt n
  if (s.owlFail q.qcb.toNat).isSome then s
  else
    (s.modQueue n fun q =>
      let x := s.fromQcb q.qcb.toNat q
      { x with tail := if n ≠ 64 && (s.ctxAt n).checked then x.admitted else q.tail,
               accepted := q.accepted.filter fun a => a.started || (q.waits.isSome && a.num == q.waitNo) }).writeQcb n

/-- `ADMIN_QCB` written, with `ADMIN_RING` as it then stood: the admin queue is created (R102, R482). A page that cannot be used leaves it
idle, as in `BOOT`, when no page is valid yet. -/
def State.createAdminWith (s : State) (qcb ring : W64) : State :=
  let r := ring.toNat
  let log2 := r % 64
  let base := bits r 47 12 * 4096
  let idle : State := s.modQueue 64 fun _ => { base := w64 base, qcb := qcb }
  match [qcb.toNat, base, base + 2 ^ log2 - 1].findSome? s.owlFail with
  | some c => idle.emit (.mgmt "ADMIN_PAGE" c)
  | none =>
    if 12 ≤ log2 ∧ log2 ≤ 26 then (s.modQueue 64 fun _ => { base := w64 base, log2 := log2, qcb := qcb }).createQcb 64 qcb.toNat else idle

/-- `ADMIN_QCB` written (R98): an Owl that restarts creates the queue when it runs again; one that does not run creates none. -/
def State.createAdmin (s : State) (v : W64) : State :=
  let qcb := v &&& 0x0000FFFFFFFFFF00
  let s1 : State := { s with owl := { s.owl with adminQcb := qcb } }
  if s.owl.state = 1 then s1.createAdminWith qcb s.owl.adminRing
  else if s.owl.state = 2 then { s1 with owl := { s1.owl with adminWait := some (qcb, s.owl.adminRing) } }
  else s1

/-- What was written to `ADMIN_QCB` during a restart is acted on. -/
def State.takeAdmin (s : State) : State :=
  match s.owl.adminWait with
  | some w => ({ s with owl := { s.owl with adminWait := none } } : State).createAdminWith w.1 w.2
  | none => s

/-- `OWL_RESTART_DONE` (R109): a staged image comes into force, or the patches are reloaded; each queue is taken from its QCB, which is rewritten
before the next acceptance; what fell due meanwhile is done. -/
def execOwlRestartDone (s : State) : Out :=
  if s.owl.state != 2 then .next s
  else
    let o : Owl := { s.owl with state := 1, staged := none }
    let s1 : State := { s with owl := match s.owl.staged.or s.owl.patch with | some bs => o.load bs | none => o }
    let ns := (List.range 65).filter fun n => (s1.queueAt n).log2 != 0 && (n == 64 || ((s1.ctxAt n).used && (s1.ctxAt n).root == s.self))
    let s2 := ns.foldl State.reread s1
    let s3 := s2.endRestarts
    .next ((ns.foldl (fun s n => ((s.wakeContext n).nudge n).ring n) s3).takeAdmin)

/-! ### Attestation (R124, R125) -/

/-- The first 128 bytes of a report. -/
def State.reportBytes (s : State) (nonce : List W64) : List Byte :=
  let hash := fun (o : Option (List Byte)) => match o with | some bs => shake32 bs | none => List.replicate 32 0
  wordBytes nonce ++ bytesOf 8 Config.serial.toNat ++ bytesOf 1 s.owl.secver.toNat ++ bytesOf 7 0 ++ hash s.owl.patch ++ hash s.owl.bootImage ++
    bytesOf 1 (s.pkg.service &&& 0xF7).toNat ++ bytesOf 7 0 ++ bytesOf 8 s.pkg.epoch.toNat

/-- The signature of the identity key: its three seeds come from the device secret and the string `KA8040-ID` (R124). -/
def identitySign (m : List Byte) : List Byte :=
  let seeds := shake256 (Config.deviceSecret ++ [0x4B, 0x41, 0x38, 0x30, 0x34, 0x30, 0x2D, 0x49, 0x44]) 96
  slhSign slh256s (seeds.take 32) ((seeds.drop 32).take 32) (seeds.drop 64) (Config.signRandom m) m

/-- A report signed with the identity key. -/
def State.report (s : State) (nonce : List W64) : List Byte :=
  let bs := s.reportBytes nonce
  bs ++ identitySign bs

/-- A request for a report: 1 + its admin packet, or 0 for one of management. None when four already wait. -/
def State.askReport (s : State) (k : Nat) (ws : List W64) : Option State :=
  if 5 ≤ s.owl.attests.length then none
  else
    let s1 : State := { s with owl := { s.owl with attests := s.owl.attests ++ [(k, ws)] } }
    some (if s.owl.attests.isEmpty then s1.offCore .none .attestSigned else s1)

/-- `ATTEST`: words 2 to 6 are the address and the nonce. -/
def execAttest (s : State) : Out :=
  s.starting fun p s =>
    let a := (p.words.getD 2 0).toNat
    if a % 256 ≠ 0 ∨ 2 ^ 48 < a + 128 + sigLen then s.endAdmin p.num 0 4
    else (s.askReport (p.num + 1) (p.words.drop 2)).getD (s.endAdmin p.num 0 1)

/-- `MCTP_ATTESTATION` (R126): the report goes to management. -/
def execMctpAttestation (nonce : List Byte) (s : State) : Out :=
  let ws := (List.range 4).map fun k => w64 (fieldOf nonce (8 * k) 8)
  .next ((s.askReport 0 (0 :: ws)).getD (s.emit (.reply "ATTEST_BUSY" [])))

/-- `ATTEST_SIGNED` (R125): the oldest request receives its report, and the next is begun. -/
def execAttestSigned (s : State) : Out :=
  match s.owl.attests with
  | [] => .next s
  | (k, ws) :: rest =>
    let bs := s.report (ws.drop 1)
    let a := (ws.headD 0).toNat
    let s1 : State := { s with owl := { s.owl with attests := rest } }
    let s2 := if k = 0 then s1.emit (.reply "ATTESTATION" bs)
      else match s1.writeFail a bs.length with
        | some c => s1.endAdmin (k - 1) 0 (if c = 8 then 3 else 4)
        | none => (s1.agentWrite a bs).endAdmin (k - 1) 0 0
    .next (if rest.isEmpty then s2 else s2.offCore .none .attestSigned)

/-- `PAIR_BIND` (R118): the partner is a package of the domain in another tray. -/
def execPairBind (s : State) : Out :=
  s.starting fun p s =>
    let n := (p.words.getD 2 0).toNat % 64
    if n / 4 = s.self / 4 ∨ !s.inDomain n then s.endAdmin p.num 0 4
    else ({ s with owl := { s.owl with partner := some n } } : State).endAdmin p.num 0 0

end Sys2Proof.Machine
end

