-- ==== Sys2Proof/Machine/CopyOps.lean ====
section
/-! DEFINITION. The copy, Badger and trace-mark instructions (spec/15_isa_tile_copy_pool.md R445, R453; spec/16_isa_system.md
R468): their checks at issue. Descriptors are read and checked at the commit point (Machine/Commit.lean). -/

namespace Sys2Proof.Machine

/-- An instruction that names a descriptor in stash: a range that leaves the team's stash is `ILLEGAL` (R428), a
misaligned offset `MISALIGN` at execution; otherwise it is sent at commit. -/
def sendDescriptor (f : Form) (i : Instr) (size align : Nat) (s : State) : Out :=
  departIf f i (fun o =>
    let a := (lane o.a.vals 0).toNat
    if !o.acts then none
    else if s.team.stashKiB * 1024 < a + size then some (s.execFault 1 19 255 o.live [])
    else if a % align ≠ 0 then some (s.execFault 7 0 255 o.live [])
    else none) s

/-- `cpy` (R445). -/
def execCpy (f : Form) (p : BitVec 5) (s : State) : Out := sendDescriptor f (.cpy f p) 384 128 s
/-- `cpyg` (R445). -/
def execCpyg (f : Form) (p : BitVec 5) (s : State) : Out := sendDescriptor f (.cpyg f p) 384 128 s
/-- `cpyx` (R445). -/
def execCpyx (f : Form) (p : BitVec 5) (s : State) : Out := sendDescriptor f (.cpyx f p) 384 128 s
/-- `cfill` (R445). -/
def execCfill (f : Form) (p : BitVec 5) (s : State) : Out := sendDescriptor f (.cfill f p) 384 128 s
/-- `pfill` (R453). -/
def execPfill (f : Form) (s : State) : Out := sendDescriptor f (.pfill f) 64 64 s
/-- `pcopy` (R453). -/
def execPcopy (f : Form) (s : State) : Out := sendDescriptor f (.pcopy f) 64 64 s
/-- `pcmp` (R453). -/
def execPcmp (f : Form) (s : State) : Out := sendDescriptor f (.pcmp f) 64 64 s
/-- `predx` (R453). -/
def execPredx (f : Form) (e : Ty) (fn : BadgerFn) (s : State) : Out := sendDescriptor f (.predx f e fn) 64 64 s
/-- `pgath` (R453). -/
def execPgath (f : Form) (e : Ty) (fn : BadgerFn) (s : State) : Out := sendDescriptor f (.pgath f e fn) 64 64 s
/-- `trc` (R468): marks the gang at commit. -/
def execTrc (f : Form) (s : State) : Out := depart f (.trc f) s

end Sys2Proof.Machine
end

