-- ==== Sys2Proof/Machine/Host.lean ====
section
/-! DEFINITION. What reaches the package from a host or from management (spec/04_host_commands.md R96 to R100, R118 to R120, R126,
R482): the pool aperture, the register window, the checked pair, sensors and firmware. -/

namespace Sys2Proof.Machine

/-! ### PCIe and the pool aperture (R96, R97, R482) -/

/-- `PCIE_LINK_TRAIN` (R96): generation 7, 6 or 5 and width 16, 8 or 4. -/
def execPcieLinkTrain (rate width : Nat) (s : State) : Out :=
  if [5, 6, 7].contains rate && [4, 8, 16].contains width then .next { s with pkg := { s.pkg with pcieRate := rate, pcieWidth := width } } else .next s

/-- Pool-logical address of an offset in BAR2. -/
def State.apertureAt (s : State) (off : Nat) : Nat := s.owl.aperture.toNat * 2 ^ 28 + off

/-- Why an access from outside to a pool byte fails: the page is not valid, its home is lost, or its line is. -/
def State.hostFail (s : State) (a : Nat) : Bool := (s.owlFail a).isSome

/-- Pages of a list of addresses that are not valid, each logged to management (R482). -/
def State.logPages (s : State) (as : List Nat) : State :=
  (((as.filter s.hostFail).map pageOf).eraseDups).foldl (fun s p => s.emit (.mgmt "PAGE_INVALID" p)) s

/-- Bytes from outside written to pool memory; those of a page that is not valid are discarded, and a lost line takes only a write that
supplies it whole (01 R37). -/
def State.hostWrite (s : State) (a : Nat) (bs : List Byte) : State :=
  let as := (List.range bs.length).map (a + ·)
  let ok := (as.zip bs).filter fun c => (s.pageFail none (pageOf c.1)).isNone && (!s.lineLost c.1 || coversLine as (c.1 / 256))
  let lines := (ok.map fun c => c.1 / 256).eraseDups
  (((s.writeCells ok).clearLost (ok.map Prod.fst)).nearLines lines).logPages (as.filter fun x => (s.pageFail none (pageOf x)).isSome)

/-- `APERTURE_WRITE` (R97, R482). -/
def execApertureWrite (off : Nat) (bytes : List Byte) (s : State) : Out :=
  .next (s.hostWrite (s.apertureAt off) (bytes.take (2 ^ 28 - off)))

/-- `APERTURE_READ` (R97, R482): the bytes, or Unsupported Request. -/
def execApertureRead (off len : Nat) (s : State) : Out :=
  let a := s.apertureAt off
  let as := (List.range len).map (a + ·)
  if decide (2 ^ 28 < off + len) || as.any s.hostFail then .next ((s.logPages as).emit (.reply "UNSUPPORTED_REQUEST" []))
  else .next (s.emit (.reply "COMPLETION" (s.poolRead a len)))

/-- The word that an AtomicOp leaves. -/
def atomicNew (kind : PcieAtomic) (size old operand compare : Nat) : Nat :=
  match kind with
  | .fetchAdd => (old + operand) % 256 ^ size
  | .swap => operand
  | .cas => if old = compare then operand else old

/-- `PCIE_ATOMICOP` (R96): a host's atomic of 32 or 64 bits on pool memory; the reply carries the old value. -/
def execPcieAtomicop (kind : PcieAtomic) (off : Nat) (wide : Bool) (operand compare : W64) (s : State) : Out :=
  let n := if wide then 8 else 4
  let a := s.apertureAt off
  if off % n ≠ 0 ∨ 2 ^ 28 < off + n ∨ s.hostFail a then .next ((s.logPages [a]).emit (.reply "UNSUPPORTED_REQUEST" []))
  else
    let old := natOf (s.poolRead a n)
    let new := atomicNew kind n old (operand.toNat % 256 ^ n) (compare.toNat % 256 ^ n)
    .next ((s.hostWrite a (bytesOf n new)).emit (.reply "COMPLETION" (bytesOf n old)))

/-! ### The checked pair (R118 to R120) -/

/-- `ADMIT` (R119): a member writes a free slot. -/
def execAdmitDigest (ctx member : Nat) (digest : BitVec 256) (at_ : W64) (s : State) : Out :=
  if member < 2 && slotFree (s.slotOf ctx member) then .next ((s.setSlot ctx member (digest, at_)).lookAtSlots ctx) else .next s

/-- `PACKET_ADMISSION` (R120): the members' digests and that of the ring's bytes; equal ones admit the packet. One whose `LEN` is 0 leaves
`ADMITTED` where it is, and the header checks of R112 apply to it. -/
def execPacketAdmission (s : State) : Out :=
  let ctx := s.subj
  let q := s.queueAt ctx
  let a := s.slotOf ctx 0
  let b := s.slotOf ctx 1
  let v := q.admitted.toNat
  if slotFree a || slotFree b || !q.qstate.reads || !(s.ctxAt ctx).checked then .next s
  else if a.1 ≠ b.1 then .next (s.mismatch ctx 1)
  else match s.ringFail q v 1 with
    | some c => .next (s.ringLost ctx c 0)
    | none =>
      let len := bits (s.poolWord (q.ringAt v)).toNat 31 16
      match s.ringFail q v len with
      | some c => .next (s.ringLost ctx c 0)
      | none =>
        let own := BitVec.ofNat 256 (natOf (shake32 (wordBytes (s.ringWords q v len))))
        if own ≠ a.1 then .next (s.mismatch ctx 2)
        else
          let s1 := s.modQcb ctx fun q =>
            { q with admitted := q.admitted + w64 (8 * len), tail := q.admitted + w64 (8 * len), bare := len == 0 }
          let free : BitVec 256 × W64 := (0, 0xFFFFFFFFFFFFFFFF)
          .next (((s1.setSlot ctx 0 free).setSlot ctx 1 free).pump ctx)

/-- `ADMIT_TIMEOUT` (R120): one slot has held a valid AT for 10 ms without the other. -/
def execAdmitTimeout (s : State) : Out :=
  let q := s.queueAt s.subj
  match q.halfSlot with
  | none => .next s
  | some t => if t + 8000000 ≤ s.now then .next ((s.modQueue s.subj fun q => { q with halfSlot := none }).mismatch s.subj 3) else .next s

/-! ### The register window (R98, R102) -/

/-- `ADMIN_QCB` (R98). -/
def execAdminQcb (v : W64) (s : State) : Out := .next (s.createAdmin v)

/-- A write of 8 bytes in an admission window: a quarter of DIGEST, or AT (R119). -/
def State.windowWrite (s : State) (off : Nat) (v : W64) : State :=
  let ctx := off / 128
  let m := off % 128 / 64
  let o := off % 64
  let x := s.slotOf ctx m
  if !slotFree x then s
  else if o < 32 then
    let d := x.1.toNat
    let sh := 2 ^ (8 * (o / 8 * 8))
    s.setSlot ctx m (BitVec.ofNat 256 (d - d / sh % 2 ^ 64 * sh + v.toNat * sh), x.2)
  else if o = 32 then (s.setSlot ctx m (x.1, v)).lookAtSlots ctx
  else s

/-- Vectors whose entries have been unmasked while they were pending are sent (R98, notes/assumptions/121.md). -/
def State.sendPending (s : State) : State :=
  let out := s.owl.pba.filter fun v => !(s.owl.vectorControl v).testBit 0
  out.foldl (fun s v => s.emit (.msix v)) { s with owl := { s.owl with pba := s.owl.pba.filter fun v => !out.contains v } }

/-- A write of 8 bytes in the MSI-X table: entry v holds its address at 16 v, its data and control at 16 v + 8. -/
def State.tableWrite (s : State) (k : Nat) (v : W64) : State :=
  ({ s with owl := { s.owl with msix := tset s.owl.msix k v } } : State).sendPending

/-- `REGISTER_WRITE` (R98): a write of 8 bytes at an offset of BAR0; read-only and reserved offsets ignore it. -/
def execRegisterWrite (off : Nat) (v : W64) (s : State) : Out :=
  if off = 0x2100 then .next { s with owl := { s.owl with aperture := v.extractLsb' 28 20 } }
  else if off = 0x2200 then .next (s.createAdmin v)
  else if off = 0x2208 then .next (s.ring 64)
  else if off = 0x2210 then .next { s with owl := { s.owl with adminRing := v &&& 0x07FFFFFFFFFFF03F } }
  else if 0x10000 ≤ off ∧ off < 0x10200 ∧ off % 8 = 0 then .next (s.ring ((off - 0x10000) / 8))
  else if 0x20000 ≤ off ∧ off < 0x22000 ∧ off % 8 = 0 then .next (s.windowWrite (off - 0x20000) v)
  else if 0x100000 ≤ off ∧ off < 0x108000 ∧ off % 8 = 0 then .next (s.tableWrite ((off - 0x100000) / 8) v)
  else .next s

/-! ### Management (R100, R124, R126) -/

/-- PORT_STATUS of a scale-up port (02 R50). SW reads the switch number from reset on (notes/assumptions/126.md). -/
def LinkSt.status (l : LinkSt) (p : Nat) : Nat :=
  let state := if l.fenced then 5 else if l.down then 4 else if l.up then 2 else if l.training then (if l.trained then 3 else 1)
    else if l.trained then 4 else 0
  let width := if l.up then (if l.width = 4 then 2 else 1) else 0
  l.swport * 2 ^ 23 + p / 2 * 2 ^ 21 + l.retrains.toNat * 2 ^ 8 + (if l.cabling then 32 else 0) + width * 8 + state

/-- The domain status register (R51). -/
def State.domainStatus (s : State) : List W64 :=
  let st := match s.pkg.dstate with | .forming => 0 | .member => 1 | .standalone => 2
  [s.pkg.members, s.pkg.lost, w64 (s.pkg.epoch.toNat + s.self % 64 * 2 ^ 32 + st * 2 ^ 38)]

/-- `SENSOR_READ` (R126): temperatures are whatever the sensors see; power is the last sample; a port's status and the
domain's are their registers (02 R50, R51). -/
def execSensorRead (what : Sensor) (s : State) : Out :=
  let put := fun (s : State) (bs : List Byte) => s.emit (.reply "SENSOR" bs)
  match what with
  | .packagePower => .next (put s (bytesOf 8 (s.pkg.samples.headD 0)))
  | .portStatus i =>
    let l := tget s.pkg.links i {}
    .next (put s (bytesOf 4 (l.status (i % 8))))
  | .domainStatus => .next (put s (s.domainStatus.flatMap fun w => bytesOf 8 w.toNat))
  | .dieTemp _ | .coolantInlet => .next (put { s with free := s.free + 1 } (bytesOf 8 (Config.freeValue s.free).toNat))

/-- The service-core boot image verifies against the root key hash (R100): its last bytes are the signature. -/
def bootVerifies (bs : List Byte) : Bool :=
  let key := Config.bootKey bs
  decide (sigLen ≤ bs.length) && shake32 key == Config.rootKeyHash &&
    slhVerify slh256s key (bs.take (bs.length - sigLen)) (bs.drop (bs.length - sigLen))

/-- `FIRMWARE_UPDATE` (R123, R126): an image is verified and staged. -/
def execFirmwareUpdate (c : Component) (image : List Byte) (s : State) : Out :=
  match c with
  | .patch => let r := s.stagePatch image; .next (r.2.emit (.reply (if r.1 then "UPDATE_DONE" else "UPDATE_REJECTED") []))
  | .serviceBoot =>
    if bootVerifies image then .next (({ s with owl := { s.owl with bootStaged := some image } } : State).emit (.reply "UPDATE_DONE" []))
    else .next (s.emit (.reply "UPDATE_REJECTED" []))

/-- The service cores start, or start again, from an image that verifies (R100). -/
def State.startService (s : State) : State :=
  let image := match s.owl.bootStaged with | some bs => some bs | none => s.owl.bootImage
  let ok := match image with | some bs => bootVerifies bs | none => false
  { s with owl := { s.owl with bootImage := image, bootStaged := none, svcCores := ok } }

/-- `FIRMWARE_ACTIVATE` (R126): a restart of the Owl, or of the service cores. -/
def execFirmwareActivate (c : Component) (s : State) : Out :=
  match c with
  | .patch => if s.owl.state = 1 then .next s.beginRestart else .next s
  | .serviceBoot => .next s.startService

/-- `PLDM_DISCOVERY` (R126): the types supported. -/
def execPldmDiscovery (s : State) : Out := .next (s.emit (.reply "PLDM_TYPES" [0, 2, 5]))

/-- `CERTIFICATE_READ` (R124, R126). -/
def execCertificateRead (s : State) : Out := .next (s.emit (.reply "CERTIFICATE" Config.certificate))

end Sys2Proof.Machine
end

