-- ==== Sys2Proof/Machine/Service.lean ====
section
/-! DEFINITION. Clocks, power, heat, bring-up and service levels, soft errors (spec/01_package.md R13 to R37; spec/06_cores.md R197). -/

namespace Sys2Proof.Machine

/-! ### Frequencies and power (R13, R21 to R24) -/

/-- A partition runs in elastic timing under an owner. -/
def Partition.elastic (x : Partition) : Bool := x.owner.isSome && !x.fixed

/-- The power of the last 1 ms averages above the limit (R21). -/
def Pkg.overLimit (p : Pkg) : Bool := decide (p.powerLimit * p.samples.length < p.samples.foldl (· + ·) 0)

/-- May the power manager set a partition of a die from one target to another (R13, R24)? Below 800 MHz only while the power limit or a thermal
limit calls for it or on the way back up, above 800 MHz only when both allow; a throttled die is held at 560 MHz. -/
def State.mayTarget (s : State) (die from_ mhz : Nat) : Bool :=
  let hot := s.pkg.throttled.getLsbD die
  if hot then mhz == 560
  else if mhz < 800 then s.pkg.overLimit || decide (from_ ≤ mhz)
  else mhz == 800 || !s.pkg.overLimit

/-- `TARGET_FREQUENCY_CHANGE` (R13, R24): 560 to 960 MHz in steps of 20, for a partition in elastic timing. -/
def execTargetFrequencyChange (die q mhz : Nat) (s : State) : Out :=
  let p := 4 * die + q
  if q < 4 ∧ die < 4 ∧ 560 ≤ mhz ∧ mhz ≤ 960 ∧ mhz % 20 = 0 ∧ (s.partAt p).elastic ∧ s.mayTarget die (s.partAt p).mhz mhz then
    .next (s.modPart p fun x => { x with mhz := mhz })
  else .next s

/-- The elastic partition whose target is lowered next: lowest context priority, then highest number. -/
def State.slowNext (s : State) : Option Nat :=
  let prio := fun (p : Nat) => match (s.partAt p).owner with | some c => (s.ctxAt c).prio | none => 0
  match partitions.filter fun p => (s.partAt p).elastic && decide (560 < (s.partAt p).mhz) with
  | [] => none
  | p :: r => some (r.foldl (fun b x => if prio x ≤ prio b then x else b) p)

/-- `POWER_SAMPLE` (R21): the average of the last 1 ms is held at the limit by lowering a target. -/
def execPowerSample (watts : Nat) (s : State) : Out :=
  let l := (watts :: s.pkg.samples).take 100
  let s1 := s.modPkg fun p => { p with samples := l }
  if !s1.pkg.overLimit then .next s1
  else match s1.slowNext with
    | some p => .next (s1.modPart p fun x => { x with mhz := x.mhz - 20 })
    | none => .next s1

/-- The fixed-timing partition that is pre-empted next when the reservation is above the limit (R23). -/
def State.powerVictim (s : State) : Option Nat :=
  let prio := fun (p : Nat) => match (s.partAt p).owner with | some c => (s.ctxAt c).prio | none => 0
  match partitions.filter fun p => s.fixedPart (s.partAt p) && (s.partAt p).taking.isNone with
  | [] => none
  | p :: r => some (r.foldl (fun b x => if prio x ≤ prio b then x else b) p)

/-- Fixed-timing partitions pre-empted until what is left of the reservation fits. -/
def State.shed (s : State) : Nat → State
  | 0 => s
  | k + 1 =>
    let going := (s.parts.filter fun p => s.fixedPart p.2 && p.2.taking == some 64).length
    if s.reserved ≤ s.pkg.powerLimit + 120 * going then s
    else match s.powerVictim with
      | some p => State.shed (s.takePart p 64) k
      | none => s

/-- `POWER_LIMIT_EFFECTER` (R21 to R23): 1,200 to 2,400 W in steps of 25 W. -/
def execPowerLimitEffecter (watts : Nat) (s : State) : Out :=
  if 1200 ≤ watts ∧ watts ≤ 2400 ∧ watts % 25 = 0 then
    let s1 := s.modPkg fun p => { p with powerLimit := watts }
    .next ((s1.shed 16).retryParts)
  else .next s

/-! ### Droop (R14, R16, R19, R20) -/

/-- A core's clock stretches its cycles until the droop ends (R14). -/
def State.stretch (s : State) (core : Nat) : State :=
  s.modPkg fun p => { p with stretched := if p.stretched.contains core then p.stretched else p.stretched ++ [core] }

/-- A partition is being saved or restored by its die sequencer (R20, 05 R159). -/
def Partition.atRest (x : Partition) : Bool := x.halted || x.taking.isSome

/-- `DROOP_STRETCH` (R14, R16, R20): the core's clock stretches until the droop ends. Above the guard level nothing stretches a running
fixed-timing partition. -/
def execDroopStretch (die core : Nat) (s : State) : Out :=
  let c := 144 * die + core
  let x := s.partAt (partOf c)
  if x.fixed && !x.atRest then .next s else .next (s.stretch c)

/-- `DROOP_END` (R14). -/
def execDroopEnd (die core : Nat) (s : State) : Out :=
  .next (s.modPkg fun p => { p with stretched := p.stretched.filter fun c => c != 144 * die + core })

/-- Issue stops in a context's partitions on a die, and its gangs there stand at their oldest uncommitted blocks (R19 steps 2 to 4). -/
def State.guardDie (s : State) (ctx die : Nat) : State :=
  let ns := (s.ctxGangs ctx).filter fun n => ((s.gangAt n).map fun g => dieOf g.core == die).getD false
  partitions.foldl (fun s p =>
    if p / 4 = die && (s.partAt p).owner == some ctx then s.modPart p fun x => { x with guard := true } else s) (s.standAll ns)

/-- `DROOP_GUARD` (R16, R19, R20) at the core in `subj`, of a fixed-timing partition: its clock stretches, the context's work on the die stops,
and the Owl receives the context fault, one for a context until it has stopped. A partition that is saved or restored only stretches. -/
def execDroopGuard (s : State) : Out :=
  let core := s.subj
  let x := s.partAt (partOf core)
  match x.owner with
  | none => .next s
  | some ctx =>
    if !x.fixed then .next s
    else
      let s1 := s.stretch core
      if x.atRest || (s.ctxAt ctx).halt || x.guard then .next s1
      else
        let told := s.parts.any fun p => p.2.owner == some ctx && p.2.guard
        let s2 := s1.guardDie ctx (dieOf core)
        .next (if told then s2 else s2.offCore (.on ctx) (.contextFault 0 3 15))

/-! ### Heat (R24) -/

/-- `THERMAL_WARNING`: a sensor at 95 °C or above is an event to management. -/
def execThermalWarning (die celsius : Nat) (s : State) : Out :=
  if 95 ≤ celsius then .next (s.emit (.mgmt "THERMAL" (1000 * die + celsius))) else .next s

/-- Partitions of a die in elastic timing set to a target. -/
def State.setTargets (s : State) (die mhz : Nat) : State :=
  (List.range 4).foldl (fun s q => s.modPart (4 * die + q) fun x => if x.elastic then { x with mhz := mhz } else x) s

/-- A die's throttle flag. -/
def throttleBit (die : Nat) : BitVec 4 := BitVec.ofNat 4 (2 ^ die)

/-- `THERMAL_THROTTLE`: the die's elastic partitions are held at 560 MHz. -/
def execThermalThrottle (die : Nat) (s : State) : Out :=
  .next ((s.modPkg fun p => { p with throttled := p.throttled ||| throttleBit die }).setTargets die 560)

/-- `THERMAL_THROTTLE_RELEASE`: every sensor of the die reads below 100 °C; its targets rise again unless the power limit holds them (R13). -/
def execThermalThrottleRelease (die : Nat) (s : State) : Out :=
  let s1 := s.modPkg fun p => { p with throttled := p.throttled &&& ~~~(throttleBit die) }
  .next (if s.pkg.overLimit then s1 else s1.setTargets die 800)

/-- The bit of a package in a member set (02 R51). -/
def pkgBit (n : Nat) : W64 := w64 (2 ^ n)

/-! ### Bring-up (R26 to R31, R67, R123, R197) -/

/-- `TRAINING_FAILURE` (R30). A package that has failed keeps the service byte of one C-die at level none (notes/assumptions/124.md). -/
def execTrainingFailure (u : FailUnit) (s : State) : Out :=
  let fatal := s.pkg.bring == .boot && (u == .die 0 || u == .stack 0 || u == .stack 1)
  let s1 := s.modPkg fun p => { p with failedUnits := if p.failedUnits.contains u then p.failedUnits else p.failedUnits ++ [u] }
  if fatal then
    .next ((({ s1 with owl := { s1.owl with state := 3 } } : State).modPkg fun p => { p with bring := .failed, service := 0x10 }).emit
      (.mgmt "FAILED" 0))
  else match u with
    | .dieLink a b => .next (s1.soon .none (.linkDown (.dieDie a b)))
    | .hubLink d => .next (s1.soon .none (.linkDown (.dieHub d)))
    | _ => .next s1

/-- The boot-flash patch image loaded, or `PATCHREJ` set (R123). -/
def Owl.bootPatch (o : Owl) : Owl :=
  match o.flash with
  | none => o
  | some bs => if patchVerifies o.fuses bs then o.load bs else { o with patchrej := true }

/-- The home list in `BOOT` and in reduced service: stacks 0 and 1 of the package (R67). -/
def State.bootHomes (s : State) : State := { s with homes := [8 * s.self, 8 * s.self + 1] }

/-- `STANDBY_POWER_GOOD` (R26): `BOOT` begins; patches are loaded and every lane is tested. -/
def execStandbyPowerGood (s : State) : Out :=
  if s.pkg.bring != .off then .next s
  else
    let s1 := ({ s with owl := { s.owl.bootPatch with state := 1 } } : State).modPkg fun p => { p with bring := .boot, dstate := .forming }
    .next (((List.range 576).foldl State.testCore s1.bootHomes).offCore .none .bootComplete)

/-- A stack of this package has trained, and its die. -/
def State.stackGood (s : State) (j : Nat) : Bool := !s.pkg.failedUnits.contains (.stack j) && !s.pkg.failedUnits.contains (.die (j / 2))

/-- The frames of the admin region zeroed (04 R481). -/
def State.prepareAdmin (s : State) : State :=
  { s with mem := (List.range 16).foldl (fun m i => zeroFrame m (8 * s.self) (521984 + i)) s.mem }

/-- Formation still stands before its time-out (02 R53). -/
def State.formationPending (s : State) : Bool :=
  s.pkg.dstate == .forming && s.agenda.any fun d => match d.ev with | .formationTimeout => true | _ => false

/-- `BOOT_COMPLETE` (R26, R67, 04 R481): reduced service begins. -/
def execBootComplete (s : State) : Out :=
  if s.pkg.bring != .boot then .next s
  else
    let s0 := (s.modPkg fun p =>
      { p with bring := .reduced, service := 0x11, admitting := true,
               links := (List.range 32).map fun i => (i, { tget p.links i {} with training := true }) }).prepareAdmin.startService
    let s1 := if s.pkg.present = pkgBit s.self then s0.soon .none .domainPublish else s0
    .next ((s1.bootHomes.offCore .none .trainingEnd).later 16000000000 .none .formationTimeout)

/-- C-dies that have trained. -/
def State.goodDies (s : State) : List Nat := [0, 1, 2, 3].filter fun d => !s.pkg.failedUnits.contains (.die d)

/-- What the package reports at the end of its training: bit k for stack k, bit 8 + d for C-die d. -/
def State.ownUnits (s : State) : Nat :=
  sumOf (fun k => 2 ^ k) ((List.range 8).filter s.stackGood) + sumOf (fun d => 2 ^ (8 + d)) s.goodDies

/-- The transition begins: launches are no longer admitted; those that run have up to 100 ms. -/
def State.beginTransition (s : State) : State :=
  if !s.pkg.admitting then s
  else (s.modPkg fun p => { p with admitting := false }).later (if s.launches.isEmpty then 0 else 80000000) .none .serviceTransitionTimeout

/-- Members of the domain that can be reached, this package among them (02 R51). -/
def State.liveMembers (s : State) : List Nat :=
  (List.range 64).filter fun n => n = s.self || (s.pkg.members.getLsbD n && !s.pkg.lost.getLsbD n)

/-- The member with the lowest number starts the transition in every member once all have ended their training (02 R53). -/
def State.startTogether (s : State) : State :=
  let ms := s.liveMembers
  if ms.headD s.self ≠ s.self || !(ms.all fun n => s.pkg.ended.getLsbD n) then s
  else ((ms.filter fun n => n != s.self).foldl (fun s n => s.tell n "TRANSITION" []) s).beginTransition

/-- A package has ended its training with some units in service. -/
def State.noteEnd (s : State) (n units : Nat) : State :=
  s.modPkg fun p => { p with ended := p.ended ||| pkgBit n, units := if n = s.self then p.units else tset p.units n units }

/-- `TRAINING_END` (R29, 02 R53), after the forming of the domain: a package alone starts its transition; a member reports to the others, and
the lowest starts it in all. A report of member n comes as 128 + n, the start as 256 + n. -/
def execTrainingEnd (s : State) : Out :=
  let q := s.pkt.queue
  if s.pkg.bring != .reduced then .next s
  else if 256 ≤ q then .next s.beginTransition
  else if 128 ≤ q then .next ((s.noteEnd (q % 64) ((s.pkt.words.getD 0 0xFFF).toNat)).startTogether)
  else if s.formationPending then .next (s.later 800000 .none .trainingEnd)
  else if s.pkg.dstate != .member then .next s.beginTransition
  else
    let s1 := (s.liveMembers.filter fun n => n != s.self).foldl (fun s n => s.tell n "TRAINING_END" [w64 s.ownUnits]) s
    .next ((s1.noteEnd s.self 0).startTogether)

/-- The home list of R67 after the transition: in a domain, the stacks in service of its members. -/
def State.wideHomes (s : State) : List Nat :=
  (List.range 512).filter fun k =>
    if k / 8 = s.self then s.stackGood (k % 8)
    else s.pkg.dstate == .member && s.pkg.members.getLsbD (k / 8) && !s.pkg.lost.getLsbD (k / 8) &&
      (tget s.pkg.units (k / 8) 0xFFF).testBit (k % 8)

/-- Every QCB is given the new service level (R29, 04 R105). -/
def State.publishService (s : State) : State :=
  ((List.range 65).filter fun n => (s.queueAt n).log2 != 0 && (n == 64 || (s.ctxAt n).used)).foldl
    (fun s n => s.modQcb n fun q => { q with svcchg := !q.svcchg }) s

/-- Full or degraded service begins. -/
def State.widen (s : State) : State :=
  let mask := s.goodDies.foldl (fun a d => a + 2 ^ (4 + d)) 0
  let ok := s.pkg.failedUnits.isEmpty
  let s1 := s.modPkg fun p => { p with bring := if ok then .full else .degraded, service := BitVec.ofNat 8 (mask + if ok then 2 else 3) }
  let s2 : State := { s1 with homes := s1.wideHomes }
  let s3 := s2.publishService.modPkg fun p => { p with admitting := true }
  let cs := (List.range 64).filter fun c => (s3.ctxAt c).used
  (cs.foldl (fun s c => s.ring c) s3.retryParts).ring 64

/-- `SERVICE_TRANSITION_TIMEOUT` (R29): what still runs is pre-empted; then clocks, home list and service level change. -/
def execServiceTransitionTimeout (s : State) : Out :=
  if s.pkg.bring != .reduced || s.pkg.admitting then .next s
  else
    let held := partitions.filter fun p => (s.partAt p).owner.isSome
    if held.isEmpty then .next { s.widen with stealing := [] }
    else
      let s1 := (held.filter fun p => (s.partAt p).taking.isNone).foldl (fun s p => s.takePart p 64) s
      .next (s1.later 64 .none .serviceTransitionTimeout)

/-! ### Resets (04 R126) -/

/-- Steps that come from outside the package: a cold reset leaves those that are still to come. -/
def inputEvent (e : Instr) : Bool :=
  match e with
  | .trainingFailure _ | .powerSample _ | .droopStretch _ _ | .droopEnd _ _ | .thermalWarning _ _ | .thermalThrottle _ | .thermalThrottleRelease _
  | .thermalStop | .flitReceive _ _ | .negativeAcknowledgement _ _ | .helloReceive _ _ _ | .memberSet _ | .domainReform _ | .pcieLinkTrain _ _
  | .apertureWrite _ _ | .apertureRead _ _ | .adminQcb _ | .admitDigest _ _ _ _ | .registerWrite _ _ | .adminDoorbell | .doorbell
  | .powerLimitEffecter _ | .packageNumberEffecter _ _ | .domainIdEffecter _ | .presentMaskEffecter _ | .sensorRead _ | .firmwareUpdate _ _
  | .firmwareActivate _ | .mctpAttestation _ | .pcieAtomicop _ _ _ _ _ | .standbyPowerGood | .coldReset | .warmReset | .pldmDiscovery
  | .certificateRead | .linkRetrain _ | .retrainComplete _ _ | .unreachableReport _ | .census _ => true
  | _ => false

/-- A step that another package has caused (notes/assumptions/83.md). -/
def fromOutside : Subject → Bool
  | .packet p => (decide (128 ≤ p.queue) && decide (p.queue < 192)) || decide (256 ≤ p.queue)
  | _ => false

/-- The state after a cold reset: what fuses and flash hold, what management has written, and time stand. -/
def State.coldState (s : State) : State :=
  let r := State.reset
  let k := s.pkg
  let o := s.owl
  { r with
    pkg := { r.pkg with tray := k.tray, slot := k.slot, domain := k.domain, present := k.present }
    owl := { r.owl with fuses := o.fuses, flash := o.flash, bootFlash := o.bootFlash, bootImage := o.bootFlash }
    now := s.now, free := s.free, nextId := s.nextId, out := s.out
    agenda := s.agenda.filter fun d => inputEvent d.ev || fromOutside d.subj }

/-- `COLD_RESET` (R26): bring-up begins with the standby power-good. -/
def execColdReset (s : State) : Out := .next (s.coldState.soon .none .standbyPowerGood)

/-- `WARM_RESET` (04 R126): the H-die starts again; the Owl restarts by R109 and the service cores from their image. -/
def execWarmReset (s : State) : Out := if s.owl.state = 1 then .next s.startService.beginRestart else .next s

/-! ### Soft errors (R35 to R37) -/

/-- The pool page that a frame of a stack backs, if any. -/
def State.pageAtFrame (s : State) (stack frame : Nat) : Option Nat :=
  let admin := 16 * s.self + (frame - 521984)
  if stack == 8 * s.self && decide (521984 ≤ frame) && s.isAdmin admin && entValid (s.entryOf admin) then some admin
  else (s.ind.find? fun e => entValid e.2 && entHome e.2 == stack && entFrame e.2 == frame).map (·.1)

/-- A line of a stack read by its scrubber. A pass ends, and the next begins, when a line that it has read is read again
(notes/assumptions/125.md). -/
def State.scrubPass (s : State) (stack line : Nat) : State :=
  let seen := tget s.scrubbed stack []
  if seen.contains line then { s with scrubbed := tset s.scrubbed stack [line], corrected := tset s.corrected stack [] }
  else { s with scrubbed := tset s.scrubbed stack (line :: seen) }

/-- The lines of a stack corrected in its pass. -/
def State.setCorrected (s : State) (stack : Nat) (ls : List Nat) : State := { s with corrected := tset s.corrected stack ls }

/-- A corrected line of a stack is counted for its frame in this pass, and the third of a frame retires the page that it backs (R35). -/
def State.scrubCorrected (s : State) (stack line : Nat) : State :=
  let frame := line / 512
  let old := tget s.corrected stack []
  let ls := if old.contains line then old else line :: old
  let s1 := (s.setCorrected stack ls).emit (.mgmt "CORRECTED" line)
  if (ls.filter fun l => l / 512 == frame).length < 3 then s1
  else match s.pageAtFrame stack frame with
    | some page => (s1.setCorrected stack (ls.filter fun l => l / 512 != frame)).soon .none (.pageMoveStart page stack true)
    | none => s1

/-- An uncorrectable line of a stack: the line of the page that its frame backs is entered as lost (R37). -/
def State.scrubLost (s : State) (stack line : Nat) : State :=
  let s1 := s.emit (.mgmt "UNCORRECTABLE" line)
  match s.pageAtFrame stack (line / 512) with
  | some page => s1.uncorrectable (512 * page + line % 512)
  | none => s1

/-- `SCRUB_READ` (R35, R37) of a line of a stack. -/
def execScrubRead (stack line : Nat) (found : ScrubResult) (s : State) : Out :=
  match found with
  | .clean => .next (s.scrubPass stack line)
  | .corrected => .next ((s.scrubPass stack line).scrubCorrected stack line)
  | .uncorrectable => .next ((s.scrubPass stack line).scrubLost stack line)

/-- `SEQUENCER_WATCHDOG` (R36): an uncorrectable microword restarts its sequencer from its control store, with the patches reloaded. -/
def execSequencerWatchdog (which : Sequencer) (s : State) : Out :=
  match which with
  | .owl => if s.owl.state = 1 then .next (s.beginRestart.emit (.mgmt "SEQUENCER" 4)) else .next s
  | .die d =>
    let ram := match s.owl.patch with | some bs => tget (dieRams bs) d [] | none => []
    .next (({ s with owl := { s.owl with dieRam := tset s.owl.dieRam d ram } } : State).emit (.mgmt "SEQUENCER" d))

end Sys2Proof.Machine
end

