-- ==== Sys2Proof/Machine/Links.lean ====
section
/-! DEFINITION. Links and the rack domain (spec/02_links.md): receiving, replay and training of R39 to R42, the forming of the domain (R52 to
R54), the root and its standby (R56 to R59), and the loss of a die or of other packages (R60 to R65). -/

namespace Sys2Proof.Machine

/-! ### Flits received (R39, R40, R43) -/

/-- The flits that an acknowledgement covers leave the retry buffer; it covers none when its number is not in the buffer. -/
def LinkSt.acked (x : LinkSt) (ack : BitVec 12) (now : Nat) : LinkSt :=
  if x.retry.any fun f => f.seq == ack then
    { x with retry := (x.retry.dropWhile fun f => f.seq != ack).drop 1, replays := 0, ackAt := now }
  else x

/-- Flits go out again, from the oldest unacknowledged; after 8 replays without success the link retrains (R40, R41). A link in training sends
nothing: what it has not delivered goes out when the training ends. -/
def State.replay (s : State) (l : Link) : State :=
  let x := s.linkAt l
  if x.retry.isEmpty || x.down || x.training then s
  else if 8 ≤ x.replays then s.soon .none (.linkRetrain l)
  else
    let s1 := x.retry.foldl (fun s f => s.emit (.flit l f)) (s.modLink l fun x => { x with replays := x.replays + 1, ackAt := s.now })
    s1.later 1600 .none (.ackTimeout l)

/-- The virtual channel of the message that causes a step (R43); none for a step that no message of another package causes. -/
def channelOf (e : Instr) : Option (BitVec 3) :=
  match e with
  | .rds _ _ | .rdx _ _ | .upg _ _ | .chunkRequest _ _ _ | .edgeSend _ | .edgeTake _ | .badgerOperation _ => some 0
  | .memoryReply _ _ | .wb _ _ _ | .cleanEviction _ _ | .redirect _ _ _ | .badgerComplete _ _ _ _ => some 1
  | .probe _ _ _ | .probeReply _ _ _ => some 2
  | .heartbeat | .unreachableReport _ | .freeze | .census _ | .thaw | .memberSet _ | .helloReceive _ _ _ | .trainingEnd | .launch
  | .counterPartReport _ _ _ | .stealRequest _ | .stealReply _ _ | .taskArrival _ _ _ _ | .launchComplete | .contextFault _ _ _ | .ctxCreate
  | .ctxDestroy | .queueResumeReset | .poolMap | .poolUnmap | .migrate | .tableBase | .poolCommandCompletion _ | .thermalStop | .linkDown _ => some 3
  | .moveCopyComplete _ | .copyComplete _ _ => some 4
  | _ => none

/-- The messages of a flit carried out in their order, each once: those that its channel carries, packets only as another package sends them. -/
def State.deliverFlit (s : State) (f : Flit) : State :=
  ((Config.messages f).filter fun m => channelOf m.2 == some f.vc && (match m.1 with | .packet _ => fromOutside m.1 | _ => true)).foldl
    (fun s m => s.soon m.1 m.2) s

/-- `FLIT_RECEIVE` (R40, R43): a good flit with the expected number is delivered, and gives back credit; any other is discarded. -/
def execFlitReceive (l : Link) (f : Flit) (s : State) : Out :=
  let x := s.linkAt l
  if x.down || x.fenced || x.training then .next s
  else if flitGood f && f.seq == x.expect then
    let s1 := s.modLink l fun x => (({ x with expect := x.expect + 1, nakSent := false } : LinkSt).acked f.ack s.now).setCredits
      fun k n => n + Config.creditReturn f.credit k
    .next ((s1.deliverFlit f).sendWaiting l)
  else if x.nakSent then .next s
  else .next ((s.modLink l fun x => { x with nakSent := true }).emit (.nak l x.expect))

/-- `NEGATIVE_ACKNOWLEDGEMENT` (R40): the flits below the expected number have arrived. -/
def execNegativeAcknowledgement (l : Link) (expected : BitVec 12) (s : State) : Out :=
  .next (((s.modLink l fun x => x.acked (expected - 1) s.now).replay l).sendWaiting l)

/-- `ACK_TIMEOUT` (R40): 2 µs, 1600 core cycles, without an acknowledgement. -/
def execAckTimeout (l : Link) (s : State) : Out :=
  let x := s.linkAt l
  if x.retry.isEmpty || x.down || x.training then .next s
  else if x.ackAt + 1600 ≤ s.now then .next (s.replay l)
  else .next (s.later (x.ackAt + 1600 - s.now) .none (.ackTimeout l))

/-! ### Training (R41) -/

/-- `LINK_RETRAIN` (R41, R50). A fenced link and one declared down stay so, and a training under way is not begun again. -/
def execLinkRetrain (l : Link) (s : State) : Out :=
  let x := s.linkAt l
  if x.down || x.fenced || x.training then .next s
  else .next (s.modLink l fun x => { x with
    up := false, training := true, replays := 0,
    retrains := if x.trained && x.retrains.toNat < 255 then x.retrains + 1 else x.retrains })

/-- Lanes that a link runs on when some of them train: a port four, two or none. -/
def lanesUsed (l : Link) (lanes : Nat) : Nat :=
  match l with
  | .port _ _ => if 4 ≤ lanes then 4 else if 2 ≤ lanes then 2 else 0
  | _ => lanes

/-- `RETRAIN_COMPLETE` (R41): flits not acknowledged go out again; a second failure in a row declares the link down. -/
def execRetrainComplete (l : Link) (lanes : Nat) (s : State) : Out :=
  let x := s.linkAt l
  let w := lanesUsed l lanes
  if !x.training || x.down then .next s
  else if w = 0 then
    let s1 := s.modLink l fun x => { x with training := false, width := 0, failed := x.failed + 1 }
    .next (s1.soon .none (if x.failed = 0 then .linkRetrain l else .linkDown l))
  else
    let s1 := ((s.modLink l fun x => { x with training := false, trained := true, up := true, width := w, failed := 0 }).replay l).sendWaiting l
    match l with
    | .port d p => if !x.trained && s.pkg.bring == .reduced then .next (s1.soon .none (.helloSend d p)) else .next s1
    | _ => .next s1

/-! ### Paths (R48, R60) -/

/-- Some port of the package is up (R53). -/
def State.anyUp (s : State) : Bool :=
  [0, 1, 2, 3].any fun d => (List.range 8).any fun p => let x := s.linkAt (.port d p); x.up && !x.down && !x.fenced

/-- The Owl has a path to a C-die: inside the package, and in a domain also through another C-die and the switches (R48, R60). -/
def State.reachDie (s : State) (d : Nat) : Bool :=
  (s.hubPath d).isSome || (s.pkg.dstate == .member && [0, 1, 2, 3].any fun e =>
    e != d && (s.hubPath e).isSome && (s.diePath e d none).isSome)

/-! ### The loss of a die (R61 to R64) -/

/-- A loss entry (R62). -/
def lossEntry (ident : W64) (ordinal : Option Nat) (pkg die core : Nat) (flags : Nat) : List Byte :=
  bytesOf 8 ident.toNat ++ bytesOf 4 (ordinal.getD 0xFFFFFFFF) ++ bytesOf 2 (pkg + die * 64 + core * 256) ++ bytesOf 1 flags ++ bytesOf 1 0

/-- An entry of a launch's loss log, counted and, while there is room, written (R62). -/
def State.writeLoss (s : State) (launch : Nat) (e : List Byte) : State :=
  let l := s.launchAt launch
  let log := fieldOf l.lr 40 8
  let s1 := if log = 0 ∨ fieldOf l.lr 60 4 ≤ l.lossAt then s else s.writeRecord l.ctx l.tag (log + 16 * l.lossAt) e
  s1.modLaunch launch fun l => { l with lossAt := l.lossAt + 1, losses := l.losses + 1 }

/-- A lost or unstarted team entered in the loss log of its launch (R61): a team that has been admitted, saved ones among them, is lost at its
last block whose stores all reached their homes. -/
def State.logLoss (s : State) (n : Nat) : State :=
  let t := s.teamAt n
  let flags := if !t.started then 2 else if s.teamPartial n then 1 else 0
  s.writeLoss t.launch (lossEntry t.ident (if t.started then some (s.teamOrdinal n) else none) s.self (dieOf t.core) (t.core % 144) flags)

/-- A team whose exit message has not been counted entered in the loss log (R61, R62). -/
def State.logExit (s : State) (launch : Nat) (e : Exit) : State :=
  s.writeLoss launch (lossEntry e.team.ident (some e.sord) s.self (dieOf e.team.core) (e.team.core % 144) 4)

/-- A team as it was before it started (R63). -/
def Team.again (t : Team) : Team :=
  { t with admitted := false, started := false, linger := false, replayed := true, tstart := 0, stash := [], tile := [], bars := [],
           regions := [], bins := [], succ := none, copies := [], recs := [], nextLgid := 0 }

/-- Free team slots of a context on a die. -/
def State.freeTeams (s : State) (ctx die : Nat) : Nat := sumOf (fun c => 8 - (s.teamsOn c).length) (s.ctxCores ctx die)

/-- The C-dies of this package that hold a part of a launch. -/
def State.ownDies (s : State) (launch : Nat) : List Nat :=
  let l := s.launchAt launch
  (s.ctxDies l.ctx).filter fun d => (tfind l.units d).isSome

/-- The die of a launch with the most free team slots, the lowest number on a tie (R63). -/
def State.freestDie (s : State) (launch : Nat) : Option Nat :=
  let ctx := (s.launchAt launch).ctx
  match s.ownDies launch with
  | [] => none
  | d :: r => some (r.foldl (fun b x => if s.freeTeams ctx b < s.freeTeams ctx x then x else b) d)

/-- The placement address of a team, if it has one: a task's own, or for a launch with `PLACE` that of R135, a cluster's by its first team. -/
def State.placeOf (s : State) (t : Team) : Option Nat :=
  let l := s.launchAt t.launch
  match t.kind with
  | .task => if t.place = 0 then none else some t.place.toNat
  | .successor => none
  | .grid | .seed => if lrPlace l.lr then some (placeAddr l.lr (t.ident.toNat / (max 1 t.cluster) * (max 1 t.cluster))) else none

/-- The die of this package on which a team's placement home lies, when the context can run there. -/
def State.homeDie (s : State) (t : Team) : Option Nat :=
  let ctx := (s.launchAt t.launch).ctx
  (s.placeOf t).bind fun a => match s.walkVa ctx (a % 2 ^ 56) with
    | .error _ => none
    | .ok l =>
      let k := s.homeOf (pageOf l.pa)
      if entValid (s.entryOf (pageOf l.pa)) && k / 8 == s.self && (s.ctxDies ctx).contains (k % 8 / 2) then some (k % 8 / 2) else none

/-- The die on which a lost team is dispatched again: none without `REPLAY`, or where no die of the launch is left (R63). -/
def State.againDie (s : State) (n : Nat) : Option Nat :=
  let t := s.teamAt n
  if (fieldOf (s.launchAt t.launch).lr 24 1).testBit 4 then (s.homeDie t).or (s.freestDie t.launch) else none

/-- Lost teams dispatched again, those of one die of a launch together (R63, R483), or gone. -/
def State.redo (s : State) (ns : List Nat) : State :=
  let go := ns.map fun n => (n, s.againDie n)
  let s1 := go.foldl (fun s p =>
    let l := (s.teamAt p.1).launch
    match p.2 with
    | none => ({ s with teams := tdel s.teams p.1 } : State).modLaunch l fun l => { l with lossy := true }
    | some d => ((s.modTeam p.1 Team.again).addUnits l d 1).modLaunch l fun l => { l with replayed := l.replayed + 1 }) s
  let keys := (go.filterMap fun p => p.2.map fun d => ((s.teamAt p.1).launch, d)).eraseDups
  keys.foldl (fun s1 k =>
    s1.placeTeams (s.launchAt k.1).ctx k.2 ((go.filter fun p => p.2 == some k.2 && (s.teamAt p.1).launch == k.1).map (·.1))) s1

/-- Teams and tasks on their way when a die is lost: a stolen team is its victim's until it arrives, a task sent by the die is
queued there. -/
def State.recall (s : State) (d : Nat) : State :=
  s.agenda.foldl (fun s x => match x.ev with
    | .stealReply r ts => if stealDie r.thief = d || stealDie r.victim = d then ts.foldl (fun s n => s.enqueue (s.teamAt n).core n) s else s
    | .taskArrival l e c t =>
      if e = d then s.addTeam (144 * d + c) (taskTeam l (144 * d + c) (w64 (fieldOf (s.launchAt l).lr 0 8)) t) else s
    | _ => s)
    { s with agenda := s.agenda.filterMap fun x => match x.ev with
               | .stealReply r ts => if (stealDie r.thief = d || stealDie r.victim = d) && !ts.isEmpty then none else some x
               | .stealRequest rs => some { x with ev := .stealRequest (rs.filter fun r => stealDie r.thief != d) }
               | .taskArrival _ e _ _ => if e = d then none else some x
               | _ => some x
             stealing := s.stealing.filter fun x => stealDie x.1 != d }

/-- A launch whose counter may have reached zero is looked at again. -/
def State.recount (s : State) (id : Nat) : State :=
  if (s.launchAt id).units.all fun p => p.2 == 0 then s.soon (.on id) .launchComplete else s

/-- Teams of a die whose exit messages are not counted: each is lost, and stands in the team table again for its replay (R61). -/
def State.loseExits (s : State) (d : Nat) : List Nat × State :=
  s.launches.foldl (fun x p =>
    let mine := p.2.exits.filter fun e => dieOf e.team.core == d
    let y := mine.foldl (fun (x : List Nat × State) e =>
      let s1 := x.2.logExit p.1 e
      (x.1 ++ [s1.nextId], { s1 with nextId := s1.nextId + 1, teams := tset s1.teams s1.nextId { e.team with started := true } })) x
    (y.1, y.2.modLaunch p.1 fun l => { l with exits := l.exits.filter fun e => dieOf e.team.core != d })) ([], s)

/-- The teams of a lost die: all its gangs stop; lost and unstarted teams are listed and, with `REPLAY`, run again. Stores that have not reached
their homes are lost. -/
def State.loseTeams (s : State) (d : Nat) : State :=
  let s1 := s.recall d
  let gs := (s1.allGangs.filter fun p => dieOf p.2.core == d && !p.2.retired).map (·.1)
  let ts := (s1.teams.filter fun p => dieOf p.2.core == d).map (·.1)
  let dead := ts.filter fun n => !(s1.teamAt n).linger
  let s2 := dead.foldl State.logLoss s1
  let x := s2.loseExits d
  let s3 := (gs.foldl State.dropGang x.2).focus s.gid
  let ids := s3.launches.map (·.1)
  let s4 := ids.foldl (fun s id => s.modLaunch id fun l => { l with units := tdel l.units d, parts := tdel l.parts d }) s3
  let s5 : State := { s4 with
    teams := s4.teams.filter fun p => !ts.contains p.1 || dead.contains p.1
    cores := s4.cores.map fun c => if dieOf c.1 = d then (c.1, { resetCore with cyc := c.2.cyc, phase := c.2.phase }) else c
    images := s4.images.filter fun i => i.part / 4 != d }
  let s6 := (List.range 4).foldl (fun s q => s.modPart (4 * d + q) fun _ => {}) s5
  ids.foldl State.recount (s6.redo (dead ++ x.1))

/-- Badger operations on lost stacks end failed (R64). -/
def State.loseBadgers (s : State) : State :=
  { s with
    badgerOps := s.badgerOps.map fun r => if s.stackLost r.stack then { r with status := .homeLost } else r
    agenda := s.agenda.map fun x => match x.ev with
      | .badgerComplete k c n _ => if s.stackLost k then { x with ev := .badgerComplete k c n .homeLost } else x
      | _ => x }

/-- Gangs parked on lines of lost homes: a queued send or take ends with `HOME_LOST`, a parked poll runs again and meets it (R64). -/
def State.loseParked (s : State) : State :=
  let lost := fun (line : Nat) => s.stackLost (s.homeOf (line / 512))
  let gone := s.parkedEdges.filter fun e => lost (e.1.desc.toNat / 256)
  let s1 : State := { s with parkedEdges := s.parkedEdges.filter fun e => !lost (e.1.desc.toNat / 256) }
  let s2 := gone.foldl (fun s e => s.within e.1.gang fun s => s.replyLost e.1.handler e.1.pos) s1
  (s2.allGangs.filter fun p => p.2.parked && p.2.slot.isNone).foldl
    (fun s p => match p.2.watch.find? lost with
      | some line => s.soon (.gang p.1) (.watchedWrite line)
      | none => s) s2

/-- A request that a die has made. -/
def requestFrom (die : Nat) (e : Instr) : Bool :=
  match e with
  | .rds d _ | .rdx d _ | .upg d _ => d == die
  | _ => false

/-- The directory forgets a C-die 4 n + d: its requests are gone, an open probe to it has no answer to come, and a line that it held dirty is
lost (R64, 01 R37). -/
def State.dropDie (s : State) (die line : Nat) : State :=
  let d0 := s.dirAt line
  let turn := d0.turn.bind fun x => if requestFrom die x.2 then none else some x
  let d := { d0 with queue := d0.queue.filter fun x => !requestFrom die x.2, turn := turn, stale := d0.stale.filter fun i => i != die }
  let held := d.sharers.getLsbD die
  let left := d.sharers &&& ~~~(dieBit die)
  let owns := held && d.owner == die
  let s1 := if owns && (d.st == .m || d.st == .o) then s.loseLine line else s
  let d1 := { d with sharers := left, st := if left = 0 then DirState.i else if owns then .s else d.st }
  match d.pending with
  | some p =>
    if p.die = die && p.kind < 3 then (s1.setDir line { d1 with pending := none }).nextTransaction line
    else if p.left.contains die then (s1.setDir line d1).probeDone die line false
    else s1.setDir line d1
  | none => (s1.setDir line d1).nextTransaction line

/-- The whole directory forgets a C-die, and its requests on their way are gone. -/
def State.dropPresence (s : State) (die : Nat) : State :=
  (s.dir.map (·.1)).foldl (fun s l => s.dropDie die l) { s with agenda := s.agenda.filter fun x => !requestFrom die x.ev }

/-- A C-die of this package is lost. -/
def State.loseDie (s : State) (d : Nat) : State :=
  let s1 := (s.modPkg fun p =>
    { p with failedUnits := p.failedUnits ++ [.die d], service := p.service &&& ~~~(BitVec.ofNat 8 (2 ^ (4 + d))) }).loseTeams d
  let s2 : State := { s1 with dies := tdel s1.dies d, hints := s1.hints.filter fun h => h.1 / 2 ^ 32 != s.dieNo d }
  ((((s2.dropPresence (4 * s.self + d)).loseBadgers).loseParked).publishService).emit (.mgmt "DIE_LOST" d)

/-! ### The loss of other packages (R54, R57, R60 to R63) -/

/-- The loss entry of a team that a package out of reach held: what became of it there is not known here (notes/assumptions/94.md). -/
def farEntry (n team : Nat) (v : W64) : List Byte :=
  let unstarted := v.getLsbD 0
  lossEntry (w64 team) (if unstarted then none else some (bits v.toNat 31 8)) n (bits v.toNat 33 32) (bits v.toNat 47 40 % 144)
    (if unstarted then 2 else if v.getLsbD 1 then 1 else if v.getLsbD 2 then 4 else 0)

/-- A launch of this root loses what a package held of it: the teams sent there are listed and, with `REPLAY`, run again here. -/
def State.loseSent (s : State) (n id : Nat) : State :=
  let l := s.launchAt id
  let ts := (l.sent.filter fun x => x.1 == n).map (·.2)
  let far := (tget l.units (8 + n) 0) != 0
  let s1 := ts.foldl (fun s t => ({ s with free := s.free + 1 } : State).writeLoss id (farEntry n t (Config.freeValue s.free))) s
  let s2 := s1.modLaunch id fun l => { l with
    units := tdel l.units (8 + n), parts := tdel l.parts (8 + n), sent := l.sent.filter fun x => x.1 != n, lossy := l.lossy || (far && ts.isEmpty) }
  let first := s2.nextId
  let s3 := ts.foldl (fun s t => { s with nextId := s.nextId + 1, teams := tset s.teams s.nextId (gridTeam id l.lr t 0) }) s2
  let ns := (List.range ts.length).map (first + ·)
  ((s3.setMates ns).redo ns).recount id

/-- The launches of a context that this package roots lose a package (R62). -/
def State.loseFar (s : State) (ctx n : Nat) : State := (s.launchesOf ctx).foldl (fun s id => s.loseSent n id) s

/-- The packages that a root reaches: one that reports the root unreachable is not counted (R57). -/
def State.rootReach (s : State) (c : Ctx) : List Nat := (s.reachable c).filter fun n => !c.reports.contains n

/-- A root that reaches fewer than half of the context's packages stops dispatching for it (R57). -/
def State.checkRoot (s : State) (ctx : Nat) : State :=
  let c := s.ctxAt ctx
  if c.used && c.root == s.self && decide (2 * (s.rootReach c).length < c.packages.length) then s.modCtx ctx fun c => { c with frozen := true }
  else s

/-- Another package is lost (R54, R64): its `LOST` bit, its presence in the directories, and what waits on its stacks. -/
def State.dropPackage (s : State) (n : Nat) : State :=
  let s1 := s.modPkg fun p => { p with lost := p.lost ||| pkgBit n }
  (([0, 1, 2, 3].foldl (fun s d => s.dropPresence (4 * n + d)) s1).loseBadgers).loseParked

/-- Another package is lost, and what it held of the launches rooted here (R60 to R63). -/
def State.losePackage (s : State) (n : Nat) : State :=
  (List.range 64).foldl (fun s c =>
    if (s.ctxAt c).used && (s.ctxAt c).root == s.self && (s.ctxAt c).packages.contains n then (s.loseFar c n).checkRoot c else s) (s.dropPackage n)

/-- Members that can no longer be reached (R60). -/
def State.outOfReach (s : State) : List Nat :=
  if s.pkg.dstate == .member then s.members.filter fun n => !s.packageReached n else []

/-- A link that is declared down: it carries nothing any more, and what waits for it goes another way (R47 to R49). -/
def State.shutLink (s : State) (l : Link) : State :=
  let w := (s.linkAt l).waiting
  let s1 := s.modLink l fun x => { x with down := true, up := false, training := false, width := 0, retry := [], waiting := [] }
  match l with
  | .port d _ => w.foldl (fun s vc => match s.members.findSome? fun n => s.outPort d n none none with
    | some o => s.sendFlit o vc
    | none => s) s1
  | _ => s1

/-- `LINK_DOWN` (R41, R60, R61): a link of this package, or one of another that its package has told of. A die without a path, and packages
without one, are lost; the other packages hear of a port that is down. -/
def execLinkDown (l : Link) (s : State) : Out :=
  let s1 := s.shutLink l
  let dies := s1.goodDies.filter fun d => !s1.reachDie d
  let s2 := dies.foldl State.loseDie s1
  let s3 := s2.outOfReach.foldl State.losePackage s2
  match l with
  | .port d p => .next (s3.tellMembers "LINK_DOWN" [w64 (8 * d + p)])
  | _ => .next s3

/-! ### Thermal stop (01 R24) -/

/-- `THERMAL_STOP`: issue ends everywhere, and every context's queue stops; the admin queue, which resumes them, goes on
(notes/assumptions/128.md). For a root, another package in thermal stop (128 + n) is lost to its launches. -/
def execThermalStop (s : State) : Out :=
  if 128 ≤ s.pkt.queue then
    let n := s.pkt.queue % 64
    .next ((List.range 64).foldl (fun s c =>
      if (s.ctxAt c).used && (s.ctxAt c).root == s.self && (s.ctxAt c).packages.contains n then s.loseFar c n else s) s)
  else
  let ns := (s.allGangs.filter fun p => p.2.slot.isSome && !p.2.retired).map (·.1)
  let cs := (List.range 64).filter fun c => (s.ctxAt c).used
  let s1 := ((s.standAll ns).emit (.mgmt "THERMAL_STOP" 0)).tellMembers "THERMAL_STOP" []
  .next (cs.foldl (fun s c => if (s.ctxAt c).root = s.self then s.stopQueue c 0x100 0 else s.stopWork c) s1)

/-! ### Forming the domain (R45, R51 to R54) -/

/-- `OWL_STATUS` (04 R99). -/
def Owl.status (o : Owl) : Nat :=
  o.restarts.toNat * 2 ^ 24 + o.patchcnt.toNat * 2 ^ 15 + o.secver.toNat * 2 ^ 8 + (if o.patchrej then 8 else 0) +
    (if o.staged.isSome then 4 else 0) + o.state.toNat

/-- What a read of the register window gives (04 R98): a read has no side effect; a write-only register reads zero (00 R4), an offset not listed has
no value. -/
def State.registerRead (s : State) (off : Nat) : Option W64 :=
  if off = 0 then some (w64 s.pkg.service.toNat)
  else if off = 0x100 ∨ off = 0x108 ∨ off = 0x110 then s.domainStatus[(off - 0x100) / 8]?
  else if 0x1000 ≤ off ∧ off < 0x1080 ∧ off % 4 = 0 then
    let i := (off - 0x1000) / 4
    some (w64 ((tget s.pkg.links i {}).status (i % 8)))
  else if off = 0x2000 then some (w64 s.owl.status)
  else if off = 0x2100 then some (w64 (s.owl.aperture.toNat * 2 ^ 28))
  else if off = 0x2200 then some s.owl.adminQcb
  else if off = 0x2208 ∨ (0x10000 ≤ off ∧ off < 0x10200 ∧ off % 8 = 0) then some 0
  else if off = 0x2210 then some s.owl.adminRing
  else if 0x20000 ≤ off ∧ off < 0x22000 ∧ off % 8 = 0 then
    let x := s.slotOf ((off - 0x20000) / 128) ((off - 0x20000) % 128 / 64)
    let o := off % 64
    some (if o < 32 then w64 (x.1.toNat / 2 ^ (8 * o)) else if o = 32 then x.2 else 0)
  else if 0x100000 ≤ off ∧ off < 0x108000 ∧ off % 8 = 0 then
    let k := (off - 0x100000) / 8
    some (tget s.owl.msix k (if k % 2 = 1 then w64 (2 ^ 32) else 0))
  else if 0x108000 ≤ off ∧ off < 0x108100 ∧ off % 8 = 0 then
    let k := (off - 0x108000) / 8
    some (w64 (sumOf (fun v => 2 ^ (v % 64)) (s.owl.pba.filter fun v => v / 64 == k)))
  else none

/-- `PACKAGE_NUMBER_EFFECTER` (R45): written before the end of `BOOT`. -/
def execPackageNumberEffecter (tray slot : Nat) (s : State) : Out :=
  if (s.pkg.bring == .off || s.pkg.bring == .boot) && decide (tray < 16) && decide (slot < 4) then
    let s1 := s.modPkg fun p => { p with tray := tray, slot := slot }
    .next (if s.pkg.bring == .boot then s1.bootHomes else s1)
  else .next s

/-- `DOMAIN_ID_EFFECTER` (R52, 04 R126). -/
def execDomainIdEffecter (v : W64) (s : State) : Out :=
  if s.pkg.bring == .off || s.pkg.bring == .boot then .next (s.modPkg fun p => { p with domain := v }) else .next s

/-- `PRESENT_MASK_EFFECTER` (R53, 04 R126). -/
def execPresentMaskEffecter (v : W64) (s : State) : Out :=
  if s.pkg.bring == .off || s.pkg.bring == .boot then .next (s.modPkg fun p => { p with present := v }) else .next s

/-- `HELLO_SEND` (R52): every 1 ms during `REDUCED` while the port is up. -/
def execHelloSend (die port : Nat) (s : State) : Out :=
  let x := s.linkAt (.port die port)
  if s.pkg.bring != .reduced || x.down || x.fenced then .next s
  else
    let h : Hello := { domain := s.pkg.domain, pkg := s.self, die := die, port := port, swport := 8 * s.self + 2 * die + port % 2, epoch := s.pkg.epoch }
    let s1 := if x.up then (s.sendFlit (.port die port) 3).emit (.hello die port h) else s
    .next (s1.later 800000 .none (.helloSend die port))

/-- The packages heard, this one among them. -/
def State.known (s : State) : W64 := s.pkg.heard ||| pkgBit s.self

/-- The lowest package of a set. -/
def lowestPkg (m : W64) : Nat := ((List.range 64).find? fun n => m.getLsbD n).getD 64

/-- A port is fenced. -/
def State.fence (s : State) (l : Link) (cabling : Bool) : State :=
  s.modLink l fun x => { x with fenced := true, up := false, training := false, cabling := x.cabling || cabling }

/-- Every package declared present has been heard (R53); with none declared the domain waits for its time-out (notes/assumptions/88.md). -/
def State.allHeard (s : State) : Bool := s.pkg.present != 0 && s.pkg.present &&& ~~~s.known == 0

/-- The sender of a hello at a port. -/
def helloKey (die port : Nat) (h : Hello) : Nat := ((8 * die + port) * 64 + h.pkg) * 32 + 8 * (h.die % 4) + h.port % 8

/-- A hello heard at a port. Two of one sending port within half of the 1 ms at which a port sends them come from two packages of one number,
and that number is excluded (R52, notes/assumptions/89.md). -/
def State.hear (s : State) (die port : Nat) (h : Hello) : State :=
  let k := helloKey die port h
  let twice := match tfind s.pkg.heardAt k with | some t => decide (s.now < t + 400000) | none => false
  s.modPkg fun p => { p with heard := p.heard ||| pkgBit h.pkg, heardAt := tset p.heardAt k s.now,
                             excludedPkgs := if twice then p.excludedPkgs ||| pkgBit h.pkg else p.excludedPkgs }

/-- `HELLO_RECEIVE` (R44, R45, R52). -/
def execHelloReceive (die port : Nat) (h : Hello) (s : State) : Out :=
  let l := Link.port die port
  let s1 := s.modLink l fun x => { x with swport := h.swport % 512 }
  if h.swport ≠ 8 * s.self + 2 * die + port % 2 then .next ((s1.fence l true).emit (.mgmt "CABLING" (8 * die + port)))
  else if h.domain ≠ s.pkg.domain then .next (s1.fence l false)
  else if h.pkg = s.self then
    .next ((s1.modPkg fun p => { p with excludedPkgs := p.excludedPkgs ||| pkgBit s.self }).emit (.mgmt "CONFLICT" s.self))
  else
    let s2 := s1.hear die port h
    if s.pkg.dstate == .forming && s.pkg.bring == .reduced && s2.allHeard then .next (s2.soon .none .domainPublish)
    else .next s2

/-- `STATE` leaves forming, or the domain is formed again: the member set is written and `EPOCH` counts (R53). `LOST`, which names members lost
since formation, starts anew (notes/assumptions/127.md). -/
def State.join (s : State) (members : W64) : State :=
  let alone := !s.anyUp
  s.modPkg fun p => { p with members := if alone then pkgBit s.self else members, lost := 0, epoch := p.epoch + 1,
                             dstate := if alone then .standalone else .member }

/-- The member with the lowest number publishes the set of those heard (R53); an excluded package publishes nothing. -/
def State.publish (s : State) : State :=
  let set := s.known &&& ~~~s.pkg.excludedPkgs
  if s.pkg.dstate != .forming then s
  else if !s.anyUp then s.join set
  else if lowestPkg set ≠ s.self then s
  else
    let others := (List.range 64).filter fun n => n != s.self && set.getLsbD n
    (others.foldl (fun s n => s.tell n "MEMBER_SET" [set]) s).join set

/-- `DOMAIN_PUBLISH` (R53): every package declared present has been heard. -/
def execDomainPublish (s : State) : Out :=
  if s.pkg.bring != .reduced || !s.allHeard then .next s else .next s.publish

/-- `FORMATION_TIMEOUT` (R53): 20 s after `REDUCED` began. -/
def execFormationTimeout (s : State) : Out := .next s.publish

/-- `MEMBER_SET` (R53): a set that holds this package, while it is forming; a package excluded by R52 joins none. -/
def execMemberSet (members : W64) (s : State) : Out :=
  if s.pkg.dstate == .forming && s.pkg.bring == .reduced && members.getLsbD s.self && !s.pkg.excludedPkgs.getLsbD s.self then .next (s.join members) else .next s

/-- `DOMAIN_REFORM` (R54): refused while a context spans more than one package. -/
def execDomainReform (members : W64) (s : State) : Out :=
  if s.ctxs.any fun c => c.2.used && decide (1 < c.2.packages.length) then .next (s.emit (.mgmt "REFORM_REFUSED" 0))
  else if !members.getLsbD s.self then .next s
  else
    let s1 := s.join members
    .next (if s.pkg.bring == .full || s.pkg.bring == .degraded then { s1 with homes := s1.wideHomes } else s1)

/-! ### The rack root and its standby (R56 to R59) -/

/-- `HEARTBEAT` (R56, 04 R110): the root sends one every 50 µs, 40,000 core cycles, while its Owl runs; a failed Owl sends none. Another
package notes it. -/
def execHeartbeat (s : State) : Out :=
  let c := s.ctxAt s.subj
  if !c.used then .next s
  else if c.root = s.self then
    if s.owl.state = 3 then .next s
    else .next ((if s.owl.state = 1 then s.tellOthers s.subj "HEARTBEAT" [] else s).later 40000 (.on s.subj) .heartbeat)
  else .next ((s.modCtx s.subj fun c => { c with beat := s.now, reports := c.reports.filter fun n => n != s.self }).later 800000
    (.on s.subj) .heartbeatTimeout)

/-- The standby of a context is out of this package's reach, or there is none (R59). -/
def State.standbyGone (s : State) (c : Ctx) : Bool := c.standby == 64 || (c.standby != s.self && s.pkg.lost.getLsbD c.standby)

/-- The reports counted (R57): the standby takes over, or, when it is out of reach too, the context stops (R59). -/
def State.tally (s : State) (ctx : Nat) : State :=
  let c := s.ctxAt ctx
  if 2 * c.reports.length ≤ c.packages.length then s
  else if c.standby = s.self then s.soon (.on ctx) .standbyTakeover
  else if s.standbyGone c then s.stopQueue ctx 0x101 0
  else s

/-- A package that reports the root unreachable is counted once; the root counts it among those that it does not reach. -/
def State.reportRoot (s : State) (ctx n : Nat) : State :=
  let s1 := s.modCtx ctx fun c => { c with reports := if c.reports.contains n then c.reports else c.reports ++ [n] }
  if (s.ctxAt ctx).root = s.self then s1.checkRoot ctx else s1.tally ctx

/-- `HEARTBEAT_TIMEOUT` (R57): 1 ms, 800,000 core cycles, without a heartbeat. The report goes to the standby and to the root; one that reaches
no standby either goes to every other package (R59). -/
def execHeartbeatTimeout (s : State) : Out :=
  let c := s.ctxAt s.subj
  if !c.used || c.root = s.self || decide (s.now < c.beat + 800000) then .next s
  else
    let to_ := if s.standbyGone c then (s.reachable c).filter fun n => n != s.self else [c.standby, c.root].filter fun n => n != s.self
    .next ((to_.foldl (fun s n => s.tell n "UNREACHABLE" [w64 s.subj]) s).reportRoot s.subj s.self)

/-- `UNREACHABLE_REPORT` (R57, R59) from a package of the context. The root does not report itself, nor does the standby report to another
package: from them it is their order to stop the context's work (04 R106). -/
def execUnreachableReport (from_ : Nat) (s : State) : Out :=
  let c := s.ctxAt s.subj
  if !c.used || !c.packages.contains from_ then .next s
  else if c.root ≠ s.self && (from_ = c.root || (from_ = c.standby && c.standby ≠ s.self)) then .next (s.stopWork s.subj)
  else .next (s.reportRoot s.subj from_)

/-- `STANDBY_TAKEOVER` (R58 step 1). -/
def execStandbyTakeover (s : State) : Out :=
  let c := s.ctxAt s.subj
  if !c.used || c.root = s.self || c.standby ≠ s.self then .next s
  else .next (((s.modCtx s.subj fun c => { c with census := [] }).tellOthers s.subj "FREEZE" []).soon (.on s.subj) .freeze)

/-- The census of one launch on this package (R58 step 2). -/
def State.censusOf (s : State) (id : Nat) : CensusPart :=
  let ts := s.teams.filter fun p => p.2.launch == id
  let on := (ts.filter fun p => p.2.admitted).map (·.1)
  { pkg := s.self, launch := id, teams := on.length,
    gangs := (s.allGangs.filter fun p => on.contains p.2.team && !p.2.retired).length,
    threads := sumOf (fun (p : Nat × Team) => sumOf (fun (b : Nat × Bin) => b.2.args.length) p.2.bins) ts,
    tasks := ts.length - on.length, ranges := (s.launchAt id).taken.map fun i => (i, i) }

/-- Words of a census (R58): the launch, its counts and its ranges. -/
def CensusPart.words (p : CensusPart) : List W64 :=
  ([p.launch, p.teams, p.gangs, p.threads, p.tasks, p.ranges.length] ++ p.ranges.flatMap fun r => [r.1, r.2]).map w64

/-- `FREEZE` (R58): splits, steals and admission stop for the context; issue goes on. The census goes to the standby. -/
def execFreeze (s : State) : Out :=
  let c := s.ctxAt s.subj
  if !c.used then .next s
  else
    let parts := (s.launchesOf s.subj).map s.censusOf
    let s1 := s.modCtx s.subj fun c => { c with frozen := true, census := c.census ++ parts }
    if c.standby ≠ s.self then .next (s1.tell c.standby "CENSUS" (w64 s.subj :: parts.flatMap CensusPart.words))
    else if ((s.reachable c).filter fun n => n != s.self).isEmpty then .next (s1.soon (.on s.subj) (.census []))
    else .next s1

/-- Level-0 indices of a launch that no census holds. -/
def orphans (lr : List Byte) (parts : List CensusPart) (id : Nat) : List Nat :=
  let ranges := (parts.filter fun p => p.launch == id).flatMap (·.ranges)
  (List.range (((teamLevels lr).map (·.extent)).headD 0)).filter fun i => !(ranges.any fun r => decide (r.1 ≤ i) && decide (i ≤ r.2))

/-- Step 3 of R58 for one launch: the parts of other packages take their census counts; orphaned ranges are dispatched again. -/
def State.settleLaunch (s : State) (parts : List CensusPart) (id : Nat) : State :=
  let l := s.launchAt id
  let far := parts.filter fun p => p.launch == id && p.pkg != s.self
  let units := far.foldl (fun u (p : CensusPart) => tset u (8 + p.pkg) ((p.teams + p.gangs + p.threads + p.tasks : Nat) : Int))
    (l.units.filter fun u => decide (u.1 < 8))
  let s1 := s.modLaunch id fun l => { l with units := units, parts := l.parts.filter fun u => decide (u.1 < 8) }
  let lost := orphans l.lr parts id
  let again := if lrSeed l.lr then [] else (List.range (extentProduct (teamLevels l.lr))).filter fun t => lost.contains (teamDigit l.lr 0 t)
  if again.isEmpty then s1 else (s1.addUnits id 4 again.length).soon .none (.split id none again)

/-- `GEN` of a QCB as memory holds it. -/
def State.genOf (s : State) (a : Nat) : Nat := (s.poolWord (a + 160)).toNat

/-- The QCB to read at a takeover and the one to keep: with both in reach the older state (04 R111). -/
def State.takeoverQcb (s : State) (q : Queue) : Option (Nat × Queue) :=
  let ok := fun (a : Nat) => (s.owlFail a).isNone
  let m := q.qcb.toNat
  match q.alt with
  | some a =>
    if ok m && ok a.toNat then some (if s.genOf a.toNat < s.genOf m then a.toNat else m, q)
    else if ok a.toNat then some (a.toNat, { q with qcb := a, alt := none })
    else if ok m then some (m, { q with alt := none })
    else none
  | none => if ok m then some (m, q) else none

/-- Steps 4 and 5 of R58: the old root is lost, the queue goes on from the state recorded, the root changes and a new standby is named. -/
def State.becomeRoot (s0 : State) (ctx : Nat) : State :=
  let s := s0.dropPackage (s0.ctxAt ctx).root
  match s.takeoverQcb (s.queueAt ctx) with
  | none => s.stopQueue ctx 0x101 0
  | some (a, q) =>
    let c := s.ctxAt ctx
    let next := standbyOf (s.reachable c) s.self
    let s1 := s.modCtx ctx fun c => { c with root := s.self, standby := next, reports := [], census := [] }
    let q1 := s.fromQcb a q
    let s2 := (s1.modQcb ctx fun _ => { q1 with tail := q1.head, rootchg := !q1.rootchg }).tellOthers ctx "THAW" [w64 s.self, w64 next]
    let s3 := if next = 64 then s2 else s2.later 40000 (.on ctx) .heartbeat
    s3.soon (.on ctx) .thaw

/-- `CENSUS` (R58 steps 3 to 5): the censuses of the other packages are in. -/
def execCensus (parts : List CensusPart) (s : State) : Out :=
  let c := s.ctxAt s.subj
  if !c.used || c.root = s.self || c.standby ≠ s.self || !c.frozen then .next s
  else
    let all := c.census ++ parts
    .next (((s.launchesOf s.subj).foldl (fun s id => s.settleLaunch all id) s).becomeRoot s.subj)

/-- `THAW` (R58 step 5): splits, steals and admission go on. From a root that has resumed its queue it lets the context's work go on here too, in
the timing mode that the number above the context's gives (04 R115). -/
def execThaw (s : State) : Out :=
  let ctx := s.subj % 64
  let c := s.ctxAt ctx
  let mode := match s.subj / 64 with | 1 => some false | 2 => some true | _ => none
  if !c.used then .next s
  else
    let s1 := s.modCtx ctx fun c => { c with frozen := false }
    if c.root = s.self then .next (if c.frozen then (s1.wakeContext ctx).ring ctx else s)
    else .next ((s1.goOn ctx mode).wakeContext ctx)

end Sys2Proof.Machine
end

