-- ==== Sys2Proof/Machine/SysOps.lean ====
section
/-! DEFINITION. System registers, traps, mapping and cycle instructions (spec/16_isa_system.md R457 to R467). Their effects
at commit stand in Machine/Commit.lean. -/

namespace Sys2Proof.Machine

/-- `GANG_ID` (R459). -/
def State.gangIdWord (s : State) : W64 :=
  w64 (s.self * 2 ^ 22 + dieOf s.g.core * 2 ^ 20 + s.g.core % 144 * 2 ^ 12 + s.g.quarter * 2 ^ 10 + s.g.slot.getD 0 * 2 ^ 5 + s.g.index)

/-- `CTXINFO` (R458). -/
def State.ctxInfo (s : State) : W64 :=
  w64 (s.ctxNo % 64 + (if s.launchOf.fixord then 64 else 0) + (if s.fixedTiming then 128 else 0))

/-- `XINV` of a lane (R458): bit j for accumulator j. -/
def Gang.xinvLane (g : Gang) (l : Nat) : W64 :=
  w64 ((List.range 4).foldl (fun a j => if (g.xinv.getD j 0).getLsbD l then a + 2 ^ j else a) 0)

/-- The value of a system register in a lane; a mask in every lane (R458, R460). -/
def State.sysValue (s : State) (r : SysReg) (l : Nat) : W64 :=
  match r with
  | .fst => s.g.fst
  | .lck => s.g.lck
  | .exm => s.g.exm.setWidth 64
  | .gangId => s.gangIdWord
  | .sfmask => s.g.sfmask.setWidth 64
  | .xinv => s.g.xinvLane l
  | .lrm => s.core.lrm
  | .ctxinfo => s.ctxInfo
  | .flm => s.g.flm.setWidth 64
  | .fcause => s.g.fcause
  | .fpc => s.g.fpc
  | .fva => lane s.g.fva l
  | .pmres => lane s.g.pmres l
  | .privst => if s.g.sup then 1 else 0

/-- `sysrd` (R460). -/
def execSysrd (f : Form) (r : SysReg) (s : State) : Out :=
  let k := compute f latInt fun _ o => (tokOf r.cls (lanes (s.sysValue r)) (~~~o.pred), 0)
  if r.privRead then needSup 3 k s else k s

/-- `syswr` (R460): written at commit. -/
def execSyswr (f : Form) (r : SysReg) (s : State) : Out :=
  if r.privWrite then needSup 3 (depart f (.syswr f r)) s else depart f (.syswr f r) s

/-- `trap` (R461): taken after commit. -/
def execTrap (f : Form) (sub : BitVec 16) (s : State) : Out := depart f (.trap f sub) s
/-- `brk` (R461): taken after commit. -/
def execBrk (f : Form) (s : State) : Out := depart f (.brk f) s
/-- `tret` (R462): privileged; ends its lanes' part of the handler at commit. -/
def execTret (f : Form) (s : State) : Out := needSup 1 (depart f (.tret f)) s
/-- `halt` (R463): privileged; stops the queue at commit. -/
def execHalt (f : Form) (s : State) : Out := needSup 1 (depart f (.halt f)) s

/-- `pmap` and `punmap` (R464): a bad address faults; otherwise performed at commit. -/
def mapOp (f : Form) (i : Instr) (s : State) : Out :=
  needSup 1 (departIf f i fun o =>
    let bad := lanesWhere o.live fun l => decide (2 ^ 56 ≤ (lane o.a.vals l).toNat)
    if bad = 0 then none
    else some (s.execFault 6 1 255 bad (lanes fun l => if bad.getLsbD l then lane o.a.vals l else 0))) s

/-- `pmap` (R464). -/
def execPmap (f : Form) (s : State) : Out := mapOp f (.pmap f) s
/-- `punmap` (R464). -/
def execPunmap (f : Form) (s : State) : Out := mapOp f (.punmap f) s
/-- `tlbinv` (R465): sent at commit. -/
def execTlbinv (f : Form) (s : State) : Out := needSup 1 (depart f (.tlbinv f)) s

/-- `cyc` (R466): the cycle counter at issue. -/
def execCyc (f : Form) (s : State) : Out :=
  compute f latInt (fun _ o => (o.result f.vc (~~~o.pred) fun _ => w64 s.core.cyc, 0)) s

/-- `waitc` (R467). -/
def execWaitc (f : Form) (s : State) : Out := waitFor f (fun o => decide (o.ua ≤ s.core.cyc)) s

end Sys2Proof.Machine
end

