-- ==== Sys2Proof/Machine/Dispatch.lean ====
section
/-! DEFINITION. What each instruction does: one arm per constructor of `Instr`, each one call of its meaning. -/

namespace Sys2Proof.Machine

/-- The meaning of an instruction or package step. -/
def exec (i : Instr) (s : State) : Host.Outcome State Fault Refusal :=
  match i with
  | .rd f r => Sys2Proof.Machine.execRd f r s
  | .wr f r => Sys2Proof.Machine.execWr f r s
  | .mov f => Sys2Proof.Machine.execMov f s
  | .const f => Sys2Proof.Machine.execConst f s
  | .nul f => Sys2Proof.Machine.execNul f s
  | .sel f => Sys2Proof.Machine.execSel f s
  | .lid f k => Sys2Proof.Machine.execLid f k s
  | .br f disp => Sys2Proof.Machine.execBr f disp s
  | .bl f disp => Sys2Proof.Machine.execBl f disp s
  | .jr f => Sys2Proof.Machine.execJr f s
  | .regang f disp => Sys2Proof.Machine.execRegang f disp s
  | .exit f => Sys2Proof.Machine.execExit f s
  | .yield f => Sys2Proof.Machine.execYield f s
  | .rquota f => Sys2Proof.Machine.execRquota f s
  | .spawn f disp => Sys2Proof.Machine.execSpawn f disp s
  | .enq f => Sys2Proof.Machine.execEnq f s
  | .chunk f => Sys2Proof.Machine.execChunk f s
  | .qsend f => Sys2Proof.Machine.execQsend f s
  | .qtake f => Sys2Proof.Machine.execQtake f s
  | .add f => Sys2Proof.Machine.execAdd f s
  | .sub f => Sys2Proof.Machine.execSub f s
  | .mul f => Sys2Proof.Machine.execMul f s
  | .mulhi f => Sys2Proof.Machine.execMulhi f s
  | .mad f => Sys2Proof.Machine.execMad f s
  | .div f => Sys2Proof.Machine.execDiv f s
  | .rem f => Sys2Proof.Machine.execRem f s
  | .adc f => Sys2Proof.Machine.execAdc f s
  | .sbc f => Sys2Proof.Machine.execSbc f s
  | .min f => Sys2Proof.Machine.execMin f s
  | .max f => Sys2Proof.Machine.execMax f s
  | .abs f => Sys2Proof.Machine.execAbs f s
  | .neg f => Sys2Proof.Machine.execNeg f s
  | .adr f => Sys2Proof.Machine.execAdr f s
  | .cvt f src => Sys2Proof.Machine.execCvt f src s
  | .and f => Sys2Proof.Machine.execAnd f s
  | .or f => Sys2Proof.Machine.execOr f s
  | .xor f => Sys2Proof.Machine.execXor f s
  | .not f => Sys2Proof.Machine.execNot f s
  | .shl f => Sys2Proof.Machine.execShl f s
  | .shr f => Sys2Proof.Machine.execShr f s
  | .sra f => Sys2Proof.Machine.execSra f s
  | .rot f => Sys2Proof.Machine.execRot f s
  | .bfx f => Sys2Proof.Machine.execBfx f s
  | .bfi f => Sys2Proof.Machine.execBfi f s
  | .popc f => Sys2Proof.Machine.execPopc f s
  | .clz f => Sys2Proof.Machine.execClz f s
  | .ctz f => Sys2Proof.Machine.execCtz f s
  | .brev f => Sys2Proof.Machine.execBrev f s
  | .cmp f rel => Sys2Proof.Machine.execCmp f rel s
  | .vote f k => Sys2Proof.Machine.execVote f k s
  | .shfl f k => Sys2Proof.Machine.execShfl f k s
  | .redux f op => Sys2Proof.Machine.execRedux f op s
  | .scan f op excl => Sys2Proof.Machine.execScan f op excl s
  | .kand f => Sys2Proof.Machine.execKand f s
  | .kor f => Sys2Proof.Machine.execKor f s
  | .kxor f => Sys2Proof.Machine.execKxor f s
  | .knot f => Sys2Proof.Machine.execKnot f s
  | .kpop f => Sys2Proof.Machine.execKpop f s
  | .kfst f => Sys2Proof.Machine.execKfst f s
  | .fadd f => Sys2Proof.Machine.execFadd f s
  | .fsub f => Sys2Proof.Machine.execFsub f s
  | .fmul f => Sys2Proof.Machine.execFmul f s
  | .fma f => Sys2Proof.Machine.execFma f s
  | .fdiv f => Sys2Proof.Machine.execFdiv f s
  | .fsqrt f => Sys2Proof.Machine.execFsqrt f s
  | .frcp f => Sys2Proof.Machine.execFrcp f s
  | .frsqrt f => Sys2Proof.Machine.execFrsqrt f s
  | .fmin f => Sys2Proof.Machine.execFmin f s
  | .fmax f => Sys2Proof.Machine.execFmax f s
  | .fabs f => Sys2Proof.Machine.execFabs f s
  | .fneg f => Sys2Proof.Machine.execFneg f s
  | .fcmp f rel => Sys2Proof.Machine.execFcmp f rel s
  | .fclass f => Sys2Proof.Machine.execFclass f s
  | .fcvt f src => Sys2Proof.Machine.execFcvt f src s
  | .fcvti f src => Sys2Proof.Machine.execFcvti f src s
  | .icvtf f src => Sys2Proof.Machine.execIcvtf f src s
  | .frnd f => Sys2Proof.Machine.execFrnd f s
  | .fldx f => Sys2Proof.Machine.execFldx f s
  | .ffrx f => Sys2Proof.Machine.execFfrx f s
  | .fexp f => Sys2Proof.Machine.execFexp f s
  | .fexp2 f => Sys2Proof.Machine.execFexp2 f s
  | .flog f => Sys2Proof.Machine.execFlog f s
  | .flog2 f => Sys2Proof.Machine.execFlog2 f s
  | .fsin f => Sys2Proof.Machine.execFsin f s
  | .fcos f => Sys2Proof.Machine.execFcos f s
  | .ftanh f => Sys2Proof.Machine.execFtanh f s
  | .flgst f => Sys2Proof.Machine.execFlgst f s
  | .ferf f => Sys2Proof.Machine.execFerf f s
  | .fatan2 f => Sys2Proof.Machine.execFatan2 f s
  | .fpow f => Sys2Proof.Machine.execFpow f s
  | .pfma f => Sys2Proof.Machine.execPfma f s
  | .padd f => Sys2Proof.Machine.execPadd f s
  | .pmul f => Sys2Proof.Machine.execPmul f s
  | .pmax f => Sys2Proof.Machine.execPmax f s
  | .pcvt f k src => Sys2Proof.Machine.execPcvt f k src s
  | .pdot f => Sys2Proof.Machine.execPdot f s
  | .xclr f j => Sys2Proof.Machine.execXclr f j s
  | .xacc f j => Sys2Proof.Machine.execXacc f j s
  | .xadd f j => Sys2Proof.Machine.execXadd f j s
  | .xrnd f j => Sys2Proof.Machine.execXrnd f j s
  | .xsgn f j => Sys2Proof.Machine.execXsgn f j s
  | .ld f m => Sys2Proof.Machine.execLd f m s
  | .ldp f m => Sys2Proof.Machine.execLdp f m s
  | .st f m => Sys2Proof.Machine.execSt f m s
  | .atom f m => Sys2Proof.Machine.execAtom f m s
  | .cas f m => Sys2Proof.Machine.execCas f m s
  | .red f m => Sys2Proof.Machine.execRed f m s
  | .pref f m => Sys2Proof.Machine.execPref f m s
  | .fence f lsid => Sys2Proof.Machine.execFence f lsid s
  | .smap f lsid => Sys2Proof.Machine.execSmap f lsid s
  | .sunmap f lsid => Sys2Proof.Machine.execSunmap f lsid s
  | .swb f lsid => Sys2Proof.Machine.execSwb f lsid s
  | .sinv f lsid => Sys2Proof.Machine.execSinv f lsid s
  | .halloc f lsid => Sys2Proof.Machine.execHalloc f lsid s
  | .hfree f lsid => Sys2Proof.Machine.execHfree f lsid s
  | .wait f st cp ta sf => Sys2Proof.Machine.execWait f st cp ta sf s
  | .waitr f path => Sys2Proof.Machine.execWaitr f path s
  | .semAcq f sem m => Sys2Proof.Machine.execSemAcq f sem m s
  | .semRel f sem m => Sys2Proof.Machine.execSemRel f sem m s
  | .semTry f sem m => Sys2Proof.Machine.execSemTry f sem m s
  | .barInit f b => Sys2Proof.Machine.execBarInit f b s
  | .barArr f b => Sys2Proof.Machine.execBarArr f b s
  | .barWait f b => Sys2Proof.Machine.execBarWait f b s
  | .barAw f b => Sys2Proof.Machine.execBarAw f b s
  | .barDrop f b => Sys2Proof.Machine.execBarDrop f b s
  | .barTx f b => Sys2Proof.Machine.execBarTx f b s
  | .barGen f b => Sys2Proof.Machine.execBarGen f b s
  | .tlwait f => Sys2Proof.Machine.execTlwait f s
  | .tlread f => Sys2Proof.Machine.execTlread f s
  | .dsync f => Sys2Proof.Machine.execDsync f s
  | .lclk f => Sys2Proof.Machine.execLclk f s
  | .prov f clear => Sys2Proof.Machine.execProv f clear s
  | .stalls f => Sys2Proof.Machine.execStalls f s
  | .tmma f a => Sys2Proof.Machine.execTmma f a s
  | .tdist f a => Sys2Proof.Machine.execTdist f a s
  | .ttopk f zs zd k1 largest => Sys2Proof.Machine.execTtopk f zs zd k1 largest s
  | .tld f z => Sys2Proof.Machine.execTld f z s
  | .tst f z => Sys2Proof.Machine.execTst f z s
  | .tclr f z => Sys2Proof.Machine.execTclr f z s
  | .tcvt f z tr src => Sys2Proof.Machine.execTcvt f z tr src s
  | .trmax f z => Sys2Proof.Machine.execTrmax f z s
  | .trsum f z => Sys2Proof.Machine.execTrsum f z s
  | .trscl f z => Sys2Proof.Machine.execTrscl f z s
  | .cpy f p1 => Sys2Proof.Machine.execCpy f p1 s
  | .cpyg f p1 => Sys2Proof.Machine.execCpyg f p1 s
  | .cpyx f p1 => Sys2Proof.Machine.execCpyx f p1 s
  | .cfill f p1 => Sys2Proof.Machine.execCfill f p1 s
  | .trc f => Sys2Proof.Machine.execTrc f s
  | .pfill f => Sys2Proof.Machine.execPfill f s
  | .pcopy f => Sys2Proof.Machine.execPcopy f s
  | .pcmp f => Sys2Proof.Machine.execPcmp f s
  | .predx f elem fn => Sys2Proof.Machine.execPredx f elem fn s
  | .pgath f elem fn => Sys2Proof.Machine.execPgath f elem fn s
  | .pmap f => Sys2Proof.Machine.execPmap f s
  | .punmap f => Sys2Proof.Machine.execPunmap f s
  | .tlbinv f => Sys2Proof.Machine.execTlbinv f s
  | .sysrd f r => Sys2Proof.Machine.execSysrd f r s
  | .syswr f r => Sys2Proof.Machine.execSyswr f r s
  | .trap f sub => Sys2Proof.Machine.execTrap f sub s
  | .tret f => Sys2Proof.Machine.execTret f s
  | .brk f => Sys2Proof.Machine.execBrk f s
  | .cyc f => Sys2Proof.Machine.execCyc f s
  | .waitc f => Sys2Proof.Machine.execWaitc f s
  | .halt f => Sys2Proof.Machine.execHalt f s
  | .trainingFailure u => Sys2Proof.Machine.execTrainingFailure u s
  | .targetFrequencyChange die q mhz => Sys2Proof.Machine.execTargetFrequencyChange die q mhz s
  | .powerSample watts => Sys2Proof.Machine.execPowerSample watts s
  | .droopStretch die core => Sys2Proof.Machine.execDroopStretch die core s
  | .thermalWarning die celsius => Sys2Proof.Machine.execThermalWarning die celsius s
  | .thermalThrottle die => Sys2Proof.Machine.execThermalThrottle die s
  | .thermalThrottleRelease die => Sys2Proof.Machine.execThermalThrottleRelease die s
  | .scrubRead stack line found => Sys2Proof.Machine.execScrubRead stack line found s
  | .sequencerWatchdog which => Sys2Proof.Machine.execSequencerWatchdog which s
  | .flitReceive l f => Sys2Proof.Machine.execFlitReceive l f s
  | .negativeAcknowledgement l expected => Sys2Proof.Machine.execNegativeAcknowledgement l expected s
  | .ackTimeout l => Sys2Proof.Machine.execAckTimeout l s
  | .linkRetrain l => Sys2Proof.Machine.execLinkRetrain l s
  | .retrainComplete l lanes => Sys2Proof.Machine.execRetrainComplete l lanes s
  | .linkDown l => Sys2Proof.Machine.execLinkDown l s
  | .helloSend die port => Sys2Proof.Machine.execHelloSend die port s
  | .helloReceive die port h => Sys2Proof.Machine.execHelloReceive die port h s
  | .memberSet members => Sys2Proof.Machine.execMemberSet members s
  | .unreachableReport from_ => Sys2Proof.Machine.execUnreachableReport from_ s
  | .census parts => Sys2Proof.Machine.execCensus parts s
  | .rds die line => Sys2Proof.Machine.execRds die line s
  | .rdx die line => Sys2Proof.Machine.execRdx die line s
  | .upg die line => Sys2Proof.Machine.execUpg die line s
  | .wb die line bytes => Sys2Proof.Machine.execWb die line bytes s
  | .cleanEviction die line => Sys2Proof.Machine.execCleanEviction die line s
  | .probe die line k => Sys2Proof.Machine.execProbe die line k s
  | .probeReply die line dirty => Sys2Proof.Machine.execProbeReply die line dirty s
  | .redirect die page stack => Sys2Proof.Machine.execRedirect die page stack s
  | .pageMoveStart page stack retire => Sys2Proof.Machine.execPageMoveStart page stack retire s
  | .moveCopyComplete page => Sys2Proof.Machine.execMoveCopyComplete page s
  | .moveFinish page => Sys2Proof.Machine.execMoveFinish page s
  | .badgerOperation op => Sys2Proof.Machine.execBadgerOperation op s
  | .badgerComplete stack ctx num e => Sys2Proof.Machine.execBadgerComplete stack ctx num e s
  | .chunkRequest handler pos addr => Sys2Proof.Machine.execChunkRequest handler pos addr s
  | .edgeSend r => Sys2Proof.Machine.execEdgeSend r s
  | .edgeTake r => Sys2Proof.Machine.execEdgeTake r s
  | .edgeRetry r send => Sys2Proof.Machine.execEdgeRetry r send s
  | .pcieLinkTrain rate width => Sys2Proof.Machine.execPcieLinkTrain rate width s
  | .apertureWrite off bytes => Sys2Proof.Machine.execApertureWrite off bytes s
  | .apertureRead off len => Sys2Proof.Machine.execApertureRead off len s
  | .adminQcb v => Sys2Proof.Machine.execAdminQcb v s
  | .admitDigest ctx member digest at_ => Sys2Proof.Machine.execAdmitDigest ctx member digest at_ s
  | .registerWrite off v => Sys2Proof.Machine.execRegisterWrite off v s
  | .poolCommandCompletion status => Sys2Proof.Machine.execPoolCommandCompletion status s
  | .powerLimitEffecter watts => Sys2Proof.Machine.execPowerLimitEffecter watts s
  | .packageNumberEffecter tray slot => Sys2Proof.Machine.execPackageNumberEffecter tray slot s
  | .domainIdEffecter v => Sys2Proof.Machine.execDomainIdEffecter v s
  | .presentMaskEffecter v => Sys2Proof.Machine.execPresentMaskEffecter v s
  | .sensorRead what => Sys2Proof.Machine.execSensorRead what s
  | .firmwareUpdate c image => Sys2Proof.Machine.execFirmwareUpdate c image s
  | .firmwareActivate c => Sys2Proof.Machine.execFirmwareActivate c s
  | .mctpAttestation nonce => Sys2Proof.Machine.execMctpAttestation nonce s
  | .split launch die teams => Sys2Proof.Machine.execSplit launch die teams s
  | .stealRequest reqs => Sys2Proof.Machine.execStealRequest reqs s
  | .stealReply r teams => Sys2Proof.Machine.execStealReply r teams s
  | .binTimer team bin => Sys2Proof.Machine.execBinTimer team bin s
  | .binLaunch team bin => Sys2Proof.Machine.execBinLaunch team bin s
  | .taskArrival launch die core t => Sys2Proof.Machine.execTaskArrival launch die core t s
  | .counterPartReport launch die zero => Sys2Proof.Machine.execCounterPartReport launch die zero s
  | .registerFill line fate => Sys2Proof.Machine.execRegisterFill line fate s
  | .memoryReply req fate => Sys2Proof.Machine.execMemoryReply req fate s
  | .missReplay req => Sys2Proof.Machine.execMissReplay req s
  | .watchedWrite line => Sys2Proof.Machine.execWatchedWrite line s
  | .lrmRemapComplete core q => Sys2Proof.Machine.execLrmRemapComplete core q s
  | .translationWalk va write fetch sup => Sys2Proof.Machine.execTranslationWalk va write fetch sup s
  | .contextFault tag sub code => Sys2Proof.Machine.execContextFault tag sub code s
  | .copyPartArrive gang team part p flight kind sup lck sord desc => Sys2Proof.Machine.execCopyPartArrive gang team part p flight kind sup lck sord desc s
  | .copyComplete team num => Sys2Proof.Machine.execCopyComplete team num s
  | .copyFailureReport team num => Sys2Proof.Machine.execCopyFailureReport team num s
  | .smapComplete team region => Sys2Proof.Machine.execSmapComplete team region s
  | .regionWritebackComplete gang team region => Sys2Proof.Machine.execRegionWritebackComplete gang team region s
  | .droopEnd die core => Sys2Proof.Machine.execDroopEnd die core s
  | .domainReform members => Sys2Proof.Machine.execDomainReform members s
  | .pcieAtomicop kind off wide operand compare => Sys2Proof.Machine.execPcieAtomicop kind off wide operand compare s
  | .badgerFailureReport gang stack num e => Sys2Proof.Machine.execBadgerFailureReport gang stack num e s
  | .partitionRestore fate => Sys2Proof.Machine.execPartitionRestore fate s
  | .standbyPowerGood => Sys2Proof.Machine.execStandbyPowerGood s
  | .coldReset => Sys2Proof.Machine.execColdReset s
  | .warmReset => Sys2Proof.Machine.execWarmReset s
  | .bootComplete => Sys2Proof.Machine.execBootComplete s
  | .trainingEnd => Sys2Proof.Machine.execTrainingEnd s
  | .serviceTransitionTimeout => Sys2Proof.Machine.execServiceTransitionTimeout s
  | .droopGuard => Sys2Proof.Machine.execDroopGuard s
  | .partitionAdmission => Sys2Proof.Machine.execPartitionAdmission s
  | .thermalStop => Sys2Proof.Machine.execThermalStop s
  | .domainPublish => Sys2Proof.Machine.execDomainPublish s
  | .formationTimeout => Sys2Proof.Machine.execFormationTimeout s
  | .heartbeat => Sys2Proof.Machine.execHeartbeat s
  | .heartbeatTimeout => Sys2Proof.Machine.execHeartbeatTimeout s
  | .standbyTakeover => Sys2Proof.Machine.execStandbyTakeover s
  | .freeze => Sys2Proof.Machine.execFreeze s
  | .thaw => Sys2Proof.Machine.execThaw s
  | .adminDoorbell => Sys2Proof.Machine.execAdminDoorbell s
  | .doorbell => Sys2Proof.Machine.execDoorbell s
  | .tailPoll => Sys2Proof.Machine.execTailPoll s
  | .packetAdmission => Sys2Proof.Machine.execPacketAdmission s
  | .admitTimeout => Sys2Proof.Machine.execAdmitTimeout s
  | .launch => Sys2Proof.Machine.execLaunch s
  | .graph => Sys2Proof.Machine.execGraph s
  | .tlwaitPacket => Sys2Proof.Machine.execTlwaitPacket s
  | .tlwaitSatisfied => Sys2Proof.Machine.execTlwaitSatisfied s
  | .tlwaitTimeout => Sys2Proof.Machine.execTlwaitTimeout s
  | .tlsignal => Sys2Proof.Machine.execTlsignal s
  | .fencePacket => Sys2Proof.Machine.execFencePacket s
  | .preempt => Sys2Proof.Machine.execPreempt s
  | .traceOpen => Sys2Proof.Machine.execTraceOpen s
  | .traceClose => Sys2Proof.Machine.execTraceClose s
  | .traceDrainTimeout => Sys2Proof.Machine.execTraceDrainTimeout s
  | .wrap => Sys2Proof.Machine.execWrap s
  | .ctxCreate => Sys2Proof.Machine.execCtxCreate s
  | .ctxDestroy => Sys2Proof.Machine.execCtxDestroy s
  | .queueResume => Sys2Proof.Machine.execQueueResume s
  | .queueResumeSkip => Sys2Proof.Machine.execQueueResumeSkip s
  | .queueResumeReset => Sys2Proof.Machine.execQueueResumeReset s
  | .hostHalt => Sys2Proof.Machine.execHostHalt s
  | .poolMap => Sys2Proof.Machine.execPoolMap s
  | .poolUnmap => Sys2Proof.Machine.execPoolUnmap s
  | .migrate => Sys2Proof.Machine.execMigrate s
  | .eqCreate => Sys2Proof.Machine.execEqCreate s
  | .tableBase => Sys2Proof.Machine.execTableBase s
  | .patchStage => Sys2Proof.Machine.execPatchStage s
  | .owlRestart => Sys2Proof.Machine.execOwlRestart s
  | .attest => Sys2Proof.Machine.execAttest s
  | .attestSigned => Sys2Proof.Machine.execAttestSigned s
  | .pairBind => Sys2Proof.Machine.execPairBind s
  | .owlWatchdog => Sys2Proof.Machine.execOwlWatchdog s
  | .owlRestartDone => Sys2Proof.Machine.execOwlRestartDone s
  | .pldmDiscovery => Sys2Proof.Machine.execPldmDiscovery s
  | .certificateRead => Sys2Proof.Machine.execCertificateRead s
  | .teamAdmit => Sys2Proof.Machine.execTeamAdmit s
  | .stealBackoff => Sys2Proof.Machine.execStealBackoff s
  | .launchComplete => Sys2Proof.Machine.execLaunchComplete s
  | .partitionPreempt => Sys2Proof.Machine.execPartitionPreempt s
  | .partitionHalted => Sys2Proof.Machine.execPartitionHalted s
  | .shadowSaveComplete => Sys2Proof.Machine.execShadowSaveComplete s
  | .restoreComplete => Sys2Proof.Machine.execRestoreComplete s
  | .blockStall => Sys2Proof.Machine.execBlockStall s
  | .blockFetch => Sys2Proof.Machine.execBlockFetch s
  | .headerDecode => Sys2Proof.Machine.execHeaderDecode s
  | .blockCommit => Sys2Proof.Machine.execBlockCommit s
  | .timedDeadline => Sys2Proof.Machine.execTimedDeadline s
  | .parkTimeout => Sys2Proof.Machine.execParkTimeout s
  | .slotTakeover => Sys2Proof.Machine.execSlotTakeover s
  | .tlbinvComplete => Sys2Proof.Machine.execTlbinvComplete s
  | .tileQueueStart => Sys2Proof.Machine.execTileQueueStart s
  | .tileQueueComplete => Sys2Proof.Machine.execTileQueueComplete s
  | .sampleDue => Sys2Proof.Machine.execSampleDue s
  | .coreCycle => Sys2Proof.Machine.execCoreCycle s

end Sys2Proof.Machine
end

