-- ==== Sys2Proof/Machine/Run.lean ====
section
/-! DEFINITION. What the machine does next (notes/assumptions/3.md): an instruction chosen in this cycle, then the steps that
are due, then the cores' cycles, then the next cycle. -/

namespace Sys2Proof.Machine

/-- The focus of a step that is due. -/
def State.focusOn (s : State) : Subject → State
  | .none => { s with pkt := ⟨0, 0, []⟩ }
  | .gang g => s.focus g
  | .on n => { s with subj := n }
  | .packet p => { s with pkt := p }

/-- Does the subject of a step that is due still exist? -/
def State.subjectLive (s : State) : Subject → Bool
  | .gang g => (s.gangAt g).isSome
  | _ => true

/-- Has an entry's time come, by the clock that it runs on? -/
def State.reached (s : State) (d : Due) : Bool :=
  match d.clock with
  | none => decide (d.time ≤ s.now)
  | some c => decide (d.time ≤ (s.coreAt c).cyc)

/-- The first entry due now, with the others. -/
def takeDue (s : State) : List Due → Option (Due × List Due)
  | [] => none
  | d :: r =>
    if s.reached d then some (d, r)
    else match takeDue s r with
      | some x => some (x.1, d :: x.2)
      | none => none

/-- Cores with a gang that is resident or waits for a slot, in order. -/
def State.busyCores (s : State) : List Nat :=
  let waits := fun (n : Nat) => s.allGangs.any fun p => p.2.core == n && p.2.waitsSlot.isSome && !p.2.retired
  (s.cores.filter fun p => p.2.slots.any Option.isSome || waits p.1).map (·.1)

/-- What a tick adds to a core's phase: 3 for each megahertz of its partition, and two thirds of that while a droop stretches its
cycle to 1.5 times the nominal period (01 R13, R14). -/
def State.pace (s : State) (core : Nat) : Nat :=
  (if s.pkg.stretched.contains core then 2 else 3) * (s.partAt (partOf core)).mhz

/-- A core's phase after a tick; its cycle counter advances with the first cycle that the tick completes (16 R466). -/
def Core.advance (c : Core) (pace : Nat) : Core :=
  if 2400 ≤ c.phase + pace then { c with phase := c.phase + pace - 2400, cyc := c.cyc + 1 } else { c with phase := c.phase + pace }

/-- The next tick of the package (01 R13): the cores that complete a cycle in it and hold gangs take their turns; `twice` keeps
those with phase left for another. -/
def State.tick (s : State) : State :=
  let next := s.cores.map fun p => (p.1, p.2.advance (s.pace p.1))
  let ran := (s.cores.filter fun p => 2400 ≤ p.2.phase + s.pace p.1).map (·.1)
  { s with now := s.now + 1, cores := next, turn := s.busyCores.filter ran.contains,
           twice := (next.filter fun p => 2400 ≤ p.2.phase).map (·.1) }

/-- The second cycle of the cores that complete two in one tick. -/
def State.tickAgain (s : State) : State :=
  { s with cores := s.cores.map fun p => (p.1, if s.twice.contains p.1 then p.2.advance 0 else p.2),
           turn := s.busyCores.filter s.twice.contains, twice := [] }

/-- The issue of an instruction: its gang, instance and index in focus, and the instruction that stands there. -/
def State.atIssue (s : State) (r : IssueRef) : Except Nat (Option Instr) × State :=
  let s1 := s.focus r.gang
  let s2 := { s1 with isec := r.sec, idx := r.idx }
  if s2.gid ≠ r.gang then (.ok none, s)
  else match s2.blk? with
    | none => (.ok none, s2)
    | some b =>
      match b.instrAt r.idx with
      | .ok i => (.ok (some i), s2)
      | .error e => (.error e.subcode, s2)

/-- What happens next, and the state in which it happens. -/
def State.nextWork (s : State) : Except Nat (Option Instr) × State :=
  match s.issue with
  | r :: rest => State.atIssue { s with issue := rest } r
  | [] =>
    match takeDue s s.agenda with
    | some (d, rest) =>
      let s1 := { s with agenda := rest }
      if s1.subjectLive d.subj then (.ok (some d.ev), s1.focusOn d.subj) else (.ok none, s1)
    | none =>
      match s.turn with
      | c :: rest => (.ok (some .coreCycle), { s with turn := rest, subj := c })
      | [] => (.ok none, if s.twice.isEmpty then s.tick else s.tickAgain)

/-- A block instance that holds an instruction's words and nothing else, in every lane. -/
def wordBlock (ws : List W32) : Blk :=
  { hdr := [0xB0200000, 0, 0, 0], words := ws, slices := 0xFF, lanes := allLanes, stage := .run }

/-- The instruction's words placed where the next issue takes them (notes/assumptions/3.md). -/
def State.placeWords (s : State) (ws : List W32) : State :=
  { s with g := { s.g with prim := some (wordBlock ws) }, issue := [⟨s.gid, false, 0⟩] }

end Sys2Proof.Machine
end

