-- ==== Sys2Proof/Machine/Step.lean ====
section
/-! DEFINITION. One step of the machine, and the placing of an instruction where the next step takes it. -/

namespace Sys2Proof.Machine

/-- One step: what comes next is run. -/
def step (s : State) : Host.Outcome State Fault Refusal :=
  match s.nextWork with
  | (.error sub, _) => .refused (.undecodable sub)
  | (.ok none, t) => .next t
  | (.ok (some i), t) => exec i t

/-- The instruction whose bits are `w` stored where `step` takes its next instruction. -/
def State.withFetchWord (s : State) (nbits w : Nat) : State := s.placeWords (tableWords nbits w)

end Sys2Proof.Machine
end

