-- ==== Sys2Proof/Laws/Exec.lean ====
section
/-! SUPPORT. `exec` at each constructor is that constructor's meaning. -/

namespace Sys2Proof.Machine
open Sys2Proof

theorem exec_rd f r s : exec (.rd f r) s = execRd f r s := rfl
theorem exec_wr f r s : exec (.wr f r) s = execWr f r s := rfl
theorem exec_mov f s : exec (.mov f) s = execMov f s := rfl
theorem exec_const f s : exec (.const f) s = execConst f s := rfl
theorem exec_nul f s : exec (.nul f) s = execNul f s := rfl
theorem exec_sel f s : exec (.sel f) s = execSel f s := rfl
theorem exec_lid f k s : exec (.lid f k) s = execLid f k s := rfl
theorem exec_br f disp s : exec (.br f disp) s = execBr f disp s := rfl
theorem exec_bl f disp s : exec (.bl f disp) s = execBl f disp s := rfl
theorem exec_jr f s : exec (.jr f) s = execJr f s := rfl
theorem exec_regang f disp s : exec (.regang f disp) s = execRegang f disp s := rfl
theorem exec_exit f s : exec (.exit f) s = execExit f s := rfl
theorem exec_yield f s : exec (.yield f) s = execYield f s := rfl
theorem exec_rquota f s : exec (.rquota f) s = execRquota f s := rfl
theorem exec_spawn f disp s : exec (.spawn f disp) s = execSpawn f disp s := rfl
theorem exec_enq f s : exec (.enq f) s = execEnq f s := rfl
theorem exec_chunk f s : exec (.chunk f) s = execChunk f s := rfl
theorem exec_qsend f s : exec (.qsend f) s = execQsend f s := rfl
theorem exec_qtake f s : exec (.qtake f) s = execQtake f s := rfl
theorem exec_add f s : exec (.add f) s = execAdd f s := rfl
theorem exec_sub f s : exec (.sub f) s = execSub f s := rfl
theorem exec_mul f s : exec (.mul f) s = execMul f s := rfl
theorem exec_mulhi f s : exec (.mulhi f) s = execMulhi f s := rfl
theorem exec_mad f s : exec (.mad f) s = execMad f s := rfl
theorem exec_div f s : exec (.div f) s = execDiv f s := rfl
theorem exec_rem f s : exec (.rem f) s = execRem f s := rfl
theorem exec_adc f s : exec (.adc f) s = execAdc f s := rfl
theorem exec_sbc f s : exec (.sbc f) s = execSbc f s := rfl
theorem exec_min f s : exec (.min f) s = execMin f s := rfl
theorem exec_max f s : exec (.max f) s = execMax f s := rfl
theorem exec_abs f s : exec (.abs f) s = execAbs f s := rfl
theorem exec_neg f s : exec (.neg f) s = execNeg f s := rfl
theorem exec_adr f s : exec (.adr f) s = execAdr f s := rfl
theorem exec_cvt f src s : exec (.cvt f src) s = execCvt f src s := rfl
theorem exec_and f s : exec (.and f) s = execAnd f s := rfl
theorem exec_or f s : exec (.or f) s = execOr f s := rfl
theorem exec_xor f s : exec (.xor f) s = execXor f s := rfl
theorem exec_not f s : exec (.not f) s = execNot f s := rfl
theorem exec_shl f s : exec (.shl f) s = execShl f s := rfl
theorem exec_shr f s : exec (.shr f) s = execShr f s := rfl
theorem exec_sra f s : exec (.sra f) s = execSra f s := rfl
theorem exec_rot f s : exec (.rot f) s = execRot f s := rfl
theorem exec_bfx f s : exec (.bfx f) s = execBfx f s := rfl
theorem exec_bfi f s : exec (.bfi f) s = execBfi f s := rfl
theorem exec_popc f s : exec (.popc f) s = execPopc f s := rfl
theorem exec_clz f s : exec (.clz f) s = execClz f s := rfl
theorem exec_ctz f s : exec (.ctz f) s = execCtz f s := rfl
theorem exec_brev f s : exec (.brev f) s = execBrev f s := rfl
theorem exec_cmp f rel s : exec (.cmp f rel) s = execCmp f rel s := rfl
theorem exec_vote f k s : exec (.vote f k) s = execVote f k s := rfl
theorem exec_shfl f k s : exec (.shfl f k) s = execShfl f k s := rfl
theorem exec_redux f op s : exec (.redux f op) s = execRedux f op s := rfl
theorem exec_scan f op excl s : exec (.scan f op excl) s = execScan f op excl s := rfl
theorem exec_kand f s : exec (.kand f) s = execKand f s := rfl
theorem exec_kor f s : exec (.kor f) s = execKor f s := rfl
theorem exec_kxor f s : exec (.kxor f) s = execKxor f s := rfl
theorem exec_knot f s : exec (.knot f) s = execKnot f s := rfl
theorem exec_kpop f s : exec (.kpop f) s = execKpop f s := rfl
theorem exec_kfst f s : exec (.kfst f) s = execKfst f s := rfl
theorem exec_fadd f s : exec (.fadd f) s = execFadd f s := rfl
theorem exec_fsub f s : exec (.fsub f) s = execFsub f s := rfl
theorem exec_fmul f s : exec (.fmul f) s = execFmul f s := rfl
theorem exec_fma f s : exec (.fma f) s = execFma f s := rfl
theorem exec_fdiv f s : exec (.fdiv f) s = execFdiv f s := rfl
theorem exec_fsqrt f s : exec (.fsqrt f) s = execFsqrt f s := rfl
theorem exec_frcp f s : exec (.frcp f) s = execFrcp f s := rfl
theorem exec_frsqrt f s : exec (.frsqrt f) s = execFrsqrt f s := rfl
theorem exec_fmin f s : exec (.fmin f) s = execFmin f s := rfl
theorem exec_fmax f s : exec (.fmax f) s = execFmax f s := rfl
theorem exec_fabs f s : exec (.fabs f) s = execFabs f s := rfl
theorem exec_fneg f s : exec (.fneg f) s = execFneg f s := rfl
theorem exec_fcmp f rel s : exec (.fcmp f rel) s = execFcmp f rel s := rfl
theorem exec_fclass f s : exec (.fclass f) s = execFclass f s := rfl
theorem exec_fcvt f src s : exec (.fcvt f src) s = execFcvt f src s := rfl
theorem exec_fcvti f src s : exec (.fcvti f src) s = execFcvti f src s := rfl
theorem exec_icvtf f src s : exec (.icvtf f src) s = execIcvtf f src s := rfl
theorem exec_frnd f s : exec (.frnd f) s = execFrnd f s := rfl
theorem exec_fldx f s : exec (.fldx f) s = execFldx f s := rfl
theorem exec_ffrx f s : exec (.ffrx f) s = execFfrx f s := rfl
theorem exec_fexp f s : exec (.fexp f) s = execFexp f s := rfl
theorem exec_fexp2 f s : exec (.fexp2 f) s = execFexp2 f s := rfl
theorem exec_flog f s : exec (.flog f) s = execFlog f s := rfl
theorem exec_flog2 f s : exec (.flog2 f) s = execFlog2 f s := rfl
theorem exec_fsin f s : exec (.fsin f) s = execFsin f s := rfl
theorem exec_fcos f s : exec (.fcos f) s = execFcos f s := rfl
theorem exec_ftanh f s : exec (.ftanh f) s = execFtanh f s := rfl
theorem exec_flgst f s : exec (.flgst f) s = execFlgst f s := rfl
theorem exec_ferf f s : exec (.ferf f) s = execFerf f s := rfl
theorem exec_fatan2 f s : exec (.fatan2 f) s = execFatan2 f s := rfl
theorem exec_fpow f s : exec (.fpow f) s = execFpow f s := rfl
theorem exec_pfma f s : exec (.pfma f) s = execPfma f s := rfl
theorem exec_padd f s : exec (.padd f) s = execPadd f s := rfl
theorem exec_pmul f s : exec (.pmul f) s = execPmul f s := rfl
theorem exec_pmax f s : exec (.pmax f) s = execPmax f s := rfl
theorem exec_pcvt f k src s : exec (.pcvt f k src) s = execPcvt f k src s := rfl
theorem exec_pdot f s : exec (.pdot f) s = execPdot f s := rfl
theorem exec_xclr f j s : exec (.xclr f j) s = execXclr f j s := rfl
theorem exec_xacc f j s : exec (.xacc f j) s = execXacc f j s := rfl
theorem exec_xadd f j s : exec (.xadd f j) s = execXadd f j s := rfl
theorem exec_xrnd f j s : exec (.xrnd f j) s = execXrnd f j s := rfl
theorem exec_xsgn f j s : exec (.xsgn f j) s = execXsgn f j s := rfl
theorem exec_ld f m s : exec (.ld f m) s = execLd f m s := rfl
theorem exec_ldp f m s : exec (.ldp f m) s = execLdp f m s := rfl
theorem exec_st f m s : exec (.st f m) s = execSt f m s := rfl
theorem exec_atom f m s : exec (.atom f m) s = execAtom f m s := rfl
theorem exec_cas f m s : exec (.cas f m) s = execCas f m s := rfl
theorem exec_red f m s : exec (.red f m) s = execRed f m s := rfl
theorem exec_pref f m s : exec (.pref f m) s = execPref f m s := rfl
theorem exec_fence f lsid s : exec (.fence f lsid) s = execFence f lsid s := rfl
theorem exec_smap f lsid s : exec (.smap f lsid) s = execSmap f lsid s := rfl
theorem exec_sunmap f lsid s : exec (.sunmap f lsid) s = execSunmap f lsid s := rfl
theorem exec_swb f lsid s : exec (.swb f lsid) s = execSwb f lsid s := rfl
theorem exec_sinv f lsid s : exec (.sinv f lsid) s = execSinv f lsid s := rfl
theorem exec_halloc f lsid s : exec (.halloc f lsid) s = execHalloc f lsid s := rfl
theorem exec_hfree f lsid s : exec (.hfree f lsid) s = execHfree f lsid s := rfl
theorem exec_wait f st cp ta sf s : exec (.wait f st cp ta sf) s = execWait f st cp ta sf s := rfl
theorem exec_waitr f path s : exec (.waitr f path) s = execWaitr f path s := rfl
theorem exec_semAcq f sem m s : exec (.semAcq f sem m) s = execSemAcq f sem m s := rfl
theorem exec_semRel f sem m s : exec (.semRel f sem m) s = execSemRel f sem m s := rfl
theorem exec_semTry f sem m s : exec (.semTry f sem m) s = execSemTry f sem m s := rfl
theorem exec_barInit f b s : exec (.barInit f b) s = execBarInit f b s := rfl
theorem exec_barArr f b s : exec (.barArr f b) s = execBarArr f b s := rfl
theorem exec_barWait f b s : exec (.barWait f b) s = execBarWait f b s := rfl
theorem exec_barAw f b s : exec (.barAw f b) s = execBarAw f b s := rfl
theorem exec_barDrop f b s : exec (.barDrop f b) s = execBarDrop f b s := rfl
theorem exec_barTx f b s : exec (.barTx f b) s = execBarTx f b s := rfl
theorem exec_barGen f b s : exec (.barGen f b) s = execBarGen f b s := rfl
theorem exec_tlwait f s : exec (.tlwait f) s = execTlwait f s := rfl
theorem exec_tlread f s : exec (.tlread f) s = execTlread f s := rfl
theorem exec_dsync f s : exec (.dsync f) s = execDsync f s := rfl
theorem exec_lclk f s : exec (.lclk f) s = execLclk f s := rfl
theorem exec_prov f clear s : exec (.prov f clear) s = execProv f clear s := rfl
theorem exec_stalls f s : exec (.stalls f) s = execStalls f s := rfl
theorem exec_tmma f a s : exec (.tmma f a) s = execTmma f a s := rfl
theorem exec_tdist f a s : exec (.tdist f a) s = execTdist f a s := rfl
theorem exec_ttopk f zs zd k1 largest s : exec (.ttopk f zs zd k1 largest) s = execTtopk f zs zd k1 largest s := rfl
theorem exec_tld f z s : exec (.tld f z) s = execTld f z s := rfl
theorem exec_tst f z s : exec (.tst f z) s = execTst f z s := rfl
theorem exec_tclr f z s : exec (.tclr f z) s = execTclr f z s := rfl
theorem exec_tcvt f z tr src s : exec (.tcvt f z tr src) s = execTcvt f z tr src s := rfl
theorem exec_trmax f z s : exec (.trmax f z) s = execTrmax f z s := rfl
theorem exec_trsum f z s : exec (.trsum f z) s = execTrsum f z s := rfl
theorem exec_trscl f z s : exec (.trscl f z) s = execTrscl f z s := rfl
theorem exec_cpy f p1 s : exec (.cpy f p1) s = execCpy f p1 s := rfl
theorem exec_cpyg f p1 s : exec (.cpyg f p1) s = execCpyg f p1 s := rfl
theorem exec_cpyx f p1 s : exec (.cpyx f p1) s = execCpyx f p1 s := rfl
theorem exec_cfill f p1 s : exec (.cfill f p1) s = execCfill f p1 s := rfl
theorem exec_trc f s : exec (.trc f) s = execTrc f s := rfl
theorem exec_pfill f s : exec (.pfill f) s = execPfill f s := rfl
theorem exec_pcopy f s : exec (.pcopy f) s = execPcopy f s := rfl
theorem exec_pcmp f s : exec (.pcmp f) s = execPcmp f s := rfl
theorem exec_predx f elem fn s : exec (.predx f elem fn) s = execPredx f elem fn s := rfl
theorem exec_pgath f elem fn s : exec (.pgath f elem fn) s = execPgath f elem fn s := rfl
theorem exec_pmap f s : exec (.pmap f) s = execPmap f s := rfl
theorem exec_punmap f s : exec (.punmap f) s = execPunmap f s := rfl
theorem exec_tlbinv f s : exec (.tlbinv f) s = execTlbinv f s := rfl
theorem exec_sysrd f r s : exec (.sysrd f r) s = execSysrd f r s := rfl
theorem exec_syswr f r s : exec (.syswr f r) s = execSyswr f r s := rfl
theorem exec_trap f sub s : exec (.trap f sub) s = execTrap f sub s := rfl
theorem exec_tret f s : exec (.tret f) s = execTret f s := rfl
theorem exec_brk f s : exec (.brk f) s = execBrk f s := rfl
theorem exec_cyc f s : exec (.cyc f) s = execCyc f s := rfl
theorem exec_waitc f s : exec (.waitc f) s = execWaitc f s := rfl
theorem exec_halt f s : exec (.halt f) s = execHalt f s := rfl
theorem exec_trainingFailure u s : exec (.trainingFailure u) s = execTrainingFailure u s := rfl
theorem exec_targetFrequencyChange die q mhz s : exec (.targetFrequencyChange die q mhz) s = execTargetFrequencyChange die q mhz s := rfl
theorem exec_powerSample watts s : exec (.powerSample watts) s = execPowerSample watts s := rfl
theorem exec_droopStretch die core s : exec (.droopStretch die core) s = execDroopStretch die core s := rfl
theorem exec_thermalWarning die celsius s : exec (.thermalWarning die celsius) s = execThermalWarning die celsius s := rfl
theorem exec_thermalThrottle die s : exec (.thermalThrottle die) s = execThermalThrottle die s := rfl
theorem exec_thermalThrottleRelease die s : exec (.thermalThrottleRelease die) s = execThermalThrottleRelease die s := rfl
theorem exec_scrubRead stack line found s : exec (.scrubRead stack line found) s = execScrubRead stack line found s := rfl
theorem exec_sequencerWatchdog which s : exec (.sequencerWatchdog which) s = execSequencerWatchdog which s := rfl
theorem exec_flitReceive l f s : exec (.flitReceive l f) s = execFlitReceive l f s := rfl
theorem exec_negativeAcknowledgement l expected s : exec (.negativeAcknowledgement l expected) s = execNegativeAcknowledgement l expected s := rfl
theorem exec_ackTimeout l s : exec (.ackTimeout l) s = execAckTimeout l s := rfl
theorem exec_linkRetrain l s : exec (.linkRetrain l) s = execLinkRetrain l s := rfl
theorem exec_retrainComplete l lanes s : exec (.retrainComplete l lanes) s = execRetrainComplete l lanes s := rfl
theorem exec_linkDown l s : exec (.linkDown l) s = execLinkDown l s := rfl
theorem exec_helloSend die port s : exec (.helloSend die port) s = execHelloSend die port s := rfl
theorem exec_helloReceive die port h s : exec (.helloReceive die port h) s = execHelloReceive die port h s := rfl
theorem exec_memberSet members s : exec (.memberSet members) s = execMemberSet members s := rfl
theorem exec_unreachableReport from_ s : exec (.unreachableReport from_) s = execUnreachableReport from_ s := rfl
theorem exec_census parts s : exec (.census parts) s = execCensus parts s := rfl
theorem exec_rds die line s : exec (.rds die line) s = execRds die line s := rfl
theorem exec_rdx die line s : exec (.rdx die line) s = execRdx die line s := rfl
theorem exec_upg die line s : exec (.upg die line) s = execUpg die line s := rfl
theorem exec_wb die line bytes s : exec (.wb die line bytes) s = execWb die line bytes s := rfl
theorem exec_cleanEviction die line s : exec (.cleanEviction die line) s = execCleanEviction die line s := rfl
theorem exec_probe die line k s : exec (.probe die line k) s = execProbe die line k s := rfl
theorem exec_probeReply die line dirty s : exec (.probeReply die line dirty) s = execProbeReply die line dirty s := rfl
theorem exec_redirect die page stack s : exec (.redirect die page stack) s = execRedirect die page stack s := rfl
theorem exec_pageMoveStart page stack retire s : exec (.pageMoveStart page stack retire) s = execPageMoveStart page stack retire s := rfl
theorem exec_moveCopyComplete page s : exec (.moveCopyComplete page) s = execMoveCopyComplete page s := rfl
theorem exec_moveFinish page s : exec (.moveFinish page) s = execMoveFinish page s := rfl
theorem exec_badgerOperation op s : exec (.badgerOperation op) s = execBadgerOperation op s := rfl
theorem exec_badgerComplete stack ctx num e s : exec (.badgerComplete stack ctx num e) s = execBadgerComplete stack ctx num e s := rfl
theorem exec_chunkRequest handler pos addr s : exec (.chunkRequest handler pos addr) s = execChunkRequest handler pos addr s := rfl
theorem exec_edgeSend r s : exec (.edgeSend r) s = execEdgeSend r s := rfl
theorem exec_edgeTake r s : exec (.edgeTake r) s = execEdgeTake r s := rfl
theorem exec_edgeRetry r send s : exec (.edgeRetry r send) s = execEdgeRetry r send s := rfl
theorem exec_pcieLinkTrain rate width s : exec (.pcieLinkTrain rate width) s = execPcieLinkTrain rate width s := rfl
theorem exec_apertureWrite off bytes s : exec (.apertureWrite off bytes) s = execApertureWrite off bytes s := rfl
theorem exec_apertureRead off len s : exec (.apertureRead off len) s = execApertureRead off len s := rfl
theorem exec_adminQcb v s : exec (.adminQcb v) s = execAdminQcb v s := rfl
theorem exec_admitDigest ctx member digest at_ s : exec (.admitDigest ctx member digest at_) s = execAdmitDigest ctx member digest at_ s := rfl
theorem exec_registerWrite off v s : exec (.registerWrite off v) s = execRegisterWrite off v s := rfl
theorem exec_poolCommandCompletion status s : exec (.poolCommandCompletion status) s = execPoolCommandCompletion status s := rfl
theorem exec_powerLimitEffecter watts s : exec (.powerLimitEffecter watts) s = execPowerLimitEffecter watts s := rfl
theorem exec_packageNumberEffecter tray slot s : exec (.packageNumberEffecter tray slot) s = execPackageNumberEffecter tray slot s := rfl
theorem exec_domainIdEffecter v s : exec (.domainIdEffecter v) s = execDomainIdEffecter v s := rfl
theorem exec_presentMaskEffecter v s : exec (.presentMaskEffecter v) s = execPresentMaskEffecter v s := rfl
theorem exec_sensorRead what s : exec (.sensorRead what) s = execSensorRead what s := rfl
theorem exec_firmwareUpdate c image s : exec (.firmwareUpdate c image) s = execFirmwareUpdate c image s := rfl
theorem exec_firmwareActivate c s : exec (.firmwareActivate c) s = execFirmwareActivate c s := rfl
theorem exec_mctpAttestation nonce s : exec (.mctpAttestation nonce) s = execMctpAttestation nonce s := rfl
theorem exec_split launch die teams s : exec (.split launch die teams) s = execSplit launch die teams s := rfl
theorem exec_stealRequest reqs s : exec (.stealRequest reqs) s = execStealRequest reqs s := rfl
theorem exec_stealReply r teams s : exec (.stealReply r teams) s = execStealReply r teams s := rfl
theorem exec_binTimer team bin s : exec (.binTimer team bin) s = execBinTimer team bin s := rfl
theorem exec_binLaunch team bin s : exec (.binLaunch team bin) s = execBinLaunch team bin s := rfl
theorem exec_taskArrival launch die core t s : exec (.taskArrival launch die core t) s = execTaskArrival launch die core t s := rfl
theorem exec_counterPartReport launch die zero s : exec (.counterPartReport launch die zero) s = execCounterPartReport launch die zero s := rfl
theorem exec_registerFill line fate s : exec (.registerFill line fate) s = execRegisterFill line fate s := rfl
theorem exec_memoryReply req fate s : exec (.memoryReply req fate) s = execMemoryReply req fate s := rfl
theorem exec_missReplay req s : exec (.missReplay req) s = execMissReplay req s := rfl
theorem exec_watchedWrite line s : exec (.watchedWrite line) s = execWatchedWrite line s := rfl
theorem exec_lrmRemapComplete core q s : exec (.lrmRemapComplete core q) s = execLrmRemapComplete core q s := rfl
theorem exec_translationWalk va write fetch sup s : exec (.translationWalk va write fetch sup) s = execTranslationWalk va write fetch sup s := rfl
theorem exec_contextFault tag sub code s : exec (.contextFault tag sub code) s = execContextFault tag sub code s := rfl
theorem exec_copyPartArrive gang team part p flight kind sup lck sord desc s : exec (.copyPartArrive gang team part p flight kind sup lck sord desc) s = execCopyPartArrive gang team part p flight kind sup lck sord desc s := rfl
theorem exec_copyComplete team num s : exec (.copyComplete team num) s = execCopyComplete team num s := rfl
theorem exec_copyFailureReport team num s : exec (.copyFailureReport team num) s = execCopyFailureReport team num s := rfl
theorem exec_smapComplete team region s : exec (.smapComplete team region) s = execSmapComplete team region s := rfl
theorem exec_regionWritebackComplete gang team region s : exec (.regionWritebackComplete gang team region) s = execRegionWritebackComplete gang team region s := rfl
theorem exec_droopEnd die core s : exec (.droopEnd die core) s = execDroopEnd die core s := rfl
theorem exec_domainReform members s : exec (.domainReform members) s = execDomainReform members s := rfl
theorem exec_pcieAtomicop kind off wide operand compare s : exec (.pcieAtomicop kind off wide operand compare) s = execPcieAtomicop kind off wide operand compare s := rfl
theorem exec_badgerFailureReport gang stack num e s : exec (.badgerFailureReport gang stack num e) s = execBadgerFailureReport gang stack num e s := rfl
theorem exec_partitionRestore fate s : exec (.partitionRestore fate) s = execPartitionRestore fate s := rfl
theorem exec_standbyPowerGood s : exec .standbyPowerGood s = execStandbyPowerGood s := rfl
theorem exec_coldReset s : exec .coldReset s = execColdReset s := rfl
theorem exec_warmReset s : exec .warmReset s = execWarmReset s := rfl
theorem exec_bootComplete s : exec .bootComplete s = execBootComplete s := rfl
theorem exec_trainingEnd s : exec .trainingEnd s = execTrainingEnd s := rfl
theorem exec_serviceTransitionTimeout s : exec .serviceTransitionTimeout s = execServiceTransitionTimeout s := rfl
theorem exec_droopGuard s : exec .droopGuard s = execDroopGuard s := rfl
theorem exec_partitionAdmission s : exec .partitionAdmission s = execPartitionAdmission s := rfl
theorem exec_thermalStop s : exec .thermalStop s = execThermalStop s := rfl
theorem exec_domainPublish s : exec .domainPublish s = execDomainPublish s := rfl
theorem exec_formationTimeout s : exec .formationTimeout s = execFormationTimeout s := rfl
theorem exec_heartbeat s : exec .heartbeat s = execHeartbeat s := rfl
theorem exec_heartbeatTimeout s : exec .heartbeatTimeout s = execHeartbeatTimeout s := rfl
theorem exec_standbyTakeover s : exec .standbyTakeover s = execStandbyTakeover s := rfl
theorem exec_freeze s : exec .freeze s = execFreeze s := rfl
theorem exec_thaw s : exec .thaw s = execThaw s := rfl
theorem exec_adminDoorbell s : exec .adminDoorbell s = execAdminDoorbell s := rfl
theorem exec_doorbell s : exec .doorbell s = execDoorbell s := rfl
theorem exec_tailPoll s : exec .tailPoll s = execTailPoll s := rfl
theorem exec_packetAdmission s : exec .packetAdmission s = execPacketAdmission s := rfl
theorem exec_admitTimeout s : exec .admitTimeout s = execAdmitTimeout s := rfl
theorem exec_launch s : exec .launch s = execLaunch s := rfl
theorem exec_graph s : exec .graph s = execGraph s := rfl
theorem exec_tlwaitPacket s : exec .tlwaitPacket s = execTlwaitPacket s := rfl
theorem exec_tlwaitSatisfied s : exec .tlwaitSatisfied s = execTlwaitSatisfied s := rfl
theorem exec_tlwaitTimeout s : exec .tlwaitTimeout s = execTlwaitTimeout s := rfl
theorem exec_tlsignal s : exec .tlsignal s = execTlsignal s := rfl
theorem exec_fencePacket s : exec .fencePacket s = execFencePacket s := rfl
theorem exec_preempt s : exec .preempt s = execPreempt s := rfl
theorem exec_traceOpen s : exec .traceOpen s = execTraceOpen s := rfl
theorem exec_traceClose s : exec .traceClose s = execTraceClose s := rfl
theorem exec_traceDrainTimeout s : exec .traceDrainTimeout s = execTraceDrainTimeout s := rfl
theorem exec_wrap s : exec .wrap s = execWrap s := rfl
theorem exec_ctxCreate s : exec .ctxCreate s = execCtxCreate s := rfl
theorem exec_ctxDestroy s : exec .ctxDestroy s = execCtxDestroy s := rfl
theorem exec_queueResume s : exec .queueResume s = execQueueResume s := rfl
theorem exec_queueResumeSkip s : exec .queueResumeSkip s = execQueueResumeSkip s := rfl
theorem exec_queueResumeReset s : exec .queueResumeReset s = execQueueResumeReset s := rfl
theorem exec_hostHalt s : exec .hostHalt s = execHostHalt s := rfl
theorem exec_poolMap s : exec .poolMap s = execPoolMap s := rfl
theorem exec_poolUnmap s : exec .poolUnmap s = execPoolUnmap s := rfl
theorem exec_migrate s : exec .migrate s = execMigrate s := rfl
theorem exec_eqCreate s : exec .eqCreate s = execEqCreate s := rfl
theorem exec_tableBase s : exec .tableBase s = execTableBase s := rfl
theorem exec_patchStage s : exec .patchStage s = execPatchStage s := rfl
theorem exec_owlRestart s : exec .owlRestart s = execOwlRestart s := rfl
theorem exec_attest s : exec .attest s = execAttest s := rfl
theorem exec_attestSigned s : exec .attestSigned s = execAttestSigned s := rfl
theorem exec_pairBind s : exec .pairBind s = execPairBind s := rfl
theorem exec_owlWatchdog s : exec .owlWatchdog s = execOwlWatchdog s := rfl
theorem exec_owlRestartDone s : exec .owlRestartDone s = execOwlRestartDone s := rfl
theorem exec_pldmDiscovery s : exec .pldmDiscovery s = execPldmDiscovery s := rfl
theorem exec_certificateRead s : exec .certificateRead s = execCertificateRead s := rfl
theorem exec_teamAdmit s : exec .teamAdmit s = execTeamAdmit s := rfl
theorem exec_stealBackoff s : exec .stealBackoff s = execStealBackoff s := rfl
theorem exec_launchComplete s : exec .launchComplete s = execLaunchComplete s := rfl
theorem exec_partitionPreempt s : exec .partitionPreempt s = execPartitionPreempt s := rfl
theorem exec_partitionHalted s : exec .partitionHalted s = execPartitionHalted s := rfl
theorem exec_shadowSaveComplete s : exec .shadowSaveComplete s = execShadowSaveComplete s := rfl
theorem exec_restoreComplete s : exec .restoreComplete s = execRestoreComplete s := rfl
theorem exec_blockStall s : exec .blockStall s = execBlockStall s := rfl
theorem exec_blockFetch s : exec .blockFetch s = execBlockFetch s := rfl
theorem exec_headerDecode s : exec .headerDecode s = execHeaderDecode s := rfl
theorem exec_blockCommit s : exec .blockCommit s = execBlockCommit s := rfl
theorem exec_timedDeadline s : exec .timedDeadline s = execTimedDeadline s := rfl
theorem exec_parkTimeout s : exec .parkTimeout s = execParkTimeout s := rfl
theorem exec_slotTakeover s : exec .slotTakeover s = execSlotTakeover s := rfl
theorem exec_tlbinvComplete s : exec .tlbinvComplete s = execTlbinvComplete s := rfl
theorem exec_tileQueueStart s : exec .tileQueueStart s = execTileQueueStart s := rfl
theorem exec_tileQueueComplete s : exec .tileQueueComplete s = execTileQueueComplete s := rfl
theorem exec_sampleDue s : exec .sampleDue s = execSampleDue s := rfl
theorem exec_coreCycle s : exec .coreCycle s = execCoreCycle s := rfl

end Sys2Proof.Machine
end

