-- ==== Sys2Proof/Laws/Encoding.lean ====
section
/-! SUPPORT. The encoder's words taken apart again: one lemma per field of W0 and W1, and the one fact that every constructor's
round trip rests on. -/

namespace Sys2Proof.Laws

/-! ### Fields of concatenated words -/

theorem field_above {n m : Nat} (k st : Nat) (x : BitVec n) (y : BitVec m) :
    (x ++ y).extractLsb' (st + m) k = x.extractLsb' st k := by
  ext i hi; simp [BitVec.getLsbD_append]; grind

theorem field_here {n m : Nat} (x : BitVec n) (y : BitVec m) : (x ++ y).extractLsb' 0 m = y := by
  ext i hi; simp [BitVec.getLsbD_append, hi]

theorem field_all {n : Nat} (x : BitVec n) : x.extractLsb' 0 n = x := by
  ext i hi; simp

theorem bit_above {n m : Nat} (i : Nat) (x : BitVec n) (y : BitVec m) : (x ++ y).getLsbD (i + m) = x.getLsbD i := by
  simp [BitVec.getLsbD_append]

theorem bit_here (b : Bool) : (BitVec.ofBool b).getLsbD 0 = b := by cases b <;> rfl

/-! ### W0 -/

theorem w0_literal (o : BitVec 8) (f : Form) : (w0Of o f).getLsbD 31 = f.lit.isSome := by
  change (BitVec.ofBool f.lit.isSome ++ BitVec.ofBool f.ext ++ o ++ f.pr.code ++ f.vc.code ++ f.t0.bits ++ f.t1.bits :
    BitVec (1 + 1 + 8 + 2 + 2 + 9 + 9)).getLsbD (0 + 1 + 8 + 2 + 2 + 9 + 9) = _
  rw [bit_above, bit_above, bit_above, bit_above, bit_above, bit_above, bit_here]

theorem w0_extended (o : BitVec 8) (f : Form) : (w0Of o f).getLsbD 30 = f.ext := by
  change ((BitVec.ofBool f.lit.isSome ++ BitVec.ofBool f.ext) ++ o ++ f.pr.code ++ f.vc.code ++ f.t0.bits ++ f.t1.bits :
    BitVec (1 + 1 + 8 + 2 + 2 + 9 + 9)).getLsbD (0 + 8 + 2 + 2 + 9 + 9) = _
  rw [bit_above, bit_above, bit_above, bit_above, bit_above]
  cases f.lit.isSome <;> cases f.ext <;> rfl

theorem w0_opcode (o : BitVec 8) (f : Form) : (w0Of o f).extractLsb' 22 8 = o := by
  change (BitVec.ofBool f.lit.isSome ++ BitVec.ofBool f.ext ++ o ++ f.pr.code ++ f.vc.code ++ f.t0.bits ++ f.t1.bits :
    BitVec (1 + 1 + 8 + 2 + 2 + 9 + 9)).extractLsb' (0 + 2 + 2 + 9 + 9) 8 = _
  rw [field_above, field_above, field_above, field_above, field_here]

theorem w0_predicate (o : BitVec 8) (f : Form) : (w0Of o f).extractLsb' 20 2 = f.pr.code := by
  change (BitVec.ofBool f.lit.isSome ++ BitVec.ofBool f.ext ++ o ++ f.pr.code ++ f.vc.code ++ f.t0.bits ++ f.t1.bits :
    BitVec (1 + 1 + 8 + 2 + 2 + 9 + 9)).extractLsb' (0 + 2 + 9 + 9) 2 = _
  rw [field_above, field_above, field_above, field_here]

theorem w0_class (o : BitVec 8) (f : Form) : (w0Of o f).extractLsb' 18 2 = f.vc.code := by
  change (BitVec.ofBool f.lit.isSome ++ BitVec.ofBool f.ext ++ o ++ f.pr.code ++ f.vc.code ++ f.t0.bits ++ f.t1.bits :
    BitVec (1 + 1 + 8 + 2 + 2 + 9 + 9)).extractLsb' (0 + 9 + 9) 2 = _
  rw [field_above, field_above, field_here]

theorem w0_target0 (o : BitVec 8) (f : Form) : (w0Of o f).extractLsb' 9 9 = f.t0.bits := by
  change (BitVec.ofBool f.lit.isSome ++ BitVec.ofBool f.ext ++ o ++ f.pr.code ++ f.vc.code ++ f.t0.bits ++ f.t1.bits :
    BitVec (1 + 1 + 8 + 2 + 2 + 9 + 9)).extractLsb' (0 + 9) 9 = _
  rw [field_above, field_here]

theorem w0_target1 (o : BitVec 8) (f : Form) : (w0Of o f).extractLsb' 0 9 = f.t1.bits := field_here _ _

/-! ### W1 -/

theorem w1_type (f : Form) : (w1Of f).extractLsb' 27 5 = f.ty.code := by
  change (f.ty.code ++ f.rm ++ f.sc ++ f.cp ++ f.t2.bits ++ f.t3.bits :
    BitVec (5 + 3 + 3 + 3 + 9 + 9)).extractLsb' (0 + 3 + 3 + 3 + 9 + 9) 5 = _
  rw [field_above, field_above, field_above, field_above, field_above, field_all]

theorem w1_rounding (f : Form) : (w1Of f).extractLsb' 24 3 = f.rm := by
  change (f.ty.code ++ f.rm ++ f.sc ++ f.cp ++ f.t2.bits ++ f.t3.bits :
    BitVec (5 + 3 + 3 + 3 + 9 + 9)).extractLsb' (0 + 3 + 3 + 9 + 9) 3 = _
  rw [field_above, field_above, field_above, field_above, field_here]

theorem w1_scope (f : Form) : (w1Of f).extractLsb' 21 3 = f.sc := by
  change (f.ty.code ++ f.rm ++ f.sc ++ f.cp ++ f.t2.bits ++ f.t3.bits :
    BitVec (5 + 3 + 3 + 3 + 9 + 9)).extractLsb' (0 + 3 + 9 + 9) 3 = _
  rw [field_above, field_above, field_above, field_here]

theorem w1_policy (f : Form) : (w1Of f).extractLsb' 18 3 = f.cp := by
  change (f.ty.code ++ f.rm ++ f.sc ++ f.cp ++ f.t2.bits ++ f.t3.bits :
    BitVec (5 + 3 + 3 + 3 + 9 + 9)).extractLsb' (0 + 9 + 9) 3 = _
  rw [field_above, field_above, field_here]

theorem w1_target2 (f : Form) : (w1Of f).extractLsb' 9 9 = f.t2.bits := by
  change (f.ty.code ++ f.rm ++ f.sc ++ f.cp ++ f.t2.bits ++ f.t3.bits :
    BitVec (5 + 3 + 3 + 3 + 9 + 9)).extractLsb' (0 + 9) 9 = _
  rw [field_above, field_here]

theorem w1_target3 (f : Form) : (w1Of f).extractLsb' 0 9 = f.t3.bits := field_here _ _

/-! ### Codes read back -/

theorem slot_code (x : Slot) : Slot.ofCode x.code = x := by cases x <;> rfl
theorem pred_code (x : Pred) : Pred.ofCode x.code = x := by cases x <;> rfl
theorem class_code (x : TokClass) : TokClass.ofCode x.code = x := by cases x <;> rfl
theorem type_code (x : Ty) : Ty.ofCode x.code = some x := by cases x <;> rfl
theorem pred_legal (x : Pred) : (x.code == 3) = false := by cases x <;> rfl
theorem class_legal (x : TokClass) : (x.code == 3) = false := by cases x <;> rfl

theorem target_bits (t : Target) : Target.ofBits t.bits = t := by
  have h1 : t.bits.extractLsb' 7 2 = t.slot.code := by
    change (t.slot.code ++ t.dist : BitVec (2 + 7)).extractLsb' (0 + 7) 2 = _
    rw [field_above, field_all]
  have h2 : t.bits.extractLsb' 0 7 = t.dist := field_here _ _
  simp [Target.ofBits, h1, h2, slot_code]

theorem literal_halves (x : W64) : (x.extractLsb' 32 32 ++ x.extractLsb' 0 32 : W64) = x := by
  apply BitVec.eq_of_getLsbD_eq
  intro i hi
  change ((x.extractLsb' 32 32 ++ x.extractLsb' 0 32 : BitVec (32 + 32))).getLsbD i = _
  simp only [BitVec.getLsbD_append, BitVec.getLsbD_extractLsb']
  split <;> simp <;> grind

/-! ### One instruction's words -/

/-- What the words of an instruction with the given fields are taken apart into. -/
def takenOf (o : BitVec 8) (f : Form) (w : W32) (r : List W32) : Taken :=
  ⟨w0Of o f, if f.ext then some (w1Of f, w) else none, f.lit, r⟩

theorem take_encoded (o : BitVec 8) (f : Form) (w : W32) (r : List W32) :
    takeInstr ((w0Of o f :: ((if f.ext then [w1Of f, w] else []) ++
      (match f.lit with
       | none => []
       | some l => [l.extractLsb' 0 32, l.extractLsb' 32 32]))) ++ r) = some (takenOf o f w r) := by
  have h30 := w0_extended o f
  have h31 := w0_literal o f
  unfold takenOf
  cases he : f.ext <;> cases hl : f.lit <;> rw [he] at h30 <;> rw [hl] at h31 <;>
    simp only [takeInstr, List.cons_append, List.nil_append, List.append_nil, Bool.false_eq_true, if_false, if_true, Option.isSome] at h31 ⊢ <;> rw [h30, h31] <;> simp only [literal_halves]

theorem form_taken (o : BitVec 8) (f : Form) (w : W32) (r : List W32) (hs : shortOk (groupDefault o) f = true) :
    formOf (takenOf o f w r) = f := by
  cases f with
  | mk ext pr vc t0 t1 ty rm sc cp t2 t3 lit =>
    cases ext
    · simp only [shortOk, Bool.false_or, Bool.and_eq_true, beq_iff_eq] at hs
      obtain ⟨⟨⟨⟨⟨h1, h2⟩, h3⟩, h4⟩, h5⟩, h6⟩ := hs
      subst h1 h2 h3 h4 h5 h6
      simp [formOf, takenOf, opOf, w0_opcode, w0_predicate, w0_class, w0_target0, w0_target1, pred_code, class_code, target_bits]
    · simp [formOf, takenOf, w0_predicate, w0_class, w0_target0, w0_target1, pred_code, class_code, target_bits,
        w1_type, w1_rounding, w1_scope, w1_policy, w1_target2, w1_target3, type_code]

theorem type_taken (o : BitVec 8) (f : Form) (w : W32) (r : List W32) : tyCodeOk (takenOf o f w r) = true := by
  unfold tyCodeOk takenOf
  cases f.ext
  · rfl
  · simp [w1_type, type_code]

/-- The words of a well-formed instruction decode to it, whatever follows them. -/
theorem decode_encode (i : Instr) (o : BitVec 8) (f : Form) (g : Sig) (r : List W32) (ho : i.op = some o) (hf : i.form = some f)
    (hg : i.sig = some g) (hw : i.wf = true) (ha : assemble o f (if f.ext then i.w2 else 0) = some (i, true)) :
    decodeWords (encode i ++ r) = .ok (i, r) := by
  have hk : (lenOk g f && vcOk g f && w1Ok g f && g.args && shortOk (groupDefault o) f) = true := by
    simpa [Instr.wf, ho, hf, hg] using hw
  simp only [Bool.and_eq_true] at hk
  obtain ⟨⟨⟨⟨h1, h2⟩, h3⟩, h4⟩, h5⟩ := hk
  have hform := form_taken o f i.w2 r h5
  have hop : opOf (takenOf o f i.w2 r).w0 = o := w0_opcode o f
  have hw2 : w2Of (takenOf o f i.w2 r) = if f.ext then i.w2 else 0 := by
    unfold w2Of takenOf; cases f.ext <;> rfl
  have hpr : ((takenOf o f i.w2 r).w0.extractLsb' 20 2 == 3) = false := by
    show ((w0Of o f).extractLsb' 20 2 == 3) = false
    rw [w0_predicate, pred_legal]
  have hvc : ((takenOf o f i.w2 r).w0.extractLsb' 18 2 == 3) = false := by
    show ((w0Of o f).extractLsb' 18 2 == 3) = false
    rw [w0_class, class_legal]
  have hd : decodeTaken (takenOf o f i.w2 r) = .ok i := by
    unfold decodeTaken
    rw [hop, hform, hw2, ha]
    simp only [hg, h1, h2, h3, h4, hpr, hvc, type_taken, Bool.not_true, Bool.or_self, Bool.false_eq_true, if_false]
  unfold encode decodeWords
  rw [ho, hf]
  show (match takeInstr ((w0Of o f :: ((if f.ext then [w1Of f, i.w2] else []) ++
      (match f.lit with
       | none => []
       | some l => [l.extractLsb' 0 32, l.extractLsb' 32 32]))) ++ r) with
    | none => (Except.error DecodeErr.truncated : Except DecodeErr (Instr × List W32))
    | some t => (decodeTaken t).map fun i => (i, t.rest)) = _
  rw [take_encoded]
  show (decodeTaken (takenOf o f i.w2 r)).map _ = _
  rw [hd]
  rfl

/-! ### W2 -/

theorem field_below {n m : Nat} (st k : Nat) (x : BitVec n) (y : BitVec m) (h : st + k ≤ m) :
    (x ++ y).extractLsb' st k = y.extractLsb' st k := by
  ext i hi
  have : st + i < m := by omega
  simp [BitVec.getLsbD_append, this]

theorem bit_below {n m : Nat} (i : Nat) (x : BitVec n) (y : BitVec m) (h : i < m) : (x ++ y).getLsbD i = y.getLsbD i := by
  simp [BitVec.getLsbD_append, h]

theorem boolBit1_bit (b : Bool) : (boolBit1 b).getLsbD 0 = b := bit_here b

/-- ARG of a class S word whose SUB is zero, up to bit 26. -/
theorem arg_field (st k : Nat) (x : BitVec 26) (h : st + k ≤ 26) : (sW2 0 x).extractLsb' st k = x.extractLsb' st k := by
  change ((0 : BitVec 6) ++ x : BitVec (6 + 26)).extractLsb' st k = _
  exact field_below st k _ _ h

theorem arg_bit (i : Nat) (x : BitVec 26) (h : i < 26) : (sW2 0 x).getLsbD i = x.getLsbD i := by
  change ((0 : BitVec 6) ++ x : BitVec (6 + 26)).getLsbD i = _
  exact bit_below i _ _ h

/-- A class S word whose SUB is zero is its ARG widened. -/
theorem arg_wide (x : BitVec 26) : sW2 0 x = x.setWidth 32 := by
  apply BitVec.eq_of_getLsbD_eq
  intro i hi
  change ((0 : BitVec 6) ++ x : BitVec (6 + 26)).getLsbD i = _
  simp only [BitVec.getLsbD_append, BitVec.getLsbD_setWidth]
  by_cases h : i < 26
  · simp [h, hi]
  · simp [h, hi, BitVec.getLsbD_of_ge x i (by omega)]

theorem arg_low {n : Nat} (x : BitVec n) (h : n ≤ 26) : (sW2 0 (x.setWidth 26)).extractLsb' 0 n = x := by
  rw [arg_wide]
  ext i hi
  have : i < 26 := by omega
  have h32 : i < 32 := by omega
  simp [this, h32, BitVec.getLsbD_eq_getElem hi]

theorem arg_high {n : Nat} (k : Nat) (x : BitVec n) : ((sW2 0 (x.setWidth 26)).extractLsb' n k == 0) = true := by
  rw [arg_wide, beq_iff_eq]
  ext i hi
  simp

theorem reg_word (r : Reg) (vc : TokClass) (k : Reg → Instr) : regArg r.w2 vc k = (k r, true) := by
  cases r with
  | v n =>
    have h1 : (Reg.v n).w2.extractLsb' 30 2 = 0 := by
      change ((0 : BitVec 25) ++ n : BitVec (25 + 7)).extractLsb' (23 + 7) 2 = _
      rw [field_above]; rfl
    have h2 : (Reg.v n).w2.extractLsb' 0 7 = n := field_here _ _
    have h3 : (Reg.v n).w2.extractLsb' 7 23 = 0 := by
      change ((0 : BitVec 25) ++ n : BitVec (25 + 7)).extractLsb' (0 + 7) 23 = _
      rw [field_above]; rfl
    simp [regArg, h1, h2, h3]
  | s n =>
    have h1 : (Reg.s n).w2.extractLsb' 30 2 = 1 := by
      change ((1 : BitVec 2) ++ (0 : BitVec 24) ++ n : BitVec (2 + 24 + 6)).extractLsb' (0 + 24 + 6) 2 = _
      rw [field_above, field_above]; rfl
    have h2 : (Reg.s n).w2.extractLsb' 0 6 = n := field_here _ _
    have h3 : (Reg.s n).w2.extractLsb' 6 24 = 0 := by
      change ((1 : BitVec 2) ++ (0 : BitVec 24) ++ n : BitVec (2 + 24 + 6)).extractLsb' (0 + 6) 24 = _
      rw [field_above, field_here]
    simp [regArg, h1, h2, h3]
  | k n =>
    have h1 : (Reg.k n).w2.extractLsb' 30 2 = 2 := by
      change ((2 : BitVec 2) ++ (0 : BitVec 26) ++ n : BitVec (2 + 26 + 4)).extractLsb' (0 + 26 + 4) 2 = _
      rw [field_above, field_above]; rfl
    have h2 : (Reg.k n).w2.extractLsb' 0 4 = n := field_here _ _
    have h3 : (Reg.k n).w2.extractLsb' 4 26 = 0 := by
      change ((2 : BitVec 2) ++ (0 : BitVec 26) ++ n : BitVec (2 + 26 + 4)).extractLsb' (0 + 4) 26 = _
      rw [field_above, field_here]
    simp [regArg, h1, h2, h3]

theorem space_code (x : Space) : Space.ofCode x.code = some x := by cases x <;> rfl

theorem mem_word (m : MemArg) (k : MemArg → Instr) : memArg m.w2 k = (k m, true) := by
  have h1 : m.w2.extractLsb' 24 3 = m.as.code := by
    change (m.lsid ++ m.as.code ++ m.off : BitVec (5 + 3 + 24)).extractLsb' (0 + 24) 3 = _
    rw [field_above, field_here]
  have h2 : m.w2.extractLsb' 27 5 = m.lsid := by
    change (m.lsid ++ m.as.code ++ m.off : BitVec (5 + 3 + 24)).extractLsb' (0 + 3 + 24) 5 = _
    rw [field_above, field_above, field_all]
  have h3 : m.w2.extractLsb' 0 24 = m.off := field_here _ _
  simp [memArg, h1, h2, h3, space_code]

theorem lsid_high (l : BitVec 5) : (l ++ (0 : BitVec 27) : W32).extractLsb' 27 5 = l := by
  change (l ++ (0 : BitVec 27) : BitVec (5 + 27)).extractLsb' (0 + 27) 5 = _
  rw [field_above, field_all]

theorem lsid_low (l : BitVec 5) : (l ++ (0 : BitVec 27) : W32).extractLsb' 0 27 = 0 := field_here _ _

theorem type_word (t : Ty) (k : Ty → Instr) : tyArg (sW2 0 (t.code.setWidth 26)) k = (k t, true) := by
  have h1 := arg_low t.code (by decide)
  have h2 := arg_high 27 t.code
  unfold tyArg
  rw [h1, type_code, h2]

theorem mma_word (a : MmaArg) (k : MmaArg → Instr) : mmaArg (sW2 0 a.arg) k = (k a, true) := by
  have e : a.arg = ((0 : BitVec 8) ++ boolBit1 a.zero ++ boolBit1 a.reuse ++ a.bfmt.code ++ a.z ++ a.vb : BitVec (8 + 1 + 1 + 5 + 4 + 7)) := rfl
  have h1 : (sW2 0 a.arg).extractLsb' 11 5 = a.bfmt.code := by
    rw [arg_field _ _ _ (by decide), e]
    change BitVec.extractLsb' (0 + 4 + 7) 5 _ = _
    rw [field_above, field_above, field_here]
  have h2 : (sW2 0 a.arg).extractLsb' 0 7 = a.vb := by
    rw [arg_field _ _ _ (by decide), e]; exact field_here _ _
  have h3 : (sW2 0 a.arg).extractLsb' 7 4 = a.z := by
    rw [arg_field _ _ _ (by decide), e]
    change BitVec.extractLsb' (0 + 7) 4 _ = _
    rw [field_above, field_here]
  have h4 : (sW2 0 a.arg).getLsbD 16 = a.reuse := by
    rw [arg_bit _ _ (by decide), e]
    change BitVec.getLsbD _ (0 + 5 + 4 + 7) = _
    rw [bit_above, bit_above, bit_above, bit_below _ _ _ (by decide)]
    exact boolBit1_bit _
  have h5 : (sW2 0 a.arg).getLsbD 17 = a.zero := by
    rw [arg_bit _ _ (by decide), e]
    change BitVec.getLsbD _ (0 + 1 + 5 + 4 + 7) = _
    rw [bit_above, bit_above, bit_above, bit_above, bit_below _ _ _ (by decide)]
    exact boolBit1_bit _
  have h6 : (sW2 0 a.arg).extractLsb' 18 14 = 0 := by
    change ((0 : BitVec 6) ++ ((0 : BitVec 8) ++ boolBit1 a.zero ++ boolBit1 a.reuse ++ a.bfmt.code ++ a.z ++ a.vb :
      BitVec (8 + 1 + 1 + 5 + 4 + 7)) : BitVec (6 + (8 + 1 + 1 + 5 + 4 + 7))).extractLsb' 18 14 = 0
    ext i hi
    have h0 : ∀ j : Nat, (0 : BitVec 8).getLsbD j = false := fun j => by simp
    have h1 : ∀ j : Nat, (0 : BitVec 6).getLsbD j = false := fun j => by simp
    have e7 : ¬ 18 + i < 7 := by omega
    have e4 : ¬ 18 + i - 7 < 4 := by omega
    have e5 : ¬ 18 + i - 7 - 4 < 5 := by omega
    have e1 : ¬ 18 + i - 7 - 4 - 5 < 1 := by omega
    have e0 : ¬ 18 + i - 7 - 4 - 5 - 1 < 1 := by omega
    simp only [BitVec.getElem_extractLsb', BitVec.getLsbD_append, e7, e4, e5, e1, e0, h0, h1, if_false, ite_self]
    simp
  unfold mmaArg
  rw [h1, type_code]
  simp only [h2, h3, h4, h5, h6]
  rfl

theorem sem_word (n : BitVec 6) (m : BitVec 10) (w : W32) (h : w = sW2 0 ((0 : BitVec 10) ++ m ++ n)) :
    w.extractLsb' 0 6 = n ∧ w.extractLsb' 6 10 = m ∧ w.extractLsb' 16 16 = 0 := by
  subst h
  refine ⟨?_, ?_, ?_⟩
  · rw [arg_field _ _ _ (by decide)]; exact field_here _ _
  · rw [arg_field _ _ _ (by decide)]
    change ((0 : BitVec 10) ++ m ++ n : BitVec (10 + 10 + 6)).extractLsb' (0 + 6) 10 = _
    rw [field_above, field_here]
  · change ((0 : BitVec 6) ++ ((0 : BitVec 10) ++ m ++ n : BitVec (10 + 10 + 6)) : BitVec (6 + (10 + 10 + 6))).extractLsb' 16 16 = 0
    ext i hi
    have h0 : ∀ j : Nat, (0 : BitVec 10).getLsbD j = false := fun j => by simp
    have h1 : ∀ j : Nat, (0 : BitVec 6).getLsbD j = false := fun j => by simp
    have e1 : ¬ 16 + i < 6 := by omega
    have e2 : ¬ 16 + i - 6 < 10 := by omega
    simp only [BitVec.getElem_extractLsb', BitVec.getLsbD_append, e1, e2, h0, h1, if_false, ite_self]
    simp

theorem wait_word (a b c d : BitVec 6) (w : W32) (h : w = sW2 0 ((0 : BitVec 2) ++ a ++ b ++ c ++ d)) :
    w.extractLsb' 18 6 = a ∧ w.extractLsb' 12 6 = b ∧ w.extractLsb' 6 6 = c ∧ w.extractLsb' 0 6 = d ∧ w.extractLsb' 24 8 = 0 := by
  subst h
  refine ⟨?_, ?_, ?_, ?_, ?_⟩
  · rw [arg_field _ _ _ (by decide)]
    change ((0 : BitVec 2) ++ a ++ b ++ c ++ d : BitVec (2 + 6 + 6 + 6 + 6)).extractLsb' (0 + 6 + 6 + 6) 6 = _
    rw [field_above, field_above, field_above, field_here]
  · rw [arg_field _ _ _ (by decide)]
    change ((0 : BitVec 2) ++ a ++ b ++ c ++ d : BitVec (2 + 6 + 6 + 6 + 6)).extractLsb' (0 + 6 + 6) 6 = _
    rw [field_above, field_above, field_here]
  · rw [arg_field _ _ _ (by decide)]
    change ((0 : BitVec 2) ++ a ++ b ++ c ++ d : BitVec (2 + 6 + 6 + 6 + 6)).extractLsb' (0 + 6) 6 = _
    rw [field_above, field_here]
  · rw [arg_field _ _ _ (by decide)]; exact field_here _ _
  · change ((0 : BitVec 6) ++ ((0 : BitVec 2) ++ a ++ b ++ c ++ d : BitVec (2 + 6 + 6 + 6 + 6)) :
      BitVec (6 + (2 + 6 + 6 + 6 + 6))).extractLsb' 24 8 = 0
    ext i hi
    have h0 : ∀ j : Nat, (0 : BitVec 2).getLsbD j = false := fun j => by simp
    have h1 : ∀ j : Nat, (0 : BitVec 6).getLsbD j = false := fun j => by simp
    have e1 : ¬ 24 + i < 6 := by omega
    have e2 : ¬ 24 + i - 6 < 6 := by omega
    have e3 : ¬ 24 + i - 6 - 6 < 6 := by omega
    have e4 : ¬ 24 + i - 6 - 6 - 6 < 6 := by omega
    simp only [BitVec.getElem_extractLsb', BitVec.getLsbD_append, e1, e2, e3, e4, h0, h1, if_false, ite_self]
    simp

theorem topk_word (zs zd : BitVec 4) (k : BitVec 5) (l : Bool) (w : W32)
    (h : w = sW2 0 ((0 : BitVec 12) ++ boolBit1 l ++ k ++ zd ++ zs)) :
    w.extractLsb' 0 4 = zs ∧ w.extractLsb' 4 4 = zd ∧ w.extractLsb' 8 5 = k ∧ w.getLsbD 13 = l ∧ w.extractLsb' 14 18 = 0 := by
  subst h
  refine ⟨?_, ?_, ?_, ?_, ?_⟩
  · rw [arg_field _ _ _ (by decide)]; exact field_here _ _
  · rw [arg_field _ _ _ (by decide)]
    change ((0 : BitVec 12) ++ boolBit1 l ++ k ++ zd ++ zs : BitVec (12 + 1 + 5 + 4 + 4)).extractLsb' (0 + 4) 4 = _
    rw [field_above, field_here]
  · rw [arg_field _ _ _ (by decide)]
    change ((0 : BitVec 12) ++ boolBit1 l ++ k ++ zd ++ zs : BitVec (12 + 1 + 5 + 4 + 4)).extractLsb' (0 + 4 + 4) 5 = _
    rw [field_above, field_above, field_here]
  · rw [arg_bit _ _ (by decide)]
    change ((0 : BitVec 12) ++ boolBit1 l ++ k ++ zd ++ zs : BitVec (12 + 1 + 5 + 4 + 4)).getLsbD (0 + 5 + 4 + 4) = _
    rw [bit_above, bit_above, bit_above, bit_below _ _ _ (by decide)]
    exact boolBit1_bit _
  · change ((0 : BitVec 6) ++ ((0 : BitVec 12) ++ boolBit1 l ++ k ++ zd ++ zs : BitVec (12 + 1 + 5 + 4 + 4)) :
      BitVec (6 + (12 + 1 + 5 + 4 + 4))).extractLsb' 14 18 = 0
    ext i hi
    have h0 : ∀ j : Nat, (0 : BitVec 12).getLsbD j = false := fun j => by simp
    have h1 : ∀ j : Nat, (0 : BitVec 6).getLsbD j = false := fun j => by simp
    have e1 : ¬ 14 + i < 4 := by omega
    have e2 : ¬ 14 + i - 4 < 4 := by omega
    have e3 : ¬ 14 + i - 4 - 4 < 5 := by omega
    have e4 : ¬ 14 + i - 4 - 4 - 5 < 1 := by omega
    simp only [BitVec.getElem_extractLsb', BitVec.getLsbD_append, e1, e2, e3, e4, h0, h1, if_false, ite_self]
    simp

theorem convert_word (z : BitVec 4) (t : Bool) (s : Ty) (w : W32) (h : w = sW2 0 ((0 : BitVec 16) ++ s.code ++ boolBit1 t ++ z)) :
    w.extractLsb' 0 4 = z ∧ w.getLsbD 4 = t ∧ w.extractLsb' 5 5 = s.code ∧ w.extractLsb' 10 22 = 0 := by
  subst h
  refine ⟨?_, ?_, ?_, ?_⟩
  · rw [arg_field _ _ _ (by decide)]; exact field_here _ _
  · rw [arg_bit _ _ (by decide)]
    change ((0 : BitVec 16) ++ s.code ++ boolBit1 t ++ z : BitVec (16 + 5 + 1 + 4)).getLsbD (0 + 4) = _
    rw [bit_above, bit_below _ _ _ (by decide)]
    exact boolBit1_bit _
  · rw [arg_field _ _ _ (by decide)]
    change ((0 : BitVec 16) ++ s.code ++ boolBit1 t ++ z : BitVec (16 + 5 + 1 + 4)).extractLsb' (0 + 1 + 4) 5 = _
    rw [field_above, field_above, field_here]
  · change ((0 : BitVec 6) ++ ((0 : BitVec 16) ++ s.code ++ boolBit1 t ++ z : BitVec (16 + 5 + 1 + 4)) :
      BitVec (6 + (16 + 5 + 1 + 4))).extractLsb' 10 22 = 0
    ext i hi
    have h0 : ∀ j : Nat, (0 : BitVec 16).getLsbD j = false := fun j => by simp
    have h1 : ∀ j : Nat, (0 : BitVec 6).getLsbD j = false := fun j => by simp
    have e1 : ¬ 10 + i < 4 := by omega
    have e2 : ¬ 10 + i - 4 < 1 := by omega
    have e3 : ¬ 10 + i - 4 - 1 < 5 := by omega
    simp only [BitVec.getElem_extractLsb', BitVec.getLsbD_append, e1, e2, e3, h0, h1, if_false, ite_self]
    simp

theorem badger_word (t : Ty) (g : BadgerFn) (k : Ty → BadgerFn → Instr) :
    badgerArg (sW2 0 ((0 : BitVec 19) ++ g.code ++ t.code)) k = (k t g, true) := by
  cases t <;> cases g <;> rfl

theorem sysreg_word (r : SysReg) (vc : TokClass) (k : SysReg → Instr) :
    sysArg (sW2 0 (r.code.setWidth 26)) vc k = (k r, true) := by
  cases r <;> rfl

theorem cmp_word (x : CmpRel) : CmpRel.ofCode (sub (sW2 x.code 0)) = x ∧
    (decide (sub (sW2 x.code 0) < 6) && arg (sW2 x.code 0) == 0) = true := by cases x <;> decide

theorem vote_word (x : VoteKind) : VoteKind.ofCode (sub (sW2 x.code 0)) = x ∧
    (decide (sub (sW2 x.code 0) < 4) && arg (sW2 x.code 0) == 0) = true := by cases x <;> decide

theorem shfl_word (x : ShflKind) : ShflKind.ofCode (sub (sW2 x.code 0)) = x ∧
    (decide (sub (sW2 x.code 0) < 4) && arg (sW2 x.code 0) == 0) = true := by cases x <;> decide

theorem red_word (x : RedOp) (t : Ty) : redOf (sW2 x.code 0) t = x ∧
    (decide (sub (sW2 x.code 0) < 6) && arg (sW2 x.code 0) == 0) = true := by cases x <;> exact ⟨rfl, by decide⟩

theorem fcmp_word (x : FCmpRel) : FCmpRel.ofCode (sub (sW2 x.code 0)) = x ∧
    (decide (sub (sW2 x.code 0) < 8) && arg (sW2 x.code 0) == 0) = true := by cases x <;> decide

theorem scan_word (x : RedOp) (e : Bool) (t : Ty) : redOf (sW2 x.code (boolBit e)) t = x ∧
    (sW2 x.code (boolBit e)).getLsbD 0 = e ∧
    (decide (sub (sW2 x.code (boolBit e)) < 6) && (sW2 x.code (boolBit e)).extractLsb' 1 25 == 0) = true := by
  cases x <;> cases e <;> exact ⟨rfl, by decide, by decide⟩

theorem path_word (x : Path) : Path.ofCode ((sW2 0 x.code).extractLsb' 0 2) = x ∧ ((sW2 0 x.code).extractLsb' 2 30 == 0) = true := by
  cases x <;> decide

theorem clear_word (x : Bool) : (sW2 0 (boolBit x)).getLsbD 0 = x ∧ ((sW2 0 (boolBit x)).extractLsb' 1 31 == 0) = true := by
  cases x <;> decide

theorem pcvt_word (k : PcvtKind) (t : Ty) : Ty.ofCode ((sW2 k.code (t.code.setWidth 26)).extractLsb' 0 5) = some t ∧
    PcvtKind.ofCode (sub (sW2 k.code (t.code.setWidth 26))) = k ∧
    (decide (sub (sW2 k.code (t.code.setWidth 26)) < 5) && (sW2 k.code (t.code.setWidth 26)).extractLsb' 5 21 == 0) = true := by
  cases k <;> cases t <;> decide

theorem lid_word (k : LidKind) : lidOf (lidW2 k) = some k := by
  cases k with
  | level n => revert n; decide
  | _ => rfl

/-- An instruction of another class than N has W1 and W2. -/
theorem extended_of_wf (i : Instr) (o : BitVec 8) (f : Form) (g : Sig) (ho : i.op = some o) (hf : i.form = some f)
    (hg : i.sig = some g) (hc : g.cls ≠ .n) (hw : i.wf = true) : f.ext = true := by
  have hk : (lenOk g f && vcOk g f && w1Ok g f && g.args && shortOk (groupDefault o) f) = true := by
    simpa [Instr.wf, ho, hf, hg] using hw
  simp only [Bool.and_eq_true, lenOk, Bool.or_eq_true, beq_iff_eq] at hk
  exact hk.1.1.1.1.1.resolve_left hc

/-- The round trip of an instruction whose W2 the assembler reads back. -/
theorem decode_encode_wide (i : Instr) (o : BitVec 8) (f : Form) (g : Sig) (r : List W32) (ho : i.op = some o)
    (hf : i.form = some f) (hg : i.sig = some g) (hc : g.cls ≠ .n) (hw : i.wf = true)
    (ha : assemble o f i.w2 = some (i, true)) : decodeWords (encode i ++ r) = .ok (i, r) := by
  apply decode_encode i o f g r ho hf hg hw
  rw [extended_of_wf i o f g ho hf hg hc hw]
  exact ha

end Sys2Proof.Laws
end

