-- ==== Sys2Proof/Laws/PerInstr.lean ====
section
/-! SUPPORT. The families of statements that are made for each instruction: `RoundTrip`, the words of a well-formed instruction
decode to it whatever follows them (spec/11_encoding.md R307 to R319). -/

namespace Sys2Proof.Laws

/-- A well-formed instruction's words decode to it and leave what follows them. -/
def RoundTrip.Statement (i : Instr) : Prop :=
  i.wf = true → i.sig.isSome = true → ∀ r : List W32, decodeWords (encode i ++ r) = .ok (i, r)


theorem RoundTrip.rd (f : Form) (r : Reg) : RoundTrip.Statement (.rd f r) := fun hw _ ws =>
  decode_encode_wide _ 0x00 f _ ws rfl rfl rfl (fun h => nomatch h) hw (congrArg some (reg_word r _ _))

theorem RoundTrip.wr (f : Form) (r : Reg) : RoundTrip.Statement (.wr f r) := fun hw _ ws =>
  decode_encode_wide _ 0x01 f _ ws rfl rfl rfl (fun h => nomatch h) hw (congrArg some (reg_word r _ _))

theorem RoundTrip.mov (f : Form) : RoundTrip.Statement (.mov f) := fun hw _ r =>
  decode_encode _ 0x02 f _ r rfl rfl rfl hw (by cases f.ext <;> rfl)

theorem RoundTrip.const (f : Form) : RoundTrip.Statement (.const f) := fun hw _ r =>
  decode_encode _ 0x03 f _ r rfl rfl rfl hw (by cases f.ext <;> rfl)

theorem RoundTrip.nul (f : Form) : RoundTrip.Statement (.nul f) := fun hw _ r =>
  decode_encode _ 0x04 f _ r rfl rfl rfl hw (by cases f.ext <;> rfl)

theorem RoundTrip.sel (f : Form) : RoundTrip.Statement (.sel f) := fun hw _ r =>
  decode_encode _ 0x05 f _ r rfl rfl rfl hw (by cases f.ext <;> rfl)

theorem RoundTrip.lid (f : Form) (k : LidKind) : RoundTrip.Statement (.lid f k) := fun hw _ r =>
  decode_encode_wide _ 0x06 f _ r rfl rfl rfl (fun h => nomatch h) hw (by
    show some ((lidOf (lidW2 k)).elim (Instr.lid f .team, false) fun k => (Instr.lid f k, true)) = _
    rw [lid_word]; rfl)

theorem RoundTrip.br (f : Form) (disp : W32) : RoundTrip.Statement (.br f disp) := fun hw _ r =>
  decode_encode_wide _ 0x08 f _ r rfl rfl rfl (fun h => nomatch h) hw (rfl)

theorem RoundTrip.bl (f : Form) (disp : W32) : RoundTrip.Statement (.bl f disp) := fun hw _ r =>
  decode_encode_wide _ 0x09 f _ r rfl rfl rfl (fun h => nomatch h) hw (rfl)

theorem RoundTrip.jr (f : Form) : RoundTrip.Statement (.jr f) := fun hw _ r =>
  decode_encode _ 0x0A f _ r rfl rfl rfl hw (by cases f.ext <;> rfl)

theorem RoundTrip.regang (f : Form) (disp : W32) : RoundTrip.Statement (.regang f disp) := fun hw _ r =>
  decode_encode_wide _ 0x0B f _ r rfl rfl rfl (fun h => nomatch h) hw (rfl)

theorem RoundTrip.exit (f : Form) : RoundTrip.Statement (.exit f) := fun hw _ r =>
  decode_encode _ 0x0C f _ r rfl rfl rfl hw (by cases f.ext <;> rfl)

theorem RoundTrip.yield (f : Form) : RoundTrip.Statement (.yield f) := fun hw _ r =>
  decode_encode _ 0x0D f _ r rfl rfl rfl hw (by cases f.ext <;> rfl)

theorem RoundTrip.rquota (f : Form) : RoundTrip.Statement (.rquota f) := fun hw _ r =>
  decode_encode _ 0x0E f _ r rfl rfl rfl hw (by cases f.ext <;> rfl)

theorem RoundTrip.spawn (f : Form) (disp : W32) : RoundTrip.Statement (.spawn f disp) := fun hw _ r =>
  decode_encode_wide _ 0x10 f _ r rfl rfl rfl (fun h => nomatch h) hw (rfl)

theorem RoundTrip.enq (f : Form) : RoundTrip.Statement (.enq f) := fun hw _ r =>
  decode_encode _ 0x11 f _ r rfl rfl rfl hw (by cases f.ext <;> rfl)

theorem RoundTrip.chunk (f : Form) : RoundTrip.Statement (.chunk f) := fun hw _ r =>
  decode_encode _ 0x12 f _ r rfl rfl rfl hw (by cases f.ext <;> rfl)

theorem RoundTrip.qsend (f : Form) : RoundTrip.Statement (.qsend f) := fun hw _ r =>
  decode_encode _ 0x13 f _ r rfl rfl rfl hw (by cases f.ext <;> rfl)

theorem RoundTrip.qtake (f : Form) : RoundTrip.Statement (.qtake f) := fun hw _ r =>
  decode_encode _ 0x14 f _ r rfl rfl rfl hw (by cases f.ext <;> rfl)

theorem RoundTrip.add (f : Form) : RoundTrip.Statement (.add f) := fun hw _ r =>
  decode_encode _ 0x40 f _ r rfl rfl rfl hw (by cases f.ext <;> rfl)

theorem RoundTrip.sub (f : Form) : RoundTrip.Statement (.sub f) := fun hw _ r =>
  decode_encode _ 0x41 f _ r rfl rfl rfl hw (by cases f.ext <;> rfl)

theorem RoundTrip.mul (f : Form) : RoundTrip.Statement (.mul f) := fun hw _ r =>
  decode_encode _ 0x42 f _ r rfl rfl rfl hw (by cases f.ext <;> rfl)

theorem RoundTrip.mulhi (f : Form) : RoundTrip.Statement (.mulhi f) := fun hw _ r =>
  decode_encode _ 0x43 f _ r rfl rfl rfl hw (by cases f.ext <;> rfl)

theorem RoundTrip.mad (f : Form) : RoundTrip.Statement (.mad f) := fun hw _ r =>
  decode_encode _ 0x44 f _ r rfl rfl rfl hw (by cases f.ext <;> rfl)

theorem RoundTrip.div (f : Form) : RoundTrip.Statement (.div f) := fun hw _ r =>
  decode_encode _ 0x45 f _ r rfl rfl rfl hw (by cases f.ext <;> rfl)

theorem RoundTrip.rem (f : Form) : RoundTrip.Statement (.rem f) := fun hw _ r =>
  decode_encode _ 0x46 f _ r rfl rfl rfl hw (by cases f.ext <;> rfl)

theorem RoundTrip.adc (f : Form) : RoundTrip.Statement (.adc f) := fun hw _ r =>
  decode_encode _ 0x47 f _ r rfl rfl rfl hw (by cases f.ext <;> rfl)

theorem RoundTrip.sbc (f : Form) : RoundTrip.Statement (.sbc f) := fun hw _ r =>
  decode_encode _ 0x48 f _ r rfl rfl rfl hw (by cases f.ext <;> rfl)

theorem RoundTrip.min (f : Form) : RoundTrip.Statement (.min f) := fun hw _ r =>
  decode_encode _ 0x49 f _ r rfl rfl rfl hw (by cases f.ext <;> rfl)

theorem RoundTrip.max (f : Form) : RoundTrip.Statement (.max f) := fun hw _ r =>
  decode_encode _ 0x4A f _ r rfl rfl rfl hw (by cases f.ext <;> rfl)

theorem RoundTrip.abs (f : Form) : RoundTrip.Statement (.abs f) := fun hw _ r =>
  decode_encode _ 0x4B f _ r rfl rfl rfl hw (by cases f.ext <;> rfl)

theorem RoundTrip.neg (f : Form) : RoundTrip.Statement (.neg f) := fun hw _ r =>
  decode_encode _ 0x4C f _ r rfl rfl rfl hw (by cases f.ext <;> rfl)

theorem RoundTrip.adr (f : Form) : RoundTrip.Statement (.adr f) := fun hw _ r =>
  decode_encode _ 0x4D f _ r rfl rfl rfl hw (by cases f.ext <;> rfl)

theorem RoundTrip.cvt (f : Form) (src : Ty) : RoundTrip.Statement (.cvt f src) := fun hw _ r =>
  decode_encode_wide _ 0x4E f _ r rfl rfl rfl (fun h => nomatch h) hw (congrArg some (type_word src _))

theorem RoundTrip.and (f : Form) : RoundTrip.Statement (.and f) := fun hw _ r =>
  decode_encode _ 0x50 f _ r rfl rfl rfl hw (by cases f.ext <;> rfl)

theorem RoundTrip.or (f : Form) : RoundTrip.Statement (.or f) := fun hw _ r =>
  decode_encode _ 0x51 f _ r rfl rfl rfl hw (by cases f.ext <;> rfl)

theorem RoundTrip.xor (f : Form) : RoundTrip.Statement (.xor f) := fun hw _ r =>
  decode_encode _ 0x52 f _ r rfl rfl rfl hw (by cases f.ext <;> rfl)

theorem RoundTrip.not (f : Form) : RoundTrip.Statement (.not f) := fun hw _ r =>
  decode_encode _ 0x53 f _ r rfl rfl rfl hw (by cases f.ext <;> rfl)

theorem RoundTrip.shl (f : Form) : RoundTrip.Statement (.shl f) := fun hw _ r =>
  decode_encode _ 0x54 f _ r rfl rfl rfl hw (by cases f.ext <;> rfl)

theorem RoundTrip.shr (f : Form) : RoundTrip.Statement (.shr f) := fun hw _ r =>
  decode_encode _ 0x55 f _ r rfl rfl rfl hw (by cases f.ext <;> rfl)

theorem RoundTrip.sra (f : Form) : RoundTrip.Statement (.sra f) := fun hw _ r =>
  decode_encode _ 0x56 f _ r rfl rfl rfl hw (by cases f.ext <;> rfl)

theorem RoundTrip.rot (f : Form) : RoundTrip.Statement (.rot f) := fun hw _ r =>
  decode_encode _ 0x57 f _ r rfl rfl rfl hw (by cases f.ext <;> rfl)

theorem RoundTrip.bfx (f : Form) : RoundTrip.Statement (.bfx f) := fun hw _ r =>
  decode_encode _ 0x58 f _ r rfl rfl rfl hw (by cases f.ext <;> rfl)

theorem RoundTrip.bfi (f : Form) : RoundTrip.Statement (.bfi f) := fun hw _ r =>
  decode_encode _ 0x59 f _ r rfl rfl rfl hw (by cases f.ext <;> rfl)

theorem RoundTrip.popc (f : Form) : RoundTrip.Statement (.popc f) := fun hw _ r =>
  decode_encode _ 0x5A f _ r rfl rfl rfl hw (by cases f.ext <;> rfl)

theorem RoundTrip.clz (f : Form) : RoundTrip.Statement (.clz f) := fun hw _ r =>
  decode_encode _ 0x5B f _ r rfl rfl rfl hw (by cases f.ext <;> rfl)

theorem RoundTrip.ctz (f : Form) : RoundTrip.Statement (.ctz f) := fun hw _ r =>
  decode_encode _ 0x5C f _ r rfl rfl rfl hw (by cases f.ext <;> rfl)

theorem RoundTrip.brev (f : Form) : RoundTrip.Statement (.brev f) := fun hw _ r =>
  decode_encode _ 0x5D f _ r rfl rfl rfl hw (by cases f.ext <;> rfl)

theorem RoundTrip.cmp (f : Form) (rel : CmpRel) : RoundTrip.Statement (.cmp f rel) := fun hw _ r =>
  decode_encode_wide _ 0x60 f _ r rfl rfl rfl (fun h => nomatch h) hw (by
    obtain ⟨h1, h2⟩ := cmp_word rel
    show some (Instr.cmp f (CmpRel.ofCode (Sys2Proof.sub (sW2 rel.code 0))), decide (Sys2Proof.sub (sW2 rel.code 0) < 6) && Sys2Proof.arg (sW2 rel.code 0) == 0) = _
    rw [h1, h2])

theorem RoundTrip.vote (f : Form) (k : VoteKind) : RoundTrip.Statement (.vote f k) := fun hw _ r =>
  decode_encode_wide _ 0x61 f _ r rfl rfl rfl (fun h => nomatch h) hw (by
    obtain ⟨h1, h2⟩ := vote_word k
    show some (Instr.vote f (VoteKind.ofCode (Sys2Proof.sub (sW2 k.code 0))), decide (Sys2Proof.sub (sW2 k.code 0) < 4) && Sys2Proof.arg (sW2 k.code 0) == 0) = _
    rw [h1, h2])

theorem RoundTrip.shfl (f : Form) (k : ShflKind) : RoundTrip.Statement (.shfl f k) := fun hw _ r =>
  decode_encode_wide _ 0x62 f _ r rfl rfl rfl (fun h => nomatch h) hw (by
    obtain ⟨h1, h2⟩ := shfl_word k
    show some (Instr.shfl f (ShflKind.ofCode (Sys2Proof.sub (sW2 k.code 0))), decide (Sys2Proof.sub (sW2 k.code 0) < 4) && Sys2Proof.arg (sW2 k.code 0) == 0) = _
    rw [h1, h2])

theorem RoundTrip.redux (f : Form) (op : RedOp) : RoundTrip.Statement (.redux f op) := fun hw _ r =>
  decode_encode_wide _ 0x63 f _ r rfl rfl rfl (fun h => nomatch h) hw (by
    obtain ⟨h1, h2⟩ := red_word op f.ty
    show some (Instr.redux f (redOf (sW2 op.code 0) f.ty), decide (Sys2Proof.sub (sW2 op.code 0) < 6) && Sys2Proof.arg (sW2 op.code 0) == 0) = _
    rw [h1, h2])

theorem RoundTrip.scan (f : Form) (op : RedOp) (excl : Bool) : RoundTrip.Statement (.scan f op excl) := fun hw _ r =>
  decode_encode_wide _ 0x64 f _ r rfl rfl rfl (fun h => nomatch h) hw (by
    obtain ⟨h1, h2, h3⟩ := scan_word op excl f.ty
    show some (Instr.scan f (redOf (sW2 op.code (boolBit excl)) f.ty) ((sW2 op.code (boolBit excl)).getLsbD 0),
      decide (Sys2Proof.sub (sW2 op.code (boolBit excl)) < 6) && (sW2 op.code (boolBit excl)).extractLsb' 1 25 == 0) = _
    rw [h1, h2, h3])

theorem RoundTrip.kand (f : Form) : RoundTrip.Statement (.kand f) := fun hw _ r =>
  decode_encode _ 0x68 f _ r rfl rfl rfl hw (by cases f.ext <;> rfl)

theorem RoundTrip.kor (f : Form) : RoundTrip.Statement (.kor f) := fun hw _ r =>
  decode_encode _ 0x69 f _ r rfl rfl rfl hw (by cases f.ext <;> rfl)

theorem RoundTrip.kxor (f : Form) : RoundTrip.Statement (.kxor f) := fun hw _ r =>
  decode_encode _ 0x6A f _ r rfl rfl rfl hw (by cases f.ext <;> rfl)

theorem RoundTrip.knot (f : Form) : RoundTrip.Statement (.knot f) := fun hw _ r =>
  decode_encode _ 0x6B f _ r rfl rfl rfl hw (by cases f.ext <;> rfl)

theorem RoundTrip.kpop (f : Form) : RoundTrip.Statement (.kpop f) := fun hw _ r =>
  decode_encode _ 0x6C f _ r rfl rfl rfl hw (by cases f.ext <;> rfl)

theorem RoundTrip.kfst (f : Form) : RoundTrip.Statement (.kfst f) := fun hw _ r =>
  decode_encode _ 0x6D f _ r rfl rfl rfl hw (by cases f.ext <;> rfl)

theorem RoundTrip.fadd (f : Form) : RoundTrip.Statement (.fadd f) := fun hw _ r =>
  decode_encode _ 0x80 f _ r rfl rfl rfl hw (by cases f.ext <;> rfl)

theorem RoundTrip.fsub (f : Form) : RoundTrip.Statement (.fsub f) := fun hw _ r =>
  decode_encode _ 0x81 f _ r rfl rfl rfl hw (by cases f.ext <;> rfl)

theorem RoundTrip.fmul (f : Form) : RoundTrip.Statement (.fmul f) := fun hw _ r =>
  decode_encode _ 0x82 f _ r rfl rfl rfl hw (by cases f.ext <;> rfl)

theorem RoundTrip.fma (f : Form) : RoundTrip.Statement (.fma f) := fun hw _ r =>
  decode_encode _ 0x83 f _ r rfl rfl rfl hw (by cases f.ext <;> rfl)

theorem RoundTrip.fdiv (f : Form) : RoundTrip.Statement (.fdiv f) := fun hw _ r =>
  decode_encode _ 0x84 f _ r rfl rfl rfl hw (by cases f.ext <;> rfl)

theorem RoundTrip.fsqrt (f : Form) : RoundTrip.Statement (.fsqrt f) := fun hw _ r =>
  decode_encode _ 0x85 f _ r rfl rfl rfl hw (by cases f.ext <;> rfl)

theorem RoundTrip.frcp (f : Form) : RoundTrip.Statement (.frcp f) := fun hw _ r =>
  decode_encode _ 0x86 f _ r rfl rfl rfl hw (by cases f.ext <;> rfl)

theorem RoundTrip.frsqrt (f : Form) : RoundTrip.Statement (.frsqrt f) := fun hw _ r =>
  decode_encode _ 0x87 f _ r rfl rfl rfl hw (by cases f.ext <;> rfl)

theorem RoundTrip.fmin (f : Form) : RoundTrip.Statement (.fmin f) := fun hw _ r =>
  decode_encode _ 0x88 f _ r rfl rfl rfl hw (by cases f.ext <;> rfl)

theorem RoundTrip.fmax (f : Form) : RoundTrip.Statement (.fmax f) := fun hw _ r =>
  decode_encode _ 0x89 f _ r rfl rfl rfl hw (by cases f.ext <;> rfl)

theorem RoundTrip.fabs (f : Form) : RoundTrip.Statement (.fabs f) := fun hw _ r =>
  decode_encode _ 0x8A f _ r rfl rfl rfl hw (by cases f.ext <;> rfl)

theorem RoundTrip.fneg (f : Form) : RoundTrip.Statement (.fneg f) := fun hw _ r =>
  decode_encode _ 0x8B f _ r rfl rfl rfl hw (by cases f.ext <;> rfl)

theorem RoundTrip.fcmp (f : Form) (rel : FCmpRel) : RoundTrip.Statement (.fcmp f rel) := fun hw _ r =>
  decode_encode_wide _ 0x8C f _ r rfl rfl rfl (fun h => nomatch h) hw (by
    obtain ⟨h1, h2⟩ := fcmp_word rel
    show some (Instr.fcmp f (FCmpRel.ofCode (Sys2Proof.sub (sW2 rel.code 0))), decide (Sys2Proof.sub (sW2 rel.code 0) < 8) && Sys2Proof.arg (sW2 rel.code 0) == 0) = _
    rw [h1, h2])

theorem RoundTrip.fclass (f : Form) : RoundTrip.Statement (.fclass f) := fun hw _ r =>
  decode_encode _ 0x8D f _ r rfl rfl rfl hw (by cases f.ext <;> rfl)

theorem RoundTrip.fcvt (f : Form) (src : Ty) : RoundTrip.Statement (.fcvt f src) := fun hw _ r =>
  decode_encode_wide _ 0x90 f _ r rfl rfl rfl (fun h => nomatch h) hw (congrArg some (type_word src _))

theorem RoundTrip.fcvti (f : Form) (src : Ty) : RoundTrip.Statement (.fcvti f src) := fun hw _ r =>
  decode_encode_wide _ 0x91 f _ r rfl rfl rfl (fun h => nomatch h) hw (congrArg some (type_word src _))

theorem RoundTrip.icvtf (f : Form) (src : Ty) : RoundTrip.Statement (.icvtf f src) := fun hw _ r =>
  decode_encode_wide _ 0x92 f _ r rfl rfl rfl (fun h => nomatch h) hw (congrArg some (type_word src _))

theorem RoundTrip.frnd (f : Form) : RoundTrip.Statement (.frnd f) := fun hw _ r =>
  decode_encode _ 0x93 f _ r rfl rfl rfl hw (by cases f.ext <;> rfl)

theorem RoundTrip.fldx (f : Form) : RoundTrip.Statement (.fldx f) := fun hw _ r =>
  decode_encode _ 0x94 f _ r rfl rfl rfl hw (by cases f.ext <;> rfl)

theorem RoundTrip.ffrx (f : Form) : RoundTrip.Statement (.ffrx f) := fun hw _ r =>
  decode_encode _ 0x95 f _ r rfl rfl rfl hw (by cases f.ext <;> rfl)

theorem RoundTrip.fexp (f : Form) : RoundTrip.Statement (.fexp f) := fun hw _ r =>
  decode_encode _ 0x98 f _ r rfl rfl rfl hw (by cases f.ext <;> rfl)

theorem RoundTrip.fexp2 (f : Form) : RoundTrip.Statement (.fexp2 f) := fun hw _ r =>
  decode_encode _ 0x99 f _ r rfl rfl rfl hw (by cases f.ext <;> rfl)

theorem RoundTrip.flog (f : Form) : RoundTrip.Statement (.flog f) := fun hw _ r =>
  decode_encode _ 0x9A f _ r rfl rfl rfl hw (by cases f.ext <;> rfl)

theorem RoundTrip.flog2 (f : Form) : RoundTrip.Statement (.flog2 f) := fun hw _ r =>
  decode_encode _ 0x9B f _ r rfl rfl rfl hw (by cases f.ext <;> rfl)

theorem RoundTrip.fsin (f : Form) : RoundTrip.Statement (.fsin f) := fun hw _ r =>
  decode_encode _ 0x9C f _ r rfl rfl rfl hw (by cases f.ext <;> rfl)

theorem RoundTrip.fcos (f : Form) : RoundTrip.Statement (.fcos f) := fun hw _ r =>
  decode_encode _ 0x9D f _ r rfl rfl rfl hw (by cases f.ext <;> rfl)

theorem RoundTrip.ftanh (f : Form) : RoundTrip.Statement (.ftanh f) := fun hw _ r =>
  decode_encode _ 0x9E f _ r rfl rfl rfl hw (by cases f.ext <;> rfl)

theorem RoundTrip.flgst (f : Form) : RoundTrip.Statement (.flgst f) := fun hw _ r =>
  decode_encode _ 0x9F f _ r rfl rfl rfl hw (by cases f.ext <;> rfl)

theorem RoundTrip.ferf (f : Form) : RoundTrip.Statement (.ferf f) := fun hw _ r =>
  decode_encode _ 0xA0 f _ r rfl rfl rfl hw (by cases f.ext <;> rfl)

theorem RoundTrip.fatan2 (f : Form) : RoundTrip.Statement (.fatan2 f) := fun hw _ r =>
  decode_encode _ 0xA1 f _ r rfl rfl rfl hw (by cases f.ext <;> rfl)

theorem RoundTrip.fpow (f : Form) : RoundTrip.Statement (.fpow f) := fun hw _ r =>
  decode_encode _ 0xA2 f _ r rfl rfl rfl hw (by cases f.ext <;> rfl)

theorem RoundTrip.pfma (f : Form) : RoundTrip.Statement (.pfma f) := fun hw _ r =>
  decode_encode _ 0xA8 f _ r rfl rfl rfl hw (by cases f.ext <;> rfl)

theorem RoundTrip.padd (f : Form) : RoundTrip.Statement (.padd f) := fun hw _ r =>
  decode_encode _ 0xA9 f _ r rfl rfl rfl hw (by cases f.ext <;> rfl)

theorem RoundTrip.pmul (f : Form) : RoundTrip.Statement (.pmul f) := fun hw _ r =>
  decode_encode _ 0xAA f _ r rfl rfl rfl hw (by cases f.ext <;> rfl)

theorem RoundTrip.pmax (f : Form) : RoundTrip.Statement (.pmax f) := fun hw _ r =>
  decode_encode _ 0xAB f _ r rfl rfl rfl hw (by cases f.ext <;> rfl)

theorem RoundTrip.pcvt (f : Form) (k : PcvtKind) (src : Ty) : RoundTrip.Statement (.pcvt f k src) := fun hw _ r =>
  decode_encode_wide _ 0xAC f _ r rfl rfl rfl (fun h => nomatch h) hw (by
    obtain ⟨h1, h2, h3⟩ := pcvt_word k src
    show some ((Ty.ofCode ((sW2 k.code (src.code.setWidth 26)).extractLsb' 0 5)).elim
      (Instr.pcvt f (PcvtKind.ofCode (Sys2Proof.sub (sW2 k.code (src.code.setWidth 26)))) .f16, false)
      fun t => (Instr.pcvt f (PcvtKind.ofCode (Sys2Proof.sub (sW2 k.code (src.code.setWidth 26)))) t,
        decide (Sys2Proof.sub (sW2 k.code (src.code.setWidth 26)) < 5) && (sW2 k.code (src.code.setWidth 26)).extractLsb' 5 21 == 0)) = _
    rw [h1, h2, Option.elim_some, h3])

theorem RoundTrip.pdot (f : Form) : RoundTrip.Statement (.pdot f) := fun hw _ r =>
  decode_encode _ 0xAD f _ r rfl rfl rfl hw (by cases f.ext <;> rfl)

theorem RoundTrip.xclr (f : Form) (j : BitVec 2) : RoundTrip.Statement (.xclr f j) := fun hw _ r =>
  decode_encode_wide _ 0xB0 f _ r rfl rfl rfl (fun h => nomatch h) hw (by
    show some ((Instr.xclr f ((sW2 0 (j.setWidth 26)).extractLsb' 0 2), (sW2 0 (j.setWidth 26)).extractLsb' 2 30 == 0)) = _
    rw [arg_low j (by decide), arg_high 30 j])

theorem RoundTrip.xacc (f : Form) (j : BitVec 2) : RoundTrip.Statement (.xacc f j) := fun hw _ r =>
  decode_encode_wide _ 0xB1 f _ r rfl rfl rfl (fun h => nomatch h) hw (by
    show some ((Instr.xacc f ((sW2 0 (j.setWidth 26)).extractLsb' 0 2), (sW2 0 (j.setWidth 26)).extractLsb' 2 30 == 0)) = _
    rw [arg_low j (by decide), arg_high 30 j])

theorem RoundTrip.xadd (f : Form) (j : BitVec 2) : RoundTrip.Statement (.xadd f j) := fun hw _ r =>
  decode_encode_wide _ 0xB2 f _ r rfl rfl rfl (fun h => nomatch h) hw (by
    show some ((Instr.xadd f ((sW2 0 (j.setWidth 26)).extractLsb' 0 2), (sW2 0 (j.setWidth 26)).extractLsb' 2 30 == 0)) = _
    rw [arg_low j (by decide), arg_high 30 j])

theorem RoundTrip.xrnd (f : Form) (j : BitVec 2) : RoundTrip.Statement (.xrnd f j) := fun hw _ r =>
  decode_encode_wide _ 0xB3 f _ r rfl rfl rfl (fun h => nomatch h) hw (by
    show some ((Instr.xrnd f ((sW2 0 (j.setWidth 26)).extractLsb' 0 2), (sW2 0 (j.setWidth 26)).extractLsb' 2 30 == 0)) = _
    rw [arg_low j (by decide), arg_high 30 j])

theorem RoundTrip.xsgn (f : Form) (j : BitVec 2) : RoundTrip.Statement (.xsgn f j) := fun hw _ r =>
  decode_encode_wide _ 0xB4 f _ r rfl rfl rfl (fun h => nomatch h) hw (by
    show some ((Instr.xsgn f ((sW2 0 (j.setWidth 26)).extractLsb' 0 2), (sW2 0 (j.setWidth 26)).extractLsb' 2 30 == 0)) = _
    rw [arg_low j (by decide), arg_high 30 j])

theorem RoundTrip.ld (f : Form) (m : MemArg) : RoundTrip.Statement (.ld f m) := fun hw _ r =>
  decode_encode_wide _ 0xC0 f _ r rfl rfl rfl (fun h => nomatch h) hw (congrArg some (mem_word m _))

theorem RoundTrip.ldp (f : Form) (m : MemArg) : RoundTrip.Statement (.ldp f m) := fun hw _ r =>
  decode_encode_wide _ 0xC1 f _ r rfl rfl rfl (fun h => nomatch h) hw (congrArg some (mem_word m _))

theorem RoundTrip.st (f : Form) (m : MemArg) : RoundTrip.Statement (.st f m) := fun hw _ r =>
  decode_encode_wide _ 0xC2 f _ r rfl rfl rfl (fun h => nomatch h) hw (congrArg some (mem_word m _))

theorem RoundTrip.atom (f : Form) (m : MemArg) : RoundTrip.Statement (.atom f m) := fun hw _ r =>
  decode_encode_wide _ 0xC3 f _ r rfl rfl rfl (fun h => nomatch h) hw (congrArg some (mem_word m _))

theorem RoundTrip.cas (f : Form) (m : MemArg) : RoundTrip.Statement (.cas f m) := fun hw _ r =>
  decode_encode_wide _ 0xC4 f _ r rfl rfl rfl (fun h => nomatch h) hw (congrArg some (mem_word m _))

theorem RoundTrip.red (f : Form) (m : MemArg) : RoundTrip.Statement (.red f m) := fun hw _ r =>
  decode_encode_wide _ 0xC5 f _ r rfl rfl rfl (fun h => nomatch h) hw (congrArg some (mem_word m _))

theorem RoundTrip.pref (f : Form) (m : MemArg) : RoundTrip.Statement (.pref f m) := fun hw _ r =>
  decode_encode_wide _ 0xC6 f _ r rfl rfl rfl (fun h => nomatch h) hw (congrArg some (mem_word m _))

theorem RoundTrip.fence (f : Form) (lsid : BitVec 5) : RoundTrip.Statement (.fence f lsid) := fun hw _ r =>
  decode_encode_wide _ 0xC7 f _ r rfl rfl rfl (fun h => nomatch h) hw (by
    show some (Instr.fence f ((lsid ++ (0 : BitVec 27) : W32).extractLsb' 27 5), (lsid ++ (0 : BitVec 27) : W32).extractLsb' 0 27 == 0) = _
    rw [lsid_high, lsid_low]; rfl)

theorem RoundTrip.smap (f : Form) (lsid : BitVec 5) : RoundTrip.Statement (.smap f lsid) := fun hw _ r =>
  decode_encode_wide _ 0xC8 f _ r rfl rfl rfl (fun h => nomatch h) hw (by
    show some (Instr.smap f ((lsid ++ (0 : BitVec 27) : W32).extractLsb' 27 5), (lsid ++ (0 : BitVec 27) : W32).extractLsb' 0 27 == 0) = _
    rw [lsid_high, lsid_low]; rfl)

theorem RoundTrip.sunmap (f : Form) (lsid : BitVec 5) : RoundTrip.Statement (.sunmap f lsid) := fun hw _ r =>
  decode_encode_wide _ 0xC9 f _ r rfl rfl rfl (fun h => nomatch h) hw (by
    show some (Instr.sunmap f ((lsid ++ (0 : BitVec 27) : W32).extractLsb' 27 5), (lsid ++ (0 : BitVec 27) : W32).extractLsb' 0 27 == 0) = _
    rw [lsid_high, lsid_low]; rfl)

theorem RoundTrip.swb (f : Form) (lsid : BitVec 5) : RoundTrip.Statement (.swb f lsid) := fun hw _ r =>
  decode_encode_wide _ 0xCA f _ r rfl rfl rfl (fun h => nomatch h) hw (by
    show some (Instr.swb f ((lsid ++ (0 : BitVec 27) : W32).extractLsb' 27 5), (lsid ++ (0 : BitVec 27) : W32).extractLsb' 0 27 == 0) = _
    rw [lsid_high, lsid_low]; rfl)

theorem RoundTrip.sinv (f : Form) (lsid : BitVec 5) : RoundTrip.Statement (.sinv f lsid) := fun hw _ r =>
  decode_encode_wide _ 0xCB f _ r rfl rfl rfl (fun h => nomatch h) hw (by
    show some (Instr.sinv f ((lsid ++ (0 : BitVec 27) : W32).extractLsb' 27 5), (lsid ++ (0 : BitVec 27) : W32).extractLsb' 0 27 == 0) = _
    rw [lsid_high, lsid_low]; rfl)

theorem RoundTrip.halloc (f : Form) (lsid : BitVec 5) : RoundTrip.Statement (.halloc f lsid) := fun hw _ r =>
  decode_encode_wide _ 0xCC f _ r rfl rfl rfl (fun h => nomatch h) hw (by
    show some (Instr.halloc f ((lsid ++ (0 : BitVec 27) : W32).extractLsb' 27 5), (lsid ++ (0 : BitVec 27) : W32).extractLsb' 0 27 == 0) = _
    rw [lsid_high, lsid_low]; rfl)

theorem RoundTrip.hfree (f : Form) (lsid : BitVec 5) : RoundTrip.Statement (.hfree f lsid) := fun hw _ r =>
  decode_encode_wide _ 0xCD f _ r rfl rfl rfl (fun h => nomatch h) hw (by
    show some (Instr.hfree f ((lsid ++ (0 : BitVec 27) : W32).extractLsb' 27 5), (lsid ++ (0 : BitVec 27) : W32).extractLsb' 0 27 == 0) = _
    rw [lsid_high, lsid_low]; rfl)

theorem RoundTrip.wait (f : Form) (st cp ta sf : BitVec 6) : RoundTrip.Statement (.wait f st cp ta sf) := fun hw _ r =>
  decode_encode_wide _ 0xCE f _ r rfl rfl rfl (fun h => nomatch h) hw (by
    obtain ⟨h1, h2, h3, h4, h5⟩ := wait_word st cp ta sf _ rfl
    show some (Instr.wait f ((sW2 0 _).extractLsb' 18 6) ((sW2 0 _).extractLsb' 12 6) ((sW2 0 _).extractLsb' 6 6)
      ((sW2 0 _).extractLsb' 0 6), (sW2 0 _).extractLsb' 24 8 == 0) = _
    rw [h1, h2, h3, h4, h5]; rfl)

theorem RoundTrip.waitr (f : Form) (path : Path) : RoundTrip.Statement (.waitr f path) := fun hw _ r =>
  decode_encode_wide _ 0xCF f _ r rfl rfl rfl (fun h => nomatch h) hw (by
    obtain ⟨h1, h2⟩ := path_word path
    show some (Instr.waitr f (Path.ofCode ((sW2 0 path.code).extractLsb' 0 2)), (sW2 0 path.code).extractLsb' 2 30 == 0) = _
    rw [h1, h2])

theorem RoundTrip.semAcq (f : Form) (s : BitVec 6) (m : BitVec 10) : RoundTrip.Statement (.semAcq f s m) := fun hw _ r =>
  decode_encode_wide _ 0xD0 f _ r rfl rfl rfl (fun h => nomatch h) hw (by
    obtain ⟨h1, h2, h3⟩ := sem_word s m _ rfl
    show some (Instr.semAcq f ((sW2 0 _).extractLsb' 0 6) ((sW2 0 _).extractLsb' 6 10), (sW2 0 _).extractLsb' 16 16 == 0) = _
    rw [h1, h2, h3]; rfl)

theorem RoundTrip.semRel (f : Form) (s : BitVec 6) (m : BitVec 10) : RoundTrip.Statement (.semRel f s m) := fun hw _ r =>
  decode_encode_wide _ 0xD1 f _ r rfl rfl rfl (fun h => nomatch h) hw (by
    obtain ⟨h1, h2, h3⟩ := sem_word s m _ rfl
    show some (Instr.semRel f ((sW2 0 _).extractLsb' 0 6) ((sW2 0 _).extractLsb' 6 10), (sW2 0 _).extractLsb' 16 16 == 0) = _
    rw [h1, h2, h3]; rfl)

theorem RoundTrip.semTry (f : Form) (s : BitVec 6) (m : BitVec 10) : RoundTrip.Statement (.semTry f s m) := fun hw _ r =>
  decode_encode_wide _ 0xD2 f _ r rfl rfl rfl (fun h => nomatch h) hw (by
    obtain ⟨h1, h2, h3⟩ := sem_word s m _ rfl
    show some (Instr.semTry f ((sW2 0 _).extractLsb' 0 6) ((sW2 0 _).extractLsb' 6 10), (sW2 0 _).extractLsb' 16 16 == 0) = _
    rw [h1, h2, h3]; rfl)

theorem RoundTrip.barInit (f : Form) (b : BitVec 9) : RoundTrip.Statement (.barInit f b) := fun hw _ r =>
  decode_encode_wide _ 0xD3 f _ r rfl rfl rfl (fun h => nomatch h) hw (by
    show some ((Instr.barInit f ((sW2 0 (b.setWidth 26)).extractLsb' 0 9), (sW2 0 (b.setWidth 26)).extractLsb' 9 23 == 0)) = _
    rw [arg_low b (by decide), arg_high 23 b])

theorem RoundTrip.barArr (f : Form) (b : BitVec 9) : RoundTrip.Statement (.barArr f b) := fun hw _ r =>
  decode_encode_wide _ 0xD4 f _ r rfl rfl rfl (fun h => nomatch h) hw (by
    show some ((Instr.barArr f ((sW2 0 (b.setWidth 26)).extractLsb' 0 9), (sW2 0 (b.setWidth 26)).extractLsb' 9 23 == 0)) = _
    rw [arg_low b (by decide), arg_high 23 b])

theorem RoundTrip.barWait (f : Form) (b : BitVec 9) : RoundTrip.Statement (.barWait f b) := fun hw _ r =>
  decode_encode_wide _ 0xD5 f _ r rfl rfl rfl (fun h => nomatch h) hw (by
    show some ((Instr.barWait f ((sW2 0 (b.setWidth 26)).extractLsb' 0 9), (sW2 0 (b.setWidth 26)).extractLsb' 9 23 == 0)) = _
    rw [arg_low b (by decide), arg_high 23 b])

theorem RoundTrip.barAw (f : Form) (b : BitVec 9) : RoundTrip.Statement (.barAw f b) := fun hw _ r =>
  decode_encode_wide _ 0xD6 f _ r rfl rfl rfl (fun h => nomatch h) hw (by
    show some ((Instr.barAw f ((sW2 0 (b.setWidth 26)).extractLsb' 0 9), (sW2 0 (b.setWidth 26)).extractLsb' 9 23 == 0)) = _
    rw [arg_low b (by decide), arg_high 23 b])

theorem RoundTrip.barDrop (f : Form) (b : BitVec 9) : RoundTrip.Statement (.barDrop f b) := fun hw _ r =>
  decode_encode_wide _ 0xD7 f _ r rfl rfl rfl (fun h => nomatch h) hw (by
    show some ((Instr.barDrop f ((sW2 0 (b.setWidth 26)).extractLsb' 0 9), (sW2 0 (b.setWidth 26)).extractLsb' 9 23 == 0)) = _
    rw [arg_low b (by decide), arg_high 23 b])

theorem RoundTrip.barTx (f : Form) (b : BitVec 9) : RoundTrip.Statement (.barTx f b) := fun hw _ r =>
  decode_encode_wide _ 0xD8 f _ r rfl rfl rfl (fun h => nomatch h) hw (by
    show some ((Instr.barTx f ((sW2 0 (b.setWidth 26)).extractLsb' 0 9), (sW2 0 (b.setWidth 26)).extractLsb' 9 23 == 0)) = _
    rw [arg_low b (by decide), arg_high 23 b])

theorem RoundTrip.barGen (f : Form) (b : BitVec 9) : RoundTrip.Statement (.barGen f b) := fun hw _ r =>
  decode_encode_wide _ 0xD9 f _ r rfl rfl rfl (fun h => nomatch h) hw (by
    show some ((Instr.barGen f ((sW2 0 (b.setWidth 26)).extractLsb' 0 9), (sW2 0 (b.setWidth 26)).extractLsb' 9 23 == 0)) = _
    rw [arg_low b (by decide), arg_high 23 b])

theorem RoundTrip.tlwait (f : Form) : RoundTrip.Statement (.tlwait f) := fun hw _ r =>
  decode_encode _ 0xDA f _ r rfl rfl rfl hw (by cases f.ext <;> rfl)

theorem RoundTrip.tlread (f : Form) : RoundTrip.Statement (.tlread f) := fun hw _ r =>
  decode_encode _ 0xDB f _ r rfl rfl rfl hw (by cases f.ext <;> rfl)

theorem RoundTrip.dsync (f : Form) : RoundTrip.Statement (.dsync f) := fun hw _ r =>
  decode_encode _ 0xDC f _ r rfl rfl rfl hw (by cases f.ext <;> rfl)

theorem RoundTrip.lclk (f : Form) : RoundTrip.Statement (.lclk f) := fun hw _ r =>
  decode_encode _ 0xDD f _ r rfl rfl rfl hw (by cases f.ext <;> rfl)

theorem RoundTrip.prov (f : Form) (clear : Bool) : RoundTrip.Statement (.prov f clear) := fun hw _ r =>
  decode_encode_wide _ 0xDE f _ r rfl rfl rfl (fun h => nomatch h) hw (by
    obtain ⟨h1, h2⟩ := clear_word clear
    show some (Instr.prov f ((sW2 0 (boolBit clear)).getLsbD 0), (sW2 0 (boolBit clear)).extractLsb' 1 31 == 0) = _
    rw [h1, h2])

theorem RoundTrip.stalls (f : Form) : RoundTrip.Statement (.stalls f) := fun hw _ r =>
  decode_encode _ 0xDF f _ r rfl rfl rfl hw (by cases f.ext <;> rfl)

theorem RoundTrip.tmma (f : Form) (a : MmaArg) : RoundTrip.Statement (.tmma f a) := fun hw _ r =>
  decode_encode_wide _ 0xE0 f _ r rfl rfl rfl (fun h => nomatch h) hw (congrArg some (mma_word a _))

theorem RoundTrip.tdist (f : Form) (a : MmaArg) : RoundTrip.Statement (.tdist f a) := fun hw _ r =>
  decode_encode_wide _ 0xE1 f _ r rfl rfl rfl (fun h => nomatch h) hw (congrArg some (mma_word a _))

theorem RoundTrip.ttopk (f : Form) (zs zd : BitVec 4) (k1 : BitVec 5) (largest : Bool) : RoundTrip.Statement (.ttopk f zs zd k1 largest) := fun hw _ r =>
  decode_encode_wide _ 0xE2 f _ r rfl rfl rfl (fun h => nomatch h) hw (by
    obtain ⟨h1, h2, h3, h4, h5⟩ := topk_word zs zd k1 largest _ rfl
    show some (Instr.ttopk f ((sW2 0 _).extractLsb' 0 4) ((sW2 0 _).extractLsb' 4 4) ((sW2 0 _).extractLsb' 8 5)
      ((sW2 0 _).getLsbD 13), (sW2 0 _).extractLsb' 14 18 == 0) = _
    rw [h1, h2, h3, h4, h5]; rfl)

theorem RoundTrip.tld (f : Form) (z : BitVec 4) : RoundTrip.Statement (.tld f z) := fun hw _ r =>
  decode_encode_wide _ 0xE3 f _ r rfl rfl rfl (fun h => nomatch h) hw (by
    show some ((Instr.tld f ((sW2 0 (z.setWidth 26)).extractLsb' 0 4), (sW2 0 (z.setWidth 26)).extractLsb' 4 28 == 0)) = _
    rw [arg_low z (by decide), arg_high 28 z])

theorem RoundTrip.tst (f : Form) (z : BitVec 4) : RoundTrip.Statement (.tst f z) := fun hw _ r =>
  decode_encode_wide _ 0xE4 f _ r rfl rfl rfl (fun h => nomatch h) hw (by
    show some ((Instr.tst f ((sW2 0 (z.setWidth 26)).extractLsb' 0 4), (sW2 0 (z.setWidth 26)).extractLsb' 4 28 == 0)) = _
    rw [arg_low z (by decide), arg_high 28 z])

theorem RoundTrip.tclr (f : Form) (z : BitVec 4) : RoundTrip.Statement (.tclr f z) := fun hw _ r =>
  decode_encode_wide _ 0xE5 f _ r rfl rfl rfl (fun h => nomatch h) hw (by
    show some ((Instr.tclr f ((sW2 0 (z.setWidth 26)).extractLsb' 0 4), (sW2 0 (z.setWidth 26)).extractLsb' 4 28 == 0)) = _
    rw [arg_low z (by decide), arg_high 28 z])

theorem RoundTrip.tcvt (f : Form) (z : BitVec 4) (trans : Bool) (src : Ty) : RoundTrip.Statement (.tcvt f z trans src) := fun hw _ r =>
  decode_encode_wide _ 0xE6 f _ r rfl rfl rfl (fun h => nomatch h) hw (by
    obtain ⟨h1, h2, h3, h4⟩ := convert_word z trans src _ rfl
    show some ((Ty.ofCode ((sW2 0 _).extractLsb' 5 5)).elim (Instr.tcvt f 0 false .mask, false)
      fun t => (Instr.tcvt f ((sW2 0 _).extractLsb' 0 4) ((sW2 0 _).getLsbD 4) t, (sW2 0 _).extractLsb' 10 22 == 0)) = _
    rw [h3, type_code, h1, h2, h4]; rfl)

theorem RoundTrip.trmax (f : Form) (z : BitVec 4) : RoundTrip.Statement (.trmax f z) := fun hw _ r =>
  decode_encode_wide _ 0xE7 f _ r rfl rfl rfl (fun h => nomatch h) hw (by
    show some ((Instr.trmax f ((sW2 0 (z.setWidth 26)).extractLsb' 0 4), (sW2 0 (z.setWidth 26)).extractLsb' 4 28 == 0)) = _
    rw [arg_low z (by decide), arg_high 28 z])

theorem RoundTrip.trsum (f : Form) (z : BitVec 4) : RoundTrip.Statement (.trsum f z) := fun hw _ r =>
  decode_encode_wide _ 0xE8 f _ r rfl rfl rfl (fun h => nomatch h) hw (by
    show some ((Instr.trsum f ((sW2 0 (z.setWidth 26)).extractLsb' 0 4), (sW2 0 (z.setWidth 26)).extractLsb' 4 28 == 0)) = _
    rw [arg_low z (by decide), arg_high 28 z])

theorem RoundTrip.trscl (f : Form) (z : BitVec 4) : RoundTrip.Statement (.trscl f z) := fun hw _ r =>
  decode_encode_wide _ 0xE9 f _ r rfl rfl rfl (fun h => nomatch h) hw (by
    show some ((Instr.trscl f ((sW2 0 (z.setWidth 26)).extractLsb' 0 4), (sW2 0 (z.setWidth 26)).extractLsb' 4 28 == 0)) = _
    rw [arg_low z (by decide), arg_high 28 z])

theorem RoundTrip.cpy (f : Form) (p1 : BitVec 5) : RoundTrip.Statement (.cpy f p1) := fun hw _ r =>
  decode_encode_wide _ 0xEA f _ r rfl rfl rfl (fun h => nomatch h) hw (by
    show some ((Instr.cpy f ((sW2 0 (p1.setWidth 26)).extractLsb' 0 5), (sW2 0 (p1.setWidth 26)).extractLsb' 5 27 == 0)) = _
    rw [arg_low p1 (by decide), arg_high 27 p1])

theorem RoundTrip.cpyg (f : Form) (p1 : BitVec 5) : RoundTrip.Statement (.cpyg f p1) := fun hw _ r =>
  decode_encode_wide _ 0xEB f _ r rfl rfl rfl (fun h => nomatch h) hw (by
    show some ((Instr.cpyg f ((sW2 0 (p1.setWidth 26)).extractLsb' 0 5), (sW2 0 (p1.setWidth 26)).extractLsb' 5 27 == 0)) = _
    rw [arg_low p1 (by decide), arg_high 27 p1])

theorem RoundTrip.cpyx (f : Form) (p1 : BitVec 5) : RoundTrip.Statement (.cpyx f p1) := fun hw _ r =>
  decode_encode_wide _ 0xEC f _ r rfl rfl rfl (fun h => nomatch h) hw (by
    show some ((Instr.cpyx f ((sW2 0 (p1.setWidth 26)).extractLsb' 0 5), (sW2 0 (p1.setWidth 26)).extractLsb' 5 27 == 0)) = _
    rw [arg_low p1 (by decide), arg_high 27 p1])

theorem RoundTrip.cfill (f : Form) (p1 : BitVec 5) : RoundTrip.Statement (.cfill f p1) := fun hw _ r =>
  decode_encode_wide _ 0xED f _ r rfl rfl rfl (fun h => nomatch h) hw (by
    show some ((Instr.cfill f ((sW2 0 (p1.setWidth 26)).extractLsb' 0 5), (sW2 0 (p1.setWidth 26)).extractLsb' 5 27 == 0)) = _
    rw [arg_low p1 (by decide), arg_high 27 p1])

theorem RoundTrip.trc (f : Form) : RoundTrip.Statement (.trc f) := fun hw _ r =>
  decode_encode _ 0xEE f _ r rfl rfl rfl hw (by cases f.ext <;> rfl)

theorem RoundTrip.pfill (f : Form) : RoundTrip.Statement (.pfill f) := fun hw _ r =>
  decode_encode _ 0xF0 f _ r rfl rfl rfl hw (by cases f.ext <;> rfl)

theorem RoundTrip.pcopy (f : Form) : RoundTrip.Statement (.pcopy f) := fun hw _ r =>
  decode_encode _ 0xF1 f _ r rfl rfl rfl hw (by cases f.ext <;> rfl)

theorem RoundTrip.pcmp (f : Form) : RoundTrip.Statement (.pcmp f) := fun hw _ r =>
  decode_encode _ 0xF2 f _ r rfl rfl rfl hw (by cases f.ext <;> rfl)

theorem RoundTrip.predx (f : Form) (elem : Ty) (fn : BadgerFn) : RoundTrip.Statement (.predx f elem fn) := fun hw _ r =>
  decode_encode_wide _ 0xF3 f _ r rfl rfl rfl (fun h => nomatch h) hw (congrArg some (badger_word elem fn _))

theorem RoundTrip.pgath (f : Form) (elem : Ty) (fn : BadgerFn) : RoundTrip.Statement (.pgath f elem fn) := fun hw _ r =>
  decode_encode_wide _ 0xF4 f _ r rfl rfl rfl (fun h => nomatch h) hw (congrArg some (badger_word elem fn _))

theorem RoundTrip.pmap (f : Form) : RoundTrip.Statement (.pmap f) := fun hw _ r =>
  decode_encode _ 0xF5 f _ r rfl rfl rfl hw (by cases f.ext <;> rfl)

theorem RoundTrip.punmap (f : Form) : RoundTrip.Statement (.punmap f) := fun hw _ r =>
  decode_encode _ 0xF6 f _ r rfl rfl rfl hw (by cases f.ext <;> rfl)

theorem RoundTrip.tlbinv (f : Form) : RoundTrip.Statement (.tlbinv f) := fun hw _ r =>
  decode_encode _ 0xF7 f _ r rfl rfl rfl hw (by cases f.ext <;> rfl)

theorem RoundTrip.sysrd (f : Form) (r : SysReg) : RoundTrip.Statement (.sysrd f r) := fun hw _ ws =>
  decode_encode_wide _ 0xF8 f _ ws rfl rfl rfl (fun h => nomatch h) hw (congrArg some (sysreg_word r _ _))

theorem RoundTrip.syswr (f : Form) (r : SysReg) : RoundTrip.Statement (.syswr f r) := fun hw _ ws =>
  decode_encode_wide _ 0xF9 f _ ws rfl rfl rfl (fun h => nomatch h) hw (congrArg some (sysreg_word r _ _))

theorem RoundTrip.trap (f : Form) (sub : BitVec 16) : RoundTrip.Statement (.trap f sub) := fun hw _ r =>
  decode_encode_wide _ 0xFA f _ r rfl rfl rfl (fun h => nomatch h) hw (by
    show some ((Instr.trap f ((sW2 0 (sub.setWidth 26)).extractLsb' 0 16), (sW2 0 (sub.setWidth 26)).extractLsb' 16 16 == 0)) = _
    rw [arg_low sub (by decide), arg_high 16 sub])

theorem RoundTrip.tret (f : Form) : RoundTrip.Statement (.tret f) := fun hw _ r =>
  decode_encode _ 0xFB f _ r rfl rfl rfl hw (by cases f.ext <;> rfl)

theorem RoundTrip.brk (f : Form) : RoundTrip.Statement (.brk f) := fun hw _ r =>
  decode_encode _ 0xFC f _ r rfl rfl rfl hw (by cases f.ext <;> rfl)

theorem RoundTrip.cyc (f : Form) : RoundTrip.Statement (.cyc f) := fun hw _ r =>
  decode_encode _ 0xFD f _ r rfl rfl rfl hw (by cases f.ext <;> rfl)

theorem RoundTrip.waitc (f : Form) : RoundTrip.Statement (.waitc f) := fun hw _ r =>
  decode_encode _ 0xFE f _ r rfl rfl rfl hw (by cases f.ext <;> rfl)

theorem RoundTrip.halt (f : Form) : RoundTrip.Statement (.halt f) := fun hw _ r =>
  decode_encode _ 0xFF f _ r rfl rfl rfl hw (by cases f.ext <;> rfl)

theorem RoundTrip.trainingFailure (u : FailUnit) : RoundTrip.Statement (.trainingFailure u) :=
  fun _ hs _ => absurd hs Bool.false_ne_true

theorem RoundTrip.targetFrequencyChange (die q mhz : Nat) : RoundTrip.Statement (.targetFrequencyChange die q mhz) :=
  fun _ hs _ => absurd hs Bool.false_ne_true

theorem RoundTrip.powerSample (watts : Nat) : RoundTrip.Statement (.powerSample watts) :=
  fun _ hs _ => absurd hs Bool.false_ne_true

theorem RoundTrip.droopStretch (die core : Nat) : RoundTrip.Statement (.droopStretch die core) :=
  fun _ hs _ => absurd hs Bool.false_ne_true

theorem RoundTrip.thermalWarning (die celsius : Nat) : RoundTrip.Statement (.thermalWarning die celsius) :=
  fun _ hs _ => absurd hs Bool.false_ne_true

theorem RoundTrip.thermalThrottle (die : Nat) : RoundTrip.Statement (.thermalThrottle die) :=
  fun _ hs _ => absurd hs Bool.false_ne_true

theorem RoundTrip.thermalThrottleRelease (die : Nat) : RoundTrip.Statement (.thermalThrottleRelease die) :=
  fun _ hs _ => absurd hs Bool.false_ne_true

theorem RoundTrip.scrubRead (stack : Nat) (line : Nat) (found : ScrubResult) : RoundTrip.Statement (.scrubRead stack line found) :=
  fun _ hs _ => absurd hs Bool.false_ne_true

theorem RoundTrip.sequencerWatchdog (which : Sequencer) : RoundTrip.Statement (.sequencerWatchdog which) :=
  fun _ hs _ => absurd hs Bool.false_ne_true

theorem RoundTrip.flitReceive (l : Link) (f : Flit) : RoundTrip.Statement (.flitReceive l f) :=
  fun _ hs _ => absurd hs Bool.false_ne_true

theorem RoundTrip.negativeAcknowledgement (l : Link) (expected : BitVec 12) : RoundTrip.Statement (.negativeAcknowledgement l expected) :=
  fun _ hs _ => absurd hs Bool.false_ne_true

theorem RoundTrip.ackTimeout (l : Link) : RoundTrip.Statement (.ackTimeout l) :=
  fun _ hs _ => absurd hs Bool.false_ne_true

theorem RoundTrip.linkRetrain (l : Link) : RoundTrip.Statement (.linkRetrain l) :=
  fun _ hs _ => absurd hs Bool.false_ne_true

theorem RoundTrip.retrainComplete (l : Link) (lanes : Nat) : RoundTrip.Statement (.retrainComplete l lanes) :=
  fun _ hs _ => absurd hs Bool.false_ne_true

theorem RoundTrip.linkDown (l : Link) : RoundTrip.Statement (.linkDown l) :=
  fun _ hs _ => absurd hs Bool.false_ne_true

theorem RoundTrip.helloSend (die port : Nat) : RoundTrip.Statement (.helloSend die port) :=
  fun _ hs _ => absurd hs Bool.false_ne_true

theorem RoundTrip.helloReceive (die port : Nat) (h : Hello) : RoundTrip.Statement (.helloReceive die port h) :=
  fun _ hs _ => absurd hs Bool.false_ne_true

theorem RoundTrip.memberSet (members : W64) : RoundTrip.Statement (.memberSet members) :=
  fun _ hs _ => absurd hs Bool.false_ne_true

theorem RoundTrip.unreachableReport (from_ : Nat) : RoundTrip.Statement (.unreachableReport from_) :=
  fun _ hs _ => absurd hs Bool.false_ne_true

theorem RoundTrip.census (parts : List CensusPart) : RoundTrip.Statement (.census parts) :=
  fun _ hs _ => absurd hs Bool.false_ne_true

theorem RoundTrip.rds (die line : Nat) : RoundTrip.Statement (.rds die line) :=
  fun _ hs _ => absurd hs Bool.false_ne_true

theorem RoundTrip.rdx (die line : Nat) : RoundTrip.Statement (.rdx die line) :=
  fun _ hs _ => absurd hs Bool.false_ne_true

theorem RoundTrip.upg (die line : Nat) : RoundTrip.Statement (.upg die line) :=
  fun _ hs _ => absurd hs Bool.false_ne_true

theorem RoundTrip.wb (die line : Nat) (bytes : Option (List (Nat × Byte))) : RoundTrip.Statement (.wb die line bytes) :=
  fun _ hs _ => absurd hs Bool.false_ne_true

theorem RoundTrip.cleanEviction (die line : Nat) : RoundTrip.Statement (.cleanEviction die line) :=
  fun _ hs _ => absurd hs Bool.false_ne_true

theorem RoundTrip.probe (die line : Nat) (k : ProbeKind) : RoundTrip.Statement (.probe die line k) :=
  fun _ hs _ => absurd hs Bool.false_ne_true

theorem RoundTrip.probeReply (die line : Nat) (dirty : List (Nat × Byte)) : RoundTrip.Statement (.probeReply die line dirty) :=
  fun _ hs _ => absurd hs Bool.false_ne_true

theorem RoundTrip.redirect (die page stack : Nat) : RoundTrip.Statement (.redirect die page stack) :=
  fun _ hs _ => absurd hs Bool.false_ne_true

theorem RoundTrip.pageMoveStart (page stack : Nat) (retire : Bool) : RoundTrip.Statement (.pageMoveStart page stack retire) :=
  fun _ hs _ => absurd hs Bool.false_ne_true

theorem RoundTrip.moveCopyComplete (page : Nat) : RoundTrip.Statement (.moveCopyComplete page) :=
  fun _ hs _ => absurd hs Bool.false_ne_true

theorem RoundTrip.moveFinish (page : Nat) : RoundTrip.Statement (.moveFinish page) :=
  fun _ hs _ => absurd hs Bool.false_ne_true

theorem RoundTrip.badgerOperation (op : BadgerOp) : RoundTrip.Statement (.badgerOperation op) :=
  fun _ hs _ => absurd hs Bool.false_ne_true

theorem RoundTrip.badgerComplete (stack ctx num : Nat) (e : EndStatus) : RoundTrip.Statement (.badgerComplete stack ctx num e) :=
  fun _ hs _ => absurd hs Bool.false_ne_true

theorem RoundTrip.chunkRequest (handler : Bool) (pos : Nat) (addr : W64) : RoundTrip.Statement (.chunkRequest handler pos addr) :=
  fun _ hs _ => absurd hs Bool.false_ne_true

theorem RoundTrip.edgeSend (r : EdgeReq) : RoundTrip.Statement (.edgeSend r) :=
  fun _ hs _ => absurd hs Bool.false_ne_true

theorem RoundTrip.edgeTake (r : EdgeReq) : RoundTrip.Statement (.edgeTake r) :=
  fun _ hs _ => absurd hs Bool.false_ne_true

theorem RoundTrip.edgeRetry (r : EdgeReq) (send : Bool) : RoundTrip.Statement (.edgeRetry r send) :=
  fun _ hs _ => absurd hs Bool.false_ne_true

theorem RoundTrip.pcieLinkTrain (rate width : Nat) : RoundTrip.Statement (.pcieLinkTrain rate width) :=
  fun _ hs _ => absurd hs Bool.false_ne_true

theorem RoundTrip.apertureWrite (off : Nat) (bytes : List Byte) : RoundTrip.Statement (.apertureWrite off bytes) :=
  fun _ hs _ => absurd hs Bool.false_ne_true

theorem RoundTrip.apertureRead (off len : Nat) : RoundTrip.Statement (.apertureRead off len) :=
  fun _ hs _ => absurd hs Bool.false_ne_true

theorem RoundTrip.adminQcb (v : W64) : RoundTrip.Statement (.adminQcb v) :=
  fun _ hs _ => absurd hs Bool.false_ne_true

theorem RoundTrip.admitDigest (ctx member : Nat) (digest : BitVec 256) (at_ : W64) : RoundTrip.Statement (.admitDigest ctx member digest at_) :=
  fun _ hs _ => absurd hs Bool.false_ne_true

theorem RoundTrip.registerWrite (off : Nat) (v : W64) : RoundTrip.Statement (.registerWrite off v) :=
  fun _ hs _ => absurd hs Bool.false_ne_true

theorem RoundTrip.poolCommandCompletion (status : Byte) : RoundTrip.Statement (.poolCommandCompletion status) :=
  fun _ hs _ => absurd hs Bool.false_ne_true

theorem RoundTrip.powerLimitEffecter (watts : Nat) : RoundTrip.Statement (.powerLimitEffecter watts) :=
  fun _ hs _ => absurd hs Bool.false_ne_true

theorem RoundTrip.packageNumberEffecter (tray slot : Nat) : RoundTrip.Statement (.packageNumberEffecter tray slot) :=
  fun _ hs _ => absurd hs Bool.false_ne_true

theorem RoundTrip.domainIdEffecter (v : W64) : RoundTrip.Statement (.domainIdEffecter v) :=
  fun _ hs _ => absurd hs Bool.false_ne_true

theorem RoundTrip.presentMaskEffecter (v : W64) : RoundTrip.Statement (.presentMaskEffecter v) :=
  fun _ hs _ => absurd hs Bool.false_ne_true

theorem RoundTrip.sensorRead (what : Sensor) : RoundTrip.Statement (.sensorRead what) :=
  fun _ hs _ => absurd hs Bool.false_ne_true

theorem RoundTrip.firmwareUpdate (c : Component) (image : List Byte) : RoundTrip.Statement (.firmwareUpdate c image) :=
  fun _ hs _ => absurd hs Bool.false_ne_true

theorem RoundTrip.firmwareActivate (c : Component) : RoundTrip.Statement (.firmwareActivate c) :=
  fun _ hs _ => absurd hs Bool.false_ne_true

theorem RoundTrip.mctpAttestation (nonce : List Byte) : RoundTrip.Statement (.mctpAttestation nonce) :=
  fun _ hs _ => absurd hs Bool.false_ne_true

theorem RoundTrip.split (launch : Nat) (die : Option Nat) (teams : List Nat) : RoundTrip.Statement (.split launch die teams) :=
  fun _ hs _ => absurd hs Bool.false_ne_true

theorem RoundTrip.stealRequest (reqs : List StealReq) : RoundTrip.Statement (.stealRequest reqs) :=
  fun _ hs _ => absurd hs Bool.false_ne_true

theorem RoundTrip.stealReply (r : StealReq) (teams : List Nat) : RoundTrip.Statement (.stealReply r teams) :=
  fun _ hs _ => absurd hs Bool.false_ne_true

theorem RoundTrip.binTimer (team bin : Nat) : RoundTrip.Statement (.binTimer team bin) :=
  fun _ hs _ => absurd hs Bool.false_ne_true

theorem RoundTrip.binLaunch (team bin : Nat) : RoundTrip.Statement (.binLaunch team bin) :=
  fun _ hs _ => absurd hs Bool.false_ne_true

theorem RoundTrip.taskArrival (launch die core : Nat) (t : TaskDesc) : RoundTrip.Statement (.taskArrival launch die core t) :=
  fun _ hs _ => absurd hs Bool.false_ne_true

theorem RoundTrip.counterPartReport (launch die : Nat) (zero : Bool) : RoundTrip.Statement (.counterPartReport launch die zero) :=
  fun _ hs _ => absurd hs Bool.false_ne_true

theorem RoundTrip.registerFill (line : Nat) (fate : ReplyFate) : RoundTrip.Statement (.registerFill line fate) :=
  fun _ hs _ => absurd hs Bool.false_ne_true

theorem RoundTrip.memoryReply (req : Nat) (fate : ReplyFate) : RoundTrip.Statement (.memoryReply req fate) :=
  fun _ hs _ => absurd hs Bool.false_ne_true

theorem RoundTrip.missReplay (req : Nat) : RoundTrip.Statement (.missReplay req) :=
  fun _ hs _ => absurd hs Bool.false_ne_true

theorem RoundTrip.watchedWrite (line : Nat) : RoundTrip.Statement (.watchedWrite line) :=
  fun _ hs _ => absurd hs Bool.false_ne_true

theorem RoundTrip.lrmRemapComplete (core q : Nat) : RoundTrip.Statement (.lrmRemapComplete core q) :=
  fun _ hs _ => absurd hs Bool.false_ne_true

theorem RoundTrip.translationWalk (va : W64) (write fetch sup : Bool) : RoundTrip.Statement (.translationWalk va write fetch sup) :=
  fun _ hs _ => absurd hs Bool.false_ne_true

theorem RoundTrip.contextFault (tag : W32) (sub code : Nat) : RoundTrip.Statement (.contextFault tag sub code) :=
  fun _ hs _ => absurd hs Bool.false_ne_true

theorem RoundTrip.copyPartArrive (gang team part p flight : Nat) (kind : BitVec 2) (sup : Bool) (lck : W64) (sord : BitVec 24) (desc : List Byte) : RoundTrip.Statement (.copyPartArrive gang team part p flight kind sup lck sord desc) :=
  fun _ hs _ => absurd hs Bool.false_ne_true

theorem RoundTrip.copyComplete (team num : Nat) : RoundTrip.Statement (.copyComplete team num) :=
  fun _ hs _ => absurd hs Bool.false_ne_true

theorem RoundTrip.copyFailureReport (team num : Nat) : RoundTrip.Statement (.copyFailureReport team num) :=
  fun _ hs _ => absurd hs Bool.false_ne_true

theorem RoundTrip.smapComplete (team region : Nat) : RoundTrip.Statement (.smapComplete team region) :=
  fun _ hs _ => absurd hs Bool.false_ne_true

theorem RoundTrip.regionWritebackComplete (gang team region : Nat) : RoundTrip.Statement (.regionWritebackComplete gang team region) :=
  fun _ hs _ => absurd hs Bool.false_ne_true

theorem RoundTrip.droopEnd (die core : Nat) : RoundTrip.Statement (.droopEnd die core) :=
  fun _ hs _ => absurd hs Bool.false_ne_true

theorem RoundTrip.domainReform (members : W64) : RoundTrip.Statement (.domainReform members) :=
  fun _ hs _ => absurd hs Bool.false_ne_true

theorem RoundTrip.pcieAtomicop (kind : PcieAtomic) (off : Nat) (wide : Bool) (operand compare : W64) : RoundTrip.Statement (.pcieAtomicop kind off wide operand compare) :=
  fun _ hs _ => absurd hs Bool.false_ne_true

theorem RoundTrip.badgerFailureReport (gang stack num : Nat) (e : EndStatus) : RoundTrip.Statement (.badgerFailureReport gang stack num e) :=
  fun _ hs _ => absurd hs Bool.false_ne_true

theorem RoundTrip.partitionRestore (fate : ReplyFate) : RoundTrip.Statement (.partitionRestore fate) :=
  fun _ hs _ => absurd hs Bool.false_ne_true

theorem RoundTrip.standbyPowerGood : RoundTrip.Statement .standbyPowerGood :=
  fun _ hs _ => absurd hs Bool.false_ne_true

theorem RoundTrip.coldReset : RoundTrip.Statement .coldReset :=
  fun _ hs _ => absurd hs Bool.false_ne_true

theorem RoundTrip.warmReset : RoundTrip.Statement .warmReset :=
  fun _ hs _ => absurd hs Bool.false_ne_true

theorem RoundTrip.bootComplete : RoundTrip.Statement .bootComplete :=
  fun _ hs _ => absurd hs Bool.false_ne_true

theorem RoundTrip.trainingEnd : RoundTrip.Statement .trainingEnd :=
  fun _ hs _ => absurd hs Bool.false_ne_true

theorem RoundTrip.serviceTransitionTimeout : RoundTrip.Statement .serviceTransitionTimeout :=
  fun _ hs _ => absurd hs Bool.false_ne_true

theorem RoundTrip.droopGuard : RoundTrip.Statement .droopGuard :=
  fun _ hs _ => absurd hs Bool.false_ne_true

theorem RoundTrip.partitionAdmission : RoundTrip.Statement .partitionAdmission :=
  fun _ hs _ => absurd hs Bool.false_ne_true

theorem RoundTrip.thermalStop : RoundTrip.Statement .thermalStop :=
  fun _ hs _ => absurd hs Bool.false_ne_true

theorem RoundTrip.domainPublish : RoundTrip.Statement .domainPublish :=
  fun _ hs _ => absurd hs Bool.false_ne_true

theorem RoundTrip.formationTimeout : RoundTrip.Statement .formationTimeout :=
  fun _ hs _ => absurd hs Bool.false_ne_true

theorem RoundTrip.heartbeat : RoundTrip.Statement .heartbeat :=
  fun _ hs _ => absurd hs Bool.false_ne_true

theorem RoundTrip.heartbeatTimeout : RoundTrip.Statement .heartbeatTimeout :=
  fun _ hs _ => absurd hs Bool.false_ne_true

theorem RoundTrip.standbyTakeover : RoundTrip.Statement .standbyTakeover :=
  fun _ hs _ => absurd hs Bool.false_ne_true

theorem RoundTrip.freeze : RoundTrip.Statement .freeze :=
  fun _ hs _ => absurd hs Bool.false_ne_true

theorem RoundTrip.thaw : RoundTrip.Statement .thaw :=
  fun _ hs _ => absurd hs Bool.false_ne_true

theorem RoundTrip.adminDoorbell : RoundTrip.Statement .adminDoorbell :=
  fun _ hs _ => absurd hs Bool.false_ne_true

theorem RoundTrip.doorbell : RoundTrip.Statement .doorbell :=
  fun _ hs _ => absurd hs Bool.false_ne_true

theorem RoundTrip.tailPoll : RoundTrip.Statement .tailPoll :=
  fun _ hs _ => absurd hs Bool.false_ne_true

theorem RoundTrip.packetAdmission : RoundTrip.Statement .packetAdmission :=
  fun _ hs _ => absurd hs Bool.false_ne_true

theorem RoundTrip.admitTimeout : RoundTrip.Statement .admitTimeout :=
  fun _ hs _ => absurd hs Bool.false_ne_true

theorem RoundTrip.launch : RoundTrip.Statement .launch :=
  fun _ hs _ => absurd hs Bool.false_ne_true

theorem RoundTrip.graph : RoundTrip.Statement .graph :=
  fun _ hs _ => absurd hs Bool.false_ne_true

theorem RoundTrip.tlwaitPacket : RoundTrip.Statement .tlwaitPacket :=
  fun _ hs _ => absurd hs Bool.false_ne_true

theorem RoundTrip.tlwaitSatisfied : RoundTrip.Statement .tlwaitSatisfied :=
  fun _ hs _ => absurd hs Bool.false_ne_true

theorem RoundTrip.tlwaitTimeout : RoundTrip.Statement .tlwaitTimeout :=
  fun _ hs _ => absurd hs Bool.false_ne_true

theorem RoundTrip.tlsignal : RoundTrip.Statement .tlsignal :=
  fun _ hs _ => absurd hs Bool.false_ne_true

theorem RoundTrip.fencePacket : RoundTrip.Statement .fencePacket :=
  fun _ hs _ => absurd hs Bool.false_ne_true

theorem RoundTrip.preempt : RoundTrip.Statement .preempt :=
  fun _ hs _ => absurd hs Bool.false_ne_true

theorem RoundTrip.traceOpen : RoundTrip.Statement .traceOpen :=
  fun _ hs _ => absurd hs Bool.false_ne_true

theorem RoundTrip.traceClose : RoundTrip.Statement .traceClose :=
  fun _ hs _ => absurd hs Bool.false_ne_true

theorem RoundTrip.traceDrainTimeout : RoundTrip.Statement .traceDrainTimeout :=
  fun _ hs _ => absurd hs Bool.false_ne_true

theorem RoundTrip.wrap : RoundTrip.Statement .wrap :=
  fun _ hs _ => absurd hs Bool.false_ne_true

theorem RoundTrip.ctxCreate : RoundTrip.Statement .ctxCreate :=
  fun _ hs _ => absurd hs Bool.false_ne_true

theorem RoundTrip.ctxDestroy : RoundTrip.Statement .ctxDestroy :=
  fun _ hs _ => absurd hs Bool.false_ne_true

theorem RoundTrip.queueResume : RoundTrip.Statement .queueResume :=
  fun _ hs _ => absurd hs Bool.false_ne_true

theorem RoundTrip.queueResumeSkip : RoundTrip.Statement .queueResumeSkip :=
  fun _ hs _ => absurd hs Bool.false_ne_true

theorem RoundTrip.queueResumeReset : RoundTrip.Statement .queueResumeReset :=
  fun _ hs _ => absurd hs Bool.false_ne_true

theorem RoundTrip.hostHalt : RoundTrip.Statement .hostHalt :=
  fun _ hs _ => absurd hs Bool.false_ne_true

theorem RoundTrip.poolMap : RoundTrip.Statement .poolMap :=
  fun _ hs _ => absurd hs Bool.false_ne_true

theorem RoundTrip.poolUnmap : RoundTrip.Statement .poolUnmap :=
  fun _ hs _ => absurd hs Bool.false_ne_true

theorem RoundTrip.migrate : RoundTrip.Statement .migrate :=
  fun _ hs _ => absurd hs Bool.false_ne_true

theorem RoundTrip.eqCreate : RoundTrip.Statement .eqCreate :=
  fun _ hs _ => absurd hs Bool.false_ne_true

theorem RoundTrip.tableBase : RoundTrip.Statement .tableBase :=
  fun _ hs _ => absurd hs Bool.false_ne_true

theorem RoundTrip.patchStage : RoundTrip.Statement .patchStage :=
  fun _ hs _ => absurd hs Bool.false_ne_true

theorem RoundTrip.owlRestart : RoundTrip.Statement .owlRestart :=
  fun _ hs _ => absurd hs Bool.false_ne_true

theorem RoundTrip.attest : RoundTrip.Statement .attest :=
  fun _ hs _ => absurd hs Bool.false_ne_true

theorem RoundTrip.attestSigned : RoundTrip.Statement .attestSigned :=
  fun _ hs _ => absurd hs Bool.false_ne_true

theorem RoundTrip.pairBind : RoundTrip.Statement .pairBind :=
  fun _ hs _ => absurd hs Bool.false_ne_true

theorem RoundTrip.owlWatchdog : RoundTrip.Statement .owlWatchdog :=
  fun _ hs _ => absurd hs Bool.false_ne_true

theorem RoundTrip.owlRestartDone : RoundTrip.Statement .owlRestartDone :=
  fun _ hs _ => absurd hs Bool.false_ne_true

theorem RoundTrip.pldmDiscovery : RoundTrip.Statement .pldmDiscovery :=
  fun _ hs _ => absurd hs Bool.false_ne_true

theorem RoundTrip.certificateRead : RoundTrip.Statement .certificateRead :=
  fun _ hs _ => absurd hs Bool.false_ne_true

theorem RoundTrip.teamAdmit : RoundTrip.Statement .teamAdmit :=
  fun _ hs _ => absurd hs Bool.false_ne_true

theorem RoundTrip.stealBackoff : RoundTrip.Statement .stealBackoff :=
  fun _ hs _ => absurd hs Bool.false_ne_true

theorem RoundTrip.launchComplete : RoundTrip.Statement .launchComplete :=
  fun _ hs _ => absurd hs Bool.false_ne_true

theorem RoundTrip.partitionPreempt : RoundTrip.Statement .partitionPreempt :=
  fun _ hs _ => absurd hs Bool.false_ne_true

theorem RoundTrip.partitionHalted : RoundTrip.Statement .partitionHalted :=
  fun _ hs _ => absurd hs Bool.false_ne_true

theorem RoundTrip.shadowSaveComplete : RoundTrip.Statement .shadowSaveComplete :=
  fun _ hs _ => absurd hs Bool.false_ne_true

theorem RoundTrip.restoreComplete : RoundTrip.Statement .restoreComplete :=
  fun _ hs _ => absurd hs Bool.false_ne_true

theorem RoundTrip.blockStall : RoundTrip.Statement .blockStall :=
  fun _ hs _ => absurd hs Bool.false_ne_true

theorem RoundTrip.blockFetch : RoundTrip.Statement .blockFetch :=
  fun _ hs _ => absurd hs Bool.false_ne_true

theorem RoundTrip.headerDecode : RoundTrip.Statement .headerDecode :=
  fun _ hs _ => absurd hs Bool.false_ne_true

theorem RoundTrip.blockCommit : RoundTrip.Statement .blockCommit :=
  fun _ hs _ => absurd hs Bool.false_ne_true

theorem RoundTrip.timedDeadline : RoundTrip.Statement .timedDeadline :=
  fun _ hs _ => absurd hs Bool.false_ne_true

theorem RoundTrip.parkTimeout : RoundTrip.Statement .parkTimeout :=
  fun _ hs _ => absurd hs Bool.false_ne_true

theorem RoundTrip.slotTakeover : RoundTrip.Statement .slotTakeover :=
  fun _ hs _ => absurd hs Bool.false_ne_true

theorem RoundTrip.tlbinvComplete : RoundTrip.Statement .tlbinvComplete :=
  fun _ hs _ => absurd hs Bool.false_ne_true

theorem RoundTrip.tileQueueStart : RoundTrip.Statement .tileQueueStart :=
  fun _ hs _ => absurd hs Bool.false_ne_true

theorem RoundTrip.tileQueueComplete : RoundTrip.Statement .tileQueueComplete :=
  fun _ hs _ => absurd hs Bool.false_ne_true

theorem RoundTrip.sampleDue : RoundTrip.Statement .sampleDue :=
  fun _ hs _ => absurd hs Bool.false_ne_true

theorem RoundTrip.coreCycle : RoundTrip.Statement .coreCycle :=
  fun _ hs _ => absurd hs Bool.false_ne_true


end Sys2Proof.Laws
end

