-- ==== Sys2Proof/Safety.lean ====
section
/-! DEFINITION. What claims are stated in terms of: outcomes that go on, the shapes in which an instruction of a block
completes, departs or faults, integer operands and results, and the invariant of the containers. -/

namespace Sys2Proof.Machine

/-- The step goes on to a next state. -/
def goesOn (o : Host.Outcome State Fault Refusal) : Prop := ∃ t, o = .next t

/-- The memory is in its canonical form. -/
def State.MemOk (s : State) : Prop := Memory.wf s.mem = true

/-- Every byte of memory reads alike in two states. -/
def sameMemory (s t : State) : Prop := ∀ a : Nat, memByte t.mem a = memByte s.mem a

/-- The instance with the instruction at an index complete: its result token stands in the slots that its targets name, to be
used from a cycle on, and its flags are among the block's (R276, R278, R201, R370). -/
def Blk.completed (b : Blk) (now idx : Nat) (f : Form) (ready : Nat) (t : Tok) (fl : BitVec 5) : Blk :=
  Blk.deliver { b with flags := b.flags ||| fl, progress := now } idx f { t with ready := some ready }

/-- The instruction completes: the current instance holds its result, usable after the latency (one pass, two passes), and
nothing else of the machine changes. -/
def Completes (i : Instr) (f : Form) (l : Nat × Nat) (s : State) (b : Blk) (t : Tok) (fl : BitVec 5) : Prop :=
  exec i s = .next (s.setBlk (b.completed s.clock s.idx f (s.clock + if s.twoPass then l.2 else l.1) t fl))

/-- The instruction departs: it is done, its operands in the lanes where it acts are kept for the commit point (R242, R287),
and nothing else of the machine changes. -/
def Departs (i : Instr) (f : Form) (s : State) (b : Blk) : Prop :=
  exec i s = .next (s.setBlk (Blk.markDone
    { b with progress := s.clock,
             fired := b.fired ++ [{ idx := s.idx, ins := i, lanes := (b.opnd s.idx f).live, a := (b.opnd s.idx f).a.vals,
                                    b := (b.opnd s.idx f).b.vals, c := (b.opnd s.idx f).c.vals }] } s.idx))

/-- The instruction is done without a token, and nothing else of the machine changes. -/
def Finishes (i : Instr) (s : State) (b : Blk) : Prop :=
  exec i s = .next (s.setBlk (Blk.markDone { b with progress := s.clock } s.idx))

/-- The instruction raises an execution fault: code, subcode, LSID, lanes and addresses, at its own index (R243, R247). -/
def Faults (i : Instr) (s : State) (code sub lsid : Nat) (m : Mask) (va : Lanes) : Prop :=
  exec i s = .next (s.raise { code := code, sub := sub, idx := s.idx, lsid := lsid, lanes := m, va := va })

/-- Ext of R325: the low bits of a value that the type's width keeps, signed for i types, unsigned for n and b types. -/
def asInt (t : Ty) (x : W64) : Int :=
  if t.isI then (x.toNat : Int).bmod (2 ^ t.width) else ((x.toNat % 2 ^ t.width : Nat) : Int)

/-- Fit and Out of R325: an exact value clamped to the type's least and greatest values, or taken modulo 2^width, as 64 bits. -/
def fitted (sat : Bool) (t : Ty) (v : Int) : W64 :=
  BitVec.ofInt 64
    (if sat then
       (if t.isI then max (-(2 ^ (t.width - 1) : Int)) (min (2 ^ (t.width - 1) - 1) v) else max 0 (min (2 ^ t.width - 1) v))
     else if t.isI then v.bmod (2 ^ t.width) else v % (2 ^ t.width : Int))

/-- The packet in focus stands at a queue of this package, is not started, and the Owl serves the queue. -/
def State.Stands (s : State) : Prop :=
  ∃ a, s.entryOfPacket s.pkt = some a ∧ a.started = false ∧ s.pkt.queue ≤ 64 ∧ s.serves s.pkt.queue = true

/-- What a packet does: it is accepted, HEAD moving past it, a change takes place, and the next packet is looked at (R108, R112). -/
def PacketDoes (i : Instr) (s : State) (f : State → State) : Prop :=
  exec i s = .next ((f (s.acceptPacket s.pkt)).pump s.pkt.queue)

/-- A result in each lane by the VC code: its values, and null where the predicate does not hold or an operand is null (R280). -/
def laneResult (f : Form) (o : Opnd) (v : Nat → W64) : Tok := o.result f.vc o.nulls v

end Sys2Proof.Machine

namespace Sys2Proof

/-- Instructions that act on their block instance alone: they read registers of the gang and the machine, and leave a token, flags or a
mark of completion (R278, R287, R370). -/
def Instr.inBlock : Instr → Bool
  | .mov _ | .const _ | .nul _ | .sel _ | .lclk _ | .cyc _ | .stalls _ | .add _ | .sub _ | .mul _ | .mulhi _ | .mad _ | .div _ | .rem _
  | .adc _ | .sbc _ | .min _ | .max _ | .abs _ | .neg _ | .adr _ | .and _ | .or _ | .xor _ | .not _ | .shl _ | .shr _ | .sra _ | .rot _
  | .bfx _ | .bfi _ | .popc _ | .clz _ | .ctz _ | .brev _ | .kand _ | .kor _ | .kxor _ | .knot _ | .kpop _ | .kfst _ | .fadd _
  | .fsub _ | .fmul _ | .fma _ | .fdiv _ | .fsqrt _ | .frcp _ | .frsqrt _ | .fmin _ | .fmax _ | .fabs _ | .fneg _ | .fclass _ | .frnd _
  | .fldx _ | .ffrx _ | .fexp _ | .fexp2 _ | .flog _ | .flog2 _ | .fsin _ | .fcos _ | .ftanh _ | .flgst _ | .ferf _ | .fatan2 _
  | .fpow _ | .pfma _ | .padd _ | .pmul _ | .pmax _ | .pdot _ | .waitc _ | .lid _ _ | .prov _ _ | .cvt _ _ | .cmp _ _ | .vote _ _
  | .shfl _ _ | .redux _ _ | .fcmp _ _ | .fcvt _ _ | .fcvti _ _ | .icvtf _ _ | .br _ _ | .bl _ _ | .waitr _ _
  | .scan _ _ _ | .pcvt _ _ _ | .wait _ _ _ _ _ | .wr _ _ | .yield _ | .brk _ | .trc _ | .trap _ _ => true
  | .fence f l => !((Instr.fence f l).releasesLsid && decide (2 ≤ f.sc.toNat))
  | _ => false

/-- Instructions that release at issue (07 R210, R211): the core's earlier stores are written before them. -/
def Instr.releasesNow : Instr → Bool
  | .fence f l => (Instr.fence f l).releasesLsid && decide (2 ≤ f.sc.toNat)
  | .semRel f _ _ | .barArr f _ | .barAw f _ | .barDrop f _ => decide (2 ≤ f.sc.toNat)
  | .dsync _ => true
  | _ => false

/-- Instructions whose issue may translate an address: accesses, prefetches, requests and the device heap. -/
def Instr.translates : Instr → Bool
  | .ld _ _ | .ldp _ _ | .st _ _ | .atom _ _ | .cas _ _ | .red _ _ | .pref _ _ | .halloc _ _ | .hfree _ _ | .chunk _ | .qsend _
  | .qtake _ => true
  | _ => false

end Sys2Proof
end

