-- ==== Sys2Proof/Certificates/Slice0/Obligations.lean ====
section
/-! DEFINITION. The statements about the model, from the spec's numbered rules. A clause that rests on a reading or a value that the
model chose names its log entry (notes/assumptions). -/

open Sys2Proof Sys2Proof.Machine

/-! ### Integer, lane and mask instructions (spec/12) -/

/-- Integer arithmetic: each lane's result is the exact value of the operands read by Ext, fitted to the type (R325, R352 to R354),
and the instruction completes for every form.

Carries and addresses (R354, R358, R359): `adc` and `sbc` take a carry from bit l of the mask in slot c and give the wrapped
sum or, for VC 10, the carry or borrow on the unsigned patterns; `adr` gives the full 64 bits; `cvt` reads by the source type. -/
def Obligations.IntegerArithmetic : Prop :=
  (∀ (f : Form) (s : State) (b : Blk), s.blk? = some b →
     let o := b.opnd s.idx f
     let A := fun (l : Nat) => asInt f.ty (lane o.a.vals l)
     let B := fun (l : Nat) => asInt f.ty (lane o.b.vals l)
     let C := fun (l : Nat) => asInt f.ty (lane o.c.vals l)
     let w : Int := 2 ^ f.ty.width
     let least : Int := if f.ty.isI then -(2 ^ (f.ty.width - 1)) else 0
     let least1 := fun (l : Nat) => f.ty.isI = true ∧ A l = least ∧ B l = -1
     let res := fun (v : Nat → Int) => laneResult f o fun l => fitted (f.rm == 5) f.ty (v l)
     Completes (.add f) f (2, 3) s b (res fun l => A l + B l) 0 ∧
     Completes (.sub f) f (2, 3) s b (res fun l => A l - B l) 0 ∧
     Completes (.mul f) f (4, 5) s b (res fun l => A l * B l) 0 ∧
     Completes (.mulhi f) f (4, 5) s b (res fun l => A l * B l / w) 0 ∧
     Completes (.mad f) f (4, 5) s b (res fun l => A l * B l + C l) 0 ∧
     Completes (.div f) f (20, 21) s b
       (res fun l => if B l = 0 then 0 else if least1 l then least else (A l).tdiv (B l)) 0 ∧
     Completes (.rem f) f (20, 21) s b
       (res fun l => if B l = 0 then A l else if least1 l then 0 else A l - B l * (A l).tdiv (B l)) 0 ∧
     Completes (.min f) f (2, 3) s b (res fun l => if A l ≤ B l then A l else B l) 0 ∧
     Completes (.max f) f (2, 3) s b (res fun l => if A l ≤ B l then B l else A l) 0 ∧
     Completes (.abs f) f (2, 3) s b (res fun l => if A l < 0 then -(A l) else A l) 0 ∧
     Completes (.neg f) f (2, 3) s b (res fun l => -(A l)) 0) ∧
  (∀ (f : Form) (src : Ty) (s : State) (b : Blk), s.blk? = some b →
     let o := b.opnd s.idx f
     let A := fun (l : Nat) => asInt f.ty (lane o.a.vals l)
     let B := fun (l : Nat) => asInt f.ty (lane o.b.vals l)
     let k := fun (l : Nat) => if o.c.mask.getLsbD l then 1 else 0
     let P := fun (l : Nat) => (lane o.a.vals l).toNat % 2 ^ f.ty.width
     let Q := fun (l : Nat) => (lane o.b.vals l).toNat % 2 ^ f.ty.width
     let one := fun (c : Prop) [Decidable c] => if c then (1 : W64) else 0
     Completes (.adc f) f (2, 3) s b (laneResult f o fun l =>
       if f.vc = .mask then one (2 ^ f.ty.width ≤ P l + Q l + k l) else fitted false f.ty (A l + B l + (k l : Nat))) 0 ∧
     Completes (.sbc f) f (2, 3) s b (laneResult f o fun l =>
       if f.vc = .mask then one (P l < Q l + k l) else fitted false f.ty (A l - B l - (k l : Nat))) 0 ∧
     Completes (.adr f) f (2, 3) s b (laneResult f o fun l =>
       lane o.a.vals l + BitVec.ofInt 64 (B l) * BitVec.ofNat 64 (2 ^ ((lane o.c.vals l).toNat % 64))) 0 ∧
     Completes (.cvt f src) f (2, 3) s b (laneResult f o fun l =>
       fitted (f.rm == 5) f.ty (asInt src (lane o.a.vals l))) 0)

/-- Logic and shifts act on the w-bit patterns, and the pattern is read back by the type (R352, R355).

Bit fields and counts (R356, R357): the field's position and length, the bits taken or replaced, and the counts. -/
def Obligations.LogicShiftsAndBitFields : Prop :=
  (∀ (f : Form) (s : State) (b : Blk), s.blk? = some b →
     let o := b.opnd s.idx f
     let w := f.ty.width
     let P := fun (l : Nat) => (lane o.a.vals l).toNat % 2 ^ w
     let n := fun (l : Nat) => (lane o.b.vals l).toNat % w
     let back := fun (v : Nat → W64) => laneResult f o fun l => BitVec.ofInt 64 (asInt f.ty (v l))
     Completes (.and f) f (2, 3) s b (back fun l => lane o.a.vals l &&& lane o.b.vals l) 0 ∧
     Completes (.or f) f (2, 3) s b (back fun l => lane o.a.vals l ||| lane o.b.vals l) 0 ∧
     Completes (.xor f) f (2, 3) s b (back fun l => lane o.a.vals l ^^^ lane o.b.vals l) 0 ∧
     Completes (.not f) f (2, 3) s b (back fun l => ~~~(lane o.a.vals l)) 0 ∧
     Completes (.shl f) f (2, 3) s b (back fun l => lane o.a.vals l <<< n l) 0 ∧
     Completes (.shr f) f (2, 3) s b (back fun l => BitVec.ofNat 64 (P l / 2 ^ n l)) 0 ∧
     Completes (.sra f) f (2, 3) s b (back fun l => BitVec.ofInt 64 ((P l : Int).bmod (2 ^ w) / 2 ^ n l)) 0 ∧
     Completes (.rot f) f (2, 3) s b (back fun l =>
       (((lane o.a.vals l).setWidth w).rotateLeft (n l)).setWidth 64) 0) ∧
  (∀ (f : Form) (s : State) (b : Blk), s.blk? = some b →
     let o := b.opnd s.idx f
     let w := f.ty.width
     let P := fun (l : Nat) => (lane o.a.vals l).toNat % 2 ^ w
     let pos := fun (l : Nat) => (lane o.b.vals l).toNat % 256
     let len := fun (l : Nat) => min ((lane o.b.vals l).toNat / 256 % 256) (w - pos l)
     let back := fun (v : Nat → W64) => laneResult f o fun l => BitVec.ofInt 64 (asInt f.ty (v l))
     Completes (.bfx f) f (2, 3) s b (back fun l =>
       if len l = 0 then 0
       else
         let x := P l / 2 ^ pos l % 2 ^ len l
         if f.ty.isI then BitVec.ofInt 64 ((x : Int).bmod (2 ^ len l)) else BitVec.ofNat 64 x) 0 ∧
     Completes (.bfi f) f (2, 3) s b (back fun l =>
       if len l = 0 then lane o.a.vals l
       else BitVec.ofNat 64 (P l % 2 ^ pos l + (lane o.c.vals l).toNat % 2 ^ len l * 2 ^ pos l +
         P l / 2 ^ (pos l + len l) * 2 ^ (pos l + len l))) 0 ∧
     Completes (.popc f) f (2, 3) s b (back fun l =>
       BitVec.ofNat 64 ((List.range w).countP fun i => (lane o.a.vals l).getLsbD i)) 0 ∧
     Completes (.clz f) f (2, 3) s b (back fun l =>
       BitVec.ofNat 64 (if P l = 0 then w else w - 1 - Nat.log2 (P l))) 0 ∧
     Completes (.ctz f) f (2, 3) s b (back fun l =>
       BitVec.ofNat 64 (((List.range w).find? fun i => (lane o.a.vals l).getLsbD i).getD w)) 0 ∧
     Completes (.brev f) f (2, 3) s b (back fun l => (((lane o.a.vals l).setWidth w).reverse).setWidth 64) 0)

/-- Comparison, votes and shuffles (R347, R348): what each lane or the gang gets, from the lanes that contribute (R326). -/
def Obligations.CompareVoteShuffle : Prop :=
  ∀ (f : Form) (r : CmpRel) (s : State) (b : Blk), s.blk? = some b →
    let o := b.opnd s.idx f
    let A := fun (l : Nat) => asInt f.ty (lane o.a.vals l)
    let B := fun (l : Nat) => asInt f.ty (lane o.b.vals l)
    let holds := fun (l : Nat) => match r with
      | .eq => decide (A l = B l) | .ne => decide (A l ≠ B l) | .lt => decide (A l < B l)
      | .le => decide (A l ≤ B l) | .gt => decide (A l > B l) | .ge => decide (A l ≥ B l)
    let one := fun (c : Prop) [Decidable c] => if c then (1 : W64) else 0
    let con := fun (l : Nat) => o.act.getLsbD l && o.pred.getLsbD l && !o.a.nulls.getLsbD l
    let ls := (List.range 32).filter con
    let none_ := if ls = [] then allLanes else ~~~o.pred
    let src := fun (k : ShflKind) (l : Nat) =>
      let x := (lane o.b.vals l).toNat
      let n : Int := match k with | .idx => x | .up => l - x | .down => l + x | .xor => (l ^^^ (x % 32) : Nat)
      if 0 ≤ n ∧ n ≤ 31 ∧ con n.toNat = true then some n.toNat else none
    Completes (.cmp f r) f (2, 3) s b (laneResult f o fun l => one (holds l = true)) 0 ∧
    Completes (.vote f .all) f (4, 6) s b (o.result f.vc none_ fun _ => one (∀ l ∈ ls, lane o.a.vals l ≠ 0)) 0 ∧
    Completes (.vote f .any) f (4, 6) s b (o.result f.vc none_ fun _ => one (∃ l ∈ ls, lane o.a.vals l ≠ 0)) 0 ∧
    Completes (.vote f .eq) f (4, 6) s b (o.result f.vc none_ fun _ =>
      one (∀ l ∈ ls, ∀ m ∈ ls, lane o.a.vals l = lane o.a.vals m)) 0 ∧
    Completes (.vote f .ballot) f (4, 6) s b (tokOf .mask (splat ((maskOf fun l => con l && lane o.a.vals l != 0).setWidth 64))
      (~~~o.pred ||| o.a.nulls)) 0 ∧
    ∀ k : ShflKind, Completes (.shfl f k) f (4, 6) s b (o.result .lane
      (maskOf fun l => !o.pred.getLsbD l || o.b.nulls.getLsbD l || ((src k l).isNone && o.c.nulls.getLsbD l))
      fun l => match src k l with | some n => lane o.a.vals n | none => lane o.c.vals l) 0

/-- Masks (R351): the operations act on all 32 bits; the counts are null only by predicate or when slot a is null in every active
lane. -/
def Obligations.MaskInstructions : Prop :=
  ∀ (f : Form) (s : State) (b : Blk), s.blk? = some b →
    let o := b.opnd s.idx f
    let bits_ := fun (m : Mask) => tokOf .mask (splat (m.setWidth 64)) o.nulls
    let nul := if o.act &&& ~~~o.a.nulls = 0 then allLanes else ~~~o.pred
    Completes (.kand f) f (2, 3) s b (bits_ (o.a.mask &&& o.b.mask)) 0 ∧
    Completes (.kor f) f (2, 3) s b (bits_ (o.a.mask ||| o.b.mask)) 0 ∧
    Completes (.kxor f) f (2, 3) s b (bits_ (o.a.mask ^^^ o.b.mask)) 0 ∧
    Completes (.knot f) f (2, 3) s b (bits_ (~~~o.a.mask)) 0 ∧
    Completes (.kpop f) f (2, 3) s b (o.result f.vc nul fun _ =>
      BitVec.ofNat 64 ((List.range 32).countP fun i => o.a.mask.getLsbD i)) 0 ∧
    Completes (.kfst f) f (2, 3) s b (o.result f.vc nul fun _ =>
      BitVec.ofNat 64 (((List.range 32).find? fun i => o.a.mask.getLsbD i).getD 32)) 0

/-- The fixed tree of `redux` and the prefixes of `scan` (R349, R350): the block of 2^(m+1) lanes joins its two halves, lanes that
do not contribute enter as the identity; a prefix of a power of two lanes is one block, an empty one the identity; integer types
raise no flag. -/
def Obligations.ReductionsAndScans : Prop :=
  ∀ (f : Form) (op : RedOp) (excl : Bool) (s : State) (b : Blk), s.blk? = some b →
    let o := b.opnd s.idx f
    let node := redNode op f.ty (s.env.rndNo f 0)
    let entry := redEntry o op f.ty
    let block := redBlock node entry
    let nul := if o.contributes = 0 then allLanes else ~~~o.pred
    let pre := fun (l : Nat) => scanPrefix node entry (redIdentity op f.ty) (if excl then l else l + 1)
    (∀ l, entry l = if o.contributes.getLsbD l then (lane o.a.vals l).toNat % 2 ^ f.ty.width else redIdentity op f.ty) ∧
    (∀ l, block 0 l = (entry l, 0)) ∧
    (∀ m l, (block (m + 1) l).1 = (node (block m l).1 (block m (l + 2 ^ m)).1).1) ∧
    (f.ty.isFloat = false → ∀ m l, (block m l).2 = 0) ∧
    Completes (.redux f op) f (10, 12) s b (o.result f.vc nul fun _ => outPat f.ty (block 5 0).1)
      (if o.contributes = 0 then 0 else (block 5 0).2) ∧
    Completes (.scan f op excl) f (10, 12) s b (o.result .lane (~~~o.pred) fun l => outPat f.ty (pre l).1)
      ((lanesOf (o.act &&& o.pred)).foldl (fun a l => a ||| (pre l).2) 0) ∧
    scanPrefix node entry (redIdentity op f.ty) 0 = (redIdentity op f.ty, 0) ∧
    (∀ m, m ≤ 5 → scanPrefix node entry (redIdentity op f.ty) (2 ^ m) = block m 0) ∧
    (scanPrefix node entry (redIdentity op f.ty) 3).1 = (node (block 1 0).1 (block 0 2).1).1

/-! ### Floating point (spec/13) -/

/-- Scalar arithmetic (R374, R375): in each lane the operands are read by FIn, the operation is exact, and the result is rounded once
by RoundTo; every lane that is active and not null collects its flags, a uniform instruction once (R370). Each value is also said without the
model's operations: sums and products of numbers as integers over one common unit, with the sign of a zero sum; quotients and roots by the whole
numbers that bracket them; NaN and its flag. -/
def Obligations.FloatArithmetic : Prop :=
  ∀ (f : Form) (s : State) (b : Blk), s.blk? = some b →
    let o := b.opnd s.idx f
    let A := fun (l : Nat) => fIn f.ty (lane o.a.vals l).toNat
    let B := fun (l : Nat) => fIn f.ty (lane o.b.vals l).toNat
    let C := fun (l : Nat) => fIn f.ty (lane o.c.vals l).toNat
    let rn := fun (l : Nat) => s.env.rnd f.rm (decide (f.ty.width ≤ 16)) l 0
    let long : Nat × Nat := if f.ty = .f64 then (24, 25) else (16, 17)
    let flags := fun (v : Nat → FRes) =>
      if f.vc = .uni then (if o.live = 0 then 0 else (v 0).2) else (lanesOf o.live).foldl (fun a l => a ||| (v l).2) 0
    let done := fun (i : Instr) (lat : Nat × Nat) (v : Nat → FRes) =>
      Completes i f lat s b (laneResult f o fun l => BitVec.ofNat 64 (v l).1) (flags v)
    let T := f.ty
    let add := fun (l : Nat) => finish T (rn l) (fAdd (rn l).mode (A l) (B l))
    let sub := fun (l : Nat) => finish T (rn l) (fAdd (rn l).mode (A l) (B l).flip)
    let mul := fun (l : Nat) => finish T (rn l) (fMul (A l) (B l))
    let fma := fun (l : Nat) => finish T (rn l) (fMulAdd (rn l).mode (A l) (B l) (C l))
    let div := fun (l : Nat) => fDiv T (rn l) (A l) (B l)
    let rcp := fun (l : Nat) => fDiv T (rn l) (.num false 1 0) (A l)
    let root := fun (l : Nat) => fSqrt T (rn l) (A l)
    let rroot := fun (l : Nat) => fRsqrt T (rn l) (A l)
    -- ± m × 2^e as a multiple of 2^q, and what such a multiple z gives, with the sign of a zero
    let at_ := fun (q : Int) (n : Bool) (m : Nat) (e : Int) => (if n then -1 else 1) * (m : Int) * 2 ^ (e - q).toNat
    let gives := fun (l : Nat) (q z : Int) (zero : Bool) =>
      if z = 0 then (T.signBit zero, 0) else roundTo T (rn l) (decide (z < 0)) z.natAbs q false
    let down := fun (l : Nat) => (rn l).mode == 2
    done (.fadd f) (4, 5) add ∧ done (.fsub f) (4, 5) sub ∧ done (.fmul f) (4, 5) mul ∧ done (.fma f) (4, 5) fma ∧
    done (.fdiv f) long div ∧ done (.frcp f) long rcp ∧ done (.fsqrt f) long root ∧ done (.frsqrt f) long rroot ∧
    (∀ l n m e n' m' e', A l = .num n m e → B l = .num n' m' e' →
      (∀ q, q ≤ e → q ≤ e' →
        add l = gives l q (at_ q n m e + at_ q n' m' e') (if m = 0 ∧ m' = 0 ∧ n = n' then n else down l) ∧
        sub l = gives l q (at_ q n m e - at_ q n' m' e') (if m = 0 ∧ m' = 0 ∧ n ≠ n' then n else down l)) ∧
      (∀ q, q ≤ e + e' → mul l = gives l q (at_ q (n != n') (m * m') (e + e')) (n != n') ∧
        ∀ n'' m'' e'', C l = .num n'' m'' e'' → q ≤ e'' →
          fma l = gives l q (at_ q (n != n') (m * m') (e + e') + at_ q n'' m'' e'')
            (if m * m' = 0 ∧ m'' = 0 ∧ (n != n') = n'' then n'' else down l)) ∧
      (0 < m → 0 < m' →
        (m' ∣ m → div l = roundTo T (rn l) (n != n') (m / m') (e - e') false) ∧
        (let k := 130 + bitLen m'
         ∀ c r, r < m' → m * 2 ^ k = c * m' + r → div l = roundTo T (rn l) (n != n') c (e - e' - k) (decide (r ≠ 0))))) ∧
    (∀ l n m e, A l = .num n m e → 0 < m →
      (m = 1 → rcp l = roundTo T (rn l) n 1 (-e) false) ∧
      (let k := 130 + bitLen m
       ∀ c r, r < m → 2 ^ k = c * m + r → rcp l = roundTo T (rn l) n c (-e - k) (decide (r ≠ 0))) ∧
      (n = false →
        (∀ r, r * r = m → e % 2 = 0 → root l = roundTo T (rn l) false r (e / 2) false) ∧
        (let k : Nat := if e % 2 = 0 then 260 else 261
         ∀ r, r * r ≤ m * 2 ^ k → m * 2 ^ k < (r + 1) * (r + 1) →
           root l = roundTo T (rn l) false r ((e - k) / 2) (decide (r * r ≠ m * 2 ^ k))) ∧
        (let m1 := if e % 2 = 0 then m else 2 * m
         let k := 200 + bitLen m1
         ∀ r, r * r * m1 ≤ 2 ^ (2 * k) → 2 ^ (2 * k) < (r + 1) * (r + 1) * m1 →
           rroot l = roundTo T (rn l) false r (-k - e / 2) (decide (r * r * m1 ≠ 2 ^ (2 * k)))))) ∧
    (∀ l, (A l).isNan = true ∨ (B l).isNan = true →
      let none : FRes := (T.nan, if A l = .nan true ∨ B l = .nan true then fNV else 0)
      add l = none ∧ sub l = none ∧ mul l = none ∧ div l = none)

/-- The exact operations and the special cases (R374, R375): infinities, invalid operations, zeros by sign, division by zero, and
roots of negative numbers. -/
def Obligations.FloatSpecialCases : Prop :=
  ∀ (t : Ty) (rn : Rnd) (n n' : Bool) (m m' : Nat) (e e' : Int), 0 < m → 0 < m' →
    let zero := fun (x : Bool) => FVal.num x 0 e
    let one := FVal.num n m e
    let two := FVal.num n' m' e'
    -- sums
    fAdd rn.mode (.inf n) (.inf n) = (.inf n, 0) ∧ fAdd rn.mode (.inf n) (.inf (!n)) = (.nan false, fNV) ∧
    fAdd rn.mode (.inf n) two = (.inf n, 0) ∧ fAdd rn.mode two (.inf n) = (.inf n, 0) ∧
    (fAdd rn.mode (zero n) (zero n)).1 = .num n 0 e ∧
    (fAdd rn.mode (zero n) (zero (!n))).1 = .num (rn.mode == 2) 0 e ∧
    (fAdd rn.mode one one.flip).1 = .num (rn.mode == 2) 0 e ∧
    -- products
    fMul one two = (.num (n != n') (m * m') (e + e'), 0) ∧ fMul (.inf n) two = (.inf (n != n'), 0) ∧
    fMul (.inf n) (zero n') = (.nan false, fNV) ∧ fMul (zero n) (.inf n') = (.nan false, fNV) ∧
    -- a product of zero and infinity is invalid even beside a quiet NaN
    fMulAdd rn.mode (.inf n) (zero n') (.nan false) = (.nan false, fNV) ∧
    -- quotients and roots
    fDiv t rn (zero n) (zero n') = (t.nan, fNV) ∧ fDiv t rn (.inf n) (.inf n') = (t.nan, fNV) ∧
    (t.hasInf = true → fDiv t rn one (zero n') = (t.infEnc (n != n'), fDZ)) ∧
    fDiv t rn (.num false 1 0) (.inf n') = (t.signBit (false != n'), 0) ∧
    fSqrt t rn (zero n) = (t.signBit n, 0) ∧ fSqrt t rn (.num true m e) = (t.nan, fNV) ∧ fSqrt t rn (.inf true) = (t.nan, fNV) ∧
    fRsqrt t rn (.num true m e) = (t.nan, fNV) ∧ fRsqrt t rn (.inf true) = (t.nan, fNV) ∧ fRsqrt t rn (.inf false) = (0, 0) ∧
    (t.hasInf = true → fRsqrt t rn (zero n) = (t.infEnc n, fDZ)) ∧
    -- a signalling NaN raises NV, a quiet one nothing; the result is the canonical NaN
    finish t rn (fAdd rn.mode (.nan true) two) = (t.nan, fNV) ∧ finish t rn (fAdd rn.mode (.nan false) two) = (t.nan, 0) ∧
    finish t rn (fMul one (.nan true)) = (t.nan, fNV) ∧ fSqrt t rn (.nan true) = (t.nan, fNV)

/-- Rounding of a magnitude m × 2^e to a multiple c × 2^q of a coarser unit (R365): toward zero, down and up as the sign directs, to
the nearest with ties to even or away, and an exact value unchanged under every mode.

A finite value of a scalar format is returned unchanged by RoundTo, with no flag, under every mode (R365). -/
def Obligations.RoundToInteger : Prop :=
  (∀ (neg : Bool) (m k r : Nat) (e : Int),
     let cut := fun (mode : Nat) => (cutAt ⟨mode, r⟩ neg m e false (e + (k : Int))).1
     let away := fun (mode : Nat) => m ≤ cut mode * 2 ^ k ∧ cut mode * 2 ^ k < m + 2 ^ k
     let toward := fun (mode : Nat) => cut mode * 2 ^ k ≤ m ∧ m < cut mode * 2 ^ k + 2 ^ k
     let near := fun (mode : Nat) => 2 * (cut mode * 2 ^ k) ≤ 2 * m + 2 ^ k ∧ 2 * m ≤ 2 * (cut mode * 2 ^ k) + 2 ^ k
     toward 1 ∧
     (if neg then away 2 else toward 2) ∧ (if neg then toward 3 else away 3) ∧
     near 0 ∧ (0 < k → 2 * (cut 0 * 2 ^ k) = 2 * m + 2 ^ k ∨ 2 * m = 2 * (cut 0 * 2 ^ k) + 2 ^ k → cut 0 % 2 = 0) ∧
     near 4 ∧ (0 < k → 2 * m ≠ 2 * (cut 4 * 2 ^ k) + 2 ^ k) ∧
     cut 5 = cut 0 ∧
     (toward 6 ∨ away 6) ∧
     (2 ^ k ∣ m → ∀ mode, mode ≤ 6 → cut mode * 2 ^ k = m ∧ (cutAt ⟨mode, r⟩ neg m e false (e + (k : Int))).2 = false)) ∧
  (∀ (t : Ty) (rn : Rnd) (x : Nat) (n : Bool) (m : Nat) (e : Int),
     t.isFloat = true → x < 2 ^ t.width → fIn t x = .num n m e → roundTo t rn n m e false = (x, 0))

/-- Minimum, maximum, sign operations, comparison and classes (R376 to R378).

What minimum and maximum choose (R376): a number beside a NaN, the canonical NaN for two, −0 below +0, and the bits of an
operand otherwise; the order of two values, in which −0 and +0 are equal, by their exact values; and the ten classes (R377, R378). -/
def Obligations.FloatCompareAndMinMax : Prop :=
  (∀ (f : Form) (r : FCmpRel) (s : State) (b : Blk), s.blk? = some b →
     let o := b.opnd s.idx f
     let p := fun (l : Nat) => (lane o.a.vals l).toNat % 2 ^ f.ty.width
     let A := fun (l : Nat) => fIn f.ty (lane o.a.vals l).toNat
     let B := fun (l : Nat) => fIn f.ty (lane o.b.vals l).toNat
     let un := fun (l : Nat) => (A l).isNan || (B l).isNan
     let sig := fun (l : Nat) => A l = .nan true ∨ B l = .nan true
     let flags := fun (v : Nat → FRes) =>
       if f.vc = .uni then (if o.live = 0 then 0 else (v 0).2) else (lanesOf o.live).foldl (fun a l => a ||| (v l).2) 0
     let done := fun (i : Instr) (v : Nat → FRes) =>
       Completes i f (4, 5) s b (laneResult f o fun l => BitVec.ofNat 64 (v l).1) (flags v)
     done (.fmin f) (fun l => fpMinMax f.ty false (lane o.a.vals l).toNat (lane o.b.vals l).toNat) ∧
     done (.fmax f) (fun l => fpMinMax f.ty true (lane o.a.vals l).toNat (lane o.b.vals l).toNat) ∧
     done (.fabs f) (fun l => (p l % 2 ^ (f.ty.width - 1), 0)) ∧
     done (.fneg f) (fun l => (p l ^^^ 2 ^ (f.ty.width - 1), 0)) ∧
     done (.fclass f) (fun l => (2 ^ classBit f.ty (A l), 0)) ∧
     done (.fcmp f r) (fun l =>
       let c := fOrder (A l) (B l)
       let holds := match r with
         | .eq => !un l && c == 0 | .ne => un l || c != 0 | .lt => !un l && decide (c < 0) | .le => !un l && decide (c ≤ 0)
         | .gt => !un l && decide (c > 0) | .ge => !un l && decide (c ≥ 0) | .un => un l | .nn => !un l
       let loud := match r with | .lt | .le | .gt | .ge => un l | _ => false
       (if holds then 1 else 0, if loud = true ∨ sig l then fNV else 0))) ∧
  (∀ (t : Ty) (mx : Bool) (x y : Nat), (t = .f16 ∨ t = .bf16 ∨ t = .f32 ∨ t = .f64) → x < 2 ^ t.width → y < 2 ^ t.width →
     let a := fIn t x
     let b := fIn t y
     let r := fpMinMax t mx x y
     (a.isNan = true → b.isNan = true → r.1 = t.nan) ∧
     (a.isNan = true → b.isNan = false → r.1 = y) ∧ (a.isNan = false → b.isNan = true → r.1 = x) ∧
     (a.isNan = false → b.isNan = false → (r.1 = x ∨ r.1 = y) ∧
       (fOrder a b < 0 → r.1 = if mx then y else x) ∧ (0 < fOrder a b → r.1 = if mx then x else y)) ∧
     (fpMinMax t mx (t.signBit true) 0).1 = (if mx then 0 else t.signBit true) ∧
     (fpMinMax t mx 0 (t.signBit true)).1 = (if mx then 0 else t.signBit true) ∧
     (∀ (n n' : Bool) (m m' : Nat) (e e' q : Int), q ≤ e → q ≤ e' →
       let u : Int := (if n then -1 else 1) * (m : Int) * 2 ^ (e - q).toNat
       let v : Int := (if n' then -1 else 1) * (m' : Int) * 2 ^ (e' - q).toNat
       fOrder (.num n m e) (.num n' m' e') = (if u < v then -1 else if v < u then 1 else 0) ∧
       fOrder (.inf n) (.num n' m' e') = (if n then -1 else 1) ∧ fOrder (.num n m e) (.inf n') = (if n' then 1 else -1) ∧
       fOrder (.inf n) (.inf n') = (if n = n' then 0 else if n then -1 else 1)) ∧
     (∀ (n : Bool) (m : Nat) (e : Int), classBit t (.inf true) = 0 ∧ classBit t (.inf false) = 7 ∧ classBit t (.nan true) = 8 ∧
       classBit t (.nan false) = 9 ∧ classBit t (.num true 0 e) = 3 ∧ classBit t (.num false 0 e) = 4 ∧
       (0 < m → classBit t (.num n m e) = if topBit m e < 1 - (t.bias : Int) then (if n then 2 else 5) else (if n then 1 else 6))) ∧
     (r.2 = if a = .nan true ∨ b = .nan true then fNV else 0))

/-- Conversions (R379 to R383): each lane's value and flags; `ffrx` delivers a pair.

`ffrx` (R383): a finite non-zero value is f × 2^e with the fraction's magnitude from one half up to one. -/
def Obligations.FloatConversions : Prop :=
  (∀ (f : Form) (src : Ty) (s : State) (b : Blk), s.blk? = some b →
     let o := b.opnd s.idx f
     let T := f.ty
     let x := fun (l : Nat) => (lane o.a.vals l).toNat
     let rn := fun (l : Nat) => s.env.rnd f.rm (decide (T.width ≤ 16)) l 0
     let mode := fun (l : Nat) => (s.env.rnd f.rm false l 0).mode
     let flags := fun (v : Nat → FRes) =>
       if f.vc = .uni then (if o.live = 0 then 0 else (v 0).2) else (lanesOf o.live).foldl (fun a l => a ||| (v l).2) 0
     let done := fun (i : Instr) (v : Nat → FRes) =>
       Completes i f (4, 5) s b (laneResult f o fun l => BitVec.ofNat 64 (v l).1) (flags v)
     let least : Int := if T.isI then -(2 ^ (T.width - 1)) else 0
     let most : Int := if T.isI then 2 ^ (T.width - 1) - 1 else 2 ^ T.width - 1
     let word := fun (z : Int) => (BitVec.ofInt 64 z).toNat
     let quiet := fun (v : FVal) => if v = .nan true then fNV else 0
     done (.fcvt f src) (fun l => fpConvert T (rn l) (fIn src (x l))) ∧
     done (.icvtf f src) (fun l =>
       let z := asInt src (lane o.a.vals l)
       roundTo T (rn l) (decide (z < 0)) z.natAbs 0 false) ∧
     done (.fcvti f src) (fun l => match fIn src (x l) with
       | .nan _ => (0, fNV)
       | .inf n => (word (if n then least else most), fNV)
       | .num n m e =>
         let r := roundInt (mode l) n m e
         let z : Int := if n then -(r.1 : Int) else r.1
         if most < z then (word most, fNV) else if z < least then (word least, fNV) else (word z, if r.2 then fNX else 0)) ∧
     done (.frnd f) (fun l => match fIn T (x l) with
       | .num n m e =>
         if 0 ≤ e then (x l % 2 ^ T.width, 0) else ((roundTo T ⟨0, 0⟩ n (roundInt (mode l) n m e).1 0 false).1, 0)
       | v => finish T ⟨0, 0⟩ (v, quiet v)) ∧
     done (.fldx f) (fun l => match fIn T (x l) with
       | .num n m e => roundTo T (rn l) n m (e + max (-20000) (min 20000 (lane o.b.vals l).toInt)) false
       | v => finish T (rn l) (v, quiet v)) ∧
     (let fr := fun (l : Nat) => frx T (x l)
      exec (.ffrx f) s = .next (s.setBlk
        (Blk.deliverPair { b with flags := b.flags ||| flags (fun l => (fr l).1), progress := s.clock } s.idx f
          { laneResult f o (fun l => BitVec.ofNat 64 (fr l).1.1) with ready := some (s.clock + if s.twoPass then 5 else 4) }
          { laneResult f o (fun l => BitVec.ofInt 64 (fr l).2) with ready := some (s.clock + if s.twoPass then 5 else 4) })))) ∧
  (∀ (t : Ty) (x : Nat) (n : Bool) (m : Nat) (e : Int),
     (t = .f16 ∨ t = .bf16 ∨ t = .f32 ∨ t = .f64) → x < 2 ^ t.width → fIn t x = .num n m e → m ≠ 0 →
     ∃ (m' : Nat) (e' : Int), fIn t (frx t x).1.1 = .num n m' e' ∧ (frx t x).1.2 = 0 ∧ topBit m' e' = -1 ∧
       topBit m e = (frx t x).2 - 1)

/-- The functions (R384, R385): each lane's value is the function's, rounded once; under fixed timing the result is usable after 64
cycles (65 in two passes), under elastic timing after a time from 14 to 64 that the spec leaves open (notes/assumptions/4.md). The values that
R384 and IEEE 754-2019 give at zeros, infinities, ones, integers, NaNs and outside the domains are also said without the model's functions. -/
def Obligations.FloatFunctions : Prop :=
  ∀ (f : Form) (s : State) (b : Blk), s.blk? = some b →
    let o := b.opnd s.idx f
    let A := fun (l : Nat) => fIn f.ty (lane o.a.vals l).toNat
    let B := fun (l : Nat) => fIn f.ty (lane o.b.vals l).toNat
    let rn := fun (l : Nat) => s.env.rnd f.rm false l 0
    let flags := fun (v : Nat → FRes) =>
      if f.vc = .uni then (if o.live = 0 then 0 else (v 0).2) else (lanesOf o.live).foldl (fun a l => a ||| (v l).2) 0
    let done := fun (i : Instr) (v : Nat → FRes) =>
      if s.fixedTiming = true then
        Completes i f (64, 65) s b (laneResult f o fun l => BitVec.ofNat 64 (v l).1) (flags v)
      else ∃ n, 14 ≤ n ∧ n ≤ 64 ∧ exec i s = .next (({ s with free := s.free + 1 } : State).setBlk
        (b.completed s.clock s.idx f (s.clock + if s.twoPass then n + 1 else n) (laneResult f o fun l => BitVec.ofNat 64 (v l).1) (flags v)))
    let T := f.ty
    let exp := fun (l : Nat) => fpExp T (rn l) (A l)
    let exp2 := fun (l : Nat) => fpExp2 T (rn l) (A l)
    let log := fun (l : Nat) => fpLog false T (rn l) (A l)
    let log2 := fun (l : Nat) => fpLog true T (rn l) (A l)
    let sin := fun (l : Nat) => fpTrig false T (rn l) (A l)
    let cos := fun (l : Nat) => fpTrig true T (rn l) (A l)
    let tanh := fun (l : Nat) => fpTanh T (rn l) (A l)
    let lgst := fun (l : Nat) => fpLogistic T (rn l) (A l)
    let erf := fun (l : Nat) => fpErf T (rn l) (A l)
    let atan2 := fun (l : Nat) => fpAtan2 T (rn l) (A l) (B l)
    let pow := fun (l : Nat) => fpPow T (rn l) (A l) (B l)
    -- the encodings of 1, one half and the infinities
    let one : FRes := (T.bias * 2 ^ T.frac, 0)
    let half : FRes := ((T.bias - 1) * 2 ^ T.frac, 0)
    let sign := fun (n : Bool) => if n then 2 ^ (T.width - 1) else 0
    let inf := fun (n : Bool) => sign n + T.maxEnc + 1
    let invalid : FRes := (T.nan, fNV)
    done (.fexp f) exp ∧ done (.fexp2 f) exp2 ∧ done (.flog f) log ∧ done (.flog2 f) log2 ∧ done (.fsin f) sin ∧ done (.fcos f) cos ∧
    done (.ftanh f) tanh ∧ done (.flgst f) lgst ∧ done (.ferf f) erf ∧ done (.fatan2 f) atan2 ∧ done (.fpow f) pow ∧
    ((T = .f16 ∨ T = .bf16 ∨ T = .f32 ∨ T = .f64) → ∀ l,
      (∀ n e, A l = .num n 0 e → exp l = one ∧ exp2 l = one ∧ log l = (inf true, fDZ) ∧ log2 l = (inf true, fDZ) ∧ sin l = (sign n, 0) ∧
        cos l = one ∧ tanh l = (sign n, 0) ∧ lgst l = half ∧ erf l = (sign n, 0) ∧
        (∀ m d, B l = .num false m d → atan2 l = (sign n, 0))) ∧
      (A l = .inf false → exp l = (inf false, 0) ∧ exp2 l = (inf false, 0) ∧ log l = (inf false, 0) ∧ log2 l = (inf false, 0) ∧
        sin l = invalid ∧ cos l = invalid ∧ tanh l = one ∧ lgst l = one ∧ erf l = one) ∧
      (A l = .inf true → exp l = (0, 0) ∧ exp2 l = (0, 0) ∧ log l = invalid ∧ log2 l = invalid ∧ sin l = invalid ∧ cos l = invalid ∧
        tanh l = (sign true + one.1, 0) ∧ lgst l = (0, 0) ∧ erf l = (sign true + one.1, 0)) ∧
      (∀ m e, A l = .num true m e → 0 < m → log l = invalid ∧ log2 l = invalid) ∧
      -- exact powers of two and their logarithms; the logarithm of 1
      (∀ (n : Bool) (k e : Nat), A l = .num n (k * 2 ^ e) (-(e : Int)) → k < 2 ^ 14 →
        exp2 l = roundTo T (rn l) false 1 (if n then -(k : Int) else k) false) ∧
      (∀ (k : Nat) (e : Int), A l = .num false (2 ^ k) e →
        log2 l = roundTo T (rn l) (decide (k + e < 0)) (k + e).natAbs 0 false ∧ (k + e = 0 → log l = (0, 0))) ∧
      (∀ q, A l = .nan q → ∀ v ∈ [exp l, exp2 l, log l, log2 l, sin l, cos l, tanh l, lgst l, erf l], v = (T.nan, if q then fNV else 0)) ∧
      -- atan2
      (∀ n m e, A l = .num n m e → B l = .inf false → atan2 l = (sign n, 0)) ∧
      ((A l).isNan = true ∨ (B l).isNan = true → atan2 l = (T.nan, if A l = .nan true ∨ B l = .nan true then fNV else 0)) ∧
      -- powers: zeroth, of 1, of zero, of infinity, of a negative number to no whole power
      (A l = .nan true ∨ B l = .nan true → pow l = invalid) ∧
      (A l ≠ .nan true → (∃ n e, B l = .num n 0 e) → pow l = one) ∧
      (∀ k : Nat, A l = .num false (2 ^ k) (-(k : Int)) → B l ≠ .nan true → pow l = one) ∧
      (∀ n e n' m' e', A l = .num n 0 e → B l = .num n' m' e' → 0 < m' →
        let odd := n && isOddInt m' e'
        pow l = if n' then (inf odd, fDZ) else (sign odd, 0)) ∧
      (∀ n n' m' e', A l = .inf n → B l = .num n' m' e' → 0 < m' →
        let odd := n && isOddInt m' e'
        pow l = if n' then (sign odd, 0) else (inf odd, 0)) ∧
      (∀ m e n' m' e', A l = .num true m e → B l = .num n' m' e' → 0 < m → (e' < 0 ∧ ¬(2 ^ (-e').toNat ∣ m')) → pow l = invalid))

/-- Packed instructions (R386 to R388): every 16-bit element is an operation of its own, and the flags are ORed. What an element of a sum or a
product of numbers gives is also said by integers over one common unit, and `pdot` by the sum of its four products and c over one unit. -/
def Obligations.PackedInstructions : Prop :=
  ∀ (f : Form) (k : PcvtKind) (src : Ty) (s : State) (b : Blk), s.blk? = some b →
    let o := b.opnd s.idx f
    let T := f.ty
    let el := fun (w : Nat) (t : Tok) (l j : Nat) => (lane t.vals l).toNat / 2 ^ (w * j) % 2 ^ w
    let rn := fun (l j : Nat) => s.env.rnd f.rm (decide (T.width ≤ 16)) l j
    let flags := fun (v : Nat → FRes) =>
      if f.vc = .uni then (if o.live = 0 then 0 else (v 0).2) else (lanesOf o.live).foldl (fun a l => a ||| (v l).2) 0
    let done := fun (i : Instr) (v : Nat → FRes) =>
      Completes i f (4, 5) s b (laneResult f o fun l => BitVec.ofNat 64 (v l).1) (flags v)
    let four := fun (w : Nat) (v : Nat → FRes) =>
      ((v 0).1 + (v 1).1 * 2 ^ w + (v 2).1 * 2 ^ (2 * w) + (v 3).1 * 2 ^ (3 * w), (v 0).2 ||| (v 1).2 ||| (v 2).2 ||| (v 3).2)
    let two := fun (v : Nat → FRes) => ((v 0).1 + (v 1).1 * 2 ^ 32, (v 0).2 ||| (v 1).2)
    let sum := fun (l j : Nat) => fpAdd T (rn l j) (el 16 o.a l j) (el 16 o.b l j)
    let product := fun (l j : Nat) => fpMul T (rn l j) (el 16 o.a l j) (el 16 o.b l j)
    let mad := fun (l j : Nat) => fpFma T (rn l j) (el 16 o.a l j) (el 16 o.b l j) (el 16 o.c l j)
    let r := fun (l : Nat) => s.env.rnd f.rm false l 0
    let dot := fun (l : Nat) => finish .f32 (r l) (dotSum (r l).mode (fIn .f32 (lane o.c.vals l).toNat)
      ((List.range 4).map fun j => (fIn T (el 16 o.a l j), fIn T (el 16 o.b l j))))
    -- ± m × 2^e as a multiple of 2^q, and what such a multiple z gives, with the sign of a zero
    let at_ := fun (q : Int) (n : Bool) (m : Nat) (e : Int) => (if n then -1 else 1) * (m : Int) * 2 ^ (e - q).toNat
    let gives := fun (t : Ty) (rn : Rnd) (q z : Int) (zero : Bool) =>
      if z = 0 then (t.signBit zero, 0) else roundTo t rn (decide (z < 0)) z.natAbs q false
    done (.padd f) (fun l => four 16 (sum l)) ∧ done (.pmul f) (fun l => four 16 (product l)) ∧ done (.pfma f) (fun l => four 16 (mad l)) ∧
    done (.pmax f) (fun l => four 16 fun j => fpMinMax T true (el 16 o.a l j) (el 16 o.b l j)) ∧
    done (.pcvt f k src) (fun l => match k with
      | .lo => two fun j => fpConvert T (rn l j) (fIn src (el 16 o.a l j))
      | .hi => two fun j => fpConvert T (rn l j) (fIn src (el 16 o.a l (j + 2)))
      | .pk => four 16 fun j => fpConvert T (rn l j) (fIn src (if j < 2 then el 32 o.a l j else el 32 o.b l (j - 2)))
      | .p8 => four T.width fun j => fpConvert T (rn l j) (fIn src (el 16 o.a l j))
      | .u8 => four 16 fun j => fpConvert T (rn l j) (fIn src (el src.width o.a l j))) ∧
    done (.pdot f) dot ∧
    (∀ l j n m e n' m' e', fIn T (el 16 o.a l j) = .num n m e → fIn T (el 16 o.b l j) = .num n' m' e' →
      (∀ q, q ≤ e → q ≤ e' → sum l j = gives T (rn l j) q (at_ q n m e + at_ q n' m' e') (if m = 0 ∧ m' = 0 ∧ n = n' then n else (rn l j).mode == 2)) ∧
      (∀ q, q ≤ e + e' → product l j = gives T (rn l j) q (at_ q (n != n') (m * m') (e + e')) (n != n') ∧
        ∀ n'' m'' e'', fIn T (el 16 o.c l j) = .num n'' m'' e'' → q ≤ e'' →
          mad l j = gives T (rn l j) q (at_ q (n != n') (m * m') (e + e') + at_ q n'' m'' e'')
            (if m * m' = 0 ∧ m'' = 0 ∧ (n != n') = n'' then n'' else (rn l j).mode == 2))) ∧
    (∀ l q n m e (ns ns' : Nat → Bool) (ms ms' : Nat → Nat) (es es' : Nat → Int), fIn .f32 (lane o.c.vals l).toNat = .num n m e → q ≤ e →
      (∀ j, j < 4 → fIn T (el 16 o.a l j) = .num (ns j) (ms j) (es j) ∧ fIn T (el 16 o.b l j) = .num (ns' j) (ms' j) (es' j) ∧ q ≤ es j + es' j) →
      let term := fun (j : Nat) => at_ q (ns j != ns' j) (ms j * ms' j) (es j + es' j)
      let zeros := fun (x : Bool) => m = 0 ∧ n = x ∧ ∀ j, j < 4 → ms j * ms' j = 0 ∧ (ns j != ns' j) = x
      dot l = gives .f32 (r l) q (at_ q n m e + term 0 + term 1 + term 2 + term 3)
        (if zeros true then true else if zeros false then false else (r l).mode == 2))

/-! ### Dataflow, exits and system instructions (spec/12, spec/14, spec/16) -/

/-- Values and identities (R330 to R333, R426, R466, R468): each completes in two cycles (three in two passes) with the value that the
rule names; except `mov` and `sel`, only the predicate makes a result null.

The indices of the grid levels (R333, R131): over the levels that number teams, and over those that number gangs of a team, they
are the digits of the team's index and of the gang's, the first level the most significant. -/
def Obligations.ValuesAndIdentities : Prop :=
  (∀ (f : Form) (s : State) (b : Blk), s.blk? = some b →
     let o := b.opnd s.idx f
     let done := fun (i : Instr) (t : Tok) => Completes i f (2, 3) s b t 0
     let plain := fun (v : Nat → W64) => o.result f.vc (~~~o.pred) v
     let pick := fun (l : Nat) => if (if o.c.cls = .mask then ((lane o.c.vals 0).setWidth 32).getLsbD l else lane o.c.vals l != 0) then o.a else o.b
     done (.mov f) (tokOf f.vc o.a.vals o.nulls) ∧
     (∀ x, f.lit = some x → done (.const f) (tokOf f.vc (splat (if f.vc = .mask then x &&& 0xFFFFFFFF else x)) (~~~o.pred))) ∧
     done (.nul f) (plain fun l => if o.a.nulls.getLsbD l then 1 else 0) ∧
     done (.sel f) (tokOf f.vc
       (if f.vc = .mask then splat ((maskOf fun l => ((lane (pick l).vals 0).setWidth 32).getLsbD l).setWidth 64)
        else lanes fun l => lane (pick l).vals l)
       (~~~o.pred ||| o.c.nulls ||| maskOf fun l => (pick l).nulls.getLsbD l)) ∧
     done (.lid f .lane) (plain fun l => BitVec.ofNat 64 l) ∧
     done (.lid f .slice) (plain fun l => BitVec.ofNat 64 (l / 4)) ∧
     done (.lid f .gang) (plain fun _ => BitVec.ofNat 64 s.g.index) ∧
     done (.lid f .team) (plain fun _ => if s.team.kind = .seed then 0 else s.team.ident) ∧
     done (.lid f .rank) (plain fun _ => BitVec.ofNat 64 s.team.rank) ∧
     done (.lid f .lgid) (plain fun _ => if s.launchOf.fixord then s.g.lgid else BitVec.ofNat 64 s.g.index) ∧
     done (.lid f .place) (plain fun _ => BitVec.ofNat 64 (s.self + s.g.core / 144 * 2 ^ 6 + s.g.core % 144 * 2 ^ 8 +
       s.g.quarter * 2 ^ 16 + s.g.slot.getD 0 * 2 ^ 18)) ∧
     (∀ n, done (.lid f (.level n)) (plain fun _ => BitVec.ofNat 64 (levelIndex s.launchOf s.team s.g.index n.toNat))) ∧
     done (.lclk f) (plain fun _ => s.g.lck) ∧
     done (.cyc f) (plain fun _ => BitVec.ofNat 64 s.core.cyc) ∧
     done (.stalls f) (plain fun l => (((tget s.team.recs s.g.index {}).stalls.getD (l % 16) 0).setWidth 64)) ∧
     (∀ clear, exec (.prov f clear) s = .next (s.setBlk (Blk.completed
       { b with fired := b.fired ++ [{ idx := s.idx, ins := .prov f clear, lanes := o.live, a := provLanes s.g.prov, b := [], c := [] }] }
       s.clock s.idx f (s.clock + if s.twoPass then 3 else 2) (plain fun l => lane (provLanes s.g.prov) l) 0))) ∧
     ∀ l, l < 32 → lane (provLanes s.g.prov) l = s.g.prov.getD (l % 4) 0) ∧
  (∀ (l : Launch) (t : Team) (gang : Nat), t.kind = .grid → (∀ i, i < l.nlevels → 0 < l.extent i) →
     let digit := levelIndex l t gang
     let number := fun (from_ to_ : Nat) => ((List.range to_).drop from_).foldl (fun a i => a * l.extent i + digit i) 0
     (0 < l.firstGang → number 0 l.firstGang = t.ident.toNat) ∧
     (l.firstGang < l.nlevels → number l.firstGang l.nlevels = gang) ∧
     (∀ i, l.nlevels ≤ i → digit i = 0) ∧
     (∀ i, 0 < i → i < l.nlevels → i ≠ l.firstGang → digit i < l.extent i) ∧
     ∀ u : Team, u.kind ≠ .grid → ∀ i, levelIndex l u gang i = 0)

/-- Reads and writes of registers (R329, R330, R281): k0 reads as all ones and discards writes; a write changes the lanes of its mask
and no other register.

The supervisor bank (R177, R247): a handler's v112 to v127 and s48 to s63 are registers of their own; its other registers are the
user's.

`wr` (R330) is done at issue and takes effect at commit; `rd` (R329, R181): a `k` register, and a register whose line is in the cache or was never written, completes in two cycles; any
other waits for the fill of its line, of which a quarter has at most eight under way. -/
def Obligations.RegisterAccess : Prop :=
  (∀ (g : Gang) (m : Mask) (x : Lanes) (l : Nat), l < 32 →
     let v := fun (n : BitVec 7) (g : Gang) => lane (g.readReg (.v n)) l
     let r := fun (n : BitVec 6) (g : Gang) => lane (g.readReg (.s n)) l
     g.readReg (.k 0) = splat 0xFFFFFFFF ∧ g.writeReg (.k 0) m x = g ∧
     (∀ n, v n (g.writeReg (.v n) m x) = if m.getLsbD l then lane x l else v n g) ∧
     (∀ n n', n ≠ n' → v n' (g.writeReg (.v n) m x) = v n' g) ∧
     (∀ n n', r n' (g.writeReg (.v n) m x) = r n' g) ∧
     (∀ n, r n (g.writeReg (.s n) m x) = if m = 0 then r n g else lane x 0) ∧
     (∀ n n', n ≠ n' → r n' (g.writeReg (.s n) m x) = r n' g) ∧
     (∀ n n', v n' (g.writeReg (.s n) m x) = v n' g) ∧
     (∀ n i, n ≠ 0 → n.toNat < g.ks.length → i < 32 →
       ((g.writeReg (.k n) m x).kreg n.toNat).getLsbD i = if m.getLsbD i then (lane x 0).getLsbD i else (g.kreg n.toNat).getLsbD i) ∧
     (∀ n n' : BitVec 4, n ≠ n' → (g.writeReg (.k n) m x).kreg n'.toNat = g.kreg n'.toNat) ∧
     (∀ n, (g.writeReg (.k n) m x).regs = g.regs) ∧ (∀ n, (g.writeReg (.v n) m x).ks = g.ks) ∧ (∀ n, (g.writeReg (.s n) m x).ks = g.ks)) ∧
  (∀ (g : Gang) (m : Mask) (x : Lanes) (l : Nat), l < 32 →
     let user := { g with sup := false }
     let back := fun (h : Gang) => ({ h with sup := false } : Gang)
     let sup := { g with sup := true }
     (∀ (n : BitVec 7) (n' : BitVec 7), 112 ≤ n.toNat →
       lane ((back (sup.writeReg (.v n) m x)).readReg (.v n')) l = lane (user.readReg (.v n')) l) ∧
     (∀ (n : BitVec 6) (n' : BitVec 6), 48 ≤ n.toNat →
       lane ((back (sup.writeReg (.s n) m x)).readReg (.s n')) l = lane (user.readReg (.s n')) l) ∧
     (∀ n : BitVec 7, n.toNat < 112 → sup.readReg (.v n) = user.readReg (.v n) ∧
       back (sup.writeReg (.v n) m x) = user.writeReg (.v n) m x) ∧
     (∀ n : BitVec 6, n.toNat < 48 → sup.readReg (.s n) = user.readReg (.s n) ∧
       back (sup.writeReg (.s n) m x) = user.writeReg (.s n) m x)) ∧
  (∀ (f : Form) (r : Reg) (s : State) (b : Blk), s.blk? = some b →
     let t := tokOf r.cls (s.g.readReg r) (~~~(b.opnd s.idx f).pred)
     let read := s.setBlk (b.completed s.clock s.idx f (s.clock + if s.twoPass then 3 else 2) t 0)
     let fills := (s.core.quarterAt s.g.quarter).fills
     Departs (.wr f r) f s b ∧
     (∀ n, r = .k n → exec (.rd f r) s = .next read) ∧
     ∀ n, regLines s.g.sup r = [n] →
       (s.lineReady n = true → exec (.rd f r) s = .next (read.touchLine n false)) ∧
       (s.lineReady n = false → b.fills.contains n = true → exec (.rd f r) s = .next (s.setBlk (b.markIssued s.idx s.clock))) ∧
       (s.lineReady n = false → b.fills.contains n = false → 8 ≤ fills.length → exec (.rd f r) s = .next s) ∧
       (s.lineReady n = false → b.fills.contains n = false → fills.length < 8 →
         ∃ t, exec (.rd f r) s = .next t ∧ t.blk? = some (({ b with fills := n :: b.fills } : Blk).markIssued s.idx s.clock) ∧
           (∃ d, t.agenda = s.agenda ++ [⟨s.now + 1 + d, none, .gang s.gid, .registerFill n .data⟩]) ∧
           t.g.regs = s.g.regs ∧ t.g.ks = s.g.ks ∧ t.g.fst = s.g.fst ∧ t.mem = s.mem))

/-- Exits (R335 to R337, R248): the instruction is done and its lanes, targets and operands are kept for the commit point; `bl` also
delivers the address of the 16-byte boundary after its block; a misaligned target or descriptor faults `MISALIGN`. -/
def Obligations.ExitInstructions : Prop :=
  ∀ (f : Form) (d : W32) (s : State) (b : Blk), s.blk? = some b →
    let o := b.opnd s.idx f
    let odd := maskOf fun l => o.live.getLsbD l && (lane o.a.vals l).toNat % 16 != 0
    Departs (.br f d) f s b ∧
    exec (.bl f d) s = .next (s.setBlk (Blk.completed
      { b with fired := b.fired ++ [{ idx := s.idx, ins := .bl f d, lanes := o.live, a := o.a.vals, b := o.b.vals, c := o.c.vals }] }
      s.clock s.idx f (s.clock + if s.twoPass then 3 else 2)
      (tokOf f.vc (splat (b.addr + BitVec.ofNat 64 ((16 + 4 * b.nw + 15) / 16 * 16))) (~~~o.pred)) 0)) ∧
    (odd = 0 → Departs (.jr f) f s b) ∧
    (odd ≠ 0 → Faults (.jr f) s 7 0 255 odd (lanes fun l => if odd.getLsbD l then lane o.a.vals l else 0)) ∧
    (s.g.sup = false ∨ o.live = 0 → Departs (.regang f d) f s b) ∧
    (s.g.sup = true → o.live ≠ 0 → Faults (.regang f d) s 1 20 255 o.live []) ∧
    (o.live = 0 ∨ (lane o.b.vals 0).toNat % 64 = 0 → Departs (.exit f) f s b) ∧
    (o.live ≠ 0 → (lane o.b.vals 0).toNat % 64 ≠ 0 → Faults (.exit f) s 7 0 255 o.live (splat (lane o.b.vals 0)))

/-- Scheduling instructions (R338, R339, R341, R342, R248): done at issue, with their effect left for the commit; `rquota` delivers the
quota in force. -/
def Obligations.SchedulingInstructions : Prop :=
  ∀ (f : Form) (d : W32) (s : State) (b : Blk), s.blk? = some b →
    let o := b.opnd s.idx f
    let q := (lane o.a.vals 0).toNat
    let odd := maskOf fun l => o.live.getLsbD l && (lane o.a.vals l).toNat % 64 != 0
    let bars := s.g.sup = true ∧ s.launchOf.fixord = true
    Departs (.yield f) f s b ∧
    (o.live = 0 ∨ q = 0 ∨ (16 ≤ q ∧ q ≤ 256) → exec (.rquota f) s = .next (s.setBlk (Blk.completed
      { b with fired := b.fired ++ [{ idx := s.idx, ins := .rquota f, lanes := o.live, a := o.a.vals, b := o.b.vals, c := o.c.vals }] }
      s.clock s.idx f (s.clock + if s.twoPass then 3 else 2) (tokOf .uni (splat (BitVec.ofNat 64 s.g.quota)) o.nulls) 0))) ∧
    (o.live ≠ 0 → (1 ≤ q ∧ q ≤ 15) ∨ 256 < q → Faults (.rquota f) s 1 19 255 o.live []) ∧
    (¬bars ∨ o.live = 0 → Departs (.spawn f d) f s b) ∧ (bars → o.live ≠ 0 → Faults (.spawn f d) s 1 20 255 o.live []) ∧
    (odd = 0 → Departs (.enq f) f s b) ∧
    (odd ≠ 0 → Faults (.enq f) s 7 0 255 odd (lanes fun l => if odd.getLsbD l then lane o.a.vals l else 0))

/-- System instructions (R457 to R467): what a privileged one does in supervisor mode, the `PRIV` fault of user mode in every active
lane, and the values of the system registers. -/
def Obligations.SystemInstructions : Prop :=
  ∀ (f : Form) (r : SysReg) (sub : BitVec 16) (s : State) (b : Blk), s.blk? = some b →
    let o := b.opnd s.idx f
    let priv := fun (i : Instr) (n : Nat) => exec i s = .next (s.raise { code := 16, sub := n, lanes := b.active })
    let high := maskOf fun l => o.live.getLsbD l && decide (2 ^ 56 ≤ (lane o.a.vals l).toNat)
    let at_ := lanes fun l => if high.getLsbD l then lane o.a.vals l else 0
    let value := fun (l : Nat) => match r with
      | .fst => s.g.fst | .lck => s.g.lck | .exm => s.g.exm.setWidth 64 | .sfmask => s.g.sfmask.setWidth 64
      | .flm => s.g.flm.setWidth 64 | .fcause => s.g.fcause | .fpc => s.g.fpc | .fva => lane s.g.fva l | .pmres => lane s.g.pmres l
      | .lrm => s.core.lrm | .privst => if s.g.sup then 1 else 0
      | .xinv => BitVec.ofNat 64 ((List.range 4).foldl (fun a j => if (s.g.xinv.getD j 0).getLsbD l then a + 2 ^ j else a) 0)
      | .gangId => BitVec.ofNat 64 (s.self * 2 ^ 22 + s.g.core / 144 * 2 ^ 20 + s.g.core % 144 * 2 ^ 12 + s.g.quarter * 2 ^ 10 +
          s.g.slot.getD 0 * 2 ^ 5 + s.g.index)
      | .ctxinfo => BitVec.ofNat 64 (s.ctxNo % 64 + (if s.launchOf.fixord then 64 else 0) + (if s.fixedTiming then 128 else 0))
    let closed := r ∈ [SysReg.flm, .fcause, .fpc, .fva, .pmres]
    (s.g.sup = true ∨ ¬closed → Completes (.sysrd f r) f (2, 3) s b (tokOf r.cls (lanes value) (~~~o.pred)) 0) ∧
    (s.g.sup = false → closed → priv (.sysrd f r) 3) ∧
    (s.g.sup = true ∨ r ≠ .lrm → Departs (.syswr f r) f s b) ∧ (s.g.sup = false → priv (.syswr f .lrm) 3) ∧
    Departs (.trap f sub) f s b ∧ Departs (.brk f) f s b ∧ Departs (.trc f) f s b ∧
    (s.g.sup = true → Departs (.tret f) f s b ∧ Departs (.halt f) f s b ∧ Departs (.tlbinv f) f s b ∧
      (high = 0 → Departs (.pmap f) f s b ∧ Departs (.punmap f) f s b) ∧
      (high ≠ 0 → Faults (.pmap f) s 6 1 255 high at_ ∧ Faults (.punmap f) s 6 1 255 high at_)) ∧
    (s.g.sup = false → priv (.tret f) 1 ∧ priv (.halt f) 1 ∧ priv (.tlbinv f) 1 ∧ priv (.pmap f) 1 ∧ priv (.punmap f) 1)

/-! ### Memory accesses (spec/14) -/

/-- What one lane's access meets (R396, R397, R403, R187, R188, R190): the bytes it covers, a stash condition that switches the lane
off, or a fault; global accesses are translated byte by byte. -/
def Obligations.AccessOutcomes : Prop :=
  ∀ (s : State) (n : Nat) (store atomic : Bool) (ea : Nat),
    let at_ := fun (sp : Space) => s.resolve sp n store atomic ea
    let bytes := fun (kind id off : Nat) => LaneRes.ok ((List.range n).map fun i => ⟨kind, id, off + i⟩)
    let stash := 1024 * s.team.stashKiB
    -- a stash with no mapped region over the bytes
    (s.team.regions = [] → at_ .stash = (if ea + n ≤ stash then bytes 1 s.g.team ea else .off 0, s)) ∧
    -- a cluster member's stash
    (2 ^ 21 ≤ ea → at_ .rstash = (.off 0, s)) ∧
    (ea < 2 ^ 21 → s.team.cluster ≤ ea / 2 ^ 18 → at_ .rstash = (.off 3, s)) ∧
    (ea < 2 ^ 21 → ea / 2 ^ 18 < s.team.cluster → ea / 2 ^ 18 = s.team.rank → s.team.linger = false → s.team.regions = [] →
      at_ .rstash = (if ea % 2 ^ 18 + n ≤ stash then bytes 1 s.g.team (ea % 2 ^ 18) else .off 0, s)) ∧
    at_ .tile = (if ea + n ≤ 1024 * s.team.tileKiB then bytes 2 s.g.team ea else .bad 1 19, s) ∧
    at_ .ctx = (if ea + n ≤ 65536 ∧ (store = true → ea + n ≤ 33280) then bytes 3 s.gid ea else .bad 1 19, s) ∧
    (2 ^ 48 < ea + n → at_ .pool = (.bad 1 19, s)) ∧
    (∀ x, s.pageFail none (pageOf ea) = some x → ea + n ≤ 2 ^ 48 → at_ .pool = (.bad x.1 x.2, s)) ∧
    (ea + n ≤ 2 ^ 48 → s.pageFail none (pageOf ea) = none → s.pageFail none (pageOf (ea + n - 1)) = none →
      s.lostLines = [] → s.lostPages = [] → at_ .pool = (bytes 0 0 ea, s)) ∧
    -- global addresses
    (let t := s.translateRun s.ctxNo ea { write := store, sup := s.g.sup } n
     (∀ x, t.1 = .error x → at_ .global = (.bad x.1.1 x.1.2, t.2)) ∧
     (∀ ps, t.1 = .ok ps → (store = true ∧ atomic = false) ∨ ps.any t.2.lineLost = false →
       at_ .global = (.ok (ps.map fun p => ⟨0, 0, p⟩), t.2)) ∧
     (∀ ps, t.1 = .ok ps → store = false ∨ atomic = true → ps.any t.2.lineLost = true → at_ .global = (.bad 9 0, t.2)))

/-- Loads (R395 to R398): when every lane's access is good, the bytes, as the block's earlier stores leave them, are delivered as a
token of the type; a failing lane makes the whole instruction fault with the lowest code; the spaces `.ctx` and `.pool` are privileged.
What is read is kept while a load of lower LSID has still to issue (07 R216), and an access after a `seq` operation of its block gives the
block its place in their order (07 R215).

Where a loaded token is usable (R187, R190, R201 to R203): tile memory after 10 cycles; stash, and a member's stash that is the team's
own, after 10 and two more for each further pass over its banks, one more in two passes; a global or pool load whose lines are in L1 after 28
and two for each further line; one that misses, or reaches another stash or an image, completes with its replies. A hit leaves L1 the
same lines. -/
def Obligations.Loads : Prop :=
  (∀ (f : Form) (m : MemArg) (s : State) (b : Blk), s.blk? = some b →
     let o := b.opnd s.idx f
     let n := f.ty.width / 8
     let ls := if f.vc = .uni then (if o.live = 0 then [] else [0]) else lanesOf o.live
     let ea := fun (l : Nat) => (lane o.a.vals l + m.off.signExtend 64).toNat
     let r := fun (aligned : Bool) => s.resolveAll m n false false aligned ea ls
     let t := fun (aligned : Bool) => (r aligned).2
     let ahead := fun (aligned : Bool) => (t aligned).forwarded b m.lsid.toNat
     let value := fun (aligned : Bool) (ps : List Place) =>
       BitVec.ofInt 64 (if f.ty.isFloat then (natOf (ps.map ((t aligned).overByte (ahead aligned))) : Int)
         else asInt f.ty (BitVec.ofNat 64 (natOf (ps.map ((t aligned).overByte (ahead aligned))))))
     let vals := fun (aligned : Bool) => (okLanes (r aligned).1).map fun p => (p.1, value aligned p.2)
     let token := fun (aligned : Bool) =>
       if f.vc = .uni then tokOf .uni (splat (laneVal (vals aligned) 0)) (if ls = [] then allLanes else 0)
       else tokOf .lane (lanes (laneVal (vals aligned))) (~~~(maskOf fun l => o.live.getLsbD l && ls.contains l))
     let places := fun (aligned : Bool) => (okLanes (r aligned).1).flatMap (·.2)
     let good := fun (aligned : Bool) => ∀ x ∈ (r aligned).1, ∃ ps, x.2 = .ok ps
     let early := ∃ q ∈ b.instrs, q.2.isLoad = true ∧ q.2.lsid.getD 32 < m.lsid.toNat ∧ b.issued.getLsbD q.1 = false
     let kept := fun (aligned : Bool) => if early then
         { b with reads := b.reads ++ [{ lsid := m.lsid.toNat,
                                         bytes := (places aligned).map fun p => (p, (t aligned).overByte (b.readAfter m.lsid.toNat) p) }] }
       else b
     let open_ := ¬((m.as = .ctx ∨ m.as = .pool) ∧ s.g.sup = false)
     (open_ → good false →
       exec (.ld f m) s = .next ((((t false).setBlk (kept false)).placeSeq m.lsid.toNat).deliverLoad f (token false) m.as (places false)
         (decide (3 ≤ f.cp.toNat)) f.cp)) ∧
     (open_ → good true →
       exec (.ldp f m) s = .next ((((t true).setBlk { kept true with fired := b.fired ++
         [{ idx := s.idx, ins := .ldp f m, lanes := maskOf fun l => ls.contains l, a := lanes fun l => BitVec.ofNat 64 (ea l),
            b := lanes (laneVal (vals true)), c := [] }] }).placeSeq m.lsid.toNat).deliverLoad f (token true) m.as (places true) true f.cp)) ∧
     (let after := ∃ q ∈ b.instrs, q.2.isSeq = true ∧ q.2.lsid.getD 32 < m.lsid.toNat
      (b.seq ≠ none ∨ ¬after → s.placeSeq m.lsid.toNat = s) ∧
      (b.seq = none → after → s.placeSeq m.lsid.toNat = State.setBlk { s with nextId := s.nextId + 1 } { b with seq := some s.nextId })) ∧
     (∀ aligned x, open_ → lowestFault (r aligned).1 = some x →
       let bad := if f.vc = .uni then o.live else faultLanes (r aligned).1 x.1
       (exec (if aligned then .ldp f m else .ld f m) s = .next ((t aligned).raise
         { code := x.1, sub := x.2, idx := s.idx, lsid := m.lsid.toNat, lanes := bad,
           va := lanes fun l => if bad.getLsbD l && m.as == .global then BitVec.ofNat 64 (ea (if f.vc = .uni then 0 else l)) else 0 }))) ∧
     (¬open_ → exec (.ld f m) s = .next (s.raise { code := 16, sub := 2, lanes := b.active }) ∧
       exec (.ldp f m) s = .next (s.raise { code := 16, sub := 2, lanes := b.active }))) ∧
  (∀ (f : Form) (t : Tok) (ps : List Place) (bypass : Bool) (cp : BitVec 3) (s : State) (b : Blk), s.blk? = some b →
     let done := fun (n : Nat) => Blk.completed b s.clock s.idx f (s.clock + n) t 0
     let two := if s.twoPass then 1 else 0
     let sent := fun (u : State) (c : Blk) => u.blk? = some c ∧ c.done = b.done ∧
       c.issued = b.issued ||| BitVec.ofNat 96 (2 ^ s.idx) ∧ u.mem = s.mem ∧ u.g.regs = s.g.regs ∧ u.teams = s.teams
     let own := ∀ p ∈ ps, p.kind = 1 ∧ p.id = s.g.team
     let one := fun (sp : Space) => ∃ u c q, s.deliverLoad f t sp ps bypass cp = u ∧ sent u c ∧ c.reqs = b.reqs ++ [q] ∧ q.idx = s.idx ∧
       ∃ d, u.agenda = s.agenda ++ [⟨s.now + 1 + d, none, .gang s.gid, .memoryReply q.num .data⟩]
     s.deliverLoad f t .tile ps bypass cp = s.setBlk (done (10 + two)) ∧
     s.deliverLoad f t .stash ps bypass cp = s.setBlk (done (10 + two + 2 * (stashPasses ps - 1))) ∧
     (own → s.deliverLoad f t .rstash ps bypass cp = s.setBlk (done (10 + two + 2 * (stashPasses ps - 1)))) ∧
     (¬own → one .rstash) ∧ (ps = [] → s.deliverLoad f t .ctx ps bypass cp = s.setBlk (done (10 + two))) ∧ (ps ≠ [] → one .ctx) ∧
     ∀ sp, sp = .global ∨ sp = .pool →
       let ls := linesOf ps
       let hit := fun (l : Nat) => ∃ x ∈ s.core.l1, x.line = l
       let miss := ls.filter fun l => bypass || !(s.core.l1.any fun x => x.line == l)
       (miss = [] → s.deliverLoad f t sp ps bypass cp = (s.hitLines cp ls).setBlk (done (28 + two + 2 * (ls.length - 1))) ∧
         (s.core.l1.length ≤ 1024 → ∀ l, (∃ x ∈ (s.hitLines cp ls).core.l1, x.line = l) ↔ hit l)) ∧
       (miss ≠ [] → ∃ u c, s.deliverLoad f t sp ps bypass cp = u ∧ sent u c ∧ c.reqs.map (·.line) = b.reqs.map (·.line) ++ miss))

/-- A load sees the bytes of its block's stores with lower LSIDs, the later store and the higher lane winning, and memory elsewhere
(R283, R207); of a byte that a load of higher LSID has read already it reads no later value (07 R216). -/
def Obligations.StoreForwarding : Prop :=
  ∀ (s : State) (b : Blk) (lsid : Nat) (p : Place),
    let earlier := b.stores.filter fun r => r.lsid < lsid && b.active.getLsbD r.lane
    let byte := fun (c : Blk) => s.overByte (s.forwarded c lsid) p
    let later := fun (r : ReadRec) => lsid < r.lsid ∧ ∃ x ∈ r.bytes, x.1 = p
    ((∀ r ∈ earlier, p ∉ r.places) → (∀ r ∈ b.reads, ¬later r) → byte b = s.placeByte p) ∧
    ((∀ r ∈ earlier, p ∉ r.places) → ∀ rs r qs v, b.reads = rs ++ r :: qs → (∀ q ∈ rs, ¬later q) → lsid < r.lsid →
      r.bytes.find? (fun x => x.1 == p) = some (p, v) → byte b = v) ∧
    (∀ (rs : List StoreRec) (r : StoreRec) (i : Nat) (hi : i < r.places.length) (hd : i < r.data.length),
      b.stores = rs ++ [r] → r.op = none → r.lsid < lsid → b.active.getLsbD r.lane = true → r.places.Nodup → r.places[i] = p →
      r.data.length = r.places.length → byte b = r.data[i]) ∧
    (∀ (rs : List StoreRec) (r : StoreRec), b.stores = rs ++ [r] → p ∉ r.places ∨ lsid ≤ r.lsid →
      byte b = byte { b with stores := rs })

/-- Stores and `red` (R397, R401, R288): at issue nothing is written; each good lane leaves one record for the commit, in LSID order,
and lanes that meet a stash condition are switched off.

Where stores and `red` trap (R396, R401, R231, R457): a failing lane's fault, `.fadd` outside the private windows under fixed order, and
the privileged spaces. -/
def Obligations.StoresAndReds : Prop :=
  (∀ (f : Form) (m : MemArg) (s : State) (b : Blk), s.blk? = some b →
     let o := b.opnd s.idx f
     let n := f.ty.width / 8
     let ea := fun (l : Nat) => (lane o.a.vals l + m.off.signExtend 64).toNat
     let r := fun (red : Bool) => s.resolveAll m n true red red ea (lanesOf o.live)
     let t := fun (red : Bool) => (r red).2
     let open_ := ¬((m.as = .ctx ∨ m.as = .pool) ∧ s.g.sup = false)
     let record := fun (red : Bool) (p : Nat × List Place) =>
       ({ idx := s.idx, lsid := m.lsid.toNat, lane := p.1, places := p.2, data := bytesOf n (lane o.b.vals p.1).toNat,
          op := if red then some (f.cp, f.ty) else none, gated := needsToken (t red) m.as (ea p.1) n, issued := s.clock,
          cp := if red then 3 else f.cp } : StoreRec)
     let i := fun (red : Bool) => if red then Instr.red f m else Instr.st f m
     ∀ red, (red = true → s.launchOf.fixord = false ∨ f.cp ≠ 7) → open_ → lowestFault (r red).1 = none →
       let c := b.switchOff (offLanes (r red).1)
       exec (i red) s = .next ((t red).setBlk (Blk.markDone { c with
         progress := s.clock, stores := (okLanes (r red).1).foldl (fun a p => insertStore (record red p) a) c.stores,
         fired := c.fired ++ [{ idx := s.idx, ins := i red, lanes := o.live, a := o.a.vals, b := o.b.vals, c := o.c.vals }] } s.idx))) ∧
  (∀ (f : Form) (m : MemArg) (s : State) (b : Blk), s.blk? = some b →
     let o := b.opnd s.idx f
     let n := f.ty.width / 8
     let ea := fun (l : Nat) => (lane o.a.vals l + m.off.signExtend 64).toNat
     let r := fun (red : Bool) => s.resolveAll m n true red red ea (lanesOf o.live)
     let open_ := ¬((m.as = .ctx ∨ m.as = .pool) ∧ s.g.sup = false)
     let i := fun (red : Bool) => if red then Instr.red f m else Instr.st f m
     let outside := maskOf fun l => o.live.getLsbD l && !(m.as == .global && inWindow s.launchOf (ea l) n)
     (s.launchOf.fixord = true → f.cp = 7 → outside ≠ 0 → Faults (.red f m) s 13 0 m.lsid.toNat outside []) ∧
     ∀ red, (red = true → s.launchOf.fixord = false ∨ f.cp ≠ 7) →
       (¬open_ → exec (i red) s = .next (s.raise { code := 16, sub := 2, lanes := b.active })) ∧
       (∀ x, open_ → lowestFault (r red).1 = some x →
         let bad := faultLanes (r red).1 x.1
         exec (i red) s = .next ((r red).2.raise
           { code := x.1, sub := x.2, idx := s.idx, lsid := m.lsid.toNat, lanes := bad,
             va := lanes fun l => if bad.getLsbD l && m.as == .global then BitVec.ofNat 64 (ea l) else 0 })))

/-- Atomic operations (R399): old values and operands by Ext, the w-bit result, and rounding to nearest with flags for `.fadd`.

`atom` and `cas` on stash bytes (R400, R150): performed at issue, once, with the outcome held; the old value is delivered when the
reply has come; `cas` writes only on a match that changes the value, and every other byte of the stash keeps its value. Memory changes only
where a release writes what its core has still to write (R210).

`atom` and `cas` again, and where they trap (R150, R171, R227, R231, R248, R457): a held outcome is delivered again, with its null lanes,
when a reply has come, and nothing is performed; a held `cas` that left memory as it was in some lane demotes again; fixed order refuses
an address outside the spaces it allows, and every atomic in a handler. -/
def Obligations.Atomics : Prop :=
  (∀ (t : Ty) (old b : Nat), old < 2 ^ t.width → b < 2 ^ 64 →
     let x := asInt t (BitVec.ofNat 64 old)
     let y := asInt t (BitVec.ofNat 64 b)
     let new := fun (n : Nat) => (aopNew (BitVec.ofNat 3 n) t old b).1
     let value := fun (n : Nat) => asInt t (BitVec.ofNat 64 (new n))
     new 0 = ((x + y) % (2 ^ t.width : Int)).toNat ∧
     value 1 = (if x ≤ y then x else y) ∧ value 2 = (if x ≤ y then y else x) ∧
     new 3 = (old &&& b % 2 ^ t.width) ∧ new 4 = (old ||| b % 2 ^ t.width) ∧ new 5 = (old ^^^ b % 2 ^ t.width) ∧
     new 6 = b % 2 ^ t.width ∧
     (∀ n, n < 7 → new n < 2 ^ t.width ∧ (aopNew (BitVec.ofNat 3 n) t old b).2 = 0) ∧
     aopNew 7 t old b = fpAdd t ⟨0, 0⟩ old b) ∧
  (∀ (f : Form) (m : MemArg) (s : State) (b : Blk) (tm : Team), s.blk? = some b → tfind s.teams s.g.team = some tm → tm.regions = [] →
     let o := b.opnd s.idx f
     let n := f.ty.width / 8
     let ea := (lane o.a.vals 0 + m.off.signExtend 64).toNat
     let old := natOf (stRead tm.stash ea n)
     let out := fun (x : Nat) => BitVec.ofInt 64 (if f.ty.isFloat then (x : Int) else asInt f.ty (BitVec.ofNat 64 x))
     f.vc = .uni → o.live ≠ 0 → m.as = .stash → (n = 1 ∨ n = 2 ∨ n = 4 ∨ n = 8) → ea % n = 0 → ea + n ≤ 1024 * tm.stashKiB →
     s.heldHere = none → s.launchOf.fixord = false →
     let after := fun (i : Instr) (new : Nat) => ∃ t u c, exec i s = .next t ∧ tfind t.teams s.g.team = some u ∧
       stRead u.stash ea n = bytesOf n new ∧ (∀ a, a < ea ∨ ea + n ≤ a → memByte u.stash a = memByte tm.stash a) ∧
       t.heldHere = some (lanes fun l => if l = 0 then out old else 0) ∧ t.nullsHere = 0 ∧
       t.mem = (if b.releasesAt i then (s.flushCore s.g.core).mem else s.mem) ∧ t.g.regs = s.g.regs ∧ t.g.fst = s.g.fst ∧
       t.blk? = some c ∧ c.done = b.done ∧ c.issued = b.issued ||| BitVec.ofNat 96 (2 ^ s.idx) ∧ c.stores = b.stores ∧
       (∃ q, c.reqs = b.reqs ++ [q] ∧ q.idx = s.idx ∧ ∃ d ∈ t.agenda, d.ev = .memoryReply q.num .data ∧ d.subj = .gang s.gid ∧
         d.clock = none ∧ s.now < d.time) ∧
       (f.t0 ≠ Target.none → f.t1 = Target.none → f.t2 = Target.none → f.t3 = Target.none →
         c.tok (s.idx + f.t0.dist.toNat) f.t0.slot = some { cls := .uni, vals := splat (out old), nulls := 0, ready := none })
     after (.atom f m) (aopNew f.cp f.ty old (lane o.b.vals 0).toNat).1 ∧
     after (.cas f m) (if (lane o.b.vals 0).toNat % 2 ^ f.ty.width = old then (lane o.c.vals 0).toNat % 2 ^ f.ty.width else old)) ∧
  (∀ (f : Form) (m : MemArg) (s : State) (b : Blk), s.blk? = some b →
     let o := b.opnd s.idx f
     let n := f.ty.width / 8
     let ea := fun (l : Nat) => (lane o.a.vals l + m.off.signExtend 64).toNat
     let refused := maskOf fun l => o.live.getLsbD l && orderRefuses s m.as n (ea l)
     let again := fun (c : Blk) (x : Lanes) => (s.setBlk { Blk.deliver c s.idx f
         { cls := f.vc, vals := if f.vc = .uni then splat (lane x 0) else x, nulls := s.nullsHere, ready := none } with
         done := b.done, issued := b.issued ||| BitVec.ofNat 96 (2 ^ s.idx), progress := s.clock }).plainRequest s.idx
     let mine := if f.vc = .uni then (if s.nullsHere = allLanes then [] else [0]) else lanesOf (~~~s.nullsHere)
     let pattern := fun (v : Lanes) (l : Nat) => (lane v l).toNat % 2 ^ f.ty.width
     let written := fun (x : Lanes) (l : Nat) => pattern x l = pattern o.b.vals l ∧ pattern o.c.vals l ≠ pattern x l
     (∀ x, s.heldHere = some x → exec (.atom f m) s = .next (again b x) ∧
       ((∀ l ∈ mine, written x l) → exec (.cas f m) s = .next (again b x)) ∧
       ((∃ l ∈ mine, ¬written x l) → exec (.cas f m) s = .next (again { b with fired := b.fired ++
         [{ idx := s.idx, ins := .cas f m, lanes := ~~~s.nullsHere, a := o.a.vals, b := o.b.vals, c := o.c.vals }] } x))) ∧
     (∃ c q, (s.plainRequest s.idx).blk? = some c ∧ c.reqs = b.reqs ++ [q] ∧ q.idx = s.idx ∧ c.toks = b.toks ∧ c.stores = b.stores ∧
       (∃ d, (s.plainRequest s.idx).agenda = s.agenda ++ [⟨s.now + 1 + d, none, .gang s.gid, .memoryReply q.num .data⟩]) ∧
       (s.plainRequest s.idx).mem = s.mem ∧ (s.plainRequest s.idx).teams = s.teams ∧ (s.plainRequest s.idx).g.regs = s.g.regs ∧
       (s.plainRequest s.idx).g.held = s.g.held) ∧
     ∀ i, i = .atom f m ∨ i = .cas f m → s.heldHere = none →
       (s.launchOf.fixord = true → refused ≠ 0 → Faults i s 13 0 m.lsid.toNat refused []) ∧
       (s.launchOf.fixord = true → refused = 0 → s.g.sup = true → o.live ≠ 0 → Faults i s 1 20 m.lsid.toNat o.live []) ∧
       (s.launchOf.fixord = false → (m.as = .ctx ∨ m.as = .pool) → s.g.sup = false →
         exec i s = .next (s.raise { code := 16, sub := 2, lanes := b.active })))

/-- Prefetches, fences and waits (R402, R404, R407, R467): `pref` never faults and changes no register; `fence` completes, a release at a
scope beyond the core with every merge step of the core written (R210, R218); `wait`, `waitr` and `waitc` complete when their condition
holds, or when they are null, and stay to be issued until then. -/
def Obligations.FencesAndWaits : Prop :=
  ∀ (f : Form) (m : MemArg) (lsid : BitVec 5) (n1 n2 n3 n4 : BitVec 6) (p : Path) (s : State) (b : Blk), s.blk? = some b →
    let o := b.opnd s.idx f
    let open_ := fun (l : List Flight) => inFlight l
    let drained := open_ s.g.flST ≤ n1.toNat ∧ open_ s.g.flCP ≤ n2.toNat ∧ open_ s.g.flTA ≤ n3.toNat ∧ open_ s.g.flSF ≤ n4.toNat
    let path := match p with | .st => s.g.flST | .cp => s.g.flCP | .ta => s.g.flTA | .sf => s.g.flSF
    let a := (lane o.a.vals 0).toNat
    (∃ t, exec (.pref f m) s = .next t ∧ t.blk? = some (Blk.markDone { b with progress := s.clock } s.idx) ∧ t.g.regs = s.g.regs ∧
      t.g.ks = s.g.ks ∧ t.g.fst = s.g.fst ∧ (∀ n, (t.teamAt n).stash = (s.teamAt n).stash ∧ (t.teamAt n).tile = (s.teamAt n).tile) ∧
      ∃ l, t.agenda = s.agenda ++ l) ∧
    (let far := (Instr.fence f lsid).releasesLsid = true ∧ 2 ≤ f.sc.toNat
     (¬far → Finishes (.fence f lsid) s b) ∧
     (far → ∃ t, exec (.fence f lsid) s = .next t ∧ t.blk? = some (Blk.markDone { b with progress := s.clock } s.idx) ∧
       (t.coreAt s.g.core).merge = [] ∧ t.mem = (s.flushCore s.g.core).mem ∧ t.g.regs = s.g.regs)) ∧
    (o.live = 0 ∨ drained → Finishes (.wait f n1 n2 n3 n4) s b) ∧
    (o.live ≠ 0 → ¬drained → exec (.wait f n1 n2 n3 n4) s = .next s) ∧
    (o.live = 0 ∨ open_ path ≤ min a 63 → Finishes (.waitr f p) s b) ∧
    (o.live ≠ 0 → min a 63 < open_ path → exec (.waitr f p) s = .next s) ∧
    (o.live = 0 ∨ a ≤ s.core.cyc → Finishes (.waitc f) s b) ∧
    (o.live ≠ 0 → s.core.cyc < a → exec (.waitc f) s = .next s)

/-- Mapped regions (R409 to R411): `smap` is refused, switching every active lane off with `STASH_RANGE`, when its operands are not
multiples of 256, the range is empty or leaves the stash, it meets another region, or 16 exist; otherwise it is done and its effect is left for
the commit; `swb` and `sinv` never fail. -/
def Obligations.MappedRegions : Prop :=
  ∀ (f : Form) (lsid : BitVec 5) (s : State) (b : Blk), s.blk? = some b →
    let o := b.opnd s.idx f
    let a := (lane o.a.vals 0).toNat
    let v := (lane o.b.vals 0).toNat
    let n := (lane o.c.vals 0).toNat
    let all := s.team.regions ++ b.smaps
    let meets := fun (x y len len' : Nat) => x < y + len' ∧ y < x + len
    let bad := a % 256 ≠ 0 ∨ v % 256 ≠ 0 ∨ n % 256 ≠ 0 ∨ n = 0 ∨ 1024 * s.team.stashKiB < a + n ∨ 16 ≤ all.length ∨
      ∃ r ∈ all, meets a r.off n r.len ∨ meets v r.va.toNat n r.len
    let off := fun (i : Instr) => exec i s = .next (s.setBlk (Blk.markDone (b.switchOff ((lanesOf o.act).map fun l => (l, 0))) s.idx))
    (o.live = 0 ∨ ¬bad → Departs (.smap f lsid) f s b) ∧ (o.live ≠ 0 → bad → off (.smap f lsid)) ∧
    (o.live = 0 ∨ (∃ r ∈ s.team.regions, r.off = a ∧ r.pending = false ∧ r.leaving = false) → Departs (.sunmap f lsid) f s b) ∧
    (o.live ≠ 0 → (∀ r ∈ s.team.regions, r.off = a → r.pending = true ∨ r.leaving = true) → off (.sunmap f lsid)) ∧
    Departs (.swb f lsid) f s b ∧ Departs (.sinv f lsid) f s b ∧
    (∀ c ∈ lanesOf o.act, ∀ d : Blk, d = b.switchOff ((lanesOf o.act).map fun l => (l, 0)) → d.off.getLsbD c = true)

/-- The device heap (R413 to R416): the size class, what a request takes (the head of its list, else the bump pointer within the limit, else
nothing), and what `halloc` and `hfree` do with it. -/
def Obligations.DeviceHeap : Prop :=
  ∀ (f : Form) (lsid : BitVec 5) (s : State) (b : Blk), s.blk? = some b →
    let o := b.opnd s.idx f
    let uni := f.vc = .uni
    let held := s.heldHere ≠ none
    let had := s.heldHere.getD []
    let live := if held then o.act &&& ~~~s.nullsHere else o.live
    let ls := if uni then (if live = 0 then [] else [0]) else lanesOf live
    let size := fun (l : Nat) => (lane o.a.vals l).toNat
    -- a lane that has received its block is not served again (R150, R415)
    let todo := if held then (if s.launchOf.allocNull = true then [] else ls.filter fun l => lane had l == 0) else ls
    let big := todo.filter fun l => 131072 < size l
    let got := fun (l : Nat) => if held then lane had l else 0
    let h := 0x00FFFFFFFFFE0000 + 0x14000 + 128 * (4 * s.self + s.g.core / 144)
    -- a request of no bytes takes nothing
    (s.heapTake 0 = (.ok (some 0), s)) ∧
    -- size classes: 64 bytes and the powers of two above
    (∀ n, 0 < n → n ≤ 131072 → n ≤ 2 ^ (6 + sizeClass n) ∧ (64 < n → 2 ^ (5 + sizeClass n) < n) ∧ sizeClass n ≤ 11) ∧
    s.heapAt = h ∧
    (big ≠ [] → Faults (.halloc f lsid) s 1 19 lsid.toNat (if uni then live else maskOf fun l => big.contains l) []) ∧
    (∀ served out s', big = [] → s.heapServe size todo = (served, out, none, s') →
      let given := ((ls.filter fun l => got l != 0).map fun l => (l, got l)) ++ served
      let kept := s'.hold (lanes fun l => laneVal given l) (~~~live)
      let t := if uni then tokOf .uni (splat (laneVal given 0)) (if ls = [] then allLanes else 0)
        else tokOf .lane (lanes (laneVal given)) (~~~live)
      (out = [] ∨ s.launchOf.allocNull = true → exec (.halloc f lsid) s = .next (kept.deliverLoad f t .rstash [⟨0, 0, 0⟩] true 3)) ∧
      (out ≠ [] → s.launchOf.allocNull = false →
        let m := if uni then o.act else maskOf fun l => out.contains l
        exec (.halloc f lsid) s = .next (kept.raise
          { code := 10, sub := 0, idx := s.idx, lsid := lsid.toNat, lanes := m,
            va := lanes fun l => if m.getLsbD l then lane o.a.vals (if uni then 0 else l) else 0 }))) ∧
    ((∀ l, o.live.getLsbD l = true → lane o.a.vals l = 0) → Departs (.hfree f lsid) f s b) ∧
    (∀ base bump s1 s2, (∃ l, o.live.getLsbD l = true ∧ lane o.a.vals l ≠ 0) →
      s.supWord h = (.ok base, s1) → s1.supWord (h + 16) = (.ok bump, s2) →
      let bad := maskOf fun l => o.live.getLsbD l &&
        (let p := (lane o.a.vals l).toNat
         let n := (lane o.b.vals l).toNat
         p != 0 && (n == 0 || decide (131072 < n) || p % 2 ^ (6 + sizeClass n) != 0 || decide (p < base) || decide (bump ≤ p)))
      (bad = 0 → exec (.hfree f lsid) s = .next (s2.setBlk (Blk.markDone
        { b with progress := s.clock, fired := b.fired ++ [{ idx := s.idx, ins := .hfree f lsid, lanes := o.live, a := o.a.vals,
                                                             b := o.b.vals, c := o.c.vals }] } s.idx))) ∧
      (bad ≠ 0 → exec (.hfree f lsid) s = .next (s2.raise { code := 1, sub := 19, idx := s.idx, lsid := lsid.toNat, lanes := bad })))

/-! ### Synchronization (spec/14) -/

/-- Semaphores (R417 to R419, R150): `sem.acq` takes its amount when the count covers it and nobody waits, else it queues and is
granted in order; `sem.try` answers at once; `sem.rel` raises the count, up to 65,535, and as a release at a scope beyond the core writes what its
core has still to write (R210, R211). A performed instruction is not performed again, whatever its operands then hold.

Instructions that act once, have no outcome held and are null in every active lane do nothing: their results are null everywhere (R280,
R428); and a gated instruction in a handler under fixed order faults (R248). -/
def Obligations.Semaphores : Prop :=
  (∀ (f : Form) (n : BitVec 6) (m : BitVec 10) (s : State) (b : Blk), s.blk? = some b →
     let o := b.opnd s.idx f
     let x := s.core.semAt n.toNat
     let fits := x.queue = [] ∧ m.toNat ≤ x.count
     let sem := fun (t : State) => (t.coreAt s.g.core).semAt n.toNat
     let done := fun (t : State) => t.blk? = some (Blk.markDone { b with progress := s.clock } s.idx)
     let same := fun (t : State) => t.g.regs = s.g.regs ∧ t.g.fst = s.g.fst ∧ t.mem = s.mem ∧ t.teams = s.teams
     let bars := s.g.sup = true ∧ s.launchOf.fixord = true
     (∀ h, s.heldHere = some h → (∀ i ∈ [Instr.semAcq f n m, .semRel f n m], exec i s = .next s.doneNow) ∧
       exec (.semTry f n m) s = .next (s.deliverUni f (lane h 0))) ∧
     (s.heldHere = none → o.live ≠ 0 → ¬bars →
       (fits → ∃ t, exec (.semAcq f n m) s = .next t ∧ sem t = { x with count := x.count - m.toNat } ∧ done t ∧
         t.heldHere = some performed ∧ same t) ∧
       (x.queue ≠ [] → s.launchOf.fixord = false → x.count < (x.queue.head?.map (·.2)).getD 0 →
         ∃ t, exec (.semAcq f n m) s = .next t ∧ sem t = { x with queue := x.queue ++ [(s.gid, m.toNat)] } ∧
           t.blk? = some (b.markIssued s.idx s.clock) ∧ t.heldHere = none ∧ same t) ∧
       (x.queue = [] → x.count < m.toNat → ∃ t, exec (.semAcq f n m) s = .next t ∧ sem t = { x with queue := [(s.gid, m.toNat)] } ∧
           t.blk? = some (b.markIssued s.idx s.clock) ∧ t.g.excluded = s.launchOf.fixord ∧ same t) ∧
       (x.queue = [] → x.count + m.toNat ≤ 65535 → ∃ t, exec (.semRel f n m) s = .next t ∧
         sem t = { x with count := x.count + m.toNat } ∧ done t ∧ t.heldHere = some performed ∧ t.g.regs = s.g.regs ∧
         (f.sc.toNat < 2 → same t) ∧ (2 ≤ f.sc.toNat → t.mem = (s.flushCore s.g.core).mem ∧ (t.coreAt s.g.core).merge = [])) ∧
       (65535 < x.count + m.toNat → Faults (.semRel f n m) s 12 0 255 o.live []) ∧
       (∃ t, exec (.semTry f n m) s = .next (t.deliverUni f (if fits then 1 else 0)) ∧
         sem t = (if fits then { x with count := x.count - m.toNat } else x) ∧
         t.heldHere = some (lanes fun l => if l = 0 then (if fits then 1 else 0) else 0) ∧ same t))) ∧
  (∀ (f : Form) (n : BitVec 6) (m : BitVec 10) (k : BitVec 9) (s : State) (b : Blk), s.blk? = some b →
     let o := b.opnd s.idx f
     let gated := [Instr.semAcq f n m, .semRel f n m, .semTry f n m, .barInit f k, .barArr f k, .barWait f k, .barAw f k, .barDrop f k, .barTx f k, .barGen f k]
     let null := fun (cls : TokClass) (pair : Bool) =>
       let t : Tok := { cls := cls, vals := splat 0, nulls := allLanes, ready := some (s.clock + if s.twoPass then 3 else 2) }
       Host.Outcome.next (φ := Fault) (ρ := Refusal) (s.setBlk (if pair then b.deliverPair s.idx f t t else b.deliver s.idx f t))
     let waits := s.requestOut s.g.sup (b.position s.g.sup s.idx) = true
     (o.live = 0 → exec (.tlwait f) s = null f.vc false ∧ exec (.tlread f) s = null f.vc false ∧ exec (.dsync f) s = .next s.doneNow) ∧
     (o.live ≠ 0 → s.g.sup = true → s.launchOf.fixord = true → Faults (.dsync f) s 1 20 255 o.live []) ∧
     (s.heldHere = none →
       (o.live = 0 → ∀ i ∈ gated, exec i s = null f.vc false) ∧
       (o.live = 0 → ¬waits → exec (.chunk f) s = null .uni true) ∧
       (o.act &&& o.pred &&& ~~~o.a.nulls = 0 → ¬waits → exec (.qsend f) s = null .uni false ∧ exec (.qtake f) s = null .lane false) ∧
       (o.live ≠ 0 → s.g.sup = true → s.launchOf.fixord = true →
         (∀ i ∈ gated, Faults i s 1 20 255 o.live []) ∧ (¬waits → Faults (.chunk f) s 1 20 255 o.live []))))

/-- The state word of a barrier (R420, R422): arrival, the check that ends a generation, drops, pending transactions, and when a
generation is done.

Barrier instructions (R421 to R423, R150): each acts once on the team's state word; a barrier that the team does not hold, an
over-arrival and operands out of range fault. An arrival is a release: at a scope beyond the core what its core has still to write is
written (R210, R211). One that has performed is not performed again. -/
def Obligations.Barriers : Prop :=
  (∀ (gen arrived expect drops tx : Nat), gen < 2 ^ 32 → arrived < 64 → expect < 64 → drops < 64 → tx < 16384 →
     let w := barWord gen arrived expect drops tx
     barGenOf w = gen ∧ barArrived w = arrived ∧ barExpect w = expect ∧ barDrops w = drops ∧ barTxPend w = tx ∧
     (0 < expect → arrived = expect → tx = 0 → drops ≤ expect →
       barCheck w = barWord ((gen + 1) % 2 ^ 32) 0 (expect - drops) 0 0) ∧
     (expect = 0 ∨ arrived ≠ expect ∨ tx ≠ 0 → barCheck w = w) ∧
     (∀ drop, expect = 0 ∨ arrived = expect → barArrive drop w = none) ∧
     (arrived < expect → barArrive false w = some (barWord gen (arrived + 1) expect drops tx) ∧
       (drops < 63 → barArrive true w = some (barWord gen (arrived + 1) expect (drops + 1) tx))) ∧
     ∀ g, g < 2 ^ 32 → (barDone w g = true ↔ ∃ d, 1 ≤ d ∧ d ≤ 2 ^ 31 ∧ gen = (g + d) % 2 ^ 32)) ∧
  (∀ (f : Form) (k : BitVec 9) (s : State) (b : Blk) (tm : Team), s.blk? = some b → tfind s.teams s.g.team = some tm →
     let o := b.opnd s.idx f
     let w := tget tm.bars k.toNat 0
     let a := (lane o.a.vals 0).toNat
     let word := fun (t : State) => tget (t.teamAt s.g.team).bars k.toNat 0
     let out := fun (x : W64) => some (lanes fun l => if l = 0 then x else 0)
     let gen := BitVec.ofNat 64 (barGenOf w)
     let uni := fun (x : W64) => Blk.completed b s.clock s.idx f (s.clock + if s.twoPass then 3 else 2) { cls := .uni, vals := splat x, nulls := 0 } 0
     let releases := fun (i : Instr) => i ∈ [Instr.barArr f k, .barAw f k, .barDrop f k] ∧ 2 ≤ f.sc.toNat
     let same := fun (i : Instr) (t : State) => t.g.regs = s.g.regs ∧ t.g.fst = s.g.fst ∧ (¬releases i → t.mem = s.mem) ∧
       (releases i → t.mem = (s.flushCore s.g.core).mem)
     let does := fun (i : Instr) (w' : W64) (x : W64) (c : Blk) =>
       ∃ t, exec i s = .next t ∧ word t = w' ∧ same i t ∧
         (s.barWaited s.g.team k.toNat = false → t.heldHere = out x ∧ t.blk? = some c)
     let doneBlk := Blk.markDone { b with progress := s.clock } s.idx
     let all := [Instr.barInit f k, .barArr f k, .barWait f k, .barAw f k, .barDrop f k, .barTx f k, .barGen f k]
     (∀ x, s.heldHere = some x →
       (∀ i ∈ [Instr.barArr f k, .barDrop f k, .barGen f k], exec i s = .next (s.deliverUni f (lane x 0))) ∧
       (∀ i ∈ [Instr.barWait f k, .barTx f k, .barInit f k], exec i s = .next s.doneNow) ∧
       exec (.barAw f k) s = .next (if barDone w (lane x 0).toNat then s.deliverUni f (lane x 0) else s.waitHere)) ∧
     (o.live ≠ 0 → s.g.sup = false ∨ s.launchOf.fixord = false → s.heldHere = none →
       (tm.barriers ≤ k.toNat → ∀ i ∈ all, Faults i s 1 19 255 o.live []) ∧
       (k.toNat < tm.barriers →
         does (.barGen f k) w w (uni w) ∧
         (∀ drop w', barArrive drop w = some w' → does (if drop then .barDrop f k else .barArr f k) (barCheck w') gen (uni gen)) ∧
         (barArrive false w = none → Faults (.barArr f k) s 11 0 255 o.live [] ∧ Faults (.barAw f k) s 11 0 255 o.live []) ∧
         (barArrive true w = none → Faults (.barDrop f k) s 11 0 255 o.live []) ∧
         (barDone w a = true → does (.barWait f k) w 1 doneBlk) ∧
         (barDone w a = false → exec (.barWait f k) s = .next s.waitHere) ∧
         (∀ w', barArrive false w = some w' → barDone (barCheck w') (barGenOf w) = false →
           does (.barAw f k) (barCheck w') gen (b.markIssued s.idx s.clock)) ∧
         (-8192 ≤ (lane o.a.vals 0).toInt → (lane o.a.vals 0).toInt ≤ 8191 →
           does (.barTx f k) (barCheck (barWord (barGenOf w) (barArrived w) (barExpect w) (barDrops w)
             (((barTxPend w : Int) + (lane o.a.vals 0).toInt) % 16384).toNat)) 1 doneBlk) ∧
         ((lane o.a.vals 0).toInt < -8192 ∨ 8191 < (lane o.a.vals 0).toInt → Faults (.barTx f k) s 1 19 255 o.live []) ∧
         (a ≤ 63 → barArrived w = 0 → barDrops w = 0 → s.barWaited s.g.team k.toNat = false →
           does (.barInit f k) (barWord (barGenOf w) 0 a 0 0) 1 doneBlk) ∧
         (63 < a ∨ barArrived w ≠ 0 ∨ barDrops w ≠ 0 ∨ s.barWaited s.g.team k.toNat = true → Faults (.barInit f k) s 1 19 255 o.live []))))

/-- Timelines (R424) and `dsync` (R425): `tlread` delivers a timeline's value, when its reply has come (R203), `tlwait` completes when it has
reached the operand, both with the faults of a selector that names nothing, another context, or a lost unit. `dsync` completes; as a
release beyond the core it writes what its core has still to write (R211). -/
def Obligations.Timelines : Prop :=
  ∀ (f : Form) (s : State) (b : Blk), s.blk? = some b →
    let o := b.opnd s.idx f
    let sel := (lane o.a.vals 0).toNat
    let to_ := (lane o.b.vals 0).toNat
    let core := sel % 256
    let die := sel / 2 ^ 8 % 4
    let far := o.live ≠ 0 ∧ (s.launchOf.domcl = true ∨ 2 ≤ f.sc.toNat)
    let reads := fun (v : W64) => exec (.tlread f) s = .next ((s.setBlk { Blk.deliver b s.idx f (tokOf .uni (splat v) 0) with
      done := b.done, issued := b.issued ||| BitVec.ofNat 96 (2 ^ s.idx), progress := s.clock }).plainRequest s.idx)
    (s.g.sup = false ∨ s.launchOf.fixord = false →
      (¬far → exec (.dsync f) s = .next s.doneNow) ∧ (far → exec (.dsync f) s = .next (s.flushCore s.g.core).doneNow)) ∧
    (o.live ≠ 0 →
      -- the command queue's timeline of the context
      (sel = s.ctxNo → s.ctxNo < 64 →
        let v := (s.queueAt s.ctxNo).qtl
        reads v ∧ exec (.tlwait f) s = .next (if to_ ≤ v.toNat then s.doneNow else s)) ∧
      (sel < 64 → sel ≠ s.ctxNo → Faults (.tlread f) s 16 4 255 o.live [] ∧ Faults (.tlwait f) s 16 4 255 o.live []) ∧
      -- a Badger of this package
      (∀ k, k < 512 → k / 8 = s.self → s.stackLost k = false → sel = 2 ^ 60 + k →
        let v := BitVec.ofNat 64 (tget (s.ctxAt s.ctxNo).badger k 0)
        reads v ∧ exec (.tlwait f) s = .next (if to_ ≤ v.toNat then s.doneNow else s)) ∧
      (∀ k, k < 512 → s.inDomain (k / 8) = true → s.stackLost k = true → sel = 2 ^ 60 + k →
        Faults (.tlread f) s 8 0 255 o.live [] ∧ Faults (.tlwait f) s 8 0 255 o.live []) ∧
      -- a Beaver's and a tile queue's of a core of this package
      (∀ kind, kind = 2 ∨ kind = 3 → s.self < 64 → sel = kind * 2 ^ 60 + s.self * 2 ^ 10 + die * 2 ^ 8 + core → core ≤ 143 →
        s.pkg.failedUnits.contains (.die die) = false →
        let c := s.coreAt (die * 144 + core)
        let v := BitVec.ofNat 64 (if kind = 2 then tget c.bvDone s.ctxNo 0 else c.tqDone)
        reads v ∧ exec (.tlwait f) s = .next (if to_ ≤ v.toNat then s.doneNow else s)) ∧
      (143 < core → 2 ^ 61 ≤ sel → sel < 2 ^ 62 → Faults (.tlread f) s 1 19 255 o.live []) ∧
      (2 ^ 62 ≤ sel → Faults (.tlread f) s 1 19 255 o.live [] ∧ Faults (.tlwait f) s 1 19 255 o.live []))

/-- Requests to a home agent at issue (R343, R344, R150): the first time the request goes out once its address is good, and arrives not
before those that its die has sent for the line (02 R49), after what its core has still to write where it is a release (`qsend`, R211); while
it is out it is not made again; a held reply is delivered, whatever the operands then hold. -/
def Obligations.HomeRequests : Prop :=
  ∀ (f : Form) (s : State) (b : Blk), s.blk? = some b →
    let o := b.opnd s.idx f
    let gate := o.act &&& o.pred &&& ~~~o.a.nulls
    let pos := b.position s.g.sup s.idx
    let bars := s.g.sup = true ∧ s.launchOf.fixord = true
    let a := (lane o.a.vals 0).toNat
    let ok := s.clock + if s.twoPass then 3 else 2
    let uni := fun (x : W64) => ({ cls := .uni, vals := splat x, nulls := 0, ready := some ok } : Tok)
    let ofLine := fun (p : Nat) (d : Due) => ∃ g c, requestLine d = some (g, p / 256) ∧ s.gangAt g = some c ∧ c.core / 144 = s.g.core / 144
    let sends := fun (i : Instr) (p : Nat) (s1 : State) (ev : Instr) =>
      ∃ t l time, exec i s = .next t ∧ t.blk? = some (b.markIssued s.idx s.clock) ∧
        t.agenda = l ++ [⟨time, none, .gang s.gid, ev⟩] ∧ s.now < time ∧ (∀ d ∈ s1.agenda, d ∈ l) ∧ (∀ d ∈ l, ofLine p d → d.time ≤ time) ∧
        t.g.held = s.g.held ∧ t.g.regs = s.g.regs ∧ t.mem = s1.mem
    (∀ x, s.heldHere = some x →
      exec (.chunk f) s = .next (s.setBlk (b.deliverPair s.idx f (uni (lane x 0)) (uni (lane x 1)))) ∧
      exec (.qsend f) s = .next (s.setBlk (b.deliver s.idx f (uni (lane x 0)))) ∧
      exec (.qtake f) s = .next (s.setBlk (b.deliver s.idx f { cls := .lane, vals := x, nulls := s.nullsHere, ready := some ok }))) ∧
    (s.heldHere = none → s.requestOut s.g.sup pos = true →
      ∀ i ∈ [Instr.chunk f, .qsend f, .qtake f], exec i s = .next s.issuedNow) ∧
    (¬bars → s.heldHere = none → s.requestOut s.g.sup pos = false →
      (o.live ≠ 0 → a % 32 ≠ 0 → Faults (.chunk f) s 7 0 255 o.live (splat (lane o.a.vals 0))) ∧
      (gate ≠ 0 → a % 256 ≠ 0 → Faults (.qsend f) s 7 0 255 gate (splat (lane o.a.vals 0)) ∧
        Faults (.qtake f) s 7 0 255 gate (splat (lane o.a.vals 0))) ∧
      (o.live ≠ 0 → a % 32 = 0 → ∀ p s1, s.translate s.ctxNo a { write := true, sup := s.g.sup } = (.ok p, s1) →
        sends (.chunk f) p s1 (.chunkRequest s.g.sup pos (BitVec.ofNat 64 p))) ∧
      (gate ≠ 0 → a % 256 = 0 → ∀ p s1, s.translate s.ctxNo a { sup := s.g.sup } = (.ok p, s1) →
        (s.edges.contains p = true →
          sends (.qsend f) p (s1.flushCore s.g.core) (.edgeSend
            { gang := s.gid, handler := s.g.sup, pos := pos, desc := BitVec.ofNat 64 p,
              payload := o.payload (natOf (s1.poolRead (p + 12) 2) / 8) }) ∧
          sends (.qtake f) p s1 (.edgeTake { gang := s.gid, handler := s.g.sup, pos := pos, desc := BitVec.ofNat 64 p, payload := [] }) ∧
          ∀ i ∈ [Instr.qsend f, .qtake f], ∀ t, exec i s = .next t → t.nullsHere = ~~~o.pred) ∧
        (s.edges.contains p = false →
          exec (.qsend f) s = .next (s1.raise { code := 1, sub := 19, idx := s.idx, lanes := gate }) ∧
          exec (.qtake f) s = .next (s1.raise { code := 1, sub := 19, idx := s.idx, lanes := gate }))))

/-! ### Tiles, accumulators, copies and Badgers (spec/13, spec/15) -/

/-- Tile array instructions (R428, R430, R434 to R439): checks at issue, the result left for the commit as the tile's bytes, the array
taken for 16, 8 or 4 cycles and the tile's result due after 24, 20 or 12.

Row reductions (R438): each lane gets the results of two rows over their first L entries; L is 64 without a source in slot a. -/
def Obligations.TileInstructions : Prop :=
  (∀ (f : Form) (a : MmaArg) (zs zd : BitVec 4) (k1 : BitVec 5) (largest : Bool) (s : State) (b : Blk), s.blk? = some b →
     let o := b.opnd s.idx f
     let has := fun (z : Nat) => 16 * (z + 1) ≤ s.team.tileKiB
     let off := (lane o.a.vals 0).toNat
     let soff := (lane o.b.vals 0).toNat
     let stash := 1024 * s.team.stashKiB
     let mx := f.ty.isMx
     let tile := fun (z : Nat) => s.tileOf b s.idx z
     let left := fun (i : Instr) (z : Nat) (rows : List (List Nat)) (busy due : Nat) =>
       ∃ ev, exec i s = .next (((s.setBlk (Blk.markDone
         { b with progress := s.clock, tiles := insertTile { idx := s.idx, off := 16384 * z, data := tileBytes rows } b.tiles,
                  prov := b.prov ++ ev } s.idx)).modCore s.g.core (fun c => { c with tileFree := s.clock + busy })).tileDue z due)
     let product := fun (dist : Bool) => (mmaResult dist f.ty a.bfmt a.zero a.z.toNat (s.g.fragBytes a.vb.toNat 16)
       (if mx then s.g.fragBytes (a.vb.toNat + 16) 1 else []) (stRead s.team.stash off 4096)
       (if mx then stRead s.team.stash soff (64 * groupCount f.ty) else []) (tile a.z.toNat)).1
     let mma := fun (dist : Bool) => if dist then Instr.tdist f a else .tmma f a
     let low := s.pkg.bring = .reduced ∧ ¬(f.ty = .bf16 ∧ a.bfmt = .bf16)
     let out := stash < off + 4096 ∨ (mx = true ∧ stash < soff + 64 * groupCount f.ty)
     let odd := off % 256 ≠ 0 ∨ (mx = true ∧ soff % 64 ≠ 0)
     let all := [Instr.tmma f a, .tdist f a, .ttopk f zs zd k1 largest, .trscl f zd]
     (o.live = 0 → ∀ i ∈ all, Finishes i s b) ∧
     (o.live ≠ 0 →
       (¬has a.z.toNat → ∀ dist, Faults (mma dist) s 1 16 255 o.live []) ∧
       (has a.z.toNat → ∀ dist, (low → Faults (mma dist) s 1 18 255 o.live []) ∧
         (¬low → out → Faults (mma dist) s 1 19 255 o.live []) ∧ (¬low → ¬out → odd → Faults (mma dist) s 7 0 255 o.live []) ∧
         (¬low → ¬out → ¬odd → left (mma dist) a.z.toNat (product dist) 16 24)) ∧
       (¬has zs.toNat ∨ ¬has zd.toNat → Faults (.ttopk f zs zd k1 largest) s 1 16 255 o.live []) ∧
       (has zs.toNat → has zd.toNat → left (.ttopk f zs zd k1 largest) zd.toNat ((tile zs.toNat).map (topRow f.ty largest (k1.toNat + 1))) 8 20) ∧
       (¬has zd.toNat → Faults (.trscl f zd) s 1 16 255 o.live []) ∧
       (has zd.toNat → left (.trscl f zd) zd.toNat ((tile zd.toNat).mapIdx fun i row =>
         if o.live.getLsbD (i / 2) then row.map (fun x => (fpMul .f32 ⟨modeOf f.rm s.env.rmode false, 0⟩ x
           ((lane o.a.vals (i / 2)).toNat / 2 ^ (32 * (i % 2)) % 2 ^ 32)).1) else row) 4 12))) ∧
  (∀ (f : Form) (z : BitVec 4) (mx : Bool) (s : State) (b : Blk), s.blk? = some b →
     let o := b.opnd s.idx f
     let i := if mx then Instr.trmax f z else .trsum f z
     let n := fun (row : Nat) => match b.tok s.idx .a with
       | some t => min 64 ((lane t.vals (row / 2)).toNat / 2 ^ (32 * (row % 2)) % 2 ^ 32)
       | none => 64
     let rows := s.tileOf b s.idx z.toNat
     let value := fun (row : Nat) => rowReduce mx f.ty (modeOf f.rm s.env.rmode false) (n row) (rows.getD row [])
     let token := fun (x : Lanes) => tokOf .lane x o.nulls
     (o.act &&& o.pred = 0 → Completes i f (12, 13) s b (token (splat 0)) 0) ∧
     (o.act &&& o.pred ≠ 0 → s.team.tileKiB < 16 * (z.toNat + 1) → Faults i s 1 16 255 (o.act &&& o.pred) []) ∧
     (o.act &&& o.pred ≠ 0 → 16 * (z.toNat + 1) ≤ s.team.tileKiB → rows.length = 64 ∧ ∃ ev, exec i s = .next ((s.setBlk (Blk.completed
       { b with prov := b.prov ++ ev } s.clock s.idx f (s.clock + if s.twoPass then 13 else 12)
       (token (lanes fun l => BitVec.ofNat 64 (value (2 * l) + 2 ^ 32 * value (2 * l + 1)))) 0)).modCore s.g.core
         fun c => { c with tileFree := s.clock + 4 })))

/-- One element of a product (R434): each group of k terms is summed exactly and the accumulator takes it with one rounding to nearest;
for `i8` the sum is taken modulo 2^32. -/
def Obligations.TileProducts : Prop :=
  ∀ (dist : Bool) (ta tb : Ty) (zero : Bool) (z : Nat) (ab asc bb bsc : List Byte) (d : List (List Nat)) (i j : Nat),
    ab.length = 4096 → bb.length = 4096 → d.length = 64 → (∀ r ∈ d, r.length = 64) → i < 64 → j < 64 →
    asc.length = 64 * groupCount ta → bsc.length = 64 * groupCount tb → groupCount tb = groupCount ta →
    let r := (mmaResult dist ta tb zero z ab asc bb bsc d).1
    let old := if zero then 0 else (d.getD i []).getD j 0
    let row := fun (bs : List Byte) (n : Nat) => (bs.drop (64 * n)).take 64
    let term := fun (k : Nat) =>
      let x := ((row ab i).getD k 0).toInt
      let y := ((row bb j).getD k 0).toInt
      if dist then (x - y) * (x - y) else x * y
    r.length = 64 ∧ (∀ q ∈ r, q.length = 64) ∧
    (ta = .i8 → (r.getD i []).getD j 0 = ((old + ((List.range 64).map term).sum) % 2 ^ 32).toNat) ∧
    (ta ≠ .i8 → ta.isMx = false → tb.isMx = false →
      let group := fun (t : Ty) (bs : List Byte) (n g : Nat) =>
        (((rowPats t (row bs n)).drop (groupSize t * g)).take (groupSize t)).map (fIn t)
      (r.getD i []).getD j 0 = (List.range (groupCount ta)).foldl (fun acc g =>
        (finish .f32 ⟨0, 0⟩ (fAdd 0 (fIn .f32 acc) (sumTerms (((group ta ab i g).zip (group tb bb j g)).map fun p => mmaTerm dist p.1 p.2)))).1) old)

/-- Selection of a row's k first entries (R437): they are entries of the row with their columns, in rank order, equal entries by column,
and no entry left out ranks before one that is kept. -/
def Obligations.TopEntries : Prop :=
  ∀ (t : Ty) (largest : Bool) (k : Nat) (row : List Nat), t = .i32 ∨ t = .f32 → row.length = 64 → 0 < k → k ≤ 32 →
    let r := topRow t largest k row
    let val := fun (j : Nat) => r.getD j 0
    let col := fun (j : Nat) => r.getD (32 + j) 0
    r.length = 64 ∧
    (∀ j, k ≤ j → j < 32 → val j = 0 ∧ col j = 0) ∧
    (∀ j, j < k → col j < 64 ∧ val j = row.getD (col j) 0) ∧
    (∀ i j, i < j → j < k → ranksBefore t largest (val j) (val i) = false ∧
      (ranksBefore t largest (val i) (val j) = false → col i < col j)) ∧
    (∀ c, c < 64 → (∀ j, j < k → col j ≠ c) → ∀ j, j < k → ranksBefore t largest (row.getD c 0) (val j) = false)

/-- Tile queue instructions (R440, R428): checked at issue, entered at commit.

Copies and Badger operations (R445, R453, R428): the descriptor must lie in the stash and be aligned; the instruction is then done, and
its descriptor is read at the commit point. -/
def Obligations.QueueAndCopyInstructions : Prop :=
  (∀ (f : Form) (z : BitVec 4) (tr : Bool) (src : Ty) (s : State) (b : Blk), s.blk? = some b →
     let o := b.opnd s.idx f
     let off := (lane o.a.vals 0).toNat
     let pitch := fun (size : Nat) => if (lane o.b.vals 0).toNat = 0 then size else (lane o.b.vals 0).toNat
     let stash := 1024 * s.team.stashKiB
     let bad := fun (size : Nat) => off % 16 ≠ 0 ∨ pitch size % 16 ≠ 0 ∨ pitch size < size ∨ stash < off + 63 * pitch size + size
     let scales := f.ty.isMx = true ∧ stash < (lane o.c.vals 0).toNat + 128
     let has := 16 * (z.toNat + 1) ≤ s.team.tileKiB
     let all : List (Instr × Prop) := [(.tld f z, bad 256), (.tst f z, bad 256), (.tclr f z, False),
       (.tcvt f z tr src, bad (8 * f.ty.width) ∨ scales)]
     ∀ p ∈ all, (o.live = 0 ∨ (has ∧ ¬p.2) → Departs p.1 f s b) ∧ (o.live ≠ 0 → ¬has → Faults p.1 s 1 16 255 o.live []) ∧
       (o.live ≠ 0 → has → p.2 → Faults p.1 s 1 19 255 o.live [])) ∧
  (∀ (f : Form) (p : BitVec 5) (e : Ty) (fn : BadgerFn) (s : State) (b : Blk), s.blk? = some b →
     let o := b.opnd s.idx f
     let a := (lane o.a.vals 0).toNat
     let all : List (Instr × Nat × Nat) :=
       [(.cpy f p, 384, 128), (.cpyg f p, 384, 128), (.cpyx f p, 384, 128), (.cfill f p, 384, 128), (.pfill f, 64, 64), (.pcopy f, 64, 64),
        (.pcmp f, 64, 64), (.predx f e fn, 64, 64), (.pgath f e fn, 64, 64)]
     ∀ x ∈ all, (o.live = 0 ∨ (a + x.2.1 ≤ 1024 * s.team.stashKiB ∧ a % x.2.2 = 0) → Departs x.1 f s b) ∧
       (o.live ≠ 0 → 1024 * s.team.stashKiB < a + x.2.1 → Faults x.1 s 1 19 255 o.live []) ∧
       (o.live ≠ 0 → a + x.2.1 ≤ 1024 * s.team.stashKiB → a % x.2.2 ≠ 0 → Faults x.1 s 7 0 255 o.live []))

/-- Exact accumulators (R389 to R391): lane l of accumulator j stands in 544 bytes below the end of tile memory; `xclr` clears it and its
invalid mark, `xacc` adds the exact product, `xadd` the operand; what is no number makes the lane invalid; `xrnd` rounds it once and `xsgn`
gives its sign. -/
def Obligations.Accumulators : Prop :=
  ∀ (f : Form) (j : BitVec 2) (s : State) (b : Blk), s.blk? = some b →
    let o := b.opnd s.idx f
    let need := 17408 * (4 * s.g.index + j.toNat + 1)
    let base := 1024 * s.team.tileKiB - need
    let value := fun (l : Nat) => accValue (s.tileView b s.idx (base + 544 * l) 544)
    let invalid := fun (l : Nat) => (s.invalView b s.idx j.toNat).getLsbD l
    let A := fun (l : Nat) => fIn f.ty (lane o.a.vals l).toNat
    let B := fun (l : Nat) => fIn f.ty (lane o.b.vals l).toNat
    let unit := fun (v : FVal) => match v with | .num n m e => some ((if n then -1 else 1) * ((m * 2 ^ (e + 2176).toNat : Nat) : Int)) | _ => none
    let prod := fun (l : Nat) => match A l, B l with | .num n m e, .num n' m' e' => FVal.num (n != n') (m * m') (e + e') | _, _ => .nan false
    let sig := fun (c : Prop) [Decidable c] => if c then fNV else 0
    let new := fun (i : Instr) (l : Nat) => match i with
      | .xclr _ _ => some 0 | .xacc _ _ => (unit (prod l)).map (value l + ·) | _ => (unit (A l)).map (value l + ·)
    let flag := fun (i : Instr) (l : Nat) => match i with
      | .xclr _ _ => 0 | .xacc _ _ => sig (A l = .nan true ∨ B l = .nan true) | _ => sig (A l = .nan true)
    let token := fun (v : Nat → W64) => tokOf .lane (lanes fun l => if o.live.getLsbD l then v l else 0) o.nulls
    let flags := fun (v : Nat → BitVec 5) => (lanesOf o.live).foldl (fun a l => a ||| v l) 0
    let rn := fun (l : Nat) => s.env.rndAll f l 0
    let round := fun (l : Nat) =>
      if invalid l then (f.ty.nan, fNV) else roundTo f.ty (rn l) (decide (value l < 0)) (value l).natAbs (-2176) false
    (o.live = 0 → (∀ i ∈ [Instr.xclr f j, .xacc f j, .xadd f j], Finishes i s b) ∧
      ∀ i ∈ [Instr.xrnd f j, .xsgn f j], Completes i f (12, 13) s b (tokOf .lane (splat 0) o.nulls) 0) ∧
    (o.live ≠ 0 → 1024 * s.team.tileKiB < need →
      ∀ i ∈ [Instr.xclr f j, .xacc f j, .xadd f j, .xrnd f j, .xsgn f j], Faults i s 1 16 255 o.live []) ∧
    (o.live ≠ 0 → need ≤ 1024 * s.team.tileKiB →
      (∀ i ∈ [Instr.xclr f j, .xacc f j, .xadd f j], ∃ t c, exec i s = .next t ∧ t.blk? = some c ∧
        ((∀ r ∈ b.tiles, r.idx < s.idx) → ∀ l, l < 32 → t.tileView c (s.idx + 1) (base + 544 * l) 544 =
          match o.live.getLsbD l, new i l with
          | true, some v => accBytesOf v
          | _, _ => s.tileView b s.idx (base + 544 * l) 544) ∧
        ((∀ r ∈ b.inval, r.1 < s.idx) → ∀ l, l < 32 → (t.invalView c (s.idx + 1) j.toNat).getLsbD l =
          if o.live.getLsbD l then (match i, new i l with | .xclr _ _, _ => false | _, none => true | _, some _ => invalid l) else invalid l) ∧
        c.flags = b.flags ||| flags (flag i) ∧ c.done = b.done ||| BitVec.ofNat 96 (2 ^ s.idx) ∧ c.toks = b.toks ∧
        t.mem = s.mem ∧ t.teams = s.teams ∧ t.g.regs = s.g.regs) ∧
      Completes (.xrnd f j) f (12, 13) s b (token fun l => BitVec.ofNat 64 (round l).1) (flags fun l => (round l).2) ∧
      Completes (.xsgn f j) f (12, 13) s b (token fun l =>
        if invalid l then 2 else if value l < 0 then BitVec.allOnes 64 else if value l = 0 then 0 else 1) 0)

/-! ### Frames -/

/-- A compute instruction changes nothing but the instance on which it acts, and the count of free values drawn (R242, R278, R287): every
register, status, mask and accumulator of the gang, the rest of the machine and all of memory stay as they are. A floating-point one completes in
every state that holds its instance (R374, R375, R384 to R388): its token stands at its targets, for use within the longest latency of R202, and
its flags are the instance's. -/
def Obligations.ComputeInstructionFrame : Prop :=
  (∀ (i : Instr) (s t : State), i.inBlock = true → exec i s = .next t →
    ∃ p q n, t = { s with g := { s.g with prim := p, sec := q }, free := n } ∧
      (s.isec = false → q = s.g.sec) ∧ (s.isec = true → p = s.g.prim)) ∧
  ∀ (f : Form) (k : PcvtKind) (src : Ty) (s : State) (b : Blk), s.blk? = some b →
    ∀ i ∈ [Instr.fadd f, .fsub f, .fmul f, .fma f, .fdiv f, .fsqrt f, .frcp f, .frsqrt f, .fexp f, .fexp2 f, .flog f, .flog2 f, .fsin f, .fcos f,
        .ftanh f, .flgst f, .ferf f, .fatan2 f, .fpow f, .pfma f, .padd f, .pmul f, .pmax f, .pcvt f k src, .pdot f],
      ∃ v fl n free, 4 ≤ n ∧ n ≤ 65 ∧ exec i s = .next (({ s with free := free } : State).setBlk
        (b.completed s.clock s.idx f (s.clock + n) (laneResult f (b.opnd s.idx f) v) fl))

/-- Registers change at commit (R242, R288): an instruction of a block that is no atomic leaves every v, s and k register, every accumulator
mask, FST, LCK and the accumulated stash codes as they are when it issues, whatever it does; where it faults inside a handler, FST is the
user's again.

Memory changes at commit (R242): with no trace session open, an instruction that translates no address leaves every byte of memory as it
is when it issues; one that is a release at issue may leave it as its core's earlier stores, written before it, make it (R210, R211). -/
def Obligations.IssueFrames : Prop :=
  (∀ (i : Instr) (s t : State), i.sig.isSome = true → (∀ f m, i ≠ .atom f m ∧ i ≠ .cas f m) → exec i s = .next t →
     t.gid = s.gid ∧ t.g.regs = s.g.regs ∧ t.g.ks = s.g.ks ∧ t.g.xinv = s.g.xinv ∧ t.g.lck = s.g.lck ∧ t.g.sfmask = s.g.sfmask ∧
     t.g.sfcode = s.g.sfcode ∧ t.g.pmres = s.g.pmres ∧ t.g.prov = s.g.prov ∧ t.g.quota = s.g.quota ∧ t.g.team = s.g.team ∧
     (t.g.fst = s.g.fst ∨ (s.g.sup = true ∧ t.g.sup = false ∧ t.g.fst = s.g.saveFst))) ∧
  (∀ (i : Instr) (s t : State), i.sig.isSome = true → i.translates = false → (s.ctxAt s.ctxNo).trace = none → exec i s = .next t →
     sameMemory s t ∨ (i.releasesNow = true ∧ sameMemory (s.flushCore s.g.core) t))

/-! ### Faults, commit and the block's life (spec/08, spec/10) -/

/-- Taking a fault (R243, R246, R247, R253): from user mode the gang enters the handler at the supervisor page with the fault's record in its
registers and its stand kept; from a handler its stand is restored and the context's queue is to stop.

What an execution fault does (R243): the primary's is taken at once; the secondary's first one is kept with it until its turn. -/
def Obligations.FaultsAndHandlerEntry : Prop :=
  (∀ (s : State) (r : FaultRec) (addr : W64) (entry : Bool), s.g.rels = [] →
     let t := s.takeFault r addr entry
     let cause := BitVec.ofNat 64 (r.idx * 2 ^ 40 + r.lsid * 2 ^ 32 + r.sub * 2 ^ 16 + r.code)
     t.g.regs = s.g.regs ∧ t.g.ks = s.g.ks ∧ t.g.lck = s.g.lck ∧ t.g.xinv = s.g.xinv ∧ t.g.prim = none ∧ t.g.sec = none ∧
     (∀ n, (t.teamAt n).stash = (s.teamAt n).stash ∧ (t.teamAt n).tile = (s.teamAt n).tile) ∧
     ((s.ctxAt s.ctxNo).trace = none → t.teams = s.teams ∧ t.mem = s.mem) ∧
     (∀ p ∈ (t.coreAt s.g.core).sems, ∀ q ∈ p.2.queue, q.1 ≠ s.gid) ∧
     (s.g.sup = false → t.g.sup = true ∧ t.g.fcause = cause ∧ t.g.fpc = addr ∧ t.g.flm = r.lanes ∧
       (r.va ≠ [] → t.g.fva = r.va) ∧ (r.va = [] → t.g.fva = splat 0) ∧
       t.g.fst = s.g.fst ∧ t.g.exm = s.g.exm ∧ t.g.saveFst = s.g.fst ∧ t.g.saveExm = s.g.exm ∧ t.g.saveSplits = s.g.splits ∧
       t.g.saveSlices = s.g.slices ∧ t.g.ended = 0 ∧ t.g.splits = [slicesOf r.lanes] ∧
       (∀ i, i < 8 → t.g.slices[i]? = some { cur := { addr := 0x00FFFFFFFFFE0000, lanes := r.lanes.extractLsb' (4 * i) 4 } }) ∧
       (∀ i x, 4 ≤ i → tfind t.g.held i ≠ some x)) ∧
     (s.g.sup = true → t.g.sup = false ∧ t.g.hfcause = cause ∧ t.g.hfpc = addr ∧ t.g.fst = s.g.saveFst ∧ t.g.exm = s.g.saveExm ∧
       t.g.splits = s.g.saveSplits ∧ t.g.slices = s.g.saveSlices ∧ t.g.fcause = s.g.fcause ∧ t.g.fpc = s.g.fpc ∧ t.g.flm = s.g.flm ∧ t.mem = s.mem ∧
       t.agenda = s.agenda ++ [⟨s.now, none, .on s.ctxNo, .contextFault s.launchOf.tag (if entry then 2 else 1) r.code⟩])) ∧
  (∀ (s : State) (b : Blk) (r : FaultRec), s.blk? = some b →
     (s.isec = false → s.raise r = s.takeFault r b.addr false) ∧
     (s.isec = true → b.pend = none → (s.raise r).blk? = some { b with pend := some r } ∧ (s.raise r).g.regs = s.g.regs ∧
       (s.raise r).mem = s.mem ∧ (s.raise r).g.sup = s.g.sup) ∧
     (s.isec = true → b.pend ≠ none → (s.raise r).blk? = some b))

/-- The end of a handler (R249): user mode, FST and the stand of the faulted block again, the lanes that fired `exit` retired; the fault
registers keep their values, and the exit record takes the lanes of an unrecovered trap. -/
def Obligations.HandlerReturn : Prop :=
  ∀ (s : State), s.g.rels = [] → s.g.trapNext = none →
    let t := s.endHandler
    let trapped := s.g.exm &&& ~~~s.g.saveExm &&& ~~~s.g.sfmask
    t.g.sup = false ∧ t.g.fst = s.g.saveFst ∧ t.g.exm = s.g.exm ∧ t.g.regs = s.g.regs ∧ t.g.ks = s.g.ks ∧ t.g.lck = s.g.lck ∧
    t.g.fcause = s.g.fcause ∧ t.g.fpc = s.g.fpc ∧ t.g.flm = s.g.flm ∧ t.g.fva = s.g.fva ∧ t.g.prim = none ∧ t.g.sec = none ∧
    t.g.ended = 0 ∧ t.mem = s.mem ∧
    (s.g.exm = s.g.saveExm → s.g.rset = 0 → s.g.saveSlices.length = 8 →
      (∀ i, i < 8 → ∀ sl, s.g.saveSlices[i]? = some sl → sl.cur.lanes ≠ 0 → sl.cur.lanes &&& ~~~(s.g.exm.extractLsb' (4 * i) 4) = sl.cur.lanes →
        (t.g.slices.getD i {}).cur = sl.cur)) ∧
    ∀ tm, tfind s.teams s.g.team = some tm →
      (trapped = 0 → (t.teamAt s.g.team).recs = tm.recs) ∧
      (trapped ≠ 0 → (tget tm.recs s.g.index {}).tflm = 0 →
        (tget (t.teamAt s.g.team).recs s.g.index {}).tflm = trapped ∧
        (tget (t.teamAt s.g.team).recs s.g.index {}).tcode = s.g.fcause.toNat % 65536)

/-- Registers and FST at commit (R281, R288, R369, R370, R460): every `wr` writes its lanes in index order and nothing else of the gang
changes; a write of FST keeps only the defined bits and turns the reserved rounding code into 000. -/
def Obligations.RegistersAtCommit : Prop :=
  ∀ (s : State) (es : List Fired) (x : W64),
    let t := s.commitWrites es
    let y := fstWrite x
    t.g = es.foldl (fun g r => match r.ins with | .wr _ reg => g.writeReg reg r.lanes r.a | _ => g) s.g ∧
    t.mem = s.mem ∧ t.teams = s.teams ∧ t.gangs = s.gangs ∧
    (∀ i, i < 5 ∨ 32 ≤ i → y.getLsbD i = x.getLsbD i) ∧ (∀ i, (5 ≤ i ∧ i < 8) ∨ (11 ≤ i ∧ i < 32) → y.getLsbD i = false) ∧
    y.extractLsb' 8 3 = (if x.extractLsb' 8 3 = 7 then 0 else x.extractLsb' 8 3) ∧
    (∀ r f, (es.filter fun e => match e.ins with | .syswr _ .fst => true | _ => false).getLast? = some r → r.ins = .syswr f .fst →
      (es.all fun e => match e.ins with | .syswr _ .lrm => false | _ => true) = true →
      s.commitSys es = { s with g := { s.g with fst := fstWrite (lane r.a 0) } })

/-- Stores at commit (R288, R207, R401, 07 R218, R220): the bytes of a plain store enter the core's merge unit, where the core's gangs see them at
once and no other agent does; a `red` is performed at its line; a merge step that is written makes its bytes those of memory, in a fixed order
the later store's last. Nothing else of memory changes. -/
def Obligations.StoresAtCommit : Prop :=
  ∀ (s : State) (b : Blk),
    let t := s.commitStores b
    let core := s.g.core
    let mine := b.stores.filter fun r => b.active.getLsbD r.lane
    let plain := fun (r : StoreRec) => r.op = none ∧ ∀ p ∈ r.places, p.kind = 0
    let releases := fun (r : StoreRec) => ∃ i, b.instrAt r.idx = .ok i ∧ i.releasesLsid = true ∧ 2 ≤ i.scope
    let unmapped := ∀ p ∈ s.teams, p.2.regions = []
    -- plain stores of the pool: nothing is written yet
    ((∀ r ∈ mine, plain r ∧ ¬releases r) → t.mem = s.mem ∧ t.teams = s.teams) ∧
    -- the core sees the last of them at once
    (∀ (rs xs : List StoreRec) (r : StoreRec) (i : Nat) (hi : i < r.places.length) (hd : i < r.data.length), b.stores = rs ++ xs ++ [r] →
      (∀ x ∈ rs, x.idx ≠ r.idx) → (∀ x ∈ xs, x.idx = r.idx ∧ plain x) → b.active.getLsbD r.lane = true → plain r →
      r.data.length = r.places.length → r.places.Nodup → (∀ m ∈ s.core.merge, ∀ p ∈ r.places, m.line ≠ p.off / 256) →
      t.placeByte r.places[i] = r.data[i]) ∧
    -- a `red` is performed
    (∀ (r : StoreRec) (aop : BitVec 3) (ty : Ty), b.stores = [r] → b.active.getLsbD r.lane = true → r.op = some (aop, ty) →
      (∀ p ∈ r.places, p.kind = 0) → s.core.merge = [] → unmapped → (r.places.map fun p => s.poolKey p.off).Nodup →
      let new := bytesOf r.places.length (aopNew aop ty (natOf (r.places.map s.placeByte)) (natOf r.data)).1
      ∀ (i : Nat) (p : Place) (d : Byte), r.places[i]? = some p → new[i]? = some d → memByte t.mem (s.poolKey p.off) = d) ∧
    -- the frame
    (s.core.merge = [] → unmapped → ∀ a, (∀ r ∈ mine, ∀ p ∈ r.places, p.kind = 0 → s.poolKey p.off ≠ a) → memByte t.mem a = memByte s.mem a) ∧
    ((∀ r ∈ b.stores, ∀ p ∈ r.places, p.kind < 3) → t.g.regs = s.g.regs ∧ t.g.ks = s.g.ks ∧ t.g.fst = s.g.fst) ∧ t.gid = s.gid ∧
    -- a merge step written
    (∀ m : MergeStep, unmapped → s.pageFail none (m.line / 512) = none →
      let u := s.drainStep core m
      let at_ := fun (x : Nat) => s.poolKey (256 * m.line + x)
      let last := fun (x : Nat) => ((m.parts.flatMap (·.bytes)).filter fun c => c.1 == x).getLast?
      (∀ x d, x < 256 → last x = some d → (∀ c ∈ m.parts.flatMap (·.bytes), c.1 < 256) → memByte u.mem (at_ x) = d.2) ∧
      (∀ a, (∀ x, (last x).isSome = true → at_ x ≠ a) → memByte u.mem a = memByte s.mem a) ∧
      (∀ n ∈ (u.coreAt core).merge, n.num ≠ m.num)) ∧
    -- the parts of a step by rank
    ∀ (p q : MergePart), pairLt p.rank q.rank = true → insertPart q [p] = [p, q] ∧ insertPart p [q] = [p, q]

/-- A commit (R287, R288, R289): a lane that fired no exit, or two, is `EXIT_COUNT`; a fault of the commit point is taken; a block that
must wait waits; otherwise every effect takes place and then the gang has its lanes retired, its clock advanced by NI outside handlers, its held
outcomes dropped, and its lanes at the targets of their exits. -/
def Obligations.BlockCommit : Prop :=
  ∀ (s : State) (b : Blk), s.g.prim = some b → s.isec = false → b.stage = .commit → b.due ≤ s.clock → s.running s.g.core s.ctxNo = true →
    (s.core.quarterAt s.g.quarter).committed ≤ s.clock → s.olderDue = false →
    let point := s.commitPoint b
    let es := b.effects
    let after := s.g.afterCommit b
    let target := exitTarget b es
    let lanesAt := fun (i : Nat) (a : W64) => (List.range 4).all fun j => target (4 * i + j) == some a || target (4 * i + j) == none
    (b.badExits ≠ 0 → point = (.error { code := 3, sub := 0, lanes := b.badExits }, s)) ∧
    (∀ l, b.badExits.getLsbD l = (b.active.getLsbD l && (es.filter fun r => r.ins.isExit && r.lanes.getLsbD l).length != 1)) ∧
    (∀ r t, point = (.error r, t) → exec .blockCommit s = .next (t.takeFault r b.addr false)) ∧
    (∀ p t, point = (.ok p, t) → t.commitWait b = none → exec .blockCommit s = .next (t.commitBlock b p)) ∧
    (∀ p t why, point = (.ok p, t) → t.commitWait b = some why → (b.timed && t.fixedTiming) = false →
      exec .blockCommit s = .next ((t.setBlk { b with why := why, due := t.clock + 1 }).laterHere 1 (.gang t.gid) .blockCommit)) ∧
    (∀ p t why, point = (.ok p, t) → t.commitWait b = some why → (b.timed && t.fixedTiming) = true →
      exec .blockCommit s = .next (t.takeFault { code := 14, sub := 0, lanes := b.active } b.addr false)) ∧
    after.prim = none ∧ after.exm = s.g.exm ||| b.retires ∧ after.sfmask = s.g.sfmask ||| (b.lanes &&& b.off) ∧
    after.lck = (if s.g.sup then s.g.lck else s.g.lck + BitVec.ofNat 64 b.ni) ∧ after.regs = s.g.regs ∧ after.fst = s.g.fst ∧
    after.sord = (if b.stop then b.ordinal else s.g.sord) ∧
    (∀ l r, es.find? (fun r => r.ins.isExit && r.lanes.getLsbD l) = some r →
      (es.any fun r => r.lanes.getLsbD l && (match r.ins with | .tret _ => true | _ => false)) = false →
      (∀ f d, r.ins = .br f d ∨ r.ins = .bl f d → target l = some (b.addr + d.signExtend 64 * 16)) ∧
      (∀ f, r.ins = .jr f → target l = some (lane r.a l)) ∧ (∀ f, r.ins = .exit f → target l = none) ∧
      (∀ f d, r.ins = .regang f d → target l = none)) ∧
    (∀ i a, i < 8 → b.slices.getLsbD i = true → lanesAt i a = true → ((List.range 4).any fun j => target (4 * i + j) == some a) = true →
      s.g.slices.length = 8 →
      (((s.g.nextPaths b.slices target b.demotes).slices.getD i {}).cur.addr = a ∧
       ((s.g.nextPaths b.slices target b.demotes).slices.getD i {}).stack = (s.g.slices.getD i {}).stack))

/-- The life of a primary before its commit (R293, R273, R243, R291, R427): fetch, the header's checks, the deadline of a timed block, and
the fault of one that makes no progress. -/
def Obligations.BlockFetchAndDecode : Prop :=
  ∀ (s : State) (b : Blk), s.g.prim = some b → s.isec = false →
    let h := s.readOwn b.addr.toNat 16 { fetch := true, sup := s.g.sup }
    let b1 := fun (hb : List Byte) => ({ b with hdr := wordsOfBytes hb } : Blk)
    let w := fun (hb : List Byte) => h.2.readOwn (b.addr.toNat + 16) (4 * (b1 hb).nw) { fetch := true, sup := s.g.sup }
    let first := fun (code : Nat) => s.g.sup && b.addr == 0x00FFFFFFFFFE0000 && [5, 6, 8, 9].contains code
    let fault := fun (t : State) (code sub : Nat) (va : Nat) =>
      t.takeFault { code := code, sub := sub, lanes := b.lanes, va := if va % 2 ^ 64 = 0 then [] else splat (BitVec.ofNat 64 va) } b.addr (first code)
    let due := if b.due = 0 then s.clock + 2 else b.due
    -- fetch
    (b.stage = .fetch →
      (∀ x t, h = (.error x, t) → exec .blockFetch s = .next (fault t x.1.1 x.1.2 x.2)) ∧
      (∀ hb t, h = (.ok hb, t) → (b1 hb).tag ≠ 11 → exec .blockFetch s = .next (fault t 2 0 0)) ∧
      (∀ hb t x u, h = (.ok hb, t) → (b1 hb).tag = 11 → w hb = (.error x, u) → exec .blockFetch s = .next (fault u x.1.1 x.1.2 x.2)) ∧
      (∀ hb t wb u, h = (.ok hb, t) → (b1 hb).tag = 11 → w hb = (.ok wb, u) → ∃ v, exec .blockFetch s = .next v ∧
        v.g.prim = some { b1 hb with words := wordsOfBytes wb, stage := .decode, due := due } ∧ v.g.regs = u.g.regs ∧
        (∃ l, v.agenda = l ++ [⟨u.clock + (due - s.clock), some u.g.core, .gang u.gid, .headerDecode⟩] ∧ ∀ d ∈ u.agenda, d ∈ l) ∧
        ((∀ p ∈ u.teams, p.2.regions = []) → v.mem = u.mem))) ∧
    -- header decode
    (b.stage = .decode → b.due ≤ s.clock →
      (b.tag ≠ 11 → b.decodeFault s.g.sup s.g.quota = some (2, 0)) ∧
      (b.tag = 11 → b.headerBad = true → b.decodeFault s.g.sup s.g.quota = some (1, 1)) ∧
      (∀ x, b.decodeFault s.g.sup s.g.quota = some x → exec .headerDecode s = .next (fault s x.1 x.2 0)) ∧
      (b.decodeFault s.g.sup s.g.quota = none → s.breakHere b = false → ∃ t, exec .headerDecode s = .next t ∧
        t.g = { s.g with prim := some { b with stage := .run, decoded := s.clock, start := s.clock, progress := s.clock } } ∧ t.mem = s.mem ∧
        (t.agenda = if b.timed = true ∧ s.fixedTiming = true then s.agenda ++ [⟨s.clock + b.tlen, some s.g.core, .gang s.gid, .timedDeadline⟩] else s.agenda))) ∧
    -- deadlines
    (b.timed = true → s.fixedTiming = true → b.start + b.tlen = s.clock → b.stage = .run → b.complete = false →
      exec .timedDeadline s = .next (s.takeFault { code := 14, sub := 0, lanes := b.active } b.addr false)) ∧
    (b.progress + 2 ^ 20 ≤ s.clock → exec .blockStall s = .next (s.takeFault { code := 4, sub := 0, lanes := b.active } b.addr false)) ∧
    (s.clock < b.progress + 2 ^ 20 → exec .blockStall s = .next s)

/-! ### Encodings, steps and reset (spec/00, spec/01, spec/06, spec/11) -/

/-- Words of the spec's encodings decode to the instructions that they stand for (R307 to R319). -/
def Obligations.EncodingExamples : Prop :=
  let dec := fun (ws : List W32) => (decodeWords ws).toOption
  let a := fun (n : BitVec 7) => (⟨.a, n⟩ : Target)
  let form := fun (pr : Pred) (vc : TokClass) (t0 : Target) (ty : Ty) =>
    ({ ext := true, pr := pr, vc := vc, t0 := t0, t1 := Target.none, ty := ty, rm := 0, sc := 0, cp := 0, t2 := Target.none, t3 := Target.none,
       lit := none } : Form)
  dec [0x40040403, 0x1800FE7F, 0x40000000] = some (.rd { form .always .uni (a 2) .i64 with t1 := a 3 } (.s 0), []) ∧
  dec [0x7090FE7F, 0x4800FE7F, 0] = some (.st (form .ifTrue .lane Target.none .b64) ⟨0, .global, 0⟩, []) ∧
  dec [0x7000067F, 0x4800FE7F, 0x08000000] = some (.ld (form .always .lane (a 3) .b64) ⟨1, .global, 0⟩, []) ∧
  dec [0x4210FE7F, 0x1800FE7F, 8] = some (.br (form .ifTrue .lane Target.none .i64) 8, []) ∧
  dec [0x7800FE7F, 0x7000FE7F, 0x00007190] = some (.tmma (form .always .lane Target.none .e4m3) ⟨16, 3, .e4m3, false, false⟩, []) ∧
  dec [0x7E00027F, 0x4800FE7F, 0x0B] = some (.sysrd (form .always .lane (a 1) .b64) .fva, []) ∧
  dec [0x3EE0FE7F] = some (.tret { form .ifFalse .lane Target.none .b64 with ext := false }, []) ∧
  dec [0x0300FE7F] = some (.exit { form .always .lane Target.none .i64 with ext := false }, []) ∧
  dec [0xD8000202, 0x38030C7F, 0, 5, 0] =
    some (.cmp { form .always .lane (a 1) .n64 with t1 := a 2, t2 := ⟨.p, 6⟩, lit := some 5 } .eq, []) ∧
  dec [0xEA02027F, 0x5000FE7F, 0, 0x3C003C00, 0x3C003C00] =
    some (.pfma { form .always .lane ⟨.c, 1⟩ .f16 with lit := some 0x3C003C003C003C00 }, []) ∧
  dec [0x40040403] = none ∧ dec [] = none

/-- A block of encoded instructions decodes to them (R306 to R319): for every list of well-formed instructions, with every operand at every
value the encoding admits, walking the words gives the list, and so does decoding the bytes of one. -/
def Obligations.EncodedBlocksDecode : Prop :=
  ∀ (is : List Instr), (∀ i ∈ is, i.wf = true ∧ i.sig.isSome = true) →
    let ws := is.flatMap encode
    walk ws.length ws = is.map .ok ∧
    ∀ i ∈ is, decode ((encode i).flatMap bytesOfWord) = .ok i ∧ 1 ≤ (encode i).length ∧ (encode i).length ≤ 5

/-- What decodes is well formed, and its words are its encoding (R307 to R319): each run of words has one meaning. -/
def Obligations.DecodedInstructionsEncode : Prop :=
  ∀ (ws r : List W32) (i : Instr), decodeWords ws = .ok (i, r) → i.wf = true ∧ i.sig.isSome = true ∧ encode i ++ r = ws

/-- A step runs the decoded instruction (notes/assumptions/3.md): an instruction that the machine has chosen to issue, the first step whose time
has come by the clock that it runs on, a core's cycle, or the next tick (01 R13): every core advances its phase by 3 for each megahertz, by 2
while a droop stretches its cycle (R14), and its cycle counter with each full 2,400. A word placed for the next step is run as the first
instruction of its block. -/
def Obligations.StepRunsDecoded : Prop :=
  ∀ (s : State),
    (∀ (sec : Bool) (n : Nat) (rest : List IssueRef) (b : Blk), s.issue = ⟨s.gid, sec, n⟩ :: rest → (if sec then s.g.sec else s.g.prim) = some b →
      (∀ i, b.instrAt n = .ok i → step s = exec i { s with issue := rest, isec := sec, idx := n }) ∧
      (∀ e, b.instrAt n = .error e → step s = .refused (.undecodable e.subcode))) ∧
    (let come := fun (d : Due) => match d.clock with
       | none => d.time ≤ s.now
       | some c => d.time ≤ (s.coreAt c).cyc
     (∀ (d : Due) (early rest : List Due), s.issue = [] → s.agenda = early ++ d :: rest → (∀ x ∈ early, ¬come x) → come d →
       (d.subj = .none → step s = exec d.ev { s with agenda := early ++ rest, pkt := ⟨0, 0, []⟩ }) ∧
       (∀ n, d.subj = .on n → step s = exec d.ev { s with agenda := early ++ rest, subj := n }) ∧
       (∀ p, d.subj = .packet p → step s = exec d.ev { s with agenda := early ++ rest, pkt := p }) ∧
       (d.subj = .gang s.gid → step s = exec d.ev { s with agenda := early ++ rest }) ∧
       (∀ n, d.subj = .gang n → s.gangAt n = none → step s = .next { s with agenda := early ++ rest })) ∧
     (∀ c rest, s.issue = [] → (∀ d ∈ s.agenda, ¬come d) → s.turn = c :: rest →
       step s = exec .coreCycle { s with turn := rest, subj := c }) ∧
     (s.issue = [] → (∀ d ∈ s.agenda, ¬come d) → s.turn = [] →
       step s = .next (if s.twice = [] then s.tick else s.tickAgain))) ∧
    (s.tick.now = s.now + 1 ∧ s.tick.mem = s.mem ∧ s.tickAgain.now = s.now ∧ s.tickAgain.mem = s.mem ∧
      ∀ n c, tfind s.cores n = some c →
        let sum := c.phase + (if s.pkg.stretched.contains n then 2 else 3) * (s.partAt (partOf n)).mhz
        (s.tick.coreAt n).cyc = (if 2400 ≤ sum then c.cyc + 1 else c.cyc) ∧
        (s.tick.coreAt n).phase = (if 2400 ≤ sum then sum - 2400 else sum)) ∧
    (∀ nbits w i, decodeTableWord nbits w = some i →
      step (s.withFetchWord nbits w) = exec i { s.withFetchWord nbits w with issue := [], isec := false, idx := 0 }) ∧
    (∀ i, ∃ t, exec i s = .next t)

/-- The invariant of memory: every step keeps the canonical form, in which equal memories are equal lists. -/
def Obligations.MemoryInvariant : Prop :=
  ∀ (s t : State), s.MemOk → step s = .next t → t.MemOk

/-- The machine right after reset (R26, R132, R193, R329; the values that the spec does not give are those of notes/assumptions/1.md): memory lists
nothing, nothing runs and nothing is due, every register reads zero but k0, which reads all ones, and every core has lane 32 idle. -/
def Obligations.ResetState : Prop :=
  let s := State.reset
  s.MemOk ∧ s.mem = [] ∧ (∀ a, memByte s.mem a = 0) ∧ s.agenda = [] ∧ s.issue = [] ∧ s.turn = [] ∧ s.gangs = [] ∧ s.teams = [] ∧ s.now = 0 ∧
  s.pkg.bring = .off ∧ s.g.sup = false ∧ s.g.fst = 0 ∧ s.g.lck = 0 ∧ s.g.exm = 0 ∧ s.g.prim = none ∧ s.g.sec = none ∧
  (∀ n l, l < 32 → lane (s.g.readReg (.v n)) l = 0) ∧ (∀ n l, l < 32 → lane (s.g.readReg (.s n)) l = 0) ∧
  (∀ n : BitVec 4, s.g.readReg (.k n) = splat (if n = 0 then 0xFFFFFFFF else 0)) ∧
  s.cores.length = 576 ∧ (∀ c, c < 576 → (s.coreAt c).cyc = 0 ∧ (s.coreAt c).slots = List.replicate 32 none ∧
    ∀ q, q < 4 → (s.coreAt c).lrm.extractLsb' (16 * q) 16 = 0x0FE0) ∧
  goesOn (step s)

/-! ### Package steps (spec/01 to spec/05) -/

/-- Clocks, power, droop and heat (R13, R14, R16, R19 to R24): targets of elastic partitions, below 800 MHz only under a limit or on the way back
up and above it only when no limit stands; the power limit held by lowering the target of the lowest priority and highest number; stretched
cores; the droop guard, which stretches the core, stops the context's work on the die and reports one fault; warnings from 95 °C; the
throttle; and the stop of every context. -/
def Obligations.PowerAndHeat : Prop :=
  ∀ (s : State) (die q core mhz w c : Nat),
    let p := 4 * die + q
    let k := 144 * die + core
    let x := s.partAt (partOf k)
    let prio := fun (n : Nat) => match (s.partAt n).owner with | some v => (s.ctxAt v).prio | none => 0
    let l := (w :: s.pkg.samples).take 100
    let s1 := s.modPkg fun y => { y with samples := l }
    let fits := l.foldl (· + ·) 0 ≤ s.pkg.powerLimit * l.length
    let hot := s.pkg.powerLimit * s.pkg.samples.length < s.pkg.samples.foldl (· + ·) 0
    let may := if s.pkg.throttled.getLsbD die then mhz = 560 else if mhz < 800 then hot ∨ (s.partAt p).mhz ≤ mhz else mhz = 800 ∨ ¬hot
    let allowed := q < 4 ∧ die < 4 ∧ 560 ≤ mhz ∧ mhz ≤ 960 ∧ mhz % 20 = 0 ∧ (s.partAt p).elastic = true ∧ may
    let stretched := fun (k : Nat) => s.modPkg fun y => { y with stretched := if y.stretched.contains k then y.stretched else y.stretched ++ [k] }
    let saved := fun (y : Partition) => y.halted = true ∨ y.taking ≠ none
    let here := s.partAt (partOf s.subj)
    (allowed → exec (.targetFrequencyChange die q mhz) s = .next (s.modPart p fun y => { y with mhz := mhz })) ∧
    (¬allowed → exec (.targetFrequencyChange die q mhz) s = .next s) ∧
    (fits → exec (.powerSample w) s = .next s1) ∧
    (¬fits → (∀ n, s.slowNext = some n → exec (.powerSample w) s = .next (s1.modPart n fun y => { y with mhz := y.mhz - 20 })) ∧
      (s.slowNext = none → exec (.powerSample w) s = .next s1)) ∧
    (∀ n, s.slowNext = some n → n < 16 ∧ (s.partAt n).elastic = true ∧ 560 < (s.partAt n).mhz ∧
      ∀ m, m < 16 → (s.partAt m).elastic = true → 560 < (s.partAt m).mhz → prio n ≤ prio m ∧ (prio m = prio n → m ≤ n)) ∧
    (1200 ≤ w ∧ w ≤ 2400 ∧ w % 25 = 0 →
      ∃ t, exec (.powerLimitEffecter w) s = .next t ∧ t.pkg = { s.pkg with powerLimit := w } ∧ t.mem = s.mem ∧
        (s.reserved ≤ w → t = (s.modPkg fun y => { y with powerLimit := w }).retryParts)) ∧
    (¬(1200 ≤ w ∧ w ≤ 2400 ∧ w % 25 = 0) → exec (.powerLimitEffecter w) s = .next s) ∧
    (x.fixed = false ∨ saved x → exec (.droopStretch die core) s = .next (stretched k)) ∧
    (x.fixed = true → ¬saved x → exec (.droopStretch die core) s = .next s) ∧
    exec (.droopEnd die core) s = .next (s.modPkg fun y => { y with stretched := y.stretched.filter fun n => n != k }) ∧
    (∀ v, here.owner = some v → here.fixed = true →
      (saved here ∨ (s.ctxAt v).halt = true ∨ here.guard = true → exec .droopGuard s = .next (stretched s.subj)) ∧
      (¬saved here → (s.ctxAt v).halt = false → here.guard = false → ∃ t, exec .droopGuard s = .next t ∧ t.mem = s.mem ∧
        s.subj ∈ t.pkg.stretched ∧ (t.ctxAt v).halt = false ∧
        (∀ n, n < 16 → n / 4 = s.subj / 144 → (s.partAt n).owner = some v → (t.partAt n).guard = true) ∧
        (∀ n, n / 4 ≠ s.subj / 144 ∨ (s.partAt n).owner ≠ some v → t.partAt n = s.partAt n) ∧
        ((∀ y ∈ s.parts, y.2.owner = some v → y.2.guard = false) →
          ∃ d ∈ t.agenda, d.subj = .on v ∧ d.ev = .contextFault 0 3 15 ∧ s.now < d.time) ∧
        ((∃ y ∈ s.parts, y.2.owner = some v ∧ y.2.guard = true) → t.agenda = s.agenda))) ∧
    (here.owner = none ∨ here.fixed = false → exec .droopGuard s = .next s) ∧
    exec (.thermalWarning die c) s = .next (if 95 ≤ c then s.emit (.mgmt "THERMAL" (1000 * die + c)) else s) ∧
    (die < 4 →
      (∃ t, exec (.thermalThrottle die) s = .next t ∧ t.pkg.throttled = s.pkg.throttled ||| BitVec.ofNat 4 (2 ^ die) ∧ t.mem = s.mem ∧
        ∀ n, t.partAt n = if n / 4 = die ∧ (s.partAt n).elastic = true then { s.partAt n with mhz := 560 } else s.partAt n) ∧
      ∃ t, exec (.thermalThrottleRelease die) s = .next t ∧ t.pkg.throttled = s.pkg.throttled &&& ~~~(BitVec.ofNat 4 (2 ^ die)) ∧ t.mem = s.mem ∧
        ∀ n, t.partAt n = if n / 4 = die ∧ (s.partAt n).elastic = true ∧ ¬hot then { s.partAt n with mhz := 800 } else s.partAt n) ∧
    (s.pkt.queue < 128 → ∃ t, exec .thermalStop s = .next t ∧ .mgmt "THERMAL_STOP" 0 ∈ t.out ∧
      ∀ v, v < 64 → (s.ctxAt v).used = true → (s.ctxAt v).root = s.self → (t.queueAt v).qstate ≠ .idle ∧ (t.queueAt v).qstate ≠ .running ∧
        (t.queueAt v).qstate ≠ .halted)

/-- Bring-up, service levels, resets and soft errors (R26 to R31, R35 to R37, R53, R67, R109, R121, R126): a package alone starts its transition when
its training ends; members report to each other and the lowest starts it in all. The third corrected line of a frame in one pass of its
stack's scrubber retires the page that the frame backs; a pass ends when a line is read again (notes/assumptions/125.md). -/
def Obligations.BringUpAndResets : Prop :=
  ∀ (s : State) (u : FailUnit) (stack line d : Nat),
    let frame := line / 512
    let seen := tget s.scrubbed stack []
    let old := if seen.contains line then [] else tget s.corrected stack []
    let hits := if old.contains line then old else line :: old
    let retires := 3 ≤ (hits.filter fun n => n / 512 == frame).length
    let failed := if s.pkg.failedUnits.contains u then s.pkg.failedUnits else s.pkg.failedUnits ++ [u]
    let fatal := u = .die 0 ∨ u = .stack 0 ∨ u = .stack 1
    let restarted := fun (t : State) => t.owl.state = 2 ∧ t.owl.restarts.toNat = min 255 (s.owl.restarts.toNat + 1) ∧
      (∃ x ∈ t.agenda, x.time = s.now + 4000000 ∧ x.ev = .owlRestartDone) ∧ t.mem = s.mem
    let begins := fun (o : Host.Outcome State Fault Refusal) =>
      (s.pkg.admitting = true → o = .next ((s.modPkg fun p => { p with admitting := false }).later
        (if s.launches = [] then 0 else 80000000) .none .serviceTransitionTimeout)) ∧ (s.pkg.admitting = false → o = .next s)
    let live := fun (n : Nat) => n < 64 ∧ n ≠ s.self ∧ s.pkg.members.getLsbD n = true ∧ s.pkg.lost.getLsbD n = false
    -- a unit fails its training
    (s.pkg.bring = .boot → fatal → ∃ t, exec (.trainingFailure u) s = .next t ∧ t.pkg.bring = .failed ∧ t.pkg.service = 0x10 ∧ t.owl.state = 3 ∧
      .mgmt "FAILED" 0 ∈ t.out ∧ t.mem = s.mem) ∧
    (s.pkg.bring ≠ .boot ∨ ¬fatal → let s1 := s.modPkg fun p => { p with failedUnits := failed }
      (∀ a b, u = .dieLink a b → exec (.trainingFailure u) s = .next (s1.soon .none (.linkDown (.dieDie a b)))) ∧
      (∀ a, u = .hubLink a → exec (.trainingFailure u) s = .next (s1.soon .none (.linkDown (.dieHub a)))) ∧
      ((∀ a b, u ≠ .dieLink a b) → (∀ a, u ≠ .hubLink a) → exec (.trainingFailure u) s = .next s1)) ∧
    -- bring-up
    (s.pkg.bring = .off → ∃ t, exec .standbyPowerGood s = .next t ∧ t.pkg.bring = .boot ∧ t.pkg.dstate = .forming ∧ t.owl.state = 1 ∧ t.mem = s.mem ∧
      t.homes = [8 * s.self, 8 * s.self + 1] ∧ ∃ x ∈ t.agenda, s.now < x.time ∧ x.ev = .bootComplete) ∧
    (s.pkg.bring ≠ .off → exec .standbyPowerGood s = .next s) ∧
    (s.pkg.bring = .boot → ∃ t, exec .bootComplete s = .next t ∧ t.pkg.bring = .reduced ∧ t.pkg.service = 0x11 ∧ t.pkg.admitting = true ∧
      t.homes = [8 * s.self, 8 * s.self + 1] ∧ (∃ x ∈ t.agenda, s.now < x.time ∧ x.ev = .trainingEnd) ∧
      (∃ x ∈ t.agenda, x.time = s.now + 16000000000 ∧ x.ev = .formationTimeout) ∧
      ∀ i, i < 32 → (tget t.pkg.links i {}).training = true) ∧
    (s.pkg.bring ≠ .boot → exec .bootComplete s = .next s) ∧
    -- the end of training, here and in other members
    (s.pkg.bring = .reduced →
      (256 ≤ s.pkt.queue → begins (exec .trainingEnd s)) ∧
      (s.pkt.queue < 128 → s.formationPending = true → exec .trainingEnd s = .next (s.later 800000 .none .trainingEnd)) ∧
      (s.pkt.queue < 128 → s.formationPending = false → s.pkg.dstate ≠ .member → begins (exec .trainingEnd s)) ∧
      (s.pkt.queue < 128 → s.formationPending = false → s.pkg.dstate = .member → s.self < 64 → ∃ t, exec .trainingEnd s = .next t ∧
        t.pkg.ended = s.pkg.ended ||| w64 (2 ^ s.self) ∧ (∀ n, live n → .control n "TRAINING_END" [w64 s.ownUnits] ∈ t.out) ∧
        ((∀ n, live n → s.self < n ∧ s.pkg.ended.getLsbD n = true) →
          t.pkg.admitting = false ∧ ∀ n, live n → .control n "TRANSITION" [] ∈ t.out)) ∧
      (128 ≤ s.pkt.queue → s.pkt.queue < 192 → s.pkt.queue - 128 ≠ s.self → ∃ t, exec .trainingEnd s = .next t ∧
        t.pkg.ended = s.pkg.ended ||| w64 (2 ^ (s.pkt.queue - 128)) ∧
        tget t.pkg.units (s.pkt.queue - 128) 0 = (s.pkt.words.getD 0 0xFFF).toNat)) ∧
    (s.pkg.bring = .reduced → s.pkg.admitting = false → (∀ p, p < 16 → (s.partAt p).owner = none) →
      ∃ t, exec .serviceTransitionTimeout s = .next t ∧ t.pkg.admitting = true ∧ t.pkg.bring = (if s.pkg.failedUnits = [] then .full else .degraded) ∧
        (∀ n, n < 4 → t.pkg.service.getLsbD (4 + n) = !s.pkg.failedUnits.contains (.die n)) ∧
        t.pkg.service.toNat % 16 = (if s.pkg.failedUnits = [] then 2 else 3) ∧ t.stealing = [] ∧
        (s.self < 64 → ∀ k, k < 8 → (8 * s.self + k ∈ t.homes ↔
          s.pkg.failedUnits.contains (.stack k) = false ∧ s.pkg.failedUnits.contains (.die (k / 2)) = false))) ∧
    (s.pkg.bring = .reduced → s.pkg.admitting = false → (∃ p, p < 16 ∧ (s.partAt p).owner ≠ none) →
      ∃ t, exec .serviceTransitionTimeout s = .next t ∧ t.pkg = s.pkg ∧ (∀ p, p < 16 → (s.partAt p).owner ≠ none → (t.partAt p).taking ≠ none) ∧
        ∃ x ∈ t.agenda, x.time = s.now + 64 ∧ x.ev = .serviceTransitionTimeout) ∧
    -- resets
    (∃ t, exec .coldReset s = .next t ∧ t.mem = [] ∧ t.pkg.bring = .off ∧ t.owl.state = 0 ∧ t.gangs = [] ∧ t.launches = [] ∧ t.owl.fuses = s.owl.fuses ∧
      t.owl.flash = s.owl.flash ∧ t.self = s.self ∧ t.pkg.domain = s.pkg.domain ∧ t.now = s.now ∧ ∃ x ∈ t.agenda, x.time = s.now ∧ x.ev = .standbyPowerGood) ∧
    (s.owl.state = 1 → ∃ t, exec .warmReset s = .next t ∧ restarted t ∧ t.pkg = s.pkg) ∧
    (s.owl.state ≠ 1 → exec .warmReset s = .next s) ∧
    -- soft errors
    (∃ t, exec (.scrubRead stack line .clean) s = .next t ∧ tget t.scrubbed stack [] = (if seen.contains line then [line] else line :: seen) ∧
      tget t.corrected stack [] = (if seen.contains line then [] else tget s.corrected stack []) ∧ t.agenda = s.agenda ∧ t.out = s.out ∧ t.mem = s.mem) ∧
    (∃ t, exec (.scrubRead stack line .corrected) s = .next t ∧ .mgmt "CORRECTED" line ∈ t.out ∧ t.mem = s.mem ∧
      (¬retires ∨ s.pageAtFrame stack frame = none → tget t.corrected stack [] = hits ∧ t.agenda = s.agenda) ∧
      (∀ page, retires → s.pageAtFrame stack frame = some page → (∀ n ∈ tget t.corrected stack [], n / 512 ≠ frame) ∧
        t.agenda = s.agenda ++ [⟨s.now, none, .none, .pageMoveStart page stack true⟩])) ∧
    (∃ t, exec (.scrubRead stack line .uncorrectable) s = .next t ∧ .mgmt "UNCORRECTABLE" line ∈ t.out ∧ t.mem = s.mem ∧
      (∀ page, s.pageAtFrame stack frame = some page → t.lineLost (256 * (512 * page + line % 512)) = true ∧
        ∃ x ∈ t.agenda, ∃ h, x.time = s.now ∧ x.ev = .pageMoveStart page h true) ∧
      (s.pageAtFrame stack frame = none → t.lostLines = s.lostLines ∧ t.agenda = s.agenda)) ∧
    (∀ page, s.pageAtFrame stack frame = some page → stack ≠ 8 * s.self ∨ frame < 521984 →
      entValid (tget s.ind page 0) = true ∧ entHome (tget s.ind page 0) = stack ∧ entFrame (tget s.ind page 0) = frame ∨
      ∃ e, (page, e) ∈ s.ind ∧ entValid e = true ∧ entHome e = stack ∧ entFrame e = frame) ∧
    (s.owl.state = 1 → ∃ t, exec (.sequencerWatchdog .owl) s = .next t ∧ restarted t ∧ .mgmt "SEQUENCER" 4 ∈ t.out) ∧
    ∃ t, exec (.sequencerWatchdog (.die d)) s = .next t ∧ t.out = s.out ++ [.mgmt "SEQUENCER" d] ∧ t.pkg = s.pkg ∧ t.mem = s.mem ∧ t.agenda = s.agenda ∧
      tget t.owl.dieRam d [] = (match s.owl.patch with | some bs => tget (dieRams bs) d [] | none => [])

/-- The link layer (R39 to R43, R47 to R49, R60, R61): a flit in order is accepted, acknowledges, gives its messages in their order and returns
credit; others are answered with one negative acknowledgement; what is not acknowledged goes out again until the eighth replay retrains the
link; a link in training sends nothing; one that fails twice is down, and what waited for it goes another way. A die without a path and the
packages out of reach are lost. -/
def Obligations.LinkLayer : Prop :=
  ∀ (s : State) (l : Link) (f : Flit) (n : Nat) (e : BitVec 12) (vc : BitVec 3),
    let x := s.linkAt l
    let good := f.check = crc64 (flitBytes f) ∧ f.vc.toNat ≤ 4 ∧ f.seq = x.expect
    let width := match l with | .port _ _ => if 4 ≤ n then 4 else if 2 ≤ n then 2 else 0 | _ => n
    let open_ := x.down = false ∧ x.fenced = false ∧ x.training = false
    let carries := x.up = true ∧ x.training = false ∧ x.retry.length < 512 ∧ 0 < x.credit vc
    let resent := fun (y : LinkSt) (t : State) => (t.linkAt l).retry = y.retry ∧ (t.linkAt l).replays = y.replays + 1 ∧
      t.out = s.out ++ y.retry.map (.flit l) ∧ ∃ d ∈ t.agenda, d.time = s.now + 1600 ∧ d.ev = .ackTimeout l
    let retrained := fun (y : LinkSt) =>
      { y with up := false, training := true, replays := 0, retrains := if y.trained && y.retrains.toNat < 255 then y.retrains + 1 else y.retrains }
    let mine := (Config.messages f).filter fun m => channelOf m.2 == some f.vc && (match m.1 with | .packet _ => fromOutside m.1 | _ => true)
    -- sending
    (x.down = true ∨ x.fenced = true → s.sendFlit l vc = s) ∧
    (x.down = false → x.fenced = false → carries → x.waiting.contains vc = false → ∃ y, (s.sendFlit l vc).out = s.out ++ [.flit l y] ∧ y.vc = vc ∧
      y.seq = x.next ∧ y.ack = x.expect - 1 ∧ y.check = crc64 (flitBytes y) ∧ ((s.sendFlit l vc).linkAt l).retry = x.retry ++ [y] ∧
      ((s.sendFlit l vc).linkAt l).next = x.next + 1 ∧ (vc.toNat < 5 → ((s.sendFlit l vc).linkAt l).credit vc = x.credit vc - 1) ∧
      ∀ w : BitVec 3, w.toNat < 5 → w ≠ vc → ((s.sendFlit l vc).linkAt l).credit w = x.credit w) ∧
    (x.down = false → x.fenced = false → ¬carries ∨ x.waiting.contains vc = true →
      s.sendFlit l vc = s.modLink l fun y => { y with waiting := y.waiting ++ [vc] }) ∧
    -- receiving
    (¬open_ → exec (.flitReceive l f) s = .next s) ∧
    (open_ → good → ∃ t, exec (.flitReceive l f) s = .next t ∧ (t.linkAt l).expect = x.expect + 1 ∧ (t.linkAt l).nakSent = false ∧
      (∃ r, t.agenda = s.agenda ++ (mine.map fun m => ⟨s.now, none, m.1, m.2⟩) ++ r) ∧
      (x.waiting = [] → (∀ k, k < 5 → (t.linkAt l).credits.getD k 0 = x.credit (BitVec.ofNat 3 k) + Config.creditReturn f.credit k) ∧
        ((∀ y ∈ x.retry, y.seq ≠ f.ack) → (t.linkAt l).retry = x.retry) ∧
        (∀ a y b, x.retry = a ++ y :: b → y.seq = f.ack → (∀ z ∈ a, z.seq ≠ f.ack) → (t.linkAt l).retry = b ∧ (t.linkAt l).replays = 0))) ∧
    (open_ → ¬good → x.nakSent = false → ∃ t, exec (.flitReceive l f) s = .next t ∧ t.out = s.out ++ [.nak l x.expect] ∧
      t.linkAt l = { x with nakSent := true } ∧ t.agenda = s.agenda) ∧
    (open_ → ¬good → x.nakSent = true → exec (.flitReceive l f) s = .next s) ∧
    -- replay
    (x.down = false → x.training = false → x.waiting = [] →
      ((∀ y ∈ x.retry, y.seq ≠ e - 1) → x.retry ≠ [] → x.replays < 8 → ∃ t, exec (.negativeAcknowledgement l e) s = .next t ∧ resent x t) ∧
      (∀ a y b, x.retry = a ++ y :: b → y.seq = e - 1 → (∀ z ∈ a, z.seq ≠ e - 1) → b ≠ [] →
        ∃ t, exec (.negativeAcknowledgement l e) s = .next t ∧ resent { x with retry := b, replays := 0 } t)) ∧
    (x.down = false → x.training = false → x.retry ≠ [] → x.ackAt + 1600 ≤ s.now →
      (x.replays < 8 → ∃ t, exec (.ackTimeout l) s = .next t ∧ resent x t) ∧
      (8 ≤ x.replays → exec (.ackTimeout l) s = .next (s.soon .none (.linkRetrain l)))) ∧
    (x.down = false → x.training = false → x.retry ≠ [] → s.now < x.ackAt + 1600 →
      exec (.ackTimeout l) s = .next (s.later (x.ackAt + 1600 - s.now) .none (.ackTimeout l))) ∧
    (x.retry = [] ∨ x.down = true ∨ x.training = true → exec (.ackTimeout l) s = .next s) ∧
    -- training
    (open_ → exec (.linkRetrain l) s = .next (s.modLink l retrained)) ∧
    (¬open_ → exec (.linkRetrain l) s = .next s) ∧
    (x.training = true → x.down = false → width = 0 →
      ∃ t, exec (.retrainComplete l n) s = .next t ∧ (t.linkAt l).training = false ∧ (t.linkAt l).width = 0 ∧
        t.agenda = s.agenda ++ [⟨s.now, none, .none, if x.failed = 0 then .linkRetrain l else .linkDown l⟩]) ∧
    (x.training = true → x.down = false → width ≠ 0 →
      ∃ t, exec (.retrainComplete l n) s = .next t ∧ (t.linkAt l).up = true ∧ (t.linkAt l).width = width ∧ (t.linkAt l).training = false ∧
        (∃ r, (t.linkAt l).retry = x.retry ++ r) ∧ (x.replays < 8 → ∀ y ∈ x.retry, .flit l y ∈ t.out)) ∧
    -- down
    (∃ t, exec (.linkDown l) s = .next t ∧ (t.linkAt l).down = true ∧ (t.linkAt l).up = false ∧ (t.linkAt l).retry = [] ∧
      let s1 := s.shutLink l
      let lost := [0, 1, 2, 3].filter fun d => !s.pkg.failedUnits.contains (.die d) && !s1.reachDie d
      let s2 := lost.foldl State.loseDie s1
      (lost = [] → s1.outOfReach = [] → t = (match l with | .port d p => s1.tellMembers "LINK_DOWN" [w64 (8 * d + p)] | _ => s1)) ∧
      (∀ d ∈ lost, t.pkg.failedUnits.contains (.die d) = true ∧ t.pkg.service.getLsbD (4 + d) = false) ∧
      ∀ k ∈ s2.outOfReach, t.pkg.lost.getLsbD k = true)

/-- The rack domain (R44, R45, R51 to R59): numbers, domain and declared packages before the end of `BOOT`; hellos; forming, which a package excluded
for its number joins in no set; heartbeats, the report of an unreachable root, its order to stop, and the standby's takeover. Two
hellos of one sending port within half of their period exclude their number (notes/assumptions/89.md). -/
def Obligations.RackDomain : Prop :=
  ∀ (s : State) (die port a b n : Nat) (v : W64) (h : Hello) (parts : List CensusPart),
    let l := Link.port die port
    let early := s.pkg.bring = .off ∨ s.pkg.bring = .boot
    let ctx := s.subj
    let c := s.ctxAt ctx
    let mine := 8 * s.self + 2 * die + port % 2
    let set := s.known &&& ~~~s.pkg.excludedPkgs
    let joined := fun (m : W64) (t : State) => t.pkg.members = (if s.anyUp then m else w64 (2 ^ s.self)) ∧ t.pkg.epoch = s.pkg.epoch + 1 ∧ t.pkg.lost = 0 ∧
      t.pkg.dstate = (if s.anyUp then .member else .standalone)
    let others := (s.reachable c).filter fun k => k != s.self
    let told := fun (t : State) (what : String) (words : List W64) => ∀ k ∈ others, .control k what (w64 ctx :: words) ∈ t.out
    (early → a < 16 → b < 4 → ∃ t, exec (.packageNumberEffecter a b) s = .next t ∧ t.pkg = { s.pkg with tray := a, slot := b } ∧ t.mem = s.mem ∧
      t.homes = (if s.pkg.bring = .boot then [8 * (4 * a + b), 8 * (4 * a + b) + 1] else s.homes)) ∧
    (early → exec (.domainIdEffecter v) s = .next (s.modPkg fun p => { p with domain := v }) ∧
      exec (.presentMaskEffecter v) s = .next (s.modPkg fun p => { p with present := v })) ∧
    (¬early → exec (.packageNumberEffecter a b) s = .next s ∧ exec (.domainIdEffecter v) s = .next s ∧ exec (.presentMaskEffecter v) s = .next s) ∧
    -- hellos
    (s.pkg.bring = .reduced → (s.linkAt l).down = false → (s.linkAt l).fenced = false →
      ∃ t, exec (.helloSend die port) s = .next t ∧ (∃ d ∈ t.agenda, d.time = s.now + 800000 ∧ d.ev = .helloSend die port) ∧
        ((s.linkAt l).up = true → ∃ g, .hello die port g ∈ t.out ∧ g.domain = s.pkg.domain ∧ g.pkg = s.self ∧ g.swport = mine ∧ g.epoch = s.pkg.epoch)) ∧
    (h.swport ≠ mine → ∃ t, exec (.helloReceive die port h) s = .next t ∧ (t.linkAt l).fenced = true ∧ (t.linkAt l).cabling = true ∧
      .mgmt "CABLING" (8 * die + port) ∈ t.out ∧ t.pkg.heard = s.pkg.heard) ∧
    (h.swport = mine → h.domain ≠ s.pkg.domain → ∃ t, exec (.helloReceive die port h) s = .next t ∧ (t.linkAt l).fenced = true ∧ t.pkg.heard = s.pkg.heard ∧
      t.out = s.out) ∧
    (h.swport = mine → h.domain = s.pkg.domain → h.pkg = s.self → ∃ t, exec (.helloReceive die port h) s = .next t ∧ .mgmt "CONFLICT" s.self ∈ t.out ∧
      t.pkg.excludedPkgs = s.pkg.excludedPkgs ||| w64 (2 ^ s.self)) ∧
    (h.swport = mine → h.domain = s.pkg.domain → h.pkg ≠ s.self → ∃ t, exec (.helloReceive die port h) s = .next t ∧
      t.pkg.heard = s.pkg.heard ||| w64 (2 ^ h.pkg) ∧ (t.linkAt l).fenced = (s.linkAt l).fenced ∧
      (let again := ∃ at_, tfind s.pkg.heardAt (helloKey die port h) = some at_ ∧ s.now < at_ + 400000
       (again → t.pkg.excludedPkgs = s.pkg.excludedPkgs ||| w64 (2 ^ h.pkg)) ∧ (¬again → t.pkg.excludedPkgs = s.pkg.excludedPkgs)) ∧
      (s.pkg.dstate = .forming → s.pkg.bring = .reduced → s.pkg.present ≠ 0 → s.pkg.present &&& ~~~(s.known ||| w64 (2 ^ h.pkg)) = 0 →
        ⟨s.now, none, .none, .domainPublish⟩ ∈ t.agenda)) ∧
    -- forming
    (s.pkg.dstate = .forming → s.pkg.bring = .reduced →
      (v.getLsbD s.self = true → s.pkg.excludedPkgs.getLsbD s.self = false → ∃ t, exec (.memberSet v) s = .next t ∧ joined v t ∧ t.agenda = s.agenda) ∧
      (v.getLsbD s.self = false ∨ s.pkg.excludedPkgs.getLsbD s.self = true → exec (.memberSet v) s = .next s) ∧
      (lowestPkg set = s.self ∨ s.anyUp = false →
        (∃ t, exec .formationTimeout s = .next t ∧ joined set t) ∧
        (s.pkg.present ≠ 0 → s.pkg.present &&& ~~~s.known = 0 → ∃ t, exec .domainPublish s = .next t ∧ joined set t ∧
          (s.anyUp = true → ∀ k, k < 64 → k ≠ s.self → set.getLsbD k = true → .control k "MEMBER_SET" [set] ∈ t.out)))) ∧
    (s.pkg.present = 0 ∨ s.pkg.present &&& ~~~s.known ≠ 0 → exec .domainPublish s = .next s) ∧
    (s.pkg.dstate ≠ .forming → exec .formationTimeout s = .next s ∧ exec .domainPublish s = .next s ∧ exec (.memberSet v) s = .next s) ∧
    ((s.ctxs.any fun y => y.2.used && decide (1 < y.2.packages.length)) = true → exec (.domainReform v) s = .next (s.emit (.mgmt "REFORM_REFUSED" 0))) ∧
    ((s.ctxs.any fun y => y.2.used && decide (1 < y.2.packages.length)) = false → v.getLsbD s.self = true →
      ∃ t, exec (.domainReform v) s = .next t ∧ joined v t ∧ t.mem = s.mem) ∧
    -- the root and its standby
    (c.used = true → c.root = s.self →
      (s.owl.state = 1 → ∃ t, exec .heartbeat s = .next t ∧ told t "HEARTBEAT" [] ∧ ⟨s.now + 40000, none, .on ctx, .heartbeat⟩ ∈ t.agenda ∧
        t.ctxs = s.ctxs) ∧
      (s.owl.state = 2 → exec .heartbeat s = .next (s.later 40000 (.on ctx) .heartbeat)) ∧ (s.owl.state = 3 → exec .heartbeat s = .next s)) ∧
    (c.used = true → c.root ≠ s.self → ∃ t, exec .heartbeat s = .next t ∧ (t.ctxAt ctx).beat = s.now ∧ s.self ∉ (t.ctxAt ctx).reports ∧
      t.agenda = s.agenda ++ [⟨s.now + 800000, none, .on ctx, .heartbeatTimeout⟩]) ∧
    (c.used = true → c.root ≠ s.self → c.beat + 800000 ≤ s.now → ∃ t, exec .heartbeatTimeout s = .next t ∧ s.self ∈ (t.ctxAt ctx).reports ∧
      (s.standbyGone c = false → (∀ k ∈ [c.standby, c.root], k ≠ s.self → .control k "UNREACHABLE" [w64 ctx] ∈ t.out)) ∧
      (s.standbyGone c = true → told t "UNREACHABLE" [])) ∧
    (s.now < c.beat + 800000 → exec .heartbeatTimeout s = .next s) ∧
    (c.used = true → c.packages.contains n = true →
      (c.root ≠ s.self → n = c.root ∨ (n = c.standby ∧ c.standby ≠ s.self) → exec (.unreachableReport n) s = .next (s.stopWork ctx)) ∧
      (c.root ≠ s.self → n ≠ c.root → c.standby = s.self → ∃ t, exec (.unreachableReport n) s = .next t ∧ n ∈ (t.ctxAt ctx).reports ∧
        (c.packages.length < 2 * (t.ctxAt ctx).reports.length → ⟨s.now, none, .on ctx, .standbyTakeover⟩ ∈ t.agenda)) ∧
      (c.root = s.self → ∃ t, exec (.unreachableReport n) s = .next t ∧ n ∈ (t.ctxAt ctx).reports ∧
        (2 * (others.filter fun k => k != n && !c.reports.contains k).length + 2 * (if s.self < 64 ∧ c.packages.contains s.self = true ∧
            c.reports.contains s.self = false ∧ n ≠ s.self then 1 else 0) < c.packages.length → (t.ctxAt ctx).frozen = true))) ∧
    (c.used = true → c.root ≠ s.self → c.standby = s.self → ∃ t, exec .standbyTakeover s = .next t ∧ ⟨s.now, none, .on ctx, .freeze⟩ ∈ t.agenda ∧
      told t "FREEZE" []) ∧
    (c.used = true → ∃ t, exec .freeze s = .next t ∧ (t.ctxAt ctx).frozen = true ∧ t.gangs = s.gangs ∧ t.g = s.g ∧ t.mem = s.mem ∧
      (c.standby ≠ s.self → .control c.standby "CENSUS" (w64 ctx :: (s.launchesOf ctx).flatMap fun id => CensusPart.words (s.censusOf id)) ∈ t.out)) ∧
    (c.used = true → c.root ≠ s.self → c.standby = s.self → c.frozen = true →
      exec (.census parts) s = .next (((s.launchesOf ctx).foldl (fun y id => y.settleLaunch (c.census ++ parts) id) s).becomeRoot ctx)) ∧
    (let s0 := s.dropPackage c.root
     let t := s.becomeRoot ctx
     ∀ adr q, s0.takeoverQcb (s0.queueAt ctx) = some (adr, q) →
      let copy := fun (k : Nat) => s0.poolWord (adr + 32 + 64 * ((s0.poolWord (adr + 160)).toNat % 2) + 8 * k)
      (t.ctxAt ctx).root = s.self ∧ (t.ctxAt ctx).reports = [] ∧ (t.queueAt ctx).head = copy 1 ∧ (t.queueAt ctx).tail = copy 1 ∧
      (t.queueAt ctx).qtl = copy 3 ∧ (t.queueAt ctx).admitted = copy 5 ∧ (t.queueAt ctx).rootchg = !(copy 2).getLsbD 7) ∧
    (∀ k, k < 64 → (s.ctxAt k).used = true →
      (ctx = k → ∃ t, exec .thaw s = .next t ∧ (t.ctxAt k).frozen = false) ∧
      (∀ fixed, ctx = k + 64 * (if fixed then 2 else 1) → (s.ctxAt k).root ≠ s.self →
        ∃ t, exec .thaw s = .next t ∧ (t.ctxAt k).frozen = false ∧ (t.ctxAt k).halt = false ∧ (t.ctxAt k).fixed = fixed))

/-! ### Home agents, admin packets and the host (spec/03, spec/04) -/

/-- The home agents (R69, R73 to R80, 01 R36, R37): a request that reaches the wrong stack is redirected; one that meets a move, an open transaction
or earlier requests waits; the state table of the directory, its probes and its write-backs, whose data may be lost; what a probed die
gives up; and a page's move, which takes a frame, waits for open transactions, carries the bytes and changes the page's home. -/
def Obligations.DirectoryAndMoves : Prop :=
  ∀ (s : State) (die line page stack : Nat) (bytes : List (Nat × Byte)) (retire : Bool) (data : Option (List (Nat × Byte))),
    let p := line / 512
    let d := s.dirAt line
    let home := s.homeOf p
    let target := s.target die p
    let bit := BitVec.ofNat 256 (2 ^ die)
    let left := d.sharers &&& ~~~bit
    let req := fun (k : Nat) => if k = 0 then Instr.rds die line else if k = 1 then .rdx die line else .upg die line
    let moving := ∃ m ∈ s.moves, m.page = p ∧ m.copied = true
    let here := target = home ∧ s.stackLost home = false ∧ ¬moving
    let room := (tfind s.dir line).isSome = true ∨ s.dirUse.length < 16
    let calm := die / 4 ≠ s.self ∨ ∀ w ∈ (s.dieAt (die % 4)).wants, w.1 ≠ line
    let word := fun (o : Nat) => [w64 (line + o * 2 ^ 40)]
    let name := fun (k : ProbeKind) => match k with
      | .share => "PROBE_SHARE" | .own => "PROBE_OWN" | .invalidate => "PROBE_INVALIDATE" | .writeBack => "PROBE_WRITE_BACK"
    let probed := fun (t : State) (o : Nat) (k : ProbeKind) =>
      if o / 4 = s.self then ∃ x ∈ t.agenda, x.time = s.now ∧ x.ev = .probe o line k else .control (o / 4) (name k) (word o) ∈ t.out
    let outside := fun (t : State) => ∀ a, (∀ k, k < 256 → s.poolKey (256 * line + k) ≠ a) → memByte t.mem a = memByte s.mem a
    let asked := fun (l : List Nat) => l.filter fun i => i != die
    let owned : Dir := { d with st := .m, owner := die, sharers := bit, pending := none, turn := none }
    -- requests
    (∀ k, k < 3 →
      (target ≠ home → exec (req k) s = .next ((s.soon .none (.redirect die p (if target = s.hashHome p then home else s.hashHome p))).soon .none (req k))) ∧
      (target = home → s.stackLost home = true → exec (req k) s = .next (s.answered die line)) ∧
      (target = home → s.stackLost home = false → moving → exec (req k) s = .next (s.later 1 .none (req k))) ∧
      (here → d.turn ≠ some (.none, req k) → d.pending.isSome = true →
        ∃ t, exec (req k) s = .next t ∧ t.dirAt line = { d with queue := d.queue ++ [(.none, req k)] } ∧ t.mem = s.mem) ∧
      (∀ x rest, here → d.turn = none → d.pending = none → d.queue = x :: rest → ∃ t, exec (req k) s = .next t ∧ t.mem = s.mem ∧
        t.dirAt line = { d with queue := rest ++ [(.none, req k)], turn := some x } ∧ ⟨s.now, none, x.1, x.2⟩ ∈ t.agenda) ∧
      (here → d.turn = none ∨ d.turn = some (.none, req k) → d.pending = none → d.queue = [] → ∃ t, exec (req k) s = .next t ∧ (room → t.mem = s.mem) ∧
        (calm →
          (k = 0 → d.st = .i → t.dirAt line = { d with st := .e, owner := die, sharers := bit, turn := none }) ∧
          (k = 0 → d.st = .s → t.dirAt line = { d with sharers := d.sharers ||| bit, turn := none }) ∧
          (k = 0 → d.st ≠ .i → d.st ≠ .s → d.sharers.getLsbD die = true → t.dirAt line = { d with turn := none }) ∧
          (k ≠ 0 → d.st = .i ∨ left = 0 → t.dirAt line = owned)) ∧
        (k = 0 → d.st ≠ .i → d.st ≠ .s → d.sharers.getLsbD die = false →
          t.dirAt line = { d with pending := some ⟨0, die, [d.owner]⟩, turn := none } ∧ probed t d.owner .share) ∧
        (k ≠ 0 → d.st ≠ .i → left ≠ 0 →
          t.dirAt line = { d with pending := some ⟨k, die, (List.range 256).filter fun o => left.getLsbD o⟩, turn := none } ∧
          ∀ o, o < 256 → left.getLsbD o = true → probed t o (if d.st ≠ .s ∧ o = d.owner then .own else .invalidate)))) ∧
    (∃ t, exec (.redirect die page stack) s = .next t ∧ tget t.hints (2 ^ 32 * die + page) (s.hashHome page) = stack ∧ t.mem = s.mem ∧ t.dir = s.dir) ∧
    -- write-backs and evictions
    (s.stackLost home = true ∨ d.owner ≠ die ∨ d.st = .i ∨ d.st = .s → exec (.wb die line data) s = .next s) ∧
    (s.stackLost home = false → d.owner = die → d.st ≠ .i → d.st ≠ .s → ∃ t, exec (.wb die line data) s = .next t ∧
      (∀ bs, data = some bs → t.mem = (s.lineWrite line bs).mem ∧ outside t) ∧
      (data = none → t.mem = s.mem ∧ .mgmt "WRITE_BACK_LOST" line ∈ t.out ∧ t.lineLost (256 * line) = true) ∧
      (d.pending = none → (t.dirAt line).st = (if d.st = .o ∧ left ≠ 0 then .s else .i) ∧ (t.dirAt line).sharers = (if d.st = .o then left else 0)) ∧
      (∀ r l, d.pending = some ⟨0, r, l⟩ → die ∈ l →
        (t.dirAt line).st = .s ∧ (t.dirAt line).sharers = left ||| BitVec.ofNat 256 (2 ^ r) ∧ die ∈ (t.dirAt line).stale)) ∧
    (d.sharers.getLsbD die = false ∨ ((d.st = .m ∨ d.st = .o) ∧ d.owner = die) → exec (.cleanEviction die line) s = .next s) ∧
    (d.sharers.getLsbD die = true → ¬((d.st = .m ∨ d.st = .o) ∧ d.owner = die) → d.st ≠ .i → ∃ t, exec (.cleanEviction die line) s = .next t ∧
      t.mem = s.mem ∧ (t.dirAt line).sharers = left ∧ (t.dirAt line).st = (if left = 0 ∧ d.pending = none then .i else d.st)) ∧
    -- probes and their replies
    (∀ k, die / 4 ≠ s.self → ∃ t, exec (.probe die line k) s = .next t ∧ .control (die / 4) (name k) (word die) ∈ t.out ∧ t.mem = s.mem ∧ t.dir = s.dir) ∧
    (∀ k, die / 4 = s.self → ∃ t, exec (.probe die line k) s = .next t ∧ outside t ∧ t.dir = s.dir ∧
      (k ≠ .share → (∀ c ∈ t.cores, c.1 / 144 = die % 4 → ∀ x ∈ c.2.l1, x.line ≠ line) ∧ line ∉ (t.dieAt (die % 4)).snoop ∧
        ∀ x ∈ (t.dieAt (die % 4)).cache, x.line ≠ line) ∧
      (k ≠ .writeBack → home / 8 = s.self → ∃ x ∈ t.agenda, x.time = s.now ∧ x.ev = .probeReply die line []) ∧
      (k ≠ .writeBack → home / 8 ≠ s.self → .control (home / 8) "PROBE_REPLY" (word die) ∈ t.out)) ∧
    (die ∈ d.stale → ∃ t, exec (.probeReply die line bytes) s = .next t ∧ (t.dirAt line).stale = d.stale.erase die ∧ t.mem = s.mem) ∧
    (die ∉ d.stale → (∀ o, d.pending = some o → die ∉ o.left) → exec (.probeReply die line bytes) s = .next s) ∧
    (∀ k r l, die ∉ d.stale → d.pending = some ⟨k, r, l⟩ → die ∈ l → ∃ t, exec (.probeReply die line bytes) s = .next t ∧
      t.mem = (s.lineWrite line bytes).mem ∧ outside t ∧
      (k = 0 → (t.dirAt line).sharers = d.sharers ||| BitVec.ofNat 256 (2 ^ r) ∧
        (t.dirAt line).st = (if d.sharers.getLsbD d.owner = true ∧ (d.st = .o ∨ d.st = .m ∨ bytes ≠ []) then .o else .s)) ∧
      (k ≠ 0 → asked l ≠ [] → t.dirAt line = { d with pending := some ⟨k, r, asked l⟩ }) ∧
      (k = 3 → asked l = [] → (t.dirAt line).st = .i ∧ (t.dirAt line).sharers = 0) ∧
      (k = 1 ∨ k = 2 → asked l = [] → (t.dirAt line).st = .m ∧ (t.dirAt line).owner = r ∧ (t.dirAt line).sharers = BitVec.ofNat 256 (2 ^ r))) ∧
    -- page moves
    (let e := s.entryOf page
     let free := entValid e = true ∧ entMigrating e = false ∧ s.isAdmin page = false ∧ s.stackLost (entHome e) = false ∧ (retire = true ∨ s.isPinned page = false)
     (entValid e = true → entMigrating e = true → retire = true → s.isAdmin page = false →
       exec (.pageMoveStart page stack retire) s = .next (s.offCore .none (.pageMoveStart page stack retire))) ∧
     (¬free → ¬(entValid e = true ∧ entMigrating e = true ∧ retire = true ∧ s.isAdmin page = false) → exec (.pageMoveStart page stack retire) s = .next s) ∧
     (free → s.freeFrame stack = none → exec (.pageMoveStart page stack retire) s = .next s) ∧
     (∀ f, free → s.freeFrame stack = some f → ∃ t, exec (.pageMoveStart page stack retire) s = .next t ∧ entMigrating (t.entryOf page) = true ∧
       entHome (t.entryOf page) = entHome e ∧ entFrame (t.entryOf page) = entFrame e ∧ t.mem = s.mem ∧
       t.moves = s.moves ++ [{ page := page, stack := stack, frame := f, retire := retire }] ∧ (∃ x ∈ t.agenda, s.now < x.time ∧ x.ev = .moveCopyComplete page) ∧
       (stack / 8 ≠ s.self → .control (stack / 8) "PAGE_COPY" [w64 page] ∈ t.out))) ∧
    (∀ m, s.moves.find? (fun m => m.page == page) = some m →
      (s.stackLost m.stack = false → ∃ t, exec (.moveCopyComplete page) s = .next t ∧ (∃ x ∈ t.agenda, s.now < x.time ∧ x.ev = .moveFinish page) ∧
        (∀ y ∈ t.moves, y.page = page → y.copied = true) ∧ t.mem = s.mem) ∧
      (s.stackLost m.stack = true → ∃ t, exec (.moveCopyComplete page) s = .next t ∧ (∀ y ∈ t.moves, y.page ≠ page) ∧ t.mem = s.mem ∧
        (s.isAdmin page = false → entMigrating (t.entryOf page) = false))) ∧
    (∀ m, s.moves.find? (fun m => m.page == page && m.copied) = some m → s.stackLost m.stack = false → s.stackLost (entHome (s.entryOf page)) = false →
      let busy := ∃ y ∈ s.dir, y.1 / 512 = page ∧ y.2.pending ≠ none
      let old := s.entryOf page
      (busy → exec (.moveFinish page) s = .next (s.later 1 .none (.moveFinish page))) ∧
      (¬busy → s.isAdmin page = false → m.stack < 512 → m.frame < 2 ^ 19 → s.MemOk →
        ∃ t, exec (.moveFinish page) s = .next t ∧ entHome (t.entryOf page) = m.stack ∧ entFrame (t.entryOf page) = m.frame ∧ entCtx (t.entryOf page) = entCtx old ∧
          entValid (t.entryOf page) = true ∧ entMigrating (t.entryOf page) = false ∧ (∀ y ∈ t.moves, y.page ≠ page) ∧
          ∀ i, i < 2 ^ 17 → memByte t.mem (m.stack * 2 ^ 36 + m.frame * 2 ^ 17 + i) = memByte s.mem (entHome old * 2 ^ 36 + entFrame old * 2 ^ 17 + i)))

/-- Chunk counters and edge queues at their homes (R69, R75, R76, R78, R91 to R95): the chunk handed out and the counter's new fields; a send and a take
on the counters of the descriptor, a request whose condition does not hold parked or sent again after 256 cycles; a request in its
turn, once no die holds its lines; and at a lost home the fault. -/
def Obligations.CountersAndQueues : Prop :=
  ∀ (s : State) (handler : Bool) (pos : Nat) (addr : W64) (r : EdgeReq) (send : Bool),
    let a := addr.toNat
    let f := fun (o n : Nat) => natOf (s.poolRead (a + o) n)
    let n := if f 8 8 = 0 then 0 else min (f 8 8) (max (max 1 (f 16 4)) ((f 8 8 + max 1 (f 20 4) - 1) / max 1 (f 20 4)))
    let chunk := Instr.chunkRequest handler pos addr
    let die := fun (g : Nat) => s.dieNo (((s.gangAt g).map fun y => y.core / 144).getD 0)
    let q := s.edgeQ r.desc.toNat
    let desc := r.desc.toNat / 256
    let home := s.homeOf (pageOf r.desc.toNat)
    let counters := fun (q : EdgeQ) => bytesOf 8 q.head ++ bytesOf 8 q.tail ++ bytesOf 4 q.free ++ bytesOf 4 q.fill
    let parked := (s.parkedEdges.filter fun e => s.homeOf (pageOf e.1.desc.toNat) == home).length
    let moving := fun (line : Nat) => ∃ m ∈ s.moves, m.page = line / 512 ∧ m.copied = true
    let here := fun (g line : Nat) => s.target (die g) (line / 512) = s.homeOf (line / 512) ∧ s.stackLost (s.homeOf (line / 512)) = false ∧ ¬moving line
    let turn := fun (x : Subject × Instr) (line : Nat) => (s.dirAt line).turn = none ∨ (s.dirAt line).turn = some x
    let clear := fun (line : Nat) => (s.dirAt line).pending = none ∧ (s.dirAt line).sharers = 0
    let open_ := fun (x : Subject × Instr) (line : Nat) => turn x line ∧ (s.dirAt line).queue = []
    let onTheWay := fun (x : Subject × Instr) (g line : Nat) (i : Instr) =>
      let p := line / 512
      (s.target (die g) p ≠ s.homeOf p → exec i s = .next ((s.soon .none (.redirect (die g) p
        (if s.target (die g) p = s.hashHome p then s.homeOf p else s.hashHome p))).soon x.1 x.2)) ∧
      (s.target (die g) p = s.homeOf p → s.stackLost (s.homeOf p) = false → moving line → exec i s = .next (s.later 1 x.1 x.2)) ∧
      (here g line → (s.dirAt line).turn ≠ some x → (s.dirAt line).pending.isSome = true →
        ∃ t, exec i s = .next t ∧ t.dirAt line = { s.dirAt line with queue := (s.dirAt line).queue ++ [x] } ∧ t.mem = s.mem)
    let slot := s.edgeLines r.desc send
    let ready := fun (i : Instr) => here r.gang desc ∧ open_ (.gang r.gang, i) desc ∧ clear desc ∧ ∀ l ∈ slot, clear l
    let reply := fun (t : State) (x : Lanes) => ∀ g, s.gangAt r.gang = some g → ∃ g', t.gangAt r.gang = some g' ∧ tget g'.held r.pos [] = x ∧ g'.regs = g.regs
    -- chunks
    onTheWay (.gang s.gid, chunk) s.gid (a / 256) chunk ∧
    (s.target (die s.gid) (a / 256 / 512) = s.homeOf (a / 256 / 512) → s.stackLost (s.homeOf (a / 256 / 512)) = true → exec chunk s = .next (s.replyLost handler pos)) ∧
    (here s.gid (a / 256) → open_ (.gang s.gid, chunk) (a / 256) → clear (a / 256) → ∃ t, exec chunk s = .next t ∧
      t.mem = ((s.poolWrite a (bytesOf 8 (f 0 8 + n))).poolWrite (a + 8) (bytesOf 8 (f 8 8 - n))).mem ∧
      tget t.g.held pos [] = lanes (fun l => if l = 0 then w64 (f 0 8) else if l = 1 then w64 n else 0) ∧ t.g.regs = s.g.regs) ∧
    -- sends and takes, at first and sent again
    (∀ i ∈ [if send then Instr.edgeSend r else .edgeTake r, .edgeRetry r send],
      onTheWay (.gang r.gang, i) r.gang desc i ∧
      (s.target (die r.gang) (desc / 512) = s.homeOf (desc / 512) → s.stackLost (s.homeOf (desc / 512)) = true →
        exec i s = .next (s.within r.gang fun t => t.replyLost r.handler r.pos)) ∧
      (ready i → s.parkedEdges = [] →
        (send = true → q.free ≠ 0 → ∃ t, exec i s = .next t ∧ reply t (lanes fun l => if l = 0 then w64 q.tail else 0) ∧
          t.mem = ((s.poolWrite (q.at q.tail) (r.payload.take q.slot)).setEdgeQ r.desc.toNat { q with free := q.free - 1, tail := q.tail + 1, fill := q.fill + 1 }).mem) ∧
        (send = false → q.fill ≠ 0 → ∃ t, exec i s = .next t ∧
          reply t (lanes fun l => if l < q.slot / 8 then w64 (fieldOf (s.poolRead (q.at q.head) q.slot) (8 * l) 8) else 0) ∧
          t.mem = (s.setEdgeQ r.desc.toNat { q with fill := q.fill - 1, head := q.head + 1, free := q.free + 1 }).mem)) ∧
      (ready i → (if send then q.free = 0 else q.fill = 0) →
        (parked < 4096 → ∃ t, exec i s = .next t ∧ t.parkedEdges = s.parkedEdges ++ [(r, send)] ∧ t.mem = s.mem ∧
          (r.gang = s.gid → t.g.parked = true ∧ t.g.edgeParked = true ∧ t.g.parkedAt = s.clock ∧ t.g.regs = s.g.regs)) ∧
        (4096 ≤ parked → ∀ g, s.gangAt r.gang = some g → ∃ t, exec i s = .next t ∧ t.parkedEdges = s.parkedEdges ∧ t.mem = s.mem ∧
          ⟨(s.coreAt g.core).cyc + 256, some g.core, .gang r.gang, .edgeRetry r send⟩ ∈ t.agenda))) ∧
    (∀ (x : EdgeQ) (b : Nat), (s.setEdgeQ b x).mem = (s.poolWrite (b + 16) (counters x)).mem)

/-- Packets of the admin queue (R101, R104, R109, R115 to R118, R121 to R125): each is accepted, acts or is refused with its status, and completes in
order; commands for pages and stacks that another package keeps go to its Owl, and those of another package's Owl are carried out and reported;
the restart of the Owl and its end. -/
def Obligations.AdminPackets : Prop :=
  ∀ (s : State) (status : Byte) (from_ : Nat),
    let p := s.pkt
    let num := p.num
    let ws := p.words
    let u := s.acceptPacket p
    let w := fun (k : Nat) => (ws.getD k 0).toNat
    let ctx := w 2 % 64
    let page := w 2 / 2 ^ 17 % 2 ^ 31
    let stack := w 3 % 512
    let ends := fun (i : Instr) (st : Nat) (t : State) => exec i s = .next ((t.endAdmin num 0 st).pump p.queue)
    let restarted := fun (t : State) => t.owl.state = 2 ∧ t.owl.restarts.toNat = min 255 (s.owl.restarts.toNat + 1) ∧
      ∃ x ∈ t.agenda, x.time = s.now + 4000000 ∧ x.ev = .owlRestartDone
    -- order of completion
    (∀ (a : Accepted) (st : Nat) (v : W64), (s.queueAt 64).accepted = [a] → a.num = num →
      ∃ t : State, s.endAdmin num v st = (t.writeStatus ((a.words.getD 1 0).toNat % 2 ^ 48) v st).completePacket 64 num ∧ t.mem = s.mem ∧
        (t.queueAt 64).accepted = [{ a with result := some (v, st) }]) ∧
    (s.Stands →
      (u.queueAt p.queue).head = (s.queueAt p.queue).after ws ∧
      -- contexts
      (u.createStatus ws ≠ 0 → ends .ctxCreate (u.createStatus ws) u) ∧
      (u.createStatus ws = 0 → ends .ctxCreate 0 (u.createContext ws)) ∧
      (let c := (u.createContext ws).ctxAt ctx
       c.used = true ∧ c.prio = w 2 / 64 % 8 ∧ c.fixed = (w 2).testBit 9 ∧ c.rr = (w 2).testBit 10 ∧ c.table = ws.getD 3 0 ∧ c.root = s.self ∧ c.trace = none) ∧
      ((u.ctxAt ctx).used = false ∨ (u.ctxAt ctx).root ≠ s.self → ends .ctxDestroy 4 u) ∧
      ((u.ctxAt ctx).used = true → (u.ctxAt ctx).root = s.self → ends .ctxDestroy 0 ((u.destroyContext ctx).tellMembers "CTX_DESTROY" ws)) ∧
      ((u.destroyContext ctx).ctxAt ctx = {}) ∧
      -- pages
      (u.entryHere page = false → ∀ i ∈ [Instr.poolMap, .poolUnmap, .migrate], exec i s = .next ((u.sendCommand p (u.hashHome page / 8)).pump p.queue)) ∧
      (u.entryHere page = true → ends .poolMap (u.mapCommand (w 2) (w 3)).1 (u.mapCommand (w 2) (w 3)).2) ∧
      (let m := u.mapCommand (w 2) (w 3)
       let at_ := if (w 3).testBit 1 then w 3 / 2 ^ 8 % 512 else u.hashHome page
       let frame := w 3 / 2 ^ 32 % 2 ^ 19
       let taken := u.frameReserved at_ frame = true ∨ (u.usedFrames at_).contains frame = true
       (u.isAdmin page = true ∨ u.stackKnown at_ = false → m = (4, u)) ∧
       (u.isAdmin page = false → u.stackKnown at_ = true →
         (entValid (u.entryOf page) = true → m = (1, u)) ∧
         (entValid (u.entryOf page) = false → (w 3).testBit 2 = true → taken → m = (4, u)) ∧
         (entValid (u.entryOf page) = false → (w 3).testBit 2 = false → u.freeFrame at_ = none → m = (6, u)) ∧
         (∀ k, entValid (u.entryOf page) = false → (if (w 3).testBit 2 then ¬taken ∧ k = frame else u.freeFrame at_ = some k) →
           m.1 = 0 ∧ m.2.entryOf page = indEntry true ((w 3).testBit 0 || u.pkg.bring == .reduced) at_ k ctx ∧ m.2.dir = u.dir))) ∧
      (u.entryHere page = true → u.isAdmin page = false →
        (entValid (u.entryOf page) = true → ends .poolUnmap 0 (u.releasePage page)) ∧ (entValid (u.entryOf page) = false → ends .poolUnmap 0 u)) ∧
      (u.entryHere page = true → u.isAdmin page = true → ends .poolUnmap 4 u) ∧
      (u.entryHere page = true → u.moveStatus page stack ≠ 0 → ends .migrate (u.moveStatus page stack) u) ∧
      (u.entryHere page = true → u.moveStatus page stack = 0 → p.queue = 64 →
        exec .migrate s = .next (((u.soon .none (.pageMoveStart page stack false)).later 1 (.packet p) .migrate).pump p.queue)) ∧
      (let desc := w 2
       let base := w 3
       let cap := w 4 % 2 ^ 25
       let slot := w 4 / 2 ^ 32 % 512
       let good := desc < 2 ^ 48 ∧ base < 2 ^ 48 ∧ desc % 256 = 0 ∧ base % 256 = 0 ∧ 0 < cap ∧ cap ≤ 2 ^ 24 ∧ 8 ≤ slot ∧ slot ≤ 256 ∧ slot % 8 = 0
       (¬good → ends .eqCreate 4 u) ∧
       (∀ c, good → u.writeFail desc 256 = some c → ends .eqCreate (if c = 8 then 3 else 4) u) ∧
       (good → u.writeFail desc 256 = none →
         let t := u.makeEdge desc (bytesOf 8 base ++ bytesOf 4 cap ++ bytesOf 2 slot ++ List.replicate 18 0 ++ bytesOf 4 cap ++ List.replicate 220 0)
         ends .eqCreate 0 t ∧ desc ∈ t.edges)) ∧
      (let k := w 2 % 512
       (u.homes.contains k = false ∨ w 3 % 4096 ≠ 0 → ends .tableBase 4 u) ∧
       (u.homes.contains k = true → w 3 % 4096 = 0 → k / 8 = s.self →
         ((u.ind.any fun e => entValid e.2 && u.hashHome e.1 == k) = true → ends .tableBase 1 u) ∧
         ((u.ind.any fun e => entValid e.2 && u.hashHome e.1 == k) = false → ends .tableBase 0 { u with tableBase := tset u.tableBase k (ws.getD 3 0) })) ∧
       (u.homes.contains k = true → w 3 % 4096 = 0 → k / 8 ≠ s.self → exec .tableBase s = .next ((u.sendCommand p (k / 8)).pump p.queue))) ∧
      -- patches, restarts, reports, pairs
      (let len := w 3 % 2 ^ 32
       (w 2 % 256 ≠ 0 ∨ 2 ^ 48 < w 2 + len → ends .patchStage 4 u) ∧
       (∀ c, w 2 % 256 = 0 → w 2 + len ≤ 2 ^ 48 → u.runFail (w 2) len = some c → ends .patchStage (if c = 8 then 3 else 4) u) ∧
       (w 2 % 256 = 0 → w 2 + len ≤ 2 ^ 48 → u.runFail (w 2) len = none →
         (patchVerifies u.owl.fuses (u.poolRead (w 2) len) = true → ends .patchStage 0 { u with owl := { u.owl with staged := some (u.poolRead (w 2) len) } }) ∧
         (patchVerifies u.owl.fuses (u.poolRead (w 2) len) = false → ends .patchStage 5 { u with owl := { u.owl with patchrej := true } }))) ∧
      (∃ t, exec .owlRestart s = .next t ∧ restarted t) ∧
      (w 2 % 256 ≠ 0 ∨ 2 ^ 48 < w 2 + 29920 → ends .attest 4 u) ∧
      (w 2 % 256 = 0 → w 2 + 29920 ≤ 2 ^ 48 →
        (5 ≤ u.owl.attests.length → ends .attest 1 u) ∧
        (u.owl.attests.length < 5 → ∃ t : State, exec .attest s = .next (t.pump p.queue) ∧ t.owl.attests = u.owl.attests ++ [(num + 1, ws.drop 2)] ∧ t.mem = u.mem ∧
          (u.owl.attests = [] → ∃ x ∈ t.agenda, s.now < x.time ∧ x.ev = .attestSigned))) ∧
      (let n := w 2 % 64
       (n / 4 = s.self / 4 ∨ u.inDomain n = false → ends .pairBind 4 u) ∧
       (n / 4 ≠ s.self / 4 → u.inDomain n = true → ends .pairBind 0 { u with owl := { u.owl with partner := some n } }))) ∧
    -- what another package's Owl asks for
    (p.queue = 128 + from_ → from_ < 64 →
      let reply := fun (t : State) (st : Nat) => t.tell from_ "POOL_COMMAND_COMPLETION" [w64 num, w64 st]
      let pages := s.mapCommand (w 2) (w 3)
      exec .poolMap s = .next (reply pages.2 pages.1) ∧
      exec .poolUnmap s = .next (if s.isAdmin page then reply s 4 else if entValid (s.entryOf page) then reply (s.releasePage page) 0 else reply s 0) ∧
      exec .tableBase s = .next (reply (s.baseCommand p).2 (s.baseCommand p).1) ∧
      (s.moveStatus page stack ≠ 0 → exec .migrate s = .next (reply s (s.moveStatus page stack))) ∧
      (s.moveStatus page stack = 0 →
        exec .migrate s = .next ((s.soon .none (.pageMoveStart page stack false)).later 1 (.packet { p with queue := 192 + from_ }) .migrate)) ∧
      (∃ t, exec .ctxCreate s = .next t ∧ (t.ctxAt ctx).used = true ∧ (t.ctxAt ctx).root = from_ ∧ (t.ctxAt ctx).table = ws.getD 3 0 ∧ t.mem = s.mem) ∧
      ∃ t, exec .ctxDestroy s = .next t ∧ t.ctxAt ctx = {}) ∧
    (p.queue = 192 + from_ → from_ < 64 →
      ((∃ m ∈ s.moves, m.page = page) → exec .migrate s = .next (s.later 64 (.packet p) .migrate)) ∧
      ((∀ m ∈ s.moves, m.page ≠ page) →
        exec .migrate s = .next (s.tell from_ "POOL_COMMAND_COMPLETION" [w64 num, if entHome (s.entryOf page) = stack then 0 else 3]))) ∧
    -- what follows later
    (∀ a, s.entryOfPacket p = some a → a.started = true → a.result = none → p.queue = 64 →
      ((∃ m ∈ s.moves, m.page = page) → exec .migrate s = .next (s.later 64 (.packet p) .migrate)) ∧
      ((∀ m ∈ s.moves, m.page ≠ page) → exec .migrate s = .next (s.endAdmin num 0 (if entHome (s.entryOf page) = stack then 0 else 3))) ∧
      exec (.poolCommandCompletion status) s = .next ((if status = 0 then s.farDone p else s).endAdmin num 0 status.toNat)) ∧
    (w 0 % 256 = 0x43 → s.isAdmin page = false → ∃ k, (s.farDone p).entryOf page =
      indEntry true ((w 3).testBit 0) (if (w 3).testBit 1 then w 3 / 2 ^ 8 % 512 else s.hashHome page) k ctx) ∧
    (w 0 % 256 = 0x44 → s.farDone p = if entValid (s.entryOf page) then s.releasePage page else s) ∧
    (∀ k xs rest, s.owl.attests = (k, xs) :: rest → ∃ t, exec .attestSigned s = .next t ∧
      t.owl.attests = rest ∧ (k = 0 → .reply "ATTESTATION" (s.report (xs.drop 1)) ∈ t.out)) ∧
    (s.owl.state = 1 → (s.now :: s.owl.restartTimes.filter fun x => decide (s.now < x + 800000000)).length < 3 →
      ∃ t, exec .owlWatchdog s = .next t ∧ restarted t ∧ t.mem = s.mem) ∧
    (s.owl.state = 1 → 3 ≤ (s.now :: s.owl.restartTimes.filter fun x => decide (s.now < x + 800000000)).length →
      ∃ t, exec .owlWatchdog s = .next t ∧ t.owl.state = 3 ∧ .mgmt "OWL_FAILED" 0 ∈ t.out) ∧
    (s.owl.state = 2 → ∃ t, exec .owlRestartDone s = .next t ∧ t.owl.state = 1 ∧ t.owl.staged = none ∧
      ∀ bs, s.owl.staged = some bs → t.owl.patch = some bs ∧ t.owl.fuses = max s.owl.fuses (patchSecver bs))

/-- What a host and management do (R96 to R100, R102, R118 to R120, R124, R126, R482): the link, the aperture, the register window, the digests
of a checked pair, sensors and firmware. -/
def Obligations.HostInterface : Prop :=
  ∀ (s : State) (off len ctx member : Nat) (v v2 : W64) (bytes : List Byte) (digest : BitVec 256) (wide : Bool),
    let a := s.owl.aperture.toNat * 2 ^ 28 + off
    let at_ := (List.range len).map (a + ·)
    let bad := 2 ^ 28 < off + len ∨ at_.any s.hostFail = true
    let n := if wide then 8 else 4
    let old := natOf (s.poolRead a n)
    let x := v.toNat % 256 ^ n
    let good := off % n = 0 ∧ off + n ≤ 2 ^ 28 ∧ s.hostFail a = false
    let free := (s.slotOf ctx member).2 = 0xFFFFFFFFFFFFFFFF
    let qcb := v &&& 0x0000FFFFFFFFFF00
    let same := fun (t : State) => t.mem = s.mem ∧ t.pkg = s.pkg ∧ t.owl = s.owl
    ([5, 6, 7].contains off = true → [4, 8, 16].contains len = true →
      exec (.pcieLinkTrain off len) s = .next (s.modPkg fun p => { p with pcieRate := off, pcieWidth := len })) ∧
    -- the aperture
    (∃ t, exec (.apertureWrite off bytes) s = .next t ∧
      (∀ k, (∀ i j, i < bytes.length → j < 256 → s.poolKey ((a + i) / 256 * 256 + j) ≠ k) → memByte t.mem k = memByte s.mem k) ∧
      (off + bytes.length ≤ 2 ^ 28 → (∀ i, i < bytes.length → s.pageFail none (pageOf (a + i)) = none ∧ s.lineLost (a + i) = false) →
        (∀ i, i < bytes.length → (s.dirAt ((a + i) / 256)).sharers = 0) → t.mem = (s.poolWrite a bytes).mem ∧ t.out = s.out)) ∧
    (¬bad → exec (.apertureRead off len) s = .next (s.emit (.reply "COMPLETION" (s.poolRead a len)))) ∧
    (bad → ∃ t, exec (.apertureRead off len) s = .next t ∧ t.out.getLast? = some (.reply "UNSUPPORTED_REQUEST" []) ∧ same t) ∧
    (good → ∀ kind, ∃ t, exec (.pcieAtomicop kind off wide v v2) s = .next t ∧ .reply "COMPLETION" (bytesOf n old) ∈ t.out ∧
      let new := match kind with | .fetchAdd => (old + x) % 256 ^ n | .swap => x | .cas => if old = v2.toNat % 256 ^ n then x else old
      t.mem = (s.hostWrite a (bytesOf n new)).mem) ∧
    (¬good → ∀ kind, ∃ t, exec (.pcieAtomicop kind off wide v v2) s = .next t ∧ t.out.getLast? = some (.reply "UNSUPPORTED_REQUEST" []) ∧ same t) ∧
    -- the register window
    exec (.registerWrite 0x2100 v) s = .next { s with owl := { s.owl with aperture := v.extractLsb' 28 20 } } ∧
    exec (.registerWrite 0x2210 v) s = .next { s with owl := { s.owl with adminRing := v &&& 0x07FFFFFFFFFFF03F } } ∧
    exec (.registerWrite 0x2208 v) s = exec .adminDoorbell s ∧ exec .adminDoorbell s = .next (s.ring 64) ∧
    (s.subj < 64 → exec (.registerWrite (0x10000 + 8 * s.subj) v) s = exec .doorbell s) ∧ exec .doorbell s = .next (s.ring s.subj) ∧
    exec (.registerWrite 0x2200 v) s = exec (.adminQcb v) s ∧
    (∀ o, [0, 0x100, 0x108, 0x110, 0x2000].contains o = true ∨ (0x1000 ≤ o ∧ o < 0x1080) → exec (.registerWrite o v) s = .next s) ∧
    (∃ t, exec (.adminQcb v) s = .next t ∧ t.owl.adminQcb = qcb ∧
      (s.owl.state = 1 → (t.queueAt 64).head = 0 ∧ (t.queueAt 64).accepted = [] ∧ (t.queueAt 64).qcb = qcb) ∧
      (s.owl.state = 2 → t.owl.adminWait = some (qcb, s.owl.adminRing) ∧ t.queues = s.queues) ∧
      (s.owl.state ≠ 1 → s.owl.state ≠ 2 → t.queues = s.queues)) ∧
    (∀ k, k < 4096 → ∃ t, exec (.registerWrite (0x100000 + 8 * k) v) s = .next t ∧ tget t.owl.msix k 0 = v ∧ t.mem = s.mem) ∧
    (s.registerRead 0x2208 = some 0 ∧ ∀ k, k < 64 → s.registerRead (0x10000 + 8 * k) = some 0) ∧
    -- checked pairs
    (member < 2 → free → ∃ t, exec (.admitDigest ctx member digest v) s = .next t ∧ t.slotOf ctx member = (digest, v)) ∧
    (¬(member < 2 ∧ free) → exec (.admitDigest ctx member digest v) s = .next s) ∧
    (let c := s.subj
     let q := s.queueAt c
     let d0 := s.slotOf c 0
     let d1 := s.slotOf c 1
     let size := (s.poolWord (q.ringAt q.admitted.toNat)).toNat / 2 ^ 16 % 2 ^ 16
     let halts := fun (k : Nat) => s.haltQueue c 6 (s.tagAt c q.admitted) k
     let own := BitVec.ofNat 256 (natOf (shake32 (wordBytes (s.ringWords q q.admitted.toNat size))))
     d0.2 ≠ 0xFFFFFFFFFFFFFFFF → d1.2 ≠ 0xFFFFFFFFFFFFFFFF → q.qstate.reads = true → (s.ctxAt c).checked = true →
       (d0.1 ≠ d1.1 → exec .packetAdmission s = .next (halts 1)) ∧
       (∀ e, d0.1 = d1.1 → s.ringFail q q.admitted.toNat 1 = some e → exec .packetAdmission s = .next (s.ringLost c e 0)) ∧
       (d0.1 = d1.1 → s.ringFail q q.admitted.toNat 1 = none → s.ringFail q q.admitted.toNat size = none →
         (own ≠ d0.1 → exec .packetAdmission s = .next (halts 2)) ∧
         (own = d0.1 → ∃ t : State, exec .packetAdmission s = .next (t.pump c) ∧ (t.queueAt c).admitted = q.admitted + w64 (8 * size) ∧
           (t.slotOf c 0).2 = 0xFFFFFFFFFFFFFFFF ∧ (t.slotOf c 1).2 = 0xFFFFFFFFFFFFFFFF))) ∧
    (∀ h, (s.queueAt s.subj).halfSlot = some h →
      (h + 8000000 ≤ s.now → exec .admitTimeout s = .next
        (let t := s.modQueue s.subj fun q => { q with halfSlot := none }
         t.haltQueue s.subj 6 (t.tagAt s.subj (s.queueAt s.subj).admitted) 3)) ∧
      (s.now < h + 8000000 → exec .admitTimeout s = .next s)) ∧
    -- management
    exec (.sensorRead .packagePower) s = .next (s.emit (.reply "SENSOR" (bytesOf 8 (s.pkg.samples.headD 0)))) ∧
    exec (.sensorRead (.portStatus off)) s = .next (s.emit (.reply "SENSOR" (bytesOf 4 ((tget s.pkg.links off {}).status (off % 8))))) ∧
    exec (.sensorRead .domainStatus) s = .next (s.emit (.reply "SENSOR" (s.domainStatus.flatMap fun y => bytesOf 8 y.toNat))) ∧
    (∃ z, exec (.sensorRead (.dieTemp off)) s = .next (({ s with free := s.free + 1 } : State).emit (.reply "SENSOR" (bytesOf 8 z)))) ∧
    (∃ z, exec (.sensorRead .coolantInlet) s = .next (({ s with free := s.free + 1 } : State).emit (.reply "SENSOR" (bytesOf 8 z)))) ∧
    (∃ t, exec (.firmwareUpdate .patch bytes) s = .next t ∧
      (patchVerifies s.owl.fuses bytes = true → t.owl = { s.owl with staged := some bytes } ∧ t.out = s.out ++ [.reply "UPDATE_DONE" []]) ∧
      (patchVerifies s.owl.fuses bytes = false → t.owl = { s.owl with patchrej := true } ∧ t.out = s.out ++ [.reply "UPDATE_REJECTED" []])) ∧
    (∃ t, exec (.firmwareUpdate .serviceBoot bytes) s = .next t ∧
      (bootVerifies bytes = true → t.owl = { s.owl with bootStaged := some bytes }) ∧ (bootVerifies bytes = false → t.owl = s.owl)) ∧
    (s.owl.state = 1 → ∃ t, exec (.firmwareActivate .patch) s = .next t ∧ t.owl.state = 2 ∧ ∃ d ∈ t.agenda, d.time = s.now + 4000000 ∧ d.ev = .owlRestartDone) ∧
    (∃ t, exec (.firmwareActivate .serviceBoot) s = .next t ∧ t.owl.bootStaged = none ∧ ∀ bs, s.owl.bootStaged = some bs → t.owl.bootImage = some bs) ∧
    (5 ≤ s.owl.attests.length → exec (.mctpAttestation bytes) s = .next (s.emit (.reply "ATTEST_BUSY" []))) ∧
    (s.owl.attests.length < 5 → ∃ t k, exec (.mctpAttestation bytes) s = .next t ∧ t.owl.attests = s.owl.attests ++ [(0, k)] ∧
      k.tail = (List.range 4).map fun i => w64 (fieldOf bytes (8 * i) 8)) ∧
    exec .pldmDiscovery s = .next (s.emit (.reply "PLDM_TYPES" [0, 2, 5])) ∧
    exec .certificateRead s = .next (s.emit (.reply "CERTIFICATE" Config.certificate))

/-! ### Queues, distribution, partitions and replies (spec/04 to spec/09, spec/14, spec/15) -/

/-- Packets of a context's queue, resumes and sessions (R103, R106, R113 to R115, R147, R263 to R268): what waits, what completes, what halts; a
context's queue stopped by a fault. -/
def Obligations.QueuePackets : Prop :=
  ∀ (s : State) (tag : W32) (sub code from_ : Nat),
    let p := s.pkt
    let n := p.queue
    let ws := p.words
    let u := s.acceptPacket p
    let q := s.queueAt n
    let w := fun (k : Nat) => (ws.getD k 0).toNat
    let ctx := w 2 % 64
    let ends := fun (i : Instr) (st : Nat) (t : State) => exec i s = .next ((t.endAdmin p.num 0 st).pump n)
    let oldest := (match (u.queueAt n).accepted with | a :: _ => a.num = p.num | [] => False) ∧ (u.queueAt n).qstate ≠ .stopped ∧ u.owl.state = 1
    let waiting : State := s.modQueue n fun y => { y with waits := some (ws.getD 1 0, ws.getD 2 0), waitNo := p.num }
    let timed : State := if w 3 % 2 ^ 32 = 0 then waiting else waiting.later (800 * (w 3 % 2 ^ 32)) (.packet p) .tlwaitTimeout
    let address := u.queueAt n |>.ringAt ((u.queueAt n).head.toNat - 8 * ws.length)
    let far := 2 ^ 32 * (1 + from_) + w 0
    let here := s.acceptWork from_ ws
    let closes := fun (i : Instr) => (u.ctxAt n).trace.isSome = true → exec i s = .next ((u.closeSession n 1).pump n)
    exec .tailPoll s = .next ((s.modQueue s.subj fun y => { y with polls := false }).ring s.subj) ∧
    (s.Stands →
      (n ≠ 64 → PacketDoes .wrap s fun t => t.completePacket n p.num) ∧
      (n = 64 → PacketDoes .wrap s fun t => t.flushAdmin (t.queueAt 64).accepted.length) ∧
      (w 0 % 256 = 15 → (u.queueAt n).head = w64 (q.head.toNat + (q.size - q.head.toNat % q.size))) ∧
      (w 0 % 256 ≠ 15 → (u.queueAt n).head = q.head + w64 (8 * ws.length)) ∧
      -- launches
      exec .launch s = .next ((u.startPacket p [(w64 (address + 8), wordBytes (ws.drop 1))] none).pump n) ∧
      exec .graph s = .next ((u.startPacket p (u.recordsOf ws) (some u.nextId)).pump n) ∧
      -- timelines and order
      (timed.tlMet n = false → exec .tlwaitPacket s = .next timed) ∧
      (timed.tlMet n = true → exec .tlwaitPacket s = .next (timed.soon (.on n) .tlwaitSatisfied)) ∧
      (oldest → exec .fencePacket s = .next ((u.completePacket n p.num).pump n) ∧
        (w 3 = 0 → exec .tlsignal s = .next (((u.raiseQtl n (ws.getD 2 0)).completePacket n p.num).pump n)) ∧
        (w 3 ≠ 0 → exec .tlsignal s = .next ((((u.raiseQtl n (ws.getD 2 0)).writeRecord n (tagOf ws) (w 3) (bytesOf 8 (w 2))).completePacket n p.num).pump n))) ∧
      (¬oldest → exec .fencePacket s = .next (u.pump n) ∧ exec .tlsignal s = .next (u.pump n)) ∧
      exec .preempt s = .next (((u.pursue n).checkAsks n).pump n) ∧
      -- traces
      closes .traceOpen ∧ closes .traceClose ∧
      ((u.ctxAt n).trace = none →
        exec .traceOpen s = .next (((u.openSession n ws).completePacket n p.num).pump n) ∧
        exec .traceClose s = .next ((u.completePacket n p.num).pump n) ∧
        ∃ y, ((u.openSession n ws).ctxAt n).trace = some y ∧ y.ring = ws.getD 2 0 ∧ y.size = 2 ^ w 3 ∧ y.area = ws.getD 4 0 ∧ y.period = w 5 ∧
          y.evmask = w64 (w 1 / 256) ∧ y.closing = none ∧ y.num = u.nextId) ∧
      -- resumes and halts by the host
      ((u.ctxAt ctx).used = false ∨ (u.ctxAt ctx).root ≠ s.self → ∀ i ∈ [Instr.queueResume, .queueResumeSkip, .queueResumeReset, .hostHalt], ends i 4 u) ∧
      ((u.ctxAt ctx).used = true → (u.ctxAt ctx).root = s.self →
        ends .queueResume 0 (u.resumeQueue ctx) ∧ ends .hostHalt 0 (u.haltQueue ctx 8 0 0) ∧
        (let y := u.queueAt ctx
         let len := match u.ringFail y y.head.toNat 1 with | some _ => 1 | none => max 1 ((u.poolWord (y.ringAt y.head.toNat)).toNat / 2 ^ 16 % 2 ^ 16)
         let head := if y.head = y.tail then y.head else w64 (min (y.head.toNat + 8 * len) y.tail.toNat)
         ends .queueResumeSkip 0 ((u.modQueue ctx fun z => { z.letGo with bare := false, head := head }).resumeQueue ctx)) ∧
        ∃ t : State, exec .queueResumeReset s = .next (t.pump n) ∧
          ((u.ctxAt ctx).trace ≠ none ∨ (∃ x ∈ u.launches, x.2.ctx = ctx) → (t.queueAt ctx).qstate = .resetting ∧ (t.queueAt ctx).head = (u.queueAt ctx).tail ∧
            (t.ctxAt ctx).halt = false) ∧
          ∀ id y, tfind s.launches id = some y → y.ctx = ctx → (t.launchAt id).status = 3 ∧ (t.launchAt id).units = [])) ∧
    -- what the root of another package sends
    (n = 128 + from_ → from_ < 64 → exec .launch s = .next here ∧ (tfind here.launches far).isSome = true ∧
      (ws.drop 69 ≠ [] → ∃ x ∈ here.agenda, x.time = s.now ∧ x.ev = .split far none ((ws.drop 69).map BitVec.toNat)) ∧
      exec .queueResumeReset s = .next ((s.discardFar ctx).goOn ctx none)) ∧
    -- what follows
    (∀ a, q.accepted.find? (fun a => a.num == q.waitNo && !a.started) = some a → s.subj = n → q.waits.isSome = true → s.serves n = true →
      s.tlMet n = true ∨ s.tlRemote n = true → exec .tlwaitSatisfied s = .next (((s.modQueue n fun y => { y with waits := none }).acceptPacket ⟨n, a.num, a.words⟩).completePacket n a.num)) ∧
    (q.waits.isSome = true → q.waitNo = p.num → (q.accepted.any fun a => a.num == p.num && !a.started) = true →
      exec .tlwaitTimeout s = .next (s.haltQueue n 7 (tagOf ws) 0)) ∧
    (∀ a rest, q.accepted = a :: rest → a.num = p.num → a.started = true → q.qstate ≠ .stopped → s.owl.state = 1 →
      exec .fencePacket s = .next (s.completePacket n p.num) ∧
      (w 3 = 0 → exec .tlsignal s = .next ((s.raiseQtl n (ws.getD 2 0)).completePacket n p.num))) ∧
    (∀ y cause, (s.ctxAt s.subj).trace = some y → y.closing = some cause → ∃ t, exec .traceDrainTimeout s = .next t ∧ (t.ctxAt s.subj).trace = none) ∧
    -- a halt, a stop and a fault
    (q.qstate.reads = true → ∀ k, ((s.haltQueue n k tag sub).queueAt n).qstate = .halted ∧ ((s.haltQueue n k tag sub).queueAt n).cause = k ∧
      ((s.haltQueue n k tag sub).queueAt n).detail = detailOf tag sub 0 ∧ ((s.haltQueue n k tag sub).queueAt n).head = q.head ∧
      ((s.owl.vectorControl (s.vectorOf n)).testBit 0 = false →
        .msix (s.vectorOf n) ∈ (s.haltQueue n k tag sub).out ∨ .source (32 + s.vectorOf n) ∈ (s.haltQueue n k tag sub).out)) ∧
    (q.qstate.reads = false → ∀ k, s.haltQueue n k tag sub = s) ∧
    (s.subj = n → (s.ctxAt n).used = true → (s.ctxAt n).root ≠ s.self → ∃ t, exec (.contextFault tag sub code) s = .next t ∧ t.mem = s.mem ∧
      .control (s.ctxAt n).root "CONTEXT_FAULT" [w64 n, tag.setWidth 64, w64 sub, w64 code] ∈ t.out) ∧
    (s.subj = n → (s.ctxAt n).used = false ∨ (s.ctxAt n).root = s.self → q.qstate ≠ .stopped → q.qstate ≠ .destroyed → q.qstate ≠ .resetting →
      ∃ t, exec (.contextFault tag sub code) s = .next t ∧ (t.queueAt n).qstate = .stopped ∧ (t.queueAt n).cause = 0x102 ∧
        (t.queueAt n).detail = w64 (tag.toNat * 2 ^ 32 + sub % 65536 * 2 ^ 16 + code % 65536) ∧ (t.queueAt n).waits = none ∧ (t.ctxAt n).halt = true ∧
        (t.queueAt n).head = q.head)

/-- Launches, queues of cores, stealing and the end of a launch (R127 to R147): the checks of a launch record, the splits, admission, steals, bins,
tasks and completion. -/
def Obligations.Distribution : Prop :=
  ∀ (s : State) (id die core team bin : Nat) (teams : List Nat) (task : TaskDesc) (r : StealReq) (others : List StealReq) (zero : Bool) (l : Launch),
    tfind s.launches id = some l →
    let tm := s.teamAt team
    let bn := tget tm.bins bin {}
    let lr := (s.launchAt tm.launch).lr
    let timer := if fieldOf lr 164 4 = 0 then 2048 else fieldOf lr 164 4
    let cyc := (s.coreAt tm.core).cyc
    let ripe := 32 ≤ bn.args.length ∨ bn.since + timer ≤ cyc
    let ctx := l.ctx
    let own := 144 * die + core
    let parts := tset l.parts die zero
    let units := if 8 ≤ die ∧ zero = true then tdel l.units die else l.units
    let done := zero = true ∧ (parts.all fun p => p.2) = true ∧ (units.all fun p => p.2 == 0) = true ∧ l.unsplit = []
    let c := s.ctxAt ctx
    let here := c.root = s.self
    let more := (s.victims (s.launchAt r.launch).ctx r.thief).any fun v => !(tget s.stealing r.thief []).contains v
    let got := if tfind s.granted r.victim = some s.now then [] else s.stolen r
    let ready := c.halt = false ∧ c.frozen = false ∧ (l.units.all fun p => p.2 == 0) = true ∧ l.unsplit = []
    let s0 := s.countExits s.subj
    let opens := (s0.partAt (partOf s.subj)).releasing = false
    -- splits
    ((s.ctxPackages ctx).isEmpty = true ∨ c.frozen = true → exec (.split id none teams) s = .next (s.modLaunch id fun y => { y with unsplit := y.unsplit ++ [teams] })) ∧
    ((s.ctxPackages ctx).isEmpty = false → c.frozen = false → lrSeed l.lr = false →
      ∃ t, exec (.split id none teams) s = .next t ∧ t.teams = s.teams ∧ t.cores = s.cores ∧
        ∀ d ts, (d, ts) ∈ s.routeTeams ctx l.lr teams → ts ≠ [] →
          if d < 4 then ∃ x ∈ t.agenda, x.ev = .split id (some d) ts else ∃ ws, .control (d - 4) "LAUNCH" ws ∈ t.out) ∧
    ((s.ctxPackages ctx).isEmpty = false → c.frozen = false → lrSeed l.lr = true → ∃ t, exec (.split id none teams) s = .next t ∧
      (let d := s.seedDie ctx l.lr
       if d < 4 then tfind t.teams s.nextId = some (seedTeam id l.lr ((s.ctxCores ctx d).headD 0)) else ∃ ws, .control (d - 4) "LAUNCH" ws ∈ t.out)) ∧
    ((s.ctxCores ctx die).isEmpty = true ∨ c.frozen = true → exec (.split id (some die) teams) s = .next (s.soon .none (.split id none teams))) ∧
    ((s.ctxCores ctx die).isEmpty = false → c.frozen = false →
      exec (.split id (some die) teams) s = .next ((((s.queueTeams id l.lr (s.splitCores ctx die l.lr teams)).addUnits id die teams.length).addUnits id 4 (-teams.length)).kick ctx)) ∧
    -- steals
    (r.thief < 704 → (∀ x ∈ others, r.thief < x.thief ∧ x.thief < 704) → ∃ t, exec (.stealRequest (r :: others)) s = .next t ∧
      t.agenda = s.agenda ++ ⟨s.now, none, .none, .stealReply r got⟩ :: others.map fun x => ⟨s.now, none, .none, .stealReply x []⟩) ∧
    (704 ≤ r.thief → ∃ t, exec (.stealRequest [r]) s = .next t ∧ .control (r.thief - 704) "STEAL_REPLY"
      (w64 (r.launch % 2 ^ 32) :: w64 (704 + s.self) :: got.map fun k => w64 (s.teamAt k).ident.toNat) ∈ t.out) ∧
    (∀ k ∈ s.stolen r, ∃ v, k ∈ (s.coreAt v).queue) ∧
    ((∀ x y, y ∈ (s.teamAt x).mates → (s.teamAt y).launch = (s.teamAt x).launch) → ∀ k ∈ s.stolen r, (s.teamAt k).launch = r.launch) ∧
    ((s.stolen r).length ≤ 64 ∧ (lrNoSteal (s.launchAt r.launch).lr = true → s.stolen r = [])) ∧
    exec (.stealReply r []) s = .next (s.later (if more then 256 else 4096) (.on r.thief) .stealBackoff) ∧
    (r.thief < 576 → r.victim < 704 → stealDie r.victim = stealDie r.thief → teams ≠ [] → ∃ t, exec (.stealReply r teams) s = .next t ∧
      (t.coreAt r.thief).queue = (s.coreAt r.thief).queue ++ teams ∧ (∀ k, k ≠ r.thief → t.coreAt k = s.coreAt k) ∧
      t.agenda = s.agenda ++ [⟨s.now, none, .on r.thief, .teamAdmit⟩]) ∧
    ((tfind s.stealing s.subj).isNone = true → exec .stealBackoff s = .next s) ∧
    ((tfind s.stealing s.subj).isSome = true → (∀ k, (s.partAt k).owner = none) → exec .stealBackoff s = .next { s with stealing := tdel s.stealing s.subj }) ∧
    (∀ v k x, s.subj < 576 → (tfind s.stealing s.subj).isSome = true → (s.partAt (partOf s.subj)).owner = some v → s.stealLaunch v = some k →
      s.hungry s.subj k = true → (s.queuedOf k (dieCores (dieOf s.subj))).isEmpty = false →
      ((s.victims (s.launchAt k).ctx s.subj).find? fun y => !(tget s.stealing s.subj []).contains y) = some x →
      ∃ t, exec .stealBackoff s = .next t ∧ tget t.stealing s.subj [] = tget s.stealing s.subj [] ++ [x] ∧
        ∃ d ∈ t.agenda, ∃ rs, d.time = s.now ∧ d.ev = .stealRequest rs ∧ ⟨s.subj, x, k⟩ ∈ rs) ∧
    -- bins
    (bn.args = [] ∨ tm.admitted = false ∨ (s.launchAt tm.launch).fixord = true ∨ cyc < bn.since + timer → exec (.binTimer team bin) s = .next s) ∧
    (bn.args ≠ [] → tm.admitted = true → (s.launchAt tm.launch).fixord = false → bn.since + timer ≤ cyc → exec (.binTimer team bin) s = .next (s.dueBin team bin)) ∧
    (bn.args = [] ∨ tm.admitted = false ∨ ((s.launchAt tm.launch).fixord = false ∧ ¬ripe) → exec (.binLaunch team bin) s = .next s) ∧
    (bn.args ≠ [] → tm.admitted = true → (s.launchAt tm.launch).fixord = true ∨ ripe → exec (.binLaunch team bin) s = .next (s.dueBin team bin)) ∧
    (bn.args ≠ [] → (tfind s.teams team).isSome = true → (tget ((s.dueBin team bin).teamAt team).bins bin {}).due = some (bn.due.getD cyc) ∧
      ⟨s.now, none, .on tm.core, .slotTakeover⟩ ∈ (s.dueBin team bin).agenda) ∧
    -- tasks
    (task.place = 0 → die < 4 → (s.ctxCores ctx die).contains own = true → ∃ t k, exec (.taskArrival id die core task) s = .next t ∧
      (t.coreAt own).queue = (s.coreAt own).queue ++ [k] ∧ (t.teamAt k).launch = id ∧ (t.teamAt k).kind = .task ∧ (t.teamAt k).ident = task.addr ∧
      (t.teamAt k).entry = task.entry ∧ (t.teamAt k).args = task.args ∧ (t.teamAt k).gangs = task.gangs ∧ (t.teamAt k).quota = task.quota ∧ k = s.nextId) ∧
    (∀ d, die < 4 → task.place ≠ 0 → s.placeAt ctx task.place.toNat = some (4 + d) → ∃ t ws, exec (.taskArrival id die core task) s = .next t ∧
      .control d "TASK_ARRIVAL" ws ∈ t.out ∧ t.teams = s.teams) ∧
    -- counting and completion
    (here → done → ∃ t, exec (.counterPartReport id die zero) s = .next t ∧ t.agenda = s.agenda ++ [⟨s.now, none, .on id, .launchComplete⟩]) ∧
    (here → ¬done → exec (.counterPartReport id die zero) s = .next (s.modLaunch id fun y =>
      { y with parts := parts, units := units, sent := if zero then y.sent.filter fun x => 8 + x.1 != die else y.sent })) ∧
    (¬here → zero = false ∨ l.quiet = true → ∃ t, exec (.counterPartReport id die zero) s = .next t ∧ t.launches = s.launches ∧
      .control c.root "COUNTER_PART_REPORT" [w64 (id % 2 ^ 32), w64 (8 + s.self), if zero then 1 else 0] ∈ t.out) ∧
    (s.subj = id → here → s.owl.state ≠ 1 ∨ ¬ready → exec .launchComplete s = .next s) ∧
    (s.subj = id → here → s.owl.state = 1 → ready →
      (s.launchBusy id = true → exec .launchComplete s = .next (s.later 1 (.on id) .launchComplete)) ∧
      (s.launchBusy id = false → exec .launchComplete s = .next (s.finishLaunch id { l with status := if l.lossy = true ∧ l.status = 0 then 1 else l.status }))) ∧
    (s.subj = id → ¬here → exec .launchComplete s = .next (if l.quiet then s.forgetLaunch id else s)) ∧
    -- admission
    (opens → s0.headOf s.subj = none → exec .teamAdmit s = .next (s0.seek s.subj)) ∧
    (∀ k tm, opens → s0.headOf s.subj = some k → tfind s0.teams k = some tm → tm.cluster ≤ 1 → (s0.launchAt tm.launch).graph = none → s0.fits s.subj tm = true →
      ∃ u, s0.admitHead s.subj k = some u ∧ (u.teamAt k).admitted = true ∧ (u.teamAt k).core = s.subj ∧ u.mem = s.mem ∧
        (u.headOf s.subj = none → exec .teamAdmit s = .next (u.seek s.subj))) ∧
    (∀ k, opens → s0.headOf s.subj = some k → s0.admitHead s.subj k = none → exec .teamAdmit s = .next s0)

/-- Partitions (R22, R23, R36, R153 to R157): grants, pre-emption, saving, and restoring. -/
def Obligations.Partitions : Prop :=
  ∀ (s : State) (ctx : Nat),
    let p := s.subj
    let x := s.partAt p
    let fixed := fun (c : Nat) => (s.ctxAt c).fixed = true ∨ s.pkg.bring = .reduced
    let fits := fun (c : Nat) => (s.ctxAt c).used = true ∧ (¬fixed c ∨ s.reserved + 120 ≤ s.pkg.powerLimit)
    let first := ∃ a b, x.waits = a ++ ctx :: b ∧ fits ctx ∧ ∀ c ∈ a, ¬fits c
    let mhz := if s.pkg.bring = .reduced then 400 else if ¬fixed ctx ∧ s.pkg.throttled.getLsbD (p / 4) = true then 560 else 800
    (x.owner = none → (∀ c ∈ x.waits, ¬fits c) → exec .partitionAdmission s = .next s) ∧
    (x.owner = none → first → s.pkg.admitting = false ∨ x.taking ≠ none → exec .partitionAdmission s = .next s) ∧
    (x.owner = none → first → s.pkg.admitting = true → x.taking = none → ∃ t, exec .partitionAdmission s = .next t ∧
      (t.partAt p).owner = some ctx ∧ ctx ∉ (t.partAt p).waits ∧
      ((s.imageOf p ctx).isSome = false → ((t.partAt p).fixed = true ↔ fixed ctx) ∧ (t.partAt p).mhz = mhz) ∧
      ((s.imageOf p ctx).isSome = true → (t.partAt p).halted = true ∧ (t.partAt p).fixed = x.fixed ∧ (t.partAt p).mhz = x.mhz ∧
        ∃ d ∈ t.agenda, d.subj = .on p ∧ d.ev = .partitionRestore .data)) ∧
    (x.owner = some ctx → x.releasing = false → exec .partitionAdmission s = .next s) ∧
    (x.owner = some ctx → x.releasing = true →
      let t := s.moveQueued p ctx
      exec .partitionAdmission s = .next (if (coresOf p).all fun c => (t.teamsOn c).isEmpty then t.freePart p else t)) ∧
    (x.taking = none → exec .partitionPreempt s = .next s) ∧
    (x.taking ≠ none → ∃ t, exec .partitionPreempt s = .next t ∧ (∃ d ∈ t.agenda, d.subj = .on p ∧ d.ev = .partitionHalted) ∧ t.mem = s.mem ∧
      (t.partAt p).owner = x.owner) ∧
    (x.owner = some ctx → x.taking ≠ none → x.halted = false →
      (s.drained p = false → exec .partitionHalted s = .next (s.later 16 (.on p) .partitionHalted)) ∧
      (s.drained p = true → ∃ t, exec .partitionHalted s = .next t ∧ (t.partAt p).halted = true ∧ (∃ d ∈ t.agenda, d.subj = .on p ∧ d.ev = .shadowSaveComplete) ∧
        ((s.ctxAt ctx).used = true → ∃ i, t.images.getLast? = some i ∧ i.ctx = ctx ∧ i.part = p))) ∧
    (∀ c, x.taking = some c → ∃ t, exec .shadowSaveComplete s = .next t ∧ (t.partAt p).owner = none ∧ (t.partAt p).halted = false ∧ t.mem = s.mem ∧
      (c < 64 → (t.partAt p).waits.head? = some c)) ∧
    (x.taking = none → exec .shadowSaveComplete s = .next s) ∧
    (∀ i, x.owner = some ctx → s.imageOf p ctx = some i → x.halted = true →
      exec (.partitionRestore .data) s = .next (s.offCore (.on p) .restoreComplete) ∧
      ∀ fate, fate ≠ .data → exec (.partitionRestore fate) s = .next (s.stopQueue ctx 0x102 (detailOf 0 3 9))) ∧
    (∀ i, x.owner = some ctx → s.imageOf p ctx = some i → ∃ t, exec .restoreComplete s = .next t ∧ (t.partAt p).halted = false ∧ t.imageOf p ctx = none ∧
      ((t.partAt p).fixed = true ↔ fixed ctx) ∧ (t.partAt p).mhz = mhz)

/-- Replies, engines, sessions and the core's cycle (R141, R173, R181 to R186, R195, R235, R265, R409 to R411, R441, R451, R452, R465): what each reply ends,
and what it leaves alone. -/
def Obligations.RepliesAndEngines : Prop :=
  ∀ (s : State) (req line core q team region gang num stack : Nat) (va : W64) (write fetch sup : Bool) (op : BadgerOp),
    let g := s.g
    let quarters := fun (t : State) (c : Nat) => (t.coreAt c).quarters
    let keeps := fun (t : State) => t.g.regs = g.regs ∧ t.g.ks = g.ks ∧ t.g.fst = g.fst
    let stand := fun (t : State) => keeps t ∧ t.mem = s.mem
    let waitsAgain := { s with g := { g with waitsSlot := some s.clock, parked := false } }
    let away := g.parked = true ∧ g.slot = none ∧ g.waitsSlot = none
    let c := s.coreAt s.subj
    let k := s.leadHome op
    let fresh := tget (s.ctxAt op.ctx).badgerNext k 0 + 1
    -- memory replies and fills
    (∀ k m, s.mergeCore req = some (k, m) → exec (.memoryReply req .data) s = .next ((s.drainStep k m).serveAllAged k) ∧
      exec (.missReplay req) s = .next (s.stepReplay k m)) ∧
    (∀ b r, s.mergeCore req = none → g.prim = some b → g.sec = none → b.reqs = [r] → r.num = req → (quarters s g.core).all (fun y => y.aged.isEmpty) = true →
      ∃ t, exec (.memoryReply req .data) s = .next t ∧ keeps t ∧ (r.line = 0 ∨ 3 ≤ r.cp.toNat → t.mem = s.mem) ∧ (∀ y ∈ quarters t g.core, req ∉ y.entries) ∧
        ∃ d, t.g.prim = some d ∧ d.reqs = [] ∧ d.done = b.done ||| BitVec.ofNat 96 (2 ^ r.idx)) ∧
    (s.mergeCore req = none → g.reqOf req = none → exec (.missReplay req) s = .next s) ∧
    (∀ sec b r, s.mergeCore req = none → g.reqOf req = some (sec, b, r) → r.held = false → r.aged = false → b.replayCount r.idx < 15 →
      let y := s.core.quarterAt g.quarter
      (y.entries.length < 64 → y.aged = [] → ∃ t, exec (.missReplay req) s = .next t ∧ stand t ∧
        ∃ d ∈ t.agenda, s.now < d.time ∧ d.subj = .gang s.gid ∧ d.ev = .memoryReply req .data) ∧
      (64 ≤ y.entries.length ∨ y.aged ≠ [] → ∃ t, exec (.missReplay req) s = .next t ∧ stand t ∧
        ⟨s.clock + 8, some g.core, .gang s.gid, .missReplay req⟩ ∈ t.agenda)) ∧
    (∀ b, g.prim = some b → g.sec = none → b.fills.contains line = true →
      ∃ t d, exec (.registerFill line .data) s = .next t ∧ stand t ∧ t.g.prim = some d ∧ d.fills.contains line = false ∧
        (∀ y ∈ quarters t g.core, (s.gid, line) ∉ y.fills)) ∧
    -- gangs without a slot
    (away → g.watch.contains line = true → exec (.watchedWrite line) s = .next waitsAgain) ∧
    (away → g.parkedAt + 65536 ≤ s.clock → (s.parkedEdges.any fun e => e.1.gang == s.gid) = false → exec .parkTimeout s = .next waitsAgain) ∧
    (g.parked = false ∨ g.slot ≠ none → exec (.watchedWrite line) s = .next s ∧ exec .parkTimeout s = .next s) ∧
    (s.slotWaiters s.subj = [] → exec .slotTakeover s = .next s) ∧
    (∀ w rest, s.slotWaiters s.subj = w :: rest → s.seat w.2 = none → exec .slotTakeover s = .next s) ∧
    (∀ w rest u, s.slotWaiters s.subj = w :: rest → s.seat w.2 = some u → exec .slotTakeover s = .next (if rest.isEmpty then u else u.soon (.on s.subj) .slotTakeover)) ∧
    (∀ at_ n rest y, s.slotWaiters s.subj = (at_, .gang n) :: rest → s.gangAt n = some y → (s.coreAt y.core).freeSlots ≠ [] →
      quarterTakes (s.residents y.core) (fewestQuarter (s.residents y.core)) 0 y.quota = true →
      ∃ t, exec .slotTakeover s = .next t ∧ ∃ z, t.gangAt n = some z ∧ z.slot = (s.coreAt y.core).freeSlots.head? ∧ z.waitsSlot = none ∧
        z.quarter = fewestQuarter (s.residents y.core) ∧ z.regs = y.regs) ∧
    -- remapping, invalidation, walks
    (∃ t, exec (.lrmRemapComplete core q) s = .next t ∧ (q < (quarters s core).length → ((t.coreAt core).quarterAt q).remap = false) ∧ t.g = g ∧ t.mem = s.mem) ∧
    (s.mappingsUsed s.ctxNo = false → exec .tlbinvComplete s = .next { s with g := { g with tlbWait := false } }) ∧
    (s.mappingsUsed s.ctxNo = true → exec .tlbinvComplete s = .next (s.laterHere 1 (.gang s.gid) .tlbinvComplete)) ∧
    (let m := s.mapping s.ctxNo va.toNat
     ∃ t, exec (.translationWalk va write fetch sup) s = .next t ∧ t.g = g ∧ (∀ x, m.1 = .error x → t = m.2) ∧
      (∀ x, m.1 = .ok x → ∀ a, (∀ i j, i < 8 → j < 256 → s.poolKey ((x.at_ + i) / 256 * 256 + j) ≠ a) → memByte t.mem a = memByte s.mem a)) ∧
    -- copies
    (∀ part p flight kind lck sord desc, exec (.copyPartArrive gang team part p flight kind sup lck sord desc) s =
      .next (s.addPart s.subj team p { part := part, gang := gang, flight := flight, kind := kind, sup := sup, lck := lck, sord := sord, desc := desc })) ∧
    (∀ y, s.copyOf s.subj team num (fun y => y.running) = some y →
      let t := ((s.copyFollowed y).copySignals s.subj y).copyEnds s.subj y
      let waits := y.follow ≠ none ∧ c.cyc < y.due
      let starts := y.follows = true ∧ y.failed = none ∧ y.follow = none
      (waits → exec (.copyComplete team num) s = .next s) ∧
      (starts → exec (.copyComplete team num) s = .next (s.copyFollow s.subj y)) ∧
      (¬waits → ¬starts → y.failed = none → exec (.copyComplete team num) s = .next (t.dropCopy s.subj y)) ∧
      (¬waits → ¬starts → y.failed ≠ none → exec (.copyComplete team num) s = .next (t.offCore (.on s.subj) (.copyFailureReport team num)))) ∧
    (∀ y e, s.copyOf s.subj team num (fun y => y.ended) = some y → y.failed = some e → ∃ t, exec (.copyFailureReport team num) s = .next t ∧ stand t ∧
      (∀ p ∈ y.supplied, ∀ z, s.gangAt p.gang = some z → ∃ z', t.gangAt p.gang = some z' ∧ copyFaultRec e ∈ z'.engFaults) ∧
      ∀ x ∈ (t.coreAt s.subj).copies, ¬(x.num = y.num ∧ x.ctx = y.ctx)) ∧
    -- regions
    (∃ t, exec (.smapComplete team region) s = .next t ∧ stand t ∧ ∀ r ∈ (t.teamAt team).regions, r.num = region → r.pending = false) ∧
    (∃ t, exec (.regionWritebackComplete gang team region) s = .next t ∧ stand t ∧ (∀ r ∈ (t.teamAt team).regions, ¬(r.num = region ∧ r.leaving = true)) ∧
      (gang = s.gid → t.g.flSF = finishFlight region g.flSF)) ∧
    -- Badger operations
    (let lines := (s.badgerLines op).filter fun y => !s.stackLost (s.homeOf (y / 512))
     let clear := fun (y : Nat) => (s.dirAt y).pending = none ∧ (s.dirAt y).sharers = 0
     (s.stackLost k = true ∨ (∀ y ∈ lines, clear y) → ∃ t d, exec (.badgerOperation op) s = .next t ∧ d ∈ t.agenda ∧ s.now < d.time ∧
        tget (t.ctxAt op.ctx).badgerNext k 0 = fresh ∧
        ∃ r, t.badgerOps = s.badgerOps ++ [r] ∧ r.num = fresh ∧ r.stack = k ∧ r.op = op ∧ d.ev = .badgerComplete k op.ctx fresh r.status ∧
          (s.stackLost k = true → r.status = .homeLost ∧ t.mem = s.mem)) ∧
     (s.stackLost k = false → (∃ y ∈ lines, (s.dirAt y).pending ≠ none) → ∃ t, exec (.badgerOperation op) s = .next t ∧
       ⟨s.now + 1, none, .none, .badgerOperation op⟩ ∈ t.agenda ∧ t.badgerOps = s.badgerOps)) ∧
    (∀ ctx e r, s.badgerOps.find? (fun r => r.stack == stack && r.op.ctx == ctx && r.num == num) = some r →
      let at_ := r.op.addr r.op.status.toNat / 256
      (s.stackLost (s.homeOf (at_ / 512)) = true ∨ ((s.dirAt at_).pending = none ∧ (s.dirAt at_).sharers = 0) →
        ∃ t, exec (.badgerComplete stack ctx num e) s = .next t ∧ t.mem = (s.badgerWrite r.op r.op.status.toNat ({ r with status := e } : BadgerRun).bytes).2.mem ∧
          t.badgerOps = s.badgerOps.filter (fun x => !(x.stack == stack && x.op.ctx == ctx && x.num == num)) ∧
          tget (t.ctxAt ctx).badger stack 0 = t.badgerValue ctx stack ∧
          (e ≠ .done → ∃ d ∈ t.agenda, d.ev = .badgerFailureReport r.op.gang stack num e)) ∧
      (s.stackLost (s.homeOf (at_ / 512)) = false → (s.dirAt at_).pending ≠ none →
        exec (.badgerComplete stack ctx num e) s = .next (s.later 1 .none (.badgerComplete stack ctx num e)))) ∧
    (exec (.badgerFailureReport s.gid stack num .homeLost) s = .next { s with g := { g with engFaults := g.engFaults ++ [blockFault 8 0 allLanes []] } } ∧
      exec (.badgerFailureReport s.gid stack num .memUncorrectable) s = .next { s with g := { g with engFaults := g.engFaults ++ [blockFault 9 0 allLanes []] } }) ∧
    -- the tile queue
    (∀ e, c.tq.find? (fun e => !e.started && decide (e.start ≤ c.cyc)) = some e → ∃ t, exec .tileQueueStart s = .next t ∧ stand t ∧
      (∀ y ∈ (t.coreAt s.subj).tq, y.num = e.num → y.started = true ∧ y.out = (s.queueResult e).1) ∧
      t.agenda = s.agenda ++ [⟨c.cyc + (e.finish - c.cyc), some s.subj, .on s.subj, .tileQueueComplete⟩]) ∧
    (∀ e, c.tq.find? (fun e => e.started && decide (e.finish ≤ c.cyc)) = some e → ∃ t, exec .tileQueueComplete s = .next t ∧
      (∀ y ∈ (t.coreAt s.subj).tq, y.num ≠ e.num ∧ (t.coreAt s.subj).tqDone < max 1 y.num) ∧ ((t.coreAt s.subj).tq = [] → (t.coreAt s.subj).tqDone = c.tqNext - 1) ∧
      (e.gang = s.gid → t.g.flTA = finishFlight e.num g.flTA)) ∧
    -- samples and the core's cycle
    (let core := s.subj % 1024
     let ctx := s.subj / 1024 % 64
     ∀ y, (s.ctxAt ctx).trace = some y → y.closing = none → y.period ≠ 0 → y.num = s.subj / 65536 → y.evmask.getLsbD 0 = true →
      ∃ t, exec .sampleDue s = .next t ∧ t.agenda = s.agenda ++ [⟨(s.coreAt core).cyc + y.period, some core, .on s.subj, .sampleDue⟩] ∧
        ((s.partAt (partOf core)).owner = some ctx → ∀ n ∈ (s.residents core).map (·.1), n ∈ ((t.coreAt core).mark).map (·.1))) ∧
    (∃ t, exec .coreCycle s = .next t ∧ t.subj = s.subj ∧ t.mem = s.mem ∧ t.now = s.now ∧
      ((s.byAge s.subj).filter (fun n => s.running s.subj (s.focus n).ctxNo) = [] → s.slotWaiters s.subj = [] → t = s))
end

