-- ==== Sys2Proof/Laws/Memory.lean ====
section
/-! SUPPORT. Memory cells: the canonical form, kept by every write, and reading after writing. -/

namespace Sys2Proof.Machine

/-! ### The canonical form -/

theorem cellsOk_weaken {m : List Host.Cell} {lo lo' : Nat} (hle : lo' ≤ lo) (h : cellsOk (some lo) m = true) :
    cellsOk (some lo') m = true := by
  cases m with
  | nil => rfl
  | cons c r =>
    simp only [cellsOk, Bool.and_eq_true, decide_eq_true_eq] at h ⊢
    exact ⟨⟨by omega, h.1.2⟩, h.2⟩

theorem cellsOk_none {m : List Host.Cell} {lo : Nat} (h : cellsOk (some lo) m = true) : cellsOk none m = true := by
  cases m with
  | nil => rfl
  | cons c r =>
    simp only [cellsOk, Bool.and_eq_true, decide_eq_true_eq] at h ⊢
    exact ⟨⟨trivial, h.1.2⟩, h.2⟩

theorem memErase_some {m : List Host.Cell} {lo : Nat} (n : Nat) (h : cellsOk (some lo) m = true) :
    cellsOk (some lo) (memErase m n) = true := by
  induction m generalizing lo with
  | nil => rfl
  | cons c r ih =>
    obtain ⟨k, v⟩ := c
    simp only [cellsOk, Bool.and_eq_true, decide_eq_true_eq] at h
    unfold memErase
    split
    · exact ih (cellsOk_weaken (Nat.le_of_lt h.1.1) h.2)
    · simp only [cellsOk, Bool.and_eq_true, decide_eq_true_eq]
      exact ⟨h.1, ih h.2⟩

theorem memInsert_some {m : List Host.Cell} {lo : Nat} (n : Nat) (b : Byte) (hb : b ≠ 0) (hn : lo < n)
    (h : cellsOk (some lo) m = true) : cellsOk (some lo) (memInsert m n b) = true := by
  induction m generalizing lo with
  | nil => simpa [memInsert, cellsOk, hn] using hb
  | cons c r ih =>
    obtain ⟨k, v⟩ := c
    simp only [cellsOk, Bool.and_eq_true, decide_eq_true_eq] at h
    unfold memInsert
    split
    · simp only [cellsOk, Bool.and_eq_true, decide_eq_true_eq, bne_iff_ne]
      exact ⟨⟨hn, hb⟩, ⟨‹n < k›, by simpa using h.1.2⟩, h.2⟩
    · split
      · subst n
        simp only [cellsOk, Bool.and_eq_true, decide_eq_true_eq, bne_iff_ne]
        exact ⟨⟨hn, hb⟩, h.2⟩
      · simp only [cellsOk, Bool.and_eq_true, decide_eq_true_eq]
        exact ⟨h.1, ih (by omega) h.2⟩

theorem memErase_wf {m : List Host.Cell} (n : Nat) (h : Memory.wf m = true) : Memory.wf (memErase m n) = true := by
  cases m with
  | nil => rfl
  | cons c r =>
    obtain ⟨k, v⟩ := c
    simp only [Memory.wf, cellsOk, Bool.and_eq_true] at h
    unfold memErase
    split
    · exact cellsOk_none (memErase_some n h.2)
    · simp only [Memory.wf, cellsOk, Bool.and_eq_true]
      exact ⟨h.1, memErase_some n h.2⟩

theorem memInsert_wf {m : List Host.Cell} (n : Nat) (b : Byte) (hb : b ≠ 0) (h : Memory.wf m = true) :
    Memory.wf (memInsert m n b) = true := by
  cases m with
  | nil => simpa [memInsert, Memory.wf, cellsOk] using hb
  | cons c r =>
    obtain ⟨k, v⟩ := c
    simp only [Memory.wf, cellsOk, Bool.and_eq_true] at h
    unfold memInsert
    split
    · simp only [Memory.wf, cellsOk, Bool.and_eq_true, decide_eq_true_eq, bne_iff_ne]
      exact ⟨⟨trivial, hb⟩, ⟨‹n < k›, by simpa using h.1.2⟩, h.2⟩
    · split
      · subst n
        simp only [Memory.wf, cellsOk, Bool.and_eq_true, bne_iff_ne]
        exact ⟨⟨trivial, hb⟩, h.2⟩
      · simp only [Memory.wf, cellsOk, Bool.and_eq_true]
        exact ⟨h.1, memInsert_some n b hb (by omega) h.2⟩

/-- A byte written keeps the canonical form. -/
@[simp] theorem memSet_wf {m : List Host.Cell} (n : Nat) (b : Byte) (h : Memory.wf m = true) : Memory.wf (memSet m n b) = true := by
  unfold memSet
  split
  · exact memErase_wf n h
  · exact memInsert_wf n b ‹_› h

/-- Bytes written keep the canonical form. -/
@[simp] theorem memWrite_wf {m : List Host.Cell} (n : Nat) (bs : List Byte) (h : Memory.wf m = true) :
    Memory.wf (memWrite m n bs) = true := by
  induction bs generalizing m n with
  | nil => exact h
  | cons b r ih => exact ih (n + 1) (memSet_wf n b h)

theorem filter_some {m : List Host.Cell} {lo : Nat} (p : Host.Cell → Bool) (h : cellsOk (some lo) m = true) :
    cellsOk (some lo) (m.filter p) = true := by
  induction m generalizing lo with
  | nil => rfl
  | cons c r ih =>
    obtain ⟨k, v⟩ := c
    simp only [cellsOk, Bool.and_eq_true, decide_eq_true_eq] at h
    rw [List.filter_cons]
    split
    · simp only [cellsOk, Bool.and_eq_true, decide_eq_true_eq]
      exact ⟨h.1, ih h.2⟩
    · exact cellsOk_weaken (Nat.le_of_lt h.1.1) (ih h.2)

/-- Cells taken out keep the canonical form. -/
theorem filter_wf {m : List Host.Cell} (p : Host.Cell → Bool) (h : Memory.wf m = true) : Memory.wf (m.filter p) = true := by
  induction m with
  | nil => rfl
  | cons c r ih =>
    obtain ⟨k, v⟩ := c
    simp only [Memory.wf, cellsOk, Bool.and_eq_true] at h
    rw [List.filter_cons]
    split
    · simp only [Memory.wf, cellsOk, Bool.and_eq_true]
      exact ⟨h.1, filter_some p h.2⟩
    · exact ih (cellsOk_none h.2)

/-! ### Reading after writing -/

theorem memByte_memErase (m : List Host.Cell) (n a : Nat) : memByte (memErase m n) a = if a = n then 0 else memByte m a := by
  induction m with
  | nil => simp [memErase, memByte]
  | cons c r ih =>
    obtain ⟨k, v⟩ := c
    unfold memErase
    split
    · subst k
      rw [ih]
      by_cases ha : a = n
      · simp [ha]
      · have hk : ¬ n = a := fun e => ha e.symm
        simp [ha, memByte, hk]
    · by_cases hk : k = a
      · have ha : ¬ a = n := fun e => ‹¬k = n› (hk.trans e)
        simp [memByte, hk, ha]
      · simp [memByte, hk, ih]

theorem memByte_memInsert (m : List Host.Cell) (n a : Nat) (b : Byte) :
    memByte (memInsert m n b) a = if a = n then b else memByte m a := by
  induction m with
  | nil => by_cases h : a = n <;> simp [memInsert, memByte, h]; intro e; exact absurd e.symm h
  | cons c r ih =>
    obtain ⟨k, v⟩ := c
    unfold memInsert
    split
    · by_cases h : a = n
      · simp [memByte, h]
      · have h' : ¬ n = a := fun e => h e.symm
        simp [memByte, h, h']
    · split
      · subst k
        by_cases h : a = n
        · simp [memByte, h]
        · have h' : ¬ n = a := fun e => h e.symm
          simp [memByte, h, h']
      · by_cases hk : k = a
        · have h : ¬ a = n := by omega
          simp [memByte, hk, h]
        · simp [memByte, hk, ih]

/-- A byte read after a write of one byte. -/
theorem memByte_memSet (m : List Host.Cell) (n a : Nat) (b : Byte) :
    memByte (memSet m n b) a = if a = n then b else memByte m a := by
  unfold memSet
  split
  · rw [memByte_memErase]; simp_all
  · exact memByte_memInsert m n a b

/-- A write leaves every byte outside it. -/
theorem memByte_memWrite_other (m : List Host.Cell) (n a : Nat) (bs : List Byte)
    (ha : a < n ∨ n + bs.length ≤ a) : memByte (memWrite m n bs) a = memByte m a := by
  induction bs generalizing m n with
  | nil => rfl
  | cons b r ih =>
    simp only [List.length_cons] at ha
    unfold memWrite
    rw [ih _ (n + 1) (by omega), memByte_memSet, if_neg (by omega)]

/-- A byte read from what was written. -/
theorem memByte_memWrite_here (m : List Host.Cell) (n i : Nat) (bs : List Byte) (hi : i < bs.length) :
    memByte (memWrite m n bs) (n + i) = bs[i] := by
  induction bs generalizing m n i with
  | nil => exact absurd hi (by simp)
  | cons b r ih =>
    unfold memWrite
    cases i with
    | zero =>
      rw [memByte_memWrite_other _ (n + 1) (n + 0) r (by omega), memByte_memSet]
      simp
    | succ i =>
      have := ih (memSet m n b) (n + 1) i (by simpa using hi)
      rw [show n + (i + 1) = n + 1 + i by omega, this]
      simp

/-- Reading back what was written. -/
theorem memRead_memWrite (m : List Host.Cell) (n : Nat) (bs : List Byte) :
    memRead (memWrite m n bs) n bs.length = bs := by
  have read : ∀ (k : Nat) (m : List Host.Cell) (n : Nat), memRead m n k = (List.range k).map fun i => memByte m (n + i) := by
    intro k
    induction k with
    | zero => intro m n; rfl
    | succ k ih =>
      intro m n
      rw [List.range_succ_eq_map, List.map_cons, List.map_map]
      simp only [memRead, ih m (n + 1), Nat.add_zero, Function.comp_def]
      congr 1
      apply List.map_congr_left
      intro i _
      congr 1
      omega
  rw [read]
  apply List.ext_getElem
  · simp
  · intro i h1 h2
    simp only [List.getElem_map, List.getElem_range]
    exact memByte_memWrite_here m n i bs h2

end Sys2Proof.Machine
end

