-- ==== Sys2Proof/Laws/State.lean ====
section
/-! SUPPORT. What each plain update of the state leaves alone: one lemma for each field and update, so that no later proof unfolds a
record update; and what the update writes. -/

namespace Sys2Proof.Machine

/-! ### `State.modCore` -/

@[simp] theorem modCore_g (s : State) (n : Nat) (f : Core → Core) : (s.modCore n f).g = s.g := rfl
@[simp] theorem modCore_gid (s : State) (n : Nat) (f : Core → Core) : (s.modCore n f).gid = s.gid := rfl
@[simp] theorem modCore_isec (s : State) (n : Nat) (f : Core → Core) : (s.modCore n f).isec = s.isec := rfl
@[simp] theorem modCore_idx (s : State) (n : Nat) (f : Core → Core) : (s.modCore n f).idx = s.idx := rfl
@[simp] theorem modCore_subj (s : State) (n : Nat) (f : Core → Core) : (s.modCore n f).subj = s.subj := rfl
@[simp] theorem modCore_pkt (s : State) (n : Nat) (f : Core → Core) : (s.modCore n f).pkt = s.pkt := rfl
@[simp] theorem modCore_gangs (s : State) (n : Nat) (f : Core → Core) : (s.modCore n f).gangs = s.gangs := rfl
@[simp] theorem modCore_teams (s : State) (n : Nat) (f : Core → Core) : (s.modCore n f).teams = s.teams := rfl
@[simp] theorem modCore_parts (s : State) (n : Nat) (f : Core → Core) : (s.modCore n f).parts = s.parts := rfl
@[simp] theorem modCore_images (s : State) (n : Nat) (f : Core → Core) : (s.modCore n f).images = s.images := rfl
@[simp] theorem modCore_stealing (s : State) (n : Nat) (f : Core → Core) : (s.modCore n f).stealing = s.stealing := rfl
@[simp] theorem modCore_granted (s : State) (n : Nat) (f : Core → Core) : (s.modCore n f).granted = s.granted := rfl
@[simp] theorem modCore_graphTurn (s : State) (n : Nat) (f : Core → Core) : (s.modCore n f).graphTurn = s.graphTurn := rfl
@[simp] theorem modCore_ctxs (s : State) (n : Nat) (f : Core → Core) : (s.modCore n f).ctxs = s.ctxs := rfl
@[simp] theorem modCore_queues (s : State) (n : Nat) (f : Core → Core) : (s.modCore n f).queues = s.queues := rfl
@[simp] theorem modCore_launches (s : State) (n : Nat) (f : Core → Core) : (s.modCore n f).launches = s.launches := rfl
@[simp] theorem modCore_pkg (s : State) (n : Nat) (f : Core → Core) : (s.modCore n f).pkg = s.pkg := rfl
@[simp] theorem modCore_owl (s : State) (n : Nat) (f : Core → Core) : (s.modCore n f).owl = s.owl := rfl
@[simp] theorem modCore_mem (s : State) (n : Nat) (f : Core → Core) : (s.modCore n f).mem = s.mem := rfl
@[simp] theorem modCore_ind (s : State) (n : Nat) (f : Core → Core) : (s.modCore n f).ind = s.ind := rfl
@[simp] theorem modCore_tableBase (s : State) (n : Nat) (f : Core → Core) : (s.modCore n f).tableBase = s.tableBase := rfl
@[simp] theorem modCore_homes (s : State) (n : Nat) (f : Core → Core) : (s.modCore n f).homes = s.homes := rfl
@[simp] theorem modCore_hints (s : State) (n : Nat) (f : Core → Core) : (s.modCore n f).hints = s.hints := rfl
@[simp] theorem modCore_dir (s : State) (n : Nat) (f : Core → Core) : (s.modCore n f).dir = s.dir := rfl
@[simp] theorem modCore_dirUse (s : State) (n : Nat) (f : Core → Core) : (s.modCore n f).dirUse = s.dirUse := rfl
@[simp] theorem modCore_entries (s : State) (n : Nat) (f : Core → Core) : (s.modCore n f).entries = s.entries := rfl
@[simp] theorem modCore_dies (s : State) (n : Nat) (f : Core → Core) : (s.modCore n f).dies = s.dies := rfl
@[simp] theorem modCore_moves (s : State) (n : Nat) (f : Core → Core) : (s.modCore n f).moves = s.moves := rfl
@[simp] theorem modCore_pinned (s : State) (n : Nat) (f : Core → Core) : (s.modCore n f).pinned = s.pinned := rfl
@[simp] theorem modCore_samples (s : State) (n : Nat) (f : Core → Core) : (s.modCore n f).samples = s.samples := rfl
@[simp] theorem modCore_reqCount (s : State) (n : Nat) (f : Core → Core) : (s.modCore n f).reqCount = s.reqCount := rfl
@[simp] theorem modCore_lostLines (s : State) (n : Nat) (f : Core → Core) : (s.modCore n f).lostLines = s.lostLines := rfl
@[simp] theorem modCore_lostPages (s : State) (n : Nat) (f : Core → Core) : (s.modCore n f).lostPages = s.lostPages := rfl
@[simp] theorem modCore_corrected (s : State) (n : Nat) (f : Core → Core) : (s.modCore n f).corrected = s.corrected := rfl
@[simp] theorem modCore_scrubbed (s : State) (n : Nat) (f : Core → Core) : (s.modCore n f).scrubbed = s.scrubbed := rfl
@[simp] theorem modCore_lastOwner (s : State) (n : Nat) (f : Core → Core) : (s.modCore n f).lastOwner = s.lastOwner := rfl
@[simp] theorem modCore_badFrames (s : State) (n : Nat) (f : Core → Core) : (s.modCore n f).badFrames = s.badFrames := rfl
@[simp] theorem modCore_edges (s : State) (n : Nat) (f : Core → Core) : (s.modCore n f).edges = s.edges := rfl
@[simp] theorem modCore_parkedEdges (s : State) (n : Nat) (f : Core → Core) : (s.modCore n f).parkedEdges = s.parkedEdges := rfl
@[simp] theorem modCore_badgerOps (s : State) (n : Nat) (f : Core → Core) : (s.modCore n f).badgerOps = s.badgerOps := rfl
@[simp] theorem modCore_spare (s : State) (n : Nat) (f : Core → Core) : (s.modCore n f).spare = s.spare := rfl
@[simp] theorem modCore_reserve (s : State) (n : Nat) (f : Core → Core) : (s.modCore n f).reserve = s.reserve := rfl
@[simp] theorem modCore_out (s : State) (n : Nat) (f : Core → Core) : (s.modCore n f).out = s.out := rfl
@[simp] theorem modCore_now (s : State) (n : Nat) (f : Core → Core) : (s.modCore n f).now = s.now := rfl
@[simp] theorem modCore_turn (s : State) (n : Nat) (f : Core → Core) : (s.modCore n f).turn = s.turn := rfl
@[simp] theorem modCore_twice (s : State) (n : Nat) (f : Core → Core) : (s.modCore n f).twice = s.twice := rfl
@[simp] theorem modCore_issue (s : State) (n : Nat) (f : Core → Core) : (s.modCore n f).issue = s.issue := rfl
@[simp] theorem modCore_agenda (s : State) (n : Nat) (f : Core → Core) : (s.modCore n f).agenda = s.agenda := rfl
@[simp] theorem modCore_free (s : State) (n : Nat) (f : Core → Core) : (s.modCore n f).free = s.free := rfl
@[simp] theorem modCore_grantNo (s : State) (n : Nat) (f : Core → Core) : (s.modCore n f).grantNo = s.grantNo := rfl
@[simp] theorem modCore_nextId (s : State) (n : Nat) (f : Core → Core) : (s.modCore n f).nextId = s.nextId := rfl
@[simp] theorem modCore_cores (s : State) (n : Nat) (f : Core → Core) : (s.modCore n f).cores = tmod s.cores n resetCore f := rfl

/-! ### `State.modCtx` -/

@[simp] theorem modCtx_g (s : State) (n : Nat) (f : Ctx → Ctx) : (s.modCtx n f).g = s.g := rfl
@[simp] theorem modCtx_gid (s : State) (n : Nat) (f : Ctx → Ctx) : (s.modCtx n f).gid = s.gid := rfl
@[simp] theorem modCtx_isec (s : State) (n : Nat) (f : Ctx → Ctx) : (s.modCtx n f).isec = s.isec := rfl
@[simp] theorem modCtx_idx (s : State) (n : Nat) (f : Ctx → Ctx) : (s.modCtx n f).idx = s.idx := rfl
@[simp] theorem modCtx_subj (s : State) (n : Nat) (f : Ctx → Ctx) : (s.modCtx n f).subj = s.subj := rfl
@[simp] theorem modCtx_pkt (s : State) (n : Nat) (f : Ctx → Ctx) : (s.modCtx n f).pkt = s.pkt := rfl
@[simp] theorem modCtx_gangs (s : State) (n : Nat) (f : Ctx → Ctx) : (s.modCtx n f).gangs = s.gangs := rfl
@[simp] theorem modCtx_teams (s : State) (n : Nat) (f : Ctx → Ctx) : (s.modCtx n f).teams = s.teams := rfl
@[simp] theorem modCtx_cores (s : State) (n : Nat) (f : Ctx → Ctx) : (s.modCtx n f).cores = s.cores := rfl
@[simp] theorem modCtx_parts (s : State) (n : Nat) (f : Ctx → Ctx) : (s.modCtx n f).parts = s.parts := rfl
@[simp] theorem modCtx_images (s : State) (n : Nat) (f : Ctx → Ctx) : (s.modCtx n f).images = s.images := rfl
@[simp] theorem modCtx_stealing (s : State) (n : Nat) (f : Ctx → Ctx) : (s.modCtx n f).stealing = s.stealing := rfl
@[simp] theorem modCtx_granted (s : State) (n : Nat) (f : Ctx → Ctx) : (s.modCtx n f).granted = s.granted := rfl
@[simp] theorem modCtx_graphTurn (s : State) (n : Nat) (f : Ctx → Ctx) : (s.modCtx n f).graphTurn = s.graphTurn := rfl
@[simp] theorem modCtx_queues (s : State) (n : Nat) (f : Ctx → Ctx) : (s.modCtx n f).queues = s.queues := rfl
@[simp] theorem modCtx_launches (s : State) (n : Nat) (f : Ctx → Ctx) : (s.modCtx n f).launches = s.launches := rfl
@[simp] theorem modCtx_pkg (s : State) (n : Nat) (f : Ctx → Ctx) : (s.modCtx n f).pkg = s.pkg := rfl
@[simp] theorem modCtx_owl (s : State) (n : Nat) (f : Ctx → Ctx) : (s.modCtx n f).owl = s.owl := rfl
@[simp] theorem modCtx_mem (s : State) (n : Nat) (f : Ctx → Ctx) : (s.modCtx n f).mem = s.mem := rfl
@[simp] theorem modCtx_ind (s : State) (n : Nat) (f : Ctx → Ctx) : (s.modCtx n f).ind = s.ind := rfl
@[simp] theorem modCtx_tableBase (s : State) (n : Nat) (f : Ctx → Ctx) : (s.modCtx n f).tableBase = s.tableBase := rfl
@[simp] theorem modCtx_homes (s : State) (n : Nat) (f : Ctx → Ctx) : (s.modCtx n f).homes = s.homes := rfl
@[simp] theorem modCtx_hints (s : State) (n : Nat) (f : Ctx → Ctx) : (s.modCtx n f).hints = s.hints := rfl
@[simp] theorem modCtx_dir (s : State) (n : Nat) (f : Ctx → Ctx) : (s.modCtx n f).dir = s.dir := rfl
@[simp] theorem modCtx_dirUse (s : State) (n : Nat) (f : Ctx → Ctx) : (s.modCtx n f).dirUse = s.dirUse := rfl
@[simp] theorem modCtx_entries (s : State) (n : Nat) (f : Ctx → Ctx) : (s.modCtx n f).entries = s.entries := rfl
@[simp] theorem modCtx_dies (s : State) (n : Nat) (f : Ctx → Ctx) : (s.modCtx n f).dies = s.dies := rfl
@[simp] theorem modCtx_moves (s : State) (n : Nat) (f : Ctx → Ctx) : (s.modCtx n f).moves = s.moves := rfl
@[simp] theorem modCtx_pinned (s : State) (n : Nat) (f : Ctx → Ctx) : (s.modCtx n f).pinned = s.pinned := rfl
@[simp] theorem modCtx_samples (s : State) (n : Nat) (f : Ctx → Ctx) : (s.modCtx n f).samples = s.samples := rfl
@[simp] theorem modCtx_reqCount (s : State) (n : Nat) (f : Ctx → Ctx) : (s.modCtx n f).reqCount = s.reqCount := rfl
@[simp] theorem modCtx_lostLines (s : State) (n : Nat) (f : Ctx → Ctx) : (s.modCtx n f).lostLines = s.lostLines := rfl
@[simp] theorem modCtx_lostPages (s : State) (n : Nat) (f : Ctx → Ctx) : (s.modCtx n f).lostPages = s.lostPages := rfl
@[simp] theorem modCtx_corrected (s : State) (n : Nat) (f : Ctx → Ctx) : (s.modCtx n f).corrected = s.corrected := rfl
@[simp] theorem modCtx_scrubbed (s : State) (n : Nat) (f : Ctx → Ctx) : (s.modCtx n f).scrubbed = s.scrubbed := rfl
@[simp] theorem modCtx_lastOwner (s : State) (n : Nat) (f : Ctx → Ctx) : (s.modCtx n f).lastOwner = s.lastOwner := rfl
@[simp] theorem modCtx_badFrames (s : State) (n : Nat) (f : Ctx → Ctx) : (s.modCtx n f).badFrames = s.badFrames := rfl
@[simp] theorem modCtx_edges (s : State) (n : Nat) (f : Ctx → Ctx) : (s.modCtx n f).edges = s.edges := rfl
@[simp] theorem modCtx_parkedEdges (s : State) (n : Nat) (f : Ctx → Ctx) : (s.modCtx n f).parkedEdges = s.parkedEdges := rfl
@[simp] theorem modCtx_badgerOps (s : State) (n : Nat) (f : Ctx → Ctx) : (s.modCtx n f).badgerOps = s.badgerOps := rfl
@[simp] theorem modCtx_spare (s : State) (n : Nat) (f : Ctx → Ctx) : (s.modCtx n f).spare = s.spare := rfl
@[simp] theorem modCtx_reserve (s : State) (n : Nat) (f : Ctx → Ctx) : (s.modCtx n f).reserve = s.reserve := rfl
@[simp] theorem modCtx_out (s : State) (n : Nat) (f : Ctx → Ctx) : (s.modCtx n f).out = s.out := rfl
@[simp] theorem modCtx_now (s : State) (n : Nat) (f : Ctx → Ctx) : (s.modCtx n f).now = s.now := rfl
@[simp] theorem modCtx_turn (s : State) (n : Nat) (f : Ctx → Ctx) : (s.modCtx n f).turn = s.turn := rfl
@[simp] theorem modCtx_twice (s : State) (n : Nat) (f : Ctx → Ctx) : (s.modCtx n f).twice = s.twice := rfl
@[simp] theorem modCtx_issue (s : State) (n : Nat) (f : Ctx → Ctx) : (s.modCtx n f).issue = s.issue := rfl
@[simp] theorem modCtx_agenda (s : State) (n : Nat) (f : Ctx → Ctx) : (s.modCtx n f).agenda = s.agenda := rfl
@[simp] theorem modCtx_free (s : State) (n : Nat) (f : Ctx → Ctx) : (s.modCtx n f).free = s.free := rfl
@[simp] theorem modCtx_grantNo (s : State) (n : Nat) (f : Ctx → Ctx) : (s.modCtx n f).grantNo = s.grantNo := rfl
@[simp] theorem modCtx_nextId (s : State) (n : Nat) (f : Ctx → Ctx) : (s.modCtx n f).nextId = s.nextId := rfl
@[simp] theorem modCtx_ctxs (s : State) (n : Nat) (f : Ctx → Ctx) : (s.modCtx n f).ctxs = tmod s.ctxs n {} f := rfl

/-! ### `State.modQueue` -/

@[simp] theorem modQueue_g (s : State) (n : Nat) (f : Queue → Queue) : (s.modQueue n f).g = s.g := rfl
@[simp] theorem modQueue_gid (s : State) (n : Nat) (f : Queue → Queue) : (s.modQueue n f).gid = s.gid := rfl
@[simp] theorem modQueue_isec (s : State) (n : Nat) (f : Queue → Queue) : (s.modQueue n f).isec = s.isec := rfl
@[simp] theorem modQueue_idx (s : State) (n : Nat) (f : Queue → Queue) : (s.modQueue n f).idx = s.idx := rfl
@[simp] theorem modQueue_subj (s : State) (n : Nat) (f : Queue → Queue) : (s.modQueue n f).subj = s.subj := rfl
@[simp] theorem modQueue_pkt (s : State) (n : Nat) (f : Queue → Queue) : (s.modQueue n f).pkt = s.pkt := rfl
@[simp] theorem modQueue_gangs (s : State) (n : Nat) (f : Queue → Queue) : (s.modQueue n f).gangs = s.gangs := rfl
@[simp] theorem modQueue_teams (s : State) (n : Nat) (f : Queue → Queue) : (s.modQueue n f).teams = s.teams := rfl
@[simp] theorem modQueue_cores (s : State) (n : Nat) (f : Queue → Queue) : (s.modQueue n f).cores = s.cores := rfl
@[simp] theorem modQueue_parts (s : State) (n : Nat) (f : Queue → Queue) : (s.modQueue n f).parts = s.parts := rfl
@[simp] theorem modQueue_images (s : State) (n : Nat) (f : Queue → Queue) : (s.modQueue n f).images = s.images := rfl
@[simp] theorem modQueue_stealing (s : State) (n : Nat) (f : Queue → Queue) : (s.modQueue n f).stealing = s.stealing := rfl
@[simp] theorem modQueue_granted (s : State) (n : Nat) (f : Queue → Queue) : (s.modQueue n f).granted = s.granted := rfl
@[simp] theorem modQueue_graphTurn (s : State) (n : Nat) (f : Queue → Queue) : (s.modQueue n f).graphTurn = s.graphTurn := rfl
@[simp] theorem modQueue_ctxs (s : State) (n : Nat) (f : Queue → Queue) : (s.modQueue n f).ctxs = s.ctxs := rfl
@[simp] theorem modQueue_launches (s : State) (n : Nat) (f : Queue → Queue) : (s.modQueue n f).launches = s.launches := rfl
@[simp] theorem modQueue_pkg (s : State) (n : Nat) (f : Queue → Queue) : (s.modQueue n f).pkg = s.pkg := rfl
@[simp] theorem modQueue_owl (s : State) (n : Nat) (f : Queue → Queue) : (s.modQueue n f).owl = s.owl := rfl
@[simp] theorem modQueue_mem (s : State) (n : Nat) (f : Queue → Queue) : (s.modQueue n f).mem = s.mem := rfl
@[simp] theorem modQueue_ind (s : State) (n : Nat) (f : Queue → Queue) : (s.modQueue n f).ind = s.ind := rfl
@[simp] theorem modQueue_tableBase (s : State) (n : Nat) (f : Queue → Queue) : (s.modQueue n f).tableBase = s.tableBase := rfl
@[simp] theorem modQueue_homes (s : State) (n : Nat) (f : Queue → Queue) : (s.modQueue n f).homes = s.homes := rfl
@[simp] theorem modQueue_hints (s : State) (n : Nat) (f : Queue → Queue) : (s.modQueue n f).hints = s.hints := rfl
@[simp] theorem modQueue_dir (s : State) (n : Nat) (f : Queue → Queue) : (s.modQueue n f).dir = s.dir := rfl
@[simp] theorem modQueue_dirUse (s : State) (n : Nat) (f : Queue → Queue) : (s.modQueue n f).dirUse = s.dirUse := rfl
@[simp] theorem modQueue_entries (s : State) (n : Nat) (f : Queue → Queue) : (s.modQueue n f).entries = s.entries := rfl
@[simp] theorem modQueue_dies (s : State) (n : Nat) (f : Queue → Queue) : (s.modQueue n f).dies = s.dies := rfl
@[simp] theorem modQueue_moves (s : State) (n : Nat) (f : Queue → Queue) : (s.modQueue n f).moves = s.moves := rfl
@[simp] theorem modQueue_pinned (s : State) (n : Nat) (f : Queue → Queue) : (s.modQueue n f).pinned = s.pinned := rfl
@[simp] theorem modQueue_samples (s : State) (n : Nat) (f : Queue → Queue) : (s.modQueue n f).samples = s.samples := rfl
@[simp] theorem modQueue_reqCount (s : State) (n : Nat) (f : Queue → Queue) : (s.modQueue n f).reqCount = s.reqCount := rfl
@[simp] theorem modQueue_lostLines (s : State) (n : Nat) (f : Queue → Queue) : (s.modQueue n f).lostLines = s.lostLines := rfl
@[simp] theorem modQueue_lostPages (s : State) (n : Nat) (f : Queue → Queue) : (s.modQueue n f).lostPages = s.lostPages := rfl
@[simp] theorem modQueue_corrected (s : State) (n : Nat) (f : Queue → Queue) : (s.modQueue n f).corrected = s.corrected := rfl
@[simp] theorem modQueue_scrubbed (s : State) (n : Nat) (f : Queue → Queue) : (s.modQueue n f).scrubbed = s.scrubbed := rfl
@[simp] theorem modQueue_lastOwner (s : State) (n : Nat) (f : Queue → Queue) : (s.modQueue n f).lastOwner = s.lastOwner := rfl
@[simp] theorem modQueue_badFrames (s : State) (n : Nat) (f : Queue → Queue) : (s.modQueue n f).badFrames = s.badFrames := rfl
@[simp] theorem modQueue_edges (s : State) (n : Nat) (f : Queue → Queue) : (s.modQueue n f).edges = s.edges := rfl
@[simp] theorem modQueue_parkedEdges (s : State) (n : Nat) (f : Queue → Queue) : (s.modQueue n f).parkedEdges = s.parkedEdges := rfl
@[simp] theorem modQueue_badgerOps (s : State) (n : Nat) (f : Queue → Queue) : (s.modQueue n f).badgerOps = s.badgerOps := rfl
@[simp] theorem modQueue_spare (s : State) (n : Nat) (f : Queue → Queue) : (s.modQueue n f).spare = s.spare := rfl
@[simp] theorem modQueue_reserve (s : State) (n : Nat) (f : Queue → Queue) : (s.modQueue n f).reserve = s.reserve := rfl
@[simp] theorem modQueue_out (s : State) (n : Nat) (f : Queue → Queue) : (s.modQueue n f).out = s.out := rfl
@[simp] theorem modQueue_now (s : State) (n : Nat) (f : Queue → Queue) : (s.modQueue n f).now = s.now := rfl
@[simp] theorem modQueue_turn (s : State) (n : Nat) (f : Queue → Queue) : (s.modQueue n f).turn = s.turn := rfl
@[simp] theorem modQueue_twice (s : State) (n : Nat) (f : Queue → Queue) : (s.modQueue n f).twice = s.twice := rfl
@[simp] theorem modQueue_issue (s : State) (n : Nat) (f : Queue → Queue) : (s.modQueue n f).issue = s.issue := rfl
@[simp] theorem modQueue_agenda (s : State) (n : Nat) (f : Queue → Queue) : (s.modQueue n f).agenda = s.agenda := rfl
@[simp] theorem modQueue_free (s : State) (n : Nat) (f : Queue → Queue) : (s.modQueue n f).free = s.free := rfl
@[simp] theorem modQueue_grantNo (s : State) (n : Nat) (f : Queue → Queue) : (s.modQueue n f).grantNo = s.grantNo := rfl
@[simp] theorem modQueue_nextId (s : State) (n : Nat) (f : Queue → Queue) : (s.modQueue n f).nextId = s.nextId := rfl
@[simp] theorem modQueue_queues (s : State) (n : Nat) (f : Queue → Queue) : (s.modQueue n f).queues = tmod s.queues n {} f := rfl

/-! ### `State.modPart` -/

@[simp] theorem modPart_g (s : State) (n : Nat) (f : Partition → Partition) : (s.modPart n f).g = s.g := rfl
@[simp] theorem modPart_gid (s : State) (n : Nat) (f : Partition → Partition) : (s.modPart n f).gid = s.gid := rfl
@[simp] theorem modPart_isec (s : State) (n : Nat) (f : Partition → Partition) : (s.modPart n f).isec = s.isec := rfl
@[simp] theorem modPart_idx (s : State) (n : Nat) (f : Partition → Partition) : (s.modPart n f).idx = s.idx := rfl
@[simp] theorem modPart_subj (s : State) (n : Nat) (f : Partition → Partition) : (s.modPart n f).subj = s.subj := rfl
@[simp] theorem modPart_pkt (s : State) (n : Nat) (f : Partition → Partition) : (s.modPart n f).pkt = s.pkt := rfl
@[simp] theorem modPart_gangs (s : State) (n : Nat) (f : Partition → Partition) : (s.modPart n f).gangs = s.gangs := rfl
@[simp] theorem modPart_teams (s : State) (n : Nat) (f : Partition → Partition) : (s.modPart n f).teams = s.teams := rfl
@[simp] theorem modPart_cores (s : State) (n : Nat) (f : Partition → Partition) : (s.modPart n f).cores = s.cores := rfl
@[simp] theorem modPart_images (s : State) (n : Nat) (f : Partition → Partition) : (s.modPart n f).images = s.images := rfl
@[simp] theorem modPart_stealing (s : State) (n : Nat) (f : Partition → Partition) : (s.modPart n f).stealing = s.stealing := rfl
@[simp] theorem modPart_granted (s : State) (n : Nat) (f : Partition → Partition) : (s.modPart n f).granted = s.granted := rfl
@[simp] theorem modPart_graphTurn (s : State) (n : Nat) (f : Partition → Partition) : (s.modPart n f).graphTurn = s.graphTurn := rfl
@[simp] theorem modPart_ctxs (s : State) (n : Nat) (f : Partition → Partition) : (s.modPart n f).ctxs = s.ctxs := rfl
@[simp] theorem modPart_queues (s : State) (n : Nat) (f : Partition → Partition) : (s.modPart n f).queues = s.queues := rfl
@[simp] theorem modPart_launches (s : State) (n : Nat) (f : Partition → Partition) : (s.modPart n f).launches = s.launches := rfl
@[simp] theorem modPart_pkg (s : State) (n : Nat) (f : Partition → Partition) : (s.modPart n f).pkg = s.pkg := rfl
@[simp] theorem modPart_owl (s : State) (n : Nat) (f : Partition → Partition) : (s.modPart n f).owl = s.owl := rfl
@[simp] theorem modPart_mem (s : State) (n : Nat) (f : Partition → Partition) : (s.modPart n f).mem = s.mem := rfl
@[simp] theorem modPart_ind (s : State) (n : Nat) (f : Partition → Partition) : (s.modPart n f).ind = s.ind := rfl
@[simp] theorem modPart_tableBase (s : State) (n : Nat) (f : Partition → Partition) : (s.modPart n f).tableBase = s.tableBase := rfl
@[simp] theorem modPart_homes (s : State) (n : Nat) (f : Partition → Partition) : (s.modPart n f).homes = s.homes := rfl
@[simp] theorem modPart_hints (s : State) (n : Nat) (f : Partition → Partition) : (s.modPart n f).hints = s.hints := rfl
@[simp] theorem modPart_dir (s : State) (n : Nat) (f : Partition → Partition) : (s.modPart n f).dir = s.dir := rfl
@[simp] theorem modPart_dirUse (s : State) (n : Nat) (f : Partition → Partition) : (s.modPart n f).dirUse = s.dirUse := rfl
@[simp] theorem modPart_entries (s : State) (n : Nat) (f : Partition → Partition) : (s.modPart n f).entries = s.entries := rfl
@[simp] theorem modPart_dies (s : State) (n : Nat) (f : Partition → Partition) : (s.modPart n f).dies = s.dies := rfl
@[simp] theorem modPart_moves (s : State) (n : Nat) (f : Partition → Partition) : (s.modPart n f).moves = s.moves := rfl
@[simp] theorem modPart_pinned (s : State) (n : Nat) (f : Partition → Partition) : (s.modPart n f).pinned = s.pinned := rfl
@[simp] theorem modPart_samples (s : State) (n : Nat) (f : Partition → Partition) : (s.modPart n f).samples = s.samples := rfl
@[simp] theorem modPart_reqCount (s : State) (n : Nat) (f : Partition → Partition) : (s.modPart n f).reqCount = s.reqCount := rfl
@[simp] theorem modPart_lostLines (s : State) (n : Nat) (f : Partition → Partition) : (s.modPart n f).lostLines = s.lostLines := rfl
@[simp] theorem modPart_lostPages (s : State) (n : Nat) (f : Partition → Partition) : (s.modPart n f).lostPages = s.lostPages := rfl
@[simp] theorem modPart_corrected (s : State) (n : Nat) (f : Partition → Partition) : (s.modPart n f).corrected = s.corrected := rfl
@[simp] theorem modPart_scrubbed (s : State) (n : Nat) (f : Partition → Partition) : (s.modPart n f).scrubbed = s.scrubbed := rfl
@[simp] theorem modPart_lastOwner (s : State) (n : Nat) (f : Partition → Partition) : (s.modPart n f).lastOwner = s.lastOwner := rfl
@[simp] theorem modPart_badFrames (s : State) (n : Nat) (f : Partition → Partition) : (s.modPart n f).badFrames = s.badFrames := rfl
@[simp] theorem modPart_edges (s : State) (n : Nat) (f : Partition → Partition) : (s.modPart n f).edges = s.edges := rfl
@[simp] theorem modPart_parkedEdges (s : State) (n : Nat) (f : Partition → Partition) : (s.modPart n f).parkedEdges = s.parkedEdges := rfl
@[simp] theorem modPart_badgerOps (s : State) (n : Nat) (f : Partition → Partition) : (s.modPart n f).badgerOps = s.badgerOps := rfl
@[simp] theorem modPart_spare (s : State) (n : Nat) (f : Partition → Partition) : (s.modPart n f).spare = s.spare := rfl
@[simp] theorem modPart_reserve (s : State) (n : Nat) (f : Partition → Partition) : (s.modPart n f).reserve = s.reserve := rfl
@[simp] theorem modPart_out (s : State) (n : Nat) (f : Partition → Partition) : (s.modPart n f).out = s.out := rfl
@[simp] theorem modPart_now (s : State) (n : Nat) (f : Partition → Partition) : (s.modPart n f).now = s.now := rfl
@[simp] theorem modPart_turn (s : State) (n : Nat) (f : Partition → Partition) : (s.modPart n f).turn = s.turn := rfl
@[simp] theorem modPart_twice (s : State) (n : Nat) (f : Partition → Partition) : (s.modPart n f).twice = s.twice := rfl
@[simp] theorem modPart_issue (s : State) (n : Nat) (f : Partition → Partition) : (s.modPart n f).issue = s.issue := rfl
@[simp] theorem modPart_agenda (s : State) (n : Nat) (f : Partition → Partition) : (s.modPart n f).agenda = s.agenda := rfl
@[simp] theorem modPart_free (s : State) (n : Nat) (f : Partition → Partition) : (s.modPart n f).free = s.free := rfl
@[simp] theorem modPart_grantNo (s : State) (n : Nat) (f : Partition → Partition) : (s.modPart n f).grantNo = s.grantNo := rfl
@[simp] theorem modPart_nextId (s : State) (n : Nat) (f : Partition → Partition) : (s.modPart n f).nextId = s.nextId := rfl
@[simp] theorem modPart_parts (s : State) (n : Nat) (f : Partition → Partition) : (s.modPart n f).parts = tmod s.parts n {} f := rfl

/-! ### `State.later` -/

@[simp] theorem later_g (s : State) (d : Nat) (j : Subject) (e : Instr) : (s.later d j e).g = s.g := rfl
@[simp] theorem later_gid (s : State) (d : Nat) (j : Subject) (e : Instr) : (s.later d j e).gid = s.gid := rfl
@[simp] theorem later_isec (s : State) (d : Nat) (j : Subject) (e : Instr) : (s.later d j e).isec = s.isec := rfl
@[simp] theorem later_idx (s : State) (d : Nat) (j : Subject) (e : Instr) : (s.later d j e).idx = s.idx := rfl
@[simp] theorem later_subj (s : State) (d : Nat) (j : Subject) (e : Instr) : (s.later d j e).subj = s.subj := rfl
@[simp] theorem later_pkt (s : State) (d : Nat) (j : Subject) (e : Instr) : (s.later d j e).pkt = s.pkt := rfl
@[simp] theorem later_gangs (s : State) (d : Nat) (j : Subject) (e : Instr) : (s.later d j e).gangs = s.gangs := rfl
@[simp] theorem later_teams (s : State) (d : Nat) (j : Subject) (e : Instr) : (s.later d j e).teams = s.teams := rfl
@[simp] theorem later_cores (s : State) (d : Nat) (j : Subject) (e : Instr) : (s.later d j e).cores = s.cores := rfl
@[simp] theorem later_parts (s : State) (d : Nat) (j : Subject) (e : Instr) : (s.later d j e).parts = s.parts := rfl
@[simp] theorem later_images (s : State) (d : Nat) (j : Subject) (e : Instr) : (s.later d j e).images = s.images := rfl
@[simp] theorem later_stealing (s : State) (d : Nat) (j : Subject) (e : Instr) : (s.later d j e).stealing = s.stealing := rfl
@[simp] theorem later_granted (s : State) (d : Nat) (j : Subject) (e : Instr) : (s.later d j e).granted = s.granted := rfl
@[simp] theorem later_graphTurn (s : State) (d : Nat) (j : Subject) (e : Instr) : (s.later d j e).graphTurn = s.graphTurn := rfl
@[simp] theorem later_ctxs (s : State) (d : Nat) (j : Subject) (e : Instr) : (s.later d j e).ctxs = s.ctxs := rfl
@[simp] theorem later_queues (s : State) (d : Nat) (j : Subject) (e : Instr) : (s.later d j e).queues = s.queues := rfl
@[simp] theorem later_launches (s : State) (d : Nat) (j : Subject) (e : Instr) : (s.later d j e).launches = s.launches := rfl
@[simp] theorem later_pkg (s : State) (d : Nat) (j : Subject) (e : Instr) : (s.later d j e).pkg = s.pkg := rfl
@[simp] theorem later_owl (s : State) (d : Nat) (j : Subject) (e : Instr) : (s.later d j e).owl = s.owl := rfl
@[simp] theorem later_mem (s : State) (d : Nat) (j : Subject) (e : Instr) : (s.later d j e).mem = s.mem := rfl
@[simp] theorem later_ind (s : State) (d : Nat) (j : Subject) (e : Instr) : (s.later d j e).ind = s.ind := rfl
@[simp] theorem later_tableBase (s : State) (d : Nat) (j : Subject) (e : Instr) : (s.later d j e).tableBase = s.tableBase := rfl
@[simp] theorem later_homes (s : State) (d : Nat) (j : Subject) (e : Instr) : (s.later d j e).homes = s.homes := rfl
@[simp] theorem later_hints (s : State) (d : Nat) (j : Subject) (e : Instr) : (s.later d j e).hints = s.hints := rfl
@[simp] theorem later_dir (s : State) (d : Nat) (j : Subject) (e : Instr) : (s.later d j e).dir = s.dir := rfl
@[simp] theorem later_dirUse (s : State) (d : Nat) (j : Subject) (e : Instr) : (s.later d j e).dirUse = s.dirUse := rfl
@[simp] theorem later_entries (s : State) (d : Nat) (j : Subject) (e : Instr) : (s.later d j e).entries = s.entries := rfl
@[simp] theorem later_dies (s : State) (d : Nat) (j : Subject) (e : Instr) : (s.later d j e).dies = s.dies := rfl
@[simp] theorem later_moves (s : State) (d : Nat) (j : Subject) (e : Instr) : (s.later d j e).moves = s.moves := rfl
@[simp] theorem later_pinned (s : State) (d : Nat) (j : Subject) (e : Instr) : (s.later d j e).pinned = s.pinned := rfl
@[simp] theorem later_samples (s : State) (d : Nat) (j : Subject) (e : Instr) : (s.later d j e).samples = s.samples := rfl
@[simp] theorem later_reqCount (s : State) (d : Nat) (j : Subject) (e : Instr) : (s.later d j e).reqCount = s.reqCount := rfl
@[simp] theorem later_lostLines (s : State) (d : Nat) (j : Subject) (e : Instr) : (s.later d j e).lostLines = s.lostLines := rfl
@[simp] theorem later_lostPages (s : State) (d : Nat) (j : Subject) (e : Instr) : (s.later d j e).lostPages = s.lostPages := rfl
@[simp] theorem later_corrected (s : State) (d : Nat) (j : Subject) (e : Instr) : (s.later d j e).corrected = s.corrected := rfl
@[simp] theorem later_scrubbed (s : State) (d : Nat) (j : Subject) (e : Instr) : (s.later d j e).scrubbed = s.scrubbed := rfl
@[simp] theorem later_lastOwner (s : State) (d : Nat) (j : Subject) (e : Instr) : (s.later d j e).lastOwner = s.lastOwner := rfl
@[simp] theorem later_badFrames (s : State) (d : Nat) (j : Subject) (e : Instr) : (s.later d j e).badFrames = s.badFrames := rfl
@[simp] theorem later_edges (s : State) (d : Nat) (j : Subject) (e : Instr) : (s.later d j e).edges = s.edges := rfl
@[simp] theorem later_parkedEdges (s : State) (d : Nat) (j : Subject) (e : Instr) : (s.later d j e).parkedEdges = s.parkedEdges := rfl
@[simp] theorem later_badgerOps (s : State) (d : Nat) (j : Subject) (e : Instr) : (s.later d j e).badgerOps = s.badgerOps := rfl
@[simp] theorem later_spare (s : State) (d : Nat) (j : Subject) (e : Instr) : (s.later d j e).spare = s.spare := rfl
@[simp] theorem later_reserve (s : State) (d : Nat) (j : Subject) (e : Instr) : (s.later d j e).reserve = s.reserve := rfl
@[simp] theorem later_out (s : State) (d : Nat) (j : Subject) (e : Instr) : (s.later d j e).out = s.out := rfl
@[simp] theorem later_now (s : State) (d : Nat) (j : Subject) (e : Instr) : (s.later d j e).now = s.now := rfl
@[simp] theorem later_turn (s : State) (d : Nat) (j : Subject) (e : Instr) : (s.later d j e).turn = s.turn := rfl
@[simp] theorem later_twice (s : State) (d : Nat) (j : Subject) (e : Instr) : (s.later d j e).twice = s.twice := rfl
@[simp] theorem later_issue (s : State) (d : Nat) (j : Subject) (e : Instr) : (s.later d j e).issue = s.issue := rfl
@[simp] theorem later_free (s : State) (d : Nat) (j : Subject) (e : Instr) : (s.later d j e).free = s.free := rfl
@[simp] theorem later_grantNo (s : State) (d : Nat) (j : Subject) (e : Instr) : (s.later d j e).grantNo = s.grantNo := rfl
@[simp] theorem later_nextId (s : State) (d : Nat) (j : Subject) (e : Instr) : (s.later d j e).nextId = s.nextId := rfl
@[simp] theorem later_agenda (s : State) (d : Nat) (j : Subject) (e : Instr) : (s.later d j e).agenda = s.agenda ++ [⟨s.now + d, none, j, e⟩] := rfl

/-! ### `State.laterOn` -/

@[simp] theorem laterOn_g (s : State) (c d : Nat) (j : Subject) (e : Instr) : (s.laterOn c d j e).g = s.g := rfl
@[simp] theorem laterOn_gid (s : State) (c d : Nat) (j : Subject) (e : Instr) : (s.laterOn c d j e).gid = s.gid := rfl
@[simp] theorem laterOn_isec (s : State) (c d : Nat) (j : Subject) (e : Instr) : (s.laterOn c d j e).isec = s.isec := rfl
@[simp] theorem laterOn_idx (s : State) (c d : Nat) (j : Subject) (e : Instr) : (s.laterOn c d j e).idx = s.idx := rfl
@[simp] theorem laterOn_subj (s : State) (c d : Nat) (j : Subject) (e : Instr) : (s.laterOn c d j e).subj = s.subj := rfl
@[simp] theorem laterOn_pkt (s : State) (c d : Nat) (j : Subject) (e : Instr) : (s.laterOn c d j e).pkt = s.pkt := rfl
@[simp] theorem laterOn_gangs (s : State) (c d : Nat) (j : Subject) (e : Instr) : (s.laterOn c d j e).gangs = s.gangs := rfl
@[simp] theorem laterOn_teams (s : State) (c d : Nat) (j : Subject) (e : Instr) : (s.laterOn c d j e).teams = s.teams := rfl
@[simp] theorem laterOn_cores (s : State) (c d : Nat) (j : Subject) (e : Instr) : (s.laterOn c d j e).cores = s.cores := rfl
@[simp] theorem laterOn_parts (s : State) (c d : Nat) (j : Subject) (e : Instr) : (s.laterOn c d j e).parts = s.parts := rfl
@[simp] theorem laterOn_images (s : State) (c d : Nat) (j : Subject) (e : Instr) : (s.laterOn c d j e).images = s.images := rfl
@[simp] theorem laterOn_stealing (s : State) (c d : Nat) (j : Subject) (e : Instr) : (s.laterOn c d j e).stealing = s.stealing := rfl
@[simp] theorem laterOn_granted (s : State) (c d : Nat) (j : Subject) (e : Instr) : (s.laterOn c d j e).granted = s.granted := rfl
@[simp] theorem laterOn_graphTurn (s : State) (c d : Nat) (j : Subject) (e : Instr) : (s.laterOn c d j e).graphTurn = s.graphTurn := rfl
@[simp] theorem laterOn_ctxs (s : State) (c d : Nat) (j : Subject) (e : Instr) : (s.laterOn c d j e).ctxs = s.ctxs := rfl
@[simp] theorem laterOn_queues (s : State) (c d : Nat) (j : Subject) (e : Instr) : (s.laterOn c d j e).queues = s.queues := rfl
@[simp] theorem laterOn_launches (s : State) (c d : Nat) (j : Subject) (e : Instr) : (s.laterOn c d j e).launches = s.launches := rfl
@[simp] theorem laterOn_pkg (s : State) (c d : Nat) (j : Subject) (e : Instr) : (s.laterOn c d j e).pkg = s.pkg := rfl
@[simp] theorem laterOn_owl (s : State) (c d : Nat) (j : Subject) (e : Instr) : (s.laterOn c d j e).owl = s.owl := rfl
@[simp] theorem laterOn_mem (s : State) (c d : Nat) (j : Subject) (e : Instr) : (s.laterOn c d j e).mem = s.mem := rfl
@[simp] theorem laterOn_ind (s : State) (c d : Nat) (j : Subject) (e : Instr) : (s.laterOn c d j e).ind = s.ind := rfl
@[simp] theorem laterOn_tableBase (s : State) (c d : Nat) (j : Subject) (e : Instr) : (s.laterOn c d j e).tableBase = s.tableBase := rfl
@[simp] theorem laterOn_homes (s : State) (c d : Nat) (j : Subject) (e : Instr) : (s.laterOn c d j e).homes = s.homes := rfl
@[simp] theorem laterOn_hints (s : State) (c d : Nat) (j : Subject) (e : Instr) : (s.laterOn c d j e).hints = s.hints := rfl
@[simp] theorem laterOn_dir (s : State) (c d : Nat) (j : Subject) (e : Instr) : (s.laterOn c d j e).dir = s.dir := rfl
@[simp] theorem laterOn_dirUse (s : State) (c d : Nat) (j : Subject) (e : Instr) : (s.laterOn c d j e).dirUse = s.dirUse := rfl
@[simp] theorem laterOn_entries (s : State) (c d : Nat) (j : Subject) (e : Instr) : (s.laterOn c d j e).entries = s.entries := rfl
@[simp] theorem laterOn_dies (s : State) (c d : Nat) (j : Subject) (e : Instr) : (s.laterOn c d j e).dies = s.dies := rfl
@[simp] theorem laterOn_moves (s : State) (c d : Nat) (j : Subject) (e : Instr) : (s.laterOn c d j e).moves = s.moves := rfl
@[simp] theorem laterOn_pinned (s : State) (c d : Nat) (j : Subject) (e : Instr) : (s.laterOn c d j e).pinned = s.pinned := rfl
@[simp] theorem laterOn_samples (s : State) (c d : Nat) (j : Subject) (e : Instr) : (s.laterOn c d j e).samples = s.samples := rfl
@[simp] theorem laterOn_reqCount (s : State) (c d : Nat) (j : Subject) (e : Instr) : (s.laterOn c d j e).reqCount = s.reqCount := rfl
@[simp] theorem laterOn_lostLines (s : State) (c d : Nat) (j : Subject) (e : Instr) : (s.laterOn c d j e).lostLines = s.lostLines := rfl
@[simp] theorem laterOn_lostPages (s : State) (c d : Nat) (j : Subject) (e : Instr) : (s.laterOn c d j e).lostPages = s.lostPages := rfl
@[simp] theorem laterOn_corrected (s : State) (c d : Nat) (j : Subject) (e : Instr) : (s.laterOn c d j e).corrected = s.corrected := rfl
@[simp] theorem laterOn_scrubbed (s : State) (c d : Nat) (j : Subject) (e : Instr) : (s.laterOn c d j e).scrubbed = s.scrubbed := rfl
@[simp] theorem laterOn_lastOwner (s : State) (c d : Nat) (j : Subject) (e : Instr) : (s.laterOn c d j e).lastOwner = s.lastOwner := rfl
@[simp] theorem laterOn_badFrames (s : State) (c d : Nat) (j : Subject) (e : Instr) : (s.laterOn c d j e).badFrames = s.badFrames := rfl
@[simp] theorem laterOn_edges (s : State) (c d : Nat) (j : Subject) (e : Instr) : (s.laterOn c d j e).edges = s.edges := rfl
@[simp] theorem laterOn_parkedEdges (s : State) (c d : Nat) (j : Subject) (e : Instr) : (s.laterOn c d j e).parkedEdges = s.parkedEdges := rfl
@[simp] theorem laterOn_badgerOps (s : State) (c d : Nat) (j : Subject) (e : Instr) : (s.laterOn c d j e).badgerOps = s.badgerOps := rfl
@[simp] theorem laterOn_spare (s : State) (c d : Nat) (j : Subject) (e : Instr) : (s.laterOn c d j e).spare = s.spare := rfl
@[simp] theorem laterOn_reserve (s : State) (c d : Nat) (j : Subject) (e : Instr) : (s.laterOn c d j e).reserve = s.reserve := rfl
@[simp] theorem laterOn_out (s : State) (c d : Nat) (j : Subject) (e : Instr) : (s.laterOn c d j e).out = s.out := rfl
@[simp] theorem laterOn_now (s : State) (c d : Nat) (j : Subject) (e : Instr) : (s.laterOn c d j e).now = s.now := rfl
@[simp] theorem laterOn_turn (s : State) (c d : Nat) (j : Subject) (e : Instr) : (s.laterOn c d j e).turn = s.turn := rfl
@[simp] theorem laterOn_twice (s : State) (c d : Nat) (j : Subject) (e : Instr) : (s.laterOn c d j e).twice = s.twice := rfl
@[simp] theorem laterOn_issue (s : State) (c d : Nat) (j : Subject) (e : Instr) : (s.laterOn c d j e).issue = s.issue := rfl
@[simp] theorem laterOn_free (s : State) (c d : Nat) (j : Subject) (e : Instr) : (s.laterOn c d j e).free = s.free := rfl
@[simp] theorem laterOn_grantNo (s : State) (c d : Nat) (j : Subject) (e : Instr) : (s.laterOn c d j e).grantNo = s.grantNo := rfl
@[simp] theorem laterOn_nextId (s : State) (c d : Nat) (j : Subject) (e : Instr) : (s.laterOn c d j e).nextId = s.nextId := rfl
@[simp] theorem laterOn_agenda (s : State) (c d : Nat) (j : Subject) (e : Instr) :
    (s.laterOn c d j e).agenda = s.agenda ++ [⟨(s.coreAt c).cyc + d, some c, j, e⟩] := rfl

/-! ### `State.offCore` -/

@[simp] theorem offCore_g (s : State) (j : Subject) (e : Instr) : (s.offCore j e).g = s.g := rfl
@[simp] theorem offCore_gid (s : State) (j : Subject) (e : Instr) : (s.offCore j e).gid = s.gid := rfl
@[simp] theorem offCore_isec (s : State) (j : Subject) (e : Instr) : (s.offCore j e).isec = s.isec := rfl
@[simp] theorem offCore_idx (s : State) (j : Subject) (e : Instr) : (s.offCore j e).idx = s.idx := rfl
@[simp] theorem offCore_subj (s : State) (j : Subject) (e : Instr) : (s.offCore j e).subj = s.subj := rfl
@[simp] theorem offCore_pkt (s : State) (j : Subject) (e : Instr) : (s.offCore j e).pkt = s.pkt := rfl
@[simp] theorem offCore_gangs (s : State) (j : Subject) (e : Instr) : (s.offCore j e).gangs = s.gangs := rfl
@[simp] theorem offCore_teams (s : State) (j : Subject) (e : Instr) : (s.offCore j e).teams = s.teams := rfl
@[simp] theorem offCore_cores (s : State) (j : Subject) (e : Instr) : (s.offCore j e).cores = s.cores := rfl
@[simp] theorem offCore_parts (s : State) (j : Subject) (e : Instr) : (s.offCore j e).parts = s.parts := rfl
@[simp] theorem offCore_images (s : State) (j : Subject) (e : Instr) : (s.offCore j e).images = s.images := rfl
@[simp] theorem offCore_stealing (s : State) (j : Subject) (e : Instr) : (s.offCore j e).stealing = s.stealing := rfl
@[simp] theorem offCore_granted (s : State) (j : Subject) (e : Instr) : (s.offCore j e).granted = s.granted := rfl
@[simp] theorem offCore_graphTurn (s : State) (j : Subject) (e : Instr) : (s.offCore j e).graphTurn = s.graphTurn := rfl
@[simp] theorem offCore_ctxs (s : State) (j : Subject) (e : Instr) : (s.offCore j e).ctxs = s.ctxs := rfl
@[simp] theorem offCore_queues (s : State) (j : Subject) (e : Instr) : (s.offCore j e).queues = s.queues := rfl
@[simp] theorem offCore_launches (s : State) (j : Subject) (e : Instr) : (s.offCore j e).launches = s.launches := rfl
@[simp] theorem offCore_pkg (s : State) (j : Subject) (e : Instr) : (s.offCore j e).pkg = s.pkg := rfl
@[simp] theorem offCore_owl (s : State) (j : Subject) (e : Instr) : (s.offCore j e).owl = s.owl := rfl
@[simp] theorem offCore_mem (s : State) (j : Subject) (e : Instr) : (s.offCore j e).mem = s.mem := rfl
@[simp] theorem offCore_ind (s : State) (j : Subject) (e : Instr) : (s.offCore j e).ind = s.ind := rfl
@[simp] theorem offCore_tableBase (s : State) (j : Subject) (e : Instr) : (s.offCore j e).tableBase = s.tableBase := rfl
@[simp] theorem offCore_homes (s : State) (j : Subject) (e : Instr) : (s.offCore j e).homes = s.homes := rfl
@[simp] theorem offCore_hints (s : State) (j : Subject) (e : Instr) : (s.offCore j e).hints = s.hints := rfl
@[simp] theorem offCore_dir (s : State) (j : Subject) (e : Instr) : (s.offCore j e).dir = s.dir := rfl
@[simp] theorem offCore_dirUse (s : State) (j : Subject) (e : Instr) : (s.offCore j e).dirUse = s.dirUse := rfl
@[simp] theorem offCore_entries (s : State) (j : Subject) (e : Instr) : (s.offCore j e).entries = s.entries := rfl
@[simp] theorem offCore_dies (s : State) (j : Subject) (e : Instr) : (s.offCore j e).dies = s.dies := rfl
@[simp] theorem offCore_moves (s : State) (j : Subject) (e : Instr) : (s.offCore j e).moves = s.moves := rfl
@[simp] theorem offCore_pinned (s : State) (j : Subject) (e : Instr) : (s.offCore j e).pinned = s.pinned := rfl
@[simp] theorem offCore_samples (s : State) (j : Subject) (e : Instr) : (s.offCore j e).samples = s.samples := rfl
@[simp] theorem offCore_reqCount (s : State) (j : Subject) (e : Instr) : (s.offCore j e).reqCount = s.reqCount := rfl
@[simp] theorem offCore_lostLines (s : State) (j : Subject) (e : Instr) : (s.offCore j e).lostLines = s.lostLines := rfl
@[simp] theorem offCore_lostPages (s : State) (j : Subject) (e : Instr) : (s.offCore j e).lostPages = s.lostPages := rfl
@[simp] theorem offCore_corrected (s : State) (j : Subject) (e : Instr) : (s.offCore j e).corrected = s.corrected := rfl
@[simp] theorem offCore_scrubbed (s : State) (j : Subject) (e : Instr) : (s.offCore j e).scrubbed = s.scrubbed := rfl
@[simp] theorem offCore_lastOwner (s : State) (j : Subject) (e : Instr) : (s.offCore j e).lastOwner = s.lastOwner := rfl
@[simp] theorem offCore_badFrames (s : State) (j : Subject) (e : Instr) : (s.offCore j e).badFrames = s.badFrames := rfl
@[simp] theorem offCore_edges (s : State) (j : Subject) (e : Instr) : (s.offCore j e).edges = s.edges := rfl
@[simp] theorem offCore_parkedEdges (s : State) (j : Subject) (e : Instr) : (s.offCore j e).parkedEdges = s.parkedEdges := rfl
@[simp] theorem offCore_badgerOps (s : State) (j : Subject) (e : Instr) : (s.offCore j e).badgerOps = s.badgerOps := rfl
@[simp] theorem offCore_spare (s : State) (j : Subject) (e : Instr) : (s.offCore j e).spare = s.spare := rfl
@[simp] theorem offCore_reserve (s : State) (j : Subject) (e : Instr) : (s.offCore j e).reserve = s.reserve := rfl
@[simp] theorem offCore_out (s : State) (j : Subject) (e : Instr) : (s.offCore j e).out = s.out := rfl
@[simp] theorem offCore_now (s : State) (j : Subject) (e : Instr) : (s.offCore j e).now = s.now := rfl
@[simp] theorem offCore_turn (s : State) (j : Subject) (e : Instr) : (s.offCore j e).turn = s.turn := rfl
@[simp] theorem offCore_twice (s : State) (j : Subject) (e : Instr) : (s.offCore j e).twice = s.twice := rfl
@[simp] theorem offCore_issue (s : State) (j : Subject) (e : Instr) : (s.offCore j e).issue = s.issue := rfl
@[simp] theorem offCore_grantNo (s : State) (j : Subject) (e : Instr) : (s.offCore j e).grantNo = s.grantNo := rfl
@[simp] theorem offCore_nextId (s : State) (j : Subject) (e : Instr) : (s.offCore j e).nextId = s.nextId := rfl
@[simp] theorem offCore_agenda (s : State) (j : Subject) (e : Instr) :
    (s.offCore j e).agenda = s.agenda ++ [⟨s.now + 1 + Config.freeDelay s.free, none, j, e⟩] := rfl
@[simp] theorem offCore_free (s : State) (j : Subject) (e : Instr) : (s.offCore j e).free = s.free + 1 := rfl

/-! ### `State.soon` -/

@[simp] theorem soon_g (s : State) (j : Subject) (e : Instr) : (s.soon j e).g = s.g := rfl
@[simp] theorem soon_gid (s : State) (j : Subject) (e : Instr) : (s.soon j e).gid = s.gid := rfl
@[simp] theorem soon_isec (s : State) (j : Subject) (e : Instr) : (s.soon j e).isec = s.isec := rfl
@[simp] theorem soon_idx (s : State) (j : Subject) (e : Instr) : (s.soon j e).idx = s.idx := rfl
@[simp] theorem soon_subj (s : State) (j : Subject) (e : Instr) : (s.soon j e).subj = s.subj := rfl
@[simp] theorem soon_pkt (s : State) (j : Subject) (e : Instr) : (s.soon j e).pkt = s.pkt := rfl
@[simp] theorem soon_gangs (s : State) (j : Subject) (e : Instr) : (s.soon j e).gangs = s.gangs := rfl
@[simp] theorem soon_teams (s : State) (j : Subject) (e : Instr) : (s.soon j e).teams = s.teams := rfl
@[simp] theorem soon_cores (s : State) (j : Subject) (e : Instr) : (s.soon j e).cores = s.cores := rfl
@[simp] theorem soon_parts (s : State) (j : Subject) (e : Instr) : (s.soon j e).parts = s.parts := rfl
@[simp] theorem soon_images (s : State) (j : Subject) (e : Instr) : (s.soon j e).images = s.images := rfl
@[simp] theorem soon_stealing (s : State) (j : Subject) (e : Instr) : (s.soon j e).stealing = s.stealing := rfl
@[simp] theorem soon_granted (s : State) (j : Subject) (e : Instr) : (s.soon j e).granted = s.granted := rfl
@[simp] theorem soon_graphTurn (s : State) (j : Subject) (e : Instr) : (s.soon j e).graphTurn = s.graphTurn := rfl
@[simp] theorem soon_ctxs (s : State) (j : Subject) (e : Instr) : (s.soon j e).ctxs = s.ctxs := rfl
@[simp] theorem soon_queues (s : State) (j : Subject) (e : Instr) : (s.soon j e).queues = s.queues := rfl
@[simp] theorem soon_launches (s : State) (j : Subject) (e : Instr) : (s.soon j e).launches = s.launches := rfl
@[simp] theorem soon_pkg (s : State) (j : Subject) (e : Instr) : (s.soon j e).pkg = s.pkg := rfl
@[simp] theorem soon_owl (s : State) (j : Subject) (e : Instr) : (s.soon j e).owl = s.owl := rfl
@[simp] theorem soon_mem (s : State) (j : Subject) (e : Instr) : (s.soon j e).mem = s.mem := rfl
@[simp] theorem soon_ind (s : State) (j : Subject) (e : Instr) : (s.soon j e).ind = s.ind := rfl
@[simp] theorem soon_tableBase (s : State) (j : Subject) (e : Instr) : (s.soon j e).tableBase = s.tableBase := rfl
@[simp] theorem soon_homes (s : State) (j : Subject) (e : Instr) : (s.soon j e).homes = s.homes := rfl
@[simp] theorem soon_hints (s : State) (j : Subject) (e : Instr) : (s.soon j e).hints = s.hints := rfl
@[simp] theorem soon_dir (s : State) (j : Subject) (e : Instr) : (s.soon j e).dir = s.dir := rfl
@[simp] theorem soon_dirUse (s : State) (j : Subject) (e : Instr) : (s.soon j e).dirUse = s.dirUse := rfl
@[simp] theorem soon_entries (s : State) (j : Subject) (e : Instr) : (s.soon j e).entries = s.entries := rfl
@[simp] theorem soon_dies (s : State) (j : Subject) (e : Instr) : (s.soon j e).dies = s.dies := rfl
@[simp] theorem soon_moves (s : State) (j : Subject) (e : Instr) : (s.soon j e).moves = s.moves := rfl
@[simp] theorem soon_pinned (s : State) (j : Subject) (e : Instr) : (s.soon j e).pinned = s.pinned := rfl
@[simp] theorem soon_samples (s : State) (j : Subject) (e : Instr) : (s.soon j e).samples = s.samples := rfl
@[simp] theorem soon_reqCount (s : State) (j : Subject) (e : Instr) : (s.soon j e).reqCount = s.reqCount := rfl
@[simp] theorem soon_lostLines (s : State) (j : Subject) (e : Instr) : (s.soon j e).lostLines = s.lostLines := rfl
@[simp] theorem soon_lostPages (s : State) (j : Subject) (e : Instr) : (s.soon j e).lostPages = s.lostPages := rfl
@[simp] theorem soon_corrected (s : State) (j : Subject) (e : Instr) : (s.soon j e).corrected = s.corrected := rfl
@[simp] theorem soon_scrubbed (s : State) (j : Subject) (e : Instr) : (s.soon j e).scrubbed = s.scrubbed := rfl
@[simp] theorem soon_lastOwner (s : State) (j : Subject) (e : Instr) : (s.soon j e).lastOwner = s.lastOwner := rfl
@[simp] theorem soon_badFrames (s : State) (j : Subject) (e : Instr) : (s.soon j e).badFrames = s.badFrames := rfl
@[simp] theorem soon_edges (s : State) (j : Subject) (e : Instr) : (s.soon j e).edges = s.edges := rfl
@[simp] theorem soon_parkedEdges (s : State) (j : Subject) (e : Instr) : (s.soon j e).parkedEdges = s.parkedEdges := rfl
@[simp] theorem soon_badgerOps (s : State) (j : Subject) (e : Instr) : (s.soon j e).badgerOps = s.badgerOps := rfl
@[simp] theorem soon_spare (s : State) (j : Subject) (e : Instr) : (s.soon j e).spare = s.spare := rfl
@[simp] theorem soon_reserve (s : State) (j : Subject) (e : Instr) : (s.soon j e).reserve = s.reserve := rfl
@[simp] theorem soon_out (s : State) (j : Subject) (e : Instr) : (s.soon j e).out = s.out := rfl
@[simp] theorem soon_now (s : State) (j : Subject) (e : Instr) : (s.soon j e).now = s.now := rfl
@[simp] theorem soon_turn (s : State) (j : Subject) (e : Instr) : (s.soon j e).turn = s.turn := rfl
@[simp] theorem soon_twice (s : State) (j : Subject) (e : Instr) : (s.soon j e).twice = s.twice := rfl
@[simp] theorem soon_issue (s : State) (j : Subject) (e : Instr) : (s.soon j e).issue = s.issue := rfl
@[simp] theorem soon_free (s : State) (j : Subject) (e : Instr) : (s.soon j e).free = s.free := rfl
@[simp] theorem soon_grantNo (s : State) (j : Subject) (e : Instr) : (s.soon j e).grantNo = s.grantNo := rfl
@[simp] theorem soon_nextId (s : State) (j : Subject) (e : Instr) : (s.soon j e).nextId = s.nextId := rfl
@[simp] theorem soon_agenda (s : State) (j : Subject) (e : Instr) : (s.soon j e).agenda = s.agenda ++ [⟨s.now, none, j, e⟩] := rfl

/-! ### `State.emit` -/

@[simp] theorem emit_g (s : State) (e : OutEvent) : (s.emit e).g = s.g := rfl
@[simp] theorem emit_gid (s : State) (e : OutEvent) : (s.emit e).gid = s.gid := rfl
@[simp] theorem emit_isec (s : State) (e : OutEvent) : (s.emit e).isec = s.isec := rfl
@[simp] theorem emit_idx (s : State) (e : OutEvent) : (s.emit e).idx = s.idx := rfl
@[simp] theorem emit_subj (s : State) (e : OutEvent) : (s.emit e).subj = s.subj := rfl
@[simp] theorem emit_pkt (s : State) (e : OutEvent) : (s.emit e).pkt = s.pkt := rfl
@[simp] theorem emit_gangs (s : State) (e : OutEvent) : (s.emit e).gangs = s.gangs := rfl
@[simp] theorem emit_teams (s : State) (e : OutEvent) : (s.emit e).teams = s.teams := rfl
@[simp] theorem emit_cores (s : State) (e : OutEvent) : (s.emit e).cores = s.cores := rfl
@[simp] theorem emit_parts (s : State) (e : OutEvent) : (s.emit e).parts = s.parts := rfl
@[simp] theorem emit_images (s : State) (e : OutEvent) : (s.emit e).images = s.images := rfl
@[simp] theorem emit_stealing (s : State) (e : OutEvent) : (s.emit e).stealing = s.stealing := rfl
@[simp] theorem emit_granted (s : State) (e : OutEvent) : (s.emit e).granted = s.granted := rfl
@[simp] theorem emit_graphTurn (s : State) (e : OutEvent) : (s.emit e).graphTurn = s.graphTurn := rfl
@[simp] theorem emit_ctxs (s : State) (e : OutEvent) : (s.emit e).ctxs = s.ctxs := rfl
@[simp] theorem emit_queues (s : State) (e : OutEvent) : (s.emit e).queues = s.queues := rfl
@[simp] theorem emit_launches (s : State) (e : OutEvent) : (s.emit e).launches = s.launches := rfl
@[simp] theorem emit_pkg (s : State) (e : OutEvent) : (s.emit e).pkg = s.pkg := rfl
@[simp] theorem emit_owl (s : State) (e : OutEvent) : (s.emit e).owl = s.owl := rfl
@[simp] theorem emit_mem (s : State) (e : OutEvent) : (s.emit e).mem = s.mem := rfl
@[simp] theorem emit_ind (s : State) (e : OutEvent) : (s.emit e).ind = s.ind := rfl
@[simp] theorem emit_tableBase (s : State) (e : OutEvent) : (s.emit e).tableBase = s.tableBase := rfl
@[simp] theorem emit_homes (s : State) (e : OutEvent) : (s.emit e).homes = s.homes := rfl
@[simp] theorem emit_hints (s : State) (e : OutEvent) : (s.emit e).hints = s.hints := rfl
@[simp] theorem emit_dir (s : State) (e : OutEvent) : (s.emit e).dir = s.dir := rfl
@[simp] theorem emit_dirUse (s : State) (e : OutEvent) : (s.emit e).dirUse = s.dirUse := rfl
@[simp] theorem emit_entries (s : State) (e : OutEvent) : (s.emit e).entries = s.entries := rfl
@[simp] theorem emit_dies (s : State) (e : OutEvent) : (s.emit e).dies = s.dies := rfl
@[simp] theorem emit_moves (s : State) (e : OutEvent) : (s.emit e).moves = s.moves := rfl
@[simp] theorem emit_pinned (s : State) (e : OutEvent) : (s.emit e).pinned = s.pinned := rfl
@[simp] theorem emit_samples (s : State) (e : OutEvent) : (s.emit e).samples = s.samples := rfl
@[simp] theorem emit_reqCount (s : State) (e : OutEvent) : (s.emit e).reqCount = s.reqCount := rfl
@[simp] theorem emit_lostLines (s : State) (e : OutEvent) : (s.emit e).lostLines = s.lostLines := rfl
@[simp] theorem emit_lostPages (s : State) (e : OutEvent) : (s.emit e).lostPages = s.lostPages := rfl
@[simp] theorem emit_corrected (s : State) (e : OutEvent) : (s.emit e).corrected = s.corrected := rfl
@[simp] theorem emit_scrubbed (s : State) (e : OutEvent) : (s.emit e).scrubbed = s.scrubbed := rfl
@[simp] theorem emit_lastOwner (s : State) (e : OutEvent) : (s.emit e).lastOwner = s.lastOwner := rfl
@[simp] theorem emit_badFrames (s : State) (e : OutEvent) : (s.emit e).badFrames = s.badFrames := rfl
@[simp] theorem emit_edges (s : State) (e : OutEvent) : (s.emit e).edges = s.edges := rfl
@[simp] theorem emit_parkedEdges (s : State) (e : OutEvent) : (s.emit e).parkedEdges = s.parkedEdges := rfl
@[simp] theorem emit_badgerOps (s : State) (e : OutEvent) : (s.emit e).badgerOps = s.badgerOps := rfl
@[simp] theorem emit_spare (s : State) (e : OutEvent) : (s.emit e).spare = s.spare := rfl
@[simp] theorem emit_reserve (s : State) (e : OutEvent) : (s.emit e).reserve = s.reserve := rfl
@[simp] theorem emit_now (s : State) (e : OutEvent) : (s.emit e).now = s.now := rfl
@[simp] theorem emit_turn (s : State) (e : OutEvent) : (s.emit e).turn = s.turn := rfl
@[simp] theorem emit_twice (s : State) (e : OutEvent) : (s.emit e).twice = s.twice := rfl
@[simp] theorem emit_issue (s : State) (e : OutEvent) : (s.emit e).issue = s.issue := rfl
@[simp] theorem emit_agenda (s : State) (e : OutEvent) : (s.emit e).agenda = s.agenda := rfl
@[simp] theorem emit_free (s : State) (e : OutEvent) : (s.emit e).free = s.free := rfl
@[simp] theorem emit_grantNo (s : State) (e : OutEvent) : (s.emit e).grantNo = s.grantNo := rfl
@[simp] theorem emit_nextId (s : State) (e : OutEvent) : (s.emit e).nextId = s.nextId := rfl
@[simp] theorem emit_out (s : State) (e : OutEvent) : (s.emit e).out = s.out ++ [e] := rfl

/-! ### `State.setBlk` -/

@[simp] theorem setBlk_gid (s : State) (b : Blk) : (s.setBlk b).gid = s.gid := by unfold State.setBlk; split <;> rfl
@[simp] theorem setBlk_isec (s : State) (b : Blk) : (s.setBlk b).isec = s.isec := by unfold State.setBlk; split <;> rfl
@[simp] theorem setBlk_idx (s : State) (b : Blk) : (s.setBlk b).idx = s.idx := by unfold State.setBlk; split <;> rfl
@[simp] theorem setBlk_subj (s : State) (b : Blk) : (s.setBlk b).subj = s.subj := by unfold State.setBlk; split <;> rfl
@[simp] theorem setBlk_pkt (s : State) (b : Blk) : (s.setBlk b).pkt = s.pkt := by unfold State.setBlk; split <;> rfl
@[simp] theorem setBlk_gangs (s : State) (b : Blk) : (s.setBlk b).gangs = s.gangs := by unfold State.setBlk; split <;> rfl
@[simp] theorem setBlk_teams (s : State) (b : Blk) : (s.setBlk b).teams = s.teams := by unfold State.setBlk; split <;> rfl
@[simp] theorem setBlk_cores (s : State) (b : Blk) : (s.setBlk b).cores = s.cores := by unfold State.setBlk; split <;> rfl
@[simp] theorem setBlk_parts (s : State) (b : Blk) : (s.setBlk b).parts = s.parts := by unfold State.setBlk; split <;> rfl
@[simp] theorem setBlk_images (s : State) (b : Blk) : (s.setBlk b).images = s.images := by unfold State.setBlk; split <;> rfl
@[simp] theorem setBlk_stealing (s : State) (b : Blk) : (s.setBlk b).stealing = s.stealing := by unfold State.setBlk; split <;> rfl
@[simp] theorem setBlk_granted (s : State) (b : Blk) : (s.setBlk b).granted = s.granted := by unfold State.setBlk; split <;> rfl
@[simp] theorem setBlk_graphTurn (s : State) (b : Blk) : (s.setBlk b).graphTurn = s.graphTurn := by unfold State.setBlk; split <;> rfl
@[simp] theorem setBlk_ctxs (s : State) (b : Blk) : (s.setBlk b).ctxs = s.ctxs := by unfold State.setBlk; split <;> rfl
@[simp] theorem setBlk_queues (s : State) (b : Blk) : (s.setBlk b).queues = s.queues := by unfold State.setBlk; split <;> rfl
@[simp] theorem setBlk_launches (s : State) (b : Blk) : (s.setBlk b).launches = s.launches := by unfold State.setBlk; split <;> rfl
@[simp] theorem setBlk_pkg (s : State) (b : Blk) : (s.setBlk b).pkg = s.pkg := by unfold State.setBlk; split <;> rfl
@[simp] theorem setBlk_owl (s : State) (b : Blk) : (s.setBlk b).owl = s.owl := by unfold State.setBlk; split <;> rfl
@[simp] theorem setBlk_mem (s : State) (b : Blk) : (s.setBlk b).mem = s.mem := by unfold State.setBlk; split <;> rfl
@[simp] theorem setBlk_ind (s : State) (b : Blk) : (s.setBlk b).ind = s.ind := by unfold State.setBlk; split <;> rfl
@[simp] theorem setBlk_tableBase (s : State) (b : Blk) : (s.setBlk b).tableBase = s.tableBase := by unfold State.setBlk; split <;> rfl
@[simp] theorem setBlk_homes (s : State) (b : Blk) : (s.setBlk b).homes = s.homes := by unfold State.setBlk; split <;> rfl
@[simp] theorem setBlk_hints (s : State) (b : Blk) : (s.setBlk b).hints = s.hints := by unfold State.setBlk; split <;> rfl
@[simp] theorem setBlk_dir (s : State) (b : Blk) : (s.setBlk b).dir = s.dir := by unfold State.setBlk; split <;> rfl
@[simp] theorem setBlk_dirUse (s : State) (b : Blk) : (s.setBlk b).dirUse = s.dirUse := by unfold State.setBlk; split <;> rfl
@[simp] theorem setBlk_entries (s : State) (b : Blk) : (s.setBlk b).entries = s.entries := by unfold State.setBlk; split <;> rfl
@[simp] theorem setBlk_dies (s : State) (b : Blk) : (s.setBlk b).dies = s.dies := by unfold State.setBlk; split <;> rfl
@[simp] theorem setBlk_moves (s : State) (b : Blk) : (s.setBlk b).moves = s.moves := by unfold State.setBlk; split <;> rfl
@[simp] theorem setBlk_pinned (s : State) (b : Blk) : (s.setBlk b).pinned = s.pinned := by unfold State.setBlk; split <;> rfl
@[simp] theorem setBlk_samples (s : State) (b : Blk) : (s.setBlk b).samples = s.samples := by unfold State.setBlk; split <;> rfl
@[simp] theorem setBlk_reqCount (s : State) (b : Blk) : (s.setBlk b).reqCount = s.reqCount := by unfold State.setBlk; split <;> rfl
@[simp] theorem setBlk_lostLines (s : State) (b : Blk) : (s.setBlk b).lostLines = s.lostLines := by unfold State.setBlk; split <;> rfl
@[simp] theorem setBlk_lostPages (s : State) (b : Blk) : (s.setBlk b).lostPages = s.lostPages := by unfold State.setBlk; split <;> rfl
@[simp] theorem setBlk_corrected (s : State) (b : Blk) : (s.setBlk b).corrected = s.corrected := by unfold State.setBlk; split <;> rfl
@[simp] theorem setBlk_scrubbed (s : State) (b : Blk) : (s.setBlk b).scrubbed = s.scrubbed := by unfold State.setBlk; split <;> rfl
@[simp] theorem setBlk_lastOwner (s : State) (b : Blk) : (s.setBlk b).lastOwner = s.lastOwner := by unfold State.setBlk; split <;> rfl
@[simp] theorem setBlk_badFrames (s : State) (b : Blk) : (s.setBlk b).badFrames = s.badFrames := by unfold State.setBlk; split <;> rfl
@[simp] theorem setBlk_edges (s : State) (b : Blk) : (s.setBlk b).edges = s.edges := by unfold State.setBlk; split <;> rfl
@[simp] theorem setBlk_parkedEdges (s : State) (b : Blk) : (s.setBlk b).parkedEdges = s.parkedEdges := by unfold State.setBlk; split <;> rfl
@[simp] theorem setBlk_badgerOps (s : State) (b : Blk) : (s.setBlk b).badgerOps = s.badgerOps := by unfold State.setBlk; split <;> rfl
@[simp] theorem setBlk_spare (s : State) (b : Blk) : (s.setBlk b).spare = s.spare := by unfold State.setBlk; split <;> rfl
@[simp] theorem setBlk_reserve (s : State) (b : Blk) : (s.setBlk b).reserve = s.reserve := by unfold State.setBlk; split <;> rfl
@[simp] theorem setBlk_out (s : State) (b : Blk) : (s.setBlk b).out = s.out := by unfold State.setBlk; split <;> rfl
@[simp] theorem setBlk_now (s : State) (b : Blk) : (s.setBlk b).now = s.now := by unfold State.setBlk; split <;> rfl
@[simp] theorem setBlk_turn (s : State) (b : Blk) : (s.setBlk b).turn = s.turn := by unfold State.setBlk; split <;> rfl
@[simp] theorem setBlk_twice (s : State) (b : Blk) : (s.setBlk b).twice = s.twice := by unfold State.setBlk; split <;> rfl
@[simp] theorem setBlk_issue (s : State) (b : Blk) : (s.setBlk b).issue = s.issue := by unfold State.setBlk; split <;> rfl
@[simp] theorem setBlk_agenda (s : State) (b : Blk) : (s.setBlk b).agenda = s.agenda := by unfold State.setBlk; split <;> rfl
@[simp] theorem setBlk_free (s : State) (b : Blk) : (s.setBlk b).free = s.free := by unfold State.setBlk; split <;> rfl
@[simp] theorem setBlk_grantNo (s : State) (b : Blk) : (s.setBlk b).grantNo = s.grantNo := by unfold State.setBlk; split <;> rfl
@[simp] theorem setBlk_nextId (s : State) (b : Blk) : (s.setBlk b).nextId = s.nextId := by unfold State.setBlk; split <;> rfl

/-! ### `State.modTeam` -/

@[simp] theorem modTeam_g (s : State) (n : Nat) (f : Team → Team) : (s.modTeam n f).g = s.g := by unfold State.modTeam; split <;> rfl
@[simp] theorem modTeam_gid (s : State) (n : Nat) (f : Team → Team) : (s.modTeam n f).gid = s.gid := by unfold State.modTeam; split <;> rfl
@[simp] theorem modTeam_isec (s : State) (n : Nat) (f : Team → Team) : (s.modTeam n f).isec = s.isec := by unfold State.modTeam; split <;> rfl
@[simp] theorem modTeam_idx (s : State) (n : Nat) (f : Team → Team) : (s.modTeam n f).idx = s.idx := by unfold State.modTeam; split <;> rfl
@[simp] theorem modTeam_subj (s : State) (n : Nat) (f : Team → Team) : (s.modTeam n f).subj = s.subj := by unfold State.modTeam; split <;> rfl
@[simp] theorem modTeam_pkt (s : State) (n : Nat) (f : Team → Team) : (s.modTeam n f).pkt = s.pkt := by unfold State.modTeam; split <;> rfl
@[simp] theorem modTeam_gangs (s : State) (n : Nat) (f : Team → Team) : (s.modTeam n f).gangs = s.gangs := by unfold State.modTeam; split <;> rfl
@[simp] theorem modTeam_cores (s : State) (n : Nat) (f : Team → Team) : (s.modTeam n f).cores = s.cores := by unfold State.modTeam; split <;> rfl
@[simp] theorem modTeam_parts (s : State) (n : Nat) (f : Team → Team) : (s.modTeam n f).parts = s.parts := by unfold State.modTeam; split <;> rfl
@[simp] theorem modTeam_images (s : State) (n : Nat) (f : Team → Team) : (s.modTeam n f).images = s.images := by unfold State.modTeam; split <;> rfl
@[simp] theorem modTeam_stealing (s : State) (n : Nat) (f : Team → Team) : (s.modTeam n f).stealing = s.stealing := by unfold State.modTeam; split <;> rfl
@[simp] theorem modTeam_granted (s : State) (n : Nat) (f : Team → Team) : (s.modTeam n f).granted = s.granted := by unfold State.modTeam; split <;> rfl
@[simp] theorem modTeam_graphTurn (s : State) (n : Nat) (f : Team → Team) : (s.modTeam n f).graphTurn = s.graphTurn := by unfold State.modTeam; split <;> rfl
@[simp] theorem modTeam_ctxs (s : State) (n : Nat) (f : Team → Team) : (s.modTeam n f).ctxs = s.ctxs := by unfold State.modTeam; split <;> rfl
@[simp] theorem modTeam_queues (s : State) (n : Nat) (f : Team → Team) : (s.modTeam n f).queues = s.queues := by unfold State.modTeam; split <;> rfl
@[simp] theorem modTeam_launches (s : State) (n : Nat) (f : Team → Team) : (s.modTeam n f).launches = s.launches := by unfold State.modTeam; split <;> rfl
@[simp] theorem modTeam_pkg (s : State) (n : Nat) (f : Team → Team) : (s.modTeam n f).pkg = s.pkg := by unfold State.modTeam; split <;> rfl
@[simp] theorem modTeam_owl (s : State) (n : Nat) (f : Team → Team) : (s.modTeam n f).owl = s.owl := by unfold State.modTeam; split <;> rfl
@[simp] theorem modTeam_mem (s : State) (n : Nat) (f : Team → Team) : (s.modTeam n f).mem = s.mem := by unfold State.modTeam; split <;> rfl
@[simp] theorem modTeam_ind (s : State) (n : Nat) (f : Team → Team) : (s.modTeam n f).ind = s.ind := by unfold State.modTeam; split <;> rfl
@[simp] theorem modTeam_tableBase (s : State) (n : Nat) (f : Team → Team) : (s.modTeam n f).tableBase = s.tableBase := by unfold State.modTeam; split <;> rfl
@[simp] theorem modTeam_homes (s : State) (n : Nat) (f : Team → Team) : (s.modTeam n f).homes = s.homes := by unfold State.modTeam; split <;> rfl
@[simp] theorem modTeam_hints (s : State) (n : Nat) (f : Team → Team) : (s.modTeam n f).hints = s.hints := by unfold State.modTeam; split <;> rfl
@[simp] theorem modTeam_dir (s : State) (n : Nat) (f : Team → Team) : (s.modTeam n f).dir = s.dir := by unfold State.modTeam; split <;> rfl
@[simp] theorem modTeam_dirUse (s : State) (n : Nat) (f : Team → Team) : (s.modTeam n f).dirUse = s.dirUse := by unfold State.modTeam; split <;> rfl
@[simp] theorem modTeam_entries (s : State) (n : Nat) (f : Team → Team) : (s.modTeam n f).entries = s.entries := by unfold State.modTeam; split <;> rfl
@[simp] theorem modTeam_dies (s : State) (n : Nat) (f : Team → Team) : (s.modTeam n f).dies = s.dies := by unfold State.modTeam; split <;> rfl
@[simp] theorem modTeam_moves (s : State) (n : Nat) (f : Team → Team) : (s.modTeam n f).moves = s.moves := by unfold State.modTeam; split <;> rfl
@[simp] theorem modTeam_pinned (s : State) (n : Nat) (f : Team → Team) : (s.modTeam n f).pinned = s.pinned := by unfold State.modTeam; split <;> rfl
@[simp] theorem modTeam_samples (s : State) (n : Nat) (f : Team → Team) : (s.modTeam n f).samples = s.samples := by unfold State.modTeam; split <;> rfl
@[simp] theorem modTeam_reqCount (s : State) (n : Nat) (f : Team → Team) : (s.modTeam n f).reqCount = s.reqCount := by unfold State.modTeam; split <;> rfl
@[simp] theorem modTeam_lostLines (s : State) (n : Nat) (f : Team → Team) : (s.modTeam n f).lostLines = s.lostLines := by unfold State.modTeam; split <;> rfl
@[simp] theorem modTeam_lostPages (s : State) (n : Nat) (f : Team → Team) : (s.modTeam n f).lostPages = s.lostPages := by unfold State.modTeam; split <;> rfl
@[simp] theorem modTeam_corrected (s : State) (n : Nat) (f : Team → Team) : (s.modTeam n f).corrected = s.corrected := by unfold State.modTeam; split <;> rfl
@[simp] theorem modTeam_scrubbed (s : State) (n : Nat) (f : Team → Team) : (s.modTeam n f).scrubbed = s.scrubbed := by unfold State.modTeam; split <;> rfl
@[simp] theorem modTeam_lastOwner (s : State) (n : Nat) (f : Team → Team) : (s.modTeam n f).lastOwner = s.lastOwner := by unfold State.modTeam; split <;> rfl
@[simp] theorem modTeam_badFrames (s : State) (n : Nat) (f : Team → Team) : (s.modTeam n f).badFrames = s.badFrames := by unfold State.modTeam; split <;> rfl
@[simp] theorem modTeam_edges (s : State) (n : Nat) (f : Team → Team) : (s.modTeam n f).edges = s.edges := by unfold State.modTeam; split <;> rfl
@[simp] theorem modTeam_parkedEdges (s : State) (n : Nat) (f : Team → Team) : (s.modTeam n f).parkedEdges = s.parkedEdges := by unfold State.modTeam; split <;> rfl
@[simp] theorem modTeam_badgerOps (s : State) (n : Nat) (f : Team → Team) : (s.modTeam n f).badgerOps = s.badgerOps := by unfold State.modTeam; split <;> rfl
@[simp] theorem modTeam_spare (s : State) (n : Nat) (f : Team → Team) : (s.modTeam n f).spare = s.spare := by unfold State.modTeam; split <;> rfl
@[simp] theorem modTeam_reserve (s : State) (n : Nat) (f : Team → Team) : (s.modTeam n f).reserve = s.reserve := by unfold State.modTeam; split <;> rfl
@[simp] theorem modTeam_out (s : State) (n : Nat) (f : Team → Team) : (s.modTeam n f).out = s.out := by unfold State.modTeam; split <;> rfl
@[simp] theorem modTeam_now (s : State) (n : Nat) (f : Team → Team) : (s.modTeam n f).now = s.now := by unfold State.modTeam; split <;> rfl
@[simp] theorem modTeam_turn (s : State) (n : Nat) (f : Team → Team) : (s.modTeam n f).turn = s.turn := by unfold State.modTeam; split <;> rfl
@[simp] theorem modTeam_twice (s : State) (n : Nat) (f : Team → Team) : (s.modTeam n f).twice = s.twice := by unfold State.modTeam; split <;> rfl
@[simp] theorem modTeam_issue (s : State) (n : Nat) (f : Team → Team) : (s.modTeam n f).issue = s.issue := by unfold State.modTeam; split <;> rfl
@[simp] theorem modTeam_agenda (s : State) (n : Nat) (f : Team → Team) : (s.modTeam n f).agenda = s.agenda := by unfold State.modTeam; split <;> rfl
@[simp] theorem modTeam_free (s : State) (n : Nat) (f : Team → Team) : (s.modTeam n f).free = s.free := by unfold State.modTeam; split <;> rfl
@[simp] theorem modTeam_grantNo (s : State) (n : Nat) (f : Team → Team) : (s.modTeam n f).grantNo = s.grantNo := by unfold State.modTeam; split <;> rfl
@[simp] theorem modTeam_nextId (s : State) (n : Nat) (f : Team → Team) : (s.modTeam n f).nextId = s.nextId := by unfold State.modTeam; split <;> rfl

/-! ### `State.modLaunch` -/

@[simp] theorem modLaunch_g (s : State) (n : Nat) (f : Launch → Launch) : (s.modLaunch n f).g = s.g := by unfold State.modLaunch; split <;> rfl
@[simp] theorem modLaunch_gid (s : State) (n : Nat) (f : Launch → Launch) : (s.modLaunch n f).gid = s.gid := by unfold State.modLaunch; split <;> rfl
@[simp] theorem modLaunch_isec (s : State) (n : Nat) (f : Launch → Launch) : (s.modLaunch n f).isec = s.isec := by unfold State.modLaunch; split <;> rfl
@[simp] theorem modLaunch_idx (s : State) (n : Nat) (f : Launch → Launch) : (s.modLaunch n f).idx = s.idx := by unfold State.modLaunch; split <;> rfl
@[simp] theorem modLaunch_subj (s : State) (n : Nat) (f : Launch → Launch) : (s.modLaunch n f).subj = s.subj := by unfold State.modLaunch; split <;> rfl
@[simp] theorem modLaunch_pkt (s : State) (n : Nat) (f : Launch → Launch) : (s.modLaunch n f).pkt = s.pkt := by unfold State.modLaunch; split <;> rfl
@[simp] theorem modLaunch_gangs (s : State) (n : Nat) (f : Launch → Launch) : (s.modLaunch n f).gangs = s.gangs := by unfold State.modLaunch; split <;> rfl
@[simp] theorem modLaunch_teams (s : State) (n : Nat) (f : Launch → Launch) : (s.modLaunch n f).teams = s.teams := by unfold State.modLaunch; split <;> rfl
@[simp] theorem modLaunch_cores (s : State) (n : Nat) (f : Launch → Launch) : (s.modLaunch n f).cores = s.cores := by unfold State.modLaunch; split <;> rfl
@[simp] theorem modLaunch_parts (s : State) (n : Nat) (f : Launch → Launch) : (s.modLaunch n f).parts = s.parts := by unfold State.modLaunch; split <;> rfl
@[simp] theorem modLaunch_images (s : State) (n : Nat) (f : Launch → Launch) : (s.modLaunch n f).images = s.images := by unfold State.modLaunch; split <;> rfl
@[simp] theorem modLaunch_stealing (s : State) (n : Nat) (f : Launch → Launch) : (s.modLaunch n f).stealing = s.stealing := by unfold State.modLaunch; split <;> rfl
@[simp] theorem modLaunch_granted (s : State) (n : Nat) (f : Launch → Launch) : (s.modLaunch n f).granted = s.granted := by unfold State.modLaunch; split <;> rfl
@[simp] theorem modLaunch_graphTurn (s : State) (n : Nat) (f : Launch → Launch) : (s.modLaunch n f).graphTurn = s.graphTurn := by unfold State.modLaunch; split <;> rfl
@[simp] theorem modLaunch_ctxs (s : State) (n : Nat) (f : Launch → Launch) : (s.modLaunch n f).ctxs = s.ctxs := by unfold State.modLaunch; split <;> rfl
@[simp] theorem modLaunch_queues (s : State) (n : Nat) (f : Launch → Launch) : (s.modLaunch n f).queues = s.queues := by unfold State.modLaunch; split <;> rfl
@[simp] theorem modLaunch_pkg (s : State) (n : Nat) (f : Launch → Launch) : (s.modLaunch n f).pkg = s.pkg := by unfold State.modLaunch; split <;> rfl
@[simp] theorem modLaunch_owl (s : State) (n : Nat) (f : Launch → Launch) : (s.modLaunch n f).owl = s.owl := by unfold State.modLaunch; split <;> rfl
@[simp] theorem modLaunch_mem (s : State) (n : Nat) (f : Launch → Launch) : (s.modLaunch n f).mem = s.mem := by unfold State.modLaunch; split <;> rfl
@[simp] theorem modLaunch_ind (s : State) (n : Nat) (f : Launch → Launch) : (s.modLaunch n f).ind = s.ind := by unfold State.modLaunch; split <;> rfl
@[simp] theorem modLaunch_tableBase (s : State) (n : Nat) (f : Launch → Launch) : (s.modLaunch n f).tableBase = s.tableBase := by unfold State.modLaunch; split <;> rfl
@[simp] theorem modLaunch_homes (s : State) (n : Nat) (f : Launch → Launch) : (s.modLaunch n f).homes = s.homes := by unfold State.modLaunch; split <;> rfl
@[simp] theorem modLaunch_hints (s : State) (n : Nat) (f : Launch → Launch) : (s.modLaunch n f).hints = s.hints := by unfold State.modLaunch; split <;> rfl
@[simp] theorem modLaunch_dir (s : State) (n : Nat) (f : Launch → Launch) : (s.modLaunch n f).dir = s.dir := by unfold State.modLaunch; split <;> rfl
@[simp] theorem modLaunch_dirUse (s : State) (n : Nat) (f : Launch → Launch) : (s.modLaunch n f).dirUse = s.dirUse := by unfold State.modLaunch; split <;> rfl
@[simp] theorem modLaunch_entries (s : State) (n : Nat) (f : Launch → Launch) : (s.modLaunch n f).entries = s.entries := by unfold State.modLaunch; split <;> rfl
@[simp] theorem modLaunch_dies (s : State) (n : Nat) (f : Launch → Launch) : (s.modLaunch n f).dies = s.dies := by unfold State.modLaunch; split <;> rfl
@[simp] theorem modLaunch_moves (s : State) (n : Nat) (f : Launch → Launch) : (s.modLaunch n f).moves = s.moves := by unfold State.modLaunch; split <;> rfl
@[simp] theorem modLaunch_pinned (s : State) (n : Nat) (f : Launch → Launch) : (s.modLaunch n f).pinned = s.pinned := by unfold State.modLaunch; split <;> rfl
@[simp] theorem modLaunch_samples (s : State) (n : Nat) (f : Launch → Launch) : (s.modLaunch n f).samples = s.samples := by unfold State.modLaunch; split <;> rfl
@[simp] theorem modLaunch_reqCount (s : State) (n : Nat) (f : Launch → Launch) : (s.modLaunch n f).reqCount = s.reqCount := by unfold State.modLaunch; split <;> rfl
@[simp] theorem modLaunch_lostLines (s : State) (n : Nat) (f : Launch → Launch) : (s.modLaunch n f).lostLines = s.lostLines := by unfold State.modLaunch; split <;> rfl
@[simp] theorem modLaunch_lostPages (s : State) (n : Nat) (f : Launch → Launch) : (s.modLaunch n f).lostPages = s.lostPages := by unfold State.modLaunch; split <;> rfl
@[simp] theorem modLaunch_corrected (s : State) (n : Nat) (f : Launch → Launch) : (s.modLaunch n f).corrected = s.corrected := by unfold State.modLaunch; split <;> rfl
@[simp] theorem modLaunch_scrubbed (s : State) (n : Nat) (f : Launch → Launch) : (s.modLaunch n f).scrubbed = s.scrubbed := by unfold State.modLaunch; split <;> rfl
@[simp] theorem modLaunch_lastOwner (s : State) (n : Nat) (f : Launch → Launch) : (s.modLaunch n f).lastOwner = s.lastOwner := by unfold State.modLaunch; split <;> rfl
@[simp] theorem modLaunch_badFrames (s : State) (n : Nat) (f : Launch → Launch) : (s.modLaunch n f).badFrames = s.badFrames := by unfold State.modLaunch; split <;> rfl
@[simp] theorem modLaunch_edges (s : State) (n : Nat) (f : Launch → Launch) : (s.modLaunch n f).edges = s.edges := by unfold State.modLaunch; split <;> rfl
@[simp] theorem modLaunch_parkedEdges (s : State) (n : Nat) (f : Launch → Launch) : (s.modLaunch n f).parkedEdges = s.parkedEdges := by unfold State.modLaunch; split <;> rfl
@[simp] theorem modLaunch_badgerOps (s : State) (n : Nat) (f : Launch → Launch) : (s.modLaunch n f).badgerOps = s.badgerOps := by unfold State.modLaunch; split <;> rfl
@[simp] theorem modLaunch_spare (s : State) (n : Nat) (f : Launch → Launch) : (s.modLaunch n f).spare = s.spare := by unfold State.modLaunch; split <;> rfl
@[simp] theorem modLaunch_reserve (s : State) (n : Nat) (f : Launch → Launch) : (s.modLaunch n f).reserve = s.reserve := by unfold State.modLaunch; split <;> rfl
@[simp] theorem modLaunch_out (s : State) (n : Nat) (f : Launch → Launch) : (s.modLaunch n f).out = s.out := by unfold State.modLaunch; split <;> rfl
@[simp] theorem modLaunch_now (s : State) (n : Nat) (f : Launch → Launch) : (s.modLaunch n f).now = s.now := by unfold State.modLaunch; split <;> rfl
@[simp] theorem modLaunch_turn (s : State) (n : Nat) (f : Launch → Launch) : (s.modLaunch n f).turn = s.turn := by unfold State.modLaunch; split <;> rfl
@[simp] theorem modLaunch_twice (s : State) (n : Nat) (f : Launch → Launch) : (s.modLaunch n f).twice = s.twice := by unfold State.modLaunch; split <;> rfl
@[simp] theorem modLaunch_issue (s : State) (n : Nat) (f : Launch → Launch) : (s.modLaunch n f).issue = s.issue := by unfold State.modLaunch; split <;> rfl
@[simp] theorem modLaunch_agenda (s : State) (n : Nat) (f : Launch → Launch) : (s.modLaunch n f).agenda = s.agenda := by unfold State.modLaunch; split <;> rfl
@[simp] theorem modLaunch_free (s : State) (n : Nat) (f : Launch → Launch) : (s.modLaunch n f).free = s.free := by unfold State.modLaunch; split <;> rfl
@[simp] theorem modLaunch_grantNo (s : State) (n : Nat) (f : Launch → Launch) : (s.modLaunch n f).grantNo = s.grantNo := by unfold State.modLaunch; split <;> rfl
@[simp] theorem modLaunch_nextId (s : State) (n : Nat) (f : Launch → Launch) : (s.modLaunch n f).nextId = s.nextId := by unfold State.modLaunch; split <;> rfl

/-! ### `State.modGang` -/

@[simp] theorem modGang_gid (s : State) (n : Nat) (f : Gang → Gang) : (s.modGang n f).gid = s.gid := by unfold State.modGang; split <;> (try split) <;> rfl
@[simp] theorem modGang_isec (s : State) (n : Nat) (f : Gang → Gang) : (s.modGang n f).isec = s.isec := by unfold State.modGang; split <;> (try split) <;> rfl
@[simp] theorem modGang_idx (s : State) (n : Nat) (f : Gang → Gang) : (s.modGang n f).idx = s.idx := by unfold State.modGang; split <;> (try split) <;> rfl
@[simp] theorem modGang_subj (s : State) (n : Nat) (f : Gang → Gang) : (s.modGang n f).subj = s.subj := by unfold State.modGang; split <;> (try split) <;> rfl
@[simp] theorem modGang_pkt (s : State) (n : Nat) (f : Gang → Gang) : (s.modGang n f).pkt = s.pkt := by unfold State.modGang; split <;> (try split) <;> rfl
@[simp] theorem modGang_teams (s : State) (n : Nat) (f : Gang → Gang) : (s.modGang n f).teams = s.teams := by unfold State.modGang; split <;> (try split) <;> rfl
@[simp] theorem modGang_cores (s : State) (n : Nat) (f : Gang → Gang) : (s.modGang n f).cores = s.cores := by unfold State.modGang; split <;> (try split) <;> rfl
@[simp] theorem modGang_parts (s : State) (n : Nat) (f : Gang → Gang) : (s.modGang n f).parts = s.parts := by unfold State.modGang; split <;> (try split) <;> rfl
@[simp] theorem modGang_images (s : State) (n : Nat) (f : Gang → Gang) : (s.modGang n f).images = s.images := by unfold State.modGang; split <;> (try split) <;> rfl
@[simp] theorem modGang_stealing (s : State) (n : Nat) (f : Gang → Gang) : (s.modGang n f).stealing = s.stealing := by unfold State.modGang; split <;> (try split) <;> rfl
@[simp] theorem modGang_granted (s : State) (n : Nat) (f : Gang → Gang) : (s.modGang n f).granted = s.granted := by unfold State.modGang; split <;> (try split) <;> rfl
@[simp] theorem modGang_graphTurn (s : State) (n : Nat) (f : Gang → Gang) : (s.modGang n f).graphTurn = s.graphTurn := by unfold State.modGang; split <;> (try split) <;> rfl
@[simp] theorem modGang_ctxs (s : State) (n : Nat) (f : Gang → Gang) : (s.modGang n f).ctxs = s.ctxs := by unfold State.modGang; split <;> (try split) <;> rfl
@[simp] theorem modGang_queues (s : State) (n : Nat) (f : Gang → Gang) : (s.modGang n f).queues = s.queues := by unfold State.modGang; split <;> (try split) <;> rfl
@[simp] theorem modGang_launches (s : State) (n : Nat) (f : Gang → Gang) : (s.modGang n f).launches = s.launches := by unfold State.modGang; split <;> (try split) <;> rfl
@[simp] theorem modGang_pkg (s : State) (n : Nat) (f : Gang → Gang) : (s.modGang n f).pkg = s.pkg := by unfold State.modGang; split <;> (try split) <;> rfl
@[simp] theorem modGang_owl (s : State) (n : Nat) (f : Gang → Gang) : (s.modGang n f).owl = s.owl := by unfold State.modGang; split <;> (try split) <;> rfl
@[simp] theorem modGang_mem (s : State) (n : Nat) (f : Gang → Gang) : (s.modGang n f).mem = s.mem := by unfold State.modGang; split <;> (try split) <;> rfl
@[simp] theorem modGang_ind (s : State) (n : Nat) (f : Gang → Gang) : (s.modGang n f).ind = s.ind := by unfold State.modGang; split <;> (try split) <;> rfl
@[simp] theorem modGang_tableBase (s : State) (n : Nat) (f : Gang → Gang) : (s.modGang n f).tableBase = s.tableBase := by unfold State.modGang; split <;> (try split) <;> rfl
@[simp] theorem modGang_homes (s : State) (n : Nat) (f : Gang → Gang) : (s.modGang n f).homes = s.homes := by unfold State.modGang; split <;> (try split) <;> rfl
@[simp] theorem modGang_hints (s : State) (n : Nat) (f : Gang → Gang) : (s.modGang n f).hints = s.hints := by unfold State.modGang; split <;> (try split) <;> rfl
@[simp] theorem modGang_dir (s : State) (n : Nat) (f : Gang → Gang) : (s.modGang n f).dir = s.dir := by unfold State.modGang; split <;> (try split) <;> rfl
@[simp] theorem modGang_dirUse (s : State) (n : Nat) (f : Gang → Gang) : (s.modGang n f).dirUse = s.dirUse := by unfold State.modGang; split <;> (try split) <;> rfl
@[simp] theorem modGang_entries (s : State) (n : Nat) (f : Gang → Gang) : (s.modGang n f).entries = s.entries := by unfold State.modGang; split <;> (try split) <;> rfl
@[simp] theorem modGang_dies (s : State) (n : Nat) (f : Gang → Gang) : (s.modGang n f).dies = s.dies := by unfold State.modGang; split <;> (try split) <;> rfl
@[simp] theorem modGang_moves (s : State) (n : Nat) (f : Gang → Gang) : (s.modGang n f).moves = s.moves := by unfold State.modGang; split <;> (try split) <;> rfl
@[simp] theorem modGang_pinned (s : State) (n : Nat) (f : Gang → Gang) : (s.modGang n f).pinned = s.pinned := by unfold State.modGang; split <;> (try split) <;> rfl
@[simp] theorem modGang_samples (s : State) (n : Nat) (f : Gang → Gang) : (s.modGang n f).samples = s.samples := by unfold State.modGang; split <;> (try split) <;> rfl
@[simp] theorem modGang_reqCount (s : State) (n : Nat) (f : Gang → Gang) : (s.modGang n f).reqCount = s.reqCount := by unfold State.modGang; split <;> (try split) <;> rfl
@[simp] theorem modGang_lostLines (s : State) (n : Nat) (f : Gang → Gang) : (s.modGang n f).lostLines = s.lostLines := by unfold State.modGang; split <;> (try split) <;> rfl
@[simp] theorem modGang_lostPages (s : State) (n : Nat) (f : Gang → Gang) : (s.modGang n f).lostPages = s.lostPages := by unfold State.modGang; split <;> (try split) <;> rfl
@[simp] theorem modGang_corrected (s : State) (n : Nat) (f : Gang → Gang) : (s.modGang n f).corrected = s.corrected := by unfold State.modGang; split <;> (try split) <;> rfl
@[simp] theorem modGang_scrubbed (s : State) (n : Nat) (f : Gang → Gang) : (s.modGang n f).scrubbed = s.scrubbed := by unfold State.modGang; split <;> (try split) <;> rfl
@[simp] theorem modGang_lastOwner (s : State) (n : Nat) (f : Gang → Gang) : (s.modGang n f).lastOwner = s.lastOwner := by unfold State.modGang; split <;> (try split) <;> rfl
@[simp] theorem modGang_badFrames (s : State) (n : Nat) (f : Gang → Gang) : (s.modGang n f).badFrames = s.badFrames := by unfold State.modGang; split <;> (try split) <;> rfl
@[simp] theorem modGang_edges (s : State) (n : Nat) (f : Gang → Gang) : (s.modGang n f).edges = s.edges := by unfold State.modGang; split <;> (try split) <;> rfl
@[simp] theorem modGang_parkedEdges (s : State) (n : Nat) (f : Gang → Gang) : (s.modGang n f).parkedEdges = s.parkedEdges := by unfold State.modGang; split <;> (try split) <;> rfl
@[simp] theorem modGang_badgerOps (s : State) (n : Nat) (f : Gang → Gang) : (s.modGang n f).badgerOps = s.badgerOps := by unfold State.modGang; split <;> (try split) <;> rfl
@[simp] theorem modGang_spare (s : State) (n : Nat) (f : Gang → Gang) : (s.modGang n f).spare = s.spare := by unfold State.modGang; split <;> (try split) <;> rfl
@[simp] theorem modGang_reserve (s : State) (n : Nat) (f : Gang → Gang) : (s.modGang n f).reserve = s.reserve := by unfold State.modGang; split <;> (try split) <;> rfl
@[simp] theorem modGang_out (s : State) (n : Nat) (f : Gang → Gang) : (s.modGang n f).out = s.out := by unfold State.modGang; split <;> (try split) <;> rfl
@[simp] theorem modGang_now (s : State) (n : Nat) (f : Gang → Gang) : (s.modGang n f).now = s.now := by unfold State.modGang; split <;> (try split) <;> rfl
@[simp] theorem modGang_turn (s : State) (n : Nat) (f : Gang → Gang) : (s.modGang n f).turn = s.turn := by unfold State.modGang; split <;> (try split) <;> rfl
@[simp] theorem modGang_twice (s : State) (n : Nat) (f : Gang → Gang) : (s.modGang n f).twice = s.twice := by unfold State.modGang; split <;> (try split) <;> rfl
@[simp] theorem modGang_issue (s : State) (n : Nat) (f : Gang → Gang) : (s.modGang n f).issue = s.issue := by unfold State.modGang; split <;> (try split) <;> rfl
@[simp] theorem modGang_agenda (s : State) (n : Nat) (f : Gang → Gang) : (s.modGang n f).agenda = s.agenda := by unfold State.modGang; split <;> (try split) <;> rfl
@[simp] theorem modGang_free (s : State) (n : Nat) (f : Gang → Gang) : (s.modGang n f).free = s.free := by unfold State.modGang; split <;> (try split) <;> rfl
@[simp] theorem modGang_grantNo (s : State) (n : Nat) (f : Gang → Gang) : (s.modGang n f).grantNo = s.grantNo := by unfold State.modGang; split <;> (try split) <;> rfl
@[simp] theorem modGang_nextId (s : State) (n : Nat) (f : Gang → Gang) : (s.modGang n f).nextId = s.nextId := by unfold State.modGang; split <;> (try split) <;> rfl

/-! ### `State.focus` -/

@[simp] theorem focus_isec (s : State) (n : Nat) : (s.focus n).isec = s.isec := by unfold State.focus; split <;> (try split) <;> rfl
@[simp] theorem focus_idx (s : State) (n : Nat) : (s.focus n).idx = s.idx := by unfold State.focus; split <;> (try split) <;> rfl
@[simp] theorem focus_subj (s : State) (n : Nat) : (s.focus n).subj = s.subj := by unfold State.focus; split <;> (try split) <;> rfl
@[simp] theorem focus_pkt (s : State) (n : Nat) : (s.focus n).pkt = s.pkt := by unfold State.focus; split <;> (try split) <;> rfl
@[simp] theorem focus_teams (s : State) (n : Nat) : (s.focus n).teams = s.teams := by unfold State.focus; split <;> (try split) <;> rfl
@[simp] theorem focus_cores (s : State) (n : Nat) : (s.focus n).cores = s.cores := by unfold State.focus; split <;> (try split) <;> rfl
@[simp] theorem focus_parts (s : State) (n : Nat) : (s.focus n).parts = s.parts := by unfold State.focus; split <;> (try split) <;> rfl
@[simp] theorem focus_images (s : State) (n : Nat) : (s.focus n).images = s.images := by unfold State.focus; split <;> (try split) <;> rfl
@[simp] theorem focus_stealing (s : State) (n : Nat) : (s.focus n).stealing = s.stealing := by unfold State.focus; split <;> (try split) <;> rfl
@[simp] theorem focus_granted (s : State) (n : Nat) : (s.focus n).granted = s.granted := by unfold State.focus; split <;> (try split) <;> rfl
@[simp] theorem focus_graphTurn (s : State) (n : Nat) : (s.focus n).graphTurn = s.graphTurn := by unfold State.focus; split <;> (try split) <;> rfl
@[simp] theorem focus_ctxs (s : State) (n : Nat) : (s.focus n).ctxs = s.ctxs := by unfold State.focus; split <;> (try split) <;> rfl
@[simp] theorem focus_queues (s : State) (n : Nat) : (s.focus n).queues = s.queues := by unfold State.focus; split <;> (try split) <;> rfl
@[simp] theorem focus_launches (s : State) (n : Nat) : (s.focus n).launches = s.launches := by unfold State.focus; split <;> (try split) <;> rfl
@[simp] theorem focus_pkg (s : State) (n : Nat) : (s.focus n).pkg = s.pkg := by unfold State.focus; split <;> (try split) <;> rfl
@[simp] theorem focus_owl (s : State) (n : Nat) : (s.focus n).owl = s.owl := by unfold State.focus; split <;> (try split) <;> rfl
@[simp] theorem focus_mem (s : State) (n : Nat) : (s.focus n).mem = s.mem := by unfold State.focus; split <;> (try split) <;> rfl
@[simp] theorem focus_ind (s : State) (n : Nat) : (s.focus n).ind = s.ind := by unfold State.focus; split <;> (try split) <;> rfl
@[simp] theorem focus_tableBase (s : State) (n : Nat) : (s.focus n).tableBase = s.tableBase := by unfold State.focus; split <;> (try split) <;> rfl
@[simp] theorem focus_homes (s : State) (n : Nat) : (s.focus n).homes = s.homes := by unfold State.focus; split <;> (try split) <;> rfl
@[simp] theorem focus_hints (s : State) (n : Nat) : (s.focus n).hints = s.hints := by unfold State.focus; split <;> (try split) <;> rfl
@[simp] theorem focus_dir (s : State) (n : Nat) : (s.focus n).dir = s.dir := by unfold State.focus; split <;> (try split) <;> rfl
@[simp] theorem focus_dirUse (s : State) (n : Nat) : (s.focus n).dirUse = s.dirUse := by unfold State.focus; split <;> (try split) <;> rfl
@[simp] theorem focus_entries (s : State) (n : Nat) : (s.focus n).entries = s.entries := by unfold State.focus; split <;> (try split) <;> rfl
@[simp] theorem focus_dies (s : State) (n : Nat) : (s.focus n).dies = s.dies := by unfold State.focus; split <;> (try split) <;> rfl
@[simp] theorem focus_moves (s : State) (n : Nat) : (s.focus n).moves = s.moves := by unfold State.focus; split <;> (try split) <;> rfl
@[simp] theorem focus_pinned (s : State) (n : Nat) : (s.focus n).pinned = s.pinned := by unfold State.focus; split <;> (try split) <;> rfl
@[simp] theorem focus_samples (s : State) (n : Nat) : (s.focus n).samples = s.samples := by unfold State.focus; split <;> (try split) <;> rfl
@[simp] theorem focus_reqCount (s : State) (n : Nat) : (s.focus n).reqCount = s.reqCount := by unfold State.focus; split <;> (try split) <;> rfl
@[simp] theorem focus_lostLines (s : State) (n : Nat) : (s.focus n).lostLines = s.lostLines := by unfold State.focus; split <;> (try split) <;> rfl
@[simp] theorem focus_lostPages (s : State) (n : Nat) : (s.focus n).lostPages = s.lostPages := by unfold State.focus; split <;> (try split) <;> rfl
@[simp] theorem focus_corrected (s : State) (n : Nat) : (s.focus n).corrected = s.corrected := by unfold State.focus; split <;> (try split) <;> rfl
@[simp] theorem focus_scrubbed (s : State) (n : Nat) : (s.focus n).scrubbed = s.scrubbed := by unfold State.focus; split <;> (try split) <;> rfl
@[simp] theorem focus_lastOwner (s : State) (n : Nat) : (s.focus n).lastOwner = s.lastOwner := by unfold State.focus; split <;> (try split) <;> rfl
@[simp] theorem focus_badFrames (s : State) (n : Nat) : (s.focus n).badFrames = s.badFrames := by unfold State.focus; split <;> (try split) <;> rfl
@[simp] theorem focus_edges (s : State) (n : Nat) : (s.focus n).edges = s.edges := by unfold State.focus; split <;> (try split) <;> rfl
@[simp] theorem focus_parkedEdges (s : State) (n : Nat) : (s.focus n).parkedEdges = s.parkedEdges := by unfold State.focus; split <;> (try split) <;> rfl
@[simp] theorem focus_badgerOps (s : State) (n : Nat) : (s.focus n).badgerOps = s.badgerOps := by unfold State.focus; split <;> (try split) <;> rfl
@[simp] theorem focus_spare (s : State) (n : Nat) : (s.focus n).spare = s.spare := by unfold State.focus; split <;> (try split) <;> rfl
@[simp] theorem focus_reserve (s : State) (n : Nat) : (s.focus n).reserve = s.reserve := by unfold State.focus; split <;> (try split) <;> rfl
@[simp] theorem focus_out (s : State) (n : Nat) : (s.focus n).out = s.out := by unfold State.focus; split <;> (try split) <;> rfl
@[simp] theorem focus_now (s : State) (n : Nat) : (s.focus n).now = s.now := by unfold State.focus; split <;> (try split) <;> rfl
@[simp] theorem focus_turn (s : State) (n : Nat) : (s.focus n).turn = s.turn := by unfold State.focus; split <;> (try split) <;> rfl
@[simp] theorem focus_twice (s : State) (n : Nat) : (s.focus n).twice = s.twice := by unfold State.focus; split <;> (try split) <;> rfl
@[simp] theorem focus_issue (s : State) (n : Nat) : (s.focus n).issue = s.issue := by unfold State.focus; split <;> (try split) <;> rfl
@[simp] theorem focus_agenda (s : State) (n : Nat) : (s.focus n).agenda = s.agenda := by unfold State.focus; split <;> (try split) <;> rfl
@[simp] theorem focus_free (s : State) (n : Nat) : (s.focus n).free = s.free := by unfold State.focus; split <;> (try split) <;> rfl
@[simp] theorem focus_grantNo (s : State) (n : Nat) : (s.focus n).grantNo = s.grantNo := by unfold State.focus; split <;> (try split) <;> rfl
@[simp] theorem focus_nextId (s : State) (n : Nat) : (s.focus n).nextId = s.nextId := by unfold State.focus; split <;> (try split) <;> rfl

end Sys2Proof.Machine
end

