-- ==== Sys2Proof/Laws/KeepsMemory.lean ====
section
/-! SUPPORT. The memory lemmas of every function that answers a state: it leaves the memory as it is (`_mem`), or it keeps the
canonical form (`_memOk`). The last of them are the meanings and `exec`. -/

namespace Sys2Proof.Machine
open Sys2Proof

def KeepsMem (s : State) (o : Out) : Prop := ∀ t, o = .next t → t.mem = s.mem
def KeepsOk (o : Out) : Prop := ∀ t, o = .next t → Memory.wf t.mem = true
@[simp] theorem KeepsMem_next (s t : State) : KeepsMem s (.next t) ↔ t.mem = s.mem := ⟨fun h => h t rfl, fun h _ e => by cases e; exact h⟩
@[simp] theorem KeepsMem_refused (s : State) (r : Refusal) : KeepsMem s (.refused r) := fun _ e => by cases e
@[simp] theorem KeepsOk_next (t : State) : KeepsOk (.next t) ↔ Memory.wf t.mem = true := ⟨fun h => h t rfl, fun h _ e => by cases e; exact h⟩
@[simp] theorem KeepsOk_refused (r : Refusal) : KeepsOk (.refused r) := fun _ e => by cases e
theorem KeepsMem.ok {s : State} {o : Out} (h : KeepsMem s o) (hm : Memory.wf s.mem = true) : KeepsOk o := fun t e => by rw [h t e]; exact hm
@[simp] theorem ite_mem (c : Prop) [Decidable c] (a b : State) : (if c then a else b).mem = if c then a.mem else b.mem := apply_ite State.mem c a b
theorem foldl_mem' {α : Type} (l : List α) (f : State → α → State) (s : State) (h : ∀ s x, (f s x).mem = s.mem) : (l.foldl f s).mem = s.mem := by
  induction l generalizing s with
  | nil => rfl
  | cons x r ih => simp [ih, h]
theorem foldl_memOk' {α : Type} (l : List α) (f : State → α → State) (s : State) (hm : Memory.wf s.mem = true) (h : ∀ s x, Memory.wf s.mem = true → Memory.wf (f s x).mem = true) : Memory.wf (l.foldl f s).mem = true := by
  induction l generalizing s with
  | nil => exact hm
  | cons x r ih => exact ih _ (h s x hm)
def FoldMem {α : Type} (f : State → α → State) : Prop := ∀ s x, (f s x).mem = s.mem
@[simp] theorem FoldMem_iff {α : Type} (f : State → α → State) : FoldMem f ↔ ∀ s x, (f s x).mem = s.mem := Iff.rfl
@[simp] theorem foldl_mem {α : Type} (l : List α) (f : State → α → State) (s : State) (h : FoldMem f) : (l.foldl f s).mem = s.mem := foldl_mem' l f s h
def FoldOk {α : Type} (f : State → α → State) : Prop := ∀ s x, Memory.wf s.mem = true → Memory.wf (f s x).mem = true
@[simp] theorem FoldOk_iff {α : Type} (f : State → α → State) : FoldOk f ↔ ∀ s x, Memory.wf s.mem = true → Memory.wf (f s x).mem = true := Iff.rfl
@[simp] theorem foldl_memOk {α : Type} (l : List α) (f : State → α → State) (s : State) (hm : Memory.wf s.mem = true) (h : FoldOk f) : Memory.wf (l.foldl f s).mem = true := foldl_memOk' l f s hm h
theorem foldl_pair_memOk {α β : Type} (l : List α) (f : β × State → α → β × State) (x : β × State) (hm : Memory.wf x.2.mem = true) (h : ∀ x a, Memory.wf x.2.mem = true → Memory.wf (f x a).2.mem = true) : Memory.wf (l.foldl f x).2.mem = true := by
  induction l generalizing x with
  | nil => exact hm
  | cons a r ih => exact ih _ (h x a hm)
def OutFn (k : State → Out) : Prop := ∀ s, Memory.wf s.mem = true → KeepsOk (k s)
@[simp] theorem OutFn_iff (k : State → Out) : OutFn k ↔ ∀ s, Memory.wf s.mem = true → KeepsOk (k s) := Iff.rfl
def StFn (k : State → State) : Prop := ∀ s, Memory.wf s.mem = true → Memory.wf (k s).mem = true
@[simp] theorem StFn_iff (k : State → State) : StFn k ↔ ∀ s, Memory.wf s.mem = true → Memory.wf (k s).mem = true := Iff.rfl
def StFn1 {α : Type} (k : α → State → State) : Prop := ∀ a s, Memory.wf s.mem = true → Memory.wf (k a s).mem = true
@[simp] theorem StFn1_iff {α : Type} (k : α → State → State) : StFn1 k ↔ ∀ a s, Memory.wf s.mem = true → Memory.wf (k a s).mem = true := Iff.rfl
def StFn2 {α β : Type} (k : α → β → State → State) : Prop := ∀ a b s, Memory.wf s.mem = true → Memory.wf (k a b s).mem = true
@[simp] theorem StFn2_iff {α β : Type} (k : α → β → State → State) : StFn2 k ↔ ∀ a b s, Memory.wf s.mem = true → Memory.wf (k a b s).mem = true := Iff.rfl
def StFn3 {α β γ : Type} (k : α → β → γ → State → State) : Prop := ∀ a b c s, Memory.wf s.mem = true → Memory.wf (k a b c s).mem = true
@[simp] theorem StFn3_iff {α β γ : Type} (k : α → β → γ → State → State) : StFn3 k ↔ ∀ a b c s, Memory.wf s.mem = true → Memory.wf (k a b c s).mem = true := Iff.rfl
def OutFn2 {α β : Type} (k : α → β → State → Out) : Prop := ∀ a b s, Memory.wf s.mem = true → KeepsOk (k a b s)
@[simp] theorem OutFn2_iff {α β : Type} (k : α → β → State → Out) : OutFn2 k ↔ ∀ a b s, Memory.wf s.mem = true → KeepsOk (k a b s) := Iff.rfl
def AccFn (k : State → Opnd → List (Nat × List Place) → Out) : Prop := ∀ s o ls, Memory.wf s.mem = true → KeepsOk (k s o ls)
@[simp] theorem AccFn_iff (k : State → Opnd → List (Nat × List Place) → Out) : AccFn k ↔ ∀ s o ls, Memory.wf s.mem = true → KeepsOk (k s o ls) := Iff.rfl
def PairFn (k : State → Nat × State) : Prop := ∀ s, Memory.wf s.mem = true → Memory.wf (k s).2.mem = true
@[simp] theorem PairFn_iff (k : State → Nat × State) : PairFn k ↔ ∀ s, Memory.wf s.mem = true → Memory.wf (k s).2.mem = true := Iff.rfl
@[simp] theorem KeepsOk_ite (c : Prop) [Decidable c] (a b : Out) : KeepsOk (if c then a else b) ↔ if c then KeepsOk a else KeepsOk b := by split <;> rfl
@[simp] theorem wf_ite (c : Prop) [Decidable c] (a b : List Host.Cell) (ha : Memory.wf a = true) (hb : Memory.wf b = true) : Memory.wf (if c then a else b) = true := by split <;> assumption

@[simp] theorem State.focus_mem (s : State) (n : Nat) : (State.focus s n).mem = s.mem := by
  unfold State.focus
  (repeat' split) <;> simp [*]

@[simp] theorem State.atIssue_mem (s : State) (r : IssueRef) : (State.atIssue s r).2.mem = s.mem := by
  unfold State.atIssue
  dsimp only
  (repeat' split) <;> simp [*]

@[simp] theorem State.focusOn_mem (s : State) (x1 : Subject) : (State.focusOn s x1).mem = s.mem := by
  unfold State.focusOn
  (repeat' split) <;> simp [*]

@[simp] theorem State.tick_mem (s : State) : (State.tick s).mem = s.mem := by
  unfold State.tick
  (repeat' split) <;> simp [*]

@[simp] theorem State.tickAgain_mem (s : State) : (State.tickAgain s).mem = s.mem := by
  unfold State.tickAgain
  (repeat' split) <;> simp [*]

@[simp] theorem State.nextWork_mem (s : State) : (State.nextWork s).2.mem = s.mem := by
  unfold State.nextWork
  dsimp only
  (repeat' split) <;> simp [*]

@[simp] theorem State.setBlk_mem (s : State) (b : Blk) : (State.setBlk s b).mem = s.mem := by
  unfold State.setBlk
  (repeat' split) <;> simp [*]

@[simp] theorem State.modCore_mem (s : State) (n : Nat) (f : Core → Core) : (State.modCore s n f).mem = s.mem := by
  unfold State.modCore
  (repeat' split) <;> simp [*]

@[simp] theorem State.touchLine_mem (s : State) (line : Nat) (dirty : Bool) : (State.touchLine s line dirty).mem = s.mem := by
  unfold State.touchLine
  (repeat' split) <;> simp [*]

@[simp] theorem State.issuedNow_mem (s : State) : (State.issuedNow s).mem = s.mem := by
  unfold State.issuedNow
  (repeat' split) <;> simp [*]

@[simp] theorem State.offCore_mem (s : State) (subj : Subject) (ev : Instr) : (State.offCore s subj ev).mem = s.mem := by
  unfold State.offCore
  (repeat' split) <;> simp [*]

@[simp] theorem execRd_mem (f : Form) (r : Reg) (s : State) : KeepsMem s (execRd f r s) := by
  unfold execRd
  (repeat' split) <;> simp [*]

@[simp] theorem execRd_memOk (f : Form) (r : Reg) (s : State) (hm : Memory.wf s.mem = true) : KeepsOk (execRd f r s) := (execRd_mem f r s).ok hm

@[simp] theorem depart_mem (f : Form) (i : Instr) (s : State) : KeepsMem s (depart f i s) := by
  unfold depart
  (repeat' split) <;> simp [*]

@[simp] theorem depart_memOk (f : Form) (i : Instr) (s : State) (hm : Memory.wf s.mem = true) : KeepsOk (depart f i s) := (depart_mem f i s).ok hm

@[simp] theorem execWr_mem (f : Form) (r : Reg) (s : State) : KeepsMem s (execWr f r s) := by
  unfold execWr
  (repeat' split) <;> simp [*]

@[simp] theorem execWr_memOk (f : Form) (r : Reg) (s : State) (hm : Memory.wf s.mem = true) : KeepsOk (execWr f r s) := (execWr_mem f r s).ok hm

@[simp] theorem compute_mem (f : Form) (l : Nat × Nat) (res : Env → Opnd → Tok × BitVec 5) (s : State) : KeepsMem s (compute f l res s) := by
  unfold compute
  (repeat' split) <;> simp [*]

@[simp] theorem compute_memOk (f : Form) (l : Nat × Nat) (res : Env → Opnd → Tok × BitVec 5) (s : State) (hm : Memory.wf s.mem = true) : KeepsOk (compute f l res s) := (compute_mem f l res s).ok hm

@[simp] theorem execMov_mem (f : Form) (s : State) : KeepsMem s (execMov f s) := by
  unfold execMov
  (repeat' split) <;> simp [*]

@[simp] theorem execMov_memOk (f : Form) (s : State) (hm : Memory.wf s.mem = true) : KeepsOk (execMov f s) := (execMov_mem f s).ok hm

@[simp] theorem execConst_mem (f : Form) (s : State) : KeepsMem s (execConst f s) := by
  unfold execConst
  (repeat' split) <;> simp [*]

@[simp] theorem execConst_memOk (f : Form) (s : State) (hm : Memory.wf s.mem = true) : KeepsOk (execConst f s) := (execConst_mem f s).ok hm

@[simp] theorem execNul_mem (f : Form) (s : State) : KeepsMem s (execNul f s) := by
  unfold execNul
  (repeat' split) <;> simp [*]

@[simp] theorem execNul_memOk (f : Form) (s : State) (hm : Memory.wf s.mem = true) : KeepsOk (execNul f s) := (execNul_mem f s).ok hm

@[simp] theorem execSel_mem (f : Form) (s : State) : KeepsMem s (execSel f s) := by
  unfold execSel
  (repeat' split) <;> simp [*]

@[simp] theorem execSel_memOk (f : Form) (s : State) (hm : Memory.wf s.mem = true) : KeepsOk (execSel f s) := (execSel_mem f s).ok hm

@[simp] theorem execLid_mem (f : Form) (k : LidKind) (s : State) : KeepsMem s (execLid f k s) := by
  unfold execLid
  (repeat' split) <;> simp [*]

@[simp] theorem execLid_memOk (f : Form) (k : LidKind) (s : State) (hm : Memory.wf s.mem = true) : KeepsOk (execLid f k s) := (execLid_mem f k s).ok hm

@[simp] theorem execBr_mem (f : Form) (d : W32) (s : State) : KeepsMem s (execBr f d s) := by
  unfold execBr
  (repeat' split) <;> simp [*]

@[simp] theorem execBr_memOk (f : Form) (d : W32) (s : State) (hm : Memory.wf s.mem = true) : KeepsOk (execBr f d s) := (execBr_mem f d s).ok hm

@[simp] theorem execBl_mem (f : Form) (d : W32) (s : State) : KeepsMem s (execBl f d s) := by
  unfold execBl
  (repeat' split) <;> simp [*]

@[simp] theorem execBl_memOk (f : Form) (d : W32) (s : State) (hm : Memory.wf s.mem = true) : KeepsOk (execBl f d s) := (execBl_mem f d s).ok hm

@[simp] theorem State.withdraw_mem (s : State) : (State.withdraw s).mem = s.mem := by
  unfold State.withdraw
  (repeat' split) <;> simp [*]

@[simp] theorem State.later_mem (s : State) (delay : Nat) (subj : Subject) (ev : Instr) : (State.later s delay subj ev).mem = s.mem := by
  unfold State.later
  (repeat' split) <;> simp [*]

@[simp] theorem State.soon_mem (s : State) (subj : Subject) (ev : Instr) : (State.soon s subj ev).mem = s.mem := by
  unfold State.soon
  (repeat' split) <;> simp [*]

@[simp] theorem State.mapping_mem (s : State) (ctx : Nat) (va : Nat) : (State.mapping s ctx va).2.mem = s.mem := by
  unfold State.mapping
  dsimp only
  (repeat' split) <;> simp [*]

@[simp] theorem State.memCells_memOk (s : State) (l : List (Nat × Byte)) (hm : Memory.wf s.mem = true) : Memory.wf (s.memCells l).mem = true := by
  induction l generalizing s with
  | nil => exact hm
  | cons p r ih => exact ih _ (memSet_wf _ _ hm)

@[simp] theorem State.modTeam_mem (s : State) (n : Nat) (f : Team → Team) : (State.modTeam s n f).mem = s.mem := by
  unfold State.modTeam
  (repeat' split) <;> simp [*]

@[simp] theorem State.yieldCopy_memOk (s : State) (line : Nat) (keep : Bool) (x : Nat × Region × Nat) (hm : Memory.wf s.mem = true) : Memory.wf (State.yieldCopy s line keep x).mem = true := by
  unfold State.yieldCopy
  (repeat' split) <;> simp [*]

@[simp] theorem State.yieldCopies_memOk (s : State) (line : Nat) (keep : Bool) (who : Nat → Nat → Bool) (hm : Memory.wf s.mem = true) : Memory.wf (State.yieldCopies s line keep who).mem = true := by
  unfold State.yieldCopies
  (repeat' split) <;> simp_all

@[simp] theorem State.dropL1_mem (s : State) (d : Nat) (line : Nat) : (State.dropL1 s d line).mem = s.mem := by
  unfold State.dropL1
  (repeat' split) <;> simp [*]

@[simp] theorem State.noteWrites_mem (s : State) (lines : List Nat) : (State.noteWrites s lines).mem = s.mem := by
  unfold State.noteWrites
  (repeat' split) <;> simp [*]

@[simp] theorem State.claimLine_memOk (s : State) (who : Nat → Nat → Bool) (line : Nat) (hm : Memory.wf s.mem = true) : Memory.wf (State.claimLine s who line).mem = true := by
  unfold State.claimLine
  (repeat' split) <;> simp [*]

@[simp] theorem State.writeCells_memOk (s : State) (cells : List (Nat × Byte)) (hm : Memory.wf s.mem = true) : Memory.wf (s.writeCells cells).mem = true :=
  State.memCells_memOk _ _ (foldl_memOk' _ _ _ hm fun s l hm => by simp [hm])

@[simp] theorem State.poolWrite_memOk (s : State) (a : Nat) (bs : List Byte) (hm : Memory.wf s.mem = true) : Memory.wf (State.poolWrite s a bs).mem = true := by
  unfold State.poolWrite
  (try dsimp only)
  (repeat' split) <;> (try simp [*])

@[simp] theorem State.orLeaf_memOk (s : State) (l : Leaf) (m : Nat) (hm : Memory.wf s.mem = true) : Memory.wf (State.orLeaf s l m).mem = true := by
  unfold State.orLeaf
  (repeat' split) <;> simp [*]

@[simp] theorem State.modDie_mem (s : State) (d : Nat) (f : DieSt → DieSt) : (State.modDie s d f).mem = s.mem := by
  unfold State.modDie
  (repeat' split) <;> simp [*]

@[simp] theorem State.keepTables_mem (s : State) (ctx : Nat) (va : Nat) : (State.keepTables s ctx va).mem = s.mem := by
  unfold State.keepTables
  (repeat' split) <;> simp [*]

@[simp] theorem State.keepLeaf_mem (s : State) (ctx : Nat) (va : Nat) (l : Leaf) (entry : Nat) : (State.keepLeaf s ctx va l entry).mem = s.mem := by
  unfold State.keepLeaf
  (repeat' split) <;> simp [*]

@[simp] theorem State.translate_memOk (s : State) (ctx : Nat) (va : Nat) (a : Acc) (hm : Memory.wf s.mem = true) : Memory.wf (State.translate s ctx va a).2.mem = true := by
  unfold State.translate
  dsimp only
  (repeat' split) <;> simp [*]

@[simp] theorem State.translateFrom_memOk (s : State) (ctx : Nat) (a : Acc) (n va : Nat) (prev : Option Nat) (hm : Memory.wf s.mem = true) :
    Memory.wf (s.translateFrom ctx a n va prev).2.mem = true := by
  induction n generalizing s va prev with
  | zero => exact hm
  | succ n ih =>
    unfold State.translateFrom
    have hr : Memory.wf (match prev with
      | some p => if va % 2 ^ 17 = 0 then s.translate ctx va a else (.ok (p + 1), s)
      | none => s.translate ctx va a).2.mem = true := by
      (repeat' split) <;> simp [hm]
    dsimp only
    split
    · exact hr
    · exact ih _ _ _ hr

@[simp] theorem State.translateRun_memOk (s : State) (ctx : Nat) (va : Nat) (a : Acc) (n : Nat) (hm : Memory.wf s.mem = true) : Memory.wf (State.translateRun s ctx va a n).2.mem = true := by
  unfold State.translateRun
  (repeat' split) <;> simp [*]

@[simp] theorem State.readAt_mem (s : State) (va : Nat) (ps : List Nat) : (State.readAt s va ps).2.mem = s.mem := by
  unfold State.readAt
  (repeat' split) <;> simp [*]

@[simp] theorem State.readVirt_memOk (s : State) (ctx : Nat) (va : Nat) (n : Nat) (a : Acc) (hm : Memory.wf s.mem = true) : Memory.wf (State.readVirt s ctx va n a).2.mem = true := by
  unfold State.readVirt
  dsimp only
  (repeat' split) <;> simp [*]

@[simp] theorem State.clearLost_mem (s : State) (as : List Nat) : (State.clearLost s as).mem = s.mem := by
  unfold State.clearLost
  (repeat' split) <;> simp [*]

@[simp] theorem State.writeAt_memOk (s : State) (va : Nat) (ps : List Nat) (bs : List Byte) (hm : Memory.wf s.mem = true) : Memory.wf (State.writeAt s va ps bs).2.mem = true := by
  unfold State.writeAt
  (repeat' split) <;> simp [*]

@[simp] theorem State.writeVirt_memOk (s : State) (ctx : Nat) (va : Nat) (bs : List Byte) (a : Acc) (hm : Memory.wf s.mem = true) : Memory.wf (State.writeVirt s ctx va bs a).2.mem = true := by
  unfold State.writeVirt
  dsimp only
  (repeat' split) <;> simp [*]

@[simp] theorem State.setArea_memOk (s : State) (ctx : Nat) (t : Trace) (k : Nat) (x : Nat) (hm : Memory.wf s.mem = true) : Memory.wf (State.setArea s ctx t k x).mem = true := by
  unfold State.setArea
  (repeat' split) <;> simp [*]

@[simp] theorem State.putRecord_memOk (s : State) (ctx : Nat) (t : Trace) (room : Nat) (bs : List Byte) (hm : Memory.wf s.mem = true) : Memory.wf (State.putRecord s ctx t room bs).mem = true := by
  unfold State.putRecord
  dsimp only
  (repeat' split) <;> simp [*]

@[simp] theorem State.traceRecord_memOk (s : State) (ctx : Nat) (bit : Nat) (type : Nat) (core : Nat) (tag : W32) (body : List Byte) (hm : Memory.wf s.mem = true) : Memory.wf (State.traceRecord s ctx bit type core tag body).mem = true := by
  unfold State.traceRecord
  (repeat' split) <;> simp [*]

@[simp] theorem State.traceFault_memOk (s : State) (hm : Memory.wf s.mem = true) : Memory.wf (State.traceFault s).mem = true := by
  unfold State.traceFault
  (repeat' split) <;> simp [*]

@[simp] theorem State.takeFault_memOk (s : State) (r : FaultRec) (addr : W64) (entry : Bool) (hm : Memory.wf s.mem = true) : Memory.wf (State.takeFault s r addr entry).mem = true := by
  unfold State.takeFault
  dsimp only
  (repeat' split) <;> simp [*]

@[simp] theorem State.raise_memOk (s : State) (r : FaultRec) (hm : Memory.wf s.mem = true) : Memory.wf (State.raise s r).mem = true := by
  unfold State.raise
  (repeat' split) <;> simp [*]

@[simp] theorem departIf_memOk (f : Form) (i : Instr) (chk : Opnd → Option FaultRec) (s : State) (hm : Memory.wf s.mem = true) : KeepsOk (departIf f i chk s) := by
  unfold departIf
  (repeat' split) <;> simp [*]

@[simp] theorem execJr_memOk (f : Form) (s : State) (hm : Memory.wf s.mem = true) : KeepsOk (execJr f s) := by
  unfold execJr
  (repeat' split) <;> simp [*]

@[simp] theorem execRegang_memOk (f : Form) (d : W32) (s : State) (hm : Memory.wf s.mem = true) : KeepsOk (execRegang f d s) := by
  unfold execRegang
  (repeat' split) <;> simp [*]

@[simp] theorem execExit_memOk (f : Form) (s : State) (hm : Memory.wf s.mem = true) : KeepsOk (execExit f s) := by
  unfold execExit
  (repeat' split) <;> simp [*]

@[simp] theorem execYield_mem (f : Form) (s : State) : KeepsMem s (execYield f s) := by
  unfold execYield
  (repeat' split) <;> simp [*]

@[simp] theorem execYield_memOk (f : Form) (s : State) (hm : Memory.wf s.mem = true) : KeepsOk (execYield f s) := (execYield_mem f s).ok hm

@[simp] theorem execRquota_memOk (f : Form) (s : State) (hm : Memory.wf s.mem = true) : KeepsOk (execRquota f s) := by
  unfold execRquota
  dsimp only
  (repeat' split) <;> simp [*]

@[simp] theorem execSpawn_memOk (f : Form) (d : W32) (s : State) (hm : Memory.wf s.mem = true) : KeepsOk (execSpawn f d s) := by
  unfold execSpawn
  (repeat' split) <;> simp [*]

@[simp] theorem execEnq_memOk (f : Form) (s : State) (hm : Memory.wf s.mem = true) : KeepsOk (execEnq f s) := by
  unfold execEnq
  (repeat' split) <;> simp [*]

@[simp] theorem deliverReply_mem (i : Instr) (x : Lanes) (s : State) : (deliverReply i x s).mem = s.mem := by
  unfold deliverReply
  (repeat' split) <;> simp [*]

@[simp] theorem nullReply_mem (f : Form) (pair : Bool) (cls : TokClass) (s : State) : KeepsMem s (nullReply f pair cls s) := by
  unfold nullReply
  (repeat' split) <;> simp [*]

@[simp] theorem nullReply_memOk (f : Form) (pair : Bool) (cls : TokClass) (s : State) (hm : Memory.wf s.mem = true) : KeepsOk (nullReply f pair cls s) := (nullReply_mem f pair cls s).ok hm

@[simp] theorem State.checkAddr_memOk (s : State) (a : W64) (align : Nat) (write : Bool) (m : Mask) (hm : Memory.wf s.mem = true) : Memory.wf (State.checkAddr s a align write m).2.mem = true := by
  unfold State.checkAddr
  dsimp only
  (repeat' split) <;> simp [*]

@[simp] theorem State.sendRequest_mem (s : State) (line : Nat) (ev : Instr) : (State.sendRequest s line ev).mem = s.mem := by
  unfold State.sendRequest
  (repeat' split) <;> simp [*]

@[simp] theorem execChunk_memOk (f : Form) (s : State) (hm : Memory.wf s.mem = true) : KeepsOk (execChunk f s) := by
  unfold execChunk
  dsimp only
  (repeat' split) <;> simp [*]

@[simp] theorem State.holdNulls_mem (s : State) (m : Mask) : (State.holdNulls s m).mem = s.mem := by
  unfold State.holdNulls
  (repeat' split) <;> simp [*]

@[simp] theorem State.modGang_mem (s : State) (n : Nat) (f : Gang → Gang) : (State.modGang s n f).mem = s.mem := by
  unfold State.modGang
  (repeat' split) <;> simp [*]

@[simp] theorem State.setDir_mem (s : State) (line : Nat) (d : Dir) : (State.setDir s line d).mem = s.mem := by
  unfold State.setDir
  (repeat' split) <;> simp [*]

@[simp] theorem State.ask_mem (s : State) (d : Nat) (kind : Nat) (line : Nat) : (State.ask s d kind line).mem = s.mem := by
  unfold State.ask
  (repeat' split) <;> simp [*]

@[simp] theorem State.settleDie_mem (s : State) (d : Nat) (line : Nat) : (State.settleDie s d line).mem = s.mem := by
  unfold State.settleDie
  (repeat' split) <;> simp [*]

@[simp] theorem State.cacheIn_mem (s : State) (d : Nat) (line : Nat) (cp : BitVec 3) : (State.cacheIn s d line cp).mem = s.mem := by
  unfold State.cacheIn
  dsimp only
  (repeat' split) <;> simp [*]

@[simp] theorem State.snoopIn_memOk (s : State) (d : Nat) (line : Nat) (hm : Memory.wf s.mem = true) : Memory.wf (State.snoopIn s d line).mem = true := by
  unfold State.snoopIn
  dsimp only
  (repeat' split) <;> simp [*]

@[simp] theorem State.lineIn_memOk (s : State) (core : Nat) (line : Nat) (cp : BitVec 3) (hm : Memory.wf s.mem = true) : Memory.wf (State.lineIn s core line cp).mem = true := by
  unfold State.lineIn
  dsimp only
  (repeat' split) <;> simp [*]

@[simp] theorem State.drainStep_memOk (s : State) (core : Nat) (m : MergeStep) (hm : Memory.wf s.mem = true) : Memory.wf (State.drainStep s core m).mem = true := by
  unfold State.drainStep
  (repeat' split) <;> simp [*]

@[simp] theorem State.flushWhere_memOk (s : State) (core : Nat) (p : Nat → Bool) (hm : Memory.wf s.mem = true) : Memory.wf (State.flushWhere s core p).mem = true := by
  unfold State.flushWhere
  (repeat' split) <;> simp_all

@[simp] theorem State.flushCore_memOk (s : State) (core : Nat) (hm : Memory.wf s.mem = true) : Memory.wf (State.flushCore s core).mem = true := by
  unfold State.flushCore
  (repeat' split) <;> simp [*]

@[simp] theorem edgeRequest_memOk (f : Form) (i : Instr) (send : Bool) (s : State) (hm : Memory.wf s.mem = true) : KeepsOk (edgeRequest f i send s) := by
  unfold edgeRequest
  dsimp only
  (repeat' split) <;> simp [*]

@[simp] theorem execQsend_memOk (f : Form) (s : State) (hm : Memory.wf s.mem = true) : KeepsOk (execQsend f s) := by
  unfold execQsend
  (repeat' split) <;> simp [*]

@[simp] theorem execQtake_memOk (f : Form) (s : State) (hm : Memory.wf s.mem = true) : KeepsOk (execQtake f s) := by
  unfold execQtake
  (repeat' split) <;> simp [*]

@[simp] theorem intOp_mem (f : Form) (l : Nat × Nat) (v : Int → Int → Int → Int) (s : State) : KeepsMem s (intOp f l v s) := by
  unfold intOp
  (repeat' split) <;> simp [*]

@[simp] theorem intOp_memOk (f : Form) (l : Nat × Nat) (v : Int → Int → Int → Int) (s : State) (hm : Memory.wf s.mem = true) : KeepsOk (intOp f l v s) := (intOp_mem f l v s).ok hm

@[simp] theorem execAdd_mem (f : Form) (s : State) : KeepsMem s (execAdd f s) := by
  unfold execAdd
  (repeat' split) <;> simp [*]

@[simp] theorem execAdd_memOk (f : Form) (s : State) (hm : Memory.wf s.mem = true) : KeepsOk (execAdd f s) := (execAdd_mem f s).ok hm

@[simp] theorem execSub_mem (f : Form) (s : State) : KeepsMem s (execSub f s) := by
  unfold execSub
  (repeat' split) <;> simp [*]

@[simp] theorem execSub_memOk (f : Form) (s : State) (hm : Memory.wf s.mem = true) : KeepsOk (execSub f s) := (execSub_mem f s).ok hm

@[simp] theorem execMul_mem (f : Form) (s : State) : KeepsMem s (execMul f s) := by
  unfold execMul
  (repeat' split) <;> simp [*]

@[simp] theorem execMul_memOk (f : Form) (s : State) (hm : Memory.wf s.mem = true) : KeepsOk (execMul f s) := (execMul_mem f s).ok hm

@[simp] theorem execMulhi_mem (f : Form) (s : State) : KeepsMem s (execMulhi f s) := by
  unfold execMulhi
  (repeat' split) <;> simp [*]

@[simp] theorem execMulhi_memOk (f : Form) (s : State) (hm : Memory.wf s.mem = true) : KeepsOk (execMulhi f s) := (execMulhi_mem f s).ok hm

@[simp] theorem execMad_mem (f : Form) (s : State) : KeepsMem s (execMad f s) := by
  unfold execMad
  (repeat' split) <;> simp [*]

@[simp] theorem execMad_memOk (f : Form) (s : State) (hm : Memory.wf s.mem = true) : KeepsOk (execMad f s) := (execMad_mem f s).ok hm

@[simp] theorem execDiv_mem (f : Form) (s : State) : KeepsMem s (execDiv f s) := by
  unfold execDiv
  (repeat' split) <;> simp [*]

@[simp] theorem execDiv_memOk (f : Form) (s : State) (hm : Memory.wf s.mem = true) : KeepsOk (execDiv f s) := (execDiv_mem f s).ok hm

@[simp] theorem execRem_mem (f : Form) (s : State) : KeepsMem s (execRem f s) := by
  unfold execRem
  (repeat' split) <;> simp [*]

@[simp] theorem execRem_memOk (f : Form) (s : State) (hm : Memory.wf s.mem = true) : KeepsOk (execRem f s) := (execRem_mem f s).ok hm

@[simp] theorem carryOp_mem (sub : Bool) (f : Form) (s : State) : KeepsMem s (carryOp sub f s) := by
  unfold carryOp
  (repeat' split) <;> simp [*]

@[simp] theorem carryOp_memOk (sub : Bool) (f : Form) (s : State) (hm : Memory.wf s.mem = true) : KeepsOk (carryOp sub f s) := (carryOp_mem sub f s).ok hm

@[simp] theorem execAdc_mem (f : Form) (s : State) : KeepsMem s (execAdc f s) := by
  unfold execAdc
  (repeat' split) <;> simp [*]

@[simp] theorem execAdc_memOk (f : Form) (s : State) (hm : Memory.wf s.mem = true) : KeepsOk (execAdc f s) := (execAdc_mem f s).ok hm

@[simp] theorem execSbc_mem (f : Form) (s : State) : KeepsMem s (execSbc f s) := by
  unfold execSbc
  (repeat' split) <;> simp [*]

@[simp] theorem execSbc_memOk (f : Form) (s : State) (hm : Memory.wf s.mem = true) : KeepsOk (execSbc f s) := (execSbc_mem f s).ok hm

@[simp] theorem execMin_mem (f : Form) (s : State) : KeepsMem s (execMin f s) := by
  unfold execMin
  (repeat' split) <;> simp [*]

@[simp] theorem execMin_memOk (f : Form) (s : State) (hm : Memory.wf s.mem = true) : KeepsOk (execMin f s) := (execMin_mem f s).ok hm

@[simp] theorem execMax_mem (f : Form) (s : State) : KeepsMem s (execMax f s) := by
  unfold execMax
  (repeat' split) <;> simp [*]

@[simp] theorem execMax_memOk (f : Form) (s : State) (hm : Memory.wf s.mem = true) : KeepsOk (execMax f s) := (execMax_mem f s).ok hm

@[simp] theorem execAbs_mem (f : Form) (s : State) : KeepsMem s (execAbs f s) := by
  unfold execAbs
  (repeat' split) <;> simp [*]

@[simp] theorem execAbs_memOk (f : Form) (s : State) (hm : Memory.wf s.mem = true) : KeepsOk (execAbs f s) := (execAbs_mem f s).ok hm

@[simp] theorem execNeg_mem (f : Form) (s : State) : KeepsMem s (execNeg f s) := by
  unfold execNeg
  (repeat' split) <;> simp [*]

@[simp] theorem execNeg_memOk (f : Form) (s : State) (hm : Memory.wf s.mem = true) : KeepsOk (execNeg f s) := (execNeg_mem f s).ok hm

@[simp] theorem execAdr_mem (f : Form) (s : State) : KeepsMem s (execAdr f s) := by
  unfold execAdr
  (repeat' split) <;> simp [*]

@[simp] theorem execAdr_memOk (f : Form) (s : State) (hm : Memory.wf s.mem = true) : KeepsOk (execAdr f s) := (execAdr_mem f s).ok hm

@[simp] theorem execCvt_mem (f : Form) (src : Ty) (s : State) : KeepsMem s (execCvt f src s) := by
  unfold execCvt
  (repeat' split) <;> simp [*]

@[simp] theorem execCvt_memOk (f : Form) (src : Ty) (s : State) (hm : Memory.wf s.mem = true) : KeepsOk (execCvt f src s) := (execCvt_mem f src s).ok hm

@[simp] theorem patOp_mem (f : Form) (l : Nat × Nat) (v : Nat → Nat → Nat → Nat) (s : State) : KeepsMem s (patOp f l v s) := by
  unfold patOp
  (repeat' split) <;> simp [*]

@[simp] theorem patOp_memOk (f : Form) (l : Nat × Nat) (v : Nat → Nat → Nat → Nat) (s : State) (hm : Memory.wf s.mem = true) : KeepsOk (patOp f l v s) := (patOp_mem f l v s).ok hm

@[simp] theorem bitOp_mem (f : Form) (v : Nat → Nat → Nat) (s : State) : KeepsMem s (bitOp f v s) := by
  unfold bitOp
  (repeat' split) <;> simp [*]

@[simp] theorem bitOp_memOk (f : Form) (v : Nat → Nat → Nat) (s : State) (hm : Memory.wf s.mem = true) : KeepsOk (bitOp f v s) := (bitOp_mem f v s).ok hm

@[simp] theorem execAnd_mem (f : Form) (s : State) : KeepsMem s (execAnd f s) := by
  unfold execAnd
  (repeat' split) <;> simp [*]

@[simp] theorem execAnd_memOk (f : Form) (s : State) (hm : Memory.wf s.mem = true) : KeepsOk (execAnd f s) := (execAnd_mem f s).ok hm

@[simp] theorem execOr_mem (f : Form) (s : State) : KeepsMem s (execOr f s) := by
  unfold execOr
  (repeat' split) <;> simp [*]

@[simp] theorem execOr_memOk (f : Form) (s : State) (hm : Memory.wf s.mem = true) : KeepsOk (execOr f s) := (execOr_mem f s).ok hm

@[simp] theorem execXor_mem (f : Form) (s : State) : KeepsMem s (execXor f s) := by
  unfold execXor
  (repeat' split) <;> simp [*]

@[simp] theorem execXor_memOk (f : Form) (s : State) (hm : Memory.wf s.mem = true) : KeepsOk (execXor f s) := (execXor_mem f s).ok hm

@[simp] theorem execNot_mem (f : Form) (s : State) : KeepsMem s (execNot f s) := by
  unfold execNot
  (repeat' split) <;> simp [*]

@[simp] theorem execNot_memOk (f : Form) (s : State) (hm : Memory.wf s.mem = true) : KeepsOk (execNot f s) := (execNot_mem f s).ok hm

@[simp] theorem execShl_mem (f : Form) (s : State) : KeepsMem s (execShl f s) := by
  unfold execShl
  (repeat' split) <;> simp [*]

@[simp] theorem execShl_memOk (f : Form) (s : State) (hm : Memory.wf s.mem = true) : KeepsOk (execShl f s) := (execShl_mem f s).ok hm

@[simp] theorem execShr_mem (f : Form) (s : State) : KeepsMem s (execShr f s) := by
  unfold execShr
  (repeat' split) <;> simp [*]

@[simp] theorem execShr_memOk (f : Form) (s : State) (hm : Memory.wf s.mem = true) : KeepsOk (execShr f s) := (execShr_mem f s).ok hm

@[simp] theorem execSra_mem (f : Form) (s : State) : KeepsMem s (execSra f s) := by
  unfold execSra
  (repeat' split) <;> simp [*]

@[simp] theorem execSra_memOk (f : Form) (s : State) (hm : Memory.wf s.mem = true) : KeepsOk (execSra f s) := (execSra_mem f s).ok hm

@[simp] theorem execRot_mem (f : Form) (s : State) : KeepsMem s (execRot f s) := by
  unfold execRot
  (repeat' split) <;> simp [*]

@[simp] theorem execRot_memOk (f : Form) (s : State) (hm : Memory.wf s.mem = true) : KeepsOk (execRot f s) := (execRot_mem f s).ok hm

@[simp] theorem execBfx_mem (f : Form) (s : State) : KeepsMem s (execBfx f s) := by
  unfold execBfx
  (repeat' split) <;> simp [*]

@[simp] theorem execBfx_memOk (f : Form) (s : State) (hm : Memory.wf s.mem = true) : KeepsOk (execBfx f s) := (execBfx_mem f s).ok hm

@[simp] theorem execBfi_mem (f : Form) (s : State) : KeepsMem s (execBfi f s) := by
  unfold execBfi
  (repeat' split) <;> simp [*]

@[simp] theorem execBfi_memOk (f : Form) (s : State) (hm : Memory.wf s.mem = true) : KeepsOk (execBfi f s) := (execBfi_mem f s).ok hm

@[simp] theorem execPopc_mem (f : Form) (s : State) : KeepsMem s (execPopc f s) := by
  unfold execPopc
  (repeat' split) <;> simp [*]

@[simp] theorem execPopc_memOk (f : Form) (s : State) (hm : Memory.wf s.mem = true) : KeepsOk (execPopc f s) := (execPopc_mem f s).ok hm

@[simp] theorem execClz_mem (f : Form) (s : State) : KeepsMem s (execClz f s) := by
  unfold execClz
  (repeat' split) <;> simp [*]

@[simp] theorem execClz_memOk (f : Form) (s : State) (hm : Memory.wf s.mem = true) : KeepsOk (execClz f s) := (execClz_mem f s).ok hm

@[simp] theorem execCtz_mem (f : Form) (s : State) : KeepsMem s (execCtz f s) := by
  unfold execCtz
  (repeat' split) <;> simp [*]

@[simp] theorem execCtz_memOk (f : Form) (s : State) (hm : Memory.wf s.mem = true) : KeepsOk (execCtz f s) := (execCtz_mem f s).ok hm

@[simp] theorem execBrev_mem (f : Form) (s : State) : KeepsMem s (execBrev f s) := by
  unfold execBrev
  (repeat' split) <;> simp [*]

@[simp] theorem execBrev_memOk (f : Form) (s : State) (hm : Memory.wf s.mem = true) : KeepsOk (execBrev f s) := (execBrev_mem f s).ok hm

@[simp] theorem execCmp_mem (f : Form) (r : CmpRel) (s : State) : KeepsMem s (execCmp f r s) := by
  unfold execCmp
  (repeat' split) <;> simp [*]

@[simp] theorem execCmp_memOk (f : Form) (r : CmpRel) (s : State) (hm : Memory.wf s.mem = true) : KeepsOk (execCmp f r s) := (execCmp_mem f r s).ok hm

@[simp] theorem execVote_mem (f : Form) (k : VoteKind) (s : State) : KeepsMem s (execVote f k s) := by
  unfold execVote
  (repeat' split) <;> simp [*]

@[simp] theorem execVote_memOk (f : Form) (k : VoteKind) (s : State) (hm : Memory.wf s.mem = true) : KeepsOk (execVote f k s) := (execVote_mem f k s).ok hm

@[simp] theorem execShfl_mem (f : Form) (k : ShflKind) (s : State) : KeepsMem s (execShfl f k s) := by
  unfold execShfl
  (repeat' split) <;> simp [*]

@[simp] theorem execShfl_memOk (f : Form) (k : ShflKind) (s : State) (hm : Memory.wf s.mem = true) : KeepsOk (execShfl f k s) := (execShfl_mem f k s).ok hm

@[simp] theorem execRedux_mem (f : Form) (op : RedOp) (s : State) : KeepsMem s (execRedux f op s) := by
  unfold execRedux
  (repeat' split) <;> simp [*]

@[simp] theorem execRedux_memOk (f : Form) (op : RedOp) (s : State) (hm : Memory.wf s.mem = true) : KeepsOk (execRedux f op s) := (execRedux_mem f op s).ok hm

@[simp] theorem execScan_mem (f : Form) (op : RedOp) (excl : Bool) (s : State) : KeepsMem s (execScan f op excl s) := by
  unfold execScan
  (repeat' split) <;> simp [*]

@[simp] theorem execScan_memOk (f : Form) (op : RedOp) (excl : Bool) (s : State) (hm : Memory.wf s.mem = true) : KeepsOk (execScan f op excl s) := (execScan_mem f op excl s).ok hm

@[simp] theorem maskOp_mem (f : Form) (v : Mask → Mask → Mask) (s : State) : KeepsMem s (maskOp f v s) := by
  unfold maskOp
  (repeat' split) <;> simp [*]

@[simp] theorem maskOp_memOk (f : Form) (v : Mask → Mask → Mask) (s : State) (hm : Memory.wf s.mem = true) : KeepsOk (maskOp f v s) := (maskOp_mem f v s).ok hm

@[simp] theorem execKand_mem (f : Form) (s : State) : KeepsMem s (execKand f s) := by
  unfold execKand
  (repeat' split) <;> simp [*]

@[simp] theorem execKand_memOk (f : Form) (s : State) (hm : Memory.wf s.mem = true) : KeepsOk (execKand f s) := (execKand_mem f s).ok hm

@[simp] theorem execKor_mem (f : Form) (s : State) : KeepsMem s (execKor f s) := by
  unfold execKor
  (repeat' split) <;> simp [*]

@[simp] theorem execKor_memOk (f : Form) (s : State) (hm : Memory.wf s.mem = true) : KeepsOk (execKor f s) := (execKor_mem f s).ok hm

@[simp] theorem execKxor_mem (f : Form) (s : State) : KeepsMem s (execKxor f s) := by
  unfold execKxor
  (repeat' split) <;> simp [*]

@[simp] theorem execKxor_memOk (f : Form) (s : State) (hm : Memory.wf s.mem = true) : KeepsOk (execKxor f s) := (execKxor_mem f s).ok hm

@[simp] theorem execKnot_mem (f : Form) (s : State) : KeepsMem s (execKnot f s) := by
  unfold execKnot
  (repeat' split) <;> simp [*]

@[simp] theorem execKnot_memOk (f : Form) (s : State) (hm : Memory.wf s.mem = true) : KeepsOk (execKnot f s) := (execKnot_mem f s).ok hm

@[simp] theorem countOp_mem (f : Form) (v : Nat → Nat) (s : State) : KeepsMem s (countOp f v s) := by
  unfold countOp
  (repeat' split) <;> simp [*]

@[simp] theorem countOp_memOk (f : Form) (v : Nat → Nat) (s : State) (hm : Memory.wf s.mem = true) : KeepsOk (countOp f v s) := (countOp_mem f v s).ok hm

@[simp] theorem execKpop_mem (f : Form) (s : State) : KeepsMem s (execKpop f s) := by
  unfold execKpop
  (repeat' split) <;> simp [*]

@[simp] theorem execKpop_memOk (f : Form) (s : State) (hm : Memory.wf s.mem = true) : KeepsOk (execKpop f s) := (execKpop_mem f s).ok hm

@[simp] theorem execKfst_mem (f : Form) (s : State) : KeepsMem s (execKfst f s) := by
  unfold execKfst
  (repeat' split) <;> simp [*]

@[simp] theorem execKfst_memOk (f : Form) (s : State) (hm : Memory.wf s.mem = true) : KeepsOk (execKfst f s) := (execKfst_mem f s).ok hm

@[simp] theorem fpLanes_mem (f : Form) (l : Nat × Nat) (v : Env → Opnd → Nat → FRes) (s : State) : KeepsMem s (fpLanes f l v s) := by
  unfold fpLanes
  (repeat' split) <;> simp [*]

@[simp] theorem fpLanes_memOk (f : Form) (l : Nat × Nat) (v : Env → Opnd → Nat → FRes) (s : State) (hm : Memory.wf s.mem = true) : KeepsOk (fpLanes f l v s) := (fpLanes_mem f l v s).ok hm

@[simp] theorem execFadd_mem (f : Form) (s : State) : KeepsMem s (execFadd f s) := by
  unfold execFadd
  (repeat' split) <;> simp [*]

@[simp] theorem execFadd_memOk (f : Form) (s : State) (hm : Memory.wf s.mem = true) : KeepsOk (execFadd f s) := (execFadd_mem f s).ok hm

@[simp] theorem execFsub_mem (f : Form) (s : State) : KeepsMem s (execFsub f s) := by
  unfold execFsub
  (repeat' split) <;> simp [*]

@[simp] theorem execFsub_memOk (f : Form) (s : State) (hm : Memory.wf s.mem = true) : KeepsOk (execFsub f s) := (execFsub_mem f s).ok hm

@[simp] theorem execFmul_mem (f : Form) (s : State) : KeepsMem s (execFmul f s) := by
  unfold execFmul
  (repeat' split) <;> simp [*]

@[simp] theorem execFmul_memOk (f : Form) (s : State) (hm : Memory.wf s.mem = true) : KeepsOk (execFmul f s) := (execFmul_mem f s).ok hm

@[simp] theorem execFma_mem (f : Form) (s : State) : KeepsMem s (execFma f s) := by
  unfold execFma
  (repeat' split) <;> simp [*]

@[simp] theorem execFma_memOk (f : Form) (s : State) (hm : Memory.wf s.mem = true) : KeepsOk (execFma f s) := (execFma_mem f s).ok hm

@[simp] theorem execFdiv_mem (f : Form) (s : State) : KeepsMem s (execFdiv f s) := by
  unfold execFdiv
  (repeat' split) <;> simp [*]

@[simp] theorem execFdiv_memOk (f : Form) (s : State) (hm : Memory.wf s.mem = true) : KeepsOk (execFdiv f s) := (execFdiv_mem f s).ok hm

@[simp] theorem execFsqrt_mem (f : Form) (s : State) : KeepsMem s (execFsqrt f s) := by
  unfold execFsqrt
  (repeat' split) <;> simp [*]

@[simp] theorem execFsqrt_memOk (f : Form) (s : State) (hm : Memory.wf s.mem = true) : KeepsOk (execFsqrt f s) := (execFsqrt_mem f s).ok hm

@[simp] theorem execFrcp_mem (f : Form) (s : State) : KeepsMem s (execFrcp f s) := by
  unfold execFrcp
  (repeat' split) <;> simp [*]

@[simp] theorem execFrcp_memOk (f : Form) (s : State) (hm : Memory.wf s.mem = true) : KeepsOk (execFrcp f s) := (execFrcp_mem f s).ok hm

@[simp] theorem execFrsqrt_mem (f : Form) (s : State) : KeepsMem s (execFrsqrt f s) := by
  unfold execFrsqrt
  (repeat' split) <;> simp [*]

@[simp] theorem execFrsqrt_memOk (f : Form) (s : State) (hm : Memory.wf s.mem = true) : KeepsOk (execFrsqrt f s) := (execFrsqrt_mem f s).ok hm

@[simp] theorem execFmin_mem (f : Form) (s : State) : KeepsMem s (execFmin f s) := by
  unfold execFmin
  (repeat' split) <;> simp [*]

@[simp] theorem execFmin_memOk (f : Form) (s : State) (hm : Memory.wf s.mem = true) : KeepsOk (execFmin f s) := (execFmin_mem f s).ok hm

@[simp] theorem execFmax_mem (f : Form) (s : State) : KeepsMem s (execFmax f s) := by
  unfold execFmax
  (repeat' split) <;> simp [*]

@[simp] theorem execFmax_memOk (f : Form) (s : State) (hm : Memory.wf s.mem = true) : KeepsOk (execFmax f s) := (execFmax_mem f s).ok hm

@[simp] theorem execFabs_mem (f : Form) (s : State) : KeepsMem s (execFabs f s) := by
  unfold execFabs
  (repeat' split) <;> simp [*]

@[simp] theorem execFabs_memOk (f : Form) (s : State) (hm : Memory.wf s.mem = true) : KeepsOk (execFabs f s) := (execFabs_mem f s).ok hm

@[simp] theorem execFneg_mem (f : Form) (s : State) : KeepsMem s (execFneg f s) := by
  unfold execFneg
  (repeat' split) <;> simp [*]

@[simp] theorem execFneg_memOk (f : Form) (s : State) (hm : Memory.wf s.mem = true) : KeepsOk (execFneg f s) := (execFneg_mem f s).ok hm

@[simp] theorem execFcmp_mem (f : Form) (r : FCmpRel) (s : State) : KeepsMem s (execFcmp f r s) := by
  unfold execFcmp
  (repeat' split) <;> simp [*]

@[simp] theorem execFcmp_memOk (f : Form) (r : FCmpRel) (s : State) (hm : Memory.wf s.mem = true) : KeepsOk (execFcmp f r s) := (execFcmp_mem f r s).ok hm

@[simp] theorem execFclass_mem (f : Form) (s : State) : KeepsMem s (execFclass f s) := by
  unfold execFclass
  (repeat' split) <;> simp [*]

@[simp] theorem execFclass_memOk (f : Form) (s : State) (hm : Memory.wf s.mem = true) : KeepsOk (execFclass f s) := (execFclass_mem f s).ok hm

@[simp] theorem execFcvt_mem (f : Form) (src : Ty) (s : State) : KeepsMem s (execFcvt f src s) := by
  unfold execFcvt
  (repeat' split) <;> simp [*]

@[simp] theorem execFcvt_memOk (f : Form) (src : Ty) (s : State) (hm : Memory.wf s.mem = true) : KeepsOk (execFcvt f src s) := (execFcvt_mem f src s).ok hm

@[simp] theorem execFcvti_mem (f : Form) (src : Ty) (s : State) : KeepsMem s (execFcvti f src s) := by
  unfold execFcvti
  (repeat' split) <;> simp [*]

@[simp] theorem execFcvti_memOk (f : Form) (src : Ty) (s : State) (hm : Memory.wf s.mem = true) : KeepsOk (execFcvti f src s) := (execFcvti_mem f src s).ok hm

@[simp] theorem execIcvtf_mem (f : Form) (src : Ty) (s : State) : KeepsMem s (execIcvtf f src s) := by
  unfold execIcvtf
  (repeat' split) <;> simp [*]

@[simp] theorem execIcvtf_memOk (f : Form) (src : Ty) (s : State) (hm : Memory.wf s.mem = true) : KeepsOk (execIcvtf f src s) := (execIcvtf_mem f src s).ok hm

@[simp] theorem execFrnd_mem (f : Form) (s : State) : KeepsMem s (execFrnd f s) := by
  unfold execFrnd
  (repeat' split) <;> simp [*]

@[simp] theorem execFrnd_memOk (f : Form) (s : State) (hm : Memory.wf s.mem = true) : KeepsOk (execFrnd f s) := (execFrnd_mem f s).ok hm

@[simp] theorem execFldx_mem (f : Form) (s : State) : KeepsMem s (execFldx f s) := by
  unfold execFldx
  (repeat' split) <;> simp [*]

@[simp] theorem execFldx_memOk (f : Form) (s : State) (hm : Memory.wf s.mem = true) : KeepsOk (execFldx f s) := (execFldx_mem f s).ok hm

@[simp] theorem computePair_mem (f : Form) (l : Nat × Nat) (res : Env → Opnd → (Tok × Tok) × BitVec 5) (s : State) : KeepsMem s (computePair f l res s) := by
  unfold computePair
  (repeat' split) <;> simp [*]

@[simp] theorem computePair_memOk (f : Form) (l : Nat × Nat) (res : Env → Opnd → (Tok × Tok) × BitVec 5) (s : State) (hm : Memory.wf s.mem = true) : KeepsOk (computePair f l res s) := (computePair_mem f l res s).ok hm

@[simp] theorem execFfrx_mem (f : Form) (s : State) : KeepsMem s (execFfrx f s) := by
  unfold execFfrx
  (repeat' split) <;> simp [*]

@[simp] theorem execFfrx_memOk (f : Form) (s : State) (hm : Memory.wf s.mem = true) : KeepsOk (execFfrx f s) := (execFfrx_mem f s).ok hm

@[simp] theorem fpFun_mem (f : Form) (v : Rnd → FVal → FVal → FRes) (s : State) : KeepsMem s (fpFun f v s) := by
  have h : ∀ s' : State, s'.mem = s.mem → KeepsMem s (fpLanes f s.latFun
      (fun env o i => v (env.rndNo f i) (fIn f.ty (o.av i)) (fIn f.ty (o.bv i))) s') :=
    fun s' e t h => (fpLanes_mem _ _ _ _ t h).trans e
  unfold fpFun
  apply h
  split <;> rfl
@[simp] theorem fpFun_memOk (f : Form) (v : Rnd → FVal → FVal → FRes) (s : State) (hm : Memory.wf s.mem = true) : KeepsOk (fpFun f v s) :=
  (fpFun_mem f v s).ok hm

@[simp] theorem execFexp_mem (f : Form) (s : State) : KeepsMem s (execFexp f s) := by
  unfold execFexp
  (repeat' split) <;> simp [*]

@[simp] theorem execFexp_memOk (f : Form) (s : State) (hm : Memory.wf s.mem = true) : KeepsOk (execFexp f s) := (execFexp_mem f s).ok hm

@[simp] theorem execFexp2_mem (f : Form) (s : State) : KeepsMem s (execFexp2 f s) := by
  unfold execFexp2
  (repeat' split) <;> simp [*]

@[simp] theorem execFexp2_memOk (f : Form) (s : State) (hm : Memory.wf s.mem = true) : KeepsOk (execFexp2 f s) := (execFexp2_mem f s).ok hm

@[simp] theorem execFlog_mem (f : Form) (s : State) : KeepsMem s (execFlog f s) := by
  unfold execFlog
  (repeat' split) <;> simp [*]

@[simp] theorem execFlog_memOk (f : Form) (s : State) (hm : Memory.wf s.mem = true) : KeepsOk (execFlog f s) := (execFlog_mem f s).ok hm

@[simp] theorem execFlog2_mem (f : Form) (s : State) : KeepsMem s (execFlog2 f s) := by
  unfold execFlog2
  (repeat' split) <;> simp [*]

@[simp] theorem execFlog2_memOk (f : Form) (s : State) (hm : Memory.wf s.mem = true) : KeepsOk (execFlog2 f s) := (execFlog2_mem f s).ok hm

@[simp] theorem execFsin_mem (f : Form) (s : State) : KeepsMem s (execFsin f s) := by
  unfold execFsin
  (repeat' split) <;> simp [*]

@[simp] theorem execFsin_memOk (f : Form) (s : State) (hm : Memory.wf s.mem = true) : KeepsOk (execFsin f s) := (execFsin_mem f s).ok hm

@[simp] theorem execFcos_mem (f : Form) (s : State) : KeepsMem s (execFcos f s) := by
  unfold execFcos
  (repeat' split) <;> simp [*]

@[simp] theorem execFcos_memOk (f : Form) (s : State) (hm : Memory.wf s.mem = true) : KeepsOk (execFcos f s) := (execFcos_mem f s).ok hm

@[simp] theorem execFtanh_mem (f : Form) (s : State) : KeepsMem s (execFtanh f s) := by
  unfold execFtanh
  (repeat' split) <;> simp [*]

@[simp] theorem execFtanh_memOk (f : Form) (s : State) (hm : Memory.wf s.mem = true) : KeepsOk (execFtanh f s) := (execFtanh_mem f s).ok hm

@[simp] theorem execFlgst_mem (f : Form) (s : State) : KeepsMem s (execFlgst f s) := by
  unfold execFlgst
  (repeat' split) <;> simp [*]

@[simp] theorem execFlgst_memOk (f : Form) (s : State) (hm : Memory.wf s.mem = true) : KeepsOk (execFlgst f s) := (execFlgst_mem f s).ok hm

@[simp] theorem execFerf_mem (f : Form) (s : State) : KeepsMem s (execFerf f s) := by
  unfold execFerf
  (repeat' split) <;> simp [*]

@[simp] theorem execFerf_memOk (f : Form) (s : State) (hm : Memory.wf s.mem = true) : KeepsOk (execFerf f s) := (execFerf_mem f s).ok hm

@[simp] theorem execFatan2_mem (f : Form) (s : State) : KeepsMem s (execFatan2 f s) := by
  unfold execFatan2
  (repeat' split) <;> simp [*]

@[simp] theorem execFatan2_memOk (f : Form) (s : State) (hm : Memory.wf s.mem = true) : KeepsOk (execFatan2 f s) := (execFatan2_mem f s).ok hm

@[simp] theorem execFpow_mem (f : Form) (s : State) : KeepsMem s (execFpow f s) := by
  unfold execFpow
  (repeat' split) <;> simp [*]

@[simp] theorem execFpow_memOk (f : Form) (s : State) (hm : Memory.wf s.mem = true) : KeepsOk (execFpow f s) := (execFpow_mem f s).ok hm

@[simp] theorem packOp_mem (f : Form) (v : Rnd → Nat → Nat → Nat → FRes) (s : State) : KeepsMem s (packOp f v s) := by
  unfold packOp
  (repeat' split) <;> simp [*]

@[simp] theorem packOp_memOk (f : Form) (v : Rnd → Nat → Nat → Nat → FRes) (s : State) (hm : Memory.wf s.mem = true) : KeepsOk (packOp f v s) := (packOp_mem f v s).ok hm

@[simp] theorem execPfma_mem (f : Form) (s : State) : KeepsMem s (execPfma f s) := by
  unfold execPfma
  (repeat' split) <;> simp [*]

@[simp] theorem execPfma_memOk (f : Form) (s : State) (hm : Memory.wf s.mem = true) : KeepsOk (execPfma f s) := (execPfma_mem f s).ok hm

@[simp] theorem execPadd_mem (f : Form) (s : State) : KeepsMem s (execPadd f s) := by
  unfold execPadd
  (repeat' split) <;> simp [*]

@[simp] theorem execPadd_memOk (f : Form) (s : State) (hm : Memory.wf s.mem = true) : KeepsOk (execPadd f s) := (execPadd_mem f s).ok hm

@[simp] theorem execPmul_mem (f : Form) (s : State) : KeepsMem s (execPmul f s) := by
  unfold execPmul
  (repeat' split) <;> simp [*]

@[simp] theorem execPmul_memOk (f : Form) (s : State) (hm : Memory.wf s.mem = true) : KeepsOk (execPmul f s) := (execPmul_mem f s).ok hm

@[simp] theorem execPmax_mem (f : Form) (s : State) : KeepsMem s (execPmax f s) := by
  unfold execPmax
  (repeat' split) <;> simp [*]

@[simp] theorem execPmax_memOk (f : Form) (s : State) (hm : Memory.wf s.mem = true) : KeepsOk (execPmax f s) := (execPmax_mem f s).ok hm

@[simp] theorem execPcvt_mem (f : Form) (k : PcvtKind) (src : Ty) (s : State) : KeepsMem s (execPcvt f k src s) := by
  unfold execPcvt
  (repeat' split) <;> simp [*]

@[simp] theorem execPcvt_memOk (f : Form) (k : PcvtKind) (src : Ty) (s : State) (hm : Memory.wf s.mem = true) : KeepsOk (execPcvt f k src s) := (execPcvt_mem f k src s).ok hm

@[simp] theorem execPdot_mem (f : Form) (s : State) : KeepsMem s (execPdot f s) := by
  unfold execPdot
  (repeat' split) <;> simp [*]

@[simp] theorem execPdot_memOk (f : Form) (s : State) (hm : Memory.wf s.mem = true) : KeepsOk (execPdot f s) := (execPdot_mem f s).ok hm

@[simp] theorem accUpdate_memOk (f : Form) (j : Nat) (new : Opnd → Nat → Int → Option Int × BitVec 5) (clears : Bool) (s : State) (hm : Memory.wf s.mem = true) :
    KeepsOk (accUpdate f j new clears s) := by
  unfold accUpdate
  split
  · simpa using hm
  · extract_lets
    split
    · simpa using hm
    · split
      · simp [hm]
      · refine (KeepsOk_next _).mpr ?_
        simpa only [modCore_mem, setBlk_mem] using hm

@[simp] theorem execXclr_memOk (f : Form) (j : BitVec 2) (s : State) (hm : Memory.wf s.mem = true) : KeepsOk (execXclr f j s) := by
  unfold execXclr
  (repeat' split) <;> simp [*]

@[simp] theorem execXacc_memOk (f : Form) (j : BitVec 2) (s : State) (hm : Memory.wf s.mem = true) : KeepsOk (execXacc f j s) := by
  unfold execXacc
  (repeat' split) <;> simp [*]

@[simp] theorem execXadd_memOk (f : Form) (j : BitVec 2) (s : State) (hm : Memory.wf s.mem = true) : KeepsOk (execXadd f j s) := by
  unfold execXadd
  (repeat' split) <;> simp [*]

@[simp] theorem accRead_memOk (f : Form) (j : Nat) (v : Env → Nat → Int → Bool → FRes) (s : State) (hm : Memory.wf s.mem = true) : KeepsOk (accRead f j v s) := by
  unfold accRead
  dsimp only
  (repeat' split) <;> simp [*]

@[simp] theorem execXrnd_memOk (f : Form) (j : BitVec 2) (s : State) (hm : Memory.wf s.mem = true) : KeepsOk (execXrnd f j s) := by
  unfold execXrnd
  (repeat' split) <;> simp [*]

@[simp] theorem execXsgn_memOk (f : Form) (j : BitVec 2) (s : State) (hm : Memory.wf s.mem = true) : KeepsOk (execXsgn f j s) := by
  unfold execXsgn
  (repeat' split) <;> simp [*]

@[simp] theorem State.ownLine_memOk (s : State) (team : Nat) (num : Nat) (line : Nat) (hm : Memory.wf s.mem = true) : Memory.wf (State.ownLine s team num line).mem = true := by
  unfold State.ownLine
  (repeat' split) <;> simp [*]

@[simp] theorem State.flushLines_memOk (s : State) (core : Nat) (lines : List Nat) (hm : Memory.wf s.mem = true) : Memory.wf (State.flushLines s core lines).mem = true := by
  unfold State.flushLines
  (repeat' split) <;> simp [*]

@[simp] theorem State.fetchLine_memOk (s : State) (team : Nat) (r : Region) (k line : Nat) (write : Bool) (hm : Memory.wf s.mem = true) :
    Memory.wf (s.fetchLine team r k line write).mem = true := by
  have h := State.flushLines_memOk s (s.teamAt team).core [line] hm
  unfold State.fetchLine
  dsimp only
  split
  · exact State.ownLine_memOk _ _ _ _ (State.snoopIn_memOk _ _ _ (by simpa only [modTeam_mem] using h))
  · rw [State.ask_mem]; exact State.snoopIn_memOk _ _ _ (by simpa only [modTeam_mem] using h)

@[simp] theorem State.fillLine_memOk (s : State) (team : Nat) (r : Region) (k : Nat) (write : Bool) (hm : Memory.wf s.mem = true) :
    Memory.wf (s.fillLine team r k write).2.mem = true := by
  have h := State.translate_memOk s (s.launchAt (s.teamAt team).launch).ctx (r.va.toNat + 256 * k) { write := write, sup := s.g.sup } hm
  unfold State.fillLine
  dsimp only
  split
  · exact h
  · split
    · split
      · exact State.ownLine_memOk _ _ _ _ h
      · exact h
    · split <;> split <;>
        first | exact State.fetchLine_memOk _ _ _ _ _ _ (State.yieldCopy_memOk _ _ _ _ h) | exact State.yieldCopy_memOk _ _ _ _ h |
          exact State.fetchLine_memOk _ _ _ _ _ _ h | exact h

@[simp] theorem State.fillLines_memOk (s : State) (team num : Nat) (write : Bool) (ls : List Nat) (hm : Memory.wf s.mem = true) :
    Memory.wf (s.fillLines team num write ls).2.mem = true := by
  induction ls generalizing s with
  | nil => exact hm
  | cons l r ih =>
    unfold State.fillLines
    dsimp only
    (repeat' split) <;> simp [hm, ih]

@[simp] theorem State.fillAll_memOk (team off n : Nat) (write : Bool) (l : List Region) : ∀ (s : State) (_ : Memory.wf s.mem = true),
    Memory.wf (s.fillAll team off n write l).2.mem = true := by
  induction l with
  | nil => exact fun s hm => hm
  | cons r rest ih =>
    intro s hm
    have h : Memory.wf (s.fillLines team r.num write (r.linesAt off n)).2.mem = true := by simp [hm]
    unfold State.fillAll
    dsimp only
    split
    · exact h
    · exact ih _ h

@[simp] theorem State.stashAccess_memOk (s : State) (team : Nat) (off : Nat) (n : Nat) (write : Bool) (hm : Memory.wf s.mem = true) : Memory.wf (State.stashAccess s team off n write).2.mem = true := by
  unfold State.stashAccess
  dsimp only
  (repeat' split) <;> simp [*]

@[simp] theorem State.resolve_memOk (s : State) (sp : Space) (n : Nat) (store : Bool) (atomic : Bool) (ea : Nat) (hm : Memory.wf s.mem = true) : Memory.wf (State.resolve s sp n store atomic ea).2.mem = true := by
  unfold State.resolve
  dsimp only
  (repeat' split) <;> simp [*]

@[simp] theorem State.resolveAll_memOk (m : MemArg) (n : Nat) (store atomic aligned : Bool) (ea : Nat → Nat) (ls : List Nat) (s : State)
    (hm : Memory.wf s.mem = true) : Memory.wf (State.resolveAll m n store atomic aligned ea ls s).2.mem = true := by
  induction ls generalizing s with
  | nil => exact hm
  | cons l r ih =>
    unfold State.resolveAll
    dsimp only
    refine ih _ ?_
    split <;> simp [hm]

@[simp] theorem accesses_memOk (f : Form) (m : MemArg) (n : Nat) (store atomic aligned uni : Bool)
    (k : State → Opnd → List (Nat × List Place) → Out) (s : State) (hm : Memory.wf s.mem = true)
    (hk : AccFn k) : KeepsOk (accesses f m n store atomic aligned uni k s) := by
  unfold accesses
  dsimp only
  split
  · simp [hm]
  · split
    · simp [hm]
    · split
      · simp [hm]
      · exact hk _ _ _ (by simp [hm])

@[simp] theorem State.plainRequest_mem (s : State) (idx : Nat) : (State.plainRequest s idx).mem = s.mem := by
  unfold State.plainRequest
  (repeat' split) <;> simp [*]

@[simp] theorem State.hitLines_mem (s : State) (cp : BitVec 3) (ls : List Nat) : (State.hitLines s cp ls).mem = s.mem := by
  unfold State.hitLines
  (repeat' split) <;> simp [*]

@[simp] theorem State.laterOn_mem (s : State) (core : Nat) (delay : Nat) (subj : Subject) (ev : Instr) : (State.laterOn s core delay subj ev).mem = s.mem := by
  unfold State.laterOn
  (repeat' split) <;> simp [*]

@[simp] theorem State.laterHere_mem (s : State) (delay : Nat) (subj : Subject) (ev : Instr) : (State.laterHere s delay subj ev).mem = s.mem := by
  unfold State.laterHere
  (repeat' split) <;> simp [*]

@[simp] theorem State.lineRequest_mem (s : State) (idx : Nat) (line : Nat) (cp : BitVec 3) : (State.lineRequest s idx line cp).mem = s.mem := by
  unfold State.lineRequest
  (repeat' split) <;> simp [*]

@[simp] theorem State.requestLines_mem (s : State) (idx : Nat) (own : Bool) (cp : BitVec 3) (l : List Nat) : (s.requestLines idx own cp l).mem = s.mem := by
  induction l generalizing s with
  | nil => rfl
  | cons p r ih => unfold State.requestLines; rw [ih]; simp

@[simp] theorem State.deliverLoad_mem (s : State) (f : Form) (t : Tok) (sp : Space) (ps : List Place) (bypass : Bool) (cp : BitVec 3) : (State.deliverLoad s f t sp ps bypass cp).mem = s.mem := by
  unfold State.deliverLoad
  (try dsimp only)
  (repeat' split) <;> (try simp [*])

@[simp] theorem State.fresh_mem (s : State) : (State.fresh s).2.mem = s.mem := by
  unfold State.fresh
  (repeat' split) <;> simp [*]

@[simp] theorem State.placeSeq_mem (s : State) (lsid : Nat) : (State.placeSeq s lsid).mem = s.mem := by
  unfold State.placeSeq
  (repeat' split) <;> simp [*]

@[simp] theorem loadOp_memOk (f : Form) (m : MemArg) (aligned bypass : Bool) (mark : Option Instr) (s : State)
    (hm : Memory.wf s.mem = true) : KeepsOk (loadOp f m aligned bypass mark s) := by
  unfold loadOp
  refine accesses_memOk _ _ _ _ _ _ _ _ _ hm fun s o ls hm => ?_
  split
  · simpa using hm
  · simp [hm]

@[simp] theorem execLd_memOk (f : Form) (m : MemArg) (s : State) (hm : Memory.wf s.mem = true) : KeepsOk (execLd f m s) := by
  unfold execLd
  (repeat' split) <;> simp [*]

@[simp] theorem execLdp_memOk (f : Form) (m : MemArg) (s : State) (hm : Memory.wf s.mem = true) : KeepsOk (execLdp f m s) := by
  unfold execLdp
  (repeat' split) <;> simp [*]

@[simp] theorem storeOp_memOk (f : Form) (m : MemArg) (i : Instr) (aligned : Bool) (op : Option (BitVec 3 × Ty)) (s : State)
    (hm : Memory.wf s.mem = true) : KeepsOk (storeOp f m i aligned op s) := by
  unfold storeOp
  refine accesses_memOk _ _ _ _ _ _ _ _ _ hm fun s o ls hm => ?_
  split <;> simp [hm]

@[simp] theorem execSt_memOk (f : Form) (m : MemArg) (s : State) (hm : Memory.wf s.mem = true) : KeepsOk (execSt f m s) := by
  unfold execSt
  (repeat' split) <;> simp [*]

@[simp] theorem State.ownStash_memOk (s : State) (team : Nat) (off : Nat) (hm : Memory.wf s.mem = true) : Memory.wf (State.ownStash s team off).mem = true := by
  unfold State.ownStash
  dsimp only
  (repeat' split) <;> simp [*]

@[simp] theorem State.setPlace_memOk (s : State) (p : Place) (b : Byte) (hm : Memory.wf s.mem = true) : Memory.wf (State.setPlace s p b).mem = true := by
  unfold State.setPlace
  (repeat' split) <;> simp [*]

@[simp] theorem State.setPlaces_memOk (s : State) (l : List (Place × Byte)) (hm : Memory.wf s.mem = true) : Memory.wf (s.setPlaces l).mem = true := by
  have h := foldl_memOk' (l.filter fun x => x.1.kind != 0) (fun s x => s.setPlace x.1 x.2) _
    (foldl_memOk' (stashLines (l.map (·.1))) (fun s x => s.ownStash x.1 (256 * x.2)) s hm fun s x hm => by simp [hm]) fun s x hm => by simp [hm]
  unfold State.setPlaces
  dsimp only
  split
  · exact h
  · exact State.writeCells_memOk _ _ h

@[simp] theorem rmwSteps_memOk (n : Nat) (new : Nat → Nat → FRes × Bool) (ls : List (Nat × List Place)) (s : State)
    (hm : Memory.wf s.mem = true) : Memory.wf (rmwSteps n new ls s).2.2.2.mem = true := by
  induction ls generalizing s with
  | nil => exact hm
  | cons p r ih =>
    unfold rmwSteps
    dsimp only
    refine ih _ ?_
    split <;> simp [hm]

@[simp] theorem State.hold_mem (s : State) (x : Lanes) (m : Mask) : (State.hold s x m).mem = s.mem := by
  unfold State.hold
  (repeat' split) <;> simp [*]

@[simp] theorem State.runAhead_mem (s : State) (b : Blk) (m : MemArg) (i : Instr) (ps : List Place) : (State.runAhead s b m i ps).mem = s.mem := by
  unfold State.runAhead
  (repeat' split) <;> simp [*]

@[simp] theorem State.deliverAtomic_mem (s : State) (f : Form) (t : Tok) (sp : Space) (ps : List Place) : (State.deliverAtomic s f t sp ps).mem = s.mem := by
  unfold State.deliverAtomic
  (try dsimp only)
  (repeat' split) <;> (try simp [*])

theorem flushWhat_memOk (s : State) (b : Option Blk) (i : Instr) (c : Nat) (l : List Nat) (hm : Memory.wf s.mem = true) :
    Memory.wf (match b with | some b => if b.releasesAt i then s.flushCore c else s.flushLines c l | none => s).mem = true := by
  (repeat' split) <;> simp [hm]
@[simp] theorem atomicOp_memOk (f : Form) (m : MemArg) (i : Instr) (isCas : Bool) (new : Opnd → Nat → Nat → FRes × Bool) (s : State)
    (hm : Memory.wf s.mem = true) : KeepsOk (atomicOp f m i isCas new s) := by
  unfold atomicOp
  split
  · simpa using hm
  · split
    · simp [hm]
    · extract_lets +onlyGivenNames o n ea bad
      split
      · simp [hm]
      · split
        · simp [hm]
        · refine accesses_memOk _ _ _ _ _ _ _ _ _ hm fun s o1 ls hm => ?_
          have h := rmwSteps_memOk n (new o1) ls _ (flushWhat_memOk s s.blk? i s.g.core (linesOf (ls.flatMap (·.2))) hm)
          extract_lets +onlyGivenNames ps s0 r vs s1
          have h1 : Memory.wf s1.mem = true := h
          clear_value s1
          split
          · exact (KeepsOk_next _).mpr h1
          · exact (KeepsOk_next _).mpr (by simpa using h1)

@[simp] theorem execAtom_memOk (f : Form) (m : MemArg) (s : State) (hm : Memory.wf s.mem = true) : KeepsOk (execAtom f m s) := by
  unfold execAtom
  (repeat' split) <;> simp [*]

@[simp] theorem execCas_memOk (f : Form) (m : MemArg) (s : State) (hm : Memory.wf s.mem = true) : KeepsOk (execCas f m s) := by
  unfold execCas
  (repeat' split) <;> simp [*]

@[simp] theorem execRed_memOk (f : Form) (m : MemArg) (s : State) (hm : Memory.wf s.mem = true) : KeepsOk (execRed f m s) := by
  unfold execRed
  dsimp only
  (repeat' split) <;> simp [*]

@[simp] theorem execPref_memOk (f : Form) (m : MemArg) (s : State) (hm : Memory.wf s.mem = true) : KeepsOk (execPref f m s) := by
  unfold execPref
  split
  · simpa using hm
  · simp only [KeepsOk_next, setBlk_mem]
    refine foldl_memOk' _ _ _ hm fun s l hm => ?_
    split <;> simp [hm]

@[simp] theorem waitFor_mem (f : Form) (ok : Opnd → Bool) (s : State) : KeepsMem s (waitFor f ok s) := by
  unfold waitFor
  dsimp only
  (repeat' split) <;> simp [*]

@[simp] theorem waitFor_memOk (f : Form) (ok : Opnd → Bool) (s : State) (hm : Memory.wf s.mem = true) : KeepsOk (waitFor f ok s) := (waitFor_mem f ok s).ok hm

@[simp] theorem execFence_memOk (f : Form) (lsid : BitVec 5) (s : State) (hm : Memory.wf s.mem = true) : KeepsOk (execFence f lsid s) := by
  unfold execFence
  (repeat' split) <;> simp [*]

@[simp] theorem switchAllOff_mem (f : Form) (s : State) : KeepsMem s (switchAllOff f s) := by
  unfold switchAllOff
  (repeat' split) <;> simp [*]

@[simp] theorem switchAllOff_memOk (f : Form) (s : State) (hm : Memory.wf s.mem = true) : KeepsOk (switchAllOff f s) := (switchAllOff_mem f s).ok hm

@[simp] theorem execSmap_mem (f : Form) (l : BitVec 5) (s : State) : KeepsMem s (execSmap f l s) := by
  unfold execSmap
  dsimp only
  (repeat' split) <;> simp [*]

@[simp] theorem execSmap_memOk (f : Form) (l : BitVec 5) (s : State) (hm : Memory.wf s.mem = true) : KeepsOk (execSmap f l s) := (execSmap_mem f l s).ok hm

@[simp] theorem execSunmap_mem (f : Form) (l : BitVec 5) (s : State) : KeepsMem s (execSunmap f l s) := by
  unfold execSunmap
  dsimp only
  (repeat' split) <;> simp [*]

@[simp] theorem execSunmap_memOk (f : Form) (l : BitVec 5) (s : State) (hm : Memory.wf s.mem = true) : KeepsOk (execSunmap f l s) := (execSunmap_mem f l s).ok hm

@[simp] theorem execSwb_mem (f : Form) (l : BitVec 5) (s : State) : KeepsMem s (execSwb f l s) := by
  unfold execSwb
  (repeat' split) <;> simp [*]

@[simp] theorem execSwb_memOk (f : Form) (l : BitVec 5) (s : State) (hm : Memory.wf s.mem = true) : KeepsOk (execSwb f l s) := (execSwb_mem f l s).ok hm

@[simp] theorem execSinv_mem (f : Form) (l : BitVec 5) (s : State) : KeepsMem s (execSinv f l s) := by
  unfold execSinv
  (repeat' split) <;> simp [*]

@[simp] theorem execSinv_memOk (f : Form) (l : BitVec 5) (s : State) (hm : Memory.wf s.mem = true) : KeepsOk (execSinv f l s) := (execSinv_mem f l s).ok hm

@[simp] theorem State.readOwn_memOk (s : State) (va : Nat) (n : Nat) (a : Acc) (hm : Memory.wf s.mem = true) : Memory.wf (State.readOwn s va n a).2.mem = true := by
  unfold State.readOwn
  dsimp only
  (repeat' split) <;> simp [*]

@[simp] theorem State.supWord_memOk (s : State) (va : Nat) (hm : Memory.wf s.mem = true) : Memory.wf (State.supWord s va).2.mem = true := by
  unfold State.supWord
  (repeat' split) <;> simp [*]

@[simp] theorem State.writeOwn_memOk (s : State) (va : Nat) (bs : List Byte) (a : Acc) (hm : Memory.wf s.mem = true) :
    Memory.wf (s.writeOwn va bs a).2.mem = true := by
  have h := State.translateRun_memOk s s.ctxNo va { a with write := true } bs.length hm
  unfold State.writeOwn
  dsimp only
  split
  · exact h
  · exact State.writeAt_memOk _ _ _ _ (State.flushLines_memOk _ _ _ h)

@[simp] theorem State.setSupWord_memOk (s : State) (va : Nat) (x : Nat) (hm : Memory.wf s.mem = true) : Memory.wf (State.setSupWord s va x).2.mem = true := by
  unfold State.setSupWord
  (repeat' split) <;> simp [*]

@[simp] theorem State.heapTake_memOk (s : State) (size : Nat) (hm : Memory.wf s.mem = true) : Memory.wf (s.heapTake size).2.mem = true := by
  unfold State.heapTake
  split
  · exact hm
  · extract_lets +onlyGivenNames h c z fr ba li bu
    have h4 : Memory.wf bu.2.mem = true := State.supWord_memOk _ _ (State.supWord_memOk _ _ (State.supWord_memOk _ _ (State.supWord_memOk _ _ hm)))
    clear_value bu
    split
    · split
      · extract_lets +onlyGivenNames nx
        have hn : Memory.wf nx.2.mem = true := State.supWord_memOk _ _ h4
        clear_value nx
        split
        · exact hn
        · exact State.setSupWord_memOk _ _ _ hn
      · split
        · exact State.setSupWord_memOk _ _ _ h4
        · exact h4
    · exact h4
    · exact h4
    · exact h4
    · exact h4

@[simp] theorem State.heapServe_memOk (size : Nat → Nat) (ls : List Nat) (s : State) (hm : Memory.wf s.mem = true) :
    Memory.wf (State.heapServe size ls s).2.2.2.mem = true := by
  induction ls generalizing s with
  | nil => exact hm
  | cons l r ih =>
    unfold State.heapServe
    dsimp only
    split
    · exact State.heapTake_memOk _ _ hm
    · exact ih _ (State.heapTake_memOk _ _ hm)
    · exact ih _ (State.heapTake_memOk _ _ hm)

@[simp] theorem execHalloc_memOk (f : Form) (l : BitVec 5) (s : State) (hm : Memory.wf s.mem = true) : KeepsOk (execHalloc f l s) := by
  unfold execHalloc
  dsimp only
  (repeat' split) <;> simp [*]

@[simp] theorem execHfree_memOk (f : Form) (l : BitVec 5) (s : State) (hm : Memory.wf s.mem = true) : KeepsOk (execHfree f l s) := by
  unfold execHfree
  split
  · simpa using hm
  · have h2 := State.supWord_memOk _ (s.heapAt + 16) (State.supWord_memOk _ s.heapAt hm)
    dsimp only
    split
    · exact depart_memOk _ _ _ hm
    · split
      · split
        · simp only [KeepsOk_next]; exact State.raise_memOk _ _ h2
        · exact depart_memOk _ _ _ h2
      · simp only [KeepsOk_next]; exact State.raise_memOk _ _ h2
      · simp only [KeepsOk_next]; exact State.raise_memOk _ _ h2

@[simp] theorem execWait_mem (f : Form) (n1 : BitVec 6) (n2 : BitVec 6) (n3 : BitVec 6) (n4 : BitVec 6) (s : State) : KeepsMem s (execWait f n1 n2 n3 n4 s) := by
  unfold execWait
  (repeat' split) <;> simp [*]

@[simp] theorem execWait_memOk (f : Form) (n1 : BitVec 6) (n2 : BitVec 6) (n3 : BitVec 6) (n4 : BitVec 6) (s : State) (hm : Memory.wf s.mem = true) : KeepsOk (execWait f n1 n2 n3 n4 s) := (execWait_mem f n1 n2 n3 n4 s).ok hm

@[simp] theorem execWaitr_mem (f : Form) (p : Path) (s : State) : KeepsMem s (execWaitr f p s) := by
  unfold execWaitr
  (repeat' split) <;> simp [*]

@[simp] theorem execWaitr_memOk (f : Form) (p : Path) (s : State) (hm : Memory.wf s.mem = true) : KeepsOk (execWaitr f p s) := (execWaitr_mem f p s).ok hm

@[simp] theorem issueOnce_memOk (f : Form) (i : Instr) (again : Blk → Opnd → Lanes → State → State) (perform : Blk → Opnd → State → Out)
    (s : State) (hm : Memory.wf s.mem = true) (ha : StFn3 again)
    (hp : OutFn2 perform) : KeepsOk (issueOnce f i again perform s) := by
  unfold issueOnce
  dsimp only
  (repeat' split) <;> first | exact ha _ _ _ _ hm | exact hp _ _ _ hm | simp_all

@[simp] theorem State.doneNow_mem (s : State) : (State.doneNow s).mem = s.mem := by
  unfold State.doneNow
  (repeat' split) <;> simp [*]

@[simp] theorem State.serveSem_mem (s : State) (core n k : Nat) : (s.serveSem core n k).mem = s.mem := by
  induction k generalizing s with
  | zero => rfl
  | succ k ih =>
    unfold State.serveSem
    dsimp only
    (repeat' split) <;> simp [ih]

@[simp] theorem State.waitHere_mem (s : State) : (State.waitHere s).mem = s.mem := by
  unfold State.waitHere
  (repeat' split) <;> simp [*]

@[simp] theorem execSemAcq_memOk (f : Form) (n : BitVec 6) (m : BitVec 10) (s : State) (hm : Memory.wf s.mem = true) : KeepsOk (execSemAcq f n m s) := by
  unfold execSemAcq
  (repeat' split) <;> simp [*]

@[simp] theorem State.raiseSem_mem (s : State) (core : Nat) (n : Nat) (amt : Nat) : (State.raiseSem s core n amt).mem = s.mem := by
  unfold State.raiseSem
  (repeat' split) <;> simp [*]

@[simp] theorem State.releaseAt_memOk (s : State) (f : Form) (hm : Memory.wf s.mem = true) : Memory.wf (State.releaseAt s f).mem = true := by
  unfold State.releaseAt
  (repeat' split) <;> simp [*]

@[simp] theorem execSemRel_memOk (f : Form) (n : BitVec 6) (m : BitVec 10) (s : State) (hm : Memory.wf s.mem = true) : KeepsOk (execSemRel f n m s) := by
  unfold execSemRel
  (repeat' split) <;> simp_all

@[simp] theorem State.deliverUni_mem (s : State) (f : Form) (x : W64) : (State.deliverUni s f x).mem = s.mem := by
  unfold State.deliverUni
  (repeat' split) <;> simp [*]

@[simp] theorem execSemTry_memOk (f : Form) (n : BitVec 6) (m : BitVec 10) (s : State) (hm : Memory.wf s.mem = true) : KeepsOk (execSemTry f n m s) := by
  unfold execSemTry
  (repeat' split) <;> simp [*]

@[simp] theorem barOp_memOk (f : Form) (i : Instr) (b : BitVec 9) (again : Blk → Opnd → Lanes → State → State)
    (perform : Opnd → W64 → State → Out) (s : State) (hm : Memory.wf s.mem = true)
    (ha : StFn3 again)
    (hp : OutFn2 perform) : KeepsOk (barOp f i b again perform s) := by
  unfold barOp
  refine issueOnce_memOk _ _ _ _ _ hm ha (fun _ o s hm => ?_)
  split
  · simp [hm]
  · exact hp _ _ _ hm

@[simp] theorem execBarInit_memOk (f : Form) (b : BitVec 9) (s : State) (hm : Memory.wf s.mem = true) : KeepsOk (execBarInit f b s) := by
  unfold execBarInit
  (repeat' split) <;> simp_all

@[simp] theorem State.setBar_mem (s : State) (team : Nat) (b : Nat) (w : W64) : (State.setBar s team b w).mem = s.mem := by
  unfold State.setBar
  (repeat' split) <;> simp [*]

@[simp] theorem arriveOp_memOk (drop : Bool) (f : Form) (i : Instr) (b : BitVec 9) (s : State) (hm : Memory.wf s.mem = true) :
    KeepsOk (arriveOp drop f i b s) := by
  unfold arriveOp
  refine barOp_memOk _ _ _ _ _ _ hm (fun _ _ _ s hm => by simp [hm]) (fun _ _ s hm => ?_)
  split <;> simp [hm]

@[simp] theorem execBarArr_memOk (f : Form) (b : BitVec 9) (s : State) (hm : Memory.wf s.mem = true) : KeepsOk (execBarArr f b s) := by
  unfold execBarArr
  (repeat' split) <;> simp [*]

@[simp] theorem execBarWait_memOk (f : Form) (b : BitVec 9) (s : State) (hm : Memory.wf s.mem = true) : KeepsOk (execBarWait f b s) := by
  unfold execBarWait
  (repeat' split) <;> simp [*]

theorem awaitStep_memOk (p : State → Lanes → Bool) (w : Lanes → W64) (f : Form)  :
    StFn3 (fun (_ : Blk) (_ : Opnd) (x : Lanes) (s : State) => if p s x then s.deliverUni f (w x) else s.waitHere) := by
  intro _ _ x s hm
  dsimp only
  generalize p s x = c
  cases c
  · rw [if_neg (by decide), State.waitHere_mem]; exact hm
  · rw [if_pos rfl, State.deliverUni_mem]; exact hm
@[simp] theorem execBarAw_memOk (f : Form) (b : BitVec 9) (s : State) (hm : Memory.wf s.mem = true) : KeepsOk (execBarAw f b s) := by
  refine barOp_memOk _ _ _ _ _ _ hm (awaitStep_memOk (fun s x => barDone (s.team.bar b.toNat) (lane x 0).toNat) (fun x => lane x 0) f) ?_
  intro o w s hm
  dsimp only
  cases barArrive false w with
  | none => exact (KeepsOk_next _).mpr (State.raise_memOk _ _ hm)
  | some w' => exact (KeepsOk_next _).mpr (by simp [hm])

@[simp] theorem execBarDrop_memOk (f : Form) (b : BitVec 9) (s : State) (hm : Memory.wf s.mem = true) : KeepsOk (execBarDrop f b s) := by
  unfold execBarDrop
  (repeat' split) <;> simp [*]

@[simp] theorem execBarTx_memOk (f : Form) (b : BitVec 9) (s : State) (hm : Memory.wf s.mem = true) : KeepsOk (execBarTx f b s) := by
  unfold execBarTx
  (repeat' split) <;> simp_all

@[simp] theorem execBarGen_memOk (f : Form) (b : BitVec 9) (s : State) (hm : Memory.wf s.mem = true) : KeepsOk (execBarGen f b s) := by
  unfold execBarGen
  (repeat' split) <;> simp [*]

@[simp] theorem State.timelineValue_mem (s : State) (ctx : Nat) (t : Nat × Nat) : (State.timelineValue s ctx t).2.mem = s.mem := by
  unfold State.timelineValue
  (repeat' split) <;> simp [*]

@[simp] theorem timelineOp_memOk (f : Form) (k : Opnd → W64 → State → State) (s : State) (hm : Memory.wf s.mem = true)
    (hk : StFn2 k) : KeepsOk (timelineOp f k s) := by
  unfold timelineOp
  dsimp only
  (repeat' split) <;> first | (simp only [KeepsOk_next]; exact hk _ _ _ (by simp [hm])) | simp_all

@[simp] theorem execTlwait_memOk (f : Form) (s : State) (hm : Memory.wf s.mem = true) : KeepsOk (execTlwait f s) := by
  unfold execTlwait
  (repeat' split) <;> simp [*]

@[simp] theorem execTlread_memOk (f : Form) (s : State) (hm : Memory.wf s.mem = true) : KeepsOk (execTlread f s) := by
  unfold execTlread
  refine timelineOp_memOk _ _ _ hm fun _ _ s hm => ?_
  split <;> simp [hm]

@[simp] theorem execDsync_memOk (f : Form) (s : State) (hm : Memory.wf s.mem = true) : KeepsOk (execDsync f s) := by
  unfold execDsync
  dsimp only
  (repeat' split) <;> simp [*]

@[simp] theorem execLclk_mem (f : Form) (s : State) : KeepsMem s (execLclk f s) := by
  unfold execLclk
  (repeat' split) <;> simp [*]

@[simp] theorem execLclk_memOk (f : Form) (s : State) (hm : Memory.wf s.mem = true) : KeepsOk (execLclk f s) := (execLclk_mem f s).ok hm

@[simp] theorem execProv_mem (f : Form) (clear : Bool) (s : State) : KeepsMem s (execProv f clear s) := by
  unfold execProv
  (repeat' split) <;> simp [*]

@[simp] theorem execProv_memOk (f : Form) (clear : Bool) (s : State) (hm : Memory.wf s.mem = true) : KeepsOk (execProv f clear s) := (execProv_mem f clear s).ok hm

@[simp] theorem execStalls_mem (f : Form) (s : State) : KeepsMem s (execStalls f s) := by
  unfold execStalls
  (repeat' split) <;> simp [*]

@[simp] theorem execStalls_memOk (f : Form) (s : State) (hm : Memory.wf s.mem = true) : KeepsOk (execStalls f s) := (execStalls_mem f s).ok hm

@[simp] theorem State.tileDue_mem (s : State) (z : Nat) (n : Nat) : (State.tileDue s z n).mem = s.mem := by
  unfold State.tileDue
  (repeat' split) <;> simp [*]

@[simp] theorem State.takeArray_mem (s : State) (n : Nat) : (State.takeArray s n).mem = s.mem := by
  unfold State.takeArray
  (repeat' split) <;> simp [*]

@[simp] theorem tileInstr_memOk (f : Form) (zr : Nat) (zw : Nat) (occupy : Nat) (due : Nat) (chk : Opnd → Option (Nat × Nat)) (res : Env → Opnd → Blk → List (List Nat) × Option Nat) (s : State) (hm : Memory.wf s.mem = true) : KeepsOk (tileInstr f zr zw occupy due chk res s) := by
  unfold tileInstr
  dsimp only
  (repeat' split) <;> simp [*]

@[simp] theorem mmaOp_memOk (dist : Bool) (f : Form) (a : MmaArg) (s : State) (hm : Memory.wf s.mem = true) : KeepsOk (mmaOp dist f a s) := by
  unfold mmaOp
  (repeat' split) <;> simp [*]

@[simp] theorem execTmma_memOk (f : Form) (a : MmaArg) (s : State) (hm : Memory.wf s.mem = true) : KeepsOk (execTmma f a s) := by
  unfold execTmma
  (repeat' split) <;> simp [*]

@[simp] theorem execTdist_memOk (f : Form) (a : MmaArg) (s : State) (hm : Memory.wf s.mem = true) : KeepsOk (execTdist f a s) := by
  unfold execTdist
  (repeat' split) <;> simp [*]

@[simp] theorem execTtopk_memOk (f : Form) (zs : BitVec 4) (zd : BitVec 4) (k1 : BitVec 5) (largest : Bool) (s : State) (hm : Memory.wf s.mem = true) : KeepsOk (execTtopk f zs zd k1 largest s) := by
  unfold execTtopk
  (repeat' split) <;> simp [*]

@[simp] theorem queueInstr_memOk (f : Form) (i : Instr) (z : Nat) (bad : Opnd → Bool) (s : State) (hm : Memory.wf s.mem = true) : KeepsOk (queueInstr f i z bad s) := by
  unfold queueInstr
  (repeat' split) <;> simp [*]

@[simp] theorem execTld_memOk (f : Form) (z : BitVec 4) (s : State) (hm : Memory.wf s.mem = true) : KeepsOk (execTld f z s) := by
  unfold execTld
  (repeat' split) <;> simp [*]

@[simp] theorem execTst_memOk (f : Form) (z : BitVec 4) (s : State) (hm : Memory.wf s.mem = true) : KeepsOk (execTst f z s) := by
  unfold execTst
  (repeat' split) <;> simp [*]

@[simp] theorem execTclr_memOk (f : Form) (z : BitVec 4) (s : State) (hm : Memory.wf s.mem = true) : KeepsOk (execTclr f z s) := by
  unfold execTclr
  (repeat' split) <;> simp [*]

@[simp] theorem execTcvt_memOk (f : Form) (z : BitVec 4) (trans : Bool) (src : Ty) (s : State) (hm : Memory.wf s.mem = true) : KeepsOk (execTcvt f z trans src s) := by
  unfold execTcvt
  (repeat' split) <;> simp [*]

@[simp] theorem rowOp_memOk (mx : Bool) (f : Form) (z : BitVec 4) (s : State) (hm : Memory.wf s.mem = true) : KeepsOk (rowOp mx f z s) := by
  unfold rowOp
  dsimp only
  (repeat' split) <;> simp [*]

@[simp] theorem execTrmax_memOk (f : Form) (z : BitVec 4) (s : State) (hm : Memory.wf s.mem = true) : KeepsOk (execTrmax f z s) := by
  unfold execTrmax
  (repeat' split) <;> simp [*]

@[simp] theorem execTrsum_memOk (f : Form) (z : BitVec 4) (s : State) (hm : Memory.wf s.mem = true) : KeepsOk (execTrsum f z s) := by
  unfold execTrsum
  (repeat' split) <;> simp [*]

@[simp] theorem execTrscl_memOk (f : Form) (z : BitVec 4) (s : State) (hm : Memory.wf s.mem = true) : KeepsOk (execTrscl f z s) := by
  unfold execTrscl
  (repeat' split) <;> simp [*]

@[simp] theorem sendDescriptor_memOk (f : Form) (i : Instr) (size : Nat) (align : Nat) (s : State) (hm : Memory.wf s.mem = true) : KeepsOk (sendDescriptor f i size align s) := by
  unfold sendDescriptor
  (repeat' split) <;> simp [*]

@[simp] theorem execCpy_memOk (f : Form) (p : BitVec 5) (s : State) (hm : Memory.wf s.mem = true) : KeepsOk (execCpy f p s) := by
  unfold execCpy
  (repeat' split) <;> simp [*]

@[simp] theorem execCpyg_memOk (f : Form) (p : BitVec 5) (s : State) (hm : Memory.wf s.mem = true) : KeepsOk (execCpyg f p s) := by
  unfold execCpyg
  (repeat' split) <;> simp [*]

@[simp] theorem execCpyx_memOk (f : Form) (p : BitVec 5) (s : State) (hm : Memory.wf s.mem = true) : KeepsOk (execCpyx f p s) := by
  unfold execCpyx
  (repeat' split) <;> simp [*]

@[simp] theorem execCfill_memOk (f : Form) (p : BitVec 5) (s : State) (hm : Memory.wf s.mem = true) : KeepsOk (execCfill f p s) := by
  unfold execCfill
  (repeat' split) <;> simp [*]

@[simp] theorem execTrc_mem (f : Form) (s : State) : KeepsMem s (execTrc f s) := by
  unfold execTrc
  (repeat' split) <;> simp [*]

@[simp] theorem execTrc_memOk (f : Form) (s : State) (hm : Memory.wf s.mem = true) : KeepsOk (execTrc f s) := (execTrc_mem f s).ok hm

@[simp] theorem execPfill_memOk (f : Form) (s : State) (hm : Memory.wf s.mem = true) : KeepsOk (execPfill f s) := by
  unfold execPfill
  (repeat' split) <;> simp [*]

@[simp] theorem execPcopy_memOk (f : Form) (s : State) (hm : Memory.wf s.mem = true) : KeepsOk (execPcopy f s) := by
  unfold execPcopy
  (repeat' split) <;> simp [*]

@[simp] theorem execPcmp_memOk (f : Form) (s : State) (hm : Memory.wf s.mem = true) : KeepsOk (execPcmp f s) := by
  unfold execPcmp
  (repeat' split) <;> simp [*]

@[simp] theorem execPredx_memOk (f : Form) (e : Ty) (fn : BadgerFn) (s : State) (hm : Memory.wf s.mem = true) : KeepsOk (execPredx f e fn s) := by
  unfold execPredx
  (repeat' split) <;> simp [*]

@[simp] theorem execPgath_memOk (f : Form) (e : Ty) (fn : BadgerFn) (s : State) (hm : Memory.wf s.mem = true) : KeepsOk (execPgath f e fn s) := by
  unfold execPgath
  (repeat' split) <;> simp [*]

@[simp] theorem needSup_memOk (sub : Nat) (k : State → Out) (s : State) (hm : Memory.wf s.mem = true)
    (hk : OutFn k) : KeepsOk (needSup sub k s) := by
  unfold needSup
  split
  · exact hk s hm
  · split <;> simp [hm]

@[simp] theorem mapOp_memOk (f : Form) (i : Instr) (s : State) (hm : Memory.wf s.mem = true) : KeepsOk (mapOp f i s) := by
  unfold mapOp
  (repeat' split) <;> simp_all

@[simp] theorem execPmap_memOk (f : Form) (s : State) (hm : Memory.wf s.mem = true) : KeepsOk (execPmap f s) := by
  unfold execPmap
  (repeat' split) <;> simp [*]

@[simp] theorem execPunmap_memOk (f : Form) (s : State) (hm : Memory.wf s.mem = true) : KeepsOk (execPunmap f s) := by
  unfold execPunmap
  (repeat' split) <;> simp [*]

@[simp] theorem execTlbinv_memOk (f : Form) (s : State) (hm : Memory.wf s.mem = true) : KeepsOk (execTlbinv f s) := by
  unfold execTlbinv
  (repeat' split) <;> simp_all

@[simp] theorem execSysrd_memOk (f : Form) (r : SysReg) (s : State) (hm : Memory.wf s.mem = true) : KeepsOk (execSysrd f r s) := by
  unfold execSysrd
  (repeat' split) <;> simp_all

@[simp] theorem execSyswr_memOk (f : Form) (r : SysReg) (s : State) (hm : Memory.wf s.mem = true) : KeepsOk (execSyswr f r s) := by
  unfold execSyswr
  (repeat' split) <;> simp_all

@[simp] theorem execTrap_mem (f : Form) (sub : BitVec 16) (s : State) : KeepsMem s (execTrap f sub s) := by
  unfold execTrap
  (repeat' split) <;> simp [*]

@[simp] theorem execTrap_memOk (f : Form) (sub : BitVec 16) (s : State) (hm : Memory.wf s.mem = true) : KeepsOk (execTrap f sub s) := (execTrap_mem f sub s).ok hm

@[simp] theorem execTret_memOk (f : Form) (s : State) (hm : Memory.wf s.mem = true) : KeepsOk (execTret f s) := by
  unfold execTret
  (repeat' split) <;> simp_all

@[simp] theorem execBrk_mem (f : Form) (s : State) : KeepsMem s (execBrk f s) := by
  unfold execBrk
  (repeat' split) <;> simp [*]

@[simp] theorem execBrk_memOk (f : Form) (s : State) (hm : Memory.wf s.mem = true) : KeepsOk (execBrk f s) := (execBrk_mem f s).ok hm

@[simp] theorem execCyc_mem (f : Form) (s : State) : KeepsMem s (execCyc f s) := by
  unfold execCyc
  (repeat' split) <;> simp [*]

@[simp] theorem execCyc_memOk (f : Form) (s : State) (hm : Memory.wf s.mem = true) : KeepsOk (execCyc f s) := (execCyc_mem f s).ok hm

@[simp] theorem execWaitc_mem (f : Form) (s : State) : KeepsMem s (execWaitc f s) := by
  unfold execWaitc
  (repeat' split) <;> simp [*]

@[simp] theorem execWaitc_memOk (f : Form) (s : State) (hm : Memory.wf s.mem = true) : KeepsOk (execWaitc f s) := (execWaitc_mem f s).ok hm

@[simp] theorem execHalt_memOk (f : Form) (s : State) (hm : Memory.wf s.mem = true) : KeepsOk (execHalt f s) := by
  unfold execHalt
  (repeat' split) <;> simp_all

@[simp] theorem State.modPkg_mem (s : State) (f : Pkg → Pkg) : (State.modPkg s f).mem = s.mem := by
  unfold State.modPkg
  (repeat' split) <;> simp [*]

@[simp] theorem State.emit_mem (s : State) (e : OutEvent) : (State.emit s e).mem = s.mem := by
  unfold State.emit
  (repeat' split) <;> simp [*]

@[simp] theorem execTrainingFailure_mem (u : FailUnit) (s : State) : KeepsMem s (execTrainingFailure u s) := by
  unfold execTrainingFailure
  dsimp only
  (repeat' split) <;> simp [*]

@[simp] theorem execTrainingFailure_memOk (u : FailUnit) (s : State) (hm : Memory.wf s.mem = true) : KeepsOk (execTrainingFailure u s) := (execTrainingFailure_mem u s).ok hm

@[simp] theorem State.modPart_mem (s : State) (n : Nat) (f : Partition → Partition) : (State.modPart s n f).mem = s.mem := by
  unfold State.modPart
  (repeat' split) <;> simp [*]

@[simp] theorem execTargetFrequencyChange_mem (die : Nat) (q : Nat) (mhz : Nat) (s : State) : KeepsMem s (execTargetFrequencyChange die q mhz s) := by
  unfold execTargetFrequencyChange
  dsimp only
  (repeat' split) <;> simp [*]

@[simp] theorem execTargetFrequencyChange_memOk (die : Nat) (q : Nat) (mhz : Nat) (s : State) (hm : Memory.wf s.mem = true) : KeepsOk (execTargetFrequencyChange die q mhz s) := (execTargetFrequencyChange_mem die q mhz s).ok hm

@[simp] theorem execPowerSample_mem (watts : Nat) (s : State) : KeepsMem s (execPowerSample watts s) := by
  unfold execPowerSample
  dsimp only
  (repeat' split) <;> simp [*]

@[simp] theorem execPowerSample_memOk (watts : Nat) (s : State) (hm : Memory.wf s.mem = true) : KeepsOk (execPowerSample watts s) := (execPowerSample_mem watts s).ok hm

@[simp] theorem State.stretch_mem (s : State) (core : Nat) : (State.stretch s core).mem = s.mem := by
  unfold State.stretch
  (repeat' split) <;> simp [*]

@[simp] theorem execDroopStretch_mem (die : Nat) (core : Nat) (s : State) : KeepsMem s (execDroopStretch die core s) := by
  unfold execDroopStretch
  dsimp only
  (repeat' split) <;> simp [*]

@[simp] theorem execDroopStretch_memOk (die : Nat) (core : Nat) (s : State) (hm : Memory.wf s.mem = true) : KeepsOk (execDroopStretch die core s) := (execDroopStretch_mem die core s).ok hm

@[simp] theorem execThermalWarning_mem (die : Nat) (celsius : Nat) (s : State) : KeepsMem s (execThermalWarning die celsius s) := by
  unfold execThermalWarning
  (repeat' split) <;> simp [*]

@[simp] theorem execThermalWarning_memOk (die : Nat) (celsius : Nat) (s : State) (hm : Memory.wf s.mem = true) : KeepsOk (execThermalWarning die celsius s) := (execThermalWarning_mem die celsius s).ok hm

@[simp] theorem State.setTargets_mem (s : State) (die : Nat) (mhz : Nat) : (State.setTargets s die mhz).mem = s.mem := by
  unfold State.setTargets
  (repeat' split) <;> simp [*]

@[simp] theorem execThermalThrottle_mem (die : Nat) (s : State) : KeepsMem s (execThermalThrottle die s) := by
  unfold execThermalThrottle
  (repeat' split) <;> simp [*]

@[simp] theorem execThermalThrottle_memOk (die : Nat) (s : State) (hm : Memory.wf s.mem = true) : KeepsOk (execThermalThrottle die s) := (execThermalThrottle_mem die s).ok hm

@[simp] theorem execThermalThrottleRelease_mem (die : Nat) (s : State) : KeepsMem s (execThermalThrottleRelease die s) := by
  unfold execThermalThrottleRelease
  (repeat' split) <;> simp [*]

@[simp] theorem execThermalThrottleRelease_memOk (die : Nat) (s : State) (hm : Memory.wf s.mem = true) : KeepsOk (execThermalThrottleRelease die s) := (execThermalThrottleRelease_mem die s).ok hm

@[simp] theorem State.scrubPass_mem (s : State) (stack : Nat) (line : Nat) : (State.scrubPass s stack line).mem = s.mem := by
  unfold State.scrubPass
  (repeat' split) <;> simp [*]

@[simp] theorem State.setCorrected_mem (s : State) (stack : Nat) (ls : List Nat) : (State.setCorrected s stack ls).mem = s.mem := by
  unfold State.setCorrected
  (repeat' split) <;> simp [*]

@[simp] theorem State.scrubCorrected_mem (s : State) (stack line : Nat) : (s.scrubCorrected stack line).mem = s.mem := by
  unfold State.scrubCorrected
  extract_lets +onlyGivenNames frame old ls s1
  have h : s1.mem = s.mem := rfl
  clear_value s1 ls
  split
  · exact h
  · split
    · exact h
    · exact h

@[simp] theorem State.loseLine_mem (s : State) (line : Nat) : (State.loseLine s line).mem = s.mem := by
  unfold State.loseLine
  (repeat' split) <;> simp [*]

@[simp] theorem State.uncorrectable_mem (s : State) (line : Nat) : (State.uncorrectable s line).mem = s.mem := by
  unfold State.uncorrectable
  (repeat' split) <;> simp [*]

@[simp] theorem State.scrubLost_mem (s : State) (stack line : Nat) : (s.scrubLost stack line).mem = s.mem := by
  unfold State.scrubLost
  dsimp only
  generalize State.pageAtFrame _ _ _ = o
  cases o <;> simp

@[simp] theorem execScrubRead_mem (stack : Nat) (line : Nat) (found : ScrubResult) (s : State) : KeepsMem s (execScrubRead stack line found s) := by
  unfold execScrubRead
  (repeat' split) <;> simp [*]

@[simp] theorem execScrubRead_memOk (stack : Nat) (line : Nat) (found : ScrubResult) (s : State) (hm : Memory.wf s.mem = true) : KeepsOk (execScrubRead stack line found s) := (execScrubRead_mem stack line found s).ok hm

@[simp] theorem State.beginRestart_mem (s : State) : (State.beginRestart s).mem = s.mem := by
  unfold State.beginRestart
  (repeat' split) <;> simp [*]

@[simp] theorem execSequencerWatchdog_mem (which : Sequencer) (s : State) : KeepsMem s (execSequencerWatchdog which s) := by
  unfold execSequencerWatchdog
  (repeat' split) <;> simp [*]

@[simp] theorem execSequencerWatchdog_memOk (which : Sequencer) (s : State) (hm : Memory.wf s.mem = true) : KeepsOk (execSequencerWatchdog which s) := (execSequencerWatchdog_mem which s).ok hm

@[simp] theorem State.modLink_mem (s : State) (l : Link) (f : LinkSt → LinkSt) : (State.modLink s l f).mem = s.mem := by
  unfold State.modLink
  (repeat' split) <;> simp [*]

@[simp] theorem State.makeFlit_mem (s : State) (x : LinkSt) (vc : BitVec 3) : (State.makeFlit s x vc).2.mem = s.mem := by
  unfold State.makeFlit
  (repeat' split) <;> simp [*]

@[simp] theorem State.launchFlit_mem (s : State) (l : Link) (vc : BitVec 3) : (State.launchFlit s l vc).mem = s.mem := by
  unfold State.launchFlit
  (repeat' split) <;> simp [*]

@[simp] theorem State.sendFlit_mem (s : State) (l : Link) (vc : BitVec 3) : (State.sendFlit s l vc).mem = s.mem := by
  unfold State.sendFlit
  (repeat' split) <;> simp [*]

@[simp] theorem State.sendWaiting_mem (s : State) (l : Link) : (State.sendWaiting s l).mem = s.mem := by
  unfold State.sendWaiting
  (repeat' split) <;> simp [*]

@[simp] theorem State.deliverFlit_mem (s : State) (f : Flit) : (State.deliverFlit s f).mem = s.mem := by
  unfold State.deliverFlit
  (repeat' split) <;> simp [*]

@[simp] theorem execFlitReceive_mem (l : Link) (f : Flit) (s : State) : KeepsMem s (execFlitReceive l f s) := by
  unfold execFlitReceive
  dsimp only
  (repeat' split) <;> simp [*]

@[simp] theorem execFlitReceive_memOk (l : Link) (f : Flit) (s : State) (hm : Memory.wf s.mem = true) : KeepsOk (execFlitReceive l f s) := (execFlitReceive_mem l f s).ok hm

@[simp] theorem State.replay_mem (s : State) (l : Link) : (State.replay s l).mem = s.mem := by
  unfold State.replay
  (repeat' split) <;> simp [*]

@[simp] theorem execNegativeAcknowledgement_mem (l : Link) (expected : BitVec 12) (s : State) : KeepsMem s (execNegativeAcknowledgement l expected s) := by
  unfold execNegativeAcknowledgement
  (repeat' split) <;> simp [*]

@[simp] theorem execNegativeAcknowledgement_memOk (l : Link) (expected : BitVec 12) (s : State) (hm : Memory.wf s.mem = true) : KeepsOk (execNegativeAcknowledgement l expected s) := (execNegativeAcknowledgement_mem l expected s).ok hm

@[simp] theorem execAckTimeout_mem (l : Link) (s : State) : KeepsMem s (execAckTimeout l s) := by
  unfold execAckTimeout
  dsimp only
  (repeat' split) <;> simp [*]

@[simp] theorem execAckTimeout_memOk (l : Link) (s : State) (hm : Memory.wf s.mem = true) : KeepsOk (execAckTimeout l s) := (execAckTimeout_mem l s).ok hm

@[simp] theorem execLinkRetrain_mem (l : Link) (s : State) : KeepsMem s (execLinkRetrain l s) := by
  unfold execLinkRetrain
  dsimp only
  (repeat' split) <;> simp [*]

@[simp] theorem execLinkRetrain_memOk (l : Link) (s : State) (hm : Memory.wf s.mem = true) : KeepsOk (execLinkRetrain l s) := (execLinkRetrain_mem l s).ok hm

@[simp] theorem execRetrainComplete_mem (l : Link) (lanes : Nat) (s : State) : KeepsMem s (execRetrainComplete l lanes s) := by
  unfold execRetrainComplete
  dsimp only
  (repeat' split) <;> simp [*]

@[simp] theorem execRetrainComplete_memOk (l : Link) (lanes : Nat) (s : State) (hm : Memory.wf s.mem = true) : KeepsOk (execRetrainComplete l lanes s) := (execRetrainComplete_mem l lanes s).ok hm

@[simp] theorem State.shutLink_mem (s : State) (l : Link) : (s.shutLink l).mem = s.mem := by
  unfold State.shutLink
  dsimp only
  split
  · refine (foldl_mem' _ _ _ fun s vc => ?_).trans (modLink_mem _ _ _)
    split <;> simp
  · simp

@[simp] theorem State.enqueue_mem (s : State) (core : Nat) (team : Nat) : (State.enqueue s core team).mem = s.mem := by
  unfold State.enqueue
  (repeat' split) <;> simp [*]

@[simp] theorem State.addTeam_mem (s : State) (core : Nat) (t : Team) : (State.addTeam s core t).mem = s.mem := by
  unfold State.addTeam
  (repeat' split) <;> simp [*]

@[simp] theorem State.recall_mem (s : State) (d : Nat) : (s.recall d).mem = s.mem := by
  unfold State.recall
  refine (foldl_mem' _ _ _ fun s x => ?_).trans rfl
  split
  · split <;> simp
  · split <;> simp
  · rfl

@[simp] theorem State.recordWrite_memOk (s : State) (ctx : Nat) (tag : W32) (va : Nat) (bs : List Byte) (delay : Nat) (hm : Memory.wf s.mem = true) : Memory.wf (State.recordWrite s ctx tag va bs delay).mem = true := by
  unfold State.recordWrite
  dsimp only
  (repeat' split) <;> simp [*]

@[simp] theorem State.writeRecord_memOk (s : State) (ctx : Nat) (tag : W32) (va : Nat) (bs : List Byte) (hm : Memory.wf s.mem = true) : Memory.wf (State.writeRecord s ctx tag va bs).mem = true := by
  unfold State.writeRecord
  (repeat' split) <;> simp [*]

@[simp] theorem State.modLaunch_mem (s : State) (n : Nat) (f : Launch → Launch) : (State.modLaunch s n f).mem = s.mem := by
  unfold State.modLaunch
  (repeat' split) <;> simp [*]

@[simp] theorem State.writeLoss_memOk (s : State) (launch : Nat) (e : List Byte) (hm : Memory.wf s.mem = true) : Memory.wf (State.writeLoss s launch e).mem = true := by
  unfold State.writeLoss
  (repeat' split) <;> simp [*]

@[simp] theorem State.logLoss_memOk (s : State) (n : Nat) (hm : Memory.wf s.mem = true) : Memory.wf (State.logLoss s n).mem = true := by
  unfold State.logLoss
  dsimp only
  (repeat' split) <;> simp [*]

@[simp] theorem State.logExit_memOk (s : State) (launch : Nat) (e : Exit) (hm : Memory.wf s.mem = true) : Memory.wf (State.logExit s launch e).mem = true := by
  unfold State.logExit
  (repeat' split) <;> simp [*]

@[simp] theorem State.loseExits_memOk (s : State) (d : Nat) (hm : Memory.wf s.mem = true) : Memory.wf (s.loseExits d).2.mem = true := by
  unfold State.loseExits
  refine foldl_pair_memOk _ _ _ hm fun x p hm => ?_
  simp only [modLaunch_mem]
  exact foldl_pair_memOk _ _ _ hm fun x e hm => State.logExit_memOk _ _ _ hm

@[simp] theorem State.vacate_mem (s : State) (n : Nat) (retires : Bool) : (State.vacate s n retires).mem = s.mem := by
  unfold State.vacate
  (repeat' split) <;> simp [*]

@[simp] theorem restock_mem (s : State) (d : Nat) (b : Bool) : (s.restock d b).mem = s.mem := rfl

@[simp] theorem State.dropGang_mem (s : State) (n : Nat) : (State.dropGang s n).mem = s.mem := by
  unfold State.dropGang
  (repeat' split) <;> simp [*]

@[simp] theorem State.recount_mem (s : State) (id : Nat) : (State.recount s id).mem = s.mem := by
  unfold State.recount
  (repeat' split) <;> simp [*]

@[simp] theorem State.addUnits_mem (s : State) (launch : Nat) (part : Nat) (d : Int) : (State.addUnits s launch part d).mem = s.mem := by
  unfold State.addUnits
  (repeat' split) <;> simp [*]

@[simp] theorem State.placeTeams_mem (s : State) (ctx : Nat) (die : Nat) (ns : List Nat) : (State.placeTeams s ctx die ns).mem = s.mem := by
  unfold State.placeTeams
  (repeat' split) <;> simp [*]

@[simp] theorem State.redo_mem (s : State) (ns : List Nat) : (s.redo ns).mem = s.mem := by
  unfold State.redo
  dsimp only
  refine (foldl_mem' _ _ _ fun s k => by simp).trans (foldl_mem' _ _ _ fun s p => ?_)
  split <;> simp

@[simp] theorem State.loseTeams_memOk (s : State) (d : Nat) (hm : Memory.wf s.mem = true) : Memory.wf (s.loseTeams d).mem = true := by
  unfold State.loseTeams
  extract_lets +onlyGivenNames s1 gs ts dead s2 x s3 ids s4 src s5 s6
  have h2 : Memory.wf s2.mem = true := foldl_memOk' _ _ _ (by simpa [s1] using hm) fun s n hm => by simp [hm]
  have h3 : Memory.wf s3.mem = true := by
    simp only [s3, focus_mem]
    exact foldl_memOk' _ _ _ (State.loseExits_memOk _ _ h2) fun s n hm => by simp [hm]
  have h4 : Memory.wf s4.mem = true := foldl_memOk' _ _ _ h3 fun s n hm => by simpa using hm
  have h6 : Memory.wf s6.mem = true := foldl_memOk' _ _ _ (show Memory.wf s5.mem = true from h4) fun s n hm => by simpa using hm
  exact foldl_memOk' _ _ _ (by simpa using h6) fun s n hm => by simp [hm]

@[simp] theorem State.leaveDie_memOk (s : State) (d : Nat) (line : Nat) (keep : Bool) (hm : Memory.wf s.mem = true) : Memory.wf (State.leaveDie s d line keep).mem = true := by
  unfold State.leaveDie
  (repeat' split) <;> simp [*]

@[simp] theorem State.message_mem (s : State) (d : Option Nat) (n : Nat) (die : Option Nat) (vc : BitVec 3) (addr : Option Nat) (what : String) (words : List W64) : (State.message s d n die vc addr what words).mem = s.mem := by
  unfold State.message
  dsimp only
  (repeat' split) <;> simp [*]

@[simp] theorem State.sendProbe_mem (s : State) (die : Nat) (line : Nat) (k : ProbeKind) : (State.sendProbe s die line k).mem = s.mem := by
  unfold State.sendProbe
  (repeat' split) <;> simp [*]

@[simp] theorem State.nearClear_memOk (s : State) (line : Nat) (hm : Memory.wf s.mem = true) : Memory.wf (State.nearClear s line).2.mem = true := by
  unfold State.nearClear
  dsimp only
  (repeat' split) <;> simp_all

@[simp] theorem State.nearClearAll_memOk (s : State) (lines : List Nat) (hm : Memory.wf s.mem = true) : Memory.wf (s.nearClearAll lines).2.mem = true :=
  foldl_pair_memOk _ _ _ hm fun _ _ hm => State.nearClear_memOk _ _ hm

@[simp] theorem State.nearLines_memOk (s : State) (lines : List Nat) (hm : Memory.wf s.mem = true) : Memory.wf (State.nearLines s lines).mem = true := by
  unfold State.nearLines
  (repeat' split) <;> simp [*]

@[simp] theorem State.putQcb_memOk (s : State) (a n : Nat) (q : Queue) (g : Nat) (hm : Memory.wf s.mem = true) : Memory.wf (s.putQcb a n q g).mem = true := by
  unfold State.putQcb
  split
  · exact hm
  · exact State.nearLines_memOk _ _ (State.poolWrite_memOk _ _ _ (State.poolWrite_memOk _ _ _ hm))

@[simp] theorem State.modQueue_mem (s : State) (n : Nat) (f : Queue → Queue) : (State.modQueue s n f).mem = s.mem := by
  unfold State.modQueue
  (repeat' split) <;> simp [*]

@[simp] theorem State.writeQcb_memOk (s : State) (n : Nat) (hm : Memory.wf s.mem = true) : Memory.wf (s.writeQcb n).mem = true := by
  unfold State.writeQcb
  dsimp only
  split
  · exact State.putQcb_memOk _ _ _ _ _ (State.putQcb_memOk _ _ _ _ _ hm)
  · exact State.putQcb_memOk _ _ _ _ _ hm

@[simp] theorem State.modQcb_memOk (s : State) (n : Nat) (f : Queue → Queue) (hm : Memory.wf s.mem = true) : Memory.wf (State.modQcb s n f).mem = true := by
  unfold State.modQcb
  (repeat' split) <;> simp [*]

@[simp] theorem State.publishService_memOk (s : State) (hm : Memory.wf s.mem = true) : Memory.wf (State.publishService s).mem = true := by
  unfold State.publishService
  (repeat' split) <;> simp_all

@[simp] theorem State.within_memOk (s : State) (n : Nat) (f : State → State) (hm : Memory.wf s.mem = true)
    (hf : StFn f) : Memory.wf (s.within n f).mem = true := by
  unfold State.within
  dsimp only
  split
  · simpa using hf _ (by simpa using hm)
  · exact hm

@[simp] theorem State.faultGang_memOk (s : State) (n : Nat) (code : Nat) (hm : Memory.wf s.mem = true) : Memory.wf (State.faultGang s n code).mem = true := by
  unfold State.faultGang
  (repeat' split) <;> simp [*]

@[simp] theorem State.replyLost_memOk (s : State) (handler : Bool) (pos : Nat) (hm : Memory.wf s.mem = true) : Memory.wf (State.replyLost s handler pos).mem = true := by
  unfold State.replyLost
  dsimp only
  (repeat' split) <;> simp [*]

@[simp] theorem State.loseParked_memOk (s : State) (hm : Memory.wf s.mem = true) : Memory.wf s.loseParked.mem = true := by
  unfold State.loseParked
  dsimp only
  rw [foldl_mem' _ _ _ fun s p => by split <;> simp]
  exact foldl_memOk' _ _ _ hm fun s e hm => State.within_memOk _ _ _ hm fun s hm => by simp [hm]

@[simp] theorem State.loseBadgers_mem (s : State) : (State.loseBadgers s).mem = s.mem := by
  unfold State.loseBadgers
  (repeat' split) <;> simp [*]

@[simp] theorem State.nextTransaction_mem (s : State) (line : Nat) : (State.nextTransaction s line).mem = s.mem := by
  unfold State.nextTransaction
  dsimp only
  (repeat' split) <;> simp [*]

@[simp] theorem State.answered_mem (s : State) (die : Nat) (line : Nat) : (State.answered s die line).mem = s.mem := by
  unfold State.answered
  (repeat' split) <;> simp [*]

@[simp] theorem State.probeDone_mem (s : State) (die : Nat) (line : Nat) (dirty : Bool) : (State.probeDone s die line dirty).mem = s.mem := by
  unfold State.probeDone
  dsimp only
  (repeat' split) <;> simp [*]

@[simp] theorem State.dropDie_mem (s : State) (die : Nat) (line : Nat) : (State.dropDie s die line).mem = s.mem := by
  unfold State.dropDie
  dsimp only
  (repeat' split) <;> simp [*]

@[simp] theorem State.dropPresence_mem (s : State) (die : Nat) : (State.dropPresence s die).mem = s.mem := by
  unfold State.dropPresence
  (repeat' split) <;> simp [*]

@[simp] theorem State.loseDie_memOk (s : State) (d : Nat) (hm : Memory.wf s.mem = true) : Memory.wf (s.loseDie d).mem = true := by
  unfold State.loseDie
  dsimp only
  rw [emit_mem]
  refine State.publishService_memOk _ (State.loseParked_memOk _ ?_)
  rw [State.loseBadgers_mem, State.dropPresence_mem]
  refine State.loseTeams_memOk _ _ ?_
  simpa using hm

@[simp] theorem State.modCtx_mem (s : State) (n : Nat) (f : Ctx → Ctx) : (State.modCtx s n f).mem = s.mem := by
  unfold State.modCtx
  (repeat' split) <;> simp [*]

@[simp] theorem State.checkRoot_mem (s : State) (ctx : Nat) : (State.checkRoot s ctx).mem = s.mem := by
  unfold State.checkRoot
  (repeat' split) <;> simp [*]

@[simp] theorem State.setMates_mem (s : State) (ns : List Nat) : (State.setMates s ns).mem = s.mem := by
  unfold State.setMates
  (repeat' split) <;> simp [*]

@[simp] theorem State.loseSent_memOk (s : State) (n : Nat) (id : Nat) (hm : Memory.wf s.mem = true) : Memory.wf (State.loseSent s n id).mem = true := by
  unfold State.loseSent
  (repeat' split) <;> simp_all

@[simp] theorem State.loseFar_memOk (s : State) (ctx : Nat) (n : Nat) (hm : Memory.wf s.mem = true) : Memory.wf (State.loseFar s ctx n).mem = true := by
  unfold State.loseFar
  (repeat' split) <;> simp_all

@[simp] theorem State.dropPackage_memOk (s : State) (n : Nat) (hm : Memory.wf s.mem = true) : Memory.wf (State.dropPackage s n).mem = true := by
  unfold State.dropPackage
  (repeat' split) <;> simp [*]

@[simp] theorem State.losePackage_memOk (s : State) (n : Nat) (hm : Memory.wf s.mem = true) : Memory.wf (s.losePackage n).mem = true := by
  unfold State.losePackage
  refine foldl_memOk' _ _ _ (by simp [hm]) fun s c hm => ?_
  split <;> simp [hm]

@[simp] theorem State.tell_mem (s : State) (n : Nat) (what : String) (words : List W64) : (State.tell s n what words).mem = s.mem := by
  unfold State.tell
  (repeat' split) <;> simp [*]

@[simp] theorem State.tellMembers_mem (s : State) (what : String) (words : List W64) : (State.tellMembers s what words).mem = s.mem := by
  unfold State.tellMembers
  (repeat' split) <;> simp [*]

@[simp] theorem execLinkDown_memOk (l : Link) (s : State) (hm : Memory.wf s.mem = true) : KeepsOk (execLinkDown l s) := by
  unfold execLinkDown
  extract_lets s1 dies s2 s3
  have h2 : Memory.wf s2.mem = true := foldl_memOk' _ _ _ (by simpa [s1] using hm) fun s n hm => by simp [hm]
  have h3 : Memory.wf s3.mem = true := foldl_memOk' _ _ _ h2 fun s n hm => State.losePackage_memOk _ _ hm
  split <;> simp [h3]

@[simp] theorem execHelloSend_mem (die : Nat) (port : Nat) (s : State) : KeepsMem s (execHelloSend die port s) := by
  unfold execHelloSend
  dsimp only
  (repeat' split) <;> simp [*]

@[simp] theorem execHelloSend_memOk (die : Nat) (port : Nat) (s : State) (hm : Memory.wf s.mem = true) : KeepsOk (execHelloSend die port s) := (execHelloSend_mem die port s).ok hm

@[simp] theorem State.fence_mem (s : State) (l : Link) (cabling : Bool) : (State.fence s l cabling).mem = s.mem := by
  unfold State.fence
  (repeat' split) <;> simp [*]

@[simp] theorem State.hear_mem (s : State) (die : Nat) (port : Nat) (h : Hello) : (State.hear s die port h).mem = s.mem := by
  unfold State.hear
  (repeat' split) <;> simp [*]

@[simp] theorem execHelloReceive_mem (die : Nat) (port : Nat) (h : Hello) (s : State) : KeepsMem s (execHelloReceive die port h s) := by
  unfold execHelloReceive
  dsimp only
  (repeat' split) <;> simp [*]

@[simp] theorem execHelloReceive_memOk (die : Nat) (port : Nat) (h : Hello) (s : State) (hm : Memory.wf s.mem = true) : KeepsOk (execHelloReceive die port h s) := (execHelloReceive_mem die port h s).ok hm

@[simp] theorem State.join_mem (s : State) (members : W64) : (State.join s members).mem = s.mem := by
  unfold State.join
  (repeat' split) <;> simp [*]

@[simp] theorem execMemberSet_mem (members : W64) (s : State) : KeepsMem s (execMemberSet members s) := by
  unfold execMemberSet
  (repeat' split) <;> simp [*]

@[simp] theorem execMemberSet_memOk (members : W64) (s : State) (hm : Memory.wf s.mem = true) : KeepsOk (execMemberSet members s) := (execMemberSet_mem members s).ok hm

@[simp] theorem State.standAll_mem (s : State) (l : List Nat) : (State.standAll s l).mem = s.mem := by
  unfold State.standAll
  (repeat' split) <;> simp [*]

@[simp] theorem State.stopWork_mem (s : State) (ctx : Nat) : (State.stopWork s ctx).mem = s.mem := by
  unfold State.stopWork
  (repeat' split) <;> simp [*]

@[simp] theorem State.tellOthers_mem (s : State) (ctx : Nat) (what : String) (words : List W64) : (State.tellOthers s ctx what words).mem = s.mem := by
  unfold State.tellOthers
  (repeat' split) <;> simp [*]

@[simp] theorem State.sendVector_mem (s : State) (v : Nat) : (State.sendVector s v).mem = s.mem := by
  unfold State.sendVector
  (repeat' split) <;> simp [*]

@[simp] theorem State.raiseVector_mem (s : State) (v : Nat) : (State.raiseVector s v).mem = s.mem := by
  unfold State.raiseVector
  (repeat' split) <;> simp [*]

@[simp] theorem State.interrupt_mem (s : State) (n : Nat) : (State.interrupt s n).mem = s.mem := by
  unfold State.interrupt
  (repeat' split) <;> simp [*]

@[simp] theorem State.stopQueue_memOk (s : State) (ctx : Nat) (cause : Nat) (detail : W64) (hm : Memory.wf s.mem = true) : Memory.wf (State.stopQueue s ctx cause detail).mem = true := by
  unfold State.stopQueue
  dsimp only
  (repeat' split) <;> simp [*]

@[simp] theorem State.tally_memOk (s : State) (ctx : Nat) (hm : Memory.wf s.mem = true) : Memory.wf (State.tally s ctx).mem = true := by
  unfold State.tally
  dsimp only
  (repeat' split) <;> simp [*]

@[simp] theorem State.reportRoot_memOk (s : State) (ctx : Nat) (n : Nat) (hm : Memory.wf s.mem = true) : Memory.wf (State.reportRoot s ctx n).mem = true := by
  unfold State.reportRoot
  (repeat' split) <;> simp [*]

@[simp] theorem execUnreachableReport_memOk (from_ : Nat) (s : State) (hm : Memory.wf s.mem = true) : KeepsOk (execUnreachableReport from_ s) := by
  unfold execUnreachableReport
  dsimp only
  (repeat' split) <;> simp [*]

@[simp] theorem State.becomeRoot_memOk (s0 : State) (ctx : Nat) (hm : Memory.wf s0.mem = true) : Memory.wf (State.becomeRoot s0 ctx).mem = true := by
  unfold State.becomeRoot
  dsimp only
  (repeat' split) <;> simp [*]

@[simp] theorem State.settleLaunch_mem (s : State) (parts : List CensusPart) (id : Nat) : (State.settleLaunch s parts id).mem = s.mem := by
  unfold State.settleLaunch
  (repeat' split) <;> simp [*]

@[simp] theorem execCensus_memOk (parts : List CensusPart) (s : State) (hm : Memory.wf s.mem = true) : KeepsOk (execCensus parts s) := by
  unfold execCensus
  dsimp only
  (repeat' split) <;> simp [*]

@[simp] theorem State.useEntry_mem (s : State) (home : Nat) (p : Nat) : (State.useEntry s home p).mem = s.mem := by
  unfold State.useEntry
  (repeat' split) <;> simp [*]

@[simp] theorem State.monitor_mem (s : State) (home : Nat) (die : Nat) (p : Nat) : (State.monitor s home die p).mem = s.mem := by
  unfold State.monitor
  dsimp only
  (repeat' split) <;> simp [*]

@[simp] theorem State.setEntry_mem (s : State) (p : Nat) (e : W64) : (s.setEntry p e).mem = s.mem := by unfold State.setEntry; split <;> rfl

@[simp] theorem State.unpin_mem (s : State) (p : Nat) : (State.unpin s p).mem = s.mem := by
  unfold State.unpin
  (repeat' split) <;> simp [*]

@[simp] theorem State.sendHome_mem (s : State) (die : Nat) (line : Nat) (home : Nat) (x : Subject × Instr) : (State.sendHome s die line home x).mem = s.mem := by
  unfold State.sendHome
  (repeat' split) <;> simp [*]

@[simp] theorem State.atHome_memOk (s : State) (die line : Nat) (x : Subject × Instr) (lost serve : State → State) (hm : Memory.wf s.mem = true)
    (h1 : StFn lost) (h2 : StFn serve) : Memory.wf (s.atHome die line x lost serve).mem = true := by
  unfold State.atHome
  dsimp only
  split
  · simpa using hm
  · split
    · exact h1 _ hm
    · split
      · simpa using hm
      · exact h2 _ (by simp [hm])

@[simp] theorem State.arrive_memOk (s : State) (line : Nat) (x : Subject × Instr) (serve : State → State) (hm : Memory.wf s.mem = true)
    (h : StFn serve) : Memory.wf (s.arrive line x serve).mem = true := by
  unfold State.arrive
  dsimp only
  split
  · exact h _ hm
  · split
    · simp [hm]
    · exact h _ hm

@[simp] theorem State.evictEntry_memOk (s : State) (line : Nat) (hm : Memory.wf s.mem = true) : Memory.wf (s.evictEntry line).mem = true := by
  unfold State.evictEntry
  simp only [setDir_mem]
  refine foldl_memOk' _ _ _ hm fun s i hm => ?_
  split <;> simp [hm]

@[simp] theorem State.makeRoom_memOk (s : State) (line : Nat) (hm : Memory.wf s.mem = true) : Memory.wf (State.makeRoom s line).mem = true := by
  unfold State.makeRoom
  dsimp only
  (repeat' split) <;> simp [*]

@[simp] theorem State.serveRequest_memOk (s : State) (kind : Nat) (die : Nat) (line : Nat) (hm : Memory.wf s.mem = true) : Memory.wf (State.serveRequest s kind die line).mem = true := by
  unfold State.serveRequest
  dsimp only
  (repeat' split) <;> simp [*]

@[simp] theorem State.request_memOk (s : State) (kind die line : Nat) (again : Instr) (hm : Memory.wf s.mem = true) : Memory.wf (s.request kind die line again).mem = true :=
  State.atHome_memOk _ _ _ _ _ _ hm (fun s hm => by simpa using hm) fun s hm =>
    State.arrive_memOk _ _ _ _ hm fun s hm => State.serveRequest_memOk _ _ _ _ hm

@[simp] theorem execRds_memOk (die : Nat) (line : Nat) (s : State) (hm : Memory.wf s.mem = true) : KeepsOk (execRds die line s) := by
  unfold execRds
  (repeat' split) <;> simp [*]

@[simp] theorem execRdx_memOk (die : Nat) (line : Nat) (s : State) (hm : Memory.wf s.mem = true) : KeepsOk (execRdx die line s) := by
  unfold execRdx
  (repeat' split) <;> simp [*]

@[simp] theorem execUpg_memOk (die : Nat) (line : Nat) (s : State) (hm : Memory.wf s.mem = true) : KeepsOk (execUpg die line s) := by
  unfold execUpg
  (repeat' split) <;> simp [*]

@[simp] theorem State.lineWrite_memOk (s : State) (line : Nat) (bs : List (Nat × Byte)) (hm : Memory.wf s.mem = true) : Memory.wf (State.lineWrite s line bs).mem = true := by
  unfold State.lineWrite
  (repeat' split) <;> simp [*]

@[simp] theorem State.loseWriteBack_mem (s : State) (line : Nat) : (State.loseWriteBack s line).mem = s.mem := by
  unfold State.loseWriteBack
  (repeat' split) <;> simp [*]

@[simp] theorem State.writeBackLine_memOk (s : State) (die : Nat) (line : Nat) (bytes : Option (List (Nat × Byte))) (hm : Memory.wf s.mem = true) : Memory.wf (State.writeBackLine s die line bytes).mem = true := by
  unfold State.writeBackLine
  dsimp only
  (repeat' split) <;> simp [*]

@[simp] theorem execWb_memOk (die : Nat) (line : Nat) (bytes : Option (List (Nat × Byte))) (s : State) (hm : Memory.wf s.mem = true) : KeepsOk (execWb die line bytes s) := by
  unfold execWb
  (repeat' split) <;> simp [*]

@[simp] theorem execCleanEviction_mem (die : Nat) (line : Nat) (s : State) : KeepsMem s (execCleanEviction die line s) := by
  unfold execCleanEviction
  dsimp only
  (repeat' split) <;> simp [*]

@[simp] theorem execCleanEviction_memOk (die : Nat) (line : Nat) (s : State) (hm : Memory.wf s.mem = true) : KeepsOk (execCleanEviction die line s) := (execCleanEviction_mem die line s).ok hm

@[simp] theorem execProbe_memOk (die : Nat) (line : Nat) (k : ProbeKind) (s : State) (hm : Memory.wf s.mem = true) : KeepsOk (execProbe die line k s) := by
  unfold execProbe
  (repeat' split) <;> simp [*]

@[simp] theorem execProbeReply_memOk (die : Nat) (line : Nat) (dirty : List (Nat × Byte)) (s : State) (hm : Memory.wf s.mem = true) : KeepsOk (execProbeReply die line dirty s) := by
  unfold execProbeReply
  (repeat' split) <;> simp [*]

@[simp] theorem execRedirect_mem (die : Nat) (page : Nat) (stack : Nat) (s : State) : KeepsMem s (execRedirect die page stack s) := by
  unfold execRedirect
  (repeat' split) <;> simp [*]

@[simp] theorem execRedirect_memOk (die : Nat) (page : Nat) (stack : Nat) (s : State) (hm : Memory.wf s.mem = true) : KeepsOk (execRedirect die page stack s) := (execRedirect_mem die page stack s).ok hm

@[simp] theorem execPageMoveStart_mem (page : Nat) (stack : Nat) (retire : Bool) (s : State) : KeepsMem s (execPageMoveStart page stack retire s) := by
  unfold execPageMoveStart
  (try dsimp only)
  repeat' first | assumption | (simp [*]; done) | (refine foldl_memOk' _ _ _ ?_ fun _ _ _ => ?_) | (refine foldl_pair_memOk _ _ _ ?_ fun _ _ _ => ?_) | split

@[simp] theorem execPageMoveStart_memOk (page : Nat) (stack : Nat) (retire : Bool) (s : State) (hm : Memory.wf s.mem = true) : KeepsOk (execPageMoveStart page stack retire s) := (execPageMoveStart_mem page stack retire s).ok hm

@[simp] theorem State.countMove_mem (s : State) (p : Nat) (retire : Bool) : (State.countMove s p retire).mem = s.mem := by
  unfold State.countMove
  (repeat' split) <;> simp [*]

@[simp] theorem State.abandonMove_mem (s : State) (m : Move) : (State.abandonMove s m).mem = s.mem := by
  unfold State.abandonMove
  (repeat' split) <;> simp [*]

@[simp] theorem execMoveCopyComplete_mem (page : Nat) (s : State) : KeepsMem s (execMoveCopyComplete page s) := by
  unfold execMoveCopyComplete
  (repeat' split) <;> simp [*]

@[simp] theorem execMoveCopyComplete_memOk (page : Nat) (s : State) (hm : Memory.wf s.mem = true) : KeepsOk (execMoveCopyComplete page s) := (execMoveCopyComplete_mem page s).ok hm

theorem moveFrame_memOk (m : List Host.Cell) (a b : Nat) (h : Memory.wf m = true) : Memory.wf (moveFrame m a b) = true := by
  unfold moveFrame
  dsimp only
  generalize List.filter (fun c => decide (a ≤ c.1) && decide (c.1 < a + 2 ^ 17)) m = l
  have h' := filter_wf (fun c => !(decide (a ≤ c.1) && decide (c.1 < a + 2 ^ 17)) && !(decide (b ≤ c.1) && decide (c.1 < b + 2 ^ 17))) h
  generalize List.filter _ m = k at h' ⊢
  induction l generalizing k with
  | nil => exact h'
  | cons c r ih => exact ih _ (memSet_wf _ _ h')
@[simp] theorem execMoveFinish_memOk (page : Nat) (s : State) (hm : Memory.wf s.mem = true) : KeepsOk (execMoveFinish page s) := by
  unfold execMoveFinish
  split
  · simpa using hm
  · dsimp only
    split
    · simp [hm]
    · split
      · simpa using hm
      · simp only [KeepsOk_next, State.countMove_mem, State.setEntry_mem]
        exact moveFrame_memOk _ _ _ hm

@[simp] theorem State.badgerRequests_mem (s : State) (home : Nat) (lines : List Nat) : (State.badgerRequests s home lines).mem = s.mem := by
  unfold State.badgerRequests
  (repeat' split) <;> simp [*]

@[simp] theorem State.sendBadger_mem (s : State) (o : BadgerOp) (home : Nat) : (State.sendBadger s o home).mem = s.mem := by
  unfold State.sendBadger
  (repeat' split) <;> simp [*]

@[simp] theorem badgerEnd_mem (run : BadgerRun) (n : Nat) (w : Option EndStatus × State) : (badgerEnd run n w).2 = w.2 := by
  unfold badgerEnd; split <;> rfl

@[simp] theorem State.badgerWrite_memOk (s : State) (o : BadgerOp) (va : Nat) (bs : List Byte) (hm : Memory.wf s.mem = true) :
    Memory.wf (s.badgerWrite o va bs).2.mem = true := by
  refine foldl_pair_memOk _ _ _ hm fun w r hm => ?_
  unfold badgerLine
  dsimp only
  (repeat' split) <;> simp [hm]

@[simp] theorem State.badgerPerform_memOk (s : State) (run : BadgerRun) (hm : Memory.wf s.mem = true) : Memory.wf (State.badgerPerform s run).2.mem = true := by
  unfold State.badgerPerform
  dsimp only
  (repeat' split) <;> simp [*]

@[simp] theorem execBadgerOperation_memOk (op : BadgerOp) (s : State) (hm : Memory.wf s.mem = true) : KeepsOk (execBadgerOperation op s) := by
  unfold execBadgerOperation
  (try dsimp only)
  (try simp)
  (repeat' split) <;> (try simp [*]) <;> (try simp_all)

@[simp] theorem State.wakeTlwaits_mem (s : State) : (State.wakeTlwaits s).mem = s.mem := by
  unfold State.wakeTlwaits
  (repeat' split) <;> simp [*]

@[simp] theorem execBadgerComplete_memOk (stack : Nat) (ctx : Nat) (num : Nat) (e : EndStatus) (s : State) (hm : Memory.wf s.mem = true) : KeepsOk (execBadgerComplete stack ctx num e s) := by
  unfold execBadgerComplete
  dsimp only
  (repeat' split) <;> simp [*]

@[simp] theorem State.served_mem (s : State) (line : Nat) : (State.served s line).mem = s.mem := by
  unfold State.served
  (repeat' split) <;> simp [*]

@[simp] theorem State.nearAt_memOk (s : State) (line : Nat) (more : State → List Nat) (x : Subject × Instr) (perform : State → State)
    (hm : Memory.wf s.mem = true) (h : StFn perform) : Memory.wf (s.nearAt line more x perform).mem = true := by
  unfold State.nearAt
  refine State.arrive_memOk _ _ _ _ hm fun s hm => ?_
  have h1 := State.nearClearAll_memOk s (line :: more s) hm
  dsimp only
  split
  · simp [h _ h1]
  · simp [h1]

@[simp] theorem State.takeChunk_memOk (s : State) (a : Nat) (hm : Memory.wf s.mem = true) : Memory.wf (State.takeChunk s a).2.mem = true := by
  unfold State.takeChunk
  (repeat' split) <;> simp [*]

@[simp] theorem State.reply_mem (s : State) (handler : Bool) (pos : Nat) (x : Lanes) : (s.reply handler pos x).mem = s.mem := by
  unfold State.reply
  dsimp only
  (repeat' split) <;> first | rfl | simp only [deliverReply_mem, setBlk_mem]

@[simp] theorem execChunkRequest_memOk (handler : Bool) (pos : Nat) (addr : W64) (s : State) (hm : Memory.wf s.mem = true) : KeepsOk (execChunkRequest handler pos addr s) := by
  refine (KeepsOk_next _).mpr (State.atHome_memOk _ _ _ _ _ _ hm (fun s hm => by simp [hm]) fun s hm =>
    State.nearAt_memOk _ _ _ _ _ hm fun s hm => ?_)
  simp [hm]

@[simp] theorem State.setEdgeQ_memOk (s : State) (a : Nat) (q : EdgeQ) (hm : Memory.wf s.mem = true) : Memory.wf (State.setEdgeQ s a q).mem = true := by
  unfold State.setEdgeQ
  (repeat' split) <;> simp [*]

theorem State.edgePerform_memOk {s : State} {r : EdgeReq} {send : Bool} {x : Lanes × State} (h : s.edgePerform r send = some x)
    (hm : Memory.wf s.mem = true) : Memory.wf x.2.mem = true := by
  unfold State.edgePerform at h
  dsimp only at h
  (repeat' split at h) <;> first | (cases h; simp [hm]) | cases h

@[simp] theorem State.serveEdges_memOk (s : State) (desc : W64) (n : Nat) (hm : Memory.wf s.mem = true) : Memory.wf (s.serveEdges desc n).mem = true := by
  induction n generalizing s with
  | zero => exact hm
  | succ n ih =>
    unfold State.serveEdges
    dsimp only
    split
    · exact hm
    · rename_i r send x h
      refine ih _ (State.within_memOk _ _ _ ?_ fun s hm => by simpa using hm)
      have hx : ∃ t : State, Memory.wf t.mem = true ∧ ∃ y, t.edgePerform r send = some y ∧ y = x := by
        have key : ∀ b, (s.nextParked desc b).bind (fun r => ((s.nearLines (s.edgeLines desc b)).edgePerform r b).map fun x => (r, b, x)) = some (r, send, x) →
            ∃ t : State, Memory.wf t.mem = true ∧ ∃ y, t.edgePerform r send = some y ∧ y = x := by
          intro b hb
          obtain ⟨q, -, hq⟩ := Option.bind_eq_some_iff.mp hb
          obtain ⟨y, hy, he⟩ := Option.map_eq_some_iff.mp hq
          cases he
          exact ⟨_, State.nearLines_memOk _ _ hm, _, hy, rfl⟩
        rcases Option.or_eq_some_iff.mp h with h | ⟨-, h⟩
        · exact key _ h
        · exact key _ h
      obtain ⟨t, ht, y, hy, rfl⟩ := hx
      exact State.edgePerform_memOk hy ht

@[simp] theorem State.edgeServe_memOk (s : State) (r : EdgeReq) (send : Bool) (hm : Memory.wf s.mem = true) : Memory.wf (s.edgeServe r send).mem = true := by
  unfold State.edgeServe
  split
  · rename_i x h
    exact State.serveEdges_memOk _ _ _ (State.within_memOk _ _ _ (State.edgePerform_memOk h hm) fun s hm => by simpa using hm)
  · split
    · exact State.within_memOk _ _ _ hm fun s hm => hm
    · exact State.within_memOk _ _ _ hm fun s hm => by simpa using hm

@[simp] theorem State.edgeArrive_memOk (s : State) (r : EdgeReq) (send : Bool) (ev : Instr) (hm : Memory.wf s.mem = true) : Memory.wf (s.edgeArrive r send ev).mem = true :=
  State.atHome_memOk _ _ _ _ _ _ hm (fun s hm => State.within_memOk _ _ _ hm fun s hm => by simp [hm]) fun s hm =>
    State.nearAt_memOk _ _ _ _ _ hm fun s hm => State.edgeServe_memOk _ _ _ hm

@[simp] theorem execEdgeSend_memOk (r : EdgeReq) (s : State) (hm : Memory.wf s.mem = true) : KeepsOk (execEdgeSend r s) := by
  unfold execEdgeSend
  (repeat' split) <;> simp [*]

@[simp] theorem execEdgeTake_memOk (r : EdgeReq) (s : State) (hm : Memory.wf s.mem = true) : KeepsOk (execEdgeTake r s) := by
  unfold execEdgeTake
  (repeat' split) <;> simp [*]

@[simp] theorem execEdgeRetry_memOk (r : EdgeReq) (send : Bool) (s : State) (hm : Memory.wf s.mem = true) : KeepsOk (execEdgeRetry r send s) := by
  unfold execEdgeRetry
  (repeat' split) <;> simp [*]

@[simp] theorem execPcieLinkTrain_mem (rate : Nat) (width : Nat) (s : State) : KeepsMem s (execPcieLinkTrain rate width s) := by
  unfold execPcieLinkTrain
  (repeat' split) <;> simp [*]

@[simp] theorem execPcieLinkTrain_memOk (rate : Nat) (width : Nat) (s : State) (hm : Memory.wf s.mem = true) : KeepsOk (execPcieLinkTrain rate width s) := (execPcieLinkTrain_mem rate width s).ok hm

@[simp] theorem State.logPages_mem (s : State) (as : List Nat) : (State.logPages s as).mem = s.mem := by
  unfold State.logPages
  (repeat' split) <;> simp [*]

@[simp] theorem State.hostWrite_memOk (s : State) (a : Nat) (bs : List Byte) (hm : Memory.wf s.mem = true) : Memory.wf (State.hostWrite s a bs).mem = true := by
  unfold State.hostWrite
  (repeat' split) <;> simp [*]

@[simp] theorem execApertureWrite_memOk (off : Nat) (bytes : List Byte) (s : State) (hm : Memory.wf s.mem = true) : KeepsOk (execApertureWrite off bytes s) := by
  unfold execApertureWrite
  (repeat' split) <;> simp [*]

@[simp] theorem execApertureRead_mem (off : Nat) (len : Nat) (s : State) : KeepsMem s (execApertureRead off len s) := by
  unfold execApertureRead
  dsimp only
  (repeat' split) <;> simp [*]

@[simp] theorem execApertureRead_memOk (off : Nat) (len : Nat) (s : State) (hm : Memory.wf s.mem = true) : KeepsOk (execApertureRead off len s) := (execApertureRead_mem off len s).ok hm

@[simp] theorem State.createQcb_memOk (s : State) (n a : Nat) (hm : Memory.wf s.mem = true) : Memory.wf (s.createQcb n a).mem = true :=
  State.nearLines_memOk _ _ (State.poolWrite_memOk _ _ _ (State.poolWrite_memOk _ _ _ (by simpa only [modQueue_mem] using hm)))

@[simp] theorem State.createAdminWith_memOk (s : State) (qcb : W64) (ring : W64) (hm : Memory.wf s.mem = true) : Memory.wf (State.createAdminWith s qcb ring).mem = true := by
  unfold State.createAdminWith
  dsimp only
  (repeat' split) <;> simp [*]

@[simp] theorem State.createAdmin_memOk (s : State) (v : W64) (hm : Memory.wf s.mem = true) : Memory.wf (State.createAdmin s v).mem = true := by
  unfold State.createAdmin
  dsimp only
  (repeat' split) <;> simp [*]

@[simp] theorem execAdminQcb_memOk (v : W64) (s : State) (hm : Memory.wf s.mem = true) : KeepsOk (execAdminQcb v s) := by
  unfold execAdminQcb
  (repeat' split) <;> simp [*]

@[simp] theorem State.haltQueue_memOk (s : State) (n : Nat) (cause : Nat) (tag : W32) (sub : Nat) (hm : Memory.wf s.mem = true) : Memory.wf (State.haltQueue s n cause tag sub).mem = true := by
  unfold State.haltQueue
  (repeat' split) <;> simp [*]

@[simp] theorem State.mismatch_memOk (s : State) (ctx : Nat) (sub : Nat) (hm : Memory.wf s.mem = true) : Memory.wf (State.mismatch s ctx sub).mem = true := by
  unfold State.mismatch
  (repeat' split) <;> simp [*]

@[simp] theorem State.lookAtSlots_memOk (s : State) (ctx : Nat) (hm : Memory.wf s.mem = true) : Memory.wf (State.lookAtSlots s ctx).mem = true := by
  unfold State.lookAtSlots
  dsimp only
  (repeat' split) <;> simp [*]

@[simp] theorem State.setSlot_mem (s : State) (ctx : Nat) (member : Nat) (x : BitVec 256 × W64) : (State.setSlot s ctx member x).mem = s.mem := by
  unfold State.setSlot
  (repeat' split) <;> simp [*]

@[simp] theorem execAdmitDigest_memOk (ctx : Nat) (member : Nat) (digest : BitVec 256) (at_ : W64) (s : State) (hm : Memory.wf s.mem = true) : KeepsOk (execAdmitDigest ctx member digest at_ s) := by
  unfold execAdmitDigest
  (repeat' split) <;> simp [*]

@[simp] theorem State.ringLost_memOk (s : State) (n : Nat) (code : Nat) (tag : W32) (hm : Memory.wf s.mem = true) : Memory.wf (State.ringLost s n code tag).mem = true := by
  unfold State.ringLost
  (repeat' split) <;> simp [*]

@[simp] theorem State.pump_memOk (s : State) (n : Nat) (hm : Memory.wf s.mem = true) : Memory.wf (State.pump s n).mem = true := by
  unfold State.pump
  dsimp only
  (repeat' split) <;> simp [*]

@[simp] theorem State.readTail_memOk (s : State) (n : Nat) (hm : Memory.wf s.mem = true) : Memory.wf (State.readTail s n).mem = true := by
  unfold State.readTail
  dsimp only
  (repeat' split) <;> simp [*]

@[simp] theorem State.ring_memOk (s : State) (n : Nat) (hm : Memory.wf s.mem = true) : Memory.wf (State.ring s n).mem = true := by
  unfold State.ring
  (repeat' split) <;> simp [*]

@[simp] theorem State.windowWrite_memOk (s : State) (off : Nat) (v : W64) (hm : Memory.wf s.mem = true) : Memory.wf (State.windowWrite s off v).mem = true := by
  unfold State.windowWrite
  dsimp only
  (repeat' split) <;> simp [*]

@[simp] theorem State.sendPending_mem (s : State) : (State.sendPending s).mem = s.mem := by
  unfold State.sendPending
  (repeat' split) <;> simp [*]

@[simp] theorem State.tableWrite_mem (s : State) (k : Nat) (v : W64) : (State.tableWrite s k v).mem = s.mem := by
  unfold State.tableWrite
  (repeat' split) <;> simp [*]

@[simp] theorem execRegisterWrite_memOk (off : Nat) (v : W64) (s : State) (hm : Memory.wf s.mem = true) : KeepsOk (execRegisterWrite off v s) := by
  unfold execRegisterWrite
  (repeat' split) <;> simp [*]

@[simp] theorem State.nudge_mem (s : State) (n : Nat) : (State.nudge s n).mem = s.mem := by
  unfold State.nudge
  (repeat' split) <;> simp [*]

@[simp] theorem State.completePacket_memOk (s : State) (n num : Nat) (hm : Memory.wf s.mem = true) :
    Memory.wf (s.completePacket n num).mem = true := by
  unfold State.completePacket
  split
  · exact hm
  · dsimp only
    refine State.pump_memOk _ _ ?_
    rw [State.nudge_mem]
    refine State.readTail_memOk _ _ ?_
    (repeat' split) <;> simp [hm]

@[simp] theorem State.writeStatus_memOk (s : State) (a : Nat) (result : W64) (status : Nat) (hm : Memory.wf s.mem = true) : Memory.wf (State.writeStatus s a result status).mem = true := by
  unfold State.writeStatus
  (repeat' split) <;> simp [*]

@[simp] theorem State.flushAdmin_memOk (s : State) (k : Nat) (hm : Memory.wf s.mem = true) : Memory.wf (s.flushAdmin k).mem = true := by
  induction k generalizing s with
  | zero => exact hm
  | succ k ih =>
    unfold State.flushAdmin
    split
    · split
      · exact ih _ (by simp [hm])
      · split
        · exact ih _ (by simp [hm])
        · exact hm
    · exact hm

@[simp] theorem State.endAdmin_memOk (s : State) (num : Nat) (result : W64) (status : Nat) (hm : Memory.wf s.mem = true) : Memory.wf (State.endAdmin s num result status).mem = true := by
  unfold State.endAdmin
  (repeat' split) <;> simp [*]

theorem zeroFrame_memOk (m : List Host.Cell) (a b : Nat) (h : Memory.wf m = true) : Memory.wf (zeroFrame m a b) = true := filter_wf _ h
@[simp] theorem State.backPage_memOk (s : State) (page ctx stack frame : Nat) (explicit : Bool) (hm : Memory.wf s.mem = true) :
    Memory.wf (s.backPage page ctx stack frame explicit).mem = true := by
  unfold State.backPage
  dsimp only
  (repeat' split) <;> first | exact zeroFrame_memOk _ _ _ hm | exact hm

@[simp] theorem State.flushPage_memOk (s : State) (page : Nat) (hm : Memory.wf s.mem = true) : Memory.wf (s.flushPage page).mem = true :=
  foldl_memOk' _ _ _ (foldl_memOk' _ _ _ hm fun s c hm => State.flushWhere_memOk _ _ _ hm) fun s l hm => State.evictEntry_memOk _ _ hm

@[simp] theorem State.releasePage_memOk (s : State) (page : Nat) (hm : Memory.wf s.mem = true) : Memory.wf (State.releasePage s page).mem = true := by
  unfold State.releasePage
  (repeat' split) <;> simp [*]

@[simp] theorem State.farDone_memOk (s : State) (p : Packet) (hm : Memory.wf s.mem = true) : Memory.wf (s.farDone p).mem = true := by
  unfold State.farDone
  dsimp only
  split
  · exact State.backPage_memOk _ _ _ _ _ _ hm
  · split <;> simp [hm]
  · exact moveFrame_memOk _ _ _ hm
  · exact hm

@[simp] theorem execPoolCommandCompletion_memOk (status : Byte) (s : State) (hm : Memory.wf s.mem = true) : KeepsOk (execPoolCommandCompletion status s) := by
  unfold execPoolCommandCompletion
  (repeat' split) <;> simp [*]

@[simp] theorem State.askFirst_mem (s : State) (p : Nat) (ctx : Nat) : (State.askFirst s p ctx).mem = s.mem := by
  unfold State.askFirst
  (repeat' split) <;> simp [*]

@[simp] theorem State.retryParts_mem (s : State) : s.retryParts.mem = s.mem := by
  unfold State.retryParts
  refine foldl_mem' _ _ _ fun s p => ?_
  dsimp only
  (repeat' split) <;> simp

@[simp] theorem State.takePart_mem (s : State) (p : Nat) (ctx : Nat) : (State.takePart s p ctx).mem = s.mem := by
  unfold State.takePart
  (repeat' split) <;> simp [*]

@[simp] theorem State.shed_mem (s : State) (k : Nat) : (s.shed k).mem = s.mem := by
  induction k generalizing s with
  | zero => rfl
  | succ k ih =>
    unfold State.shed
    dsimp only
    (repeat' split) <;> simp [ih]

@[simp] theorem execPowerLimitEffecter_mem (watts : Nat) (s : State) : KeepsMem s (execPowerLimitEffecter watts s) := by
  unfold execPowerLimitEffecter
  (repeat' split) <;> simp [*]

@[simp] theorem execPowerLimitEffecter_memOk (watts : Nat) (s : State) (hm : Memory.wf s.mem = true) : KeepsOk (execPowerLimitEffecter watts s) := (execPowerLimitEffecter_mem watts s).ok hm

@[simp] theorem State.bootHomes_mem (s : State) : (State.bootHomes s).mem = s.mem := by
  unfold State.bootHomes
  (repeat' split) <;> simp [*]

@[simp] theorem execPackageNumberEffecter_mem (tray : Nat) (slot : Nat) (s : State) : KeepsMem s (execPackageNumberEffecter tray slot s) := by
  unfold execPackageNumberEffecter
  (repeat' split) <;> simp [*]

@[simp] theorem execPackageNumberEffecter_memOk (tray : Nat) (slot : Nat) (s : State) (hm : Memory.wf s.mem = true) : KeepsOk (execPackageNumberEffecter tray slot s) := (execPackageNumberEffecter_mem tray slot s).ok hm

@[simp] theorem execDomainIdEffecter_mem (v : W64) (s : State) : KeepsMem s (execDomainIdEffecter v s) := by
  unfold execDomainIdEffecter
  (repeat' split) <;> simp [*]

@[simp] theorem execDomainIdEffecter_memOk (v : W64) (s : State) (hm : Memory.wf s.mem = true) : KeepsOk (execDomainIdEffecter v s) := (execDomainIdEffecter_mem v s).ok hm

@[simp] theorem execPresentMaskEffecter_mem (v : W64) (s : State) : KeepsMem s (execPresentMaskEffecter v s) := by
  unfold execPresentMaskEffecter
  (repeat' split) <;> simp [*]

@[simp] theorem execPresentMaskEffecter_memOk (v : W64) (s : State) (hm : Memory.wf s.mem = true) : KeepsOk (execPresentMaskEffecter v s) := (execPresentMaskEffecter_mem v s).ok hm

@[simp] theorem execSensorRead_mem (what : Sensor) (s : State) : KeepsMem s (execSensorRead what s) := by
  unfold execSensorRead
  (repeat' split) <;> simp [*]

@[simp] theorem execSensorRead_memOk (what : Sensor) (s : State) (hm : Memory.wf s.mem = true) : KeepsOk (execSensorRead what s) := (execSensorRead_mem what s).ok hm

@[simp] theorem State.stagePatch_mem (s : State) (bs : List Byte) : (State.stagePatch s bs).2.mem = s.mem := by
  unfold State.stagePatch
  (repeat' split) <;> simp [*]

@[simp] theorem execFirmwareUpdate_mem (c : Component) (image : List Byte) (s : State) : KeepsMem s (execFirmwareUpdate c image s) := by
  unfold execFirmwareUpdate
  (repeat' split) <;> simp [*]

@[simp] theorem execFirmwareUpdate_memOk (c : Component) (image : List Byte) (s : State) (hm : Memory.wf s.mem = true) : KeepsOk (execFirmwareUpdate c image s) := (execFirmwareUpdate_mem c image s).ok hm

@[simp] theorem State.startService_mem (s : State) : (State.startService s).mem = s.mem := by
  unfold State.startService
  (repeat' split) <;> simp [*]

@[simp] theorem execFirmwareActivate_mem (c : Component) (s : State) : KeepsMem s (execFirmwareActivate c s) := by
  unfold execFirmwareActivate
  (repeat' split) <;> simp [*]

@[simp] theorem execFirmwareActivate_memOk (c : Component) (s : State) (hm : Memory.wf s.mem = true) : KeepsOk (execFirmwareActivate c s) := (execFirmwareActivate_mem c s).ok hm

theorem State.askReport_mem {s t : State} {k : Nat} {ws : List W64} (h : s.askReport k ws = some t) : t.mem = s.mem := by
  unfold State.askReport at h
  dsimp only at h
  split at h
  · cases h
  · cases h; split <;> rfl

@[simp] theorem execMctpAttestation_mem (nonce : List Byte) (s : State) : KeepsMem s (execMctpAttestation nonce s) := by
  unfold execMctpAttestation
  dsimp only
  rw [KeepsMem_next]
  cases h : s.askReport 0 _ with
  | none => rfl
  | some t => exact State.askReport_mem h
@[simp] theorem execMctpAttestation_memOk (nonce : List Byte) (s : State) (hm : Memory.wf s.mem = true) : KeepsOk (execMctpAttestation nonce s) :=
  (execMctpAttestation_mem nonce s).ok hm

@[simp] theorem State.unitsAway_mem (s : State) (n : Nat) (id : Nat) (part : Nat) (k : Int) : (State.unitsAway s n id part k).mem = s.mem := by
  unfold State.unitsAway
  (repeat' split) <;> simp [*]

@[simp] theorem State.sendWork_mem (s : State) (n : Nat) (id : Nat) (teams : List Nat) : (State.sendWork s n id teams).mem = s.mem := by
  unfold State.sendWork
  (repeat' split) <;> simp [*]

@[simp] theorem State.splitPackage_mem (s : State) (id : Nat) (l : Launch) (teams : List Nat) : (State.splitPackage s id l teams).mem = s.mem := by
  unfold State.splitPackage
  (repeat' split) <;> simp [*]

@[simp] theorem State.kick_mem (s : State) (ctx : Nat) : (State.kick s ctx).mem = s.mem := by
  unfold State.kick
  (repeat' split) <;> simp [*]

@[simp] theorem State.queueTeams_mem (s : State) (launch : Nat) (lr : List Byte) (l : List (Nat × List Nat)) : (State.queueTeams s launch lr l).mem = s.mem := by
  unfold State.queueTeams
  (repeat' split) <;> simp [*]

@[simp] theorem State.splitDie_mem (s : State) (id : Nat) (l : Launch) (d : Nat) (teams : List Nat) : (State.splitDie s id l d teams).mem = s.mem := by
  unfold State.splitDie
  (repeat' split) <;> simp [*]

@[simp] theorem execSplit_mem (launch : Nat) (die : Option Nat) (teams : List Nat) (s : State) : KeepsMem s (execSplit launch die teams s) := by
  unfold execSplit
  (repeat' split) <;> simp [*]

@[simp] theorem execSplit_memOk (launch : Nat) (die : Option Nat) (teams : List Nat) (s : State) (hm : Memory.wf s.mem = true) : KeepsOk (execSplit launch die teams s) := (execSplit_mem launch die teams s).ok hm

@[simp] theorem State.unqueue_mem (s : State) (team : Nat) : (State.unqueue s team).mem = s.mem := by
  unfold State.unqueue
  (repeat' split) <;> simp [*]

@[simp] theorem State.giveAway_mem (s : State) (r : StealReq) (ts : List Nat) : (State.giveAway s r ts).mem = s.mem := by
  unfold State.giveAway
  (repeat' split) <;> simp [*]

@[simp] theorem execStealRequest_mem (reqs : List StealReq) (s : State) : KeepsMem s (execStealRequest reqs s) := by
  unfold execStealRequest
  (repeat' split) <;> simp [*]

@[simp] theorem execStealRequest_memOk (reqs : List StealReq) (s : State) (hm : Memory.wf s.mem = true) : KeepsOk (execStealRequest reqs s) := (execStealRequest_mem reqs s).ok hm

@[simp] theorem State.takeFar_mem (s : State) (r : StealReq) (idxs : List Nat) : (State.takeFar s r idxs).mem = s.mem := by
  unfold State.takeFar
  (repeat' split) <;> simp [*]

@[simp] theorem execStealReply_mem (r : StealReq) (teams : List Nat) (s : State) : KeepsMem s (execStealReply r teams s) := by
  unfold execStealReply
  (repeat' split) <;> simp [*]

@[simp] theorem execStealReply_memOk (r : StealReq) (teams : List Nat) (s : State) (hm : Memory.wf s.mem = true) : KeepsOk (execStealReply r teams s) := (execStealReply_mem r teams s).ok hm

@[simp] theorem State.dueBin_mem (s : State) (team : Nat) (bin : Nat) : (State.dueBin s team bin).mem = s.mem := by
  unfold State.dueBin
  (repeat' split) <;> simp [*]

@[simp] theorem execBinTimer_mem (team : Nat) (bin : Nat) (s : State) : KeepsMem s (execBinTimer team bin s) := by
  unfold execBinTimer
  dsimp only
  (repeat' split) <;> simp [*]

@[simp] theorem execBinTimer_memOk (team : Nat) (bin : Nat) (s : State) (hm : Memory.wf s.mem = true) : KeepsOk (execBinTimer team bin s) := (execBinTimer_mem team bin s).ok hm

@[simp] theorem execBinLaunch_mem (team : Nat) (bin : Nat) (s : State) : KeepsMem s (execBinLaunch team bin s) := by
  unfold execBinLaunch
  dsimp only
  (repeat' split) <;> simp [*]

@[simp] theorem execBinLaunch_memOk (team : Nat) (bin : Nat) (s : State) (hm : Memory.wf s.mem = true) : KeepsOk (execBinLaunch team bin s) := (execBinLaunch_mem team bin s).ok hm

@[simp] theorem execTaskArrival_mem (launch : Nat) (die : Nat) (core : Nat) (t : TaskDesc) (s : State) : KeepsMem s (execTaskArrival launch die core t s) := by
  unfold execTaskArrival
  dsimp only
  (repeat' split) <;> simp [*]

@[simp] theorem execTaskArrival_memOk (launch : Nat) (die : Nat) (core : Nat) (t : TaskDesc) (s : State) (hm : Memory.wf s.mem = true) : KeepsOk (execTaskArrival launch die core t s) := (execTaskArrival_mem launch die core t s).ok hm

@[simp] theorem execCounterPartReport_mem (launch : Nat) (die : Nat) (zero : Bool) (s : State) : KeepsMem s (execCounterPartReport launch die zero s) := by
  unfold execCounterPartReport
  dsimp only
  (repeat' split) <;> simp [*]

@[simp] theorem execCounterPartReport_memOk (launch : Nat) (die : Nat) (zero : Bool) (s : State) (hm : Memory.wf s.mem = true) : KeepsOk (execCounterPartReport launch die zero s) := (execCounterPartReport_mem launch die zero s).ok hm

@[simp] theorem State.finishFill_mem (s : State) (sec : Bool) (line : Nat) : (State.finishFill s sec line).mem = s.mem := by
  unfold State.finishFill
  dsimp only
  (repeat' split) <;> simp [*]

@[simp] theorem State.faultTeam_memOk (s : State) (team : Nat) (code : Nat) (hm : Memory.wf s.mem = true) : Memory.wf (State.faultTeam s team code).mem = true := by
  unfold State.faultTeam
  (repeat' split) <;> simp_all

@[simp] theorem execRegisterFill_memOk (line : Nat) (fate : ReplyFate) (s : State) (hm : Memory.wf s.mem = true) : KeepsOk (execRegisterFill line fate s) := by
  unfold execRegisterFill
  extract_lets s1 needs
  have h1 : Memory.wf s1.mem = true := by simpa [s1] using hm
  split
  · simpa using h1
  · split <;> refine (KeepsOk_next _).mpr ?_
    · simp [h1]
    · exact State.faultTeam_memOk _ _ _ h1
    · exact State.raise_memOk _ _ (by simpa using h1)

@[simp] theorem State.modStep_mem (s : State) (core : Nat) (n : Nat) (f : MergeStep → MergeStep) : (State.modStep s core n f).mem = s.mem := by
  unfold State.modStep
  (repeat' split) <;> simp [*]

@[simp] theorem State.acceptReq_mem (s : State) (gang : Nat) (n : Nat) : (State.acceptReq s gang n).mem = s.mem := by
  unfold State.acceptReq
  (repeat' split) <;> simp [*]

@[simp] theorem State.serveAged_mem (s : State) (core q : Nat) (l : List (Nat × Nat)) : (s.serveAged core q l).mem = s.mem := by
  induction l generalizing s with
  | nil => rfl
  | cons p r ih =>
    unfold State.serveAged
    dsimp only
    (repeat' split) <;> simp [ih]

@[simp] theorem State.serveAllAged_mem (s : State) (core : Nat) : (State.serveAllAged s core).mem = s.mem := by
  unfold State.serveAllAged
  (repeat' split) <;> simp [*]

@[simp] theorem State.stepReply_memOk (s : State) (core : Nat) (m : MergeStep) (fate : ReplyFate) (hm : Memory.wf s.mem = true) : Memory.wf (State.stepReply s core m fate).mem = true := by
  unfold State.stepReply
  (repeat' split) <;> simp [*]

@[simp] theorem State.gangReply_memOk (s : State) (req : Nat) (fate : ReplyFate) (hm : Memory.wf s.mem = true) : Memory.wf (State.gangReply s req fate).mem = true := by
  unfold State.gangReply
  dsimp only
  (repeat' split) <;> simp [*]

@[simp] theorem execMemoryReply_memOk (req : Nat) (fate : ReplyFate) (s : State) (hm : Memory.wf s.mem = true) : KeepsOk (execMemoryReply req fate s) := by
  unfold execMemoryReply
  (repeat' split) <;> simp_all

@[simp] theorem State.stepReplay_mem (s : State) (core : Nat) (m : MergeStep) : (State.stepReplay s core m).mem = s.mem := by
  unfold State.stepReplay
  (repeat' split) <;> simp [*]

@[simp] theorem State.gangReplay_mem (s : State) (req : Nat) : (State.gangReplay s req).mem = s.mem := by
  unfold State.gangReplay
  (repeat' split) <;> simp [*]

@[simp] theorem execMissReplay_mem (req : Nat) (s : State) : KeepsMem s (execMissReplay req s) := by
  unfold execMissReplay
  (repeat' split) <;> simp_all

@[simp] theorem execMissReplay_memOk (req : Nat) (s : State) (hm : Memory.wf s.mem = true) : KeepsOk (execMissReplay req s) := (execMissReplay_mem req s).ok hm

@[simp] theorem State.awaitSlot_mem (s : State) : (State.awaitSlot s).mem = s.mem := by
  unfold State.awaitSlot
  (repeat' split) <;> simp [*]

@[simp] theorem execWatchedWrite_mem (line : Nat) (s : State) : KeepsMem s (execWatchedWrite line s) := by
  unfold execWatchedWrite
  (repeat' split) <;> simp [*]

@[simp] theorem execWatchedWrite_memOk (line : Nat) (s : State) (hm : Memory.wf s.mem = true) : KeepsOk (execWatchedWrite line s) := (execWatchedWrite_mem line s).ok hm

@[simp] theorem execLrmRemapComplete_mem (core : Nat) (q : Nat) (s : State) : KeepsMem s (execLrmRemapComplete core q s) := by
  unfold execLrmRemapComplete
  (repeat' split) <;> simp [*]

@[simp] theorem execLrmRemapComplete_memOk (core : Nat) (q : Nat) (s : State) (hm : Memory.wf s.mem = true) : KeepsOk (execLrmRemapComplete core q s) := (execLrmRemapComplete_mem core q s).ok hm

@[simp] theorem execTranslationWalk_memOk (va : W64) (write : Bool) (fetch : Bool) (sup : Bool) (s : State) (hm : Memory.wf s.mem = true) : KeepsOk (execTranslationWalk va write fetch sup s) := by
  unfold execTranslationWalk
  (repeat' split) <;> simp [*]

@[simp] theorem execContextFault_memOk (tag : W32) (sub : Nat) (code : Nat) (s : State) (hm : Memory.wf s.mem = true) : KeepsOk (execContextFault tag sub code s) := by
  unfold execContextFault
  (repeat' split) <;> simp [*]

@[simp] theorem State.copyPlaces_memOk (s : State) (team : Nat) (sup : Bool) (space : Nat) (addr : Int) (n : Nat) (write : Bool) (hm : Memory.wf s.mem = true) : Memory.wf (State.copyPlaces s team sup space addr n write).2.mem = true := by
  unfold State.copyPlaces
  dsimp only
  (repeat' split) <;> simp [*]

@[simp] theorem State.setMapBit_memOk (s : State) (team : Nat) (off : Nat) (q : Nat) (hm : Memory.wf s.mem = true) : Memory.wf (State.setMapBit s team off q).mem = true := by
  unfold State.setMapBit
  (repeat' split) <;> simp [*]

theorem setMapBit_memOk (s : State) (a b c : Nat) (hm : Memory.wf s.mem = true) : Memory.wf (s.setMapBit a b c).mem = true :=
  State.setPlace_memOk _ _ _ (State.ownStash_memOk _ _ _ hm)
@[simp] theorem copyIndex_memOk (team : Nat) (p : CopyPart) (d : CopyDesc) (q : Nat) (x : CopyAcc) (hm : Memory.wf x.s.mem = true) :
    Memory.wf (copyIndex team p d q x).2.s.mem = true := by
  unfold copyIndex
  extract_lets at_ r
  have h : Memory.wf r.2.mem = true := State.copyPlaces_memOk _ _ _ _ _ _ _ hm
  clear_value r
  split
  · split <;> exact h
  · extract_lets n v
    split
    · exact h
    · split
      · exact h
      · show Memory.wf (State.mem (if _ then _ else _)) = true
        split
        · exact setMapBit_memOk _ _ _ _ h
        · exact h
@[simp] theorem copyElement_memOk (team : Nat) (p : CopyPart) (d : CopyDesc) (q k : Nat) (i : CopyIndex) (x : CopyAcc) (hm : Memory.wf x.s.mem = true) :
    Memory.wf (copyElement team p d q k i x).s.mem = true := by
  unfold copyElement
  dsimp only
  (repeat' split) <;> first | exact hm | exact State.copyPlaces_memOk _ _ _ _ _ _ _ hm
@[simp] theorem copyRow_memOk (team : Nat) (p : CopyPart) (d : CopyDesc) (q : Nat) (i : CopyIndex) (k : Nat) (x : CopyAcc) (hm : Memory.wf x.s.mem = true) :
    Memory.wf (copyRow team p d q i k x).s.mem = true := by
  induction k with
  | zero => exact hm
  | succ k ih => exact copyElement_memOk _ _ _ _ _ _ _ ih
@[simp] theorem copyPart_memOk (team : Nat) (p : CopyPart) (d : CopyDesc) (q : Nat) (x : CopyAcc) (hm : Memory.wf x.s.mem = true) :
    Memory.wf (copyPart team p d q x).s.mem = true := by
  induction q with
  | zero => exact hm
  | succ q ih =>
    unfold copyPart
    dsimp only
    have h2 : Memory.wf (if usesIndex p.kind then copyIndex team p d q (copyPart team p d q x) else (.use q, copyPart team p d q x)).2.s.mem = true := by
      split
      · exact copyIndex_memOk _ _ _ _ _ ih
      · exact ih
    split
    · exact ih
    · split
      · exact h2
      · exact copyRow_memOk _ _ _ _ _ _ _ h2
@[simp] theorem Copy.reads_memOk (c : Copy) (s : State) (hm : Memory.wf s.mem = true) : Memory.wf (c.reads s).s.mem = true := by
  unfold Copy.reads
  generalize hx : ({ s := s } : CopyAcc) = x
  replace hm : Memory.wf x.s.mem = true := by rw [← hx]; exact hm
  clear hx
  generalize c.supplied = l
  induction l generalizing x with
  | nil => exact hm
  | cons p r ih =>
    refine ih _ ?_
    dsimp only
    split
    · exact hm
    · exact copyPart_memOk _ _ _ _ _ hm
@[simp] theorem copyWrites_memOk (team : Nat) (l : List (CopyPart × Nat × Int × List Byte)) (x : CopyAcc) (hm : Memory.wf x.s.mem = true) :
    Memory.wf (copyWrites team l x).s.mem = true := by
  induction l generalizing x with
  | nil => exact hm
  | cons p r ih =>
    obtain ⟨p, sp, a, bs⟩ := p
    unfold copyWrites
    have h := State.copyPlaces_memOk x.s team p.sup sp a bs.length true hm
    dsimp only
    split
    · exact ih _ (by simp [h])
    · exact ih _ h
    · split
      · exact ih _ h
      · exact h
@[simp] theorem Copy.run_memOk (c : Copy) (s : State) (hm : Memory.wf s.mem = true) : Memory.wf (c.run s).s.mem = true :=
  copyWrites_memOk _ _ _ (Copy.reads_memOk _ _ hm)
@[simp] theorem State.startCopy_memOk (s : State) (core : Nat) (c : Copy) (hm : Memory.wf s.mem = true) : Memory.wf (s.startCopy core c).mem = true := by
  unfold State.startCopy
  extract_lets +onlyGivenNames s1 r s2
  have h1 : Memory.wf s1.mem = true := by simp only [s1, modTeam_mem]; exact hm
  have h2 : Memory.wf r.s.mem = true := Copy.run_memOk c _ (State.flushCore_memOk _ _ h1)
  clear_value r
  have h3 : Memory.wf s2.mem = true := by simp only [s2, modCore_mem]; exact h2
  clear_value s2
  split
  · rw [laterOn_mem]; exact h3
  · rw [offCore_mem]; exact h3

@[simp] theorem State.tryCopies_memOk (s : State) (core : Nat) (hm : Memory.wf s.mem = true) : Memory.wf (s.tryCopies core).mem = true := by
  unfold State.tryCopies
  refine foldl_memOk' _ _ _ hm fun s c hm => ?_
  split <;> simp [hm]

@[simp] theorem State.addPart_memOk (s : State) (core : Nat) (team : Nat) (parts : Nat) (p : CopyPart) (hm : Memory.wf s.mem = true) : Memory.wf (State.addPart s core team parts p).mem = true := by
  unfold State.addPart
  dsimp only
  (repeat' split) <;> simp [*]

@[simp] theorem execCopyPartArrive_memOk (gang : Nat) (team : Nat) (part : Nat) (p : Nat) (flight : Nat) (kind : BitVec 2) (sup : Bool) (lck : W64) (sord : BitVec 24) (desc : List Byte) (s : State) (hm : Memory.wf s.mem = true) : KeepsOk (execCopyPartArrive gang team part p flight kind sup lck sord desc s) := by
  unfold execCopyPartArrive
  (repeat' split) <;> simp [*]

@[simp] theorem State.copyFollow_mem (s : State) (core : Nat) (c : Copy) : (State.copyFollow s core c).mem = s.mem := by
  unfold State.copyFollow
  dsimp only
  (repeat' split) <;> simp [*]

@[simp] theorem State.copyEnds_mem (s : State) (core : Nat) (c : Copy) : (State.copyEnds s core c).mem = s.mem := by
  unfold State.copyEnds
  (repeat' split) <;> simp [*]

@[simp] theorem State.copySignals_memOk (s : State) (core : Nat) (c : Copy) (hm : Memory.wf s.mem = true) : Memory.wf (State.copySignals s core c).mem = true := by
  unfold State.copySignals
  (repeat' split) <;> simp [*]

@[simp] theorem State.recordProv_memOk (s : State) (gang : Nat) (e : Nat) (sord : BitVec 24) (lck : W64) (hm : Memory.wf s.mem = true) : Memory.wf (State.recordProv s gang e sord lck).mem = true := by
  unfold State.recordProv
  (repeat' split) <;> simp [*]

@[simp] theorem State.copyFollowed_memOk (s : State) (c : Copy) (hm : Memory.wf s.mem = true) : Memory.wf (State.copyFollowed s c).mem = true := by
  unfold State.copyFollowed
  (repeat' split) <;> simp [*]

@[simp] theorem State.dropCopy_mem (s : State) (core : Nat) (c : Copy) : (State.dropCopy s core c).mem = s.mem := by
  unfold State.dropCopy
  (repeat' split) <;> simp [*]

@[simp] theorem execCopyComplete_memOk (team : Nat) (num : Nat) (s : State) (hm : Memory.wf s.mem = true) : KeepsOk (execCopyComplete team num s) := by
  unfold execCopyComplete
  (repeat' split) <;> simp [*]

@[simp] theorem execCopyFailureReport_mem (team : Nat) (num : Nat) (s : State) : KeepsMem s (execCopyFailureReport team num s) := by
  unfold execCopyFailureReport
  (repeat' split) <;> simp [*]

@[simp] theorem execCopyFailureReport_memOk (team : Nat) (num : Nat) (s : State) (hm : Memory.wf s.mem = true) : KeepsOk (execCopyFailureReport team num s) := (execCopyFailureReport_mem team num s).ok hm

@[simp] theorem execSmapComplete_mem (team : Nat) (region : Nat) (s : State) : KeepsMem s (execSmapComplete team region s) := by
  unfold execSmapComplete
  (repeat' split) <;> simp [*]

@[simp] theorem execSmapComplete_memOk (team : Nat) (region : Nat) (s : State) (hm : Memory.wf s.mem = true) : KeepsOk (execSmapComplete team region s) := (execSmapComplete_mem team region s).ok hm

@[simp] theorem execRegionWritebackComplete_mem (gang : Nat) (team : Nat) (region : Nat) (s : State) : KeepsMem s (execRegionWritebackComplete gang team region s) := by
  unfold execRegionWritebackComplete
  (repeat' split) <;> simp [*]

@[simp] theorem execRegionWritebackComplete_memOk (gang : Nat) (team : Nat) (region : Nat) (s : State) (hm : Memory.wf s.mem = true) : KeepsOk (execRegionWritebackComplete gang team region s) := (execRegionWritebackComplete_mem gang team region s).ok hm

@[simp] theorem execDroopEnd_mem (die : Nat) (core : Nat) (s : State) : KeepsMem s (execDroopEnd die core s) := by
  unfold execDroopEnd
  (repeat' split) <;> simp [*]

@[simp] theorem execDroopEnd_memOk (die : Nat) (core : Nat) (s : State) (hm : Memory.wf s.mem = true) : KeepsOk (execDroopEnd die core s) := (execDroopEnd_mem die core s).ok hm

@[simp] theorem execDomainReform_mem (members : W64) (s : State) : KeepsMem s (execDomainReform members s) := by
  unfold execDomainReform
  (repeat' split) <;> simp [*]

@[simp] theorem execDomainReform_memOk (members : W64) (s : State) (hm : Memory.wf s.mem = true) : KeepsOk (execDomainReform members s) := (execDomainReform_mem members s).ok hm

@[simp] theorem execPcieAtomicop_memOk (kind : PcieAtomic) (off : Nat) (wide : Bool) (operand compare : W64) (s : State)
    (hm : Memory.wf s.mem = true) : KeepsOk (execPcieAtomicop kind off wide operand compare s) := by
  unfold execPcieAtomicop
  dsimp only
  generalize hn : (if wide = true then 8 else 4) = n
  generalize s.hostFail (s.apertureAt off) = hf
  split
  · rw [KeepsOk_next, emit_mem, State.logPages_mem]; exact hm
  · rw [KeepsOk_next, emit_mem]; exact State.hostWrite_memOk _ _ _ hm

@[simp] theorem execBadgerFailureReport_mem (gang : Nat) (stack : Nat) (num : Nat) (e : EndStatus) (s : State) : KeepsMem s (execBadgerFailureReport gang stack num e s) := by
  unfold execBadgerFailureReport
  (repeat' split) <;> simp [*]

@[simp] theorem execBadgerFailureReport_memOk (gang : Nat) (stack : Nat) (num : Nat) (e : EndStatus) (s : State) (hm : Memory.wf s.mem = true) : KeepsOk (execBadgerFailureReport gang stack num e s) := (execBadgerFailureReport_mem gang stack num e s).ok hm

@[simp] theorem execPartitionRestore_memOk (fate : ReplyFate) (s : State) (hm : Memory.wf s.mem = true) : KeepsOk (execPartitionRestore fate s) := by
  unfold execPartitionRestore
  dsimp only
  (repeat' split) <;> simp [*]

@[simp] theorem State.testCore_mem (s : State) (core : Nat) : (s.testCore core).mem = s.mem := by
  unfold State.testCore
  dsimp only
  exact (foldl_mem' _ _ _ fun s k => by simp).trans (by simp)

@[simp] theorem execStandbyPowerGood_mem (s : State) : KeepsMem s (execStandbyPowerGood s) := by
  unfold execStandbyPowerGood
  split
  · simp
  · dsimp only
    rw [KeepsMem_next, offCore_mem, foldl_mem' _ _ _ fun s n => State.testCore_mem s n]
    rfl
@[simp] theorem execStandbyPowerGood_memOk (s : State) (hm : Memory.wf s.mem = true) : KeepsOk (execStandbyPowerGood s) :=
  (execStandbyPowerGood_mem s).ok hm

@[simp] theorem State.coldState_memOk (s : State) : Memory.wf s.coldState.mem = true := rfl

@[simp] theorem execColdReset_memOk (s : State) (hm : Memory.wf s.mem = true) : KeepsOk (execColdReset s) := by
  unfold execColdReset
  (repeat' split) <;> simp [*]

@[simp] theorem execWarmReset_mem (s : State) : KeepsMem s (execWarmReset s) := by
  unfold execWarmReset
  (repeat' split) <;> simp [*]

@[simp] theorem execWarmReset_memOk (s : State) (hm : Memory.wf s.mem = true) : KeepsOk (execWarmReset s) := (execWarmReset_mem s).ok hm

theorem zeros_memOk (a k : Nat) (l : List Nat) (m : List Host.Cell) (h : Memory.wf m = true) :
    Memory.wf (l.foldl (fun m i => zeroFrame m a (k + i)) m) = true := by
  induction l generalizing m with
  | nil => exact h
  | cons i r ih => exact ih _ (zeroFrame_memOk _ _ _ h)
@[simp] theorem State.prepareAdmin_memOk (s : State) (hm : Memory.wf s.mem = true) : Memory.wf s.prepareAdmin.mem = true := by
  unfold State.prepareAdmin
  generalize List.range 16 = l
  exact zeros_memOk _ _ _ _ hm

@[simp] theorem execBootComplete_memOk (s : State) (hm : Memory.wf s.mem = true) : KeepsOk (execBootComplete s) := by
  unfold execBootComplete
  (repeat' split) <;> simp [*]

@[simp] theorem State.beginTransition_mem (s : State) : (State.beginTransition s).mem = s.mem := by
  unfold State.beginTransition
  (repeat' split) <;> simp [*]

@[simp] theorem State.startTogether_mem (s : State) : (State.startTogether s).mem = s.mem := by
  unfold State.startTogether
  (repeat' split) <;> simp [*]

@[simp] theorem State.noteEnd_mem (s : State) (n : Nat) (units : Nat) : (State.noteEnd s n units).mem = s.mem := by
  unfold State.noteEnd
  (repeat' split) <;> simp [*]

@[simp] theorem execTrainingEnd_mem (s : State) : KeepsMem s (execTrainingEnd s) := by
  unfold execTrainingEnd
  dsimp only
  (repeat' split) <;> simp [*]

@[simp] theorem execTrainingEnd_memOk (s : State) (hm : Memory.wf s.mem = true) : KeepsOk (execTrainingEnd s) := (execTrainingEnd_mem s).ok hm

@[simp] theorem State.widen_memOk (s : State) (hm : Memory.wf s.mem = true) : Memory.wf s.widen.mem = true := by
  unfold State.widen
  refine State.ring_memOk _ _ (foldl_memOk' _ _ _ ?_ fun s c hm => State.ring_memOk _ _ hm)
  rw [State.retryParts_mem, modPkg_mem]
  exact State.publishService_memOk _ (by simpa using hm)

@[simp] theorem execServiceTransitionTimeout_memOk (s : State) (hm : Memory.wf s.mem = true) : KeepsOk (execServiceTransitionTimeout s) := by
  unfold execServiceTransitionTimeout
  dsimp only
  (repeat' split) <;> simp [*]

@[simp] theorem State.guardDie_mem (s : State) (ctx : Nat) (die : Nat) : (State.guardDie s ctx die).mem = s.mem := by
  unfold State.guardDie
  (repeat' split) <;> simp [*]

@[simp] theorem execDroopGuard_mem (s : State) : KeepsMem s (execDroopGuard s) := by
  unfold execDroopGuard
  dsimp only
  (repeat' split) <;> simp [*]

@[simp] theorem execDroopGuard_memOk (s : State) (hm : Memory.wf s.mem = true) : KeepsOk (execDroopGuard s) := (execDroopGuard_mem s).ok hm

@[simp] theorem State.moveQueued_mem (s : State) (p : Nat) (ctx : Nat) : (State.moveQueued s p ctx).mem = s.mem := by
  unfold State.moveQueued
  (repeat' split) <;> simp [*]

@[simp] theorem State.onePart_mem (s : State) (ctx : Nat) (die : Nat) : (State.onePart s ctx die).mem = s.mem := by
  unfold State.onePart
  (repeat' split) <;> simp [*]

@[simp] theorem State.pursueDie_mem (s : State) (ctx die want : Nat) : (s.pursueDie ctx die want).mem = s.mem := by
  unfold State.pursueDie
  dsimp only
  split
  · exact foldl_mem' _ _ _ fun s _ => State.onePart_mem _ _ _
  · refine foldl_mem' _ _ _ fun s p => ?_
    (repeat' split) <;> simp

@[simp] theorem State.pursue_mem (s : State) (ctx : Nat) : (State.pursue s ctx).mem = s.mem := by
  unfold State.pursue
  (repeat' split) <;> simp [*]

@[simp] theorem State.pursueAll_mem (s : State) : s.pursueAll.mem = s.mem := by
  unfold State.pursueAll
  refine foldl_mem' _ _ _ fun s k => foldl_mem' _ _ _ fun s c => ?_
  split <;> simp

@[simp] theorem State.nextOwner_mem (s : State) (p : Nat) : (State.nextOwner s p).mem = s.mem := by
  unfold State.nextOwner
  (repeat' split) <;> simp [*]

@[simp] theorem State.freePart_mem (s : State) (p : Nat) : (State.freePart s p).mem = s.mem := by
  unfold State.freePart
  (repeat' split) <;> simp [*]

@[simp] theorem State.grantPart_mem (s : State) (p : Nat) (ctx : Nat) : (State.grantPart s p ctx).mem = s.mem := by
  unfold State.grantPart
  (repeat' split) <;> simp [*]

@[simp] theorem State.checkAsks_memOk (s : State) (ctx : Nat) (hm : Memory.wf s.mem = true) : Memory.wf (s.checkAsks ctx).mem = true := by
  unfold State.checkAsks
  refine foldl_memOk' _ _ _ hm fun s a hm => ?_
  split <;> simp [hm]

@[simp] theorem State.resplit_mem (s : State) (ctx : Nat) : (State.resplit s ctx).mem = s.mem := by
  unfold State.resplit
  (repeat' split) <;> simp [*]

@[simp] theorem State.setMode_mem (s : State) (p : Nat) (ctx : Nat) : (State.setMode s p ctx).mem = s.mem := by
  unfold State.setMode
  (repeat' split) <;> simp [*]

@[simp] theorem execPartitionAdmission_memOk (s : State) (hm : Memory.wf s.mem = true) : KeepsOk (execPartitionAdmission s) := by
  unfold execPartitionAdmission
  dsimp only
  (repeat' split) <;> simp [*]

@[simp] theorem execThermalStop_memOk (s : State) (hm : Memory.wf s.mem = true) : KeepsOk (execThermalStop s) := by
  unfold execThermalStop
  dsimp only
  split <;> refine (KeepsOk_next _).mpr (foldl_memOk' _ _ _ ?_ fun s c hm => ?_)
  · exact hm
  · split <;> simp [hm]
  · simp [hm]
  · split <;> simp [hm]

@[simp] theorem State.publish_mem (s : State) : (State.publish s).mem = s.mem := by
  unfold State.publish
  (repeat' split) <;> simp [*]

@[simp] theorem execDomainPublish_mem (s : State) : KeepsMem s (execDomainPublish s) := by
  unfold execDomainPublish
  (repeat' split) <;> simp [*]

@[simp] theorem execDomainPublish_memOk (s : State) (hm : Memory.wf s.mem = true) : KeepsOk (execDomainPublish s) := (execDomainPublish_mem s).ok hm

@[simp] theorem execFormationTimeout_mem (s : State) : KeepsMem s (execFormationTimeout s) := by
  unfold execFormationTimeout
  (repeat' split) <;> simp [*]

@[simp] theorem execFormationTimeout_memOk (s : State) (hm : Memory.wf s.mem = true) : KeepsOk (execFormationTimeout s) := (execFormationTimeout_mem s).ok hm

@[simp] theorem execHeartbeat_mem (s : State) : KeepsMem s (execHeartbeat s) := by
  unfold execHeartbeat
  dsimp only
  (repeat' split) <;> simp [*]

@[simp] theorem execHeartbeat_memOk (s : State) (hm : Memory.wf s.mem = true) : KeepsOk (execHeartbeat s) := (execHeartbeat_mem s).ok hm

@[simp] theorem execHeartbeatTimeout_memOk (s : State) (hm : Memory.wf s.mem = true) : KeepsOk (execHeartbeatTimeout s) := by
  unfold execHeartbeatTimeout
  dsimp only
  (repeat' split) <;> simp [*]

@[simp] theorem execStandbyTakeover_mem (s : State) : KeepsMem s (execStandbyTakeover s) := by
  unfold execStandbyTakeover
  dsimp only
  (repeat' split) <;> simp [*]

@[simp] theorem execStandbyTakeover_memOk (s : State) (hm : Memory.wf s.mem = true) : KeepsOk (execStandbyTakeover s) := (execStandbyTakeover_mem s).ok hm

@[simp] theorem execFreeze_mem (s : State) : KeepsMem s (execFreeze s) := by
  unfold execFreeze
  dsimp only
  (repeat' split) <;> simp [*]

@[simp] theorem execFreeze_memOk (s : State) (hm : Memory.wf s.mem = true) : KeepsOk (execFreeze s) := (execFreeze_mem s).ok hm

@[simp] theorem State.wakeContext_mem (s : State) (ctx : Nat) : (State.wakeContext s ctx).mem = s.mem := by
  unfold State.wakeContext
  (repeat' split) <;> simp [*]

@[simp] theorem State.goOn_mem (s : State) (ctx : Nat) (mode : Option Bool) : (State.goOn s ctx mode).mem = s.mem := by
  unfold State.goOn
  (repeat' split) <;> simp [*]

@[simp] theorem execThaw_memOk (s : State) (hm : Memory.wf s.mem = true) : KeepsOk (execThaw s) := by
  unfold execThaw
  dsimp only
  (repeat' split) <;> simp [*]

@[simp] theorem execAdminDoorbell_memOk (s : State) (hm : Memory.wf s.mem = true) : KeepsOk (execAdminDoorbell s) := by
  unfold execAdminDoorbell
  (repeat' split) <;> simp [*]

@[simp] theorem execDoorbell_memOk (s : State) (hm : Memory.wf s.mem = true) : KeepsOk (execDoorbell s) := by
  unfold execDoorbell
  (repeat' split) <;> simp [*]

@[simp] theorem execTailPoll_memOk (s : State) (hm : Memory.wf s.mem = true) : KeepsOk (execTailPoll s) := by
  unfold execTailPoll
  (repeat' split) <;> simp [*]

@[simp] theorem execPacketAdmission_memOk (s : State) (hm : Memory.wf s.mem = true) : KeepsOk (execPacketAdmission s) := by
  unfold execPacketAdmission
  dsimp only
  (repeat' split) <;> simp [*]

@[simp] theorem execAdmitTimeout_memOk (s : State) (hm : Memory.wf s.mem = true) : KeepsOk (execAdmitTimeout s) := by
  unfold execAdmitTimeout
  dsimp only
  (repeat' split) <;> simp [*]

@[simp] theorem State.acceptWork_mem (s : State) (root : Nat) (ws : List W64) : (State.acceptWork s root ws).mem = s.mem := by
  unfold State.acceptWork
  (repeat' split) <;> simp [*]

@[simp] theorem State.acceptPacket_memOk (s : State) (p : Packet) (hm : Memory.wf s.mem = true) : Memory.wf (State.acceptPacket s p).mem = true := by
  unfold State.acceptPacket
  (repeat' split) <;> simp [*]

@[simp] theorem State.starting_memOk (s : State) (f : Packet → State → State) (hm : Memory.wf s.mem = true)
    (hf : StFn1 f) : KeepsOk (s.starting f) := by
  unfold State.starting
  dsimp only
  (repeat' split) <;> first | (simp only [KeepsOk_next]; exact State.pump_memOk _ _ (hf _ _ (by simp [hm]))) | simp [hm]

@[simp] theorem State.startLaunch_memOk (s : State) (p : Packet) (graph : Option Nat) (order : List Nat) (id : Nat) (addr : W64) (lr : List Byte) (hm : Memory.wf s.mem = true) : Memory.wf (State.startLaunch s p graph order id addr lr).mem = true := by
  unfold State.startLaunch
  (repeat' split) <;> simp [*]

@[simp] theorem State.startPacket_memOk (s : State) (p : Packet) (recs : List (W64 × List Byte)) (graph : Option Nat) (hm : Memory.wf s.mem = true) : Memory.wf (State.startPacket s p recs graph).mem = true := by
  unfold State.startPacket
  (repeat' split) <;> simp_all

@[simp] theorem execLaunch_memOk (s : State) (hm : Memory.wf s.mem = true) : KeepsOk (execLaunch s) := by
  unfold execLaunch
  (repeat' split) <;> simp_all

@[simp] theorem execGraph_memOk (s : State) (hm : Memory.wf s.mem = true) : KeepsOk (execGraph s) := by
  unfold execGraph
  (repeat' split) <;> simp_all

@[simp] theorem execTlwaitPacket_mem (s : State) : KeepsMem s (execTlwaitPacket s) := by
  unfold execTlwaitPacket
  dsimp only
  (repeat' split) <;> simp [*]

@[simp] theorem execTlwaitPacket_memOk (s : State) (hm : Memory.wf s.mem = true) : KeepsOk (execTlwaitPacket s) := (execTlwaitPacket_mem s).ok hm

@[simp] theorem execTlwaitSatisfied_memOk (s : State) (hm : Memory.wf s.mem = true) : KeepsOk (execTlwaitSatisfied s) := by
  unfold execTlwaitSatisfied
  dsimp only
  (repeat' split) <;> simp [*]

@[simp] theorem execTlwaitTimeout_memOk (s : State) (hm : Memory.wf s.mem = true) : KeepsOk (execTlwaitTimeout s) := by
  unfold execTlwaitTimeout
  dsimp only
  (repeat' split) <;> simp [*]

@[simp] theorem State.afterAll_memOk (s : State) (f : Packet → State → State) (hm : Memory.wf s.mem = true)
    (hf : StFn1 f) : KeepsOk (s.afterAll f) := by
  have hl : ∀ t : State, Memory.wf t.mem = true → Memory.wf (match (t.queueAt s.pkt.queue).accepted with
      | a :: _ => if a.num = s.pkt.num && (t.queueAt s.pkt.queue).qstate != QState.stopped && t.owl.state == 1 then
          (f s.pkt t).completePacket s.pkt.queue s.pkt.num else t
      | [] => t).mem = true := by
    intro t ht
    split
    · split
      · exact State.completePacket_memOk _ _ _ (hf _ _ ht)
      · exact ht
    · exact ht
  unfold State.afterAll
  dsimp only
  split
  · simpa using hm
  · split
    · exact (KeepsOk_next _).mpr (hl s hm)
    · exact State.starting_memOk _ _ hm fun _ t ht => hl t ht

@[simp] theorem State.raiseQtl_memOk (s : State) (n : Nat) (v : W64) (hm : Memory.wf s.mem = true) : Memory.wf (State.raiseQtl s n v).mem = true := by
  unfold State.raiseQtl
  (repeat' split) <;> simp [*]

@[simp] theorem execTlsignal_memOk (s : State) (hm : Memory.wf s.mem = true) : KeepsOk (execTlsignal s) := by
  unfold execTlsignal
  refine State.afterAll_memOk _ _ hm fun p s hm => ?_
  dsimp only
  split <;> simp [hm]

@[simp] theorem execFencePacket_memOk (s : State) (hm : Memory.wf s.mem = true) : KeepsOk (execFencePacket s) := by
  unfold execFencePacket
  (repeat' split) <;> simp [*]

@[simp] theorem execPreempt_memOk (s : State) (hm : Memory.wf s.mem = true) : KeepsOk (execPreempt s) := by
  unfold execPreempt
  (repeat' split) <;> simp_all

@[simp] theorem State.tracePacket_memOk (s : State) (f : Packet → State → State) (hm : Memory.wf s.mem = true)
    (hf : StFn1 f) : KeepsOk (s.tracePacket f) := by
  unfold State.tracePacket
  (repeat' split) <;> first | (simp only [KeepsOk_next]; exact hf _ _ hm) | exact State.starting_memOk _ _ hm hf | simp [hm]

@[simp] theorem State.closeSession_mem (s : State) (ctx : Nat) (cause : Nat) : (State.closeSession s ctx cause).mem = s.mem := by
  unfold State.closeSession
  (repeat' split) <;> simp [*]

@[simp] theorem State.openSession_memOk (s : State) (ctx : Nat) (ws : List W64) (hm : Memory.wf s.mem = true) : Memory.wf (State.openSession s ctx ws).mem = true := by
  unfold State.openSession
  dsimp only
  (repeat' split) <;> simp_all

@[simp] theorem execTraceOpen_memOk (s : State) (hm : Memory.wf s.mem = true) : KeepsOk (execTraceOpen s) := by
  unfold execTraceOpen
  refine State.tracePacket_memOk _ _ hm fun p s hm => ?_
  (repeat' split) <;> simp [hm]

@[simp] theorem execTraceClose_memOk (s : State) (hm : Memory.wf s.mem = true) : KeepsOk (execTraceClose s) := by
  unfold execTraceClose
  refine State.tracePacket_memOk _ _ hm fun p s hm => ?_
  (repeat' split) <;> simp [hm]

@[simp] theorem State.finalRecord_memOk (s : State) (ctx : Nat) (t : Trace) (cause : Nat) (hm : Memory.wf s.mem = true) : Memory.wf (State.finalRecord s ctx t cause).mem = true := by
  unfold State.finalRecord
  (repeat' split) <;> simp [*]

@[simp] theorem State.tryEndReset_memOk (s : State) (ctx : Nat) (hm : Memory.wf s.mem = true) : Memory.wf (s.tryEndReset ctx).mem = true := by
  unfold State.tryEndReset
  split
  · exact hm
  · have h := State.lookAtSlots_memOk _ ctx (State.ring_memOk _ ctx (State.modQcb_memOk s ctx (fun q => { q with qstate := .idle }) hm))
    dsimp only
    split
    · exact State.endAdmin_memOk _ _ _ _ h
    · exact h

@[simp] theorem execTraceDrainTimeout_memOk (s : State) (hm : Memory.wf s.mem = true) : KeepsOk (execTraceDrainTimeout s) := by
  unfold execTraceDrainTimeout
  dsimp only
  split
  · simpa using hm
  · split
    · simpa using hm
    · exact (KeepsOk_next _).mpr (State.tryEndReset_memOk _ _ (foldl_memOk' _ _ _ (by simp [hm]) fun s a hm => by simpa using hm))

@[simp] theorem execWrap_memOk (s : State) (hm : Memory.wf s.mem = true) : KeepsOk (execWrap s) := by
  unfold execWrap
  refine State.starting_memOk _ _ hm fun p s hm => ?_
  (repeat' split) <;> simp [hm]

@[simp] theorem State.askPart_mem (s : State) (p : Nat) (ctx : Nat) : (State.askPart s p ctx).mem = s.mem := by
  unfold State.askPart
  (repeat' split) <;> simp [*]

@[simp] theorem State.enterContext_mem (s : State) (root : Nat) (ws : List W64) : (State.enterContext s root ws).mem = s.mem := by
  unfold State.enterContext
  (repeat' split) <;> simp [*]

@[simp] theorem State.joinContext_mem (s : State) (root : Nat) (ws : List W64) : (State.joinContext s root ws).mem = s.mem := by
  unfold State.joinContext
  (repeat' split) <;> simp [*]

@[simp] theorem State.createContext_memOk (s : State) (ws : List W64) (hm : Memory.wf s.mem = true) : Memory.wf (State.createContext s ws).mem = true := by
  unfold State.createContext
  dsimp only
  (repeat' split) <;> simp [*]

@[simp] theorem execCtxCreate_memOk (s : State) (hm : Memory.wf s.mem = true) : KeepsOk (execCtxCreate s) := by
  unfold execCtxCreate
  split
  · simp [hm]
  · refine State.starting_memOk _ _ hm fun p s hm => ?_
    dsimp only
    split <;> simp [hm]

@[simp] theorem State.forgetCached_mem (s : State) (hit : Cached → Bool) (page : Nat → Bool) : (State.forgetCached s hit page).mem = s.mem := by
  unfold State.forgetCached
  (repeat' split) <;> simp [*]

@[simp] theorem State.releaseContext_memOk (s : State) (n : Nat) (hm : Memory.wf s.mem = true) : Memory.wf (State.releaseContext s n).mem = true := by
  unfold State.releaseContext
  (repeat' split) <;> simp_all

@[simp] theorem State.writeBack_memOk (s : State) (team : Nat) (r : Region) (line : Nat → Bool) (hm : Memory.wf s.mem = true) : Memory.wf (State.writeBack s team r line).mem = true := by
  unfold State.writeBack
  (repeat' split) <;> simp_all

@[simp] theorem State.settleLines_mem (s : State) (team : Nat) (r : Region) (line : Nat → Bool) : (State.settleLines s team r line).mem = s.mem := by
  unfold State.settleLines
  (repeat' split) <;> simp [*]

@[simp] theorem State.dropRegions_memOk (s : State) (team : Nat) (hm : Memory.wf s.mem = true) : Memory.wf (State.dropRegions s team).mem = true := by
  unfold State.dropRegions
  (repeat' split) <;> simp_all

@[simp] theorem State.discardWork_memOk (s : State) (ids : List Nat) (hm : Memory.wf s.mem = true) : Memory.wf (State.discardWork s ids).mem = true := by
  unfold State.discardWork
  (repeat' split) <;> simp_all

@[simp] theorem State.discardFar_memOk (s : State) (ctx : Nat) (hm : Memory.wf s.mem = true) : Memory.wf (State.discardFar s ctx).mem = true := by
  unfold State.discardFar
  (repeat' split) <;> simp [*]

@[simp] theorem State.endWork_memOk (s : State) (n : Nat) (hm : Memory.wf s.mem = true) : Memory.wf (State.endWork s n).mem = true := by
  unfold State.endWork
  (repeat' split) <;> simp [*]

@[simp] theorem State.onContext_memOk (s : State) (f : Packet → Nat → State → State) (hm : Memory.wf s.mem = true)
    (hf : StFn2 f) : KeepsOk (s.onContext f) := by
  unfold State.onContext
  refine State.starting_memOk _ _ hm fun p t ht => ?_
  dsimp only
  split
  · exact hf _ _ _ ht
  · simp [ht]

@[simp] theorem State.destroyContext_memOk (s : State) (n : Nat) (hm : Memory.wf s.mem = true) : Memory.wf (s.destroyContext n).mem = true := by
  have h := State.endWork_memOk s n hm
  unfold State.destroyContext
  extract_lets +onlyGivenNames s1 s2
  have h2 : Memory.wf s2.mem = true := by
    simp only [s2]
    split
    · exact State.finalRecord_memOk _ _ _ _ h
    · exact h
  exact State.releaseContext_memOk _ _ (State.modQcb_memOk _ _ _ h2)

@[simp] theorem execCtxDestroy_memOk (s : State) (hm : Memory.wf s.mem = true) : KeepsOk (execCtxDestroy s) := by
  unfold execCtxDestroy
  dsimp only
  split
  · simp [hm]
  · exact State.onContext_memOk _ _ hm fun p n s hm => by simp [hm]

@[simp] theorem State.resumeMode_mem (s : State) (ctx : Nat) : (State.resumeMode s ctx).2.mem = s.mem := by
  unfold State.resumeMode
  dsimp only
  (repeat' split) <;> simp [*]

@[simp] theorem State.resumeQueue_memOk (s : State) (ctx : Nat) (hm : Memory.wf s.mem = true) : Memory.wf (s.resumeQueue ctx).mem = true := by
  unfold State.resumeQueue
  dsimp only
  simp only [State.tellOthers_mem]
  refine State.lookAtSlots_memOk _ _ (State.ring_memOk _ _ ?_)
  simp only [State.nudge_mem, State.wakeContext_mem]
  exact State.modQcb_memOk _ _ _ (by simpa using hm)

@[simp] theorem execQueueResume_memOk (s : State) (hm : Memory.wf s.mem = true) : KeepsOk (execQueueResume s) := by
  unfold execQueueResume
  refine State.onContext_memOk _ _ hm fun p n s hm => ?_
  simp [hm]

@[simp] theorem execQueueResumeSkip_memOk (s : State) (hm : Memory.wf s.mem = true) : KeepsOk (execQueueResumeSkip s) := by
  unfold execQueueResumeSkip
  refine State.onContext_memOk _ _ hm fun p n s hm => ?_
  refine State.endAdmin_memOk _ _ _ _ (State.resumeQueue_memOk _ _ ?_)
  exact hm

@[simp] theorem State.discardAll_memOk (s : State) (ctx : Nat) (hm : Memory.wf s.mem = true) : Memory.wf (State.discardAll s ctx).mem = true := by
  unfold State.discardAll
  (repeat' split) <;> simp [*]

@[simp] theorem execQueueResumeReset_memOk (s : State) (hm : Memory.wf s.mem = true) : KeepsOk (execQueueResumeReset s) := by
  unfold execQueueResumeReset
  dsimp only
  split
  · simp [hm]
  · refine State.onContext_memOk _ _ hm fun p n s hm => ?_
    simp only [State.tellOthers_mem]
    refine State.tryEndReset_memOk _ _ ?_
    simp only [State.closeSession_mem]
    exact State.discardAll_memOk _ _ (State.modQcb_memOk _ _ _ (by simpa using hm))

@[simp] theorem execHostHalt_memOk (s : State) (hm : Memory.wf s.mem = true) : KeepsOk (execHostHalt s) := by
  unfold execHostHalt
  refine State.onContext_memOk _ _ hm fun p n s hm => ?_
  simp [hm]

@[simp] theorem State.sendCommand_mem (s : State) (p : Packet) (n : Nat) : (State.sendCommand s p n).mem = s.mem := by
  unfold State.sendCommand
  (repeat' split) <;> simp [*]

@[simp] theorem State.poolCommand_memOk (s : State) (page : Nat) (f : Packet → State → Nat × State) (hm : Memory.wf s.mem = true)
    (h : ∀ p s, Memory.wf s.mem = true → Memory.wf (f p s).2.mem = true) : KeepsOk (s.poolCommand page f) := by
  unfold State.poolCommand
  split
  · simp [h _ _ hm]
  · refine State.starting_memOk _ _ hm fun p s hm => ?_
    split
    · exact State.endAdmin_memOk _ _ _ _ (h _ _ hm)
    · simp [hm]

@[simp] theorem State.mapCommand_memOk (s : State) (w2 : Nat) (w3 : Nat) (hm : Memory.wf s.mem = true) : Memory.wf (State.mapCommand s w2 w3).2.mem = true := by
  unfold State.mapCommand
  dsimp only
  (repeat' split) <;> simp [*]

@[simp] theorem execPoolMap_memOk (s : State) (hm : Memory.wf s.mem = true) : KeepsOk (execPoolMap s) :=
  State.poolCommand_memOk _ _ _ hm fun _ _ hm => State.mapCommand_memOk _ _ _ hm

@[simp] theorem execPoolUnmap_memOk (s : State) (hm : Memory.wf s.mem = true) : KeepsOk (execPoolUnmap s) := by
  refine State.poolCommand_memOk _ _ _ hm fun p s hm => ?_
  dsimp only
  (repeat' split) <;> simp [hm]

@[simp] theorem State.migrateNow_memOk (s : State) (p : Packet) (begun : Bool) (end_ : State → Nat → State) (hm : Memory.wf s.mem = true)
    (h : ∀ s n, Memory.wf s.mem = true → Memory.wf (end_ s n).mem = true) : Memory.wf (s.migrateNow p begun end_).mem = true := by
  unfold State.migrateNow
  dsimp only
  (repeat' split) <;> first | exact h _ _ hm | simpa using hm

@[simp] theorem execMigrate_memOk (s : State) (hm : Memory.wf s.mem = true) : KeepsOk (execMigrate s) := by
  have hend : ∀ (n : Nat) (s : State) (st : Nat), Memory.wf s.mem = true → Memory.wf (s.endAdmin n 0 st).mem = true := fun n s st hm => by simp [hm]
  unfold execMigrate
  dsimp only
  split
  · exact (KeepsOk_next _).mpr (State.migrateNow_memOk _ _ _ _ hm fun s st hm => by simpa using hm)
  · split
    · simpa using hm
    · split
      · split
        · simpa using hm
        · exact (KeepsOk_next _).mpr (State.migrateNow_memOk _ _ _ _ hm (hend _))
      · refine State.starting_memOk _ _ hm fun p s hm => ?_
        split
        · exact State.migrateNow_memOk _ _ _ _ hm (hend _)
        · simp [hm]

@[simp] theorem State.agentWrite_memOk (s : State) (a : Nat) (bs : List Byte) (hm : Memory.wf s.mem = true) : Memory.wf (State.agentWrite s a bs).mem = true := by
  unfold State.agentWrite
  (repeat' split) <;> simp [*]

@[simp] theorem State.makeEdge_memOk (s : State) (desc : Nat) (bs : List Byte) (hm : Memory.wf s.mem = true) : Memory.wf (State.makeEdge s desc bs).mem = true := by
  unfold State.makeEdge
  (repeat' split) <;> simp [*]

@[simp] theorem execEqCreate_memOk (s : State) (hm : Memory.wf s.mem = true) : KeepsOk (execEqCreate s) := by
  unfold execEqCreate
  refine State.starting_memOk _ _ hm fun p s hm => ?_
  dsimp only
  split
  · simp [hm]
  · split
    · simp [hm]
    · exact State.endAdmin_memOk _ _ _ _ (State.makeEdge_memOk _ _ _ hm)

@[simp] theorem State.baseCommand_mem (s : State) (p : Packet) : (State.baseCommand s p).2.mem = s.mem := by
  unfold State.baseCommand
  dsimp only
  (repeat' split) <;> simp [*]

@[simp] theorem execTableBase_memOk (s : State) (hm : Memory.wf s.mem = true) : KeepsOk (execTableBase s) := by
  unfold execTableBase
  dsimp only
  split
  · simp [hm]
  · refine State.starting_memOk _ _ hm fun p s hm => ?_
    (repeat' split) <;> simp [hm]

@[simp] theorem execPatchStage_memOk (s : State) (hm : Memory.wf s.mem = true) : KeepsOk (execPatchStage s) := by
  unfold execPatchStage
  refine State.starting_memOk _ _ hm fun p s hm => ?_
  dsimp only
  (repeat' split) <;> simp [hm]

@[simp] theorem execOwlRestart_memOk (s : State) (hm : Memory.wf s.mem = true) : KeepsOk (execOwlRestart s) := by
  unfold execOwlRestart
  (repeat' split) <;> simp [*]

@[simp] theorem execAttest_memOk (s : State) (hm : Memory.wf s.mem = true) : KeepsOk (execAttest s) := by
  unfold execAttest
  refine State.starting_memOk _ _ hm fun p s hm => ?_
  dsimp only
  split
  · simp [hm]
  · cases h : s.askReport (p.num + 1) (p.words.drop 2) with
    | none => simp [hm]
    | some t => rw [Option.getD_some, State.askReport_mem h]; exact hm

@[simp] theorem execAttestSigned_memOk (s : State) (hm : Memory.wf s.mem = true) : KeepsOk (execAttestSigned s) := by
  unfold execAttestSigned
  dsimp only
  (repeat' split) <;> simp [*]

@[simp] theorem execPairBind_memOk (s : State) (hm : Memory.wf s.mem = true) : KeepsOk (execPairBind s) := by
  unfold execPairBind
  refine State.starting_memOk _ _ hm fun p s hm => ?_
  (repeat' split) <;> simp [hm]

@[simp] theorem execOwlWatchdog_memOk (s : State) (hm : Memory.wf s.mem = true) : KeepsOk (execOwlWatchdog s) := by
  unfold execOwlWatchdog
  dsimp only
  (repeat' split) <;> simp_all

@[simp] theorem State.reread_memOk (s : State) (n : Nat) (hm : Memory.wf s.mem = true) : Memory.wf (State.reread s n).mem = true := by
  unfold State.reread
  (repeat' split) <;> simp [*]

@[simp] theorem State.endRestarts_memOk (s : State) (hm : Memory.wf s.mem = true) : Memory.wf (State.endRestarts s).mem = true := by
  unfold State.endRestarts
  (repeat' split) <;> simp_all

@[simp] theorem State.takeAdmin_memOk (s : State) (hm : Memory.wf s.mem = true) : Memory.wf (State.takeAdmin s).mem = true := by
  unfold State.takeAdmin
  (repeat' split) <;> simp [*]

@[simp] theorem execOwlRestartDone_memOk (s : State) (hm : Memory.wf s.mem = true) : KeepsOk (execOwlRestartDone s) := by
  unfold execOwlRestartDone
  split
  · simpa using hm
  · extract_lets +onlyGivenNames src o s1 ns s2 s3
    have h1 : Memory.wf s1.mem = true := hm
    have h2 : Memory.wf s2.mem = true := foldl_memOk' _ _ _ h1 fun s n hm => by simp [hm]
    have h3 : Memory.wf s3.mem = true := by simp [s3, h2]
    refine (KeepsOk_next _).mpr (State.takeAdmin_memOk _ (foldl_memOk' _ _ _ h3 fun s n hm => ?_))
    simp [hm]

@[simp] theorem execPldmDiscovery_mem (s : State) : KeepsMem s (execPldmDiscovery s) := by
  unfold execPldmDiscovery
  (repeat' split) <;> simp [*]

@[simp] theorem execPldmDiscovery_memOk (s : State) (hm : Memory.wf s.mem = true) : KeepsOk (execPldmDiscovery s) := (execPldmDiscovery_mem s).ok hm

@[simp] theorem execCertificateRead_mem (s : State) : KeepsMem s (execCertificateRead s) := by
  unfold execCertificateRead
  (repeat' split) <;> simp [*]

@[simp] theorem execCertificateRead_memOk (s : State) (hm : Memory.wf s.mem = true) : KeepsOk (execCertificateRead s) := (execCertificateRead_mem s).ok hm

@[simp] theorem State.countExits_mem (s : State) (core : Nat) : (State.countExits s core).mem = s.mem := by
  unfold State.countExits
  (repeat' split) <;> simp [*]

@[simp] theorem State.newGang_mem (s : State) (team : Nat) (index : Nat) (entry : W64) (lgid : W64) (exm : Mask) : (State.newGang s team index entry lgid exm).2.mem = s.mem := by
  unfold State.newGang
  (repeat' split) <;> simp [*]

@[simp] theorem State.stampGang_mem (s : State) (n : Nat) (commit : Bool) : (State.stampGang s n commit).mem = s.mem := by
  unfold State.stampGang
  (repeat' split) <;> simp [*]

@[simp] theorem State.placeIn_mem (s : State) (n : Nat) (q : Nat) : (State.placeIn s n q).mem = s.mem := by
  unfold State.placeIn
  (repeat' split) <;> simp [*]

@[simp] theorem State.startGangs_mem (s : State) (team b k i : Nat) : (s.startGangs team b k i).mem = s.mem := by
  induction k generalizing s i with
  | zero => rfl
  | succ k ih =>
    unfold State.startGangs
    dsimp only
    rw [ih]
    (repeat' split) <;> simp

@[simp] theorem State.admitTeam_mem (s : State) (team : Nat) (core : Nat) : (State.admitTeam s team core).mem = s.mem := by
  unfold State.admitTeam
  (repeat' split) <;> simp [*]

theorem State.admitOne_mem {s t : State} {core n : Nat} (h : s.admitOne core n = some t) : t.mem = s.mem := by
  unfold State.admitOne at h
  dsimp only at h
  split at h
  · split at h
    · cases h; split <;> simp
    · cases h
  · obtain ⟨cs, -, rfl⟩ := Option.map_eq_some_iff.mp h
    have hf := foldl_mem' ((s.queuedMates n).zip cs) (fun s p => (s.unqueue p.1).admitTeam p.1 p.2) s fun s x => by simp
    split
    · exact hf
    · exact hf

theorem State.admitHead_mem {s t : State} {core n : Nat} (h : s.admitHead core n = some t) : t.mem = s.mem := by
  unfold State.admitHead at h
  dsimp only at h
  split at h
  · exact State.admitOne_mem h
  · split at h
    · cases h
    · obtain ⟨c, -, hc⟩ := List.exists_of_findSome?_eq_some h
      obtain ⟨m, -, hm⟩ := Option.bind_eq_some_iff.mp hc
      split at hm
      · exact State.admitOne_mem hm
      · cases hm

@[simp] theorem State.admitAll_mem (s : State) (core k : Nat) : (s.admitAll core k).mem = s.mem := by
  induction k generalizing s with
  | zero => rfl
  | succ k ih =>
    unfold State.admitAll
    split
    · rename_i t h
      rw [ih]
      cases hh : s.headOf core with
      | none => rw [hh] at h; cases h
      | some n => rw [hh] at h; exact State.admitHead_mem h
    · rfl

@[simp] theorem State.setAsked_mem (s : State) (thief : Nat) (vs : List Nat) : (State.setAsked s thief vs).mem = s.mem := by
  unfold State.setAsked
  (repeat' split) <;> simp [*]

@[simp] theorem State.sendSteal_mem (s : State) (r : StealReq) : (State.sendSteal s r).mem = s.mem := by
  unfold State.sendSteal
  (repeat' split) <;> simp [*]

@[simp] theorem State.askNext_mem (s : State) (thief launch : Nat) : (s.askNext thief launch).mem = s.mem := by
  unfold State.askNext
  dsimp only
  (repeat' split) <;> simp

@[simp] theorem State.seek_mem (s : State) (core : Nat) : (State.seek s core).mem = s.mem := by
  unfold State.seek
  (repeat' split) <;> simp [*]

@[simp] theorem execTeamAdmit_mem (s : State) : KeepsMem s (execTeamAdmit s) := by
  unfold execTeamAdmit
  (repeat' split) <;> simp [*]

@[simp] theorem execTeamAdmit_memOk (s : State) (hm : Memory.wf s.mem = true) : KeepsOk (execTeamAdmit s) := (execTeamAdmit_mem s).ok hm

@[simp] theorem execStealBackoff_mem (s : State) : KeepsMem s (execStealBackoff s) := by
  unfold execStealBackoff
  dsimp only
  (repeat' split) <;> simp [*]

@[simp] theorem execStealBackoff_memOk (s : State) (hm : Memory.wf s.mem = true) : KeepsOk (execStealBackoff s) := (execStealBackoff_mem s).ok hm

@[simp] theorem State.forgetLaunch_mem (s : State) (id : Nat) : (State.forgetLaunch s id).mem = s.mem := by
  unfold State.forgetLaunch
  (repeat' split) <;> simp [*]

@[simp] theorem State.packetLaunchDone_memOk (s : State) (queue : Nat) (num : Nat) (id : Nat) (hm : Memory.wf s.mem = true) : Memory.wf (State.packetLaunchDone s queue num id).mem = true := by
  unfold State.packetLaunchDone
  dsimp only
  (repeat' split) <;> simp [*]

@[simp] theorem State.finishLaunch_memOk (s : State) (id : Nat) (l : Launch) (hm : Memory.wf s.mem = true) :
    Memory.wf (s.finishLaunch id l).mem = true := by
  unfold State.finishLaunch
  refine State.tryEndReset_memOk _ _ (State.packetLaunchDone_memOk _ _ _ _ ?_)
  rw [State.forgetLaunch_mem]
  refine State.traceRecord_memOk _ _ _ _ _ _ _ ?_
  split <;> simp [hm]

@[simp] theorem execLaunchComplete_memOk (s : State) (hm : Memory.wf s.mem = true) : KeepsOk (execLaunchComplete s) := by
  unfold execLaunchComplete
  dsimp only
  (repeat' split) <;> simp [*]

@[simp] theorem execPartitionPreempt_mem (s : State) : KeepsMem s (execPartitionPreempt s) := by
  unfold execPartitionPreempt
  dsimp only
  (repeat' split) <;> simp [*]

@[simp] theorem execPartitionPreempt_memOk (s : State) (hm : Memory.wf s.mem = true) : KeepsOk (execPartitionPreempt s) := (execPartitionPreempt_mem s).ok hm

@[simp] theorem State.unfillRegions_memOk (s : State) (team : Nat) (hm : Memory.wf s.mem = true) : Memory.wf (State.unfillRegions s team).mem = true := by
  unfold State.unfillRegions
  (repeat' split) <;> simp_all

@[simp] theorem State.saveCore_memOk (s : State) (core : Nat) (ctx : Nat) (i : Image) (hm : Memory.wf s.mem = true) : Memory.wf (State.saveCore s core ctx i).1.mem = true := by
  unfold State.saveCore
  (repeat' split) <;> simp_all

@[simp] theorem execPartitionHalted_memOk (s : State) (hm : Memory.wf s.mem = true) : KeepsOk (execPartitionHalted s) := by
  unfold execPartitionHalted
  dsimp only
  split
  · simpa using hm
  · split
    · simpa using hm
    · split
      · simpa using hm
      · rename_i ctx _ _ _
        have h : ∀ (l : List Nat) (x : State × Image), Memory.wf x.1.mem = true →
            Memory.wf (l.foldl (fun (x : State × Image) c => x.1.saveCore c ctx x.2) x).1.mem = true := by
          intro l
          induction l with
          | nil => exact fun x h => h
          | cons c r ih => exact fun x h => ih _ (by simp [h])
        rw [KeepsOk_next, offCore_mem]
        exact h _ _ hm

@[simp] theorem execShadowSaveComplete_mem (s : State) : KeepsMem s (execShadowSaveComplete s) := by
  unfold execShadowSaveComplete
  dsimp only
  (repeat' split) <;> simp [*]

@[simp] theorem execShadowSaveComplete_memOk (s : State) (hm : Memory.wf s.mem = true) : KeepsOk (execShadowSaveComplete s) := (execShadowSaveComplete_mem s).ok hm

@[simp] theorem State.restoreBins_mem (s : State) (team : Nat) : (State.restoreBins s team).mem = s.mem := by
  unfold State.restoreBins
  (repeat' split) <;> simp [*]

@[simp] theorem execRestoreComplete_memOk (s : State) (hm : Memory.wf s.mem = true) : KeepsOk (execRestoreComplete s) := by
  unfold execRestoreComplete
  dsimp only
  (repeat' split) <;> simp [*]

@[simp] theorem execBlockStall_memOk (s : State) (hm : Memory.wf s.mem = true) : KeepsOk (execBlockStall s) := by
  unfold execBlockStall
  (repeat' split) <;> simp [*]

@[simp] theorem State.decodeFaultAt_memOk (s : State) (sec : Bool) (b : Blk) (code : Nat) (sub : Nat) (va : W64) (hm : Memory.wf s.mem = true) : Memory.wf (State.decodeFaultAt s sec b code sub va).mem = true := by
  unfold State.decodeFaultAt
  (repeat' split) <;> simp [*]

@[simp] theorem execBlockFetch_memOk (s : State) (hm : Memory.wf s.mem = true) : KeepsOk (execBlockFetch s) := by
  unfold execBlockFetch
  split
  · simpa using hm
  · rename_i sec b _
    have h1 := State.readOwn_memOk s b.addr.toNat 16 { fetch := true, sup := s.g.sup } hm
    have h2 := fun n => State.readOwn_memOk _ (b.addr.toNat + 16) n { fetch := true, sup := s.g.sup } h1
    extract_lets +onlyGivenNames a h
    split
    · exact (KeepsOk_next _).mpr (State.decodeFaultAt_memOk _ _ _ _ _ _ h1)
    · extract_lets +onlyGivenNames b1
      split
      · exact (KeepsOk_next _).mpr (State.decodeFaultAt_memOk _ _ _ _ _ _ h1)
      · extract_lets +onlyGivenNames w
        split
        · exact (KeepsOk_next _).mpr (State.decodeFaultAt_memOk _ _ _ _ _ _ (h2 _))
        · refine (KeepsOk_next _).mpr ?_
          simp only [State.laterHere_mem, setBlk_mem]
          exact foldl_memOk' _ _ _ (h2 _) fun s l hm => by simp [hm]

@[simp] theorem State.startTimer_mem (s : State) : (State.startTimer s).mem = s.mem := by
  unfold State.startTimer
  (repeat' split) <;> simp [*]

@[simp] theorem execHeaderDecode_memOk (s : State) (hm : Memory.wf s.mem = true) : KeepsOk (execHeaderDecode s) := by
  unfold execHeaderDecode
  (repeat' split) <;> simp [*]

@[simp] theorem State.retryCommit_mem (s : State) (b : Blk) (why : Nat) (delay : Nat) : (State.retryCommit s b why delay).mem = s.mem := by
  unfold State.retryCommit
  (repeat' split) <;> simp [*]

@[simp] theorem State.delayCommit_memOk (s : State) (b : Blk) (why : Nat) (hm : Memory.wf s.mem = true) : Memory.wf (State.delayCommit s b why).mem = true := by
  unfold State.delayCommit
  (repeat' split) <;> simp [*]

@[simp] theorem State.readStash_memOk (s : State) (off : Nat) (n : Nat) (hm : Memory.wf s.mem = true) : Memory.wf (State.readStash s off n).2.mem = true := by
  unfold State.readStash
  dsimp only
  (repeat' split) <;> simp [*]

@[simp] theorem State.readTask_memOk (s : State) (va : W64) (hm : Memory.wf s.mem = true) : Memory.wf (State.readTask s va).2.mem = true := by
  unfold State.readTask
  dsimp only
  (repeat' split) <;> simp [*]

@[simp] theorem State.readTasks_memOk (va : Nat → W64) (l : List Nat) (s : State) (hm : Memory.wf s.mem = true) : Memory.wf (State.readTasks va l s).2.mem = true := by
  induction l generalizing s with
  | nil => exact hm
  | cons l r ih => exact ih _ (State.readTask_memOk _ _ hm)

@[simp] theorem State.coverPages_memOk (s : State) (ctx : Nat) (a : Acc) (va : Nat) (l : List Nat) (acc : List (Nat × Nat))
    (hm : Memory.wf s.mem = true) : Memory.wf (s.coverPages ctx a va l acc).2.mem = true := by
  induction l generalizing s acc with
  | nil => exact hm
  | cons p r ih =>
    unfold State.coverPages
    dsimp only
    split
    · exact State.translate_memOk _ _ _ _ hm
    · exact ih _ _ (State.translate_memOk _ _ _ _ hm)

@[simp] theorem State.coverRanges_memOk (s : State) (ctx : Nat) (l : List (Nat × Nat × Bool)) (acc : List (Nat × Nat))
    (hm : Memory.wf s.mem = true) : Memory.wf (s.coverRanges ctx l acc).2.mem = true := by
  induction l generalizing s acc with
  | nil => exact hm
  | cons p r ih =>
    obtain ⟨va, n, w⟩ := p
    unfold State.coverRanges
    dsimp only
    split
    · exact ih _ _ hm
    · split
      · exact State.coverPages_memOk _ _ _ _ _ _ hm
      · exact ih _ _ (State.coverPages_memOk _ _ _ _ _ _ hm)

@[simp] theorem State.badgerPrepare_memOk (s : State) (o : BadgerOp) (hm : Memory.wf s.mem = true) : Memory.wf (State.badgerPrepare s o).2.mem = true := by
  unfold State.badgerPrepare
  (repeat' split) <;> simp [*]

@[simp] theorem State.prepareOne_memOk (s : State) (b : Blk) (k : Nat) (r : Fired) (hm : Memory.wf s.mem = true) : Memory.wf (State.prepareOne s b k r).2.mem = true := by
  unfold State.prepareOne
  dsimp only
  (repeat' split) <;> simp [*]

@[simp] theorem State.prepareAll_memOk (b : Blk) (l : List Fired) (k : Nat) (s : State) (hm : Memory.wf s.mem = true) :
    Memory.wf (State.prepareAll b l k s).2.mem = true := by
  induction l generalizing s k with
  | nil => exact hm
  | cons p r ih =>
    unfold State.prepareAll
    dsimp only
    split
    · exact State.prepareOne_memOk _ _ _ _ hm
    · exact ih _ _ (State.prepareOne_memOk _ _ _ _ hm)

@[simp] theorem State.commitPoint_memOk (s : State) (b : Blk) (hm : Memory.wf s.mem = true) : Memory.wf (State.commitPoint s b).2.mem = true := by
  unfold State.commitPoint
  dsimp only
  (repeat' split) <;> simp [*]

theorem State.placeThread_mem {s t : State} {team : Nat} {key arg : W64} (h : s.placeThread team key arg = some t) : t.mem = s.mem := by
  unfold State.placeThread at h
  dsimp only at h
  split at h
  · cases h
  · split at h
    · cases h
    · cases h
      (repeat' split) <;> simp

theorem State.placeThreads_mem (ps : List (W64 × W64)) : ∀ {s t : State} {team : Nat}, s.placeThreads team ps = some t → t.mem = s.mem := by
  induction ps with
  | nil => intro s t team h; cases h; rfl
  | cons p r ih =>
    intro s t team h
    obtain ⟨k, a⟩ := p
    unfold State.placeThreads at h
    split at h
    · cases h
    · rw [ih h, State.placeThread_mem ‹_›]

@[simp] theorem State.commitTiles_memOk (s : State) (b : Blk) (hm : Memory.wf s.mem = true) : Memory.wf (s.commitTiles b).mem = true := by
  unfold State.commitTiles
  refine foldl_memOk' _ _ _ hm fun s i hm => ?_
  refine foldl_memOk' _ _ _ (foldl_memOk' _ _ _ hm fun s r hm => ?_) fun s r hm => ?_
  · simpa using hm
  · exact State.setPlaces_memOk _ _ hm

@[simp] theorem State.commitOrder_memOk (s : State) (b : Blk) (hm : Memory.wf s.mem = true) : Memory.wf (State.commitOrder s b).mem = true := by
  unfold State.commitOrder
  (repeat' split) <;> simp [*]

@[simp] theorem State.fly_mem (s : State) (p : Path) : (State.fly s p).2.mem = s.mem := by
  unfold State.fly
  (repeat' split) <;> simp [*]

@[simp] theorem State.requestStep_mem (s : State) (core : Nat) (q : Nat) (m : MergeStep) : (State.requestStep s core q m).mem = s.mem := by
  unfold State.requestStep
  (repeat' split) <;> simp [*]

@[simp] theorem State.awaitLine_mem (s : State) (core : Nat) (q : Nat) (gang : Nat) (line : Nat) (flight : Nat) : (State.awaitLine s core q gang line flight).mem = s.mem := by
  unfold State.awaitLine
  (repeat' split) <;> simp [*]

@[simp] theorem State.commitRed_memOk (s : State) (rs : List StoreRec) (hm : Memory.wf s.mem = true) : Memory.wf (State.commitRed s rs).mem = true := by
  unfold State.commitRed
  dsimp only
  (repeat' split) <;> simp_all

@[simp] theorem State.enterMerge_mem (s : State) (core : Nat) (q : Nat) (line : Nat) (cp : BitVec 3) (p : MergePart) (flight : Nat) : (State.enterMerge s core q line cp p flight).mem = s.mem := by
  unfold State.enterMerge
  (repeat' split) <;> simp [*]

@[simp] theorem State.commitStore_memOk (s : State) (rank : Nat × Nat) (total : Nat) (flush : Bool) (rs : List StoreRec) (hm : Memory.wf s.mem = true) : Memory.wf (State.commitStore s rank total flush rs).mem = true := by
  unfold State.commitStore
  dsimp only
  (repeat' split) <;> simp [*]

@[simp] theorem State.commitStores_memOk (s : State) (b : Blk) (hm : Memory.wf s.mem = true) : Memory.wf (s.commitStores b).mem = true := by
  unfold State.commitStores
  refine foldl_pair_memOk _ _ _ hm fun x i hm => ?_
  dsimp only
  split
  · exact State.commitRed_memOk _ _ hm
  · exact State.commitStore_memOk _ _ _ _ _ hm

@[simp] theorem State.commitWrites_mem (s : State) (es : List Fired) : (s.commitWrites es).mem = s.mem := by
  unfold State.commitWrites
  refine foldl_mem' _ _ _ fun s r => ?_
  split
  · rw [foldl_mem' _ _ _ fun s n => by simp]
  · rfl

@[simp] theorem State.sendTask_mem (s : State) (d : TaskDesc) : (State.sendTask s d).mem = s.mem := by
  unfold State.sendTask
  (repeat' split) <;> simp [*]

@[simp] theorem State.nameSuccessor_mem (s : State) (d : TaskDesc) : (State.nameSuccessor s d).mem = s.mem := by
  unfold State.nameSuccessor
  (repeat' split) <;> simp [*]

@[simp] theorem State.sendPart_mem (s : State) (p : Before) (kind : BitVec 2) (parts : Nat) (desc : List Byte) : (State.sendPart s p kind parts desc).mem = s.mem := by
  unfold State.sendPart
  (repeat' split) <;> simp [*]

@[simp] theorem State.enterQueue_mem (s : State) (p : Before) (r : Fired) : (s.enterQueue p r).mem = s.mem := by
  unfold State.enterQueue
  extract_lets +onlyGivenNames c t start e s1 src
  have h1 : s1.mem = s.mem := by simp only [s1, modCore_mem]
  clear_value s1
  rw [State.laterHere_mem]
  exact h1

@[simp] theorem State.sendSmap_mem (s : State) (r : Fired) : (State.sendSmap s r).mem = s.mem := by
  unfold State.sendSmap
  (repeat' split) <;> simp [*]

@[simp] theorem State.sendSunmap_memOk (s : State) (r : Fired) (hm : Memory.wf s.mem = true) : Memory.wf (State.sendSunmap s r).mem = true := by
  unfold State.sendSunmap
  (repeat' split) <;> simp_all

@[simp] theorem State.sendSwb_memOk (s : State) (r : Fired) (inv : Bool) (hm : Memory.wf s.mem = true) : Memory.wf (s.sendSwb r inv).mem = true := by
  unfold State.sendSwb
  extract_lets +onlyGivenNames x a z hit live s1 clean s2 s3
  have h1 : Memory.wf s1.mem = true := foldl_memOk' _ _ _ (by simpa [x] using hm) fun s y hm => by split <;> simp [hm]
  have h2 : Memory.wf s2.mem = true := by simpa only [s2, modTeam_mem] using h1
  have h3 : Memory.wf s3.mem = true := by
    simp only [s3]
    split
    · exact foldl_memOk' _ _ _ h2 fun s y hm => by split <;> simp [hm]
    · exact h2
  simpa only [offCore_mem] using h3

@[simp] theorem State.heapFree_memOk (s : State) (r : Fired) (hm : Memory.wf s.mem = true) : Memory.wf (s.heapFree r).mem = true := by
  unfold State.heapFree
  refine foldl_memOk' _ _ _ hm fun s l hm => ?_
  dsimp only
  have h1 := State.supWord_memOk s (s.heapAt + 32 + 8 * sizeClass (lane r.b l).toNat) hm
  split
  · exact hm
  · split
    · exact h1
    · split
      · exact State.setSupWord_memOk _ _ _ h1
      · exact State.setSupWord_memOk _ _ _ (State.setSupWord_memOk _ _ _ h1)

@[simp] theorem State.setQuota_mem (s : State) (q : Nat) : (State.setQuota s q).mem = s.mem := by
  unfold State.setQuota
  dsimp only
  (repeat' split) <;> simp [*]

@[simp] theorem State.restamp_mem (s : State) : (State.restamp s).mem = s.mem := by
  unfold State.restamp
  (repeat' split) <;> simp [*]

@[simp] theorem State.flushRegions_memOk (s : State) (ctx : Nat) (drop : Region → Bool) (hm : Memory.wf s.mem = true) : Memory.wf (s.flushRegions ctx drop).mem = true := by
  unfold State.flushRegions
  refine foldl_memOk' _ _ _ hm fun s p hm => foldl_memOk' _ _ _ ?_ fun s r hm => by simp [hm]
  rw [modTeam_mem]
  exact foldl_memOk' _ _ _ hm fun s r hm => State.writeBack_memOk _ _ _ _ hm

@[simp] theorem State.dropTlb_memOk (s : State) (ctx a n : Nat) (hm : Memory.wf s.mem = true) : Memory.wf (s.dropTlb ctx a n).mem = true := by
  unfold State.dropTlb
  dsimp only
  rw [State.forgetCached_mem]
  exact State.flushRegions_memOk _ _ _ (foldl_memOk' _ _ _ hm fun s c hm => State.flushCore_memOk _ _ hm)

@[simp] theorem State.commitOne_memOk (s : State) (p : Before) (r : Fired) (hm : Memory.wf s.mem = true) : Memory.wf (State.commitOne s p r).mem = true := by
  unfold State.commitOne
  dsimp only
  (repeat' split) <;> simp [*]

@[simp] theorem drawn_mem (s : State) : s.drawn.mem = s.mem := rfl

@[simp] theorem State.writeLrm_mem (s : State) (x : W64) : (s.writeLrm x).mem = s.mem := by
  unfold State.writeLrm
  dsimp only
  refine (foldl_mem' _ _ _ fun s q => ?_).trans (modCore_mem _ _ _)
  split
  · rfl
  · rw [laterOn_mem, drawn_mem, modCore_mem]
    refine foldl_mem' _ _ _ fun s p => ?_
    split <;> simp

@[simp] theorem State.writeSys_mem (s : State) (r : SysReg) (x : W64) : (State.writeSys s r x).mem = s.mem := by
  unfold State.writeSys
  (repeat' split) <;> simp [*]

@[simp] theorem State.commitSys_mem (s : State) (es : List Fired) : (State.commitSys s es).mem = s.mem := by
  unfold State.commitSys
  (try dsimp only)
  (try simp)
  (repeat' split) <;> (try simp [*]) <;> (try simp_all)

@[simp] theorem State.commitProv_memOk (s : State) (p : Before) (es : List Fired) (hm : Memory.wf s.mem = true) :
    Memory.wf (s.commitProv p es).mem = true := by
  unfold State.commitProv
  extract_lets s1
  have h : Memory.wf s1.mem = true := by
    refine foldl_memOk' _ _ _ hm fun s r hm => ?_
    dsimp only
    split
    · split <;> exact hm
    · exact hm
  split
  · exact h
  · split
    · simp [h]
    · exact h

@[simp] theorem State.unmapPage_memOk (s : State) (va : Nat) (hm : Memory.wf s.mem = true) : Memory.wf (State.unmapPage s va).2.mem = true := by
  unfold State.unmapPage
  (repeat' split) <;> simp [*]

@[simp] theorem State.takeFrame_memOk (s : State) (hm : Memory.wf s.mem = true) : Memory.wf s.takeFrame.2.mem = true := by
  unfold State.takeFrame
  extract_lets +onlyGivenNames die
  split
  · exact hm
  · extract_lets +onlyGivenNames at_ r
    have hr : Memory.wf r.2.mem = true := State.readOwn_memOk _ _ _ _ hm
    clear_value r
    split
    · exact hr
    · extract_lets +onlyGivenNames ring cap taken
      split
      · exact hr
      · split
        · exact hr
        · extract_lets +onlyGivenNames e
          have he : Memory.wf e.2.mem = true := State.readOwn_memOk _ _ _ _ hr
          clear_value e
          split
          · exact he
          · extract_lets +onlyGivenNames f ind
            split
            · exact he
            · extract_lets +onlyGivenNames w
              have hw : Memory.wf w.2.mem = true := State.writeOwn_memOk _ _ _ _ he
              clear_value w
              split <;> exact hw

@[simp] theorem State.purgeLine_memOk (s : State) (line : Nat) (hm : Memory.wf s.mem = true) : Memory.wf (State.purgeLine s line).mem = true := by
  unfold State.purgeLine
  (repeat' split) <;> simp_all

@[simp] theorem State.zeroPage_memOk (s : State) (a : Nat) (hm : Memory.wf s.mem = true) : Memory.wf (s.zeroPage a).mem = true := by
  unfold State.zeroPage
  dsimp only
  exact filter_wf _ (foldl_memOk' _ _ _ (foldl_memOk' _ _ _ hm fun s c hm => State.flushWhere_memOk _ _ _ hm) fun s l hm => State.purgeLine_memOk _ _ hm)

@[simp] theorem State.mapPage_memOk (s : State) (va : Nat) (n : Nat) (hm : Memory.wf s.mem = true) : Memory.wf (s.mapPage va n).2.mem = true := by
  induction n generalizing s with
  | zero => exact hm
  | succ n ih =>
    have hf := State.takeFrame_memOk s hm
    unfold State.mapPage
    split
    · exact hm
    · split
      · exact hm
      · split
        · exact hm
        · extract_lets +onlyGivenNames f
          split
          · exact hf
          · exact hf
          · split
            · exact State.poolWrite_memOk _ _ _ hf
            · exact ih _ (State.poolWrite_memOk _ _ _ (State.zeroPage_memOk _ _ hf))
    · exact hm

@[simp] theorem State.mapLanes_memOk (unmap : Bool) (a : Lanes) (l : List Nat) (s : State) (hm : Memory.wf s.mem = true) :
    Memory.wf (State.mapLanes unmap a l s).2.mem = true := by
  induction l generalizing s with
  | nil => exact hm
  | cons l r ih =>
    unfold State.mapLanes
    have h : Memory.wf (if unmap then s.unmapPage (lane a l).toNat else s.mapPage ((lane a l).toNat / 2 ^ 17 * 2 ^ 17) 5).2.mem = true := by
      split
      · exact State.unmapPage_memOk _ _ hm
      · exact State.mapPage_memOk _ _ _ hm
    dsimp only
    split
    · exact h
    · exact ih _ h

@[simp] theorem State.commitMaps_memOk (s : State) (es : List Fired) (hm : Memory.wf s.mem = true) : Memory.wf (s.commitMaps es).2.mem = true := by
  unfold State.commitMaps
  dsimp only
  split
  · exact hm
  · generalize List.filter _ es = ms
    have h : ∀ (ms : List Fired) (x : Option FaultRec × State), Memory.wf x.2.mem = true →
        Memory.wf (ms.foldl (fun (x : Option FaultRec × State) r => match x.1 with
          | some _ => x
          | none =>
            let y := State.mapLanes (match r.ins with | .punmap _ => true | _ => false) r.a (lanesOf r.lanes) x.2
            (y.1.map fun e => ({ code := e.1.1, sub := e.1.2, idx := r.idx, lanes := r.lanes } : FaultRec), y.2)) x).2.mem = true := by
      intro ms
      induction ms with
      | nil => exact fun x h => h
      | cons r rest ih =>
        intro x h
        refine ih _ ?_
        dsimp only
        split
        · exact h
        · exact State.mapLanes_memOk _ _ _ _ h
    exact h ms _ hm

@[simp] theorem State.commitEffects_memOk (s : State) (p : Before) (hm : Memory.wf s.mem = true) : Memory.wf (s.commitEffects p).2.mem = true := by
  have h1 := State.commitTiles_memOk _ p.b (State.commitOrder_memOk _ p.b (State.commitStores_memOk (s.commitWrites p.b.effects) p.b (by simpa using hm)))
  unfold State.commitEffects
  extract_lets +onlyGivenNames es s1 s2 s3 s4 s5
  have h2 : Memory.wf s2.mem = true := h1
  clear_value s2
  have h3 : Memory.wf s3.mem = true := by
    simp only [s3]
    cases hx : s2.placeThreads s2.g.team p.b.threads with
    | none => exact h2
    | some u => rw [Option.getD_some, State.placeThreads_mem _ hx]; exact h2
  clear_value s3
  refine State.commitMaps_memOk _ _ ?_
  show Memory.wf s5.mem = true
  simp only [s5, State.commitSys_mem]
  exact State.commitProv_memOk _ _ _ (foldl_memOk' _ _ _ h3 fun s r hm => State.commitOne_memOk _ _ _ hm)

@[simp] theorem State.countInsns_mem (s : State) (n : Nat) : (State.countInsns s n).mem = s.mem := by
  unfold State.countInsns
  (repeat' split) <;> simp [*]

@[simp] theorem State.safePoint_memOk (s : State) (b : Blk) (lck : W64) (m : Mask) (hm : Memory.wf s.mem = true) : Memory.wf (State.safePoint s b lck m).mem = true := by
  unfold State.safePoint
  dsimp only
  (repeat' split) <;> simp [*]

@[simp] theorem State.pollCount_mem (s : State) (b : Blk) : (State.pollCount s b).mem = s.mem := by
  unfold State.pollCount
  dsimp only
  (repeat' split) <;> simp [*]

@[simp] theorem State.markTrc_mem (s : State) : (State.markTrc s).mem = s.mem := by
  unfold State.markTrc
  (repeat' split) <;> simp [*]

@[simp] theorem State.sendExit_mem (s : State) (n : Nat) (t : Team) : (State.sendExit s n t).mem = s.mem := by
  unfold State.sendExit
  (repeat' split) <;> simp [*]

@[simp] theorem State.writeExitRecord_memOk (s : State) (team : Nat) (hm : Memory.wf s.mem = true) : Memory.wf (State.writeExitRecord s team).mem = true := by
  unfold State.writeExitRecord
  dsimp only
  (repeat' split) <;> simp [*]

@[simp] theorem State.startSuccessor_mem (s : State) (old : Nat) (d : TaskDesc) : (State.startSuccessor s old d).mem = s.mem := by
  unfold State.startSuccessor
  (repeat' split) <;> simp [*]

@[simp] theorem State.finishTeam_mem (s : State) (team : Nat) : (State.finishTeam s team).mem = s.mem := by
  unfold State.finishTeam
  dsimp only
  (repeat' split) <;> simp [*]

@[simp] theorem State.retireTeam_memOk (s : State) (team : Nat) (hm : Memory.wf s.mem = true) : Memory.wf (s.retireTeam team).mem = true := by
  unfold State.retireTeam
  extract_lets +onlyGivenNames t s2 mates
  have h2 : Memory.wf s2.mem = true := by
    simp only [s2, State.sendExit_mem]
    exact State.writeExitRecord_memOk _ _ (State.dropRegions_memOk _ _ (State.flushCore_memOk _ _ hm))
  clear_value s2
  split
  · simpa using h2
  · exact foldl_memOk' _ _ _ h2 fun s m hm => by simpa using hm

@[simp] theorem State.retireGang_memOk (s : State) (n : Nat) (hm : Memory.wf s.mem = true) : Memory.wf (s.retireGang n).mem = true := by
  unfold State.retireGang
  split
  · exact hm
  · split
    · exact hm
    · extract_lets +onlyGivenNames t d s1 s2 s3 bins s4 s5
      have h3 : Memory.wf s3.mem = true := by simpa [s3, s2, s1] using hm
      clear_value s3
      have h4 : Memory.wf s4.mem = true := by
        simp only [s4]
        split
        · exact foldl_memOk' _ _ _ h3 fun s b hm => by simpa using hm
        · exact h3
      have h5 : Memory.wf s5.mem = true := by simpa only [s5, soon_mem] using h4
      clear_value s5
      split
      · exact State.retireTeam_memOk _ _ h5
      · exact h5

@[simp] theorem State.retireIfDone_memOk (s : State) (hm : Memory.wf s.mem = true) : Memory.wf (State.retireIfDone s).mem = true := by
  unfold State.retireIfDone
  (repeat' split) <;> simp [*]

@[simp] theorem State.takeTraps_memOk (s : State) (b : Blk) (hm : Memory.wf s.mem = true) : Memory.wf (State.takeTraps s b).mem = true := by
  unfold State.takeTraps
  dsimp only
  (repeat' split) <;> simp [*]

@[simp] theorem State.endHandler_memOk (s : State) (hm : Memory.wf s.mem = true) : Memory.wf (State.endHandler s).mem = true := by
  unfold State.endHandler
  dsimp only
  (repeat' split) <;> simp [*]

@[simp] theorem State.nextPrimary_memOk (s : State) (hm : Memory.wf s.mem = true) : Memory.wf (State.nextPrimary s).mem = true := by
  unfold State.nextPrimary
  dsimp only
  (repeat' split) <;> simp [*]

@[simp] theorem State.afterEffects_memOk (s : State) (b : Blk) (sup : Bool) (hm : Memory.wf s.mem = true) : Memory.wf (State.afterEffects s b sup).mem = true := by
  unfold State.afterEffects
  (repeat' split) <;> simp [*]

@[simp] theorem State.commitBlock_memOk (s : State) (b : Blk) (prep : List (Nat × Prepared)) (hm : Memory.wf s.mem = true) :
    Memory.wf (s.commitBlock b prep).mem = true := by
  unfold State.commitBlock
  dsimp only
  generalize hp : Before.mk _ _ _ _ _ _ = p
  have h := State.commitEffects_memOk s p hm
  generalize s.commitEffects p = x at h
  split
  · exact State.takeFault_memOk _ _ _ _ (by simpa using h)
  · refine State.afterEffects_memOk _ _ _ ?_
    split <;> simp [h]

@[simp] theorem execBlockCommit_memOk (s : State) (hm : Memory.wf s.mem = true) : KeepsOk (execBlockCommit s) := by
  unfold execBlockCommit
  dsimp only
  (repeat' split) <;> simp [*]

@[simp] theorem State.scheduleCommit_mem (s : State) : (State.scheduleCommit s).mem = s.mem := by
  unfold State.scheduleCommit
  (repeat' split) <;> simp [*]

@[simp] theorem execTimedDeadline_memOk (s : State) (hm : Memory.wf s.mem = true) : KeepsOk (execTimedDeadline s) := by
  unfold execTimedDeadline
  (repeat' split) <;> simp [*]

@[simp] theorem execParkTimeout_mem (s : State) : KeepsMem s (execParkTimeout s) := by
  unfold execParkTimeout
  (repeat' split) <;> simp [*]

@[simp] theorem execParkTimeout_memOk (s : State) (hm : Memory.wf s.mem = true) : KeepsOk (execParkTimeout s) := (execParkTimeout_mem s).ok hm

@[simp] theorem State.takeImage_mem (s : State) (n : Nat) : (State.takeImage s n).mem = s.mem := by
  unfold State.takeImage
  (repeat' split) <;> simp [*]

@[simp] theorem State.giveUpSlot_mem (s : State) (n : Nat) : (State.giveUpSlot s n).mem = s.mem := by
  unfold State.giveUpSlot
  (repeat' split) <;> simp [*]

theorem State.makePlace_mem {s : State} {core quota : Nat} {domain : List Nat} {p : Nat × State} (h : s.makePlace core quota domain = some p) :
    p.2.mem = s.mem := by
  unfold State.makePlace at h
  dsimp only at h
  split at h
  · cases h; rfl
  · obtain ⟨v, -, rfl⟩ := Option.map_eq_some_iff.mp h
    exact State.giveUpSlot_mem _ _

theorem State.launchBinAt_mem {s t : State} {team bin q : Nat} (h : s.launchBinAt team bin q = some t) : t.mem = s.mem := by
  unfold State.launchBinAt at h
  dsimp only at h
  split at h
  · cases h; simp
  · cases h

theorem State.seat_mem {s t : State} {w : Waiter} (h : s.seat w = some t) : t.mem = s.mem := by
  unfold State.seat at h
  split at h
  · obtain ⟨g, -, hg⟩ := Option.bind_eq_some_iff.mp h
    obtain ⟨p, hp, rfl⟩ := Option.map_eq_some_iff.mp hg
    simpa using State.makePlace_mem hp
  · obtain ⟨p, hp, hq⟩ := Option.bind_eq_some_iff.mp h
    exact (State.launchBinAt_mem hq).trans (State.makePlace_mem hp)

@[simp] theorem execSlotTakeover_mem (s : State) : KeepsMem s (execSlotTakeover s) := by
  unfold execSlotTakeover
  split
  · simp
  · split
    · simp
    · rename_i h
      refine (KeepsMem_next _ _).mpr ?_
      split
      · exact State.seat_mem h
      · rw [soon_mem]; exact State.seat_mem h
@[simp] theorem execSlotTakeover_memOk (s : State) (hm : Memory.wf s.mem = true) : KeepsOk (execSlotTakeover s) := (execSlotTakeover_mem s).ok hm

@[simp] theorem execTlbinvComplete_mem (s : State) : KeepsMem s (execTlbinvComplete s) := by
  unfold execTlbinvComplete
  (repeat' split) <;> simp [*]

@[simp] theorem execTlbinvComplete_memOk (s : State) (hm : Memory.wf s.mem = true) : KeepsOk (execTlbinvComplete s) := (execTlbinvComplete_mem s).ok hm

@[simp] theorem execTileQueueStart_mem (s : State) : KeepsMem s (execTileQueueStart s) := by
  unfold execTileQueueStart
  (repeat' split) <;> simp [*]

@[simp] theorem execTileQueueStart_memOk (s : State) (hm : Memory.wf s.mem = true) : KeepsOk (execTileQueueStart s) := (execTileQueueStart_mem s).ok hm

@[simp] theorem State.queueWrites_memOk (s : State) (team : Nat) (l : List (Bool × Nat × List Byte)) (hm : Memory.wf s.mem = true) : Memory.wf (State.queueWrites s team l).mem = true := by
  unfold State.queueWrites
  (repeat' split) <;> simp_all

@[simp] theorem execTileQueueComplete_memOk (s : State) (hm : Memory.wf s.mem = true) : KeepsOk (execTileQueueComplete s) := by
  unfold execTileQueueComplete
  (repeat' split) <;> simp [*]

@[simp] theorem execSampleDue_mem (s : State) : KeepsMem s (execSampleDue s) := by
  unfold execSampleDue
  dsimp only
  (repeat' split) <;> simp [*]

@[simp] theorem execSampleDue_memOk (s : State) (hm : Memory.wf s.mem = true) : KeepsOk (execSampleDue s) := (execSampleDue_mem s).ok hm

@[simp] theorem State.forGangs_memOk (s : State) (l : List Nat) (f : State → State) (hm : Memory.wf s.mem = true)
    (hf : StFn f) : Memory.wf (s.forGangs l f).mem = true := by
  unfold State.forGangs
  exact foldl_memOk' _ _ _ hm fun s n h => hf _ (by simp [h])

@[simp] theorem State.enterBlk_memOk (s : State) (sec : Bool) (addr : W64) (sl : BitVec 8) (m : Mask) (hm : Memory.wf s.mem = true) : Memory.wf (State.enterBlk s sec addr sl m).mem = true := by
  unfold State.enterBlk
  (repeat' split) <;> simp [*]

@[simp] theorem State.admitPrimary_memOk (s : State) (hm : Memory.wf s.mem = true) : Memory.wf (State.admitPrimary s).mem = true := by
  unfold State.admitPrimary
  (repeat' split) <;> simp [*]

@[simp] theorem State.admitSecondary_memOk (s : State) (hm : Memory.wf s.mem = true) : Memory.wf (State.admitSecondary s).mem = true := by
  unfold State.admitSecondary
  (repeat' split) <;> simp [*]

@[simp] theorem State.noteGate_memOk (s : State) (hm : Memory.wf s.mem = true) : Memory.wf (State.noteGate s).mem = true := by
  unfold State.noteGate
  (repeat' split) <;> simp [*]

@[simp] theorem State.stallTimer_memOk (s : State) (hm : Memory.wf s.mem = true) : Memory.wf (State.stallTimer s).mem = true := by
  unfold State.stallTimer
  (repeat' split) <;> simp [*]

@[simp] theorem State.flushBins_mem (s : State) (teams : List Nat) : (State.flushBins s teams).mem = s.mem := by
  unfold State.flushBins
  (try dsimp only)
  (repeat' split) <;> (try simp [*])

@[simp] theorem State.countStall_mem (s : State) (k : Nat) : (State.countStall s k).mem = s.mem := by
  unfold State.countStall
  (repeat' split) <;> simp [*]

@[simp] theorem State.account_mem (s : State) (n : Nat) (reason : Option Nat) : (State.account s n reason).mem = s.mem := by
  unfold State.account
  (repeat' split) <;> simp [*]

@[simp] theorem State.quarterCycle_memOk (s : State) (core : Nat) (q : Nat) (hm : Memory.wf s.mem = true) : Memory.wf (State.quarterCycle s core q).mem = true := by
  unfold State.quarterCycle
  (try dsimp only)
  repeat' first | assumption | (simp [*]; done) | (refine foldl_memOk' _ _ _ ?_ fun _ _ _ => ?_) | (refine foldl_pair_memOk _ _ _ ?_ fun _ _ _ => ?_) | split

@[simp] theorem execCoreCycle_memOk (s : State) (hm : Memory.wf s.mem = true) : KeepsOk (execCoreCycle s) := by
  unfold execCoreCycle
  extract_lets core ns os s1 s2 s3 s4 s5 s6
  have h1 : Memory.wf s1.mem = true := State.forGangs_memOk _ _ _ hm fun s hm => State.admitPrimary_memOk _ hm
  have h2 : Memory.wf s2.mem = true := State.forGangs_memOk _ _ _ h1 fun s hm => by simp [hm]
  have h3 : Memory.wf s3.mem = true := State.forGangs_memOk _ _ _ h2 fun s hm => by simp [hm]
  have h4 : Memory.wf s4.mem = true := State.forGangs_memOk _ _ _ h3 fun s hm => by
    split <;> simp [hm]
  have h5 : Memory.wf s5.mem = true := by
    simp only [s5]
    split
    · exact h4
    · exact foldl_memOk' _ _ _ h4 fun s q hm => by simp [hm]
  have h6 : Memory.wf s6.mem = true := by
    simp only [s6]
    split
    · exact h5
    · exact h5
  exact (KeepsOk_next _).mpr h6

@[simp] theorem exec_memOk (i : Instr) (s : State) (hm : Memory.wf s.mem = true) : KeepsOk (exec i s) := by
  unfold exec
  (repeat' split) <;> simp [*]

end Sys2Proof.Machine
end

