-- ==== Sys2Proof/Laws/Rounding.lean ====
section
/-! SUPPORT. Rounding (spec/13_isa_float.md R365, R375): RoundTo depends on the value and not on the unit in which it is counted, and
`isqrt` is the floor of the square root. -/

namespace Sys2Proof.Machine

theorem bitLen_eq_size (x : Nat) : bitLen x = Nat.size x := by
  unfold bitLen
  split
  · subst_vars; rfl
  · rename_i h
    have h1 : 2 ^ Nat.log2 x ≤ x := Nat.log2_self_le h
    have h2 : x < 2 ^ (Nat.log2 x + 1) := Nat.lt_log2_self
    apply Nat.le_antisymm
    · have : Nat.log2 x < Nat.size x := Nat.lt_size.2 h1
      omega
    · exact Nat.size_le.2 h2

theorem bitLen_scale {m : Nat} (h : m ≠ 0) (k : Nat) : bitLen (m * 2 ^ k) = bitLen m + k := by
  rw [bitLen_eq_size, bitLen_eq_size, ← Nat.shiftLeft_eq, Nat.size_shiftLeft h]

theorem roundsUp_scale (rn : Rnd) (n : Bool) (c r k j : Nat) :
    roundsUp rn n c (r * 2 ^ j) (k + j) false = roundsUp rn n c r k false := by
  have hj := Nat.two_pow_pos j
  have e1 : 2 ^ (k + j) = 2 ^ k * 2 ^ j := Nat.pow_add ..
  have e2 : (r * 2 ^ j != 0) = (r != 0) := by
    rcases Nat.eq_zero_or_pos r with h0 | h0
    · rw [h0, Nat.zero_mul]
    · rw [bne_iff_ne.2 (Nat.mul_pos h0 hj).ne', bne_iff_ne.2 h0.ne']
  have e3 : (2 ^ (k + j) ≤ 2 * (r * 2 ^ j)) ↔ 2 ^ k ≤ 2 * r := by
    rw [e1, ← Nat.mul_assoc]; exact ⟨fun h => Nat.le_of_mul_le_mul_right h hj, fun h => Nat.mul_le_mul_right _ h⟩
  have e4 : (2 ^ (k + j) < 2 * (r * 2 ^ j)) ↔ 2 ^ k < 2 * r := by
    rw [e1, ← Nat.mul_assoc]; exact ⟨fun h => Nat.lt_of_mul_lt_mul_right h, fun h => Nat.mul_lt_mul_of_pos_right h hj⟩
  have e5 : (2 * (r * 2 ^ j) = 2 ^ (k + j)) ↔ 2 * r = 2 ^ k := by
    rw [e1, ← Nat.mul_assoc]; exact ⟨fun h => Nat.eq_of_mul_eq_mul_right hj h, fun h => by rw [h]⟩
  have e6 : r * 2 ^ j * 2 ^ 32 / 2 ^ (k + j) = r * 2 ^ 32 / 2 ^ k := by
    rw [e1, show r * 2 ^ j * 2 ^ 32 = r * 2 ^ 32 * 2 ^ j by ring]
    exact Nat.mul_div_mul_right _ _ hj
  unfold roundsUp
  simp only [e2, e3, e4, e5, e6]

/-- A magnitude and its scaled form are cut alike. -/
theorem cutAt_scale (rn : Rnd) (n : Bool) (m k : Nat) (e q : Int) : cutAt rn n (m * 2 ^ k) (e - k) false q = cutAt rn n m e false q := by
  unfold cutAt
  by_cases h : q ≤ e - k
  · have h2 : q ≤ e := by omega
    rw [if_pos h, if_pos h2, Nat.mul_assoc, ← Nat.pow_add]
    congr 4
    omega
  · rw [if_neg h]
    by_cases h2 : q ≤ e
    · obtain ⟨d, hd⟩ : ∃ d : Nat, d = (e - q).toNat := ⟨_, rfl⟩
      obtain ⟨j, hj⟩ : ∃ j : Nat, j = (q - (e - k)).toNat := ⟨_, rfl⟩
      have hk : k = d + j := by omega
      rw [if_pos h2, ← hd, ← hj]
      have e1 : m * 2 ^ k = m * 2 ^ d * 2 ^ j := by rw [hk, Nat.pow_add]; ring
      have hjp := Nat.two_pow_pos j
      rw [e1]
      simp only [Nat.mul_div_cancel _ hjp, Nat.mul_mod_left]
      have hr : roundsUp rn n (m * 2 ^ d) 0 j false = false := by
        unfold roundsUp
        (split <;> simp); omega
      simp [hr]
    · obtain ⟨d, hd⟩ : ∃ d : Nat, d = (q - e).toNat := ⟨_, rfl⟩
      have hj : (q - (e - k)).toNat = d + k := by omega
      rw [if_neg h2, ← hd, hj]
      have hkp := Nat.two_pow_pos k
      have e1 : m * 2 ^ k / 2 ^ (d + k) = m / 2 ^ d := by rw [Nat.pow_add]; exact Nat.mul_div_mul_right _ _ hkp
      have e2 : m * 2 ^ k % 2 ^ (d + k) = m % 2 ^ d * 2 ^ k := by rw [Nat.pow_add]; exact Nat.mul_mod_mul_right _ _ _
      have e3 := roundsUp_scale rn n (m / 2 ^ d) (m % 2 ^ d) d k
      have e4 : (m % 2 ^ d * 2 ^ k != 0) = (m % 2 ^ d != 0) := by
        rcases Nat.eq_zero_or_pos (m % 2 ^ d) with h0 | h0
        · rw [h0, Nat.zero_mul]
        · rw [bne_iff_ne.2 (Nat.mul_pos h0 hkp).ne', bne_iff_ne.2 h0.ne']
      simp only [e1, e2, e3, e4]

/-- RoundTo depends on the value alone, not on the unit in which it is counted (R365). -/
theorem roundTo_scale (t : Ty) (rn : Rnd) (n : Bool) (m k : Nat) (e : Int) :
    roundTo t rn n (m * 2 ^ k) (e - k) false = roundTo t rn n m e false := by
  by_cases h : m = 0
  · simp [roundTo, h]
  · have h1 : m * 2 ^ k ≠ 0 := by positivity
    have h2 : e - (k : Int) + ((bitLen m + k : Nat) : Int) = e + (bitLen m : Int) := by push_cast; omega
    unfold roundTo
    simp only [h, h1, bitLen_scale h, h2, cutAt_scale, Bool.false_and, decide_false]

/-- `isqrt` is the floor of the square root. -/
theorem isqrtGo_spec (n i r : Nat) (h1 : r * r ≤ n) (h2 : n < (r + 2 ^ i) * (r + 2 ^ i)) :
    isqrtGo n i r * isqrtGo n i r ≤ n ∧ n < (isqrtGo n i r + 1) * (isqrtGo n i r + 1) := by
  induction i generalizing r with
  | zero => exact ⟨h1, by simpa [isqrtGo] using h2⟩
  | succ i ih =>
    unfold isqrtGo
    split
    · rename_i h
      exact ih _ h (by rw [Nat.add_assoc, ← Nat.two_mul, Nat.mul_comm 2, ← Nat.pow_succ]; exact h2)
    · rename_i h
      exact ih _ h1 (by omega)

theorem isqrt_spec (n : Nat) : isqrt n * isqrt n ≤ n ∧ n < (isqrt n + 1) * (isqrt n + 1) := by
  apply isqrtGo_spec n _ 0 (by omega)
  have h : n < 2 ^ bitLen n := by rw [bitLen_eq_size]; exact Nat.lt_size_self n
  simp only [Nat.zero_add, ← Nat.pow_add]
  exact lt_of_lt_of_le h (Nat.pow_le_pow_right (by decide) (by omega))

theorem isqrt_unique {n r : Nat} (h1 : r * r ≤ n) (h2 : n < (r + 1) * (r + 1)) : isqrt n = r := by
  obtain ⟨h3, h4⟩ := isqrt_spec n
  have a : isqrt n < r + 1 := by by_contra h; push Not at h; nlinarith
  have b : r < isqrt n + 1 := by by_contra h; push Not at h; nlinarith
  omega

end Sys2Proof.Machine
end

