-- ==== Sys2Proof/Laws/Shapes.lean ====
section
/-! SUPPORT. What the shared operations do, said once: tables, lanes and masks, integer reading and fitting, and the shapes in which an
instruction of a block completes, departs or faults. -/

namespace Sys2Proof.Laws.Shapes

open Sys2Proof Sys2Proof.Machine

/-! ### Tables, lanes and masks -/

theorem tfind_tset {α : Type} (t : Table α) (n m : Nat) (v : α) : tfind (tset t n v) m = if m = n then some v else tfind t m := by
  induction t with
  | nil => simp only [tset, tfind, eq_comm]
  | cons p r ih =>
    obtain ⟨k, w⟩ := p
    simp only [tset]
    split
    · simp only [tfind, eq_comm]
    · split
      · subst_vars
        simp only [tfind]
        by_cases h : k = m
        · simp [h]
        · simp [h, Ne.symm h]
      · simp only [tfind, ih]
        by_cases h : k = m
        · subst h; simp; omega
        · simp [h]

theorem tget_tset {α : Type} (t : Table α) (n m : Nat) (v d : α) : tget (tset t n v) m d = if m = n then v else tget t m d := by
  unfold tget
  rw [tfind_tset]
  split <;> rfl

theorem lane_lanes (f : Nat → W64) (l : Nat) : lane (lanes f) l = if l < 32 then f l else 0 := by
  unfold lane lanes
  simp only [List.getD_eq_getElem?_getD, List.getElem?_map]
  split
  · rw [List.getElem?_range (by assumption)]; rfl
  · rw [List.getElem?_eq_none (by rw [List.length_range]; omega)]; rfl

theorem lane_splat (x : W64) (l : Nat) : lane (splat x) l = if l < 32 then x else 0 := by
  unfold lane splat
  simp only [List.getD_eq_getElem?_getD, List.getElem?_replicate]
  split <;> rfl

theorem lanesOf_mem (m : Mask) (l : Nat) : l ∈ lanesOf m ↔ l < 32 ∧ m.getLsbD l = true := by
  simp [lanesOf]

/-! ### The current block instance -/

theorem setBlk_blk (s : State) (b : Blk) : (s.setBlk b).blk? = some b := by
  unfold State.setBlk State.blk?
  cases h : s.isec <;> simp

theorem setBlk_setBlk (s : State) (b c : Blk) : (s.setBlk b).setBlk c = s.setBlk c := by
  unfold State.setBlk
  cases h : s.isec <;> simp

/-- `raise` at the primary takes the fault at once. -/
theorem raise_primary {s : State} {b : Blk} (r : FaultRec) (h : s.blk? = some b) (hp : s.isec = false) :
    s.raise r = s.takeFault r b.addr false := by
  unfold State.raise
  simp [h, hp]

/-- `raise` at the secondary keeps the fault with the instance. -/
theorem raise_secondary {s : State} {b : Blk} (r : FaultRec) (h : s.blk? = some b) (hp : s.isec = true) :
    s.raise r = s.setBlk (b.faulted r) := by
  unfold State.raise
  simp [h, hp]

/-! ### Completion -/

/-- What `compute` does. -/
theorem completes_of {i : Instr} {f : Form} {l : Nat × Nat} {s : State} {b : Blk} {t : Tok} {fl : BitVec 5}
    (res : Env → Opnd → Tok × BitVec 5) (h : s.blk? = some b) (he : exec i s = compute f l res s)
    (ht : (res s.env (b.opnd s.idx f)).1 = t) (hf : (res s.env (b.opnd s.idx f)).2 = fl) : Completes i f l s b t fl := by
  unfold Completes
  rw [he]
  unfold compute Blk.completed
  simp only [h, ht, hf, State.lat]

/-- What `compute` does with a value in each lane. -/
theorem lane_completes {f : Form} {s : State} {b : Blk} {i : Instr} {l : Nat × Nat} (res : Env → Opnd → Tok × BitVec 5)
    (h : s.blk? = some b) (he : exec i s = compute f l res s) (v u : Nat → W64)
    (hv : res s.env (b.opnd s.idx f) = (laneResult f (b.opnd s.idx f) v, 0)) (hu : ∀ n, v n = u n) :
    Completes i f l s b (laneResult f (b.opnd s.idx f) u) 0 := by
  rw [← (funext hu : v = u)]
  exact completes_of _ h he (by rw [hv]) (by rw [hv])

/-- What `depart` does. -/
theorem departs_of {i : Instr} {f : Form} {s : State} {b : Blk} (h : s.blk? = some b) (he : exec i s = depart f i s) :
    Departs i f s b := by
  unfold Departs
  rw [he]
  unfold depart
  rw [h]
  rfl

/-- What `departIf` does where its check finds nothing. -/
theorem departs_checked {i : Instr} {f : Form} {s : State} {b : Blk} (chk : Opnd → Option FaultRec) (h : s.blk? = some b)
    (he : exec i s = departIf f i chk s) (hc : chk (b.opnd s.idx f) = none) : Departs i f s b := by
  refine departs_of h ?_
  rw [he]
  unfold departIf
  simp only [h, hc]

/-- What `departIf` does where its check finds a fault. -/
theorem checked_faults {i : Instr} {f : Form} {s : State} {b : Blk} (chk : Opnd → Option FaultRec) {code sub lsid : Nat} {m : Mask}
    {va : Lanes} (h : s.blk? = some b) (he : exec i s = departIf f i chk s)
    (hc : chk (b.opnd s.idx f) = some (s.execFault code sub lsid m va)) : Faults i s code sub lsid m va := by
  unfold Faults
  rw [he]
  unfold departIf
  simp only [h, hc]
  rfl

/-! ### Integers (R325) -/

theorem width_pos (t : Ty) : 0 < t.width := by cases t <;> decide
theorem width_le (t : Ty) : t.width ≤ 64 := by cases t <;> decide
theorem two_pow_cast (w : Nat) : ((2 ^ w : Nat) : Int) = (2 : Int) ^ w := by norm_cast
theorem two_pow_pos (w : Nat) : (0 : Int) < 2 ^ w := by rw [← two_pow_cast]; exact_mod_cast Nat.two_pow_pos w

theorem ext_eq_asInt (t : Ty) (x : W64) : ext t x = asInt t x := by
  unfold ext asInt
  have hp : ∀ w : Nat, 0 < w → (2 ^ (w - 1) : Nat) * 2 = 2 ^ w := by intro w h; rw [← Nat.pow_succ]; congr 1; omega
  have := hp _ (width_pos t)
  cases hI : t.isI <;> simp
  rw [Int.bmod_def]
  split <;> split <;> rename_i h1 h2
  · exfalso
    have h3 : (x.toNat : Int) % ((2 ^ t.width : Nat) : Int) = ((x.toNat % 2 ^ t.width : Nat) : Int) := by norm_cast
    rw [h3] at h2
    norm_cast at h2
    omega
  · push_cast; rfl
  · push_cast; rfl
  · exfalso
    have h3 : (x.toNat : Int) % ((2 ^ t.width : Nat) : Int) = ((x.toNat % 2 ^ t.width : Nat) : Int) := by norm_cast
    rw [h3] at h2
    norm_cast at h2
    omega

theorem pat_cast (t : Ty) (v : Int) : ((pat t v : Nat) : Int) = v % (2 ^ t.width : Int) :=
  Int.toNat_of_nonneg (Int.emod_nonneg _ (Int.ne_of_gt (two_pow_pos _)))

theorem pat_lt (t : Ty) (v : Int) : pat t v < 2 ^ t.width := by
  have h1 := Int.emod_lt_of_pos v (two_pow_pos t.width)
  rw [← pat_cast, ← two_pow_cast] at h1
  exact_mod_cast h1

theorem pat_asInt (t : Ty) (x : W64) : pat t (asInt t x) = x.toNat % 2 ^ t.width := by
  have h : ((pat t (asInt t x) : Nat) : Int) = ((x.toNat % 2 ^ t.width : Nat) : Int) := by
    rw [pat_cast, ← two_pow_cast]
    unfold asInt
    split
    · rw [Int.bmod_emod]; norm_cast
    · norm_cast; exact Nat.mod_mod _ _
  exact_mod_cast h

theorem asInt_pat (t : Ty) (v : Int) :
    asInt t (BitVec.ofNat 64 (pat t v)) = if t.isI then v.bmod (2 ^ t.width) else v % (2 ^ t.width : Int) := by
  have h1 := pat_lt t v
  have h2 : 2 ^ t.width ≤ 2 ^ 64 := Nat.pow_le_pow_right (by decide) (width_le t)
  have h3 : (BitVec.ofNat 64 (pat t v)).toNat = pat t v := by rw [BitVec.toNat_ofNat]; exact Nat.mod_eq_of_lt (by omega)
  have h4 := pat_cast t v
  unfold asInt
  rw [h3]
  split
  · rw [h4, ← two_pow_cast, Int.emod_bmod]
  · rw [Nat.mod_eq_of_lt h1, h4]

theorem asInt_congr {t : Ty} {x y : W64} (h : x.toNat % 2 ^ t.width = y.toNat % 2 ^ t.width) : asInt t x = asInt t y := by
  unfold asInt
  split
  · rw [← Int.emod_bmod, ← Int.emod_bmod (x := (y.toNat : Int))]
    congr 1
    exact_mod_cast h
  · rw [h]

theorem w64_mod (t : Ty) (n : Nat) : (w64 n).toNat % 2 ^ t.width = n % 2 ^ t.width := by
  unfold w64
  rw [BitVec.toNat_ofNat]
  exact Nat.mod_mod_of_dvd _ (Nat.pow_dvd_pow 2 (width_le t))

/-- Fit, then Out. -/
theorem outI_fit (rm : BitVec 3) (t : Ty) (v : Int) : outI (fit rm t v) = fitted (rm == 5) t v := by
  unfold outI fitted fit
  congr 1
  by_cases h : rm = 5
  · simp only [h, if_pos, beq_self_eq_true]
    unfold lo hi
    cases t.isI <;> simp
  · rw [if_neg h, if_neg (by simpa using h), ext_eq_asInt, asInt_pat]

/-- What `intOp` does: Out(Fit(v)) of the operands read by Ext. -/
theorem int_completes {f : Form} {s : State} {b : Blk} {i : Instr} {l : Nat × Nat} (v : Int → Int → Int → Int) (h : s.blk? = some b)
    (he : exec i s = intOp f l v s) (u : Nat → Int)
    (hu : ∀ n, v (asInt f.ty (lane (b.opnd s.idx f).a.vals n)) (asInt f.ty (lane (b.opnd s.idx f).b.vals n))
      (asInt f.ty (lane (b.opnd s.idx f).c.vals n)) = u n) :
    Completes i f l s b (laneResult f (b.opnd s.idx f) fun n => fitted (f.rm == 5) f.ty (u n)) 0 := by
  have e : (fun n => fitted (f.rm == 5) f.ty (u n)) = fun n => outI (fit f.rm f.ty
      (v (ext f.ty (lane (b.opnd s.idx f).a.vals n)) (ext f.ty (lane (b.opnd s.idx f).b.vals n)) (ext f.ty (lane (b.opnd s.idx f).c.vals n)))) := by
    funext n
    simp only [ext_eq_asInt, outI_fit, hu]
  rw [e]
  exact completes_of _ h he rfl rfl

/-- What `patOp` does: a w-bit pattern from the operands' patterns, read back by the type. -/
theorem pat_completes {f : Form} {s : State} {b : Blk} {i : Instr} {l : Nat × Nat} (v : Nat → Nat → Nat → Nat) (h : s.blk? = some b)
    (he : exec i s = patOp f l v s) (u : Nat → W64)
    (hu : ∀ n, v ((lane (b.opnd s.idx f).a.vals n).toNat % 2 ^ f.ty.width) (lane (b.opnd s.idx f).b.vals n).toNat
      ((lane (b.opnd s.idx f).c.vals n).toNat % 2 ^ f.ty.width) % 2 ^ f.ty.width = (u n).toNat % 2 ^ f.ty.width) :
    Completes i f l s b (laneResult f (b.opnd s.idx f) fun n => BitVec.ofInt 64 (asInt f.ty (u n))) 0 := by
  unfold patOp at he
  refine lane_completes _ h he _ _ rfl fun n => ?_
  simp only [ext_eq_asInt, pat_asInt, outI]
  exact congrArg _ (asInt_congr (by rw [w64_mod, hu]))

/-! ### Floating point and reductions (R349, R370) -/

theorem flagsOf_eq (m : Mask) (vc : TokClass) (v : Nat → BitVec 5) :
    flagsOf m vc v = if vc = .uni then (if m = 0 then 0 else v 0) else (lanesOf m).foldl (fun a l => a ||| v l) 0 := by
  cases vc <;> rfl

theorem sigFlag_one (v : FVal) : sigFlag [v] = if v = .nan true then fNV else 0 := by
  unfold sigFlag; simp only [List.contains_cons, List.contains_nil, Bool.or_false, beq_iff_eq]
  by_cases hv : v = .nan true <;> simp [hv]
  simp [Ne.symm hv]

/-- What `fpLanes` does: a value and flags in each lane. -/
theorem fp_completes {f : Form} {s : State} {b : Blk} {i : Instr} {l : Nat × Nat} (v : Env → Opnd → Nat → FRes) (h : s.blk? = some b)
    (he : exec i s = fpLanes f l v s) (u : Nat → FRes) (hu : v s.env (b.opnd s.idx f) = u) :
    Completes i f l s b (laneResult f (b.opnd s.idx f) fun n => BitVec.ofNat 64 (u n).1)
      (if f.vc = .uni then (if (b.opnd s.idx f).live = 0 then 0 else (u 0).2)
       else (lanesOf (b.opnd s.idx f).live).foldl (fun a l => a ||| (u l).2) 0) := by
  unfold fpLanes at he
  refine completes_of _ h he ?_ ?_
  · subst hu; rfl
  · subst hu
    exact flagsOf_eq (b.opnd s.idx f).live f.vc (fun i => (v s.env (b.opnd s.idx f) i).2)

theorem redNode_int {op : RedOp} {t : Ty} {r : Rnd} {x y : Nat} (h : t.isFloat = false) : (redNode op t r x y).2 = 0 := by
  unfold redNode; simp only [h]; cases op <;> rfl

theorem redBlock_flags {node : Nat → Nat → FRes} (hn : ∀ x y, (node x y).2 = 0) (e : Nat → Nat) (m l : Nat) : (redBlock node e m l).2 = 0 := by
  induction m generalizing l with
  | zero => rfl
  | succ m ih => simp [redBlock, ih, hn]

end Sys2Proof.Laws.Shapes
end

