-- ==== Sys2Proof/Machine/Yunas.lean ====
section
/-! DEFINITION. yunas, the assembler: source lines, names, expressions, suffixes, keys, operands and targets, and the words of a block
(spec/10_blocks_assembly.md R294 to R300, spec/11_encoding.md R305 to R319).  `none` is a program that yunas refuses. -/

namespace Sys2Proof.Machine

/-! ### Lines, names and numbers (R294 to R296) -/

/-- What separates the elements of a line. -/
def asmBlank (c : Char) : Bool := c == ' ' || c == '\t' || c == '\r'

/-- The parts of a text between the characters that satisfy a test. -/
def asmSplit (p : Char → Bool) : List Char → List (List Char)
  | [] => [[]]
  | c :: r =>
    if p c then [] :: asmSplit p r
    else match asmSplit p r with
      | x :: l => (c :: x) :: l
      | [] => [[c]]

/-- A line without its comment. -/
def asmCode : List Char → List Char
  | [] => []
  | ';' :: _ => []
  | '/' :: '/' :: _ => []
  | c :: r => c :: asmCode r

/-- The elements of a line. -/
def asmElements (l : List Char) : List (List Char) := (asmSplit asmBlank (asmCode l)).filter fun w => w != []

/-- The lines of a source. -/
def asmLines (src : String) : List (List Char) := asmSplit (· == '\n') src.toList

/-- Does a character begin a name? -/
def asmFirst (c : Char) : Bool := c.isAlpha || c == '_'
/-- Does a character continue a name? -/
def asmNext (c : Char) : Bool := c.isAlphanum || c == '_'

/-- A text that has the form of a name, up to 63 characters. -/
def asmNameForm : List Char → Bool
  | [] => false
  | c :: r => asmFirst c && r.all asmNext && decide (r.length ≤ 62)

/-- The value of a digit. -/
def asmDigit (c : Char) : Option Nat :=
  if c.isDigit then some (c.toNat - '0'.toNat)
  else if 'a' ≤ c ∧ c ≤ 'f' then some (c.toNat - 'a'.toNat + 10)
  else if 'A' ≤ c ∧ c ≤ 'F' then some (c.toNat - 'A'.toNat + 10)
  else none

/-- Digits of a base, each below it. -/
def asmDigits (base : Nat) (l : List Char) : Option Nat :=
  l.foldl (fun a c => match a, asmDigit c with
    | some n, some d => if d < base then some (n * base + d) else none
    | _, _ => none) (some 0)

/-- Digit groups between underscores. -/
def asmGroups (base : Nat) (l : List Char) : Option Nat :=
  let gs := asmSplit (· == '_') l
  if gs.any (·.isEmpty) then none else asmDigits base gs.flatten

/-- A number: decimal, or hexadecimal after `0x`. -/
def asmNat : List Char → Option Nat
  | '0' :: 'x' :: r => asmGroups 16 r
  | l => asmGroups 10 l

/-- A number, negated by a leading `-`. -/
def asmInt : List Char → Option Int
  | '-' :: r => (asmNat r).map fun n => -(n : Int)
  | l => (asmNat l).map fun n => (n : Int)

/-- What names stand for. -/
abbrev AsmNames := List (String × Int)

/-- The name that an expression begins with, and what follows it. -/
def asmHead (l : List Char) : String × List Char := (String.ofList (l.takeWhile asmNext), l.dropWhile asmNext)

/-- The name in an expression, if it holds one. -/
def asmNameIn (l : List Char) : Option String :=
  match l with
  | c :: _ => if asmFirst c then some (asmHead l).1 else none
  | [] => none

/-- The value of an expression: a number, a name, or a name with a number added or taken away. -/
def asmValue (names : AsmNames) (l : List Char) : Option Int :=
  match asmNameIn l with
  | none => asmInt l
  | some n =>
    match names.lookup n, (asmHead l).2 with
    | some v, [] => some v
    | some v, '+' :: r => (asmInt r).map (v + ·)
    | some v, '-' :: r => (asmInt r).map (v - ·)
    | _, _ => none

/-- The items of a list written with commas; each stands alone between two of them. -/
def asmList (ws : List (List Char)) : Option (List (List Char)) :=
  if ws.isEmpty then some []
  else
    let parts := (asmSplit (· == ',') (List.intercalate [' '] ws)).map asmElements
    if parts.all (fun p => p.length == 1) then some (parts.flatten) else none

/-! ### Keywords (R297, R298, R312) -/

/-- Types by name. -/
def asmTypes : List (String × Ty) :=
  [("i8", .i8), ("i16", .i16), ("i32", .i32), ("i64", .i64), ("n8", .n8), ("n16", .n16), ("n32", .n32), ("n64", .n64), ("b32", .b32),
   ("b64", .b64), ("f16", .f16), ("bf16", .bf16), ("f32", .f32), ("f64", .f64), ("e4m3", .e4m3), ("e5m2", .e5m2), ("e2m1", .e2m1),
   ("mx8a", .mx8a), ("mx8b", .mx8b), ("mx4", .mx4), ("mxi8", .mxi8), ("mask", .mask)]

/-- A type named after a letter: the source of a conversion (`s`), or the B format of a product (`b`). -/
def asmTyped (c : Char) (s : String) : Option Ty :=
  match s.toList with
  | x :: r => if x = c then asmTypes.lookup (String.ofList r) else none
  | [] => none

/-- Values of the key `as`. -/
def asmSpaces : List (String × Space) :=
  [("global", .global), ("stash", .stash), ("rstash", .rstash), ("tile", .tile), ("ctx", .ctx), ("pool", .pool)]
/-- Values of the key `ord`. -/
def asmOrds : List String := ["rlx", "acq", "rel", "ar", "seq"]
/-- Values of the key `rm`. -/
def asmRms : List String := ["rne", "rtz", "rdn", "rup", "rna", "srne", "stoch", "dyn"]
/-- Values of the key `sc`. -/
def asmScs : List String := ["gang", "team", "cluster", "die", "package", "tray", "rack", "system"]
/-- Values of the key `cp`. -/
def asmCps : List String := ["default", "stream", "keep", "nol1", "noalloc"]
/-- Values of the key `vc`. -/
def asmVcs : List (String × TokClass) := [("lane", .lane), ("uni", .uni), ("mask", .mask)]

/-- The number of a value among those of its key. -/
def asmCode3 (l : List String) (v : String) : Option (BitVec 3) :=
  let n := l.findIdx (· == v)
  if n < l.length then some (BitVec.ofNat 3 n) else none

/-- System registers by name (16 R458). -/
def asmSys : List (String × SysReg) :=
  [("FST", .fst), ("LCK", .lck), ("EXM", .exm), ("GANG_ID", .gangId), ("SFMASK", .sfmask), ("XINV", .xinv), ("LRM", .lrm),
   ("CTXINFO", .ctxinfo), ("FLM", .flm), ("FCAUSE", .fcause), ("FPC", .fpc), ("FVA", .fva), ("PMRES", .pmres), ("PRIVST", .privst)]

/-- Operations by suffix (12 R346, 14 R399). -/
def asmRed : List (String × RedOp) :=
  [("add", .add), ("min", .min), ("max", .max), ("and", .and), ("or", .or), ("xor", .xor)]
/-- AOP by suffix (R314). -/
def asmAops : List String := ["add", "min", "max", "and", "or", "xor", "exch", "fadd"]
/-- Relations by suffix (R346, 13 R377). -/
def asmRel : List (String × CmpRel) := [("eq", .eq), ("ne", .ne), ("lt", .lt), ("le", .le), ("gt", .gt), ("ge", .ge)]
/-- Relations of `fcmp` by suffix (13 R377). -/
def asmFRel : List (String × FCmpRel) :=
  [("eq", .eq), ("ne", .ne), ("lt", .lt), ("le", .le), ("gt", .gt), ("ge", .ge), ("un", .un), ("nn", .nn)]
/-- Paths of `waitr` by suffix (14 R407). -/
def asmPaths : List (String × Path) := [("st", .st), ("cp", .cp), ("ta", .ta), ("sf", .sf)]
/-- Functions of `predx` and `pgath` by suffix (15 R453). -/
def asmFns : List (String × BadgerFn) := [("add", .add), ("min", .min), ("max", .max)]

/-- Identities by suffix (12 R333). -/
def asmLids : List (String × LidKind) :=
  [("lane", .lane), ("slice", .slice), ("gang", .gang), ("team", .team), ("rank", .rank), ("lgid", .lgid), ("place", .place)] ++
    (List.range 8).map fun n => ("level" ++ toString n, .level (BitVec.ofNat 3 n))

/-- Mnemonics whose instruction holds the common fields alone. -/
def asmPlain : List (String × (Form → Instr)) :=
  [("mov", .mov), ("const", .const), ("nul", .nul), ("sel", .sel), ("jr", .jr), ("exit", .exit), ("yield", .yield), ("rquota", .rquota),
   ("enq", .enq), ("chunk", .chunk), ("qsend", .qsend), ("qtake", .qtake), ("add", .add), ("sub", .sub), ("mul", .mul),
   ("mulhi", .mulhi), ("mad", .mad), ("div", .div), ("rem", .rem), ("adc", .adc), ("sbc", .sbc), ("min", .min), ("max", .max),
   ("abs", .abs), ("neg", .neg), ("adr", .adr), ("and", .and), ("or", .or), ("xor", .xor), ("not", .not)] ++
  [("shl", .shl), ("shr", .shr), ("sra", .sra), ("rot", .rot), ("bfx", .bfx), ("bfi", .bfi), ("popc", .popc), ("clz", .clz),
   ("ctz", .ctz), ("brev", .brev), ("kand", .kand), ("kor", .kor), ("kxor", .kxor), ("knot", .knot), ("kpop", .kpop), ("kfst", .kfst),
   ("fadd", .fadd), ("fsub", .fsub), ("fmul", .fmul), ("fma", .fma), ("fdiv", .fdiv), ("fsqrt", .fsqrt), ("frcp", .frcp),
   ("frsqrt", .frsqrt), ("fmin", .fmin), ("fmax", .fmax), ("fabs", .fabs), ("fneg", .fneg), ("fclass", .fclass), ("frnd", .frnd)] ++
  [("fldx", .fldx), ("ffrx", .ffrx), ("fexp", .fexp), ("fexp2", .fexp2), ("flog", .flog), ("flog2", .flog2), ("fsin", .fsin),
   ("fcos", .fcos), ("ftanh", .ftanh), ("flgst", .flgst), ("ferf", .ferf), ("fatan2", .fatan2), ("fpow", .fpow), ("pfma", .pfma),
   ("padd", .padd), ("pmul", .pmul), ("pmax", .pmax), ("pdot", .pdot), ("tlwait", .tlwait), ("tlread", .tlread), ("dsync", .dsync),
   ("lclk", .lclk), ("stalls", .stalls), ("trc", .trc), ("pfill", .pfill), ("pcopy", .pcopy), ("pcmp", .pcmp), ("pmap", .pmap),
   ("punmap", .punmap), ("tlbinv", .tlbinv), ("tret", .tret), ("brk", .brk), ("cyc", .cyc), ("waitc", .waitc), ("halt", .halt)]

/-- Mnemonics that act at a block (R334, R341). -/
def asmJumps : List (String × (Form → W32 → Instr)) :=
  [("br", .br), ("bl", .bl), ("regang", .regang), ("spawn", .spawn)]
/-- Mnemonics with an LSID alone. -/
def asmOrdered : List (String × (Form → BitVec 5 → Instr)) :=
  [("fence", .fence), ("smap", .smap), ("sunmap", .sunmap), ("swb", .swb), ("sinv", .sinv), ("halloc", .halloc), ("hfree", .hfree)]
/-- Accesses without an operation. -/
def asmAccess : List (String × (Form → MemArg → Instr)) :=
  [("ld", .ld), ("ldp", .ldp), ("st", .st), ("cas", .cas), ("pref", .pref)]
/-- Accesses with an operation. -/
def asmAtomic : List (String × (Form → MemArg → Instr)) := [("atom", .atom), ("red", .red)]
/-- Accumulator instructions (13 R390). -/
def asmAcc : List (String × (Form → BitVec 2 → Instr)) :=
  [("xclr", .xclr), ("xacc", .xacc), ("xadd", .xadd), ("xrnd", .xrnd), ("xsgn", .xsgn)]
/-- Barrier instructions (14 R421). -/
def asmBar : List (String × (Form → BitVec 9 → Instr)) :=
  [("init", .barInit), ("arr", .barArr), ("wait", .barWait), ("aw", .barAw), ("drop", .barDrop), ("tx", .barTx), ("gen", .barGen)]
/-- Semaphore instructions (14 R418). -/
def asmSem : List (String × (Form → BitVec 6 → BitVec 10 → Instr)) :=
  [("acq", .semAcq), ("rel", .semRel), ("try", .semTry)]
/-- Instructions with one tile operand (15 R433, R440). -/
def asmTiles : List (String × (Form → BitVec 4 → Instr)) :=
  [("tld", .tld), ("tst", .tst), ("tclr", .tclr), ("trmax", .trmax), ("trsum", .trsum), ("trscl", .trscl)]
/-- Copies (15 R445). -/
def asmCopies : List (String × (Form → BitVec 5 → Instr)) :=
  [("cpy", .cpy), ("cpyg", .cpyg), ("cpyx", .cpyx), ("cfill", .cfill)]
/-- Conversions with a source type (12 R359, 13 R373). -/
def asmConvert : List (String × (Form → Ty → Instr)) :=
  [("cvt", .cvt), ("fcvt", .fcvt), ("fcvti", .fcvti), ("icvtf", .icvtf)]
/-- Products (15 R433). -/
def asmMma : List (String × (Form → MmaArg → Instr)) := [("tmma", .tmma), ("tdist", .tdist)]
/-- Reductions near memory (15 R453). -/
def asmNear : List (String × (Form → Ty → BadgerFn → Instr)) := [("predx", .predx), ("pgath", .pgath)]
/-- Forms of `pcvt` (13 R388). -/
def asmPcvt : List (String × PcvtKind) := [("lo", .lo), ("hi", .hi), ("pk", .pk), ("p8", .p8), ("u8", .u8)]
/-- Mnemonics that accept `.sat` (12 R352). -/
def asmSat : List String := ["add", "sub", "mul", "mad", "abs", "neg", "cvt"]

/-- Mnemonics of instructions with forms of their own. -/
def asmOthers : List String :=
  ["rd", "wr", "lid", "cmp", "vote", "shfl", "redux", "scan", "fcmp", "pcvt", "wait", "waitr", "prov", "ttopk", "tcvt", "sysrd", "syswr",
   "trap", "sem", "bar"]

/-- A name that is kept back: a register, a system register, a mnemonic or a value of R298 (R295). -/
def asmReserved (n : String) : Bool :=
  (asmSys.lookup n).isSome || (asmSpaces.lookup n).isSome || (asmVcs.lookup n).isSome || asmOrds.contains n || asmRms.contains n ||
  asmScs.contains n || asmCps.contains n || (asmPlain.lookup n).isSome || (asmJumps.lookup n).isSome || (asmOrdered.lookup n).isSome ||
  (asmAccess.lookup n).isSome || (asmAtomic.lookup n).isSome || (asmAcc.lookup n).isSome || (asmTiles.lookup n).isSome ||
  (asmCopies.lookup n).isSome || (asmConvert.lookup n).isSome || (asmMma.lookup n).isSome || (asmNear.lookup n).isSome ||
  asmOthers.contains n ||
  match n.toList with
  | c :: r => (match asmDigits 10 r with
    | some k => !r.isEmpty && ((c == 'v' && decide (k < 128)) || (c == 's' && decide (k < 64)) || (c == 'k' && decide (k < 16)) ||
        (c == 'x' && decide (k < 4)) || (c == 'z' && decide (k < 16)))
    | none => false)
  | [] => false

/-- A name that a program may define (R295). -/
def asmName (l : List Char) : Option String :=
  let n := String.ofList l
  if asmNameForm l && !asmReserved n then some n else none

/-! ### Statements (R294, R297) -/

/-- A statement: its label, its mnemonic and suffixes (a directive's first part is empty), what stands before the arrow, and the targets. -/
structure AsmStmt where
  label   : Option String
  head    : List String
  args    : List (List Char)
  targets : List (List Char)
  deriving DecidableEq, Repr

/-- The label that begins a line, and the elements after it. -/
def asmLabel (ws : List (List Char)) : Option (Option String × List (List Char)) :=
  match ws with
  | [] => some (none, [])
  | w :: r =>
    match w.dropWhile (· != ':') with
    | [] => some (none, ws)
    | _ :: after =>
      match asmName (w.takeWhile (· != ':')) with
      | none => none
      | some n => some (some n, if after.isEmpty then r else after :: r)

/-- A line read; the outer `none` refuses it, the inner stands for a blank line. -/
def asmStmt (line : List Char) : Option (Option AsmStmt) :=
  match asmLabel (asmElements line) with
  | none => none
  | some (none, []) => some none
  | some (some _, []) => none
  | some (lab, h :: r) =>
    let args := r.takeWhile (· != ['-', '>'])
    match asmList ((r.dropWhile (· != ['-', '>'])).drop 1) with
    | none => none
    | some ts =>
      if r.contains ['-', '>'] && ts.isEmpty then none
      else some (some { label := lab, head := (asmSplit (· == '.') h).map String.ofList, args := args, targets := ts })

/-- Is an element a key with a value? -/
def asmIsKey (w : List Char) : Bool := w.contains '='

/-- The keys of a statement, each at most once unless it may be repeated. -/
def asmKeys (ws : List (List Char)) : List (String × List Char) :=
  (ws.filter asmIsKey).map fun w => (String.ofList (w.takeWhile (· != '=')), (w.dropWhile (· != '=')).drop 1)

/-! ### Instructions (R298, R299) -/

/-- An operand that is no immediate: a register, an accumulator, a tile, a system register, a block's displacement, or a number. -/
inductive AsmOp where
  | reg (r : Reg)
  | acc (j : BitVec 2)
  | tile (z : BitVec 4)
  | sys (r : SysReg)
  | block (d : W32)
  | num (v : Nat)
  deriving DecidableEq, Repr

/-- What an instruction's text is read against: the names, the blocks and their offsets, and the offset of its own block. -/
structure AsmEnv where
  names  : AsmNames
  blocks : AsmNames
  own    : Int
  deriving DecidableEq, Repr

/-- A register, accumulator or tile by its letter and number. -/
def asmFile (l : List Char) : Option AsmOp :=
  match l with
  | c :: r =>
    if r.isEmpty then none
    else match asmDigits 10 r with
      | none => none
      | some n =>
        if c = 'v' ∧ n < 128 then some (.reg (.v (BitVec.ofNat 7 n)))
        else if c = 's' ∧ n < 64 then some (.reg (.s (BitVec.ofNat 6 n)))
        else if c = 'k' ∧ n < 16 then some (.reg (.k (BitVec.ofNat 4 n)))
        else if c = 'x' ∧ n < 4 then some (.acc (BitVec.ofNat 2 n))
        else if c = 'z' ∧ n < 16 then some (.tile (BitVec.ofNat 4 n))
        else none
  | [] => none

/-- An operand read. -/
def AsmEnv.operand (e : AsmEnv) (l : List Char) : Option AsmOp :=
  let n := String.ofList l
  match asmFile l, asmSys.lookup n, e.blocks.lookup n with
  | some o, _, _ => some o
  | none, some r, _ => some (.sys r)
  | none, none, some t => some (.block (BitVec.ofInt 32 ((t - e.own) / 16)))
  | none, none, none => match asmValue e.names l with
    | some v => if 0 ≤ v then some (.num v.toNat) else none
    | none => none

/-- The instruction of a mnemonic by its suffixes and operands, its memory argument and its immediate where W2 takes it (R298, R320). -/
def asmInstr (m : String) (vs : List String) (ops : List AsmOp) (mem : MemArg) (imm : Option Int) : Option (Form → Instr) :=
  match asmPlain.lookup m, vs, ops with
  | some k, [], [] => some k
  | some _, _, _ => none
  | none, vs, ops =>
  match m, vs, ops with
  | "rd", [], [.reg r] => some fun f => .rd f r
  | "wr", [], [.reg r] => some fun f => .wr f r
  | "sysrd", [], [.sys r] => some fun f => .sysrd f r
  | "syswr", [], [.sys r] => some fun f => .syswr f r
  | "lid", [v], [] => (asmLids.lookup v).map fun k f => .lid f k
  | "cmp", [v], [] => (asmRel.lookup v).map fun r f => .cmp f r
  | "fcmp", [v], [] => (asmFRel.lookup v).map fun r f => .fcmp f r
  | "vote", ["all"], [] => some fun f => .vote f .all
  | "vote", ["any"], [] => some fun f => .vote f .any
  | "vote", ["eq"], [] => some fun f => .vote f .eq
  | "vote", ["ballot"], [] => some fun f => .vote f .ballot
  | "shfl", ["idx"], [] => some fun f => .shfl f .idx
  | "shfl", ["up"], [] => some fun f => .shfl f .up
  | "shfl", ["down"], [] => some fun f => .shfl f .down
  | "shfl", ["xor"], [] => some fun f => .shfl f .xor
  | "redux", [v], [] => (asmRed.lookup v).map fun o f => .redux f o
  | "scan", [v], [] => (asmRed.lookup v).map fun o f => .scan f o false
  | "scan", [v, "excl"], [] => (asmRed.lookup v).map fun o f => .scan f o true
  | "pcvt", [v, t], [] => match asmPcvt.lookup v, asmTyped 's' t with
    | some k, some src => some fun f => .pcvt f k src
    | _, _ => none
  | "wait", [], [.num a, .num b, .num c, .num d] =>
    if a < 64 ∧ b < 64 ∧ c < 64 ∧ d < 64 then
      some fun f => .wait f (BitVec.ofNat 6 a) (BitVec.ofNat 6 b) (BitVec.ofNat 6 c) (BitVec.ofNat 6 d)
    else none
  | "waitr", [v], [] => (asmPaths.lookup v).map fun p f => .waitr f p
  | "sem", [v], [.num n, .num k] =>
    if n < 64 ∧ k < 1024 then (asmSem.lookup v).map fun c f => c f (BitVec.ofNat 6 n) (BitVec.ofNat 10 k) else none
  | "bar", [v], [.num n] => if n < 512 then (asmBar.lookup v).map fun c f => c f (BitVec.ofNat 9 n) else none
  | "prov", [], [] => some fun f => .prov f false
  | "prov", ["clear"], [] => some fun f => .prov f true
  | "ttopk", [], [.tile a, .tile b, .num k] =>
    if 1 ≤ k ∧ k ≤ 32 then some fun f => .ttopk f a b (BitVec.ofNat 5 (k - 1)) false else none
  | "ttopk", ["largest"], [.tile a, .tile b, .num k] =>
    if 1 ≤ k ∧ k ≤ 32 then some fun f => .ttopk f a b (BitVec.ofNat 5 (k - 1)) true else none
  | "tcvt", [t], [.tile z] => (asmTyped 's' t).map fun src f => .tcvt f z false src
  | "tcvt", ["trans", t], [.tile z] => (asmTyped 's' t).map fun src f => .tcvt f z true src
  | "trap", [], [] => match imm with
    | some v => if 0 ≤ v ∧ v < 65536 then some fun f => .trap f (BitVec.ofInt 16 v) else none
    | none => none
  | m, [], [.block d] => (asmJumps.lookup m).map fun c f => c f d
  | m, [], [.acc j] => (asmAcc.lookup m).map fun c f => c f j
  | m, [], [.tile z] => (asmTiles.lookup m).map fun c f => c f z
  | m, [], [.num p] => if p < 32 then (asmCopies.lookup m).map fun c f => c f (BitVec.ofNat 5 p) else none
  | m, vs, [.tile z, .reg (.v n)] =>
    match asmMma.lookup m, vs.reverse with
    | some c, b :: flags =>
      match asmTyped 'b' b with
      | some t =>
        let ok := [[], ["reuse"], ["zero"], ["zero", "reuse"]].contains flags
        if ok then some fun f => c f ⟨n, z, t, flags.contains "reuse", flags.contains "zero"⟩ else none
      | none => none
    | _, _ => none
  | m, [v, t], [] => match asmNear.lookup m, asmFns.lookup v, asmTyped 's' t with
    | some c, some g, some e => some fun f => c f e g
    | _, _, _ => none
  | m, [v], [] =>
    match asmConvert.lookup m, asmTyped 's' v with
    | some c, some t => some fun f => c f t
    | _, _ => match asmAtomic.lookup m, asmCode3 asmAops v with
      | some c, some _ => some fun f => c f mem
      | _, _ => none
  | m, [], [] => match asmOrdered.lookup m, asmAccess.lookup m with
    | some c, _ => some fun f => c f mem.lsid
    | none, some c => some fun f => c f mem
    | none, none => none
  | _, _, _ => none

/-- The parts of a mnemonic with its suffixes: mnemonic, variants, type and predicate (R297). -/
structure AsmMnemonic where
  name : String
  vs   : List String
  ty   : Option Ty
  pr   : Pred
  deriving DecidableEq, Repr

/-- A mnemonic with its suffixes taken apart. -/
def asmMnemonic (head : List String) : Option AsmMnemonic :=
  match head with
  | [] => none
  | m :: r =>
    let rev := r.reverse
    let (pr, rev) := match rev with
      | "t" :: q => (Pred.ifTrue, q)
      | "f" :: q => (Pred.ifFalse, q)
      | q => (Pred.always, q)
    let (ty, rev) := match rev with
      | t :: q => (match asmTypes.lookup t with
        | some x => (some x, q)
        | none => (none, t :: q))
      | [] => (none, [])
    some { name := m, vs := rev.reverse, ty := ty, pr := pr }

/-- A target field (R297, R309): the distance from an index to the one that a local label or a number names. -/
def asmTarget (labels : List (String × Nat)) (idx : Nat) (l : List Char) : Option Target :=
  match asmSplit (· == '.') l with
  | [n, sl] =>
    let slot := match sl with
      | ['a'] => some Slot.a | ['b'] => some .b | ['c'] => some .c | ['p'] => some .p
      | _ => none
    let at_ := match labels.lookup (String.ofList n) with
      | some i => some i
      | none => asmGroups 10 n
    match slot, at_ with
    | some sl, some i => if idx < i ∧ i ≤ idx + 95 then some ⟨sl, BitVec.ofNat 7 (i - idx)⟩ else none
    | _, _ => none
  | _ => none

/-- How the immediate of slot b is read (R319): the literal of `const` and 64-bit slots whole, a mask slot's 32 bits, else a type's width. -/
def litWide : Instr → Bool
  | .const f => f.vc != .mask
  | .shl _ | .shr _ | .sra _ | .rot _ | .bfx _ | .bfi _ | .shfl _ _ | .fldx _ | .qsend _ | .exit _ => true
  | .pfma _ | .padd _ | .pmul _ | .pmax _ | .pcvt _ _ _ | .pdot _ => true
  | .st _ _ | .atom _ _ | .cas _ _ | .red _ _ => false
  | i => match i.sig with
    | some g => g.b == SlotUse.need .uni && g.tys == [Ty.b64]
    | none => false

/-- Is an immediate exactly representable in the operand's type (R319)? -/
def litFits (i : Instr) (f : Form) (v : Int) : Bool :=
  let maskSlot : Bool := match i.sig with
    | some g => g.b == SlotUse.need .mask || (g.lit && f.vc == .mask)
    | none => false
  if maskSlot then decide (0 ≤ v ∧ v < 2 ^ 32)
  else if litWide i then decide (-(2 ^ 63) ≤ v ∧ v < 2 ^ 64)
  else if f.ty.isI then decide (-(2 ^ (f.ty.width - 1) : Int) ≤ v ∧ v < 2 ^ (f.ty.width - 1))
  else decide (0 ≤ v ∧ v < 2 ^ f.ty.width)

/-- Does a key apply to an instruction (R298)? -/
def asmKeyApplies (g : Sig) (atomic : Bool) (key : String) : Bool :=
  let ordered := [RmRule.ordLd, .ordSt, .ordAtom, .ordFence].contains g.rm
  match key with
  | "lsid" => g.cls == .m || g.cls == .l
  | "as" => g.cls == .m
  | "ord" => ordered
  | "rm" => !ordered && g.rm != .zero
  | "sc" => g.sc
  | "cp" => g.cls == .m && !atomic
  | "vc" => g.tok
  | _ => false

/-- An instruction's statement encoded (R297 to R299): the shortest form that holds its fields. -/
def AsmEnv.instr (e : AsmEnv) (labels : List (String × Nat)) (idx : Nat) (st : AsmStmt) : Option Instr :=
  let keys := asmKeys st.args
  let key := fun (k : String) => keys.lookup k
  let word := fun (k : String) => (key k).map String.ofList
  let num := fun (k : String) => match key k with
    | some l => asmValue e.names l
    | none => some 0
  match asmMnemonic st.head, asmList (st.args.filter fun w => !asmIsKey w), st.targets.mapM (asmTarget labels idx), num "lsid" with
  | some m, some items, some ts, some lsid =>
    let imms := items.filterMap fun l => match l with | '#' :: r => some r | _ => none
    let ops := (items.filter fun l => l.head? != some '#').mapM e.operand
    let imm := match imms with
      | [] => some none
      | [l] => (asmValue e.names l).map some
      | _ => none
    let sat := m.vs.contains "sat" && asmSat.contains m.name
    let vs := if sat then m.vs.erase "sat" else m.vs
    match ops, imm, (match word "as" with | some w => asmSpaces.lookup w | none => some .global) with
    | some ops, some imm, some space =>
      let memory := (asmAccess.lookup m.name).isSome || (asmAtomic.lookup m.name).isSome
      let off := if memory then imm.getD 0 else 0
      let atomic := (asmAtomic.lookup m.name).isSome || m.name == "cas"
      let code := fun (k : String) (l : List String) => match word k with
        | some w => asmCode3 l w
        | none => some 0
      let aop := if (asmAtomic.lookup m.name).isSome then asmCode3 asmAops (vs.getD 0 "") else code "cp" asmCps
      match asmInstr m.name vs ops ⟨BitVec.ofInt 5 lsid, space, BitVec.ofInt 24 off⟩ imm,
          code "ord" asmOrds, code "rm" asmRms, code "sc" asmScs, aop with
      | some build, some ord, some rm, some sc, some cp =>
        let f0 : Form := { ext := true, pr := m.pr, vc := .lane, t0 := ts.getD 0 Target.none, t1 := ts.getD 1 Target.none, ty := .i64,
                           rm := if (key "ord").isSome then ord else if sat then 5 else rm, sc := sc, cp := cp,
                           t2 := ts.getD 2 Target.none, t3 := ts.getD 3 Target.none,
                           lit := if memory || m.name == "trap" then none else imm.map fun v => BitVec.ofInt 64 v }
        match (build f0).op with
        | none => none
        | some o =>
          let f1 := { f0 with ty := m.ty.getD (groupDefault o) }
          match (build f1).sig, (match word "vc" with | some w => asmVcs.lookup w | none => (build f1).sig.bind fun g => g.vcs.head?) with
          | some g, some vc =>
            let f2 := { f1 with vc := vc }
            let short := g.cls == .n && shortOk (groupDefault o) { f2 with ext := false }
            let f3 := { f2 with ext := !short }
            let i := build f3
            let fits := match imm with
              | some v => if memory then decide (-(2 ^ 23) ≤ v ∧ v < 2 ^ 23) else m.name == "trap" || litFits i f3 v
              | none => true
            if decide (ts.length ≤ 4) && keys.all (fun k => asmKeyApplies g atomic k.1) && !repeats (keys.map Prod.fst) &&
                decide (0 ≤ lsid ∧ lsid < 32) && fits && i.wf then some i else none
          | _, _ => none
      | _, _, _, _, _ => none
    | _, _, _ => none
  | _, _, _, _ => none

/-! ### Blocks (R299 to R301, R305) -/

/-- A block of the source: its name, its safe point with the registers live there, its pinned length, and its instructions. -/
structure AsmBlock where
  name  : String
  stop  : Option (Nat × List Reg) := none
  timed : Option Nat := none
  body  : List AsmStmt := []
  deriving DecidableEq, Repr

/-- The local labels of a block with their indices. -/
def AsmBlock.labels (b : AsmBlock) : List (String × Nat) :=
  (b.body.zip (List.range b.body.length)).filterMap fun p => p.1.label.map fun n => (n, p.2)

/-- The instructions of a block. -/
def AsmBlock.instrs (b : AsmBlock) (e : AsmEnv) : Option (List Instr) :=
  (b.body.zip (List.range b.body.length)).mapM fun p => e.instr b.labels p.2 p.1

/-- Is an instruction in the commit set (R282)? -/
def inCommitSet : Instr → Bool
  | .st _ _ | .red _ _ => true
  | _ => false
/-- Is an instruction a register write? -/
def isWr : Instr → Bool
  | .wr _ _ => true
  | _ => false

/-- The header of a block: the counts are those of its instructions (R299, R305). -/
def AsmBlock.header (b : AsmBlock) (is : List Instr) : List W32 :=
  let nw := (is.flatMap encode).length
  let count := fun (p : Instr → Bool) => (is.filter p).length
  let bit := fun (c : Bool) => if c then 1 else 0
  [BitVec.ofNat 32 (11 * 2 ^ 28 + is.length * 2 ^ 21 + nw * 2 ^ 11 + count isWr * 2 ^ 5 + (count Instr.isExit - 1) * 4 +
     bit b.stop.isSome * 2 + bit b.timed.isSome),
   BitVec.ofNat 32 (count inCommitSet),
   BitVec.ofNat 32 ((b.stop.map Prod.fst).getD 0 * 256),
   BitVec.ofNat 32 (b.timed.getD 0 * 65536)]

/-- The words of a block; a block that would raise `ILLEGAL` or `BAD_BLOCK` at its decode is refused (R300). -/
def AsmBlock.words (b : AsmBlock) (e : AsmEnv) : Option (List W32) :=
  match b.instrs e with
  | none => none
  | some is =>
    let hdr := b.header is
    let ws := is.flatMap encode
    if ({ hdr := hdr, words := ws } : Blk).illegal = none then some (hdr ++ ws) else none

end Sys2Proof.Machine
end

