-- ==== Sys2Proof/Machine/YunasImage.lean ====
section
/-! DEFINITION. yunas, the assembler: directives, data, launch templates and the program image, and what a loader makes of it
(spec/10_blocks_assembly.md R301 to R304, spec/09_debug.md R262). -/

namespace Sys2Proof.Machine

/-! ### Data (R301, R302) -/

/-- A statement of the data section. -/
inductive AsmItem where
  | word (size : Nat) (es : List (List Char))
  | real (es : List (List Char))
  | space (n : Nat)
  | align (n : Nat)
  | launch (name : String) (keys : List (String × List Char))
  deriving DecidableEq, Repr

/-- Where a statement's bytes begin, and how many they are, at an offset. -/
def AsmItem.extent (at_ : Nat) : AsmItem → Nat × Nat
  | .word k es => (at_, k * es.length)
  | .real es => (at_, 8 * es.length)
  | .space n => (at_, n)
  | .align n => (at_, (n - at_ % n) % n)
  | .launch _ _ => ((at_ + 63) / 64 * 64, 512)

/-- A decimal fraction with an exponent: sign, digits as one number, and the power of ten that scales it. -/
def asmDecimal (l : List Char) : Option (Bool × Nat × Int) :=
  let (neg, l) := match l with
    | '-' :: r => (true, r)
    | l => (false, l)
  let mant := l.takeWhile fun c => c != 'e' && c != 'E'
  let ex : Option Int := match (l.dropWhile fun c => c != 'e' && c != 'E') with
    | [] => some 0
    | [_] => none
    | _ :: '+' :: r => (asmNat r).map fun n => (n : Int)
    | _ :: r => asmInt r
  let whole := mant.takeWhile (· != '.')
  let frac := (mant.dropWhile (· != '.')).drop 1
  let part := fun (p : List Char) => if p.isEmpty then some 0 else asmGroups 10 p
  let digits := (frac.filter (· != '_')).length
  match part whole, part frac, ex with
  | some a, some b, some e => if whole.isEmpty && frac.isEmpty then none else some (neg, a * 10 ^ digits + b, e - digits)
  | _, _, _ => none

/-- The binary64 pattern nearest to a decimal number, ties to even (R296, 13 R365). -/
def asmReal (l : List Char) : Option Nat :=
  match asmDecimal l with
  | some (neg, m, e) =>
    if 0 ≤ e then some (roundTo .f64 ⟨0, 0⟩ neg (m * 10 ^ e.toNat) 0 false).1
    else
      let d := 10 ^ (-e).toNat
      let sh := 1200 + bitLen d
      some (roundTo .f64 ⟨0, 0⟩ neg (m * 2 ^ sh / d) (-(sh : Int)) (m * 2 ^ sh % d != 0)).1
  | none => (asmInt l).map fun v => (roundTo .f64 ⟨0, 0⟩ (decide (v < 0)) v.natAbs 0 false).1

/-- Fields of a launch record that a key fills with a number: offset and size (05 R127). -/
def asmLrFields : List (String × Nat × Nat) :=
  [("entry", 8, 8), ("args", 16, 8), ("record", 32, 8), ("losslog", 40, 8), ("exitrec", 48, 8), ("exitstride", 56, 4), ("losscap", 60, 4),
   ("tlval", 64, 8), ("seed", 72, 8), ("pbase", 80, 8), ("gangs", 152, 1), ("cluster", 153, 1), ("stash", 154, 2), ("tile", 156, 2),
   ("quota", 158, 2), ("barriers", 160, 2), ("bintimer", 164, 4)]
/-- Flags of a launch record (05 R128). -/
def asmLrFlags : List (String × Nat) :=
  [("place", 1), ("fixord", 2), ("domcl", 3), ("replay", 4), ("alloc_null", 5), ("nosteal", 6)]
/-- Windows of a launch record. -/
def asmLrWindows : List (String × Nat) := [("win0", 168), ("win1", 184)]
/-- Domains of a level (05 R129). -/
def asmDomains : List String := ["gang", "core", "group", "die", "package", "tray", "rack"]

/-- A launch record that is being filled, and its words that hold image offsets (R304). -/
structure AsmLr where
  bytes : List Byte := List.replicate 512 0
  mask  : Nat := 1
  deriving DecidableEq, Repr

/-- A field set to the value of an expression; a name of a block, of data or of a template marks its word (R304). -/
def AsmLr.set (r : AsmLr) (names places : AsmNames) (off size : Nat) (signed : Bool) (l : List Char) : Option AsmLr :=
  match asmValue names l with
  | none => none
  | some v =>
    let fits := if signed then decide (-(2 ^ 63) ≤ v ∧ v < 2 ^ 64) else decide (0 ≤ v ∧ v < 2 ^ (8 * size))
    let named := match asmNameIn l with
      | some n => (places.lookup n).isSome
      | none => false
    if fits then some { bytes := putBytes r.bytes off (bytesOf size (BitVec.ofInt 64 v).toNat),
                        mask := if named && !r.mask.testBit (off / 8) then r.mask + 2 ^ (off / 8) else r.mask }
    else none

/-- A key of `.launch` applied; `level` counts the levels given before it (R302). -/
def AsmLr.key (names places : AsmNames) (r : AsmLr) (level : Nat) (k : String) (v : List Char) : Option AsmLr :=
  let flag := fun (r : AsmLr) (n : Nat) => { r with bytes := putBytes r.bytes 24 (bytesOf 8 (fieldOf r.bytes 24 8 + n)) }
  match asmLrFields.lookup k, asmLrFlags.lookup k, asmLrWindows.lookup k with
  | some (off, size), _, _ => r.set names places off size false v
  | none, some b, _ => match asmValue names v with
    | some 0 => some r
    | some 1 => some (flag r (2 ^ b))
    | _ => none
  | none, none, some off => match asmSplit (· == ':') v with
    | [a, n] => (r.set names places off 8 false a).bind fun r => r.set names places (off + 8) 8 false n
    | _ => none
  | none, none, none =>
    if k = "form" then (if v = "grid".toList then some r else if v = "seed".toList then some (flag r 1) else none)
    else if k = "pstride" then
      let vs := asmSplit (· == ',') v
      if 8 < vs.length then none
      else (vs.zip (List.range vs.length)).foldlM (fun r p => r.set names places (88 + 8 * p.2) 8 true p.1) r
    else if k = "level" then
      match asmSplit (· == ':') v with
      | [e, d, s] =>
        let dn := asmDomains.findIdx (· == String.ofList d)
        match asmCode3 asmScs (String.ofList s) with
        | some sc =>
          if level < 8 ∧ dn < 7 then
            (r.set names [] (200 + 16 * level) 8 false e).map fun r =>
              { r with bytes := putBytes r.bytes (208 + 16 * level) [BitVec.ofNat 8 dn, sc.setWidth 8] }
          else none
        | none => none
      | _ => none
    else none

/-- The template of a `.launch` line; one that breaks R130 is refused (R300). -/
def asmTemplate (names places : AsmNames) (keys : List (String × List Char)) : Option AsmLr :=
  let levels := (keys.filter fun k => k.1 == "level").length
  let others := (keys.filter fun k => k.1 != "level").map Prod.fst
  let r := keys.foldlM (fun (x : AsmLr × Nat) k =>
    (AsmLr.key names places x.1 x.2 k.1 k.2).map fun r => (r, if k.1 = "level" then x.2 + 1 else x.2)) (({} : AsmLr), 0)
  match r with
  | some (r, _) =>
    let r := { r with bytes := putBytes r.bytes 24 (bytesOf 8 (fieldOf r.bytes 24 8 + (levels - 1) * 2 ^ 8)) }
    if repeats others || decide (levels = 0) || lrReserved r.bytes || lrCode true r.bytes != 0 then none else some r
  | none => none

/-! ### Directives (R301) -/

/-- A source that is being read. -/
structure AsmProgram where
  name    : Option String := none
  entry   : Option String := none
  blocks  : List AsmBlock := []
  cur     : Option AsmBlock := none
  inData  : Bool := false
  items   : List (Option String × AsmItem) := []
  equs    : List (String × List Char) := []
  args    : AsmNames := []
  team    : List (String × List Char) := []
  cluster : List Char := ['1']
  deriving DecidableEq, Repr

/-- The constants that no address enters: `.arg` offsets, and `.equ` names whose values follow from them. -/
def AsmProgram.consts (p : AsmProgram) : AsmNames :=
  p.equs.foldl (fun a e => match asmValue a e.2 with
    | some v => (e.1, v) :: a
    | none => a) p.args

/-- A number that a directive takes. -/
def AsmProgram.number (p : AsmProgram) (l : List Char) : Option Nat :=
  match asmValue p.consts l with
  | some v => if 0 ≤ v then some v.toNat else none
  | none => none

/-- The registers of a live list: registers, and ranges of one file. -/
def asmLive (l : List Char) : Option (List Reg) :=
  let one := fun (x : List Char) => match asmFile x with
    | some (.reg r) => some r
    | _ => none
  ((asmSplit (· == ',') l).mapM fun x =>
    match asmSplit (· == '-') x with
    | [a] => (one a).map fun r => [r]
    | [a, b] => match one a, one b with
      | some (.v i), some (.v j) => if i.toNat ≤ j.toNat then some ((List.range 128).filterMap fun n =>
          if i.toNat ≤ n ∧ n ≤ j.toNat then some (Reg.v (BitVec.ofNat 7 n)) else none) else none
      | some (.s i), some (.s j) => if i.toNat ≤ j.toNat then some ((List.range 64).filterMap fun n =>
          if i.toNat ≤ n ∧ n ≤ j.toNat then some (Reg.s (BitVec.ofNat 6 n)) else none) else none
      | some (.k i), some (.k j) => if i.toNat ≤ j.toNat then some ((List.range 16).filterMap fun n =>
          if i.toNat ≤ n ∧ n ≤ j.toNat then some (Reg.k (BitVec.ofNat 4 n)) else none) else none
      | _, _ => none
    | _ => none).map List.flatten

/-- Keys that later `.launch` lines take from `.team`. -/
def asmTeamKeys : List String := ["gangs", "stash", "tile", "quota", "barriers"]

/-- A statement of the data section added. -/
def AsmProgram.add (p : AsmProgram) (lab : Option String) (i : AsmItem) : Option AsmProgram :=
  if p.inData then some { p with items := p.items ++ [(lab, i)] } else none

/-- A directive with its elements, outside a block. -/
def AsmProgram.directive (p : AsmProgram) (lab : Option String) (d : String) (ws : List (List Char)) : Option AsmProgram :=
  let list := asmList ws
  match d, ws with
  | "entry", [w] => if lab = none ∧ p.entry = none then some { p with entry := some (String.ofList w) } else none
  | "block", [w] => if lab = none then (asmName w).map fun n => { p with cur := some { name := n } } else none
  | "data", [] => if lab = none then some { p with inData := true } else none
  | "team", ws =>
    let keys := asmKeys ws
    if lab = none && ws.all asmIsKey && !repeats (keys.map Prod.fst) && keys.all (fun k => asmTeamKeys.contains k.1) then
      some { p with team := keys ++ p.team.filter fun k => !(keys.map Prod.fst).contains k.1 }
    else none
  | "cluster", [w] => match p.number w with
    | some n => if lab = none ∧ 1 ≤ n ∧ n ≤ 8 then some { p with cluster := w } else none
    | none => none
  | "arg", _ => match lab, list with
    | none, some [n, o, t] => match asmName n, p.number o, asmTypes.lookup (String.ofList t) with
      | some n, some v, some _ => some { p with args := (n, (v : Int)) :: p.args }
      | _, _, _ => none
    | _, _ => none
  | "equ", _ => match lab, list with
    | none, some [n, e] => (asmName n).map fun n => { p with equs := p.equs ++ [(n, e)] }
    | _, _ => none
  | "align", [w] => match p.number w with
    | some n => if 1 ≤ n ∧ n ≤ 4096 ∧ 2 ^ Nat.log2 n = n then p.add lab (.align n) else none
    | none => none
  | "space", [w] => match p.number w with
    | some n => p.add lab (.space n)
    | none => none
  | "word", _ => list.bind fun es => if es.isEmpty then none else p.add lab (.word 4 es)
  | "dword", _ => list.bind fun es => if es.isEmpty then none else p.add lab (.word 8 es)
  | "f64", _ => list.bind fun es => if es.isEmpty then none else p.add lab (.real es)
  | "launch", n :: ws => match asmName n with
    | some n =>
      let keys := asmKeys ws
      let given := keys.map Prod.fst
      if lab = none ∧ ws.all asmIsKey then
        p.add none (.launch n (keys ++ (p.team.filter fun k => !given.contains k.1) ++
          (if given.contains "cluster" then [] else [("cluster", p.cluster)])))
      else none
    | none => none
  | _, _ => none

/-- A statement inside a block. -/
def AsmProgram.inside (p : AsmProgram) (b : AsmBlock) (s : AsmStmt) : Option AsmProgram :=
  match s.head with
  | "" :: [d] =>
    if s.label ≠ none ∨ s.targets ≠ [] then none
    else
      let items := s.args.filter fun w => !asmIsKey w
      let keys := asmKeys s.args
      match d, items with
      | "end", [] => some { p with cur := none, blocks := p.blocks ++ [b] }
      | "stop", [w] => match p.number w, keys with
        | some n, [] => if b.body = [] ∧ b.stop = none ∧ 1 ≤ n ∧ n < 2 ^ 24 then some { p with cur := some { b with stop := some (n, []) } } else none
        | some n, [("live", l)] => match asmLive l with
          | some rs => if b.body = [] ∧ b.stop = none ∧ 1 ≤ n ∧ n < 2 ^ 24 then some { p with cur := some { b with stop := some (n, rs) } } else none
          | none => none
        | _, _ => none
      | "timed", [w] => match p.number w with
        | some n => if b.body = [] ∧ b.timed = none ∧ 4 ≤ n ∧ n ≤ 65535 ∧ keys = [] then some { p with cur := some { b with timed := some n } } else none
        | none => none
      | _, _ => none
  | "" :: _ => none
  | "sem" :: v :: r => some { p with cur := some { b with body := b.body ++ [{ s with head := "sem" :: v :: r }] } }
  | _ => some { p with cur := some { b with body := b.body ++ [s] } }

/-- A statement read into the program. -/
def AsmProgram.read (p : AsmProgram) (s : AsmStmt) : Option AsmProgram :=
  match p.name, p.cur with
  | none, _ => match s.label, s.head, s.args with
    | none, ["", "program"], [w] => if asmNameForm w then some { p with name := some (String.ofList w) } else none
    | _, _, _ => none
  | some _, some b => p.inside b s
  | some _, none => match s.head with
    | ["", d] => if s.targets = [] then p.directive s.label d s.args else none
    | _ => none

/-- The program of a source: every line is read, and the last block is closed. -/
def asmProgram (src : String) : Option AsmProgram :=
  let p := (asmLines src).foldlM (fun (p : AsmProgram) l => match asmStmt l with
    | none => none
    | some none => some p
    | some (some s) => p.read s) ({} : AsmProgram)
  match p with
  | some p => if p.name.isSome && p.cur.isNone then some p else none
  | none => none

/-! ### The image (R303) -/

/-- An image: its four sections and the offset of its entry block. -/
structure AsmImage where
  blocks   : List Byte
  safe     : List Byte
  launches : List Byte
  data     : List Byte
  entry    : Nat
  deriving DecidableEq, Repr

/-- SPTOFF: the safe-point table, 8-byte aligned. -/
def AsmImage.safeOff (i : AsmImage) : Nat := alignUp (64 + i.blocks.length) 8
/-- LTOFF: the launch table, 16-byte aligned. -/
def AsmImage.launchOff (i : AsmImage) : Nat := alignUp (i.safeOff + i.safe.length) 16
/-- DATAOFF: the data section, at a multiple of 128 KiB. -/
def AsmImage.dataOff (i : AsmImage) : Nat := alignUp (i.launchOff + i.launches.length) 131072

/-- The 64-byte header. -/
def AsmImage.header (i : AsmImage) : List Byte :=
  bytesOf 8 0x31304B5341554C4F ++ bytesOf 4 64 ++ bytesOf 4 i.blocks.length ++ bytesOf 4 i.safeOff ++ bytesOf 4 (i.safe.length / 48) ++
  bytesOf 4 i.launchOff ++ bytesOf 4 (i.launches.length / 16) ++ bytesOf 4 i.dataOff ++ bytesOf 4 i.data.length ++ bytesOf 4 i.entry ++
  bytesOf 4 (i.dataOff + i.data.length) ++ List.replicate 16 0

/-- The sections with their offsets. -/
def AsmImage.sections (i : AsmImage) : List (Nat × List Byte) :=
  [(0, i.header), (64, i.blocks), (i.safeOff, i.safe), (i.launchOff, i.launches), (i.dataOff, i.data)]

/-- The byte of an image at an offset; what lies between the sections is zero. -/
def AsmImage.byteAt (i : AsmImage) (n : Nat) : Byte :=
  i.sections.foldl (fun a s => if s.1 ≤ n ∧ n < s.1 + s.2.length then s.2.getD (n - s.1) 0 else a) 0

/-- The bytes of an image. -/
def AsmImage.bytes (i : AsmImage) : List Byte :=
  i.sections.foldl (fun a s => a ++ List.replicate (s.1 - a.length) 0 ++ s.2) []

/-- Offsets of the blocks, each 16-byte aligned, by the lengths of their words. -/
def asmOffsets (at_ : Nat) : List Nat → List Nat
  | [] => []
  | n :: r => alignUp at_ 16 :: asmOffsets (alignUp at_ 16 + 4 * n) r

/-- The entry of a safe point (09 R262). -/
def asmSafePoint (ordinal off : Nat) (live : List Reg) : List Byte :=
  let set := fun (f : Reg → Option Nat) => ((live.filterMap f).eraseDups).foldl (fun a n => a + 2 ^ n) 0
  bytesOf 8 ordinal ++ bytesOf 8 off ++ bytesOf 16 (set fun r => match r with | .v n => some n.toNat | _ => none) ++
  bytesOf 8 (set fun r => match r with | .s n => some n.toNat | _ => none) ++
  bytesOf 2 (set fun r => match r with | .k n => some n.toNat | _ => none) ++ bytesOf 6 0

/-- Entries in order of their ordinals. -/
def asmInsert (e : Nat × List Byte) : List (Nat × List Byte) → List (Nat × List Byte)
  | [] => [e]
  | x :: r => if e.1 < x.1 then e :: x :: r else x :: asmInsert e r

/-- The data statements with the offsets of their bytes. -/
def asmPlaced (at_ : Nat) : List (Option String × AsmItem) → List (Nat × Option String × AsmItem)
  | [] => []
  | (l, i) :: r => let x := i.extent at_; (x.1, l, i) :: asmPlaced (x.1 + x.2) r

/-- The bytes of a data statement, and its launch table entry's mask. -/
def AsmItem.bytes (names places : AsmNames) (at_ : Nat) : AsmItem → Option (List Byte × Option Nat)
  | .word k es => (es.mapM fun e => (asmValue names e).bind fun v =>
      if -(2 ^ (8 * k - 1) : Int) ≤ v ∧ v < 2 ^ (8 * k) then some (bytesOf k (BitVec.ofInt (8 * k) v).toNat) else none).map fun l => (l.flatten, none)
  | .real es => (es.mapM fun e => (asmReal e).map (bytesOf 8)).map fun l => (l.flatten, none)
  | .space n => some (List.replicate n 0, none)
  | .align n => some (List.replicate ((n - at_ % n) % n) 0, none)
  | .launch _ keys => (asmTemplate names places keys).map fun r => (r.bytes, some r.mask)

/-- The global names that a program defines. -/
def AsmProgram.globals (p : AsmProgram) : List String :=
  p.blocks.map (·.name) ++ p.args.map Prod.fst ++ p.equs.map Prod.fst ++ p.items.filterMap (fun i => i.1) ++
    p.items.filterMap fun i => match i.2 with | .launch n _ => some n | _ => none

/-- Names defined twice, or both local and global (R295). -/
def AsmProgram.namesBad (p : AsmProgram) : Bool :=
  repeats p.globals || p.blocks.any fun b => repeats (b.labels.map Prod.fst) || b.labels.any fun l => p.globals.contains l.1

/-- Every `.equ` name's value, with the addresses known. -/
def AsmProgram.values (p : AsmProgram) (places : AsmNames) : AsmNames :=
  p.equs.foldl (fun a e => match asmValue a e.2 with
    | some v => (e.1, v) :: a
    | none => a) (p.args ++ places)

/-- The image of a program (R299 to R304): the block section ends at a multiple of 16 bytes (log 130). -/
def AsmProgram.image (p : AsmProgram) : Option AsmImage :=
  let names0 := p.blocks.map fun b => (b.name, (0 : Int))
  -- the lengths of the blocks do not depend on the values of names
  let zero := p.globals.map fun n => (n, (0 : Int))
  match p.blocks.mapM (fun b => b.instrs { names := p.consts ++ zero, blocks := names0, own := 0 }) with
  | none => none
  | some iss =>
    let offs := asmOffsets 64 (iss.map fun is => 4 + (is.flatMap encode).length)
    let blockNames := (p.blocks.zip offs).map fun x => (x.1.name, (x.2 : Int))
    let stops := (p.blocks.zip offs).filterMap fun x => x.1.stop.map fun s => (s.1, asmSafePoint s.1 x.2 s.2)
    let safe := (stops.foldl (fun a e => asmInsert e a) []).flatMap Prod.snd
    let launches := (p.items.filter fun i => match i.2 with | .launch _ _ => true | _ => false).length
    let ends := ((offs.zip iss).map fun x => x.1 + 16 + 4 * (x.2.flatMap encode).length).foldl max 64
    let ends := alignUp ends 16
    let dataOff := alignUp (alignUp (alignUp ends 8 + safe.length) 16 + 16 * launches) 131072
    let placed := asmPlaced dataOff p.items
    let dataNames := placed.filterMap fun x => match x.2.1, x.2.2 with
      | some n, _ => some (n, (x.1 : Int))
      | none, .launch n _ => some (n, (x.1 : Int))
      | none, _ => none
    let places := blockNames ++ dataNames
    let names := p.values places
    let words := (p.blocks.zip offs).mapM fun x => (x.1.words { names := names, blocks := blockNames, own := (x.2 : Int) }).map fun w => (x.2, w)
    let items := placed.mapM fun x => (x.2.2.bytes names places x.1).map fun b => (x.1, b)
    let entry := match p.entry with
      | none => some 0
      | some n => (blockNames.lookup n).map Int.toNat
    match words, items, entry with
    | some words, some items, some entry =>
      if p.namesBad || repeats (stops.map Prod.fst) || p.equs.any (fun e => (names.lookup e.1).isNone) then none
      else some
        { blocks := words.foldl (fun a w =>
            let b := w.2.flatMap bytesOfWord
            a ++ b ++ List.replicate (alignUp b.length 16 - b.length) 0) [],
          safe := safe,
          launches := items.flatMap fun i => match i.2.2 with
            | some m => bytesOf 8 i.1 ++ bytesOf 8 m
            | none => [],
          data := items.foldl (fun a i => a ++ List.replicate (i.1 - (dataOff + a.length)) 0 ++ i.2.1) [],
          entry := entry }
    | _, _, _ => none

/-- What yunas makes of a source: its image, or nothing where it refuses the program (R300). -/
def yunas (src : String) : Option AsmImage := (asmProgram src).bind AsmProgram.image

/-! ### Loading (R304) -/

/-- The templates of an image: offset and relocation mask. -/
def AsmImage.templates (i : AsmImage) : List (Nat × Nat) :=
  (List.range (i.launches.length / 16)).map fun k => (fieldOf i.launches (16 * k) 8, fieldOf i.launches (16 * k + 8) 8)

/-- A template with the base added to each word that its mask marks. -/
def relocated (base mask : Nat) (lr : List Byte) : List Byte :=
  (List.range 64).foldl (fun a k =>
    if mask.testBit k then putBytes a (8 * k) (bytesOf 8 (fieldOf a (8 * k) 8 + base)) else a) lr

/-- What a loader places: the image's sections at a base, its templates relocated; `none` at a base that is not a multiple of 128 KiB. -/
def AsmImage.placed (i : AsmImage) (base : Nat) : Option (List (Nat × List Byte)) :=
  if base % 131072 ≠ 0 then none
  else
    let data := i.templates.foldl (fun d t =>
      putBytes d (t.1 - i.dataOff) (relocated base t.2 ((d.drop (t.1 - i.dataOff)).take 512))) i.data
    some (({ i with data := data } : AsmImage).sections.map fun s => (base + s.1, s.2))

end Sys2Proof.Machine
end

