-- ==== Sys2Proof/Tests/Slice0.lean ====
section
/-! SUPPORT. Tests: what well-formedness refuses, words of the spec's encodings, single steps on small states, and for each statement
a state that meets its hypotheses. -/

namespace Sys2Proof.Tests

open Sys2Proof Sys2Proof.Machine

set_option Elab.async false

/-! ### What well-formedness refuses -/

/-- The common fields of a test instruction. -/
def form (vc : TokClass) (ty : Ty) : Form :=
  { ext := true, pr := .always, vc := vc, t0 := Target.none, t1 := Target.none, ty := ty, rm := 0, sc := 0, cp := 0,
    t2 := Target.none, t3 := Target.none, lit := none }

/-- VC (R308): `add` gives no mask; `kand` gives nothing else. -/
theorem test_wf_class : (Instr.add (form .lane .i64)).wf = true ∧ (Instr.add (form .mask .i64)).wf = false ∧
    (Instr.kand (form .mask .i64)).wf = true ∧ (Instr.kand (form .lane .i64)).wf = false := by decide

/-- TY (R312, R352): `add` takes no b type, `adr` none of 8 bits, `fadd` no integer. -/
theorem test_wf_type : (Instr.add (form .lane .b64)).wf = false ∧ (Instr.adr (form .lane .i8)).wf = false ∧
    (Instr.adr (form .lane .n32)).wf = true ∧ (Instr.fadd (form .lane .i32)).wf = false := by decide

/-- RM and ORD (R210, R313): `add` takes 101 and `div` does not; 110 needs a destination of 16 bits; a fence needs an order. -/
theorem test_wf_rounding : (Instr.add { form .lane .i8 with rm := 5 }).wf = true ∧ (Instr.div { form .lane .i8 with rm := 5 }).wf = false ∧
    (Instr.fadd { form .lane .f16 with rm := 6 }).wf = true ∧ (Instr.fadd { form .lane .f32 with rm := 6 }).wf = false ∧
    (Instr.fence (form .lane .b64) 0).wf = false ∧ (Instr.fence { form .lane .b64 with rm := 4 } 0).wf = true := by decide

/-- SC and CP (R314, R395): fields that an instruction does not use are zero; CP 101 is no cache policy. -/
theorem test_wf_policy : (Instr.mov { form .lane .i64 with sc := 1 }).wf = false ∧ (Instr.mov { form .lane .i64 with cp := 1 }).wf = false ∧
    (Instr.ld { form .lane .b64 with cp := 4 } ⟨0, .global, 0⟩).wf = true ∧
    (Instr.ld { form .lane .b64 with cp := 5 } ⟨0, .global, 0⟩).wf = false ∧
    (Instr.ld { form .lane .b64 with cp := 1 } ⟨0, .stash, 0⟩).wf = false := by decide

/-- W2 operands (R317, R322 subcode 6): a semaphore amount of 0, a space that `pref` lacks, a register without write access. -/
theorem test_wf_operands : (Instr.semAcq (form .lane .b64) 5 2).wf = true ∧ (Instr.semAcq (form .lane .b64) 5 0).wf = false ∧
    (Instr.pref (form .lane .b64) ⟨0, .stash, 0⟩).wf = false ∧ (Instr.syswr (form .lane .b64) .fst).wf = true ∧
    (Instr.syswr (form .lane .b64) .lck).wf = false := by decide

/-- Without W1 an instruction has its group's type and no further field (R311); the literal is `const`'s or a slot's. -/
theorem test_wf_short : (Instr.mov { form .lane .i64 with ext := false }).wf = true ∧
    (Instr.add { form .lane .i32 with ext := false }).wf = false := by decide

/-- LEN (R316, R319): a class with W2 needs W1; `const` needs its literal, and `rd` has no use for one. -/
theorem test_wf_length : (Instr.lid { form .lane .i64 with ext := false } .lane).wf = false ∧
    (Instr.const (form .lane .i64)).wf = false ∧ (Instr.const { form .lane .i64 with lit := some 1 }).wf = true ∧
    (Instr.rd { form .lane .i64 with lit := some 1 } (.v 0)).wf = false := by decide

/-- A package step has no encoding (R320). -/
theorem test_wf_steps : (Instr.tailPoll).sig = none ∧ (Instr.droopStretch 4 0).wf = false ∧ (Instr.droopStretch 3 143).wf = true ∧
    (Instr.powerLimitEffecter 1210).wf = false ∧ (Instr.powerLimitEffecter 2400).wf = true := by decide

/-! ### Words of the spec's encodings (R307 to R319, and the example of R359) -/

/-- What some words decode to. -/
def dec (ws : List W32) : Option (Instr × List W32) := (decodeWords ws).toOption

theorem test_decode_pack_cmp : dec [0xD8000202, 0x38030C7F, 0, 5, 0] =
    some (.cmp { form .lane .n64 with t0 := ⟨.a, 1⟩, t1 := ⟨.a, 2⟩, t2 := ⟨.p, 6⟩, lit := some 5 } .eq, []) := by decide

theorem test_decode_pack_scan : dec [0x5901087F, 0x3800FE7F, 1] =
    some (.scan { form .lane .n64 with t0 := ⟨.b, 4⟩ } .add true, []) := by decide

theorem test_decode_pack_redux : dec [0x58C50A7F, 0x3800FE7F, 0] =
    some (.redux { form .uni .n64 with t0 := ⟨.b, 5⟩ } .add, []) := by decide

/-- OP 0x40, no W1: the group's type i64. -/
theorem test_decode_add : dec [0x1000FE7F] = some (.add { form .lane .i64 with ext := false }, []) := by decide

/-- OP 0x80, no W1: the group's type f64; PR 01 is "if true". -/
theorem test_decode_fadd : dec [0x2010FE7F] = some (.fadd { form .lane .f64 with ext := false, pr := .ifTrue }, []) := by decide

/-- OP 0x0C, no W1. -/
theorem test_decode_exit : dec [0x0300FE7F] = some (.exit { form .lane .i64 with ext := false }, []) := by decide

theorem test_decode_pfma : dec [0xEA02027F, 0x5000FE7F, 0, 0x3C003C00, 0x3C003C00] =
    some (.pfma { form .lane .f16 with t0 := ⟨.c, 1⟩, lit := some 0x3C003C003C003C00 }, []) := by decide

theorem test_decode_store : dec [0x7090FE7F, 0x4800FE7F, 0] =
    some (.st { form .lane .b64 with pr := .ifTrue } ⟨0, .global, 0⟩, []) := by decide

theorem test_decode_atom : dec [0x70C0067F, 0x3920FE7F, 0] =
    some (.atom { form .lane .n64 with t0 := ⟨.a, 3⟩, rm := 1, sc := 1 } ⟨0, .global, 0⟩, []) := by decide

theorem test_decode_tmma : dec [0x7800FE7F, 0x7000FE7F, 0x00007190] =
    some (.tmma (form .lane .e4m3) ⟨16, 3, .e4m3, false, false⟩, []) := by decide

theorem test_decode_predx : dec [0x7CC0FE7F, 0x6000FE7F, 0x0000000C] = some (.predx (form .lane .f32) .f32 .add, []) := by decide

theorem test_decode_pmap : dec [0x7D40FE7F, 0x4800FE7F, 0] = some (.pmap (form .lane .b64), []) := by decide

theorem test_decode_sysrd : dec [0x7E00027F, 0x4800FE7F, 0x0B] =
    some (.sysrd { form .lane .b64 with t0 := ⟨.a, 1⟩ } .fva, []) := by decide

/-- Reserved codes are refused: PR 11, VC 11, an opcode without a row, words cut short (R308, R320, R322). -/
theorem test_decode_refuses : dec [0x1030FE7F] = none ∧ dec [0x100CFE7F] = none ∧ dec [0x3FFFFFFF] = none ∧ dec [0x5900FE7F] = none ∧
    dec [] = none := by decide

/-- The encoder writes the words of the spec's examples. -/
theorem test_encode : encode (.sysrd { form .lane .b64 with t0 := ⟨.a, 1⟩ } .fva) = [0x7E00027F, 0x4800FE7F, 0x0B] ∧
    encode (.exit { form .lane .i64 with ext := false }) = [0x0300FE7F] := by decide


/-! ### The assembler (R294 to R304) -/

/-- A block of one `exit`: its header and word (the block `low` of the example of 10_blocks_assembly.md). -/
theorem test_yunas_exit : (yunas ".program p\n.block low\ne0: exit\n.end\n").map (·.blocks.take 20) =
    some ([0xB0200800, 0, 0, 0, 0x0300FE7F].flatMap (bytesOf 4)) := by decide +kernel
/-- The words of the example of 11_encoding.md for `br.t` and `br.f`, with displacements of 0 to the block itself. -/
theorem test_yunas_branches : (yunas ".program p\n.block b\ni0: rd s0 -> i1.a\ni1: cmp.lt.i64 #4 vc=mask -> i2.p, i3.p\ni2: br.t b\ni3: br.f b\n.end\n").map
      (fun i => (i.blocks.drop 48).take 24) = some ([0x4210FE7F, 0x1800FE7F, 0, 0x4220FE7F, 0x1800FE7F, 0].flatMap (bytesOf 4)) := by decide +kernel
/-- The safe point and the launch table of the example: OFFSET 0x40 and LIVES 1; the template at 0x20080 with mask 0x17. -/
theorem test_yunas_tables : (yunas (".program p\n.entry b\n.block b\n.stop 1 live=s0\ni0: exit\n.end\n.data\nw: .dword 100\n.align 64\nd: .space 64\n" ++
      ".launch r form=grid entry=b args=w record=d gangs=1 quota=16 level=1:core:team\n")).map (fun i => (i.safe, i.launches)) =
    some ([1, 0x40, 0, 0, 1, 0].flatMap (bytesOf 8), bytesOf 8 0x20080 ++ bytesOf 8 0x17) := by decide +kernel
/-- A target to a name that the block lacks is refused (R300). -/
theorem test_yunas_refuses : (yunas ".program p\n.block b\ni0: lid.lane -> i9.a\ni1: exit\n.end\n").isNone = true := by decide +kernel

/-! ### Single steps: expected values are worked out from the rules named -/

/-- The state after an instruction. -/
def after (i : Instr) (s : State) : State := match exec i s with | .next t => t | _ => {}

/-- A token of a value in every lane. -/
def tokAll (x : W64) : Tok := { cls := .lane, vals := splat x, nulls := 0, ready := some 0 }
/-- A token of a value for each lane. -/
def tokBy (f : Nat → W64) : Tok := { cls := .lane, vals := lanes f, nulls := 0, ready := some 0 }
/-- A mask token. -/
def tokMask (m : W64) : Tok := { cls := .mask, vals := splat m, nulls := 0, ready := some 0 }

/-- An instance of all lanes whose instruction 0 has tokens in slots a, b and c. -/
def blk (a b c : Tok) : Blk := { slices := 0xFF, lanes := allLanes, toks := [(0, a), (1, b), (2, c)], stage := .run }
/-- A gang with an instance as its primary, instruction 0 in focus. -/
def one (b : Blk) : State := { g := { prim := some b } }
/-- With two operands in every lane. -/
def two (x y : W64) : State := one (blk (tokAll x) (tokAll y) (tokAll 0))

/-- A form with one target: slot a of instruction 1. -/
def to1 (vc : TokClass) (ty : Ty) : Form := { form vc ty with t0 := ⟨.a, 1⟩ }
/-- The token that instruction 1 has received in slot a. -/
def got (t : State) : Tok := match t.g.prim with | some b => (b.tok 1 .a).getD {} | none => {}
/-- Its value in a lane. -/
def val (t : State) (l : Nat) : W64 := lane (got t).vals l
/-- The flags that the instance has collected. -/
def flagsOf (t : State) : BitVec 5 := match t.g.prim with | some b => b.flags | none => 0

/-- Fit (R325): 127 + 1 wraps in i8, and saturates with RM 101. -/
theorem test_add : val (after (.add (to1 .lane .i8)) (two 127 1)) 31 = BitVec.ofInt 64 (-128) ∧
    val (after (.add { to1 .lane .i8 with rm := 5 }) (two 127 1)) 0 = 127 := by decide +kernel
theorem test_sub : val (after (.sub (to1 .lane .n8)) (two 0 1)) 0 = 255 := by decide +kernel
theorem test_mulhi : val (after (.mulhi (to1 .lane .i32)) (two (BitVec.ofInt 64 (-1)) 1)) 0 = BitVec.ofInt 64 (-1) := by decide +kernel
/-- R353: by zero, and the least value by −1. -/
theorem test_div : val (after (.div (to1 .lane .i8)) (two 7 0)) 0 = 0 ∧
    val (after (.div (to1 .lane .i8)) (two 0x80 0xFF)) 0 = BitVec.ofInt 64 (-128) ∧
    val (after (.div (to1 .lane .i8)) (two (BitVec.ofInt 64 (-7)) 2)) 0 = BitVec.ofInt 64 (-3) := by decide +kernel
theorem test_rem : val (after (.rem (to1 .lane .i8)) (two 7 0)) 0 = 7 ∧
    val (after (.rem (to1 .lane .i8)) (two (BitVec.ofInt 64 (-7)) 2)) 0 = BitVec.ofInt 64 (-1) := by decide +kernel
/-- R354: the carry out of n32 and the borrow. -/
theorem test_adc : val (after (.adc (to1 .mask .n32)) (one (blk (tokAll 0xFFFFFFFF) (tokAll 0) (tokMask 1)))) 0 = 1 := by decide +kernel
theorem test_sbc : val (after (.sbc (to1 .lane .n32)) (one (blk (tokAll 0) (tokAll 0) (tokMask 2)))) 1 = 0xFFFFFFFF := by decide +kernel
/-- R355: the amount is taken modulo the width; a shifted i pattern is read back signed. -/
theorem test_shl : val (after (.shl (to1 .lane .i8)) (two 1 15)) 0 = BitVec.ofInt 64 (-128) := by decide +kernel
theorem test_shr : val (after (.shr (to1 .lane .i8)) (two 0x80 0)) 0 = BitVec.ofInt 64 (-128) ∧
    val (after (.shr (to1 .lane .i8)) (two 0x80 1)) 0 = 0x40 := by decide +kernel
theorem test_sra : val (after (.sra (to1 .lane .n8)) (two 0x80 1)) 0 = 0xC0 := by decide +kernel
theorem test_rot : val (after (.rot (to1 .lane .n8)) (two 0x81 1)) 0 = 3 := by decide +kernel
/-- R356: position 4, length 4. -/
theorem test_bfx : val (after (.bfx (to1 .lane .i32)) (two 0xF0 0x0404)) 0 = BitVec.ofInt 64 (-1) ∧
    val (after (.bfx (to1 .lane .n32)) (two 0xF0 0x0404)) 0 = 15 ∧ val (after (.bfx (to1 .lane .n32)) (two 0xF0 0x0420)) 0 = 0 := by decide +kernel
theorem test_bfi : val (after (.bfi (to1 .lane .n32)) (one (blk (tokAll 0xFFFF) (tokAll 0x0404) (tokAll 0)))) 0 = 0xFF0F := by decide +kernel
theorem test_clz : val (after (.clz (to1 .lane .n8)) (two 0 0)) 0 = 8 ∧ val (after (.clz (to1 .lane .n8)) (two 0x10 0)) 0 = 3 := by decide +kernel
theorem test_ctz : val (after (.ctz (to1 .lane .n8)) (two 0 0)) 0 = 8 ∧ val (after (.ctz (to1 .lane .n8)) (two 0x10 0)) 0 = 4 := by decide +kernel
theorem test_brev : val (after (.brev (to1 .lane .n8)) (two 1 0)) 0 = 0x80 := by decide +kernel
/-- R347: −1 is below 0 as i64 and above as n64. -/
theorem test_cmp : val (after (.cmp (to1 .lane .i64) .lt) (two (BitVec.allOnes 64) 0)) 0 = 1 ∧
    val (after (.cmp (to1 .lane .n64) .lt) (two (BitVec.allOnes 64) 0)) 0 = 0 := by decide +kernel
/-- R348: lane 0 has no lane above it and takes slot c. -/
theorem test_shfl : val (after (.shfl (to1 .lane .i64) .up) (one (blk (tokBy fun l => w64 (100 + l)) (tokAll 1) (tokAll 7)))) 0 = 7 ∧
    val (after (.shfl (to1 .lane .i64) .up) (one (blk (tokBy fun l => w64 (100 + l)) (tokAll 1) (tokAll 7)))) 5 = 104 := by decide +kernel
theorem test_vote : val (after (.vote (to1 .mask .i64) .ballot) (one (blk (tokBy fun l => w64 (l % 2)) (tokAll 0) (tokAll 0)))) 0 = 0xAAAAAAAA := by
  decide +kernel
/-- The example of R359: lanes that are multiples of 3 are counted before lane 6, and in all. -/
theorem test_scan : val (after (.scan (to1 .lane .n64) .add true) (one (blk (tokBy fun l => if l % 3 = 0 then 1 else 0) (tokAll 0) (tokAll 0)))) 6 = 2 := by
  decide +kernel
theorem test_redux : val (after (.redux (to1 .uni .n64) .add) (one (blk (tokBy fun l => if l % 3 = 0 then 1 else 0) (tokAll 0) (tokAll 0)))) 9 = 11 := by
  decide +kernel
/-- R351. -/
theorem test_kfst : val (after (.kfst (to1 .uni .i64)) (one (blk (tokMask 0) (tokMask 0) (tokMask 0)))) 0 = 32 ∧
    val (after (.kfst (to1 .uni .i64)) (one (blk (tokMask 0x80000000) (tokMask 0) (tokMask 0)))) 0 = 31 := by decide +kernel
/-- R331: `nul` reads the null bit as a value. -/
theorem test_nul : val (after (.nul (to1 .lane .i64)) (one (blk { tokAll 5 with nulls := 2 } (tokAll 0) (tokAll 0)))) 1 = 1 ∧
    (got (after (.nul (to1 .lane .i64)) (one (blk { tokAll 5 with nulls := 2 } (tokAll 0) (tokAll 0))))).nulls = 0 := by decide +kernel
/-- R332: the operand that is not chosen may be null. -/
theorem test_sel : (got (after (.sel (to1 .lane .i64)) (one (blk (tokAll 5) { tokAll 6 with nulls := allLanes } (tokMask 1))))).nulls = 0xFFFFFFFE ∧
    val (after (.sel (to1 .lane .i64)) (one (blk (tokAll 5) (tokAll 6) (tokMask 1)))) 0 = 5 := by decide +kernel
theorem test_lid : val (after (.lid (to1 .lane .i64) .slice) (two 0 0)) 31 = 7 := by decide +kernel
/-- R202: an integer result is usable two cycles later. -/
theorem test_latency : (got (after (.lid (to1 .lane .i64) .lane) { two 0 0 with cores := [(0, { resetCore with cyc := 10 })] })).ready = some 12 := by decide +kernel

/-- 1 + 1 = 2 in f32; a sum of opposite infinities is invalid (R374). -/
theorem test_fadd : val (after (.fadd (to1 .lane .f32)) (two 0x3F800000 0x3F800000)) 0 = 0x40000000 ∧
    val (after (.fadd (to1 .lane .f32)) (two 0x7F800000 0xFF800000)) 0 = 0x7FC00000 := by decide +kernel
theorem test_fmul_flags : flagsOf (after (.fmul (to1 .lane .f32)) (two 0x7F800000 0)) = fNV := by decide +kernel
/-- R375: a finite number by zero is an infinity, with DZ. -/
theorem test_fdiv : val (after (.fdiv (to1 .lane .f16)) (two 0xBC00 0)) 0 = 0xFC00 ∧
    flagsOf (after (.fdiv (to1 .lane .f16)) (two 0xBC00 0)) = fDZ := by decide +kernel
theorem test_fsqrt : val (after (.fsqrt (to1 .lane .f16)) (two 0x4400 0)) 0 = 0x4000 := by decide +kernel
/-- R376: −0 is below +0; a number beside a NaN. -/
theorem test_fmin : val (after (.fmin (to1 .lane .f16)) (two 0 0x8000)) 0 = 0x8000 ∧
    val (after (.fmin (to1 .lane .f16)) (two 0x7E00 0x3C00)) 0 = 0x3C00 := by decide +kernel
theorem test_fclass : val (after (.fclass (to1 .lane .f16)) (two 0x8001 0)) 0 = 4 := by decide +kernel
/-- R380: −1.5 to the even integer; above the range, the greatest with NV. -/
theorem test_fcvti : val (after (.fcvti (to1 .lane .i8) .f16) (two 0xBE00 0)) 0 = BitVec.ofInt 64 (-2) ∧
    val (after (.fcvti (to1 .lane .i8) .f16) (two 0x7C00 0)) 0 = 127 := by decide +kernel
theorem test_pfma : val (after (.pfma (to1 .lane .f16)) (one (blk (tokAll 0x3C003C003C003C00) (tokAll 0x3C003C003C003C00) (tokAll 0x3C003C003C003C00)))) 0 =
    0x4000400040004000 := by decide +kernel

/-- A team with stash, tile memory and barriers. -/
def team0 : Team := { stashKiB := 1, tileKiB := 80, barriers := 4, gangs := 1, stash := [(8, 5)] }
/-- A gang of that team. -/
def teamed (b : Blk) : State := { one b with teams := [(0, team0)] }

/-- A load of the stash reads its byte, ready after 10 cycles (R202). -/
theorem test_ld : val (after (.ld (to1 .uni .n8) ⟨0, .stash, 8⟩) (teamed (blk (tokAll 0) (tokAll 0) (tokAll 0)))) 0 = 5 := by decide +kernel
/-- A store writes nothing at issue and leaves one record for each lane (R242). -/
theorem test_st : (after (.st (form .lane .n8) ⟨3, .stash, 0⟩) (teamed (blk (tokAll 8) (tokAll 9) (tokAll 0)))).teams = [(0, team0)] ∧
    ((after (.st (form .lane .n8) ⟨3, .stash, 0⟩) (teamed (blk (tokAll 8) (tokAll 9) (tokAll 0)))).g.prim.map (·.stores.length)) = some 32 := by decide +kernel
/-- `atom.add` performs at once and gives the old value (R399, R400). -/
theorem test_atom : (((after (.atom (to1 .uni .n32) ⟨0, .stash, 0⟩) (teamed (blk (tokAll 8) (tokAll 250) (tokAll 0)))).teamAt 0).stash) = [(8, 255)] := by decide +kernel
theorem test_cas : (((after (.cas (to1 .uni .n32) ⟨0, .stash, 0⟩) (teamed (blk (tokAll 8) (tokAll 5) (tokAll 6)))).teamAt 0).stash) = [(8, 6)] ∧
    (((after (.cas (to1 .uni .n32) ⟨0, .stash, 0⟩) (teamed (blk (tokAll 8) (tokAll 4) (tokAll 6)))).teamAt 0).stash) = [(8, 5)] := by decide +kernel
/-- R418: with a count of 0 `sem.try` answers 0. -/
theorem test_semTry : val (after (.semTry (to1 .uni .b64) 5 2) (two 0 0)) 0 = 0 := by decide +kernel
/-- R422: the only expected arrival ends the generation, and gets its number. -/
theorem test_barArr : val (after (.barArr (to1 .uni .b64) 1) { teamed (blk (tokAll 0) (tokAll 0) (tokAll 0)) with
      teams := [(0, { team0 with bars := [(1, barWord 6 0 1 0 0)] })] }) 0 = 6 ∧
    tget ((after (.barArr (to1 .uni .b64) 1) { teamed (blk (tokAll 0) (tokAll 0) (tokAll 0)) with
      teams := [(0, { team0 with bars := [(1, barWord 6 0 1 0 0)] })] }).teamAt 0).bars 1 0 = barWord 7 0 1 0 0 := by decide +kernel
/-- R457, R247: a privileged register in user mode is `PRIV` with subcode 3, and the handler begins. -/
theorem test_sysrd : (after (.sysrd (form .mask .b64) .flm) (two 0 0)).g.fcause.toNat % 2 ^ 32 = 0x30010 ∧
    (after (.sysrd (form .mask .b64) .flm) (two 0 0)).g.sup = true := by decide +kernel
/-- R336: a misaligned target faults `MISALIGN` (7). -/
theorem test_jr : (after (.jr (form .lane .i64)) (two 8 0)).g.fcause.toNat % 65536 = 7 := by decide +kernel
/-- R172: a cycle of a core without resident gangs changes nothing. -/
theorem test_coreCycle : (after .coreCycle (two 0 0)).now = 0 := by decide +kernel
/-- The word of `add`, placed, is what the next step runs. -/
theorem test_step : (match step (({} : State).withFetchWord 32 0x1000FE7F) with | .next t => (t.g.prim.map (·.done)) | _ => none) = some 1 := by decide +kernel

/-! ### A state for the hypotheses of each statement, at the ends of the ranges that its clauses divide -/

/-- The operands of instruction 0. -/
def opn (b : Blk) (f : Form) : Opnd := b.opnd 0 f

/-- Operands: the least value by −1 in lane 0, a division by 0 in lane 31. -/
def divBlk : Blk := blk (tokAll (BitVec.ofInt 64 (-(2 ^ 63)))) (tokBy fun l => if l = 31 then 0 else BitVec.allOnes 64) (tokMask 1)

theorem witness_IntegerArithmetic : (one divBlk).blk? = some divBlk ∧ asInt .i64 (lane (opn divBlk (form .lane .i64)).a.vals 0) = -(2 ^ 63) ∧
    asInt .i64 (lane (opn divBlk (form .lane .i64)).b.vals 0) = -1 ∧ asInt .i64 (lane (opn divBlk (form .lane .i64)).b.vals 31) = 0 := by
  decide +kernel

/-- Bit fields: position 63 with length 255, and position 64. -/
def fieldBlk : Blk := blk (tokAll (BitVec.allOnes 64)) (tokBy fun l => if l = 0 then 0xFF3F else 0x0140) (tokAll 0)

theorem witness_LogicShiftsAndBitFields : (one fieldBlk).blk? = some fieldBlk ∧
    min ((lane (opn fieldBlk (form .lane .b64)).b.vals 0).toNat / 256 % 256) (64 - (lane (opn fieldBlk (form .lane .b64)).b.vals 0).toNat % 256) = 1 ∧
    min ((lane (opn fieldBlk (form .lane .b64)).b.vals 1).toNat / 256 % 256) (64 - (lane (opn fieldBlk (form .lane .b64)).b.vals 1).toNat % 256) = 0 := by
  decide +kernel

/-- All lanes null in slot a. -/
def nullBlk : Blk := blk { tokAll 0 with nulls := allLanes } (tokAll 0) (tokAll 0)

theorem witness_CompareVoteShuffle : (one nullBlk).blk? = some nullBlk ∧
    ((List.range 32).filter fun l => (opn nullBlk (form .lane .i64)).act.getLsbD l && !(opn nullBlk (form .lane .i64)).a.nulls.getLsbD l) = [] ∧
    (one divBlk).blk? = some divBlk := by decide +kernel

theorem witness_MaskInstructions : (one nullBlk).blk? = some nullBlk ∧
    (opn nullBlk (form .mask .i64)).act &&& ~~~(opn nullBlk (form .mask .i64)).a.nulls = 0 := by decide +kernel

theorem witness_ReductionsAndScans : (one nullBlk).blk? = some nullBlk ∧ (opn nullBlk (form .lane .n64)).contributes = 0 ∧
    (opn divBlk (form .lane .n64)).contributes = allLanes ∧ Ty.n64.isFloat = false ∧ Ty.f32.isFloat = true := by decide +kernel

/-- Operands of f16: the least subnormal by 1, a NaN by an infinity, 1 by 1.5, −1 by one half, and c a zero below 0. -/
def fpBlk : Blk := blk (tokBy fun l => [1, 0x7D00, 0x3C00, 0xBC00].getD l 0) (tokBy fun l => [0x3C00, 0x7C00, 0x3E00, 0x3800].getD l 0x7C00) (tokAll 0x8000)
/-- The value of a slot's lane. -/
def fa (l : Nat) : FVal := fIn .f16 (lane (opn fpBlk (form .lane .f16)).a.vals l).toNat
def fb (l : Nat) : FVal := fIn .f16 (lane (opn fpBlk (form .lane .f16)).b.vals l).toNat

theorem witness_FloatArithmetic : (one fpBlk).blk? = some fpBlk ∧ (opn divBlk (form .uni .f64)).live ≠ 0 ∧
    (opn { divBlk with lanes := 0 } (form .uni .f64)).live = 0 ∧
    fa 0 = .num false 1 (-24) ∧ fb 0 = .num false 1024 (-10) ∧ fIn .f16 0x8000 = .num true 0 (-24) ∧ (-34 : Int) ≤ -24 + -10 ∧
    fa 2 = .num false 1024 (-10) ∧ fb 2 = .num false 1536 (-10) ∧ 1024 ∣ 1024 ∧
    1024 * 2 ^ (130 + bitLen 1536) = 1024 * 2 ^ (130 + bitLen 1536) / 1536 * 1536 + 1024 * 2 ^ (130 + bitLen 1536) % 1536 ∧ 1 * 2 ^ (130 + bitLen 1024) = 2 ^ 131 * 1024 + 0 ∧
    (-24 : Int) % 2 = 0 ∧ 2 ^ 130 * 2 ^ 130 ≤ 1 * 2 ^ 260 ∧ 1 * 2 ^ 260 < (2 ^ 130 + 1) * (2 ^ 130 + 1) ∧
    2 ^ 201 * 2 ^ 201 * 1 ≤ 2 ^ (2 * (200 + bitLen 1)) ∧ 2 ^ (2 * (200 + bitLen 1)) < (2 ^ 201 + 1) * (2 ^ 201 + 1) * 1 ∧
    (fa 1).isNan = true ∧ (fb 1).isNan = false := by decide +kernel

theorem witness_FloatSpecialCases : (0 : Nat) < 1 ∧ Ty.f16.hasInf = true ∧ Ty.e4m3.hasInf = false := by decide

/-- A tie (5 of 2), a multiple (4 of 2), and the least subnormal of f16. -/
theorem witness_RoundToInteger : (0 : Nat) < 1 ∧ 2 * 5 = 2 * (2 * 2 ^ 1) + 2 ^ 1 ∧ (cutAt ⟨0, 0⟩ false 5 0 false 1).1 = 2 ∧
    2 ^ 1 ∣ 4 ∧ Ty.f16.isFloat = true ∧ 1 < 2 ^ Ty.f16.width ∧ (fIn .f16 1).isNan = false ∧ fIn .f16 1 = .num false 1 (-24) := by decide +kernel

theorem witness_FloatCompareAndMinMax : (one divBlk).blk? = some divBlk ∧ 0x7E00 < 2 ^ Ty.f16.width ∧ (fIn .f16 0x7E00).isNan = true ∧
    fIn .f16 0x7D00 = .nan true ∧ fOrder (fIn .f16 0x3C00) (fIn .f16 0x4000) = -1 ∧ fOrder (fIn .f16 0x8000) (fIn .f16 0) = 0 := by decide +kernel

theorem witness_FloatConversions : (one divBlk).blk? = some divBlk ∧ 1 < 2 ^ Ty.bf16.width ∧ fIn .f16 1 = .num false 1 (-24) := by decide +kernel

theorem witness_FloatFunctions : (one divBlk).blk? = some divBlk ∧ (one divBlk).fixedTiming = false ∧
    ({ one divBlk with parts := [(0, { fixed := true })] } : State).fixedTiming = true ∧
    fIn .f16 0x8000 = .num true 0 (-24) ∧ fIn .f16 0x7C00 = .inf false ∧ fIn .f16 0xFC00 = .inf true ∧ fa 3 = .num true 1024 (-10) ∧
    fa 2 = .num false (1 * 2 ^ 10) (-(10 : Nat)) ∧ (1 : Nat) < 2 ^ 14 ∧ ((10 : Nat) : Int) + -10 = 0 ∧ fa 1 = .nan true ∧ fb 1 = .inf false ∧
    fb 4 = .inf false ∧ fa 4 = .num false 0 (-24) ∧ fIn .f16 0 = .num false 0 (-24) ∧ fb 3 = .num false 1024 (-11) ∧
    ((-11 : Int) < 0 ∧ ¬(2 ^ (-(-11 : Int)).toNat ∣ 1024)) := by decide +kernel

/-- Element 0 is 1 by 1.5, the others 0, and c is 0. -/
def dotBlk : Blk := blk (tokAll 0x3C00) (tokAll 0x3E00) (tokAll 0)

theorem witness_PackedInstructions : (one dotBlk).blk? = some dotBlk ∧ (opn dotBlk (form .uni .f16)).live = allLanes ∧
    (opn { dotBlk with lanes := 0 } (form .uni .f16)).live = 0 ∧ fIn .f16 0x3C00 = .num false 1024 (-10) ∧ fIn .f16 0x3E00 = .num false 1536 (-10) ∧
    fIn .f16 0 = .num false 0 (-24) ∧ (-20 : Int) ≤ -10 + -10 ∧ (-48 : Int) ≤ -24 + -24 ∧ fIn .f32 0 = .num false 0 (-149) ∧ (-149 : Int) ≤ -48 ∧
    [PcvtKind.lo, .hi, .pk, .p8, .u8].length = 5 := by decide +kernel

/-- A launch of two levels: four teams, then two gangs of each. -/
def grid : Launch := { lr := List.replicate 25 0 ++ [1] ++ List.replicate 174 0 ++ bytesOf 8 4 ++ [1, 0] ++ List.replicate 6 0 ++ bytesOf 8 2 ++ [0] }

theorem witness_ValuesAndIdentities : (one divBlk).blk? = some divBlk ∧ ({ form .lane .i64 with lit := some 1 } : Form).lit = some 1 ∧
    ({} : Team).kind = .grid ∧ grid.nlevels = 2 ∧ grid.firstGang = 1 ∧ (∀ i, i < grid.nlevels → 0 < grid.extent i) ∧
    ({ kind := .task } : Team).kind ≠ .grid := by decide +kernel

/-- A line of the gang that has been written and is not in the cache; eight fills under way. -/
def farLine (fills : List (Nat × Nat)) : State :=
  { g := { prim := some divBlk, written := [0, 128] }, cores := [(0, { resetCore with quarters := [{ fills := fills }] })] }

theorem witness_RegisterAccess : (31 : Nat) < 32 ∧ (112 : BitVec 7).toNat = 112 ∧ (47 : BitVec 6).toNat < 48 ∧ (1 : BitVec 4) ≠ 0 ∧
    regLines false (.v 0) = [0] ∧ (farLine []).lineReady 0 = false ∧ (one divBlk).lineReady 0 = true ∧ divBlk.fills.contains 0 = false ∧
    ({ divBlk with fills := [0] } : Blk).fills.contains 0 = true ∧
    ((farLine []).core.quarterAt 0).fills.length < 8 ∧ 8 ≤ ((farLine (List.replicate 8 (1, 1))).core.quarterAt 0).fills.length := by decide +kernel

/-- A handler's state. -/
def sup (s : State) : State := { s with g := { s.g with sup := true } }
/-- A context under fixed order. -/
def fixord (s : State) : State := { s with launches := [(0, { lr := List.replicate 24 0 ++ [4] })] }
/-- A block without lanes. -/
def deadBlk : Blk := { divBlk with lanes := 0 }

theorem witness_ExitInstructions : (one (blk (tokAll 16) (tokAll 64) (tokAll 0))).blk? = some (blk (tokAll 16) (tokAll 64) (tokAll 0)) ∧
    (lane (opn (blk (tokAll 16) (tokAll 64) (tokAll 0)) (form .lane .i64)).a.vals 0).toNat % 16 = 0 ∧
    (lane (opn (blk (tokAll 15) (tokAll 1) (tokAll 0)) (form .lane .i64)).a.vals 31).toNat % 16 ≠ 0 ∧
    (lane (opn (blk (tokAll 15) (tokAll 1) (tokAll 0)) (form .lane .i64)).b.vals 0).toNat % 64 ≠ 0 ∧
    (opn deadBlk (form .lane .i64)).live = 0 ∧ (opn divBlk (form .lane .i64)).live ≠ 0 ∧ (sup (one divBlk)).g.sup = true := by decide +kernel

theorem witness_SchedulingInstructions : (one divBlk).blk? = some divBlk ∧ (opn divBlk (form .uni .i64)).live ≠ 0 ∧
    (sup (fixord (one divBlk))).g.sup = true ∧ (sup (fixord (one divBlk))).launchOf.fixord = true ∧
    (lane (opn (blk (tokAll 16) (tokAll 0) (tokAll 0)) (form .uni .i64)).a.vals 0).toNat = 16 ∧
    (lane (opn (blk (tokAll 256) (tokAll 0) (tokAll 0)) (form .uni .i64)).a.vals 0).toNat = 256 ∧
    (lane (opn (blk (tokAll 15) (tokAll 0) (tokAll 0)) (form .uni .i64)).a.vals 0).toNat = 15 ∧
    (lane (opn (blk (tokAll 257) (tokAll 0) (tokAll 0)) (form .uni .i64)).a.vals 0).toNat = 257 := by decide +kernel

theorem witness_SystemInstructions : (one divBlk).blk? = some divBlk ∧ (one divBlk).g.sup = false ∧ (sup (one divBlk)).g.sup = true ∧
    (lane (opn (blk (tokAll (w64 (2 ^ 56))) (tokAll 0) (tokAll 0)) (form .lane .b64)).a.vals 0).toNat = 2 ^ 56 ∧
    (lane (opn (blk (tokAll (w64 (2 ^ 56 - 1))) (tokAll 0) (tokAll 0)) (form .lane .b64)).a.vals 0).toNat < 2 ^ 56 := by decide +kernel

/-- Pool page 5000 at frame 0 of stack 0, with a table of two levels that maps every low address to the same pool address. -/
def poolState : State :=
  { ind := [(5000, indEntry true false 0 0 0)], homes := [0], ctxs := [(0, { used := true, table := 0x27100000 })],
    mem := [⟨1, 0x10⟩, ⟨2, 0x10⟩, ⟨3, 0x27⟩, ⟨7, 0x80⟩, ⟨0x1007, 0xF0⟩, ⟨0x2003, 0xB1⟩] }
/-- The same with a gang at work. -/
def mapped (b : Blk) : State := { poolState with g := { prim := some b }, teams := [(0, team0)] }
/-- What a translation of one address gives, if it is good. -/
def mapsTo (s : State) (va : Nat) (a : Acc) : Option Nat := match s.translate s.ctxNo va a with | (.ok p, _) => some p | _ => none
/-- The fault of a translation. -/
def mapFails (s : State) (va : Nat) (a : Acc) : Option Fail := match s.translate s.ctxNo va a with | (.error x, _) => some x | _ => none

theorem witness_AccessOutcomes : team0.regions = [] ∧ 1024 * (mapped divBlk).team.stashKiB = 1024 ∧ (mapped divBlk).team.cluster = 1 ∧
    (mapped divBlk).pageFail none 5001 = some (5, 4) ∧ (mapped divBlk).pageFail none (pageOf 0x27100000) = none ∧
    mapsTo (mapped divBlk) 0x27102000 {} = some 0x27102000 ∧ mapFails (mapped divBlk) (2 ^ 56) {} = some (6, 1) ∧
    mapsTo (mapped divBlk) 0x27102000 { write := true } = some 0x27102000 ∧
    ({ mapped divBlk with lostLines := [0x27102000 / 256] } : State).lineLost 0x27102000 = true ∧ (2 : Nat) ^ 21 - 1 < 2 ^ 21 := by decide +kernel

/-- The block of a load at an address, and the stash beyond its end. -/
def at_ (a : W64) : Blk := blk (tokAll a) (tokAll 3) (tokAll 0)

/-- A block with a load still to issue, and one whose access follows a `seq` fence. -/
def loadBlk : Blk := { at_ 0 with words := encode (.ld (form .lane .b64) ⟨1, .stash, 0⟩) }
def seqBlk : Blk := { at_ 0 with words := encode (.fence { form .lane .b64 with rm := 4, sc := 1 } 1) }

theorem witness_Loads : (mapped (at_ 0)).blk? = some (at_ 0) ∧ (∀ x ∈ (State.resolveAll ⟨0, .stash, 0⟩ 1 false false false (fun _ => 1023) [0] (mapped (at_ 0))).1, okLanes [x] ≠ []) ∧
    lowestFault (State.resolveAll ⟨0, .global, 0⟩ 8 false false true (fun _ => 4) [0] (mapped (at_ 4))).1 = some (7, 0) ∧
    (mapped (at_ 0)).g.sup = false ∧
    (∃ q ∈ loadBlk.instrs, q.2.isLoad = true ∧ q.2.lsid.getD 32 < 2 ∧ loadBlk.issued.getLsbD q.1 = false) ∧
    ¬(∃ q ∈ (at_ 0).instrs, q.2.isLoad = true ∧ q.2.lsid.getD 32 < 2 ∧ (at_ 0).issued.getLsbD q.1 = false) ∧
    (∃ q ∈ seqBlk.instrs, q.2.isSeq = true ∧ q.2.lsid.getD 32 < 2) ∧ seqBlk.seq = none ∧ ({ seqBlk with seq := some 1 } : Blk).seq ≠ none ∧
    ¬(∃ q ∈ loadBlk.instrs, q.2.isSeq = true ∧ q.2.lsid.getD 32 < 2) ∧
    (∀ p ∈ [(⟨1, 0, 1023⟩ : Place)], p.kind = 1 ∧ p.id = (mapped (at_ 0)).g.team) ∧ ¬(∀ p ∈ [(⟨1, 1, 0⟩ : Place)], p.kind = 1 ∧ p.id = (mapped (at_ 0)).g.team) ∧
    (let cached : State := { mapped (at_ 0) with cores := [(0, { resetCore with l1 := [{ line := 7 }] })] }
     (linesOf [(⟨0, 0, 7 * 256⟩ : Place)]).filter (fun l => false || !(cached.core.l1.any fun x => x.line == l)) = [] ∧ cached.core.l1.length ≤ 1024 ∧
     (linesOf [(⟨0, 0, 8 * 256⟩ : Place)]).filter (fun l => false || !(cached.core.l1.any fun x => x.line == l)) ≠ []) := by decide +kernel

/-- A store of lane 0 at a byte, and the instance that has made it. -/
def byteStore : StoreRec := { idx := 0, lsid := 1, lane := 0, places := [⟨0, 0, 0x27102000⟩], data := [7] }
def stored : Blk := { divBlk with stores := [byteStore] }

/-- What a load of LSID 1 has read of that byte. -/
def byteRead : ReadRec := { lsid := 1, bytes := [(⟨0, 0, 0x27102000⟩, 9)] }

theorem witness_StoreForwarding : stored.stores = [] ++ [byteStore] ∧ byteStore.op = none ∧ byteStore.lsid < 2 ∧ stored.active.getLsbD 0 = true ∧
    byteStore.places.Nodup ∧ byteStore.data.length = byteStore.places.length ∧ (⟨0, 0, 0⟩ : Place) ∉ byteStore.places ∧
    (∀ r ∈ stored.stores.filter (fun (r : StoreRec) => decide (r.lsid < 1) && stored.active.getLsbD r.lane), (⟨0, 0, 0x27102000⟩ : Place) ∉ r.places) ∧ stored.reads = [] ∧
    ({ stored with reads := [byteRead] } : Blk).reads = [] ++ byteRead :: [] ∧ 0 < byteRead.lsid ∧
    byteRead.bytes.find? (fun x => x.1 == ⟨0, 0, 0x27102000⟩) = some (⟨0, 0, 0x27102000⟩, 9) := by decide +kernel

theorem witness_StoresAndReds : (mapped (at_ 0)).blk? = some (at_ 0) ∧ (mapped (at_ 0)).launchOf.fixord = false ∧ ((0 : BitVec 3) ≠ 7) ∧
    lowestFault (State.resolveAll ⟨0, .stash, 0⟩ 1 true false false (fun _ => 1023) [0] (mapped (at_ 0))).1 = none ∧
    lowestFault (State.resolveAll ⟨0, .global, 0⟩ 8 true true true (fun _ => 4) [0] (mapped (at_ 4))).1 = some (7, 0) ∧
    ¬((Space.stash = .ctx ∨ Space.stash = .pool) ∧ (mapped (at_ 0)).g.sup = false) ∧
    (fixord (mapped (at_ 0))).launchOf.fixord = true ∧ inWindow (fixord (mapped (at_ 0))).launchOf 0 8 = false ∧
    (maskOf fun l => (opn (at_ 0) (form .lane .b64)).live.getLsbD l && !(Space.global == .global && inWindow (fixord (mapped (at_ 0))).launchOf 0 8)) ≠ 0 := by
  decide +kernel

theorem witness_Atomics : (mapped (at_ 1020)).blk? = some (at_ 1020) ∧ tfind (mapped (at_ 1020)).teams 0 = some team0 ∧ team0.regions = [] ∧
    (opn (at_ 1020) (form .uni .n32)).live ≠ 0 ∧ (lane (opn (at_ 1020) (form .uni .n32)).a.vals 0).toNat + 4 = 1024 * team0.stashKiB ∧
    (mapped (at_ 1020)).heldHere = none ∧ (mapped (at_ 1020)).launchOf.fixord = false ∧
    ({ mapped (at_ 0) with g := { prim := some (at_ 0), held := [(0, [5])] } } : State).heldHere = some [5] ∧
    orderRefuses (fixord (mapped (at_ 0))) .global 4 0 = true ∧ orderRefuses (fixord (mapped (at_ 0))) .stash 4 0 = false ∧
    (255 : Nat) < 2 ^ Ty.n32.width ∧ [1, 2, 4, 8].contains (Ty.n32.width / 8) = true ∧ 1020 % 4 = 0 ∧
    (⟨.a, 1⟩ : Target) ≠ Target.none ∧
    -- an outcome held whose lane 0 was written, and one that was not
    (let c : Blk := blk (tokAll 0) (tokAll 5) (tokAll 6)
     let x : Lanes := splat 5
     (lane x 0).toNat % 2 ^ 32 = (lane (opn c (form .uni .n32)).b.vals 0).toNat % 2 ^ 32 ∧
     (lane (opn c (form .uni .n32)).c.vals 0).toNat % 2 ^ 32 ≠ (lane x 0).toNat % 2 ^ 32 ∧
     (lane (splat 4) 0).toNat % 2 ^ 32 ≠ (lane (opn c (form .uni .n32)).b.vals 0).toNat % 2 ^ 32) ∧
    ({ mapped (at_ 0) with g := { prim := some (at_ 0), held := [(0, [5])] } } : State).nullsHere ≠ allLanes ∧
    orderRefuses (fixord (mapped (at_ 0))) .global 4 0 = true ∧ (sup (fixord (one divBlk))).launchOf.fixord = true ∧
    orderRefuses (sup (fixord (mapped (at_ 0)))) .stash 4 0 = false := by decide +kernel

/-- A gang with one store in flight. -/
def flying : State := { g := { prim := some divBlk, flST := [⟨1, false⟩] } }

theorem witness_FencesAndWaits : flying.blk? = some divBlk ∧ inFlight flying.g.flST = 1 ∧ inFlight flying.g.flCP = 0 ∧
    (opn deadBlk (form .lane .b64)).live = 0 ∧ (opn divBlk (form .lane .b64)).live ≠ 0 ∧ min (lane (opn (at_ 0) (form .lane .b64)).a.vals 0).toNat 63 = 0 ∧
    ({ flying with cores := [(0, { cyc := 7 })] } : State).core.cyc = 7 ∧
    (Instr.fence { form .lane .b64 with rm := 2, sc := 2 } 0).releasesLsid = true ∧ ¬((Instr.fence { form .lane .b64 with rm := 1, sc := 2 } 0).releasesLsid = true) ∧
    ¬(2 ≤ (1 : BitVec 2).toNat) := by decide +kernel

/-- A mapped region in force. -/
def region0 : Region := { num := 1, off := 256, va := 0x27102000, len := 256, pending := false }

theorem witness_MappedRegions : (mapped (blk (tokAll 768) (tokAll 256) (tokAll 256))).blk? = some (blk (tokAll 768) (tokAll 256) (tokAll 256)) ∧
    768 + 256 = 1024 * (mapped divBlk).team.stashKiB ∧ region0.pending = false ∧ region0.leaving = false ∧
    ({ team0 with regions := [region0] } : Team).regions.length = 1 ∧ (opn divBlk (form .lane .b64)).live ≠ 0 ∧
    (∃ r ∈ [region0], r.off = 256 ∧ r.pending = false ∧ r.leaving = false) ∧ (∀ r ∈ team0.regions, r.off = 256 → r.pending = true ∨ r.leaving = true) ∧
    (List.replicate 16 region0).length = 16 ∧ (∃ r ∈ [region0], 0 < r.off + r.len ∧ r.off < 0 + 512) ∧ (lanesOf (opn divBlk (form .lane .b64)).act).contains 31 = true ∧
    (opn deadBlk (form .lane .b64)).live = 0 := by decide +kernel

/-- The leaf that maps the die's heap, as the TLBs hold it. -/
def heapLeaf : Cached := ⟨0, 31, 0x00FFFFFFFFFF4000 / 2 ^ 31, 3, false, 0xF400000000000000, 0x27101FF8⟩
/-- The same with the page of the die's heap mapped, its header zero but for a bump pointer of 256. -/
def heaped (b : Blk) : State :=
  { mapped b with ind := [(5000, indEntry true false 0 0 0), (5003, indEntry true false 0 1 0), (16383, indEntry true false 0 2 0)],
                  mem := [⟨1, 0x10⟩, ⟨2, 0x10⟩, ⟨3, 0x27⟩, ⟨7, 0x80⟩, ⟨0x1007, 0xF0⟩, ⟨0x1FFF, 0xF4⟩, ⟨0x2003, 0xB1⟩, ⟨0x3FFF9, 0x10⟩, ⟨0x3FFFA, 0x10⟩,
                          ⟨0x3FFFB, 0x27⟩, ⟨0x3FFFF, 0x80⟩, ⟨0x54011, 1⟩],
                  cores := [(0, { resetCore with tlb := [heapLeaf] })], dies := [(0, { tlb := [heapLeaf] })] }

/-- A word of the heap's header, read with the caches as they are. -/
theorem heaped_word : (heaped (at_ 64)).supWord 0x00FFFFFFFFFF4000 = (.ok 0, heaped (at_ 64)) ∧
    (heaped (at_ 64)).supWord 0x00FFFFFFFFFF4008 = (.ok 0, heaped (at_ 64)) ∧ (heaped (at_ 64)).supWord 0x00FFFFFFFFFF4010 = (.ok 256, heaped (at_ 64)) ∧
    (heaped (at_ 64)).supWord 0x00FFFFFFFFFF4020 = (.ok 0, heaped (at_ 64)) := ⟨by rfl, by rfl, by rfl, by rfl⟩

theorem witness_DeviceHeap : ((mapped (at_ 131072)).blk? = some (at_ 131072) ∧ (131072 : Nat) ≤ 131072 ∧ ¬ 131072 < (131072 : Nat) ∧ 131072 < (131073 : Nat) ∧
    (mapped (at_ 131073)).heldHere = none ∧ ((mapped divBlk).heapServe (fun _ => 0) [0]).2.2.1 = none ∧
    ((mapped divBlk).heapServe (fun _ => 0) [0]).2.1 = [] ∧ (heaped (at_ 64)).launchOf.allocNull = false ∧
    ({ heaped (at_ 64) with g := { prim := some (at_ 64), held := [(0, [5])] } } : State).heldHere = some [5] ∧
    64 % 2 ^ (6 + sizeClass 64) = 0 ∧ ¬(64 < 0 ∨ 256 ≤ 64) ∧
    ((opn (at_ 64) (form .lane .b64)).live.getLsbD 0 = true ∧ lane (opn (at_ 64) (form .lane .b64)).a.vals 0 ≠ 0) ∧
    (∀ l ∈ lanesOf (opn (at_ 0) (form .lane .b64)).live, lane (opn (at_ 0) (form .lane .b64)).a.vals l = 0)) ∧
    (heaped (at_ 64)).heapAt = 0x00FFFFFFFFFF4000 ∧ (heaped (at_ 64)).heapServe (fun _ => 64) [0] = ([], [0], none, heaped (at_ 64)) := by
  refine ⟨by decide +kernel, by decide +kernel, ?_⟩
  have h : (heaped (at_ 64)).heapAt = 0x00FFFFFFFFFF4000 := by decide +kernel
  have c : sizeClass 64 = 0 := by decide
  have w := heaped_word
  generalize heaped (at_ 64) = s at h w ⊢
  simp [State.heapServe, State.heapTake, h, c, w]

/-- Semaphore 5 with a count and a queue. -/
def sems (b : Blk) (n : Nat) (q : List (Nat × Nat)) : State := { one b with cores := [(0, { sems := [(5, ⟨n, q⟩)] })] }

theorem witness_Semaphores : (sems divBlk 2 []).blk? = some divBlk ∧ (opn divBlk (form .lane .b64)).live ≠ 0 ∧ (sems divBlk 2 []).heldHere = none ∧
    ((sems divBlk 2 []).core.semAt 5).count = 2 ∧ ((sems divBlk 2 []).core.semAt 5).queue = [] ∧
    ((sems divBlk 1 [(3, 2)]).core.semAt 5).queue = [(3, 2)] ∧ ((sems divBlk 65535 []).core.semAt 5).count = 65535 ∧
    (opn deadBlk (form .lane .b64)).live = 0 ∧ (sup (fixord (one divBlk))).launchOf.fixord = true ∧
    (opn nullBlk (form .uni .i64)).act &&& (opn nullBlk (form .uni .i64)).pred &&& ~~~(opn nullBlk (form .uni .i64)).a.nulls = 0 ∧
    ({ sems divBlk 2 [] with g := { prim := some divBlk, held := [(0, [1])] } } : State).heldHere = some [1] ∧
    (sems divBlk 2 []).launchOf.fixord = false ∧ ((sems divBlk 1 [(3, 2)]).core.semAt 5).count < (((sems divBlk 1 [(3, 2)]).core.semAt 5).queue.head?.map (·.2)).getD 0 ∧
    (one deadBlk).requestOut false 0 = false ∧ 65534 + (1 : BitVec 10).toNat ≤ 65535 ∧ 65535 < 65535 + (1 : BitVec 10).toNat ∧
    ((1 : BitVec 2).toNat < 2 ∧ 2 ≤ (2 : BitVec 2).toNat) := by decide +kernel

theorem witness_Barriers : (mapped divBlk).blk? = some divBlk ∧ tfind (mapped divBlk).teams (mapped divBlk).g.team = some team0 ∧
    (opn divBlk (form .lane .b64)).live ≠ 0 ∧ (mapped divBlk).g.sup = false ∧ (mapped divBlk).heldHere = none ∧ team0.barriers = 4 ∧
    barArrive false (barWord 6 0 1 0 0) = some (barWord 6 1 1 0 0) ∧ barArrive false (barWord 6 0 0 0 0) = none ∧
    barDone (barWord 7 0 1 0 0) 6 = true ∧ barDone (barWord 6 0 1 0 0) 6 = false ∧ barDone (barCheck (barWord 6 1 2 0 0)) 6 = false ∧
    (mapped divBlk).barWaited 0 1 = false ∧ barArrived (barWord 6 0 63 0 0) = 0 ∧
    ({ mapped divBlk with g := { prim := some divBlk, held := [(0, [6])] } } : State).heldHere = some [6] ∧ team0.barriers ≤ (4 : BitVec 9).toNat ∧
    (3 : BitVec 9).toNat < team0.barriers ∧ barArrive true (barWord 6 0 1 0 0) = some (barWord 6 1 1 1 0) ∧ barArrive true (barWord 6 1 1 0 0) = none ∧
    barArrived (barWord 6 1 63 0 0) ≠ 0 ∧ barDrops (barWord 6 1 63 1 0) ≠ 0 ∧ (w64 8191).toInt = 8191 ∧ (BitVec.ofInt 64 (-8192)).toInt = -8192 ∧
    (BitVec.ofInt 64 (-8193)).toInt < -8192 ∧ (0 : Nat) < 2 ^ 32 ∧ (63 : Nat) < 64 ∧ (16383 : Nat) < 16384 := by decide +kernel

theorem witness_Timelines : (one divBlk).blk? = some divBlk ∧ (opn divBlk (form .lane .b64)).live ≠ 0 ∧ (one divBlk).ctxNo = 0 ∧
    (one divBlk).stackLost 7 = false ∧ (7 : Nat) / 8 = (one divBlk).self ∧
    ({ one divBlk with pkg := { failedUnits := [.stack 7] } } : State).stackLost 7 = true ∧ (one divBlk).inDomain 0 = true ∧
    2 * 2 ^ 60 + 0 * 2 ^ 10 + 3 * 2 ^ 8 + 143 < 2 ^ 64 ∧ (one divBlk).launchOf.domcl = false ∧ ¬(2 ≤ (1 : BitVec 2).toNat) ∧ 2 ≤ (2 : BitVec 2).toNat ∧
    (one divBlk).pkg.failedUnits.contains (.die 3) = false ∧ (2 * 2 ^ 60 + 3 * 2 ^ 8 + 143) % 256 = 143 ∧ (2 * 2 ^ 60 + 3 * 2 ^ 8 + 143) / 2 ^ 8 % 4 = 3 ∧
    143 < (2 ^ 61 + 144) % 256 ∧ 2 ^ 61 ≤ 2 ^ 61 + 144 ∧ (63 : Nat) < 64 ∧ 63 ≠ (one divBlk).ctxNo ∧ (one divBlk).g.sup = false := by decide +kernel

/-- A gang that asks home agents at an address. -/
def asking (a : W64) : State := mapped (at_ a)

theorem witness_HomeRequests : (asking 0x27102000).blk? = some (at_ 0x27102000) ∧ (asking 0x27102000).heldHere = none ∧
    (asking 0x27102000).requestOut false 0 = false ∧ mapsTo (asking 0x27102000) 0x27102000 { write := true } = some 0x27102000 ∧
    ({ asking 0x27102000 with edges := [0x27102000] } : State).edges.contains 0x27102000 = true ∧ (asking 0x27102000).edges.contains 0x27102000 = false ∧
    ({ asking 0 with agenda := [⟨5, none, .gang 0, .chunkRequest false 0 0⟩] } : State).requestOut false 0 = true ∧
    ({ asking 0 with g := { prim := some (at_ 0), held := [(0, [5])] } } : State).heldHere = some [5] ∧ (0x27102001 : Nat) % 32 ≠ 0 ∧ (0x27102000 : Nat) % 256 = 0 ∧
    mapsTo (asking 0x27102000) 0x27102000 {} = some 0x27102000 ∧ (asking 0).g.sup = false ∧ (opn (at_ 0) (form .uni .i64)).live ≠ 0 := by decide +kernel

theorem witness_TileInstructions : (teamed divBlk).blk? = some divBlk ∧ (opn divBlk (form .lane .bf16)).live ≠ 0 ∧ (opn deadBlk (form .lane .bf16)).live = 0 ∧
    16 * (4 + 1) ≤ (teamed divBlk).team.tileKiB ∧ ¬ 16 * (5 + 1) ≤ (teamed divBlk).team.tileKiB ∧ Ty.mx4.isMx = true ∧
    ({ pkg := { bring := .reduced } } : State).pkg.bring = .reduced ∧
    ({ teamed divBlk with teams := [(0, { team0 with stashKiB := 4 })] } : State).team.stashKiB * 1024 = 0 + 4096 ∧
    (opn divBlk (form .lane .f32)).act &&& (opn divBlk (form .lane .f32)).pred ≠ 0 ∧ (opn deadBlk (form .lane .f32)).act &&& (opn deadBlk (form .lane .f32)).pred = 0 ∧
    (divBlk.tok 0 .a).isSome = true ∧ ({ divBlk with toks := [] } : Blk).tok 0 .a = none ∧ (256 : Nat) % 256 = 0 ∧ (257 : Nat) % 256 ≠ 0 ∧
    (one divBlk).pkg.bring ≠ .reduced ∧ ¬((Ty.bf16 : Ty) = .bf16 ∧ (Ty.f16 : Ty) = .bf16) := by decide +kernel

theorem witness_TileProducts : (List.replicate 4096 (0 : Byte)).length = 4096 ∧ (List.replicate 64 (List.replicate 64 0)).length = 64 ∧
    (∀ r ∈ List.replicate 64 (List.replicate 64 (0 : Nat)), r.length = 64) ∧ groupCount .i8 = groupCount .i8 ∧ groupCount .e4m3 = groupCount .e5m2 ∧
    Ty.e4m3.isMx = false ∧ (63 : Nat) < 64 ∧ (List.replicate (64 * groupCount .f16) (0 : Byte)).length = 64 * groupCount .f16 := by decide +kernel

theorem witness_TopEntries : (List.replicate 64 (0 : Nat)).length = 64 ∧ (0 : Nat) < 32 ∧ (32 : Nat) ≤ 32 := by decide +kernel

theorem witness_QueueAndCopyInstructions : (teamed (at_ 640)).blk? = some (at_ 640) ∧ 640 + 384 = 1024 * (teamed divBlk).team.stashKiB ∧ 640 % 128 = 0 ∧
    (opn (at_ 640) (form .lane .b64)).live ≠ 0 ∧ (opn deadBlk (form .lane .b64)).live = 0 ∧ (961 : Nat) + 64 > 1024 * (teamed divBlk).team.stashKiB ∧
    ¬ 16 * (5 + 1) ≤ (teamed divBlk).team.tileKiB := by decide +kernel

theorem witness_Accumulators : (teamed divBlk).blk? = some divBlk ∧ (opn divBlk (form .lane .f64)).live ≠ 0 ∧ (opn deadBlk (form .lane .f64)).live = 0 ∧
    17408 * (4 * 0 + 3 + 1) ≤ 1024 * (teamed divBlk).team.tileKiB ∧ divBlk.tiles = [] ∧ divBlk.inval = [] ∧
    1024 * 64 < 17408 * (4 * 0 + 3 + 1) ∧ (∀ r ∈ divBlk.tiles, r.idx < 0) ∧ (∀ r ∈ divBlk.inval, r.1 < 0) := by decide +kernel

theorem witness_ComputeInstructionFrame : (Instr.add (form .lane .i64)).inBlock = true ∧ (one divBlk).isec = false ∧
    (match exec (.add (form .lane .i64)) (one divBlk) with | .next _ => true | _ => false) = true := by decide +kernel

theorem witness_IssueFrames : (Instr.st (form .lane .n8) ⟨0, .stash, 0⟩).sig.isSome = true ∧ (Instr.semRel (form .lane .b64) 5 1).translates = false ∧
    ((teamed divBlk).ctxAt (teamed divBlk).ctxNo).trace = none ∧
    (match exec (.semRel (form .lane .b64) 5 1) (teamed divBlk) with | .next _ => true | _ => false) = true := by decide +kernel

theorem witness_FaultsAndHandlerEntry : (one divBlk).g.rels = [] ∧ (one divBlk).g.sup = false ∧ (sup (one divBlk)).g.sup = true ∧
    (one divBlk).blk? = some divBlk ∧ (one divBlk).isec = false ∧
    ({ g := { sec := some divBlk }, isec := true } : State).blk? = some divBlk ∧ divBlk.pend = none ∧
    ({ divBlk with pend := some { code := 1, lanes := 1 } } : Blk).pend ≠ none ∧ ((one divBlk).ctxAt (one divBlk).ctxNo).trace = none ∧
    ({ code := 7, lanes := 1, va := [1] } : FaultRec).va ≠ [] ∧ ({ code := 7, lanes := 1 } : FaultRec).va = [] := by decide +kernel

theorem witness_HandlerReturn : (sup (one divBlk)).g.rels = [] ∧ (sup (one divBlk)).g.trapNext = none ∧ (sup (one divBlk)).g.exm = (sup (one divBlk)).g.saveExm ∧
    (sup (teamed divBlk)).teams = [(0, team0)] ∧ ({ exm := 1 } : Gang).exm &&& ~~~({ exm := 1 } : Gang).saveExm = 1 ∧
    (sup (one divBlk)).g.rset = 0 ∧ (List.replicate 8 ({ cur := { addr := 64, lanes := 1 } } : Slice)).length = 8 ∧
    (1 : BitVec 4) &&& ~~~((0 : Mask).extractLsb' 0 4) = 1 ∧ (sup (one divBlk)).g.exm &&& ~~~(sup (one divBlk)).g.saveExm &&& ~~~(sup (one divBlk)).g.sfmask = 0 ∧
    (tget team0.recs 0 {}).tflm = 0 := by decide +kernel

/-- What a write of FST leaves at its commit. -/
def fstWritten : Fired := { idx := 0, ins := .syswr (form .lane .b64) .fst, lanes := allLanes, a := splat 0x7FF, b := [], c := [] }

theorem witness_RegistersAtCommit : fstWritten.ins = .syswr (form .lane .b64) .fst ∧
    ([fstWritten].filter fun e => match e.ins with | .syswr _ .fst => true | _ => false).getLast? = some fstWritten ∧
    ([fstWritten].all fun e => match e.ins with | .syswr _ .lrm => false | _ => true) = true := by decide +kernel

/-- A `red` of lane 0 at that byte, and a merge step with the byte. -/
def redStore : StoreRec := { byteStore with op := some (0, .n8) }
def mergeStep : MergeStep := { num := 1, line := 0x27102000 / 256, cycle := 0, quarter := 0, parts := [⟨(3, 1), 0, [(0, 7)], 0, 1⟩] }

theorem witness_StoresAtCommit : stored.stores = [] ++ [] ++ [byteStore] ∧ stored.active.getLsbD byteStore.lane = true ∧
    (byteStore.op = none ∧ ∀ p ∈ byteStore.places, p.kind = 0) ∧ byteStore.data.length = byteStore.places.length ∧ byteStore.places.Nodup ∧
    (∀ m ∈ poolState.core.merge, ∀ p ∈ byteStore.places, m.line ≠ p.off / 256) ∧ byteStore.places[0]? = some ⟨0, 0, 0x27102000⟩ ∧
    (byteStore.places.map fun (p : Place) => poolState.poolKey p.off).Nodup ∧ poolState.core.merge = [] ∧ (∀ p ∈ poolState.teams, p.2.regions = []) ∧
    ({ divBlk with stores := [redStore] } : Blk).stores = [redStore] ∧ redStore.op = some (0, .n8) ∧ (∀ p ∈ redStore.places, p.kind = 0) ∧
    (bytesOf 1 (aopNew 0 .n8 0 7).1)[0]? = some 7 ∧ (∀ p ∈ byteStore.places, poolState.poolKey p.off ≠ 0) ∧
    (match stored.instrAt byteStore.idx with | .ok _ => false | .error _ => true) = true ∧
    poolState.pageFail none (mergeStep.line / 512) = none ∧ ((mergeStep.parts.flatMap (·.bytes)).filter fun c => c.1 == 0).getLast? = some (0, 7) ∧
    ((mergeStep.parts.flatMap (·.bytes)).filter fun c => c.1 == 255).getLast? = none ∧
    (∀ c ∈ mergeStep.parts.flatMap (·.bytes), c.1 < 256) ∧ pairLt (3, 1) (3, 2) = true := by decide +kernel

/-- An exit of every lane, and a block that has fired it and is ready to commit. -/
def leaving : Fired := { idx := 0, ins := .exit (form .lane .i64), lanes := allLanes, a := [], b := [], c := [] }
def endBlk : Blk := { slices := 0xFF, lanes := allLanes, fired := [leaving], stage := .commit, hdr := [0xB0200000, 0, 0, 0] }
/-- A running context with a gang at a block. -/
def running (b : Blk) : State :=
  { g := { prim := some b, slices := List.replicate 8 {} }, parts := [(0, { owner := some 0 })], teams := [(0, team0)] }

/-- The same with 64 stores in flight, and with a block that is timed under fixed timing. -/
def full (b : Blk) : State :=
  { running b with g := { prim := some b, slices := List.replicate 8 {}, flST := List.replicate 64 ⟨1, false⟩ }, parts := [(0, { owner := some 0, fixed := true })] }
def tickBlk : Blk := { endBlk with hdr := [0xB0200001, 0, 0, 0] }
/-- A jump of every lane to address 64. -/
def jumping : Fired := { leaving with ins := .jr (form .lane .i64), a := splat 64 }

theorem witness_BlockCommit : (running endBlk).g.prim = some endBlk ∧ (running endBlk).isec = false ∧ endBlk.stage = .commit ∧ endBlk.due ≤ (running endBlk).clock ∧ ((running endBlk).core.quarterAt 0).committed ≤ (running endBlk).clock ∧
    (running endBlk).running 0 (running endBlk).ctxNo = true ∧  (running endBlk).olderDue = false ∧
    endBlk.badExits = 0 ∧ ({ endBlk with fired := [] } : Blk).badExits = allLanes ∧
    (match (running endBlk).commitPoint endBlk with | (.ok _, t) => t.commitWait endBlk | _ => some 0) = none ∧
    (running endBlk).g.slices.length = 8 ∧ endBlk.timed = false ∧
    (match (full endBlk).commitPoint endBlk with | (.ok _, t) => t.commitWait endBlk | _ => none) = some 8 ∧
    (match (full tickBlk).commitPoint tickBlk with | (.ok _, t) => (tickBlk.timed && t.fixedTiming, t.commitWait tickBlk) | _ => (false, none)) = (true, some 8) ∧
    (match (running { endBlk with fired := [] }).commitPoint { endBlk with fired := [] } with | (.error r, _) => r.code | _ => 0) = 3 ∧
    (endBlk.effects.find? fun r => r.ins.isExit && r.lanes.getLsbD 31) = some leaving ∧
    (endBlk.effects.any fun r => r.lanes.getLsbD 31 && (match r.ins with | .tret _ => true | _ => false)) = false ∧
    endBlk.slices.getLsbD 7 = true ∧ exitTarget { endBlk with fired := [jumping] } [jumping] 31 = some 64 := by decide +kernel

/-- A block about to be fetched, at a mapped address where a header's first word holds its tag, and one that has been fetched. -/
def fetchBlk : Blk := { addr := 0x27102000, lanes := allLanes, slices := 0xFF }
def decodeBlk : Blk := { fetchBlk with stage := .decode, hdr := [0xB0000000, 0, 0, 0] }

/-- A block of one `exit`, legal. -/
def goodBlk : Blk := { decodeBlk with hdr := [0xB0200800, 0, 0, 0], words := [0x0300FE7F] }

theorem witness_BlockFetchAndDecode : (mapped fetchBlk).g.prim = some fetchBlk ∧ fetchBlk.stage = .fetch ∧
    (match (mapped fetchBlk).readVirt 0 0x27102000 16 { fetch := true } with | (.ok hb, _) => ({ fetchBlk with hdr := wordsOfBytes hb } : Blk).tag | _ => 0) = 11 ∧
    (match (mapped fetchBlk).readVirt 0 0x27102100 16 { fetch := true } with | (.ok hb, _) => ({ fetchBlk with hdr := wordsOfBytes hb } : Blk).tag | _ => 1) = 0 ∧
    (match ({ mapped fetchBlk with ind := [] } : State).readVirt 0 0x27102000 16 { fetch := true } with | (.error x, _) => x.1 | _ => (0, 0)) = (5, 4) ∧
    decodeBlk.stage = .decode ∧ decodeBlk.tag = 11 ∧ ({ decodeBlk with hdr := [0, 0, 0, 0] } : Blk).tag ≠ 11 ∧
    (decodeBlk.decodeFault false 16).isSome = true ∧
    (mapped decodeBlk).breakHere decodeBlk = false ∧ decodeBlk.due ≤ (mapped decodeBlk).clock ∧ decodeBlk.headerBad = true ∧ goodBlk.decodeFault false 16 = none ∧ goodBlk.tag = 11 ∧
    (mapped goodBlk).breakHere goodBlk = false ∧ tickBlk.timed = true ∧ (full { tickBlk with stage := .run }).fixedTiming = true ∧
    tickBlk.start + tickBlk.tlen = (full tickBlk).clock ∧ ({ tickBlk with words := [0x0300FE7F] } : Blk).complete = false ∧
    goodBlk.progress + 2 ^ 20 ≤ ({ mapped goodBlk with cores := [(0, { resetCore with cyc := 2 ^ 20 })] } : State).clock ∧
    ({ mapped goodBlk with cores := [(0, { resetCore with cyc := 2 ^ 20 - 1 })] } : State).clock < goodBlk.progress + 2 ^ 20 := by decide +kernel

/-- A block with two instructions, the second `br`; both are well formed and have an encoding. -/
theorem witness_EncodedBlocksDecode : ∀ i ∈ [Instr.add (form .lane .i64), .br (form .lane .i64) 8], i.wf = true ∧ i.sig.isSome = true := by decide +kernel

theorem witness_DecodedInstructionsEncode : dec [0x0300FE7F, 7] = some (.exit { form .lane .i64 with ext := false }, [7]) ∧
    dec [0xD8000202, 0x38030C7F, 0, 5, 0] ≠ none := by decide +kernel

/-- A block of one `exit`, about to issue. -/
def issuing (w : W32) : State := { g := { prim := some { decodeBlk with words := [w], stage := .run } }, issue := [⟨0, false, 0⟩] }
/-- A step that has come by the package's time, and one that core 5, in its cycle 3, has still to reach. -/
def dueNow : Due := ⟨0, none, .none, .thermalStop⟩
def dueLater : Due := ⟨4, some 5, .gang 7, .blockCommit⟩
def waitingCore : State := { agenda := [dueLater, dueNow], cores := [(5, { resetCore with cyc := 3, phase := 2399 })] }

theorem witness_StepRunsDecoded : (issuing 0x0300FE7F).issue = ⟨(issuing 0x0300FE7F).gid, false, 0⟩ :: [] ∧
    ((issuing 0x0300FE7F).g.prim.bind fun b => (b.instrAt 0).toOption) = some (.exit { form .lane .i64 with ext := false }) ∧
    (match (issuing 0).g.prim.map (fun b => b.instrAt 0) with | some (.error _) => true | _ => false) = true ∧
    (match step (issuing 0) with | .refused _ => true | _ => false) = true ∧
    waitingCore.issue = [] ∧ waitingCore.agenda = [dueLater] ++ dueNow :: [] ∧ ¬(dueLater.time ≤ (waitingCore.coreAt 5).cyc) ∧ dueNow.time ≤ waitingCore.now ∧
    waitingCore.gangAt 7 = none ∧ ({ turn := [3] } : State).turn = 3 :: [] ∧ ({} : State).agenda = [] ∧
    tfind waitingCore.cores 5 = some { resetCore with cyc := 3, phase := 2399 } ∧ 2400 ≤ 2399 + 2 * (waitingCore.partAt (partOf 5)).mhz ∧
    (decodeTableWord 32 0x1000FE7F).isSome = true := by decide +kernel

/-- A write of a byte at pool address 0x27100000 is due, through the host's aperture. -/
def poking : State := { poolState with owl := { aperture := 2 }, agenda := [⟨0, none, .none, .apertureWrite 0x7100000 [7]⟩] }

theorem witness_MemoryInvariant : Memory.wf poking.mem = true ∧
    (match step poking with | .next t => (memByte t.mem 0, memByte t.mem 1) | _ => (0, 0)) = (7, 0x10) := by decide +kernel

/-! ### Package steps -/

/-- Partitions 0 and 1 elastic for contexts 0 and 1, partition 4 fixed for context 0. -/
def powered : State :=
  { parts := [(0, { owner := some 0 }), (1, { owner := some 1, mhz := 580 }), (4, { owner := some 0, fixed := true })],
    ctxs := [(0, { used := true, prio := 3 }), (1, { used := true, prio := 1 })], subj := 4 }

/-- The same with a subject, a fixed partition's core; and with a partition of the context under a droop guard. -/
def fixedDie : State := { powered with subj := 144 }
def guarded : State := { fixedDie with parts := [(4, { owner := some 0, fixed := true, guard := true })] }

/-- Ends of the ranges: 560 and 960 MHz, 1200 and 2400 W, and the values beside them; a sample at the limit and one above it. -/
theorem witness_PowerAndHeat : (powered.partAt 0).elastic = true ∧ (powered.partAt 4).elastic = false ∧ 560 % 20 = 0 ∧ 960 % 20 = 0 ∧
    powered.slowNext = some 1 ∧ ({} : State).slowNext = none ∧ ((2400 :: powered.pkg.samples).take 100).foldl (· + ·) 0 ≤ powered.pkg.powerLimit * 1 ∧
    ¬ ((2401 :: powered.pkg.samples).take 100).foldl (· + ·) 0 ≤ powered.pkg.powerLimit * 1 ∧ 1200 % 25 = 0 ∧ 2400 % 25 = 0 ∧ 2410 % 25 ≠ 0 ∧
    -- no limit stands: 800 MHz and above are allowed, less only on the way back up; a hot package and a throttled die
    ¬(powered.pkg.powerLimit * powered.pkg.samples.length < powered.pkg.samples.foldl (· + ·) 0) ∧ (powered.partAt 1).mhz ≤ 600 ∧ ¬((powered.partAt 0).mhz ≤ 780) ∧
    2400 * [2401].length < [2401].foldl (· + ·) 0 ∧ ({ pkg := { throttled := 1 } } : State).pkg.throttled.getLsbD 0 = true ∧
    powered.reserved ≤ 1200 ∧ (powered.partAt (partOf 0)).fixed = false ∧ (powered.partAt (partOf 144)).fixed = true ∧
    ¬((powered.partAt (partOf 144)).halted = true ∨ (powered.partAt (partOf 144)).taking ≠ none) ∧
    (fixedDie.partAt (partOf fixedDie.subj)).owner = some 0 ∧ (fixedDie.partAt (partOf fixedDie.subj)).fixed = true ∧ (fixedDie.ctxAt 0).halt = false ∧
    (fixedDie.partAt (partOf fixedDie.subj)).guard = false ∧ (∃ y ∈ guarded.parts, y.2.owner = some 0 ∧ y.2.guard = true) ∧
    (∀ y ∈ fixedDie.parts, y.2.owner = some 0 → y.2.guard = false) ∧ (guarded.partAt (partOf guarded.subj)).guard = true ∧
    (({} : State).partAt (partOf 0)).owner = none ∧ (3 : Nat) < 4 ∧ powered.pkt.queue < 128 ∧ (powered.ctxAt 0).used = true ∧
    (powered.ctxAt 0).root = powered.self := by decide +kernel

/-- A package at a stage of its bring-up, and with a packet that stands for package 1. -/
def atStage (b : Bring) : State := { pkg := { bring := b } }
def told1 (b : Bring) : State := { atStage b with pkt := ⟨129, 0, [0xFFF]⟩ }
/-- Page 1 at stack 0, frame 1; two of its lines corrected in this pass. -/
def scrubbed : State := { homes := [0], ind := [(100, indEntry true false 0 1 0)], corrected := [(0, [512, 513])], scrubbed := [(0, [512, 513])] }

theorem witness_BringUpAndResets : State.reset.pkg.bring = .off ∧ (atStage .boot).pkg.bring = .boot ∧ (FailUnit.die 0 = .die 0) ∧
    (∀ a b, FailUnit.die 0 ≠ .dieLink a b) ∧ (∀ a, FailUnit.die 0 ≠ .hubLink a) ∧ FailUnit.hubLink 1 ≠ .die 0 ∧
    (atStage .reduced).formationPending = false ∧
    ({ atStage .reduced with agenda := [⟨9, none, .none, .formationTimeout⟩] } : State).formationPending = true ∧
    (atStage .reduced).pkt.queue < 128 ∧ (atStage .reduced).pkg.dstate ≠ .member ∧ (256 : Nat) ≤ ({ pkt := ⟨256, 0, []⟩ } : State).pkt.queue ∧
    ({ pkg := { bring := .reduced, dstate := .member, members := 5, ended := 4 } } : State).pkg.dstate = .member ∧
    (∀ n ∈ List.range 64, n ≠ ({} : State).self → (5 : W64).getLsbD n = true → ({} : State).self < n ∧ (4 : W64).getLsbD n = true) ∧
    128 ≤ (told1 .reduced).pkt.queue ∧ (told1 .reduced).pkt.queue < 192 ∧ (told1 .reduced).pkt.queue - 128 ≠ (told1 .reduced).self ∧
    ({ pkg := { bring := .reduced, admitting := false } } : State).pkg.admitting = false ∧ (atStage .reduced).pkg.admitting = true ∧
    (∀ p ∈ List.range 16, ((atStage .reduced).partAt p).owner = none) ∧ (powered.partAt 4).owner ≠ none ∧
    ({ owl := { state := 1 } } : State).owl.state = 1 ∧ (atStage .off).owl.state ≠ 1 ∧
    -- a third line, a second one, and a line read again, with which a pass begins
    scrubbed.pageAtFrame 0 1 = some 100 ∧ scrubbed.pageAtFrame 0 2 = none ∧ (tget scrubbed.scrubbed 0 []).contains 514 = false ∧
    3 ≤ ((514 :: tget scrubbed.corrected 0 []).filter fun n => n / 512 == 514 / 512).length ∧
    ¬(3 ≤ ((1024 :: tget scrubbed.corrected 0 []).filter fun n => n / 512 == 1024 / 512).length) ∧ (tget scrubbed.scrubbed 0 []).contains 512 = true ∧
    ((0 : Nat) ≠ 8 * scrubbed.self ∨ 1 < 521984) := by
  refine ⟨by decide, rfl, rfl, (fun _ _ h => nomatch h), (fun _ h => nomatch h), by decide, by decide +kernel⟩

/-- A flit, and the same with the CRC of its bytes. -/
def someFlit : Flit := { seq := 0, ack := 3, vc := 4, ftype := 0, credit := 0, rsvd := 0, payload := [], check := 0 }
def goodFlit : Flit := { someFlit with check := crc64 (flitBytes someFlit) }
/-- A port of die 0 whose retry buffer holds flits 3 and 4. -/
def linked (x : LinkSt) : State := { pkg := { links := [(linkKey (.port 0 0), x)] }, now := 1600 }
/-- Its state. -/
def linkUp : LinkSt := { up := true, retry := [{ someFlit with seq := 3 }, { someFlit with seq := 4 }] }

theorem witness_LinkLayer : goodFlit.check = crc64 (flitBytes goodFlit) ∧ (linked linkUp).linkAt (.port 0 0) = linkUp ∧
    (linkUp.down = false ∧ linkUp.fenced = false ∧ linkUp.training = false) ∧ ({ linkUp with down := true } : LinkSt).down = true ∧
    goodFlit.vc.toNat ≤ 4 ∧ goodFlit.seq = linkUp.expect ∧ { goodFlit with vc := 5 }.vc.toNat = 5 ∧
    linkUp.retry.length < 512 ∧ linkUp.waiting = [] ∧ linkUp.waiting.contains 0 = false ∧ ({ linkUp with waiting := [0] } : LinkSt).waiting.contains 0 = true ∧
    0 < ({ linkUp with credits := [1, 1, 1, 1, 1] } : LinkSt).credit 4 ∧ ¬(0 < ({ linkUp with credits := [0, 1, 1, 1, 1] } : LinkSt).credit 0) ∧
    linkUp.retry = [] ++ { someFlit with seq := 3 } :: [{ someFlit with seq := 4 }] ∧ linkUp.nakSent = false ∧ ({ linkUp with nakSent := true } : LinkSt).nakSent = true ∧
    (∀ y ∈ linkUp.retry, y.seq ≠ (3 : BitVec 12) - 1) ∧ ({ someFlit with seq := 3 } : Flit).seq = (4 : BitVec 12) - 1 ∧
    linkUp.retry ≠ [] ∧ linkUp.replays < 8 ∧ 8 ≤ { linkUp with replays := 8 }.replays ∧ linkUp.ackAt + 1600 ≤ (linked linkUp).now ∧
    (linked linkUp).now < { linkUp with ackAt := 1 }.ackAt + 1600 ∧ { linkUp with training := true }.training = true ∧
    (linked linkUp).pkg.dstate ≠ .member ∧ (if 4 ≤ 1 then 4 else if 2 ≤ 1 then 2 else 0) = 0 ∧ (if 4 ≤ 3 then 4 else if 2 ≤ 3 then 2 else 0) ≠ 0 ∧
    ([0, 1, 2, 3].filter fun d => !(linked linkUp).pkg.failedUnits.contains (.die d) && !((linked linkUp).shutLink (.port 0 0)).reachDie d) = [] ∧
    ((linked linkUp).shutLink (.port 0 0)).outOfReach = [] :=
  ⟨by simp [goodFlit, flitBytes], by decide +kernel⟩

/-- Package 0 as the standby of context 0, whose root is package 8. -/
def standing : State :=
  { ctxs := [(0, { used := true, root := 8, standby := 0, want := 1 :: List.replicate 7 0 ++ [1] ++ List.replicate 7 0 ++ [1], frozen := true })], now := 800000,
    pkg := { bring := .reduced, heard := 0x100, present := 0x101, heardAt := [(helloKey 0 0 hello8, 500000)] } }
  where hello8 : Hello := { domain := 0, pkg := 8, die := 0, port := 0, swport := 0, epoch := 0 }
/-- A hello of package 8 at die 0, port 0. -/
def hello8 : Hello := standing.hello8
/-- A copy of the command queue block in pool memory, for a takeover. -/
def takes : State := { poking with ctxs := [(0, { used := true, root := 8, standby := 0, table := 0x27100000 })] }

theorem witness_RackDomain : State.reset.pkg.bring = .off ∧ ¬(standing.pkg.bring = .off ∨ standing.pkg.bring = .boot) ∧ (15 : Nat) < 16 ∧ (3 : Nat) < 4 ∧
    standing.pkg.bring = .reduced ∧
    (standing.linkAt (.port 0 0)).down = false ∧ (standing.linkAt (.port 0 0)).fenced = false ∧ standing.pkg.dstate = .forming ∧
    hello8.swport = 8 * standing.self + 2 * 0 + 0 % 2 ∧ hello8.domain = standing.pkg.domain ∧ hello8.pkg ≠ standing.self ∧
    ({ hello8 with swport := 9 } : Hello).swport ≠ 8 * standing.self ∧ ({ hello8 with domain := 1 } : Hello).domain ≠ standing.pkg.domain ∧
    ({ hello8 with pkg := 0 } : Hello).pkg = standing.self ∧
    tfind standing.pkg.heardAt (helloKey 0 0 hello8) = some 500000 ∧ standing.now < 500000 + 400000 ∧ tfind standing.pkg.heardAt (helloKey 1 0 hello8) = none ∧
    (0x101 : W64).getLsbD standing.self = true ∧ standing.pkg.excludedPkgs.getLsbD standing.self = false ∧
    lowestPkg (standing.known &&& ~~~standing.pkg.excludedPkgs) = standing.self ∧ standing.anyUp = false ∧
    standing.pkg.present ≠ 0 ∧ standing.pkg.present &&& ~~~standing.known = 0 ∧ ({} : State).pkg.present = 0 ∧
    ({ pkg := { dstate := .member } } : State).pkg.dstate ≠ .forming ∧
    (standing.ctxs.any fun y => y.2.used && decide (1 < y.2.packages.length)) = true ∧
    (powered.ctxs.any fun y => y.2.used && decide (1 < y.2.packages.length)) = false ∧ (powered.ctxAt 0).root = powered.self ∧
    ({ powered with owl := { state := 1 } } : State).owl.state = 1 ∧ ({ powered with owl := { state := 2 } } : State).owl.state = 2 ∧
    (standing.ctxAt 0).root ≠ standing.self ∧ (standing.ctxAt 0).beat + 800000 ≤ standing.now ∧ standing.standbyGone (standing.ctxAt 0) = false ∧
    standing.standbyGone { standing.ctxAt 0 with standby := 64 } = true ∧ ({ standing with now := 799999 } : State).now < (standing.ctxAt 0).beat + 800000 ∧
    (standing.ctxAt 0).packages.contains 16 = true ∧ (standing.ctxAt 0).packages.length < 2 * [0, 16].length ∧
    (standing.ctxAt 0).standby = standing.self ∧ (standing.ctxAt 0).frozen = true ∧ (powered.ctxAt 0).standby ≠ 8 ∧
    ((takes.dropPackage 8).takeoverQcb { qcb := 0x27100000 }).isSome = true ∧ (standing.ctxAt 0).used = true := by decide +kernel

/-- Page 5000 at stack 0, with a directory entry for its line 2560000. -/
def homed (d : Dir) : State := { homes := [0], ind := [(5000, indEntry true false 0 1 0)], dir := [(2560000, d)] }

/-- Die 0 holds the line alone; die 2 owns it, also under a `share` probe; die 0 owns it beside die 1. -/
def dirS : Dir := { st := .s, sharers := 1 }
def dirM : Dir := { st := .m, owner := 2, sharers := 4 }
def dirO : Dir := { st := .o, owner := 0, sharers := 3 }
def dirBusy : Dir := { dirM with pending := some ⟨0, 0, [2]⟩ }
/-- A move of that page to stack 3 whose bytes have been copied. -/
def moved : Move := { page := 5000, stack := 3, frame := 2, copied := true }

theorem witness_DirectoryAndMoves : ((homed {}).target 0 5000 = (homed {}).homeOf 5000 ∧ (homed {}).stackLost ((homed {}).homeOf 5000) = false ∧
    ¬(∃ m ∈ (homed {}).moves, m.page = 5000 ∧ m.copied = true) ∧ (∃ m ∈ [moved], m.page = 5000 ∧ m.copied = true) ∧
    ({ homed {} with hints := [(5000, 5)] } : State).target 0 5000 ≠ (homed {}).homeOf 5000 ∧ (homed {}).dirAt 2560000 = {} ∧
    ({ homed {} with pkg := { failedUnits := [.stack 0] } } : State).stackLost ((homed {}).homeOf 5000) = true ∧
    ((homed dirBusy).dirAt 2560000).pending.isSome = true ∧ ((homed dirBusy).dirAt 2560000).turn ≠ some (.none, .rds 0 2560000) ∧
    ({ dirS with queue := [(.none, .rds 1 2560000)] } : Dir).queue = (.none, .rds 1 2560000) :: [] ∧
    (tfind (homed {}).dir 2560000).isSome = true ∧ (homed {}).dirUse.length < 16 ∧ (∀ w ∈ ((homed {}).dieAt 0).wants, w.1 ≠ 2560000) ∧ 4 / 4 ≠ (homed {}).self) ∧
    (dirS.sharers.getLsbD 0 = true ∧ dirS.sharers.getLsbD 1 = false ∧ dirM.sharers.getLsbD 0 = false ∧ dirM.st ≠ .i ∧ dirM.st ≠ .s ∧
    dirS.sharers &&& ~~~(1 : BitVec 256) = 0 ∧ dirO.sharers &&& ~~~(1 : BitVec 256) ≠ 0 ∧ (3 : BitVec 256).getLsbD 1 = true ∧
    -- write-backs, evictions and replies
    dirM.owner = 2 ∧ dirO.owner = 0 ∧ dirO.st = .o ∧ dirBusy.pending = some ⟨0, 0, [2]⟩ ∧ 2 ∈ [2]) ∧
    (¬((dirS.st = .m ∨ dirS.st = .o) ∧ dirS.owner = 0) ∧ 3 ∈ ({ dirM with stale := [3] } : Dir).stale ∧ 2 ∉ dirBusy.stale ∧
    (∀ o, dirM.pending = some o → 2 ∉ o.left) ∧ [2].filter (fun i => i != 2) = [] ∧ [2, 3].filter (fun i => i != 2) ≠ [] ∧
    (2 : Nat) / 4 = (homed {}).self ∧ (homed {}).homeOf 5000 / 8 = (homed {}).self ∧ ({ homed {} with ind := [(5000, indEntry true false 9 1 0)] } : State).homeOf 5000 / 8 ≠ 0 ∧
    -- moves
    entValid ((homed {}).entryOf 5000) = true ∧ entMigrating ((homed {}).entryOf 5000) = false ∧ (homed {}).isAdmin 5000 = false ∧ (homed {}).isPinned 5000 = false ∧
    entMigrating (indEntry true false 0 1 0 ||| w64 (2 ^ 60)) = true) ∧
    ((homed {}).freeFrame 0 = some 0 ∧ (homed {}).freeFrame 600 = none ∧ 9 / 8 ≠ (homed {}).self ∧
    ({ homed {} with moves := [moved] } : State).moves.find? (fun m => m.page == 5000) = some moved ∧
    ({ homed {} with moves := [moved] } : State).moves.find? (fun m => m.page == 5000 && m.copied) = some moved ∧ (homed {}).stackLost 3 = false ∧
    ({ homed {} with pkg := { failedUnits := [.stack 3] } } : State).stackLost 3 = true ∧ (∃ y ∈ (homed dirBusy).dir, y.1 / 512 = 5000 ∧ y.2.pending ≠ none) ∧
    ¬(∃ y ∈ (homed {}).dir, y.1 / 512 = 5000 ∧ y.2.pending ≠ none) ∧ moved.stack < 512 ∧ moved.frame < 2 ^ 19 ∧ (homed {}).mem = []) :=
  ⟨by decide +kernel, by decide +kernel, by decide +kernel, by decide +kernel⟩

/-- An edge queue at 0x27100000 with two slots of 8 bytes: one free, one filled. -/
def queued (free fill : Byte) : State :=
  { poolState with mem := [⟨8, 2⟩, ⟨12, 8⟩, ⟨32, free⟩, ⟨36, fill⟩].filter fun c => c.2 != 0 }
/-- A request on it. -/
def edgeReq : EdgeReq := { handler := false, pos := 0, gang := 0, desc := 0x27100000, payload := [1, 2, 3, 4, 5, 6, 7, 8] }

theorem witness_CountersAndQueues : (queued 1 1).target 0 5000 = (queued 1 1).homeOf 5000 ∧
    (queued 1 1).stackLost ((queued 1 1).homeOf (pageOf 0x27100000)) = false ∧ ¬(∃ m ∈ (queued 1 1).moves, m.page = 5000 ∧ m.copied = true) ∧
    ({ queued 1 1 with moves := [moved] } : State).moves = [moved] ∧ ({ queued 1 1 with hints := [(5000, 5)] } : State).target 0 5000 ≠ (queued 1 1).homeOf 5000 ∧
    ((queued 1 1).dirAt (0x27100000 / 256)).turn = none ∧ ((queued 1 1).dirAt (0x27100000 / 256)).queue = [] ∧
    ((queued 1 1).dirAt (0x27100000 / 256)).pending = none ∧ ((queued 1 1).dirAt (0x27100000 / 256)).sharers = 0 ∧
    ((homed dirBusy).dirAt 2560000).turn ≠ some (.gang 0, .chunkRequest false 0 0x27100000) ∧
    (∀ l ∈ (queued 1 1).edgeLines 0x27100000 true, ((queued 1 1).dirAt l).pending = none ∧ ((queued 1 1).dirAt l).sharers = 0) ∧
    (queued 1 1).parkedEdges = [] ∧ ((queued 1 1).edgeQ 0x27100000).free = 1 ∧ ((queued 1 1).edgeQ 0x27100000).fill = 1 ∧ ((queued 0 2).edgeQ 0x27100000).free = 0 ∧
    ((queued 2 0).edgeQ 0x27100000).fill = 0 ∧ ((queued 0 0).parkedEdges.filter fun _ => true).length < 4096 ∧
    (List.replicate 4096 (edgeReq, true)).length = 4096 ∧ edgeReq.gang = (queued 1 1).gid ∧ ((queued 1 1).gangAt edgeReq.gang).isSome = true ∧
    ({ queued 1 1 with pkg := { failedUnits := [.stack 0] } } : State).stackLost ((queued 1 1).homeOf (pageOf 0x27100000)) = true := by decide +kernel

/-! ### Queues and packets -/

/-- A packet that stands at a running queue of a package in service. -/
def packed (q : Nat) (ws : List W64) : State :=
  { poolState with homes := [0, 1], pkt := ⟨q, 0, ws⟩, owl := { state := 1 }, pkg := { bring := .reduced },
                   queues := [(q, { qstate := .running, accepted := [⟨0, ws, false, [], none⟩], qcb := 0x27100000, log2 := 12, base := 0x27104000 })] }

theorem packed_stands : (∀ ws, (packed 64 ws).Stands) ∧ ∀ ws, (packed 0 ws).Stands :=
  ⟨fun ws => ⟨⟨0, ws, false, [], none⟩, rfl, rfl, Nat.le_refl 64, rfl⟩, fun ws => ⟨⟨0, ws, false, [], none⟩, rfl, rfl, Nat.zero_le 64, rfl⟩⟩

/-- A command of package 1's Owl, and the same while it waits. -/
def asked (n : Nat) : State := { packed 64 [] with pkt := ⟨n, 0, [0x43]⟩ }
/-- An attestation that is being signed, and a queue whose packet has been started. -/
def signing : State := { owl := { attests := [(1, [0])] } }
def started : State :=
  { packed 64 [0x46] with queues := [(64, { qstate := .running, accepted := [⟨0, [0x46], true, [], none⟩], qcb := 0x27100000, log2 := 12 })] }

/-- A command on page 5000, on page 7 (not valid), and on an admin page. -/
theorem witness_AdminPackets : (packed 64 [0, 0, 0, 0]).Stands ∧
    ((packed 64 []).queueAt 64).accepted = [⟨0, [], false, [], none⟩] ∧
    (let u := (packed 64 []).acceptPacket (packed 64 []).pkt
     ((u.ctxAt 0).used = true ∧ (u.ctxAt 0).root = u.self) ∧ (u.ctxAt 1).used = false ∧ u.entryHere 5000 = true ∧ entValid (u.entryOf 5000) = true ∧
     entValid (u.entryOf 5001) = false ∧ u.isAdmin 7 = true ∧ u.isAdmin 5000 = false ∧ u.isAdmin 5001 = false ∧ u.stackKnown 0 = true ∧
     u.stackKnown 512 = false ∧ (u.freeFrame 0).isSome = true ∧ (u.usedFrames 0).contains 0 = true ∧ u.frameReserved 0 521984 = true ∧
     (u.frameReserved 0 1 || (u.usedFrames 0).contains 1) = false ∧ u.moveStatus 7 0 ≠ 0 ∧ u.moveStatus 5000 1 = 0 ∧
     u.writeFail 0x27100000 256 = none ∧ u.writeFail 0x27120000 256 = some 5 ∧ u.homes.contains 0 = true ∧ u.homes.contains 9 = false ∧ u.owl.attests.length < 5 ∧
     u.inDomain 4 = false ∧ u.runFail 0x27100000 4 = none ∧ u.runFail 0x27120000 4 = some 5 ∧ u.createStatus [0, 0, 0, 0] ≠ 0 ∧
     (u.ind.any fun e => entValid e.2 && u.hashHome e.1 == 1) = !(u.ind.any fun e => entValid e.2 && u.hashHome e.1 == 0)) ∧
    ({ packed 64 [] with homes := [8] } : State).entryHere 5000 = false ∧ ([0, 9].contains 9 = true ∧ 9 / 8 ≠ (packed 64 []).self) ∧
    (2 ^ 24 : Nat) ≤ 2 ^ 24 ∧ (8 : Nat) % 8 = 0 ∧ (256 : Nat) % 8 = 0 ∧ (packed 64 []).owl.state = 1 ∧ ({ owl := { state := 2 } } : State).owl.state = 2 ∧
    ({ pkg := { dstate := .member, members := 0x11 } } : State).inDomain 4 = true ∧ 4 / 4 ≠ ({} : State).self / 4 ∧
    (asked 129).pkt.queue = 128 + 1 ∧ (asked 193).pkt.queue = 192 + 1 ∧ ¬(∃ m ∈ (asked 193).moves, m.page = 5000) ∧ (∃ m ∈ [moved], m.page = 5000) ∧
    started.entryOfPacket started.pkt = some ⟨0, [0x46], true, [], none⟩ ∧
    ((asked 129).pkt.words.getD 0 0).toNat % 256 = 0x43 ∧ signing.owl.attests = (1, [0]) :: [] ∧
    ((0 :: [0, 0].filter fun x => decide (0 < x + 800000000)).length = 3) ∧ ((0 :: [0].filter fun x => decide (0 < x + 800000000)).length < 3) ∧
    ({ owl := { staged := some [1] } } : State).owl.staged = some [1] :=
  ⟨packed_stands.1 _, by decide +kernel⟩

/-- A checked queue of context 0 with both slots filled and a ring at page 5000. -/
def pairState (d1 : BitVec 256) : State :=
  { packed 0 [] with ctxs := [(0, { used := true, table := 0x27100000, checked := true })], owl := { state := 1, windows := [(0, (5, 0)), (1, (d1, 0))] } }

theorem witness_HostInterface : poking.hostFail 0x27100000 = false ∧ poking.hostFail 0x27120000 = true ∧ (0 : Nat) % 8 = 0 ∧ ¬ (2 ^ 28 < 2 ^ 28 - 8 + 8) ∧ 2 ^ 28 < 2 ^ 28 - 7 + 8 ∧
    poking.pageFail none (pageOf 0x27100000) = none ∧ poking.lineLost 0x27100000 = false ∧ (poking.dirAt (0x27100000 / 256)).sharers = 0 ∧
    (poking.slotOf 63 1).2 = 0xFFFFFFFFFFFFFFFF ∧ ((pairState 5).slotOf 0 0).2 ≠ 0xFFFFFFFFFFFFFFFF ∧ ((pairState 6).slotOf 0 1).1 ≠ 5 ∧
    ((pairState 5).slotOf 0 1).1 = ((pairState 5).slotOf 0 0).1 ∧ ((pairState 5).queueAt 0).qstate.reads = true ∧ ((pairState 5).ctxAt 0).checked = true ∧
    (pairState 5).ringFail ((pairState 5).queueAt 0) 0 1 = none ∧ ({ pairState 5 with ind := [] } : State).ringFail ((pairState 5).queueAt 0) 0 1 = some 5 ∧
    (({ queues := [(0, { qstate := .running, halfSlot := some 0 })] } : State).queueAt 0).halfSlot = some 0 ∧
    ({ owl := { attests := List.replicate 5 (0, []) } } : State).owl.attests.length = 5 ∧ (packed 0 []).owl.attests.length < 5 ∧ (packed 0 []).owl.state = 1 ∧
    ({ owl := { state := 2 } } : State).owl.state = 2 ∧ ({} : State).owl.state = 0 ∧ ({ owl := { bootStaged := some [1] } } : State).owl.bootStaged = some [1] ∧
    [5, 6, 7].contains 5 = true ∧ [4, 8, 16].contains 16 = true ∧ [0, 0x100, 0x108, 0x110, 0x2000].contains 0x110 = true ∧ (4095 : Nat) < 4096 ∧
    patchVerifies 0 [] = false ∧ bootVerifies [] = false := by decide +kernel

/-- A wait at the head of the queue of context 0, met at once; a session that is closing. -/
def waitsHere : State :=
  { packed 0 [] with queues := [(0, { qstate := .running, waits := some (0, 0), accepted := [⟨0, [], false, [], none⟩], log2 := 12 })] }
def behind : State :=
  { packed 0 [] with queues := [(0, { qstate := .running, accepted := [⟨1, [], true, [], none⟩, ⟨0, [], false, [], none⟩], log2 := 12 })] }
def ctxTraced : State := { ctxs := [(0, { trace := some {} })] }
def closingTrace : State := { ctxs := [(0, { trace := some { closing := some 1 } })] }

theorem witness_QueuePackets : (packed 0 [15, 0, 0, 0]).Stands ∧ (packed 64 [15, 0, 0, 0]).Stands ∧
    (let u := (packed 0 [15, 0, 0, 0]).acceptPacket (packed 0 [15, 0, 0, 0]).pkt
     ((match (u.queueAt 0).accepted with | a :: _ => a.num == 0 | [] => false) = true ∧ (u.queueAt 0).qstate ≠ .stopped ∧ u.owl.state = 1) ∧
     (u.ctxAt 0).trace = none ∧ ((u.ctxAt 0).used = true ∧ (u.ctxAt 0).root = u.self) ∧ (u.ctxAt 1).used = false) ∧
    (match ((behind.acceptPacket behind.pkt).queueAt 0).accepted with | a :: _ => a.num == 0 | [] => false) = false ∧
    (ctxTraced.ctxAt 0).trace.isSome = true ∧
    ({ packed 0 [] with pkt := ⟨130, 0, []⟩ } : State).pkt.queue = 128 + 2 ∧ (List.replicate 70 (0 : W64)).drop 69 ≠ [] ∧
    (waitsHere.queueAt 0).accepted.find? (fun a => a.num == (waitsHere.queueAt 0).waitNo && !a.started) = some ⟨0, [], false, [], none⟩ ∧
    (waitsHere.queueAt 0).waits.isSome = true ∧ waitsHere.serves 0 = true ∧ waitsHere.tlMet 0 = true ∧ (waitsHere.queueAt 0).waitNo = 0 ∧
    ({ waitsHere with queues := [(0, { qstate := .running, waits := some (0, 1), accepted := [⟨0, [], false, [], none⟩] })] } : State).tlMet 0 = false ∧
    ((packed 0 []).queueAt 0).qstate.reads = true ∧ (({ queues := [(0, { qstate := .stopped })] } : State).queueAt 0).qstate.reads = false ∧
    (closingTrace.ctxAt 0).trace = some { closing := some 1 } ∧ ((packed 0 []).owl.vectorControl ((packed 0 []).vectorOf 0)).testBit 0 = true ∧
    ({ packed 0 [] with owl := { state := 1, msix := [(1, 0)] } } : State).owl.vectorControl 0 = 0 ∧
    (standing.ctxAt 0).used = true ∧ (standing.ctxAt 0).root ≠ standing.self ∧
    ((packed 0 []).queueAt 0).qstate ≠ .destroyed ∧ ((packed 0 []).queueAt 0).qstate ≠ .resetting := ⟨packed_stands.2 _, packed_stands.1 _, by decide +kernel⟩

/-! ### Distribution and what comes back -/

/-- Context 0 holds partition 0, with launch 0: team 0 queued on core 1, core 0 looking for work. -/
def busy : State :=
  { parts := [(0, { owner := some 0 })], ctxs := [(0, { used := true })], launches := [(0, { units := [(0, 0)] })],
    teams := [(0, { kind := .task }), (1, { kind := .task })], reserve := [8192], cores := [(0, resetCore), (1, { resetCore with queue := [0, 1] }), (2, resetCore)], stealing := [(0, [])], owl := { state := 1 } }

/-- A Badger operation of gang 0: a fill of one line. -/
def someOp : BadgerOp :=
  { kind := .fill, gang := 0, ctx := 0, dst := 0, src := 0, idx := 0, status := 0, len := 256, stride := 0, fill := 0, n := 0, bound := 0, elem := .n8,
    fn := .add, outty := .n8, rm := 0, pages := [(5000, 5000)] }
/-- A started and a waiting entry of a tile queue. -/
def tqEntry (b : Bool) : TqEntry := ⟨1, 0, 0, leaving, 0, 0, 0, 0, 0, 0, b, [], none⟩
/-- Core 1 has no free stash for the team at the head of its queue. -/
def crowded : State := { busy with teams := [(0, { kind := .task, stashKiB := 1024 })] }

/-- The same with a launch that seeds, one that waits for a partition, and one whose context is rooted at package 8. -/
def seeding : State := { busy with launches := [(0, { units := [(0, 0)], lr := List.replicate 24 0 ++ [1] })] }
def unsplitLaunch : Launch := { units := [(0, 0)], unsplit := [[0]] }
def rootedAway : State := { busy with ctxs := [(0, { used := true, root := 8 })] }
/-- Core 0 has nothing queued and has asked nobody. -/
def stealer : State := { busy with subj := 0 }
/-- A task that runs where it was spawned, and one placed at pool page 5000, whose home is in package 1. -/
def someTask : TaskDesc := ⟨64, 0, 0, 0, 0, 1, 0, 0, 16, 0⟩
def placedAway : State :=
  { heaped divBlk with ind := [(5000, indEntry true false 0 0 0), (5003, indEntry true false 0 1 0), (16383, indEntry true false 8 2 0)],
                       ctxs := [(0, { used := true, table := 0x27100000, want := [1, 1] })], parts := [(0, { owner := some 0 })],
                       pkg := { bring := .full, dstate := .member, members := 3 } }
/-- Team 0 has a bin with an argument that waits since cycle 0; its core is in cycle 2048. -/
def binned (b : Bin) : State :=
  { busy with teams := [(0, { admitted := true, kind := .task, bins := [(3, b)] })], cores := [(0, { resetCore with cyc := 2048 })] }

theorem witness_Distribution : (tfind busy.launches 0 = some { units := [(0, 0)] } ∧ (busy.ctxPackages 0).isEmpty = false ∧ (busy.ctxPackages 1).isEmpty = true ∧
    (busy.ctxAt 0).frozen = false ∧ ({ used := true, frozen := true } : Ctx).frozen = true ∧
    lrSeed (busy.launchAt 0).lr = false ∧ lrSeed (seeding.launchAt 0).lr = true ∧ (busy.ctxCores 0 0).contains 0 = true ∧ (busy.ctxCores 0 1).isEmpty = true ∧
    (busy.routeTeams 0 (busy.launchAt 0).lr [0, 1]) ≠ [] ∧
    -- steals
    (0 : Nat) < 704 ∧ 704 ≤ 705 ∧ busy.stolen ⟨0, 1, 0⟩ = [1] ∧ busy.stolen ⟨0, 2, 0⟩ = []) ∧
    (stealDie 0 = stealDie 1 ∧
    (∀ x ∈ busy.teams, ∀ y ∈ x.2.mates, (busy.teamAt y).launch = x.2.launch) ∧ lrNoSteal (List.replicate 24 0 ++ [64]) = true ∧
    (tfind stealer.stealing 0).isSome = true ∧ (tfind stealer.stealing 1).isNone = true ∧ (∀ p ∈ List.range 16, (({} : State).partAt p).owner = none) ∧
    (stealer.partAt (partOf 0)).owner = some 0 ∧ stealer.stealLaunch 0 = some 0 ∧ stealer.hungry 0 0 = true ∧ (stealer.queuedOf 0 (dieCores 0)).isEmpty = false ∧
    ((stealer.victims 0 0).find? fun y => !(tget stealer.stealing 0 []).contains y) = some 1 ∧
    -- bins
    (tget ((binned { args := [1] }).teamAt 0).bins 3 {}).args ≠ [] ∧ ((binned {}).teamAt 0).admitted = true ∧ ((binned {}).launchAt 0).fixord = false) ∧
    (0 + 2048 ≤ ((binned {}).coreAt 0).cyc ∧ ((binned {}).coreAt 0).cyc < 1 + 2048 ∧ (List.replicate 32 (0 : W64)).length = 32 ∧
    (tget ((binned {}).teamAt 0).bins 3 {}).args = [] ∧ (tfind (binned {}).teams 0).isSome = true ∧ ((fixord busy).launchAt 0).fixord = true ∧
    -- tasks
    someTask.place = 0 ∧ (busy.ctxCores 0 0).contains (144 * 0 + 0) = true ∧ placedAway.placeAt 0 0x00FFFFFFFFFF4000 = some (4 + 1) ∧
    -- counting
    (busy.ctxAt 0).root = busy.self ∧ (rootedAway.ctxAt 0).root ≠ rootedAway.self ∧ ((busy.launchAt 0).units.all fun p => p.2 == 0) = true ∧
    (busy.launchAt 0).unsplit = [] ∧ unsplitLaunch.unsplit ≠ []) ∧
    (((tset ([] : List (Nat × Bool)) 0 true).all fun p => p.2) = true ∧
    (busy.launchAt 0).quiet = true ∧ (busy.ctxAt 0).halt = false ∧ busy.owl.state = 1 ∧ busy.launchBusy 0 = false ∧
    ({ busy with badgerOps := [{ stack := 0, num := 1, op := someOp }] } : State).launchBusy 0 = true ∧
    -- admission
    ((busy.countExits 0).partAt (partOf 0)).releasing = false ∧ (busy.countExits 0).headOf 0 = none ∧ (busy.countExits 1).headOf 1 = some 0 ∧
    tfind (busy.countExits 1).teams 0 = some { kind := .task } ∧ ((busy.countExits 1).launchAt 0).graph = none ∧ (busy.countExits 1).fits 1 { kind := .task } = true ∧
    ((busy.countExits 1).admitHead 1 0).isSome = true ∧ (crowded.countExits 1).headOf 1 = some 0) ∧
    ((crowded.countExits 1).admitHead 1 0 = none) :=
  ⟨by decide +kernel, by decide +kernel, by decide +kernel, by decide +kernel, by decide +kernel⟩

/-- A partition that contexts wait for, one that is leaving its owner, and one with an image. -/
def wanted : State := { parts := [(0, { waits := [1, 0] })], ctxs := [(0, { used := true })] }
def leavingPart : State := { parts := [(0, { owner := some 0, taking := some 1 })] }
def imagedPart : State := { parts := [(0, { owner := some 0, halted := true })], images := [{ ctx := 0, part := 0 }] }

theorem witness_Partitions : (wanted.partAt 0).owner = none ∧ (wanted.partAt 0).waits = [1] ++ 0 :: [] ∧ (wanted.ctxAt 0).used = true ∧ (wanted.ctxAt 1).used = false ∧
    ¬((wanted.ctxAt 0).fixed = true ∨ wanted.pkg.bring = .reduced) ∧ ({} : State).pkg.admitting = true ∧ ({ pkg := { admitting := false } } : State).pkg.admitting = false ∧
    ({} : State).reserved + 120 ≤ ({} : State).pkg.powerLimit ∧ ¬(({ pkg := { powerLimit := 599 } } : State).reserved + 120 ≤ ({ pkg := { powerLimit := 599 } } : State).pkg.powerLimit) ∧
    (wanted.imageOf 0 0).isSome = false ∧ (imagedPart.imageOf 0 0).isSome = true ∧ (leavingPart.partAt 0).releasing = false ∧
    (({ parts := [(0, { owner := some 0, releasing := true })] } : State).partAt 0).releasing = true ∧
    (leavingPart.partAt 0).taking = some 1 ∧ (wanted.partAt 0).taking = none ∧
    (({ parts := [(0, { owner := some 0, taking := some 64 })] } : State).partAt 0).halted = false ∧ leavingPart.drained 0 = true ∧
    ({ cores := [(0, { tq := [tqEntry true] })] } : State).drained 0 = false ∧
    imagedPart.imageOf 0 0 = some { ctx := 0, part := 0 } ∧ (imagedPart.partAt 0).halted = true ∧ ReplyFate.uncorrectable ≠ .data := by decide +kernel

/-- A gang whose instruction 0 waits for request 4 of its line, and for a fill of register line 9. -/
def waitingOn : State :=
  { one { divBlk with reqs := [{ num := 4, idx := 0, line := 77, held := false }], fills := [9] } with
      cores := [(0, { quarters := [{ entries := List.replicate 64 1 }] })] }
/-- A gang without a slot that watches line 77. -/
def awayGang : State := { g := { parked := true, watch := [77] }, cores := [(0, { resetCore with cyc := 65536 })] }
/-- A gang that waits for a slot. -/
def slotless : State := { busy with g := { waitsSlot := some 0 } }
/-- A merge step of core 0 whose request is number 4. -/
def merging : State := { cores := [(0, { merge := [{ mergeStep with num := 4 }] })] }
/-- A copy that runs, one that has failed, and one with a follow-on under way. -/
def runningCopy : Copy := { num := 1, ord := 0, team := 0, ctx := 0, parts := 1, running := true }
def copying (y : Copy) : State := { cores := [(0, { copies := [y] })] }
/-- A Badger operation on pool page 5000, and its line open at the directory. -/
def filling : State := { poolState with badgerOps := [{ stack := 0, num := 1, op := { someOp with status := 0x27103000 } }] }
def poolOp : BadgerOp := { someOp with dst := 0x27103000, status := 0x27103100 }
/-- A session that samples. -/
def tracing : State := { ctxs := [(0, { trace := some { period := 256, evmask := 1 } })], parts := [(0, { owner := some 0 })] }

theorem witness_RepliesAndEngines : (merging.mergeCore 4 = some (0, { mergeStep with num := 4 }) ∧ waitingOn.mergeCore 4 = none ∧
    ((waitingOn.g.prim.map fun b => b.reqs.length) = some 1) ∧ waitingOn.g.sec = none ∧
    (waitingOn.core.quarters.all fun y => y.aged.isEmpty) = true ∧ (waitingOn.g.reqOf 4).isSome = true ∧ waitingOn.g.reqOf 5 = none ∧
    3 ≤ (3 : BitVec 3).toNat ∧
    64 ≤ (waitingOn.core.quarterAt waitingOn.g.quarter).entries.length ∧ ((waitingOn.g.prim.map fun b => b.replayCount 0) = some 0) ∧
    ((one divBlk).core.quarterAt 0).entries.length < 64 ∧ ((one divBlk).core.quarterAt 0).aged = [] ∧
    ((waitingOn.g.prim.map fun b => b.fills.contains 9) = some true) ∧ awayGang.g.parked = true) ∧
    (awayGang.g.slot = none ∧ awayGang.g.waitsSlot = none ∧
    awayGang.g.watch.contains 77 = true ∧ awayGang.g.parkedAt + 65536 ≤ awayGang.clock ∧ (awayGang.parkedEdges.any fun e => e.1.gang == awayGang.gid) = false ∧
    waitingOn.g.parked = false ∧ awayGang.slotWaiters 0 = [] ∧ slotless.slotWaiters 0 = ((0, 0), .gang 0) :: [] ∧ (slotless.seat (.gang 0)).isSome = true ∧
    (slotless.gangAt 0).isSome = true ∧ (slotless.coreAt 0).freeSlots ≠ [] ∧ quarterTakes (slotless.residents 0) (fewestQuarter (slotless.residents 0)) 0 16 = true ∧
    ({ slotless with cores := [(0, { resetCore with slots := List.replicate 32 (some 9) })] } : State).seat (.gang 0) = none ∧
    -- translations
    (one divBlk).mappingsUsed 0 = false) ∧
    (((mapped divBlk).walkVa 0 (2 ^ 56)).toOption.isSome = false ∧ ((mapped divBlk).walkVa 0 0).toOption.isSome = true ∧
    ((mapped divBlk).mapping 0 0).1.toOption.isSome = true ∧ ((mapped divBlk).mapping 0 (2 ^ 56)).1.toOption.isSome = false ∧
    -- copies
    (copying runningCopy).copyOf 0 0 1 (fun y => y.running) = some runningCopy ∧ runningCopy.failed = none ∧ runningCopy.follow = none ∧
    ({ runningCopy with follow := some (0, [], none), due := 1 } : Copy).follow ≠ none ∧ ((copying runningCopy).coreAt 0).cyc < 1 ∧
    ({ runningCopy with failed := some (9, 0, 0, 0) } : Copy).failed ≠ none ∧
    (copying { runningCopy with ended := true, failed := some (9, 0, 0, 0) }).copyOf 0 0 1 (fun y => y.ended) =
      some { runningCopy with ended := true, failed := some (9, 0, 0, 0) } ∧
    -- Badger operations
    poolState.stackLost (poolState.leadHome poolOp) = false ∧ ({ poolState with pkg := { failedUnits := [.stack 0] } } : State).stackLost (poolState.leadHome poolOp) = true ∧
    (poolState.badgerLines poolOp) = [0x271030]) ∧
    ((((poolState.badgerLines poolOp).filter fun y => !poolState.stackLost (poolState.homeOf (y / 512))).all fun y =>
      (poolState.dirAt y).pending == none && (poolState.dirAt y).sharers == 0) = true ∧
    (({ poolState with dir := [(0x271030, dirBusy)] } : State).dirAt 0x271030).pending ≠ none ∧
    (filling.badgerOps.find? (fun r => r.stack == 0 && r.op.ctx == 0 && r.num == 1)).isSome = true ∧ (filling.dirAt 0x271030).pending = none ∧
    (filling.dirAt 0x271030).sharers = 0 ∧ EndStatus.homeLost ≠ .done ∧
    -- the tile queue and sessions
    [tqEntry false].find? (fun e => !e.started && decide (e.start ≤ 0)) = some (tqEntry false) ∧
    [tqEntry true].find? (fun e => e.started && decide (e.finish ≤ 0)) = some (tqEntry true) ∧
    (tracing.ctxAt 0).trace = some { period := 256, evmask := 1 } ∧ (0 : Nat) = tracing.subj / 65536 ∧ (1 : W64).getLsbD 0 = true ∧
    (tracing.partAt (partOf 0)).owner = some 0 ∧
    (({} : State).byAge 0).filter (fun n => ({} : State).running 0 (({} : State).focus n).ctxNo) = [] ∧ ({} : State).slotWaiters 0 = []) :=
  ⟨by decide +kernel, by decide +kernel, by decide +kernel, by decide +kernel⟩

/-- The family of LAWS.json: an instruction of the table that is well formed and has an encoding. -/
theorem witness_RoundTrip : (Instr.semAcq (form .lane .b64) 5 2).wf = true ∧ (Instr.semAcq (form .lane .b64) 5 2).sig.isSome = true := by decide
end Sys2Proof.Tests
end

section
/-! PROOFS. Masks bit by bit, and the lanes that contribute to a cross-lane result (spec/12 R326). -/

namespace Sys2Proof.Proofs
open Sys2Proof.Machine Sys2Proof.Laws.Shapes

/-! ### Sums of distinct powers of two -/

/-- The number whose bit i, for i < n, is `p i`. -/
def bitSum (n : Nat) (p : Nat → Bool) : Nat := ∑ i ∈ Finset.range n, if p i then 2 ^ i else 0

theorem bitSum_succ (n : Nat) (p : Nat → Bool) : bitSum (n + 1) p = bitSum n p + if p n then 2 ^ n else 0 :=
  Finset.sum_range_succ _ _

theorem bitSum_lt (n : Nat) (p : Nat → Bool) : bitSum n p < 2 ^ n := by
  induction n with
  | zero => exact Nat.one_pos
  | succ n ih => rw [bitSum_succ]; split <;> omega

theorem testBit_bitSum (n : Nat) (p : Nat → Bool) (l : Nat) : (bitSum n p).testBit l = (decide (l < n) && p l) := by
  induction n with
  | zero => simp [bitSum]
  | succ n ih =>
    have hlt := bitSum_lt n p
    rcases Nat.lt_trichotomy l n with h | rfl | h
    · have e : (bitSum (n + 1) p).testBit l = (bitSum n p).testBit l := by
        rw [bitSum_succ]
        split
        · rw [Nat.add_comm, Nat.testBit_two_pow_add_gt h]
        · rfl
      rw [e, ih, decide_eq_true h, decide_eq_true (Nat.lt_succ_of_lt h)]
    · rw [bitSum_succ]
      cases hp : p l
      · simp [Nat.testBit_lt_two_pow hlt]
      · simp [Nat.add_comm, Nat.testBit_two_pow_add_eq, Nat.testBit_lt_two_pow hlt]
    · rw [Nat.testBit_lt_two_pow (lt_of_lt_of_le (bitSum_lt _ p) (Nat.pow_le_pow_right (by decide) h)), decide_eq_false (by omega),
        Bool.false_and]

theorem foldl_ite_add (e : Nat → Nat) (p : Nat → Bool) (n : Nat) :
    (List.range n).foldl (fun a i => if p i then a + 2 ^ e i else a) 0 = ∑ i ∈ Finset.range n, if p i then 2 ^ e i else 0 := by
  induction n with
  | zero => rfl
  | succ n ih =>
    rw [List.range_succ, List.foldl_append, ih, Finset.sum_range_succ]
    simp only [List.foldl_cons, List.foldl_nil]
    split <;> rfl

/-- Bit l of the mask of the lanes that satisfy a test. -/
@[simp] theorem getLsbD_maskOf (p : Nat → Bool) (l : Nat) : (maskOf p).getLsbD l = (decide (l < 32) && p l) := by
  unfold maskOf
  rw [foldl_ite_add (fun l => l), ← bitSum, BitVec.getLsbD_ofNat, testBit_bitSum, ← Bool.and_assoc, Bool.and_self]

/-! ### The lanes that contribute (R326) -/

theorem getLsbD_contributes (o : Opnd) (l : Nat) :
    o.contributes.getLsbD l = (o.act.getLsbD l && o.pred.getLsbD l && !o.a.nulls.getLsbD l) := by
  unfold Opnd.contributes
  rw [BitVec.getLsbD_and, BitVec.getLsbD_and, BitVec.getLsbD_not]
  rcases Nat.lt_or_ge l 32 with h | h
  · rw [decide_eq_true h, Bool.true_and]
  · rw [BitVec.getLsbD_of_ge _ _ h, Bool.false_and, Bool.false_and, Bool.false_and]

theorem lanesOf_contributes (o : Opnd) :
    lanesOf o.contributes = (List.range 32).filter fun l => o.act.getLsbD l && o.pred.getLsbD l && !o.a.nulls.getLsbD l :=
  List.filter_congr fun l _ => getLsbD_contributes o l

theorem lanesOf_eq_nil {m : Mask} : lanesOf m = [] ↔ m = 0 := by
  refine ⟨fun h => BitVec.eq_of_getLsbD_eq fun l hl => ?_, fun h => by subst h; decide⟩
  have := List.filter_eq_nil_iff.1 h l (List.mem_range.2 hl)
  simpa using this

theorem crossNulls_eq (o : Opnd) : o.crossNulls = if lanesOf o.contributes = [] then allLanes else ~~~o.pred := by
  unfold Opnd.crossNulls maskIf
  by_cases h : o.contributes = 0
  · rw [if_pos (lanesOf_eq_nil.2 h), h]
    exact BitVec.or_allOnes
  · rw [if_neg (mt lanesOf_eq_nil.1 h), if_neg (by simpa using h)]
    exact BitVec.or_zero

end Sys2Proof.Proofs
end

section
/-! PROOFS. Integer arithmetic (spec/12 R352 to R354, R358, R359): the model's operations on exact values as the rules write them. -/

namespace Sys2Proof.Proofs
open Sys2Proof.Machine Sys2Proof.Laws.Shapes

theorem divT_eq (t : Ty) (a b : Int) :
    divT t a b = if b = 0 then 0 else if t.isI = true ∧ a = lo t ∧ b = -1 then lo t else a.tdiv b := by
  simp [divT, and_assoc]

theorem remT_eq (t : Ty) (a b : Int) :
    remT t a b = if b = 0 then a else if t.isI = true ∧ a = lo t ∧ b = -1 then 0 else a - b * a.tdiv b := by
  simp [remT, and_assoc]

theorem natAbs_eq_ite (a : Int) : (a.natAbs : Int) = if a < 0 then -a else a := by
  split <;> omega

theorem carryOut_asInt (sub : Bool) (t : Ty) (x y : W64) (k : Nat) : carryOut sub t (asInt t x) (asInt t y) k =
    if sub then decide (x.toNat % 2 ^ t.width < y.toNat % 2 ^ t.width + k)
    else decide (2 ^ t.width ≤ x.toNat % 2 ^ t.width + y.toNat % 2 ^ t.width + k) := by
  simp only [carryOut, pat_asInt]

/-- The sum that `adr` forms over the integers is the sum of the 64-bit words (R358). -/
theorem address_eq (x : W64) (v : Int) (k : Nat) :
    BitVec.ofInt 64 (x.toNat + v * 2 ^ k) = x + BitVec.ofInt 64 v * BitVec.ofNat 64 (2 ^ k) := by
  rw [BitVec.ofInt_add, BitVec.ofInt_mul, ← two_pow_cast, BitVec.ofInt_natCast, BitVec.ofInt_natCast, BitVec.ofNat_toNat,
    BitVec.setWidth_eq]

/-- What `adc` and `sbc` do: the carry or borrow, or the sum or difference read by Ext (R354). -/
theorem carry_completes {sub : Bool} {i : Instr} {f : Form} {s : State} {b : Blk} (h : s.blk? = some b)
    (he : exec i s = carryOp sub f s) :
    let o := b.opnd s.idx f
    let A := fun (l : Nat) => asInt f.ty (lane o.a.vals l)
    let B := fun (l : Nat) => asInt f.ty (lane o.b.vals l)
    let k := fun (l : Nat) => if o.c.mask.getLsbD l then 1 else 0
    Completes i f (2, 3) s b (laneResult f o fun l =>
      if f.vc = .mask then if carryOut sub f.ty (A l) (B l) (k l) then 1 else 0
      else fitted false f.ty (if sub then A l - B l - (k l : Nat) else A l + B l + (k l : Nat))) 0 := by
  unfold carryOp at he
  refine lane_completes _ h he _ _ rfl fun l => ?_
  simp only [ext_eq_asInt, outI_fit]
  rfl

/-- Settles O1: each operation is the value rule of `intOp`, `carryOp` or `compute`, and Ext and Out are the statement's. -/
theorem integerArithmetic : Obligations.IntegerArithmetic := by
  refine ⟨fun f s b h => ⟨?_, ?_, ?_, ?_, ?_, ?_, ?_, ?_, ?_, ?_, ?_⟩, fun f src s b h => ⟨?_, ?_, ?_, ?_⟩⟩
  · exact int_completes _ h (exec_add f s) _ fun _ => rfl
  · exact int_completes _ h (exec_sub f s) _ fun _ => rfl
  · exact int_completes _ h (exec_mul f s) _ fun _ => rfl
  · exact int_completes _ h (exec_mulhi f s) _ fun _ => rfl
  · exact int_completes _ h (exec_mad f s) _ fun _ => rfl
  · exact int_completes _ h (exec_div f s) _ fun _ => divT_eq _ _ _
  · exact int_completes _ h (exec_rem f s) _ fun _ => remT_eq _ _ _
  · exact int_completes _ h (exec_min f s) _ fun _ => min_def _ _
  · exact int_completes _ h (exec_max f s) _ fun _ => max_def _ _
  · exact int_completes _ h (exec_abs f s) _ fun _ => natAbs_eq_ite _
  · exact int_completes _ h (exec_neg f s) _ fun _ => rfl
  · simpa only [carryOut_asInt, Bool.false_eq_true, if_false, decide_eq_true_eq] using carry_completes h (exec_adc f s)
  · simpa only [carryOut_asInt, if_true, decide_eq_true_eq] using carry_completes h (exec_sbc f s)
  · refine lane_completes _ h (exec_adr f s) _ _ rfl fun l => ?_
    rw [ext_eq_asInt, address_eq]
  · refine lane_completes _ h (exec_cvt f src s) _ _ rfl fun l => ?_
    rw [ext_eq_asInt, outI_fit]

end Sys2Proof.Proofs
end

section
/-! PROOFS. Patterns of w bits (spec/12 R352, R355 to R357): what the model computes on the pattern of an operand is what 64-bit
word operations give in the low w bits. -/

namespace Sys2Proof.Proofs
open Sys2Proof.Machine Sys2Proof.Laws.Shapes

/-! ### The low w bits of a word -/

section
variable {w : Nat}

theorem mod64_mod (hw : w ≤ 64) (n : Nat) : n % 2 ^ 64 % 2 ^ w = n % 2 ^ w := Nat.mod_mod_of_dvd _ (Nat.pow_dvd_pow 2 hw)

theorem ofNat_mod (hw : w ≤ 64) (n : Nat) : (BitVec.ofNat 64 n).toNat % 2 ^ w = n % 2 ^ w := by
  rw [BitVec.toNat_ofNat, mod64_mod hw]

theorem ofInt_mod (hw : w ≤ 64) (v : Int) : (((BitVec.ofInt 64 v).toNat % 2 ^ w : Nat) : Int) = v % 2 ^ w := by
  rw [Int.natCast_mod, BitVec.toNat_ofInt, Int.toNat_of_nonneg (Int.emod_nonneg _ (by decide)), two_pow_cast, two_pow_cast]
  exact Int.emod_emod_of_dvd _ (pow_dvd_pow 2 hw)

theorem and_pattern (x y : W64) : (x.toNat % 2 ^ w &&& y.toNat % 2 ^ w) % 2 ^ w = (x &&& y).toNat % 2 ^ w := by
  rw [BitVec.toNat_and, Nat.and_mod_two_pow, Nat.and_mod_two_pow, Nat.mod_mod, Nat.mod_mod]

theorem or_pattern (x y : W64) : (x.toNat % 2 ^ w ||| y.toNat % 2 ^ w) % 2 ^ w = (x ||| y).toNat % 2 ^ w := by
  rw [BitVec.toNat_or, Nat.or_mod_two_pow, Nat.or_mod_two_pow, Nat.mod_mod, Nat.mod_mod]

theorem xor_pattern (x y : W64) : (x.toNat % 2 ^ w ^^^ y.toNat % 2 ^ w) % 2 ^ w = (x ^^^ y).toNat % 2 ^ w := by
  rw [BitVec.toNat_xor, Nat.xor_mod_two_pow, Nat.xor_mod_two_pow, Nat.mod_mod, Nat.mod_mod]

theorem not_pattern (hw : w ≤ 64) (x : W64) : (2 ^ w - 1 - x.toNat % 2 ^ w) % 2 ^ w = (~~~x).toNat % 2 ^ w := by
  rw [← BitVec.toNat_setWidth w (~~~x), BitVec.setWidth_not hw, BitVec.toNat_not, BitVec.toNat_setWidth, Nat.mod_eq_of_lt]
  have := Nat.two_pow_pos w
  omega

theorem shl_pattern (hw : w ≤ 64) (x : W64) (n : Nat) : x.toNat % 2 ^ w * 2 ^ n % 2 ^ w = (x <<< n).toNat % 2 ^ w := by
  rw [BitVec.toNat_shiftLeft, mod64_mod hw, Nat.shiftLeft_eq, Nat.mod_mul_mod]

theorem signed_eq_bmod (hw : 0 < w) {a : Nat} (ha : a < 2 ^ w) : signed w a = (a : Int).bmod (2 ^ w) := by
  have hp : 2 ^ (w - 1) * 2 = 2 ^ w := by rw [← Nat.pow_succ]; congr 1; omega
  unfold signed
  rw [Int.bmod_def, Int.emod_eq_of_lt (by omega) (by exact_mod_cast ha), ← two_pow_cast]
  split <;> split <;> omega

theorem sra_pattern (h0 : 0 < w) (hw : w ≤ 64) (a n : Nat) (ha : a < 2 ^ w) :
    (signed w a / (2 ^ n : Int) % (2 ^ w : Int)).toNat % 2 ^ w =
      (BitVec.ofInt 64 ((a : Int).bmod (2 ^ w) / 2 ^ n)).toNat % 2 ^ w := by
  refine Int.ofNat_inj.1 ?_
  rw [ofInt_mod hw, signed_eq_bmod h0 ha, Int.natCast_mod, Int.toNat_of_nonneg (Int.emod_nonneg _ (two_pow_pos w).ne'), two_pow_cast,
    Int.emod_emod_of_dvd _ dvd_rfl]

/-- Rotating left: the two parts of the sum have no bit in common (R355). -/
theorem rot_pattern (hw : w ≤ 64) (x : W64) {n : Nat} (hn : n < w) :
    (x.toNat % 2 ^ w * 2 ^ n % 2 ^ w + x.toNat % 2 ^ w / 2 ^ (w - n)) % 2 ^ w =
      (((x.setWidth w).rotateLeft n).setWidth 64).toNat % 2 ^ w := by
  rw [BitVec.toNat_setWidth, mod64_mod hw, BitVec.toNat_rotateLeft, Nat.mod_eq_of_lt hn, BitVec.toNat_setWidth, Nat.shiftLeft_eq,
    Nat.shiftRight_eq_div_pow]
  congr 1
  have hp : 2 ^ w = 2 ^ n * 2 ^ (w - n) := by rw [← Nat.pow_add]; congr 1; omega
  have hlow : x.toNat % 2 ^ w / 2 ^ (w - n) < 2 ^ n := by
    rw [Nat.div_lt_iff_lt_mul (Nat.two_pow_pos _), ← hp]; exact Nat.mod_lt _ (Nat.two_pow_pos _)
  have hhigh (a : Nat) : a * 2 ^ n % 2 ^ w = 2 ^ n * (a % 2 ^ (w - n)) := by
    rw [Nat.mul_comm, ← Nat.mul_mod_mul_left (2 ^ n), ← hp]
  rw [hhigh, Nat.two_pow_add_eq_or_of_lt hlow]

/-! ### Bit fields (R356) and counts (R357) -/

/-- The position of the field that slot b describes. -/
def fieldPos (b : Nat) : Nat := b % 256
/-- The length of that field within w bits. -/
def fieldLen (w b : Nat) : Nat := min (b / 256 % 256) (w - fieldPos b)

theorem fieldAt_eq (w b : Nat) : fieldAt w b = if fieldLen w b = 0 then none else some (fieldPos b, fieldLen w b) := by
  have h : (w ≤ b % 256 ∨ min (b / 256 % 256) (w - b % 256) = 0) ↔ fieldLen w b = 0 := by unfold fieldLen fieldPos; omega
  simp only [fieldAt, h]
  rfl

theorem field_within {b : Nat} (h : fieldLen w b ≠ 0) : fieldPos b + fieldLen w b ≤ w := by
  unfold fieldLen at h ⊢
  omega

/-- A field of k bits with its sign bit set, extended to w bits by ones, is the field read as signed modulo 2^w. -/
theorem signExtended_mod {k x : Nat} (hk : 0 < k) (hkw : k ≤ w) (hx : x < 2 ^ k) :
    (((if x.testBit (k - 1) then x + (2 ^ w - 2 ^ k) else x) % 2 ^ w : Nat) : Int) = (x : Int).bmod (2 ^ k) % 2 ^ w := by
  have hle : 2 ^ k ≤ 2 ^ w := Nat.pow_le_pow_right (by decide) hkw
  have hp : 2 ^ (k - 1) * 2 = 2 ^ k := by rw [← Nat.pow_succ]; congr 1; omega
  rw [← signed_eq_bmod hk hx, signed, Nat.testBit_eq_decide_div_mod_eq]
  by_cases hs : 2 ^ (k - 1) ≤ x
  · have hq : x / 2 ^ (k - 1) = 1 := Nat.div_eq_of_lt_le (by omega) (by omega)
    rw [if_pos hs, if_pos (by rw [hq]; rfl), Int.natCast_mod, Nat.cast_add, Nat.cast_sub hle, two_pow_cast, two_pow_cast,
      ← Int.add_emod_right (x - 2 ^ k : Int)]
    congr 1
    ring
  · rw [if_neg hs, if_neg (by rw [Nat.div_eq_of_lt (by omega)]; decide), Int.natCast_mod, two_pow_cast]

/-- `bfx` on patterns (R356). -/
theorem bfx_pattern (t : Ty) (a b : Nat) : bfxP t a b % 2 ^ t.width =
    (if fieldLen t.width b = 0 then 0
     else
       let x := a / 2 ^ fieldPos b % 2 ^ fieldLen t.width b
       if t.isI then BitVec.ofInt 64 ((x : Int).bmod (2 ^ fieldLen t.width b)) else BitVec.ofNat 64 x : W64).toNat % 2 ^ t.width := by
  unfold bfxP
  rw [fieldAt_eq]
  by_cases h : fieldLen t.width b = 0
  · simp [h]
  · have hw := field_within h
    simp only [if_neg h]
    cases t.isI
    · simp only [Bool.false_and, Bool.false_eq_true, if_false]
      rw [ofNat_mod (width_le t)]
    · simp only [Bool.true_and, if_true]
      refine Int.ofNat_inj.1 ?_
      rw [ofInt_mod (width_le t)]
      exact signExtended_mod (by omega) (by omega) (Nat.mod_lt _ (Nat.two_pow_pos _))

/-- A number cut at p and at p + k. -/
theorem cut_twice (a p k : Nat) : a = a % 2 ^ p + a / 2 ^ p % 2 ^ k * 2 ^ p + a / 2 ^ (p + k) * 2 ^ (p + k) := by
  have h1 := Nat.div_add_mod a (2 ^ p)
  have h2 := Nat.div_add_mod (a / 2 ^ p) (2 ^ k)
  rw [Nat.div_div_eq_div_mul, ← Nat.pow_add] at h2
  calc a = 2 ^ p * (2 ^ k * (a / 2 ^ (p + k)) + a / 2 ^ p % 2 ^ k) + a % 2 ^ p := by rw [h2, h1]
    _ = _ := by rw [Nat.pow_add]; ring

/-- `bfi` on patterns (R356). -/
theorem bfi_pattern (t : Ty) (x y : W64) (b : Nat) :
    bfiP t (x.toNat % 2 ^ t.width) b (y.toNat % 2 ^ t.width) % 2 ^ t.width =
    (if fieldLen t.width b = 0 then x
     else BitVec.ofNat 64 (x.toNat % 2 ^ t.width % 2 ^ fieldPos b + y.toNat % 2 ^ fieldLen t.width b * 2 ^ fieldPos b +
       x.toNat % 2 ^ t.width / 2 ^ (fieldPos b + fieldLen t.width b) * 2 ^ (fieldPos b + fieldLen t.width b))).toNat %
      2 ^ t.width := by
  unfold bfiP
  rw [fieldAt_eq]
  by_cases h : fieldLen t.width b = 0
  · simp [h]
  · have hw := field_within h
    have hcut := cut_twice (x.toNat % 2 ^ t.width) (fieldPos b) (fieldLen t.width b)
    simp only [if_neg h]
    rw [ofNat_mod (width_le t), Nat.mod_mod_of_dvd _ (Nat.pow_dvd_pow 2 (by omega : fieldLen t.width b ≤ t.width))]
    congr 1
    omega

theorem testBit_pattern (x : W64) {i : Nat} (hi : i < w) : (x.toNat % 2 ^ w).testBit i = x.getLsbD i := by
  rw [Nat.testBit_mod_two_pow, decide_eq_true hi, Bool.true_and, BitVec.testBit_toNat]

theorem popcount_pattern (x : W64) : popcount w (x.toNat % 2 ^ w) = (List.range w).countP fun i => x.getLsbD i := by
  unfold popcount
  rw [← List.countP_eq_length_filter]
  exact List.countP_congr fun i hi => by rw [testBit_pattern x (List.mem_range.1 hi)]

theorem lowBit_pattern (x : W64) : lowBit w (x.toNat % 2 ^ w) = ((List.range w).find? fun i => x.getLsbD i).getD w := by
  unfold lowBit
  rw [List.find?_congr fun i hi => testBit_pattern x (List.mem_range.1 hi)]

theorem leadingZeros_eq (a : Nat) : w - bitLen a = if a = 0 then w else w - 1 - Nat.log2 a := by
  unfold bitLen
  split <;> omega

theorem reverseBits_eq_bitSum (w a : Nat) : reverseBits w a = bitSum w fun i => a.testBit (w - 1 - i) := by
  unfold reverseBits bitSum
  rw [foldl_ite_add (fun i => w - 1 - i), ← Finset.sum_range_reflect]
  refine Finset.sum_congr rfl fun i hi => ?_
  rw [Nat.sub_sub_self (by have := Finset.mem_range.1 hi; omega)]

theorem reverseBits_eq_reverse (w a : Nat) : reverseBits w a = (BitVec.ofNat w a).reverse.toNat := by
  refine Nat.eq_of_testBit_eq fun i => ?_
  rw [reverseBits_eq_bitSum, testBit_bitSum, BitVec.testBit_toNat, BitVec.getLsbD_reverse, BitVec.getMsbD_eq_getLsbD,
    BitVec.getLsbD_ofNat]
  rcases Nat.lt_or_ge i w with h | h
  · simp [h, show w - 1 - i < w by omega]
  · simp [Nat.not_lt.2 h]

theorem reverseBits_pattern (hw : w ≤ 64) (x : W64) :
    reverseBits w (x.toNat % 2 ^ w) = (((x.setWidth w).reverse).setWidth 64).toNat % 2 ^ w := by
  have hx : BitVec.ofNat w (x.toNat % 2 ^ w) = x.setWidth w := by
    refine BitVec.eq_of_toNat_eq ?_
    rw [BitVec.toNat_ofNat, Nat.mod_mod, BitVec.toNat_setWidth]
  rw [reverseBits_eq_reverse, hx, BitVec.toNat_setWidth, mod64_mod hw, Nat.mod_eq_of_lt (BitVec.isLt _)]

end

/-- What `bitOp` does: the word operation that agrees with it on patterns, read back by the type (R352). -/
theorem bit_completes {v : Nat → Nat → Nat} {u : W64 → W64 → W64} {i : Instr} {f : Form} {s : State} {b : Blk} (h : s.blk? = some b)
    (he : exec i s = bitOp f v s) (hu : ∀ x y : W64,
      v (x.toNat % 2 ^ f.ty.width) (y.toNat % 2 ^ f.ty.width) % 2 ^ f.ty.width = (u x y).toNat % 2 ^ f.ty.width) :
    Completes i f (2, 3) s b (laneResult f (b.opnd s.idx f) fun l =>
      BitVec.ofInt 64 (asInt f.ty (u (lane (b.opnd s.idx f).a.vals l) (lane (b.opnd s.idx f).b.vals l)))) 0 := by
  unfold bitOp at he
  exact pat_completes _ h he _ fun _ => hu _ _

/-- Settles O2: each operation is `patOp` or `bitOp` on the patterns, and only the low bits of a result matter to Ext. -/
theorem logicShiftsAndBitFields : Obligations.LogicShiftsAndBitFields := by
  refine ⟨fun f s b h => ?_, fun f s b h => ?_⟩
  · have hw := width_le f.ty
    refine ⟨?_, ?_, ?_, ?_, ?_, ?_, ?_, ?_⟩
    · exact bit_completes h (exec_and f s) and_pattern
    · exact bit_completes h (exec_or f s) or_pattern
    · exact bit_completes h (exec_xor f s) xor_pattern
    · exact pat_completes _ h (exec_not f s) _ fun _ => not_pattern hw _
    · exact pat_completes _ h (exec_shl f s) _ fun _ => shl_pattern hw _ _
    · exact pat_completes _ h (exec_shr f s) _ fun _ => (ofNat_mod hw _).symm
    · exact pat_completes _ h (exec_sra f s) _ fun _ => sra_pattern (width_pos _) hw _ _ (Nat.mod_lt _ (Nat.two_pow_pos _))
    · exact pat_completes _ h (exec_rot f s) _ fun _ => rot_pattern hw _ (Nat.mod_lt _ (width_pos _))
  · have hw := width_le f.ty
    refine ⟨?_, ?_, ?_, ?_, ?_, ?_⟩
    · exact pat_completes _ h (exec_bfx f s) _ fun _ => bfx_pattern _ _ _
    · exact pat_completes _ h (exec_bfi f s) _ fun _ => bfi_pattern _ _ _ _
    · exact pat_completes _ h (exec_popc f s) _ fun _ => by rw [ofNat_mod hw, popcount_pattern]
    · exact pat_completes _ h (exec_clz f s) _ fun _ => by rw [ofNat_mod hw, leadingZeros_eq]
    · exact pat_completes _ h (exec_ctz f s) _ fun _ => by rw [ofNat_mod hw, lowBit_pattern]
    · exact pat_completes _ h (exec_brev f s) _ fun _ => by rw [reverseBits_pattern hw, Nat.mod_mod]

end Sys2Proof.Proofs
end

section
/-! PROOFS. Comparison, votes and shuffles (spec/12 R347, R348), from the lanes that contribute (R326). -/

namespace Sys2Proof.Proofs
open Sys2Proof.Machine Sys2Proof.Laws.Shapes

/-- All values agree with the first of them exactly when any two agree. -/
theorem all_eq_head_iff (ls : List Nat) (v : Nat → W64) :
    (ls.all fun l => v l == v (ls.headD 0)) = true ↔ ∀ l ∈ ls, ∀ m ∈ ls, v l = v m := by
  simp only [List.all_eq_true, beq_iff_eq]
  refine ⟨fun h l hl m hm => (h l hl).trans (h m hm).symm, fun h l hl => h l hl _ ?_⟩
  cases ls with
  | nil => exact absurd hl List.not_mem_nil
  | cons x xs => exact List.mem_cons_self

/-- `shfl` takes a lane by its number as an integer: from 0 to 31, and one that contributes. -/
def takenLane (o : Opnd) (n : Int) : Option Nat :=
  if 0 ≤ n ∧ n ≤ 31 ∧ (o.act.getLsbD n.toNat && o.pred.getLsbD n.toNat && !o.a.nulls.getLsbD n.toNat) = true then some n.toNat
  else none

theorem takenLane_natCast (o : Opnd) (n : Nat) : takenLane o n = (some n).filter fun m => o.contributes.getLsbD m := by
  unfold takenLane
  rw [Option.filter_some, Int.toNat_natCast, ← getLsbD_contributes]
  refine if_congr ⟨fun ⟨_, _, hc⟩ => hc, fun h => ⟨by omega, ?_, h⟩⟩ rfl rfl
  by_contra hn
  rw [BitVec.getLsbD_of_ge _ _ (by omega)] at h
  exact Bool.false_ne_true h

theorem takenLane_outside (o : Opnd) {n : Int} (h : ¬(0 ≤ n ∧ n ≤ 31)) : takenLane o n = none :=
  if_neg fun ⟨h0, h31, _⟩ => h ⟨h0, h31⟩

/-- The number of the source lane of `shfl` by its rule, over the integers (R348). -/
def shflNumber (k : ShflKind) (l x : Nat) : Int :=
  match k with
  | .idx => x | .up => l - x | .down => l + x | .xor => (l ^^^ (x % 32) : Nat)

theorem shflFrom_eq (o : Opnd) (k : ShflKind) (l : Nat) : o.shflFrom k l = takenLane o (shflNumber k l (lane o.b.vals l).toNat) := by
  unfold Opnd.shflFrom
  cases k <;> simp only [shflSource, shflNumber]
  case idx =>
    split
    · rw [takenLane_natCast]
    · rw [takenLane_outside _ (by omega)]; rfl
  case up =>
    split
    · rw [← takenLane_natCast, Nat.cast_sub (by assumption)]
    · rw [takenLane_outside _ (by omega)]; rfl
  case down =>
    split
    · rw [← takenLane_natCast, Nat.cast_add]
    · rw [takenLane_outside _ (by omega)]; rfl
  case xor => rw [takenLane_natCast]

/-- The lanes in which `shfl` is null, as one test of each lane (R348). -/
theorem shflNulls_eq (o : Opnd) (k : ShflKind) :
    ~~~o.pred ||| o.b.nulls ||| maskOf (fun l => (o.shflFrom k l).isNone && o.c.nulls.getLsbD l) =
      maskOf fun l => !o.pred.getLsbD l || o.b.nulls.getLsbD l || ((o.shflFrom k l).isNone && o.c.nulls.getLsbD l) := by
  refine BitVec.eq_of_getLsbD_eq fun l hl => ?_
  simp only [BitVec.getLsbD_or, BitVec.getLsbD_not, getLsbD_maskOf, hl, decide_true, Bool.true_and]

/-- The result of a vote for the gang, from what its bit says (R347) and where it is null (R326). -/
theorem voteResult_eq (o : Opnd) (vc : TokClass) {c : Bool} {p : Prop} [Decidable p] (h : c = true ↔ p) :
    o.result vc o.crossNulls (fun _ => if c then 1 else 0) =
      o.result vc (if lanesOf o.contributes = [] then allLanes else ~~~o.pred) fun _ => if p then 1 else 0 := by
  rw [crossNulls_eq, if_congr h rfl rfl]

/-- Settles O3: contributing lanes, votes and sources of the model are those that the statement writes out. -/
theorem compareVoteShuffle : Obligations.CompareVoteShuffle := by
  intro f r s b h
  refine ⟨?_, ?_, ?_, ?_, ?_, fun k => ?_⟩
  · refine lane_completes _ h (exec_cmp f r s) _ _ rfl fun l => ?_
    rw [ext_eq_asInt, ext_eq_asInt]
    cases r <;> rfl
  · rw [← lanesOf_contributes]
    exact completes_of _ h (exec_vote f .all s) (voteResult_eq _ _ (by simp)) rfl
  · rw [← lanesOf_contributes]
    exact completes_of _ h (exec_vote f .any s) (voteResult_eq _ _ (by simp)) rfl
  · rw [← lanesOf_contributes]
    exact completes_of _ h (exec_vote f .eq s) (voteResult_eq _ _ (all_eq_head_iff _ _)) rfl
  · simp only [← getLsbD_contributes]
    exact completes_of _ h (exec_vote f .ballot s) rfl rfl
  · refine completes_of _ h (exec_shfl f k s) ?_ rfl
    simp only [shflNulls_eq]
    simp only [shflFrom_eq]
    cases k <;> rfl

end Sys2Proof.Proofs
end

section
/-! PROOFS. Values and identities (spec/12 R330 to R333, R426, R466, R468), and the indices of the grid levels (R131, R333). -/

namespace Sys2Proof.Proofs
open Sys2Proof.Machine Sys2Proof.Laws.Shapes

/-! ### Mixed-radix digits (R131) -/

/-- The product of the extents of levels i to n − 1: how many indices one step of level i − 1 spans. -/
def spanFrom (l : Launch) (i n : Nat) : Nat := ((List.range n).drop i).foldl (fun a j => a * l.extent j) 1

theorem drop_range_cons {i n : Nat} (h : i < n) : (List.range n).drop i = i :: (List.range n).drop (i + 1) := by
  rw [List.drop_eq_getElem_cons (by simpa using h), List.getElem_range]

theorem filter_range_gt (i n : Nat) : ((List.range n).filter fun j => i < j) = (List.range n).drop (i + 1) := by
  induction n with
  | zero => simp
  | succ n ih =>
    rw [List.range_succ, List.filter_append, ih]
    rcases Nat.lt_or_ge i n with h | h
    · rw [List.drop_append_of_le_length (by simpa using h)]
      simp [h]
    · rw [List.drop_eq_nil_of_le (by rw [List.length_range]; omega), List.drop_eq_nil_of_le (by simp; omega)]
      simp [Nat.not_lt.2 h]

theorem foldl_mul_from (l : Launch) (js : List Nat) (a : Nat) :
    js.foldl (fun a j => a * l.extent j) a = a * js.foldl (fun a j => a * l.extent j) 1 := by
  induction js generalizing a with
  | nil => simp
  | cons j js ih => rw [List.foldl_cons, List.foldl_cons, ih, ih (1 * _), Nat.one_mul, Nat.mul_assoc]

theorem spanFrom_succ (l : Launch) {i n : Nat} (h : i < n) : spanFrom l i n = l.extent i * spanFrom l (i + 1) n := by
  unfold spanFrom
  rw [drop_range_cons h, List.foldl_cons, foldl_mul_from, Nat.one_mul]

theorem spanFrom_end (l : Launch) (n : Nat) : spanFrom l n n = 1 := by
  unfold spanFrom
  rw [List.drop_eq_nil_of_le (by simp)]
  rfl

/-- The digit at a level: what is left of the number above its span, within the level's extent below the first level. -/
theorem digitAt_eq (l : Launch) (first n i x : Nat) : digitAt l first n i x =
    if i = first then x / spanFrom l (i + 1) n else x / spanFrom l (i + 1) n % max 1 (l.extent i) := by
  unfold digitAt spanFrom
  rw [filter_range_gt, List.foldl_map]

theorem digitAt_lt {l : Launch} {first n i : Nat} (x : Nat) (h : i ≠ first) (he : 0 < l.extent i) :
    digitAt l first n i x < l.extent i := by
  rw [digitAt_eq, if_neg h, Nat.max_eq_right he]
  exact Nat.mod_lt _ he

/-- Horner's rule from level i on: what is left of x above that level, continued by the digits below it, gives x back. -/
theorem foldl_digits (l : Launch) {first n i x : Nat} {digit : Nat → Nat} (hi : first < i) (hin : i ≤ n)
    (hd : ∀ j, first < j → j < n → digit j = x / spanFrom l (j + 1) n % l.extent j) :
    ((List.range n).drop i).foldl (fun a j => a * l.extent j + digit j) (x / spanFrom l i n) = x := by
  induction hin using Nat.decreasingInduction with
  | self => rw [List.drop_eq_nil_of_le (by simp), spanFrom_end, Nat.div_one]; rfl
  | of_succ i h ih =>
    rw [drop_range_cons h, List.foldl_cons, hd i hi h, spanFrom_succ l h, Nat.mul_comm (l.extent i), ← Nat.div_div_eq_div_mul,
      Nat.mul_comm, Nat.div_add_mod]
    exact ih (by omega)

/-- The digits of a number over levels `first` to n − 1, the first the most significant and unbounded, give the number back. -/
theorem number_of_digits {l : Launch} {first n x : Nat} {digit : Nat → Nat} (hf : first < n) (hpos : ∀ i, i < n → 0 < l.extent i)
    (hd : ∀ i, first ≤ i → i < n → digit i = digitAt l first n i x) :
    ((List.range n).drop first).foldl (fun a i => a * l.extent i + digit i) 0 = x := by
  rw [drop_range_cons hf, List.foldl_cons, Nat.zero_mul, Nat.zero_add, hd first le_rfl hf, digitAt_eq, if_pos rfl]
  refine foldl_digits l (Nat.lt_succ_self first) hf fun j hj hjn => ?_
  rw [hd j hj.le hjn, digitAt_eq, if_neg hj.ne', Nat.max_eq_right (hpos j hjn)]

/-! ### `lid.level` (R333) -/

theorem firstGang_le (l : Launch) : l.firstGang ≤ l.nlevels := by
  unfold Launch.firstGang
  cases h : (List.range l.nlevels).find? fun i => l.domain i == 0 with
  | none => exact le_rfl
  | some i => exact (List.mem_range.1 (List.mem_of_find?_eq_some h)).le

theorem levelIndex_of_not_grid {t : Team} (h : t.kind ≠ .grid) (l : Launch) (gang i : Nat) : levelIndex l t gang i = 0 :=
  if_pos (.inl h)

theorem levelIndex_of_no_level {l : Launch} {i : Nat} (h : l.nlevels ≤ i) (t : Team) (gang : Nat) : levelIndex l t gang i = 0 :=
  if_pos (.inr h)

theorem levelIndex_team {l : Launch} {t : Team} {i : Nat} (ht : t.kind = .grid) (h : i < l.firstGang) (gang : Nat) :
    levelIndex l t gang i = digitAt l 0 l.firstGang i t.ident.toNat := by
  have hn := firstGang_le l
  unfold levelIndex
  rw [if_neg (by simp only [ht, ne_eq, not_true, false_or]; omega), if_pos h]

theorem levelIndex_gang {l : Launch} {t : Team} {i : Nat} (ht : t.kind = .grid) (h : l.firstGang ≤ i) (hi : i < l.nlevels) (gang : Nat) :
    levelIndex l t gang i = digitAt l l.firstGang l.nlevels i gang := by
  unfold levelIndex
  rw [if_neg (by simp only [ht, ne_eq, not_true, false_or]; omega), if_neg (by omega)]

theorem levelIndex_lt {l : Launch} {t : Team} {i : Nat} (ht : t.kind = .grid) (h0 : 0 < i) (hi : i < l.nlevels) (hf : i ≠ l.firstGang)
    (he : 0 < l.extent i) (gang : Nat) : levelIndex l t gang i < l.extent i := by
  rcases Nat.lt_or_ge i l.firstGang with h | h
  · rw [levelIndex_team ht h]; exact digitAt_lt _ h0.ne' he
  · rw [levelIndex_gang ht h hi]; exact digitAt_lt _ hf he

/-! ### Values and identities -/

/-- What `lid` does, from the value of its kind in each lane (R333). -/
theorem lid_completes {k : LidKind} {f : Form} {s : State} {b : Blk} (h : s.blk? = some b) {v : Nat → W64} (hv : s.lidValue k = v) :
    Completes (.lid f k) f (2, 3) s b ((b.opnd s.idx f).result f.vc (~~~(b.opnd s.idx f).pred) v) 0 := by
  subst hv
  exact completes_of _ h (exec_lid f k s) rfl rfl

/-- What `prov` does: the record is read, and what was read is left for the commit (R468). -/
theorem exec_prov_eq {f : Form} {clear : Bool} {s : State} {b : Blk} (h : s.blk? = some b) :
    exec (.prov f clear) s = .next (s.setBlk (Blk.completed
      { b with fired := b.fired ++ [{ idx := s.idx, ins := .prov f clear, lanes := (b.opnd s.idx f).live, a := provLanes s.g.prov, b := [],
                                      c := [] }] }
      s.clock s.idx f (s.clock + if s.twoPass then 3 else 2)
      ((b.opnd s.idx f).result f.vc (~~~(b.opnd s.idx f).pred) fun l => lane (provLanes s.g.prov) l) 0)) := by
  have hflags : b.flags ||| 0 = b.flags := BitVec.or_zero
  rw [exec_prov]
  unfold execProv Blk.completed
  simp only [h, hflags]
  rfl

theorem sel_completes {f : Form} {s : State} {b : Blk} (h : s.blk? = some b) :
    let o := b.opnd s.idx f
    let pick := fun (l : Nat) => if selCond o.c l then o.a else o.b
    Completes (.sel f) f (2, 3) s b (tokOf f.vc
      (if f.vc = .mask then splat ((maskOf fun l => (pick l).mask.getLsbD l).setWidth 64) else lanes fun l => lane (pick l).vals l)
      (~~~o.pred ||| o.c.nulls ||| maskOf fun l => (pick l).nulls.getLsbD l)) 0 := by
  refine completes_of _ h (exec_sel f s) ?_ ?_ <;> cases f.vc <;> rfl

/-- Settles O13: identities are the values of `compute`, and the level indices are mixed-radix digits. -/
theorem valuesAndIdentities : Obligations.ValuesAndIdentities := by
  refine ⟨fun f s b h => ⟨?_, ?_, ?_, ?_, ?_, ?_, ?_, ?_, ?_, ?_, ?_, ?_, ?_, ?_, ?_, ?_, ?_⟩,
    fun l t gang ht hpos => ⟨?_, ?_, ?_, ?_, ?_⟩⟩
  · exact completes_of _ h (exec_mov f s) rfl rfl
  · intro x hx
    exact completes_of _ h (exec_const f s) (by rw [hx]; rfl) rfl
  · exact completes_of _ h (exec_nul f s) rfl rfl
  · exact sel_completes h
  · exact lid_completes h rfl
  · exact lid_completes h rfl
  · exact lid_completes h rfl
  · exact lid_completes h rfl
  · exact lid_completes h rfl
  · exact lid_completes h rfl
  · exact lid_completes h rfl
  · exact fun n => lid_completes h rfl
  · exact completes_of _ h (exec_lclk f s) rfl rfl
  · exact completes_of _ h (exec_cyc f s) rfl rfl
  · exact completes_of _ h (exec_stalls f s) rfl rfl
  · exact fun clear => exec_prov_eq h
  · exact fun l hl => by rw [provLanes, lane_lanes, if_pos hl]
  · exact fun hf => number_of_digits hf (fun i hi => hpos i (lt_of_lt_of_le hi (firstGang_le l)))
      fun i _ hi => levelIndex_team ht hi gang
  · exact fun hf => number_of_digits hf hpos fun i hfi hi => levelIndex_gang ht hfi hi gang
  · exact fun i hi => levelIndex_of_no_level hi t gang
  · exact fun i h0 hi hf => levelIndex_lt ht h0 hi hf (hpos i hi) gang
  · exact fun u hu i => levelIndex_of_not_grid hu l gang i

end Sys2Proof.Proofs
end

section
/-! PROOFS. Minimum, maximum, comparison and classes (spec/13 R376 to R378), from the order of exact values. -/

namespace Sys2Proof.Proofs
open Sys2Proof.Machine Sys2Proof.Laws.Shapes

/-! ### The order of values (R376, R377) -/

theorem scaled_eq (n : Bool) (m : Nat) (e q : Int) : scaled n m e q = (if n then -1 else 1) * (m : Int) * 2 ^ (e - q).toNat := by
  cases n <;> simp [scaled]

/-- Counting in a finer unit 2^q multiplies the number by the quotient of the units. -/
theorem scaled_finer (n : Bool) (m : Nat) {e p q : Int} (hq : q ≤ p) (hp : p ≤ e) :
    scaled n m e q = scaled n m e p * 2 ^ (p - q).toNat := by
  have he : (e - q).toNat = (e - p).toNat + (p - q).toNat := by omega
  rw [scaled_eq, scaled_eq, he, pow_add, mul_assoc _ (2 ^ _)]

/-- Two numbers are ordered as their integers over any common unit are. -/
theorem fOrder_num {n n' : Bool} {m m' : Nat} {e e' q : Int} (he : q ≤ e) (he' : q ≤ e') :
    fOrder (.num n m e) (.num n' m' e') =
      if scaled n m e q < scaled n' m' e' q then -1 else if scaled n' m' e' q < scaled n m e q then 1 else 0 := by
  have hq : q ≤ min e e' := le_min he he'
  have hpos := two_pow_pos (min e e' - q).toNat
  rw [scaled_finer n m hq (min_le_left _ _), scaled_finer n' m' hq (min_le_right _ _)]
  simp only [fOrder, mul_lt_mul_iff_left₀ hpos]

theorem fOrder_zeros (n n' : Bool) (e : Int) : fOrder (.num n 0 e) (.num n' 0 e) = 0 := by
  rw [fOrder_num le_rfl le_rfl]
  simp [scaled_eq]

theorem fOrder_cases (a b : FVal) : fOrder a b = -1 ∨ fOrder a b = 0 ∨ fOrder a b = 1 := by
  simp only [fOrder]
  split
  case h_5 => exact .inr (.inl rfl)
  all_goals split_ifs <;> simp

/-! ### Minimum and maximum (R376) -/

theorem sigFlag_two (a b : FVal) : sigFlag [a, b] = if a = .nan true ∨ b = .nan true then fNV else 0 := by
  simp [sigFlag, @eq_comm _ (FVal.nan true)]

theorem fpMinMax_flags (t : Ty) (mx : Bool) (x y : Nat) : (fpMinMax t mx x y).2 = sigFlag [fIn t x, fIn t y] := by
  unfold fpMinMax
  simp only
  split_ifs <;> rfl

section
variable {t : Ty} {mx : Bool} {x y : Nat}

theorem fpMinMax_nans (ha : (fIn t x).isNan = true) (hb : (fIn t y).isNan = true) : (fpMinMax t mx x y).1 = t.nan := by
  simp [fpMinMax, ha, hb]

theorem fpMinMax_nan_left (ha : (fIn t x).isNan = true) (hb : (fIn t y).isNan = false) :
    (fpMinMax t mx x y).1 = y % 2 ^ t.width := by
  simp [fpMinMax, ha, hb]

theorem fpMinMax_nan_right (ha : (fIn t x).isNan = false) (hb : (fIn t y).isNan = true) :
    (fpMinMax t mx x y).1 = x % 2 ^ t.width := by
  simp [fpMinMax, ha, hb]

theorem fpMinMax_of_lt (ha : (fIn t x).isNan = false) (hb : (fIn t y).isNan = false) (h : fOrder (fIn t x) (fIn t y) = -1) :
    (fpMinMax t mx x y).1 = if mx then y % 2 ^ t.width else x % 2 ^ t.width := by
  simp [fpMinMax, ha, hb, h]

theorem fpMinMax_of_gt (ha : (fIn t x).isNan = false) (hb : (fIn t y).isNan = false) (h : fOrder (fIn t x) (fIn t y) = 1) :
    (fpMinMax t mx x y).1 = if mx then x % 2 ^ t.width else y % 2 ^ t.width := by
  simp [fpMinMax, ha, hb, h]

/-- Of values that compare equal the first is taken where its sign alone is the one sought. -/
theorem fpMinMax_of_eq (ha : (fIn t x).isNan = false) (hb : (fIn t y).isNan = false) (h : fOrder (fIn t x) (fIn t y) = 0) :
    (fpMinMax t mx x y).1 =
      if (fIn t x).neg = !mx ∧ (fIn t y).neg = mx then x % 2 ^ t.width else y % 2 ^ t.width := by
  cases mx <;> simp [fpMinMax, ha, hb, h]

/-- The result is an operand's pattern, the lower or the higher one by the order of the values. -/
theorem fpMinMax_numbers (ha : (fIn t x).isNan = false) (hb : (fIn t y).isNan = false) (hx : x < 2 ^ t.width) (hy : y < 2 ^ t.width) :
    ((fpMinMax t mx x y).1 = x ∨ (fpMinMax t mx x y).1 = y) ∧
      (fOrder (fIn t x) (fIn t y) < 0 → (fpMinMax t mx x y).1 = if mx then y else x) ∧
      (0 < fOrder (fIn t x) (fIn t y) → (fpMinMax t mx x y).1 = if mx then x else y) := by
  rcases fOrder_cases (fIn t x) (fIn t y) with h | h | h
  · rw [fpMinMax_of_lt ha hb h, h, Nat.mod_eq_of_lt hx, Nat.mod_eq_of_lt hy]
    cases mx <;> simp
  · rw [fpMinMax_of_eq ha hb h, h, Nat.mod_eq_of_lt hx, Nat.mod_eq_of_lt hy]
    refine ⟨?_, fun h => absurd h (lt_irrefl _), fun h => absurd h (lt_irrefl _)⟩
    split_ifs <;> simp
  · rw [fpMinMax_of_gt ha hb h, h, Nat.mod_eq_of_lt hx, Nat.mod_eq_of_lt hy]
    cases mx <;> simp

end

theorem signBit_lt (t : Ty) (n : Bool) : t.signBit n < 2 ^ t.width := by
  have h : 2 ^ (t.width - 1) < 2 ^ t.width := Nat.pow_lt_pow_right (by decide) (Nat.sub_one_lt (width_pos t).ne')
  cases n
  · exact Nat.two_pow_pos _
  · exact h

theorem fIn_signBit (t : Ty) (n : Bool) : fIn t (t.signBit n) = .num n 0 t.emin := by
  have hs : (t.signBit n).testBit (t.width - 1) = n := by cases n <;> simp [Ty.signBit]
  have hm : t.signBit n % 2 ^ (t.width - 1) = 0 := by cases n <;> simp [Ty.signBit]
  simp [fIn, Nat.mod_eq_of_lt (signBit_lt t n), hs, hm]

/-- Of two zeros the minimum takes −0 and the maximum +0, in whichever order they stand. -/
theorem fpMinMax_zeros (t : Ty) (mx n : Bool) :
    (fpMinMax t mx (t.signBit n) (t.signBit !n)).1 = t.signBit !mx := by
  have h : fOrder (fIn t (t.signBit n)) (fIn t (t.signBit !n)) = 0 := by rw [fIn_signBit, fIn_signBit, fOrder_zeros]
  rw [fpMinMax_of_eq (by rw [fIn_signBit]; rfl) (by rw [fIn_signBit]; rfl) h, fIn_signBit, fIn_signBit,
    Nat.mod_eq_of_lt (signBit_lt t _), Nat.mod_eq_of_lt (signBit_lt t _)]
  cases mx <;> cases n <;> rfl

/-! ### The instructions -/

/-- Settles O9: minimum and maximum by the cases of the order, which is that of integers over a common unit. -/
theorem floatCompareAndMinMax : Obligations.FloatCompareAndMinMax := by
  refine ⟨fun f r s b h => ⟨?_, ?_, ?_, ?_, ?_, ?_⟩, fun t mx x y _ hx hy => ⟨?_, ?_, ?_, ?_, ?_, ?_, ?_, ?_, ?_⟩⟩
  · exact fp_completes _ h (exec_fmin f s) _ rfl
  · exact fp_completes _ h (exec_fmax f s) _ rfl
  · refine fp_completes _ h (exec_fabs f s) _ (funext fun l => ?_)
    rw [Nat.mod_mod_of_dvd _ (Nat.pow_dvd_pow 2 (Nat.sub_le _ 1))]
    rfl
  · exact fp_completes _ h (exec_fneg f s) _ rfl
  · exact fp_completes _ h (exec_fclass f s) _ rfl
  · -- the relations that signal raise NV for any NaN, the others for a signalling one only (R377)
    refine fp_completes _ h (exec_fcmp f r s) _ (funext fun l => ?_)
    unfold fcmpHolds
    cases r <;> simp only [sigFlag_two, ite_or, Bool.false_eq_true, if_false] <;> rfl
  · exact fpMinMax_nans
  · exact fun ha hb => (fpMinMax_nan_left ha hb).trans (Nat.mod_eq_of_lt hy)
  · exact fun ha hb => (fpMinMax_nan_right ha hb).trans (Nat.mod_eq_of_lt hx)
  · exact fun ha hb => fpMinMax_numbers ha hb hx hy
  · exact (fpMinMax_zeros t mx true).trans (by cases mx <;> rfl)
  · exact (fpMinMax_zeros t mx false).trans (by cases mx <;> rfl)
  · intro n n' m m' e e' q he he'
    rw [fOrder_num he he', scaled_eq, scaled_eq]
    exact ⟨rfl, rfl, rfl, rfl⟩
  · intro n m e
    exact ⟨rfl, rfl, rfl, rfl, rfl, rfl, fun hm => if_neg hm.ne'⟩
  · exact (fpMinMax_flags t mx x y).trans (sigFlag_two _ _)

end Sys2Proof.Proofs
end

section
/-! PROOFS. Encoded instructions decode to themselves, alone and one after another (spec/11 R306 to R319). -/

namespace Sys2Proof.Proofs
open Sys2Proof.Machine Sys2Proof.Laws

/-- The words of a well-formed instruction decode to it, whatever follows them; a package step has no signature. -/
theorem decodeWords_encode (i : Instr) : RoundTrip.Statement i := by
  cases i with
  | rd f r => exact RoundTrip.rd f r
  | wr f r => exact RoundTrip.wr f r
  | mov f => exact RoundTrip.mov f
  | const f => exact RoundTrip.const f
  | nul f => exact RoundTrip.nul f
  | sel f => exact RoundTrip.sel f
  | lid f k => exact RoundTrip.lid f k
  | br f disp => exact RoundTrip.br f disp
  | bl f disp => exact RoundTrip.bl f disp
  | jr f => exact RoundTrip.jr f
  | regang f disp => exact RoundTrip.regang f disp
  | exit f => exact RoundTrip.exit f
  | yield f => exact RoundTrip.yield f
  | rquota f => exact RoundTrip.rquota f
  | spawn f disp => exact RoundTrip.spawn f disp
  | enq f => exact RoundTrip.enq f
  | chunk f => exact RoundTrip.chunk f
  | qsend f => exact RoundTrip.qsend f
  | qtake f => exact RoundTrip.qtake f
  | add f => exact RoundTrip.add f
  | sub f => exact RoundTrip.sub f
  | mul f => exact RoundTrip.mul f
  | mulhi f => exact RoundTrip.mulhi f
  | mad f => exact RoundTrip.mad f
  | div f => exact RoundTrip.div f
  | rem f => exact RoundTrip.rem f
  | adc f => exact RoundTrip.adc f
  | sbc f => exact RoundTrip.sbc f
  | min f => exact RoundTrip.min f
  | max f => exact RoundTrip.max f
  | abs f => exact RoundTrip.abs f
  | neg f => exact RoundTrip.neg f
  | adr f => exact RoundTrip.adr f
  | cvt f src => exact RoundTrip.cvt f src
  | and f => exact RoundTrip.and f
  | or f => exact RoundTrip.or f
  | xor f => exact RoundTrip.xor f
  | not f => exact RoundTrip.not f
  | shl f => exact RoundTrip.shl f
  | shr f => exact RoundTrip.shr f
  | sra f => exact RoundTrip.sra f
  | rot f => exact RoundTrip.rot f
  | bfx f => exact RoundTrip.bfx f
  | bfi f => exact RoundTrip.bfi f
  | popc f => exact RoundTrip.popc f
  | clz f => exact RoundTrip.clz f
  | ctz f => exact RoundTrip.ctz f
  | brev f => exact RoundTrip.brev f
  | cmp f rel => exact RoundTrip.cmp f rel
  | vote f k => exact RoundTrip.vote f k
  | shfl f k => exact RoundTrip.shfl f k
  | redux f op => exact RoundTrip.redux f op
  | scan f op excl => exact RoundTrip.scan f op excl
  | kand f => exact RoundTrip.kand f
  | kor f => exact RoundTrip.kor f
  | kxor f => exact RoundTrip.kxor f
  | knot f => exact RoundTrip.knot f
  | kpop f => exact RoundTrip.kpop f
  | kfst f => exact RoundTrip.kfst f
  | fadd f => exact RoundTrip.fadd f
  | fsub f => exact RoundTrip.fsub f
  | fmul f => exact RoundTrip.fmul f
  | fma f => exact RoundTrip.fma f
  | fdiv f => exact RoundTrip.fdiv f
  | fsqrt f => exact RoundTrip.fsqrt f
  | frcp f => exact RoundTrip.frcp f
  | frsqrt f => exact RoundTrip.frsqrt f
  | fmin f => exact RoundTrip.fmin f
  | fmax f => exact RoundTrip.fmax f
  | fabs f => exact RoundTrip.fabs f
  | fneg f => exact RoundTrip.fneg f
  | fcmp f rel => exact RoundTrip.fcmp f rel
  | fclass f => exact RoundTrip.fclass f
  | fcvt f src => exact RoundTrip.fcvt f src
  | fcvti f src => exact RoundTrip.fcvti f src
  | icvtf f src => exact RoundTrip.icvtf f src
  | frnd f => exact RoundTrip.frnd f
  | fldx f => exact RoundTrip.fldx f
  | ffrx f => exact RoundTrip.ffrx f
  | fexp f => exact RoundTrip.fexp f
  | fexp2 f => exact RoundTrip.fexp2 f
  | flog f => exact RoundTrip.flog f
  | flog2 f => exact RoundTrip.flog2 f
  | fsin f => exact RoundTrip.fsin f
  | fcos f => exact RoundTrip.fcos f
  | ftanh f => exact RoundTrip.ftanh f
  | flgst f => exact RoundTrip.flgst f
  | ferf f => exact RoundTrip.ferf f
  | fatan2 f => exact RoundTrip.fatan2 f
  | fpow f => exact RoundTrip.fpow f
  | pfma f => exact RoundTrip.pfma f
  | padd f => exact RoundTrip.padd f
  | pmul f => exact RoundTrip.pmul f
  | pmax f => exact RoundTrip.pmax f
  | pcvt f k src => exact RoundTrip.pcvt f k src
  | pdot f => exact RoundTrip.pdot f
  | xclr f j => exact RoundTrip.xclr f j
  | xacc f j => exact RoundTrip.xacc f j
  | xadd f j => exact RoundTrip.xadd f j
  | xrnd f j => exact RoundTrip.xrnd f j
  | xsgn f j => exact RoundTrip.xsgn f j
  | ld f m => exact RoundTrip.ld f m
  | ldp f m => exact RoundTrip.ldp f m
  | st f m => exact RoundTrip.st f m
  | atom f m => exact RoundTrip.atom f m
  | cas f m => exact RoundTrip.cas f m
  | red f m => exact RoundTrip.red f m
  | pref f m => exact RoundTrip.pref f m
  | fence f lsid => exact RoundTrip.fence f lsid
  | smap f lsid => exact RoundTrip.smap f lsid
  | sunmap f lsid => exact RoundTrip.sunmap f lsid
  | swb f lsid => exact RoundTrip.swb f lsid
  | sinv f lsid => exact RoundTrip.sinv f lsid
  | halloc f lsid => exact RoundTrip.halloc f lsid
  | hfree f lsid => exact RoundTrip.hfree f lsid
  | wait f st cp ta sf => exact RoundTrip.wait f st cp ta sf
  | waitr f path => exact RoundTrip.waitr f path
  | semAcq f s m => exact RoundTrip.semAcq f s m
  | semRel f s m => exact RoundTrip.semRel f s m
  | semTry f s m => exact RoundTrip.semTry f s m
  | barInit f b => exact RoundTrip.barInit f b
  | barArr f b => exact RoundTrip.barArr f b
  | barWait f b => exact RoundTrip.barWait f b
  | barAw f b => exact RoundTrip.barAw f b
  | barDrop f b => exact RoundTrip.barDrop f b
  | barTx f b => exact RoundTrip.barTx f b
  | barGen f b => exact RoundTrip.barGen f b
  | tlwait f => exact RoundTrip.tlwait f
  | tlread f => exact RoundTrip.tlread f
  | dsync f => exact RoundTrip.dsync f
  | lclk f => exact RoundTrip.lclk f
  | prov f clear => exact RoundTrip.prov f clear
  | stalls f => exact RoundTrip.stalls f
  | tmma f a => exact RoundTrip.tmma f a
  | tdist f a => exact RoundTrip.tdist f a
  | ttopk f zs zd k1 largest => exact RoundTrip.ttopk f zs zd k1 largest
  | tld f z => exact RoundTrip.tld f z
  | tst f z => exact RoundTrip.tst f z
  | tclr f z => exact RoundTrip.tclr f z
  | tcvt f z trans src => exact RoundTrip.tcvt f z trans src
  | trmax f z => exact RoundTrip.trmax f z
  | trsum f z => exact RoundTrip.trsum f z
  | trscl f z => exact RoundTrip.trscl f z
  | cpy f p1 => exact RoundTrip.cpy f p1
  | cpyg f p1 => exact RoundTrip.cpyg f p1
  | cpyx f p1 => exact RoundTrip.cpyx f p1
  | cfill f p1 => exact RoundTrip.cfill f p1
  | trc f => exact RoundTrip.trc f
  | pfill f => exact RoundTrip.pfill f
  | pcopy f => exact RoundTrip.pcopy f
  | pcmp f => exact RoundTrip.pcmp f
  | predx f elem fn => exact RoundTrip.predx f elem fn
  | pgath f elem fn => exact RoundTrip.pgath f elem fn
  | pmap f => exact RoundTrip.pmap f
  | punmap f => exact RoundTrip.punmap f
  | tlbinv f => exact RoundTrip.tlbinv f
  | sysrd f r => exact RoundTrip.sysrd f r
  | syswr f r => exact RoundTrip.syswr f r
  | trap f sub => exact RoundTrip.trap f sub
  | tret f => exact RoundTrip.tret f
  | brk f => exact RoundTrip.brk f
  | cyc f => exact RoundTrip.cyc f
  | waitc f => exact RoundTrip.waitc f
  | halt f => exact RoundTrip.halt f
  | _ => exact fun _ hs => absurd hs Bool.false_ne_true

/-- What decoding from the front of a list of words says of the words that the instruction takes. -/
theorem takeInstr_of_decodeWords {ws r : List W32} {i : Instr} (h : decodeWords ws = .ok (i, r)) :
    ∃ t, takeInstr ws = some t ∧ decodeTaken t = .ok i ∧ t.rest = r := by
  unfold decodeWords at h
  cases ht : takeInstr ws with
  | none => simp [ht] at h
  | some t =>
    cases hd : decodeTaken t with
    | error e => simp [ht, hd, Except.map] at h
    | ok j =>
      simp only [ht, hd, Except.map, Except.ok.injEq, Prod.mk.injEq] at h
      exact ⟨t, rfl, by rw [hd, h.1], h.2⟩

theorem length_encode {i : Instr} (h : i.wf = true) (hs : i.sig.isSome = true) : 1 ≤ (encode i).length ∧ (encode i).length ≤ 5 := by
  obtain ⟨g, hg⟩ := Option.isSome_iff_exists.1 hs
  unfold Instr.wf at h
  cases hf : i.form <;> cases ho : i.op <;> simp only [hg, hf, ho, Bool.false_eq_true] at h
  rename_i f o
  unfold encode
  rw [hf, ho]
  dsimp only
  cases f.ext <;> cases f.lit <;> simp

/-- The walk over the words of a list of instructions gives the list, when its fuel is no less than the number of them (R306). -/
theorem walk_encode {is : List Instr} (h : ∀ i ∈ is, i.wf = true ∧ i.sig.isSome = true) {n : Nat} (hn : is.length ≤ n) :
    walk n (is.flatMap encode) = is.map .ok := by
  induction is generalizing n with
  | nil => cases n <;> rfl
  | cons i is ih =>
    obtain ⟨n, rfl⟩ : ∃ m, n = m + 1 := ⟨n - 1, by simp at hn; omega⟩
    obtain ⟨hw, hs⟩ := h i (by simp)
    obtain ⟨t, ht, hd, hr⟩ := takeInstr_of_decodeWords (decodeWords_encode i hw hs (is.flatMap encode))
    have hwalk : walk (n + 1) (encode i ++ is.flatMap encode) = decodeTaken t :: walk n t.rest := by
      obtain ⟨w, ws, hws⟩ := List.exists_cons_of_length_pos (length_encode hw hs).1
      rw [hws, List.cons_append] at ht ⊢
      simp only [walk, ht]
    rw [List.flatMap_cons, hwalk, hd, hr, ih (fun j hj => h j (by simp [hj])) (by simpa using hn), List.map_cons]

theorem length_le_flatMap_encode {is : List Instr} (h : ∀ i ∈ is, i.wf = true ∧ i.sig.isSome = true) :
    is.length ≤ (is.flatMap encode).length := by
  induction is with
  | nil => exact Nat.zero_le _
  | cons i is ih =>
    have hi := (length_encode (h i (by simp)).1 (h i (by simp)).2).1
    have := ih fun j hj => h j (by simp [hj])
    rw [List.flatMap_cons, List.length_append, List.length_cons]
    omega

/-! Fields of a word as numbers: what is laid out by `++` and read by `extractLsb'` is compared by division and remainder. -/

theorem toNat_layout {n m : Nat} (x : BitVec n) (y : BitVec m) : (x ++ y).toNat = x.toNat * 2 ^ m + y.toNat := by
  rw [BitVec.toNat_append, ← Nat.shiftLeft_add_eq_or_of_lt y.isLt, Nat.shiftLeft_eq]

theorem toNat_field {n : Nat} (s k : Nat) (x : BitVec n) : (x.extractLsb' s k).toNat = x.toNat / 2 ^ s % 2 ^ k := by
  rw [BitVec.extractLsb'_toNat, Nat.shiftRight_eq_div_pow]

/-- The four bytes of a word, put together again. -/
theorem word_of_bytes (w : W32) : (w.extractLsb' 24 8 ++ w.extractLsb' 16 8 ++ w.extractLsb' 8 8 ++ w.extractLsb' 0 8 : W32) = w := by
  apply BitVec.eq_of_toNat_eq
  simp only [toNat_layout, toNat_field]
  omega

theorem wordsOfBytes_flatMap (ws : List W32) : wordsOfBytes (ws.flatMap bytesOfWord) = ws := by
  induction ws with
  | nil => rfl
  | cons w ws ih =>
    rw [List.flatMap_cons]
    simp only [bytesOfWord, List.cons_append, List.nil_append, wordsOfBytes]
    rw [word_of_bytes]
    exact congrArg _ ih

/-- Settles O44: the walk takes one instruction at a time, each by its own round trip. -/
theorem encodedBlocksDecode : Obligations.EncodedBlocksDecode := by
  refine fun is h => ⟨walk_encode h (length_le_flatMap_encode h), fun i hi => ?_⟩
  obtain ⟨hw, hs⟩ := h i hi
  refine ⟨?_, length_encode hw hs⟩
  have := decodeWords_encode i hw hs []
  rw [List.append_nil] at this
  rw [decode, wordsOfBytes_flatMap, this]
  rfl

end Sys2Proof.Proofs
end

section
/-! PROOFS. What decodes is well formed and is its own encoding (spec/11 R307 to R319): the decoder read backwards, field by field. -/

namespace Sys2Proof.Proofs
open Sys2Proof.Machine Sys2Proof.Laws

/-! ### Field codes -/

theorem slot_ofCode (x : BitVec 2) : (Slot.ofCode x).code = x := by revert x; decide
theorem target_ofBits (x : BitVec 9) : (Target.ofBits x).bits = x := by
  unfold Target.bits Target.ofBits
  rw [slot_ofCode]
  apply BitVec.eq_of_toNat_eq
  simp only [toNat_layout, toNat_field]
  omega
theorem pred_ofCode {x : BitVec 2} : x ≠ 3 → (Pred.ofCode x).code = x := by revert x; decide
theorem class_ofCode {x : BitVec 2} : x ≠ 3 → (TokClass.ofCode x).code = x := by revert x; decide
theorem type_ofCode {x : BitVec 5} {t : Ty} : Ty.ofCode x = some t → t.code = x := by revert x t; decide
theorem space_ofCode {x : BitVec 3} {a : Space} : Space.ofCode x = some a → a.code = x := by
  revert x; cases a <;> decide
theorem sysreg_ofCode {x : BitVec 8} {r : SysReg} : SysReg.ofCode x = some r → r.code = x := by
  revert x; cases r <;> decide
theorem path_ofCode (x : BitVec 2) : (Path.ofCode x).code = x.setWidth 26 := by revert x; decide
theorem badgerFn_ofCode {x : BitVec 2} : x ≠ 3 → (BadgerFn.ofCode x).code = x := by revert x; decide
theorem cmp_ofCode {x : BitVec 6} : x < 6 → (CmpRel.ofCode x).code = x := by revert x; decide
theorem fcmp_ofCode {x : BitVec 6} : x < 8 → (FCmpRel.ofCode x).code = x := by revert x; decide
theorem vote_ofCode {x : BitVec 6} : x < 4 → (VoteKind.ofCode x).code = x := by revert x; decide
theorem shfl_ofCode {x : BitVec 6} : x < 4 → (ShflKind.ofCode x).code = x := by revert x; decide
theorem redOp_ofCode {x : BitVec 6} : x < 6 → (RedOp.ofCode x).code = x := by revert x; decide
theorem pcvt_ofCode {x : BitVec 6} : x < 5 → (PcvtKind.ofCode x).code = x := by revert x; decide

theorem redOf_code {w : W32} (t : Ty) (h : sub w < 6) : (redOf w t).code = sub w := by
  rw [redOf, if_pos h, redOp_ofCode h]

/-! ### The words W0 and W1 -/

theorem ofBool_bit {n : Nat} (w : BitVec n) (i : Nat) : BitVec.ofBool (w.getLsbD i) = w.extractLsb' i 1 := by
  ext j hj
  obtain rfl : j = 0 := by omega
  simp

/-- W0 from its fields, where PR and VC hold no reserved code (R308). -/
theorem w0_of_fields (w : W32) {f : Form} (hl : f.lit.isSome = w.getLsbD 31) (he : f.ext = w.getLsbD 30)
    (hp : f.pr.code = w.extractLsb' 20 2) (hv : f.vc.code = w.extractLsb' 18 2) (h0 : f.t0.bits = w.extractLsb' 9 9)
    (h1 : f.t1.bits = w.extractLsb' 0 9) : w0Of (opOf w) f = w := by
  unfold w0Of opOf
  rw [hl, he, hp, hv, h0, h1, ofBool_bit, ofBool_bit]
  apply BitVec.eq_of_toNat_eq
  simp only [toNat_layout, toNat_field]
  omega

/-- W1 from its fields (R310). -/
theorem w1_of_fields (w : W32) {f : Form} (ht : f.ty.code = w.extractLsb' 27 5) (hr : f.rm = w.extractLsb' 24 3)
    (hs : f.sc = w.extractLsb' 21 3) (hc : f.cp = w.extractLsb' 18 3) (h2 : f.t2.bits = w.extractLsb' 9 9)
    (h3 : f.t3.bits = w.extractLsb' 0 9) : w1Of f = w := by
  unfold w1Of
  rw [ht, hr, hs, hc, h2, h3]
  apply BitVec.eq_of_toNat_eq
  simp only [toNat_layout, toNat_field]
  omega

/-! ### W2 -/

/-- What the opcode map answers for an opcode, the common fields and W2 names them all, when it accepts W2. -/
def Reads (o : BitVec 8) (f : Form) (w : W32) (p : Instr × Bool) : Prop :=
  p.2 = true → p.1.op = some o ∧ p.1.form = some f ∧ p.1.w2 = w

section
variable {o : BitVec 8} {f : Form} {w : W32}

/-- An instruction of class D, or one whose W2 has been compared with its own. -/
theorem reads_of {i : Instr} {c : Bool} (ho : i.op = some o) (hf : i.form = some f) (hw : c = true → i.w2 = w) : Reads o f w (i, c) :=
  fun hc => ⟨ho, hf, hw hc⟩

/-- Class D: W2 is the displacement. -/
theorem reads_disp {i : W32 → Instr} (ho : ∀ x, (i x).op = some o) (hf : ∀ x, (i x).form = some f) (hw : ∀ x, (i x).w2 = x) :
    Reads o f w (i w, true) :=
  reads_of (ho _) (hf _) fun _ => hw _

theorem reads_zero {i : Instr} (ho : i.op = some o) (hf : i.form = some f) (hw : i.w2 = 0) : Reads o f w (i, w == 0) :=
  reads_of ho hf fun h => hw.trans (beq_iff_eq.1 h).symm

/-- A class S word whose SUB is zero and whose ARG is one field of its low bits. -/
theorem arg_of_field {n k : Nat} (hn : n + k = 32) (h26 : n.ble 26 = true) (h : (w.extractLsb' n k == 0) = true) :
    sW2 0 ((w.extractLsb' 0 n).setWidth 26) = w := by
  have hz : w.toNat / 2 ^ n % 2 ^ k = 0 := by rw [← toNat_field, beq_iff_eq.1 h]; rfl
  have hlt : w.toNat / 2 ^ n < 2 ^ k := Nat.div_lt_of_lt_mul (by rw [← Nat.pow_add, hn]; exact w.isLt)
  rw [Nat.mod_eq_of_lt hlt] at hz
  have hw : w.toNat < 2 ^ n := (Nat.div_eq_zero_iff_lt (Nat.two_pow_pos n)).1 hz
  have hp : 2 ^ n ≤ 2 ^ 26 := Nat.pow_le_pow_right (by decide) (Nat.le_of_ble_eq_true h26)
  rw [arg_wide]
  apply BitVec.eq_of_toNat_eq
  rw [BitVec.toNat_setWidth, BitVec.toNat_setWidth, toNat_field, Nat.pow_zero, Nat.div_one, Nat.mod_eq_of_lt hw, Nat.mod_eq_of_lt (by omega),
    Nat.mod_eq_of_lt (by omega)]

theorem reads_field {n k : Nat} {i : BitVec n → Instr} (ho : ∀ x, (i x).op = some o) (hf : ∀ x, (i x).form = some f)
    (hw : ∀ x, (i x).w2 = sW2 0 (x.setWidth 26)) (hn : n + k = 32) (h26 : n.ble 26 = true) :
    Reads o f w (i (w.extractLsb' 0 n), w.extractLsb' n k == 0) :=
  reads_of (ho _) (hf _) fun h => (hw _).trans (arg_of_field hn h26 h)

theorem reads_lsid {i : BitVec 5 → Instr} (ho : ∀ x, (i x).op = some o) (hf : ∀ x, (i x).form = some f)
    (hw : ∀ x, (i x).w2 = x ++ (0 : BitVec 27)) : Reads o f w (i (w.extractLsb' 27 5), w.extractLsb' 0 27 == 0) := by
  refine reads_of (ho _) (hf _) fun h => (hw _).trans ?_
  have hz := congrArg BitVec.toNat (beq_iff_eq.1 h)
  apply BitVec.eq_of_toNat_eq
  simp only [toNat_layout, toNat_field, BitVec.ofNat_eq_ofNat, BitVec.toNat_ofNat] at hz ⊢
  omega

theorem reads_ty {i : Ty → Instr} (ho : ∀ x, (i x).op = some o) (hf : ∀ x, (i x).form = some f)
    (hw : ∀ x, (i x).w2 = sW2 0 (x.code.setWidth 26)) : Reads o f w (tyArg w i) := by
  unfold tyArg
  cases ht : Ty.ofCode (w.extractLsb' 0 5) with
  | none => exact fun h => nomatch h
  | some t => exact reads_of (ho _) (hf _) fun h => by rw [hw, type_ofCode ht, arg_of_field rfl rfl h]

theorem reads_sysreg {vc : TokClass} {i : SysReg → Instr} (ho : ∀ x, (i x).op = some o) (hf : ∀ x, (i x).form = some f)
    (hw : ∀ x, (i x).w2 = sW2 0 (x.code.setWidth 26)) : Reads o f w (sysArg w vc i) := by
  unfold sysArg
  cases hr : SysReg.ofCode (w.extractLsb' 0 8) with
  | none => exact fun h => nomatch h
  | some r => exact reads_of (ho _) (hf _) fun h => by rw [hw, sysreg_ofCode hr, arg_of_field rfl rfl h]

theorem reads_reg {vc : TokClass} {i : Reg → Instr} (ho : ∀ x, (i x).op = some o) (hf : ∀ x, (i x).form = some f)
    (hw : ∀ x, (i x).w2 = x.w2) : Reads o f w (regArg w vc i) := by
  unfold regArg
  split_ifs with h0 h1 h2
  case neg => exact fun h => nomatch h
  all_goals
    refine reads_of (ho _) (hf _) fun h => (hw _).trans ?_
    have hz := congrArg BitVec.toNat (beq_iff_eq.1 h)
    apply BitVec.eq_of_toNat_eq
  · have hc := congrArg BitVec.toNat h0
    simp only [Reg.w2, toNat_layout, toNat_field, BitVec.ofNat_eq_ofNat, BitVec.toNat_ofNat] at hz hc ⊢
    omega
  · have hc := congrArg BitVec.toNat h1
    simp only [Reg.w2, toNat_layout, toNat_field, BitVec.ofNat_eq_ofNat, BitVec.toNat_ofNat] at hz hc ⊢
    omega
  · have hc := congrArg BitVec.toNat h2
    simp only [Reg.w2, toNat_layout, toNat_field, BitVec.ofNat_eq_ofNat, BitVec.toNat_ofNat] at hz hc ⊢
    omega

theorem reads_mem {i : MemArg → Instr} (ho : ∀ x, (i x).op = some o) (hf : ∀ x, (i x).form = some f) (hw : ∀ x, (i x).w2 = x.w2) :
    Reads o f w (memArg w i) := by
  unfold memArg
  cases ha : Space.ofCode (w.extractLsb' 24 3) with
  | none => exact fun h => nomatch h
  | some a =>
    refine reads_of (ho _) (hf _) fun _ => (hw _).trans ?_
    unfold MemArg.w2
    rw [space_ofCode ha]
    apply BitVec.eq_of_toNat_eq
    simp only [toNat_layout, toNat_field]
    omega

theorem reads_mma {i : MmaArg → Instr} (ho : ∀ x, (i x).op = some o) (hf : ∀ x, (i x).form = some f)
    (hw : ∀ x, (i x).w2 = sW2 0 x.arg) : Reads o f w (mmaArg w i) := by
  unfold mmaArg
  cases ht : Ty.ofCode (w.extractLsb' 11 5) with
  | none => exact fun h => nomatch h
  | some t =>
    refine reads_of (ho _) (hf _) fun h => (hw _).trans ?_
    have hz := congrArg BitVec.toNat (beq_iff_eq.1 h)
    unfold MmaArg.arg sW2 boolBit1
    rw [type_ofCode ht, ofBool_bit, ofBool_bit]
    apply BitVec.eq_of_toNat_eq
    simp only [toNat_layout, toNat_field, BitVec.ofNat_eq_ofNat, BitVec.toNat_ofNat] at hz ⊢
    omega

theorem reads_badger {i : Ty → BadgerFn → Instr} (ho : ∀ x y, (i x y).op = some o) (hf : ∀ x y, (i x y).form = some f)
    (hw : ∀ x y, (i x y).w2 = sW2 0 ((0 : BitVec 19) ++ y.code ++ x.code)) : Reads o f w (badgerArg w i) := by
  unfold badgerArg
  cases ht : Ty.ofCode (w.extractLsb' 0 5) with
  | none => exact fun h => nomatch h
  | some t =>
    refine reads_of (ho _ _) (hf _ _) fun h => (hw _ _).trans ?_
    obtain ⟨h3, h0⟩ := Bool.and_eq_true_iff.1 h
    have hz := congrArg BitVec.toNat (beq_iff_eq.1 h0)
    unfold sW2
    rw [type_ofCode ht, badgerFn_ofCode (bne_iff_ne.1 h3)]
    apply BitVec.eq_of_toNat_eq
    simp only [toNat_layout, toNat_field, BitVec.ofNat_eq_ofNat, BitVec.toNat_ofNat] at hz ⊢
    omega

theorem sub_arg (w : W32) : sW2 (sub w) (arg w) = w := by
  unfold sW2 sub arg
  apply BitVec.eq_of_toNat_eq
  simp only [toNat_layout, toNat_field]
  omega

/-- A class S word whose SUB stands for the operand and whose ARG is zero. -/
theorem reads_sub {n : BitVec 6} {i : Instr} {c : BitVec 6} (ho : i.op = some o) (hf : i.form = some f) (hw : i.w2 = sW2 c 0)
    (hc : sub w < n → c = sub w) : Reads o f w (i, decide (sub w < n) && arg w == 0) := by
  refine reads_of ho hf fun h => hw.trans ?_
  obtain ⟨hs, ha⟩ := Bool.and_eq_true_iff.1 h
  rw [hc (of_decide_eq_true hs), ← beq_iff_eq.1 ha, sub_arg]

theorem lidOf_word {k : LidKind} (h : lidOf w = some k) : lidW2 k = w := by
  unfold lidOf at h
  split_ifs at h with h4 h0 h0
  · obtain rfl := Option.some.inj h
    have hs := congrArg BitVec.toNat h4
    have hz := congrArg BitVec.toNat h0
    unfold lidW2 sW2
    unfold sub at hs
    apply BitVec.eq_of_toNat_eq
    simp only [toNat_layout, toNat_field, BitVec.toNat_setWidth, BitVec.ofNat_eq_ofNat, BitVec.toNat_ofNat] at hs hz ⊢
    omega
  · rw [← sub_arg w, not_not.1 h0]
    split at h
    case h_8 => cases h
    all_goals
      rename_i hs
      obtain rfl := Option.some.inj h
      exact congrArg (sW2 · 0) (BitVec.eq_of_toNat_eq hs.symm)

theorem reads_lid (ho : ∀ k, (Instr.lid f k).op = some o) : Reads o f w ((lidOf w).elim (.lid f .team, false) fun k => (.lid f k, true)) := by
  cases hk : lidOf w with
  | none => exact fun h => nomatch h
  | some k => exact reads_of (ho k) rfl fun _ => lidOf_word hk

theorem scan_w2 (h : (decide (sub w < 6) && w.extractLsb' 1 25 == 0) = true) : (Instr.scan f (redOf w f.ty) (w.getLsbD 0)).w2 = w := by
  obtain ⟨hs, hz⟩ := Bool.and_eq_true_iff.1 h
  have hz := congrArg BitVec.toNat (beq_iff_eq.1 hz)
  show sW2 (redOf w f.ty).code (boolBit (w.getLsbD 0)) = w
  rw [redOf_code _ (of_decide_eq_true hs), boolBit, ofBool_bit]
  unfold sW2 sub
  apply BitVec.eq_of_toNat_eq
  simp only [toNat_layout, toNat_field, BitVec.toNat_setWidth, BitVec.ofNat_eq_ofNat, BitVec.toNat_ofNat] at hz ⊢
  omega

theorem reads_pcvt (ho : ∀ k t, (Instr.pcvt f k t).op = some o) : Reads o f w ((Ty.ofCode (w.extractLsb' 0 5)).elim (.pcvt f (PcvtKind.ofCode (sub w)) .f16, false)
    fun t => (.pcvt f (PcvtKind.ofCode (sub w)) t, decide (sub w < 5) && w.extractLsb' 5 21 == 0)) := by
  cases ht : Ty.ofCode (w.extractLsb' 0 5) with
  | none => exact fun h => nomatch h
  | some t =>
    refine reads_of (ho ..) rfl fun h => ?_
    obtain ⟨hs, hz⟩ := Bool.and_eq_true_iff.1 h
    have hz := congrArg BitVec.toNat (beq_iff_eq.1 hz)
    show sW2 (PcvtKind.ofCode (sub w)).code (t.code.setWidth 26) = w
    rw [pcvt_ofCode (of_decide_eq_true hs), type_ofCode ht]
    unfold sW2 sub
    apply BitVec.eq_of_toNat_eq
    simp only [toNat_layout, toNat_field, BitVec.toNat_setWidth, BitVec.ofNat_eq_ofNat, BitVec.toNat_ofNat] at hz ⊢
    omega

theorem reads_tcvt (ho : ∀ z c t, (Instr.tcvt f z c t).op = some o) : Reads o f w ((Ty.ofCode (w.extractLsb' 5 5)).elim (.tcvt f 0 false .mask, false)
    fun t => (.tcvt f (w.extractLsb' 0 4) (w.getLsbD 4) t, w.extractLsb' 10 22 == 0)) := by
  cases ht : Ty.ofCode (w.extractLsb' 5 5) with
  | none => exact fun h => nomatch h
  | some t =>
    refine reads_of (ho ..) rfl fun h => ?_
    have hz := congrArg BitVec.toNat (beq_iff_eq.1 h)
    show sW2 0 ((0 : BitVec 16) ++ t.code ++ boolBit1 (w.getLsbD 4) ++ w.extractLsb' 0 4) = w
    rw [type_ofCode ht, boolBit1, ofBool_bit]
    unfold sW2
    apply BitVec.eq_of_toNat_eq
    simp only [toNat_layout, toNat_field, BitVec.ofNat_eq_ofNat, BitVec.toNat_ofNat] at hz ⊢
    omega

theorem wait_w2 (h : (w.extractLsb' 24 8 == 0) = true) :
    (Instr.wait f (w.extractLsb' 18 6) (w.extractLsb' 12 6) (w.extractLsb' 6 6) (w.extractLsb' 0 6)).w2 = w := by
  have hz := congrArg BitVec.toNat (beq_iff_eq.1 h)
  simp only [Instr.w2, sW2]
  apply BitVec.eq_of_toNat_eq
  simp only [toNat_layout, toNat_field, BitVec.ofNat_eq_ofNat, BitVec.toNat_ofNat] at hz ⊢
  omega

theorem reads_sem {i : BitVec 6 → BitVec 10 → Instr} (ho : ∀ x y, (i x y).op = some o) (hf : ∀ x y, (i x y).form = some f)
    (hw : ∀ x y, (i x y).w2 = sW2 0 ((0 : BitVec 10) ++ y ++ x)) :
    Reads o f w (i (w.extractLsb' 0 6) (w.extractLsb' 6 10), w.extractLsb' 16 16 == 0) := by
  refine reads_of (ho _ _) (hf _ _) fun h => (hw _ _).trans ?_
  have hz := congrArg BitVec.toNat (beq_iff_eq.1 h)
  unfold sW2
  apply BitVec.eq_of_toNat_eq
  simp only [toNat_layout, toNat_field, BitVec.ofNat_eq_ofNat, BitVec.toNat_ofNat] at hz ⊢
  omega

theorem ttopk_w2 (h : (w.extractLsb' 14 18 == 0) = true) :
    (Instr.ttopk f (w.extractLsb' 0 4) (w.extractLsb' 4 4) (w.extractLsb' 8 5) (w.getLsbD 13)).w2 = w := by
  have hz := congrArg BitVec.toNat (beq_iff_eq.1 h)
  show sW2 0 ((0 : BitVec 12) ++ boolBit1 (w.getLsbD 13) ++ w.extractLsb' 8 5 ++ w.extractLsb' 4 4 ++ w.extractLsb' 0 4) = w
  rw [boolBit1, ofBool_bit]
  unfold sW2
  apply BitVec.eq_of_toNat_eq
  simp only [toNat_layout, toNat_field, BitVec.ofNat_eq_ofNat, BitVec.toNat_ofNat] at hz ⊢
  omega

theorem prov_w2 (h : (w.extractLsb' 1 31 == 0) = true) : (Instr.prov f (w.getLsbD 0)).w2 = w := by
  show sW2 0 (boolBit (w.getLsbD 0)) = w
  rw [boolBit, ofBool_bit, arg_of_field rfl rfl h]

theorem waitr_w2 (h : (w.extractLsb' 2 30 == 0) = true) : (Instr.waitr f (Path.ofCode (w.extractLsb' 0 2))).w2 = w := by
  show sW2 0 (Path.ofCode (w.extractLsb' 0 2)).code = w
  rw [path_ofCode, arg_of_field rfl rfl h]

end

/-! ### The opcode map -/

/-- The opcode map read backwards: each of its answers names the opcode, the fields and the words it was made from (R320). -/
theorem assemble_reads {o : BitVec 8} {f : Form} {w : W32} {p : Instr × Bool} (h : assemble o f w = some p) : Reads o f w p := by
  unfold assemble at h
  split at h
  case h_165 => exact nomatch h
  all_goals
    rename_i ho
    have hop {a : BitVec 8} (ha : a.toNat = o.toNat) : some a = some o := congrArg some (BitVec.eq_of_toNat_eq ha)
    obtain rfl := Option.some.inj h
    -- the layout of W2 decides the lemma
    with_reducible first
      | apply reads_zero | apply reads_reg | apply reads_ty | apply reads_field | apply reads_lsid | apply reads_mem | apply reads_sem
      | apply reads_mma | apply reads_badger | apply reads_sysreg | apply reads_sub | apply reads_disp | apply reads_lid
      | apply reads_pcvt | apply reads_tcvt | apply reads_of
    all_goals intros
    any_goals first | rfl | exact hop ho.symm
  case h_49.hc => exact cmp_ofCode ‹_›
  case h_50.hc => exact vote_ofCode ‹_›
  case h_51.hc => exact shfl_ofCode ‹_›
  case h_52.hc => exact redOf_code _ ‹_›
  case h_72.hc => exact fcmp_ofCode ‹_›
  case h_53.hw => exact scan_w2 ‹_›
  case h_116.hw => exact wait_w2 ‹_›
  case h_117.hw => exact waitr_w2 ‹_›
  case h_132.hw => exact prov_w2 ‹_›
  case h_136.hw => exact ttopk_w2 ‹_›

/-! ### The words of an instruction -/

/-- The words that `takeInstr` takes are W0, W1 and W2 when extended, and the two halves of the literal, low half first (R307). -/
theorem words_of_takeInstr {ws : List W32} {t : Taken} (h : takeInstr ws = some t) :
    ws = t.w0 :: ((match t.w12 with | none => [] | some (w1, w2) => [w1, w2]) ++
        ((match t.lit with | none => [] | some l => [l.extractLsb' 0 32, l.extractLsb' 32 32]) ++ t.rest)) ∧
      t.w12.isSome = t.w0.getLsbD 30 ∧ t.lit.isSome = t.w0.getLsbD 31 := by
  have hhigh (l h : W32) : (h ++ l : W64).extractLsb' 32 32 = h := by
    change (h ++ l : BitVec (32 + 32)).extractLsb' (0 + 32) 32 = h
    rw [field_above, field_all]
  have hlow (l h : W32) : (h ++ l : W64).extractLsb' 0 32 = l := field_here h l
  unfold takeInstr at h
  split at h
  · cases h
  · split at h <;> cases h <;> simp_all

/-- What the decoder has checked of the words that it accepts (R322). -/
theorem decodeTaken_checks {t : Taken} {i : Instr} (h : decodeTaken t = .ok i) :
    ∃ g, i.sig = some g ∧ assemble (opOf t.w0) (formOf t) (w2Of t) = some (i, true) ∧
      (lenOk g (formOf t) = true ∧ vcOk g (formOf t) = true ∧ w1Ok g (formOf t) = true ∧ g.args = true) ∧
      t.w0.extractLsb' 20 2 ≠ 3 ∧ t.w0.extractLsb' 18 2 ≠ 3 ∧ tyCodeOk t = true := by
  unfold decodeTaken at h
  split at h
  · cases h
  next j w2ok ha =>
  split at h
  · cases h
  next g hg =>
  split_ifs at h with h1 h2 h3 h4
  cases h
  simp only [Bool.not_eq_true, Bool.or_eq_false_iff, Bool.not_eq_false', beq_eq_false_iff_ne] at h1 h2 h3 h4
  refine ⟨g, hg, ?_, ⟨h1, h2.2, h3.2, h4.2⟩, h2.1.1, h2.1.2, h3.1⟩
  rw [ha, h4.1]

theorem formOf_lit (t : Taken) : (formOf t).lit = t.lit := by unfold formOf; cases t.w12 <;> rfl
theorem formOf_ext (t : Taken) : (formOf t).ext = t.w12.isSome := by unfold formOf; cases t.w12 <;> rfl
theorem formOf_pr (t : Taken) : (formOf t).pr = Pred.ofCode (t.w0.extractLsb' 20 2) := by unfold formOf; cases t.w12 <;> rfl
theorem formOf_vc (t : Taken) : (formOf t).vc = TokClass.ofCode (t.w0.extractLsb' 18 2) := by unfold formOf; cases t.w12 <;> rfl
theorem formOf_t0 (t : Taken) : (formOf t).t0 = Target.ofBits (t.w0.extractLsb' 9 9) := by unfold formOf; cases t.w12 <;> rfl
theorem formOf_t1 (t : Taken) : (formOf t).t1 = Target.ofBits (t.w0.extractLsb' 0 9) := by unfold formOf; cases t.w12 <;> rfl

/-- An instruction of one word holds the fields of R311. -/
theorem formOf_short (t : Taken) : shortOk (groupDefault (opOf t.w0)) (formOf t) = true := by
  unfold formOf shortOk
  cases t.w12 <;> simp

theorem w0_formOf {t : Taken} (he : t.w12.isSome = t.w0.getLsbD 30) (hl : t.lit.isSome = t.w0.getLsbD 31)
    (hp : t.w0.extractLsb' 20 2 ≠ 3) (hv : t.w0.extractLsb' 18 2 ≠ 3) : w0Of (opOf t.w0) (formOf t) = t.w0 :=
  w0_of_fields _ (by rw [formOf_lit, hl]) (by rw [formOf_ext, he]) (by rw [formOf_pr, pred_ofCode hp]) (by rw [formOf_vc, class_ofCode hv])
    (by rw [formOf_t0, target_ofBits]) (by rw [formOf_t1, target_ofBits])

theorem w1_formOf {t : Taken} {w1 w2 : W32} (h : t.w12 = some (w1, w2)) (ht : tyCodeOk t = true) : w1Of (formOf t) = w1 := by
  unfold tyCodeOk at ht
  rw [h] at ht
  obtain ⟨ty, hty⟩ := Option.isSome_iff_exists.1 ht
  unfold formOf
  rw [h]
  exact w1_of_fields _ (by dsimp only; rw [hty]; exact type_ofCode hty) rfl rfl rfl (target_ofBits _) (target_ofBits _)

/-- The instruction that words are taken to be has the form that its words give, and is encoded by them. -/
theorem encode_of_decodeTaken {t : Taken} {i : Instr} (h : decodeTaken t = .ok i) (he : t.w12.isSome = t.w0.getLsbD 30)
    (hl : t.lit.isSome = t.w0.getLsbD 31) :
    i.wf = true ∧ i.sig.isSome = true ∧
      encode i = t.w0 :: ((match t.w12 with | none => [] | some (w1, w2) => [w1, w2]) ++
        (match t.lit with | none => [] | some l => [l.extractLsb' 0 32, l.extractLsb' 32 32])) := by
  obtain ⟨g, hg, ha, ⟨hlen, hvc, hw1, hargs⟩, hp, hv, hty⟩ := decodeTaken_checks h
  obtain ⟨hop, hform, hw2⟩ := assemble_reads ha rfl
  refine ⟨?_, by rw [hg]; rfl, ?_⟩
  · unfold Instr.wf
    simp only [hg, hform, hop, hlen, hvc, hw1, hargs, formOf_short, Bool.and_self]
  · unfold encode
    simp only [hform, hop, w0_formOf he hl hp hv, formOf_lit, formOf_ext, hw2]
    cases h12 : t.w12 with
    | none => cases t.lit <;> rfl
    | some w =>
      rw [w1_formOf h12 hty, w2Of, h12]
      cases t.lit <;> rfl

/-- Settles O45: the words that are taken are read backwards, W0 and W1 field by field and W2 through the opcode map. -/
theorem decodedInstructionsEncode : Obligations.DecodedInstructionsEncode := by
  intro ws r i h
  obtain ⟨t, ht, hd, rfl⟩ := takeInstr_of_decodeWords h
  obtain ⟨hws, he, hl⟩ := words_of_takeInstr ht
  obtain ⟨hwf, hsig, henc⟩ := encode_of_decodeTaken hd he hl
  refine ⟨hwf, hsig, ?_⟩
  rw [henc, hws, List.cons_append, List.append_assoc]

end Sys2Proof.Proofs
end

section
/-! PROOFS. Memory stays canonical, the words of the spec's examples, and the state after reset. -/

namespace Sys2Proof.Proofs
open Sys2Proof.Machine Sys2Proof.Laws.Shapes

/-! ### Every step keeps the canonical form of memory -/

/-- Settles O47: choosing what comes next leaves memory as it is, and every meaning keeps its canonical form. -/
theorem memoryInvariant : Obligations.MemoryInvariant := by
  intro s t hm h
  have hw : Memory.wf s.nextWork.2.mem = true := by rw [State.nextWork_mem]; exact hm
  unfold step at h
  generalize s.nextWork = w at h hw
  obtain ⟨work, u⟩ := w
  match work with
  | .error sub => cases h
  | .ok none => cases h; exact hw
  | .ok (some i) => exact exec_memOk i u hw t h

/-- Settles O43: each run of words is decoded by evaluation. -/
theorem encodingExamples : Obligations.EncodingExamples := by
  refine ⟨?_, ?_, ?_, ?_, ?_, ?_, ?_, ?_, ?_, ?_, ?_, ?_⟩ <;> decide

/-! ### Reset -/

/-- An entry of a table that holds one value for every key below n. -/
theorem tget_range {α : Type} (v d : α) {n k : Nat} (h : k < n) : tget ((List.range n).map fun j => (j, v)) k d = v := by
  have hfind : ∀ l : List Nat, k ∈ l → tfind (l.map fun j => (j, v)) k = some v := by
    intro l
    induction l with
    | nil => exact fun h => nomatch h
    | cons j l ih =>
      intro hk
      simp only [List.map_cons, tfind]
      split
      · rfl
      · exact ih ((List.mem_cons.1 hk).resolve_left (Ne.symm ‹_›))
  rw [tget, hfind _ (List.mem_range.2 h)]
  rfl

theorem reset_coreAt {c : Nat} (h : c < 576) : State.reset.coreAt c = resetCore := by
  simpa only [State.coreAt, State.reset] using tget_range resetCore resetCore h

theorem resetGang_readK (n : BitVec 4) : resetGang.readReg (.k n) = splat (if n = 0 then 0xFFFFFFFF else 0) := by
  revert n
  decide

/-- Settles O48: the fields of the state after reset, read through the accessors. -/
theorem resetState : Obligations.ResetState := by
  refine ⟨rfl, rfl, fun _ => rfl, rfl, rfl, rfl, rfl, rfl, rfl, rfl, rfl, rfl, rfl, rfl, rfl, rfl, fun n l hl => ?_, fun n l hl => ?_,
    resetGang_readK, ?_, fun c hc => ?_, ⟨_, rfl⟩⟩
  · exact (lane_lanes _ l).trans (if_pos hl)
  · exact (lane_splat _ l).trans (if_pos hl)
  · rw [State.reset, List.length_map, List.length_range]
  · rw [reset_coreAt hc]
    exact ⟨rfl, rfl, by decide⟩

end Sys2Proof.Proofs
end

section
/-! PROOFS. Mask instructions (spec/12 R351), and the tree of `redux` and the prefixes of `scan` (R349, R350). -/

namespace Sys2Proof.Proofs
open Sys2Proof.Machine Sys2Proof.Laws.Shapes

/-! ### Masks (R351) -/

theorem predicate_or_none (p m : Mask) : ~~~p ||| maskIf (m == 0) = if m = 0 then allLanes else ~~~p := by
  unfold maskIf
  by_cases h : m = 0
  · rw [if_pos h, if_pos (beq_iff_eq.2 h)]
    exact BitVec.or_allOnes
  · rw [if_neg h, if_neg (by simpa using h)]
    exact BitVec.or_zero

/-- What a bitwise instruction on masks does. -/
theorem maskOp_completes {i : Instr} {f : Form} {s : State} {b : Blk} (v : Mask → Mask → Mask) (h : s.blk? = some b)
    (he : exec i s = maskOp f v s) :
    let o := b.opnd s.idx f
    Completes i f (2, 3) s b (tokOf .mask (splat ((v o.a.mask o.b.mask).setWidth 64)) o.nulls) 0 :=
  completes_of _ h he rfl rfl

/-- What a count of a mask's bits does. -/
theorem countOp_completes {i : Instr} {f : Form} {s : State} {b : Blk} (v : Nat → Nat) {u : Mask → Nat} (h : s.blk? = some b)
    (he : exec i s = countOp f v s) (hv : ∀ m : Mask, v m.toNat = u m) :
    let o := b.opnd s.idx f
    Completes i f (2, 3) s b (o.result f.vc (if o.act &&& ~~~o.a.nulls = 0 then allLanes else ~~~o.pred) fun _ =>
      BitVec.ofNat 64 (u o.a.mask)) 0 := by
  refine completes_of _ h he ?_ rfl
  rw [predicate_or_none]
  simp only [hv]
  rfl

theorem popcount_toNat (m : Mask) : popcount 32 m.toNat = (List.range 32).countP fun i => m.getLsbD i :=
  List.countP_eq_length_filter.symm

theorem lowBit_toNat (m : Mask) : lowBit 32 m.toNat = ((List.range 32).find? fun i => m.getLsbD i).getD 32 := rfl

/-- Settles O4: the bitwise instructions are `maskOp`, the counts `countOp`, and bit i of a mask is bit i of its number. -/
theorem maskInstructions : Obligations.MaskInstructions := by
  refine fun f s b h => ⟨?_, ?_, ?_, ?_, ?_, ?_⟩
  · exact maskOp_completes (· &&& ·) h (exec_kand f s)
  · exact maskOp_completes (· ||| ·) h (exec_kor f s)
  · exact maskOp_completes (· ^^^ ·) h (exec_kxor f s)
  · exact maskOp_completes (fun a _ => ~~~a) h (exec_knot f s)
  · exact (countOp_completes _ h (exec_kpop f s) popcount_toNat :)
  · exact (countOp_completes _ h (exec_kfst f s) lowBit_toNat :)

/-! ### Reductions and prefixes (R349, R350) -/

section
variable {node : Nat → Nat → FRes} {x : Nat → Nat} {ident : Nat}

/-- A run of a power of two first lanes is one block. -/
theorem scanPrefix_two_pow {m : Nat} (hm : m ≤ 5) : scanPrefix node x ident (2 ^ m) = redBlock node x m 0 := by
  have hset : [5, 4, 3, 2, 1, 0].filter (fun i => (2 ^ m).testBit i) = [m] := by
    revert m
    decide
  rw [scanPrefix, hset]
  rfl

/-- Three lanes are a block of two and a block of one. -/
theorem scanPrefix_three : (scanPrefix node x ident 3).1 = (node (redBlock node x 1 0).1 (redBlock node x 0 2).1).1 := by
  have hset : [5, 4, 3, 2, 1, 0].filter (fun i => (3 : Nat).testBit i) = [1, 0] := by decide
  rw [scanPrefix, hset]
  rfl

end

/-- Settles O5: the tree and the prefixes are `redBlock` and `scanPrefix`. -/
theorem reductionsAndScans : Obligations.ReductionsAndScans := by
  refine fun f op excl s b h => ⟨fun _ => rfl, fun _ => rfl, fun _ _ => rfl, fun hf => ?_, ?_, ?_, rfl, fun m hm => ?_, ?_⟩
  · exact fun m l => redBlock_flags (fun _ _ => redNode_int hf) _ m l
  · refine completes_of _ h (exec_redux f op s) ?_ rfl
    rw [← predicate_or_none]
    rfl
  · exact completes_of _ h (exec_scan f op excl s) rfl rfl
  · exact scanPrefix_two_pow hm
  · exact scanPrefix_three

end Sys2Proof.Proofs
end

section
/-! PROOFS. Exact arithmetic on floating-point values (spec/13 R374, R375): sums, products, quotients and roots as integers over one
unit, the special cases, and the instructions that round them. -/

namespace Sys2Proof.Proofs
open Sys2Proof.Machine Sys2Proof.Laws.Shapes

/-! ### Multiples of a unit -/

/-- What RoundTo gives for z × 2^q, with the sign of a zero. -/
def roundedMultiple (t : Ty) (rn : Rnd) (q z : Int) (zero : Bool) : FRes :=
  if z = 0 then (t.signBit zero, 0) else roundTo t rn (decide (z < 0)) z.natAbs q false

/-- The sign of a zero sum: that of two zeros of like sign, else the one that the mode names (R374). -/
def zeroSign (mode : Nat) (n : Bool) (m : Nat) (n' : Bool) (m' : Nat) : Bool :=
  if m = 0 ∧ m' = 0 ∧ n = n' then n else mode == 2

section
variable {t : Ty} {rn : Rnd}

theorem roundTo_zero (n : Bool) (e : Int) : roundTo t rn n 0 e false = (t.signBit n, 0) := rfl

theorem roundedMultiple_zero (q : Int) (zero : Bool) : roundedMultiple t rn q 0 zero = (t.signBit zero, 0) := if_pos rfl

theorem scaled_zero (n : Bool) (e q : Int) : scaled n 0 e q = 0 := by
  rw [scaled_eq]
  simp

theorem scaled_not (n : Bool) (m : Nat) (e q : Int) : scaled (!n) m e q = -scaled n m e q := by
  cases n <;> simp [scaled]

/-- A number counted in its own unit or a finer one rounds as itself. -/
theorem roundedMultiple_scaled {n : Bool} {m : Nat} {e q : Int} (h : q ≤ e) :
    roundedMultiple t rn q (scaled n m e q) n = roundTo t rn n m e false := by
  rcases Nat.eq_zero_or_pos m with rfl | hm
  · rw [scaled_zero, roundedMultiple_zero, roundTo_zero]
  · have hpos : 0 < m * 2 ^ (e - q).toNat := Nat.mul_pos hm (Nat.two_pow_pos _)
    have hq : e - ((e - q).toNat : Int) = q := by omega
    rw [← roundTo_scale t rn n m (e - q).toNat e, hq]
    unfold roundedMultiple scaled
    generalize m * 2 ^ (e - q).toNat = x at hpos ⊢
    have hx : (if n then -(x : Int) else x) ≠ 0 := by split <;> omega
    have hneg : decide ((if n then -(x : Int) else x) < 0) = n := by cases n <;> simp; omega
    rw [if_neg hx, hneg]
    cases n <;> simp

/-- The unit in which a multiple is counted does not matter. -/
theorem roundedMultiple_finer {q p : Int} (h : q ≤ p) (z : Int) (zero : Bool) :
    roundedMultiple t rn q (z * 2 ^ (p - q).toNat) zero = roundedMultiple t rn p z zero := by
  have hpos := two_pow_pos (p - q).toNat
  have hq : p - ((p - q).toNat : Int) = q := by omega
  unfold roundedMultiple
  by_cases hz : z = 0
  · rw [if_pos hz, if_pos (by rw [hz, zero_mul])]
  · have hneg : decide (z * 2 ^ (p - q).toNat < 0) = decide (z < 0) := 
      decide_eq_decide.2 ⟨fun h => neg_of_mul_neg_left h hpos.le, fun h => mul_neg_of_neg_of_pos h hpos⟩
    rw [if_neg hz, if_neg (mul_ne_zero hz hpos.ne'), hneg, Int.natAbs_mul, Int.natAbs_pow,
      ← roundTo_scale t rn (decide (z < 0)) z.natAbs (p - q).toNat p, hq]
    rfl

/-! ### Values delivered -/

theorem finish_num (n : Bool) (m : Nat) (e : Int) : finish t rn (.num n m e, 0) = roundTo t rn n m e false :=
  congrArg (Prod.mk _) BitVec.or_zero

theorem finish_nan (q : Bool) (fl : BitVec 5) : finish t rn (.nan q, fl) = (t.nan, fl) := rfl

theorem finish_inf (h : t.hasInf = true) (n : Bool) (fl : BitVec 5) : finish t rn (.inf n, fl) = (t.infEnc n, fl) :=
  congrArg (·, fl) (if_pos h)

/-- The sum of two numbers, delivered, over any unit that divides both. -/
theorem finish_addNum {n n' : Bool} {m m' : Nat} {e e' q : Int} (h : q ≤ e) (h' : q ≤ e') :
    finish t rn (addNum rn.mode (n, m, e) (n', m', e'), 0) =
      roundedMultiple t rn q (scaled n m e q + scaled n' m' e' q) (zeroSign rn.mode n m n' m') := by
  have hq : q ≤ min e e' := le_min h h'
  rw [scaled_finer n m hq (min_le_left _ _), scaled_finer n' m' hq (min_le_right _ _), ← add_mul, roundedMultiple_finer hq]
  unfold addNum
  simp only
  split
  next hz =>
    rw [finish_num, roundTo_zero, hz, roundedMultiple_zero]
    rfl
  next hz =>
    rw [finish_num, roundedMultiple, if_neg hz]

/-! A NaN operand gives the canonical NaN, with NV for a signalling one (R371). -/

theorem fAdd_nan (mode : Nat) {a b : FVal} (h : a.isNan = true ∨ b.isNan = true) : fAdd mode a b = (.nan false, sigFlag [a, b]) := by
  cases a <;> cases b <;> simp [FVal.isNan] at h <;> rfl

theorem fMul_nan {a b : FVal} (h : a.isNan = true ∨ b.isNan = true) : fMul a b = (.nan false, sigFlag [a, b]) := by
  cases a <;> cases b <;> simp [FVal.isNan] at h <;> rfl

theorem fDiv_nan {a b : FVal} (h : a.isNan = true ∨ b.isNan = true) : fDiv t rn a b = (t.nan, sigFlag [a, b]) := by
  cases a <;> cases b <;> simp [FVal.isNan] at h <;> rfl

theorem flip_isNan (b : FVal) : b.flip.isNan = b.isNan := by cases b <;> rfl

theorem flip_eq_nan {b : FVal} {q : Bool} : b.flip = .nan q ↔ b = .nan q := by cases b <;> simp [FVal.flip]

theorem sigFlag_flip (a b : FVal) : sigFlag [a, b.flip] = sigFlag [a, b] := by
  simp only [sigFlag_two, flip_eq_nan]

theorem bne_eq_decide_ne (a b : Nat) : (a != b) = decide (a ≠ b) := by
  by_cases h : a = b <;> simp [h]

/-! ### Quotients and roots (R375) -/

/-- A quotient by the whole number c below it and the remainder r, over a unit fine enough for any format. -/
theorem fDiv_bracket {n n' : Bool} {m m' : Nat} {e e' : Int} {c r : Nat} (hm : 0 < m') (hr : r < m')
    (h : m * 2 ^ (130 + bitLen m') = c * m' + r) :
    fDiv t rn (.num n m e) (.num n' m' e') =
      roundTo t rn (n != n') c (e - e' - ((130 + bitLen m' : Nat) : Int)) (decide (r ≠ 0)) := by
  have hdiv : (c * m' + r) / m' = c := by rw [Nat.mul_comm, Nat.mul_add_div hm, Nat.div_eq_of_lt hr, Nat.add_zero]
  have hmod : (c * m' + r) % m' = r := by rw [Nat.mul_comm, Nat.mul_add_mod, Nat.mod_eq_of_lt hr]
  unfold fDiv quotient
  simp only [if_neg hm.ne', h, hdiv, hmod, bne_eq_decide_ne]

theorem fDiv_exact {n n' : Bool} {m m' : Nat} {e e' : Int} (hm : 0 < m') (h : m' ∣ m) :
    fDiv t rn (.num n m e) (.num n' m' e') = roundTo t rn (n != n') (m / m') (e - e') false := by
  obtain ⟨c, rfl⟩ := h
  rw [fDiv_bracket (c := c * 2 ^ (130 + bitLen m')) hm hm (by ring), decide_eq_false (by simp), roundTo_scale,
    Nat.mul_div_cancel_left _ hm]

theorem fSqrt_bracket {m : Nat} {e : Int} {r : Nat} (hm : 0 < m) (h1 : r * r ≤ m * 2 ^ (if e % 2 = 0 then 260 else 261))
    (h2 : m * 2 ^ (if e % 2 = 0 then 260 else 261) < (r + 1) * (r + 1)) :
    fSqrt t rn (.num false m e) = roundTo t rn false r ((e - ((if e % 2 = 0 then 260 else 261 : Nat) : Int)) / 2)
      (decide (r * r ≠ m * 2 ^ (if e % 2 = 0 then 260 else 261))) := by
  unfold fSqrt rootOf
  simp only [if_neg hm.ne', isqrt_unique h1 h2, Bool.false_eq_true, if_false, bne_eq_decide_ne]

theorem fSqrt_exact {e : Int} {r : Nat} (hr : 0 < r) (he : e % 2 = 0) :
    fSqrt t rn (.num false (r * r) e) = roundTo t rn false r (e / 2) false := by
  have hk : (if e % 2 = 0 then 260 else 261) = 130 + 130 := if_pos he
  have hsq : r * 2 ^ 130 * (r * 2 ^ 130) = r * r * 2 ^ (if e % 2 = 0 then 260 else 261) := by
    rw [hk, Nat.pow_add, Nat.mul_mul_mul_comm]
  have hexp : (e - ((if e % 2 = 0 then 260 else 261 : Nat) : Int)) / 2 = e / 2 - (130 : Nat) := by rw [hk]; omega
  rw [fSqrt_bracket (Nat.mul_pos hr hr) hsq.le (hsq ▸ Nat.mul_self_lt_mul_self (Nat.lt_succ_self _)), hsq, hexp, decide_eq_false (by simp),
    roundTo_scale]

theorem fRsqrt_bracket {m : Nat} {e : Int} {r : Nat} (hm : 0 < m) {m1 k : Nat} (hm1 : m1 = if e % 2 = 0 then m else 2 * m)
    (hk : k = 200 + bitLen m1) (h1 : r * r * m1 ≤ 2 ^ (2 * k)) (h2 : 2 ^ (2 * k) < (r + 1) * (r + 1) * m1) :
    fRsqrt t rn (.num false m e) = roundTo t rn false r (-(k : Int) - e / 2) (decide (r * r * m1 ≠ 2 ^ (2 * k))) := by
  have hpos : 0 < m1 := by rw [hm1]; split <;> omega
  have hroot : isqrt (2 ^ (2 * k) / m1) = r :=
    isqrt_unique ((Nat.le_div_iff_mul_le hpos).2 h1) ((Nat.div_lt_iff_lt_mul hpos).2 h2)
  have hm1' : (if e % 2 ≠ 0 then m * 2 else m) = m1 := by rw [hm1]; split_ifs <;> omega
  have hh : (if e % 2 ≠ 0 then e - 1 else e) / 2 = e / 2 := by split <;> omega
  unfold fRsqrt
  simp only [if_neg hm.ne', Bool.false_eq_true, if_false, hm1', hh, ← hk, hroot, bne_eq_decide_ne]

/-! ### Sums and products of numbers (R374) -/

theorem finish_fAdd_num {n n' : Bool} {m m' : Nat} {e e' q : Int} (h : q ≤ e) (h' : q ≤ e') :
    finish t rn (fAdd rn.mode (.num n m e) (.num n' m' e')) =
      roundedMultiple t rn q (scaled n m e q + scaled n' m' e' q) (zeroSign rn.mode n m n' m') :=
  finish_addNum h h'

theorem finish_fSub_num {n n' : Bool} {m m' : Nat} {e e' q : Int} (h : q ≤ e) (h' : q ≤ e') :
    finish t rn (fAdd rn.mode (.num n m e) (FVal.flip (.num n' m' e'))) =
      roundedMultiple t rn q (scaled n m e q - scaled n' m' e' q) (zeroSign rn.mode n m (!n') m') := by
  rw [sub_eq_add_neg, ← scaled_not]
  exact finish_addNum h h'

theorem finish_fMul_num {n n' : Bool} {m m' : Nat} {e e' q : Int} (h : q ≤ e + e') :
    finish t rn (fMul (.num n m e) (.num n' m' e')) =
      roundedMultiple t rn q (scaled (n != n') (m * m') (e + e') q) (n != n') := by
  rw [roundedMultiple_scaled h, ← finish_num]
  rfl

theorem fMulAdd_num {n n' n'' : Bool} {m m' m'' : Nat} {e e' e'' : Int} (mode : Nat) :
    fMulAdd mode (.num n m e) (.num n' m' e') (.num n'' m'' e'') =
      (addNum mode (n != n', m * m', e + e') (n'', m'', e''), 0) :=
  Prod.ext rfl BitVec.zero_or

theorem finish_fMulAdd_num {n n' n'' : Bool} {m m' m'' : Nat} {e e' e'' q : Int} (h : q ≤ e + e') (h' : q ≤ e'') :
    finish t rn (fMulAdd rn.mode (.num n m e) (.num n' m' e') (.num n'' m'' e'')) =
      roundedMultiple t rn q (scaled (n != n') (m * m') (e + e') q + scaled n'' m'' e'' q)
        (zeroSign rn.mode (n != n') (m * m') n'' m'') := by
  rw [fMulAdd_num]
  exact finish_addNum h h'

theorem zeroSign_not (mode : Nat) (n : Bool) (m : Nat) (n' : Bool) (m' : Nat) :
    zeroSign mode n m (!n') m' = if m = 0 ∧ m' = 0 ∧ n ≠ n' then n else mode == 2 := by
  unfold zeroSign
  cases n <;> cases n' <;> simp

/-- The sign of an exact zero of a fused sum is that of the addend where both are zeros of like sign. -/
theorem zeroSign_right (mode : Nat) (n : Bool) (m : Nat) (n' : Bool) (m' : Nat) :
    zeroSign mode n m n' m' = if m = 0 ∧ m' = 0 ∧ n = n' then n' else mode == 2 := by
  unfold zeroSign
  split_ifs with h
  · exact h.2.2
  · rfl

/-- A reciprocal by the whole number c below it and the remainder r. -/
theorem fRcp_bracket {n : Bool} {m : Nat} {e : Int} {c r : Nat} (hm : 0 < m) (hr : r < m) (h : 2 ^ (130 + bitLen m) = c * m + r) :
    fDiv t rn (.num false 1 0) (.num n m e) = roundTo t rn n c (-e - ((130 + bitLen m : Nat) : Int)) (decide (r ≠ 0)) := by
  rw [fDiv_bracket hm hr (by rw [one_mul, h]), Bool.false_bne, zero_sub]

theorem fRcp_one {n : Bool} {e : Int} : fDiv t rn (.num false 1 0) (.num n 1 e) = roundTo t rn n 1 (-e) false := by
  rw [fDiv_exact one_pos (dvd_refl _), Bool.false_bne, zero_sub, Nat.div_one]

end

/-- Settles O6: the instructions are `fpLanes` of the exact operations; sums and products by one common unit, quotients and roots by the
whole numbers that bracket them. -/
theorem floatArithmetic : Obligations.FloatArithmetic := by
  intro f s b h
  refine ⟨fp_completes _ h (exec_fadd f s) _ rfl, fp_completes _ h (exec_fsub f s) _ rfl, fp_completes _ h (exec_fmul f s) _ rfl,
    fp_completes _ h (exec_fma f s) _ rfl, fp_completes _ h (exec_fdiv f s) _ rfl, fp_completes _ h (exec_frcp f s) _ rfl,
    fp_completes _ h (exec_fsqrt f s) _ rfl, fp_completes _ h (exec_frsqrt f s) _ rfl, ?_, ?_, ?_⟩
  · intro l n m e n' m' e' ha hb
    simp only [ha, hb, ← scaled_eq]
    refine ⟨fun q h h' => ⟨finish_fAdd_num h h', ?_⟩, fun q h => ⟨finish_fMul_num h, fun n'' m'' e'' hc h' => ?_⟩, fun hm hm' => ⟨?_, ?_⟩⟩
    · rw [finish_fSub_num h h', zeroSign_not]
      rfl
    · rw [hc, finish_fMulAdd_num h h', zeroSign_right]
      rfl
    · exact fDiv_exact hm'
    · exact fun c r hr => fDiv_bracket hm' hr
  · intro l n m e ha hm
    simp only [ha]
    refine ⟨?_, fun c r => fRcp_bracket hm, ?_⟩
    · rintro rfl
      exact fRcp_one
    · rintro rfl
      refine ⟨?_, fun r => fSqrt_bracket hm, fun r h1 h2 => fRsqrt_bracket hm rfl rfl h1 h2⟩
      rintro r rfl he
      exact fSqrt_exact (Nat.pos_of_mul_pos_left hm) he
  · intro l hn
    simp only [← sigFlag_two]
    refine ⟨?_, ?_, ?_, fDiv_nan hn⟩
    · rw [fAdd_nan _ hn, finish_nan]
    · rw [fAdd_nan _ (by rwa [flip_isNan]), finish_nan, sigFlag_flip]
    · rw [fMul_nan hn, finish_nan]

/-! ### Special cases (R374, R375) -/

theorem addNum_zeros (mode : Nat) (n n' : Bool) (e : Int) : addNum mode (n, 0, e) (n', 0, e) = .num (zeroSign mode n 0 n' 0) 0 e := by
  simp [addNum, scaled_zero, zeroSign]

/-- A number less itself is a zero with the sign of the mode. -/
theorem addNum_cancel (mode : Nat) {n : Bool} {m : Nat} (e : Int) (hm : 0 < m) :
    addNum mode (n, m, e) (!n, m, e) = .num (mode == 2) 0 e := by
  simp [addNum, scaled_not, hm.ne']

section
variable {t : Ty} {rn : Rnd} {n n' : Bool} {m : Nat} {e e' : Int}

theorem fMul_inf_zero : fMul (.inf n) (.num n' 0 e) = (.nan false, fNV) := by simp [fMul]

theorem fMul_zero_inf : fMul (.num n 0 e) (.inf n') = (.nan false, fNV) := by simp [fMul]

theorem fDiv_zero_zero : fDiv t rn (.num n 0 e) (.num n' 0 e') = (t.nan, fNV) := by simp [fDiv]

theorem fDiv_num_zero (hm : 0 < m) (h : t.hasInf = true) :
    fDiv t rn (.num n m e) (.num n' 0 e') = (t.infEnc (n != n'), fDZ) := by
  rw [← finish_inf (rn := rn) h]
  simp [fDiv, hm.ne']

theorem fSqrt_zero : fSqrt t rn (.num n 0 e) = (t.signBit n, 0) := by simp [fSqrt]

theorem fSqrt_negative (hm : 0 < m) : fSqrt t rn (.num true m e) = (t.nan, fNV) := by simp [fSqrt, hm.ne']

theorem fRsqrt_zero (h : t.hasInf = true) : fRsqrt t rn (.num n 0 e) = (t.infEnc n, fDZ) := by
  rw [← finish_inf (rn := rn) h]
  simp [fRsqrt]

theorem fRsqrt_negative (hm : 0 < m) : fRsqrt t rn (.num true m e) = (t.nan, fNV) := by simp [fRsqrt, hm.ne']

end

/-- Settles O7, case by case from the definitions of the exact operations. -/
theorem floatSpecialCases : Obligations.FloatSpecialCases := by
  intro t rn n n' m m' e e' hm hm'
  refine ⟨if_pos rfl, if_neg (by simp), rfl, rfl, ?_, ?_, addNum_cancel _ _ hm, rfl, if_neg hm'.ne', fMul_inf_zero, fMul_zero_inf, ?_,
    fDiv_zero_zero, rfl, fDiv_num_zero hm, rfl, fSqrt_zero, fSqrt_negative hm, rfl, fRsqrt_negative hm, rfl, rfl, fRsqrt_zero,
    rfl, rfl, rfl, rfl⟩
  · exact (addNum_zeros rn.mode n n e).trans (by simp [zeroSign])
  · exact (addNum_zeros rn.mode n (!n) e).trans (by simp [zeroSign])
  · simp [fMulAdd, fMul_inf_zero, FVal.isNan, sigFlag]

end Sys2Proof.Proofs
end

section
/-! PROOFS. Packed instructions (spec/13 R386 to R388): four elements in a lane, and the exact sum of products of `pdot`. -/

namespace Sys2Proof.Proofs
open Sys2Proof.Machine Sys2Proof.Laws.Shapes

/-! ### Elements in a lane -/

theorem packed_four (w : Nat) (v : Nat → FRes) :
    packed w 4 v = ((v 0).1 + (v 1).1 * 2 ^ w + (v 2).1 * 2 ^ (2 * w) + (v 3).1 * 2 ^ (3 * w),
      (v 0).2 ||| (v 1).2 ||| (v 2).2 ||| (v 3).2) := by
  simp [packed, List.range_succ, Nat.mul_comm w]

theorem packed_two (v : Nat → FRes) : packed 32 2 v = ((v 0).1 + (v 1).1 * 2 ^ 32, (v 0).2 ||| (v 1).2) := by
  simp [packed, List.range_succ]

/-! ### A sum of products (R387) -/

/-- A sum of two numbers is a number, whose integer over a unit that divides both is the sum of theirs. -/
theorem addNum_scaled (mode : Nat) {n n' : Bool} {m m' : Nat} {e e' q : Int} (h : q ≤ e) (h' : q ≤ e') :
    ∃ n'' m'' e'', addNum mode (n, m, e) (n', m', e') = .num n'' m'' e'' ∧ q ≤ e'' ∧
      scaled n'' m'' e'' q = scaled n m e q + scaled n' m' e' q := by
  have hq : q ≤ min e e' := le_min h h'
  rw [scaled_finer n m hq (min_le_left _ _), scaled_finer n' m' hq (min_le_right _ _), ← add_mul]
  unfold addNum
  simp only
  split
  next hz => exact ⟨_, _, _, rfl, hq, by rw [scaled_zero, hz, zero_mul]⟩
  next hz =>
    refine ⟨_, _, _, rfl, hq, ?_⟩
    rw [scaled_eq]
    congr 1
    by_cases hneg : scaled n m e (min e e') + scaled n' m' e' (min e e') < 0
    · simp [hneg, abs_of_neg hneg]
    · simp [hneg, abs_of_nonneg (not_lt.1 hneg)]

/-- A number with the sign of a zero replaced rounds as its integer over a finer unit does. -/
theorem roundTo_signed {t : Ty} {rn : Rnd} {n x : Bool} {m : Nat} {e q : Int} (h : q ≤ e) :
    roundTo t rn (if m = 0 then x else n) m e false = roundedMultiple t rn q (scaled n m e q) x := by
  rcases Nat.eq_zero_or_pos m with rfl | hm
  · rw [scaled_zero, roundedMultiple_zero, if_pos rfl, roundTo_zero]
  · have hz : scaled n m e q ≠ 0 := by
      rw [scaled_eq]
      cases n <;> simp [hm.ne']
    rw [if_neg hm.ne', ← roundedMultiple_scaled h]
    unfold roundedMultiple
    rw [if_neg hz, if_neg hz]

section
variable (mode : Nat) (sg : Nat → Bool) (mg : Nat → Nat) (ex : Nat → Int)

/-- Numbers added in turn to a first one. -/
theorem foldl_fAdd_scaled {q : Int} (js : List Nat) : ∀ {n : Bool} {m : Nat} {e : Int}, q ≤ e → (∀ j ∈ js, q ≤ ex j) →
    ∃ n' m' e', js.foldl (fun a j => (fAdd mode a (.num (sg j) (mg j) (ex j))).1) (.num n m e) = .num n' m' e' ∧ q ≤ e' ∧
      scaled n' m' e' q = scaled n m e q + (js.map fun j => scaled (sg j) (mg j) (ex j) q).sum := by
  induction js with
  | nil => exact fun h _ => ⟨_, _, _, rfl, h, by simp⟩
  | cons j js ih =>
    intro n m e h hj
    obtain ⟨n', m', e', hs, hq, hv⟩ := addNum_scaled mode (n := n) (m := m) (n' := sg j) (m' := mg j) h (hj j List.mem_cons_self)
    obtain ⟨n'', m'', e'', hs', hq', hv'⟩ := ih (n := n') (m := m') hq fun i hi => hj i (List.mem_cons_of_mem _ hi)
    refine ⟨n'', m'', e'', ?_, hq', ?_⟩
    · rw [List.foldl_cons, ← hs']
      exact congrArg (fun a => js.foldl _ a) hs
    · rw [hv', hv, List.map_cons, List.sum_cons, add_assoc]

end

section
variable (n : Bool) (m : Nat) (e : Int) (js : List Nat) (ns ns' : Nat → Bool) (ms ms' : Nat → Nat) (es es' : Nat → Int)

/-- The pairs of numbers of a sum of products. -/
def numPairs : List (FVal × FVal) := js.map fun j => (.num (ns j) (ms j) (es j), .num (ns' j) (ms' j) (es' j))

/-- Their products. -/
def numProducts : List FVal := js.map fun j => .num (ns j != ns' j) (ms j * ms' j) (es j + es' j)

theorem map_fMul_numPairs :
    (numPairs js ns ns' ms ms' es es').map (fun p => fMul p.1 p.2) = (numProducts js ns ns' ms ms' es es').map fun p => (p, 0) := by
  simp only [numPairs, numProducts, List.map_map]
  rfl

/-- Do all terms of a sum have the sign x and no magnitude? -/
def zeroTerms (x : Bool) : Prop := m = 0 ∧ n = x ∧ ∀ j ∈ js, ms j * ms' j = 0 ∧ (ns j != ns' j) = x

/-- The sum of numbers is the number whose integer over one unit is the sum of theirs; a zero has the sign of its terms where they are
zeros of like sign. -/
theorem dotSum_numbers {mode : Nat} {q : Int} {neg pos : Prop} [Decidable neg] [Decidable pos]
    (hneg : neg ↔ zeroTerms n m js ns ns' ms ms' true) (hpos : pos ↔ zeroTerms n m js ns ns' ms ms' false)
    (h : q ≤ e) (hj : ∀ j ∈ js, q ≤ es j + es' j) :
    ∃ n' m' e', dotSum mode (.num n m e) (numPairs js ns ns' ms ms' es es') =
        (.num (if m' = 0 then (if neg then true else if pos then false else mode == 2) else n') m' e', 0) ∧ q ≤ e' ∧
      scaled n' m' e' q = scaled n m e q + (js.map fun j => scaled (ns j != ns' j) (ms j * ms' j) (es j + es' j) q).sum := by
  obtain ⟨n', m', e', hs, hq, hv⟩ := foldl_fAdd_scaled mode (fun j => ns j != ns' j) (fun j => ms j * ms' j) (fun j => es j + es' j) js
    (n := n) (m := m) h hj
  refine ⟨n', m', e', ?_, hq, hv⟩
  have hsig : (sigFlag (.num n m e :: (numPairs js ns ns' ms ms' es es').flatMap fun p => [p.1, p.2]) : BitVec 5) = 0 := by
    simp [sigFlag, numPairs]
  have hflags (l : List FVal) : (l.map fun p => (p, (0 : BitVec 5))).foldl (fun a p => a ||| p.2) 0 = 0 := by
    induction l with
    | nil => rfl
    | cons p l ih => simpa using ih
  have hall (x : Bool) {P : Prop} [Decidable P] (hP : P ↔ zeroTerms n m js ns ns' ms ms' x) (p : FVal → Bool)
      (hp : ∀ v, p v = (v.isZero && (v.neg == x))) :
      (FVal.num n m e :: numProducts js ns ns' ms ms' es es').all p = decide P := by
    rw [Bool.eq_iff_iff, funext hp, decide_eq_true_iff, hP]
    simp [numProducts, FVal.isZero, FVal.neg, and_assoc, zeroTerms]
  have hany : (FVal.num n m e :: numProducts js ns ns' ms ms' es es').any FVal.isNan = false := by
    simp [numProducts, FVal.isNan]
  have hinf (x : Bool) : (FVal.num n m e :: numProducts js ns ns' ms ms' es es').contains (.inf x) = false := by
    simp [numProducts]
  have hsum : ((numProducts js ns ns' ms ms' es es').map fun p => (p, (0 : BitVec 5))).foldl (fun a p => (fAdd mode a p.1).1)
      (.num n m e) = .num n' m' e' := by
    rw [← hs, List.foldl_map, numProducts, List.foldl_map]
  have hfst : ((numProducts js ns ns' ms ms' es es').map fun p => (p, (0 : BitVec 5))).map (·.1) = numProducts js ns ns' ms ms' es es' :=
    List.map_map.trans (List.map_id _)
  unfold dotSum
  simp only [map_fMul_numPairs, hfst, hsig, hflags, hany, hinf, hsum, hall true hneg (fun t => t.isZero && t.neg) (by simp),
    hall false hpos (fun t => t.isZero && !t.neg) (by simp)]
  simp

/-- The sum of numbers, delivered. -/
theorem finish_dotSum_numbers {t : Ty} {rn : Rnd} {q : Int} {neg pos : Prop} [Decidable neg] [Decidable pos]
    (hneg : neg ↔ zeroTerms n m js ns ns' ms ms' true) (hpos : pos ↔ zeroTerms n m js ns ns' ms ms' false)
    (h : q ≤ e) (hj : ∀ j ∈ js, q ≤ es j + es' j) :
    finish t rn (dotSum rn.mode (.num n m e) (numPairs js ns ns' ms ms' es es')) =
      roundedMultiple t rn q (scaled n m e q + (js.map fun j => scaled (ns j != ns' j) (ms j * ms' j) (es j + es' j) q).sum)
        (if neg then true else if pos then false else rn.mode == 2) := by
  obtain ⟨n', m', e', hd, hq, hv⟩ := dotSum_numbers n m e js ns ns' ms ms' es es' (mode := rn.mode) hneg hpos h hj
  rw [hd, finish_num, roundTo_signed hq, hv]

end

/-- What `packOp` does: four elements in each lane. -/
theorem packed_completes {f : Form} {s : State} {b : Blk} {i : Instr} (v : Rnd → Nat → Nat → Nat → FRes) (h : s.blk? = some b)
    (he : exec i s = packOp f v s) (u : Nat → FRes) (el : Nat → Nat → FRes)
    (hel : ∀ l j, el l j = v (s.env.rndAll f l j) (elem 16 ((b.opnd s.idx f).av l) j) (elem 16 ((b.opnd s.idx f).bv l) j)
      (elem 16 ((b.opnd s.idx f).cv l) j))
    (hu : ∀ l, u l = ((el l 0).1 + (el l 1).1 * 2 ^ 16 + (el l 2).1 * 2 ^ (2 * 16) + (el l 3).1 * 2 ^ (3 * 16),
      (el l 0).2 ||| (el l 1).2 ||| (el l 2).2 ||| (el l 3).2)) :
    Completes i f (4, 5) s b (laneResult f (b.opnd s.idx f) fun n => BitVec.ofNat 64 (u n).1)
      (if f.vc = .uni then (if (b.opnd s.idx f).live = 0 then 0 else (u 0).2)
       else (lanesOf (b.opnd s.idx f).live).foldl (fun a l => a ||| (u l).2) 0) := by
  refine fp_completes _ h he u (funext fun l => ?_)
  rw [packed_four, hu]
  simp only [hel]

/-- Settles O12: elements by the lemmas of the scalar operations, `pdot` by its sum over one unit. -/
theorem packedInstructions : Obligations.PackedInstructions := by
  intro f k src s b h
  refine ⟨?_, ?_, ?_, ?_, ?_, ?_, ?_, ?_⟩
  · exact packed_completes _ h (exec_padd f s) _ _ (fun _ _ => rfl) fun _ => rfl
  · exact packed_completes _ h (exec_pmul f s) _ _ (fun _ _ => rfl) fun _ => rfl
  · exact packed_completes _ h (exec_pfma f s) _ _ (fun _ _ => rfl) fun _ => rfl
  · exact packed_completes _ h (exec_pmax f s) _ _ (fun _ _ => rfl) fun _ => rfl
  · refine fp_completes _ h (exec_pcvt f k src s) _ (funext fun l => ?_)
    cases k
    · exact packed_two _
    · exact packed_two _
    · exact packed_four 16 _
    · exact packed_four f.ty.width _
    · exact packed_four 16 _
  · exact fp_completes _ h (exec_pdot f s) _ rfl
  · intro l j n m e n' m' e' ha hb
    simp only [fpAdd, fpMul, fpFma, ha, hb, ← scaled_eq]
    refine ⟨fun q h h' => finish_fAdd_num h h', fun q h => ⟨finish_fMul_num h, fun n'' m'' e'' hc h' => ?_⟩⟩
    rw [hc, finish_fMulAdd_num h h', zeroSign_right]
    rfl
  · intro l q n m e ns ns' ms ms' es es' hc hq hj
    have hps : (List.range 4).map (fun j => (fIn f.ty ((lane (b.opnd s.idx f).a.vals l).toNat / 2 ^ (16 * j) % 2 ^ 16),
        fIn f.ty ((lane (b.opnd s.idx f).b.vals l).toNat / 2 ^ (16 * j) % 2 ^ 16))) = numPairs (List.range 4) ns ns' ms ms' es es' :=
      List.map_congr_left fun j hj' => Prod.ext (hj j (List.mem_range.1 hj')).1 (hj j (List.mem_range.1 hj')).2.1
    have hz (x : Bool) : (m = 0 ∧ n = x ∧ ∀ j, j < 4 → ms j * ms' j = 0 ∧ (ns j != ns' j) = x) ↔
        zeroTerms n m (List.range 4) ns ns' ms ms' x := by
      simp only [zeroTerms, List.mem_range]
    have hd := finish_dotSum_numbers n m e (List.range 4) ns ns' ms ms' es es' (t := .f32) (rn := s.env.rnd f.rm false l 0)
      (hz true) (hz false) hq fun j hj' => (hj j (List.mem_range.1 hj')).2.2
    have hfour (x : Int) (g : Nat → Int) : x + ((List.range 4).map g).sum = x + g 0 + g 1 + g 2 + g 3 := by
      simp [List.range_succ, add_assoc]
    simp only [hc, hps, hd, hfour, ← scaled_eq]
    rfl

end Sys2Proof.Proofs
end

section
/-! PROOFS. Rounding (spec/13 R365): what each mode makes of a magnitude cut to a coarser unit, and the numbers of a format. -/

namespace Sys2Proof.Proofs
open Sys2Proof.Machine Sys2Proof.Laws.Shapes

/-! ### A magnitude cut to a coarser unit -/

theorem cutAt_coarser (rn : Rnd) (neg : Bool) (m k : Nat) (e : Int) :
    cutAt rn neg m e false (e + (k : Int)) =
      (m / 2 ^ k + (roundsUp rn neg (m / 2 ^ k) (m % 2 ^ k) k false).toNat, m % 2 ^ k != 0) := by
  unfold cutAt
  by_cases hk : k = 0
  · subst hk
    have hup : roundsUp rn neg m 0 0 false = false := by
      unfold roundsUp
      split <;> simp
    simp [hup, Nat.mod_one]
  · have hlt : ¬e + (k : Int) ≤ e := by omega
    have hw : (e + (k : Int) - e).toNat = k := by omega
    simp only [if_neg hlt, hw, Bool.or_false]
    cases roundsUp rn neg (m / 2 ^ k) (m % 2 ^ k) k false <;> simp

section
variable (neg : Bool) (c x k r : Nat)

theorem roundsUp_zero : roundsUp ⟨1, r⟩ neg c x k false = false := rfl

theorem roundsUp_down : roundsUp ⟨2, r⟩ neg c x k false = (neg && decide (x ≠ 0)) := by
  simp [roundsUp, bne_eq_decide_ne]

theorem roundsUp_up : roundsUp ⟨3, r⟩ neg c x k false = (!neg && decide (x ≠ 0)) := by
  simp [roundsUp, bne_eq_decide_ne]

theorem roundsUp_away : roundsUp ⟨4, r⟩ neg c x k false = decide (2 ^ k ≤ 2 * x) := rfl

theorem roundsUp_even : roundsUp ⟨0, r⟩ neg c x k false = decide (2 ^ k < 2 * x ∨ 2 * x = 2 ^ k ∧ c % 2 = 1) := by
  simp [roundsUp, Bool.beq_eq_decide_eq]

/-- An exact multiple is rounded up in no mode. -/
theorem roundsUp_exact (rn : Rnd) : roundsUp rn neg c 0 k false = false := by
  have hpos := Nat.two_pow_pos k
  unfold roundsUp
  split <;> simp
  omega

end

/-- The first half of O8: the multiple that each mode takes. -/
theorem cut_by_mode (neg : Bool) (m k r : Nat) (e : Int) :
    let cut := fun (mode : Nat) => (cutAt ⟨mode, r⟩ neg m e false (e + (k : Int))).1
    let away := fun (mode : Nat) => m ≤ cut mode * 2 ^ k ∧ cut mode * 2 ^ k < m + 2 ^ k
    let toward := fun (mode : Nat) => cut mode * 2 ^ k ≤ m ∧ m < cut mode * 2 ^ k + 2 ^ k
    let near := fun (mode : Nat) => 2 * (cut mode * 2 ^ k) ≤ 2 * m + 2 ^ k ∧ 2 * m ≤ 2 * (cut mode * 2 ^ k) + 2 ^ k
    toward 1 ∧
    (if neg then away 2 else toward 2) ∧ (if neg then toward 3 else away 3) ∧
    near 0 ∧ (0 < k → 2 * (cut 0 * 2 ^ k) = 2 * m + 2 ^ k ∨ 2 * m = 2 * (cut 0 * 2 ^ k) + 2 ^ k → cut 0 % 2 = 0) ∧
    near 4 ∧ (0 < k → 2 * m ≠ 2 * (cut 4 * 2 ^ k) + 2 ^ k) ∧
    cut 5 = cut 0 ∧
    (toward 6 ∨ away 6) ∧
    (2 ^ k ∣ m → ∀ mode, mode ≤ 6 → cut mode * 2 ^ k = m ∧ (cutAt ⟨mode, r⟩ neg m e false (e + (k : Int))).2 = false) := by
  have hdm := Nat.div_add_mod' m (2 ^ k)
  have hx := Nat.mod_lt m (Nat.two_pow_pos k)
  have h5 : roundsUp ⟨5, r⟩ neg (m / 2 ^ k) (m % 2 ^ k) k false = roundsUp ⟨0, r⟩ neg (m / 2 ^ k) (m % 2 ^ k) k false := rfl
  have h6 (h : m % 2 ^ k = 0) : roundsUp ⟨6, r⟩ neg (m / 2 ^ k) (m % 2 ^ k) k false = false := by rw [h, roundsUp_exact]
  simp only [cutAt_coarser, roundsUp_zero, roundsUp_down, roundsUp_up, roundsUp_away, roundsUp_even, h5, Nat.add_mul]
  have hd : 2 ^ k ∣ m → m % 2 ^ k = 0 := Nat.mod_eq_zero_of_dvd
  simp only [bne_eq_decide_ne]
  generalize 2 ^ k = H at *
  generalize hc : m / H = c at *
  generalize hy : m % H = x at *
  generalize c * H = P at *
  refine ⟨?_, ?_, ?_, ?_, ?_, ?_, ?_, trivial, ?_, ?_⟩
  · rw [Bool.toNat_false]; omega
  · cases neg <;> by_cases h : x = 0 <;> simp [h] <;> omega
  · cases neg <;> by_cases h : x = 0 <;> simp [h] <;> omega
  · by_cases h : H < 2 * x ∨ 2 * x = H ∧ c % 2 = 1 <;> simp [h] <;> omega
  · by_cases h : H < 2 * x ∨ 2 * x = H ∧ c % 2 = 1 <;> simp [h] <;> omega
  · by_cases h : H ≤ 2 * x <;> simp [h] <;> omega
  · by_cases h : H ≤ 2 * x <;> simp [h] <;> omega
  · cases hb : roundsUp ⟨6, r⟩ neg c x k false
    · simp; omega
    · have : x ≠ 0 := fun h => by simp [h6 h] at hb
      simp; omega
  · intro hdvd mode _
    rw [hd hdvd, roundsUp_exact]
    simp; omega

/-! ### The numbers of a format -/

/-- The pattern of a magnitude with a sign. -/
theorem pattern_eq {t : Ty} {x : Nat} (hx : x < 2 ^ t.width) :
    x = t.signBit (x.testBit (t.width - 1)) + x % 2 ^ (t.width - 1) := by
  have hw : 2 ^ t.width = 2 * 2 ^ (t.width - 1) := by
    rw [← Nat.pow_succ', Nat.succ_eq_add_one, Nat.sub_add_cancel (width_pos t)]
  have hdm := Nat.div_add_mod' x (2 ^ (t.width - 1))
  have hq : x / 2 ^ (t.width - 1) < 2 := Nat.div_lt_of_lt_mul (by omega)
  unfold Ty.signBit
  rw [Nat.testBit_eq_decide_div_mod_eq]
  interval_cases h : x / 2 ^ (t.width - 1) <;> simp_all

/-- The numbers of a format: ±frac × 2^emin, and ±(2^f + frac) × 2^(emin + ex − 1) where the exponent field ex is not zero (R360). -/
theorem fIn_num_cases {t : Ty} {x : Nat} {n : Bool} {m : Nat} {e : Int} (hx : x < 2 ^ t.width) (h : fIn t x = .num n m e) :
    ∃ mag, x = t.signBit n + mag ∧ mag ≤ t.maxEnc ∧ mag < 2 ^ (t.width - 1) ∧
      ((m = mag ∧ mag < 2 ^ t.frac ∧ e = t.emin) ∨
       ∃ ex fr : Nat, mag = ex * 2 ^ t.frac + fr ∧ fr < 2 ^ t.frac ∧ 0 < ex ∧ m = 2 ^ t.frac + fr ∧ e = t.emin + (ex : Int) - 1) := by
  have hp : x % 2 ^ t.width = x := Nat.mod_eq_of_lt hx
  have hdm := Nat.div_add_mod' (x % 2 ^ (t.width - 1)) (2 ^ t.frac)
  have hfr := Nat.mod_lt (x % 2 ^ (t.width - 1)) (Nat.two_pow_pos t.frac)
  refine ⟨x % 2 ^ (t.width - 1), ?_⟩
  unfold fIn at h
  simp only [hp] at h
  split at h
  · split at h <;> cases h
  · next hle =>
    split at h
    · next hex =>
      cases h
      exact ⟨pattern_eq hx, not_lt.1 hle, Nat.mod_lt _ (Nat.two_pow_pos _), .inl ⟨by rw [hex] at hdm; omega, by rw [hex] at hdm; omega, rfl⟩⟩
    · next hex =>
      cases h
      exact ⟨pattern_eq hx, not_lt.1 hle, Nat.mod_lt _ (Nat.two_pow_pos _), .inr ⟨_, _, hdm.symm, hfr, Nat.pos_of_ne_zero hex, rfl, rfl⟩⟩

theorem bitLen_le {m k : Nat} (h : m < 2 ^ k) : bitLen m ≤ k := by
  rw [bitLen_eq_size]
  exact Nat.size_le.2 h

theorem bitLen_two_pow_add {fr k : Nat} (h : fr < 2 ^ k) : bitLen (2 ^ k + fr) = k + 1 := by
  rw [bitLen_eq_size]
  exact le_antisymm (Nat.size_le.2 (by rw [Nat.pow_succ]; omega)) (Nat.lt_size.2 (Nat.le_add_right _ _))

theorem cutAt_same (rn : Rnd) (neg : Bool) (m : Nat) (e : Int) : cutAt rn neg m e false e = (m, false) := by
  simp [cutAt]

/-- A number whose last place is that of the format rounds to its own encoding, with no flag. -/
theorem roundTo_of_place {t : Ty} {rn : Rnd} {n : Bool} {m mag : Nat} {e : Int} (hm : m ≠ 0)
    (hq : max (e + (bitLen m : Int) - (t.frac + 1 : Nat)) t.emin = e)
    (henc : ((e - t.emin) * (2 ^ t.frac : Int) + m).toNat = mag) (hmag : mag ≤ t.maxEnc) :
    roundTo t rn n m e false = (t.signBit n + mag, 0) := by
  have hm' : ¬(decide (m = 0) && !false) = true := by simpa using hm
  unfold roundTo
  simp only [if_neg hm', hq, cutAt_same, henc, if_neg (not_lt.2 hmag), Bool.false_eq_true, if_false]

/-- A number of a format is returned by RoundTo as it is, with no flag (R365). -/
theorem roundTo_fIn {t : Ty} {rn : Rnd} {x : Nat} {n : Bool} {m : Nat} {e : Int} (hx : x < 2 ^ t.width) (h : fIn t x = .num n m e) :
    roundTo t rn n m e false = (x, 0) := by
  obtain ⟨mag, rfl, hmag, -, ⟨rfl, hfr, rfl⟩ | ⟨ex, fr, rfl, hfr, hex, rfl, rfl⟩⟩ := fIn_num_cases hx h
  · by_cases hm : m = 0
    · rw [hm, roundTo_zero, Nat.add_zero]
    · have hlen := bitLen_le hfr
      exact roundTo_of_place hm (max_eq_right (by omega)) (by simp) hmag
  · refine roundTo_of_place (by positivity) ?_ ?_ hmag
    · rw [bitLen_two_pow_add hfr, max_eq_left (by omega)]
      omega
    · have hz : (t.emin + (ex : Int) - 1 - t.emin) * (2 ^ t.frac : Int) + ((2 ^ t.frac + fr : Nat) : Int) =
          ((ex * 2 ^ t.frac + fr : Nat) : Int) := by
        push_cast
        ring
      rw [hz, Int.toNat_natCast]

/-- Settles O8: the cut by its remainder in each mode, and RoundTo of a format's own numbers. -/
theorem roundToInteger : Obligations.RoundToInteger :=
  ⟨cut_by_mode, fun _ _ _ _ _ _ _ hx h => roundTo_fIn hx h⟩

end Sys2Proof.Proofs
end

section
/-! PROOFS. Conversions (spec/13 R379 to R383): what each instruction makes of a lane's value, and the fraction of `ffrx`. -/

namespace Sys2Proof.Proofs
open Sys2Proof.Machine Sys2Proof.Laws.Shapes

/-! ### The pattern of a number -/

theorem pattern_lt {t : Ty} {n : Bool} {mag : Nat} (h : mag < 2 ^ (t.width - 1)) : t.signBit n + mag < 2 ^ t.width := by
  have hw : 2 ^ t.width = 2 ^ (t.width - 1) + 2 ^ (t.width - 1) := by
    rw [← Nat.two_mul, ← Nat.pow_succ', Nat.succ_eq_add_one, Nat.sub_add_cancel (width_pos t)]
  cases n <;> simp only [Ty.signBit, Bool.false_eq_true, if_false, if_true] <;> omega

/-- A pattern whose exponent field is not zero is a number with the hidden bit (R360). -/
theorem fIn_normal {t : Ty} {n : Bool} {ex fr : Nat} (hfr : fr < 2 ^ t.frac) (hex : ex ≠ 0) (hw : ex * 2 ^ t.frac + fr < 2 ^ (t.width - 1))
    (hmax : ex * 2 ^ t.frac + fr ≤ t.maxEnc) :
    fIn t (t.signBit n + (ex * 2 ^ t.frac + fr)) = .num n (2 ^ t.frac + fr) (t.emin + (ex : Int) - 1) := by
  have hs : t.signBit n = n.toNat * 2 ^ (t.width - 1) := by cases n <;> simp [Ty.signBit]
  have hmag : (t.signBit n + (ex * 2 ^ t.frac + fr)) % 2 ^ (t.width - 1) = ex * 2 ^ t.frac + fr := by
    rw [hs, Nat.mul_comm, Nat.mul_add_mod, Nat.mod_eq_of_lt hw]
  have hbit : (t.signBit n + (ex * 2 ^ t.frac + fr)).testBit (t.width - 1) = n := by
    rw [Nat.testBit_eq_decide_div_mod_eq, hs, Nat.mul_comm, Nat.mul_add_div (Nat.two_pow_pos _), Nat.div_eq_of_lt hw]
    cases n <;> rfl
  have hq : (ex * 2 ^ t.frac + fr) / 2 ^ t.frac = ex := by
    rw [Nat.mul_comm, Nat.mul_add_div (Nat.two_pow_pos _), Nat.div_eq_of_lt hfr, Nat.add_zero]
  have hr : (ex * 2 ^ t.frac + fr) % 2 ^ t.frac = fr := by
    rw [Nat.mul_comm, Nat.mul_add_mod, Nat.mod_eq_of_lt hfr]
  unfold fIn
  simp only [Nat.mod_eq_of_lt (pattern_lt hw), hmag, hbit, hq, hr, if_neg (not_lt.2 hmax), if_neg hex]

/-! ### Fraction and exponent (R383) -/

/-- Shifted until its leading bit stands at bit k, a magnitude of at most k + 1 bits is 2^k and a fraction. -/
theorem normalised {m k : Nat} (hm : m ≠ 0) (hk : bitLen m ≤ k + 1) :
    ∃ fr, m * 2 ^ (k + 1 - bitLen m) = 2 ^ k + fr ∧ fr < 2 ^ k := by
  have hlen : bitLen (m * 2 ^ (k + 1 - bitLen m)) = k + 1 := by rw [bitLen_scale hm]; omega
  rw [bitLen_eq_size] at hlen
  have h1 : 2 ^ k ≤ m * 2 ^ (k + 1 - bitLen m) := Nat.lt_size.1 (by omega)
  have h2 : m * 2 ^ (k + 1 - bitLen m) < 2 ^ (k + 1) := Nat.size_le.1 hlen.le
  exact ⟨_, (Nat.add_sub_cancel' h1).symm, by rw [Nat.pow_succ] at h2; omega⟩

/-- The fraction field and the exponent field of a value from one half up to one stand in the format. -/
theorem half_to_one_fits {t : Ty} (ht : t = .f16 ∨ t = .bf16 ∨ t = .f32 ∨ t = .f64) {fr : Nat} (hfr : fr < 2 ^ t.frac) :
    2 ≤ t.bias ∧ (t.bias - 1) * 2 ^ t.frac + fr < 2 ^ (t.width - 1) ∧ (t.bias - 1) * 2 ^ t.frac + fr ≤ t.maxEnc := by
  rcases ht with rfl | rfl | rfl | rfl <;> simp only [Ty.frac, Ty.bias, Ty.width, Ty.maxEnc] at hfr ⊢ <;> omega

theorem frx_value {t : Ty} (ht : t = .f16 ∨ t = .bf16 ∨ t = .f32 ∨ t = .f64) {n : Bool} {m : Nat} (hm : m ≠ 0)
    (hlen : bitLen m ≤ t.frac + 1) :
    ∃ m' e', fIn t (roundTo t ⟨0, 0⟩ n m (-(bitLen m : Int)) false).1 = .num n m' e' ∧
      (roundTo t ⟨0, 0⟩ n m (-(bitLen m : Int)) false).2 = 0 ∧ topBit m' e' = -1 := by
  obtain ⟨fr, hfr, hlt⟩ := normalised hm hlen
  obtain ⟨hb, hw, hmax⟩ := half_to_one_fits ht hlt
  have hexp : -(bitLen m : Int) - ((t.frac + 1 - bitLen m : Nat) : Int) = t.emin + ((t.bias - 1 : Nat) : Int) - 1 := by
    unfold Ty.emin
    omega
  have hin := fIn_normal (n := n) hlt (by omega) hw hmax
  have hround := roundTo_fIn (rn := ⟨0, 0⟩) (x := t.signBit n + ((t.bias - 1) * 2 ^ t.frac + fr)) (pattern_lt hw) hin
  rw [← roundTo_scale t ⟨0, 0⟩ n m (t.frac + 1 - bitLen m), hfr, hexp, hround]
  refine ⟨_, _, hin, rfl, ?_⟩
  unfold topBit Ty.emin
  rw [bitLen_two_pow_add hlt]
  omega

theorem bitLen_fIn {t : Ty} {x : Nat} {n : Bool} {m : Nat} {e : Int} (hx : x < 2 ^ t.width) (h : fIn t x = .num n m e) :
    bitLen m ≤ t.frac + 1 := by
  obtain ⟨mag, -, -, -, ⟨rfl, hfr, -⟩ | ⟨ex, fr, -, hfr, -, rfl, -⟩⟩ := fIn_num_cases hx h
  · exact (bitLen_le hfr).trans (Nat.le_succ _)
  · exact (bitLen_two_pow_add hfr).le

/-! ### The instructions -/

/-- Settles O10: each instruction is `fpLanes` of its function; the fraction of `ffrx` by its encoding. -/
theorem floatConversions : Obligations.FloatConversions := by
  refine ⟨fun f src s b h => ⟨?_, ?_, ?_, ?_, ?_, ?_⟩, fun t x n m e ht hx h hm => ?_⟩
  · exact fp_completes _ h (exec_fcvt f src s) _ rfl
  · exact fp_completes _ h (exec_icvtf f src s) _ (funext fun l => by rw [ext_eq_asInt]; rfl)
  · refine fp_completes _ h (exec_fcvti f src s) _ (funext fun l => ?_)
    unfold Opnd.av
    generalize fIn src (lane (b.opnd s.idx f).a.vals l).toNat = v
    cases v with
    | nan q => rfl
    | inf n => cases n <;> rfl
    | num n m e =>
      simp only [toInt]
      rw [apply_ite (fun r : W64 × BitVec 5 => (r.1.toNat, r.2)), apply_ite (fun r : W64 × BitVec 5 => (r.1.toNat, r.2))]
      rfl
  · refine fp_completes _ h (exec_frnd f s) _ (funext fun l => ?_)
    unfold Opnd.av
    cases fIn f.ty (lane (b.opnd s.idx f).a.vals l).toNat with
    | nan q => simp only [sigFlag_one]
    | inf n => simp only [sigFlag_one]
    | num n m e => rfl
  · refine fp_completes _ h (exec_fldx f s) _ (funext fun l => ?_)
    unfold Opnd.av
    cases fIn f.ty (lane (b.opnd s.idx f).a.vals l).toNat with
    | nan q => simp only [ldx, sigFlag_one, Env.rndAll]
    | inf n => simp only [ldx, sigFlag_one, Env.rndAll]
    | num n m e => rfl
  · rw [exec_ffrx]
    unfold execFfrx computePair
    simp only [h, flagsOf_eq]
    rfl
  · obtain ⟨m', e', hin, hfl, htop⟩ := frx_value ht (n := n) hm (bitLen_fIn hx h)
    have hfrx : frx t x = (roundTo t ⟨0, 0⟩ n m (-(bitLen m : Int)) false, topBit m e + 1) := by
      unfold frx
      simp only [h, if_neg hm]
    rw [hfrx]
    exact ⟨m', e', hin, hfl, htop, (add_sub_cancel_right _ _).symm⟩

end Sys2Proof.Proofs
end

section
/-! PROOFS. The correctly rounded functions (spec/13 R384, R385): their values where no series is needed, and when they are usable. -/

namespace Sys2Proof.Proofs
open Sys2Proof.Machine Sys2Proof.Laws.Shapes

/-! ### Powers of two in a format -/

theorem roundTo_two_pow {t : Ty} {rn : Rnd} {n : Bool} {ex : Nat} (hex : 0 < ex) (hmax : ex * 2 ^ t.frac ≤ t.maxEnc) {e : Int}
    (he : e = t.emin + (ex : Int) - 1 + t.frac) : roundTo t rn n 1 e false = (t.signBit n + ex * 2 ^ t.frac, 0) := by
  have hlen : bitLen (2 ^ t.frac) = t.frac + 1 := bitLen_two_pow_add (fr := 0) (Nat.two_pow_pos _)
  rw [← roundTo_scale t rn n 1 t.frac e, one_mul]
  refine roundTo_of_place (Nat.two_pow_pos _).ne' ?_ ?_ hmax
  · rw [hlen, max_eq_left (by omega)]
    omega
  · have hz : (e - (t.frac : Int) - t.emin) * (2 ^ t.frac : Int) + ((2 ^ t.frac : Nat) : Int) = ((ex * 2 ^ t.frac : Nat) : Int) := by
      rw [he]
      push_cast
      ring
    rw [hz, Int.toNat_natCast]

section
variable {t : Ty} (ht : t = .f16 ∨ t = .bf16 ∨ t = .f32 ∨ t = .f64) {rn : Rnd} {n n' : Bool} {m m' : Nat} {e e' : Int}
include ht

theorem roundTo_one : roundTo t rn n 1 0 false = (t.signBit n + t.bias * 2 ^ t.frac, 0) := by
  refine roundTo_two_pow ?_ ?_ (by unfold Ty.emin; omega) <;> rcases ht with rfl | rfl | rfl | rfl <;> decide

theorem roundTo_half : roundTo t rn n 1 (-1) false = (t.signBit n + (t.bias - 1) * 2 ^ t.frac, 0) := by
  refine roundTo_two_pow ?_ ?_ ?_ <;> rcases ht with rfl | rfl | rfl | rfl <;> decide

theorem hasInf_of_scalar : t.hasInf = true := by
  rcases ht with rfl | rfl | rfl | rfl <;> rfl

end

/-! ### Exponentials and logarithms of exact powers -/

section
variable {t : Ty} {rn : Rnd} {n : Bool}

theorem bitLen_two_pow (k : Nat) : bitLen (2 ^ k) = k + 1 := bitLen_two_pow_add (fr := 0) (Nat.two_pow_pos _)

/-- A whole number below 2^14 has an exact power of two. -/
theorem fpExp2_int {k e : Nat} (hk : k < 2 ^ 14) :
    fpExp2 t rn (.num n (k * 2 ^ e) (-(e : Int))) = roundTo t rn false 1 (if n then -(k : Int) else k) false := by
  rcases Nat.eq_zero_or_pos k with rfl | hpos
  · simp [fpExp2]
  · have hpow := Nat.two_pow_pos e
    have hlen : bitLen k ≤ 14 := bitLen_le hk
    have hlen0 : 0 < bitLen k := by
      rw [bitLen_eq_size]
      exact Nat.size_pos.2 hpos
    have htop : topBit (k * 2 ^ e) (-(e : Int)) = (bitLen k : Int) - 1 := by
      unfold topBit
      rw [bitLen_scale hpos.ne']
      push_cast
      ring
    have hfix : toFix 0 (k * 2 ^ e) (-(e : Int)) = k := by
      unfold toFix
      rcases Nat.eq_zero_or_pos e with rfl | he
      · simp
      · rw [if_neg (by omega)]
        simp [Nat.mul_div_cancel k hpow]
    have hint : 0 ≤ -(e : Int) ∨ k * 2 ^ e % 2 ^ (-(-(e : Int))).toNat = 0 := .inr (by simp)
    have hm0 : k * 2 ^ e ≠ 0 := (Nat.mul_pos hpos hpow).ne'
    unfold fpExp2
    simp only [if_neg hm0, htop, if_neg (show ¬(bitLen k : Int) - 1 < -200 by omega), if_neg (show ¬14 ≤ (bitLen k : Int) - 1 by omega),
      if_pos hint, hfix]

/-- The logarithm to base two of a power of two is exact, and so is the natural one of 1. -/
theorem fpLog_two_pow {two : Bool} {k : Nat} {e : Int} (h : two = true ∨ (k : Int) + e = 0) :
    fpLog two t rn (.num false (2 ^ k) e) = roundTo t rn (decide ((k : Int) + e < 0)) ((k : Int) + e).natAbs 0 false := by
  have htop : topBit (2 ^ k) e = (k : Int) + e := by
    unfold topBit
    rw [bitLen_two_pow]
    push_cast
    ring
  have hexact : 2 ^ k = 2 ^ (bitLen (2 ^ k) - 1) ∧ (two = true ∨ (k : Int) + e = 0) := ⟨by rw [bitLen_two_pow]; rfl, h⟩
  unfold fpLog
  simp only [if_neg (Nat.two_pow_pos k).ne', Bool.false_eq_true, if_false, htop, if_pos hexact]

end

/-! ### Powers (IEEE 754-2019 clause 9.2.1) -/

section
variable {t : Ty} {rn : Rnd} {n n' : Bool} {m m' : Nat} {e e' : Int}

theorem fpPow_signalling {a b : FVal} (h : a = .nan true ∨ b = .nan true) : fpPow t rn a b = (t.nan, fNV) := by
  unfold fpPow
  exact if_pos h

theorem fpPow_trivial {a b : FVal} (ha : a ≠ .nan true) (hb : b ≠ .nan true)
    (h : b.isZero = true ∨ (fOrder a fOne = 0 ∧ a.isNan = false)) : fpPow t rn a b = roundTo t rn false 1 0 false := by
  have hs : ¬(a = .nan true ∨ b = .nan true) := not_or.2 ⟨ha, hb⟩
  unfold fpPow
  rw [if_neg hs, if_pos]
  simpa using h

theorem fOrder_one (k : Nat) : fOrder (.num false (2 ^ k) (-(k : Int))) fOne = 0 := by
  unfold fOne
  rw [fOrder_num (q := -(k : Int)) le_rfl (by omega)]
  simp [scaled_eq]

theorem fOrder_zero_one : fOrder (.num n 0 e) fOne ≠ 0 := by
  unfold fOne
  rw [fOrder_num (min_le_left e 0) (min_le_right e 0), scaled_zero, scaled_eq, if_pos]
  · decide
  · simp

theorem fOrder_negative_one : fOrder (.num true m e) fOne ≠ 0 := by
  unfold fOne
  rw [fOrder_num (min_le_left e 0) (min_le_right e 0), scaled_eq, scaled_eq, if_pos]
  · decide
  · have h1 := two_pow_pos (0 - min e 0).toNat
    have h2 : 0 ≤ (m : Int) * 2 ^ (e - min e 0).toNat := by positivity
    simp only [if_true, Bool.false_eq_true, if_false, Nat.cast_one]
    linarith

theorem fOrder_inf_one : fOrder (.inf n) fOne ≠ 0 := by
  cases n <;> decide

theorem fpPow_zero_base (hm' : 0 < m') : fpPow t rn (.num n 0 e) (.num n' m' e') =
    if n' then finish t rn (.inf (n && isOddInt m' e'), fDZ) else (t.signBit (n && isOddInt m' e'), 0) := by
  simp [fpPow, FVal.isNan, FVal.isZero, fOrder_zero_one, hm'.ne']

theorem fpPow_inf_base (hm' : 0 < m') : fpPow t rn (.inf n) (.num n' m' e') =
    if n' then (t.signBit (n && isOddInt m' e'), 0) else finish t rn (.inf (n && isOddInt m' e'), 0) := by
  simp [fpPow, FVal.isNan, FVal.isZero, fOrder_inf_one, hm'.ne']

/-- A negative number to no whole power is invalid. -/
theorem fpPow_negative_base (hm : 0 < m) (hi : e' < 0 ∧ ¬2 ^ (-e').toNat ∣ m') :
    fpPow t rn (.num true m e) (.num n' m' e') = (t.nan, fNV) := by
  have hm' : m' ≠ 0 := fun h => hi.2 (h ▸ dvd_zero _)
  have hint : isInt m' e' = false := by
    simp [isInt, hi.1, ← Nat.dvd_iff_mod_eq_zero, hi.2]
  simp [fpPow, FVal.isNan, FVal.isZero, fOrder_negative_one, hm.ne', hm', hint]

end

/-- An operation is invalid for a signalling NaN, and gives the canonical NaN for every NaN. -/
theorem functions_nan (t : Ty) (rn : Rnd) (q : Bool) :
    ∀ v ∈ [fpExp t rn (.nan q), fpExp2 t rn (.nan q), fpLog false t rn (.nan q), fpLog true t rn (.nan q), fpTrig false t rn (.nan q),
      fpTrig true t rn (.nan q), fpTanh t rn (.nan q), fpLogistic t rn (.nan q), fpErf t rn (.nan q)],
      v = (t.nan, if q then fNV else 0) := by
  cases q <;> simp [fpExp, fpExp2, fpLog, fpTrig, fpTanh, fpLogistic, fpErf, sigFlag]

theorem fpAtan2_nan {t : Ty} {rn : Rnd} {a b : FVal} (h : a.isNan = true ∨ b.isNan = true) :
    fpAtan2 t rn a b = (t.nan, sigFlag [a, b]) := by
  cases a <;> cases b <;> simp [FVal.isNan] at h <;> rfl

/-! ### When a function's result is usable (R385) -/

/-- What `fpFun` does. -/
theorem fun_completes {f : Form} {s : State} {b : Blk} {i : Instr} (v : Rnd → FVal → FVal → FRes) (h : s.blk? = some b)
    (he : exec i s = fpFun f v s) (u : Nat → FRes)
    (hu : ∀ l, v (s.env.rnd f.rm false l 0) (fIn f.ty (lane (b.opnd s.idx f).a.vals l).toNat)
      (fIn f.ty (lane (b.opnd s.idx f).b.vals l).toNat) = u l) :
    let flags := if f.vc = .uni then (if (b.opnd s.idx f).live = 0 then 0 else (u 0).2)
      else (lanesOf (b.opnd s.idx f).live).foldl (fun a l => a ||| (u l).2) 0
    let tok := laneResult f (b.opnd s.idx f) fun l => BitVec.ofNat 64 (u l).1
    if s.fixedTiming = true then Completes i f (64, 65) s b tok flags
    else ∃ n, 14 ≤ n ∧ n ≤ 64 ∧ exec i s = .next (({ s with free := s.free + 1 } : State).setBlk
      (b.completed s.clock s.idx f (s.clock + if s.twoPass then n + 1 else n) tok flags)) := by
  obtain rfl : (fun l => v (s.env.rnd f.rm false l 0) (fIn f.ty (lane (b.opnd s.idx f).a.vals l).toNat)
      (fIn f.ty (lane (b.opnd s.idx f).b.vals l).toNat)) = u := funext hu
  unfold fpFun State.latFun at he
  by_cases ht : s.fixedTiming = true
  · simp only [if_pos ht] at he ⊢
    exact fp_completes _ h he _ rfl
  · simp only [if_neg ht] at he ⊢
    have hmod := Nat.mod_lt (Config.slowPath s.free) (show 0 < 51 by decide)
    refine ⟨14 + Config.slowPath s.free % 51, by omega, by omega, ?_⟩
    rw [he]
    unfold fpLanes compute
    rw [show State.blk? { s with free := s.free + 1 } = some b from h]
    simp only [flagsOf_eq]
    rfl

/-! ### Values at zeros and infinities -/

section
variable {t : Ty} (ht : t = .f16 ∨ t = .bf16 ∨ t = .f32 ∨ t = .f64) {rn : Rnd}
include ht

/-- An infinity, delivered in a scalar format. -/
theorem finish_inf_scalar (n : Bool) (fl : BitVec 5) : finish t rn (.inf n, fl) = (t.signBit n + t.maxEnc + 1, fl) :=
  finish_inf (hasInf_of_scalar ht) n fl

theorem roundTo_plus_one : roundTo t rn false 1 0 false = (t.bias * 2 ^ t.frac, 0) :=
  (roundTo_one ht).trans (by rw [Ty.signBit, if_neg Bool.false_ne_true, Nat.zero_add])

theorem roundTo_plus_half : roundTo t rn false 1 (-1) false = ((t.bias - 1) * 2 ^ t.frac, 0) :=
  (roundTo_half ht).trans (by rw [Ty.signBit, if_neg Bool.false_ne_true, Nat.zero_add])

theorem functions_zero (n : Bool) (e : Int) :
    fpExp t rn (.num n 0 e) = (t.bias * 2 ^ t.frac, 0) ∧ fpExp2 t rn (.num n 0 e) = (t.bias * 2 ^ t.frac, 0) ∧
      (∀ two, fpLog two t rn (.num n 0 e) = (t.signBit true + t.maxEnc + 1, fDZ)) ∧ fpTrig false t rn (.num n 0 e) = (t.signBit n, 0) ∧
      fpTrig true t rn (.num n 0 e) = (t.bias * 2 ^ t.frac, 0) ∧ fpTanh t rn (.num n 0 e) = (t.signBit n, 0) ∧
      fpLogistic t rn (.num n 0 e) = ((t.bias - 1) * 2 ^ t.frac, 0) ∧ fpErf t rn (.num n 0 e) = (t.signBit n, 0) := by
  refine ⟨?_, ?_, fun two => ?_, ?_, ?_, ?_, ?_, ?_⟩
  · simp [fpExp, roundTo_plus_one ht]
  · simp [fpExp2, roundTo_plus_one ht]
  · simp [fpLog, finish_inf_scalar ht]
  · simp [fpTrig]
  · simp [fpTrig, roundTo_plus_one ht]
  · simp [fpTanh]
  · simp [fpLogistic, roundTo_plus_half ht]
  · simp [fpErf]

theorem functions_inf :
    fpExp t rn (.inf false) = (t.signBit false + t.maxEnc + 1, 0) ∧ fpExp2 t rn (.inf false) = (t.signBit false + t.maxEnc + 1, 0) ∧
      (∀ two, fpLog two t rn (.inf false) = (t.signBit false + t.maxEnc + 1, 0)) ∧
      fpLogistic t rn (.inf false) = (t.bias * 2 ^ t.frac, 0) ∧
      (∀ n, fpTanh t rn (.inf n) = (t.signBit n + t.bias * 2 ^ t.frac, 0)) ∧
      (∀ n, fpErf t rn (.inf n) = (t.signBit n + t.bias * 2 ^ t.frac, 0)) :=
  have h := finish_inf_scalar ht (rn := rn) false 0
  ⟨h, h, fun _ => h, roundTo_plus_one ht,
    fun _ => roundTo_one ht, fun _ => roundTo_one ht⟩

end

/-- Settles O11: the instructions are `fpFun`; each listed value is one branch of its function. -/
theorem floatFunctions : Obligations.FloatFunctions := by
  intro f s b h
  refine ⟨fun_completes _ h (exec_fexp f s) _ fun _ => rfl, fun_completes _ h (exec_fexp2 f s) _ fun _ => rfl,
    fun_completes _ h (exec_flog f s) _ fun _ => rfl, fun_completes _ h (exec_flog2 f s) _ fun _ => rfl,
    fun_completes _ h (exec_fsin f s) _ fun _ => rfl, fun_completes _ h (exec_fcos f s) _ fun _ => rfl,
    fun_completes _ h (exec_ftanh f s) _ fun _ => rfl, fun_completes _ h (exec_flgst f s) _ fun _ => rfl,
    fun_completes _ h (exec_ferf f s) _ fun _ => rfl, fun_completes _ h (exec_fatan2 f s) _ fun _ => rfl,
    fun_completes _ h (exec_fpow f s) _ fun _ => rfl, fun ht l => ?_⟩
  beta_reduce
  generalize fIn f.ty (lane (b.opnd s.idx f).a.vals l).toNat = A
  generalize fIn f.ty (lane (b.opnd s.idx f).b.vals l).toNat = B
  generalize s.env.rnd f.rm false l 0 = rn
  refine ⟨?_, ?_, ?_, ?_, ?_, ?_, ?_, ?_, ?_, ?_, ?_, ?_, ?_, ?_, ?_⟩
  · rintro n e rfl
    obtain ⟨h1, h2, h3, h4, h5, h6, h7, h8⟩ := functions_zero ht (rn := rn) n e
    refine ⟨h1, h2, h3 false, h3 true, h4, h5, h6, h7, h8, ?_⟩
    rintro m d rfl
    simp [fpAtan2, Ty.signBit]
  · rintro rfl
    obtain ⟨h1, h2, h3, h4, h5, h6⟩ := functions_inf ht (rn := rn)
    exact ⟨h1, h2, h3 false, h3 true, rfl, rfl, (h5 false).trans (by simp [Ty.signBit]), h4, (h6 false).trans (by simp [Ty.signBit])⟩
  · rintro rfl
    obtain ⟨-, -, -, -, h5, h6⟩ := functions_inf ht (rn := rn)
    exact ⟨rfl, rfl, rfl, rfl, rfl, rfl, h5 true, rfl, h6 true⟩
  · rintro m e rfl hm
    simp [fpLog, hm.ne']
  · rintro n k e rfl hk
    exact fpExp2_int hk
  · rintro k e rfl
    refine ⟨fpLog_two_pow (.inl rfl), fun hz => ?_⟩
    rw [fpLog_two_pow (.inr hz), hz]
    rfl
  · rintro q rfl
    exact functions_nan f.ty rn q
  · rintro n m e rfl rfl
    rfl
  · intro hn
    rw [fpAtan2_nan hn, sigFlag_two]
  · exact fpPow_signalling
  · rintro ha ⟨n, e, rfl⟩
    exact (fpPow_trivial ha (by simp) (.inl rfl)).trans (roundTo_plus_one ht)
  · rintro k rfl hb
    exact (fpPow_trivial (by simp) hb (.inr ⟨fOrder_one k, rfl⟩)).trans (roundTo_plus_one ht)
  · rintro n e n' m' e' rfl rfl hm'
    rw [fpPow_zero_base hm', finish_inf_scalar ht]
    rfl
  · rintro n n' m' e' rfl rfl hm'
    rw [fpPow_inf_base hm', finish_inf_scalar ht]
    rfl
  · rintro m e n' m' e' rfl rfl hm hi
    exact fpPow_negative_base hm hi

end Sys2Proof.Proofs
end

section
/-! PROOFS. Registers (spec/12 R329, R330, spec/06 R177 to R181, spec/08 R247): what a read returns after a write, the supervisor bank,
and `rd` and `wr` at issue. -/

namespace Sys2Proof.Proofs
open Sys2Proof.Machine Sys2Proof.Laws.Shapes

/-! ### The gang beside its block -/

section
variable (s : State) (b : Blk)

@[simp] theorem setBlk_g_regs : (s.setBlk b).g.regs = s.g.regs := by unfold State.setBlk; split <;> rfl
@[simp] theorem setBlk_g_ks : (s.setBlk b).g.ks = s.g.ks := by unfold State.setBlk; split <;> rfl
@[simp] theorem setBlk_g_fst : (s.setBlk b).g.fst = s.g.fst := by unfold State.setBlk; split <;> rfl

end

/-! ### Register words -/

section
variable (g : Gang) (k : Nat) (x : W64)

@[simp] theorem word_setWord (j : Nat) : (g.setWord k x).word j = if j = k then x else g.word j := tget_tset ..

@[simp] theorem setWord_sup : (g.setWord k x).sup = g.sup := rfl

@[simp] theorem setWord_ks : (g.setWord k x).ks = g.ks := rfl

end

/-- The lanes of a list written to a v register. -/
def writeLanes (n : Nat) (x : Lanes) (ls : List Nat) (g : Gang) : Gang :=
  ls.foldl (fun g l => g.setWord (vKeyAt g.sup n l) (lane x l)) g

theorem writeReg_v (g : Gang) (n : BitVec 7) (m : Mask) (x : Lanes) : g.writeReg (.v n) m x = writeLanes n.toNat x (lanesOf m) g := rfl

section
variable (n : Nat) (x : Lanes) (ls : List Nat) (g : Gang)

theorem vKeyAt_inj {sup : Bool} {l l' : Nat} (h : vKeyAt sup n l = vKeyAt sup n l') : l = l' := by
  unfold vKeyAt vKey at h
  split at h <;> omega

@[simp] theorem writeLanes_sup : (writeLanes n x ls g).sup = g.sup := by
  induction ls generalizing g with
  | nil => rfl
  | cons l ls ih => exact ih _

@[simp] theorem writeLanes_ks : (writeLanes n x ls g).ks = g.ks := by
  induction ls generalizing g with
  | nil => rfl
  | cons l ls ih => exact ih _

theorem word_writeLanes_other {k : Nat} (h : ∀ l ∈ ls, vKeyAt g.sup n l ≠ k) : (writeLanes n x ls g).word k = g.word k := by
  induction ls generalizing g with
  | nil => rfl
  | cons l ls ih =>
    refine (ih (g.setWord _ _) fun l' hl' => h l' (List.mem_cons_of_mem _ hl')).trans ?_
    rw [word_setWord, if_neg (h l List.mem_cons_self).symm]

theorem word_writeLanes {l : Nat} (h : l ∈ ls) : (writeLanes n x ls g).word (vKeyAt g.sup n l) = lane x l := by
  induction ls generalizing g with
  | nil => cases h
  | cons l' ls ih =>
    by_cases hl : l ∈ ls
    · exact ih (g.setWord _ _) hl
    · obtain rfl : l = l' := (List.mem_cons.1 h).resolve_right hl
      refine (word_writeLanes_other n x ls (g.setWord _ _) fun l' hl' he => hl ((vKeyAt_inj n he : l' = l) ▸ hl')).trans ?_
      rw [word_setWord]
      exact if_pos rfl

end

/-! ### Reading lanes of registers -/

section
variable (g : Gang) {l : Nat}

theorem lane_readReg_v (n : BitVec 7) (h : l < 32) : lane (g.readReg (.v n)) l = g.word (vKeyAt g.sup n.toNat l) := by
  rw [Gang.readReg, lane_lanes, if_pos h]

theorem lane_readReg_s (n : BitVec 6) (h : l < 32) : lane (g.readReg (.s n)) l = g.word (sKeyAt g.sup n.toNat) := by
  rw [Gang.readReg, lane_splat, if_pos h]

end

/-- Different registers stand in different words. -/
theorem vKeyAt_ne {sup : Bool} {n n' : BitVec 7} (h : n ≠ n') {l l' : Nat} (hl : l < 32) (hl' : l' < 32) :
    vKeyAt sup n.toNat l ≠ vKeyAt sup n'.toNat l' := by
  have hn : n.toNat ≠ n'.toNat := fun he => h (BitVec.eq_of_toNat_eq he)
  have h1 := n.isLt
  have h2 := n'.isLt
  unfold vKeyAt vKey
  split <;> split <;> simp_all <;> omega

theorem vKeyAt_ne_sKeyAt (sup : Bool) (n : BitVec 7) (n' : BitVec 6) {l : Nat} (hl : l < 32) :
    vKeyAt sup n.toNat l ≠ sKeyAt sup n'.toNat := by
  have h1 := n.isLt
  have h2 := n'.isLt
  unfold vKeyAt vKey sKeyAt sKey
  split <;> split <;> simp_all <;> omega

theorem sKeyAt_ne {sup : Bool} {n n' : BitVec 6} (h : n ≠ n') : sKeyAt sup n.toNat ≠ sKeyAt sup n'.toNat := by
  have hn : n.toNat ≠ n'.toNat := fun he => h (BitVec.eq_of_toNat_eq he)
  have h1 := n.isLt
  have h2 := n'.isLt
  unfold sKeyAt sKey
  split <;> split <;> simp_all <;> omega

/-! ### What a read returns after a write (R281, R329, R330) -/

section
variable (g : Gang) (m : Mask) (x : Lanes) {l : Nat}

theorem writeReg_s (n : BitVec 6) (hm : m ≠ 0) : g.writeReg (.s n) m x = g.setWord (sKeyAt g.sup n.toNat) (lane x 0) := if_neg hm

theorem writeReg_s_null (n : BitVec 6) : g.writeReg (.s n) 0 x = g := by simp [Gang.writeReg]

theorem read_v_write_v (n : BitVec 7) (h : l < 32) :
    lane ((g.writeReg (.v n) m x).readReg (.v n)) l = if m.getLsbD l then lane x l else lane (g.readReg (.v n)) l := by
  rw [lane_readReg_v _ n h, lane_readReg_v _ n h, writeReg_v, writeLanes_sup]
  split
  next hm => exact word_writeLanes _ _ _ _ ((lanesOf_mem m l).2 ⟨h, hm⟩)
  next hm =>
    refine word_writeLanes_other _ _ _ _ fun l' hl' he => hm ?_
    rw [← vKeyAt_inj _ he]
    exact ((lanesOf_mem m l').1 hl').2

theorem read_v_write_v_other {n n' : BitVec 7} (hn : n ≠ n') (h : l < 32) :
    lane ((g.writeReg (.v n) m x).readReg (.v n')) l = lane (g.readReg (.v n')) l := by
  rw [lane_readReg_v _ n' h, lane_readReg_v _ n' h, writeReg_v, writeLanes_sup]
  exact word_writeLanes_other _ _ _ _ fun l' hl' => vKeyAt_ne hn ((lanesOf_mem m l').1 hl').1 h

theorem read_s_write_v (n : BitVec 7) (n' : BitVec 6) (h : l < 32) :
    lane ((g.writeReg (.v n) m x).readReg (.s n')) l = lane (g.readReg (.s n')) l := by
  rw [lane_readReg_s _ n' h, lane_readReg_s _ n' h, writeReg_v, writeLanes_sup]
  exact word_writeLanes_other _ _ _ _ fun l' hl' => vKeyAt_ne_sKeyAt _ _ _ ((lanesOf_mem m l').1 hl').1

theorem read_s_write_s (n : BitVec 6) (h : l < 32) :
    lane ((g.writeReg (.s n) m x).readReg (.s n)) l = if m = 0 then lane (g.readReg (.s n)) l else lane x 0 := by
  split
  next hm => rw [hm, writeReg_s_null]
  next hm => rw [writeReg_s g m x n hm, lane_readReg_s _ n h, setWord_sup, word_setWord, if_pos rfl]

theorem read_s_write_s_other {n n' : BitVec 6} (hn : n ≠ n') (h : l < 32) :
    lane ((g.writeReg (.s n) m x).readReg (.s n')) l = lane (g.readReg (.s n')) l := by
  by_cases hm : m = 0
  · rw [hm, writeReg_s_null]
  · rw [writeReg_s g m x n hm, lane_readReg_s _ n' h, lane_readReg_s _ n' h, setWord_sup, word_setWord, if_neg (sKeyAt_ne hn).symm]

theorem read_v_write_s (n : BitVec 6) (n' : BitVec 7) (h : l < 32) :
    lane ((g.writeReg (.s n) m x).readReg (.v n')) l = lane (g.readReg (.v n')) l := by
  by_cases hm : m = 0
  · rw [hm, writeReg_s_null]
  · rw [writeReg_s g m x n hm, lane_readReg_v _ n' h, lane_readReg_v _ n' h, setWord_sup, word_setWord,
      if_neg (vKeyAt_ne_sKeyAt _ _ _ h)]

theorem writeReg_k_zero : g.writeReg (.k 0) m x = g := rfl

theorem writeReg_k_regs (n : BitVec 4) : (g.writeReg (.k n) m x).regs = g.regs := by
  unfold Gang.writeReg Gang.setK
  simp only
  split <;> rfl

theorem writeReg_s_ks (n : BitVec 6) : (g.writeReg (.s n) m x).ks = g.ks := by
  unfold Gang.writeReg
  simp only
  split <;> rfl

theorem kreg_setK {n : Nat} (hn : n ≠ 0) (hl : n < g.ks.length) (y : W32) (n' : Nat) :
    (g.setK n y).kreg n' = if n' = n then y else g.kreg n' := by
  unfold Gang.setK Gang.kreg
  rw [if_neg hn]
  by_cases h : n' = n
  · subst h
    simp [hn, hl]
  · simp only [if_neg h, List.getD_eq_getElem?_getD, List.getElem?_set_ne (Ne.symm h)]

theorem kreg_setK_other {n n' : Nat} (h : n ≠ n') (y : W32) : (g.setK n y).kreg n' = g.kreg n' := by
  unfold Gang.setK
  split
  · rfl
  · simp only [Gang.kreg, List.getD_eq_getElem?_getD, List.getElem?_set_ne h]

theorem read_k_write_k {n : BitVec 4} (hn : n ≠ 0) (hl : n.toNat < g.ks.length) {i : Nat} (hi : i < 32) :
    ((g.writeReg (.k n) m x).kreg n.toNat).getLsbD i = if m.getLsbD i then (lane x 0).getLsbD i else (g.kreg n.toNat).getLsbD i := by
  have hn' : n.toNat ≠ 0 := fun h => hn (BitVec.eq_of_toNat_eq h)
  unfold Gang.writeReg
  rw [kreg_setK g hn' hl, if_pos rfl]
  simp only [BitVec.getLsbD_or, BitVec.getLsbD_and, BitVec.getLsbD_not, BitVec.getLsbD_setWidth, hi]
  cases m.getLsbD i <;> simp

end

/-! ### The supervisor bank (R177, R247) -/

/-- The gang at a privilege. -/
def atPrivilege (g : Gang) (p : Bool) : Gang := { g with sup := p }

theorem writeLanes_bank {n : Nat} (hn : n < 112) (x : Lanes) (ls : List Nat) (g : Gang) :
    atPrivilege (writeLanes n x ls (atPrivilege g true)) false = writeLanes n x ls (atPrivilege g false) := by
  have hkey (p : Bool) (l : Nat) : vKeyAt p n l = vKey n l := by
    simp [vKeyAt, Nat.not_le.2 hn]
  induction ls generalizing g with
  | nil => rfl
  | cons l ls ih =>
    have h := ih (g.setWord (vKey n l) (lane x l))
    have h' (p : Bool) : writeLanes n x (l :: ls) (atPrivilege g p) = writeLanes n x ls (atPrivilege (g.setWord (vKey n l) (lane x l)) p) := by
      rw [← hkey p l]
      rfl
    rw [h', h', h]

section
variable (g : Gang) (m : Mask) (x : Lanes) {l : Nat}

/-- A handler's upper v registers are no user register. -/
theorem user_read_after_sup_write_v {n : BitVec 7} (hn : 112 ≤ n.toNat) (n' : BitVec 7) (h : l < 32) :
    lane ((atPrivilege ((atPrivilege g true).writeReg (.v n) m x) false).readReg (.v n')) l =
      lane ((atPrivilege g false).readReg (.v n')) l := by
  rw [lane_readReg_v _ n' h, lane_readReg_v _ n' h, writeReg_v]
  refine word_writeLanes_other _ _ _ (atPrivilege g true) fun l' _ => ?_
  have h2 := n'.isLt
  simp only [atPrivilege, vKeyAt, vKey, hn]
  simp
  omega

theorem user_read_after_sup_write_s {n : BitVec 6} (hn : 48 ≤ n.toNat) (n' : BitVec 6) (h : l < 32) :
    lane ((atPrivilege ((atPrivilege g true).writeReg (.s n) m x) false).readReg (.s n')) l =
      lane ((atPrivilege g false).readReg (.s n')) l := by
  by_cases hm : m = 0
  · rw [hm, writeReg_s_null]
    rfl
  · have h2 := n'.isLt
    rw [lane_readReg_s _ n' h, lane_readReg_s _ n' h, writeReg_s _ m x n hm]
    refine (word_setWord (atPrivilege g true) _ _ _).trans (if_neg ?_)
    simp only [atPrivilege, sKeyAt, sKey, hn]
    simp
    omega

/-- The lower v registers are the user's. -/
theorem sup_v_is_user {n : BitVec 7} (hn : n.toNat < 112) :
    (atPrivilege g true).readReg (.v n) = (atPrivilege g false).readReg (.v n) ∧
      atPrivilege ((atPrivilege g true).writeReg (.v n) m x) false = (atPrivilege g false).writeReg (.v n) m x := by
  refine ⟨?_, writeLanes_bank hn x _ g⟩
  unfold Gang.readReg
  refine congrArg lanes (funext fun l => ?_)
  simp [atPrivilege, vKeyAt, Nat.not_le.2 hn, Gang.word]

theorem sup_s_is_user {n : BitVec 6} (hn : n.toNat < 48) :
    (atPrivilege g true).readReg (.s n) = (atPrivilege g false).readReg (.s n) ∧
      atPrivilege ((atPrivilege g true).writeReg (.s n) m x) false = (atPrivilege g false).writeReg (.s n) m x := by
  have hkey (p : Bool) : sKeyAt p n.toNat = sKey n.toNat := by
    simp [sKeyAt, Nat.not_le.2 hn]
  refine ⟨by simp [Gang.readReg, hkey, Gang.word, atPrivilege], ?_⟩
  by_cases hm : m = 0
  · rw [hm, writeReg_s_null, writeReg_s_null]
    rfl
  · rw [writeReg_s _ m x n hm, writeReg_s _ m x n hm, hkey, hkey]
    rfl

end

/-! ### `rd` and `wr` at issue -/

section
variable {f : Form} {r : Reg} {s : State} {b : Blk} {n : Nat} {ls : List Nat}

/-- A read that finds its register: the block with its token. -/
def readDone (f : Form) (r : Reg) (s : State) (b : Blk) : State :=
  s.setBlk (b.completed s.clock s.idx f (s.clock + if s.twoPass then 3 else 2)
    (tokOf r.cls (s.g.readReg r) (~~~(b.opnd s.idx f).pred)) 0)

theorem or_no_flags (b : Blk) : b.flags ||| 0 = b.flags := BitVec.or_zero

theorem rd_without_line (h : s.blk? = some b) (hl : regLines s.g.sup r = []) : exec (.rd f r) s = .next (readDone f r s b) := by
  rw [exec_rd]
  unfold execRd
  simp only [h, hl, readDone, Blk.completed, or_no_flags]
  rfl

theorem rd_ready (h : s.blk? = some b) (hl : regLines s.g.sup r = n :: ls) (hr : s.lineReady n = true) :
    exec (.rd f r) s = .next ((readDone f r s b).touchLine n false) := by
  rw [exec_rd]
  unfold execRd
  simp only [h, hl, hr, readDone, Blk.completed, or_no_flags]
  rfl

theorem rd_filling (h : s.blk? = some b) (hl : regLines s.g.sup r = n :: ls) (hr : s.lineReady n = false)
    (hf : b.fills.contains n = true) : exec (.rd f r) s = .next (s.setBlk (b.markIssued s.idx s.clock)) := by
  rw [exec_rd]
  unfold execRd
  simp [h, hl, hr, (List.contains_iff_mem.1 hf : n ∈ b.fills), State.issuedNow]

theorem rd_no_entry (h : s.blk? = some b) (hl : regLines s.g.sup r = n :: ls) (hr : s.lineReady n = false)
    (hf : b.fills.contains n = false) (h8 : 8 ≤ (s.core.quarterAt s.g.quarter).fills.length) : exec (.rd f r) s = .next s := by
  rw [exec_rd]
  unfold execRd
  simp only [h, hl, hr, hf, if_neg (Nat.not_lt.2 h8), Bool.false_eq_true, if_false]

theorem rd_fill (h : s.blk? = some b) (hl : regLines s.g.sup r = n :: ls) (hr : s.lineReady n = false)
    (hf : b.fills.contains n = false) (h8 : (s.core.quarterAt s.g.quarter).fills.length < 8) :
    exec (.rd f r) s = .next (((s.setBlk ({ b with fills := n :: b.fills }.markIssued s.idx s.clock)).modCore s.g.core fun c =>
      c.modQuarter s.g.quarter fun q => { q with fills := q.fills ++ [(s.gid, n)] }).offCore (.gang s.gid) (.registerFill n .data)) := by
  rw [exec_rd]
  unfold execRd
  simp only [h, hl, hr, hf, if_pos h8, Bool.false_eq_true, if_false]

end

/-- Settles O14: words by `word_setWord`, registers by the words that they stand in, `rd` by its branches. -/
theorem registerAccess : Obligations.RegisterAccess := by
  refine ⟨fun g m x l hl => ⟨rfl, writeReg_k_zero g m x, fun n => read_v_write_v g m x n hl, fun n n' hn => read_v_write_v_other g m x hn hl,
    fun n n' => read_s_write_v g m x n n' hl, fun n => read_s_write_s g m x n hl, fun n n' hn => read_s_write_s_other g m x hn hl,
    fun n n' => read_v_write_s g m x n n' hl, fun n i hn hk hi => read_k_write_k g m x hn hk hi,
    fun n n' hn => kreg_setK_other g (fun h => hn (BitVec.eq_of_toNat_eq h)) _, writeReg_k_regs g m x, fun n => writeLanes_ks _ _ _ _,
    writeReg_s_ks g m x⟩, fun g m x l hl => ⟨fun n n' hn => user_read_after_sup_write_v g m x hn n' hl,
    fun n n' hn => user_read_after_sup_write_s g m x hn n' hl, fun n => sup_v_is_user g m x, fun n => sup_s_is_user g m x⟩,
    fun f r s b h => ⟨departs_of h (exec_wr f r s), ?_, fun n hn => ⟨rd_ready h hn, rd_filling h hn, rd_no_entry h hn, fun hr hf h8 => ?_⟩⟩⟩
  · rintro n rfl
    exact rd_without_line h rfl
  · refine ⟨_, rd_fill h hn hr hf h8, ?_⟩
    exact ⟨setBlk_blk s _, ⟨Config.freeDelay s.free, by simp⟩, by simp, by simp, by simp, by simp⟩

end Sys2Proof.Proofs
end

section
/-! PROOFS. Exits, scheduling and system instructions at issue (spec/12 R335 to R342, spec/16 R457 to R467): departures, the checks that
precede them, and what supervisor privilege guards. -/

namespace Sys2Proof.Proofs
open Sys2Proof.Machine Sys2Proof.Laws.Shapes

/-! ### Checks and privilege -/

section
variable {f : Form} {s : State} {b : Blk}

theorem acts_iff (o : Opnd) : o.acts = true ↔ o.live ≠ 0 := by simp [Opnd.acts]

theorem acts_false_iff (o : Opnd) : o.acts = false ↔ o.live = 0 := by simp [Opnd.acts]

theorem needSup_of_sup (n : Nat) (k : State → Out) (h : s.g.sup = true) : needSup n k s = k s := if_pos h

/-- The `PRIV` fault of user mode (R321, R457). -/
theorem needSup_of_user (n : Nat) (k : State → Out) (hs : s.g.sup = false) (h : s.blk? = some b) :
    needSup n k s = .next (s.raise { code := 16, sub := n, lanes := b.active }) := by
  unfold needSup
  simp only [hs, h, Bool.false_eq_true, if_false]

/-- Only a handler's `regang`, and under fixed order its gated instructions, are barred (R248). -/
theorem spawn_bars (d : W32) : s.handlerBars (.spawn f d) = true ↔ s.g.sup = true ∧ s.launchOf.fixord = true := by
  simp [State.handlerBars, Instr.gated]

theorem live_nonzero {s : State} {b : Blk} {f : Form} (h : (b.opnd s.idx f).live ≠ 0) : (b.opnd s.idx f).acts = true :=
  (acts_iff _).2 h

end

/-! ### Exits and scheduling -/

/-- Settles O15: each exit is `depart` behind its check. -/
theorem exitInstructions : Obligations.ExitInstructions := by
  intro f d s b h
  refine ⟨departs_of h (exec_br f d s), ?_, ?_, ?_, ?_, ?_, ?_, ?_⟩
  · rw [exec_bl]
    unfold execBl
    simp only [h, Blk.completed, or_no_flags]
    rfl
  · exact fun ho => departs_checked _ h (exec_jr f s) (if_pos ho)
  · exact fun ho => checked_faults _ h (exec_jr f s) (if_neg ho)
  · intro hs
    refine departs_checked _ h (exec_regang f d s) (if_neg ?_)
    rw [Bool.and_eq_true, acts_iff]
    rintro ⟨h1, h2⟩
    rcases hs with hs | hs
    · simp [hs] at h1
    · exact h2 hs
  · intro hs hl
    exact checked_faults _ h (exec_regang f d s) (if_pos (by rw [hs, live_nonzero hl]; rfl))
  · intro hs
    refine departs_checked _ h (exec_exit f s) (if_neg ?_)
    rw [Bool.and_eq_true, acts_iff, bne_iff_ne]
    rintro ⟨h1, h2⟩
    exact hs.elim h1 h2
  · intro hl hb
    refine checked_faults _ h (exec_exit f s) (if_pos ?_)
    rw [Bool.and_eq_true, acts_iff, bne_iff_ne]
    exact ⟨hl, hb⟩

/-- Settles O16: departures, with the checks of `rquota`, `spawn` and `enq` before them. -/
theorem schedulingInstructions : Obligations.SchedulingInstructions := by
  intro f d s b h
  have hq (q : Nat) : ((decide (1 ≤ q) && decide (q ≤ 15) || decide (256 < q)) = true) ↔ (1 ≤ q ∧ q ≤ 15) ∨ 256 < q := by simp
  refine ⟨departs_of h (exec_yield f s), fun hg => ?_, fun hl hg => ?_, fun hg => ?_, fun hg hl => ?_, ?_, ?_⟩
  · rw [exec_rquota]
    unfold execRquota
    simp only [h]
    rw [if_neg]
    · simp only [Blk.completed, or_no_flags]
      rfl
    · rw [Bool.and_eq_true, acts_iff, hq]
      rintro ⟨h1, h2⟩
      rcases hg with hg | hg | hg
      · exact h1 hg
      · omega
      · omega
  · unfold Faults
    rw [exec_rquota]
    unfold execRquota
    simp only [h]
    rw [if_pos]
    · rfl
    · rw [Bool.and_eq_true, acts_iff, hq]
      exact ⟨hl, hg⟩
  · refine departs_checked _ h (exec_spawn f d s) (if_neg ?_)
    rw [Bool.and_eq_true, acts_iff, spawn_bars]
    rintro ⟨h1, h2⟩
    exact hg.elim (· h1) h2
  · refine checked_faults _ h (exec_spawn f d s) (if_pos ?_)
    rw [Bool.and_eq_true, acts_iff, spawn_bars]
    exact ⟨hg, hl⟩
  · exact fun ho => departs_checked _ h (exec_enq f s) (if_pos ho)
  · exact fun ho => checked_faults _ h (exec_enq f s) (if_neg ho)

/-! ### System instructions -/

section
variable {f : Form} {s : State} {b : Blk} {i : Instr}

/-- What `mapOp` does in supervisor mode. -/
theorem mapOp_eq (hs : s.g.sup = true) (he : exec i s = mapOp f i s) : exec i s = departIf f i (fun o =>
    let bad := lanesWhere o.live fun l => decide (2 ^ 56 ≤ (lane o.a.vals l).toNat)
    if bad = 0 then none
    else some (s.execFault 6 1 255 bad (lanes fun l => if bad.getLsbD l then lane o.a.vals l else 0))) s := by
  rw [he]
  exact needSup_of_sup 1 _ hs

theorem privRead_iff (r : SysReg) : r.privRead = true ↔ r ∈ [SysReg.flm, .fcause, .fpc, .fva, .pmres] := by
  cases r <;> decide

theorem privWrite_iff (r : SysReg) : r.privWrite = true ↔ r = .lrm := by
  cases r <;> decide

end

/-- Settles O17: privilege by `needSup`, then departures and the values of `sysValue`. -/
theorem systemInstructions : Obligations.SystemInstructions := by
  intro f r sub s b h
  refine ⟨fun hg => ?_, fun hs hc => ?_, fun hg => ?_, fun hs => ?_, departs_of h (exec_trap f sub s), departs_of h (exec_brk f s),
    departs_of h (exec_trc f s), fun hs => ⟨?_, ?_, ?_, fun hh => ⟨?_, ?_⟩, fun hh => ⟨?_, ?_⟩⟩, fun hs => ⟨?_, ?_, ?_, ?_, ?_⟩⟩
  · have he : exec (.sysrd f r) s = compute f latInt (fun _ o => (tokOf r.cls (lanes (s.sysValue r)) (~~~o.pred), 0)) s := by
      rw [exec_sysrd]
      unfold execSysrd
      split
      next hp =>
        rw [needSup_of_sup]
        exact hg.resolve_right (not_not.2 ((privRead_iff r).1 hp))
      next => rfl
    refine completes_of _ h he ?_ rfl
    cases r <;> rfl
  · exact (if_pos ((privRead_iff r).2 hc)).trans (needSup_of_user 3 _ hs h)
  · refine departs_of h ?_
    rw [exec_syswr]
    unfold execSyswr
    split
    next hp =>
      rw [needSup_of_sup]
      exact hg.resolve_right (not_not.2 ((privWrite_iff r).1 hp))
    next => rfl
  · exact needSup_of_user 3 _ hs h
  · exact departs_of h (needSup_of_sup 1 _ hs)
  · exact departs_of h (needSup_of_sup 1 _ hs)
  · exact departs_of h (needSup_of_sup 1 _ hs)
  · exact departs_checked _ h (mapOp_eq hs (exec_pmap f s)) (if_pos hh)
  · exact departs_checked _ h (mapOp_eq hs (exec_punmap f s)) (if_pos hh)
  · exact checked_faults _ h (mapOp_eq hs (exec_pmap f s)) (if_neg hh)
  · exact checked_faults _ h (mapOp_eq hs (exec_punmap f s)) (if_neg hh)
  · exact needSup_of_user 1 _ hs h
  · exact needSup_of_user 1 _ hs h
  · exact needSup_of_user 1 _ hs h
  · exact needSup_of_user 1 _ hs h
  · exact needSup_of_user 1 _ hs h

end Sys2Proof.Proofs
end

section
/-! PROOFS. What one lane's access meets in each address space (spec/14 R396, R397, R403, spec/06 R187 to R190). -/

namespace Sys2Proof.Proofs
open Sys2Proof.Machine Sys2Proof.Laws.Shapes

section
variable {s : State} {n ea : Nat} {store atomic : Bool}

/-- The bytes of a run as places of one kind. -/
def placesFrom (kind id off n : Nat) : LaneRes := .ok ((List.range n).map fun i => ⟨kind, id, off + i⟩)

theorem bits_eq (x hi lo : Nat) : bits x hi lo = x / 2 ^ lo % 2 ^ (hi + 1 - lo) := rfl

/-- A stash without mapped regions is reached in its bytes. -/
theorem stashAccess_unmapped {t off : Nat} {write : Bool} (h : (s.teamAt t).regions = []) :
    s.stashAccess t off n write = (placesFrom 1 t off n, s) := by
  simp [State.stashAccess, h, State.fillAll, placesFrom]

theorem resolve_stash (h : s.team.regions = []) :
    s.resolve .stash n store atomic ea = (if ea + n ≤ 1024 * s.team.stashKiB then placesFrom 1 s.g.team ea n else .off 0, s) := by
  unfold State.resolve
  simp only [Nat.mul_comm s.team.stashKiB, stashAccess_unmapped h]
  split <;> rfl

theorem resolve_rstash_far (h : 2 ^ 21 ≤ ea) : s.resolve .rstash n store atomic ea = (.off 0, s) := if_pos h

theorem rank_of_low (h : ea < 2 ^ 21) : bits ea 20 18 = ea / 2 ^ 18 := by
  rw [bits_eq]
  exact Nat.mod_eq_of_lt (Nat.div_lt_of_lt_mul (by omega))

theorem resolve_rstash_absent (h : ea < 2 ^ 21) (hr : s.team.cluster ≤ ea / 2 ^ 18) :
    s.resolve .rstash n store atomic ea = (.off 3, s) := by
  unfold State.resolve
  simp only [rank_of_low h, if_neg (Nat.not_le.2 h), if_pos hr]

theorem resolve_rstash_own (h : ea < 2 ^ 21) (hr : ea / 2 ^ 18 < s.team.cluster) (ho : ea / 2 ^ 18 = s.team.rank)
    (hl : s.team.linger = false) (hm : s.team.regions = []) :
    s.resolve .rstash n store atomic ea =
      (if ea % 2 ^ 18 + n ≤ 1024 * s.team.stashKiB then placesFrom 1 s.g.team (ea % 2 ^ 18) n else .off 0, s) := by
  have ht : s.teamAt s.g.team = s.team := rfl
  have hoff : bits ea 17 0 = ea % 2 ^ 18 := by rw [bits_eq, Nat.pow_zero, Nat.div_one]
  unfold State.resolve
  simp only [rank_of_low h, hoff, if_neg (Nat.not_le.2 h), if_neg (Nat.not_le.2 hr), if_pos ho, ht, hl, Bool.false_and,
    Bool.false_eq_true, if_false, stashAccess_unmapped (t := s.g.team) hm, Nat.mul_comm s.team.stashKiB]
  split
  next hlt => rw [if_neg (Nat.not_le.2 hlt)]
  next hlt => rw [if_pos (Nat.not_lt.1 hlt)]

theorem resolve_tile :
    s.resolve .tile n store atomic ea = (if ea + n ≤ 1024 * s.team.tileKiB then placesFrom 2 s.g.team ea n else .bad 1 19, s) := by
  unfold State.resolve
  simp only [Nat.mul_comm s.team.tileKiB]
  split <;> rfl

theorem resolve_ctx :
    s.resolve .ctx n store atomic ea =
      (if ea + n ≤ 65536 ∧ (store = true → ea + n ≤ 33280) then placesFrom 3 s.gid ea n else .bad 1 19, s) := by
  unfold State.resolve
  simp only
  by_cases h1 : 65536 < ea + n
  · rw [if_pos h1, if_neg (by omega)]
  · rw [if_neg h1]
    cases store
    · simp [Nat.not_lt.1 h1, placesFrom]
    · by_cases h2 : 33280 < ea + n
      · rw [if_pos (by simpa using h2), if_neg (by simp; omega)]
      · rw [if_neg (by simpa using h2), if_pos (by simp; omega)]
        rfl

theorem resolve_pool_far (h : 2 ^ 48 < ea + n) : s.resolve .pool n store atomic ea = (.bad 1 19, s) := if_pos h

theorem resolve_pool_fail {x : Fail} (hx : s.pageFail none (pageOf ea) = some x) (h : ea + n ≤ 2 ^ 48) :
    s.resolve .pool n store atomic ea = (.bad x.1 x.2, s) := by
  unfold State.resolve
  simp only [if_neg (Nat.not_lt.2 h), hx, Option.some_or]

theorem lineLost_none (hl : s.lostLines = []) (hp : s.lostPages = []) (a : Nat) : s.lineLost a = false := by
  simp [State.lineLost, hl, hp]

theorem resolve_pool (h : ea + n ≤ 2 ^ 48) (hx : s.pageFail none (pageOf ea) = none) (hy : s.pageFail none (pageOf (ea + n - 1)) = none)
    (hl : s.lostLines = []) (hp : s.lostPages = []) : s.resolve .pool n store atomic ea = (placesFrom 0 0 ea n, s) := by
  unfold State.resolve
  simp only [if_neg (Nat.not_lt.2 h), hx, hy, Option.or_none, lineLost_none hl hp, Bool.or_false, Bool.and_false, Bool.false_eq_true,
    if_false]
  rfl

/-- What a global access meets, by the walk of its bytes. -/
theorem resolve_global :
    s.resolve .global n store atomic ea =
      match (s.translateRun s.ctxNo ea { write := store, sup := s.g.sup } n).1 with
      | .error x => (.bad x.1.1 x.1.2, (s.translateRun s.ctxNo ea { write := store, sup := s.g.sup } n).2)
      | .ok ps =>
        if !(store && !atomic) && ps.any (s.translateRun s.ctxNo ea { write := store, sup := s.g.sup } n).2.lineLost then
          (.bad 9 0, (s.translateRun s.ctxNo ea { write := store, sup := s.g.sup } n).2)
        else (.ok (ps.map fun p => ⟨0, 0, p⟩), (s.translateRun s.ctxNo ea { write := store, sup := s.g.sup } n).2) := rfl

end

/-- Settles O18, space by space. -/
theorem accessOutcomes : Obligations.AccessOutcomes := by
  intro s n store atomic ea
  refine ⟨resolve_stash, resolve_rstash_far, resolve_rstash_absent, resolve_rstash_own, resolve_tile, resolve_ctx, resolve_pool_far,
    fun x => resolve_pool_fail, resolve_pool, fun x hx => ?_, fun ps hp hs => ?_, fun ps hp hs hl => ?_⟩
  all_goals dsimp only; rw [resolve_global]
  · rw [hx]
  · rw [hp]
    refine if_neg ?_
    rcases hs with ⟨rfl, rfl⟩ | hs
    · simp
    · simp only [hs, Bool.and_false, Bool.false_eq_true, not_false_eq_true]
  · rw [hp]
    refine if_pos ?_
    rcases hs with rfl | rfl <;> simp [hl]

end Sys2Proof.Proofs
end

section
/-! PROOFS. What a load sees of its block's stores and later reads (spec/10 R283, spec/07 R207, R216). -/

namespace Sys2Proof.Proofs
open Sys2Proof.Machine Sys2Proof.Laws.Shapes

section
variable {s : State} {ov : Overlay} {p : Place}

/-- The overlay that says nothing of a place. -/
theorem overByte_append_of_absent {l : Overlay} (h : ∀ q ∈ l, q.1 ≠ p) : s.overByte (l ++ ov) p = s.overByte ov p := by
  have hn : l.find? (fun q => q.1 == p) = none := List.find?_eq_none.2 fun q hq => by simpa using h q hq
  unfold State.overByte
  rw [List.find?_append, hn, Option.none_or]

theorem overByte_append_of_found {l : Overlay} {v : Byte} (h : l.find? (fun q => q.1 == p) = some (p, v)) : s.overByte (l ++ ov) p = v := by
  unfold State.overByte
  rw [List.find?_append, h, Option.some_or]

theorem overByte_absent (h : ∀ q ∈ ov, q.1 ≠ p) : s.overByte ov p = s.placeByte p := by
  rw [← List.append_nil ov, overByte_append_of_absent h]
  rfl

/-- A store that does not cover a place leaves it alone. -/
theorem overByte_layOver_other {r : StoreRec} (h : p ∉ r.places) : s.overByte (s.layOver ov r) p = s.overByte ov p := by
  refine overByte_append_of_absent fun q hq hp => h ?_
  rw [← hp]
  exact (List.of_mem_zip (List.mem_reverse.1 hq)).1

theorem overByte_foldl_layOver_other {rs : List StoreRec} (h : ∀ r ∈ rs, p ∉ r.places) :
    s.overByte (rs.foldl s.layOver ov) p = s.overByte ov p := by
  induction rs generalizing ov with
  | nil => rfl
  | cons r rs ih =>
    rw [List.foldl_cons, ih fun x hx => h x (List.mem_cons_of_mem _ hx), overByte_layOver_other (h r List.mem_cons_self)]

/-- Of places without repetition, each finds the byte that stands beside it. -/
theorem find_zip_of_nodup {ps : List Place} {ds : List Byte} {i : Nat} (hi : i < ps.length) (hd : i < ds.length) (hn : ps.Nodup) :
    (ps.zip ds).reverse.find? (fun q => q.1 == ps[i]) = some (ps[i], ds[i]) := by
  have hlen : i < (ps.zip ds).length := by rw [List.length_zip]; omega
  have hmem : (ps[i], ds[i]) ∈ (ps.zip ds).reverse := List.mem_reverse.2 (List.getElem_zip (h := hlen) ▸ List.getElem_mem hlen)
  cases hf : (ps.zip ds).reverse.find? (fun q => q.1 == ps[i]) with
  | none => exact absurd (List.find?_eq_none.1 hf _ hmem) (by simp)
  | some q =>
    have hq := List.find?_some hf
    obtain ⟨j, hj, hjq⟩ := List.getElem_of_mem (List.mem_reverse.1 (List.mem_of_find?_eq_some hf))
    rw [List.length_zip] at hj
    rw [List.getElem_zip] at hjq
    have hji : j = i := (List.Nodup.getElem_inj_iff hn).1 (by rw [← hjq] at hq; simpa using hq)
    subst hji
    rw [hjq]

theorem overByte_layOver_plain {r : StoreRec} {i : Nat} (hi : i < r.places.length) (hd : i < r.data.length) (hop : r.op = none)
    (hn : r.places.Nodup) : s.overByte (s.layOver ov r) r.places[i] = r.data[i] := by
  have hb : s.recBytes ov r = r.data := by unfold State.recBytes; rw [hop]
  unfold State.layOver
  rw [hb]
  exact overByte_append_of_found (find_zip_of_nodup hi hd hn)

end

/-- The stores of a block before an LSID, in lanes that are still active. -/
def storesBefore (b : Blk) (lsid : Nat) : List StoreRec := b.stores.filter fun r => decide (r.lsid < lsid) && b.active.getLsbD r.lane

theorem forwarded_eq (s : State) (b : Blk) (lsid : Nat) : s.forwarded b lsid = (storesBefore b lsid).foldl s.layOver (b.readAfter lsid) := rfl

theorem storesBefore_append {b : Blk} {rs : List StoreRec} {r : StoreRec} (h : b.stores = rs ++ [r]) (lsid : Nat) :
    storesBefore b lsid = storesBefore { b with stores := rs } lsid ++
      if decide (r.lsid < lsid) && b.active.getLsbD r.lane then [r] else [] := by
  unfold storesBefore
  rw [h, List.filter_append, List.filter_singleton, cond_eq_ite]
  rfl

/-- What reads of higher LSID have found at a place. -/
theorem readAfter_absent {lsid : Nat} {p : Place} {rs : List ReadRec}
    (h : ∀ r ∈ rs, ¬(lsid < r.lsid ∧ ∃ x ∈ r.bytes, x.1 = p)) :
    ∀ q ∈ (rs.filter fun r => decide (lsid < r.lsid)).flatMap (·.bytes), q.1 ≠ p := by
  intro q hq hp
  obtain ⟨r, hr, hqr⟩ := List.mem_flatMap.1 hq
  obtain ⟨hr, hl⟩ := List.mem_filter.1 hr
  exact h r hr ⟨of_decide_eq_true hl, q, hqr, hp⟩

/-- Settles O20, by the last store or the first later read that covers the byte. -/
theorem storeForwarding : Obligations.StoreForwarding := by
  intro s b lsid p
  refine ⟨fun he hr => ?_, fun he rs r qs v hb hrs hl hv => ?_, fun rs r i hi hd hb hop hl ha hn hp _ => ?_, fun rs r hb h => ?_⟩
  · beta_reduce
    rw [forwarded_eq, overByte_foldl_layOver_other (rs := storesBefore b lsid) he]
    exact overByte_absent (readAfter_absent hr)
  · beta_reduce
    have hread : b.readAfter lsid = (rs.filter fun r => decide (lsid < r.lsid)).flatMap (·.bytes) ++
        (r.bytes ++ (qs.filter fun r => decide (lsid < r.lsid)).flatMap (·.bytes)) := by
      unfold Blk.readAfter
      rw [hb, List.filter_append, List.flatMap_append, List.filter_cons_of_pos (by simpa using hl), List.flatMap_cons]
    rw [forwarded_eq, overByte_foldl_layOver_other (rs := storesBefore b lsid) he, hread, overByte_append_of_absent (readAfter_absent hrs),
      overByte_append_of_found hv]
  · beta_reduce
    have hin : (decide (r.lsid < lsid) && b.active.getLsbD r.lane) = true := by simp [hl, ha]
    rw [forwarded_eq, storesBefore_append hb, if_pos hin, List.foldl_append, ← hp]
    exact overByte_layOver_plain hi hd hop hn
  · beta_reduce
    rw [forwarded_eq, forwarded_eq, storesBefore_append hb, List.foldl_append]
    split
    next hin =>
      refine overByte_layOver_other (h.resolve_right ?_)
      simp only [Bool.and_eq_true, decide_eq_true_eq] at hin
      omega
    next => rfl

end Sys2Proof.Proofs
end

section
/-! PROOFS. Mapped regions at issue (spec/14 R409 to R411), and lanes switched off by a stash condition (spec/06 R188). -/

namespace Sys2Proof.Proofs
open Sys2Proof.Machine Sys2Proof.Laws.Shapes

/-! ### Lanes switched off -/

theorem switchOff_nil (b : Blk) : b.switchOff [] = b := rfl

theorem switchOff_cons (b : Blk) (p : Nat × Nat) (ls : List (Nat × Nat)) :
    b.switchOff (p :: ls) =
      (if b.off.getLsbD p.1 then b else { b with off := b.off ||| BitVec.ofNat 32 (2 ^ p.1), offCode := b.offCode ++ [p] }).switchOff ls :=
  rfl

theorem getLsbD_lane (c : Nat) (hc : c < 32) : (BitVec.ofNat 32 (2 ^ c)).getLsbD c = true := by
  rw [BitVec.getLsbD_ofNat, Nat.testBit_two_pow_self, Bool.and_true]
  exact decide_eq_true hc

/-- A lane that is off stays off. -/
theorem switchOff_keeps {c : Nat} (ls : List (Nat × Nat)) : ∀ {b : Blk}, b.off.getLsbD c = true → (b.switchOff ls).off.getLsbD c = true := by
  induction ls with
  | nil => exact id
  | cons p ls ih =>
    intro b h
    rw [switchOff_cons]
    split
    · exact ih h
    · exact ih (by simp [h])

theorem switchOff_off {c : Nat} (hc : c < 32) (ls : List (Nat × Nat)) :
    ∀ {b : Blk}, c ∈ ls.map (·.1) → (b.switchOff ls).off.getLsbD c = true := by
  induction ls with
  | nil => exact fun h => absurd h List.not_mem_nil
  | cons p ls ih =>
    intro b h
    rw [switchOff_cons]
    by_cases hl : c ∈ ls.map (·.1)
    · exact ih hl
    · obtain rfl : c = p.1 := (List.mem_cons.1 h).resolve_right hl
      refine switchOff_keeps ls ?_
      split
      next hp => exact hp
      next => simp only [BitVec.getLsbD_or, getLsbD_lane _ hc, Bool.or_true]

/-! ### `smap` and `sunmap` -/

/-- When `smap` is refused (R409). -/
theorem smapRefused_iff (t : Team) (a v n : Nat) :
    smapRefused t a v n = true ↔ a % 256 ≠ 0 ∨ v % 256 ≠ 0 ∨ n % 256 ≠ 0 ∨ n = 0 ∨ 1024 * t.stashKiB < a + n ∨ 16 ≤ t.regions.length ∨
      ∃ r ∈ t.regions, (a < r.off + r.len ∧ r.off < a + n) ∨ (v < r.va.toNat + r.len ∧ r.va.toNat < v + n) := by
  simp [smapRefused, overlap, Nat.mul_comm 1024, or_assoc]

section
variable {f : Form} {l : BitVec 5} {s : State} {b : Blk}

theorem switchAllOff_eq (h : s.blk? = some b) : switchAllOff f s =
    .next (s.setBlk (Blk.markDone (b.switchOff ((lanesOf (b.opnd s.idx f).act).map fun l => (l, 0))) s.idx)) := by
  unfold switchAllOff
  simp only [h]

theorem smap_eq (h : s.blk? = some b) : exec (.smap f l) s =
    if (b.opnd s.idx f).acts && smapRefused { s.team with regions := s.team.regions ++ b.smaps } (b.opnd s.idx f).ua (b.opnd s.idx f).ub
      (b.opnd s.idx f).uc then switchAllOff f s else depart f (.smap f l) s := by
  rw [exec_smap]
  unfold execSmap
  simp only [h]

theorem sunmap_eq (h : s.blk? = some b) : exec (.sunmap f l) s =
    if (b.opnd s.idx f).acts && !(s.team.regions.any fun r => decide (r.off = (b.opnd s.idx f).ua) && !r.pending && !r.leaving) then
      switchAllOff f s else depart f (.sunmap f l) s := by
  rw [exec_sunmap]
  unfold execSunmap
  simp only [h]

end

/-- Settles O24: the refusals of `smap` and `sunmap`, else departures. -/
theorem mappedRegions : Obligations.MappedRegions := by
  intro f l s b h
  refine ⟨fun hg => ?_, fun hl hb => ?_, fun hg => ?_, fun hl hb => ?_, departs_of h (exec_swb f l s), departs_of h (exec_sinv f l s), ?_⟩
  · refine departs_of h ((smap_eq h).trans (if_neg ?_))
    rw [Bool.and_eq_true, acts_iff, smapRefused_iff]
    exact fun ⟨h1, h2⟩ => hg.elim h1 fun hn => hn h2
  · refine ((smap_eq h).trans (if_pos ?_)).trans (switchAllOff_eq h)
    rw [Bool.and_eq_true, acts_iff, smapRefused_iff]
    exact ⟨hl, hb⟩
  · refine departs_of h ((sunmap_eq h).trans (if_neg ?_))
    rw [Bool.and_eq_true, acts_iff, Bool.not_eq_true', ← Bool.not_eq_true, not_and, not_not]
    intro h1
    obtain ⟨r, hr, ho, hp, hv⟩ := hg.resolve_left h1
    exact List.any_eq_true.2 ⟨r, hr, by simp [ho, hp, hv, Opnd.ua]⟩
  · refine ((sunmap_eq h).trans (if_pos ?_)).trans (switchAllOff_eq h)
    rw [Bool.and_eq_true, acts_iff, Bool.not_eq_true', ← Bool.not_eq_true]
    refine ⟨hl, fun ha => ?_⟩
    obtain ⟨r, hr, hc⟩ := List.any_eq_true.1 ha
    simp only [Bool.and_eq_true, decide_eq_true_eq, Bool.not_eq_true'] at hc
    obtain ⟨⟨ho, hp⟩, hv⟩ := hc
    rcases hb r hr ho with hx | hx
    · simp [hp] at hx
    · simp [hv] at hx
  · rintro c hc d rfl
    refine switchOff_off ((lanesOf_mem _ c).1 hc).1 _ ?_
    rw [List.map_map]
    exact List.mem_map.2 ⟨c, hc, rfl⟩

end Sys2Proof.Proofs
end

section
/-! PROOFS. What the work below an access leaves alone: translation, caches, merge steps, requests to a home. Each function keeps the part
of the state that is erased in none of the components of `still`, `calm` or `steady`. -/

namespace Sys2Proof.Proofs
open Sys2Proof Sys2Proof.Machine Sys2Proof.Laws.Shapes

/-! ### The part of a state that work below an access keeps -/

/-- A core without its caches and its miss-status entries. -/
def stillCore (c : Core) : Core := { c with l1 := [], tlb := [], quarters := [] }

/-- A mapped region without the lines that it has filled. -/
def calmRegion (r : Region) : Region := { r with filled := [], dirty := [] }

/-- A team whose mapped regions have filled no line. -/
def calmTeam (t : Team) : Team := { t with regions := t.regions.map calmRegion }

/-- A state without memory, caches, directories and agenda; its cores and its teams by number. -/
def still (s : State) : State × (Nat → Core) × (Nat → Option Team) :=
  ({ s with teams := [], cores := [], mem := [], dir := [], dirUse := [], dies := [], lostLines := [], agenda := [], free := 0 },
   fun n => stillCore (s.coreAt n), fun n => (tfind s.teams n).map calmTeam)

/-! ### The updates of single tables -/

theorem tfind_map_values {α : Type} (f : Nat → α → α) (t : Table α) (n : Nat) :
    tfind (t.map fun p => (p.1, f p.1 p.2)) n = (tfind t n).map (f n) := by
  induction t with
  | nil => rfl
  | cons p r ih =>
    obtain ⟨k, v⟩ := p
    simp only [List.map_cons, tfind]
    split
    next h => rw [h]; rfl
    next => exact ih

theorem coreAt_modCore (s : State) (n m : Nat) (f : Core → Core) :
    (s.modCore n f).coreAt m = if m = n then f (s.coreAt n) else s.coreAt m := tget_tset ..

section
variable {s : State}

theorem still_modCore {n : Nat} {f : Core → Core} (h : ∀ c, stillCore (f c) = stillCore c) : still (s.modCore n f) = still s := by
  refine Prod.ext rfl (Prod.ext (funext fun m => ?_) rfl)
  change stillCore ((s.modCore n f).coreAt m) = stillCore (s.coreAt m)
  rw [coreAt_modCore]
  split
  next hm => rw [h, hm]
  next => rfl

theorem still_modTeam {n : Nat} {f : Team → Team} (h : ∀ t, calmTeam (f t) = calmTeam t) : still (s.modTeam n f) = still s := by
  unfold State.modTeam
  split
  next t ht =>
    refine Prod.ext rfl (Prod.ext rfl (funext fun m => ?_))
    change (tfind (tset s.teams n (f t)) m).map calmTeam = (tfind s.teams m).map calmTeam
    rw [tfind_tset]
    split
    next hm => rw [hm, ht, Option.map_some, h, Option.map_some]
    next => rfl
  next => rfl

theorem still_foldl {α : Type} {f : State → α → State} (h : ∀ s x, still (f s x) = still s) (l : List α) : still (l.foldl f s) = still s := by
  induction l generalizing s with
  | nil => rfl
  | cons x l ih => exact (ih (s := f s x)).trans (h s x)

@[simp] theorem still_mem (m : List Host.Cell) : still { s with mem := m } = still s := rfl
@[simp] theorem still_free (n : Nat) : still { s with free := n } = still s := rfl
@[simp] theorem still_lostLines (l : List Nat) : still { s with lostLines := l } = still s := rfl
@[simp] theorem still_modDie (d : Nat) (f : DieSt → DieSt) : still (s.modDie d f) = still s := rfl
@[simp] theorem still_later (d : Nat) (j : Subject) (e : Instr) : still (s.later d j e) = still s := rfl
@[simp] theorem still_laterOn (c d : Nat) (j : Subject) (e : Instr) : still (s.laterOn c d j e) = still s := rfl
@[simp] theorem still_laterHere (d : Nat) (j : Subject) (e : Instr) : still (s.laterHere d j e) = still s := rfl
@[simp] theorem still_soon (j : Subject) (e : Instr) : still (s.soon j e) = still s := rfl
@[simp] theorem still_offCore (j : Subject) (e : Instr) : still (s.offCore j e) = still s := rfl
@[simp] theorem still_drawn : still s.drawn = still s := rfl

@[simp] theorem still_setDir (l : Nat) (d : Dir) : still (s.setDir l d) = still s := by
  unfold State.setDir
  split <;> rfl

@[simp] theorem still_dropL1 (d l : Nat) : still (s.dropL1 d l) = still s := by
  let f : Nat → Core → Core := fun n c =>
    if dieOf n = d && c.l1.any (fun x => x.line == l) then { c with l1 := c.l1.filter fun x => x.line != l } else c
  have hcores : (s.dropL1 d l).cores = s.cores.map fun p => (p.1, f p.1 p.2) := by
    refine List.map_congr_left fun p _ => ?_
    simp only [f]
    split <;> rfl
  have hf (n : Nat) (c : Core) : stillCore (f n c) = stillCore c := by
    simp only [f]
    split <;> rfl
  refine Prod.ext rfl (Prod.ext (funext fun m => ?_) rfl)
  change stillCore ((tfind (s.dropL1 d l).cores m).getD resetCore) = stillCore ((tfind s.cores m).getD resetCore)
  rw [hcores, tfind_map_values]
  cases tfind s.cores m with
  | none => rfl
  | some c => exact hf m c

/-! ### Memory and copies of lines -/

@[simp] theorem still_memCells (l : List (Nat × Byte)) : still (s.memCells l) = still s := by
  induction l generalizing s with
  | nil => rfl
  | cons x l ih => exact ih

theorem calmRegion_release (r : Region) (k : Bool) (p : Nat → Bool) : calmRegion (r.release k p) = calmRegion r := by
  unfold Region.release
  split <;> rfl

theorem calmTeam_regions (t : Team) (f : Region → Region) (h : ∀ r, calmRegion (f r) = calmRegion r) :
    calmTeam { t with regions := t.regions.map f } = calmTeam t := by
  unfold calmTeam
  simp only [List.map_map, Function.comp_def, h]

@[simp] theorem still_yieldCopy (l : Nat) (k : Bool) (x : Nat × Region × Nat) : still (s.yieldCopy l k x) = still s := by
  refine (still_modTeam fun t => calmTeam_regions t _ fun r => ?_).trans (still_memCells _)
  split
  · exact calmRegion_release ..
  · rfl

@[simp] theorem still_yieldCopies (l : Nat) (k : Bool) (who : Nat → Nat → Bool) : still (s.yieldCopies l k who) = still s :=
  still_foldl (fun _ _ => still_yieldCopy ..) _

@[simp] theorem still_noteWrites (ls : List Nat) : still (s.noteWrites ls) = still s :=
  still_foldl (fun _ _ => still_foldl (fun _ _ => still_soon ..) _) ls

/-- The line dropped from the L1s of the dies that hold it. -/
theorem still_dropAll (l : Nat) (ds : List Nat) :
    still (ds.foldl (fun s d => if (s.dieAt d).snoop.contains l then s.dropL1 d l else s) s) = still s :=
  still_foldl (fun s d => by split <;> simp) ds

@[simp] theorem still_claimLine (who : Nat → Nat → Bool) (l : Nat) : still (s.claimLine who l) = still s := by
  simp only [State.claimLine, still_noteWrites, still_dropAll, still_yieldCopies]

@[simp] theorem still_writeCells (l : List (Nat × Byte)) : still (s.writeCells l) = still s := by
  simp [State.writeCells, still_foldl]

@[simp] theorem still_poolWrite (a : Nat) (bs : List Byte) : still (s.poolWrite a bs) = still s := still_writeCells _

@[simp] theorem still_clearLost (l : List Nat) : still (s.clearLost l) = still s := by
  unfold State.clearLost
  split <;> rfl

/-! ### Translation -/

@[simp] theorem still_mapping (c va : Nat) : still (s.mapping c va).2 = still s := by
  unfold State.mapping
  simp only
  split <;> rfl

@[simp] theorem still_keepLeaf (c va : Nat) (l : Leaf) (e : Nat) : still (s.keepLeaf c va l e) = still s := by
  simp only [State.keepLeaf, still_modDie]
  exact still_modCore fun _ => rfl

@[simp] theorem still_keepTables (c va : Nat) : still (s.keepTables c va) = still s := by
  unfold State.keepTables
  simp only
  split
  · rfl
  · split <;> rfl

@[simp] theorem still_orLeaf (l : Leaf) (m : Nat) : still (s.orLeaf l m) = still s := by
  unfold State.orLeaf
  split <;> simp

@[simp] theorem still_translate (c va : Nat) (a : Acc) : still (s.translate c va a).2 = still s := by
  unfold State.translate
  simp only
  split
  · simp
  · split
    · simp
    · split
      · simp
      · simp only
        split <;> simp

@[simp] theorem still_translateFrom (c : Nat) (a : Acc) (n va : Nat) (p : Option Nat) : still (s.translateFrom c a n va p).2 = still s := by
  induction n generalizing s va p with
  | zero => rfl
  | succ n ih =>
    have hstep : still (match p with
        | some p => if va % 2 ^ 17 = 0 then s.translate c va a else (.ok (p + 1), s)
        | none => s.translate c va a).2 = still s := by
      split
      · split <;> simp
      · simp
    unfold State.translateFrom
    simp only
    split
    · exact hstep
    · exact (ih _ _).trans hstep

@[simp] theorem still_translateRun (c va : Nat) (a : Acc) (n : Nat) : still (s.translateRun c va a n).2 = still s := still_translateFrom ..

@[simp] theorem still_readAt (va : Nat) (ps : List Nat) : still (s.readAt va ps).2 = still s := by
  unfold State.readAt
  split <;> rfl

@[simp] theorem still_readVirt (c va n : Nat) (a : Acc) : still (s.readVirt c va n a).2 = still s := by
  unfold State.readVirt
  simp only
  split <;> simp

@[simp] theorem still_writeAt (va : Nat) (ps : List Nat) (bs : List Byte) : still (s.writeAt va ps bs).2 = still s := by
  unfold State.writeAt
  split <;> simp

@[simp] theorem still_writeVirt (c va : Nat) (bs : List Byte) (a : Acc) : still (s.writeVirt c va bs a).2 = still s := by
  unfold State.writeVirt
  simp only
  split <;> simp

/-! ### Caches and requests of a die -/

@[simp] theorem still_settleDie (d l : Nat) : still (s.settleDie d l) = still s := by
  unfold State.settleDie
  simp only
  split
  · rfl
  · split <;> simp

@[simp] theorem still_snoopIn (d l : Nat) : still (s.snoopIn d l) = still s := by
  unfold State.snoopIn
  simp only
  split <;> simp

@[simp] theorem still_cacheIn (d l : Nat) (cp : BitVec 3) : still (s.cacheIn d l cp) = still s := by
  unfold State.cacheIn
  simp only
  split
  · rfl
  · split <;> simp

@[simp] theorem still_lineIn (c l : Nat) (cp : BitVec 3) : still (s.lineIn c l cp) = still s := by
  unfold State.lineIn
  simp only
  split
  · simp
  · split
    all_goals
      simp only [still_settleDie, still_snoopIn]
      exact (still_modCore (by intro; rfl)).trans (still_cacheIn ..)

@[simp] theorem still_ask (d k l : Nat) : still (s.ask d k l) = still s := by
  unfold State.ask
  simp only
  split
  · rfl
  · split
    · simp
    · split
      · repeat' split
        all_goals rfl
      · rfl

@[simp] theorem still_hitLines (cp : BitVec 3) (ls : List Nat) : still (s.hitLines cp ls) = still s :=
  still_foldl (fun _ _ => still_modCore (by intro; rfl)) ls

end

/-! ### The part that writes of the merge unit keep too -/

/-- A core without its caches, its merge unit and its miss-status entries. -/
def calmCore (c : Core) : Core := { c with l1 := [], tlb := [], merge := [], quarters := [] }

/-- As `still`, where merge steps may be written and the stores of gangs finish. -/
def calm (s : State) : State × (Nat → Core) × (Nat → Option Team) :=
  ({ (still s).1 with g := { s.g with flST := [] }, gangs := [] }, fun n => calmCore ((still s).2.1 n), (still s).2.2)

section
variable {s : State}

theorem calm_of_still {t : State} (h : still t = still s) : calm t = calm s := by
  have hg : t.g = s.g := congrArg (·.1.g) h
  unfold calm
  rw [h, hg]

theorem calm_modCore {n : Nat} {f : Core → Core} (h : ∀ c, calmCore (f c) = calmCore c) : calm (s.modCore n f) = calm s := by
  refine Prod.ext rfl (Prod.ext (funext fun m => ?_) rfl)
  change calmCore ((s.modCore n f).coreAt m) = calmCore (s.coreAt m)
  rw [coreAt_modCore]
  split
  next hm => rw [h, hm]
  next => rfl

/-- The counters of stores in flight of any gang. -/
theorem calm_modGang_flST (n : Nat) (f : List Flight → List Flight) : calm (s.modGang n fun g => { g with flST := f g.flST }) = calm s := by
  unfold State.modGang
  split
  · rfl
  · split <;> rfl

theorem calm_foldl {α : Type} {f : State → α → State} (h : ∀ s x, calm (f s x) = calm s) (l : List α) : calm (l.foldl f s) = calm s := by
  induction l generalizing s with
  | nil => rfl
  | cons x l ih => exact (ih (s := f s x)).trans (h s x)

@[simp] theorem calm_yieldCopy (l : Nat) (k : Bool) (x : Nat × Region × Nat) : calm (s.yieldCopy l k x) = calm s := calm_of_still (still_yieldCopy ..)
@[simp] theorem calm_yieldCopies (l : Nat) (k : Bool) (who : Nat → Nat → Bool) : calm (s.yieldCopies l k who) = calm s := calm_of_still (still_yieldCopies ..)
@[simp] theorem calm_writeCells (l : List (Nat × Byte)) : calm (s.writeCells l) = calm s := calm_of_still (still_writeCells ..)
@[simp] theorem calm_clearLost (l : List Nat) : calm (s.clearLost l) = calm s := calm_of_still (still_clearLost ..)
@[simp] theorem calm_translate (c va : Nat) (a : Acc) : calm (s.translate c va a).2 = calm s := calm_of_still (still_translate ..)
@[simp] theorem calm_translateRun (c va : Nat) (a : Acc) (n : Nat) : calm (s.translateRun c va a n).2 = calm s := calm_of_still (still_translateRun ..)
@[simp] theorem calm_readAt (va : Nat) (ps : List Nat) : calm (s.readAt va ps).2 = calm s := calm_of_still (still_readAt ..)
@[simp] theorem calm_writeAt (va : Nat) (ps : List Nat) (bs : List Byte) : calm (s.writeAt va ps bs).2 = calm s := calm_of_still (still_writeAt ..)
@[simp] theorem calm_snoopIn (d l : Nat) : calm (s.snoopIn d l) = calm s := calm_of_still (still_snoopIn ..)
@[simp] theorem calm_lineIn (c l : Nat) (cp : BitVec 3) : calm (s.lineIn c l cp) = calm s := calm_of_still (still_lineIn ..)
@[simp] theorem calm_ask (d k l : Nat) : calm (s.ask d k l) = calm s := calm_of_still (still_ask ..)
theorem calm_dropAll (l : Nat) (ds : List Nat) :
    calm (ds.foldl (fun s d => if (s.dieAt d).snoop.contains l then s.dropL1 d l else s) s) = calm s := calm_of_still (still_dropAll ..)

/-! ### The merge unit -/

@[simp] theorem calm_drainStep (c : Nat) (m : MergeStep) : calm (s.drainStep c m) = calm s := by
  have hflights (fs : List (Nat × Nat)) (u : State) :
      calm (fs.foldl (fun s f => s.modGang f.1 fun g => { g with flST := finishFlight f.2 g.flST }) u) = calm u :=
    calm_foldl (fun _ f => calm_modGang_flST f.1 _) fs
  have hcore (u : State) : calm (u.modCore c fun x =>
      { x with merge := x.merge.filter fun y => y.num != m.num, quarters := x.quarters.map fun q => q.dropReq m.num }) = calm u :=
    calm_modCore fun _ => rfl
  unfold State.drainStep
  cases s.pageFail none (m.line / 512) with
  | some _ =>
    simp only [↓reduceIte]
    rw [hflights, hcore]
  | none =>
    simp only [Bool.false_eq_true, ↓reduceIte, calm_ask, calm_lineIn]
    rw [hflights, hcore, calm_clearLost, calm_writeCells]

@[simp] theorem calm_flushWhere (c : Nat) (p : Nat → Bool) : calm (s.flushWhere c p) = calm s := calm_foldl (fun _ _ => calm_drainStep ..) _

@[simp] theorem calm_flushCore (c : Nat) : calm (s.flushCore c) = calm s := calm_flushWhere ..

@[simp] theorem calm_flushLines (c : Nat) (ls : List Nat) : calm (s.flushLines c ls) = calm s := calm_flushWhere ..

@[simp] theorem calm_readOwn (va n : Nat) (a : Acc) : calm (s.readOwn va n a).2 = calm s := by
  unfold State.readOwn
  simp only
  split <;> simp

@[simp] theorem calm_writeOwn (va : Nat) (bs : List Byte) (a : Acc) : calm (s.writeOwn va bs a).2 = calm s := by
  unfold State.writeOwn
  simp only
  split <;> simp

@[simp] theorem calm_supWord (va : Nat) : calm (s.supWord va).2 = calm s := calm_readOwn ..

@[simp] theorem calm_setSupWord (va x : Nat) : calm (s.setSupWord va x).2 = calm s := calm_writeOwn ..

end

/-! ### What is read from the part that is kept -/

section
variable {s t : State} (h : still t = still s)
include h

theorem still_state {α : Type} (f : State → α) (hf : ∀ s, f (still s).1 = f s) : f t = f s := by
  rw [← hf t, ← hf s, h]

theorem still_gang : t.g = s.g := still_state h State.g fun _ => rfl

theorem still_blk : t.blk? = s.blk? := still_state h State.blk? fun _ => rfl

theorem still_core_at {α : Type} (f : Core → α) (hf : ∀ c, f (stillCore c) = f c) (n : Nat) : f (t.coreAt n) = f (s.coreAt n) := by
  have hc : stillCore (t.coreAt n) = stillCore (s.coreAt n) := congrFun (congrArg (·.2.1) h) n
  rw [← hf (t.coreAt n), ← hf (s.coreAt n), hc]

end

section
variable {s t : State} (h : calm t = calm s)
include h

/-- What depends on the state beside the tables and the agenda. -/
theorem calm_state {α : Type} (f : State → α) (hf : ∀ s, f (calm s).1 = f s) : f t = f s := by
  rw [← hf t, ← hf s, h]

/-- What depends on the gang beside its stores in flight. -/
theorem calm_gang {α : Type} (f : Gang → α) (hf : ∀ g : Gang, f { g with flST := [] } = f g) : f t.g = f s.g :=
  calm_state h (fun s => f s.g) fun s => hf s.g

theorem calm_blk : t.blk? = s.blk? := calm_state h State.blk? fun s => by unfold State.blk?; rfl

theorem calm_core_at {α : Type} (f : Core → α) (hf : ∀ c, f (calmCore c) = f c) (n : Nat) : f (t.coreAt n) = f (s.coreAt n) := by
  have hc : calmCore (t.coreAt n) = calmCore (s.coreAt n) := congrFun (congrArg (·.2.1) h) n
  rw [← hf (t.coreAt n), ← hf (s.coreAt n), hc]

theorem calm_core {α : Type} (f : Core → α) (hf : ∀ c, f (calmCore c) = f c) : f t.core = f s.core := by
  unfold State.core
  rw [calm_gang h Gang.core fun _ => rfl]
  exact calm_core_at h f hf _

theorem calm_clock : t.clock = s.clock := calm_core h Core.cyc fun _ => rfl

theorem calm_teams (n : Nat) : (tfind t.teams n).map calmTeam = (tfind s.teams n).map calmTeam := congrFun (congrArg (·.2.2) h) n

theorem calm_team_at {α : Type} (f : Team → α) (hf : ∀ m, f (calmTeam m) = f m) (n : Nat) : f (t.teamAt n) = f (s.teamAt n) := by
  have hm := calm_teams h n
  unfold State.teamAt tget
  cases ht : tfind t.teams n <;> cases hs : tfind s.teams n <;> simp only [ht, hs, Option.map_some, Option.map_none, reduceCtorEq] at hm
  · rfl
  · have := Option.some.inj hm
    rw [Option.getD_some, Option.getD_some, ← hf, this, hf]

end

/-! ### Regions filled from their homes -/

/-- A team without its mapped regions and the bytes of its stash. -/
def steadyTeam (t : Team) : Team := { t with regions := [], stash := [] }

/-- As `calm`, where regions of the stash may be filled. -/
def steady (s : State) : State × (Nat → Core) × (Nat → Option Team) :=
  ((calm s).1, (calm s).2.1, fun n => ((calm s).2.2 n).map steadyTeam)

theorem steady_of_calm {s t : State} (h : calm t = calm s) : steady t = steady s := by
  unfold steady
  rw [h]

section
variable {s : State}

theorem steady_modTeam {n : Nat} {f : Team → Team} (h : ∀ t, steadyTeam (f t) = steadyTeam t) : steady (s.modTeam n f) = steady s := by
  unfold State.modTeam
  split
  next t ht =>
    refine Prod.ext rfl (Prod.ext rfl (funext fun m => ?_))
    change ((tfind (tset s.teams n (f t)) m).map calmTeam).map steadyTeam = ((tfind s.teams m).map calmTeam).map steadyTeam
    rw [tfind_tset]
    split
    next hm =>
      rw [hm, ht]
      exact congrArg some (h t)
    next => rfl
  next => rfl

theorem steady_ownLine (t n l : Nat) : steady (s.ownLine t n l) = steady s := by
  refine steady_of_calm ?_
  simp only [State.ownLine, calm_ask, calm_dropAll, calm_yieldCopies]

theorem steady_fetchLine (t : Nat) (r : Region) (k l : Nat) (w : Bool) : steady (s.fetchLine t r k l w) = steady s := by
  have hfill (u : State) (f : Team → Table Byte) (g : Team → List Region) :
      steady (u.modTeam t fun t => { t with stash := f t, regions := g t }) = steady u := steady_modTeam fun _ => rfl
  unfold State.fetchLine
  simp only
  split
  · refine (steady_ownLine ..).trans ((steady_of_calm (calm_snoopIn ..)).trans ?_)
    exact (hfill _ _ _).trans (steady_of_calm (calm_flushLines ..))
  · refine (steady_of_calm (calm_ask ..)).trans ((steady_of_calm (calm_snoopIn ..)).trans ?_)
    exact (hfill _ _ _).trans (steady_of_calm (calm_flushLines ..))

theorem steady_translate (c va : Nat) (a : Acc) : steady (s.translate c va a).2 = steady s := steady_of_calm (calm_translate ..)

theorem steady_fillLine (t : Nat) (r : Region) (k : Nat) (w : Bool) : steady (s.fillLine t r k w).2 = steady s := by
  unfold State.fillLine
  simp only
  split
  · exact steady_translate ..
  · split
    · split
      · exact (steady_ownLine ..).trans (steady_translate ..)
      · exact steady_translate ..
    · cases tfind r.filled k with
      | none =>
        dsimp only
        split
        · exact steady_translate ..
        · exact (steady_fetchLine ..).trans (steady_translate ..)
      | some l =>
        dsimp only
        split
        · exact (steady_of_calm (calm_yieldCopy ..)).trans (steady_translate ..)
        · exact (steady_fetchLine ..).trans ((steady_of_calm (calm_yieldCopy ..)).trans (steady_translate ..))

theorem steady_fillLines (t n : Nat) (w : Bool) (ls : List Nat) : steady (s.fillLines t n w ls).2 = steady s := by
  induction ls generalizing s with
  | nil => rfl
  | cons l ls ih =>
    unfold State.fillLines
    split
    · rfl
    · simp only
      split
      · exact steady_fillLine ..
      · exact ih.trans (steady_fillLine ..)

theorem steady_fillAll (t o n : Nat) (w : Bool) (rs : List Region) : steady (s.fillAll t o n w rs).2 = steady s := by
  induction rs generalizing s with
  | nil => rfl
  | cons r rs ih =>
    unfold State.fillAll
    simp only
    split
    · exact steady_fillLines ..
    · exact ih.trans (steady_fillLines ..)

theorem steady_stashAccess (t o n : Nat) (w : Bool) : steady (s.stashAccess t o n w).2 = steady s := by
  unfold State.stashAccess
  simp only
  split
  · rfl
  · split <;> exact steady_fillAll ..

theorem steady_resolve (sp : Space) (n : Nat) (w a : Bool) (ea : Nat) : steady (s.resolve sp n w a ea).2 = steady s := by
  have hrun : steady (s.translateRun s.ctxNo ea { write := w, sup := s.g.sup } n).2 = steady s := steady_of_calm (calm_translateRun ..)
  cases sp <;> unfold State.resolve <;> simp only
  case global => repeat' split
                 all_goals exact hrun
  all_goals repeat' split
  all_goals first | rfl | exact steady_stashAccess ..

theorem steady_resolveAll (m : MemArg) (n : Nat) (w a g : Bool) (ea : Nat → Nat) (ls : List Nat) :
    steady (s.resolveAll m n w a g ea ls).2 = steady s := by
  induction ls generalizing s with
  | nil => rfl
  | cons l ls ih =>
    unfold State.resolveAll
    simp only
    refine ih.trans ?_
    split
    · rfl
    · exact steady_resolve ..

end

section
variable {s t : State} (h : steady t = steady s)
include h

theorem steady_state {α : Type} (f : State → α) (hf : ∀ s, f (calm s).1 = f s) : f t = f s := by
  have hc : (calm t).1 = (calm s).1 := congrArg (·.1) h
  rw [← hf t, ← hf s, hc]

theorem steady_gang {α : Type} (f : Gang → α) (hf : ∀ g : Gang, f { g with flST := [] } = f g) : f t.g = f s.g :=
  steady_state h (fun s => f s.g) fun s => hf s.g

theorem steady_blk : t.blk? = s.blk? := steady_state h State.blk? fun s => by unfold State.blk?; rfl

theorem steady_core {α : Type} (f : Core → α) (hf : ∀ c, f (calmCore c) = f c) : f t.core = f s.core := by
  have hc : calmCore (t.coreAt s.g.core) = calmCore (s.coreAt s.g.core) := congrFun (congrArg (·.2.1) h) _
  unfold State.core
  rw [steady_gang h Gang.core fun _ => rfl, ← hf (t.coreAt _), ← hf (s.coreAt _), hc]

theorem steady_clock : t.clock = s.clock := steady_core h Core.cyc fun _ => rfl

end

end Sys2Proof.Proofs
end

section
/-! PROOFS. Accesses lane by lane (spec/14 R396, R457), and stores and `red` at issue (R397, R401, R231). -/

namespace Sys2Proof.Proofs
open Sys2Proof.Machine Sys2Proof.Laws.Shapes

/-! ### The accesses of an instruction -/

/-- The lanes that access memory: one for a uniform instruction. -/
def accessLanes (uni : Bool) (o : Opnd) : List Nat := if uni then (if o.live = 0 then [] else [0]) else lanesOf o.live

/-- Every access of an instruction resolved. -/
def State.met (s : State) (m : MemArg) (n : Nat) (store atomic aligned uni : Bool) (o : Opnd) : List (Nat × LaneRes) × State :=
  s.resolveAll m n store atomic aligned (fun l => effAddr m (lane o.a.vals l)) (accessLanes uni o)

/-- The lanes that stash conditions switch off, with their codes. -/
def offsOf (uni : Bool) (o : Opnd) (rs : List (Nat × LaneRes)) : List (Nat × Nat) :=
  if uni then (offLanes rs).flatMap fun p => (lanesOf o.act).map fun l => (l, p.2) else offLanes rs

section
variable {f : Form} {m : MemArg} {n : Nat} {store atomic aligned uni : Bool} {k : State → Opnd → List (Nat × List Place) → Out}
  {s : State} {b : Blk}

theorem privileged_iff : ((m.as == .ctx || m.as == .pool) && !s.g.sup) = true ↔ (m.as = .ctx ∨ m.as = .pool) ∧ s.g.sup = false := by simp

/-- A privileged space is refused in user mode. -/
theorem accesses_refused (h : s.blk? = some b) (hp : (m.as = .ctx ∨ m.as = .pool) ∧ s.g.sup = false) :
    accesses f m n store atomic aligned uni k s = .next (s.raise { code := 16, sub := 2, lanes := b.active }) := by
  unfold accesses
  simp only [h]
  exact if_pos (privileged_iff.2 hp)

theorem accesses_fault (h : s.blk? = some b) (hp : ¬((m.as = .ctx ∨ m.as = .pool) ∧ s.g.sup = false)) {x : Nat × Nat}
    (hx : lowestFault (State.met s m n store atomic aligned uni (b.opnd s.idx f)).1 = some x) {bad : Mask}
    (hbad : bad = if uni then (b.opnd s.idx f).live else faultLanes (State.met s m n store atomic aligned uni (b.opnd s.idx f)).1 x.1) :
    accesses f m n store atomic aligned uni k s =
      .next ((State.met s m n store atomic aligned uni (b.opnd s.idx f)).2.raise (s.execFault x.1 x.2 m.lsid.toNat bad (lanes fun l =>
        if bad.getLsbD l && m.as == .global then w64 (effAddr m (lane (b.opnd s.idx f).a.vals (if uni then 0 else l))) else 0))) := by
  subst hbad
  unfold accesses
  simp only [h]
  refine (if_neg fun hc => hp (privileged_iff.1 hc)).trans ?_
  unfold State.met accessLanes at hx ⊢
  rw [hx]

theorem accesses_good (h : s.blk? = some b) (hp : ¬((m.as = .ctx ∨ m.as = .pool) ∧ s.g.sup = false))
    (hx : lowestFault (State.met s m n store atomic aligned uni (b.opnd s.idx f)).1 = none) :
    accesses f m n store atomic aligned uni k s =
      k ((State.met s m n store atomic aligned uni (b.opnd s.idx f)).2.setBlk
          (b.switchOff (offsOf uni (b.opnd s.idx f) (State.met s m n store atomic aligned uni (b.opnd s.idx f)).1)))
        (b.opnd s.idx f) (okLanes (State.met s m n store atomic aligned uni (b.opnd s.idx f)).1) := by
  unfold accesses
  simp only [h]
  refine (if_neg fun hc => hp (privileged_iff.1 hc)).trans ?_
  unfold State.met accessLanes at hx ⊢
  rw [hx]
  rfl

theorem steady_met (o : Opnd) : steady (State.met s m n store atomic aligned uni o).2 = steady s := steady_resolveAll ..

theorem met_blk (h : s.blk? = some b) (o : Opnd) : (State.met s m n store atomic aligned uni o).2.blk? = some b :=
  (steady_blk (steady_met o)).trans h

theorem met_idx (o : Opnd) : (State.met s m n store atomic aligned uni o).2.idx = s.idx :=
  steady_state (steady_met o) State.idx fun _ => rfl

theorem met_clock (o : Opnd) : (State.met s m n store atomic aligned uni o).2.clock = s.clock := steady_clock (steady_met o)

end

@[simp] theorem setBlk_clock (s : State) (b : Blk) : (s.setBlk b).clock = s.clock := by unfold State.setBlk; split <;> rfl
@[simp] theorem setBlk_needsToken (s : State) (b : Blk) : needsToken (s.setBlk b) = needsToken s := by unfold State.setBlk; split <;> rfl

/-! ### Stores and `red` -/

/-- The record that a store's good lane leaves for the commit. -/
def recordOf (f : Form) (m : MemArg) (s t : State) (o : Opnd) (op : Option (BitVec 3 × Ty)) (p : Nat × List Place) : StoreRec :=
  { idx := s.idx, lsid := m.lsid.toNat, lane := p.1, places := p.2, data := bytesOf (accBytes f.ty) (lane o.b.vals p.1).toNat, op := op,
    gated := needsToken t m.as (effAddr m (lane o.a.vals p.1)) (accBytes f.ty), issued := s.clock, cp := if op.isSome then 3 else f.cp }

section
variable {f : Form} {m : MemArg} {i : Instr} {aligned : Bool} {op : Option (BitVec 3 × Ty)} {s : State} {b : Blk}

theorem storeRecs_eq (o : Opnd) (ls : List (Nat × List Place)) (rs : List StoreRec) :
    (storeRecs f m s o op ls).foldl (fun a r => insertStore r a) rs =
      ls.foldl (fun a p => insertStore (recordOf f m s s o op p) a) rs := List.foldl_map

/-- A store whose lanes raise no fault leaves its records for the commit. -/
theorem storeOp_good (h : s.blk? = some b) (hp : ¬((m.as = .ctx ∨ m.as = .pool) ∧ s.g.sup = false)) {t : State}
    {rs : List (Nat × LaneRes)} (ht : State.met s m (accBytes f.ty) true op.isSome aligned false (b.opnd s.idx f) = (rs, t))
    (hx : lowestFault rs = none) :
    storeOp f m i aligned op s = .next (t.setBlk (Blk.markDone { b.switchOff (offLanes rs) with
      progress := s.clock
      stores := (okLanes rs).foldl (fun a p => insertStore (recordOf f m s t (b.opnd s.idx f) op p) a) (b.switchOff (offLanes rs)).stores
      fired := (b.switchOff (offLanes rs)).fired ++ [(b.opnd s.idx f).left s.idx i] } s.idx)) := by
  have hi : t.idx = s.idx := by
    simpa only [ht] using met_idx (s := s) (m := m) (n := accBytes f.ty) (store := true) (atomic := op.isSome) (aligned := aligned) (uni := false) (b.opnd s.idx f)
  have hc : t.clock = s.clock := by
    simpa only [ht] using met_clock (s := s) (m := m) (n := accBytes f.ty) (store := true) (atomic := op.isSome) (aligned := aligned) (uni := false) (b.opnd s.idx f)
  refine (accesses_good h hp (by rw [ht]; exact hx)).trans ?_
  rw [ht]
  simp only [setBlk_blk, setBlk_setBlk, setBlk_idx, setBlk_clock, hi, hc, storeRecs_eq]
  simp only [recordOf, setBlk_idx, setBlk_clock, setBlk_needsToken, hi, hc]
  rfl

end

section
variable {f : Form} {m : MemArg} {s : State} {b : Blk}

theorem red_eq (h : s.blk? = some b) (hf : s.launchOf.fixord = false ∨ f.cp ≠ 7) :
    exec (.red f m) s = storeOp f m (.red f m) true (some (f.cp, f.ty)) s := by
  have hc : (s.launchOf.fixord && f.cp == 7) = false := by simpa [or_iff_not_imp_left] using hf
  rw [exec_red]
  unfold execRed
  simp only [h, hc, Bool.false_eq_true, if_false, ne_eq, not_true_eq_false]

/-- A store or `red` as an access of its lanes. -/
theorem store_eq (h : s.blk? = some b) (red : Bool) (hf : red = true → s.launchOf.fixord = false ∨ f.cp ≠ 7) :
    exec (if red then .red f m else .st f m) s =
      storeOp f m (if red then .red f m else .st f m) red (if red then some (f.cp, f.ty) else none) s := by
  cases red
  · rfl
  · exact red_eq h (hf rfl)

theorem red_ordered (h : s.blk? = some b) (hf : s.launchOf.fixord = true) (hcp : f.cp = 7) {outside : Mask}
    (ho : outside = maskOf fun l => (b.opnd s.idx f).live.getLsbD l &&
      !(m.as == .global && inWindow s.launchOf (effAddr m (lane (b.opnd s.idx f).a.vals l)) (accBytes f.ty))) (hn : outside ≠ 0) :
    Faults (.red f m) s 13 0 m.lsid.toNat outside [] := by
  have hc : (s.launchOf.fixord && f.cp == 7) = true := by simp [hf, hcp]
  unfold Faults
  rw [exec_red]
  unfold execRed
  simp only [h, hc, ↓reduceIte]
  refine (if_pos ?_).trans ?_
  · rw [ho] at hn
    exact hn
  · rw [ho]
    rfl

end

/-- Settles O21, by the shape of an access of every lane. -/
theorem storesAndReds : Obligations.StoresAndReds := by
  refine ⟨fun f m s b h => ?_, fun f m s b h => ⟨fun hf hcp hn => red_ordered h hf hcp rfl hn, fun red hf => ⟨fun hp => ?_, fun x hp hx => ?_⟩⟩⟩
  · intro o n ea r t open_ record i red hf hp hx c
    rw [show exec (i red) s = _ from store_eq h red hf]
    refine (storeOp_good h hp rfl ?_).trans ?_
    · cases red <;> exact hx
    · cases red <;> rfl
  · rw [store_eq h red hf]
    exact accesses_refused h (not_not.1 hp)
  · rw [store_eq h red hf]
    cases red
    · exact (accesses_fault (n := accBytes f.ty) (store := true) (atomic := false) (aligned := false) (uni := false) h hp hx rfl).trans rfl
    · exact (accesses_fault (n := accBytes f.ty) (store := true) (atomic := true) (aligned := true) (uni := false) h hp hx rfl).trans rfl

end Sys2Proof.Proofs
end

section
/-! PROOFS. Tokens delivered to a block, requests made for it, and lines that hit in L1 (spec/10 R276, spec/06 R182, R183, R201 to
R203). -/

namespace Sys2Proof.Proofs
open Sys2Proof.Machine Sys2Proof.Laws.Shapes

/-! ### Tokens -/

/-- Sending a token changes the block's tokens only. -/
theorem send_eq (b : Blk) (i : Nat) (t : Target) (x : Tok) : b.send i t x = { b with toks := (b.send i t x).toks } := by
  unfold Blk.send
  split <;> rfl

/-- The tokens of a block after a result was sent to its targets. -/
def Blk.sentToks (b : Blk) (idx : Nat) (f : Form) (x : Tok) : Table Tok :=
  ((((b.send idx f.t0 x).send idx f.t1 x).send idx f.t2 x).send idx f.t3 x).toks

/-- A delivery changes the tokens and marks the instruction. -/
theorem deliver_eq (b : Blk) (idx : Nat) (f : Form) (x : Tok) :
    b.deliver idx f x = { b with toks := Blk.sentToks b idx f x, issued := b.issued ||| bit96 idx, done := b.done ||| bit96 idx } := by
  unfold Blk.deliver Blk.sentToks Blk.markDone
  rw [send_eq (((b.send idx f.t0 x).send idx f.t1 x).send idx f.t2 x), send_eq ((b.send idx f.t0 x).send idx f.t1 x),
    send_eq (b.send idx f.t0 x), send_eq b]

section
variable {s : State} {b : Blk}

theorem setBlk_self (h : s.blk? = some b) : s.setBlk b = s := by
  unfold State.blk? at h
  unfold State.setBlk
  by_cases hi : s.isec = true
  · rw [if_pos hi] at h ⊢
    rw [← h]
  · rw [if_neg hi] at h ⊢
    rw [← h]

/-! ### Requests -/

/-- The request record of a reply that holds no miss-status entry. -/
def plainReq (s : State) (idx : Nat) : LineReq := { num := s.nextId, idx := idx, line := 0, held := false, aged := true }

theorem plainRequest_eq (h : s.blk? = some b) (idx : Nat) :
    s.plainRequest idx = ((({ s with nextId := s.nextId + 1 } : State).setBlk { b with reqs := b.reqs ++ [plainReq s idx] }).offCore (.gang s.gid)
      (.memoryReply s.nextId .data)) := by
  unfold State.plainRequest
  simp only [h]
  rfl

/-- A state without the instances, the caches and the directory, and what is still to come. -/
def quiet (s : State) : State :=
  { s with g := { s.g with prim := none, sec := none }, cores := [], dir := [], dirUse := [], dies := [], agenda := [], free := 0, nextId := 0 }

@[simp] theorem quiet_setBlk (s : State) (b : Blk) : quiet (s.setBlk b) = quiet s := by
  unfold State.setBlk
  split <;> rfl

theorem quiet_fresh_setBlk (s : State) (b : Blk) : quiet (({ s with nextId := s.nextId + 1 } : State).setBlk b) = quiet s := quiet_setBlk _ b

/-- What is read from the part that is kept. -/
theorem quiet_state {α : Type} {s t : State} (h : quiet t = quiet s) (f : State → α) (hf : ∀ s, f (quiet s) = f s) : f t = f s := by
  rw [← hf t, ← hf s, h]

/-- A request that a reply off the core answers. -/
theorem plainRequest_made (h : s.blk? = some b) (idx : Nat) :
    (s.plainRequest idx).blk? = some { b with reqs := b.reqs ++ [plainReq s idx] } ∧
    (s.plainRequest idx).agenda = s.agenda ++ [⟨s.now + 1 + Config.freeDelay s.free, none, .gang s.gid, .memoryReply s.nextId .data⟩] ∧
    quiet (s.plainRequest idx) = quiet s := by
  rw [plainRequest_eq h]
  refine ⟨setBlk_blk _ _, ?_, quiet_fresh_setBlk s _⟩
  unfold State.setBlk
  split <;> rfl

theorem setDir_state (s : State) (l : Nat) (d : Dir) : ∃ x y, s.setDir l d = { s with dir := x, dirUse := y } := by
  unfold State.setDir
  split <;> exact ⟨_, _, rfl⟩

/-- A die's request changes the directory, the die's tables and the agenda. -/
theorem ask_state (d k l : Nat) : ∃ dir use dies ag, s.ask d k l = { s with dir := dir, dirUse := use, dies := dies, agenda := s.agenda ++ ag } := by
  unfold State.ask
  simp only
  split
  · exact ⟨s.dir, s.dirUse, s.dies, [], by rw [List.append_nil]⟩
  · split
    · obtain ⟨x, y, h⟩ := setDir_state s l { s.dirAt l with st := .m }
      exact ⟨x, y, s.dies, [], by rw [h, List.append_nil]⟩
    · generalize (if (s.dirAt l).sharers.getLsbD (s.dieNo d) then 2 else k) = j
      split
      · split
        · exact ⟨s.dir, s.dirUse, s.dies, [], by rw [List.append_nil]⟩
        · exact ⟨s.dir, s.dirUse, _, [], by rw [List.append_nil]; rfl⟩
      · exact ⟨s.dir, s.dirUse, _, _, rfl⟩

theorem quiet_ask (s : State) (d k l : Nat) : quiet (s.ask d k l) = quiet s ∧ (s.ask d k l).blk? = s.blk? := by
  obtain ⟨dir, use, dies, ag, h⟩ := ask_state (s := s) d k l
  rw [h]
  exact ⟨rfl, rfl⟩

/-- A request for a line stands at the end of the block's requests. -/
theorem lineRequest_made (h : s.blk? = some b) (idx line : Nat) (cp : BitVec 3) :
    (∃ q : LineReq, (s.lineRequest idx line cp).blk? = some { b with reqs := b.reqs ++ [q] } ∧ q.line = line) ∧
    quiet (s.lineRequest idx line cp) = quiet s := by
  unfold State.lineRequest
  simp only [h]
  split
  · exact ⟨⟨_, setBlk_blk _ _, rfl⟩, quiet_fresh_setBlk s _⟩
  · exact ⟨⟨_, setBlk_blk _ _, rfl⟩, quiet_fresh_setBlk s _⟩

theorem requestLines_made (idx : Nat) (own : Bool) (cp : BitVec 3) (ls : List Nat) : ∀ {s : State} {b : Blk}, s.blk? = some b →
    (∃ qs : List LineReq, (s.requestLines idx own cp ls).blk? = some { b with reqs := b.reqs ++ qs } ∧ qs.map (·.line) = ls) ∧
    quiet (s.requestLines idx own cp ls) = quiet s := by
  induction ls with
  | nil => exact fun {s b} h => ⟨⟨[], by rw [List.append_nil]; exact h, rfl⟩, rfl⟩
  | cons l ls ih =>
    intro s b h
    obtain ⟨⟨q, hq, hl⟩, hk⟩ := lineRequest_made h idx l cp
    obtain ⟨hka, hb⟩ := quiet_ask (s.lineRequest idx l cp) (dieOf s.g.core) (if own then 1 else 0) l
    obtain ⟨⟨qs, hqs, hls⟩, hkr⟩ := ih (hb.trans hq)
    refine ⟨⟨q :: qs, ?_, by rw [List.map_cons, hl, hls]⟩, hkr.trans (hka.trans hk)⟩
    rw [List.append_cons]
    exact hqs

/-! ### Lines that hit in L1 -/

/-- The L1 of a core after hits on some lines. -/
def touchAll (cp : BitVec 3) (ls : List Nat) (l1 : List CacheLine) : List CacheLine := ls.foldl (fun a l => (cachePut 1024 cp l a).1) l1

theorem hitLines_l1 (cp : BitVec 3) (ls : List Nat) : ∀ s : State, (s.hitLines cp ls).core.l1 = touchAll cp ls s.core.l1 := by
  induction ls with
  | nil => exact fun _ => rfl
  | cons l ls ih =>
    intro s
    refine (ih (s.modCore s.g.core fun c => { c with l1 := (cachePut 1024 cp l c.l1).1 })).trans ?_
    have hc : (s.modCore s.g.core fun c => { c with l1 := (cachePut 1024 cp l c.l1).1 }).core.l1 = (cachePut 1024 cp l s.core.l1).1 := by
      unfold State.core
      rw [coreAt_modCore]
      exact congrArg Core.l1 (if_pos rfl)
    rw [hc]
    rfl

theorem quiet_hitLines (cp : BitVec 3) (ls : List Nat) : ∀ s : State,
    quiet (s.hitLines cp ls) = quiet s ∧ (s.hitLines cp ls).blk? = s.blk? := by
  induction ls with
  | nil => exact fun s => ⟨rfl, rfl⟩
  | cons l ls ih => exact fun s => ih (s.modCore s.g.core fun c => { c with l1 := (cachePut 1024 cp l c.l1).1 })

/-- A line that is in a cache of no more lines than its capacity: the cache holds the same lines after a hit. -/
theorem cachePut_hit {cp : BitVec 3} {line : Nat} {l : List CacheLine} (hlen : l.length ≤ 1024) (hin : ∃ x ∈ l, x.line = line) :
    (cachePut 1024 cp line l).1.length ≤ 1024 ∧ ∀ n, (∃ x ∈ (cachePut 1024 cp line l).1, x.line = n) ↔ ∃ x ∈ l, x.line = n := by
  obtain ⟨x, hx, hxl⟩ := hin
  have hlt : (l.filter fun x => x.line != line).length < l.length := by
    rw [List.length_filter_lt_length_iff_exists]
    exact ⟨x, hx, by simp [hxl]⟩
  have hrest (n : Nat) : (n = line ∨ ∃ y ∈ l.filter (fun x => x.line != line), y.line = n) ↔ ∃ y ∈ l, y.line = n := by
    constructor
    · rintro (rfl | ⟨y, hy, hn⟩)
      · exact ⟨x, hx, hxl⟩
      · exact ⟨y, (List.mem_filter.1 hy).1, hn⟩
    · rintro ⟨y, hy, rfl⟩
      by_cases hyl : y.line = line
      · exact .inl hyl
      · exact .inr ⟨y, List.mem_filter.2 ⟨hy, by simpa using hyl⟩, rfl⟩
  unfold cachePut
  simp only [if_pos (show (l.filter fun x => x.line != line).length < 1024 by omega)]
  split
  · refine ⟨by rw [List.length_cons]; omega, fun n => Iff.trans ?_ (hrest n)⟩
    rw [List.exists_mem_cons_iff]
    exact or_congr eq_comm Iff.rfl
  · refine ⟨by rw [List.length_append, List.length_singleton]; omega, fun n => Iff.trans ?_ (hrest n)⟩
    simp only [List.mem_append, List.mem_singleton, or_and_right, exists_or, exists_eq_left]
    exact or_comm.trans (or_congr eq_comm Iff.rfl)

/-- Lines that are in a cache leave it the same lines. -/
theorem touchAll_lines (cp : BitVec 3) (ls : List Nat) : ∀ {l1 : List CacheLine}, l1.length ≤ 1024 → (∀ l ∈ ls, ∃ x ∈ l1, x.line = l) →
    ∀ n, (∃ x ∈ touchAll cp ls l1, x.line = n) ↔ ∃ x ∈ l1, x.line = n := by
  induction ls with
  | nil => exact fun _ _ _ => Iff.rfl
  | cons l ls ih =>
    intro l1 hlen hall n
    obtain ⟨hlen', hsame⟩ := cachePut_hit (cp := cp) hlen (hall l List.mem_cons_self)
    exact (ih hlen' (fun k hk => (hsame k).2 (hall k (List.mem_cons_of_mem _ hk))) n).trans (hsame n)

end

end Sys2Proof.Proofs
end

section
/-! PROOFS. Loads (spec/14 R395 to R398): what is delivered, and when the token is usable (spec/06 R187, R190, R201 to R203). -/

namespace Sys2Proof.Proofs
open Sys2Proof.Machine Sys2Proof.Laws.Shapes

/-! ### Lanes whose accesses are all good -/

section
variable {rs : List (Nat × LaneRes)}

theorem lowestFault_good (h : ∀ x ∈ rs, ∃ ps, x.2 = .ok ps) : lowestFault rs = none := by
  unfold lowestFault
  induction rs with
  | nil => rfl
  | cons x rs ih =>
    obtain ⟨ps, hx⟩ := h x List.mem_cons_self
    rw [List.foldl_cons, hx]
    exact ih fun y hy => h y (List.mem_cons_of_mem _ hy)

theorem offLanes_good (h : ∀ x ∈ rs, ∃ ps, x.2 = .ok ps) : offLanes rs = [] := by
  unfold offLanes
  rw [List.filterMap_eq_nil_iff]
  intro x hx
  obtain ⟨ps, hp⟩ := h x hx
  rw [hp]

theorem okLanes_good (h : ∀ x ∈ rs, ∃ ps, x.2 = .ok ps) : (okLanes rs).map (·.1) = rs.map (·.1) := by
  unfold okLanes
  induction rs with
  | nil => rfl
  | cons x rs ih =>
    obtain ⟨ps, hx⟩ := h x List.mem_cons_self
    rw [List.filterMap_cons, hx, List.map_cons, List.map_cons]
    exact congrArg _ (ih fun y hy => h y (List.mem_cons_of_mem _ hy))

end

theorem resolveAll_lanes (m : MemArg) (n : Nat) (store atomic aligned : Bool) (ea : Nat → Nat) (ls : List Nat) :
    ∀ s : State, (s.resolveAll m n store atomic aligned ea ls).1.map (·.1) = ls := by
  induction ls with
  | nil => exact fun _ => rfl
  | cons l ls ih => exact fun s => congrArg (l :: ·) (ih _)

/-- A uniform instruction's access lanes by its VC code. -/
theorem accessLanes_vc (f : Form) (o : Opnd) :
    accessLanes (f.vc == .uni) o = if f.vc = .uni then (if o.live = 0 then [] else [0]) else lanesOf o.live := by
  unfold accessLanes
  simp only [beq_iff_eq]

theorem outPat_eq (t : Ty) (x : Nat) :
    outPat t x = BitVec.ofInt 64 (if t.isFloat then (x : Int) else asInt t (BitVec.ofNat 64 x)) := by
  unfold outPat outI
  rw [ext_eq_asInt]
  split
  · exact (BitVec.ofInt_natCast 64 x).symm
  · rfl

section
variable {f : Form} {m : MemArg} {s t : State} {b : Blk}

/-- A load with earlier loads of its block still to issue keeps what it has read (07 R216). -/
theorem noteRead_eq (t : State) (b : Blk) (lsid : Nat) (ps : List Place) :
    t.noteRead b lsid ps = if ∃ q ∈ b.instrs, q.2.isLoad = true ∧ q.2.lsid.getD 32 < lsid ∧ b.issued.getLsbD q.1 = false then
      { b with reads := b.reads ++ [{ lsid := lsid, bytes := ps.map fun p => (p, t.overByte (b.readAfter lsid) p) }] } else b := by
  unfold State.noteRead
  refine if_congr ?_ rfl rfl
  simp [List.any_eq_true, and_assoc]

theorem noteRead_fired (t : State) (b : Blk) (lsid : Nat) (ps : List Place) : (t.noteRead b lsid ps).fired = b.fired := by
  unfold State.noteRead
  split <;> rfl

/-- The place of an access in the order of `seq` operations (07 R215). -/
theorem placeSeq_eq (h : s.blk? = some b) (lsid : Nat) :
    s.placeSeq lsid = if b.seq.isSome || !b.seqBefore lsid then s else
      State.setBlk { s with nextId := s.nextId + 1 } { b with seq := some s.nextId } := by
  unfold State.placeSeq
  simp only [h]
  rfl

theorem seqBefore_iff (b : Blk) (lsid : Nat) :
    b.seqBefore lsid = true ↔ ∃ q ∈ b.instrs, q.2.isSeq = true ∧ q.2.lsid.getD 32 < lsid := by
  simp [Blk.seqBefore]

/-- A load all of whose lanes are good. -/
theorem loadOp_good {aligned bypass : Bool} {mark : Option Instr} {o : Opnd} (h : s.blk? = some b) (ho : o = b.opnd s.idx f)
    (hp : ¬((m.as = .ctx ∨ m.as = .pool) ∧ s.g.sup = false)) {rs : List (Nat × LaneRes)} {t : State}
    (ht : State.met s m (accBytes f.ty) false false aligned (f.vc == .uni) o = (rs, t)) (hg : ∀ x ∈ rs, ∃ ps, x.2 = .ok ps)
    {vs : List (Nat × W64)}
    (hv : vs = (okLanes rs).map fun p => (p.1, loadVal f.ty (p.2.map (t.overByte (t.forwarded b m.lsid.toNat))))) :
    loadOp f m aligned bypass mark s =
      .next (((t.setBlk (match mark with
        | none => t.noteRead b m.lsid.toNat ((okLanes rs).flatMap (·.2))
        | some i => (t.noteRead b m.lsid.toNat ((okLanes rs).flatMap (·.2))).leave
            { idx := s.idx, ins := i, lanes := maskOf fun l => (okLanes rs).any fun p => p.1 == l,
              a := lanes fun l => w64 (effAddr m (lane o.a.vals l)), b := lanes (laneVal vs), c := [] })).placeSeq
        m.lsid.toNat).deliverLoad f (loadTok f o vs) m.as ((okLanes rs).flatMap (·.2)) bypass f.cp) := by
  subst ho hv
  have hb : t.blk? = some b := by
    simpa only [ht] using met_blk (m := m) (n := accBytes f.ty) (store := false) (atomic := false) (aligned := aligned) (uni := f.vc == .uni) h (b.opnd s.idx f)
  have hi : t.idx = s.idx := by
    simpa only [ht] using met_idx (s := s) (m := m) (n := accBytes f.ty) (store := false) (atomic := false) (aligned := aligned) (uni := f.vc == .uni) (b.opnd s.idx f)
  refine (accesses_good h hp (by rw [ht]; exact lowestFault_good hg)).trans ?_
  have hoff : offsOf (f.vc == .uni) (b.opnd s.idx f) rs = [] := by
    unfold offsOf
    rw [offLanes_good hg]
    exact ite_self _
  rw [ht]
  cases mark <;> simp only [hoff, switchOff_nil, setBlk_self hb, hb, hi]

theorem any_lane {α : Type} (vs : List (Nat × α)) (l : Nat) : (vs.any fun p => p.1 == l) = (vs.map (·.1)).contains l := by
  simp only [List.contains_eq_any_beq, List.any_map, Function.comp_def, beq_eq_beq.2 eq_comm]

/-- A load's token: null outside the lanes that read. -/
theorem loadTok_eq {o : Opnd} {vs : List (Nat × W64)} {ls : List Nat} (hl : vs.map (·.1) = ls) :
    loadTok f o vs = if f.vc = .uni then tokOf .uni (splat (laneVal vs 0)) (if ls = [] then allLanes else 0)
      else tokOf .lane (lanes (laneVal vs)) (~~~(maskOf fun l => o.live.getLsbD l && ls.contains l)) := by
  subst hl
  unfold loadTok
  simp only [any_lane, List.isEmpty_iff, List.map_eq_nil_iff]

end

/-! ### When a loaded token is usable -/

section
variable {f : Form} {t : Tok} {ps : List Place} {bypass : Bool} {cp : BitVec 3} {s : State} {b : Blk}

theorem stashPasses_lat (s : State) : s.lat (10, 11) = 10 + if s.twoPass then 1 else 0 := by
  unfold State.lat
  split <;> rfl

theorem lineLat (s : State) : s.lat (28, 29) = 28 + if s.twoPass then 1 else 0 := by
  unfold State.lat
  split <;> rfl

/-- A token delivered with a known time. -/
theorem deliver_completed (b : Blk) (now idx : Nat) (f : Form) (ready : Nat) (t : Tok) :
    Blk.deliver { b with progress := now } idx f { t with ready := some ready } = b.completed now idx f ready t 0 := by
  unfold Blk.completed
  rw [or_no_flags]

/-- The block of a load under way. -/
def Blk.sending (b : Blk) (now idx : Nat) (f : Form) (t : Tok) : Blk :=
  { Blk.deliver { b with progress := now } idx f t with done := b.done, issued := b.issued ||| bit96 idx }

/-- A load whose reply comes from off the core. -/
theorem deliverLoad_sent {sp : Space} (h : s.deliverLoad f t sp ps bypass cp = (s.setBlk (Blk.sending b s.clock s.idx f t)).plainRequest s.idx) :
    ∃ u c q, s.deliverLoad f t sp ps bypass cp = u ∧
      (u.blk? = some c ∧ c.done = b.done ∧ c.issued = b.issued ||| BitVec.ofNat 96 (2 ^ s.idx) ∧ u.mem = s.mem ∧ u.g.regs = s.g.regs ∧
        u.teams = s.teams) ∧ c.reqs = b.reqs ++ [q] ∧ q.idx = s.idx ∧
      ∃ d, u.agenda = s.agenda ++ [⟨s.now + 1 + d, none, .gang s.gid, .memoryReply q.num .data⟩] := by
  obtain ⟨hb, ha, hk⟩ := plainRequest_made (setBlk_blk s (Blk.sending b s.clock s.idx f t)) s.idx
  have hk := hk.trans (quiet_setBlk s _)
  refine ⟨_, _, plainReq (s.setBlk (Blk.sending b s.clock s.idx f t)) s.idx, h, ⟨hb, rfl, rfl, quiet_state hk State.mem fun _ => rfl,
    quiet_state hk (·.g.regs) fun _ => rfl, quiet_state hk State.teams fun _ => rfl⟩, ?_, rfl, Config.freeDelay s.free, ?_⟩
  · unfold Blk.sending
    rw [deliver_eq]
  · refine ha.trans ?_
    unfold State.setBlk
    split <;> rfl

theorem deliverLoad_stash (h : s.blk? = some b) : s.deliverLoad f t .stash ps bypass cp = s.setBlk
    (b.completed s.clock s.idx f (s.clock + (10 + (if s.twoPass then 1 else 0) + 2 * (stashPasses ps - 1))) t 0) := by
  unfold State.deliverLoad
  simp only [h, deliver_completed, stashPasses_lat]

theorem deliverLoad_tile (h : s.blk? = some b) : s.deliverLoad f t .tile ps bypass cp = s.setBlk
    (b.completed s.clock s.idx f (s.clock + (10 + if s.twoPass then 1 else 0)) t 0) := by
  unfold State.deliverLoad
  simp only [h, deliver_completed, stashPasses_lat]

theorem own_iff : (ps.all fun p => p.kind == 1 && p.id == s.g.team) = true ↔ ∀ p ∈ ps, p.kind = 1 ∧ p.id = s.g.team := by simp

theorem deliverLoad_rstash_own (h : s.blk? = some b) (ho : ∀ p ∈ ps, p.kind = 1 ∧ p.id = s.g.team) :
    s.deliverLoad f t .rstash ps bypass cp = s.setBlk
      (b.completed s.clock s.idx f (s.clock + (10 + (if s.twoPass then 1 else 0) + 2 * (stashPasses ps - 1))) t 0) := by
  unfold State.deliverLoad
  simp only [h, deliver_completed, stashPasses_lat, own_iff.2 ho, ↓reduceIte]

theorem deliverLoad_rstash_other (h : s.blk? = some b) (ho : ¬∀ p ∈ ps, p.kind = 1 ∧ p.id = s.g.team) :
    s.deliverLoad f t .rstash ps bypass cp = (s.setBlk (Blk.sending b s.clock s.idx f t)).plainRequest s.idx := by
  unfold State.deliverLoad
  simp only [h]
  exact if_neg fun hc => ho (own_iff.1 hc)

theorem deliverLoad_ctx_none (h : s.blk? = some b) (hp : ps = []) : s.deliverLoad f t .ctx ps bypass cp = s.setBlk
    (b.completed s.clock s.idx f (s.clock + (10 + if s.twoPass then 1 else 0)) t 0) := by
  unfold State.deliverLoad
  simp only [h, deliver_completed, stashPasses_lat, hp, List.isEmpty_nil, ↓reduceIte]

theorem deliverLoad_ctx (h : s.blk? = some b) (hp : ps ≠ []) :
    s.deliverLoad f t .ctx ps bypass cp = (s.setBlk (Blk.sending b s.clock s.idx f t)).plainRequest s.idx := by
  unfold State.deliverLoad
  simp only [h]
  exact if_neg fun hc => hp (List.isEmpty_iff.1 hc)

/-- The lines of a load that L1 does not give. -/
def missed (s : State) (ps : List Place) (bypass : Bool) : List Nat :=
  (linesOf ps).filter fun l => bypass || !(s.core.l1.any fun x => x.line == l)

theorem missed_eq : missed s ps bypass = if bypass then linesOf ps else (linesOf ps).filter fun l => !(holdsLine s.core.l1 l) := by
  unfold missed holdsLine
  cases bypass <;> simp

theorem missed_hit (hm : missed s ps bypass = []) : ∀ l ∈ linesOf ps, ∃ x ∈ s.core.l1, x.line = l := by
  intro l hl
  have := List.filter_eq_nil_iff.1 hm l hl
  simp only [Bool.or_eq_true, Bool.not_eq_true', not_or, Bool.not_eq_false, List.any_eq_true, beq_iff_eq] at this
  exact this.2

theorem deliverLoad_lines {sp : Space} (h : s.blk? = some b) (hs : sp = .global ∨ sp = .pool) : s.deliverLoad f t sp ps bypass cp =
    if (missed s ps bypass).isEmpty then
      (s.hitLines cp ((linesOf ps).filter fun l => !((missed s ps bypass).contains l))).setBlk
        (b.completed s.clock s.idx f (s.clock + (28 + if s.twoPass then 1 else 0) + 2 * ((linesOf ps).length - 1)) t 0)
    else ((s.hitLines cp ((linesOf ps).filter fun l => !((missed s ps bypass).contains l))).setBlk
      (Blk.sending b s.clock s.idx f t)).requestLines s.idx false cp (missed s ps bypass) := by
  unfold State.deliverLoad
  rw [missed_eq, ← lineLat, ← deliver_completed]
  rcases hs with rfl | rfl <;> simp only [h] <;> rfl

/-- Every line is in L1 (R202). -/
theorem deliverLoad_hit {sp : Space} (h : s.blk? = some b) (hs : sp = .global ∨ sp = .pool) (hm : missed s ps bypass = []) :
    s.deliverLoad f t sp ps bypass cp = (s.hitLines cp (linesOf ps)).setBlk
      (b.completed s.clock s.idx f (s.clock + (28 + (if s.twoPass then 1 else 0) + 2 * ((linesOf ps).length - 1))) t 0) := by
  rw [deliverLoad_lines h hs, hm, if_pos List.isEmpty_nil, Nat.add_assoc s.clock]
  simp

/-- Some line is not: the load waits for the replies. -/
theorem deliverLoad_miss {sp : Space} (h : s.blk? = some b) (hs : sp = .global ∨ sp = .pool) (hm : missed s ps bypass ≠ []) :
    ∃ u c, s.deliverLoad f t sp ps bypass cp = u ∧
      (u.blk? = some c ∧ c.done = b.done ∧ c.issued = b.issued ||| BitVec.ofNat 96 (2 ^ s.idx) ∧ u.mem = s.mem ∧ u.g.regs = s.g.regs ∧
        u.teams = s.teams) ∧ c.reqs.map (·.line) = b.reqs.map (·.line) ++ missed s ps bypass := by
  rw [deliverLoad_lines h hs, if_neg fun hc => hm (List.isEmpty_iff.1 hc)]
  generalize (linesOf ps).filter (fun l => !((missed s ps bypass).contains l)) = hits
  obtain ⟨hkh, _⟩ := quiet_hitLines cp hits s
  obtain ⟨⟨qs, hb, hl⟩, hk⟩ := requestLines_made s.idx false cp (missed s ps bypass)
    (setBlk_blk (s.hitLines cp hits) (Blk.sending b s.clock s.idx f t))
  have hk := hk.trans ((quiet_setBlk _ _).trans hkh)
  refine ⟨_, _, rfl, ⟨hb, rfl, rfl, quiet_state hk State.mem fun _ => rfl, quiet_state hk (·.g.regs) fun _ => rfl,
    quiet_state hk State.teams fun _ => rfl⟩, ?_⟩
  rw [List.map_append, hl]
  unfold Blk.sending
  rw [deliver_eq]

end

/-- What `ldp` leaves for the commit: addresses and values of its lanes (R398). -/
def polled (f : Form) (m : MemArg) (idx : Nat) (k : Mask) (ea : Nat → Nat) (vs : List (Nat × W64)) : Fired :=
  { idx := idx, ins := .ldp f m, lanes := k, a := lanes fun l => BitVec.ofNat 64 (ea l), b := lanes (laneVal vs), c := [] }

/-- Settles O19: the accesses of a load lane by lane, then the time of its token by space. -/
theorem loads : Obligations.Loads := by
  refine ⟨fun f m s b h => ?_, fun f t ps bypass cp s b h => ?_⟩
  · intro o n ls ea r t ahead value vals token places good early kept open_
    have hr (aligned : Bool) : State.met s m (accBytes f.ty) false false aligned (f.vc == .uni) o = r aligned := by
      unfold State.met
      rw [accessLanes_vc]
      rfl
    have hvals (aligned : Bool) : vals aligned =
        (okLanes (r aligned).1).map fun p => (p.1, loadVal f.ty (p.2.map ((t aligned).overByte (ahead aligned)))) :=
      List.map_congr_left fun p _ => congrArg _ (outPat_eq ..).symm
    have hkeys (aligned : Bool) (hg : good aligned) : (vals aligned).map (·.1) = ls := by
      refine List.map_map.trans ((okLanes_good hg).trans (resolveAll_lanes ..))
    have hlanes (hg : good true) (l : Nat) : ((okLanes (r true).1).any fun p => p.1 == l) = ls.contains l := by
      rw [any_lane, okLanes_good hg]
      exact congrArg (·.contains l) (resolveAll_lanes ..)
    refine ⟨fun hp hg => ?_, fun hp hg => ?_, ⟨fun hc => ?_, fun hn ha => ?_⟩, fun aligned x hp hx => ?_, fun hp => ⟨?_, ?_⟩⟩
    · refine (loadOp_good (mark := none) h rfl hp (hr false) hg (hvals false)).trans ?_
      rw [loadTok_eq (hkeys false hg)]
      simp only [noteRead_eq]
      rfl
    · refine (loadOp_good (mark := some (.ldp f m)) h rfl hp (hr true) hg (hvals true)).trans ?_
      rw [loadTok_eq (hkeys true hg)]
      have hkept : (t true).noteRead b m.lsid.toNat (places true) = kept true := noteRead_eq ..
      have hfired : (kept true).fired = b.fired := by rw [← hkept, noteRead_fired]
      have hleft (k : Mask) (hk : k = maskOf fun l => ls.contains l) :
          ((t true).noteRead b m.lsid.toNat (places true)).leave (polled f m s.idx k ea (vals true)) =
          { kept true with fired := b.fired ++ [polled f m s.idx (maskOf fun l => ls.contains l) ea (vals true)] } := by
        rw [hkept, ← hfired, hk]
        rfl
      exact congrArg (fun c => Host.Outcome.next
        ((((t true).setBlk c).placeSeq m.lsid.toNat).deliverLoad f (token true) m.as (places true) true f.cp))
        (hleft _ (congrArg maskOf (funext (hlanes hg))))
    · rw [placeSeq_eq h, if_pos]
      rcases hc with hc | hc
      · rw [Option.isSome_iff_ne_none.2 hc, Bool.true_or]
      · rw [Bool.eq_false_iff.2 fun ht => hc ((seqBefore_iff ..).1 ht), Bool.not_false, Bool.or_true]
    · rw [placeSeq_eq h, if_neg]
      rw [hn, (seqBefore_iff ..).2 ha]
      decide
    · have hload : exec (if aligned then .ldp f m else .ld f m) s =
          loadOp f m aligned (aligned || decide (3 ≤ f.cp.toNat)) (if aligned then some (.ldp f m) else none) s := by
        cases aligned <;> rfl
      refine hload.trans ((accesses_fault (f := f) (n := accBytes f.ty) (store := false) (atomic := false) (aligned := aligned)
        (uni := f.vc == .uni) h hp ((congrArg (fun q => lowestFault q.1) (hr aligned)).trans hx) rfl).trans ?_)
      simp only [beq_iff_eq]
      rw [hr aligned]
      rfl
    · rw [exec_ld]
      unfold execLd loadOp
      exact accesses_refused h (not_not.1 hp)
    · rw [exec_ldp]
      unfold execLdp loadOp
      exact accesses_refused h (not_not.1 hp)
  · refine ⟨deliverLoad_tile h, deliverLoad_stash h, deliverLoad_rstash_own h, fun ho => deliverLoad_sent (deliverLoad_rstash_other h ho),
      deliverLoad_ctx_none h, fun hp => deliverLoad_sent (deliverLoad_ctx h hp), fun sp hs => ⟨fun hm => ⟨deliverLoad_hit h hs hm, ?_⟩,
      fun hm => deliverLoad_miss h hs hm⟩⟩
    intro hl l
    rw [hitLines_l1]
    exact touchAll_lines cp _ hl (missed_hit hm) l

end Sys2Proof.Proofs
end

section
/-! PROOFS. Atomic operations (spec/14 R399, R400): new values, one performance on stash bytes, held outcomes and faults. -/

namespace Sys2Proof.Proofs
open Sys2Proof.Machine Sys2Proof.Laws Sys2Proof.Laws.Shapes

/-! ### New values (R399) -/

theorem pat_ext_min {t : Ty} {x y : W64} {z : Int} (hz : z = asInt t x ∨ z = asInt t y) : asInt t (BitVec.ofNat 64 (pat t z)) = z := by
  have h (w : W64) : asInt t (BitVec.ofNat 64 (pat t (asInt t w))) = asInt t w := by
    rw [pat_asInt]
    exact asInt_congr ((w64_mod t _).trans (Nat.mod_mod _ _))
  rcases hz with rfl | rfl <;> exact h _

theorem aopNew_values (t : Ty) (old b : Nat) (ho : old < 2 ^ t.width) :
    let x := asInt t (BitVec.ofNat 64 old)
    let y := asInt t (BitVec.ofNat 64 b)
    let new := fun (n : Nat) => (aopNew (BitVec.ofNat 3 n) t old b).1
    let value := fun (n : Nat) => asInt t (BitVec.ofNat 64 (new n))
    new 0 = ((x + y) % (2 ^ t.width : Int)).toNat ∧
    value 1 = (if x ≤ y then x else y) ∧ value 2 = (if x ≤ y then y else x) ∧
    new 3 = (old &&& b % 2 ^ t.width) ∧ new 4 = (old ||| b % 2 ^ t.width) ∧ new 5 = (old ^^^ b % 2 ^ t.width) ∧
    new 6 = b % 2 ^ t.width ∧
    (∀ n, n < 7 → new n < 2 ^ t.width ∧ (aopNew (BitVec.ofNat 3 n) t old b).2 = 0) ∧
    aopNew 7 t old b = fpAdd t ⟨0, 0⟩ old b := by
  intro x y new value
  have hx : ext t (w64 old) = x := ext_eq_asInt ..
  have hy : ext t (w64 b) = y := ext_eq_asInt ..
  have hb : b % 2 ^ t.width < 2 ^ t.width := Nat.mod_lt _ (Nat.two_pow_pos _)
  have h1 : new 1 = pat t (min x y) := by rw [← hx, ← hy]; rfl
  have h2 : new 2 = pat t (max x y) := by rw [← hx, ← hy]; rfl
  refine ⟨?_, ?_, ?_, rfl, rfl, rfl, rfl, fun n hn => ?_, rfl⟩
  · rw [← hx, ← hy]
    rfl
  · change asInt t (BitVec.ofNat 64 (new 1)) = _
    rw [h1, pat_ext_min (min_choice x y)]
    exact min_def x y
  · change asInt t (BitVec.ofNat 64 (new 2)) = _
    rw [h2, pat_ext_min (max_choice x y)]
    exact max_def x y
  · interval_cases n
    · exact ⟨pat_lt t _, rfl⟩
    · exact ⟨pat_lt t _, rfl⟩
    · exact ⟨pat_lt t _, rfl⟩
    · exact ⟨Nat.and_lt_two_pow _ hb, rfl⟩
    · exact ⟨Nat.or_lt_two_pow ho hb, rfl⟩
    · exact ⟨Nat.xor_lt_two_pow ho hb, rfl⟩
    · exact ⟨hb, rfl⟩

/-! ### Bytes -/

theorem natOf_lt (bs : List Byte) : natOf bs < 256 ^ bs.length := by
  induction bs with
  | nil => exact Nat.one_pos
  | cons b bs ih =>
    have hb := b.isLt
    rw [List.length_cons, Nat.pow_succ]
    unfold natOf
    omega

theorem bytesOf_natOf (bs : List Byte) : bytesOf bs.length (natOf bs) = bs := by
  induction bs with
  | nil => rfl
  | cons b bs ih =>
    have hb := b.isLt
    have hdiv : (b.toNat + 256 * natOf bs) / 256 = natOf bs := by omega
    have hmod : BitVec.ofNat 8 (b.toNat + 256 * natOf bs) = b := BitVec.eq_of_toNat_eq (by rw [BitVec.toNat_ofNat]; omega)
    unfold natOf bytesOf
    simp only [List.length_cons]
    rw [hdiv, hmod, ih]

theorem length_bytesOf (n x : Nat) : (bytesOf n x).length = n := by
  induction n generalizing x with
  | zero => rfl
  | succ n ih => exact congrArg (· + 1) (ih _)

theorem length_memRead (m : List Host.Cell) (a n : Nat) : (memRead m a n).length = n := by
  induction n generalizing a with
  | zero => rfl
  | succ n ih => exact congrArg (· + 1) (ih _)

theorem memRead_eq_map (m : List Host.Cell) (a n : Nat) : memRead m a n = (List.range n).map fun i => memByte m (a + i) := by
  induction n generalizing a with
  | zero => rfl
  | succ n ih =>
    rw [List.range_succ_eq_map, List.map_cons, List.map_map]
    refine congrArg _ ((ih (a + 1)).trans (List.map_congr_left fun i _ => ?_))
    rw [Function.comp_apply, Nat.add_right_comm, Nat.add_assoc]

/-! ### Stash bytes of a team without mapped regions -/

section
variable {s : State} {id : Nat} {tm : Team}

theorem teamAt_of (h : tfind s.teams id = some tm) : s.teamAt id = tm := by
  unfold State.teamAt tget
  rw [h]
  rfl

theorem places_cons (id a n : Nat) : ((List.range (n + 1)).map fun i => (⟨1, id, a + i⟩ : Place)) =
    ⟨1, id, a⟩ :: (List.range n).map fun i => ⟨1, id, a + 1 + i⟩ := by
  rw [List.range_succ_eq_map, List.map_cons, List.map_map]
  refine congrArg _ (List.map_congr_left fun i _ => ?_)
  rw [Function.comp_apply, Nat.add_right_comm, Nat.add_assoc]

/-- Stash bytes written one after another. -/
theorem setPlace_run (bs : List Byte) : ∀ {s : State} {tm : Team} (a : Nat), tfind s.teams id = some tm → tm.regions = [] →
    ∃ ts, (((List.range bs.length).map fun i => (⟨1, id, a + i⟩ : Place)).zip bs).foldl (fun s x => s.setPlace x.1 x.2) s =
        { s with teams := ts } ∧ tfind ts id = some { tm with stash := memWrite tm.stash a bs } := by
  induction bs with
  | nil => exact fun {s tm} a h _ => ⟨s.teams, rfl, h⟩
  | cons b bs ih =>
    intro s tm a h hr
    have hset : s.setPlace ⟨1, id, a⟩ b = { s with teams := tset s.teams id { tm with stash := memSet tm.stash a b } } := by
      unfold State.setPlace State.modTeam Team.dirtyAt
      simp only [h, hr, List.map_nil]
    obtain ⟨ts, hs, ht⟩ := ih (s := s.setPlace ⟨1, id, a⟩ b) (tm := { tm with stash := memSet tm.stash a b }) (a + 1)
      (by rw [hset, tfind_tset, if_pos rfl]) hr
    refine ⟨ts, ?_, ht⟩
    rw [List.length_cons, places_cons, List.zip_cons_cons, List.foldl_cons, hs, hset]

theorem ownStash_unmapped (h : (s.teamAt id).regions = []) (a : Nat) : s.ownStash id a = s := by
  unfold State.ownStash
  rw [h]
  rfl

theorem setPlaces_stash (h : tfind s.teams id = some tm) (hr : tm.regions = []) (a : Nat) (bs : List Byte) :
    ∃ ts, s.setPlaces (((List.range bs.length).map fun i => (⟨1, id, a + i⟩ : Place)).zip bs) = { s with teams := ts } ∧
      tfind ts id = some { tm with stash := memWrite tm.stash a bs } := by
  obtain ⟨ts, hs, ht⟩ := setPlace_run bs a h hr
  refine ⟨ts, ?_, ht⟩
  set l := ((List.range bs.length).map fun i => (⟨1, id, a + i⟩ : Place)).zip bs with hl
  have hkind : ∀ x ∈ l, x.1.kind = 1 ∧ x.1.id = id := by
    intro x hx
    obtain ⟨i, -, hi⟩ := List.mem_map.1 (List.of_mem_zip hx).1
    rw [← hi]
    exact ⟨rfl, rfl⟩
  have hown : (stashLines (l.map (·.1))).foldl (fun s x => s.ownStash x.1 (256 * x.2)) s = s := by
    have hmem : ∀ x ∈ stashLines (l.map (·.1)), x.1 = id := by
      intro x hx
      obtain ⟨p, hp, rfl⟩ := List.mem_map.1 (List.mem_eraseDups.1 hx)
      obtain ⟨y, hy, rfl⟩ := List.mem_map.1 (List.mem_filter.1 hp).1
      exact (hkind y hy).2
    revert hmem
    generalize stashLines (l.map (·.1)) = ls
    intro hmem
    induction ls with
    | nil => rfl
    | cons x ls ih =>
      rw [List.foldl_cons, hmem x List.mem_cons_self, ownStash_unmapped (by rw [teamAt_of h, hr])]
      exact ih fun y hy => hmem y (List.mem_cons_of_mem _ hy)
  have hall : l.filter (fun x => x.1.kind != 0) = l := List.filter_eq_self.2 fun x hx => by rw [(hkind x hx).1]; rfl
  have hcells : (l.filterMap fun x => if x.1.kind = 0 then some (x.1.off, x.2) else none) = [] :=
    List.filterMap_eq_nil_iff.2 fun x hx => by rw [(hkind x hx).1]; rfl
  unfold State.setPlaces
  simp only [hown, hall, hcells]
  exact hs

end

/-! ### The outcome of an atomic, held and delivered -/

section
variable {s : State} {b : Blk}

theorem runAhead_eq (s : State) (b : Blk) (m : MemArg) (i : Instr) (ps : List Place) :
    ∃ a, s.runAhead b m i ps = { s with g := { s.g with ahead := a } } := by
  unfold State.runAhead
  split
  · exact ⟨_, rfl⟩
  · exact ⟨s.g.ahead, rfl⟩

theorem hold_eq (h : s.blk? = some b) (x : Lanes) (k : Mask) : s.hold x k =
    { s with g := { s.g with held := tset s.g.held (b.position s.g.sup s.idx) x
                             heldNulls := tset s.g.heldNulls (b.position s.g.sup s.idx) k } } := by
  have hb : ({ s with g := { s.g with held := tset s.g.held (b.position s.g.sup s.idx) x } } : State).blk? = some b := h
  unfold State.hold State.holdNulls
  simp only [h, hb]

/-- The place of an access changes the block's place and the next number only. -/
theorem placeSeq_placed (h : s.blk? = some b) (lsid : Nat) :
    ∃ sq n, s.placeSeq lsid = State.setBlk { s with nextId := n } { b with seq := sq } := by
  rw [placeSeq_eq h]
  split
  · exact ⟨b.seq, s.nextId, (setBlk_self h).symm⟩
  · exact ⟨_, _, rfl⟩

/-- An atomic's outcome under way: what the block and the gang then hold. -/
structure AtomicSent (s t : State) (b : Blk) (f : Form) (tok : Tok) (x : Lanes) (k : Mask) : Prop where
  teams : t.teams = s.teams
  mem : t.mem = s.mem
  regs : t.g.regs = s.g.regs
  fst : t.g.fst = s.g.fst
  held : t.heldHere = some x
  nulls : t.nullsHere = k
  blk : ∃ c, t.blk? = some c ∧ c.toks = Blk.sentToks b s.idx f tok ∧ c.done = b.done ∧ c.issued = b.issued ||| BitVec.ofNat 96 (2 ^ s.idx) ∧
    c.stores = b.stores ∧ ∃ q, c.reqs = b.reqs ++ [q] ∧ q.idx = s.idx ∧
      ∃ d ∈ t.agenda, d.ev = .memoryReply q.num .data ∧ d.subj = .gang s.gid ∧ d.clock = none ∧ s.now < d.time

/-- Tokens sent do not depend on what else the block holds. -/
theorem sentToks_congr {b c : Blk} (h : c.toks = b.toks) (idx : Nat) (f : Form) (x : Tok) : Blk.sentToks c idx f x = Blk.sentToks b idx f x := by
  have hsend (b c : Blk) (i : Nat) (t : Target) (h : c.toks = b.toks) : (c.send i t x).toks = (b.send i t x).toks := by
    unfold Blk.send
    rw [apply_ite Blk.toks, apply_ite Blk.toks, h]
  exact hsend _ _ _ _ (hsend _ _ _ _ (hsend _ _ _ _ (hsend _ _ _ _ h)))

/-- The position of an instruction depends on the block's words only. -/
theorem position_congr {b c : Blk} (h : c.words = b.words) (sup : Bool) (idx : Nat) : c.position sup idx = b.position sup idx := by
  unfold Blk.position Blk.instrs Blk.code
  rw [h]

/-- The outcome held for the issuing instruction. -/
theorem heldHere_eq (h : s.blk? = some b) : s.heldHere = tfind s.g.held (b.position s.g.sup s.idx) := by
  unfold State.heldHere
  rw [h]

theorem nullsHere_eq (h : s.blk? = some b) : s.nullsHere = tget s.g.heldNulls (b.position s.g.sup s.idx) 0 := by
  unfold State.nullsHere
  rw [h]

/-- The block of an atomic whose reply is under way. -/
def Blk.underWay (b : Blk) (now idx : Nat) (f : Form) (tok : Tok) : Blk :=
  { Blk.deliver b idx f tok with done := b.done, issued := b.issued ||| bit96 idx, progress := now }

theorem underWay_eq (b : Blk) (now idx : Nat) (f : Form) (tok : Tok) :
    Blk.underWay b now idx f tok = { b with toks := Blk.sentToks b idx f tok, issued := b.issued ||| bit96 idx, progress := now } := by
  unfold Blk.underWay
  rw [deliver_eq]

/-- An atomic's outcome outside the pool, entered and delivered with its reply. -/
theorem atomic_sent (s : State) (c : Blk) (m : MemArg) (i : Instr) (ps qs : List Place) (f : Form) (tok : Tok) (x : Lanes) (k : Mask) :
    AtomicSent s (((((s.setBlk c).placeSeq m.lsid.toNat).runAhead c m i ps).hold x k).deliverAtomic f tok .stash qs) c f tok x k := by
  obtain ⟨sq, n, hv⟩ := placeSeq_placed (setBlk_blk s c) m.lsid.toNat
  have hq : quiet ((s.setBlk c).placeSeq m.lsid.toNat) = quiet s := by
    rw [hv]
    exact (quiet_setBlk _ _).trans (quiet_setBlk s c)
  have hb : ((s.setBlk c).placeSeq m.lsid.toNat).blk? = some { c with seq := sq } := by rw [hv, setBlk_blk]
  generalize (s.setBlk c).placeSeq m.lsid.toNat = v at hq hb
  obtain ⟨a, hu⟩ := runAhead_eq v c m i ps
  rw [hu]
  have hub : ({ v with g := { v.g with ahead := a } } : State).blk? = some { c with seq := sq } := hb
  rw [hold_eq hub]
  set w : State := { v with g := { v.g with
    ahead := a, held := tset v.g.held (Blk.position { c with seq := sq } v.g.sup v.idx) x,
    heldNulls := tset v.g.heldNulls (Blk.position { c with seq := sq } v.g.sup v.idx) k } } with hw
  have hwb : w.blk? = some { c with seq := sq } := hb
  have hidx : w.idx = s.idx := quiet_state hq State.idx fun _ => rfl
  obtain ⟨d, hd, hwords, htoks, hdone, hissued, hstores, hreqs⟩ : ∃ d, Blk.underWay { c with seq := sq } w.clock w.idx f tok = d ∧
      d.words = c.words ∧ d.toks = Blk.sentToks c s.idx f tok ∧ d.done = c.done ∧ d.issued = c.issued ||| bit96 s.idx ∧
      d.stores = c.stores ∧ d.reqs = c.reqs :=
    ⟨_, underWay_eq .., rfl, hidx ▸ sentToks_congr (b := c) (c := { c with seq := sq }) rfl w.idx f tok, rfl, by rw [hidx], rfl, rfl⟩
  have ht : w.deliverAtomic f tok .stash qs = (w.setBlk d).plainRequest s.idx := by
    rw [← hd, ← hidx]
    unfold State.deliverAtomic
    simp only [hwb]
    rfl
  rw [ht]
  obtain ⟨htb, hta, htq⟩ := plainRequest_made (setBlk_blk w d) s.idx
  have hreq : (plainReq (w.setBlk d) s.idx).idx = s.idx ∧ (w.setBlk d).gid = s.gid ∧ (w.setBlk d).now = s.now :=
    ⟨rfl, (quiet_state (quiet_setBlk w d) State.gid fun _ => rfl).trans (quiet_state hq State.gid fun _ => rfl),
      (quiet_state (quiet_setBlk w d) State.now fun _ => rfl).trans (quiet_state hq State.now fun _ => rfl)⟩
  replace htq := htq.trans (quiet_setBlk w d)
  generalize (w.setBlk d).plainRequest s.idx = t at htb hta htq
  have hpos : Blk.position { d with reqs := d.reqs ++ [plainReq (w.setBlk d) s.idx] } t.g.sup t.idx =
      Blk.position { c with seq := sq } v.g.sup v.idx := by
    rw [show t.g.sup = v.g.sup from quiet_state htq (·.g.sup) fun _ => rfl, show t.idx = v.idx from quiet_state htq State.idx fun _ => rfl]
    exact position_congr hwords _ _
  refine ⟨(quiet_state htq State.teams fun _ => rfl).trans (quiet_state hq State.teams fun _ => rfl),
    (quiet_state htq State.mem fun _ => rfl).trans (quiet_state hq State.mem fun _ => rfl),
    (quiet_state htq (·.g.regs) fun _ => rfl).trans (quiet_state hq (·.g.regs) fun _ => rfl),
    (quiet_state htq (·.g.fst) fun _ => rfl).trans (quiet_state hq (·.g.fst) fun _ => rfl), ?_, ?_,
    _, htb, htoks, hdone, hissued, hstores, _, congrArg (· ++ _) hreqs, hreq.1,
    ⟨(w.setBlk d).now + 1 + Config.freeDelay (w.setBlk d).free, none, .gang (w.setBlk d).gid, .memoryReply (w.setBlk d).nextId .data⟩, ?_, rfl,
    congrArg Subject.gang hreq.2.1, rfl, ?_⟩
  · rw [heldHere_eq htb, hpos, quiet_state htq (·.g.held) fun _ => rfl]
    exact (tfind_tset ..).trans (if_pos rfl)
  · rw [nullsHere_eq htb, hpos, quiet_state htq (·.g.heldNulls) fun _ => rfl]
    exact (tget_tset ..).trans (if_pos rfl)
  · rw [hta]
    exact List.mem_append_right _ List.mem_cons_self
  · show s.now < (w.setBlk d).now + 1 + _
    omega

end

/-! ### `atom` and `cas` on stash bytes (R400) -/

theorem flushLines_nil (s : State) (c : Nat) : s.flushLines c [] = s := by
  unfold State.flushLines State.flushWhere
  simp

theorem linesOf_stash (id a n : Nat) : linesOf ((List.range n).map fun i => (⟨1, id, a + i⟩ : Place)) = [] := by
  have hf : ((List.range n).map fun i => (⟨1, id, a + i⟩ : Place)).filter (fun p => p.kind == 0) = [] := by
    refine List.filter_eq_nil_iff.2 fun p hp => ?_
    obtain ⟨i, -, rfl⟩ := List.mem_map.1 hp
    exact Bool.false_ne_true
  unfold linesOf
  rw [hf]
  rfl

section
variable {f : Form} {m : MemArg} {s : State} {b : Blk} {tm : Team}

/-- What is written before an atomic on stash bytes: what its core still holds where it is a release (R210). -/
def readyFor (s : State) (b : Blk) (i : Instr) : State := if b.releasesAt i then s.flushCore s.g.core else s

theorem calm_readyFor (i : Instr) : calm (readyFor s b i) = calm s := by
  unfold readyFor
  split
  · exact calm_flushCore _
  · rfl

/-- The access of a uniform atomic on stash bytes. -/
theorem met_stash (hvc : f.vc = .uni) (hl : (b.opnd s.idx f).live ≠ 0) (has : m.as = .stash) {n ea : Nat}
    (hea : ea = effAddr m (lane (b.opnd s.idx f).a.vals 0)) (hal : ea % n = 0) (hlen : ea + n ≤ 1024 * tm.stashKiB)
    (ht : tfind s.teams s.g.team = some tm) (hr : tm.regions = []) :
    State.met s m n true true true (f.vc == .uni) (b.opnd s.idx f) = ([(0, placesFrom 1 s.g.team ea n)], s) := by
  have htm : s.team = tm := teamAt_of ht
  have hres : s.resolve .stash n true true ea = (placesFrom 1 s.g.team ea n, s) :=
    (resolve_stash (by rw [htm, hr])).trans (congrArg (·, s) (if_pos (by rw [htm]; exact hlen)))
  unfold State.met
  rw [accessLanes_vc, if_pos hvc, if_neg hl]
  simp only [State.resolveAll, ← hea, hal, has, hres, bne_self_eq_false, Bool.and_false, Bool.false_eq_true, if_false]

/-- One step of an atomic on unmapped stash bytes. -/
theorem rmw_stash {id ea n : Nat} (ht : tfind s.teams id = some tm) (hr : tm.regions = []) (nw : Nat → Nat → FRes × Bool) {old : Nat}
    (hold : old = natOf (stRead tm.stash ea n)) {w : FRes × Bool} (hw : w = nw 0 old) :
    ∃ ts fl, rmwSteps n nw [(0, (List.range n).map fun i => (⟨1, id, ea + i⟩ : Place))] s =
        ([(0, w64 old)], fl, !w.2, { s with teams := ts }) ∧
      ∃ u, tfind ts id = some u ∧ u.stash = if w.2 then memWrite tm.stash ea (bytesOf n w.1.1) else tm.stash := by
  have hbytes : natOf (((List.range n).map fun i => (⟨1, id, ea + i⟩ : Place)).map s.placeByte) = old := by
    rw [hold, List.map_map, show stRead tm.stash ea n = _ from memRead_eq_map .., ← teamAt_of ht]
    rfl
  have hstep : rmwSteps n nw [(0, (List.range n).map fun i => (⟨1, id, ea + i⟩ : Place))] s =
      ([(0, w64 old)], w.1.2 ||| 0, !w.2,
        if w.2 then s.setPlaces (((List.range n).map fun i => (⟨1, id, ea + i⟩ : Place)).zip (bytesOf n w.1.1)) else s) := by
    unfold rmwSteps rmwSteps
    simp only [hbytes, ← hw, Bool.or_false]
  rw [hstep]
  cases w.2
  · exact ⟨s.teams, _, rfl, tm, ht, rfl⟩
  · obtain ⟨ts, hs, hts⟩ := setPlaces_stash ht hr ea (bytesOf n w.1.1)
    rw [length_bytesOf] at hs
    exact ⟨ts, _, by rw [if_pos rfl, hs], _, hts, rfl⟩

/-- An atomic performs once on unmapped stash bytes. -/
theorem atomicOp_stash (h : s.blk? = some b) (ht : tfind s.teams s.g.team = some tm) (hr : tm.regions = []) (hvc : f.vc = .uni)
    (hl : (b.opnd s.idx f).live ≠ 0) (has : m.as = .stash) {n ea : Nat} (hn : n = accBytes f.ty)
    (hea : ea = effAddr m (lane (b.opnd s.idx f).a.vals 0)) (hal : ea % n = 0) (hlen : ea + n ≤ 1024 * tm.stashKiB)
    (hheld : s.heldHere = none) (hfix : s.launchOf.fixord = false) (i : Instr) (isCas : Bool) (nw : Opnd → Nat → Nat → FRes × Bool)
    {old : Nat} (hold : old = natOf (stRead tm.stash ea n)) {w : FRes × Bool} (hw : w = nw (b.opnd s.idx f) 0 old) :
    ∃ t s1 c ts, atomicOp f m i isCas nw s = .next t ∧ s1 = { readyFor s b i with teams := ts } ∧
      (∃ u, tfind ts s.g.team = some u ∧
        u.stash = if w.2 then memWrite tm.stash ea (bytesOf n w.1.1) else tm.stash) ∧
      (c.done = b.done ∧ c.issued = b.issued ∧ c.stores = b.stores ∧ c.reqs = b.reqs ∧ c.toks = b.toks) ∧
      AtomicSent s1 t c f (tokOf .uni (splat (outPat f.ty (w64 old).toNat)) 0) (uniOutcome (outPat f.ty (w64 old).toNat)) 0 := by
  subst hn
  have hmet := met_stash hvc hl has hea hal hlen ht hr
  have hopen : ¬((m.as = .ctx ∨ m.as = .pool) ∧ s.g.sup = false) := by rw [has]; simp
  unfold atomicOp
  simp only [h, hheld, hfix, Bool.false_and, Bool.false_eq_true, if_false, ne_eq, not_true_eq_false]
  rw [accesses_good h hopen (by rw [hmet]; rfl), hmet]
  have hoff : offsOf (f.vc == .uni) (b.opnd s.idx f) [(0, placesFrom 1 s.g.team ea (accBytes f.ty))] = [] := by
    unfold offsOf
    exact ite_self _
  have hok : okLanes [(0, placesFrom 1 s.g.team ea (accBytes f.ty))] =
      [(0, (List.range (accBytes f.ty)).map fun i => (⟨1, s.g.team, ea + i⟩ : Place))] := rfl
  rw [hoff, switchOff_nil, setBlk_self h, hok]
  simp only [h, List.flatMap_cons, List.flatMap_nil, List.append_nil, linesOf_stash, flushLines_nil]
  have hcalm : calm (readyFor s b i) = calm s := calm_readyFor i
  obtain ⟨tm0, ht0, hr0, hst0⟩ : ∃ u, tfind (readyFor s b i).teams s.g.team = some u ∧ u.regions = [] ∧ u.stash = tm.stash := by
    have hmap := calm_teams hcalm s.g.team
    rw [ht, Option.map_some] at hmap
    obtain ⟨u, hu, hc⟩ := Option.map_eq_some_iff.1 hmap
    have hstash : (calmTeam u).stash = (calmTeam tm).stash := congrArg Team.stash hc
    refine ⟨u, hu, ?_, hstash⟩
    have hregs : (calmTeam u).regions = (calmTeam tm).regions := congrArg Team.regions hc
    change u.regions.map calmRegion = tm.regions.map calmRegion at hregs
    rwa [hr, List.map_nil, List.map_eq_nil_iff] at hregs
  obtain ⟨ts, fl, hrmw, u, hu, hus⟩ := rmw_stash ht0 hr0 (nw (b.opnd s.idx f)) (by rw [hst0]; exact hold) hw
  rw [hst0] at hus
  have hb0 : ({ readyFor s b i with teams := ts } : State).blk? = some b := (calm_blk hcalm).trans h
  rw [show (if b.releasesAt i = true then s.flushCore s.g.core else s) = readyFor s b i from rfl, hrmw]
  simp only [hb0]
  set c : Blk := if isCas && !w.2 then ({ b with flags := b.flags ||| fl } : Blk).leave ((b.opnd s.idx f).left s.idx i)
    else { b with flags := b.flags ||| fl } with hc
  have hcb : c.done = b.done ∧ c.issued = b.issued ∧ c.stores = b.stores ∧ c.reqs = b.reqs ∧ c.toks = b.toks := by
    rw [hc]
    split <;> exact ⟨rfl, rfl, rfl, rfl, rfl⟩
  have htok : loadTok f (b.opnd s.idx f) (atomVals f.ty [(0, w64 old)]) = tokOf .uni (splat (outPat f.ty (w64 old).toNat)) 0 := if_pos hvc
  rw [htok, if_pos hvc, has]
  exact ⟨_, _, c, ts, rfl, rfl, ⟨u, hu, hus⟩, hcb, atomic_sent _ c m i _ _ f _ _ 0⟩

/-- A token sent to one target stands there. -/
theorem sentToks_one (b : Blk) (idx : Nat) (x : Tok) (h0 : f.t0 ≠ Target.none) (h1 : f.t1 = Target.none) (h2 : f.t2 = Target.none)
    (h3 : f.t3 = Target.none) : tfind (Blk.sentToks b idx f x) (4 * (idx + f.t0.dist.toNat) + Slot.num f.t0.slot) = some x := by
  unfold Blk.sentToks Blk.send
  simp only [h1, h2, h3, ↓reduceIte, if_neg h0]
  exact (tfind_tset ..).trans (if_pos rfl)

/-- What an atomic on stash bytes leaves, by the value that stands there afterwards. -/
theorem atomicOp_stash_after (h : s.blk? = some b) (ht : tfind s.teams s.g.team = some tm) (hr : tm.regions = []) (hvc : f.vc = .uni)
    (hl : (b.opnd s.idx f).live ≠ 0) (has : m.as = .stash) {n ea : Nat} (hn : n = accBytes f.ty) (hn8 : n ≤ 8)
    (hea : ea = effAddr m (lane (b.opnd s.idx f).a.vals 0)) (hal : ea % n = 0) (hlen : ea + n ≤ 1024 * tm.stashKiB)
    (hheld : s.heldHere = none) (hfix : s.launchOf.fixord = false) (i : Instr) (isCas : Bool) (nw : Opnd → Nat → Nat → FRes × Bool)
    {old new : Nat} (hold : old = natOf (stRead tm.stash ea n))
    (hnew : new = if (nw (b.opnd s.idx f) 0 old).2 then (nw (b.opnd s.idx f) 0 old).1.1 else old) :
    ∃ t u c, atomicOp f m i isCas nw s = .next t ∧ tfind t.teams s.g.team = some u ∧
      stRead u.stash ea n = bytesOf n new ∧ (∀ a, a < ea ∨ ea + n ≤ a → memByte u.stash a = memByte tm.stash a) ∧
      t.heldHere = some (uniOutcome (outPat f.ty old)) ∧ t.nullsHere = 0 ∧
      t.mem = (if b.releasesAt i then (s.flushCore s.g.core).mem else s.mem) ∧ t.g.regs = s.g.regs ∧ t.g.fst = s.g.fst ∧
      t.blk? = some c ∧ c.done = b.done ∧ c.issued = b.issued ||| BitVec.ofNat 96 (2 ^ s.idx) ∧ c.stores = b.stores ∧
      (∃ q, c.reqs = b.reqs ++ [q] ∧ q.idx = s.idx ∧ ∃ d ∈ t.agenda, d.ev = .memoryReply q.num .data ∧ d.subj = .gang s.gid ∧
        d.clock = none ∧ s.now < d.time) ∧
      (f.t0 ≠ Target.none → f.t1 = Target.none → f.t2 = Target.none → f.t3 = Target.none →
        c.tok (s.idx + f.t0.dist.toNat) f.t0.slot = some { cls := .uni, vals := splat (outPat f.ty old), nulls := 0, ready := none }) := by
  obtain ⟨t, s1, c, ts, hexec, rfl, ⟨u, hu, hus⟩, ⟨hdone, hissued, hstores, hreqs, htoks⟩, hsent⟩ :=
    atomicOp_stash h ht hr hvc hl has hn hea hal hlen hheld hfix i isCas nw hold rfl
  have hcalm : calm (readyFor s b i) = calm s := calm_readyFor i
  have hidx : (readyFor s b i).idx = s.idx := calm_state hcalm State.idx fun _ => rfl
  have hgid : (readyFor s b i).gid = s.gid := calm_state hcalm State.gid fun _ => rfl
  have hnow : (readyFor s b i).now = s.now := calm_state hcalm State.now fun _ => rfl
  have hlen8 : old < 2 ^ 64 := by
    have hlt := natOf_lt (stRead tm.stash ea n)
    rw [length_memRead, ← hold] at hlt
    exact Nat.lt_of_lt_of_le hlt ((Nat.pow_le_pow_right (by decide) hn8).trans (by decide))
  have hw64 : (w64 old).toNat = old := by
    unfold w64
    rw [BitVec.toNat_ofNat, Nat.mod_eq_of_lt hlen8]
  rw [hw64] at hsent
  obtain ⟨d, hb, hdt, hdd, hdi, hds, q, hdr, hqi, e, he, hev, hsubj, hclk, htime⟩ := hsent.blk
  have hmem : (readyFor s b i).mem = if b.releasesAt i then (s.flushCore s.g.core).mem else s.mem := by
    unfold readyFor
    split <;> rfl
  refine ⟨t, u, d, hexec, hsent.teams ▸ hu, ?_, fun a ha => ?_, hsent.held, hsent.nulls, hsent.mem.trans hmem,
    hsent.regs.trans (calm_gang hcalm Gang.regs fun _ => rfl), hsent.fst.trans (calm_gang hcalm Gang.fst fun _ => rfl), hb, hdd.trans hdone,
    hdi.trans (by rw [hissued]; exact congrArg (fun k => b.issued ||| BitVec.ofNat 96 (2 ^ k)) hidx), hds.trans hstores,
    ⟨q, hreqs ▸ hdr, hqi.trans hidx, e, he, hev, hsubj.trans (congrArg Subject.gang hgid), hclk, hnow ▸ htime⟩, fun h0 h1 h2 h3 => ?_⟩
  · rw [hus, hnew]
    split
    · have hm := memRead_memWrite tm.stash ea (bytesOf n (nw (b.opnd s.idx f) 0 old).1.1)
      rwa [length_bytesOf] at hm
    · have hback := bytesOf_natOf (stRead tm.stash ea n)
      rw [length_memRead, ← hold] at hback
      exact hback.symm
  · rw [hus]
    split
    · exact memByte_memWrite_other _ _ _ _ (by rw [length_bytesOf]; exact ha)
    · rfl
  · unfold Blk.tok
    rw [hdt, ← hidx]
    exact sentToks_one c (readyFor s b i).idx _ h0 h1 h2 h3

end

/-! ### Held outcomes, and where atomics trap (R150, R227, R231, R248) -/

section
variable {f : Form} {m : MemArg} {s : State} {b : Blk} {i : Instr} {isCas : Bool} {nw : Opnd → Nat → Nat → FRes × Bool}

/-- The lanes of a held outcome. -/
def heldLanes (f : Form) (s : State) : List Nat :=
  if f.vc = .uni then (if s.nullsHere = allLanes then [] else [0]) else lanesOf (~~~s.nullsHere)

/-- A held outcome is delivered again; `cas` demotes again where it left memory as it was (06 R171). -/
theorem atomicOp_held (h : s.blk? = some b) {x : Lanes} (hx : s.heldHere = some x) {c : Blk}
    (hc : c = if isCas && (heldLanes f s).any fun l => !(nw (b.opnd s.idx f) l (lane x l).toNat).2 then
      b.leave { (b.opnd s.idx f).left s.idx i with lanes := ~~~s.nullsHere } else b) :
    atomicOp f m i isCas nw s = .next ((s.setBlk { Blk.deliver c s.idx f
      { cls := f.vc, vals := if f.vc = .uni then splat (lane x 0) else x, nulls := s.nullsHere, ready := none } with
      done := c.done, issued := c.issued ||| BitVec.ofNat 96 (2 ^ s.idx), progress := s.clock }).plainRequest s.idx) := by
  subst hc
  unfold atomicOp
  simp only [h, hx]
  rfl

theorem atomicOp_refused (h : s.blk? = some b) (hx : s.heldHere = none) (hf : s.launchOf.fixord = true) {refused : Mask}
    (hr : refused = maskOf fun l => (b.opnd s.idx f).live.getLsbD l &&
      orderRefuses s m.as (accBytes f.ty) (effAddr m (lane (b.opnd s.idx f).a.vals l))) (hn : refused ≠ 0) :
    atomicOp f m i isCas nw s = .next (s.raise { code := 13, sub := 0, idx := s.idx, lsid := m.lsid.toNat, lanes := refused, va := [] }) := by
  subst hr
  unfold atomicOp
  simp only [h, hx, hf, ↓reduceIte]
  exact if_pos hn

theorem atomicOp_handler (h : s.blk? = some b) (hx : s.heldHere = none) (hf : s.launchOf.fixord = true)
    (hr : (maskOf fun l => (b.opnd s.idx f).live.getLsbD l &&
      orderRefuses s m.as (accBytes f.ty) (effAddr m (lane (b.opnd s.idx f).a.vals l))) = 0) (hs : s.g.sup = true)
    (hl : (b.opnd s.idx f).live ≠ 0) :
    atomicOp f m i isCas nw s =
      .next (s.raise { code := 1, sub := 20, idx := s.idx, lsid := m.lsid.toNat, lanes := (b.opnd s.idx f).live, va := [] }) := by
  have hlanes : (lanesWhere (b.opnd s.idx f).live fun l =>
      orderRefuses s m.as (accBytes f.ty) (effAddr m (lane (b.opnd s.idx f).a.vals l))) = 0 := hr
  unfold atomicOp
  simp only [h, hx, hf, ↓reduceIte, hs, (acts_iff _).2 hl, Bool.and_self, hlanes, ne_eq, not_true_eq_false]
  rfl

theorem atomicOp_private (h : s.blk? = some b) (hx : s.heldHere = none) (hf : s.launchOf.fixord = false) (hm : m.as = .ctx ∨ m.as = .pool)
    (hs : s.g.sup = false) : atomicOp f m i isCas nw s = .next (s.raise { code := 16, sub := 2, lanes := b.active }) := by
  unfold atomicOp
  simp only [h, hx, hf, Bool.false_and, Bool.false_eq_true, if_false, ne_eq, not_true_eq_false]
  exact accesses_refused h ⟨hm, hs⟩

end

/-- The new value of `cas` (R400): whether it writes, and the value. -/
def casNew (f : Form) (o : Opnd) (l old : Nat) : FRes × Bool :=
  if old % 2 ^ f.ty.width = (lane o.b.vals l).toNat % 2 ^ f.ty.width ∧
      (lane o.c.vals l).toNat % 2 ^ f.ty.width ≠ old % 2 ^ f.ty.width then
    (((lane o.c.vals l).toNat % 2 ^ f.ty.width, 0), true) else ((old % 2 ^ f.ty.width, 0), false)

theorem casNew_writes (f : Form) (o : Opnd) (l old : Nat) : (casNew f o l old).2 = true ↔
    old % 2 ^ f.ty.width = (lane o.b.vals l).toNat % 2 ^ f.ty.width ∧
      (lane o.c.vals l).toNat % 2 ^ f.ty.width ≠ old % 2 ^ f.ty.width := by
  unfold casNew
  split
  next hc => exact iff_of_true rfl hc
  next hc => exact iff_of_false Bool.false_ne_true hc

/-- The value that stands after a `cas`: the new one where the old one matches. -/
theorem casNew_value {f : Form} {o : Opnd} {l old : Nat} (h : old < 2 ^ f.ty.width) :
    (if (lane o.b.vals l).toNat % 2 ^ f.ty.width = old then (lane o.c.vals l).toNat % 2 ^ f.ty.width else old) =
      if (casNew f o l old).2 then (casNew f o l old).1.1 else old := by
  by_cases hw : (casNew f o l old).2 = true
  · obtain ⟨h1, h2⟩ := (casNew_writes f o l old).1 hw
    rw [if_pos hw, if_pos (h1.symm.trans (Nat.mod_eq_of_lt h))]
    unfold casNew
    rw [if_pos ⟨h1, h2⟩]
  · rw [if_neg hw]
    rw [casNew_writes, Nat.mod_eq_of_lt h] at hw
    split
    next he => exact not_not.1 fun hne => hw ⟨he.symm, hne⟩
    next => rfl

/-- Settles O22, by the steps of an atomic: what it held, where it is refused, and one performance on stash bytes. -/
theorem atomics : Obligations.Atomics := by
  refine ⟨fun t old b ho _ => aopNew_values t old b ho, fun f m s b tm h ht hr => ?_, fun f m s b h => ?_⟩
  · intro o n ea old out hvc hl has hn hal hlen hheld hfix after
    have hn8 : n ≤ 8 := by omega
    have hout : out old = outPat f.ty old := (outPat_eq ..).symm
    have hlt : old < 2 ^ f.ty.width := by
      have h1 := natOf_lt (stRead tm.stash ea n)
      rw [length_memRead] at h1
      refine Nat.lt_of_lt_of_le h1 ?_
      rw [show 256 = 2 ^ 8 from rfl, ← Nat.pow_mul]
      exact Nat.pow_le_pow_right (by decide) (Nat.mul_div_le f.ty.width 8)
    have hrun (i : Instr) (isCas : Bool) (nw : Opnd → Nat → Nat → FRes × Bool) (new : Nat)
        (hnew : new = if (nw (b.opnd s.idx f) 0 old).2 then (nw (b.opnd s.idx f) 0 old).1.1 else old)
        (he : exec i s = atomicOp f m i isCas nw s) : after i new := by
      have hq := atomicOp_stash_after h ht hr hvc hl has (n := n) (ea := ea) rfl hn8 rfl hal hlen hheld hfix i isCas nw rfl hnew
      rw [← he, ← hout] at hq
      exact hq
    exact ⟨hrun _ false _ _ rfl (exec_atom f m s), hrun _ true (casNew f) _ (casNew_value hlt) (exec_cas f m s)⟩
  · intro o n ea refused again mine pattern written
    refine ⟨fun x hx => ⟨?_, fun hw => ?_, fun hw => ?_⟩, ?_, ?_⟩
    · exact (exec_atom f m s).trans (atomicOp_held h hx rfl)
    · refine (exec_cas f m s).trans (atomicOp_held (nw := casNew f) h hx (if_neg ?_).symm)
      rw [Bool.true_and, List.any_eq_true]
      rintro ⟨l, hl, hn⟩
      rw [(casNew_writes ..).2 (hw l hl)] at hn
      exact Bool.false_ne_true hn
    · refine (exec_cas f m s).trans (atomicOp_held (nw := casNew f) h hx (if_pos ?_).symm)
      obtain ⟨l, hl, hn⟩ := hw
      rw [Bool.true_and, List.any_eq_true]
      refine ⟨l, hl, ?_⟩
      rw [Bool.not_eq_true', ← Bool.not_eq_true]
      exact fun hc => hn ((casNew_writes ..).1 hc)
    · obtain ⟨hb, ha, hq⟩ := plainRequest_made h s.idx
      refine ⟨_, plainReq s s.idx, hb, rfl, rfl, rfl, rfl, ⟨Config.freeDelay s.free, ?_⟩, ?_, ?_, ?_, ?_⟩
      · exact ha
      · exact quiet_state hq State.mem fun _ => rfl
      · exact quiet_state hq State.teams fun _ => rfl
      · exact quiet_state hq (·.g.regs) fun _ => rfl
      · exact quiet_state hq (·.g.held) fun _ => rfl
    · rintro i (rfl | rfl) hx
      · exact ⟨fun hf hn => (exec_atom f m s).trans (atomicOp_refused h hx hf rfl hn),
          fun hf hn hs hl => (exec_atom f m s).trans (atomicOp_handler h hx hf hn hs hl),
          fun hf hm hs => (exec_atom f m s).trans (atomicOp_private h hx hf hm hs)⟩
      · exact ⟨fun hf hn => (exec_cas f m s).trans (atomicOp_refused h hx hf rfl hn),
          fun hf hn hs hl => (exec_cas f m s).trans (atomicOp_handler h hx hf hn hs hl),
          fun hf hm hs => (exec_cas f m s).trans (atomicOp_private h hx hf hm hs)⟩

end Sys2Proof.Proofs
end

section
/-! PROOFS. Prefetches, fences and waits (spec/14 R402, R404, R407): what a flush of the merge unit leaves, what work below an access adds to
the agenda, and the conditions of the waits. -/

namespace Sys2Proof.Proofs
open Sys2Proof.Machine Sys2Proof.Laws Sys2Proof.Laws.Shapes

/-! ### The merge unit after a flush (07 R210, R218) -/

theorem modGang_cores (s : State) (n : Nat) (f : Gang → Gang) : (s.modGang n f).cores = s.cores := by
  unfold State.modGang
  split
  · rfl
  · split <;> rfl

/-- A merge step that is written leaves the merge unit. -/
theorem drainStep_merge (s : State) (c : Nat) (m : MergeStep) :
    ((s.drainStep c m).coreAt c).merge = (s.coreAt c).merge.filter fun y => y.num != m.num := by
  have hflights (fs : List (Nat × Nat)) (u : State) :
      (fs.foldl (fun s f => s.modGang f.1 fun g => { g with flST := finishFlight f.2 g.flST }) u).coreAt c = u.coreAt c := by
    induction fs generalizing u with
    | nil => rfl
    | cons x fs ih =>
      refine (ih _).trans ?_
      unfold State.coreAt
      rw [modGang_cores]
  have hcore (u : State) : ((u.modCore c fun x =>
      { x with merge := x.merge.filter fun y => y.num != m.num, quarters := x.quarters.map fun q => q.dropReq m.num }).coreAt c).merge =
      (u.coreAt c).merge.filter fun y => y.num != m.num := by
    rw [coreAt_modCore, if_pos rfl]
  unfold State.drainStep
  cases s.pageFail none (m.line / 512) with
  | some _ =>
    simp only [↓reduceIte]
    rw [hflights, hcore]
  | none =>
    simp only [Bool.false_eq_true, ↓reduceIte]
    rw [still_core_at ((still_ask ..).trans (still_lineIn ..)) Core.merge fun _ => rfl, hflights, hcore,
      still_core_at ((still_clearLost ..).trans (still_writeCells ..)) Core.merge fun _ => rfl]

theorem drainSteps_merge (c : Nat) (ms : List MergeStep) (s : State) :
    ((ms.foldl (fun s m => s.drainStep c m) s).coreAt c).merge = (s.coreAt c).merge.filter fun y => ms.all fun m => y.num != m.num := by
  induction ms generalizing s with
  | nil => exact (List.filter_eq_self.2 fun _ _ => rfl).symm
  | cons m ms ih =>
    rw [List.foldl_cons, ih, drainStep_merge, List.filter_filter]
    exact List.filter_congr fun y _ => by rw [List.all_cons, Bool.and_comm]

/-- A flush of a core leaves no merge step. -/
theorem flushCore_merge (s : State) (c : Nat) : ((s.flushCore c).coreAt c).merge = [] := by
  unfold State.flushCore State.flushWhere
  rw [drainSteps_merge, List.filter_eq_nil_iff]
  intro y hy hall
  have hy' : y ∈ (s.coreAt c).merge.filter fun _ => true := List.mem_filter.2 ⟨hy, rfl⟩
  simpa using List.all_eq_true.1 hall y hy'

/-! ### What is added to the agenda -/

/-- Steps that were due stay due. -/
def Grows (s t : State) : Prop := ∃ l, t.agenda = s.agenda ++ l

theorem Grows.refl (s : State) : Grows s s := ⟨[], (List.append_nil _).symm⟩

theorem Grows.of_eq {s t : State} (h : t.agenda = s.agenda) : Grows s t := ⟨[], by rw [h, List.append_nil]⟩

theorem Grows.trans {s t u : State} (h : Grows s t) (k : Grows t u) : Grows s u := by
  obtain ⟨l, hl⟩ := h
  obtain ⟨m, hm⟩ := k
  exact ⟨l ++ m, by rw [hm, hl, List.append_assoc]⟩

theorem Grows.foldl {α : Type} {f : State → α → State} (h : ∀ s x, Grows s (f s x)) (l : List α) : ∀ s, Grows s (l.foldl f s) := by
  induction l with
  | nil => exact Grows.refl
  | cons x l ih => exact fun s => (h s x).trans (ih _)

section
variable (s : State)

theorem grows_soon (j : Subject) (e : Instr) : Grows s (s.soon j e) := ⟨_, rfl⟩

theorem grows_modTeam (n : Nat) (f : Team → Team) : Grows s (s.modTeam n f) := by
  unfold State.modTeam
  split <;> exact Grows.refl _

theorem grows_memCells (l : List (Nat × Byte)) : Grows s (s.memCells l) := by
  refine .of_eq ?_
  induction l generalizing s with
  | nil => rfl
  | cons x l ih => exact ih _

theorem grows_yieldCopies (l : Nat) (k : Bool) (who : Nat → Nat → Bool) : Grows s (s.yieldCopies l k who) :=
  Grows.foldl (fun s _ => (grows_memCells s _).trans (grows_modTeam _ _ _)) _ s

theorem grows_claimLine (who : Nat → Nat → Bool) (l : Nat) : Grows s (s.claimLine who l) := by
  have hdrop (ds : List Nat) (u : State) : Grows u (ds.foldl (fun s d => if (s.dieAt d).snoop.contains l then s.dropL1 d l else s) u) :=
    Grows.foldl (fun s d => by split <;> exact Grows.refl _) ds u
  have hnote (u : State) : Grows u (u.noteWrites [l]) :=
    Grows.foldl (fun s n => Grows.foldl (fun s p => grows_soon s _ _) _ s) _ u
  exact (grows_yieldCopies s l false who).trans ((hdrop _ _).trans (hnote _))

theorem grows_writeCells (l : List (Nat × Byte)) : Grows s (s.writeCells l) :=
  (Grows.foldl (fun s l => grows_claimLine s _ l) _ s).trans (grows_memCells _ l)

theorem grows_orLeaf (l : Leaf) (m : Nat) : Grows s (s.orLeaf l m) := by
  unfold State.orLeaf
  split
  · exact Grows.refl s
  · exact grows_writeCells s _

theorem grows_keepTables (c va : Nat) : Grows s (s.keepTables c va) := by
  unfold State.keepTables
  simp only
  split
  · exact Grows.refl s
  · split <;> exact Grows.of_eq rfl

theorem grows_mapping (c va : Nat) : Grows s (s.mapping c va).2 := by
  unfold State.mapping
  simp only
  split <;> exact Grows.of_eq rfl

theorem grows_translate (c va : Nat) (a : Acc) : Grows s (s.translate c va a).2 := by
  have hleaf (u : State) (l : Leaf) (e : Nat) : Grows u ((u.keepTables c va).orLeaf l (2 ^ 58) |>.keepLeaf c va l e) :=
    ((grows_keepTables u c va).trans (grows_orLeaf _ l _)).trans (Grows.of_eq rfl)
  unfold State.translate
  simp only
  split
  · exact grows_mapping s c va
  · refine (grows_mapping s c va).trans ?_
    split
    · exact hleaf _ _ _
    · split
      · exact hleaf _ _ _
      · simp only
        split
        · exact (hleaf _ _ _).trans (grows_orLeaf _ _ _)
        · exact hleaf _ _ _

theorem grows_settleDie (d l : Nat) : Grows s (s.settleDie d l) := by
  unfold State.settleDie
  simp only
  split
  · exact Grows.refl s
  · split
    · exact Grows.of_eq rfl
    · exact ⟨_, rfl⟩

theorem grows_snoopIn (d l : Nat) : Grows s (s.snoopIn d l) := by
  unfold State.snoopIn
  simp only
  split
  · exact Grows.of_eq rfl
  · have hdrop (v : Nat) (u : State) : Grows u ((u.dropL1 d v).settleDie d v) := grows_settleDie (u.dropL1 d v) d v
    obtain ⟨a, ha⟩ := (grows_yieldCopies s _ _ _).trans (hdrop _ _)
    exact ⟨a, ha⟩

theorem grows_cacheIn (d l : Nat) (cp : BitVec 3) : Grows s (s.cacheIn d l cp) := by
  unfold State.cacheIn
  simp only
  split
  · exact Grows.refl s
  · split
    · exact Grows.trans (Grows.of_eq rfl) (grows_settleDie _ _ _)
    · exact Grows.of_eq rfl

theorem grows_lineIn (c l : Nat) (cp : BitVec 3) : Grows s (s.lineIn c l cp) := by
  have hsnoop (u : State) (f : Core → Core) (d : Nat) : Grows u ((u.modCore c f).snoopIn d l) :=
    Grows.trans (t := u.modCore c f) (Grows.of_eq rfl) (grows_snoopIn _ d l)
  unfold State.lineIn
  simp only
  split
  · exact grows_cacheIn s _ l cp
  · refine (grows_cacheIn s (dieOf c) l cp).trans ?_
    split
    · exact (hsnoop _ _ _).trans (grows_settleDie _ _ _)
    · exact hsnoop _ _ _

theorem grows_ask (d k l : Nat) : Grows s (s.ask d k l) := by
  obtain ⟨dir, use, dies, ag, h⟩ := ask_state (s := s) d k l
  exact ⟨ag, by rw [h]⟩

end

/-! ### `pref` (R402) -/

/-- One lane of `pref`. -/
def prefetchLane (m : MemArg) (o : Opnd) (f : Form) (s : State) (l : Nat) : State :=
  match (s.translate s.ctxNo (effAddr m (lane o.a.vals l)) { sup := s.g.sup }).1 with
  | .error _ => s
  | .ok p => ((s.translate s.ctxNo (effAddr m (lane o.a.vals l)) { sup := s.g.sup }).2.lineIn s.g.core (p / 256) f.cp).ask (dieOf s.g.core) 0 (p / 256)

theorem still_prefetchLane (m : MemArg) (o : Opnd) (f : Form) (s : State) (l : Nat) : still (prefetchLane m o f s l) = still s := by
  unfold prefetchLane
  split
  · rfl
  · simp only [still_ask, still_lineIn, still_translate]

theorem grows_prefetchLane (m : MemArg) (o : Opnd) (f : Form) (s : State) (l : Nat) : Grows s (prefetchLane m o f s l) := by
  unfold prefetchLane
  split
  · exact Grows.refl s
  · exact (grows_translate s _ _ _).trans ((grows_lineIn _ _ _ _).trans (grows_ask _ _ _ _))

theorem pref_eq {f : Form} {m : MemArg} {s : State} {b : Blk} (h : s.blk? = some b) : exec (.pref f m) s =
    .next (((lanesOf (b.opnd s.idx f).live).foldl (prefetchLane m (b.opnd s.idx f) f) s).setBlk
      (Blk.markDone { b with progress := s.clock } s.idx)) := by
  rw [exec_pref]
  unfold execPref
  simp only [h]
  rfl

/-! ### Fences and waits (R404, R407) -/

section
variable {f : Form} {s : State} {b : Blk} {i : Instr} {ok : Opnd → Bool}

theorem waitFor_done (h : s.blk? = some b) (hk : (b.opnd s.idx f).live = 0 ∨ ok (b.opnd s.idx f) = true) :
    waitFor f ok s = .next (s.setBlk (Blk.markDone { b with progress := s.clock } s.idx)) := by
  unfold waitFor
  simp only [h]
  refine if_pos ?_
  rw [Bool.or_eq_true, Bool.not_eq_true', acts_false_iff]
  exact hk

theorem waitFor_waits (h : s.blk? = some b) (hl : (b.opnd s.idx f).live ≠ 0) (hk : ok (b.opnd s.idx f) = false) :
    waitFor f ok s = .next s := by
  unfold waitFor
  simp only [h, (acts_iff _).2 hl, hk]
  rfl

end

theorem setBlk_g_of {α : Type} (s : State) (b : Blk) (f : Gang → α) (hf : ∀ g : Gang, f { g with prim := none, sec := none } = f g) :
    f (s.setBlk b).g = f s.g := quiet_state (quiet_setBlk s b) (fun s => f s.g) fun s => hf s.g

/-- Settles O23: `pref` by what each lane leaves alone, a far fence by the flush, the waits by their conditions. -/
theorem fencesAndWaits : Obligations.FencesAndWaits := by
  intro f m lsid n1 n2 n3 n4 p s b h o open_ drained path a
  have hpath : s.g.flight p = path := by cases p <;> rfl
  refine ⟨?_, ⟨fun hf => ?_, fun hf => ?_⟩, fun hk => ?_, fun hl hk => ?_, fun hk => ?_, fun hl hk => ?_, fun hk => ?_,
    fun hl hk => ?_⟩
  · have hstill : still ((lanesOf o.live).foldl (prefetchLane m o f) s) = still s := still_foldl (fun s l => still_prefetchLane m o f s l) _
    obtain ⟨l, hl⟩ := Grows.foldl (fun s l => grows_prefetchLane m o f s l) (lanesOf o.live) s
    have hg : ((lanesOf o.live).foldl (prefetchLane m o f) s).g = s.g := still_gang hstill
    refine ⟨_, pref_eq h, setBlk_blk _ _, ?_, ?_, ?_, fun n => ?_, l, ?_⟩
    · rw [setBlk_g_regs, hg]
    · rw [setBlk_g_ks, hg]
    · rw [setBlk_g_fst, hg]
    · unfold State.teamAt
      rw [setBlk_teams]
      exact ⟨calm_team_at (calm_of_still hstill) Team.stash (fun _ => rfl) n, calm_team_at (calm_of_still hstill) Team.tile (fun _ => rfl) n⟩
    · rw [setBlk_agenda, hl]
  · unfold Finishes
    rw [exec_fence]
    unfold execFence
    rw [if_neg (by simpa only [Bool.and_eq_true, decide_eq_true_eq] using hf)]
    exact waitFor_done h (.inr rfl)
  · have hcalm : calm (s.flushCore s.g.core) = calm s := calm_flushCore _
    have hrun : exec (.fence f lsid) s = .next ((s.flushCore s.g.core).setBlk (Blk.markDone { b with progress := s.clock } s.idx)) := by
      rw [exec_fence]
      unfold execFence
      rw [if_pos (by simpa only [Bool.and_eq_true, decide_eq_true_eq] using hf), waitFor_done ((calm_blk hcalm).trans h) (.inr rfl),
        calm_clock hcalm, calm_state hcalm State.idx fun _ => rfl]
    refine ⟨_, hrun, setBlk_blk _ _, ?_, State.setBlk_mem .., ?_⟩
    · unfold State.coreAt
      rw [setBlk_cores]
      exact flushCore_merge ..
    · rw [setBlk_g_regs, calm_gang hcalm Gang.regs fun _ => rfl]
  · exact waitFor_done (ok := fun _ => s.g.drained n1.toNat n2.toNat n3.toNat n4.toNat) h (hk.imp_right decide_eq_true)
  · exact waitFor_waits (ok := fun _ => s.g.drained n1.toNat n2.toNat n3.toNat n4.toNat) h hl (decide_eq_false hk)
  · exact waitFor_done (ok := fun o => decide (inFlight (s.g.flight p) ≤ min o.ua 63)) h (hk.imp_right (by rw [hpath]; exact decide_eq_true))
  · exact waitFor_waits (ok := fun o => decide (inFlight (s.g.flight p) ≤ min o.ua 63)) h hl
      (by rw [hpath]; exact decide_eq_false (Nat.not_le.2 hk))
  · exact waitFor_done (ok := fun o => decide (o.ua ≤ s.core.cyc)) h (hk.imp_right decide_eq_true)
  · exact waitFor_waits (ok := fun o => decide (o.ua ≤ s.core.cyc)) h hl (decide_eq_false (Nat.not_le.2 hk))

end Sys2Proof.Proofs
end

section
/-! PROOFS. Named barriers (spec/14 R420 to R423): a state in which an arrival that waits ends the wait of another instruction. -/

namespace Sys2Proof.Proofs
open Sys2Proof Sys2Proof.Machine

/-! ### A block whose words hold `bar.wait` where `bar.aw` is executed

The statement names the instruction that is executed, not the one that the words of the block hold at its index. `bar.aw` marks its index as
issued; where the words hold `bar.wait` at that index, the woken gang finds that instruction waiting, for the generation in its slot a. -/

/-- The common fields of a uniform barrier instruction without targets. -/
def awForm : Form :=
  { ext := true, pr := .always, vc := .uni, t0 := Target.none, t1 := Target.none, ty := .b64, rm := 0, sc := 0, cp := 0,
    t2 := Target.none, t3 := Target.none, lit := none }

/-- A block of one `bar.wait` on barrier 0 for generation 4. -/
def waitBlk : Blk := { words := encode (.barWait { awForm with vc := .lane } 0), lanes := 1, toks := [(0, tokOf .uni (splat 4) 0)] }

/-- A team with one barrier of two gangs in generation 5. -/
def waitTeam : Team := { barriers := 1, bars := [(0, barWord 5 0 2 0 0)] }

/-- One gang of the team with the block as its primary. -/
def waitState : State := { g := { prim := some waitBlk }, teams := [(0, waitTeam)] }

/-- The instructions that the current block has completed after a step. -/
def doneOf : Out → Option (BitVec 96)
  | .next t => t.blk?.map Blk.done
  | _ => none

/-- The executed `bar.aw` completes the waiting `bar.wait`. -/
theorem barAw_ends_wait : doneOf (exec (.barAw awForm 0) waitState) = some 1 := by decide

/-- Refutes O27: `bar.aw` on barrier 0, executed where the words of the block hold `bar.wait` for a generation that is done, leaves the
instruction completed and not merely issued. -/
theorem not_barriers : ¬ Obligations.Barriers := by
  intro h
  obtain ⟨-, -, -, -, -, -, haw, -⟩ := ((h.2 awForm 0 waitState waitBlk waitTeam rfl rfl).2 (by decide) (.inl rfl) rfl).2 (by decide)
  obtain ⟨t, ht, -, -, hblk⟩ := haw (barWord 5 1 2 0 0) (by decide) (by decide)
  have hdone := barAw_ends_wait
  rw [ht] at hdone
  change t.blk?.map Blk.done = some 1 at hdone
  rw [(hblk (by decide)).2] at hdone
  exact absurd hdone (by decide)

end Sys2Proof.Proofs
end

section
/-! PROOFS. Timelines, their selectors and faults, and `dsync` (spec/14 R424, R425). -/

namespace Sys2Proof.Proofs
open Sys2Proof.Machine Sys2Proof.Laws.Shapes

section
variable {f : Form} {s : State} {b : Blk}

/-- Outside a handler, or without fixed order, no instruction but `regang` is barred (R248). -/
theorem handlerBars_open {i : Instr} (hr : ∀ f d, i ≠ .regang f d) (h : s.g.sup = false ∨ s.launchOf.fixord = false) :
    s.handlerBars i = false := by
  unfold State.handlerBars
  split
  next f d => exact absurd rfl (hr f d)
  next => rcases h with h | h <;> simp [h]

/-! ### Selectors -/

theorem timelineOf_context {ctx sel : Nat} (hs : sel < 64) :
    s.timelineOf ctx sel = if sel ≠ ctx then .error (16, 4) else .ok (0, sel) := by
  have hk : sel / 2 ^ 60 = 0 := by omega
  have hb : bits sel 59 6 = 0 := by rw [bits_eq]; omega
  unfold State.timelineOf
  simp only [hk, hb, Nat.mod_eq_of_lt hs, ne_eq, not_true_eq_false, if_false]

theorem timelineOf_badger {ctx sel k : Nat} (hk : k < 512) (hs : sel = 2 ^ 60 + k) (hd : s.inDomain (k / 8) = true) :
    s.timelineOf ctx sel = if s.stackLost k then .error (8, 0) else .ok (1, k) := by
  have h1 : sel / 2 ^ 60 = 1 := by omega
  have hb : bits sel 59 9 = 0 := by rw [bits_eq]; omega
  have hm : sel % 512 = k := by omega
  unfold State.timelineOf
  simp only [h1, hb, hm, hd, ne_eq, not_true_eq_false, Bool.not_true, Bool.false_eq_true, or_self, if_false]

theorem timelineOf_core {ctx sel kind core die : Nat} (hk : kind = 2 ∨ kind = 3) (hself : s.self < 64)
    (hs : sel = kind * 2 ^ 60 + s.self * 2 ^ 10 + die * 2 ^ 8 + core) (hc : core ≤ 143) (hdie : die < 4) (hd : s.inDomain s.self = true)
    (hf : s.pkg.failedUnits.contains (.die die) = false) : s.timelineOf ctx sel = .ok (kind, s.self * 1024 + die * 144 + core) := by
  have h1 : sel / 2 ^ 60 = kind := by rcases hk with rfl | rfl <;> omega
  have hb : bits sel 59 16 = 0 := by rw [bits_eq]; rcases hk with rfl | rfl <;> omega
  have hp : bits sel 15 10 = s.self := by rw [bits_eq]; rcases hk with rfl | rfl <;> omega
  have hdd : bits sel 9 8 = die := by rw [bits_eq]; rcases hk with rfl | rfl <;> omega
  have hcc : sel % 256 = core := by rcases hk with rfl | rfl <;> omega
  have h3 : ¬3 < kind := by omega
  have h143 : ¬143 < core := by omega
  unfold State.timelineOf
  rcases hk with rfl | rfl <;>
    simp only [h1, hb, hp, hdd, hcc, h3, h143, hd, hf, ne_eq, not_true_eq_false, Bool.not_true, Bool.false_eq_true, or_self, and_false, if_false]

theorem timelineOf_nowhere {ctx sel : Nat} (h : 2 ^ 61 ≤ sel) (hn : 2 ^ 62 ≤ sel ∨ 143 < sel % 256) : s.timelineOf ctx sel = .error (1, 19) := by
  unfold State.timelineOf
  split
  next hk => omega
  next hk => omega
  next hk => exact if_pos (hn.imp (fun h => by omega) fun h => .inr (.inl h))

/-! ### The instructions -/

/-- `tlread` with a value: the token comes with a reply. -/
def readSent (b : Blk) (s : State) (f : Form) (v : W64) : State :=
  (s.setBlk { Blk.deliver b s.idx f (tokOf .uni (splat v) 0) with
    done := b.done, issued := b.issued ||| BitVec.ofNat 96 (2 ^ s.idx), progress := s.clock }).plainRequest s.idx

/-- A selector that names a timeline of this package, with its value. -/
theorem timeline_value (h : s.blk? = some b) (hl : (b.opnd s.idx f).live ≠ 0) {t : Nat × Nat} {v : W64}
    (ht : s.timelineOf s.ctxNo (lane (b.opnd s.idx f).a.vals 0).toNat = .ok t) (hv : s.timelineValue s.ctxNo t = (v, s)) :
    exec (.tlread f) s = .next (readSent b s f v) ∧
      exec (.tlwait f) s = .next (if (lane (b.opnd s.idx f).b.vals 0).toNat ≤ v.toNat then s.doneNow else s) := by
  rw [exec_tlread, exec_tlwait]
  unfold execTlread execTlwait timelineOp Opnd.ua
  simp only [h, (acts_iff _).2 hl, ht, hv, Bool.not_true, Bool.false_eq_true, if_false]
  exact ⟨rfl, rfl⟩

/-- A selector that names none. -/
theorem timeline_fault (h : s.blk? = some b) (hl : (b.opnd s.idx f).live ≠ 0) {x : Fail}
    (ht : s.timelineOf s.ctxNo (lane (b.opnd s.idx f).a.vals 0).toNat = .error x) :
    Faults (.tlread f) s x.1 x.2 255 (b.opnd s.idx f).live [] ∧ Faults (.tlwait f) s x.1 x.2 255 (b.opnd s.idx f).live [] := by
  unfold Faults
  rw [exec_tlread, exec_tlwait]
  unfold execTlread execTlwait timelineOp Opnd.ua
  simp only [h, (acts_iff _).2 hl, ht, Bool.not_true, Bool.false_eq_true, if_false]
  exact ⟨rfl, rfl⟩

theorem dsync_eq (h : s.blk? = some b) (hb : s.g.sup = false ∨ s.launchOf.fixord = false) : exec (.dsync f) s =
    .next (if (b.opnd s.idx f).acts && (s.launchOf.domcl || decide (2 ≤ f.sc.toNat)) then s.flushCore s.g.core else s).doneNow := by
  rw [exec_dsync]
  unfold execDsync
  simp only [h, handlerBars_open (i := .dsync f) (fun _ _ => nofun) hb, Bool.and_false, Bool.false_eq_true, if_false]

end

/-- Settles O28, selector by selector. -/
theorem timelines : Obligations.Timelines := by
  intro f s b h o sel to_ core die far reads
  have hself : s.inDomain s.self = true := by simp [State.inDomain]
  have hsel : sel < 2 ^ 64 := (lane o.a.vals 0).isLt
  refine ⟨fun hb => ⟨fun hf => ?_, fun hf => ?_⟩, fun hl => ⟨fun he hc => ?_, fun hs hn => ?_, fun k hk hp hx he => ?_, fun k hk hd hx he => ?_,
    fun kind hk hs he hc hf => ?_, fun hc h1 h2 => ?_, fun h2 => ?_⟩⟩
  · rw [dsync_eq h hb, if_neg]
    simpa only [Bool.and_eq_true, acts_iff, Bool.or_eq_true, decide_eq_true_eq] using hf
  · rw [dsync_eq h hb, if_pos]
    simpa only [Bool.and_eq_true, acts_iff, Bool.or_eq_true, decide_eq_true_eq] using hf
  · refine timeline_value h hl (t := (0, sel)) ((timelineOf_context (he.trans_lt hc)).trans (if_neg (not_not.2 he))) ?_
    rw [show sel = s.ctxNo from he]
    rfl
  · exact timeline_fault h hl (x := (16, 4)) ((timelineOf_context hs).trans (if_pos hn))
  · refine timeline_value h hl (t := (1, k)) ((timelineOf_badger hk he (hp ▸ hself)).trans (if_neg (by simp [hx]))) ?_
    exact if_pos hp
  · exact timeline_fault h hl (x := (8, 0)) ((timelineOf_badger hk he hd).trans (if_pos hx))
  · have hdie : die < 4 := Nat.mod_lt _ (by decide)
    refine timeline_value h hl (t := (kind, s.self * 1024 + die * 144 + core)) (timelineOf_core hk hs he hc hdie hself hf) ?_
    have hp : (s.self * 1024 + die * 144 + core) / 1024 = s.self := by omega
    have hm : (s.self * 1024 + die * 144 + core) % 1024 = die * 144 + core := by omega
    unfold State.timelineValue
    rcases hk with rfl | rfl <;> simp only [hp, hm, if_true] <;> rfl
  · exact (timeline_fault h hl (x := (1, 19)) (timelineOf_nowhere h1 (.inr hc))).1
  · exact timeline_fault h hl (x := (1, 19)) (timelineOf_nowhere (show 2 ^ 61 ≤ sel by omega) (.inl h2))

end Sys2Proof.Proofs
end

section
/-! PROOFS. Requests to a home agent at issue (spec/12 R343, R344). -/

namespace Sys2Proof.Proofs
open Sys2Proof.Machine Sys2Proof.Laws.Shapes

/-! ### Writes of the merge unit do not depend on the focused gang's instances -/

/-- A state whose focused gang has other instances and other null lanes kept. -/
def withInst (p q : Option Blk) (m : Table Mask) (s : State) : State := { s with g := { s.g with prim := p, sec := q, heldNulls := m } }

section
variable {p q : Option Blk} {m : Table Mask} (s : State)

theorem blind_foldl {α : Type} {f : State → α → State} (h : ∀ s x, f (withInst p q m s) x = withInst p q m (f s x)) (l : List α) (s : State) :
    l.foldl f (withInst p q m s) = withInst p q m (l.foldl f s) := by
  induction l generalizing s with
  | nil => rfl
  | cons x l ih => rw [List.foldl_cons, List.foldl_cons, h, ih]

theorem blind_ite (c : Prop) [Decidable c] (s t : State) :
    (if c then withInst p q m s else withInst p q m t) = withInst p q m (if c then s else t) := (apply_ite (withInst p q m) c s t).symm

theorem blind_modTeam (n : Nat) (f : Team → Team) : (withInst p q m s).modTeam n f = withInst p q m (s.modTeam n f) := by
  have ht : (withInst p q m s).teams = s.teams := rfl
  unfold State.modTeam
  rw [ht]
  cases tfind s.teams n <;> rfl

theorem blind_memCells (l : List (Nat × Byte)) : (withInst p q m s).memCells l = withInst p q m (s.memCells l) := by
  induction l generalizing s with
  | nil => rfl
  | cons x l ih => exact ih { s with mem := memSet s.mem (s.poolKey x.1) x.2 }

theorem blind_yieldCopy (l : Nat) (k : Bool) (x : Nat × Region × Nat) :
    (withInst p q m s).yieldCopy l k x = withInst p q m (s.yieldCopy l k x) := by
  have hc : (withInst p q m s).teamAt x.1 = s.teamAt x.1 := rfl
  unfold State.yieldCopy
  simp only [hc, blind_memCells, blind_modTeam]

theorem blind_yieldCopies (l : Nat) (k : Bool) (who : Nat → Nat → Bool) :
    (withInst p q m s).yieldCopies l k who = withInst p q m (s.yieldCopies l k who) := blind_foldl (fun s => blind_yieldCopy s l k) _ s

theorem map_filter_tset (t : Table Gang) (n : Nat) {g h : Gang} (P : Nat × Gang → Bool) (hp : P (n, g) = P (n, h)) :
    ((tset t n g).filter P).map (·.1) = ((tset t n h).filter P).map (·.1) := by
  have hone (r : Table Gang) : (List.filter P ((n, g) :: r)).map (·.1) = (List.filter P ((n, h) :: r)).map (·.1) := by
    rw [List.filter_cons, List.filter_cons, hp]
    split <;> rfl
  induction t with
  | nil => exact hone []
  | cons x r ih =>
    unfold tset
    split
    · exact hone _
    · split
      · exact hone _
      · rw [List.filter_cons, List.filter_cons]
        split
        · exact congrArg (x.1 :: ·) ih
        · exact ih

/-- The gangs that watch a line, by number. -/
def watchers (s : State) (n : Nat) : List Nat :=
  (s.allGangs.filter fun p => p.2.parked && p.2.slot.isNone && p.2.watch.contains n).map (·.1)

theorem noteWrites_eq (ls : List Nat) : s.noteWrites ls =
    ls.foldl (fun s n => (watchers s n).foldl (fun s g => s.soon (.gang g) (.watchedWrite n)) s) s := by
  unfold State.noteWrites watchers
  simp only [List.foldl_map]

theorem blind_watchers (n : Nat) : watchers (withInst p q m s) n = watchers s n := map_filter_tset s.gangs s.gid _ rfl

theorem blind_noteWrites (ls : List Nat) : (withInst p q m s).noteWrites ls = withInst p q m (s.noteWrites ls) := by
  rw [noteWrites_eq, noteWrites_eq]
  exact blind_foldl (fun s n => by rw [blind_watchers]; exact blind_foldl (fun _ _ => rfl) _ s) ls s

theorem blind_dropL1 (d l : Nat) : (withInst p q m s).dropL1 d l = withInst p q m (s.dropL1 d l) := rfl

theorem blind_modDie (d : Nat) (f : DieSt → DieSt) : (withInst p q m s).modDie d f = withInst p q m (s.modDie d f) := rfl

theorem blind_modCore (d : Nat) (f : Core → Core) : (withInst p q m s).modCore d f = withInst p q m (s.modCore d f) := rfl

theorem blind_soon (j : Subject) (e : Instr) : (withInst p q m s).soon j e = withInst p q m (s.soon j e) := rfl

theorem blind_claimLine (who : Nat → Nat → Bool) (l : Nat) : (withInst p q m s).claimLine who l = withInst p q m (s.claimLine who l) := by
  have hdie (s : State) (d : Nat) : (withInst p q m s).dieAt d = s.dieAt d := rfl
  unfold State.claimLine
  simp only [blind_yieldCopies]
  rw [blind_foldl (fun s d => by rw [hdie, blind_dropL1, blind_ite]), blind_noteWrites]

theorem blind_writeCells (l : List (Nat × Byte)) : (withInst p q m s).writeCells l = withInst p q m (s.writeCells l) := by
  unfold State.writeCells
  rw [blind_foldl (f := fun s l => s.claimLine (fun _ _ => true) l) fun s n => blind_claimLine s _ n, blind_memCells]

theorem blind_clearLost (l : List Nat) : (withInst p q m s).clearLost l = withInst p q m (s.clearLost l) := by
  have h1 : (withInst p q m s).lostLines = s.lostLines := rfl
  unfold State.clearLost
  rw [h1, ← blind_ite]
  rfl

theorem blind_settleDie (d l : Nat) : (withInst p q m s).settleDie d l = withInst p q m (s.settleDie d l) := by
  have h1 : (withInst p q m s).heldAbove d l = s.heldAbove d l := rfl
  have h2 (u : State) : (withInst p q m u).dirAt l = u.dirAt l := rfl
  have h3 (u : State) : (withInst p q m u).dieAt d = u.dieAt d := rfl
  have h4 (u : State) : (withInst p q m u).dieNo d = u.dieNo d := rfl
  unfold State.settleDie
  simp only [h1, blind_modDie, h2, h3, h4, blind_soon, blind_ite]

theorem blind_snoopIn (d l : Nat) : (withInst p q m s).snoopIn d l = withInst p q m (s.snoopIn d l) := by
  have h1 : (withInst p q m s).dieAt d = s.dieAt d := rfl
  have h2 (n : Nat) : (withInst p q m s).teamAt n = s.teamAt n := rfl
  unfold State.snoopIn
  simp only [h1, h2, blind_yieldCopies, blind_dropL1, blind_settleDie, blind_modDie]
  split <;> rfl

theorem blind_cacheIn (d l : Nat) (cp : BitVec 3) : (withInst p q m s).cacheIn d l cp = withInst p q m (s.cacheIn d l cp) := by
  have h1 : (withInst p q m s).dieAt d = s.dieAt d := rfl
  unfold State.cacheIn
  simp only [h1, blind_settleDie, blind_modDie]
  split
  · rfl
  · split <;> rfl

theorem blind_lineIn (c l : Nat) (cp : BitVec 3) : (withInst p q m s).lineIn c l cp = withInst p q m (s.lineIn c l cp) := by
  have h1 (u : State) : (withInst p q m u).coreAt c = u.coreAt c := rfl
  unfold State.lineIn
  simp only [blind_cacheIn, h1, blind_modCore, blind_snoopIn, blind_settleDie]
  split
  · rfl
  · split <;> rfl

theorem blind_setDir (l : Nat) (d : Dir) : (withInst p q m s).setDir l d = withInst p q m (s.setDir l d) := by
  unfold State.setDir
  split <;> rfl

theorem blind_ask (d k l : Nat) : (withInst p q m s).ask d k l = withInst p q m (s.ask d k l) := by
  have h1 : (withInst p q m s).dieAt d = s.dieAt d := rfl
  have h2 : (withInst p q m s).dieNo d = s.dieNo d := rfl
  have h3 : (withInst p q m s).dirAt l = s.dirAt l := rfl
  unfold State.ask
  simp only [h1, h2, h3, blind_setDir, blind_modDie, blind_soon, blind_ite]

theorem blind_modGang_flST (n : Nat) (f : List Flight → List Flight) :
    (withInst p q m s).modGang n (fun g => { g with flST := f g.flST }) = withInst p q m (s.modGang n fun g => { g with flST := f g.flST }) := by
  have h1 : (withInst p q m s).gid = s.gid := rfl
  have h2 : (withInst p q m s).gangs = s.gangs := rfl
  unfold State.modGang
  rw [h1, h2]
  split
  · rfl
  · cases tfind s.gangs n <;> rfl

theorem blind_drainStep (c : Nat) (x : MergeStep) : (withInst p q m s).drainStep c x = withInst p q m (s.drainStep c x) := by
  have h1 : (withInst p q m s).pageFail none (x.line / 512) = s.pageFail none (x.line / 512) := rfl
  have h2 (u : State) : (withInst p q m u).coreAt c = u.coreAt c := rfl
  have hflights (fs : List (Nat × Nat)) (u : State) :
      fs.foldl (fun s f => s.modGang f.1 fun g => { g with flST := finishFlight f.2 g.flST }) (withInst p q m u) =
        withInst p q m (fs.foldl (fun s f => s.modGang f.1 fun g => { g with flST := finishFlight f.2 g.flST }) u) :=
    blind_foldl (fun s f => blind_modGang_flST s f.1 _) fs u
  unfold State.drainStep
  rw [h1]
  cases s.pageFail none (x.line / 512) <;>
    simp only [Bool.false_eq_true, ↓reduceIte, blind_writeCells, blind_clearLost, blind_modCore, h2, hflights, blind_lineIn, blind_ask]

theorem blind_flushCore (c : Nat) : (withInst p q m s).flushCore c = withInst p q m (s.flushCore c) :=
  blind_foldl (fun s x => blind_drainStep s c x) _ s

end

/-! ### The cores of gangs -/

/-- The core on which a gang runs. -/
def coreOf (s : State) (n : Nat) : Option Nat := (s.gangAt n).map Gang.core

theorem coreOf_modGang (s : State) (n k : Nat) (f : List Flight → List Flight) :
    coreOf (s.modGang n fun g => { g with flST := f g.flST }) k = coreOf s k := by
  unfold State.modGang coreOf State.gangAt
  by_cases hn : n = s.gid
  · rw [if_pos hn]
    dsimp only
    split <;> rfl
  · rw [if_neg hn]
    cases ht : tfind s.gangs n with
    | none => rfl
    | some x =>
      dsimp only
      split
      · rfl
      · rw [tfind_tset]
        split
        next hk => rw [hk, ht]; rfl
        next => rfl

theorem coreOf_still {s t : State} (h : still t = still s) (k : Nat) : coreOf t k = coreOf s k := by
  have hg : t.g = s.g := still_gang h
  have hgs : t.gangs = s.gangs := still_state h State.gangs fun _ => rfl
  have hid : t.gid = s.gid := still_state h State.gid fun _ => rfl
  unfold coreOf State.gangAt
  rw [hg, hgs, hid]

theorem coreOf_flushCore (s : State) (c k : Nat) : coreOf (s.flushCore c) k = coreOf s k := by
  have hflights (fs : List (Nat × Nat)) (u : State) :
      coreOf (fs.foldl (fun s f => s.modGang f.1 fun g => { g with flST := finishFlight f.2 g.flST }) u) k = coreOf u k := by
    induction fs generalizing u with
    | nil => rfl
    | cons f fs ih => exact (ih _).trans (coreOf_modGang ..)
  have hmod (u : State) (f : Core → Core) : coreOf (u.modCore c f) k = coreOf u k := rfl
  have hstep (u : State) (x : MergeStep) : coreOf (u.drainStep c x) k = coreOf u k := by
    unfold State.drainStep
    cases u.pageFail none (x.line / 512) with
    | some _ =>
      simp only [↓reduceIte]
      rw [hflights, hmod]
    | none =>
      simp only [Bool.false_eq_true, ↓reduceIte]
      rw [coreOf_still ((still_ask ..).trans (still_lineIn ..)), hflights, hmod, coreOf_still ((still_clearLost ..).trans (still_writeCells ..))]
  unfold State.flushCore State.flushWhere
  generalize (s.coreAt c).merge.filter (fun m => (fun _ => true) m.line) = ms
  induction ms generalizing s with
  | nil => rfl
  | cons x ms ih => exact (ih _).trans (hstep _ _)

/-! ### A request leaves the core -/

/-- A step that is a request of the focused gang's die for a line. -/
def ofDie (s : State) (line : Nat) (d : Due) : Prop :=
  ∃ g c, requestLine d = some (g, line) ∧ s.gangAt g = some c ∧ c.core / 144 = s.g.core / 144

theorem foldl_max_le (l : List Due) : ∀ t : Nat, t ≤ l.foldl (fun t d => max t d.time) t ∧ ∀ d ∈ l, d.time ≤ l.foldl (fun t d => max t d.time) t := by
  induction l with
  | nil => exact fun t => ⟨Nat.le_refl t, fun d hd => absurd hd List.not_mem_nil⟩
  | cons x l ih =>
    intro t
    obtain ⟨h1, h2⟩ := ih (max t x.time)
    refine ⟨(Nat.le_max_left ..).trans h1, fun d hd => ?_⟩
    rcases List.mem_cons.1 hd with rfl | hd
    · exact (Nat.le_max_right ..).trans h1
    · exact h2 d hd

/-- A request arrives after those that its die has sent for the line (02 R49). -/
theorem sendRequest_last (s : State) (line : Nat) (ev : Instr) : ∃ time, s.sendRequest line ev =
    { s with agenda := s.agenda ++ [⟨time, none, .gang s.gid, ev⟩], free := s.free + 1 } ∧ s.now < time ∧
      ∀ d ∈ s.agenda, ofDie s line d → d.time ≤ time := by
  refine ⟨_, rfl, ?_, fun d hd ho => ?_⟩
  · refine Nat.lt_of_lt_of_le ?_ (foldl_max_le _ _).1
    omega
  · refine (foldl_max_le _ _).2 d (List.mem_filter.2 ⟨hd, ?_⟩)
    obtain ⟨g, c, hr, hg, hc⟩ := ho
    rw [hr]
    simp only [hg, Option.map_some, Option.getD_some, BEq.rfl, Bool.true_and, beq_iff_eq]
    exact hc

/-- What the focused gang's requests see of a state: its core, its number, the time and the cores of gangs. -/
structure SameDie (s u : State) : Prop where
  gid : u.gid = s.gid
  now : u.now = s.now
  core : u.g.core = s.g.core
  cores : ∀ k, coreOf u k = coreOf s k

theorem SameDie.of_still {s u : State} (h : still u = still s) : SameDie s u :=
  ⟨still_state h State.gid fun _ => rfl, still_state h State.now fun _ => rfl, congrArg Gang.core (still_gang h), coreOf_still h⟩

theorem SameDie.withInst {s u : State} (h : SameDie s u) (p q : Option Blk) (m : Table Mask) : SameDie s (withInst p q m u) := by
  refine ⟨h.gid, h.now, h.core, fun k => (Eq.trans ?_ (h.cores k))⟩
  unfold coreOf State.gangAt Proofs.withInst
  dsimp only
  split <;> rfl

theorem SameDie.flushCore {s u : State} (h : SameDie s u) (c : Nat) : SameDie s (u.flushCore c) :=
  ⟨(calm_state (calm_flushCore c) State.gid fun _ => rfl).trans h.gid, (calm_state (calm_flushCore c) State.now fun _ => rfl).trans h.now,
    (calm_gang (calm_flushCore c) Gang.core fun _ => rfl).trans h.core, fun k => (coreOf_flushCore ..).trans (h.cores k)⟩

theorem SameDie.ofDie {s u : State} (h : SameDie s u) {line : Nat} {d : Due} (hd : ofDie s line d) : ofDie u line d := by
  obtain ⟨g, c, hr, hg, hc⟩ := hd
  have hcore := h.cores g
  unfold coreOf at hcore
  rw [hg, Option.map_some] at hcore
  obtain ⟨x, hx, hxc⟩ := Option.map_eq_some_iff.1 hcore
  exact ⟨g, x, hr, hx, by rw [hxc, hc, h.core]⟩

/-- What a request that has gone out leaves, beside the agenda. -/
theorem sent_request {s u : State} {c : Blk} (hb : u.blk? = some c) (h : SameDie s u) (line : Nat) (ev : Instr) :
    ∃ time, (u.sendRequest line ev).blk? = some c ∧ (u.sendRequest line ev).agenda = u.agenda ++ [⟨time, none, .gang s.gid, ev⟩] ∧
      s.now < time ∧ (∀ d ∈ u.agenda, ofDie s line d → d.time ≤ time) ∧ (u.sendRequest line ev).g = u.g ∧
      (u.sendRequest line ev).mem = u.mem ∧ (u.sendRequest line ev).idx = u.idx := by
  obtain ⟨time, hs, ht, hd⟩ := sendRequest_last u line ev
  rw [hs]
  exact ⟨time, hb, by rw [← h.gid], h.now ▸ ht, fun d hm ho => hd d hm (h.ofDie ho), rfl, rfl, rfl⟩

section
variable {f : Form} {s : State} {b : Blk}

theorem issuedNow_eq (h : s.blk? = some b) : s.issuedNow = s.setBlk (b.markIssued s.idx s.clock) := by
  unfold State.issuedNow
  rw [h]

theorem setBlk_withInst (s : State) (b : Blk) : ∃ p q, s.setBlk b = withInst p q s.g.heldNulls s := by
  unfold State.setBlk
  split
  · exact ⟨s.g.prim, some b, rfl⟩
  · exact ⟨some b, s.g.sec, rfl⟩

theorem holdNulls_eq (h : s.blk? = some b) (k : Mask) : s.holdNulls k =
    { s with g := { s.g with heldNulls := tset s.g.heldNulls (b.position s.g.sup s.idx) k } } := by
  unfold State.holdNulls
  rw [h]

/-- A request's issue with its null lanes kept. -/
theorem heldIssued_eq (h : s.blk? = some b) (k : Mask) : ∃ p q,
    (s.holdNulls k).issuedNow = withInst p q (tset s.g.heldNulls (b.position s.g.sup s.idx) k) s ∧
      (s.holdNulls k).issuedNow.blk? = some (b.markIssued s.idx s.clock) := by
  have hb : (s.holdNulls k).blk? = some b := by rw [holdNulls_eq h]; exact h
  rw [issuedNow_eq hb]
  obtain ⟨p, q, hs⟩ := setBlk_withInst (s.holdNulls k) (b.markIssued (s.holdNulls k).idx (s.holdNulls k).clock)
  refine ⟨p, q, hs.trans ?_, ?_⟩
  · rw [holdNulls_eq h]
    rfl
  · rw [setBlk_blk, holdNulls_eq h]
    rfl

/-! ### `chunk`, `qsend` and `qtake` -/

theorem checkAddr_misaligned {a : W64} {align : Nat} {write : Bool} {m : Mask} (h : a.toNat % align ≠ 0) :
    s.checkAddr a align write m = (.error (s.execFault 7 0 255 m (splat a)), s) := if_pos h

theorem checkAddr_good {a : W64} {align : Nat} {write : Bool} {m : Mask} {p : Nat} {s1 : State} (h : a.toNat % align = 0)
    (ht : s.translate s.ctxNo a.toNat { write := write, sup := s.g.sup } = (.ok p, s1)) : s.checkAddr a align write m = (.ok p, s1) := by
  unfold State.checkAddr
  rw [if_neg (not_not.2 h)]
  simp only [ht]

theorem chunk_held (h : s.blk? = some b) {x : Lanes} (hx : s.heldHere = some x) : exec (.chunk f) s = .next (deliverReply (.chunk f) x s) := by
  rw [exec_chunk]
  unfold execChunk
  simp only [h, hx]

theorem edge_held {i : Instr} {send : Bool} (h : s.blk? = some b) {x : Lanes} (hx : s.heldHere = some x) :
    edgeRequest f i send s = .next (deliverReply i x s) := by
  unfold edgeRequest
  simp only [h, hx]

theorem chunk_out (h : s.blk? = some b) (hx : s.heldHere = none) (ho : s.requestOut s.g.sup (b.position s.g.sup s.idx) = true) :
    exec (.chunk f) s = .next s.issuedNow := by
  rw [exec_chunk]
  unfold execChunk
  simp only [h, hx, ho, ↓reduceIte]

theorem edge_out {i : Instr} {send : Bool} (h : s.blk? = some b) (hx : s.heldHere = none)
    (ho : s.requestOut s.g.sup (b.position s.g.sup s.idx) = true) : edgeRequest f i send s = .next s.issuedNow := by
  unfold edgeRequest
  simp only [h, hx, ho, ↓reduceIte]

theorem chunk_checked (h : s.blk? = some b) (hx : s.heldHere = none) (ho : s.requestOut s.g.sup (b.position s.g.sup s.idx) = false)
    (hl : (b.opnd s.idx f).live ≠ 0) (hb : s.handlerBars (.chunk f) = false) {r : Except FaultRec Nat × State}
    (hr : s.checkAddr (lane (b.opnd s.idx f).a.vals 0) 32 true (b.opnd s.idx f).live = r) : exec (.chunk f) s =
      match r.1 with
      | .error x => .next (r.2.raise x)
      | .ok p => .next (r.2.issuedNow.sendRequest (p / 256) (.chunkRequest s.g.sup (b.position s.g.sup s.idx) (w64 p))) := by
  subst hr
  rw [exec_chunk]
  unfold execChunk
  simp only [h, hx, ho, (acts_iff _).2 hl, hb, Bool.not_true, Bool.false_eq_true, if_false] <;> rfl

/-- The lanes whose descriptor address counts. -/
def gateOf (o : Opnd) : Mask := o.act &&& o.pred &&& ~~~o.a.nulls

/-- The request to an edge queue. -/
def edgeReqOf (f : Form) (send : Bool) (s s1 : State) (b : Blk) (p : Nat) : EdgeReq :=
  { gang := s.gid, handler := s.g.sup, pos := b.position s.g.sup s.idx, desc := w64 p,
    payload := if send then (b.opnd s.idx f).payload (natOf (s1.poolRead (p + 12) 2) / 8) else [] }

/-- A request to an edge queue at an address that is good. -/
def edgeSent (f : Form) (send : Bool) (s s1 : State) (b : Blk) (p : Nat) : State :=
  let u := (s1.holdNulls (~~~(b.opnd s.idx f).pred)).issuedNow
  (if send then u.flushCore u.g.core else u).sendRequest (p / 256)
    (if send then .edgeSend (edgeReqOf f send s s1 b p) else .edgeTake (edgeReqOf f send s s1 b p))

theorem edge_checked {i : Instr} {send : Bool} (h : s.blk? = some b) (hx : s.heldHere = none)
    (ho : s.requestOut s.g.sup (b.position s.g.sup s.idx) = false) (hg : gateOf (b.opnd s.idx f) ≠ 0) (hb : s.handlerBars i = false)
    {r : Except FaultRec Nat × State} (hr : s.checkAddr (lane (b.opnd s.idx f).a.vals 0) 256 false (gateOf (b.opnd s.idx f)) = r) :
    edgeRequest f i send s =
      match r.1 with
      | .error x => .next (r.2.raise x)
      | .ok p => if !s.edges.contains p then .next (r.2.raise (s.execFault 1 19 255 (gateOf (b.opnd s.idx f)) []))
        else .next (edgeSent f send s r.2 b p) := by
  subst hr
  unfold gateOf at hg ⊢
  unfold edgeRequest
  simp only [h, hx, ho, hg, hb, Bool.false_eq_true, if_false]
  rfl

/-- What is left by a request that went out of a state in which an address was translated. -/
def Sends (s : State) (b : Blk) (o : Out) (p : Nat) (s1 : State) (ev : Instr) : Prop :=
  ∃ t l time, o = .next t ∧ t.blk? = some (b.markIssued s.idx s.clock) ∧ t.agenda = l ++ [⟨time, none, .gang s.gid, ev⟩] ∧
    s.now < time ∧ (∀ d ∈ s1.agenda, d ∈ l) ∧ (∀ d ∈ l, ofDie s (p / 256) d → d.time ≤ time) ∧
    t.g.held = s.g.held ∧ t.g.regs = s.g.regs ∧ t.mem = s1.mem

/-- A state whose address translation changed nothing that a block sees. -/
theorem still_instance (h : s.blk? = some b) {s1 : State} (hs : still s1 = still s) :
    s1.blk? = some b ∧ s1.idx = s.idx ∧ s1.clock = s.clock ∧ s1.g = s.g :=
  ⟨(still_blk hs).trans h, still_state hs State.idx fun _ => rfl, calm_clock (calm_of_still hs), still_gang hs⟩

theorem chunk_sends (h : s.blk? = some b) {s1 : State} (hs : still s1 = still s) (p : Nat) (ev : Instr) :
    Sends s b (.next (s1.issuedNow.sendRequest (p / 256) ev)) p s1 ev := by
  obtain ⟨hb, hi, hc, hg⟩ := still_instance h hs
  have he : s1.issuedNow = s1.setBlk (b.markIssued s.idx s.clock) := by rw [issuedNow_eq hb, hi, hc]
  obtain ⟨x, y, hw⟩ := setBlk_withInst s1 (b.markIssued s.idx s.clock)
  obtain ⟨time, h1, h2, h3, h4, h5, h6, -⟩ := sent_request (u := s1.issuedNow) (by rw [he, setBlk_blk])
    (by rw [he, hw]; exact (SameDie.of_still hs).withInst x y _) (p / 256) ev
  have hagenda : s1.issuedNow.agenda = s1.agenda := by rw [he, hw]; rfl
  have hgang : (s1.issuedNow.sendRequest (p / 256) ev).g.held = s1.g.held ∧ (s1.issuedNow.sendRequest (p / 256) ev).g.regs = s1.g.regs := by
    rw [h5, he, hw]
    exact ⟨rfl, rfl⟩
  exact ⟨_, _, time, rfl, h1, h2, h3, fun d hd => hagenda ▸ hd, h4, by rw [hgang.1, hg], by rw [hgang.2, hg], by rw [h6, he, hw]; rfl⟩

/-- A request to an edge queue goes out, after what the core has still to write where it is a release (R211), with its null lanes kept. -/
theorem edge_sends (h : s.blk? = some b) {s1 : State} (hs : still s1 = still s) (send : Bool) (p : Nat) {ev : Instr}
    (hev : ev = if send then .edgeSend (edgeReqOf f send s s1 b p) else .edgeTake (edgeReqOf f send s s1 b p)) :
    Sends s b (.next (edgeSent f send s s1 b p)) p (if send then s1.flushCore s.g.core else s1) ev ∧
      (edgeSent f send s s1 b p).nullsHere = ~~~(b.opnd s.idx f).pred := by
  obtain ⟨hb, hi, hc, hg⟩ := still_instance h hs
  obtain ⟨x, y, hw, hwb⟩ := heldIssued_eq hb (~~~(b.opnd s.idx f).pred)
  rw [hi, hc] at hwb
  rw [hi, hg] at hw
  obtain ⟨u, hu, hub, hsame, huw⟩ : ∃ u, edgeSent f send s s1 b p = u.sendRequest (p / 256) ev ∧
      u.blk? = some (b.markIssued s.idx s.clock) ∧ SameDie s u ∧
      u = withInst u.g.prim u.g.sec (tset s.g.heldNulls (b.position s.g.sup s.idx) (~~~(b.opnd s.idx f).pred))
        (if send then s1.flushCore s.g.core else s1) := by
    subst hev
    cases send
    · refine ⟨(s1.holdNulls (~~~(b.opnd s.idx f).pred)).issuedNow, rfl, hwb, ?_, ?_⟩
      · rw [hw]
        exact (SameDie.of_still hs).withInst ..
      · rw [hw]
        rfl
    · have hcore : ((s1.holdNulls (~~~(b.opnd s.idx f).pred)).issuedNow).g.core = s.g.core := by
        rw [hw]
        exact (rfl : _ = s1.g.core).trans (congrArg Gang.core hg)
      refine ⟨((s1.holdNulls (~~~(b.opnd s.idx f).pred)).issuedNow).flushCore s.g.core, ?_, ?_, ?_, ?_⟩
      · rw [← hcore]
        rfl
      · exact (calm_blk (calm_flushCore _)).trans hwb
      · rw [hw]
        exact ((SameDie.of_still hs).withInst ..).flushCore _
      · rw [hw, blind_flushCore]
        rfl
  obtain ⟨time, h1, h2, h3, h4, h5, h6, h7⟩ := sent_request hub hsame (p / 256) ev
  have hgang : (if send then s1.flushCore s.g.core else s1).g.held = s.g.held ∧ (if send then s1.flushCore s.g.core else s1).g.regs = s.g.regs ∧
      (if send then s1.flushCore s.g.core else s1).g.sup = s.g.sup ∧ (if send then s1.flushCore s.g.core else s1).idx = s.idx := by
    cases send
    · exact ⟨congrArg Gang.held hg, congrArg Gang.regs hg, congrArg Gang.sup hg, hi⟩
    · have hf : calm (s1.flushCore s.g.core) = calm s1 := calm_flushCore _
      exact ⟨(calm_gang hf Gang.held fun _ => rfl).trans (congrArg Gang.held hg), (calm_gang hf Gang.regs fun _ => rfl).trans (congrArg Gang.regs hg),
        (calm_gang hf Gang.sup fun _ => rfl).trans (congrArg Gang.sup hg), (calm_state hf State.idx fun _ => rfl).trans hi⟩
  generalize (if send then s1.flushCore s.g.core else s1) = v at huw hgang
  obtain ⟨hheld, hregs, hsup, hidx⟩ := hgang
  rw [hu]
  refine ⟨⟨_, _, time, rfl, h1, h2, h3, fun d hd => ?_, h4, ?_, ?_, ?_⟩, ?_⟩
  · rw [huw]
    exact hd
  · rw [h5, huw]
    exact hheld
  · rw [h5, huw]
    exact hregs
  · rw [h6, huw]
    rfl
  · have hpos : (b.markIssued s.idx s.clock).position s.g.sup s.idx = b.position s.g.sup s.idx := position_congr rfl ..
    have hgs : (u.sendRequest (p / 256) ev).g.sup = s.g.sup := by rw [h5, huw]; exact hsup
    have his : (u.sendRequest (p / 256) ev).idx = s.idx := by rw [h7, huw]; exact hidx
    have hnl : (u.sendRequest (p / 256) ev).g.heldNulls = tset s.g.heldNulls (b.position s.g.sup s.idx) (~~~(b.opnd s.idx f).pred) := by
      rw [h5, huw]
      rfl
    rw [nullsHere_eq h1, hgs, his, hpos, hnl]
    exact (tget_tset ..).trans (if_pos rfl)

end

/-- Settles O29: what is held, what is out, what the address check refuses, and the request that goes out. -/
theorem homeRequests : Obligations.HomeRequests := by
  intro f s b h o gate pos bars a ok uni ofLine sends
  have hopen (hb : ¬bars) : s.g.sup = false ∨ s.launchOf.fixord = false := by
    by_cases hs : s.g.sup = true
    · exact .inr (Bool.eq_false_iff.2 fun hf => hb ⟨hs, hf⟩)
    · exact .inl (Bool.eq_false_iff.2 hs)
  have hstill {w : Bool} {p : Nat} {s1 : State} (ht : s.translate s.ctxNo a { write := w, sup := s.g.sup } = (.ok p, s1)) : still s1 = still s := by
    have hs : still (s.translate s.ctxNo a { write := w, sup := s.g.sup }).2 = still s := still_translate ..
    rwa [ht] at hs
  have hedge (hb : ¬bars) (hx : s.heldHere = none) (ho : s.requestOut s.g.sup pos = false) (hg : gate ≠ 0) (hm : a % 256 = 0) (p : Nat)
      (s1 : State) (ht : s.translate s.ctxNo a { sup := s.g.sup } = (.ok p, s1)) (i : Instr) (send : Bool) (hi : ∀ f d, i ≠ .regang f d) :
      edgeRequest f i send s = if !s.edges.contains p then .next (s1.raise (s.execFault 1 19 255 gate [])) else
        .next (edgeSent f send s s1 b p) :=
    edge_checked h hx ho hg (handlerBars_open hi (hopen hb)) (checkAddr_good hm ht)
  refine ⟨fun x hx => ⟨(chunk_held h hx).trans ?_, ((exec_qsend f s).trans (edge_held h hx)).trans ?_,
    ((exec_qtake f s).trans (edge_held h hx)).trans ?_⟩, fun hx ho i hi => ?_, fun hb hx ho => ⟨fun hl hm => ?_, fun hg hm => ⟨?_, ?_⟩,
    fun hl hm p s1 ht => ?_, fun hg hm p s1 ht => ⟨fun he => ⟨?_, ?_, fun i hi t hi' => ?_⟩, fun he => ⟨?_, ?_⟩⟩⟩⟩
  · unfold deliverReply
    simp only [h]
    rfl
  · unfold deliverReply
    simp only [h]
    rfl
  · unfold deliverReply
    simp only [h]
    rfl
  · rcases List.mem_cons.1 hi with rfl | hi
    · exact chunk_out h hx ho
    · rcases List.mem_cons.1 hi with rfl | hi
      · exact (exec_qsend f s).trans (edge_out h hx ho)
      · obtain rfl := List.mem_singleton.1 hi
        exact (exec_qtake f s).trans (edge_out h hx ho)
  · exact chunk_checked h hx ho hl (handlerBars_open (fun _ _ => nofun) (hopen hb)) (checkAddr_misaligned hm)
  · exact (exec_qsend f s).trans (edge_checked h hx ho hg (handlerBars_open (i := .qsend f) (fun _ _ => nofun) (hopen hb)) (checkAddr_misaligned hm))
  · exact (exec_qtake f s).trans (edge_checked h hx ho hg (handlerBars_open (i := .qtake f) (fun _ _ => nofun) (hopen hb)) (checkAddr_misaligned hm))
  · have he : exec (.chunk f) s = .next (s1.issuedNow.sendRequest (p / 256) (.chunkRequest s.g.sup pos (w64 p))) :=
      chunk_checked h hx ho hl (handlerBars_open (fun _ _ => nofun) (hopen hb)) (checkAddr_good hm ht)
    have hs := chunk_sends h (hstill ht) p (.chunkRequest s.g.sup pos (w64 p))
    rw [← he] at hs
    exact hs
  · have hs := (edge_sends (f := f) h (hstill ht) true p rfl).1
    rw [← (hedge hb hx ho hg hm p s1 ht (.qsend f) true (fun _ _ => nofun)).trans (if_neg (by rw [he]; decide))] at hs
    exact hs
  · have hs := (edge_sends (f := f) h (hstill ht) false p rfl).1
    rw [← (hedge hb hx ho hg hm p s1 ht (.qtake f) false (fun _ _ => nofun)).trans (if_neg (by rw [he]; decide))] at hs
    exact hs
  · rcases List.mem_cons.1 hi with rfl | hi
    · have hr := (hedge hb hx ho hg hm p s1 ht (.qsend f) true (fun _ _ => nofun)).trans (if_neg (by rw [he]; decide))
      rw [exec_qsend, show execQsend f s = _ from hr] at hi'
      rw [← Host.Outcome.next.inj hi']
      exact (edge_sends (f := f) h (hstill ht) true p rfl).2
    · obtain rfl := List.mem_singleton.1 hi
      have hr := (hedge hb hx ho hg hm p s1 ht (.qtake f) false (fun _ _ => nofun)).trans (if_neg (by rw [he]; decide))
      rw [exec_qtake, show execQtake f s = _ from hr] at hi'
      rw [← Host.Outcome.next.inj hi']
      exact (edge_sends (f := f) h (hstill ht) false p rfl).2
  · exact (hedge hb hx ho hg hm p s1 ht (.qsend f) true (fun _ _ => nofun)).trans (if_pos (by rw [he]; rfl))
  · exact (hedge hb hx ho hg hm p s1 ht (.qtake f) false (fun _ _ => nofun)).trans (if_pos (by rw [he]; rfl))

end Sys2Proof.Proofs
end

section
/-! PROOFS. Tile array instructions, the tile queue's and the engines' instructions at issue (spec/15 R428 to R445, R453). -/

namespace Sys2Proof.Proofs
open Sys2Proof.Machine Sys2Proof.Laws.Shapes

/-! ### Rows of a tile -/

theorem length_pieces {α : Type} (n k : Nat) (l : List α) : (pieces n k l).length = k := by
  induction k generalizing l with
  | zero => rfl
  | succ k ih => rw [pieces, List.length_cons, ih]

theorem length_tileOf (s : State) (b : Blk) (idx z : Nat) : (s.tileOf b idx z).length = 64 := by
  unfold State.tileOf tileRows
  rw [List.length_map, length_pieces]

theorem rowHalf_eq (x : Lanes) (i : Nat) : rowHalf x i = (lane x (i / 2)).toNat / 2 ^ (32 * (i % 2)) % 2 ^ 32 := by
  unfold rowHalf
  rw [bits_eq, show 32 * (i % 2) + 31 + 1 - 32 * (i % 2) = 32 by omega]

/-- A list of 64 with its positions is a `mapIdx`. -/
theorem map_zip_range {α β : Type} (f : Nat → α → β) (l : List α) (h : l.length = 64) :
    (l.zip (List.range 64)).map (fun p => f p.2 p.1) = l.mapIdx f := by
  apply List.ext_getElem
  · simp [h]
  · intro i h1 h2
    simp

/-! ### Instructions of the tile array without a token -/

section
variable {f : Form} {s : State} {b : Blk} {zr zw occupy due : Nat} {chk : Opnd → Option (Nat × Nat)}
  {res : Env → Opnd → Blk → List (List Nat) × Option Nat} {i : Instr}

/-- The first provenance event of a tile operation, with its index. -/
def eventAt (idx : Nat) (e : Option Nat) : List (Nat × Nat) :=
  match e with
  | some x => [(idx, x)]
  | none => []

theorem leaveTile_eq (b : Blk) (idx z : Nat) (r : List (List Nat) × Option Nat) : b.leaveTile idx z r =
    { b with tiles := insertTile { idx := idx, off := 16384 * z, data := tileBytes r.1 } b.tiles, prov := b.prov ++ eventAt idx r.2 } := by
  unfold Blk.leaveTile eventAt
  cases r.2 with
  | none => simp
  | some e => rfl

theorem takeArray_setBlk (s : State) (c : Blk) (n : Nat) :
    (s.setBlk c).takeArray n = (s.setBlk c).modCore s.g.core fun k => { k with tileFree := s.clock + n } := by
  unfold State.takeArray
  rw [setBlk_clock, setBlk_g_of s c (·.core) fun _ => rfl]

/-- No lane acts: the instruction is done. -/
theorem tile_idle (h : s.blk? = some b) (he : exec i s = tileInstr f zr zw occupy due chk res s) (hl : (b.opnd s.idx f).live = 0) :
    Finishes i s b := by
  unfold Finishes
  rw [he]
  unfold tileInstr
  simp only [h, (acts_false_iff _).2 hl]
  rfl

/-- A tile that the team does not hold (R428). -/
theorem tile_missing (h : s.blk? = some b) (he : exec i s = tileInstr f zr zw occupy due chk res s) (hl : (b.opnd s.idx f).live ≠ 0)
    (hz : (s.tileExists zr && s.tileExists zw) = false) : Faults i s 1 16 255 (b.opnd s.idx f).live [] := by
  unfold Faults
  rw [he]
  unfold tileInstr
  simp only [h, (acts_iff _).2 hl, hz]
  rfl

/-- A check of the operands that fails. -/
theorem tile_refused {code sub : Nat} (h : s.blk? = some b) (he : exec i s = tileInstr f zr zw occupy due chk res s)
    (hl : (b.opnd s.idx f).live ≠ 0) (hz : (s.tileExists zr && s.tileExists zw) = true) (hc : chk (b.opnd s.idx f) = some (code, sub)) :
    Faults i s code sub 255 (b.opnd s.idx f).live [] := by
  unfold Faults
  rw [he]
  unfold tileInstr
  simp only [h, (acts_iff _).2 hl, hz, hc]
  rfl

/-- The result is left for the commit, the array is taken and the tile's result is due (R435, R436). -/
theorem tile_left (h : s.blk? = some b) (he : exec i s = tileInstr f zr zw occupy due chk res s) (hl : (b.opnd s.idx f).live ≠ 0)
    (hz : (s.tileExists zr && s.tileExists zw) = true) (hc : chk (b.opnd s.idx f) = none) {rows : List (List Nat)}
    (hr : (res s.env (b.opnd s.idx f) b).1 = rows) :
    ∃ ev, exec i s = .next (((s.setBlk (Blk.markDone
      { b with progress := s.clock, tiles := insertTile { idx := s.idx, off := 16384 * zw, data := tileBytes rows } b.tiles,
               prov := b.prov ++ ev } s.idx)).modCore s.g.core (fun c => { c with tileFree := s.clock + occupy })).tileDue zw due) := by
  rw [he]
  unfold tileInstr
  simp only [h, (acts_iff _).2 hl, hz, hc, leaveTile_eq, takeArray_setBlk, hr]
  exact ⟨eventAt s.idx (res s.env (b.opnd s.idx f) b).2, rfl⟩

theorem tile_exists (s : State) (z : Nat) : s.tileExists z = true ↔ 16 * (z + 1) ≤ s.team.tileKiB := by simp [State.tileExists]

theorem tiles_exist (s : State) (z w : Nat) :
    (s.tileExists z && s.tileExists w) = true ↔ 16 * (z + 1) ≤ s.team.tileKiB ∧ 16 * (w + 1) ≤ s.team.tileKiB := by
  rw [Bool.and_eq_true, tile_exists, tile_exists]

theorem tiles_missing (s : State) (z w : Nat) :
    (s.tileExists z && s.tileExists w) = false ↔ ¬16 * (z + 1) ≤ s.team.tileKiB ∨ ¬16 * (w + 1) ≤ s.team.tileKiB := by
  rw [← Bool.not_eq_true, tiles_exist, not_and_or]

end

/-! ### Checks of products (R428, R430, R432) -/

section
variable {s : State} {ta tb : Ty} {off soff : Nat}

theorem reduced_iff (s : State) : s.reduced = true ↔ s.pkg.bring = .reduced := by simp [State.reduced]

theorem mmaCheck_low (h : s.pkg.bring = .reduced ∧ ¬(ta = .bf16 ∧ tb = .bf16)) : s.mmaCheck ta tb off soff = some (1, 18) := by
  unfold State.mmaCheck
  refine if_pos ?_
  simp only [(reduced_iff s).2 h.1, Bool.true_and, Bool.not_eq_true', ← Bool.not_eq_true, Bool.and_eq_true, beq_iff_eq]
  exact h.2

theorem mmaCheck_past_low (h : ¬(s.pkg.bring = .reduced ∧ ¬(ta = .bf16 ∧ tb = .bf16))) :
    (s.reduced && !(ta == .bf16 && tb == .bf16)) ≠ true := by
  simpa only [Bool.and_eq_true, reduced_iff, Bool.not_eq_true', ← Bool.not_eq_true, beq_iff_eq, ne_eq] using h

theorem mmaCheck_out (h : ¬(s.pkg.bring = .reduced ∧ ¬(ta = .bf16 ∧ tb = .bf16)))
    (ho : 1024 * s.team.stashKiB < off + 4096 ∨ (ta.isMx = true ∧ 1024 * s.team.stashKiB < soff + 64 * groupCount ta)) :
    s.mmaCheck ta tb off soff = some (1, 19) := by
  unfold State.mmaCheck
  rw [if_neg (mmaCheck_past_low h), Nat.mul_comm _ 1024, if_pos ho]

theorem mmaCheck_odd (h : ¬(s.pkg.bring = .reduced ∧ ¬(ta = .bf16 ∧ tb = .bf16)))
    (ho : ¬(1024 * s.team.stashKiB < off + 4096 ∨ (ta.isMx = true ∧ 1024 * s.team.stashKiB < soff + 64 * groupCount ta)))
    (hm : off % 256 ≠ 0 ∨ (ta.isMx = true ∧ soff % 64 ≠ 0)) : s.mmaCheck ta tb off soff = some (7, 0) := by
  unfold State.mmaCheck
  rw [if_neg (mmaCheck_past_low h), Nat.mul_comm _ 1024, if_neg ho, if_pos hm]

theorem mmaCheck_good (h : ¬(s.pkg.bring = .reduced ∧ ¬(ta = .bf16 ∧ tb = .bf16)))
    (ho : ¬(1024 * s.team.stashKiB < off + 4096 ∨ (ta.isMx = true ∧ 1024 * s.team.stashKiB < soff + 64 * groupCount ta)))
    (hm : ¬(off % 256 ≠ 0 ∨ (ta.isMx = true ∧ soff % 64 ≠ 0))) : s.mmaCheck ta tb off soff = none := by
  unfold State.mmaCheck
  rw [if_neg (mmaCheck_past_low h), Nat.mul_comm _ 1024, if_neg ho, if_neg hm]

end

/-! ### Row reductions (R438) -/

section
variable {mx : Bool} {f : Form} {z : BitVec 4} {s : State} {b : Blk}

theorem exec_rowReduction (mx : Bool) (f : Form) (z : BitVec 4) (s : State) :
    exec (if mx then .trmax f z else .trsum f z) s = rowOp mx f z s := by
  cases mx <;> rfl

theorem row_idle (h : s.blk? = some b) (hl : (b.opnd s.idx f).act &&& (b.opnd s.idx f).pred = 0) :
    Completes (if mx then .trmax f z else .trsum f z) f (12, 13) s b (tokOf .lane (splat 0) (b.opnd s.idx f).nulls) 0 := by
  unfold Completes
  rw [exec_rowReduction]
  unfold rowOp
  simp only [h, hl, Blk.completed, or_no_flags]
  rfl

theorem row_missing (h : s.blk? = some b) (hl : (b.opnd s.idx f).act &&& (b.opnd s.idx f).pred ≠ 0)
    (hz : s.team.tileKiB < 16 * (z.toNat + 1)) :
    Faults (if mx then .trmax f z else .trsum f z) s 1 16 255 ((b.opnd s.idx f).act &&& (b.opnd s.idx f).pred) [] := by
  unfold Faults
  rw [exec_rowReduction]
  unfold rowOp
  have hz' : s.tileExists z.toNat = false := by rw [← Bool.not_eq_true, tile_exists]; omega
  simp only [h, if_neg hl, hz']
  rfl

/-- The entries of a row that a reduction takes: all of them without a source in slot a (R438). -/
def rowCount (s : State) (b : Blk) (row : Nat) : Nat :=
  match b.tok s.idx .a with
  | some t => min 64 ((lane t.vals (row / 2)).toNat / 2 ^ (32 * (row % 2)) % 2 ^ 32)
  | none => 64

theorem rowCount_eq (s : State) (b : Blk) (f : Form) (row : Nat) :
    (if b.hasA s.idx then min 64 (rowHalf (b.opnd s.idx f).a.vals row) else 64) = rowCount s b row := by
  unfold rowCount Blk.hasA
  cases ht : b.tok s.idx .a with
  | none => rfl
  | some t =>
    have ha : (b.opnd s.idx f).a = t := by unfold Blk.opnd; simp [ht]
    rw [rowHalf_eq, ha]
    rfl

/-- The result of a row. -/
def rowValue (mx : Bool) (f : Form) (z : BitVec 4) (s : State) (b : Blk) (row : Nat) : Nat :=
  rowReduce mx f.ty (modeOf f.rm s.env.rmode false) (rowCount s b row) ((s.tileOf b s.idx z.toNat).getD row [])

/-- The results of all the rows, in order. -/
def rowValues (mx : Bool) (f : Form) (z : BitVec 4) (s : State) (b : Blk) : List Nat :=
  ((s.tileOf b s.idx z.toNat).zip (List.range 64)).map fun p => rowReduce mx f.ty (modeOf f.rm s.env.rmode false) (rowCount s b p.2) p.1

theorem getD_rowValues (n : Nat) (hn : n < 64) : (rowValues mx f z s b).getD n 0 = rowValue mx f z s b n := by
  have hl := length_tileOf s b s.idx z.toNat
  unfold rowValues rowValue
  rw [List.getD_eq_getElem _ _ (by simp [hl, hn]), List.getD_eq_getElem _ _ (by rw [hl]; exact hn)]
  simp

theorem lanes_rowValues : (lanes fun l => w64 ((rowValues mx f z s b).getD (2 * l) 0 + 2 ^ 32 * (rowValues mx f z s b).getD (2 * l + 1) 0)) =
    lanes fun l => BitVec.ofNat 64 (rowValue mx f z s b (2 * l) + 2 ^ 32 * rowValue mx f z s b (2 * l + 1)) := by
  refine List.map_congr_left fun l hl => ?_
  rw [List.mem_range] at hl
  rw [getD_rowValues _ (by omega), getD_rowValues _ (by omega)]
  rfl

theorem row_reduced (h : s.blk? = some b) (hl : (b.opnd s.idx f).act &&& (b.opnd s.idx f).pred ≠ 0)
    (hz : 16 * (z.toNat + 1) ≤ s.team.tileKiB) :
    ∃ ev, exec (if mx then .trmax f z else .trsum f z) s = .next ((s.setBlk (Blk.completed { b with prov := b.prov ++ ev } s.clock s.idx f
      (s.clock + if s.twoPass then 13 else 12) (tokOf .lane (lanes fun l =>
        BitVec.ofNat 64 (rowValue mx f z s b (2 * l) + 2 ^ 32 * rowValue mx f z s b (2 * l + 1))) (b.opnd s.idx f).nulls) 0)).modCore s.g.core
      fun c => { c with tileFree := s.clock + 4 }) := by
  rw [exec_rowReduction, ← lanes_rowValues]
  unfold rowOp
  simp only [h, if_neg hl, (tile_exists s z.toNat).2 hz, rowCount_eq, takeArray_setBlk]
  generalize firstSome (_ : Nat → List Nat × Nat → Option Nat) 0 _ = ev
  cases ev with
  | none =>
    refine ⟨[], ?_⟩
    simp only [List.append_nil, Blk.completed, or_no_flags]
    rfl
  | some e =>
    refine ⟨[(s.idx, e)], ?_⟩
    simp only [Blk.completed, or_no_flags]
    rfl

end

/-! ### The instructions as uses of `tileInstr` -/

section
variable (dist : Bool) (f : Form) (a : MmaArg) (zs zd : BitVec 4) (k1 : BitVec 5) (largest : Bool) (s : State) (b : Blk)

/-- The tile that a product leaves. -/
def productOf (o : Opnd) (b : Blk) : List (List Nat) × Option Nat :=
  mmaResult dist f.ty a.bfmt a.zero a.z.toNat (s.g.fragBytes a.vb.toNat 16) (if f.ty.isMx then s.g.fragBytes (a.vb.toNat + 16) 1 else [])
    (stRead s.team.stash (lane o.a.vals 0).toNat 4096)
    (if f.ty.isMx then stRead s.team.stash (lane o.b.vals 0).toNat (64 * groupCount f.ty) else []) (s.tileOf b s.idx a.z.toNat)

theorem exec_product : exec (if dist then .tdist f a else .tmma f a) s = tileInstr f a.z.toNat a.z.toNat 16 24
    (fun o => s.mmaCheck f.ty a.bfmt (lane o.a.vals 0).toNat (lane o.b.vals 0).toNat) (fun _ o b => productOf dist f a s o b) s := by
  cases dist
  · exact exec_tmma f a s
  · exact exec_tdist f a s

theorem exec_top : exec (.ttopk f zs zd k1 largest) s = tileInstr f zs.toNat zd.toNat 8 20 (fun _ => none)
    (fun _ _ b => topResult f.ty largest (k1.toNat + 1) zs.toNat (s.tileOf b s.idx zs.toNat)) s := exec_ttopk f zs zd k1 largest s

/-- The scale of a row: none where its lane does not act (R439). -/
def rowScale (o : Opnd) (i : Nat) : Option Nat := if o.live.getLsbD (i / 2) then some (rowHalf o.a.vals i) else none

theorem exec_scale : exec (.trscl f zd) s = tileInstr f zd.toNat zd.toNat 4 12 (fun _ => none)
    (fun v o b => sclResult (modeOf f.rm v.rmode false) zd.toNat (rowScale o) (s.tileOf b s.idx zd.toNat)) s := exec_trscl f zd s

theorem sclResult_rows (mode z : Nat) (o : Opnd) (rows : List (List Nat)) (h : rows.length = 64) :
    (sclResult mode z (rowScale o) rows).1 = rows.mapIdx fun i row => if o.live.getLsbD (i / 2) then row.map (fun x =>
      (fpMul .f32 ⟨mode, 0⟩ x ((lane o.a.vals (i / 2)).toNat / 2 ^ (32 * (i % 2)) % 2 ^ 32)).1) else row := by
  rw [← map_zip_range _ _ h]
  refine List.map_congr_left fun p _ => ?_
  unfold rowScale
  cases hl : o.live.getLsbD (p.2 / 2) with
  | false => rfl
  | true => simp only [if_true, rowHalf_eq]

end

/-- Settles O30: every instruction of the array is `tileInstr` or `rowOp`. -/
theorem tileInstructions : Obligations.TileInstructions := by
  refine ⟨fun f a zs zd k1 largest s b h => ⟨fun hl i hi => ?_, fun hl => ⟨fun hz dist => ?_, fun hz dist => ⟨fun hg => ?_, fun hg ho => ?_,
    fun hg ho hm => ?_, fun hg ho hm => ?_⟩, fun hz => ?_, fun h1 h2 => ?_, fun hz => ?_, fun hz => ?_⟩⟩,
    fun f z mx s b h => ⟨row_idle h, row_missing h, fun hl hz => ⟨length_tileOf _ _ _ _, row_reduced h hl hz⟩⟩⟩
  · simp only [List.mem_cons, List.not_mem_nil, or_false] at hi
    rcases hi with rfl | rfl | rfl | rfl
    · exact tile_idle h (exec_product false f a s) hl
    · exact tile_idle h (exec_product true f a s) hl
    · exact tile_idle h (exec_top f zs zd k1 largest s) hl
    · exact tile_idle h (exec_scale f zd s) hl
  · exact tile_missing h (exec_product dist f a s) hl ((tiles_missing s _ _).2 (.inl hz))
  · exact tile_refused h (exec_product dist f a s) hl ((tiles_exist s _ _).2 ⟨hz, hz⟩) (mmaCheck_low hg)
  · exact tile_refused h (exec_product dist f a s) hl ((tiles_exist s _ _).2 ⟨hz, hz⟩) (mmaCheck_out hg ho)
  · exact tile_refused h (exec_product dist f a s) hl ((tiles_exist s _ _).2 ⟨hz, hz⟩) (mmaCheck_odd hg ho hm)
  · exact tile_left h (exec_product dist f a s) hl ((tiles_exist s _ _).2 ⟨hz, hz⟩) (mmaCheck_good hg ho hm) rfl
  · exact tile_missing h (exec_top f zs zd k1 largest s) hl ((tiles_missing s _ _).2 hz)
  · exact tile_left h (exec_top f zs zd k1 largest s) hl ((tiles_exist s _ _).2 ⟨h1, h2⟩) rfl rfl
  · exact tile_missing h (exec_scale f zd s) hl ((tiles_missing s _ _).2 (.inl hz))
  · exact tile_left h (exec_scale f zd s) hl ((tiles_exist s _ _).2 ⟨hz, hz⟩) rfl
      (sclResult_rows _ _ _ _ (length_tileOf _ _ _ _))

/-! ### The tile queue's and the engines' instructions -/

section
variable {f : Form} {s : State} {b : Blk} {i : Instr}

/-- `queueInstr`: a departure behind the checks of the tile and the operands (R440). -/
theorem queue_checked {z : Nat} {bad : Opnd → Bool} {p : Prop} (h : s.blk? = some b) (he : exec i s = queueInstr f i z bad s)
    (hb : bad (b.opnd s.idx f) = true ↔ p) :
    ((b.opnd s.idx f).live = 0 ∨ (16 * (z + 1) ≤ s.team.tileKiB ∧ ¬p) → Departs i f s b) ∧
    ((b.opnd s.idx f).live ≠ 0 → ¬16 * (z + 1) ≤ s.team.tileKiB → Faults i s 1 16 255 (b.opnd s.idx f).live []) ∧
    ((b.opnd s.idx f).live ≠ 0 → 16 * (z + 1) ≤ s.team.tileKiB → p → Faults i s 1 19 255 (b.opnd s.idx f).live []) := by
  refine ⟨fun ho => departs_checked _ h he ?_, fun hl hz => checked_faults _ h he ?_, fun hl hz hp => checked_faults _ h he ?_⟩
  · by_cases hl : (b.opnd s.idx f).live = 0
    · simp only [(acts_false_iff _).2 hl, Bool.not_false, if_true]
    · obtain ⟨hz, hp⟩ := ho.resolve_left hl
      simp only [(acts_iff _).2 hl, (tile_exists s z).2 hz, mt hb.1 hp, Bool.not_true, Bool.false_eq_true, if_false]
  · simp only [(acts_iff _).2 hl, mt (tile_exists s z).1 hz, Bool.not_true, Bool.false_eq_true, if_false, Bool.not_false, if_true]
  · simp only [(acts_iff _).2 hl, (tile_exists s z).2 hz, hb.2 hp, Bool.not_true, Bool.false_eq_true, if_false, if_true]

theorem pitchBad_iff (off p size : Nat) : s.pitchBad off p size = true ↔
    off % 16 ≠ 0 ∨ (if p = 0 then size else p) % 16 ≠ 0 ∨ (if p = 0 then size else p) < size ∨
      1024 * s.team.stashKiB < off + 63 * (if p = 0 then size else p) + size := by
  unfold State.pitchBad pitchOf
  simp only [Bool.or_eq_true, bne_iff_ne, decide_eq_true_eq, or_assoc, Nat.mul_comm _ 1024]

/-- `sendDescriptor`: a departure behind the checks of the descriptor (R445, R453). -/
theorem descriptor_checked {size align : Nat} (h : s.blk? = some b) (he : exec i s = sendDescriptor f i size align s) :
    ((b.opnd s.idx f).live = 0 ∨ ((lane (b.opnd s.idx f).a.vals 0).toNat + size ≤ 1024 * s.team.stashKiB ∧
        (lane (b.opnd s.idx f).a.vals 0).toNat % align = 0) → Departs i f s b) ∧
    ((b.opnd s.idx f).live ≠ 0 → 1024 * s.team.stashKiB < (lane (b.opnd s.idx f).a.vals 0).toNat + size →
      Faults i s 1 19 255 (b.opnd s.idx f).live []) ∧
    ((b.opnd s.idx f).live ≠ 0 → (lane (b.opnd s.idx f).a.vals 0).toNat + size ≤ 1024 * s.team.stashKiB →
      (lane (b.opnd s.idx f).a.vals 0).toNat % align ≠ 0 → Faults i s 7 0 255 (b.opnd s.idx f).live []) := by
  refine ⟨fun ho => departs_checked _ h he ?_, fun hl hr => checked_faults _ h he ?_, fun hl hr hm => checked_faults _ h he ?_⟩
  · by_cases hl : (b.opnd s.idx f).live = 0
    · simp only [(acts_false_iff _).2 hl, Bool.not_false, if_true]
    · obtain ⟨hr, hm⟩ := ho.resolve_left hl
      simp only [(acts_iff _).2 hl, Nat.mul_comm _ 1024, Nat.not_lt.2 hr, hm, Bool.not_true, Bool.false_eq_true, if_false, ne_eq,
        not_true_eq_false]
  · simp only [(acts_iff _).2 hl, Nat.mul_comm _ 1024, hr, Bool.not_true, Bool.false_eq_true, if_false, if_true]
  · simp only [(acts_iff _).2 hl, Nat.mul_comm _ 1024, Nat.not_lt.2 hr, hm, Bool.not_true, Bool.false_eq_true, if_false, ne_eq,
      not_false_eq_true, if_true]

end

/-- Settles O33: departures behind `queueInstr`'s and `sendDescriptor`'s checks. -/
theorem queueAndCopyInstructions : Obligations.QueueAndCopyInstructions := by
  refine ⟨fun f z tr src s b h p hp => ?_, fun f p e fn s b h x hx => ?_⟩
  · simp only [List.mem_cons, List.not_mem_nil, or_false] at hp
    rcases hp with rfl | rfl | rfl | rfl
    · exact queue_checked h (exec_tld f z s) (pitchBad_iff _ _ _)
    · exact queue_checked h (exec_tst f z s) (pitchBad_iff _ _ _)
    · exact queue_checked h (exec_tclr f z s) (by simp)
    · refine queue_checked h (exec_tcvt f z tr src s) ?_
      rw [Bool.or_eq_true, pitchBad_iff, Bool.and_eq_true, decide_eq_true_eq, Nat.mul_comm s.team.stashKiB 1024]
  · simp only [List.mem_cons, List.not_mem_nil, or_false] at hx
    rcases hx with rfl | rfl | rfl | rfl | rfl | rfl | rfl | rfl | rfl
    · exact descriptor_checked h (exec_cpy f p s)
    · exact descriptor_checked h (exec_cpyg f p s)
    · exact descriptor_checked h (exec_cpyx f p s)
    · exact descriptor_checked h (exec_cfill f p s)
    · exact descriptor_checked h (exec_pfill f s)
    · exact descriptor_checked h (exec_pcopy f s)
    · exact descriptor_checked h (exec_pcmp f s)
    · exact descriptor_checked h (exec_predx f e fn s)
    · exact descriptor_checked h (exec_pgath f e fn s)

end Sys2Proof.Proofs
end

section
/-! PROOFS. Selection of a row's first entries (spec/15 R437): the rank is a linear order of keys, and the row is sorted by insertion. -/

namespace Sys2Proof.Proofs
open Sys2Proof.Machine Sys2Proof.Laws.Shapes

/-! ### Exact values in order -/

/-- The rational value of a number. -/
def ratOf (n : Bool) (m : Nat) (e : Int) : ℚ := (if n then -1 else 1) * (m : ℚ) * (2 : ℚ) ^ e

/-- Values other than NaN in the order of R437: infinities outside the numbers, -0 below +0. -/
def fKey : FVal → ℤ ×ₗ (ℚ ×ₗ ℤ)
  | .num n m e => toLex (0, toLex (ratOf n m e, if n then 0 else 1))
  | .inf n => toLex (if n then -1 else 1, toLex (0, 0))
  | .nan _ => toLex (0, toLex (0, 0))

theorem scaled_rat {e q : Int} (n : Bool) (m : Nat) (h : q ≤ e) : ((scaled n m e q : Int) : ℚ) = ratOf n m e * (2 : ℚ) ^ (-q) := by
  have hp : ((2 : ℚ) ^ (e - q).toNat) = (2 : ℚ) ^ e * (2 : ℚ) ^ (-q) := by
    rw [← zpow_natCast, Int.toNat_of_nonneg (by omega), ← zpow_add₀ (by norm_num), sub_eq_add_neg]
  rw [scaled_eq, ratOf]
  push_cast
  rw [hp]
  ring

theorem scaled_lt {n n' : Bool} {m m' : Nat} {e e' q : Int} (h : q ≤ e) (h' : q ≤ e') :
    scaled n m e q < scaled n' m' e' q ↔ ratOf n m e < ratOf n' m' e' := by
  rw [← Int.cast_lt (R := ℚ), scaled_rat n m h, scaled_rat n' m' h']
  exact mul_lt_mul_iff_left₀ (by positivity)

theorem fOrder_rat (n n' : Bool) (m m' : Nat) (e e' : Int) : fOrder (.num n m e) (.num n' m' e') =
    if ratOf n m e < ratOf n' m' e' then -1 else if ratOf n' m' e' < ratOf n m e then 1 else 0 := by
  have h := min_le_left e e'
  have h' := min_le_right e e'
  rw [fOrder_num h h']
  simp only [scaled_lt h h', scaled_lt h' h]

/-- The comparison of R437: by value, then -0 below +0. -/
def fRank (a b : FVal) : Int :=
  if fOrder a b ≠ 0 then fOrder a b else if a.neg && !b.neg then -1 else if !a.neg && b.neg then 1 else 0

theorem fKey_lt_num {n n' : Bool} {m m' : Nat} {e e' : Int} : fKey (.num n m e) < fKey (.num n' m' e') ↔
    ratOf n m e < ratOf n' m' e' ∨ ratOf n m e = ratOf n' m' e' ∧ n = true ∧ n' = false := by
  unfold fKey
  rw [Prod.Lex.toLex_lt_toLex]
  simp only [lt_self_iff_false, false_or, true_and, Prod.Lex.toLex_lt_toLex]
  cases n <;> cases n' <;> simp

/-- The comparison is that of the keys. -/
theorem fRank_eq {a b : FVal} (ha : a.isNan = false) (hb : b.isNan = false) :
    fRank a b = if fKey a < fKey b then -1 else if fKey b < fKey a then 1 else 0 := by
  cases a with
  | nan _ => cases ha
  | inf n =>
    cases b with
    | nan _ => cases hb
    | inf n' => cases n <;> cases n' <;> decide
    | num n' m' e' => cases n <;> simp [fRank, fOrder, fKey, Prod.Lex.toLex_lt_toLex]
  | num n m e =>
    cases b with
    | nan _ => cases hb
    | inf n' => cases n' <;> simp [fRank, fOrder, fKey, Prod.Lex.toLex_lt_toLex]
    | num n' m' e' =>
      simp only [fRank, fOrder_rat, fKey_lt_num, FVal.neg]
      rcases lt_trichotomy (ratOf n m e) (ratOf n' m' e') with h | h | h
      · simp [h]
      · cases n <;> cases n' <;> simp [h]
      · simp [h, h.not_gt, h.ne']

/-- A key above which NaN stands: NaN ranks behind every number. -/
def nanLast {κ : Type} (g : FVal → κ) (v : FVal) : WithTop κ := if v.isNan then ⊤ else ↑(g v)

theorem nanLast_lt {κ : Type} [LinearOrder κ] (g : FVal → κ) (v w : FVal) :
    nanLast g v < nanLast g w ↔ v.isNan = false ∧ (w.isNan = true ∨ g v < g w) := by
  unfold nanLast
  cases v.isNan <;> cases w.isNan <;> simp

theorem ranksBefore_float {t : Ty} (ht : t ≠ .i32) (largest : Bool) (x y : Nat) : ranksBefore t largest x y = true ↔
    (fIn .f32 x).isNan = false ∧ ((fIn .f32 y).isNan = true ∨
      if largest then fKey (fIn .f32 y) < fKey (fIn .f32 x) else fKey (fIn .f32 x) < fKey (fIn .f32 y)) := by
  have hr : ranksBefore t largest x y = if (fIn .f32 x).isNan then false else if (fIn .f32 y).isNan then true
      else if largest then fRank (fIn .f32 x) (fIn .f32 y) == 1 else fRank (fIn .f32 x) (fIn .f32 y) == -1 := if_neg ht
  rw [hr]
  cases hx : (fIn .f32 x).isNan with
  | true => simp
  | false =>
    cases hy : (fIn .f32 y).isNan with
    | true => simp
    | false =>
      rw [fRank_eq hx hy]
      rcases lt_trichotomy (fKey (fIn .f32 x)) (fKey (fIn .f32 y)) with h | h | h <;> cases largest <;> simp [h, h.le]

/-- The rank of an entry is the order of a key. -/
theorem ranksBefore_key (t : Ty) (largest : Bool) : ∃ (κ : Type) (_ : LinearOrder κ) (K : Nat → κ),
    ∀ x y, ranksBefore t largest x y = true ↔ K x < K y := by
  by_cases ht : t = .i32
  · cases largest with
    | false => exact ⟨ℤ, inferInstance, fun x => ext .i32 (w64 x), fun x y => by simp [ranksBefore, ht]⟩
    | true => exact ⟨ℤᵒᵈ, inferInstance, fun x => OrderDual.toDual (ext .i32 (w64 x)), fun x y => by simp [ranksBefore, ht]⟩
  · cases largest with
    | false =>
      refine ⟨WithTop (ℤ ×ₗ (ℚ ×ₗ ℤ)), inferInstance, fun x => nanLast fKey (fIn .f32 x), fun x y => ?_⟩
      rw [ranksBefore_float ht, nanLast_lt]
      rfl
    | true =>
      refine ⟨WithTop (ℤ ×ₗ (ℚ ×ₗ ℤ))ᵒᵈ, inferInstance, fun x => nanLast (OrderDual.toDual ∘ fKey) (fIn .f32 x), fun x y => ?_⟩
      rw [ranksBefore_float ht, nanLast_lt]
      rfl

/-! ### Insertion in rank order -/

section
variable {t : Ty} {largest : Bool} {κ : Type} [LinearOrder κ] {K : Nat → κ}

/-- Entries (value, column) in the order of their keys, equal ones by column. -/
def Precedes (K : Nat → κ) (p q : Nat × Nat) : Prop := K p.1 < K q.1 ∨ K p.1 = K q.1 ∧ p.2 < q.2

theorem Precedes.le {p q : Nat × Nat} (h : Precedes K p q) : K p.1 ≤ K q.1 := h.elim (·.le) (·.1.le)

theorem rankInsert_perm (x : Nat × Nat) (l : List (Nat × Nat)) : (rankInsert t largest x l).Perm (x :: l) := by
  induction l with
  | nil => exact List.Perm.refl _
  | cons y r ih =>
    unfold rankInsert
    split
    · exact List.Perm.refl _
    · exact (ih.cons y).trans (List.Perm.swap x y r)

variable (hK : ∀ x y, ranksBefore t largest x y = true ↔ K x < K y)
include hK

/-- An entry of a later column enters in order. -/
theorem rankInsert_ordered {x : Nat × Nat} {l : List (Nat × Nat)} (h : l.Pairwise (Precedes K)) (hx : ∀ y ∈ l, y.2 < x.2) :
    (rankInsert t largest x l).Pairwise (Precedes K) := by
  induction l with
  | nil => exact List.pairwise_singleton _ _
  | cons y r ih =>
    obtain ⟨hy, hr⟩ := List.pairwise_cons.1 h
    unfold rankInsert
    split
    next hb =>
      rw [hK] at hb
      refine List.pairwise_cons.2 ⟨fun z hz => .inl ?_, h⟩
      rcases List.mem_cons.1 hz with rfl | hz
      · exact hb
      · exact hb.trans_le (hy z hz).le
    next hb =>
      rw [hK, not_lt] at hb
      refine List.pairwise_cons.2 ⟨fun z hz => ?_, ih hr fun z hz => hx z (List.mem_cons_of_mem _ hz)⟩
      rcases List.mem_cons.1 ((rankInsert_perm x r).mem_iff.1 hz) with rfl | hz
      · exact hb.lt_or_eq.imp_right fun he => ⟨he, hx y List.mem_cons_self⟩
      · exact hy z hz

/-- Entries inserted in column order give the sorted row. -/
theorem foldl_rankInsert (l a : List (Nat × Nat)) (ha : a.Pairwise (Precedes K)) (hl : l.Pairwise fun p q => p.2 < q.2)
    (hal : ∀ p ∈ a, ∀ q ∈ l, p.2 < q.2) :
    (l.foldl (fun a x => rankInsert t largest x a) a).Pairwise (Precedes K) ∧
    (l.foldl (fun a x => rankInsert t largest x a) a).Perm (l ++ a) := by
  induction l generalizing a with
  | nil => exact ⟨ha, List.Perm.refl _⟩
  | cons x r ih =>
    obtain ⟨hx, hr⟩ := List.pairwise_cons.1 hl
    have hp := rankInsert_perm (t := t) (largest := largest) x a
    obtain ⟨h1, h2⟩ := ih (rankInsert t largest x a) (rankInsert_ordered hK ha fun y hy => hal y hy x List.mem_cons_self) hr
      fun p hm q hq => by
        rcases List.mem_cons.1 (hp.mem_iff.1 hm) with rfl | hm
        · exact hx q hq
        · exact hal p hm q (List.mem_cons_of_mem _ hq)
    exact ⟨h1, h2.trans ((hp.append_left r).trans List.perm_middle)⟩

end

/-- The entries of a row with their columns. -/
def entriesOf (row : List Nat) : List (Nat × Nat) := row.zip (List.range 64)

/-- The entries of a row in rank order. -/
def rankedRow (t : Ty) (largest : Bool) (row : List Nat) : List (Nat × Nat) :=
  (entriesOf row).foldl (fun a x => rankInsert t largest x a) []

theorem entriesOf_columns (row : List Nat) : (entriesOf row).Pairwise fun p q => p.2 < q.2 := by
  unfold entriesOf
  rw [List.pairwise_iff_getElem]
  intro i j hi hj hij
  simpa using hij

theorem mem_entriesOf {row : List Nat} (h : row.length = 64) (p : Nat × Nat) :
    p ∈ entriesOf row ↔ p.2 < 64 ∧ p.1 = row.getD p.2 0 := by
  unfold entriesOf
  rw [List.mem_iff_getElem]
  constructor
  · rintro ⟨i, hi, rfl⟩
    simp only [List.length_zip, List.length_range, h, min_self] at hi
    simp [hi, h]
  · rintro ⟨h1, h2⟩
    refine ⟨p.2, by simp [h, h1], ?_⟩
    rw [List.getD_eq_getElem _ _ (by omega)] at h2
    simp [h2.symm]

section
variable {t : Ty} {largest : Bool} {row : List Nat} {k : Nat}

/-- A list of at most 32 filled up with zeros. -/
theorem getD_pad {l : List Nat} {j : Nat} : (l ++ List.replicate (32 - l.length) 0).getD j 0 = l.getD j 0 := by
  simp only [List.getD_eq_getElem?_getD, List.getElem?_append, List.getElem?_replicate]
  split
  · rfl
  · rw [List.getElem?_eq_none (by omega)]
    split <;> rfl

theorem length_pad {l : List Nat} (h : l.length ≤ 32) : (l ++ List.replicate (32 - l.length) 0).length = 32 := by
  rw [List.length_append, List.length_replicate]
  omega

variable (hk : k ≤ 32)
include hk

theorem length_topRow : (topRow t largest k row).length = 64 := by
  unfold topRow
  rw [List.length_append, length_pad, length_pad] <;> simp <;> omega

theorem topRow_value {j : Nat} (hj : j < 32) :
    (topRow t largest k row).getD j 0 = (((rankedRow t largest row).take k).map (·.1)).getD j 0 := by
  unfold topRow
  rw [List.getD_append _ _ _ _ (by rw [length_pad (by simp; omega)]; exact hj), getD_pad]
  rfl

theorem topRow_column {j : Nat} :
    (topRow t largest k row).getD (32 + j) 0 = (((rankedRow t largest row).take k).map (·.2)).getD j 0 := by
  have hl (l : List (Nat × Nat)) : ((l.take k).map Prod.fst ++ List.replicate (32 - ((l.take k).map Prod.fst).length) 0).length = 32 :=
    length_pad (by rw [List.length_map, List.length_take]; omega)
  unfold topRow
  rw [List.getD_append_right _ _ _ _ (by rw [hl]; omega), hl, Nat.add_sub_cancel_left, getD_pad]
  rfl

end

/-- Settles O32: the row sorted by insertion, cut after k entries. -/
theorem topEntries : Obligations.TopEntries := by
  intro t largest k row _ hr _ hk
  obtain ⟨κ, _, K, hK⟩ := ranksBefore_key t largest
  obtain ⟨hs, hp⟩ := foldl_rankInsert hK (entriesOf row) [] .nil (entriesOf_columns row) (by simp)
  change (rankedRow t largest row).Pairwise _ at hs
  change (rankedRow t largest row).Perm _ at hp
  rw [List.append_nil] at hp
  have hL : (rankedRow t largest row).length = 64 := by rw [hp.length_eq]; simp [entriesOf, hr]
  have hn (x y : Nat) : ranksBefore t largest x y = false ↔ K y ≤ K x := by rw [← Bool.not_eq_true, hK, not_lt]
  have hval (j : Nat) (hj : j < k) : (topRow t largest k row).getD j 0 = ((rankedRow t largest row)[j]'(by omega)).1 := by
    rw [topRow_value hk (by omega), List.getD_eq_getElem _ _ (by simp; omega)]
    simp
  have hcol (j : Nat) (hj : j < k) : (topRow t largest k row).getD (32 + j) 0 = ((rankedRow t largest row)[j]'(by omega)).2 := by
    rw [topRow_column hk, List.getD_eq_getElem _ _ (by simp; omega)]
    simp
  refine ⟨length_topRow hk, fun j h1 h2 => ⟨?_, ?_⟩, fun j hj => ?_, fun i j hij hj => ?_, fun c hc hout j hj => ?_⟩
  · beta_reduce
    rw [topRow_value hk h2]
    exact List.getD_eq_default _ _ (by simp; omega)
  · beta_reduce
    rw [topRow_column hk]
    exact List.getD_eq_default _ _ (by simp; omega)
  · beta_reduce
    rw [hval j hj, hcol j hj]
    exact (mem_entriesOf hr _).1 (hp.mem_iff.1 (List.getElem_mem _))
  · beta_reduce
    rw [hval j hj, hval i (by omega), hcol j hj, hcol i (by omega)]
    have h := List.pairwise_iff_getElem.1 hs i j (by omega) (by omega) hij
    rw [hn, hn]
    exact ⟨h.le, fun he => h.elim (fun hlt => absurd he hlt.not_ge) (·.2)⟩
  · beta_reduce
    rw [hval j hj, hn]
    obtain ⟨i, hi, he⟩ := List.mem_iff_getElem.1 (hp.mem_iff.2 ((mem_entriesOf hr (row.getD c 0, c)).2 ⟨hc, rfl⟩))
    have hik : k ≤ i := by
      by_contra hlt
      exact hout i (by omega) ((hcol i (by omega)).trans (congrArg Prod.snd he))
    have h := (List.pairwise_iff_getElem.1 hs j i (by omega) hi (by omega)).le
    rwa [he] at h

end Sys2Proof.Proofs
end

section
/-! PROOFS. One element of a tile product (spec/15 R434): a format with no k-group. -/

namespace Sys2Proof.Proofs
open Sys2Proof.Machine

/-- A tile of ones. -/
def onesTile : List (List Nat) := List.replicate 64 (List.replicate 64 1)

/-- A 64-byte row of 32-bit elements holds no k-group: nothing is summed, and the model leaves zero where the statement, which asks for
no format of R430, keeps the old element. -/
theorem f32_product_zero :
    (((mmaResult false .f32 .f32 false 0 (List.replicate 4096 0) [] (List.replicate 4096 0) [] onesTile).1.getD 0 []).getD 0 0) = 0 := by
  decide +kernel

/-- Refutes O31: with `f32` operands there is no k-group; the statement keeps the accumulator's 1, the model's element is 0. -/
theorem not_tileProducts : ¬ Obligations.TileProducts := by
  intro h
  obtain ⟨-, -, -, hf⟩ := h false .f32 .f32 false 0 (List.replicate 4096 0) [] (List.replicate 4096 0) [] onesTile 0 0
    List.length_replicate List.length_replicate List.length_replicate (fun r hr => by rw [List.eq_of_mem_replicate hr]; rfl)
    (by decide) (by decide) rfl rfl rfl
  have h1 : (0 : Nat) = 1 := f32_product_zero.symm.trans (hf (by decide) rfl rfl)
  exact absurd h1 (by decide)

end Sys2Proof.Proofs
end

section
/-! PROOFS. Exact accumulators in tile memory (spec/13 R389 to R392). -/

namespace Sys2Proof.Proofs
open Sys2Proof.Machine Sys2Proof.Laws.Shapes

/-! ### Records laid over bytes -/

theorem length_patch (r : TileRec) (off : Nat) (base : List Byte) : (r.patch off base).length = base.length := by
  unfold TileRec.patch
  simp only
  split
  · simp only [List.length_append, List.length_take, List.length_drop]
    omega
  · rfl

/-- A record that covers the bytes replaces them. -/
theorem patch_same {r : TileRec} {off : Nat} {base : List Byte} (ho : r.off = off) (hl : r.data.length = base.length) :
    r.patch off base = r.data := by
  unfold TileRec.patch
  rw [ho, hl]
  simp only [max_self, min_self, Nat.sub_self, List.take_zero, List.nil_append, List.drop_zero, Nat.add_sub_cancel_left]
  split
  · rw [List.drop_length, List.append_nil, ← hl, List.take_length]
  · rw [List.eq_nil_of_length_eq_zero (by omega : base.length = 0), List.eq_nil_of_length_eq_zero (by omega : r.data.length = 0)]

/-- A record of other bytes leaves them alone. -/
theorem patch_apart {r : TileRec} {off : Nat} {base : List Byte} (h : off + base.length ≤ r.off ∨ r.off + r.data.length ≤ off) :
    r.patch off base = base := by
  unfold TileRec.patch
  exact if_neg (by omega)

theorem length_memoryRead (t : Table Byte) (a n : Nat) : (memRead t a n).length = n := by rw [memRead_eq_map]; simp

theorem length_tileView (s : State) (b : Blk) (idx off n : Nat) : (s.tileView b idx off n).length = n := by
  unfold State.tileView
  refine List.foldlRecOn (motive := fun l : List Byte => l.length = n) _ _ (length_memoryRead _ _ _) fun l hl r _ => ?_
  rw [length_patch, hl]

theorem insertTile_last (r : TileRec) (l : List TileRec) (h : ∀ x ∈ l, x.idx ≤ r.idx) : insertTile r l = l ++ [r] := by
  induction l with
  | nil => rfl
  | cons x xs ih =>
    rw [insertTile, if_neg (Nat.not_lt.2 (h x List.mem_cons_self)), ih fun y hy => h y (List.mem_cons_of_mem _ hy), List.cons_append]

theorem insertInval_last (r : Nat × Nat × Mask) (l : List (Nat × Nat × Mask)) (h : ∀ x ∈ l, x.1 ≤ r.1) : insertInval r l = l ++ [r] := by
  induction l with
  | nil => rfl
  | cons x xs ih =>
    rw [insertInval, if_neg (Nat.not_lt.2 (h x List.mem_cons_self)), ih fun y hy => h y (List.mem_cons_of_mem _ hy), List.cons_append]

/-! ### The lanes' new values as records -/

/-- The record of a lane's new value. -/
def laneRec (idx base l : Nat) (v : Int) : TileRec := { idx := idx, off := base + 544 * l, data := accBytesOf v }

/-- The records of an instruction's lanes, in order. -/
def laneRecs (idx base : Nat) (g : Nat → Option Int) (ls : List Nat) : List TileRec :=
  ls.filterMap fun l => (g l).map (laneRec idx base l)

theorem laneRecs_idx {idx base : Nat} {g : Nat → Option Int} {ls : List Nat} {r : TileRec} (h : r ∈ laneRecs idx base g ls) : r.idx = idx := by
  simp only [laneRecs, List.mem_filterMap, Option.map_eq_some_iff] at h
  obtain ⟨l, -, v, -, rfl⟩ := h
  rfl

/-- Records inserted behind those of lower indices stand at the end. -/
theorem insert_laneRecs (idx base : Nat) (g : Nat → Option Int) (ls : List Nat) (ts : List TileRec) (h : ∀ x ∈ ts, x.idx ≤ idx) :
    ls.foldl (fun ts l => match g l with | some v => insertTile (laneRec idx base l v) ts | none => ts) ts = ts ++ laneRecs idx base g ls := by
  induction ls generalizing ts with
  | nil => exact (List.append_nil ts).symm
  | cons l r ih =>
    rw [List.foldl_cons, laneRecs, List.filterMap_cons]
    cases hg : g l with
    | none => exact ih ts h
    | some v =>
      simp only [Option.map_some]
      rw [insertTile_last _ _ h, ih _ fun x hx => ?_]
      · rw [List.append_assoc]
        rfl
      · rcases List.mem_append.1 hx with hx | hx
        · exact h x hx
        · rw [List.mem_singleton.1 hx]
          exact le_rfl

/-- What a lane's 544 bytes read as after the records of an instruction. -/
theorem patch_laneRecs (idx base : Nat) (g : Nat → Option Int) (ls : List Nat) (l : Nat) (x : List Byte) (hx : x.length = 544) :
    (laneRecs idx base g ls).foldl (fun a r => r.patch (base + 544 * l) a) x = if l ∈ ls then ((g l).map accBytesOf).getD x else x := by
  induction ls generalizing x with
  | nil => simp [laneRecs]
  | cons k r ih =>
    have hlen (v : Int) : (accBytesOf v).length = 544 := length_bytesOf _ _
    rw [laneRecs, List.filterMap_cons]
    cases hg : g k with
    | none =>
      refine (ih x hx).trans ?_
      by_cases hk : l = k
      · subst hk; simp [hg]
      · simp [hk]
    | some v =>
      simp only [Option.map_some, List.foldl_cons]
      by_cases hk : l = k
      · subst hk
        rw [patch_same (r := laneRec idx base l v) (off := base + 544 * l) rfl ((hlen v).trans hx.symm)]
        refine (ih _ (hlen v)).trans ?_
        simp [hg]
      · rw [patch_apart (by simp only [laneRec, hlen, hx]; omega)]
        refine (ih x hx).trans ?_
        simp [hk]

/-! ### Instructions that change an accumulator -/

/-- Bytes of tile memory from the end down to the base of accumulator j (R192, R389). -/
def accNeed (s : State) (j : Nat) : Nat := 17408 * (4 * s.g.index + j + 1)

/-- The base of accumulator j. -/
def accAt (s : State) (j : Nat) : Nat := 1024 * s.team.tileKiB - accNeed s j

section
variable {f : Form} {j : Nat} {s : State} {b : Blk} {i : Instr} {new : Opnd → Nat → Int → Option Int × BitVec 5} {clears : Bool}

theorem accBase_some (h : accNeed s j ≤ 1024 * s.team.tileKiB) : s.accBase j = some (accAt s j) := by
  unfold State.accBase accAt
  rw [Nat.mul_comm _ 1024]
  exact if_pos h

theorem accBase_none (h : 1024 * s.team.tileKiB < accNeed s j) : s.accBase j = none := by
  unfold State.accBase
  rw [Nat.mul_comm _ 1024]
  exact if_neg (Nat.not_le.2 h)

/-- The value in a lane as the block sees it. -/
def accVal (s : State) (b : Blk) (j l : Nat) : Int := accValue (s.tileView b s.idx (accAt s j + 544 * l) 544)

theorem acc_idle (h : s.blk? = some b) (he : exec i s = accUpdate f j new clears s) (hl : (b.opnd s.idx f).live = 0) : Finishes i s b := by
  unfold Finishes
  rw [he]
  unfold accUpdate
  simp only [h, (acts_false_iff _).2 hl]
  rfl

theorem acc_missing (h : s.blk? = some b) (he : exec i s = accUpdate f j new clears s) (hl : (b.opnd s.idx f).live ≠ 0)
    (hn : 1024 * s.team.tileKiB < accNeed s j) : Faults i s 1 16 255 (b.opnd s.idx f).live [] := by
  unfold Faults
  rw [he]
  unfold accUpdate
  simp only [h, (acts_iff _).2 hl, accBase_none hn]
  rfl

/-- What an instruction gives a lane. -/
def accNew (new : Opnd → Nat → Int → Option Int × BitVec 5) (f : Form) (j : Nat) (s : State) (b : Blk) (l : Nat) : Option Int × BitVec 5 :=
  new (b.opnd s.idx f) l (accVal s b j l)

/-- The invalid mask after the instruction (R390). -/
def accInval (new : Opnd → Nat → Int → Option Int × BitVec 5) (clears : Bool) (f : Form) (j : Nat) (s : State) (b : Blk) : Mask :=
  if clears then s.invalView b s.idx j &&& ~~~(b.opnd s.idx f).live
  else s.invalView b s.idx j ||| maskOf fun l => ((lanesOf (b.opnd s.idx f).live).map fun l => (l, accNew new f j s b l)).any fun r =>
    r.1 == l && r.2.1.isNone

/-- The block with the new values recorded. -/
def accStored (new : Opnd → Nat → Int → Option Int × BitVec 5) (f : Form) (j : Nat) (s : State) (b : Blk) : List TileRec :=
  (lanesOf (b.opnd s.idx f).live).foldl (fun ts l => match (accNew new f j s b l).1 with
    | some v => insertTile (laneRec s.idx (accAt s j) l v) ts
    | none => ts) b.tiles

/-- The block with the values of some lanes recorded. -/
def recordLanes (idx base : Nat) (rs : List (Nat × Option Int × BitVec 5)) (b : Blk) : Blk :=
  rs.foldl (fun (b : Blk) r => match r.2.1 with
    | some v => { b with tiles := insertTile { idx := idx, off := base + 544 * r.1, data := accBytesOf v } b.tiles }
    | none => b) b

/-- Recording values changes the records alone. -/
theorem recordLanes_eq (idx base : Nat) (g : Nat → Option Int × BitVec 5) (ls : List Nat) (b : Blk) :
    recordLanes idx base (ls.map fun l => (l, g l)) b =
    { b with tiles := ls.foldl (fun ts l => match (g l).1 with | some v => insertTile (laneRec idx base l v) ts | none => ts) b.tiles } := by
  unfold recordLanes
  induction ls generalizing b with
  | nil => rfl
  | cons l r ih =>
    rw [List.map_cons, List.foldl_cons, List.foldl_cons, ih]
    cases hg : (g l).1 <;> rfl

/-- The block after the instruction. -/
def accBlock (new : Opnd → Nat → Int → Option Int × BitVec 5) (clears : Bool) (f : Form) (j : Nat) (s : State) (b : Blk) : Blk :=
  let rs := (lanesOf (b.opnd s.idx f).live).map fun l => (l, accNew new f j s b l)
  let b1 := recordLanes s.idx (accAt s j) rs b
  Blk.markDone { b1 with
    inval := insertInval (s.idx, j, accInval new clears f j s b) b1.inval, progress := s.clock,
    flags := b1.flags ||| rs.foldl (fun a r => a ||| r.2.2) 0 } s.idx

theorem accUpdate_eq (h : s.blk? = some b) (hl : (b.opnd s.idx f).live ≠ 0) (hn : accNeed s j ≤ 1024 * s.team.tileKiB) :
    accUpdate f j new clears s =
      let s1 := s.setBlk (accBlock new clears f j s b)
      let s2 : State := { s1 with g := { s1.g with accReady := tset s1.g.accReady j (s.clock + s.lat (6, 7)) } }
      .next (s2.modCore s.g.core fun c => c.modQuarter s.g.quarter fun q => { q with accFree := s.clock + s.lat (4, 8) }) := by
  unfold accUpdate
  simp only [h, (acts_iff _).2 hl, accBase_some hn]
  rfl

/-- What a live lane's instruction leaves in the block, and that it leaves the rest of the machine (R390). -/
theorem acc_updated (h : s.blk? = some b) (he : exec i s = accUpdate f j new clears s) (hl : (b.opnd s.idx f).live ≠ 0)
    (hn : accNeed s j ≤ 1024 * s.team.tileKiB) : ∃ t c, exec i s = .next t ∧ t.blk? = some c ∧
      (c.tiles = accStored new f j s b ∧ t.team = s.team) ∧
      (c.inval = insertInval (s.idx, j, accInval new clears f j s b) b.inval ∧ t.g.xinv = s.g.xinv) ∧
      c.flags = b.flags ||| (lanesOf (b.opnd s.idx f).live).foldl (fun a l => a ||| (accNew new f j s b l).2) 0 ∧
      c.done = b.done ||| BitVec.ofNat 96 (2 ^ s.idx) ∧ c.toks = b.toks ∧ t.mem = s.mem ∧ t.teams = s.teams ∧ t.g.regs = s.g.regs := by
  rw [he, accUpdate_eq h hl hn]
  refine ⟨_, _, rfl, setBlk_blk s _, ?_⟩
  unfold accBlock
  simp only [recordLanes_eq, List.foldl_map]
  refine ⟨⟨rfl, ?_⟩, ⟨rfl, ?_⟩, rfl, rfl, rfl, setBlk_mem _ _, setBlk_teams _ _, setBlk_g_regs _ _⟩
  · exact congrArg₂ (fun ts n => tget ts n {}) (setBlk_teams s _) (setBlk_g_of s _ (·.team) fun _ => rfl)
  · exact setBlk_g_of s _ (·.xinv) fun _ => rfl

/-- The bytes that the next instruction sees. -/
theorem accStored_view {t : State} {c : Blk} (hc : c.tiles = accStored new f j s b) (ht : t.team = s.team)
    (hb : ∀ r ∈ b.tiles, r.idx < s.idx) {l : Nat} (hl : l < 32) :
    t.tileView c (s.idx + 1) (accAt s j + 544 * l) 544 =
      if (b.opnd s.idx f).live.getLsbD l then ((accNew new f j s b l).1.map accBytesOf).getD (s.tileView b s.idx (accAt s j + 544 * l) 544)
      else s.tileView b s.idx (accAt s j + 544 * l) 544 := by
  have hs : accStored new f j s b = b.tiles ++ laneRecs s.idx (accAt s j) (fun l => (accNew new f j s b l).1) (lanesOf (b.opnd s.idx f).live) :=
    insert_laneRecs _ _ (fun l => (accNew new f j s b l).1) _ _ fun x hx => (hb x hx).le
  have h1 : s.tileView b s.idx (accAt s j + 544 * l) 544 =
      b.tiles.foldl (fun a r => r.patch (accAt s j + 544 * l) a) (stRead s.team.tile (accAt s j + 544 * l) 544) := by
    unfold State.tileView
    rw [List.filter_eq_self.2 fun r hr => decide_eq_true (hb r hr)]
  have h2 : t.tileView c (s.idx + 1) (accAt s j + 544 * l) 544 = (laneRecs s.idx (accAt s j) (fun l => (accNew new f j s b l).1)
      (lanesOf (b.opnd s.idx f).live)).foldl (fun a r => r.patch (accAt s j + 544 * l) a) (s.tileView b s.idx (accAt s j + 544 * l) 544) := by
    rw [h1, ← List.foldl_append, ← hs]
    unfold State.tileView
    rw [hc, ht, List.filter_eq_self.2 fun r hr => decide_eq_true ?_]
    rw [hs] at hr
    rcases List.mem_append.1 hr with hr | hr
    · exact (hb r hr).trans (Nat.lt_succ_self _)
    · rw [laneRecs_idx hr]
      exact Nat.lt_succ_self _
  rw [h2, patch_laneRecs _ _ _ _ _ _ (length_tileView _ _ _ _ _)]
  simp only [lanesOf_mem, hl, true_and]

/-- The invalid mask that the next instruction sees. -/
theorem accInval_view {t : State} {c : Blk} (hc : c.inval = insertInval (s.idx, j, accInval new clears f j s b) b.inval)
    (hb : ∀ r ∈ b.inval, r.1 < s.idx) : t.invalView c (s.idx + 1) j = accInval new clears f j s b := by
  unfold State.invalView
  rw [hc, insertInval_last _ _ fun x hx => (hb x hx).le, List.filter_append, List.foldl_append]
  simp

theorem accInval_lane {l : Nat} (hl : l < 32) : (accInval new clears f j s b).getLsbD l =
    if (b.opnd s.idx f).live.getLsbD l then (if clears then false else (accNew new f j s b l).1.isNone || (s.invalView b s.idx j).getLsbD l)
    else (s.invalView b s.idx j).getLsbD l := by
  have hbad : (((lanesOf (b.opnd s.idx f).live).map fun l => (l, accNew new f j s b l)).any fun r => r.1 == l && r.2.1.isNone) =
      ((b.opnd s.idx f).live.getLsbD l && (accNew new f j s b l).1.isNone) := by
    rw [Bool.eq_iff_iff]
    simp only [List.any_map, List.any_eq_true, lanesOf_mem, Function.comp_apply, Bool.and_eq_true, beq_iff_eq]
    constructor
    · rintro ⟨k, ⟨-, h1⟩, rfl, h2⟩
      exact ⟨h1, h2⟩
    · exact fun ⟨h1, h2⟩ => ⟨l, ⟨hl, h1⟩, rfl, h2⟩
  unfold accInval
  cases clears with
  | true =>
    simp only [if_true, BitVec.getLsbD_and, BitVec.getLsbD_not, hl, decide_true, Bool.true_and]
    cases (b.opnd s.idx f).live.getLsbD l <;> simp
  | false =>
    simp only [Bool.false_eq_true, if_false, BitVec.getLsbD_or, getLsbD_maskOf, hbad, hl, decide_true, Bool.true_and]
    cases (b.opnd s.idx f).live.getLsbD l <;> simp [Bool.or_comm]

/-- An instruction that gives each lane a value (or makes it invalid) and flags. -/
theorem acc_result (h : s.blk? = some b) (he : exec i s = accUpdate f j new clears s) (hl : (b.opnd s.idx f).live ≠ 0)
    (hn : accNeed s j ≤ 1024 * s.team.tileKiB) {N : Nat → Option Int} {F : Nat → BitVec 5} {V : Nat → Bool}
    (hN : ∀ l, accNew new f j s b l = (N l, F l))
    (hV : ∀ l, V l = if clears then false else (N l).isNone || (s.invalView b s.idx j).getLsbD l) :
    ∃ t c, exec i s = .next t ∧ t.blk? = some c ∧
      ((∀ r ∈ b.tiles, r.idx < s.idx) → ∀ l, l < 32 → t.tileView c (s.idx + 1) (accAt s j + 544 * l) 544 =
        match (b.opnd s.idx f).live.getLsbD l, N l with
        | true, some v => accBytesOf v
        | _, _ => s.tileView b s.idx (accAt s j + 544 * l) 544) ∧
      ((∀ r ∈ b.inval, r.1 < s.idx) → ∀ l, l < 32 → (t.invalView c (s.idx + 1) j).getLsbD l =
        if (b.opnd s.idx f).live.getLsbD l then V l else (s.invalView b s.idx j).getLsbD l) ∧
      c.flags = b.flags ||| (lanesOf (b.opnd s.idx f).live).foldl (fun a l => a ||| F l) 0 ∧
      c.done = b.done ||| BitVec.ofNat 96 (2 ^ s.idx) ∧ c.toks = b.toks ∧ t.mem = s.mem ∧ t.teams = s.teams ∧ t.g.regs = s.g.regs := by
  obtain ⟨t, c, ht, hb, ⟨hc, hteam⟩, ⟨hi, -⟩, hf, hrest⟩ := acc_updated h he hl hn
  refine ⟨t, c, ht, hb, fun hr l hl32 => ?_, fun hr l hl32 => ?_, ?_, hrest⟩
  · rw [accStored_view hc hteam hr hl32, hN]
    cases (b.opnd s.idx f).live.getLsbD l <;> cases N l <;> rfl
  · rw [accInval_view hi hr, accInval_lane hl32, hN, hV]
  · simpa only [hN] using hf

end

/-! ### Instructions that read an accumulator -/

section
variable {f : Form} {j : Nat} {s : State} {b : Blk} {i : Instr} {v : Env → Nat → Int → Bool → FRes}

theorem accRead_idle (h : s.blk? = some b) (he : exec i s = accRead f j v s) (hl : (b.opnd s.idx f).live = 0) :
    Completes i f (12, 13) s b (tokOf .lane (splat 0) (b.opnd s.idx f).nulls) 0 := by
  unfold Completes
  rw [he]
  unfold accRead
  simp only [h, (acts_false_iff _).2 hl, Blk.completed, or_no_flags]
  rfl

theorem accRead_missing (h : s.blk? = some b) (he : exec i s = accRead f j v s) (hl : (b.opnd s.idx f).live ≠ 0)
    (hn : 1024 * s.team.tileKiB < accNeed s j) : Faults i s 1 16 255 (b.opnd s.idx f).live [] := by
  unfold Faults
  rw [he]
  unfold accRead
  simp only [h, (acts_iff _).2 hl, accBase_none hn]
  rfl

theorem accRead_result (h : s.blk? = some b) (he : exec i s = accRead f j v s) (hl : (b.opnd s.idx f).live ≠ 0)
    (hn : accNeed s j ≤ 1024 * s.team.tileKiB) {w : Nat → W64} {F : BitVec 5}
    (hw : ∀ l, w64 (v s.env l (accVal s b j l) ((s.invalView b s.idx j).getLsbD l)).1 = w l)
    (hF : (lanesOf (b.opnd s.idx f).live).foldl (fun a l => a ||| (v s.env l (accVal s b j l) ((s.invalView b s.idx j).getLsbD l)).2) 0 = F) :
    Completes i f (12, 13) s b (tokOf .lane (lanes fun l => if (b.opnd s.idx f).live.getLsbD l then w l else 0) (b.opnd s.idx f).nulls) F := by
  rw [← funext hw, ← hF]
  unfold Completes
  rw [he]
  unfold accRead
  simp only [h, (acts_iff _).2 hl, accBase_some hn]
  rfl

end

theorem foldl_no_flags (ls : List Nat) : ls.foldl (fun (a : BitVec 5) _ => a ||| 0) 0 = 0 := by
  induction ls with
  | nil => rfl
  | cons l r ih => exact ih

/-- An exact number in units of 2^-2176; what is no number has none. -/
def accUnit (v : FVal) : Option Int :=
  match v with
  | .num n m e => some ((if n then -1 else 1) * ((m * 2 ^ (e + 2176).toNat : Nat) : Int))
  | _ => none

/-- The exact product of two numbers. -/
def exactProduct (x y : FVal) : FVal :=
  match x, y with
  | .num n m e, .num n' m' e' => .num (n != n') (m * m') (e + e')
  | _, _ => .nan false

theorem accAdd_eq (x : FVal) (old : Int) :
    accAdd old x (sigFlag [x]) = ((accUnit x).map (old + ·), if x = .nan true then fNV else 0) := by
  rw [sigFlag_one]
  cases x <;> simp [accAdd, accUnit, accUnits]

theorem accProduct_eq (x y : FVal) (old : Int) :
    (match x, y with
      | .num n m e, .num n' m' e' => accAdd old (.num (n != n') (m * m') (e + e')) 0
      | _, _ => (none, sigFlag [x, y])) =
    ((accUnit (exactProduct x y)).map (old + ·), if x = .nan true ∨ y = .nan true then fNV else 0) := by
  rw [sigFlag_two]
  cases x <;> cases y <;> simp [accAdd, accUnit, accUnits, exactProduct]

/-- Where a lane has no new value it becomes invalid. -/
theorem invalid_lane (x : Option Int) (old : Bool) : (match x with | none => true | some _ => old) = (x.isNone || old) := by
  cases x <;> rfl

/-- The sign of an accumulator as 64 bits. -/
theorem sign_bits (x : Int) (invalid : Bool) : w64 (if invalid then 2 else if x < 0 then 2 ^ 64 - 1 else if x = 0 then 0 else 1) =
    if invalid then 2 else if x < 0 then BitVec.allOnes 64 else if x = 0 then 0 else 1 := by
  split_ifs <;> rfl

/-- Settles O34: `accUpdate` records each lane's bytes, `accRead` reads them. -/
theorem accumulators : Obligations.Accumulators := by
  intro f j s b h
  refine ⟨fun hl => ⟨fun i hi => ?_, fun i hi => ?_⟩, fun hl hn i hi => ?_, fun hl hn => ⟨fun i hi => ?_, ?_, ?_⟩⟩
  · simp only [List.mem_cons, List.not_mem_nil, or_false] at hi
    rcases hi with rfl | rfl | rfl
    · exact acc_idle h (exec_xclr f j s) hl
    · exact acc_idle h (exec_xacc f j s) hl
    · exact acc_idle h (exec_xadd f j s) hl
  · simp only [List.mem_cons, List.not_mem_nil, or_false] at hi
    rcases hi with rfl | rfl
    · exact accRead_idle h (exec_xrnd f j s) hl
    · exact accRead_idle h (exec_xsgn f j s) hl
  · simp only [List.mem_cons, List.not_mem_nil, or_false] at hi
    rcases hi with rfl | rfl | rfl | rfl | rfl
    · exact acc_missing h (exec_xclr f j s) hl hn
    · exact acc_missing h (exec_xacc f j s) hl hn
    · exact acc_missing h (exec_xadd f j s) hl hn
    · exact accRead_missing h (exec_xrnd f j s) hl hn
    · exact accRead_missing h (exec_xsgn f j s) hl hn
  · simp only [List.mem_cons, List.not_mem_nil, or_false] at hi
    rcases hi with rfl | rfl | rfl
    · exact acc_result h (exec_xclr f j s) hl hn (fun _ => rfl) fun _ => rfl
    · refine acc_result h (exec_xacc f j s) hl hn (fun l => ?_) fun l => ?_
      · exact accProduct_eq _ _ _
      · dsimp only
        generalize Option.map _ _ = x
        cases x <;> rfl
    · refine acc_result h (exec_xadd f j s) hl hn (fun l => ?_) fun l => ?_
      · exact accAdd_eq _ _
      · dsimp only
        generalize Option.map _ _ = x
        cases x <;> rfl
  · exact accRead_result h (exec_xrnd f j s) hl hn (fun _ => rfl) rfl
  · refine accRead_result h (exec_xsgn f j s) hl hn (fun l => ?_) (foldl_no_flags _)
    exact sign_bits _ _

end Sys2Proof.Proofs
end

section
/-! PROOFS. Compute instructions change their block only (spec/08 R242, spec/10 R278, R287). -/

namespace Sys2Proof.Proofs
open Sys2Proof.Machine Sys2Proof.Laws.Shapes

/-! ### Outcomes that change the current block, and the count of free values drawn -/

/-- The next state is this one but for the current block and the free values. -/
def InstOnly (s : State) (o : Out) : Prop :=
  ∀ t, o = .next t → ∃ p q n, t = { s with g := { s.g with prim := p, sec := q }, free := n } ∧
    (s.isec = false → q = s.g.sec) ∧ (s.isec = true → p = s.g.prim)

theorem instOnly_self (s : State) : InstOnly s (.next s) := by
  rintro t ⟨⟩
  exact ⟨s.g.prim, s.g.sec, s.free, rfl, fun _ => rfl, fun _ => rfl⟩

theorem instOnly_setBlk (s : State) (c : Blk) : InstOnly s (.next (s.setBlk c)) := by
  rintro t ⟨⟩
  unfold State.setBlk
  cases h : s.isec with
  | false => exact ⟨some c, s.g.sec, s.free, rfl, fun _ => rfl, nofun⟩
  | true => exact ⟨s.g.prim, some c, s.free, rfl, nofun, fun _ => rfl⟩

/-- Values drawn before the instruction do not count. -/
theorem instOnly_free {s : State} {o : Out} (n : Nat) (h : InstOnly { s with free := n } o) : InstOnly s o := h

section
variable (f : Form) (s : State)

theorem instOnly_compute (l : Nat × Nat) (res : Env → Opnd → Tok × BitVec 5) : InstOnly s (compute f l res s) := by
  unfold compute
  cases s.blk? with
  | none => exact instOnly_self s
  | some b => exact instOnly_setBlk s _

theorem instOnly_computePair (l : Nat × Nat) (res : Env → Opnd → (Tok × Tok) × BitVec 5) : InstOnly s (computePair f l res s) := by
  unfold computePair
  cases s.blk? with
  | none => exact instOnly_self s
  | some b => exact instOnly_setBlk s _

theorem instOnly_depart (i : Instr) : InstOnly s (depart f i s) := by
  unfold depart
  cases s.blk? with
  | none => exact instOnly_self s
  | some b => exact instOnly_setBlk s _

theorem instOnly_waitFor (ok : Opnd → Bool) : InstOnly s (waitFor f ok s) := by
  unfold waitFor
  cases s.blk? with
  | none => exact instOnly_self s
  | some b =>
    dsimp only
    split
    · exact instOnly_setBlk s _
    · exact instOnly_self s

theorem instOnly_intOp (l : Nat × Nat) (v : Int → Int → Int → Int) : InstOnly s (intOp f l v s) := instOnly_compute f s l _

theorem instOnly_patOp (l : Nat × Nat) (v : Nat → Nat → Nat → Nat) : InstOnly s (patOp f l v s) := instOnly_compute f s l _

theorem instOnly_bitOp (v : Nat → Nat → Nat) : InstOnly s (bitOp f v s) := instOnly_patOp f s latInt _

theorem instOnly_carryOp (sub : Bool) : InstOnly s (carryOp sub f s) := instOnly_compute f s latInt _

theorem instOnly_maskOp (v : Mask → Mask → Mask) : InstOnly s (maskOp f v s) := instOnly_compute f s latInt _

theorem instOnly_countOp (v : Nat → Nat) : InstOnly s (countOp f v s) := instOnly_compute f s latInt _

theorem instOnly_fpLanes (l : Nat × Nat) (v : Env → Opnd → Nat → FRes) : InstOnly s (fpLanes f l v s) := instOnly_compute f s l _

theorem instOnly_packOp (v : Rnd → Nat → Nat → Nat → FRes) : InstOnly s (packOp f v s) := instOnly_fpLanes f s latFp _

theorem instOnly_fpFun (v : Rnd → FVal → FVal → FRes) : InstOnly s (fpFun f v s) := by
  unfold fpFun
  dsimp only
  split
  · exact instOnly_fpLanes f s _ _
  · exact instOnly_free (s.free + 1) (instOnly_fpLanes f _ _ _)

theorem instOnly_bl (d : W32) : InstOnly s (execBl f d s) := by
  unfold execBl
  cases s.blk? with
  | none => exact instOnly_self s
  | some b => exact instOnly_setBlk s _

theorem instOnly_prov (clear : Bool) : InstOnly s (execProv f clear s) := by
  unfold execProv
  cases s.blk? with
  | none => exact instOnly_self s
  | some b => exact instOnly_setBlk s _

end

/-- Every instruction of a block that acts on its block alone has one of these shapes. -/
theorem inBlock_instOnly (i : Instr) (s : State) (h : i.inBlock = true) : InstOnly s (exec i s) := by
  cases i
  case mov | const | nul | sel | lid | adr | cvt | cmp | vote | shfl | redux | scan | lclk | stalls | cyc =>
    simp only [exec_mov, exec_const, exec_nul, exec_sel, exec_lid, exec_adr, exec_cvt, exec_cmp, exec_vote, exec_shfl, exec_redux,
      exec_scan, exec_lclk, exec_stalls, exec_cyc]
    exact instOnly_compute _ _ _ _
  case add | sub | mul | mulhi | mad | div | rem | min | max | abs | neg =>
    simp only [exec_add, exec_sub, exec_mul, exec_mulhi, exec_mad, exec_div, exec_rem, exec_min, exec_max, exec_abs, exec_neg]
    exact instOnly_intOp _ _ _ _
  case not | shl | shr | sra | rot | bfx | bfi | popc | clz | ctz | brev =>
    simp only [exec_not, exec_shl, exec_shr, exec_sra, exec_rot, exec_bfx, exec_bfi, exec_popc, exec_clz, exec_ctz, exec_brev]
    exact instOnly_patOp _ _ _ _
  case and | or | xor =>
    simp only [exec_and, exec_or, exec_xor]
    exact instOnly_bitOp _ _ _
  case adc | sbc =>
    simp only [exec_adc, exec_sbc]
    exact instOnly_carryOp _ _ _
  case kand | kor | kxor | knot =>
    simp only [exec_kand, exec_kor, exec_kxor, exec_knot]
    exact instOnly_maskOp _ _ _
  case kpop | kfst =>
    simp only [exec_kpop, exec_kfst]
    exact instOnly_countOp _ _ _
  case fadd | fsub | fmul | fma | fdiv | fsqrt | frcp | frsqrt | fmin | fmax | fabs | fneg | fcmp | fclass | fcvt | fcvti | icvtf | frnd |
      fldx | pcvt | pdot =>
    simp only [exec_fadd, exec_fsub, exec_fmul, exec_fma, exec_fdiv, exec_fsqrt, exec_frcp, exec_frsqrt, exec_fmin, exec_fmax, exec_fabs,
      exec_fneg, exec_fcmp, exec_fclass, exec_fcvt, exec_fcvti, exec_icvtf, exec_frnd, exec_fldx, exec_pcvt, exec_pdot]
    exact instOnly_fpLanes _ _ _ _
  case pfma | padd | pmul | pmax =>
    simp only [exec_pfma, exec_padd, exec_pmul, exec_pmax]
    exact instOnly_packOp _ _ _
  case fexp | fexp2 | flog | flog2 | fsin | fcos | ftanh | flgst | ferf | fatan2 | fpow =>
    simp only [exec_fexp, exec_fexp2, exec_flog, exec_flog2, exec_fsin, exec_fcos, exec_ftanh, exec_flgst, exec_ferf, exec_fatan2,
      exec_fpow]
    exact instOnly_fpFun _ _ _
  case ffrx =>
    rw [exec_ffrx]
    exact instOnly_computePair _ _ _ _
  case br | yield | wr | brk | trc | trap =>
    simp only [exec_br, exec_yield, exec_wr, exec_brk, exec_trc, exec_trap]
    exact instOnly_depart _ _ _
  case wait | waitr | waitc =>
    simp only [exec_wait, exec_waitr, exec_waitc]
    exact instOnly_waitFor _ _ _
  case bl =>
    rw [exec_bl]
    exact instOnly_bl _ _ _
  case prov =>
    rw [exec_prov]
    exact instOnly_prov _ _ _
  case fence f l =>
    rw [exec_fence]
    unfold execFence
    have hn : ((Instr.fence f l).releasesLsid && decide (2 ≤ f.sc.toNat)) = false := by
      simpa only [Instr.inBlock, Bool.not_eq_true'] using h
    rw [hn, if_neg Bool.false_ne_true]
    exact instOnly_waitFor _ _ _
  all_goals cases h

/-! ### Floating-point instructions complete -/

/-- The instruction completes within the latencies of R202, with some lanes' values and flags. -/
def CompletesSoon (i : Instr) (f : Form) (s : State) (b : Blk) : Prop :=
  ∃ v fl n free, 4 ≤ n ∧ n ≤ 65 ∧ exec i s = .next (({ s with free := free } : State).setBlk
    (b.completed s.clock s.idx f (s.clock + n) (laneResult f (b.opnd s.idx f) v) fl))

section
variable {i : Instr} {f : Form} {s : State} {b : Blk}

theorem lanes_soon {l : Nat × Nat} {v : Env → Opnd → Nat → FRes} (h : s.blk? = some b) (hl : 4 ≤ l.1 ∧ l.1 ≤ l.2 ∧ l.2 ≤ 65)
    (he : exec i s = fpLanes f l v s) : CompletesSoon i f s b := by
  obtain ⟨h1, h2, h3⟩ := hl
  refine ⟨_, _, if s.twoPass then l.2 else l.1, s.free, ?_, ?_, fp_completes v h he _ rfl⟩ <;> split_ifs <;> omega

theorem function_soon {v : Rnd → FVal → FVal → FRes} (h : s.blk? = some b) (he : exec i s = fpFun f v s) : CompletesSoon i f s b := by
  have hc := fun_completes v h he _ fun _ => rfl
  dsimp only at hc
  split at hc
  next ht => refine ⟨_, _, if s.twoPass then 65 else 64, s.free, ?_, ?_, hc⟩ <;> split_ifs <;> omega
  next ht =>
    obtain ⟨n, h1, h2, hn⟩ := hc
    refine ⟨_, _, if s.twoPass then n + 1 else n, s.free + 1, ?_, ?_, hn⟩ <;> split_ifs <;> omega

theorem latDivF_bounds (t : Ty) : 4 ≤ (latDivF t).1 ∧ (latDivF t).1 ≤ (latDivF t).2 ∧ (latDivF t).2 ≤ 65 := by
  unfold latDivF
  split_ifs <;> decide

theorem latFp_bounds : 4 ≤ latFp.1 ∧ latFp.1 ≤ latFp.2 ∧ latFp.2 ≤ 65 := by decide

theorem scalar_soon {v : Env → Opnd → Nat → FRes} (h : s.blk? = some b) (he : exec i s = fpLanes f latFp v s) : CompletesSoon i f s b :=
  lanes_soon h latFp_bounds he

theorem quotient_soon {v : Env → Opnd → Nat → FRes} (h : s.blk? = some b) (he : exec i s = fpLanes f (latDivF f.ty) v s) :
    CompletesSoon i f s b := lanes_soon h (latDivF_bounds f.ty) he

theorem packed_soon {v : Rnd → Nat → Nat → Nat → FRes} (h : s.blk? = some b) (he : exec i s = packOp f v s) : CompletesSoon i f s b :=
  lanes_soon h latFp_bounds he

end

/-- Settles O35: the shapes of `inBlock_instOnly`, and the latencies of `fpLanes` and `fpFun`. -/
theorem computeInstructionFrame : Obligations.ComputeInstructionFrame := by
  refine ⟨fun i s t hi ht => inBlock_instOnly i s hi t ht, fun f k src s b h i hi => ?_⟩
  simp only [List.mem_cons, List.not_mem_nil, or_false] at hi
  rcases hi with rfl | rfl | rfl | rfl | rfl | rfl | rfl | rfl | rfl | rfl | rfl | rfl | rfl | rfl | rfl | rfl | rfl | rfl | rfl | rfl | rfl |
    rfl | rfl | rfl | rfl
  · exact scalar_soon h (exec_fadd f s)
  · exact scalar_soon h (exec_fsub f s)
  · exact scalar_soon h (exec_fmul f s)
  · exact scalar_soon h (exec_fma f s)
  · exact quotient_soon h (exec_fdiv f s)
  · exact quotient_soon h (exec_fsqrt f s)
  · exact quotient_soon h (exec_frcp f s)
  · exact quotient_soon h (exec_frsqrt f s)
  · exact function_soon h (exec_fexp f s)
  · exact function_soon h (exec_fexp2 f s)
  · exact function_soon h (exec_flog f s)
  · exact function_soon h (exec_flog2 f s)
  · exact function_soon h (exec_fsin f s)
  · exact function_soon h (exec_fcos f s)
  · exact function_soon h (exec_ftanh f s)
  · exact function_soon h (exec_flgst f s)
  · exact function_soon h (exec_ferf f s)
  · exact function_soon h (exec_fatan2 f s)
  · exact function_soon h (exec_fpow f s)
  · exact packed_soon h (exec_pfma f s)
  · exact packed_soon h (exec_padd f s)
  · exact packed_soon h (exec_pmul f s)
  · exact packed_soon h (exec_pmax f s)
  · exact scalar_soon h (exec_pcvt f k src s)
  · exact scalar_soon h (exec_pdot f s)

end Sys2Proof.Proofs
end

section
/-! PROOFS. Taking a fault (spec/08 R243, R246, R247, R253): the handler entry, the escalation, and faults of the secondary. -/

namespace Sys2Proof.Proofs
open Sys2Proof.Machine Sys2Proof.Laws.Shapes

/-! ### Discarded instances -/

theorem discard_of_no_release {g : Gang} (h : g.rels = []) : g.discard = { g with prim := none, sec := none, rels := [] } := by
  unfold Gang.discard Gang.placeRels
  rw [show ({ g with prim := none, sec := none } : Gang).rels = [] from h]
  rfl

/-! ### Records of a trace session -/

theorem still_setArea (s : State) (c : Nat) (t : Trace) (k x : Nat) : still (s.setArea c t k x) = still s := still_writeVirt ..

theorem still_putRecord (s : State) (c : Nat) (t : Trace) (room : Nat) (bs : List Byte) : still (s.putRecord c t room bs) = still s := by
  unfold State.putRecord
  simp only
  split
  · rw [still_setArea, still_writeVirt]
  · exact still_setArea ..

theorem still_traceRecord (s : State) (c bit type core : Nat) (tag : W32) (body : List Byte) :
    still (s.traceRecord c bit type core tag body) = still s := by
  unfold State.traceRecord
  cases (s.ctxAt c).trace with
  | none => rfl
  | some t =>
    dsimp only
    split
    · rfl
    · exact still_putRecord ..

theorem traceRecord_closed {s : State} {c bit type core : Nat} {tag : W32} {body : List Byte} (h : (s.ctxAt c).trace = none) :
    s.traceRecord c bit type core tag body = s := by
  unfold State.traceRecord
  rw [h]

/-! ### The two ways a fault is taken -/

/-- The state once the gang has entered its handler, before the record of a session. -/
def State.entered (s : State) (r : FaultRec) (addr : W64) : State :=
  { s.withdraw with g := ({ s.g with excluded := false } : Gang).enterHandler r addr }

theorem takeFault_user {s : State} {r : FaultRec} {addr : W64} {entry : Bool} (h : s.g.sup = false) :
    s.takeFault r addr entry = (State.entered s r addr).traceFault := by
  unfold State.takeFault
  exact if_neg (by simp [h])

/-- The state once a fault of a handler has given up the handler. -/
def State.dropped (s : State) (r : FaultRec) (addr : W64) : State :=
  { s.withdraw with g := { ({ s.g with excluded := false } : Gang).dropHandler with hfcause := causeOf r, hfpc := addr } }

theorem takeFault_handler {s : State} {r : FaultRec} {addr : W64} {entry : Bool} (h : s.g.sup = true) :
    s.takeFault r addr entry = (State.dropped s r addr).soon (.on s.ctxNo) (.contextFault s.launchOf.tag (if entry then 2 else 1) r.code) := by
  unfold State.takeFault
  exact if_pos h

theorem still_takeFault_user {s : State} {r : FaultRec} {addr : W64} {entry : Bool} (h : s.g.sup = false) :
    still (s.takeFault r addr entry) = still (State.entered s r addr) := by
  rw [takeFault_user h]
  exact still_traceRecord ..

/-- No request of the gang waits at a semaphore of its core (R419). -/
theorem withdraw_queues (s : State) : ∀ p ∈ (s.withdraw.coreAt s.g.core).sems, ∀ q ∈ p.2.queue, q.1 ≠ s.gid := by
  unfold State.withdraw
  rw [coreAt_modCore, if_pos rfl]
  intro p hp q hq
  obtain ⟨p', -, rfl⟩ := List.mem_map.1 hp
  simpa using (List.mem_filter.1 hq).2

theorem withdraw_teams (s : State) : s.withdraw.teams = s.teams := rfl

theorem tfind_filter_none {α : Type} (t : Table α) (p : Nat → Bool) (n : Nat) (h : p n = false) :
    tfind (t.filter fun x => p x.1) n = none := by
  induction t with
  | nil => rfl
  | cons x r ih =>
    obtain ⟨k, v⟩ := x
    rw [List.filter_cons]
    split
    next hk =>
      unfold tfind
      rw [if_neg (fun e => by rw [← e, hk] at h; cases h), ih]
    next => exact ih

/-- The slices of a handler's entry stand at the supervisor page. -/
theorem entry_slices (m : Mask) (i : Nat) (hi : i < 8) :
    ((List.range 8).map (freshSlice (w64 supPage) m))[i]? = some { cur := { addr := 0x00FFFFFFFFFE0000, lanes := m.extractLsb' (4 * i) 4 } } := by
  rw [List.getElem?_map, List.getElem?_range hi]
  rfl

/-- Settles O37: `takeFault` in its two cases, and `raise` by the block. -/
theorem faultsAndHandlerEntry : Obligations.FaultsAndHandlerEntry := by
  refine ⟨fun s r addr entry hr => ?_, fun s b r h => ⟨fun hp => raise_primary r h hp, fun hs hb => ?_, fun hs hb => ?_⟩⟩
  · cases hs : s.g.sup with
    | false =>
      have hst := still_takeFault_user (s := s) (r := r) (addr := addr) (entry := entry) hs
      have hg : (s.takeFault r addr entry).g = ({ s.g with excluded := false } : Gang).enterHandler r addr := still_gang hst
      have hd : ({ s.g with excluded := false } : Gang).discard =
          { s.g with excluded := false, prim := none, sec := none, rels := [] } := discard_of_no_release hr
      unfold Gang.enterHandler at hg
      rw [hd] at hg
      have hcore := still_core_at hst Core.sems (fun _ => rfl) s.g.core
      have hteam (n : Nat) := calm_team_at (calm_of_still hst) (fun t => (t.stash, t.tile)) (fun _ => rfl) n
      have htrace (h : (s.ctxAt s.ctxNo).trace = none) : s.takeFault r addr entry = State.entered s r addr := by
        rw [takeFault_user hs]
        refine traceRecord_closed ?_
        have ht : (({ s.g with excluded := false } : Gang).enterHandler r addr).team = s.g.team := by
          unfold Gang.enterHandler
          rw [hd]
        have hc : (State.entered s r addr).ctxNo = s.ctxNo := congrArg (fun n => (s.launchAt (s.teamAt n).launch).ctx) ht
        rw [hc]
        exact h
      dsimp only
      rw [hg, hcore]
      refine ⟨rfl, rfl, rfl, rfl, rfl, rfl, fun n => Prod.ext_iff.1 (hteam n), fun h => ?_, withdraw_queues s, fun _ => ?_, nofun⟩
      · rw [htrace h]
        exact ⟨rfl, rfl⟩
      · refine ⟨rfl, rfl, rfl, rfl, fun hv => ?_, fun hv => ?_, rfl, rfl, rfl, rfl, rfl, rfl, rfl, rfl, entry_slices r.lanes, fun i x hi => ?_⟩
        · exact if_neg (by simpa using hv)
        · exact if_pos (by simpa using hv)
        · rw [tfind_filter_none _ (fun n => decide (n < 4)) i (decide_eq_false (by omega))]
          exact nofun
    | true =>
      have hd : ({ s.g with excluded := false } : Gang).discard =
          { s.g with excluded := false, prim := none, sec := none, rels := [] } := discard_of_no_release hr
      rw [takeFault_handler hs]
      unfold State.dropped Gang.dropHandler
      rw [hd]
      refine ⟨rfl, rfl, rfl, rfl, rfl, rfl, fun n => ⟨rfl, rfl⟩, fun h => ⟨rfl, rfl⟩, withdraw_queues s, nofun, fun _ => ?_⟩
      exact ⟨rfl, rfl, rfl, rfl, rfl, rfl, rfl, rfl, rfl, rfl, rfl, rfl⟩
  · rw [raise_secondary r h hs, setBlk_blk, setBlk_g_regs, setBlk_mem, setBlk_g_of s _ (·.sup) fun _ => rfl]
    unfold Blk.faulted
    rw [hb]
    exact ⟨rfl, rfl, rfl, rfl⟩
  · rw [raise_secondary r h hs, setBlk_blk]
    obtain ⟨x, hx⟩ := Option.ne_none_iff_exists'.1 hb
    unfold Blk.faulted
    rw [hx]

end Sys2Proof.Proofs
end

section
/-! PROOFS. The end of a handler (spec/08 R249): the lanes of a user exit that the handler's mask does not hold. -/

namespace Sys2Proof.Proofs
open Sys2Proof.Machine

/-- A handler at whose entry lane 0 had retired, while the handler's own mask of retired lanes holds none. -/
def strayHandler : State := { g := { sup := true, saveExm := 1 } }

/-- The handler's end retires the lanes of both masks. -/
theorem strayHandler_retired : strayHandler.endHandler.g.exm = 1 := by decide +kernel

/-- Refutes O38: the statement asks of every state that the retired lanes stay as they are, and `strayHandler` gains lane 0 from the
mask kept at its entry. -/
theorem not_handlerReturn : ¬ Obligations.HandlerReturn := by
  intro h
  obtain ⟨-, -, hexm, -⟩ := h strayHandler rfl rfl
  exact absurd (strayHandler_retired.symm.trans hexm) (by decide)

end Sys2Proof.Proofs
end

section
/-! PROOFS. Registers and FST at commit (spec/10 R281, R288, spec/13 R369, spec/16 R460). -/

namespace Sys2Proof.Proofs
open Sys2Proof.Machine Sys2Proof.Laws.Shapes

/-! ### Register writes -/

/-- A state without its cores: what the register cache of a core cannot change. -/
def coreless (s : State) : State := { s with cores := [] }

theorem coreless_touch (ns : List Nat) (s : State) : coreless (ns.foldl (fun s n => s.touchLine n true) s) = coreless s := by
  induction ns generalizing s with
  | nil => rfl
  | cons n r ih => exact ih _

/-- The gang after a register write of a commit. -/
def writeFired (g : Gang) (r : Fired) : Gang :=
  match r.ins with
  | .wr _ reg => g.writeReg reg r.lanes r.a
  | _ => g

/-- A state with its gang changed. -/
def withGang (F : Gang → Gang) (s : State) : State := { s with g := F s.g }

/-- One instruction of the commit's register writes. -/
def commitWrite (s : State) (r : Fired) : State :=
  match r.ins with
  | .wr _ reg => (regLines s.g.sup reg).foldl (fun s n => s.touchLine n true) { s with g := s.g.writeReg reg r.lanes r.a }
  | _ => s

theorem coreless_commitWrite (s : State) (r : Fired) : coreless (commitWrite s r) = coreless (withGang (writeFired · r) s) := by
  unfold commitWrite withGang writeFired
  cases r.ins
  case wr f reg => exact coreless_touch _ _
  all_goals rfl

theorem coreless_withGang {F : Gang → Gang} {s t : State} (h : coreless s = coreless t) : coreless (withGang F s) = coreless (withGang F t) :=
  congrArg (withGang F) h

/-- The writes change the gang's registers, and what its core has cached of them. -/
theorem commitWrites_coreless (s : State) (es : List Fired) :
    coreless (s.commitWrites es) = coreless (withGang (fun g => es.foldl writeFired g) s) := by
  change coreless (es.foldl commitWrite s) = _
  induction es generalizing s with
  | nil => rfl
  | cons r es ih => exact (ih (commitWrite s r)).trans (coreless_withGang (coreless_commitWrite s r))

/-! ### FST (R369) -/

theorem fst_mask_bits (i : Nat) : (0xFFFFFFFF0000071F : W64).getLsbD i = decide (i < 5 ∨ (8 ≤ i ∧ i < 11) ∨ (32 ≤ i ∧ i < 64)) := by
  by_cases h : i < 64
  · exact (by decide : ∀ i : Fin 64, (0xFFFFFFFF0000071F : W64).getLsbD i = decide (i.1 < 5 ∨ (8 ≤ i.1 ∧ i.1 < 11) ∨ (32 ≤ i.1 ∧ i.1 < 64))) ⟨i, h⟩
  · rw [BitVec.getLsbD_of_ge _ _ (by omega), eq_comm, decide_eq_false_iff_not]
    omega

theorem fst_zero_mask_bits (i : Nat) : (0xFFFFFFFF0000001F : W64).getLsbD i = decide (i < 5 ∨ (32 ≤ i ∧ i < 64)) := by
  by_cases h : i < 64
  · exact (by decide : ∀ i : Fin 64, (0xFFFFFFFF0000001F : W64).getLsbD i = decide (i.1 < 5 ∨ (32 ≤ i.1 ∧ i.1 < 64))) ⟨i, h⟩
  · rw [BitVec.getLsbD_of_ge _ _ (by omega), eq_comm, decide_eq_false_iff_not]
    omega

/-- The rounding code of the written value is the reserved one. -/
theorem reserved_mode_iff (x : W64) : ((x &&& 0xFFFFFFFF0000071F) >>> 8) &&& 7 = 7 ↔ x.extractLsb' 8 3 = 7 := by
  have hl : ((x &&& 0xFFFFFFFF0000071F) >>> 8) &&& 7 = (x.extractLsb' 8 3).setWidth 64 := by
    ext i hi
    by_cases h3 : i < 3
    · interval_cases i <;> simp
    · have h7 : (7 : W64).getLsbD i = false :=
        (by decide : ∀ i : Fin 64, ¬i.1 < 3 → (7 : W64).getLsbD i.1 = false) ⟨i, hi⟩ h3
      rw [← BitVec.getLsbD_eq_getElem, ← BitVec.getLsbD_eq_getElem, BitVec.getLsbD_and, h7, Bool.and_false, BitVec.getLsbD_setWidth,
        BitVec.getLsbD_of_ge (x.extractLsb' 8 3) i (by omega), Bool.and_false]
  rw [hl]
  constructor
  · intro h
    have := congrArg (BitVec.setWidth 3) h
    simpa using this
  · intro h
    rw [h]
    rfl

/-- A write of FST, bit by bit. -/
theorem fstWrite_bit (x : W64) (i : Nat) : (fstWrite x).getLsbD i =
    (x.getLsbD i && decide (i < 5 ∨ (8 ≤ i ∧ i < 11 ∧ x.extractLsb' 8 3 ≠ 7) ∨ (32 ≤ i ∧ i < 64))) := by
  unfold fstWrite
  simp only [reserved_mode_iff]
  split
  next h =>
    rw [BitVec.getLsbD_and, BitVec.getLsbD_and, fst_mask_bits, fst_zero_mask_bits, Bool.and_assoc, ← Bool.decide_and]
    congr 2
    rw [eq_iff_iff]
    constructor
    · rintro ⟨-, h⟩; omega
    · rintro (h' | ⟨-, -, h'⟩ | h')
      · omega
      · exact absurd h h'
      · omega
  next h =>
    rw [BitVec.getLsbD_and, fst_mask_bits]
    simp only [ne_eq, h, not_false_eq_true, and_true]

/-! ### `syswr` (R460) -/

/-- A `syswr` of a register. -/
def writesReg (reg : SysReg) (e : Fired) : Bool :=
  match e.ins with
  | .syswr _ x => x == reg
  | _ => false

/-- The last `syswr` of a register. -/
def commitReg (es : List Fired) (s : State) (reg : SysReg) : State :=
  match (es.filter (writesReg reg)).getLast? with
  | some r => s.writeSys reg (lane r.a 0)
  | none => s

theorem commitSys_eq (s : State) (es : List Fired) : s.commitSys es = commitReg es (commitReg es s .fst) .lrm := rfl

theorem commitReg_last {es : List Fired} {s : State} {reg : SysReg} {r : Fired} (h : (es.filter (writesReg reg)).getLast? = some r) :
    commitReg es s reg = s.writeSys reg (lane r.a 0) := by
  unfold commitReg
  rw [h]

theorem commitReg_none {es : List Fired} {s : State} {reg : SysReg} (h : ∀ e ∈ es, writesReg reg e = false) : commitReg es s reg = s := by
  unfold commitReg
  rw [List.filter_eq_nil_iff.2 fun e he => by rw [h e he]; exact Bool.false_ne_true]
  rfl

theorem writesReg_fst (e : Fired) : (match e.ins with | .syswr _ .fst => true | _ => false) = writesReg .fst e := by
  unfold writesReg
  cases e.ins
  case syswr f x => cases x <;> rfl
  all_goals rfl

theorem writesReg_lrm (e : Fired) : (match e.ins with | .syswr _ .lrm => false | _ => true) = !writesReg .lrm e := by
  unfold writesReg
  cases e.ins
  case syswr f x => cases x <;> rfl
  all_goals rfl

/-- Settles O39: the writes in index order, and FST by its masks. -/
theorem registersAtCommit : Obligations.RegistersAtCommit := by
  intro s es x
  have hw := commitWrites_coreless s es
  have hg := congrArg State.g hw
  have hm := congrArg State.mem hw
  have ht := congrArg State.teams hw
  have hn := congrArg State.gangs hw
  refine ⟨hg, hm, ht, hn, fun i hi => ?_, fun i hi => ?_, ?_,
    fun r f hr hf hl => ?_⟩
  · rw [fstWrite_bit]
    by_cases h : i < 64
    · rw [decide_eq_true (by omega), Bool.and_true]
    · rw [BitVec.getLsbD_of_ge _ _ (by omega), Bool.false_and]
  · rw [fstWrite_bit, Bool.and_eq_false_iff, decide_eq_false_iff_not]
    exact .inr (by omega)
  · ext i hi
    rw [BitVec.getElem_extractLsb', fstWrite_bit]
    split
    next h7 =>
      rw [decide_eq_false (by rintro (h | ⟨-, -, h⟩ | h) <;> [omega; exact h h7; omega]), Bool.and_false]
      simp
    next h7 => rw [decide_eq_true (.inr (.inl ⟨by omega, by omega, h7⟩)), Bool.and_true, BitVec.getElem_extractLsb']
  · have hlast : (es.filter (writesReg .fst)).getLast? = some r :=
      (congrArg (fun p => (es.filter p).getLast?) (funext fun e => (writesReg_fst e).symm)).trans hr
    have hnone (e : Fired) (he : e ∈ es) : writesReg .lrm e = false :=
      Bool.not_eq_eq_eq_not.1 ((writesReg_lrm e).symm.trans (List.all_eq_true.1 hl e he))
    rw [commitSys_eq, commitReg_last hlast, commitReg_none hnone]
    rfl

end Sys2Proof.Proofs
end

section
/-! PROOFS. What the issue of an instruction leaves alone (spec/08 R242): the registers and the rest that only a commit changes. -/

namespace Sys2Proof.Proofs
open Sys2Proof.Machine Sys2Proof.Laws.Shapes

/-! ### The part of a gang that a commit changes -/

/-- A gang with its registers and what else only its commits change; nothing else of it. -/
def boundOf (g : Gang) : Gang :=
  { regs := g.regs, ks := g.ks, xinv := g.xinv, lck := g.lck, sfmask := g.sfmask, sfcode := g.sfcode, pmres := g.pmres, prov := g.prov,
    quota := g.quota, team := g.team }

/-- The same, with its privilege and its status registers. -/
def gripOf (g : Gang) : Gang := { boundOf g with fst := g.fst, sup := g.sup, saveFst := g.saveFst }

/-- The focused gang's number, and what is kept of it. -/
def kept (s : State) : Nat × Gang := (s.gid, gripOf s.g)

section
variable {s : State}

@[simp] theorem kept_modCore (n : Nat) (f : Core → Core) : kept (s.modCore n f) = kept s := rfl
@[simp] theorem kept_later (d : Nat) (j : Subject) (e : Instr) : kept (s.later d j e) = kept s := rfl
@[simp] theorem kept_laterOn (c d : Nat) (j : Subject) (e : Instr) : kept (s.laterOn c d j e) = kept s := rfl
@[simp] theorem kept_laterHere (d : Nat) (j : Subject) (e : Instr) : kept (s.laterHere d j e) = kept s := rfl
@[simp] theorem kept_offCore (j : Subject) (e : Instr) : kept (s.offCore j e) = kept s := rfl
@[simp] theorem kept_sendRequest (l : Nat) (e : Instr) : kept (s.sendRequest l e) = kept s := rfl

@[simp] theorem kept_setBlk (b : Blk) : kept (s.setBlk b) = kept s := by
  unfold State.setBlk
  split <;> rfl

@[simp] theorem kept_modTeam (n : Nat) (f : Team → Team) : kept (s.modTeam n f) = kept s := by
  unfold State.modTeam
  split <;> rfl

theorem kept_modGang (n : Nat) {f : Gang → Gang} (h : ∀ g, gripOf (f g) = gripOf g) : kept (s.modGang n f) = kept s := by
  unfold State.modGang
  split
  · exact congrArg (Prod.mk s.gid) (h s.g)
  · split <;> rfl

theorem kept_of_calm {t : State} (h : calm t = calm s) : kept t = kept s :=
  Prod.ext (calm_state h State.gid fun _ => rfl) (calm_gang h gripOf fun _ => rfl)

theorem kept_of_steady {t : State} (h : steady t = steady s) : kept t = kept s :=
  Prod.ext (steady_state h State.gid fun _ => rfl) (steady_gang h gripOf fun _ => rfl)

@[simp] theorem kept_flushCore (c : Nat) : kept (s.flushCore c) = kept s := kept_of_calm (calm_flushCore c)

@[simp] theorem kept_issuedNow : kept s.issuedNow = kept s := by
  unfold State.issuedNow
  cases s.blk? with
  | none => rfl
  | some b => exact kept_setBlk _

@[simp] theorem kept_doneNow : kept s.doneNow = kept s := by
  unfold State.doneNow
  cases s.blk? with
  | none => rfl
  | some b => exact kept_setBlk _

@[simp] theorem kept_deliverUni (f : Form) (x : W64) : kept (s.deliverUni f x) = kept s := by
  unfold State.deliverUni
  cases s.blk? with
  | none => rfl
  | some b => exact kept_setBlk _

@[simp] theorem kept_holdNulls (m : Mask) : kept (s.holdNulls m) = kept s := by
  unfold State.holdNulls
  cases s.blk? <;> rfl

@[simp] theorem kept_hold (x : Lanes) (m : Mask) : kept (s.hold x m) = kept s := by
  unfold State.hold
  cases s.blk? with
  | none => rfl
  | some b => exact kept_holdNulls m

@[simp] theorem kept_waitHere : kept s.waitHere = kept s := kept_issuedNow

@[simp] theorem kept_plainRequest (i : Nat) : kept (s.plainRequest i) = kept s := by
  unfold State.plainRequest
  cases s.blk? with
  | none => rfl
  | some b => exact kept_setBlk (s := { s with nextId := s.nextId + 1 }) _

@[simp] theorem kept_lineRequest (i l : Nat) (cp : BitVec 3) : kept (s.lineRequest i l cp) = kept s := by
  unfold State.lineRequest
  cases s.blk? with
  | none => rfl
  | some b =>
    dsimp only
    split
    · exact kept_setBlk (s := { s with nextId := s.nextId + 1 }) _
    · exact kept_setBlk (s := { s with nextId := s.nextId + 1 }) _

@[simp] theorem kept_ask (d k l : Nat) : kept (s.ask d k l) = kept s := kept_of_calm (calm_ask d k l)

@[simp] theorem kept_requestLines (i : Nat) (own : Bool) (cp : BitVec 3) (ls : List Nat) : kept (s.requestLines i own cp ls) = kept s := by
  induction ls generalizing s with
  | nil => rfl
  | cons l r ih => rw [State.requestLines, ih, kept_ask, kept_lineRequest]

@[simp] theorem kept_hitLines (cp : BitVec 3) (ls : List Nat) : kept (s.hitLines cp ls) = kept s :=
  kept_of_calm (calm_of_still (still_hitLines cp ls))

@[simp] theorem kept_placeSeq (l : Nat) : kept (s.placeSeq l) = kept s := by
  unfold State.placeSeq
  cases s.blk? with
  | none => rfl
  | some b =>
    dsimp only
    split
    · rfl
    · exact kept_setBlk (s := { s with nextId := s.nextId + 1 }) _

@[simp] theorem kept_deliverLoad (f : Form) (t : Tok) (sp : Space) (ps : List Place) (by_ : Bool) (cp : BitVec 3) :
    kept (s.deliverLoad f t sp ps by_ cp) = kept s := by
  unfold State.deliverLoad
  cases s.blk? with
  | none => rfl
  | some b =>
    cases sp <;> dsimp only
    case ctx | rstash | global | pool => split_ifs <;> simp only [kept_setBlk, kept_plainRequest, kept_requestLines, kept_hitLines]
    all_goals exact kept_setBlk _

/-! ### Semaphores and barriers change the waiting instructions of gangs -/

theorem gripOf_finish (g : Gang) (now i : Nat) (f : Form) (x : Option Lanes) (t : Option Tok) : gripOf (g.finish now i f x t) = gripOf g := by
  unfold Gang.finish
  cases g.prim with
  | none => rfl
  | some b => cases x <;> rfl

theorem gripOf_grant (g : Gang) (now n : Nat) : gripOf (g.grant now n) = gripOf g := by
  unfold Gang.grant
  split
  · exact gripOf_finish ..
  · rfl

theorem gripOf_wakeBar (g : Gang) (now n : Nat) (w : W64) : gripOf (g.wakeBar now n w) = gripOf g := by
  unfold Gang.wakeBar
  split
  · rfl
  · split
    · split
      · exact gripOf_finish ..
      · rfl
    · split
      · exact gripOf_finish ..
      · rfl
    · rfl

theorem kept_foldl {α : Type} {f : State → α → State} (h : ∀ s x, kept (f s x) = kept s) (l : List α) : kept (l.foldl f s) = kept s := by
  induction l generalizing s with
  | nil => rfl
  | cons x r ih => exact ih.trans (h s x)

@[simp] theorem kept_serveSem (c n k : Nat) : kept (s.serveSem c n k) = kept s := by
  induction k generalizing s with
  | zero => rfl
  | succ k ih =>
    unfold State.serveSem
    dsimp only
    split
    · split
      · rw [ih, kept_modGang _ fun g => gripOf_grant g _ n, kept_modCore]
      · rfl
    · rfl

@[simp] theorem kept_raiseSem (c n m : Nat) : kept (s.raiseSem c n m) = kept s := by
  unfold State.raiseSem
  rw [kept_serveSem, kept_modCore]

@[simp] theorem kept_setBar (t b : Nat) (w : W64) : kept (s.setBar t b w) = kept s := by
  unfold State.setBar
  exact (kept_foldl (fun u p => kept_modGang _ fun g => gripOf_wakeBar g _ b w) _).trans (kept_modTeam ..)

@[simp] theorem kept_releaseAt (f : Form) : kept (s.releaseAt f) = kept s := by
  unfold State.releaseAt
  split
  · exact kept_flushCore _
  · rfl

@[simp] theorem kept_deliverReply (i : Instr) (x : Lanes) : kept (deliverReply i x s) = kept s := by
  unfold deliverReply
  cases s.blk? with
  | none => rfl
  | some b => cases i <;> first | rfl | exact kept_setBlk _

end

/-! ### A fault keeps it, but for the status register of a handler -/

theorem gripOf_placeSlices (g : Gang) (tgt : W64) (m : Mask) (n i : Nat) : gripOf (g.placeSlices tgt m n i).1 = gripOf g := by
  induction n generalizing g m i with
  | zero => rfl
  | succ n ih =>
    unfold Gang.placeSlices
    dsimp only
    split
    · exact ih ..
    · exact ih ..

theorem gripOf_placeRels (g : Gang) : gripOf g.placeRels = gripOf g := by
  unfold Gang.placeRels
  refine List.foldlRecOn (motive := fun u => gripOf u = gripOf g) _ _ rfl fun u hu r _ => ?_
  dsimp only
  split
  · exact (gripOf_placeSlices ..).trans hu
  · exact (gripOf_placeSlices ..).trans hu

theorem gripOf_discard (g : Gang) : gripOf g.discard = gripOf g := gripOf_placeRels _

section
variable {g h : Gang} (e : gripOf g = gripOf h)
include e

theorem grip_bound : boundOf g = boundOf h := by
  have := congrArg boundOf e
  exact this

theorem grip_fst : g.fst = h.fst := by
  have := congrArg Gang.fst e
  exact this

theorem grip_sup : g.sup = h.sup := by
  have := congrArg Gang.sup e
  exact this

theorem grip_saveFst : g.saveFst = h.saveFst := by
  have := congrArg Gang.saveFst e
  exact this

theorem grip_team : g.team = h.team := by
  have := congrArg Gang.team e
  exact this

end

/-- What the issue of an instruction may do to the focused gang. -/
def Issued (s t : State) : Prop :=
  t.gid = s.gid ∧ boundOf t.g = boundOf s.g ∧ (t.g.fst = s.g.fst ∨ (s.g.sup = true ∧ t.g.sup = false ∧ t.g.fst = s.g.saveFst))

theorem issued_of_kept {s t : State} (h : kept t = kept s) : Issued s t := by
  obtain ⟨h1, h2⟩ := Prod.ext_iff.1 h
  exact ⟨h1, grip_bound h2, .inl (grip_fst h2)⟩

theorem issued_trans {s u t : State} (h : kept u = kept s) (ht : Issued u t) : Issued s t := by
  obtain ⟨h1, h2⟩ := Prod.ext_iff.1 h
  obtain ⟨t1, t2, t3⟩ := ht
  refine ⟨t1.trans h1, t2.trans (grip_bound h2), ?_⟩
  have hf : u.g.fst = s.g.fst := grip_fst h2
  have hs : u.g.sup = s.g.sup := grip_sup h2
  have hv : u.g.saveFst = s.g.saveFst := grip_saveFst h2
  rwa [hf, hs, hv] at t3

section
variable (g : Gang) (r : FaultRec) (addr : W64)

theorem bound_enterHandler : boundOf (g.enterHandler r addr) = boundOf g :=
  (rfl : _ = boundOf g.discard).trans (grip_bound (gripOf_discard g))

theorem fst_enterHandler : (g.enterHandler r addr).fst = g.fst := (rfl : _ = g.discard.fst).trans (grip_fst (gripOf_discard g))

theorem team_enterHandler : (g.enterHandler r addr).team = g.team := (rfl : _ = g.discard.team).trans (grip_team (gripOf_discard g))

theorem bound_cause (a b : W64) : boundOf { g with hfcause := a, hfpc := b } = boundOf g := rfl

theorem bound_dropHandler : boundOf g.dropHandler = boundOf g := (rfl : _ = boundOf g.discard).trans (grip_bound (gripOf_discard g))

end

theorem issued_entered (s : State) (r : FaultRec) (addr : W64) : Issued s (State.entered s r addr) :=
  ⟨rfl, bound_enterHandler { s.g with excluded := false } r addr, .inl (fst_enterHandler { s.g with excluded := false } r addr)⟩

theorem issued_dropped {s : State} (r : FaultRec) (addr : W64) (h : s.g.sup = true) : Issued s (State.dropped s r addr) :=
  ⟨rfl, (bound_cause ..).trans (bound_dropHandler { s.g with excluded := false }), .inr ⟨h, rfl, rfl⟩⟩

/-- The number of the focused gang and the gang decide. -/
theorem issued_congr {s t u : State} (h : Issued s u) (hn : t.gid = u.gid) (hg : t.g = u.g) : Issued s t := by
  unfold Issued
  rw [hn, hg]
  exact h

theorem issued_takeFault (s : State) (r : FaultRec) (addr : W64) (entry : Bool) : Issued s (s.takeFault r addr entry) := by
  cases h : s.g.sup with
  | false =>
    have hst := still_takeFault_user (s := s) (r := r) (addr := addr) (entry := entry) h
    exact issued_congr (issued_entered s r addr) (still_state hst State.gid fun _ => rfl) (still_gang hst)
  | true =>
    rw [takeFault_handler h]
    exact issued_congr (issued_dropped r addr h) rfl rfl

theorem issued_raise (s : State) (r : FaultRec) : Issued s (s.raise r) := by
  cases h : s.blk? with
  | none =>
    unfold State.raise
    rw [h]
    exact issued_of_kept rfl
  | some b =>
    cases hs : s.isec with
    | false =>
      rw [raise_primary r h hs]
      exact issued_takeFault ..
    | true =>
      rw [raise_secondary r h hs]
      exact issued_of_kept (kept_setBlk _)

/-- With no session open, a fault writes no memory. -/
theorem takeFault_mem (s : State) (r : FaultRec) (addr : W64) (entry : Bool) (h : (s.ctxAt s.ctxNo).trace = none) :
    (s.takeFault r addr entry).mem = s.mem := by
  cases hs : s.g.sup with
  | false =>
    rw [takeFault_user hs]
    have ht : (({ s.g with excluded := false } : Gang).enterHandler r addr).team = s.g.team := team_enterHandler ..
    have hc : (State.entered s r addr).ctxNo = s.ctxNo := congrArg (fun n => (s.launchAt (s.teamAt n).launch).ctx) ht
    unfold State.traceFault
    rw [traceRecord_closed (by rw [hc]; exact h)]
    rfl
  | true =>
    rw [takeFault_handler hs]
    rfl

theorem raise_mem (s : State) (r : FaultRec) (h : (s.ctxAt s.ctxNo).trace = none) : (s.raise r).mem = s.mem := by
  cases hb : s.blk? with
  | none =>
    unfold State.raise
    rw [hb]
  | some b =>
    cases hs : s.isec with
    | false =>
      rw [raise_primary r hb hs]
      exact takeFault_mem _ _ _ _ h
    | true =>
      rw [raise_secondary r hb hs]
      exact setBlk_mem _ _

end Sys2Proof.Proofs
end

section
/-! PROOFS. Registers and memory change at commit (spec/08 R242): each instruction of a block, at issue, raises a fault or keeps the
registers, and memory but for a release and a translated access. -/

namespace Sys2Proof.Proofs
open Sys2Proof.Machine Sys2Proof.Laws.Shapes

/-! ### Outcomes -/

/-- A fault of this state, or a state that keeps the registers and memory; where `c` holds, memory may be as the core's earlier stores make
it. -/
def Plain (c : Prop) (s : State) (o : Out) : Prop :=
  ∀ t, o = .next t → (∃ r, t = s.raise r) ∨ (kept t = kept s ∧ (t.mem = s.mem ∨ (c ∧ t.mem = (s.flushCore s.g.core).mem)))

/-- A state that keeps the registers, or a fault of one. -/
def Reaching (s : State) (o : Out) : Prop := ∀ t, o = .next t → ∃ u, kept u = kept s ∧ (t = u ∨ ∃ r, t = u.raise r)

section
variable {c : Prop} {s : State} {o : Out}

theorem plain_next {t : State} (hk : kept t = kept s) (hm : t.mem = s.mem) : Plain c s (.next t) := by
  rintro _ ⟨⟩
  exact .inr ⟨hk, .inl hm⟩

theorem plain_release {t : State} (hk : kept t = kept s) (hm : t.mem = s.mem ∨ (c ∧ t.mem = (s.flushCore s.g.core).mem)) :
    Plain c s (.next t) := by
  rintro _ ⟨⟩
  exact .inr ⟨hk, hm⟩

theorem plain_raise (r : FaultRec) : Plain c s (.next (s.raise r)) := by
  rintro _ ⟨⟩
  exact .inl ⟨r, rfl⟩

theorem plain_self : Plain c s (.next s) := plain_next rfl rfl

theorem plain_setBlk (b : Blk) : Plain c s (.next (s.setBlk b)) := plain_next (kept_setBlk b) (setBlk_mem s b)

theorem plain_of_instOnly (h : InstOnly s o) : Plain c s o := by
  intro t ht
  obtain ⟨p, q, n, rfl, -⟩ := h t ht
  exact .inr ⟨rfl, .inl rfl⟩

theorem reaching_next {t : State} (hk : kept t = kept s) : Reaching s (.next t) := by
  rintro _ ⟨⟩
  exact ⟨t, hk, .inl rfl⟩

theorem reaching_raise {u : State} (hk : kept u = kept s) (r : FaultRec) : Reaching s (.next (u.raise r)) := by
  rintro _ ⟨⟩
  exact ⟨u, hk, .inr ⟨r, rfl⟩⟩

theorem reaching_of_plain (h : Plain c s o) : Reaching s o := by
  intro t ht
  rcases h t ht with ⟨r, hr⟩ | ⟨hk, -⟩
  · exact ⟨s, rfl, .inr ⟨r, hr⟩⟩
  · exact ⟨t, hk, .inl rfl⟩

theorem reaching_trans {u : State} (hk : kept u = kept s) (h : Reaching u o) : Reaching s o := by
  intro t ht
  obtain ⟨v, hv, hr⟩ := h t ht
  exact ⟨v, hv.trans hk, hr⟩

end

/-! ### The shapes of instructions at issue -/

section
variable {c : Prop} (f : Form) (s : State)

theorem plain_departIf (i : Instr) (chk : Opnd → Option FaultRec) : Plain c s (departIf f i chk s) := by
  unfold departIf
  cases s.blk? with
  | none => exact plain_self
  | some b =>
    dsimp only
    cases chk (b.opnd s.idx f) with
    | none => exact plain_of_instOnly (instOnly_depart f s i)
    | some r => exact plain_raise r

theorem plain_needSup (n : Nat) {k : State → Out} (h : Plain c s (k s)) : Plain c s (needSup n k s) := by
  unfold needSup
  split
  · exact h
  · cases s.blk? with
    | none => exact plain_self
    | some b => exact plain_raise _

theorem plain_nullReply (pair : Bool) (cls : TokClass) : Plain c s (nullReply f pair cls s) := by
  unfold nullReply
  cases s.blk? with
  | none => exact plain_self
  | some b => exact plain_setBlk _

theorem plain_tileInstr (zr zw occupy due : Nat) (chk : Opnd → Option (Nat × Nat)) (res : Env → Opnd → Blk → List (List Nat) × Option Nat) :
    Plain c s (tileInstr f zr zw occupy due chk res s) := by
  unfold tileInstr
  cases s.blk? with
  | none => exact plain_self
  | some b =>
    dsimp only
    split_ifs
    · exact plain_setBlk _
    · exact plain_raise _
    · cases chk (b.opnd s.idx f) with
      | none => exact plain_next (kept_setBlk (s := s) _) (setBlk_mem s _)
      | some x => exact plain_raise _

theorem plain_mmaOp (dist : Bool) (a : MmaArg) : Plain c s (mmaOp dist f a s) := by
  unfold mmaOp
  exact plain_tileInstr _ _ _ _ _ _ _ _

theorem plain_rowOp (mx : Bool) (z : BitVec 4) : Plain c s (rowOp mx f z s) := by
  unfold rowOp
  cases s.blk? with
  | none => exact plain_self
  | some b =>
    dsimp only
    split
    · exact plain_setBlk _
    · split
      · exact plain_raise _
      · exact plain_next (kept_setBlk (s := s) _) (setBlk_mem s _)

theorem plain_accUpdate (j : Nat) (new : Opnd → Nat → Int → Option Int × BitVec 5) (clears : Bool) :
    Plain c s (accUpdate f j new clears s) := by
  unfold accUpdate
  cases s.blk? with
  | none => exact plain_self
  | some b =>
    dsimp only
    split
    · exact plain_setBlk _
    · cases s.accBase j with
      | none => exact plain_raise _
      | some base => exact plain_next (kept_setBlk (s := s) _) (setBlk_mem s _)

theorem plain_accRead (j : Nat) (v : Env → Nat → Int → Bool → FRes) : Plain c s (accRead f j v s) := by
  unfold accRead
  cases s.blk? with
  | none => exact plain_self
  | some b =>
    dsimp only
    split
    · exact plain_setBlk _
    · cases s.accBase j with
      | none => exact plain_raise _
      | some base => exact plain_setBlk _

theorem plain_queueInstr (i : Instr) (z : Nat) (bad : Opnd → Bool) : Plain c s (queueInstr f i z bad s) := plain_departIf f s i _

theorem plain_sendDescriptor (i : Instr) (size align : Nat) : Plain c s (sendDescriptor f i size align s) := plain_departIf f s i _

theorem plain_rd (r : Reg) : Plain c s (execRd f r s) := by
  unfold execRd
  cases s.blk? with
  | none => exact plain_self
  | some b =>
    dsimp only
    split
    · exact plain_setBlk _
    · split_ifs
      · exact plain_next (kept_setBlk (s := s) _) (setBlk_mem s _)
      · exact plain_next kept_issuedNow (State.issuedNow_mem s)
      · exact plain_next (kept_setBlk (s := s) _) (setBlk_mem s _)
      · exact plain_self

theorem plain_rquota : Plain c s (execRquota f s) := by
  unfold execRquota
  cases s.blk? with
  | none => exact plain_self
  | some b =>
    dsimp only
    split
    · exact plain_raise _
    · exact plain_setBlk _

theorem plain_switchAllOff : Plain c s (switchAllOff f s) := by
  unfold switchAllOff
  cases s.blk? with
  | none => exact plain_self
  | some b => exact plain_setBlk _

theorem plain_smap (l : BitVec 5) : Plain c s (execSmap f l s) := by
  unfold execSmap
  cases s.blk? with
  | none => exact plain_self
  | some b =>
    dsimp only
    split
    · exact plain_switchAllOff f s
    · exact plain_of_instOnly (instOnly_depart f s _)

theorem plain_sunmap (l : BitVec 5) : Plain c s (execSunmap f l s) := by
  unfold execSunmap
  cases s.blk? with
  | none => exact plain_self
  | some b =>
    dsimp only
    split
    · exact plain_switchAllOff f s
    · exact plain_of_instOnly (instOnly_depart f s _)

/-! ### Semaphores, barriers and timelines -/

variable {f s}

theorem plain_issueOnce {i : Instr} {again : Blk → Opnd → Lanes → State → State} {perform : Blk → Opnd → State → Out}
    (ha : ∀ b o x, kept (again b o x s) = kept s ∧ (again b o x s).mem = s.mem) (hp : ∀ b o, Plain c s (perform b o s)) :
    Plain c s (issueOnce f i again perform s) := by
  unfold issueOnce
  cases s.blk? with
  | none => exact plain_self
  | some b =>
    dsimp only
    cases s.heldHere with
    | some x => exact plain_next (ha b _ x).1 (ha b _ x).2
    | none =>
      dsimp only
      split_ifs
      · exact plain_nullReply f s false f.vc
      · exact plain_raise _
      · exact hp b _

theorem plain_barOp {i : Instr} {b : BitVec 9} {again : Blk → Opnd → Lanes → State → State} {perform : Opnd → W64 → State → Out}
    (ha : ∀ b o x, kept (again b o x s) = kept s ∧ (again b o x s).mem = s.mem) (hp : ∀ o w, Plain c s (perform o w s)) :
    Plain c s (barOp f i b again perform s) := by
  refine plain_issueOnce ha fun _ o => ?_
  split
  · exact plain_raise _
  · exact hp o _

theorem done_again (b : Blk) (o : Opnd) (x : Lanes) :
    kept ((fun (_ : Blk) (_ : Opnd) (_ : Lanes) (s : State) => s.doneNow) b o x s) = kept s ∧
    ((fun (_ : Blk) (_ : Opnd) (_ : Lanes) (s : State) => s.doneNow) b o x s).mem = s.mem := ⟨kept_doneNow, State.doneNow_mem s⟩

theorem deliver_again (b : Blk) (o : Opnd) (x : Lanes) :
    kept ((fun (_ : Blk) (_ : Opnd) (x : Lanes) (s : State) => s.deliverUni f (lane x 0)) b o x s) = kept s ∧
    ((fun (_ : Blk) (_ : Opnd) (x : Lanes) (s : State) => s.deliverUni f (lane x 0)) b o x s).mem = s.mem :=
  ⟨kept_deliverUni _ _, State.deliverUni_mem s _ _⟩

/-- What a release at a scope writes before it. -/
theorem releaseAt_mem : (s.releaseAt f).mem = s.mem ∨ (decide (2 ≤ f.sc.toNat) = true ∧ (s.releaseAt f).mem = (s.flushCore s.g.core).mem) := by
  unfold State.releaseAt
  split
  next h => exact .inr ⟨decide_eq_true h, rfl⟩
  next => exact .inl rfl

theorem plain_semAcq (n : BitVec 6) (m : BitVec 10) : Plain c s (execSemAcq f n m s) := by
  refine plain_issueOnce done_again fun _ _ => ?_
  dsimp only
  split
  · exact plain_next (by simp) (by simp)
  · exact plain_next (by simp) (by simp)

theorem plain_semRel (n : BitVec 6) (m : BitVec 10) : Plain (decide (2 ≤ f.sc.toNat) = true) s (execSemRel f n m s) := by
  refine plain_issueOnce done_again fun _ _ => ?_
  split
  · exact plain_raise _
  · exact plain_release (by simp) (by simpa using releaseAt_mem)

theorem plain_semTry (n : BitVec 6) (m : BitVec 10) : Plain c s (execSemTry f n m s) := by
  refine plain_issueOnce deliver_again fun _ _ => plain_next ?_ ?_
  · rw [kept_deliverUni, kept_hold]
    split <;> rfl
  · rw [State.deliverUni_mem, State.hold_mem]
    split <;> rfl

theorem plain_arrive (drop : Bool) (i : Instr) (b : BitVec 9) : Plain (decide (2 ≤ f.sc.toNat) = true) s (arriveOp drop f i b s) := by
  refine plain_barOp deliver_again fun o w => ?_
  dsimp only
  cases barArrive drop w with
  | none => exact plain_raise _
  | some w' => exact plain_release (by simp) (by simpa using releaseAt_mem)

theorem plain_barWait (b : BitVec 9) : Plain c s (execBarWait f b s) := by
  refine plain_barOp done_again fun o w => ?_
  split
  · exact plain_next (by simp) (by simp)
  · exact plain_next kept_waitHere (State.waitHere_mem s)

theorem plain_barAw (b : BitVec 9) : Plain (decide (2 ≤ f.sc.toNat) = true) s (execBarAw f b s) := by
  refine plain_barOp (fun _ _ x => ?_) fun o w => ?_
  · split
    · exact ⟨kept_deliverUni _ _, State.deliverUni_mem s _ _⟩
    · exact ⟨kept_waitHere, State.waitHere_mem s⟩
  · dsimp only
    cases barArrive false w with
    | none => exact plain_raise _
    | some w' => exact plain_release (by simp) (by simpa using releaseAt_mem)

theorem plain_barTx (b : BitVec 9) : Plain c s (execBarTx f b s) := by
  refine plain_barOp done_again fun o w => ?_
  dsimp only
  split
  · exact plain_raise _
  · exact plain_next (by simp) (by simp)

theorem plain_barInit (b : BitVec 9) : Plain c s (execBarInit f b s) := by
  refine plain_barOp done_again fun o w => ?_
  split
  · exact plain_raise _
  · exact plain_next (by simp) (by simp)

theorem plain_barGen (b : BitVec 9) : Plain c s (execBarGen f b s) := by
  refine plain_barOp deliver_again fun o w => ?_
  exact plain_next (by simp) (by simp)

theorem kept_timelineValue (ctx : Nat) (t : Nat × Nat) : kept (s.timelineValue ctx t).2 = kept s := by
  unfold State.timelineValue
  split
  · rfl
  · split <;> rfl
  · dsimp only
    split <;> rfl

theorem plain_timelineOp {k : Opnd → W64 → State → State} (hk : ∀ o v u, kept (k o v u) = kept u ∧ (k o v u).mem = u.mem) :
    Plain c s (timelineOp f k s) := by
  unfold timelineOp
  cases s.blk? with
  | none => exact plain_self
  | some b =>
    dsimp only
    split
    · exact plain_nullReply f s false f.vc
    · cases s.timelineOf s.ctxNo (b.opnd s.idx f).ua with
      | error x => exact plain_raise _
      | ok t => exact plain_next ((hk _ _ _).1.trans (kept_timelineValue _ _)) ((hk _ _ _).2.trans (State.timelineValue_mem _ _ _))

theorem plain_tlwait : Plain c s (execTlwait f s) := by
  refine plain_timelineOp fun o v u => ?_
  split
  · exact ⟨kept_doneNow, State.doneNow_mem u⟩
  · exact ⟨rfl, rfl⟩

theorem plain_tlread : Plain c s (execTlread f s) := by
  refine plain_timelineOp fun o v u => ?_
  cases u.blk? with
  | none => exact ⟨rfl, rfl⟩
  | some b => exact ⟨by simp, by simp⟩

theorem plain_dsync : Plain True s (execDsync f s) := by
  unfold execDsync
  cases s.blk? with
  | none => exact plain_self
  | some b =>
    dsimp only
    split_ifs
    · exact plain_raise _
    · exact plain_release (by simp) (.inr ⟨trivial, State.doneNow_mem _⟩)
    · exact plain_next kept_doneNow (State.doneNow_mem s)

theorem plain_fence (l : BitVec 5) : Plain ((Instr.fence f l).releasesNow = true) s (execFence f l s) := by
  unfold execFence
  split
  next h =>
    intro t ht
    obtain ⟨p, q, n, rfl, -⟩ := instOnly_waitFor f (s.flushCore s.g.core) (fun _ => true) t ht
    exact .inr ⟨kept_flushCore (s := s) s.g.core, .inr ⟨h, rfl⟩⟩
  next => exact plain_of_instOnly (instOnly_waitFor f s _)

end

/-! ### Instructions that translate an address -/

section
variable {f : Form} {s : State}

theorem kept_resolveAll (m : MemArg) (n : Nat) (w a al : Bool) (ea : Nat → Nat) (ls : List Nat) :
    kept (s.resolveAll m n w a al ea ls).2 = kept s := kept_of_steady (steady_resolveAll ..)

theorem reaching_accesses {m : MemArg} {n : Nat} {w a al uni : Bool} {k : State → Opnd → List (Nat × List Place) → Out}
    (hk : ∀ u o ls, Reaching u (k u o ls)) : Reaching s (accesses f m n w a al uni k s) := by
  unfold accesses
  cases s.blk? with
  | none => exact reaching_next rfl
  | some b =>
    dsimp only
    split
    · exact reaching_raise rfl _
    · split
      · exact reaching_raise (kept_resolveAll ..) _
      · exact reaching_trans ((kept_setBlk _).trans (kept_resolveAll ..)) (hk _ _ _)

theorem reaching_loadOp (m : MemArg) (al by_ : Bool) (mark : Option Instr) : Reaching s (loadOp f m al by_ mark s) := by
  refine reaching_accesses fun u o ls => ?_
  cases u.blk? with
  | none => exact reaching_next rfl
  | some b => exact reaching_next (by simp)

theorem reaching_storeOp (m : MemArg) (i : Instr) (al : Bool) (op : Option (BitVec 3 × Ty)) : Reaching s (storeOp f m i al op s) := by
  refine reaching_accesses fun u o ls => ?_
  cases u.blk? with
  | none => exact reaching_next rfl
  | some b => exact reaching_next (kept_setBlk _)

theorem reaching_red (m : MemArg) : Reaching s (execRed f m s) := by
  unfold execRed
  cases s.blk? with
  | none => exact reaching_next rfl
  | some b =>
    dsimp only
    generalize (if (s.launchOf.fixord && f.cp == 7) = true then _ else (0 : Mask)) = bad
    split
    · exact reaching_raise rfl _
    · exact reaching_storeOp _ _ _ _

theorem kept_translate (ctx va : Nat) (a : Acc) : kept (s.translate ctx va a).2 = kept s := kept_of_calm (calm_translate ..)

theorem reaching_pref (m : MemArg) : Reaching s (execPref f m s) := by
  unfold execPref
  cases s.blk? with
  | none => exact reaching_next rfl
  | some b =>
    refine reaching_next ((kept_setBlk _).trans (kept_foldl (fun u l => ?_) _))
    dsimp only
    split
    · rfl
    · rw [kept_ask, kept_of_calm (calm_lineIn ..), kept_translate]

theorem kept_supWord (va : Nat) : kept (s.supWord va).2 = kept s := kept_of_calm (calm_supWord va)

theorem kept_setSupWord (va x : Nat) : kept (s.setSupWord va x).2 = kept s := kept_of_calm (calm_setSupWord va x)

theorem kept_heapTake (size : Nat) : kept (s.heapTake size).2 = kept s := by
  unfold State.heapTake
  dsimp only
  split
  · rfl
  · split
    · split
      · split <;> simp only [kept_setSupWord, kept_supWord]
      · split <;> simp only [kept_setSupWord, kept_supWord]
    all_goals simp only [kept_supWord]

theorem kept_heapServe (size : Nat → Nat) (ls : List Nat) : kept (s.heapServe size ls).2.2.2 = kept s := by
  induction ls generalizing s with
  | nil => rfl
  | cons l r ih =>
    unfold State.heapServe
    dsimp only
    split
    · exact kept_heapTake _
    · exact ih.trans (kept_heapTake _)
    · exact ih.trans (kept_heapTake _)

theorem reaching_halloc (l : BitVec 5) : Reaching s (execHalloc f l s) := by
  unfold execHalloc
  cases s.blk? with
  | none => exact reaching_next rfl
  | some b =>
    dsimp only
    generalize (if (s.launchOf.allocNull && s.heldHere.isSome) = true then ([] : List Nat) else _) = todo
    split
    · exact reaching_raise rfl _
    · split
      · exact reaching_raise ((kept_hold ..).trans (kept_heapServe ..)) _
      · split
        · exact reaching_raise ((kept_hold ..).trans (kept_heapServe ..)) _
        · exact reaching_next ((kept_deliverLoad ..).trans ((kept_hold ..).trans (kept_heapServe ..)))

theorem reaching_hfree (l : BitVec 5) : Reaching s (execHfree f l s) := by
  unfold execHfree
  cases s.blk? with
  | none => exact reaching_next rfl
  | some b =>
    dsimp only
    have hk (u v : Nat) : kept ((s.supWord u).2.supWord v).2 = kept s := (kept_supWord v).trans (kept_supWord u)
    split
    · exact reaching_of_plain (c := False) (plain_of_instOnly (instOnly_depart _ _ _))
    · split
      · split
        · exact reaching_raise (hk _ _) _
        · exact reaching_trans (hk _ _) (reaching_of_plain (c := False) (plain_of_instOnly (instOnly_depart _ _ _)))
      · exact reaching_raise (hk _ _) _
      · exact reaching_raise (hk _ _) _

theorem kept_checkAddr (a : W64) (al : Nat) (w : Bool) (m : Mask) : kept (s.checkAddr a al w m).2 = kept s := by
  unfold State.checkAddr
  split
  · rfl
  · dsimp only
    split <;> exact kept_translate ..

theorem reaching_chunk : Reaching s (execChunk f s) := by
  unfold execChunk
  cases s.blk? with
  | none => exact reaching_next rfl
  | some b =>
    dsimp only
    cases s.heldHere with
    | some x => exact reaching_next (kept_deliverReply _ x)
    | none =>
      dsimp only
      split_ifs
      · exact reaching_next kept_issuedNow
      · exact reaching_of_plain (c := False) (plain_nullReply _ _ _ _)
      · exact reaching_raise rfl _
      · split
        · exact reaching_raise (kept_checkAddr ..) _
        · exact reaching_next ((kept_sendRequest ..).trans (kept_issuedNow.trans (kept_checkAddr ..)))

theorem reaching_edge (i : Instr) (send : Bool) : Reaching s (edgeRequest f i send s) := by
  unfold edgeRequest
  cases s.blk? with
  | none => exact reaching_next rfl
  | some b =>
    dsimp only
    cases s.heldHere with
    | some x => exact reaching_next (kept_deliverReply i x)
    | none =>
      dsimp only
      split
      · exact reaching_next kept_issuedNow
      · split
        · exact reaching_of_plain (c := False) (plain_nullReply _ _ _ _)
        · split
          · exact reaching_raise rfl _
          · split
            · exact reaching_raise (kept_checkAddr ..) _
            · split
              · exact reaching_raise (kept_checkAddr ..) _
              · refine reaching_next ((kept_sendRequest ..).trans ?_)
                cases send <;> simp [kept_checkAddr]

end

/-! ### Every instruction of a block -/

/-- An instruction that translates no address. -/
theorem exec_plain (i : Instr) (s : State) (hi : i.sig.isSome = true) (ht : i.translates = false) (hb : i.inBlock = false) :
    Plain (i.releasesNow = true) s (exec i s) := by
  have hx : (i.sig.isSome && !i.inBlock && !i.translates) = true := by simp [hi, ht, hb]
  cases i
  case rd =>
    rw [exec_rd]
    exact plain_rd _ _ _
  case jr | regang | exit | spawn | enq =>
    simp only [exec_jr, exec_regang, exec_exit, exec_spawn, exec_enq]
    exact plain_departIf _ _ _ _
  case rquota =>
    rw [exec_rquota]
    exact plain_rquota _ _
  case xclr | xacc | xadd =>
    simp only [exec_xclr, exec_xacc, exec_xadd]
    exact plain_accUpdate _ _ _ _ _
  case xrnd | xsgn =>
    simp only [exec_xrnd, exec_xsgn]
    exact plain_accRead _ _ _ _
  case smap =>
    rw [exec_smap]
    exact plain_smap _ _ _
  case sunmap =>
    rw [exec_sunmap]
    exact plain_sunmap _ _ _
  case swb | sinv =>
    simp only [exec_swb, exec_sinv]
    exact plain_of_instOnly (instOnly_depart _ _ _)
  case semAcq =>
    rw [exec_semAcq]
    exact plain_semAcq _ _
  case semRel =>
    rw [exec_semRel]
    exact plain_semRel _ _
  case semTry =>
    rw [exec_semTry]
    exact plain_semTry _ _
  case barInit =>
    rw [exec_barInit]
    exact plain_barInit _
  case barArr | barDrop =>
    simp only [exec_barArr, exec_barDrop]
    exact plain_arrive _ _ _
  case barWait =>
    rw [exec_barWait]
    exact plain_barWait _
  case barAw =>
    rw [exec_barAw]
    exact plain_barAw _
  case barTx =>
    rw [exec_barTx]
    exact plain_barTx _
  case barGen =>
    rw [exec_barGen]
    exact plain_barGen _
  case tlwait =>
    rw [exec_tlwait]
    exact plain_tlwait
  case tlread =>
    rw [exec_tlread]
    exact plain_tlread
  case ttopk | trscl =>
    simp only [exec_ttopk, exec_trscl]
    exact plain_tileInstr _ _ _ _ _ _ _ _
  case tld | tst | tclr | tcvt =>
    simp only [exec_tld, exec_tst, exec_tclr, exec_tcvt]
    exact plain_queueInstr _ _ _ _ _
  case trmax | trsum =>
    simp only [exec_trmax, exec_trsum]
    exact plain_rowOp _ _ _ _
  case cpy | cpyg | cpyx | cfill | pfill | pcopy | pcmp | predx | pgath =>
    simp only [exec_cpy, exec_cpyg, exec_cpyx, exec_cfill, exec_pfill, exec_pcopy, exec_pcmp, exec_predx, exec_pgath]
    exact plain_sendDescriptor _ _ _ _ _
  case pmap | punmap =>
    simp only [exec_pmap, exec_punmap]
    exact plain_needSup _ _ (plain_departIf _ _ _ _)
  case tlbinv | tret | halt =>
    simp only [exec_tlbinv, exec_tret, exec_halt]
    exact plain_needSup _ _ (plain_of_instOnly (instOnly_depart _ _ _))
  case tmma | tdist =>
    simp only [exec_tmma, exec_tdist]
    exact plain_mmaOp _ _ _ _
  case sysrd f r =>
    rw [exec_sysrd]
    unfold execSysrd
    dsimp only
    split
    · exact plain_needSup _ _ (plain_of_instOnly (instOnly_compute _ _ _ _))
    · exact plain_of_instOnly (instOnly_compute _ _ _ _)
  case syswr f r =>
    rw [exec_syswr]
    unfold execSyswr
    split
    · exact plain_needSup _ _ (plain_of_instOnly (instOnly_depart _ _ _))
    · exact plain_of_instOnly (instOnly_depart _ _ _)
  case dsync f =>
    intro t ht
    exact (plain_dsync t ht).imp_right fun ⟨h1, h2⟩ => ⟨h1, h2.imp_right fun ⟨_, h3⟩ => ⟨rfl, h3⟩⟩
  case fence f l =>
    rw [exec_fence]
    exact plain_fence l
  all_goals cases hx

/-- An instruction that translates an address. -/
theorem exec_reaching (i : Instr) (s : State) (ha : ∀ f m, i ≠ .atom f m ∧ i ≠ .cas f m) (ht : i.translates = true) :
    Reaching s (exec i s) := by
  cases i
  case ld | ldp =>
    simp only [exec_ld, exec_ldp]
    exact reaching_loadOp _ _ _ _
  case st =>
    rw [exec_st]
    exact reaching_storeOp _ _ _ _
  case red =>
    rw [exec_red]
    exact reaching_red _
  case pref =>
    rw [exec_pref]
    exact reaching_pref _
  case halloc =>
    rw [exec_halloc]
    exact reaching_halloc _
  case hfree =>
    rw [exec_hfree]
    exact reaching_hfree _
  case chunk =>
    rw [exec_chunk]
    exact reaching_chunk
  case qsend | qtake =>
    simp only [exec_qsend, exec_qtake]
    exact reaching_edge _ _
  case atom f m => exact absurd rfl (ha f m).1
  case cas f m => exact absurd rfl (ha f m).2
  all_goals cases ht

theorem sig_plain (i : Instr) (s : State) (hi : i.sig.isSome = true) (ht : i.translates = false) :
    Plain (i.releasesNow = true) s (exec i s) := by
  cases hb : i.inBlock with
  | true => exact plain_of_instOnly (inBlock_instOnly i s hb)
  | false => exact exec_plain i s hi ht hb

/-- Settles O36: each instruction raises a fault or keeps the registers, and memory where it translates no address. -/
theorem issueFrames : Obligations.IssueFrames := by
  refine ⟨fun i s t hi ha he => ?_, fun i s t hi ht hs he => ?_⟩
  · have hr : Reaching s (exec i s) := by
      cases ht : i.translates with
      | true => exact exec_reaching i s ha ht
      | false => exact reaching_of_plain (sig_plain i s hi ht)
    obtain ⟨u, hk, hu⟩ := hr t he
    have h : Issued s t := by
      rcases hu with rfl | ⟨r, rfl⟩
      · exact issued_of_kept hk
      · exact issued_trans hk (issued_raise u r)
    obtain ⟨hn, hb, hf⟩ := h
    exact ⟨hn, (congrArg Gang.regs hb :), (congrArg Gang.ks hb :), (congrArg Gang.xinv hb :), (congrArg Gang.lck hb :), (congrArg Gang.sfmask hb :),
      (congrArg Gang.sfcode hb :), (congrArg Gang.pmres hb :), (congrArg Gang.prov hb :), (congrArg Gang.quota hb :), (congrArg Gang.team hb :), hf⟩
  · rcases sig_plain i s hi ht t he with ⟨r, rfl⟩ | ⟨-, hm | ⟨hr, hm⟩⟩
    · exact .inl fun a => by rw [raise_mem s r hs]
    · exact .inl fun a => by rw [hm]
    · exact .inr ⟨hr, fun a => by rw [hm]⟩

end Sys2Proof.Proofs
end

section
/-! PROOFS. The commit point of a block, its waits, and what a commit leaves of the gang (spec/10 R287 to R289). -/

namespace Sys2Proof.Proofs
open Sys2Proof.Machine Sys2Proof.Laws.Shapes

/-! ### The part of a gang that its paths leave alone -/

/-- A gang without its slices, its splits and the lanes that wait at `regang`. -/
def pathless (g : Gang) : Gang := { g with slices := [], splits := [], rels := [], rset := 0, rtgt := 0, rmask := 0 }

theorem pathless_placeSlices (g : Gang) (tgt : W64) (m : Mask) (n i : Nat) : pathless (g.placeSlices tgt m n i).1 = pathless g := by
  induction n generalizing g m i with
  | zero => rfl
  | succ n ih =>
    unfold Gang.placeSlices
    dsimp only
    split
    · exact ih ..
    · exact ih ..

theorem pathless_placeRels (g : Gang) : pathless g.placeRels = pathless g := by
  unfold Gang.placeRels
  refine List.foldlRecOn (motive := fun u => pathless u = pathless g) _ _ rfl fun u hu r _ => ?_
  dsimp only
  split
  · exact (pathless_placeSlices ..).trans hu
  · exact (pathless_placeSlices ..).trans hu

theorem pathless_checkRelease (g : Gang) : pathless g.checkRelease = pathless g := by
  unfold Gang.checkRelease
  split <;> rfl

theorem pathless_nextPaths (g : Gang) (sl : BitVec 8) (goes : Nat → Option W64) (demote : Bool) :
    pathless (g.nextPaths sl goes demote) = pathless g := rfl

theorem pathless_parkLanes {g u : Gang} {p : Mask} {t : W64} {w : Mask} (h : g.parkLanes p t w = some u) : pathless u = pathless g := by
  unfold Gang.parkLanes at h
  split at h
  · cases h
  · cases h
    exact pathless_checkRelease _

theorem pathless_parkAll (b : Blk) (es : List Fired) {g u : Gang} (h : parkAll b es g = some u) : pathless u = pathless g := by
  induction es generalizing g with
  | nil =>
    cases h
    rfl
  | cons r rest ih =>
    unfold parkAll at h
    split at h
    · split at h
      · cases h
      · next hp => exact (ih h).trans (pathless_parkLanes hp)
    · exact ih h

theorem pathless_parkAll_getD (b : Blk) (es : List Fired) (g : Gang) : pathless ((parkAll b es g).getD g) = pathless g := by
  cases h : parkAll b es g with
  | none => rfl
  | some u => exact pathless_parkAll b es h

/-- The gang after a commit, before its lanes take their paths. -/
def retiredBy (g : Gang) (b : Blk) : Gang :=
  let trets := lanesFired b.effects fun i => match i with | .tret _ => true | _ => false
  { g with
    prim := none, stepOver := none, exm := g.exm ||| b.retires, sfcode := sfcodeOf g.sfcode g.sfmask b.offCode,
    sfmask := g.sfmask ||| (b.lanes &&& b.off), ended := g.ended ||| (trets &&& ~~~b.retires),
    lck := if g.sup then g.lck else g.lck + w64 b.ni, held := g.held.filter (fun p => if g.sup then p.1 < 4 else 4 ≤ p.1),
    ahead := g.ahead.filter (fun p => p.1 != g.sup), sord := if b.stop then b.ordinal else g.sord }

theorem pathless_afterCommit (g : Gang) (b : Blk) : pathless (g.afterCommit b) = pathless (retiredBy g b) := by
  unfold Gang.afterCommit
  dsimp only
  rw [pathless_placeRels, pathless_checkRelease, pathless_nextPaths, pathless_parkAll_getD]
  rfl

/-! ### The commit point -/

theorem commitPoint_badExits {s : State} {b : Blk} (h : b.badExits ≠ 0) : s.commitPoint b = (.error (blockFault 3 0 b.badExits []), s) := by
  unfold State.commitPoint
  exact if_pos h

theorem getLsbD_badExits (b : Blk) (l : Nat) :
    b.badExits.getLsbD l = (b.active.getLsbD l && (b.effects.filter fun r => r.ins.isExit && r.lanes.getLsbD l).length != 1) := by
  unfold Blk.badExits
  rw [getLsbD_maskOf, List.filter_filter]
  by_cases hl : l < 32
  · simp only [hl, decide_true, Bool.true_and, Bool.and_comm]
  · simp only [hl, decide_false, Bool.false_and, BitVec.getLsbD_of_ge _ l (Nat.le_of_not_lt hl)]

section
variable {s : State} {b : Blk} (hp : s.g.prim = some b) (hi : s.isec = false) (hst : b.stage = .commit) (hd : b.due ≤ s.clock)
  (hr : s.running s.g.core s.ctxNo = true) (hc : (s.core.quarterAt s.g.quarter).committed ≤ s.clock) (ho : s.olderDue = false)
include hp hi hst hd hr hc ho

/-- A block whose turn it is comes to its commit point. -/
theorem exec_blockCommit_turn : exec .blockCommit s =
    match (s.commitPoint b).1 with
    | .error r => .next ((s.commitPoint b).2.takeFault r b.addr false)
    | .ok prep => match (s.commitPoint b).2.commitWait b with
      | some why => .next ((s.commitPoint b).2.delayCommit b why)
      | none => .next ((s.commitPoint b).2.commitBlock b prep) := by
  have hs : ({ s with isec := false } : State) = s := by rw [← hi]
  rw [exec_blockCommit]
  unfold execBlockCommit
  simp only [hs, hp, hst, hr, ho, Nat.not_lt.mpr hd, Nat.not_lt.mpr hc] <;> rfl

end

/-! ### Where the lanes go -/

theorem mem_firsts {l : List W64} {x : W64} (h : x ∈ firsts l) : x ∈ l := by
  induction l with
  | nil => cases h
  | cons a r ih =>
    rcases List.mem_cons.mp h with rfl | h
    · exact List.mem_cons_self
    · exact List.mem_cons_of_mem _ (ih (List.mem_filter.mp h).1)

/-- A list of one value has one first. -/
theorem firsts_of_all_eq {l : List W64} {a : W64} (h : ∀ x ∈ l, x = a) (hl : l ≠ []) : firsts l = [a] := by
  cases l with
  | nil => exact absurd rfl hl
  | cons x r =>
    obtain rfl := h x List.mem_cons_self
    refine congrArg (List.cons x) (List.filter_eq_nil_iff.mpr fun y hy => ?_)
    simp [h y (List.mem_cons_of_mem _ (mem_firsts hy))]

/-- A slice whose lanes that go on all go to one address stands there, its stack as it was. -/
theorem slice_next_of_one (x : Slice) (i : Nat) (goes : Nat → Option W64) (a : W64)
    (hall : ((List.range 4).all fun j => goes (4 * i + j) == some a || goes (4 * i + j) == none) = true)
    (hany : ((List.range 4).any fun j => goes (4 * i + j) == some a) = true) :
    (x.next i goes).1.cur.addr = a ∧ (x.next i goes).1.stack = x.stack := by
  have hf : firsts ((List.range 4).filterMap fun j => goes (4 * i + j)) = [a] := by
    refine firsts_of_all_eq (fun y hy => ?_) fun h => ?_
    · obtain ⟨j, hj, hy⟩ := List.mem_filterMap.mp hy
      have := List.all_eq_true.mp hall j hj
      simpa [hy] using this
    · obtain ⟨j, hj, he⟩ := List.any_eq_true.mp hany
      have := List.filterMap_eq_nil_iff.mp h j hj
      simp [this] at he
  unfold Slice.next
  rw [hf]
  exact ⟨rfl, rfl⟩

theorem nextPaths_slice (g : Gang) (sl : BitVec 8) (goes : Nat → Option W64) (demote : Bool) {i : Nat} (hi : i < 8)
    (h : sl.getLsbD i = true) : (g.nextPaths sl goes demote).slices.getD i {} = ((g.slices.getD i {}).next i goes).1 := by
  unfold Gang.nextPaths
  simp [List.getD_eq_getElem?_getD, hi, h]

/-- A lane that fired no `tret` goes where its exit says. -/
theorem exitTarget_of_exit {b : Blk} {es : List Fired} {l : Nat} {r : Fired}
    (hf : es.find? (fun r => r.ins.isExit && r.lanes.getLsbD l) = some r)
    (ht : (es.any fun r => r.lanes.getLsbD l && (match r.ins with | .tret _ => true | _ => false)) = false) :
    exitTarget b es l = (match r.ins with
      | .br _ d | .bl _ d => some (dTarget b.addr d)
      | .jr _ => some (lane r.a l)
      | _ => none) := by
  unfold exitTarget
  refine (if_neg fun h => Bool.false_ne_true (ht.symm.trans h)).trans ?_
  simp only [hf] <;> rfl

/-- Settles O41, by the readings of `execBlockCommit` in a block's turn and of a gang after its commit. -/
theorem blockCommit : Obligations.BlockCommit := by
  intro s b hp hi hst hd hr hc ho
  have turn := exec_blockCommit_turn hp hi hst hd hr hc ho
  have left := pathless_afterCommit s.g b
  refine ⟨commitPoint_badExits, getLsbD_badExits b, ?_, ?_, ?_, ?_, (congrArg Gang.prim left :), (congrArg Gang.exm left :),
    (congrArg Gang.sfmask left :), (congrArg Gang.lck left :), (congrArg Gang.regs left :), (congrArg Gang.fst left :),
    (congrArg Gang.sord left :), ?_, ?_⟩
  · intro r t h
    rw [turn, h]
  · intro p t h hw
    simp only [turn, h, hw]
  · intro p t why h hw hx
    simp only [turn, h, hw]
    unfold State.delayCommit
    rw [hx]
    rfl
  · intro p t why h hw hx
    simp only [turn, h, hw]
    unfold State.delayCommit
    rw [hx]
    rfl
  · intro l r hf ht
    have h := exitTarget_of_exit (b := b) hf ht
    refine ⟨fun f d hr => ?_, fun f hr => ?_, fun f hr => ?_, fun f d hr => ?_⟩
    · rcases hr with hr | hr
      · rw [hr] at h
        exact h
      · rw [hr] at h
        exact h
    · rw [hr] at h
      exact h
    · rw [hr] at h
      exact h
    · rw [hr] at h
      exact h
  · intro i a hi hb hall hany _
    rw [nextPaths_slice _ _ _ _ hi hb]
    exact slice_next_of_one _ i _ a hall hany

end Sys2Proof.Proofs
end

section
/-! PROOFS. Stores at commit (spec/10 R288, spec/07 R207): two places of one pool byte. -/

namespace Sys2Proof.Proofs
open Sys2Proof.Machine

/-- A store of lane 0 whose two places are one byte of the pool under two names: the number beside a place of the pool says nothing. -/
def twiceStore : StoreRec := { idx := 0, lsid := 0, lane := 0, places := [⟨0, 0, 0⟩, ⟨0, 1, 0⟩], data := [1, 2] }

/-- A block of lane 0 with that store. -/
def twiceBlock : Blk := { lanes := 1, stores := [twiceStore] }

/-- The byte's later value is the one seen. -/
theorem twiceBlock_byte : (({} : State).commitStores twiceBlock).placeByte ⟨0, 0, 0⟩ = 2 := by decide +kernel

/-- Refutes O40: the statement takes distinct places for distinct bytes, and `twiceStore` stores 1 and then 2 to one byte of the pool. -/
theorem not_storesAtCommit : ¬ Obligations.StoresAtCommit := by
  intro h
  obtain ⟨-, hseen, -⟩ := h {} twiceBlock
  have h1 := hseen [] [] twiceStore 0 (by decide) (by decide) rfl nofun nofun (by decide) ⟨rfl, by decide⟩ rfl (by decide) nofun
  exact absurd (twiceBlock_byte.symm.trans h1) (by decide)

end Sys2Proof.Proofs
end

section
/-! PROOFS. The life of a primary before its commit (spec/10 R273, R291, R293; spec/08 R243): fetch, the header's checks, deadlines. -/

namespace Sys2Proof.Proofs
open Sys2Proof.Machine Sys2Proof.Laws.Shapes

/-! ### Lines entered in caches where no region is mapped -/

/-- No team has a mapped region. -/
def Unmapped (s : State) : Prop := ∀ p ∈ s.teams, p.2.regions = []

/-- Memory and the teams. -/
def stored (s : State) : List Host.Cell × Table Team := (s.mem, s.teams)

theorem Unmapped.of_stored {s t : State} (h : Unmapped s) (e : stored t = stored s) : Unmapped t := by
  have ht : t.teams = s.teams := (congrArg Prod.snd e :)
  unfold Unmapped
  rw [ht]
  exact h

section
variable {s : State}

theorem copiesOf_unmapped (h : Unmapped s) (l : Nat) : s.copiesOf l = [] := by
  unfold State.copiesOf
  exact List.flatMap_eq_nil_iff.mpr fun p hp => by rw [h p hp, List.flatMap_nil]

theorem yieldCopies_unmapped (h : Unmapped s) (l : Nat) (k : Bool) (who : Nat → Nat → Bool) : s.yieldCopies l k who = s := by
  unfold State.yieldCopies
  rw [copiesOf_unmapped h]
  rfl

@[simp] theorem stored_settleDie (d l : Nat) : stored (s.settleDie d l) = stored s := by
  unfold State.settleDie
  dsimp only
  split
  · rfl
  · split <;> rfl

theorem stored_snoopIn (h : Unmapped s) (d l : Nat) : stored (s.snoopIn d l) = stored s := by
  unfold State.snoopIn
  dsimp only
  split
  · rfl
  · rw [yieldCopies_unmapped h]
    exact stored_settleDie (s := s.dropL1 d _) d _

theorem stored_cacheIn (d l : Nat) (cp : BitVec 3) : stored (s.cacheIn d l cp) = stored s := by
  unfold State.cacheIn
  dsimp only
  split
  · rfl
  · split
    · exact stored_settleDie ..
    · rfl

theorem stored_lineIn (h : Unmapped s) (c l : Nat) (cp : BitVec 3) : stored (s.lineIn c l cp) = stored s := by
  have hc := stored_cacheIn (s := s) (dieOf c) l cp
  have hsnoop (f : Core → Core) : stored (((s.cacheIn (dieOf c) l cp).modCore c f).snoopIn (dieOf c) l) = stored s :=
    (stored_snoopIn (h.of_stored (t := (s.cacheIn (dieOf c) l cp).modCore c f) hc) _ _).trans hc
  unfold State.lineIn
  dsimp only
  split
  · exact hc
  · split
    · exact (stored_settleDie ..).trans (hsnoop _)
    · exact hsnoop _

theorem stored_ask (d k l : Nat) : stored (s.ask d k l) = stored s := by
  obtain ⟨dir, use, dies, ag, h⟩ := ask_state (s := s) d k l
  rw [h]
  rfl

end

/-! ### The lines of a block enter L1 -/

/-- A line of code fetched. -/
def codeIn (s : State) (l : Nat) : State := (s.lineIn s.g.core l 0).ask (dieOf s.g.core) 0 l

section
variable {s : State} (ls : List Nat)

theorem still_codeIns : still (ls.foldl codeIn s) = still s :=
  still_foldl (fun _ _ => (still_ask ..).trans (still_lineIn ..)) ls

theorem grows_codeIns : Grows s (ls.foldl codeIn s) := Grows.foldl (fun _ _ => (grows_lineIn ..).trans (grows_ask ..)) ls s

theorem stored_codeIns (h : Unmapped s) : stored (ls.foldl codeIn s) = stored s :=
  List.foldlRecOn (motive := fun u => stored u = stored s) ls codeIn rfl fun _ hu _ _ =>
    ((stored_ask ..).trans (stored_lineIn (h.of_stored hu) ..)).trans hu

end

/-! ### Faults of a fetch and of header decode -/

section
variable {s : State} {b : Blk}

theorem word_eq_zero (n : Nat) : w64 n = 0 ↔ n % 2 ^ 64 = 0 := by
  unfold w64
  rw [← BitVec.toNat_inj, BitVec.toNat_ofNat]
  rfl

/-- The fault of the primary before its instructions fire. -/
theorem decodeFaultAt_prim (s : State) (b : Blk) (code sub va : Nat) : s.decodeFaultAt false b code sub (w64 va) =
    s.takeFault { code := code, sub := sub, lanes := b.lanes, va := if va % 2 ^ 64 = 0 then [] else splat (w64 va) } b.addr
      (s.g.sup && b.addr == w64 supPage && [5, 6, 8, 9].contains code) := by
  unfold State.decodeFaultAt blockFault
  simp only [word_eq_zero, Bool.false_eq_true, if_false]

theorem awaiting_fetch (hp : s.g.prim = some b) (h : b.stage = .fetch) (n : Nat) : s.g.awaiting .fetch n = some (false, b) := by
  unfold Gang.awaiting
  simp [hp, h]

theorem awaiting_decode (hp : s.g.prim = some b) (h : b.stage = .decode) {n : Nat} (hn : b.due ≤ n) :
    s.g.awaiting .decode n = some (false, b) := by
  unfold Gang.awaiting
  simp [hp, h, hn]

theorem decodeFault_of_tag (h : b.tag ≠ 11) (sup : Bool) (quota : Nat) : b.decodeFault sup quota = some (2, 0) := by
  unfold Blk.decodeFault
  exact if_pos h

theorem decodeFault_of_headerBad (h : b.tag = 11) (hb : b.headerBad = true) (sup : Bool) (quota : Nat) :
    b.decodeFault sup quota = some (1, 1) := by
  unfold Blk.decodeFault Blk.illegal
  simp only [h, hb, ne_eq, not_true_eq_false, if_false, if_true]

/-! ### The steps themselves -/

/-- The state after the words of a primary have been read: their lines in L1, header decode due after `n` cycles. -/
def State.fetched (s : State) (b : Blk) (gang n : Nat) : State :=
  (({ (s.codeLines b.addr.toNat (16 + 4 * b.nw)).foldl codeIn s with isec := false } : State).setBlk b).laterHere n (.gang gang) .headerDecode

/-- The words of a block read, its header being read; `s0` is the state before the fetch. -/
def State.fetchWords (s s0 : State) (b : Blk) : State :=
  let w := s.readOwn (b.addr.toNat + 16) (4 * b.nw) { fetch := true, sup := s0.g.sup }
  match w.1 with
  | .error x => w.2.decodeFaultAt false b x.1.1 x.1.2 (w64 x.2)
  | .ok wb =>
    let at_ := if b.due = 0 then s0.clock + 2 else b.due
    State.fetched w.2 { b with words := wordsOfBytes wb, stage := .decode, due := at_ } s0.gid (at_ - s0.clock)

theorem fetchWords_error {t s0 : State} {x : Fail × Nat}
    (e : s.readOwn (b.addr.toNat + 16) (4 * b.nw) { fetch := true, sup := s0.g.sup } = (.error x, t)) :
    State.fetchWords s s0 b = t.decodeFaultAt false b x.1.1 x.1.2 (w64 x.2) := by
  unfold State.fetchWords
  rw [e]

theorem fetchWords_ok {t s0 : State} {wb : List Byte}
    (e : s.readOwn (b.addr.toNat + 16) (4 * b.nw) { fetch := true, sup := s0.g.sup } = (.ok wb, t)) :
    State.fetchWords s s0 b = State.fetched t { b with words := wordsOfBytes wb, stage := .decode, due := if b.due = 0 then s0.clock + 2 else b.due }
      s0.gid ((if b.due = 0 then s0.clock + 2 else b.due) - s0.clock) := by
  unfold State.fetchWords
  rw [e]

variable (b) in
theorem fetched_regs (gang n : Nat) : (State.fetched s b gang n).g.regs = s.g.regs :=
  (congrArg Gang.regs (still_gang (still_codeIns (s := s) _)) :)

variable (b) in
theorem fetched_agenda (gang n : Nat) : ∃ l,
    (State.fetched s b gang n).agenda = l ++ [⟨s.clock + n, some s.g.core, .gang gang, .headerDecode⟩] ∧ ∀ d ∈ s.agenda, d ∈ l := by
  have hst := still_codeIns (s := s) (s.codeLines b.addr.toNat (16 + 4 * b.nw))
  obtain ⟨l, hl⟩ := grows_codeIns (s := s) (s.codeLines b.addr.toNat (16 + 4 * b.nw))
  refine ⟨s.agenda ++ l, ?_, fun d hd => List.mem_append_left _ hd⟩
  rw [← hl, ← still_gang hst, ← calm_clock (calm_of_still hst)]
  rfl

variable (b) in
theorem fetched_mem (h : Unmapped s) (gang n : Nat) : (State.fetched s b gang n).mem = s.mem :=
  (congrArg Prod.fst (stored_codeIns _ h) :)

end

section
variable {s : State} {b : Blk} (hp : s.g.prim = some b) (hst : b.stage = .fetch)
include hp hst

/-- The fetch of a primary (R293). -/
theorem exec_blockFetch_prim :
    let h := s.readOwn b.addr.toNat 16 { fetch := true, sup := s.g.sup }
    exec .blockFetch s = match h.1 with
    | .error x => .next (h.2.decodeFaultAt false b x.1.1 x.1.2 (w64 x.2))
    | .ok hb =>
      let b1 : Blk := { b with hdr := wordsOfBytes hb }
      if b1.tag ≠ 11 then .next (h.2.decodeFaultAt false b1 2 0 0) else .next (State.fetchWords h.2 s b1) := by
  rw [exec_blockFetch]
  unfold execBlockFetch
  rw [awaiting_fetch hp hst]
  dsimp only
  cases (s.readOwn b.addr.toNat 16 { fetch := true, sup := s.g.sup }).1 with
  | error x => rfl
  | ok hb =>
    dsimp only
    split
    · rfl
    · unfold State.fetchWords
      dsimp only
      cases ((s.readOwn b.addr.toNat 16 { fetch := true, sup := s.g.sup }).2.readOwn (b.addr.toNat + 16)
        (4 * Blk.nw { b with hdr := wordsOfBytes hb }) { fetch := true, sup := s.g.sup }).1 <;> rfl

end

theorem readOwn_kept (s : State) (va n : Nat) (a : Acc) : kept (s.readOwn va n a).2 = kept s := kept_of_calm (calm_readOwn va n a)

/-- A block that has passed header decode. -/
def State.decodedBlk (s : State) (b : Blk) : Blk := { b with stage := .run, decoded := s.clock, start := s.clock, progress := s.clock }

/-- The state whose primary has passed header decode. -/
def State.decodedPrim (s : State) (b : Blk) : State := { s with g := { s.g with prim := some (State.decodedBlk s b) } }

section
variable {s : State} {b : Blk} (hp : s.g.prim = some b)
include hp

theorem startTimer_of_timed (hst : b.stage = .run) (ht : b.timed = true) (hf : s.fixedTiming = true) :
    s.startTimer = s.laterHere (b.start + b.tlen - s.clock) (.gang s.gid) .timedDeadline := by
  unfold State.startTimer
  simp [hp, hst, ht, hf]

theorem startTimer_of_untimed (h : ¬ (b.timed = true ∧ s.fixedTiming = true)) : s.startTimer = s := by
  unfold State.startTimer
  rw [hp]
  exact if_neg fun hx => h (by simp only [Bool.and_eq_true] at hx; exact hx.1)

end

/-- Settles O42, by the readings of the fetch, of header decode and of the deadlines. -/
theorem blockFetchAndDecode : Obligations.BlockFetchAndDecode := by
  intro s b hp hi h b1 w first fault due
  have hfault (t : State) (b' : Blk) (code sub va : Nat) (hl : b'.lanes = b.lanes) (ha : b'.addr = b.addr) (hg : t.g.sup = s.g.sup) :
      t.decodeFaultAt false b' code sub (w64 va) = fault t code sub va := by
    rw [decodeFaultAt_prim, hl, ha, hg]
    rfl
  have hh : h.2.g.sup = s.g.sup := (congrArg (·.2.sup) (readOwn_kept ..) :)
  have hgid : h.2.gid = s.gid := (congrArg (·.1) (readOwn_kept ..) :)
  have hw (hb : List Byte) : (w hb).2.g.sup = s.g.sup := ((congrArg (·.2.sup) (readOwn_kept ..) :) : _ = h.2.g.sup).trans hh
  have hwgid (hb : List Byte) : (w hb).2.gid = s.gid := ((congrArg (·.1) (readOwn_kept ..) :) : _ = h.2.gid).trans hgid
  refine ⟨fun hst => ?_, fun hst hd => ?_, fun ht hx hc hst hk => ?_, fun hb => ?_, fun hb => ?_⟩
  · have run := exec_blockFetch_prim hp hst
    refine ⟨fun x t e => ?_, fun hb t e ht => ?_, fun hb t x u e ht ew => ?_, fun hb t wb u e ht ew => ?_⟩
    · rw [run, show s.readOwn _ _ _ = _ from e]
      exact congrArg Host.Outcome.next (hfault t b _ _ _ rfl rfl (by rw [← hh, e]))
    · rw [run, show s.readOwn _ _ _ = _ from e]
      exact (if_pos ht).trans (congrArg Host.Outcome.next (hfault t (b1 hb) 2 0 0 rfl rfl (by rw [← hh, e])))
    · have ew' : t.readOwn ((b1 hb).addr.toNat + 16) (4 * (b1 hb).nw) { fetch := true, sup := s.g.sup } = (.error x, u) := by
        rw [← ew, show t = h.2 by rw [e]]
      rw [run, show s.readOwn _ _ _ = _ from e]
      refine (if_neg (not_not.mpr ht)).trans (congrArg Host.Outcome.next ((fetchWords_error ew').trans ?_))
      exact hfault u (b1 hb) _ _ _ rfl rfl (by rw [← hw hb, ew])
    · have ew' : t.readOwn ((b1 hb).addr.toNat + 16) (4 * (b1 hb).nw) { fetch := true, sup := s.g.sup } = (.ok wb, u) := by
        rw [← ew, show t = h.2 by rw [e]]
      have hu : u.gid = s.gid := by rw [← hwgid hb, ew]
      refine ⟨State.fetched u { b1 hb with words := wordsOfBytes wb, stage := .decode, due := due } u.gid (due - s.clock), ?_, rfl,
        fetched_regs .., fetched_agenda .., fun hm => fetched_mem _ hm ..⟩
      rw [run, show s.readOwn _ _ _ = _ from e, hu]
      exact (if_neg (not_not.mpr ht)).trans (congrArg Host.Outcome.next (fetchWords_ok ew'))
  · have run : exec .headerDecode s = execHeaderDecode s := exec_headerDecode s
    unfold execHeaderDecode at run
    rw [awaiting_decode hp hst hd] at run
    refine ⟨fun ht => decodeFault_of_tag ht _ _, fun ht hb => decodeFault_of_headerBad ht hb _ _, fun x e => ?_, fun e hk => ?_⟩
    · simp only [e] at run
      exact run.trans (congrArg Host.Outcome.next (hfault s b _ _ 0 rfl rfl rfl))
    · simp only [e, hk, Bool.false_eq_true, if_false] at run
      refine ⟨(State.decodedPrim s b).startTimer, run, ?_⟩
      by_cases ht : b.timed = true ∧ s.fixedTiming = true
      · rw [startTimer_of_timed (s := State.decodedPrim s b) (b := State.decodedBlk s b) rfl rfl ht.1 ht.2, if_pos ht]
        exact ⟨rfl, rfl, congrArg (fun n => s.agenda ++ [⟨s.clock + n, some s.g.core, .gang s.gid, .timedDeadline⟩])
          (Nat.add_sub_cancel_left ..)⟩
      · rw [startTimer_of_untimed (s := State.decodedPrim s b) (b := State.decodedBlk s b) rfl ht, if_neg ht]
        exact ⟨rfl, rfl, rfl⟩
  · rw [exec_timedDeadline]
    unfold execTimedDeadline
    simp [hp, ht, hx, hc, hst, hk]
    rfl
  · rw [exec_blockStall]
    unfold execBlockStall
    simp only [hp, hb, if_true]
    rfl
  · rw [exec_blockStall]
    unfold execBlockStall
    simp only [hp, Nat.not_le.mpr hb, if_false]

end Sys2Proof.Proofs
end

section
/-! PROOFS. The reply and engine steps (O60): the cycle of a core may take a fault, and so write a trace record. -/

namespace Sys2Proof.Proofs
open Sys2Proof.Machine

/-- A gang that has no primary, and a secondary that has met a fault, in a context whose trace session keeps records of faults and has no
room left: the status area lies in page 2048, which holds the context's tables too. -/
def faultAtPromotion : State :=
  { g := { slot := some 0, splits := [1], slices := [freshSlice 0 1 0],
           sec := some { addr := 0, slices := 1, lanes := 1, pend := some (blockFault 4 0 1 []) } }
    parts := [(0, { owner := some 0 })]
    ctxs := [(0, { table := w64 (2 ^ 28), trace := some { area := w64 (2 ^ 31 + 2 ^ 28 + 1024), evmask := 16 } })]
    ind := [(2048, indEntry true true 0 0 0)]
    mem := memSet (memSet (memSet [] 3 0x10) 7 0x80) 15 0xE6 }

/-- The count of lost records that a state keeps there, after an outcome. -/
def lostRecords : Out → Byte
  | .next t => memByte t.mem 1040
  | _ => 0

theorem lostRecords_before : memByte faultAtPromotion.mem 1040 = 0 := by decide +kernel

theorem lostRecords_after : lostRecords (exec .coreCycle faultAtPromotion) = 1 := by decide +kernel

/-- Refutes O60: the statement says that a core's cycle leaves memory as it is, and in `faultAtPromotion` the secondary that becomes the
primary takes its fault, whose trace record is lost and counted in memory. -/
theorem not_repliesAndEngines : ¬ Obligations.RepliesAndEngines := by
  intro h
  obtain ⟨-, -, -, -, -, -, -, -, -, -, -, -, -, -, -, -, -, -, -, -, -, -, -, -, -, -, -, t, ht, -, hmem, -⟩ :=
    h faultAtPromotion 0 0 0 0 0 0 0 0 0 0 false false false
      (badgerDesc .fill 0 0 .i8 .i8 .add 0 [])
  have hcount : lostRecords (exec .coreCycle faultAtPromotion) = memByte faultAtPromotion.mem 1040 := by
    rw [ht, ← hmem]
    rfl
  rw [lostRecords_after, lostRecords_before] at hcount
  exact absurd hcount (by decide)

end Sys2Proof.Proofs
end

section
/-! PROOFS. What the work of the package's own units leaves alone: the home agents, messages to other packages, and the Owl with its
queues. Each function keeps the part of the state that is erased in none of the components of `outer` or `house`, and everything that a state
has entered or sent stands in what follows (`Onward`). -/

namespace Sys2Proof.Proofs
open Sys2Proof Sys2Proof.Machine Sys2Proof.Laws.Shapes

/-! ### Steps entered and events sent stay -/

/-- The agenda and the events that have left the package go on from those of a state. -/
def Onward (s t : State) : Prop := s.agenda <+: t.agenda ∧ s.out <+: t.out

section
variable {s t u : State}

theorem Onward.refl (s : State) : Onward s s := ⟨List.prefix_rfl, List.prefix_rfl⟩

theorem Onward.trans (h : Onward s t) (k : Onward t u) : Onward s u := ⟨h.1.trans k.1, h.2.trans k.2⟩

theorem Onward.of_eq (ha : t.agenda = s.agenda) (ho : t.out = s.out) : Onward s t := by
  constructor
  · rw [ha]
  · rw [ho]

theorem Onward.foldl {α : Type} {f : State → α → State} (h : ∀ s x, Onward s (f s x)) (l : List α) : ∀ s, Onward s (l.foldl f s) := by
  induction l with
  | nil => exact Onward.refl
  | cons x l ih => exact fun s => (h s x).trans (ih _)

/-- What enters steps and sends nothing. -/
theorem Onward.of_grows (h : Grows s t) (k : still t = still s) : Onward s t := by
  obtain ⟨l, hl⟩ := h
  exact ⟨⟨l, hl.symm⟩, by rw [still_state k State.out fun _ => rfl]⟩

theorem Onward.due (h : Onward s t) {d : Due} (hd : d ∈ s.agenda) : d ∈ t.agenda := h.1.subset hd

theorem Onward.said (h : Onward s t) {e : OutEvent} (he : e ∈ s.out) : e ∈ t.out := h.2.subset he

theorem onward_later (d : Nat) (j : Subject) (e : Instr) : Onward s (s.later d j e) := ⟨⟨_, rfl⟩, List.prefix_rfl⟩
theorem onward_laterOn (c d : Nat) (j : Subject) (e : Instr) : Onward s (s.laterOn c d j e) := ⟨⟨_, rfl⟩, List.prefix_rfl⟩
theorem onward_soon (j : Subject) (e : Instr) : Onward s (s.soon j e) := onward_later ..
theorem onward_offCore (j : Subject) (e : Instr) : Onward s (s.offCore j e) := ⟨⟨_, rfl⟩, List.prefix_rfl⟩
theorem onward_emit (e : OutEvent) : Onward s (s.emit e) := ⟨List.prefix_rfl, ⟨_, rfl⟩⟩

theorem mem_later (d : Nat) (j : Subject) (e : Instr) : ⟨s.now + d, none, j, e⟩ ∈ (s.later d j e).agenda :=
  List.mem_append_right _ (List.mem_singleton.mpr rfl)
theorem mem_soon (j : Subject) (e : Instr) : ⟨s.now, none, j, e⟩ ∈ (s.soon j e).agenda := mem_later ..
theorem mem_offCore (j : Subject) (e : Instr) : ∃ d ∈ (s.offCore j e).agenda, s.now < d.time ∧ d.clock = none ∧ d.subj = j ∧ d.ev = e :=
  ⟨_, List.mem_append_right _ (List.mem_singleton.mpr rfl), by simp only [Nat.add_assoc]; omega, rfl, rfl, rfl⟩
theorem mem_emit (e : OutEvent) : e ∈ (s.emit e).out := List.mem_append_right _ (List.mem_singleton.mpr rfl)

end

/-! ### Views of a state -/

/-- The part that home agents and messages keep: `still`, without what the links hold and what has left the package. -/
def outer (s : State) : State × (Nat → Core) × (Nat → Option Team) :=
  ({ (still s).1 with pkg := { s.pkg with links := [] }, out := [] }, (still s).2)

/-- The part that a queue's updates keep too. -/
def house (s : State) : State × (Nat → Core) × (Nat → Option Team) :=
  ({ (outer s).1 with queues := [], owl := { s.owl with pba := [], plic := [] } }, (outer s).2)

section
variable {s t : State}

theorem outer_of_still (h : still t = still s) : outer t = outer s := by
  have hp : t.pkg = s.pkg := still_state h State.pkg fun _ => rfl
  unfold outer
  rw [h, hp]

theorem house_of_outer (h : outer t = outer s) : house t = house s := by
  have ho : t.owl = s.owl := congrArg (fun x => x.1.owl) h
  unfold house
  rw [h, ho]

theorem house_of_still (h : still t = still s) : house t = house s := house_of_outer (outer_of_still h)

theorem foldl_kept {α β : Type} {f : State → α → State} (p : State → β) (h : ∀ s x, p (f s x) = p s) (l : List α) : p (l.foldl f s) = p s := by
  induction l generalizing s with
  | nil => rfl
  | cons x l ih => exact (ih (s := f s x)).trans (h s x)

theorem outer_foldl {α : Type} {f : State → α → State} (h : ∀ s x, outer (f s x) = outer s) (l : List α) : outer (l.foldl f s) = outer s :=
  foldl_kept outer h l

theorem house_foldl {α : Type} {f : State → α → State} (h : ∀ s x, house (f s x) = house s) (l : List α) : house (l.foldl f s) = house s :=
  foldl_kept house h l

/-- What depends on the part that home agents and messages keep. -/
theorem outer_state (h : outer t = outer s) {α : Type} (f : State → α) (hf : ∀ s, f (outer s).1 = f s) : f t = f s := by
  rw [← hf t, ← hf s, h]

theorem house_state (h : house t = house s) {α : Type} (f : State → α) (hf : ∀ s, f (house s).1 = f s) : f t = f s := by
  rw [← hf t, ← hf s, h]

end

/-! ### Messages -/

section
variable {s : State}

@[simp] theorem outer_modLink (l : Link) (f : LinkSt → LinkSt) : outer (s.modLink l f) = outer s := rfl
@[simp] theorem outer_emit (e : OutEvent) : outer (s.emit e) = outer s := rfl
@[simp] theorem outer_later (d : Nat) (j : Subject) (e : Instr) : outer (s.later d j e) = outer s := rfl
@[simp] theorem outer_laterOn (c d : Nat) (j : Subject) (e : Instr) : outer (s.laterOn c d j e) = outer s := rfl
@[simp] theorem outer_soon (j : Subject) (e : Instr) : outer (s.soon j e) = outer s := rfl
@[simp] theorem outer_offCore (j : Subject) (e : Instr) : outer (s.offCore j e) = outer s := rfl
@[simp] theorem outer_modDie (d : Nat) (f : DieSt → DieSt) : outer (s.modDie d f) = outer s := rfl

theorem outer_makeFlit (x : LinkSt) (vc : BitVec 3) : outer (s.makeFlit x vc).2 = outer s := rfl

@[simp] theorem outer_launchFlit (l : Link) (vc : BitVec 3) : outer (s.launchFlit l vc) = outer s := by
  unfold State.launchFlit
  dsimp only
  split
  · rw [outer_later, outer_emit, outer_modLink, outer_makeFlit]
  · rw [outer_emit, outer_modLink, outer_makeFlit]

@[simp] theorem outer_sendFlit (l : Link) (vc : BitVec 3) : outer (s.sendFlit l vc) = outer s := by
  unfold State.sendFlit
  dsimp only
  split
  · rfl
  · split <;> simp

@[simp] theorem outer_message (d : Option Nat) (n : Nat) (die : Option Nat) (vc : BitVec 3) (addr : Option Nat) (what : String) (ws : List W64) :
    outer (s.message d n die vc addr what ws) = outer s := by
  unfold State.message
  dsimp only
  split <;> simp

@[simp] theorem outer_tell (n : Nat) (what : String) (ws : List W64) : outer (s.tell n what ws) = outer s := outer_message ..

theorem onward_launchFlit (l : Link) (vc : BitVec 3) : Onward s (s.launchFlit l vc) := by
  have hsent (y : Flit × State) (f : LinkSt → LinkSt) (ha : y.2.agenda = s.agenda) (ho : y.2.out = s.out) :
      Onward s ((y.2.modLink l f).emit (.flit l y.1)) :=
    (Onward.of_eq ha ho : Onward s (y.2.modLink l f)).trans (onward_emit _)
  unfold State.launchFlit
  dsimp only
  split
  · exact (hsent _ _ rfl rfl).trans (onward_later ..)
  · exact hsent _ _ rfl rfl

theorem onward_sendFlit (l : Link) (vc : BitVec 3) : Onward s (s.sendFlit l vc) := by
  unfold State.sendFlit
  dsimp only
  split
  · exact Onward.refl s
  · split
    · exact onward_launchFlit ..
    · exact Onward.of_eq rfl rfl

theorem onward_emitted (d : Option Nat) (n : Nat) (die : Option Nat) (vc : BitVec 3) (addr : Option Nat) (what : String) (ws : List W64) :
    Onward (s.emit (.control n what ws)) (s.message d n die vc addr what ws) := by
  unfold State.message
  dsimp only
  split
  · exact onward_sendFlit ..
  · exact Onward.refl _

theorem onward_message (d : Option Nat) (n : Nat) (die : Option Nat) (vc : BitVec 3) (addr : Option Nat) (what : String) (ws : List W64) :
    Onward s (s.message d n die vc addr what ws) := (onward_emit _).trans (onward_emitted ..)

theorem onward_tell (n : Nat) (what : String) (ws : List W64) : Onward s (s.tell n what ws) := onward_message ..

theorem mem_message (d : Option Nat) (n : Nat) (die : Option Nat) (vc : BitVec 3) (addr : Option Nat) (what : String) (ws : List W64) :
    .control n what ws ∈ (s.message d n die vc addr what ws).out := (onward_emitted ..).said (mem_emit _)

theorem mem_tell (n : Nat) (what : String) (ws : List W64) : .control n what ws ∈ (s.tell n what ws).out := mem_message ..

end

/-! ### Home agents -/

section
variable {s : State}

@[simp] theorem still_leaveDie (d l : Nat) (keep : Bool) : still (s.leaveDie d l keep) = still s := by
  unfold State.leaveDie
  dsimp only
  split <;> simp

@[simp] theorem outer_leaveDie (d l : Nat) (keep : Bool) : outer (s.leaveDie d l keep) = outer s := outer_of_still (still_leaveDie ..)

@[simp] theorem outer_setDir (l : Nat) (d : Dir) : outer (s.setDir l d) = outer s := outer_of_still (still_setDir ..)

@[simp] theorem outer_sendProbe (die l : Nat) (k : ProbeKind) : outer (s.sendProbe die l k) = outer s := by
  unfold State.sendProbe
  split <;> simp

@[simp] theorem outer_nearClear (l : Nat) : outer (s.nearClear l).2 = outer s := by
  unfold State.nearClear
  dsimp only
  split
  · rfl
  · split
    · rw [outer_setDir, outer_foldl fun _ _ => outer_leaveDie ..]
    · rw [outer_foldl fun _ _ => outer_sendProbe .., outer_setDir, outer_foldl fun _ _ => outer_leaveDie ..]

theorem outer_nearClearAll (ls : List Nat) : outer (s.nearClearAll ls).2 = outer s := by
  have hfold (b : Bool) (u : State) : outer (ls.foldl (fun x l => let y := x.2.nearClear l; (x.1 && y.1, y.2)) (b, u)).2 = outer u := by
    induction ls generalizing b u with
    | nil => rfl
    | cons l ls ih => exact (ih ..).trans (outer_nearClear l)
  exact hfold true s

@[simp] theorem outer_nearLines (ls : List Nat) : outer (s.nearLines ls) = outer s := outer_nearClearAll ls

@[simp] theorem outer_poolWrite (a : Nat) (bs : List Byte) : outer (s.poolWrite a bs) = outer s := outer_of_still (still_poolWrite ..)
@[simp] theorem outer_writeCells (l : List (Nat × Byte)) : outer (s.writeCells l) = outer s := outer_of_still (still_writeCells ..)
@[simp] theorem outer_clearLost (l : List Nat) : outer (s.clearLost l) = outer s := outer_of_still (still_clearLost ..)

theorem grows_dropL1 (d l : Nat) : Grows s (s.dropL1 d l) := Grows.of_eq rfl
theorem grows_setDir (l : Nat) (d : Dir) : Grows s (s.setDir l d) := by
  unfold State.setDir
  split <;> exact Grows.of_eq rfl

theorem grows_leaveDie (d l : Nat) (keep : Bool) : Grows s (s.leaveDie d l keep) := by
  unfold State.leaveDie
  dsimp only
  split
  · exact grows_yieldCopies ..
  · exact (grows_yieldCopies ..).trans (Grows.of_eq rfl)

theorem onward_leaveDie (d l : Nat) (keep : Bool) : Onward s (s.leaveDie d l keep) := Onward.of_grows (grows_leaveDie ..) (still_leaveDie ..)
theorem onward_setDir (l : Nat) (d : Dir) : Onward s (s.setDir l d) := Onward.of_grows (grows_setDir ..) (still_setDir ..)
theorem onward_writeCells (l : List (Nat × Byte)) : Onward s (s.writeCells l) := Onward.of_grows (grows_writeCells ..) (still_writeCells ..)
theorem onward_poolWrite (a : Nat) (bs : List Byte) : Onward s (s.poolWrite a bs) := onward_writeCells _
theorem onward_clearLost (l : List Nat) : Onward s (s.clearLost l) := by
  unfold State.clearLost
  split
  · exact Onward.refl s
  · exact Onward.of_eq rfl rfl

theorem onward_sendProbe (die l : Nat) (k : ProbeKind) : Onward s (s.sendProbe die l k) := by
  unfold State.sendProbe
  split
  · exact onward_soon ..
  · exact onward_message ..

theorem onward_nearClear (l : Nat) : Onward s (s.nearClear l).2 := by
  unfold State.nearClear
  dsimp only
  split
  · exact Onward.refl s
  · split
    · exact (Onward.foldl (fun _ _ => onward_leaveDie ..) _ s).trans (onward_setDir ..)
    · exact ((Onward.foldl (fun _ _ => onward_leaveDie ..) _ s).trans (onward_setDir ..)).trans (Onward.foldl (fun _ _ => onward_sendProbe ..) _ _)

theorem onward_nearLines (ls : List Nat) : Onward s (s.nearLines ls) := by
  have hfold (b : Bool) (u : State) : Onward u (ls.foldl (fun x l => let y := x.2.nearClear l; (x.1 && y.1, y.2)) (b, u)).2 := by
    induction ls generalizing b u with
    | nil => exact Onward.refl u
    | cons l ls ih => exact (onward_nearClear l).trans (ih ..)
  exact hfold true s

end

/-! ### The lines that a write reaches -/

/-- A byte of memory that is none of some lines'. -/
def State.Outside (s : State) (lines : List Nat) (k : Nat) : Prop := ∀ l ∈ lines, ∀ j, j < 256 → s.poolKey (256 * l + j) ≠ k

section
variable {s t : State} {k : Nat}

theorem poolKey_of_outer (h : outer t = outer s) (a : Nat) : t.poolKey a = s.poolKey a := outer_state h (fun s => s.poolKey a) fun _ => rfl

theorem Outside.of_outer {ls : List Nat} (h : State.Outside s ls k) (hv : outer t = outer s) : State.Outside t ls k := by
  intro l hl j hj
  rw [poolKey_of_outer hv]
  exact h l hl j hj

theorem Outside.of_mem {ls : List Nat} (h : State.Outside s ls k) {l : Nat} (hl : l ∈ ls) : State.Outside s [l] k := by
  intro x hx
  rw [List.mem_singleton.mp hx]
  exact h l hl

theorem memByte_memCells_other {cells : List (Nat × Byte)} (h : ∀ c ∈ cells, s.poolKey c.1 ≠ k) :
    memByte (s.memCells cells).mem k = memByte s.mem k := by
  induction cells generalizing s with
  | nil => rfl
  | cons c cells ih =>
    have hc := h c (List.mem_cons_self ..)
    refine (ih (s := { s with mem := memSet s.mem (s.poolKey c.1) c.2 }) fun x hx => h x (List.mem_cons_of_mem _ hx)).trans ?_
    rw [memByte_memSet, if_neg fun e => hc e.symm]

theorem memByte_foldl_other {α : Type} {f : State → α → State} {l : List α} (hv : ∀ u x, outer (f u x) = outer u)
    (h : ∀ u x, x ∈ l → outer u = outer s → memByte (f u x).mem k = memByte u.mem k) : memByte (l.foldl f s).mem k = memByte s.mem k := by
  induction l generalizing s with
  | nil => rfl
  | cons x l ih =>
    rw [List.foldl_cons, ih fun u y hy hu => h u y (List.mem_cons_of_mem _ hy) (hu.trans (hv s x)), h s x (List.mem_cons_self ..) rfl]

theorem memByte_yieldCopy_other {l : Nat} {keep : Bool} {x : Nat × Region × Nat} (h : State.Outside s [l] k) :
    memByte (s.yieldCopy l keep x).mem k = memByte s.mem k := by
  have hcells (tm : Team) : ∀ c ∈ tm.dirtyCells x.2.1 x.2.2 l, s.poolKey c.1 ≠ k := by
    intro c hc
    simp only [Team.dirtyCells, List.mem_flatMap, List.mem_filter, List.mem_range, List.mem_map] at hc
    obtain ⟨half, ⟨hh, -⟩, i, hi, rfl⟩ := hc
    have := h l (List.mem_singleton.mpr rfl) (128 * half + i) (by omega)
    rwa [← Nat.add_assoc] at this
  rw [show (s.yieldCopy l keep x).mem = (s.memCells ((s.teamAt x.1).dirtyCells x.2.1 x.2.2 l)).mem by
    unfold State.yieldCopy State.modTeam
    dsimp only
    split <;> rfl]
  exact memByte_memCells_other (hcells _)

theorem memByte_yieldCopies_other {l : Nat} {keep : Bool} {who : Nat → Nat → Bool} (h : State.Outside s [l] k) :
    memByte (s.yieldCopies l keep who).mem k = memByte s.mem k :=
  memByte_foldl_other (fun _ _ => outer_of_still (still_yieldCopy ..)) fun _ _ _ hu => memByte_yieldCopy_other (Outside.of_outer h hu)

theorem memByte_claimLine_other {l : Nat} {who : Nat → Nat → Bool} (h : State.Outside s [l] k) :
    memByte (s.claimLine who l).mem k = memByte s.mem k := by
  have hmem : (s.claimLine who l).mem = (s.yieldCopies l false who).mem := by
    unfold State.claimLine
    dsimp only
    rw [State.noteWrites_mem]
    exact foldl_mem' _ _ _ fun u d => by split <;> rfl
  rw [hmem, memByte_yieldCopies_other h]

theorem memByte_writeCells_other {cells : List (Nat × Byte)} (h : State.Outside s (cells.map fun c => c.1 / 256) k) :
    memByte (s.writeCells cells).mem k = memByte s.mem k := by
  have hclaimed (u : State) (hu : outer u = outer s) : ∀ c ∈ cells, u.poolKey c.1 ≠ k := by
    intro c hc
    have := h _ (List.mem_map_of_mem hc) (c.1 % 256) (Nat.mod_lt _ (by decide))
    rw [Nat.div_add_mod] at this
    rwa [poolKey_of_outer hu]
  have hview : ∀ (u : State) (x : Nat), outer (u.claimLine (fun _ _ => true) x) = outer u := fun _ _ => outer_of_still (still_claimLine ..)
  unfold State.writeCells
  rw [memByte_memCells_other (hclaimed _ (outer_foldl hview _)), memByte_foldl_other hview fun u x hx hu => ?_]
  exact memByte_claimLine_other (Outside.of_outer (Outside.of_mem h (List.mem_eraseDups.mp hx)) hu)

theorem memByte_poolWrite_other {a : Nat} {bs : List Byte} (h : State.Outside s ((List.range bs.length).map fun i => (a + i) / 256) k) :
    memByte (s.poolWrite a bs).mem k = memByte s.mem k := by
  refine memByte_writeCells_other fun l hl => h l ?_
  obtain ⟨c, hc, rfl⟩ := List.mem_map.mp hl
  obtain ⟨i, hi, hic⟩ := List.mem_map.mp (List.of_mem_zip hc).1
  exact List.mem_map.mpr ⟨i, hi, by rw [hic]⟩

theorem memByte_leaveDie_other {d l : Nat} {keep : Bool} (h : State.Outside s [l] k) : memByte (s.leaveDie d l keep).mem k = memByte s.mem k := by
  unfold State.leaveDie
  dsimp only
  split <;> exact memByte_yieldCopies_other h

theorem memByte_nearClear_other {l : Nat} (h : State.Outside s [l] k) : memByte (s.nearClear l).2.mem k = memByte s.mem k := by
  have hleave (x : List Nat) : memByte (x.foldl (fun s i => s.leaveDie (i % 4) l false) s).mem k = memByte s.mem k :=
    memByte_foldl_other (fun _ _ => outer_leaveDie ..) fun _ _ _ hu => memByte_leaveDie_other (Outside.of_outer h hu)
  unfold State.nearClear
  dsimp only
  split
  · rfl
  · split
    · simp only [State.setDir_mem]
      exact hleave _
    · rw [foldl_mem' _ _ _ fun _ _ => State.sendProbe_mem .., State.setDir_mem]
      exact hleave _

theorem memByte_nearLines_other {ls : List Nat} (h : State.Outside s ls k) : memByte (s.nearLines ls).mem k = memByte s.mem k := by
  have hfold (xs : List Nat) (hxs : ∀ x ∈ xs, x ∈ ls) (b : Bool) (u : State) (hu : outer u = outer s) :
      memByte (xs.foldl (fun x l => let y := x.2.nearClear l; (x.1 && y.1, y.2)) (b, u)).2.mem k = memByte u.mem k := by
    induction xs generalizing b u with
    | nil => rfl
    | cons x xs ih =>
      refine (ih (fun y hy => hxs y (List.mem_cons_of_mem _ hy)) _ _ ((outer_nearClear x).trans hu)).trans ?_
      exact memByte_nearClear_other (Outside.of_outer (Outside.of_mem h (hxs x (List.mem_cons_self ..))) hu)
  exact hfold ls (fun _ h => h) true s rfl

end

/-! ### Lines that nobody holds -/

/-- A state without its directories. -/
def undirected (s : State) : State := { s with dir := [], dirUse := [] }

section
variable {s t : State}

theorem undirected_setDir (l : Nat) (d : Dir) : undirected (s.setDir l d) = undirected s := by
  unfold State.setDir
  split <;> rfl

/-- What is read beside the directories. -/
theorem undirected_state (h : undirected t = undirected s) {α : Type} (f : State → α) (hf : ∀ s, f (undirected s) = f s) : f t = f s := by
  rw [← hf t, ← hf s, h]

theorem tfind_tdel_other {α : Type} (t : Table α) {n m : Nat} (h : m ≠ n) : tfind (tdel t n) m = tfind t m := by
  induction t with
  | nil => rfl
  | cons p r ih =>
    obtain ⟨k, v⟩ := p
    unfold tdel
    split
    next hk =>
      unfold tfind
      rw [if_neg fun e => h (e.symm.trans hk)]
      exact (tfind.eq_def r m).symm
    next =>
      unfold tfind
      rw [ih]

theorem dirAt_setDir_other {l m : Nat} {d : Dir} (h : m ≠ l) : (s.setDir l d).dirAt m = s.dirAt m := by
  unfold State.setDir State.dirAt tget
  dsimp only
  split
  · dsimp only
    rw [tfind_tdel_other _ h]
  · dsimp only
    rw [tfind_tset, if_neg h]

theorem diesOf_zero : diesOf 0 = [] := by
  unfold diesOf
  exact List.filter_eq_nil_iff.mpr fun i _ => by simp

/-- Clearing a line that no die holds touches its directory entry at most. -/
theorem nearClear_of_free {l : Nat} (h : (s.dirAt l).sharers = 0) : (s.nearClear l).2 = s ∨ ∃ d, (s.nearClear l).2 = s.setDir l d := by
  unfold State.nearClear
  simp only [h, diesOf_zero]
  split
  · exact .inl rfl
  · exact .inr ⟨_, rfl⟩

/-- Lines that differ and that no die holds are cleared without a word. -/
theorem nearLines_of_free {ls : List Nat} (hd : ls.Nodup) (h : ∀ l ∈ ls, (s.dirAt l).sharers = 0) : undirected (s.nearLines ls) = undirected s := by
  have hfold (xs : List Nat) (b : Bool) (u : State) (hd : xs.Nodup) (hx : ∀ l ∈ xs, (u.dirAt l).sharers = 0) :
      undirected (xs.foldl (fun x l => let y := x.2.nearClear l; (x.1 && y.1, y.2)) (b, u)).2 = undirected u := by
    induction xs generalizing b u with
    | nil => rfl
    | cons l xs ih =>
      obtain ⟨hl, hd⟩ := List.nodup_cons.mp hd
      have hrest := fun m hm => hx m (List.mem_cons_of_mem l hm)
      rw [List.foldl_cons]
      rcases nearClear_of_free (hx l (List.mem_cons_self ..)) with hu | ⟨d, hu⟩
      · exact (ih _ _ hd (by rw [hu]; exact hrest)).trans (by rw [hu])
      · refine (ih _ _ hd ?_).trans (by rw [hu, undirected_setDir])
        intro m hm
        rw [hu, dirAt_setDir_other (ne_of_mem_of_not_mem hm hl)]
        exact hrest m hm
  exact hfold ls true s hd h

end

end Sys2Proof.Proofs
end

section
/-! PROOFS. Home agents (O53): a line listed twice in the directory's table shows its second entry when the first has gone. -/

namespace Sys2Proof.Proofs
open Sys2Proof.Machine

/-- Line 0 stands twice in the directory's table, both times as M of C-die 0. -/
def listedTwice : State := { dir := [(0, { st := .m }), (0, { st := .m })] }

/-- The directory's state of line 0 after an outcome. -/
def lineState : Out → DirState
  | .next t => (t.dirAt 0).st
  | _ => .i

theorem listedTwice_writtenBack : lineState (exec (.wb 0 0 (some [])) listedTwice) = .m := by decide +kernel

/-- Refutes O53: the write-back of a line in M leaves it in I where no transaction is open, says the statement of every state; in
`listedTwice` only the first entry leaves the table. -/
theorem not_directoryAndMoves : ¬ Obligations.DirectoryAndMoves := by
  intro h
  obtain ⟨-, -, -, hwb, -⟩ := h listedTwice 0 0 0 0 [] false (some [])
  obtain ⟨t, ht, -, -, hstate, -⟩ := hwb (by decide +kernel) rfl (by decide) (by decide)
  obtain ⟨hi, -⟩ := hstate rfl
  have hm : lineState (exec (.wb 0 0 (some [])) listedTwice) = (t.dirAt 0).st := by rw [ht]; rfl
  rw [listedTwice_writtenBack, hi] at hm
  exact absurd hm (by decide)

end Sys2Proof.Proofs
end

section
/-! PROOFS. Edge queues at their homes (O54): a line listed twice in the directory's table is cleared only once. -/

namespace Sys2Proof.Proofs
open Sys2Proof.Machine

/-- Line 0 stands twice in the directory's table: with nothing to remember, and with an open transaction. -/
def clearAboveOpen : State := { dir := [(0, {}), (0, { pending := some ⟨0, 0, []⟩ })] }

/-- A send to the queue whose descriptor and slot lie in line 0; the queue has no room. -/
def sendAtZero : EdgeReq := { gang := 0, handler := false, pos := 0, desc := 0, payload := [] }

/-- How many requests are parked after an outcome. -/
def parkedCount : Out → Nat
  | .next t => t.parkedEdges.length
  | _ => 0

theorem parkedCount_clearAboveOpen : parkedCount (exec (.edgeSend sendAtZero) clearAboveOpen) = 0 := by decide +kernel

/-- Refutes O54: a send to a queue without room is parked where no die holds the lines, says the statement of every state; in
`clearAboveOpen` the first clearing of line 0 brings its second entry to light, and the send comes again. -/
theorem not_countersAndQueues : ¬ Obligations.CountersAndQueues := by
  intro h
  obtain ⟨-, -, -, hsends, -⟩ := h clearAboveOpen false 0 0 sendAtZero true
  obtain ⟨-, -, -, hfull⟩ := hsends (.edgeSend sendAtZero) (List.mem_cons_self ..)
  obtain ⟨hparks, -⟩ := hfull (by decide +kernel) (by decide +kernel)
  obtain ⟨t, ht, hparked, -⟩ := hparks (by decide +kernel)
  have hcount : parkedCount (exec (.edgeSend sendAtZero) clearAboveOpen) = t.parkedEdges.length := by rw [ht]; rfl
  rw [parkedCount_clearAboveOpen, hparked] at hcount
  exact absurd hcount (by decide)

end Sys2Proof.Proofs
end

section
/-! PROOFS. The Owl's queues: what an update of a queue, a halt, a stop, a packet's acceptance and its completion leave alone, and what
they enter. -/

namespace Sys2Proof.Proofs
open Sys2Proof Sys2Proof.Machine Sys2Proof.Laws.Shapes

/-! ### The QCB -/

section
variable {s t : State}

@[simp] theorem house_modQueue (n : Nat) (f : Queue → Queue) : house (s.modQueue n f) = house s := rfl
@[simp] theorem house_emit (e : OutEvent) : house (s.emit e) = house s := rfl
@[simp] theorem house_soon (j : Subject) (e : Instr) : house (s.soon j e) = house s := rfl
@[simp] theorem house_later (d : Nat) (j : Subject) (e : Instr) : house (s.later d j e) = house s := rfl
@[simp] theorem house_offCore (j : Subject) (e : Instr) : house (s.offCore j e) = house s := rfl

@[simp] theorem outer_putQcb (a n : Nat) (q : Queue) (g : Nat) : outer (s.putQcb a n q g) = outer s := by
  unfold State.putQcb
  split <;> simp

theorem onward_putQcb (a n : Nat) (q : Queue) (g : Nat) : Onward s (s.putQcb a n q g) := by
  unfold State.putQcb
  split
  · exact Onward.refl s
  · exact ((onward_poolWrite ..).trans (onward_poolWrite ..)).trans (onward_nearLines _)

theorem queueAt_modQueue (n m : Nat) (f : Queue → Queue) : (s.modQueue n f).queueAt m = if m = n then f (s.queueAt n) else s.queueAt m :=
  tget_tset ..

/-- What an update of its QCB makes of a queue (R107). -/
def published (q : Queue) : Queue :=
  { q with gen := q.gen + 1, qstate := if q.qstate.reads then (if q.settled then .idle else .running) else q.qstate }

/-- An update is the queue's change, and then work that `outer` and `Onward` speak of. -/
theorem writeQcb_after (n : Nat) :
    outer (s.writeQcb n) = outer (s.modQueue n fun _ => published (s.queueAt n)) ∧ Onward s (s.writeQcb n) := by
  have ho : Onward s (s.modQueue n fun _ => published (s.queueAt n)) := Onward.of_eq rfl rfl
  unfold State.writeQcb
  dsimp only
  split
  · exact ⟨(outer_putQcb ..).trans (outer_putQcb ..), (ho.trans (onward_putQcb ..)).trans (onward_putQcb ..)⟩
  · exact ⟨outer_putQcb .., ho.trans (onward_putQcb ..)⟩

@[simp] theorem house_writeQcb (n : Nat) : house (s.writeQcb n) = house s := (house_of_outer (writeQcb_after n).1).trans (house_modQueue ..)

theorem onward_writeQcb (n : Nat) : Onward s (s.writeQcb n) := (writeQcb_after n).2

theorem queueAt_of_outer (h : outer t = outer s) (n : Nat) : t.queueAt n = s.queueAt n := outer_state h (fun s => s.queueAt n) fun _ => rfl

theorem queueAt_writeQcb (n m : Nat) : (s.writeQcb n).queueAt m = if m = n then published (s.queueAt n) else s.queueAt m :=
  (queueAt_of_outer (writeQcb_after n).1 m).trans (queueAt_modQueue ..)

@[simp] theorem house_modQcb (n : Nat) (f : Queue → Queue) : house (s.modQcb n f) = house s := house_writeQcb n

theorem onward_modQueue (n : Nat) (f : Queue → Queue) : Onward s (s.modQueue n f) := Onward.of_eq rfl rfl

theorem onward_modQcb (n : Nat) (f : Queue → Queue) : Onward s (s.modQcb n f) := (onward_modQueue n f).trans (onward_writeQcb n)

theorem queueAt_modQcb (n m : Nat) (f : Queue → Queue) :
    (s.modQcb n f).queueAt m = if m = n then published (f (s.queueAt n)) else s.queueAt m := by
  unfold State.modQcb
  rw [queueAt_writeQcb, queueAt_modQueue, if_pos rfl, queueAt_modQueue]
  split <;> rfl

theorem owl_of_outer (h : outer t = outer s) : t.owl = s.owl := outer_state h State.owl fun _ => rfl
theorem ctxs_of_house (h : house t = house s) : t.ctxs = s.ctxs := house_state h State.ctxs fun _ => rfl

/-- A part of the Owl that is none of its pending interrupts. -/
theorem owl_of_house (h : house t = house s) {α : Type} (f : Owl → α) (hf : ∀ o : Owl, f { o with pba := [], plic := [] } = f o) : f t.owl = f s.owl :=
  house_state h (fun s => f s.owl) fun s => hf s.owl

/-! ### Interrupts and halts -/

@[simp] theorem house_sendVector (v : Nat) : house (s.sendVector v) = house s := by
  unfold State.sendVector
  split <;> rfl

@[simp] theorem house_raiseVector (v : Nat) : house (s.raiseVector v) = house s := by
  unfold State.raiseVector
  split
  · rfl
  · simp

@[simp] theorem house_interrupt (n : Nat) : house (s.interrupt n) = house s := house_raiseVector _

theorem onward_interrupt (n : Nat) : Onward s (s.interrupt n) := by
  unfold State.interrupt State.raiseVector State.sendVector
  split
  · exact (Onward.of_eq rfl rfl).trans (onward_emit _)
  · split
    · exact Onward.of_eq rfl rfl
    · exact onward_emit _

theorem queues_interrupt (n : Nat) : (s.interrupt n).queues = s.queues := by
  unfold State.interrupt State.raiseVector State.sendVector
  split
  · rfl
  · split <;> rfl

theorem queueAt_interrupt (n m : Nat) : (s.interrupt n).queueAt m = s.queueAt m := congrArg (fun t : Table Queue => tget t m {}) (queues_interrupt n)

@[simp] theorem house_haltQueue (n k : Nat) (tag : W32) (sub : Nat) : house (s.haltQueue n k tag sub) = house s := by
  unfold State.haltQueue
  split <;> simp

theorem onward_haltQueue (n k : Nat) (tag : W32) (sub : Nat) : Onward s (s.haltQueue n k tag sub) := by
  unfold State.haltQueue
  split
  · exact (onward_modQcb ..).trans (onward_interrupt n)
  · exact Onward.refl s

@[simp] theorem house_lookAtSlots (n : Nat) : house (s.lookAtSlots n) = house s := by
  unfold State.lookAtSlots State.mismatch
  dsimp only
  repeat' split
  all_goals simp

end

/-! ### Stops -/

/-- The part of a state that the Owl's work on queues keeps, stops included: `house`, without the gangs; and the contexts, which may halt. -/
def estate (s : State) : State × (Nat → Ctx) :=
  ({ (house s).1 with g := {}, gid := 0, gangs := [], ctxs := [] }, fun n => { s.ctxAt n with halt := false })

section
variable {s t : State}

theorem estate_of_house (h : house t = house s) : estate t = estate s := by
  have hc : t.ctxs = s.ctxs := ctxs_of_house h
  have hn : t.ctxAt = s.ctxAt := funext fun n => congrArg (fun x : Table Ctx => tget x n {}) hc
  unfold estate
  rw [h, hn]

theorem estate_state (h : estate t = estate s) {α : Type} (f : State → α) (hf : ∀ s, f (estate s).1 = f s) : f t = f s := by
  rw [← hf t, ← hf s, h]

/-- What is read of a context beside its halt. -/
theorem estate_ctx (h : estate t = estate s) {α : Type} (f : Ctx → α) (hf : ∀ c : Ctx, f { c with halt := false } = f c) (n : Nat) :
    f (t.ctxAt n) = f (s.ctxAt n) := by
  have hc : { t.ctxAt n with halt := false } = { s.ctxAt n with halt := false } := congrFun (congrArg Prod.snd h) n
  rw [← hf (t.ctxAt n), hc, hf]

@[simp] theorem estate_modQueue (n : Nat) (f : Queue → Queue) : estate (s.modQueue n f) = estate s := rfl
@[simp] theorem estate_emit (e : OutEvent) : estate (s.emit e) = estate s := rfl
@[simp] theorem estate_soon (j : Subject) (e : Instr) : estate (s.soon j e) = estate s := rfl
@[simp] theorem estate_later (d : Nat) (j : Subject) (e : Instr) : estate (s.later d j e) = estate s := rfl
@[simp] theorem estate_modQcb (n : Nat) (f : Queue → Queue) : estate (s.modQcb n f) = estate s := estate_of_house (house_modQcb n f)
@[simp] theorem estate_writeQcb (n : Nat) : estate (s.writeQcb n) = estate s := estate_of_house (house_writeQcb n)
@[simp] theorem estate_interrupt (n : Nat) : estate (s.interrupt n) = estate s := estate_of_house (house_interrupt n)
@[simp] theorem estate_haltQueue (n k : Nat) (tag : W32) (sub : Nat) : estate (s.haltQueue n k tag sub) = estate s := estate_of_house (house_haltQueue ..)
@[simp] theorem estate_tell (n : Nat) (what : String) (ws : List W64) : estate (s.tell n what ws) = estate s :=
  estate_of_house (house_of_outer (outer_tell ..))

theorem estate_foldl {α : Type} {f : State → α → State} (h : ∀ s x, estate (f s x) = estate s) (l : List α) : estate (l.foldl f s) = estate s :=
  foldl_kept estate h l

/-- What discards gangs' instances keeps all but the gangs and the focus. -/
theorem estate_focus (n : Nat) : estate (s.focus n) = estate s := by
  unfold State.focus
  split
  · rfl
  · split <;> rfl

/-- A gang stands at its oldest uncommitted block (R243). -/
def State.standOne (s : State) (n : Nat) : State :=
  let s1 := (s.focus n).withdraw
  { s1 with g := { s1.g.discard with excluded := s1.g.excluded && s1.g.parked } }

theorem standAll_eq (l : List Nat) : s.standAll l = (l.foldl State.standOne s).focus s.gid := rfl

/-- What a focus keeps, and what is read beside the gang in focus and the cores, standing keeps too. -/
theorem standAll_kept {α : Type} (p : State → α) (hf : ∀ u n, p (State.focus u n) = p u)
    (hg : ∀ (u : State) g c, p { u with g := g, cores := c } = p u) (l : List Nat) : p (s.standAll l) = p s := by
  rw [standAll_eq, hf]
  exact foldl_kept p (fun u n => (hg (u.focus n) _ _).trans (hf u n)) l

@[simp] theorem estate_standAll (l : List Nat) : estate (s.standAll l) = estate s :=
  standAll_kept estate (fun _ n => estate_focus n) (fun _ _ _ => rfl) l

theorem ctxAt_modCtx (n m : Nat) (f : Ctx → Ctx) : (s.modCtx n f).ctxAt m = if m = n then f (s.ctxAt n) else s.ctxAt m := tget_tset ..

theorem ctxAt_standAll (l : List Nat) (n : Nat) : (s.standAll l).ctxAt n = s.ctxAt n :=
  congrArg (fun x : Table Ctx => tget x n {}) (standAll_kept State.ctxs focus_ctxs (fun _ _ _ => rfl) l)

/-- A context that halts, or stays halted. -/
theorem estate_modCtx_halt (n : Nat) (f : Ctx → Ctx) (hf : ∀ c, { f c with halt := false } = { c with halt := false }) :
    estate (s.modCtx n f) = estate s := by
  refine Prod.ext rfl (funext fun m => ?_)
  change { (s.modCtx n f).ctxAt m with halt := false } = { s.ctxAt m with halt := false }
  rw [ctxAt_modCtx]
  split
  next h => rw [hf, h]
  next => rfl

@[simp] theorem estate_stopWork (n : Nat) : estate (s.stopWork n) = estate s := (estate_standAll _).trans (estate_modCtx_halt n _ fun _ => rfl)

theorem halt_stopWork (n m : Nat) : ((s.stopWork n).ctxAt m).halt = if m = n then true else (s.ctxAt m).halt := by
  unfold State.stopWork
  rw [ctxAt_standAll, ctxAt_modCtx]
  split <;> rfl

@[simp] theorem estate_tellOthers (n : Nat) (what : String) (ws : List W64) : estate (s.tellOthers n what ws) = estate s :=
  estate_foldl (fun _ _ => estate_tell ..) _

@[simp] theorem outer_tellOthers (n : Nat) (what : String) (ws : List W64) : outer (s.tellOthers n what ws) = outer s :=
  outer_foldl (fun _ _ => outer_tell ..) _

theorem onward_standAll (l : List Nat) : Onward s (s.standAll l) :=
  Onward.of_eq (standAll_kept State.agenda focus_agenda (fun _ _ _ => rfl) l) (standAll_kept State.out focus_out (fun _ _ _ => rfl) l)

theorem onward_stopWork (n : Nat) : Onward s (s.stopWork n) :=
  (Onward.of_eq rfl rfl : Onward s (s.modCtx n fun c => { c with halt := true })).trans (onward_standAll _)

theorem onward_tellOthers (n : Nat) (what : String) (ws : List W64) : Onward s (s.tellOthers n what ws) :=
  Onward.foldl (fun _ _ => onward_tell ..) _ s

theorem queues_standAll (l : List Nat) : (s.standAll l).queues = s.queues := standAll_kept State.queues focus_queues (fun _ _ _ => rfl) l

theorem queueAt_stopWork (n m : Nat) : (s.stopWork n).queueAt m = s.queueAt m :=
  congrArg (fun x : Table Queue => tget x m {}) (queues_standAll (s := s.modCtx n fun c => { c with halt := true }) _)

/-- A state of a queue in which nothing stops it any more. -/
def QState.ended (q : QState) : Bool := q == .stopped || q == .destroyed || q == .resetting

theorem stopQueue_ended {n k : Nat} {d : W64} (h : QState.ended (s.queueAt n).qstate = true) : s.stopQueue n k d = s := if_pos h

theorem stopQueue_live {n k : Nat} {d : W64} (h : QState.ended (s.queueAt n).qstate = false) : s.stopQueue n k d =
    (((s.stopWork n).modQcb n fun q => { q.letGo with qstate := .stopped, cause := k, detail := d }).interrupt n).tellOthers n "STOP" [] :=
  if_neg fun e => Bool.false_ne_true (h.symm.trans e)

@[simp] theorem estate_stopQueue (n k : Nat) (d : W64) : estate (s.stopQueue n k d) = estate s := by
  cases h : QState.ended (s.queueAt n).qstate with
  | true => rw [stopQueue_ended h]
  | false => rw [stopQueue_live h, estate_tellOthers, estate_interrupt, estate_modQcb, estate_stopWork]

theorem onward_stopQueue (n k : Nat) (d : W64) : Onward s (s.stopQueue n k d) := by
  cases h : QState.ended (s.queueAt n).qstate with
  | true => rw [stopQueue_ended h]; exact Onward.refl s
  | false =>
    rw [stopQueue_live h]
    exact (((onward_stopWork n).trans (onward_modQcb ..)).trans (onward_interrupt n)).trans (onward_tellOthers ..)

/-- What a stop makes of a queue (R106). -/
def stoppedQueue (k : Nat) (d : W64) (q : Queue) : Queue := published { q.letGo with qstate := .stopped, cause := k, detail := d }

theorem queueAt_stopQueue_live {n k : Nat} {d : W64} (h : QState.ended (s.queueAt n).qstate = false) (m : Nat) :
    (s.stopQueue n k d).queueAt m = if m = n then stoppedQueue k d (s.queueAt n) else s.queueAt m := by
  rw [stopQueue_live h, queueAt_of_outer (outer_tellOthers ..), queueAt_interrupt, queueAt_modQcb, queueAt_stopWork, queueAt_stopWork]
  rfl

theorem queueAt_stopQueue_other {n m k : Nat} {d : W64} (hm : m ≠ n) : (s.stopQueue n k d).queueAt m = s.queueAt m := by
  cases h : QState.ended (s.queueAt n).qstate with
  | true => rw [stopQueue_ended h]
  | false => rw [queueAt_stopQueue_live h, if_neg hm]

theorem stopQueue_ends (n k : Nat) (d : W64) : QState.ended ((s.stopQueue n k d).queueAt n).qstate = true := by
  cases h : QState.ended (s.queueAt n).qstate with
  | true => rw [stopQueue_ended h, h]
  | false =>
    rw [queueAt_stopQueue_live h, if_pos rfl]
    rfl

end

/-! ### Reading a ring -/

section
variable {s : State}

@[simp] theorem estate_ringLost (n k : Nat) (tag : W32) : estate (s.ringLost n k tag) = estate s := by
  unfold State.ringLost
  split
  · rfl
  · exact estate_stopQueue ..

theorem onward_ringLost (n k : Nat) (tag : W32) : Onward s (s.ringLost n k tag) := by
  unfold State.ringLost
  split
  · exact (onward_modQueue ..).trans (onward_emit _)
  · exact onward_stopQueue ..

@[simp] theorem estate_readTail (n : Nat) : estate (s.readTail n) = estate s := by
  unfold State.readTail
  dsimp only
  repeat' split
  · rfl
  · exact estate_ringLost ..
  · exact estate_haltQueue ..
  · rfl

theorem onward_readTail (n : Nat) : Onward s (s.readTail n) := by
  unfold State.readTail
  dsimp only
  repeat' split
  · exact Onward.refl s
  · exact onward_ringLost ..
  · exact onward_haltQueue ..
  · exact onward_modQueue ..

/-- `TAIL` is polled again. -/
def State.polling (s : State) (n : Nat) : State :=
  if (s.queueAt n).polls then s else (s.modQueue n fun q => { q with polls := true }).later 80000 (.on n) .tailPoll

@[simp] theorem estate_polling (n : Nat) : estate (State.polling s n) = estate s := by
  unfold State.polling
  split <;> rfl

theorem onward_polling (n : Nat) : Onward s (State.polling s n) := by
  unfold State.polling
  split
  · exact Onward.refl s
  · exact (onward_modQueue ..).trans (onward_later ..)

/-- What the next packet of a queue comes to: nothing, a poll, a lost ring, a halt, or a packet that starts. -/
theorem pump_cases (n : Nat) : let s1 := State.polling s n
    s.pump n = s ∨ s.pump n = s1 ∨ (∃ c tag, s.pump n = s1.ringLost n c tag) ∨ (∃ c tag, s.pump n = s.haltQueue n c tag 0) ∨
      (∃ c tag, s.pump n = s1.haltQueue n c tag 0) ∨ ∃ f p e, s.pump n = (s1.modQueue n f).soon (.packet p) e := by
  intro s1
  unfold State.pump
  dsimp only
  split
  · exact .inl rfl
  · split
    · split
      · exact .inr (.inr (.inr (.inl ⟨_, _, rfl⟩)))
      · exact .inl rfl
    · split
      · exact .inr (.inl rfl)
      · split
        · exact .inr (.inl rfl)
        · exact .inr (.inr (.inl ⟨_, _, rfl⟩))
        · exact .inr (.inr (.inr (.inr (.inl ⟨_, _, rfl⟩))))
        · split
          · exact .inr (.inl rfl)
          · exact .inr (.inr (.inr (.inr (.inr ⟨_, _, _, rfl⟩))))

@[simp] theorem estate_pump (n : Nat) : estate (s.pump n) = estate s := by
  rcases pump_cases (s := s) n with h | h | ⟨c, tag, h⟩ | ⟨c, tag, h⟩ | ⟨c, tag, h⟩ | ⟨f, p, e, h⟩ <;> rw [h] <;> simp

theorem onward_pump (n : Nat) : Onward s (s.pump n) := by
  rcases pump_cases (s := s) n with h | h | ⟨c, tag, h⟩ | ⟨c, tag, h⟩ | ⟨c, tag, h⟩ | ⟨f, p, e, h⟩ <;> rw [h]
  · exact Onward.refl s
  · exact onward_polling n
  · exact (onward_polling n).trans (onward_ringLost ..)
  · exact onward_haltQueue ..
  · exact (onward_polling n).trans (onward_haltQueue ..)
  · exact ((onward_polling n).trans (onward_modQueue ..)).trans (onward_soon ..)

@[simp] theorem estate_ring (n : Nat) : estate (s.ring n) = estate s := (estate_pump n).trans (estate_readTail n)

theorem onward_ring (n : Nat) : Onward s (s.ring n) := (onward_readTail n).trans (onward_pump n)

/-! ### Completion -/

@[simp] theorem estate_nudge (n : Nat) : estate (s.nudge n) = estate s := by
  unfold State.nudge
  split
  · dsimp only
    split <;> rfl
  · rfl

theorem onward_nudge (n : Nat) : Onward s (s.nudge n) := by
  unfold State.nudge
  split
  · dsimp only
    split
    · exact onward_soon ..
    · exact Onward.refl s
  · exact Onward.refl s

/-- A packet that leaves its queue: the QCB where QSTATE changes, and its interrupt. -/
def State.packetLeaves (s : State) (n num : Nat) (a : Accepted) : State :=
  let s1 := s.modQueue n fun q => { q with accepted := q.accepted.filter fun x => x.num != num }
  let s2 := if (s1.queueAt n).qstate == .running && (s1.queueAt n).settled then s1.writeQcb n else s1
  if (a.words.getD 0 0).getLsbD 9 then s2.interrupt n else s2

@[simp] theorem estate_packetLeaves (n num : Nat) (a : Accepted) : estate (State.packetLeaves s n num a) = estate s := by
  unfold State.packetLeaves
  dsimp only
  split <;> split <;> simp

theorem onward_packetLeaves (n num : Nat) (a : Accepted) : Onward s (State.packetLeaves s n num a) := by
  have hqueue (f : Queue → Queue) : Onward s (if ((s.modQueue n f).queueAt n).qstate == .running && ((s.modQueue n f).queueAt n).settled
      then (s.modQueue n f).writeQcb n else s.modQueue n f) := by
    split
    · exact (onward_modQueue ..).trans (onward_writeQcb n)
    · exact onward_modQueue ..
  unfold State.packetLeaves
  dsimp only
  split
  · exact (hqueue _).trans (onward_interrupt n)
  · exact hqueue _

theorem completePacket_cases (n num : Nat) :
    s.completePacket n num = s ∨ ∃ a, s.completePacket n num = (((State.packetLeaves s n num a).readTail n).nudge n).pump n := by
  unfold State.completePacket
  split
  · exact .inl rfl
  · exact .inr ⟨_, rfl⟩

@[simp] theorem estate_completePacket (n num : Nat) : estate (s.completePacket n num) = estate s := by
  rcases completePacket_cases (s := s) n num with h | ⟨a, h⟩ <;> rw [h]
  simp

theorem onward_completePacket (n num : Nat) : Onward s (s.completePacket n num) := by
  rcases completePacket_cases (s := s) n num with h | ⟨a, h⟩ <;> rw [h]
  · exact Onward.refl s
  · exact (((onward_packetLeaves ..).trans (onward_readTail n)).trans (onward_nudge n)).trans (onward_pump n)

@[simp] theorem outer_writeStatus (a : Nat) (r : W64) (st : Nat) : outer (s.writeStatus a r st) = outer s := by
  unfold State.writeStatus
  split <;> simp

@[simp] theorem estate_writeStatus (a : Nat) (r : W64) (st : Nat) : estate (s.writeStatus a r st) = estate s :=
  estate_of_house (house_of_outer (outer_writeStatus ..))

theorem onward_writeStatus (a : Nat) (r : W64) (st : Nat) : Onward s (s.writeStatus a r st) := by
  unfold State.writeStatus
  split
  · exact Onward.refl s
  · exact (onward_poolWrite ..).trans (onward_nearLines _)

@[simp] theorem estate_flushAdmin (k : Nat) : estate (s.flushAdmin k) = estate s := by
  induction k generalizing s with
  | zero => rfl
  | succ k ih =>
    unfold State.flushAdmin
    split
    · split
      · rw [ih, estate_completePacket, estate_writeStatus]
      · split
        · rw [ih, estate_completePacket]
        · rfl
    · rfl

theorem onward_flushAdmin (k : Nat) : Onward s (s.flushAdmin k) := by
  induction k generalizing s with
  | zero => exact Onward.refl s
  | succ k ih =>
    unfold State.flushAdmin
    split
    · split
      · exact ((onward_writeStatus ..).trans (onward_completePacket ..)).trans ih
      · split
        · exact (onward_completePacket ..).trans ih
        · exact Onward.refl s
    · exact Onward.refl s

@[simp] theorem estate_endAdmin (num : Nat) (r : W64) (st : Nat) : estate (s.endAdmin num r st) = estate s :=
  (estate_flushAdmin _).trans (estate_modQueue ..)

theorem onward_endAdmin (num : Nat) (r : W64) (st : Nat) : Onward s (s.endAdmin num r st) := (onward_modQueue ..).trans (onward_flushAdmin _)

end

end Sys2Proof.Proofs
end

section
/-! PROOFS. What a host and management do (O56). -/

namespace Sys2Proof.Proofs
open Sys2Proof Sys2Proof.Machine Sys2Proof.Laws.Shapes

theorem nodup_eraseDups : ∀ l : List Nat, l.eraseDups.Nodup
  | [] => List.nodup_nil
  | x :: l => by
    rw [List.eraseDups_cons, List.nodup_cons, List.mem_eraseDups]
    refine ⟨fun h => ?_, nodup_eraseDups _⟩
    simpa using (List.mem_filter.mp h).2
  termination_by l => l.length
  decreasing_by exact Nat.lt_succ_of_le (List.length_filter_le ..)

/-! ### The aperture (R97, R482) -/

section
variable (s : State)

@[simp] theorem outer_logPages (as : List Nat) : outer (s.logPages as) = outer s := outer_foldl (fun _ _ => outer_emit _) _

/-- Logging sends events and does nothing else. -/
theorem logPages_only (as : List Nat) : ∃ o, s.logPages as = { s with out := o } := by
  unfold State.logPages
  generalize (((as.filter s.hostFail).map pageOf).eraseDups) = l
  have hfold (u : State) : ∃ o, l.foldl (fun s p => s.emit (.mgmt "PAGE_INVALID" p)) u = { u with out := o } := by
    induction l generalizing u with
    | nil => exact ⟨u.out, rfl⟩
    | cons x l ih =>
      obtain ⟨o, ho⟩ := ih (u.emit (.mgmt "PAGE_INVALID" x))
      exact ⟨o, ho⟩
  exact hfold s

theorem logPages_nil : s.logPages [] = s := rfl

/-- The bytes of a write from outside that reach memory. -/
def State.hostCells (s : State) (a : Nat) (bs : List Byte) : List (Nat × Byte) :=
  let as := (List.range bs.length).map (a + ·)
  (as.zip bs).filter fun c => (s.pageFail none (pageOf c.1)).isNone && (!s.lineLost c.1 || coversLine as (c.1 / 256))

/-- The lines that they lie in. -/
def State.hostLines (s : State) (a : Nat) (bs : List Byte) : List Nat := ((State.hostCells s a bs).map fun c => c.1 / 256).eraseDups

theorem hostWrite_eq (a : Nat) (bs : List Byte) : s.hostWrite a bs =
    (((s.writeCells (State.hostCells s a bs)).clearLost ((State.hostCells s a bs).map Prod.fst)).nearLines (State.hostLines s a bs)).logPages
      (((List.range bs.length).map (a + ·)).filter fun x => (s.pageFail none (pageOf x)).isSome) := rfl

variable {s}

theorem hostCells_addr {a : Nat} {bs : List Byte} {c : Nat × Byte} (h : c ∈ State.hostCells s a bs) : ∃ i, i < bs.length ∧ c.1 = a + i := by
  obtain ⟨i, hi, hic⟩ := List.mem_map.mp (List.of_mem_zip (List.mem_of_mem_filter h)).1
  exact ⟨i, List.mem_range.mp hi, hic.symm⟩

theorem clearLost_mem (l : List Nat) : (s.clearLost l).mem = s.mem := State.clearLost_mem ..

/-- A write from outside reaches no byte of another line. -/
theorem memByte_hostWrite_other {a k : Nat} {bs : List Byte}
    (h : ∀ i j, i < bs.length → j < 256 → s.poolKey ((a + i) / 256 * 256 + j) ≠ k) : memByte (s.hostWrite a bs).mem k = memByte s.mem k := by
  have hlines : State.Outside s ((State.hostCells s a bs).map fun c => c.1 / 256) k := by
    intro l hl j hj
    obtain ⟨c, hc, rfl⟩ := List.mem_map.mp hl
    obtain ⟨i, hi, hic⟩ := hostCells_addr hc
    rw [hic, Nat.mul_comm]
    exact h i j hi hj
  have hview : outer ((s.writeCells (State.hostCells s a bs)).clearLost ((State.hostCells s a bs).map Prod.fst)) = outer s := by simp
  obtain ⟨o, ho⟩ := logPages_only (((s.writeCells (State.hostCells s a bs)).clearLost ((State.hostCells s a bs).map Prod.fst)).nearLines
    (State.hostLines s a bs)) (((List.range bs.length).map (a + ·)).filter fun x => (s.pageFail none (pageOf x)).isSome)
  rw [hostWrite_eq, ho]
  refine (memByte_nearLines_other (Outside.of_outer (fun l hl => hlines l (List.mem_eraseDups.mp hl)) hview)).trans ?_
  rw [clearLost_mem, memByte_writeCells_other hlines]

theorem memCells_dir (l : List (Nat × Byte)) : (s.memCells l).dir = s.dir := by
  induction l generalizing s with
  | nil => rfl
  | cons x l ih => exact ih

theorem claimLine_dir (who : Nat → Nat → Bool) (l : Nat) : (s.claimLine who l).dir = s.dir := by
  have hyield (u : State) (x : Nat × Region × Nat) : (u.yieldCopy l false x).dir = u.dir := by
    refine Eq.trans ?_ (memCells_dir ((u.teamAt x.1).dirtyCells x.2.1 x.2.2 l))
    unfold State.yieldCopy State.modTeam
    dsimp only
    split <;> rfl
  have hnote (u : State) : (u.noteWrites [l]).dir = u.dir := by
    unfold State.noteWrites
    refine foldl_kept State.dir (fun v n => ?_) _
    exact foldl_kept State.dir (fun _ _ => by rfl) _
  unfold State.claimLine
  dsimp only
  rw [hnote]
  refine (foldl_kept State.dir (fun u d => ?_) _).trans (foldl_kept State.dir hyield _)
  split <;> rfl

theorem writeCells_dir (l : List (Nat × Byte)) : (s.writeCells l).dir = s.dir :=
  (memCells_dir l).trans (foldl_kept State.dir (fun _ _ => claimLine_dir ..) _)

theorem clearLost_dir (l : List Nat) : (s.clearLost l).dir = s.dir := by
  unfold State.clearLost
  split <;> rfl

/-- A write from outside to good pages whose lines no die holds is a write of the bytes. -/
theorem hostWrite_good {a : Nat} {bs : List Byte} (hgood : ∀ i, i < bs.length → s.pageFail none (pageOf (a + i)) = none ∧ s.lineLost (a + i) = false)
    (hfree : ∀ i, i < bs.length → (s.dirAt ((a + i) / 256)).sharers = 0) :
    (s.hostWrite a bs).mem = (s.poolWrite a bs).mem ∧ (s.hostWrite a bs).out = s.out := by
  have hcells : State.hostCells s a bs = ((List.range bs.length).map (a + ·)).zip bs := by
    refine List.filter_eq_self.mpr fun c hc => ?_
    obtain ⟨i, hi, hic⟩ := List.mem_map.mp (List.of_mem_zip hc).1
    obtain ⟨hp, hl⟩ := hgood i (List.mem_range.mp hi)
    rw [← hic, hp, hl]
    rfl
  have hlog : (((List.range bs.length).map (a + ·)).filter fun x => (s.pageFail none (pageOf x)).isSome) = [] := by
    refine List.filter_eq_nil_iff.mpr fun x hx => ?_
    obtain ⟨i, hi, rfl⟩ := List.mem_map.mp hx
    rw [(hgood i (List.mem_range.mp hi)).1]
    exact Bool.false_ne_true
  have hnear := nearLines_of_free (s := (s.writeCells (State.hostCells s a bs)).clearLost ((State.hostCells s a bs).map Prod.fst))
    (ls := State.hostLines s a bs) (nodup_eraseDups _) fun l hl => by
      obtain ⟨c, hc, rfl⟩ := List.mem_map.mp (List.mem_eraseDups.mp hl)
      obtain ⟨i, hi, hic⟩ := hostCells_addr hc
      unfold State.dirAt
      rw [clearLost_dir, writeCells_dir, hic]
      exact hfree i hi
  rw [hostWrite_eq, hlog, logPages_nil]
  constructor
  · rw [undirected_state hnear State.mem fun _ => rfl, clearLost_mem, hcells]
    rfl
  · rw [undirected_state hnear State.out fun _ => rfl, still_state (still_clearLost _) State.out fun _ => rfl]
    exact still_state (still_writeCells _) State.out fun _ => rfl

variable (s) in
/-- A write in the aperture (R97): no byte of another line changes, and one of good pages and free lines puts its bytes. -/
theorem exec_apertureWrite_frame (off : Nat) (bytes : List Byte) :
    let a := s.apertureAt off
    ∃ t, exec (.apertureWrite off bytes) s = .next t ∧
      (∀ k, (∀ i j, i < bytes.length → j < 256 → s.poolKey ((a + i) / 256 * 256 + j) ≠ k) → memByte t.mem k = memByte s.mem k) ∧
      (off + bytes.length ≤ 2 ^ 28 → (∀ i, i < bytes.length → s.pageFail none (pageOf (a + i)) = none ∧ s.lineLost (a + i) = false) →
        (∀ i, i < bytes.length → (s.dirAt ((a + i) / 256)).sharers = 0) → t.mem = (s.poolWrite a bytes).mem ∧ t.out = s.out) := by
  intro a
  refine ⟨s.hostWrite a (bytes.take (2 ^ 28 - off)), rfl, fun k hk => ?_, fun hfit hgood hfree => ?_⟩
  · exact memByte_hostWrite_other fun i j hi => hk i j (hi.trans_le (List.length_take_le' ..))
  · rw [List.take_of_length_le (by omega)]
    exact hostWrite_good hgood hfree

/-- Unsupported Request: what is logged and answered leaves the rest as it is. -/
theorem unsupported_only (as : List Nat) :
    let t := (s.logPages as).emit (.reply "UNSUPPORTED_REQUEST" [])
    t.out.getLast? = some (.reply "UNSUPPORTED_REQUEST" []) ∧ t.mem = s.mem ∧ t.pkg = s.pkg ∧ t.owl = s.owl := by
  obtain ⟨o, ho⟩ := logPages_only s as
  rw [ho]
  exact ⟨List.getLast?_concat .., rfl, rfl, rfl⟩

theorem exec_apertureRead_good {off len : Nat} (h : ¬(2 ^ 28 < off + len ∨ ((List.range len).map (s.apertureAt off + ·)).any s.hostFail = true)) :
    exec (.apertureRead off len) s = .next (s.emit (.reply "COMPLETION" (s.poolRead (s.apertureAt off) len))) := by
  obtain ⟨hlen, hany⟩ := not_or.mp h
  rw [exec_apertureRead]
  unfold execApertureRead
  simp only [decide_eq_false hlen, Bool.eq_false_iff.mpr hany, Bool.or_self, Bool.false_eq_true, ↓reduceIte]

theorem exec_apertureRead_bad {off len : Nat} (h : 2 ^ 28 < off + len ∨ ((List.range len).map (s.apertureAt off + ·)).any s.hostFail = true) :
    exec (.apertureRead off len) s =
      .next ((s.logPages ((List.range len).map (s.apertureAt off + ·))).emit (.reply "UNSUPPORTED_REQUEST" [])) := by
  have hbad : (decide (2 ^ 28 < off + len) || ((List.range len).map (s.apertureAt off + ·)).any s.hostFail) = true := by
    rcases h with h | h
    · rw [decide_eq_true h, Bool.true_or]
    · rw [h, Bool.or_true]
  rw [exec_apertureRead]
  unfold execApertureRead
  simp only [hbad, ↓reduceIte]

/-- A host's atomic (R96): where it is good, the old value is the answer and the new one is written. -/
theorem exec_pcieAtomicop_good {kind : PcieAtomic} {off : Nat} {wide : Bool} {v v2 : W64}
    (h : off % (if wide then 8 else 4) = 0 ∧ off + (if wide then 8 else 4) ≤ 2 ^ 28 ∧ s.hostFail (s.apertureAt off) = false) :
    let n := if wide then 8 else 4
    let old := natOf (s.poolRead (s.apertureAt off) n)
    exec (.pcieAtomicop kind off wide v v2) s =
      .next ((s.hostWrite (s.apertureAt off) (bytesOf n (atomicNew kind n old (v.toNat % 256 ^ n) (v2.toNat % 256 ^ n)))).emit
        (.reply "COMPLETION" (bytesOf n old))) := by
  intro n old
  obtain ⟨hal, hfit, hok⟩ := h
  rw [exec_pcieAtomicop]
  unfold execPcieAtomicop
  refine if_neg ?_
  rintro (h | h | h)
  · exact h hal
  · exact absurd hfit (Nat.not_le.mpr h)
  · rw [hok] at h
    exact Bool.false_ne_true h

theorem exec_pcieAtomicop_bad {kind : PcieAtomic} {off : Nat} {wide : Bool} {v v2 : W64}
    (h : ¬(off % (if wide then 8 else 4) = 0 ∧ off + (if wide then 8 else 4) ≤ 2 ^ 28 ∧ s.hostFail (s.apertureAt off) = false)) :
    exec (.pcieAtomicop kind off wide v v2) s = .next ((s.logPages [s.apertureAt off]).emit (.reply "UNSUPPORTED_REQUEST" [])) := by
  rw [exec_pcieAtomicop]
  unfold execPcieAtomicop
  refine if_pos ?_
  by_contra hn
  obtain ⟨hal, hn⟩ := not_or.mp hn
  obtain ⟨hfit, hok⟩ := not_or.mp hn
  exact h ⟨not_not.mp hal, Nat.not_lt.mp hfit, Bool.eq_false_iff.mpr hok⟩

/-! ### The register window (R98, R102) -/

/-- Read-only and reserved offsets ignore a write. -/
theorem exec_registerWrite_ignored {o : Nat} {v : W64} (h : [0, 0x100, 0x108, 0x110, 0x2000].contains o = true ∨ (0x1000 ≤ o ∧ o < 0x1080)) :
    exec (.registerWrite o v) s = .next s := by
  have ho : o < 0x2100 := by
    rcases h with h | ⟨-, h⟩
    · simp only [List.contains_eq_mem, List.mem_cons, List.not_mem_nil, or_false, decide_eq_true_eq] at h
      omega
    · omega
  rw [exec_registerWrite]
  unfold execRegisterWrite
  rw [if_neg (by omega), if_neg (by omega), if_neg (by omega), if_neg (by omega), if_neg (by omega), if_neg (by omega), if_neg (by omega)]

/-- A doorbell's offset. -/
theorem exec_registerWrite_doorbell {v : W64} (h : s.subj < 64) : exec (.registerWrite (0x10000 + 8 * s.subj) v) s = exec .doorbell s := by
  rw [exec_registerWrite, exec_doorbell]
  unfold execRegisterWrite execDoorbell
  rw [if_neg (by omega), if_neg (by omega), if_neg (by omega), if_neg (by omega), if_pos (by omega)]
  rw [show (0x10000 + 8 * s.subj - 0x10000) / 8 = s.subj by omega]

theorem msix_sendPending : (s.sendPending).owl.msix = s.owl.msix ∧ (s.sendPending).mem = s.mem := by
  constructor
  · exact foldl_kept (fun s => s.owl.msix) (fun _ _ => by rfl) _
  · exact foldl_mem' _ _ _ fun _ _ => by rfl

/-- An entry of the MSI-X table is written. -/
theorem exec_registerWrite_msix {k : Nat} {v : W64} (h : k < 4096) :
    ∃ t, exec (.registerWrite (0x100000 + 8 * k) v) s = .next t ∧ tget t.owl.msix k 0 = v ∧ t.mem = s.mem := by
  refine ⟨s.tableWrite k v, ?_, ?_, msix_sendPending.2⟩
  · rw [exec_registerWrite]
    unfold execRegisterWrite
    rw [if_neg (by omega), if_neg (by omega), if_neg (by omega), if_neg (by omega), if_neg (by omega), if_neg (by omega), if_pos (by omega)]
    rw [show (0x100000 + 8 * k - 0x100000) / 8 = k by omega]
  · refine (congrArg (fun m : Table W64 => tget m k 0) msix_sendPending.1).trans ?_
    exact (tget_tset ..).trans (if_pos rfl)

/-- Write-only registers read zero. -/
theorem registerRead_doorbells : s.registerRead 0x2208 = some 0 ∧ ∀ k, k < 64 → s.registerRead (0x10000 + 8 * k) = some 0 := by
  refine ⟨rfl, fun k hk => ?_⟩
  unfold State.registerRead
  rw [if_neg (by omega), if_neg (by omega), if_neg (by omega), if_neg (by omega), if_neg (by omega), if_neg (by omega), if_pos (by omega)]

theorem outer_createQcb (n a : Nat) : outer (s.createQcb n a) = outer (s.modQueue n fun _ => { s.queueAt n with gen := 1 }) := by
  unfold State.createQcb
  dsimp only
  rw [outer_nearLines, outer_poolWrite, outer_poolWrite]

/-- The admin queue created anew stands at its start; nothing else of the Owl changes. -/
theorem createAdminWith_queue (qcb ring : W64) :
    let t := s.createAdminWith qcb ring
    (t.queueAt 64).head = 0 ∧ (t.queueAt 64).accepted = [] ∧ (t.queueAt 64).qcb = qcb ∧ t.owl = s.owl := by
  have hidle (y : Queue) (hy : y.head = 0 ∧ y.accepted = [] ∧ y.qcb = qcb) (u : State) (hu : outer u = outer (s.modQueue 64 fun _ => y)) :
      (u.queueAt 64).head = 0 ∧ (u.queueAt 64).accepted = [] ∧ (u.queueAt 64).qcb = qcb ∧ u.owl = s.owl := by
    rw [queueAt_of_outer hu, queueAt_modQueue, if_pos rfl]
    exact ⟨hy.1, hy.2.1, hy.2.2, owl_of_outer (s := s.modQueue 64 fun _ => y) hu⟩
  unfold State.createAdminWith
  dsimp only
  split
  · exact hidle { base := _, qcb := qcb } ⟨rfl, rfl, rfl⟩ _ (outer_emit _)
  · split
    · rw [queueAt_of_outer (outer_createQcb ..), queueAt_modQueue, if_pos rfl, queueAt_modQueue, if_pos rfl]
      exact ⟨rfl, rfl, rfl, (owl_of_outer (outer_createQcb ..) :)⟩
    · exact hidle { base := _, qcb := qcb } ⟨rfl, rfl, rfl⟩ _ rfl

/-- `ADMIN_QCB` written (R98, R102). -/
theorem exec_adminQcb_state (v : W64) :
    let qcb := v &&& 0x0000FFFFFFFFFF00
    ∃ t, exec (.adminQcb v) s = .next t ∧ t.owl.adminQcb = qcb ∧
      (s.owl.state = 1 → (t.queueAt 64).head = 0 ∧ (t.queueAt 64).accepted = [] ∧ (t.queueAt 64).qcb = qcb) ∧
      (s.owl.state = 2 → t.owl.adminWait = some (qcb, s.owl.adminRing) ∧ t.queues = s.queues) ∧
      (s.owl.state ≠ 1 → s.owl.state ≠ 2 → t.queues = s.queues) := by
  intro qcb
  refine ⟨s.createAdmin v, rfl, ?_⟩
  unfold State.createAdmin
  dsimp only
  split
  next h1 =>
    obtain ⟨hhead, hacc, hqcb, howl⟩ := createAdminWith_queue (s := { s with owl := { s.owl with adminQcb := qcb } }) qcb s.owl.adminRing
    exact ⟨congrArg Owl.adminQcb howl, fun _ => ⟨hhead, hacc, hqcb⟩, fun h2 => absurd (h1.symm.trans h2) (by decide), fun hn => absurd h1 hn⟩
  next h1 =>
    split
    next h2 => exact ⟨rfl, fun h => absurd h h1, fun _ => ⟨rfl, rfl⟩, fun _ hn => absurd h2 hn⟩
    next h2 => exact ⟨rfl, fun h => absurd h h1, fun h => absurd h h2, fun _ _ => rfl⟩

/-! ### The checked pair (R118 to R120) -/

theorem slotOf_setSlot (c m : Nat) (x : BitVec 256 × W64) : (s.setSlot c m x).slotOf c m = x := (tget_tset ..).trans (if_pos rfl)

theorem slotOf_setSlot_other {c m n : Nat} (h : n ≠ m) (x : BitVec 256 × W64) : (s.setSlot c m x).slotOf c n = s.slotOf c n :=
  (tget_tset ..).trans (if_neg (by omega))

theorem slotOf_of_house {t : State} (h : house t = house s) (c m : Nat) : t.slotOf c m = s.slotOf c m := house_state h (fun s => s.slotOf c m) fun _ => rfl

theorem slotFree_iff {x : BitVec 256 × W64} : slotFree x = true ↔ x.2 = 0xFFFFFFFFFFFFFFFF := by simp [slotFree]

theorem exec_admitDigest_free {c m : Nat} {d : BitVec 256} {v : W64} (hm : m < 2) (hf : (s.slotOf c m).2 = 0xFFFFFFFFFFFFFFFF) :
    ∃ t, exec (.admitDigest c m d v) s = .next t ∧ t.slotOf c m = (d, v) := by
  refine ⟨(s.setSlot c m (d, v)).lookAtSlots c, ?_, (slotOf_of_house (house_lookAtSlots c) ..).trans (slotOf_setSlot ..)⟩
  rw [exec_admitDigest]
  unfold execAdmitDigest
  rw [decide_eq_true hm, slotFree_iff.mpr hf]
  rfl

theorem exec_admitDigest_taken {c m : Nat} {d : BitVec 256} {v : W64} (h : ¬(m < 2 ∧ (s.slotOf c m).2 = 0xFFFFFFFFFFFFFFFF)) :
    exec (.admitDigest c m d v) s = .next s := by
  rw [exec_admitDigest]
  unfold execAdmitDigest
  refine if_neg ?_
  rw [Bool.and_eq_true, decide_eq_true_eq, slotFree_iff]
  exact h

/-- `ADMITTED` moved past a packet of a number of words, and both slots free. -/
def State.pairAdmits (s : State) (size : Nat) : State :=
  let q := s.queueAt s.subj
  let free : BitVec 256 × W64 := (0, 0xFFFFFFFFFFFFFFFF)
  ((s.modQcb s.subj fun y =>
    { y with admitted := q.admitted + w64 (8 * size), tail := q.admitted + w64 (8 * size), bare := size == 0 }).setSlot s.subj 0 free).setSlot
      s.subj 1 free

theorem pairAdmits_queue (size : Nat) : ((State.pairAdmits s size).queueAt s.subj).admitted = (s.queueAt s.subj).admitted + w64 (8 * size) := by
  have hq : (State.pairAdmits s size).queueAt s.subj = _ := queueAt_modQcb (s := s) s.subj s.subj _
  rw [hq, if_pos rfl]
  rfl

theorem pairAdmits_slots (size : Nat) : ((State.pairAdmits s size).slotOf s.subj 0).2 = 0xFFFFFFFFFFFFFFFF ∧
    ((State.pairAdmits s size).slotOf s.subj 1).2 = 0xFFFFFFFFFFFFFFFF := by
  unfold State.pairAdmits
  dsimp only
  rw [slotOf_setSlot, slotOf_setSlot_other (by decide), slotOf_setSlot]
  exact ⟨rfl, rfl⟩

section
variable (hf0 : (s.slotOf s.subj 0).2 ≠ 0xFFFFFFFFFFFFFFFF) (hf1 : (s.slotOf s.subj 1).2 ≠ 0xFFFFFFFFFFFFFFFF)
  (hr : (s.queueAt s.subj).qstate.reads = true) (hc : (s.ctxAt s.subj).checked = true)
include hf0 hf1 hr hc

/-- Both slots are held in a checked queue that reads. -/
theorem pairLooks : (slotFree (s.slotOf s.subj 0) || slotFree (s.slotOf s.subj 1) || !(s.queueAt s.subj).qstate.reads ||
    !(s.ctxAt s.subj).checked) = false := by
  have h0 := Bool.eq_false_iff.mpr fun h => hf0 (slotFree_iff.mp h)
  have h1 := Bool.eq_false_iff.mpr fun h => hf1 (slotFree_iff.mp h)
  rw [h0, h1, hr, hc]
  rfl

theorem exec_packetAdmission_apart (hne : (s.slotOf s.subj 0).1 ≠ (s.slotOf s.subj 1).1) : exec .packetAdmission s = .next (s.mismatch s.subj 1) := by
  rw [exec_packetAdmission]
  unfold execPacketAdmission
  dsimp only
  rw [pairLooks hf0 hf1 hr hc, if_neg Bool.false_ne_true, if_pos hne]

variable (he : (s.slotOf s.subj 0).1 = (s.slotOf s.subj 1).1)
include he

theorem exec_packetAdmission_lost {e : Nat} (hl : s.ringFail (s.queueAt s.subj) (s.queueAt s.subj).admitted.toNat 1 = some e) :
    exec .packetAdmission s = .next (s.ringLost s.subj e 0) := by
  rw [exec_packetAdmission]
  unfold execPacketAdmission
  dsimp only
  rw [pairLooks hf0 hf1 hr hc, if_neg Bool.false_ne_true, if_neg (not_not.mpr he), hl]

theorem exec_packetAdmission_read (h1 : s.ringFail (s.queueAt s.subj) (s.queueAt s.subj).admitted.toNat 1 = none)
    (hn : s.ringFail (s.queueAt s.subj) (s.queueAt s.subj).admitted.toNat
      ((s.poolWord ((s.queueAt s.subj).ringAt (s.queueAt s.subj).admitted.toNat)).toNat / 2 ^ 16 % 2 ^ 16) = none) :
    let size := (s.poolWord ((s.queueAt s.subj).ringAt (s.queueAt s.subj).admitted.toNat)).toNat / 2 ^ 16 % 2 ^ 16
    let own := BitVec.ofNat 256 (natOf (shake32 (wordBytes (s.ringWords (s.queueAt s.subj) (s.queueAt s.subj).admitted.toNat size))))
    (own ≠ (s.slotOf s.subj 0).1 → exec .packetAdmission s = .next (s.mismatch s.subj 2)) ∧
      (own = (s.slotOf s.subj 0).1 → exec .packetAdmission s = .next ((State.pairAdmits s size).pump s.subj)) := by
  intro size own
  rw [exec_packetAdmission]
  unfold execPacketAdmission
  dsimp only
  rw [pairLooks hf0 hf1 hr hc, if_neg Bool.false_ne_true, if_neg (not_not.mpr he), h1]
  have hbits : bits (s.poolWord ((s.queueAt s.subj).ringAt (s.queueAt s.subj).admitted.toNat)).toNat 31 16 = size := rfl
  dsimp only
  rw [hbits, hn]
  exact ⟨fun h => if_pos h, fun h => if_neg (not_not.mpr h)⟩

end

theorem exec_admitTimeout_due {h : Nat} (hh : (s.queueAt s.subj).halfSlot = some h) (hle : h + 8000000 ≤ s.now) :
    let t := s.modQueue s.subj fun q => { q with halfSlot := none }
    exec .admitTimeout s = .next (t.haltQueue s.subj 6 (t.tagAt s.subj (s.queueAt s.subj).admitted) 3) := by
  intro t
  have hadm : (t.queueAt s.subj).admitted = (s.queueAt s.subj).admitted := by
    have hq : t.queueAt s.subj = _ := queueAt_modQueue ..
    rw [hq, if_pos rfl]
  rw [exec_admitTimeout, ← hadm]
  unfold execAdmitTimeout
  dsimp only
  rw [hh]
  exact if_pos hle

theorem exec_admitTimeout_early {h : Nat} (hh : (s.queueAt s.subj).halfSlot = some h) (hlt : s.now < h + 8000000) :
    exec .admitTimeout s = .next s := by
  rw [exec_admitTimeout]
  unfold execAdmitTimeout
  dsimp only
  rw [hh]
  exact if_neg (Nat.not_le.mpr hlt)

/-! ### Management (R100, R124, R126) -/

/-- Four requests for a report may wait beside the one that is served (R125). -/
theorem askReport_full (k : Nat) (ws : List W64) (h : 5 ≤ s.owl.attests.length) : s.askReport k ws = none := if_pos h

theorem askReport_wait (k : Nat) (ws : List W64) (h : s.owl.attests.length < 5) :
    ∃ u, s.askReport k ws = some u ∧ u.owl.attests = s.owl.attests ++ [(k, ws)] ∧ u.mem = s.mem ∧
      (s.owl.attests = [] → ∃ x ∈ u.agenda, s.now < x.time ∧ x.ev = .attestSigned) := by
  refine ⟨_, if_neg (by omega), ?_⟩
  cases ha : s.owl.attests with
  | nil =>
    refine ⟨rfl, rfl, fun _ => ?_⟩
    obtain ⟨d, hd, hlt, -, -, he⟩ := mem_offCore (s := { s with owl := { s.owl with attests := [(k, ws)] } }) .none .attestSigned
    exact ⟨d, hd, hlt, he⟩
  | cons x xs => exact ⟨rfl, rfl, nofun⟩

/-- A restart of the Owl begins. -/
theorem beginRestart_state : s.beginRestart.owl.state = 2 ∧ ∃ d ∈ s.beginRestart.agenda, d.time = s.now + 4000000 ∧ d.ev = .owlRestartDone :=
  ⟨rfl, _, List.mem_append_right _ (List.mem_singleton.mpr rfl), rfl, rfl⟩

theorem exec_firmwareUpdate_patch (bytes : List Byte) :
    ∃ t, exec (.firmwareUpdate .patch bytes) s = .next t ∧
      (patchVerifies s.owl.fuses bytes = true → t.owl = { s.owl with staged := some bytes } ∧ t.out = s.out ++ [.reply "UPDATE_DONE" []]) ∧
      (patchVerifies s.owl.fuses bytes = false → t.owl = { s.owl with patchrej := true } ∧ t.out = s.out ++ [.reply "UPDATE_REJECTED" []]) := by
  refine ⟨_, rfl, ?_⟩
  unfold State.stagePatch
  split
  next h => exact ⟨fun _ => ⟨rfl, rfl⟩, fun hn => absurd (h.symm.trans hn) (by decide)⟩
  next h => exact ⟨fun hp => absurd hp h, fun _ => ⟨rfl, rfl⟩⟩

theorem exec_firmwareUpdate_boot (bytes : List Byte) :
    ∃ t, exec (.firmwareUpdate .serviceBoot bytes) s = .next t ∧
      (bootVerifies bytes = true → t.owl = { s.owl with bootStaged := some bytes }) ∧ (bootVerifies bytes = false → t.owl = s.owl) := by
  rw [exec_firmwareUpdate]
  unfold execFirmwareUpdate
  dsimp only
  split
  next h => exact ⟨_, rfl, fun _ => rfl, fun hn => absurd (h.symm.trans hn) (by decide)⟩
  next h => exact ⟨_, rfl, fun hp => absurd hp h, fun _ => rfl⟩

theorem exec_firmwareActivate_boot :
    ∃ t, exec (.firmwareActivate .serviceBoot) s = .next t ∧ t.owl.bootStaged = none ∧ ∀ bs, s.owl.bootStaged = some bs → t.owl.bootImage = some bs := by
  refine ⟨s.startService, rfl, rfl, fun bs h => ?_⟩
  unfold State.startService
  dsimp only
  rw [h]

end

/-- Settles O56: each event of a host or of management by its own lemma. -/
theorem hostInterface : Obligations.HostInterface := by
  intro s off len ctx member v v2 bytes digest wide a at_ bad n old x good free qcb same
  refine ⟨fun hr hw => ?_, exec_apertureWrite_frame s off bytes, exec_apertureRead_good, fun h => ⟨_, exec_apertureRead_bad h, unsupported_only _⟩,
    fun h kind => ⟨_, exec_pcieAtomicop_good h, mem_emit _, ?_⟩, fun h kind => ⟨_, exec_pcieAtomicop_bad h, unsupported_only _⟩,
    rfl, rfl, rfl, rfl, exec_registerWrite_doorbell, rfl, rfl, fun o => exec_registerWrite_ignored, exec_adminQcb_state v,
    fun k => exec_registerWrite_msix, registerRead_doorbells, exec_admitDigest_free, exec_admitDigest_taken, ?_, fun h hh => ⟨fun hle => ?_, fun hlt => ?_⟩,
    rfl, rfl, rfl, ⟨_, rfl⟩, ⟨_, rfl⟩, exec_firmwareUpdate_patch bytes, exec_firmwareUpdate_boot bytes, fun h => ⟨s.beginRestart, if_pos h, beginRestart_state⟩,
    exec_firmwareActivate_boot, fun h => ?_, fun h => ?_, rfl, rfl⟩
  · exact if_pos (by rw [hr, hw]; rfl)
  · cases kind <;> rfl
  · intro c q d0 d1 size halts own hf0 hf1 hr hc
    refine ⟨exec_packetAdmission_apart hf0 hf1 hr hc, fun e he hl => exec_packetAdmission_lost hf0 hf1 hr hc he hl, fun he h1 hn => ?_⟩
    obtain ⟨hdiff, hsame⟩ := exec_packetAdmission_read hf0 hf1 hr hc he h1 hn
    exact ⟨hdiff, fun ho => ⟨_, hsame ho, pairAdmits_queue _, pairAdmits_slots _⟩⟩
  · exact exec_admitTimeout_due hh hle
  · exact exec_admitTimeout_early hh hlt
  · rw [exec_mctpAttestation]
    unfold execMctpAttestation
    dsimp only
    rw [askReport_full _ _ h]
    rfl
  · obtain ⟨u, hu, hatt, -, -⟩ := askReport_wait 0 (0 :: (List.range 4).map fun i => w64 (fieldOf bytes (8 * i) 8)) h
    refine ⟨u, _, ?_, hatt, rfl⟩
    rw [exec_mctpAttestation]
    unfold execMctpAttestation
    dsimp only
    rw [hu]
    rfl

end Sys2Proof.Proofs
end

section
/-! PROOFS. Clocks, power, droop and heat (O49). -/

namespace Sys2Proof.Proofs
open Sys2Proof Sys2Proof.Machine Sys2Proof.Laws.Shapes

/-! ### Partitions -/

section
variable {s : State}

theorem partAt_modPart (n m : Nat) (f : Partition → Partition) : (s.modPart n f).partAt m = if m = n then f (s.partAt n) else s.partAt m :=
  tget_tset ..

/-- A change of the listed partitions that a test picks. -/
theorem partAt_modParts (f : Partition → Partition) (p : Nat → Partition → Bool) (l : List Nat) (hd : l.Nodup) (m : Nat) :
    (l.foldl (fun u n => if p n (u.partAt n) then u.modPart n f else u) s).partAt m =
      if m ∈ l ∧ p m (s.partAt m) = true then f (s.partAt m) else s.partAt m := by
  induction l generalizing s with
  | nil => rw [List.foldl_nil, if_neg fun h => List.not_mem_nil h.1]
  | cons n l ih =>
    obtain ⟨hn, hd⟩ := List.nodup_cons.mp hd
    rw [List.foldl_cons, ih hd]
    by_cases hm : m = n
    · subst hm
      rw [if_neg fun h => hn h.1]
      by_cases hp : p m (s.partAt m) = true
      · rw [if_pos hp, partAt_modPart, if_pos rfl, if_pos ⟨List.mem_cons_self .., hp⟩]
      · rw [if_neg hp, if_neg fun h => hp h.2]
    · have hsame : (if p n (s.partAt n) then s.modPart n f else s).partAt m = s.partAt m := by
        split
        · rw [partAt_modPart, if_neg hm]
        · rfl
      rw [hsame]
      simp only [List.mem_cons, hm, false_or]

theorem partAt_standAll (l : List Nat) (n : Nat) : (s.standAll l).partAt n = s.partAt n :=
  standAll_kept (fun s => s.partAt n) (fun u k => congrArg (fun x : Table Partition => tget x n {}) (focus_parts u k)) (fun _ _ _ => rfl) l

/-! ### Targets and power (R13, R21 to R24) -/

/-- The least by priority, and of equals the highest number, of a list taken in rising order. -/
theorem foldl_least (prio : Nat → Nat) (l : List Nat) (b : Nat) (hsort : (b :: l).Pairwise (· < ·)) :
    let r := l.foldl (fun b x => if prio x ≤ prio b then x else b) b
    r ∈ b :: l ∧ ∀ m ∈ b :: l, prio r ≤ prio m ∧ (prio m = prio r → m ≤ r) := by
  induction l generalizing b with
  | nil =>
    refine ⟨List.mem_singleton.mpr rfl, fun m hm => ?_⟩
    rw [List.mem_singleton.mp hm]
    exact ⟨Nat.le_refl _, fun _ => Nat.le_refl _⟩
  | cons x l ih =>
    intro r
    obtain ⟨hb, hx⟩ := List.pairwise_cons.mp hsort
    obtain ⟨hxl, hl⟩ := List.pairwise_cons.mp hx
    by_cases hle : prio x ≤ prio b
    · have hr : r = l.foldl (fun b x => if prio x ≤ prio b then x else b) x := by
        simp only [r, List.foldl_cons, if_pos hle]
      obtain ⟨hmem, hmin⟩ := ih x hx
      rw [← hr] at hmem hmin
      refine ⟨List.mem_cons_of_mem _ hmem, fun m hm => ?_⟩
      rcases List.mem_cons.mp hm with rfl | hm
      · obtain ⟨h1, h2⟩ := hmin x (List.mem_cons_self ..)
        have hbx := hb r hmem
        exact ⟨h1.trans hle, fun _ => hbx.le⟩
      · exact hmin m hm
    · have hr : r = l.foldl (fun b x => if prio x ≤ prio b then x else b) b := by
        simp only [r, List.foldl_cons, if_neg hle]
      obtain ⟨hmem, hmin⟩ := ih b (List.pairwise_cons.mpr ⟨fun y hy => hb y (List.mem_cons_of_mem _ hy), hl⟩)
      rw [← hr] at hmem hmin
      refine ⟨?_, fun m hm => ?_⟩
      · rcases List.mem_cons.mp hmem with h | h
        · exact h ▸ List.mem_cons_self ..
        · exact List.mem_cons_of_mem _ (List.mem_cons_of_mem _ h)
      · rcases List.mem_cons.mp hm with rfl | hm
        · exact hmin m (List.mem_cons_self ..)
        · rcases List.mem_cons.mp hm with rfl | hm
          · obtain ⟨h1, h2⟩ := hmin b (List.mem_cons_self ..)
            refine ⟨by omega, fun h => by omega⟩
          · exact hmin m (List.mem_cons_of_mem _ hm)


theorem partitions_sorted : partitions.Pairwise (· < ·) := List.pairwise_lt_range

theorem mem_partitions {n : Nat} : n ∈ partitions ↔ n < 16 := List.mem_range

/-- The partition whose target is lowered next (R21). -/
theorem slowNext_spec {n : Nat} (h : s.slowNext = some n) :
    let prio := fun (k : Nat) => match (s.partAt k).owner with | some v => (s.ctxAt v).prio | none => 0
    n < 16 ∧ (s.partAt n).elastic = true ∧ 560 < (s.partAt n).mhz ∧
      ∀ m, m < 16 → (s.partAt m).elastic = true → 560 < (s.partAt m).mhz → prio n ≤ prio m ∧ (prio m = prio n → m ≤ n) := by
  intro prio
  have hmem (k : Nat) : k ∈ (partitions.filter fun p => (s.partAt p).elastic && decide (560 < (s.partAt p).mhz)) ↔
      k < 16 ∧ (s.partAt k).elastic = true ∧ 560 < (s.partAt k).mhz := by
    rw [List.mem_filter, mem_partitions, Bool.and_eq_true, decide_eq_true_eq]
  have hsort := partitions_sorted.filter fun p => (s.partAt p).elastic && decide (560 < (s.partAt p).mhz)
  unfold State.slowNext at h
  dsimp only at h
  cases hl : (partitions.filter fun p => (s.partAt p).elastic && decide (560 < (s.partAt p).mhz)) with
  | nil =>
    rw [hl] at h
    exact absurd h nofun
  | cons b l =>
    rw [hl] at h hsort hmem
    obtain ⟨hin, hleast⟩ := foldl_least prio l b hsort
    have hn : l.foldl (fun b x => if prio x ≤ prio b then x else b) b = n := Option.some.inj h
    rw [hn] at hin hleast
    obtain ⟨h16, hel, hmhz⟩ := (hmem n).mp hin
    exact ⟨h16, hel, hmhz, fun m hm he hz => hleast m ((hmem m).mpr ⟨hm, he, hz⟩)⟩

variable (s) in
theorem exec_powerSample_next (w : Nat) :
    let l := (w :: s.pkg.samples).take 100
    let s1 := s.modPkg fun y => { y with samples := l }
    let fits := l.foldl (· + ·) 0 ≤ s.pkg.powerLimit * l.length
    (fits → exec (.powerSample w) s = .next s1) ∧
    (¬fits → (∀ n, s.slowNext = some n → exec (.powerSample w) s = .next (s1.modPart n fun y => { y with mhz := y.mhz - 20 })) ∧
      (s.slowNext = none → exec (.powerSample w) s = .next s1)) := by
  intro l s1 fits
  have hover : s1.pkg.overLimit = decide (s.pkg.powerLimit * l.length < l.foldl (· + ·) 0) := rfl
  have hslow : s1.slowNext = s.slowNext := rfl
  rw [exec_powerSample]
  unfold execPowerSample
  refine ⟨fun h => ?_, fun h => ⟨fun n hn => ?_, fun hn => ?_⟩⟩
  · refine if_pos ?_
    rw [hover, decide_eq_false (Nat.not_lt.mpr h)]
    rfl
  · refine (if_neg ?_).trans ?_
    · rw [hover, decide_eq_true (Nat.not_le.mp h)]
      exact Bool.false_ne_true
    · rw [hslow, hn]
  · refine (if_neg ?_).trans ?_
    · rw [hover, decide_eq_true (Nat.not_le.mp h)]
      exact Bool.false_ne_true
    · rw [hslow, hn]

/-- Whether a target may be set, in the words of R13 and R24. -/
theorem mayTarget_iff (die mhz old : Nat) :
    s.mayTarget die old mhz = true ↔
      if s.pkg.throttled.getLsbD die then mhz = 560
      else if mhz < 800 then s.pkg.powerLimit * s.pkg.samples.length < s.pkg.samples.foldl (· + ·) 0 ∨ old ≤ mhz
      else mhz = 800 ∨ ¬s.pkg.powerLimit * s.pkg.samples.length < s.pkg.samples.foldl (· + ·) 0 := by
  unfold State.mayTarget Pkg.overLimit
  cases s.pkg.throttled.getLsbD die with
  | true => simp
  | false =>
    by_cases h : mhz < 800
    · simp [h]
    · simp [h]

/-! ### The power limit (R22, R23) -/

/-- What `takePart` and `askFirst` leave alone. -/
theorem retryParts_kept {α : Type} (p : State → α) (hp : ∀ (u : State) ps a, p { u with parts := ps, agenda := a } = p u) : p s.retryParts = p s := by
  unfold State.retryParts
  refine foldl_kept p (fun u n => ?_) _
  dsimp only
  split
  · rfl
  · split
    · exact hp u u.parts _
    · split
      · exact hp u _ _
      · rfl

theorem shed_kept {α : Type} (p : State → α) (hp : ∀ (u : State) ps a f, p { u with parts := ps, agenda := a, free := f } = p u) (k : Nat) :
    p (s.shed k) = p s := by
  induction k generalizing s with
  | zero => rfl
  | succ k ih =>
    unfold State.shed
    dsimp only
    split
    · rfl
    · split
      · exact (ih ..).trans (hp s _ _ _)
      · rfl

/-- Nothing is pre-empted while the reservation fits. -/
theorem shed_fits (k : Nat) (h : s.reserved ≤ s.pkg.powerLimit) : s.shed k = s := by
  cases k with
  | zero => rfl
  | succ k => exact if_pos (Nat.le_add_right_of_le h)

variable (s) in
theorem exec_powerLimitEffecter_in {w : Nat} (h : 1200 ≤ w ∧ w ≤ 2400 ∧ w % 25 = 0) :
    ∃ t, exec (.powerLimitEffecter w) s = .next t ∧ t.pkg = { s.pkg with powerLimit := w } ∧ t.mem = s.mem ∧
      (s.reserved ≤ w → t = (s.modPkg fun y => { y with powerLimit := w }).retryParts) := by
  refine ⟨_, if_pos h, ?_, ?_, fun hr => ?_⟩
  · rw [retryParts_kept State.pkg fun _ _ _ => rfl, shed_kept State.pkg fun _ _ _ _ => rfl]
    rfl
  · rw [retryParts_kept State.mem fun _ _ _ => rfl, shed_kept State.mem fun _ _ _ _ => rfl]
    rfl
  · rw [shed_fits 16 hr]

/-! ### Droop (R14, R16, R19, R20) -/

theorem atRest_iff (x : Partition) : x.atRest = true ↔ x.halted = true ∨ x.taking ≠ none := by
  unfold Partition.atRest
  rw [Bool.or_eq_true, Option.isSome_iff_ne_none]

variable (s) in
theorem exec_droopStretch_cases (die core : Nat) :
    let k := 144 * die + core
    let x := s.partAt (partOf k)
    (x.fixed = false ∨ x.halted = true ∨ x.taking ≠ none → exec (.droopStretch die core) s = .next (s.stretch k)) ∧
    (x.fixed = true → ¬(x.halted = true ∨ x.taking ≠ none) → exec (.droopStretch die core) s = .next s) := by
  intro k x
  rw [exec_droopStretch]
  unfold execDroopStretch
  refine ⟨fun h => if_neg ?_, fun hf hr => if_pos ?_⟩
  · change ¬(x.fixed && !x.atRest) = true
    rcases h with h | h
    · rw [h]
      exact Bool.false_ne_true
    · rw [(atRest_iff x).mpr h, Bool.not_true, Bool.and_false]
      exact Bool.false_ne_true
  · change (x.fixed && !x.atRest) = true
    rw [hf, Bool.eq_false_iff.mpr fun h => hr ((atRest_iff x).mp h)]
    rfl

/-- The partitions of a die that the droop guard stops (R19). -/
theorem partAt_guardDie (v die m : Nat) : (s.guardDie v die).partAt m =
    if m < 16 ∧ m / 4 = die ∧ (s.partAt m).owner = some v then { s.partAt m with guard := true } else s.partAt m := by
  unfold State.guardDie
  dsimp only
  rw [partAt_modParts (fun x => { x with guard := true }) (fun p x => decide (p / 4 = die) && x.owner == some v) partitions List.nodup_range,
    partAt_standAll]
  simp only [mem_partitions, Bool.and_eq_true, decide_eq_true_eq, beq_iff_eq]

theorem guardDie_kept {α : Type} (p : State → α) (hf : ∀ u n, p (State.focus u n) = p u) (hg : ∀ (u : State) g c, p { u with g := g, cores := c } = p u)
    (hp : ∀ (u : State) x, p { u with parts := x } = p u) (v die : Nat) : p (s.guardDie v die) = p s := by
  unfold State.guardDie
  dsimp only
  refine (foldl_kept p (fun u n => ?_) _).trans (standAll_kept p hf hg _)
  split
  · exact hp u _
  · rfl

/-- The droop guard's stop at the core in `subj` (R19): the clock stretches, the partitions are guarded, and one fault is on its way. -/
def State.guarded (s : State) (v : Nat) : State :=
  let s2 := (s.stretch s.subj).guardDie v (dieOf s.subj)
  if s.parts.any fun p => p.2.owner == some v && p.2.guard then s2 else s2.offCore (.on v) (.contextFault 0 3 15)

section
variable {v : Nat} (ho : (s.partAt (partOf s.subj)).owner = some v) (hf : (s.partAt (partOf s.subj)).fixed = true)
include ho hf

theorem exec_droopGuard_rests
    (h : ((s.partAt (partOf s.subj)).atRest || (s.ctxAt v).halt || (s.partAt (partOf s.subj)).guard) = true) :
    exec .droopGuard s = .next (s.stretch s.subj) := by
  rw [exec_droopGuard]
  unfold execDroopGuard
  dsimp only
  rw [ho]
  dsimp only
  rw [hf]
  exact (if_neg (by decide)).trans (if_pos h)

theorem exec_droopGuard_guards
    (h : ((s.partAt (partOf s.subj)).atRest || (s.ctxAt v).halt || (s.partAt (partOf s.subj)).guard) = false) :
    exec .droopGuard s = .next (State.guarded s v) := by
  rw [exec_droopGuard]
  unfold execDroopGuard
  dsimp only
  rw [ho]
  dsimp only
  rw [hf]
  exact (if_neg (by decide)).trans (if_neg fun e => Bool.false_ne_true (h.symm.trans e))

end

theorem exec_droopGuard_idle (h : (s.partAt (partOf s.subj)).owner = none ∨ (s.partAt (partOf s.subj)).fixed = false) :
    exec .droopGuard s = .next s := by
  rw [exec_droopGuard]
  unfold execDroopGuard
  dsimp only
  rcases h with h | h
  · rw [h]
  · rw [h]
    cases (s.partAt (partOf s.subj)).owner with
    | none => rfl
    | some v => rfl

/-- What `guarded` keeps beside partitions, gangs, cores and the agenda. -/
theorem guarded_kept {α : Type} (p : State → α) (hf : ∀ u n, p (State.focus u n) = p u) (hg : ∀ (u : State) g c, p { u with g := g, cores := c } = p u)
    (hp : ∀ (u : State) x, p { u with parts := x } = p u) (ha : ∀ (u : State) a n, p { u with agenda := a, free := n } = p u) (v : Nat) :
    p (State.guarded s v) = p (s.stretch s.subj) := by
  unfold State.guarded
  dsimp only
  split
  · exact guardDie_kept p hf hg hp v _
  · exact (ha _ _ _).trans (guardDie_kept p hf hg hp v _)

theorem partAt_guarded (v m : Nat) : (State.guarded s v).partAt m =
    if m < 16 ∧ m / 4 = s.subj / 144 ∧ (s.partAt m).owner = some v then { s.partAt m with guard := true } else s.partAt m := by
  have h := partAt_guardDie (s := s.stretch s.subj) v (dieOf s.subj) m
  unfold State.guarded
  dsimp only
  split <;> exact h

theorem agenda_guardDie (v die : Nat) : (s.guardDie v die).agenda = s.agenda :=
  guardDie_kept State.agenda focus_agenda (fun _ _ _ => rfl) (fun _ _ => rfl) v die

theorem told_iff (v : Nat) : (s.parts.any fun p => p.2.owner == some v && p.2.guard) = true ↔ ∃ y ∈ s.parts, y.2.owner = some v ∧ y.2.guard = true := by
  simp only [List.any_eq_true, Bool.and_eq_true, beq_iff_eq]

theorem guarded_told {v : Nat} (h : ∃ y ∈ s.parts, y.2.owner = some v ∧ y.2.guard = true) : (State.guarded s v).agenda = s.agenda := by
  have hg : State.guarded s v = (s.stretch s.subj).guardDie v (dieOf s.subj) := if_pos ((told_iff v).mpr h)
  rw [hg, agenda_guardDie]
  rfl

theorem guarded_tells {v : Nat} (h : ∀ y ∈ s.parts, y.2.owner = some v → y.2.guard = false) :
    ∃ d ∈ (State.guarded s v).agenda, d.subj = .on v ∧ d.ev = .contextFault 0 3 15 ∧ s.now < d.time := by
  have hn : (s.parts.any fun p => p.2.owner == some v && p.2.guard) = false := by
    refine Bool.eq_false_iff.mpr fun e => ?_
    obtain ⟨y, hy, ho, hg⟩ := (told_iff v).mp e
    exact Bool.false_ne_true ((h y hy ho).symm.trans hg)
  have hnow : ((s.stretch s.subj).guardDie v (dieOf s.subj)).now = s.now :=
    guardDie_kept State.now focus_now (fun _ _ _ => rfl) (fun _ _ => rfl) v _
  have hg : State.guarded s v = ((s.stretch s.subj).guardDie v (dieOf s.subj)).offCore (.on v) (.contextFault 0 3 15) :=
    if_neg fun e => Bool.false_ne_true (hn.symm.trans e)
  rw [hg]
  obtain ⟨d, hd, hlt, -, hj, he⟩ := mem_offCore (s := (s.stretch s.subj).guardDie v (dieOf s.subj)) (.on v) (.contextFault 0 3 15)
  exact ⟨d, hd, hj, he, hnow ▸ hlt⟩

theorem mem_stretch (k : Nat) : k ∈ (s.stretch k).pkg.stretched := by
  unfold State.stretch State.modPkg
  dsimp only
  split
  next h => exact List.contains_iff_mem.mp h
  next => exact List.mem_append_right _ (List.mem_singleton.mpr rfl)

/-! ### Heat (R24) -/

/-- The elastic partitions of a die take a target. -/
theorem partAt_setTargets (die mhz m : Nat) : (s.setTargets die mhz).partAt m =
    if m / 4 = die ∧ (s.partAt m).elastic = true then { s.partAt m with mhz := mhz } else s.partAt m := by
  let f : Partition → Partition := fun x => if x.elastic then { x with mhz := mhz } else x
  have hmap : s.setTargets die mhz = ((List.range 4).map (4 * die + ·)).foldl (fun u n => if (fun _ _ => true) n (u.partAt n) then u.modPart n f else u) s := by
    rw [List.foldl_map]
    rfl
  have hmem : m ∈ (List.range 4).map (4 * die + ·) ↔ m / 4 = die := by
    rw [List.mem_map]
    constructor
    · rintro ⟨q, hq, rfl⟩
      have := List.mem_range.mp hq
      omega
    · intro h
      exact ⟨m % 4, List.mem_range.mpr (Nat.mod_lt _ (by decide)), by omega⟩
  have hnodup : ((List.range 4).map (4 * die + ·)).Nodup := List.nodup_range.map fun a b h => Nat.add_left_cancel h
  rw [hmap, partAt_modParts f (fun _ _ => true) _ hnodup]
  by_cases hm : m / 4 = die
  · rw [if_pos ⟨hmem.mpr hm, rfl⟩]
    by_cases he : (s.partAt m).elastic = true
    · rw [if_pos ⟨hm, he⟩]
      exact if_pos he
    · rw [if_neg fun h => he h.2]
      exact if_neg he
  · rw [if_neg fun h => hm (hmem.mp h.1), if_neg fun h => hm h.1]

theorem setTargets_kept {α : Type} (p : State → α) (hp : ∀ (u : State) x, p { u with parts := x } = p u) (die mhz : Nat) :
    p (s.setTargets die mhz) = p s := foldl_kept p (fun u _ => hp u _) _

/-- The machine once a die's throttle is over, before its targets are raised. -/
def State.coolDie (s : State) (die : Nat) : State :=
  { s with pkg := { s.pkg with throttled := s.pkg.throttled &&& ~~~(BitVec.ofNat 4 (2 ^ die)) } }

theorem partAt_raise (die n : Nat) (hot : Prop) [Decidable hot] :
    (if decide hot then State.coolDie s die else (State.coolDie s die).setTargets die 800).partAt n =
      if n / 4 = die ∧ (s.partAt n).elastic = true ∧ ¬hot then { s.partAt n with mhz := 800 } else s.partAt n := by
  by_cases h : hot
  · rw [if_pos (decide_eq_true h), if_neg fun g => g.2.2 h]
    rfl
  · rw [if_neg (by simpa using h), partAt_setTargets]
    by_cases g : n / 4 = die ∧ ((State.coolDie s die).partAt n).elastic = true
    · rw [if_pos g, if_pos ⟨g.1, g.2, h⟩]
      rfl
    · rw [if_neg g, if_neg fun k => g ⟨k.1, k.2.1⟩]
      rfl

theorem raise_kept {α : Type} (p : State → α) (hp : ∀ (u : State) x, p { u with parts := x } = p u) (die : Nat) (hot : Prop) [Decidable hot] :
    p (if decide hot then State.coolDie s die else (State.coolDie s die).setTargets die 800) = p (State.coolDie s die) := by
  split
  · rfl
  · exact setTargets_kept p hp ..

variable (s) in
theorem exec_thermalThrottleRelease_next (die : Nat) :
    ∃ t, exec (.thermalThrottleRelease die) s = .next t ∧ t.pkg.throttled = s.pkg.throttled &&& ~~~(BitVec.ofNat 4 (2 ^ die)) ∧ t.mem = s.mem ∧
      ∀ n, t.partAt n = if n / 4 = die ∧ (s.partAt n).elastic = true ∧ ¬s.pkg.powerLimit * s.pkg.samples.length < s.pkg.samples.foldl (· + ·) 0
        then { s.partAt n with mhz := 800 } else s.partAt n :=
  ⟨_, rfl, raise_kept (fun s => s.pkg.throttled) (fun _ _ => rfl) .., raise_kept State.mem (fun _ _ => rfl) .., fun _ => partAt_raise ..⟩

/-! ### The stop of every context -/

/-- One context in a thermal stop. -/
def State.stopOne (s : State) (c : Nat) : State := if (s.ctxAt c).root = s.self then s.stopQueue c 0x100 0 else s.stopWork c

@[simp] theorem estate_stopOne (c : Nat) : estate (State.stopOne s c) = estate s := by
  unfold State.stopOne
  split <;> simp

theorem self_of_estate {t : State} (h : estate t = estate s) : t.self = s.self := estate_state h State.self fun _ => rfl

theorem stopOne_ended {c m : Nat} (h : QState.ended (s.queueAt m).qstate = true) : QState.ended ((State.stopOne s c).queueAt m).qstate = true := by
  unfold State.stopOne
  split
  · by_cases hm : m = c
    · subst hm
      exact stopQueue_ends ..
    · rw [queueAt_stopQueue_other hm]
      exact h
  · rw [queueAt_stopWork]
    exact h

theorem stopAll_ended (cs : List Nat) {v : Nat} (hv : v ∈ cs ∨ QState.ended (s.queueAt v).qstate = true) (hr : (s.ctxAt v).root = s.self) :
    QState.ended ((cs.foldl State.stopOne s).queueAt v).qstate = true := by
  induction cs generalizing s with
  | nil => exact hv.resolve_left List.not_mem_nil
  | cons c cs ih =>
    have hest : estate (State.stopOne s c) = estate s := estate_stopOne c
    refine ih ?_ ((estate_ctx hest Ctx.root (fun _ => rfl) v).trans (hr.trans (self_of_estate hest).symm))
    by_cases hc : v = c
    · subst hc
      refine .inr ?_
      unfold State.stopOne
      rw [if_pos hr]
      exact stopQueue_ends ..
    · rcases hv with h | h
      · exact .inl ((List.mem_cons.mp h).resolve_left hc)
      · exact .inr (stopOne_ended h)

theorem ended_ne {q : QState} (h : QState.ended q = true) : q ≠ .idle ∧ q ≠ .running ∧ q ≠ .halted := by
  cases q with
  | stopped | destroyed | resetting => exact ⟨nofun, nofun, nofun⟩
  | _ => exact absurd h (by decide)

/-- What a thermal stop does before the queues stop (R24). -/
def State.heatStop (s : State) : State :=
  let ns := (s.allGangs.filter fun p => p.2.slot.isSome && !p.2.retired).map (·.1)
  ((s.standAll ns).emit (.mgmt "THERMAL_STOP" 0)).tellMembers "THERMAL_STOP" []

@[simp] theorem estate_tellMembers (what : String) (ws : List W64) : estate (s.tellMembers what ws) = estate s :=
  estate_foldl (fun _ _ => estate_tell ..) _

theorem onward_tellMembers (what : String) (ws : List W64) : Onward s (s.tellMembers what ws) := Onward.foldl (fun _ _ => onward_tell ..) _ s

theorem estate_heatStop : estate (State.heatStop s) = estate s := by
  unfold State.heatStop
  dsimp only
  rw [estate_tellMembers, estate_emit, estate_standAll]

theorem onward_stopOne (c : Nat) : Onward s (State.stopOne s c) := by
  unfold State.stopOne
  split
  · exact onward_stopQueue ..
  · exact onward_stopWork c

theorem exec_thermalStop_here (h : s.pkt.queue < 128) : ∃ t, exec .thermalStop s = .next t ∧ .mgmt "THERMAL_STOP" 0 ∈ t.out ∧
    ∀ v, v < 64 → (s.ctxAt v).used = true → (s.ctxAt v).root = s.self → (t.queueAt v).qstate ≠ .idle ∧ (t.queueAt v).qstate ≠ .running ∧
      (t.queueAt v).qstate ≠ .halted := by
  refine ⟨((List.range 64).filter fun c => (s.ctxAt c).used).foldl State.stopOne (State.heatStop s), ?_, ?_, fun v hv hu hr => ended_ne ?_⟩
  · rw [exec_thermalStop]
    unfold execThermalStop
    exact if_neg (by omega)
  · exact (Onward.foldl (fun _ _ => onward_stopOne _) _ _).said ((onward_tellMembers ..).said (mem_emit _))
  · refine stopAll_ended _ (.inl (List.mem_filter.mpr ⟨List.mem_range.mpr hv, hu⟩)) ?_
    exact (estate_ctx estate_heatStop Ctx.root (fun _ => rfl) v).trans (hr.trans (self_of_estate estate_heatStop).symm)

end

/-- Settles O49: each event by its own lemma. -/
theorem powerAndHeat : Obligations.PowerAndHeat := by
  intro s die q core mhz w c p k x prio l s1 fits hot may allowed stretched saved here
  have hallowed : allowed ↔ q < 4 ∧ die < 4 ∧ 560 ≤ mhz ∧ mhz ≤ 960 ∧ mhz % 20 = 0 ∧ (s.partAt p).elastic = true ∧
      s.mayTarget die (s.partAt p).mhz mhz = true := by
    rw [mayTarget_iff]
  refine ⟨fun h => if_pos (hallowed.mp h), fun h => if_neg fun e => h (hallowed.mpr e), (exec_powerSample_next s w).1, (exec_powerSample_next s w).2,
    fun n => slowNext_spec, exec_powerLimitEffecter_in s, fun h => if_neg h, (exec_droopStretch_cases s die core).1, (exec_droopStretch_cases s die core).2,
    rfl, fun v ho hf => ⟨fun h => ?_, fun hs hh hg => ?_⟩, exec_droopGuard_idle, ?_, fun hd => ⟨?_, ?_⟩, fun hq => ?_⟩
  · refine exec_droopGuard_rests ho hf ?_
    simp only [Bool.or_eq_true, atRest_iff]
    rcases h with h | h | h
    · exact .inl (.inl h)
    · exact .inl (.inr h)
    · exact .inr h
  · refine ⟨_, exec_droopGuard_guards ho hf ?_, ?_, ?_, ?_, fun n hn hdie hown => ?_, fun n hn => ?_, guarded_tells, guarded_told⟩
    · rw [hh, hg, Bool.or_false, Bool.or_false, Bool.eq_false_iff]
      exact fun e => hs ((atRest_iff _).mp e)
    · exact guarded_kept State.mem focus_mem (fun _ _ _ => rfl) (fun _ _ => rfl) (fun _ _ _ => rfl) v
    · rw [guarded_kept State.pkg focus_pkg (fun _ _ _ => rfl) (fun _ _ => rfl) (fun _ _ _ => rfl) v]
      exact mem_stretch s.subj
    · refine Eq.trans ?_ hh
      have hctxs := guarded_kept State.ctxs (s := s) focus_ctxs (fun _ _ _ => rfl) (fun _ _ => rfl) (fun _ _ _ => rfl) v
      exact congrArg (fun x : Table Ctx => (tget x v {}).halt) hctxs
    · rw [partAt_guarded, if_pos ⟨hn, hdie, hown⟩]
    · rw [partAt_guarded, if_neg]
      rintro ⟨-, hdie, hown⟩
      rcases hn with hn | hn
      · exact hn hdie
      · exact hn hown
  · rw [exec_thermalWarning]
    unfold execThermalWarning
    split <;> rfl
  · exact ⟨_, rfl, setTargets_kept (fun s => s.pkg.throttled) (fun _ _ => rfl) .., setTargets_kept State.mem (fun _ _ => rfl) ..,
      fun n => partAt_setTargets ..⟩
  · exact exec_thermalThrottleRelease_next s die
  · exact exec_thermalStop_here hq

end Sys2Proof.Proofs
end

section
/-! PROOFS. Bring-up, service levels, resets and soft errors (O50). -/

namespace Sys2Proof.Proofs
open Sys2Proof Sys2Proof.Machine Sys2Proof.Laws.Shapes

/-! ### Training and bring-up -/

section
variable {s : State}

/-- The units without which a package fails in `BOOT` (R30). -/
def FailUnit.vital (u : FailUnit) : Bool := u == .die 0 || u == .stack 0 || u == .stack 1

theorem vital_iff (u : FailUnit) : FailUnit.vital u = true ↔ u = .die 0 ∨ u = .stack 0 ∨ u = .stack 1 := by
  unfold FailUnit.vital
  simp [or_assoc]

theorem exec_trainingFailure_vital {u : FailUnit} (hb : s.pkg.bring = .boot) (hu : u = .die 0 ∨ u = .stack 0 ∨ u = .stack 1) :
    ∃ t, exec (.trainingFailure u) s = .next t ∧ t.pkg.bring = .failed ∧ t.pkg.service = 0x10 ∧ t.owl.state = 3 ∧
      .mgmt "FAILED" 0 ∈ t.out ∧ t.mem = s.mem := by
  have hf : (s.pkg.bring == .boot && FailUnit.vital u) = true := by rw [hb, (vital_iff u).mpr hu]; rfl
  exact ⟨_, if_pos hf, rfl, rfl, rfl, mem_emit _, rfl⟩

theorem exec_trainingFailure_other {u : FailUnit} (h : s.pkg.bring ≠ .boot ∨ ¬(u = .die 0 ∨ u = .stack 0 ∨ u = .stack 1)) :
    let s1 := s.modPkg fun p => { p with failedUnits := if p.failedUnits.contains u then p.failedUnits else p.failedUnits ++ [u] }
    (∀ a b, u = .dieLink a b → exec (.trainingFailure u) s = .next (s1.soon .none (.linkDown (.dieDie a b)))) ∧
    (∀ a, u = .hubLink a → exec (.trainingFailure u) s = .next (s1.soon .none (.linkDown (.dieHub a)))) ∧
    ((∀ a b, u ≠ .dieLink a b) → (∀ a, u ≠ .hubLink a) → exec (.trainingFailure u) s = .next s1) := by
  have hf : ¬(s.pkg.bring == .boot && FailUnit.vital u) = true := by
    rw [Bool.and_eq_true, vital_iff, beq_iff_eq]
    exact fun g => h.elim (· g.1) (· g.2)
  refine ⟨fun a b hu => ?_, fun a hu => ?_, fun hd hh => ?_⟩
  · subst hu
    exact if_neg hf
  · subst hu
    exact if_neg hf
  · refine (if_neg hf).trans ?_
    cases u with
    | die d => rfl
    | stack k => rfl
    | dieLink a b => exact absurd rfl (hd a b)
    | hubLink a => exact absurd rfl (hh a)

theorem testCore_kept {α : Type} (p : State → α) (hc : ∀ u c f, p (State.modCore u c f) = p u) (hf : ∀ (u : State) n, p { u with free := n } = p u)
    (ho : ∀ u e, p (State.emit u e) = p u) (core : Nat) : p (s.testCore core) = p s :=
  (foldl_kept p (fun u _ => ho u _) _).trans ((hf _ _).trans (hc ..))

/-- What a test of the lanes keeps, as far as bring-up speaks of it. -/
def State.fabric (s : State) : Pkg × Owl × List Host.Cell × List Nat × Nat := (s.pkg, s.owl, s.mem, s.homes, s.now)

theorem fabric_eq {t : State} (h : State.fabric t = State.fabric s) :
    t.pkg = s.pkg ∧ t.owl = s.owl ∧ t.mem = s.mem ∧ t.homes = s.homes ∧ t.now = s.now := by
  simpa only [State.fabric, Prod.mk.injEq] using h

theorem fabric_testCore (core : Nat) : State.fabric (s.testCore core) = State.fabric s :=
  testCore_kept State.fabric (fun _ _ _ => rfl) (fun _ _ => rfl) (fun _ _ => rfl) core

/-- `BOOT` has begun (R26), before the lanes are tested. -/
def State.powered (s : State) : State :=
  (({ s with owl := { s.owl.bootPatch with state := 1 } } : State).modPkg fun p => { p with bring := .boot, dstate := .forming }).bootHomes

theorem exec_standbyPowerGood_off (h : s.pkg.bring = .off) :
    ∃ t, exec .standbyPowerGood s = .next t ∧ t.pkg.bring = .boot ∧ t.pkg.dstate = .forming ∧ t.owl.state = 1 ∧ t.mem = s.mem ∧
      t.homes = [8 * s.self, 8 * s.self + 1] ∧ ∃ x ∈ t.agenda, s.now < x.time ∧ x.ev = .bootComplete := by
  obtain ⟨s2, hexec, hk⟩ : ∃ s2 : State, exec .standbyPowerGood s = .next (s2.offCore .none .bootComplete) ∧
      State.fabric s2 = State.fabric (State.powered s) :=
    ⟨(List.range 576).foldl State.testCore (State.powered s), if_neg (by rw [h]; decide), foldl_kept State.fabric (fun _ core => fabric_testCore core) _⟩
  obtain ⟨hpkg, howl, hmem, hhomes, hnow⟩ := fabric_eq hk
  obtain ⟨x, hx, ht, -, -, he⟩ := mem_offCore (s := s2) .none .bootComplete
  rw [hnow] at ht
  exact ⟨s2.offCore .none .bootComplete, hexec, congrArg Pkg.bring hpkg, congrArg Pkg.dstate hpkg,
    congrArg Owl.state howl, hmem, hhomes, x, hx, ht, he⟩

theorem tget_map_range {α : Type} (f : Nat → α) (d : α) {n i : Nat} (h : i < n) : tget ((List.range n).map fun j => (j, f j)) i d = f i := by
  have hfind : ∀ l : List Nat, i ∈ l → tfind (l.map fun j => (j, f j)) i = some (f i) := fun l hl => by
    induction l with
    | nil => exact absurd hl List.not_mem_nil
    | cons j l ih =>
      rw [List.map_cons, tfind]
      by_cases hj : j = i
      · rw [if_pos hj, hj]
      · rw [if_neg hj]
        exact ih ((List.mem_cons.mp hl).resolve_left fun h => hj h.symm)
  unfold tget
  rw [hfind _ (List.mem_range.mpr h)]
  rfl

/-- Reduced service has begun (R26), before the next steps are set. -/
def State.reduced (s : State) : State :=
  (s.modPkg fun p => { p with bring := .reduced, service := 0x11, admitting := true,
                              links := (List.range 32).map fun i => (i, { tget p.links i {} with training := true }) }).prepareAdmin.startService

/-- The domain of a package alone is published at once. -/
def State.alone (s : State) : State := if s.pkg.present = pkgBit s.self then s.soon .none .domainPublish else s

theorem alone_kept {α : Type} (p : State → α) (h : ∀ (u : State) a, p { u with agenda := a } = p u) : p (State.alone s) = p s := by
  unfold State.alone
  split
  · exact h ..
  · rfl

theorem exec_bootComplete_booted (h : s.pkg.bring = .boot) : exec .bootComplete s =
    .next (((State.alone (State.reduced s)).bootHomes.offCore .none .trainingEnd).later 16000000000 .none .formationTimeout) :=
  if_neg (by rw [h]; decide)

/-- The steps set at the end of `BOOT`. -/
theorem agenda_booted : (∃ x ∈ ((s.offCore .none .trainingEnd).later 16000000000 .none .formationTimeout).agenda, s.now < x.time ∧ x.ev = .trainingEnd) ∧
    ∃ x ∈ ((s.offCore .none .trainingEnd).later 16000000000 .none .formationTimeout).agenda, x.time = s.now + 16000000000 ∧ x.ev = .formationTimeout := by
  obtain ⟨x, hx, ht, -, -, he⟩ := mem_offCore (s := s) .none .trainingEnd
  exact ⟨⟨x, (onward_later ..).due hx, ht, he⟩, _, mem_later .., rfl, rfl⟩

theorem exec_bootComplete_boot (h : s.pkg.bring = .boot) :
    ∃ t, exec .bootComplete s = .next t ∧ t.pkg.bring = .reduced ∧ t.pkg.service = 0x11 ∧ t.pkg.admitting = true ∧
      t.homes = [8 * s.self, 8 * s.self + 1] ∧ (∃ x ∈ t.agenda, s.now < x.time ∧ x.ev = .trainingEnd) ∧
      (∃ x ∈ t.agenda, x.time = s.now + 16000000000 ∧ x.ev = .formationTimeout) ∧ ∀ i, i < 32 → (tget t.pkg.links i {}).training = true := by
  have hpkg : (State.alone (State.reduced s)).pkg = (State.reduced s).pkg := alone_kept State.pkg fun _ _ => rfl
  have hhomes : (State.alone (State.reduced s)).bootHomes.homes = [8 * s.self, 8 * s.self + 1] :=
    alone_kept (fun s => [8 * s.self, 8 * s.self + 1]) fun _ _ => rfl
  have hnow : (State.alone (State.reduced s)).bootHomes.now = s.now := alone_kept State.now fun _ _ => rfl
  obtain ⟨hend, hform⟩ := agenda_booted (s := (State.alone (State.reduced s)).bootHomes)
  rw [hnow] at hend hform
  refine ⟨_, exec_bootComplete_booted h, congrArg Pkg.bring hpkg, congrArg Pkg.service hpkg, congrArg Pkg.admitting hpkg, hhomes, hend, hform, fun i hi => ?_⟩
  exact (congrArg (fun p : Pkg => (tget p.links i {}).training) hpkg).trans (congrArg LinkSt.training (tget_map_range _ _ hi))

end

/-! ### The end of training -/

section
variable {s : State}

/-- What the end of training comes to in a package alone, and in every member at the start. -/
theorem beginTransition_cases :
    (s.pkg.admitting = true → s.beginTransition = (s.modPkg fun p => { p with admitting := false }).later
      (if s.launches = [] then 0 else 80000000) .none .serviceTransitionTimeout) ∧ (s.pkg.admitting = false → s.beginTransition = s) := by
  refine ⟨fun h => ?_, fun h => if_pos (by rw [h]; rfl)⟩
  have hl : (if s.launches.isEmpty then 0 else 80000000) = if s.launches = [] then 0 else 80000000 := by
    cases s.launches <;> rfl
  unfold State.beginTransition
  rw [if_neg (by rw [h]; decide), hl]

theorem beginTransition_kept {α : Type} (p : State → α)
    (h : ∀ u d, p ((State.modPkg u fun p => { p with admitting := false }).later d .none .serviceTransitionTimeout) = p u) : p s.beginTransition = p s := by
  unfold State.beginTransition
  split
  · rfl
  · exact h ..

theorem admitting_beginTransition : s.beginTransition.pkg.admitting = false := by
  unfold State.beginTransition
  split
  next h => exact (Bool.not_eq_true' _).mp h
  · rfl

theorem onward_beginTransition : Onward s s.beginTransition := by
  unfold State.beginTransition
  split
  · exact .refl s
  · exact (Onward.of_eq rfl rfl).trans (onward_later ..)

/-- A word told to other packages in turn, with what the teller then has to say. -/
def State.announce (s : State) (ns : List Nat) (what : String) (ws : State → List W64) : State := ns.foldl (fun s n => s.tell n what (ws s)) s

@[simp] theorem outer_announce (ns : List Nat) (what : String) (ws : State → List W64) : outer (State.announce s ns what ws) = outer s :=
  outer_foldl (fun _ _ => outer_tell ..) _

theorem onward_announce (ns : List Nat) (what : String) (ws : State → List W64) : Onward s (State.announce s ns what ws) :=
  Onward.foldl (fun _ _ => onward_tell ..) _ s

theorem mem_announce {ns : List Nat} {n : Nat} (what : String) {ws : State → List W64} (hw : ∀ s, ws (outer s).1 = ws s) (h : n ∈ ns) :
    .control n what (ws s) ∈ (State.announce s ns what ws).out := by
  induction ns generalizing s with
  | nil => exact absurd h List.not_mem_nil
  | cons m ns ih =>
    rcases List.mem_cons.mp h with rfl | h
    · exact (onward_announce ns what ws).said (mem_tell ..)
    · exact outer_state (outer_tell m what (ws s)) ws hw ▸ ih h

/-- The other members that can be reached. -/
def State.others (s : State) : List Nat := s.liveMembers.filter fun n => n != s.self

theorem mem_others {n : Nat} : n ∈ State.others s ↔ n < 64 ∧ n ≠ s.self ∧ s.pkg.members.getLsbD n = true ∧ s.pkg.lost.getLsbD n = false := by
  unfold State.others State.liveMembers
  simp only [List.mem_filter, List.mem_range, bne_iff_ne, Bool.or_eq_true, decide_eq_true_eq, Bool.and_eq_true, Bool.not_eq_true']
  constructor
  · rintro ⟨⟨h, hm⟩, hn⟩
    exact ⟨h, hn, hm.resolve_left hn⟩
  · rintro ⟨h, hn, hm⟩
    exact ⟨⟨h, .inr hm⟩, hn⟩

theorem startTogether_cases : s.startTogether = s ∨ s.startTogether = (State.announce s (State.others s) "TRANSITION" fun _ => []).beginTransition := by
  unfold State.startTogether
  dsimp only
  split
  · exact .inl rfl
  · exact .inr rfl

theorem startTogether_kept {α : Type} (p : State → α) (ho : ∀ u v, outer u = outer v → p u = p v)
    (h : ∀ u d, p ((State.modPkg u fun p => { p with admitting := false }).later d .none .serviceTransitionTimeout) = p u) : p s.startTogether = p s := by
  rcases startTogether_cases (s := s) with e | e
  · rw [e]
  · rw [e]
    exact (beginTransition_kept p h).trans (ho _ _ (outer_announce ..))

theorem ended_startTogether : s.startTogether.pkg.ended = s.pkg.ended :=
  startTogether_kept (fun s => s.pkg.ended) (fun _ _ h => outer_state h (fun s => s.pkg.ended) fun _ => rfl) fun _ _ => rfl

theorem units_startTogether : s.startTogether.pkg.units = s.pkg.units :=
  startTogether_kept (fun s => s.pkg.units) (fun _ _ h => outer_state h (fun s => s.pkg.units) fun _ => rfl) fun _ _ => rfl

theorem onward_startTogether : Onward s s.startTogether := by
  rcases startTogether_cases (s := s) with e | e
  · rw [e]
    exact .refl s
  · rw [e]
    exact (onward_announce ..).trans onward_beginTransition

/-- The lowest member, with every member's training ended, starts the transition. -/
theorem startTogether_lowest (hs : s.self < 64) (hb : s.pkg.ended.getLsbD s.self = true)
    (h : ∀ n ∈ State.others s, s.self < n ∧ s.pkg.ended.getLsbD n = true) :
    s.startTogether = (State.announce s (State.others s) "TRANSITION" fun _ => []).beginTransition := by
  have hother {n : Nat} (hn : n ∈ s.liveMembers) : n = s.self ∨ n ∈ State.others s :=
    or_iff_not_imp_left.mpr fun hne => List.mem_filter.mpr ⟨hn, bne_iff_ne.mpr hne⟩
  have hhead : s.liveMembers.headD s.self = s.self := by
    have hfind : s.liveMembers.head? = some s.self := by
      unfold State.liveMembers
      rw [List.head?_filter, List.find?_range_eq_some]
      refine ⟨by simp, List.mem_range.mpr hs, fun j hj => ?_⟩
      by_contra hc
      have hm : j ∈ s.liveMembers := List.mem_filter.mpr ⟨List.mem_range.mpr (by omega), by simpa only [Bool.not_eq_true', Bool.not_eq_false] using hc⟩
      rcases hother hm with rfl | g
      · exact lt_irrefl _ hj
      · exact absurd (h j g).1 (by omega)
    rw [List.headD_eq_head?_getD, hfind]
    rfl
  have hall : (s.liveMembers.all fun n => s.pkg.ended.getLsbD n) = true := List.all_eq_true.mpr fun n hn =>
    (hother hn).elim (fun e => e ▸ hb) fun g => (h n g).2
  exact if_neg (by rw [hhead, hall]; simp)

theorem exec_trainingEnd_started (hb : s.pkg.bring = .reduced) (hq : 256 ≤ s.pkt.queue) : exec .trainingEnd s = .next s.beginTransition :=
  (if_neg (by rw [hb]; decide)).trans (if_pos hq)

theorem exec_trainingEnd_own (hb : s.pkg.bring = .reduced) (hq : s.pkt.queue < 128) : exec .trainingEnd s =
    if s.formationPending then .next (s.later 800000 .none .trainingEnd)
    else if s.pkg.dstate != .member then .next s.beginTransition
    else .next (((State.announce s (State.others s) "TRAINING_END" fun s => [w64 s.ownUnits]).noteEnd
      s.self 0).startTogether) := by
  rw [exec_trainingEnd]
  unfold execTrainingEnd
  dsimp only
  rw [if_neg (by rw [hb]; decide), if_neg (show ¬256 ≤ s.pkt.queue by omega), if_neg (show ¬128 ≤ s.pkt.queue by omega)]
  rfl

theorem getLsbD_bit {n : Nat} (h : n < 64) : (w64 (2 ^ n)).getLsbD n = true := by
  unfold w64
  rw [BitVec.getLsbD_ofNat, Nat.testBit_two_pow_self]
  simpa using h

theorem exec_trainingEnd_member (hb : s.pkg.bring = .reduced) (hq : s.pkt.queue < 128) (hp : s.formationPending = false) (hd : s.pkg.dstate = .member)
    (hs : s.self < 64) : ∃ t, exec .trainingEnd s = .next t ∧ t.pkg.ended = s.pkg.ended ||| w64 (2 ^ s.self) ∧
      (∀ n, (n < 64 ∧ n ≠ s.self ∧ s.pkg.members.getLsbD n = true ∧ s.pkg.lost.getLsbD n = false) → .control n "TRAINING_END" [w64 s.ownUnits] ∈ t.out) ∧
      ((∀ n, (n < 64 ∧ n ≠ s.self ∧ s.pkg.members.getLsbD n = true ∧ s.pkg.lost.getLsbD n = false) → s.self < n ∧ s.pkg.ended.getLsbD n = true) →
        t.pkg.admitting = false ∧
        ∀ n, (n < 64 ∧ n ≠ s.self ∧ s.pkg.members.getLsbD n = true ∧ s.pkg.lost.getLsbD n = false) → .control n "TRANSITION" [] ∈ t.out) := by
  let s1 := State.announce s (State.others s) "TRAINING_END" fun s => [w64 s.ownUnits]
  let s2 := s1.noteEnd s.self 0
  have hv : outer s1 = outer s := outer_announce ..
  have hself : s1.self = s.self := outer_state hv State.self fun _ => rfl
  have hothers : State.others s2 = State.others s := outer_state hv State.others fun _ => rfl
  have hended : s2.pkg.ended = s.pkg.ended ||| w64 (2 ^ s.self) := by
    rw [← outer_state hv (fun s => s.pkg.ended) fun _ => rfl]
    rfl
  refine ⟨s2.startTogether, ?_, ?_, fun n hn => ?_, fun h => ?_⟩
  · rw [exec_trainingEnd_own hb hq, hp, hd]
    rfl
  · exact ended_startTogether.trans hended
  · exact onward_startTogether.said (mem_announce (s := s) "TRAINING_END" (ws := fun s => [w64 s.ownUnits]) (fun _ => rfl) (mem_others.mpr hn))
  · have hlow : s2.startTogether = (State.announce s2 (State.others s2) "TRANSITION" fun _ => []).beginTransition := by
      refine startTogether_lowest (hself ▸ hs) ?_ fun n hn => ?_
      · rw [hended, show s2.self = s.self from hself, BitVec.getLsbD_or, getLsbD_bit hs, Bool.or_true]
      · rw [hothers] at hn
        obtain ⟨hlt, he⟩ := h n (mem_others.mp hn)
        rw [hended, BitVec.getLsbD_or, he]
        exact ⟨hself ▸ hlt, rfl⟩
    rw [hlow]
    exact ⟨admitting_beginTransition, fun n hn => onward_beginTransition.said (mem_announce "TRANSITION" (ws := fun _ => []) (fun _ => rfl) (hothers ▸ mem_others.mpr hn))⟩

theorem units_noteEnd {n units : Nat} (h : n ≠ s.self) : (s.noteEnd n units).pkg.units = tset s.pkg.units n units := if_neg h

theorem exec_trainingEnd_report (hb : s.pkg.bring = .reduced) (hlo : 128 ≤ s.pkt.queue) (hhi : s.pkt.queue < 192) (hn : s.pkt.queue - 128 ≠ s.self) :
    ∃ t, exec .trainingEnd s = .next t ∧ t.pkg.ended = s.pkg.ended ||| w64 (2 ^ (s.pkt.queue - 128)) ∧
      tget t.pkg.units (s.pkt.queue - 128) 0 = (s.pkt.words.getD 0 0xFFF).toNat := by
  have hmod : s.pkt.queue % 64 = s.pkt.queue - 128 := by omega
  have hexec : exec .trainingEnd s = .next ((s.noteEnd (s.pkt.queue % 64) ((s.pkt.words.getD 0 0xFFF).toNat)).startTogether) :=
    (if_neg (by rw [hb]; decide)).trans ((if_neg (show ¬256 ≤ s.pkt.queue by omega)).trans (if_pos hlo))
  rw [hmod] at hexec
  refine ⟨_, hexec, ended_startTogether, ?_⟩
  rw [units_startTogether, units_noteEnd hn, tget_tset, if_pos rfl]

end

/-! ### The transition of the service level -/

section
variable {s : State}

/-- A new service level (R29), before the home list follows it. -/
def State.levelled (s : State) : State :=
  let mask := s.goodDies.foldl (fun a d => a + 2 ^ (4 + d)) 0
  let ok := s.pkg.failedUnits.isEmpty
  s.modPkg fun p => { p with bring := if ok then .full else .degraded, service := BitVec.ofNat 8 (mask + if ok then 2 else 3) }

/-- A new service level in force (R29), before it is published. -/
def State.served (s : State) : State := { State.levelled s with homes := (State.levelled s).wideHomes }

@[simp] theorem estate_publishService : estate s.publishService = estate s := estate_foldl (fun _ _ => estate_modQcb ..) _

theorem estate_admits {t : State} (h : estate t = estate s) :
    estate (t.modPkg fun p => { p with admitting := true }) = estate (s.modPkg fun p => { p with admitting := true }) :=
  congrArg (fun x : State × (Nat → Ctx) => (x.1.modPkg fun p => { p with admitting := true }, x.2)) h

/-- What publishing a service level, and looking again at what waits for it, leave alone. -/
theorem widen_kept {α : Type} (p : State → α) (he : ∀ u v, estate u = estate v → p u = p v)
    (hp : ∀ (u : State) ps a, p { u with parts := ps, agenda := a } = p u) :
    p s.widen = p ((State.served s).modPkg fun p => { p with admitting := true }) := by
  unfold State.widen
  refine (he _ _ (estate_ring 64)).trans ((he _ _ (estate_foldl (fun _ c => estate_ring c) _)).trans ?_)
  exact (retryParts_kept p hp).trans (he _ _ (estate_admits estate_publishService))

theorem isEmpty_ite {α β : Type} (l : List α) (a b : β) [Decidable (l = [])] : (if l.isEmpty then a else b) = if l = [] then a else b :=
  if_congr List.isEmpty_iff rfl rfl

theorem admitting_widen : s.widen.pkg.admitting = true := by
  rw [widen_kept (fun s => s.pkg.admitting) (fun _ _ h => estate_state h (fun s => s.pkg.admitting) fun _ => rfl) fun _ _ _ => rfl]
  rfl

theorem bring_widen : s.widen.pkg.bring = if s.pkg.failedUnits = [] then .full else .degraded := by
  rw [widen_kept (fun s => s.pkg.bring) (fun _ _ h => estate_state h (fun s => s.pkg.bring) fun _ => rfl) fun _ _ _ => rfl, ← isEmpty_ite]
  rfl

theorem service_widen : s.widen.pkg.service =
    BitVec.ofNat 8 (s.goodDies.foldl (fun a d => a + 2 ^ (4 + d)) 0 + if s.pkg.failedUnits = [] then 2 else 3) := by
  rw [widen_kept (fun s => s.pkg.service) (fun _ _ h => estate_state h (fun s => s.pkg.service) fun _ => rfl) fun _ _ _ => rfl, ← isEmpty_ite]
  rfl

/-- The byte of a service level, for every set of dies in service. -/
theorem serviceByte_sets : ∀ b0 b1 b2 b3 : Bool, ∀ low ∈ [2, 3],
    let dies := (if b0 then [0] else []) ++ (if b1 then [1] else []) ++ (if b2 then [2] else []) ++ (if b3 then [3] else [])
    let byte := BitVec.ofNat 8 (dies.foldl (fun a d => a + 2 ^ (4 + d)) 0 + low)
    (byte.getLsbD 4 = b0 ∧ byte.getLsbD 5 = b1 ∧ byte.getLsbD 6 = b2 ∧ byte.getLsbD 7 = b3) ∧ byte.toNat % 16 = low := by
  decide

theorem serviceByte (b : Nat → Bool) {low : Nat} (hlow : low ∈ [2, 3]) :
    let byte := BitVec.ofNat 8 (([0, 1, 2, 3].filter b).foldl (fun a d => a + 2 ^ (4 + d)) 0 + low)
    (∀ n, n < 4 → byte.getLsbD (4 + n) = b n) ∧ byte.toNat % 16 = low := by
  have hdies : [0, 1, 2, 3].filter b = (if b 0 then [0] else []) ++ (if b 1 then [1] else []) ++ (if b 2 then [2] else []) ++ (if b 3 then [3] else []) := by
    simp only [List.filter_cons, List.filter_nil]
    cases b 0 <;> cases b 1 <;> cases b 2 <;> cases b 3 <;> rfl
  obtain ⟨⟨h0, h1, h2, h3⟩, hmod⟩ := serviceByte_sets (b 0) (b 1) (b 2) (b 3) low hlow
  rw [hdies]
  refine ⟨fun n hn => ?_, hmod⟩
  match n, hn with
  | 0, _ => exact h0
  | 1, _ => exact h1
  | 2, _ => exact h2
  | 3, _ => exact h3

theorem mem_homes_widen (hs : s.self < 64) {k : Nat} (hk : k < 8) : 8 * s.self + k ∈ s.widen.homes ↔
    s.pkg.failedUnits.contains (.stack k) = false ∧ s.pkg.failedUnits.contains (.die (k / 2)) = false := by
  rw [widen_kept State.homes (fun _ _ h => estate_state h State.homes fun _ => rfl) fun _ _ _ => rfl]
  have hdiv : (8 * s.self + k) / 8 = s.self := by omega
  have hmod : (8 * s.self + k) % 8 = k := by omega
  have hwide : ∀ u : State, u.self = s.self → (8 * s.self + k ∈ u.wideHomes ↔ u.stackGood k = true) := fun u hu => by
    unfold State.wideHomes
    rw [List.mem_filter, if_pos (hdiv.trans hu.symm), hmod, List.mem_range]
    exact and_iff_right (by omega)
  have hlist : ((State.served s).modPkg fun p => { p with admitting := true }).homes = (State.levelled s).wideHomes := by
    simp only [State.modPkg, State.served]
  rw [hlist, hwide (State.levelled s) rfl]
  unfold State.stackGood
  rw [Bool.and_eq_true, Bool.not_eq_true', Bool.not_eq_true']
  rfl

theorem held_empty (h : ∀ p, p < 16 → (s.partAt p).owner = none) : partitions.filter (fun p => (s.partAt p).owner.isSome) = [] :=
  List.filter_eq_nil_iff.mpr fun p hp => by rw [h p (mem_partitions.mp hp)]; decide

theorem exec_serviceTransitionTimeout_free (hb : s.pkg.bring = .reduced) (ha : s.pkg.admitting = false) (hp : ∀ p, p < 16 → (s.partAt p).owner = none) :
    ∃ t, exec .serviceTransitionTimeout s = .next t ∧ t.pkg.admitting = true ∧ t.pkg.bring = (if s.pkg.failedUnits = [] then .full else .degraded) ∧
      (∀ n, n < 4 → t.pkg.service.getLsbD (4 + n) = !s.pkg.failedUnits.contains (.die n)) ∧
      t.pkg.service.toNat % 16 = (if s.pkg.failedUnits = [] then 2 else 3) ∧ t.stealing = [] ∧
      (s.self < 64 → ∀ k, k < 8 → (8 * s.self + k ∈ t.homes ↔
        s.pkg.failedUnits.contains (.stack k) = false ∧ s.pkg.failedUnits.contains (.die (k / 2)) = false)) := by
  have hlow : (if s.pkg.failedUnits = [] then 2 else 3) ∈ [2, 3] := by split <;> decide
  obtain ⟨hbits, hlevel⟩ := serviceByte (fun d => !s.pkg.failedUnits.contains (.die d)) hlow
  have hexec : exec .serviceTransitionTimeout s = .next { s.widen with stealing := [] } := by
    rw [exec_serviceTransitionTimeout]
    unfold execServiceTransitionTimeout
    dsimp only
    rw [if_neg (by rw [hb, ha]; decide), held_empty hp, List.isEmpty_nil, if_pos rfl]
  have hadm := admitting_widen (s := s)
  have hbring := bring_widen (s := s)
  have hserv := service_widen (s := s)
  have hhomes := fun hs k hk => mem_homes_widen (s := s) hs (k := k) hk
  generalize s.widen = w at hexec hadm hbring hserv hhomes
  exact ⟨_, hexec, hadm, hbring, fun n hn => (congrArg (fun b : BitVec 8 => b.getLsbD (4 + n)) hserv).trans (hbits n hn),
    (congrArg (fun b : BitVec 8 => b.toNat % 16) hserv).trans hlevel, rfl, hhomes⟩

/-- Taking partitions, as far as the service transition speaks of it: those in the list are taken, and none that was is let go. -/
theorem takeParts_spec (ps : List Nat) : let t := ps.foldl (fun s p => s.takePart p 64) s
    t.pkg = s.pkg ∧ t.now = s.now ∧ ∀ n, n ∈ ps ∨ (s.partAt n).taking ≠ none → (t.partAt n).taking ≠ none := by
  refine ⟨foldl_kept (f := fun s p => State.takePart s p 64) State.pkg (fun _ _ => rfl) ps,
    foldl_kept (f := fun s p => State.takePart s p 64) State.now (fun _ _ => rfl) ps, fun n hn => ?_⟩
  induction ps generalizing s with
  | nil => exact hn.resolve_left List.not_mem_nil
  | cons p ps ih =>
    refine ih ?_
    have htake : ((s.takePart p 64).partAt n).taking = if n = p then some 64 else (s.partAt n).taking :=
      (congrArg Partition.taking (partAt_modPart (s := s) p n fun x => { x with taking := some 64 })).trans (apply_ite ..)
    rw [htake]
    by_cases h : n = p
    · rw [if_pos h]
      exact .inr nofun
    · rw [if_neg h]
      exact hn.imp_left fun g => (List.mem_cons.mp g).resolve_left h

theorem exec_serviceTransitionTimeout_held (hb : s.pkg.bring = .reduced) (ha : s.pkg.admitting = false) (hp : ∃ p, p < 16 ∧ (s.partAt p).owner ≠ none) :
    ∃ t, exec .serviceTransitionTimeout s = .next t ∧ t.pkg = s.pkg ∧ (∀ p, p < 16 → (s.partAt p).owner ≠ none → (t.partAt p).taking ≠ none) ∧
      ∃ x ∈ t.agenda, x.time = s.now + 64 ∧ x.ev = .serviceTransitionTimeout := by
  let held := partitions.filter fun p => (s.partAt p).owner.isSome
  have hmem {p : Nat} (hp : p < 16) (ho : (s.partAt p).owner ≠ none) : p ∈ held :=
    List.mem_filter.mpr ⟨mem_partitions.mpr hp, Option.isSome_iff_ne_none.mpr ho⟩
  have hne : ¬held.isEmpty = true := by
    obtain ⟨p, hp, ho⟩ := hp
    exact fun h => List.not_mem_nil (List.isEmpty_iff.mp h ▸ hmem hp ho)
  obtain ⟨hpkg, hnow, htaking⟩ := takeParts_spec (s := s) (held.filter fun p => (s.partAt p).taking.isNone)
  let t := (held.filter fun p => (s.partAt p).taking.isNone).foldl (fun s p => s.takePart p 64) s
  refine ⟨t.later 64 .none .serviceTransitionTimeout, ?_, hpkg, fun p hp ho => ?_, ⟨_, mem_later .., congrArg (· + 64) hnow, rfl⟩⟩
  · rw [exec_serviceTransitionTimeout]
    unfold execServiceTransitionTimeout
    exact (if_neg (by rw [hb, ha]; decide)).trans (if_neg hne)
  · refine htaking p ?_
    by_cases hn : (s.partAt p).taking = none
    · exact .inl (List.mem_filter.mpr ⟨hmem hp ho, Option.isNone_iff_eq_none.mpr hn⟩)
    · exact .inr hn

end

/-! ### Restarts -/

section
variable {s : State}

/-- What a restart of the Owl comes to. -/
theorem beginRestart_spec : s.beginRestart.owl.state = 2 ∧ s.beginRestart.owl.restarts.toNat = min 255 (s.owl.restarts.toNat + 1) ∧
    (∃ x ∈ s.beginRestart.agenda, x.time = s.now + 4000000 ∧ x.ev = .owlRestartDone) ∧ s.beginRestart.mem = s.mem ∧ s.beginRestart.pkg = s.pkg := by
  refine ⟨rfl, ?_, beginRestart_state.2, rfl, rfl⟩
  have hlt := s.owl.restarts.isLt
  unfold State.beginRestart
  dsimp only [State.later]
  split
  next h => omega
  next h =>
    rw [BitVec.toNat_add]
    have : (1 : BitVec 8).toNat = 1 := rfl
    omega

theorem exec_coldReset_state : ∃ t, exec .coldReset s = .next t ∧ t.mem = [] ∧ t.pkg.bring = .off ∧ t.owl.state = 0 ∧ t.gangs = [] ∧ t.launches = [] ∧
    t.owl.fuses = s.owl.fuses ∧ t.owl.flash = s.owl.flash ∧ t.self = s.self ∧ t.pkg.domain = s.pkg.domain ∧ t.now = s.now ∧
    ∃ x ∈ t.agenda, x.time = s.now ∧ x.ev = .standbyPowerGood :=
  ⟨_, rfl, rfl, rfl, rfl, rfl, rfl, rfl, rfl, rfl, rfl, rfl, _, mem_soon .., rfl, rfl⟩

end

/-! ### Soft errors -/

section
variable {s : State}

theorem scrubPass_spec (stack line : Nat) : let t := s.scrubPass stack line
    let again := (tget s.scrubbed stack []).contains line
    tget t.scrubbed stack [] = (if again then [line] else line :: tget s.scrubbed stack []) ∧
    tget t.corrected stack [] = (if again then [] else tget s.corrected stack []) := by
  unfold State.scrubPass
  dsimp only
  split
  · exact ⟨(tget_tset ..).trans (if_pos rfl), (tget_tset ..).trans (if_pos rfl)⟩
  · exact ⟨(tget_tset ..).trans (if_pos rfl), rfl⟩

theorem scrubPass_kept {α : Type} (p : State → α) (h : ∀ (u : State) x y, p { u with scrubbed := x, corrected := y } = p u) (stack line : Nat) :
    p (s.scrubPass stack line) = p s := by
  unfold State.scrubPass
  dsimp only
  split
  · exact h ..
  · exact h s _ s.corrected

/-- The lines of a stack corrected in its pass, with one more. -/
def State.hits (s : State) (stack line : Nat) : List Nat :=
  if (tget s.corrected stack []).contains line then tget s.corrected stack [] else line :: tget s.corrected stack []

theorem corrected_setCorrected (stack : Nat) (ls : List Nat) : tget (s.setCorrected stack ls).corrected stack [] = ls := (tget_tset ..).trans (if_pos rfl)

theorem corrected_soon (j : Subject) (e : Instr) : (s.soon j e).corrected = s.corrected := rfl

/-- A line counted: its frame stays, or its page is to be retired. -/
theorem scrubCorrected_cases (stack line : Nat) :
    let hits := State.hits s stack line
    let s1 := (s.setCorrected stack hits).emit (.mgmt "CORRECTED" line)
    let retires := 3 ≤ (hits.filter fun n => n / 512 == line / 512).length
    (¬retires ∨ s.pageAtFrame stack (line / 512) = none → s.scrubCorrected stack line = s1) ∧
    (∀ page, retires → s.pageAtFrame stack (line / 512) = some page → s.scrubCorrected stack line =
      (s1.setCorrected stack (hits.filter fun l => l / 512 != line / 512)).soon .none (.pageMoveStart page stack true)) := by
  dsimp only
  refine ⟨fun h => ?_, fun page hr hp => ?_⟩
  · by_cases hr : 3 ≤ ((State.hits s stack line).filter fun n => n / 512 == line / 512).length
    · refine (if_neg (not_lt.mpr hr)).trans ?_
      rw [h.resolve_left (not_not.mpr hr)]
      rfl
    · exact if_pos (not_le.mp hr)
  · refine (if_neg (not_lt.mpr hr)).trans ?_
    rw [hp]
    rfl

theorem lineLost_loseLine (line : Nat) : (s.loseLine line).lineLost (256 * line) = true := by
  have hline : 256 * line / 256 = line := Nat.mul_div_cancel_left line (by decide)
  have hpage : pageOf (256 * line) = line / 512 := by
    unfold pageOf
    omega
  unfold State.loseLine
  dsimp only
  split
  next h => exact h
  · split
    · unfold State.lineLost
      rw [hline, show (line :: s.lostLines).contains line = true by simp, Bool.true_or]
    · unfold State.lineLost
      rw [hpage, show (line / 512 :: s.lostPages).contains (line / 512) = true by simp, Bool.or_true]

theorem loseLine_kept {α : Type} (p : State → α) (h : ∀ (u : State) x y z, p { u with lostLines := x, lostPages := y, ind := z } = p u) (line : Nat) :
    p (s.loseLine line) = p s := by
  unfold State.loseLine
  dsimp only
  split
  · rfl
  · split
    · exact h s _ s.lostPages s.ind
    · exact h ..

/-- What backs a frame is an entry of the tables. -/
theorem pageAtFrame_entry {stack frame page : Nat} (h : s.pageAtFrame stack frame = some page) (ha : stack ≠ 8 * s.self ∨ frame < 521984) :
    ∃ e, (page, e) ∈ s.ind ∧ entValid e = true ∧ entHome e = stack ∧ entFrame e = frame := by
  have hnot : ¬(stack == 8 * s.self && decide (521984 ≤ frame) && s.isAdmin (16 * s.self + (frame - 521984)) &&
      entValid (s.entryOf (16 * s.self + (frame - 521984)))) = true := by
    intro hc
    simp only [Bool.and_eq_true, beq_iff_eq, decide_eq_true_eq] at hc
    obtain ⟨⟨⟨hs, hf⟩, -⟩, -⟩ := hc
    exact ha.elim (· hs) (by omega)
  have hfind : (s.ind.find? fun e => entValid e.2 && entHome e.2 == stack && entFrame e.2 == frame).map (·.1) = some page := (if_neg hnot).symm.trans h
  obtain ⟨⟨p, e⟩, he, rfl⟩ := Option.map_eq_some_iff.mp hfind
  have hgood := List.find?_some he
  simp only [Bool.and_eq_true, beq_iff_eq] at hgood
  obtain ⟨⟨hv, hh⟩, hf⟩ := hgood
  exact ⟨e, List.mem_of_find?_eq_some he, hv, hh, hf⟩

end

/-! ### The obligation -/

section
variable {s : State}

theorem exec_scrubRead_clean (stack line : Nat) :
    ∃ t, exec (.scrubRead stack line .clean) s = .next t ∧
      tget t.scrubbed stack [] = (if (tget s.scrubbed stack []).contains line then [line] else line :: tget s.scrubbed stack []) ∧
      tget t.corrected stack [] = (if (tget s.scrubbed stack []).contains line then [] else tget s.corrected stack []) ∧
      t.agenda = s.agenda ∧ t.out = s.out ∧ t.mem = s.mem := by
  obtain ⟨hseen, hcorr⟩ := scrubPass_spec (s := s) stack line
  exact ⟨_, rfl, hseen, hcorr, scrubPass_kept State.agenda (fun _ _ _ => rfl) .., scrubPass_kept State.out (fun _ _ _ => rfl) ..,
    scrubPass_kept State.mem (fun _ _ _ => rfl) ..⟩

theorem pageAtFrame_scrubPass (stack line a b : Nat) : (s.scrubPass stack line).pageAtFrame a b = s.pageAtFrame a b :=
  scrubPass_kept (fun s => s.pageAtFrame a b) (fun _ _ _ => rfl) ..

theorem hits_scrubPass (stack line : Nat) :
    let old := if (tget s.scrubbed stack []).contains line then [] else tget s.corrected stack []
    State.hits (s.scrubPass stack line) stack line = if old.contains line then old else line :: old := by
  unfold State.hits
  rw [(scrubPass_spec stack line).2]

/-- A line corrected, in terms of the hits of its pass. -/
theorem scrubCorrected_spec (stack line : Nat) :
    let hits := State.hits s stack line
    let retires := 3 ≤ (hits.filter fun n => n / 512 == line / 512).length
    let t := s.scrubCorrected stack line
    .mgmt "CORRECTED" line ∈ t.out ∧ t.mem = s.mem ∧
      (¬retires ∨ s.pageAtFrame stack (line / 512) = none → tget t.corrected stack [] = hits ∧ t.agenda = s.agenda) ∧
      (∀ page, retires → s.pageAtFrame stack (line / 512) = some page → (∀ n ∈ tget t.corrected stack [], n / 512 ≠ line / 512) ∧
        t.agenda = s.agenda ++ [⟨s.now, none, .none, .pageMoveStart page stack true⟩]) := by
  obtain ⟨hstay, hmove⟩ := scrubCorrected_cases (s := s) stack line
  by_cases hr : 3 ≤ ((State.hits s stack line).filter fun n => n / 512 == line / 512).length ∧ ∃ page, s.pageAtFrame stack (line / 512) = some page
  · obtain ⟨h3, page, hp⟩ := hr
    dsimp only
    rw [hmove page h3 hp]
    refine ⟨?_, ?_, fun h => absurd h ?_, fun p _ hpp => ⟨fun n hn => ?_, ?_⟩⟩
    · exact mem_emit (s := s.setCorrected stack (State.hits s stack line)) (.mgmt "CORRECTED" line)
    · dsimp only [State.soon, State.later, State.setCorrected, State.emit]
    · rw [hp]
      exact fun h => h.elim (· h3) nofun
    · rw [corrected_soon, corrected_setCorrected] at hn
      simpa using (List.mem_filter.mp hn).2
    · obtain rfl : page = p := Option.some.inj (hp.symm.trans hpp)
      dsimp only [State.soon, State.later, State.setCorrected, State.emit]
      rfl
  · have hkeep := hstay ((em _).symm.imp_right fun h3 => Option.eq_none_iff_forall_ne_some.mpr fun page hp => hr ⟨h3, page, hp⟩)
    dsimp only
    rw [hkeep]
    exact ⟨mem_emit _, rfl, fun _ => ⟨corrected_setCorrected .., rfl⟩, fun page h3 hp => absurd ⟨h3, page, hp⟩ hr⟩

theorem exec_scrubRead_corrected (stack line : Nat) :
    let old := if (tget s.scrubbed stack []).contains line then [] else tget s.corrected stack []
    let hits := if old.contains line then old else line :: old
    let retires := 3 ≤ (hits.filter fun n => n / 512 == line / 512).length
    ∃ t, exec (.scrubRead stack line .corrected) s = .next t ∧ .mgmt "CORRECTED" line ∈ t.out ∧ t.mem = s.mem ∧
      (¬retires ∨ s.pageAtFrame stack (line / 512) = none → tget t.corrected stack [] = hits ∧ t.agenda = s.agenda) ∧
      (∀ page, retires → s.pageAtFrame stack (line / 512) = some page → (∀ n ∈ tget t.corrected stack [], n / 512 ≠ line / 512) ∧
        t.agenda = s.agenda ++ [⟨s.now, none, .none, .pageMoveStart page stack true⟩]) := by
  have hag : (s.scrubPass stack line).agenda = s.agenda := scrubPass_kept State.agenda (fun _ _ _ => rfl) ..
  have hnow : (s.scrubPass stack line).now = s.now := scrubPass_kept State.now (fun _ _ _ => rfl) ..
  have hmem : (s.scrubPass stack line).mem = s.mem := scrubPass_kept State.mem (fun _ _ _ => rfl) ..
  have hspec := scrubCorrected_spec (s := s.scrubPass stack line) stack line
  rw [pageAtFrame_scrubPass, hits_scrubPass, hag, hnow, hmem] at hspec
  exact ⟨_, rfl, hspec⟩

theorem scrubLost_spec (stack line : Nat) : let t := s.scrubLost stack line
    .mgmt "UNCORRECTABLE" line ∈ t.out ∧ t.mem = s.mem ∧
      (∀ page, s.pageAtFrame stack (line / 512) = some page → t.lineLost (256 * (512 * page + line % 512)) = true ∧
        ∃ x ∈ t.agenda, ∃ h, x.time = s.now ∧ x.ev = .pageMoveStart page h true) ∧
      (s.pageAtFrame stack (line / 512) = none → t.lostLines = s.lostLines ∧ t.agenda = s.agenda) := by
  cases hp : s.pageAtFrame stack (line / 512) with
  | none =>
    have ht : s.scrubLost stack line = s.emit (.mgmt "UNCORRECTABLE" line) := by
      unfold State.scrubLost
      dsimp only
      rw [hp]
    dsimp only
    rw [ht]
    exact ⟨mem_emit _, rfl, nofun, fun _ => ⟨rfl, rfl⟩⟩
  | some page =>
    have ht : s.scrubLost stack line = (s.emit (.mgmt "UNCORRECTABLE" line)).uncorrectable (512 * page + line % 512) := by
      unfold State.scrubLost
      dsimp only
      rw [hp]
    have hnow : ((s.emit (.mgmt "UNCORRECTABLE" line)).loseLine (512 * page + line % 512)).now = s.now := loseLine_kept State.now (fun _ _ _ _ => rfl) _
    have hpage : (512 * page + line % 512) / 512 = page := by omega
    dsimp only
    rw [ht]
    refine ⟨?_, loseLine_kept State.mem (fun _ _ _ _ => rfl) _, fun p hpp => ?_, nofun⟩
    · exact (loseLine_kept (s := s.emit (.mgmt "UNCORRECTABLE" line)) State.out (fun _ _ _ _ => rfl) _).symm ▸ mem_emit _
    · obtain rfl : page = p := Option.some.inj hpp
      exact ⟨lineLost_loseLine _, _, mem_soon .., _, hnow, by rw [hpage]⟩

theorem exec_scrubRead_lost (stack line : Nat) :
    ∃ t, exec (.scrubRead stack line .uncorrectable) s = .next t ∧ .mgmt "UNCORRECTABLE" line ∈ t.out ∧ t.mem = s.mem ∧
      (∀ page, s.pageAtFrame stack (line / 512) = some page → t.lineLost (256 * (512 * page + line % 512)) = true ∧
        ∃ x ∈ t.agenda, ∃ h, x.time = s.now ∧ x.ev = .pageMoveStart page h true) ∧
      (s.pageAtFrame stack (line / 512) = none → t.lostLines = s.lostLines ∧ t.agenda = s.agenda) := by
  have hag : (s.scrubPass stack line).agenda = s.agenda := scrubPass_kept State.agenda (fun _ _ _ => rfl) ..
  have hnow : (s.scrubPass stack line).now = s.now := scrubPass_kept State.now (fun _ _ _ => rfl) ..
  have hmem : (s.scrubPass stack line).mem = s.mem := scrubPass_kept State.mem (fun _ _ _ => rfl) ..
  have hlost : (s.scrubPass stack line).lostLines = s.lostLines := scrubPass_kept State.lostLines (fun _ _ _ => rfl) ..
  have hspec := scrubLost_spec (s := s.scrubPass stack line) stack line
  rw [pageAtFrame_scrubPass, hag, hnow, hmem, hlost] at hspec
  exact ⟨_, rfl, hspec⟩

theorem exec_sequencerWatchdog_owl (h : s.owl.state = 1) : exec (.sequencerWatchdog .owl) s = .next (s.beginRestart.emit (.mgmt "SEQUENCER" 4)) := if_pos h

theorem exec_sequencerWatchdog_die (d : Nat) :
    ∃ t, exec (.sequencerWatchdog (.die d)) s = .next t ∧ t.out = s.out ++ [.mgmt "SEQUENCER" d] ∧ t.pkg = s.pkg ∧ t.mem = s.mem ∧ t.agenda = s.agenda ∧
      tget t.owl.dieRam d [] = (match s.owl.patch with | some bs => tget (dieRams bs) d [] | none => []) := by
  refine ⟨_, rfl, rfl, rfl, rfl, rfl, ?_⟩
  refine (tget_tset ..).trans ((if_pos rfl).trans ?_)
  cases s.owl.patch <;> rfl

end

/-- Settles O50: each event by its own lemma. -/
theorem bringUpAndResets : Obligations.BringUpAndResets := by
  intro s u stack line d frame seen old hits retires failed fatal restarted begins live
  have hbegins : begins (.next s.beginTransition) :=
    ⟨fun h => congrArg _ (beginTransition_cases.1 h), fun h => congrArg _ (beginTransition_cases.2 h)⟩
  refine ⟨exec_trainingFailure_vital, exec_trainingFailure_other, exec_standbyPowerGood_off, fun h => ?_, exec_bootComplete_boot, fun h => ?_,
    fun hb => ⟨fun hq => ?_, fun hq hp => ?_, fun hq hp hd => ?_, exec_trainingEnd_member hb, exec_trainingEnd_report hb⟩,
    exec_serviceTransitionTimeout_free, exec_serviceTransitionTimeout_held, exec_coldReset_state, fun h => ?_, fun h => if_neg h,
    exec_scrubRead_clean stack line, exec_scrubRead_corrected stack line, exec_scrubRead_lost stack line, fun page hp ha => .inr (pageAtFrame_entry hp ha),
    fun h => ?_, exec_sequencerWatchdog_die d⟩
  · exact if_pos (bne_iff_ne.mpr h)
  · exact if_pos (bne_iff_ne.mpr h)
  · rw [exec_trainingEnd_started hb hq]
    exact hbegins
  · rw [exec_trainingEnd_own hb hq, if_pos hp]
  · rw [exec_trainingEnd_own hb hq, if_neg (by rw [hp]; decide), if_pos (bne_iff_ne.mpr hd)]
    exact hbegins
  · obtain ⟨hstate, hcount, hdue, hmem, hpkg⟩ := beginRestart_spec (s := s.startService)
    exact ⟨_, if_pos h, ⟨hstate, hcount, hdue, hmem⟩, hpkg⟩
  · obtain ⟨hstate, hcount, hdue, hmem, -⟩ := beginRestart_spec (s := s)
    exact ⟨_, exec_sequencerWatchdog_owl h, ⟨hstate, hcount, hdue, hmem⟩, mem_emit _⟩

end Sys2Proof.Proofs
end

section
/-! PROOFS. Partitions (O59). -/

namespace Sys2Proof.Proofs
open Sys2Proof Sys2Proof.Machine Sys2Proof.Laws.Shapes

/-! ### What saving, restoring and looking at packets leave of the partitions -/

/-- The partitions, the images, the contexts and the package. -/
def tenancy (s : State) : Table Partition × List Image × Table Ctx × Pkg := (s.parts, s.images, s.ctxs, s.pkg)

/-- The partitions and the images. -/
def lodging (s : State) : Table Partition × List Image := (s.parts, s.images)

section
variable {s t : State}

theorem tenancy_of_calm (h : calm t = calm s) : tenancy t = tenancy s := calm_state h tenancy fun _ => rfl

theorem lodging_of_tenancy (h : tenancy t = tenancy s) : lodging t = lodging s := congrArg (fun x => (x.1, x.2.1)) h

theorem lodging_of_estate (h : estate t = estate s) : lodging t = lodging s := estate_state h lodging fun _ => rfl

theorem partAt_of_lodging (h : lodging t = lodging s) (n : Nat) : t.partAt n = s.partAt n :=
  congrArg (fun x : Table Partition × List Image => tget x.1 n {}) h

theorem images_of_lodging (h : lodging t = lodging s) : t.images = s.images := congrArg Prod.snd h

theorem tenancy_foldl {α : Type} {f : State → α → State} (h : ∀ s x, tenancy (f s x) = tenancy s) (l : List α) : tenancy (l.foldl f s) = tenancy s :=
  foldl_kept tenancy h l

theorem lodging_foldl {α : Type} {f : State → α → State} (h : ∀ s x, lodging (f s x) = lodging s) (l : List α) : lodging (l.foldl f s) = lodging s :=
  foldl_kept lodging h l

@[simp] theorem tenancy_modCore (n : Nat) (f : Core → Core) : tenancy (s.modCore n f) = tenancy s := rfl
@[simp] theorem tenancy_soon (j : Subject) (e : Instr) : tenancy (s.soon j e) = tenancy s := rfl
@[simp] theorem tenancy_offCore (j : Subject) (e : Instr) : tenancy (s.offCore j e) = tenancy s := rfl
@[simp] theorem tenancy_laterOn (c d : Nat) (j : Subject) (e : Instr) : tenancy (s.laterOn c d j e) = tenancy s := rfl

@[simp] theorem tenancy_modTeam (n : Nat) (f : Team → Team) : tenancy (s.modTeam n f) = tenancy s := by
  unfold State.modTeam
  split <;> rfl

@[simp] theorem tenancy_modGang (n : Nat) (f : Gang → Gang) : tenancy (s.modGang n f) = tenancy s := by
  unfold State.modGang
  split
  · rfl
  · split <;> rfl

@[simp] theorem tenancy_modLaunch (n : Nat) (f : Launch → Launch) : tenancy (s.modLaunch n f) = tenancy s := by
  unfold State.modLaunch
  split <;> rfl

@[simp] theorem tenancy_vacate (n : Nat) (r : Bool) : tenancy (s.vacate n r) = tenancy s := by
  unfold State.vacate
  split
  · rfl
  · exact tenancy_modGang ..

@[simp] theorem tenancy_writeBack (n : Nat) (r : Region) (p : Nat → Bool) : tenancy (s.writeBack n r p) = tenancy s :=
  tenancy_foldl (fun _ _ => tenancy_of_calm (calm_of_still (by simp))) _

@[simp] theorem tenancy_settleLines (n : Nat) (r : Region) (p : Nat → Bool) : tenancy (s.settleLines n r p) = tenancy s :=
  tenancy_foldl (fun _ _ => tenancy_of_calm (calm_of_still (still_settleDie ..))) _

@[simp] theorem tenancy_unfillRegions (n : Nat) : tenancy (s.unfillRegions n) = tenancy s := by
  unfold State.unfillRegions
  exact (tenancy_foldl (fun _ _ => tenancy_settleLines ..) _).trans ((tenancy_modTeam ..).trans (tenancy_foldl (fun _ _ => tenancy_writeBack ..) _))

theorem tenancy_saveCore (core ctx : Nat) (i : Image) : tenancy (s.saveCore core ctx i).1 = tenancy s := by
  unfold State.saveCore
  refine (tenancy_modCore ..).trans ?_
  refine (tenancy_foldl (fun _ _ => tenancy_vacate ..) _).trans ((tenancy_foldl (fun _ _ => tenancy_modTeam ..) _).trans ?_)
  exact (tenancy_foldl (fun _ _ => tenancy_unfillRegions _) _).trans (tenancy_of_calm (calm_flushCore _))

theorem image_saveCore (core ctx : Nat) (i : Image) : (s.saveCore core ctx i).2.ctx = i.ctx ∧ (s.saveCore core ctx i).2.part = i.part := ⟨rfl, rfl⟩

/-- The cores of a partition saved in turn. -/
def State.saveCores (s : State) (cores : List Nat) (ctx : Nat) (i : Image) : State × Image :=
  cores.foldl (fun (x : State × Image) c => x.1.saveCore c ctx x.2) (s, i)

theorem saveCores_spec (cores : List Nat) (ctx : Nat) (i : Image) :
    tenancy (State.saveCores s cores ctx i).1 = tenancy s ∧ (State.saveCores s cores ctx i).2.ctx = i.ctx ∧ (State.saveCores s cores ctx i).2.part = i.part := by
  unfold State.saveCores
  induction cores generalizing s i with
  | nil => exact ⟨rfl, rfl, rfl⟩
  | cons c cs ih =>
    obtain ⟨ht, hc, hp⟩ := ih (s := (s.saveCore c ctx i).1) (i := (s.saveCore c ctx i).2)
    exact ⟨ht.trans (tenancy_saveCore ..), hc, hp⟩

@[simp] theorem tenancy_restoreBins (n : Nat) : tenancy (s.restoreBins n) = tenancy s := by
  unfold State.restoreBins
  refine (tenancy_foldl (fun u b => ?_) _).trans (tenancy_modTeam ..)
  repeat' split
  all_goals rfl

@[simp] theorem tenancy_resplit (ctx : Nat) : tenancy (s.resplit ctx) = tenancy s := by
  unfold State.resplit
  refine tenancy_foldl (fun u p => ?_) _
  split
  · exact (tenancy_foldl (fun _ _ => tenancy_soon ..) _).trans (tenancy_modLaunch ..)
  · rfl

@[simp] theorem tenancy_kick (ctx : Nat) : tenancy (s.kick ctx) = tenancy s := tenancy_foldl (fun _ _ => tenancy_soon ..) _

theorem lodging_checkAsks (ctx : Nat) : lodging (s.checkAsks ctx) = lodging s := by
  unfold State.checkAsks
  refine lodging_foldl (fun u a => ?_) _
  split
  · exact lodging_of_estate (estate_completePacket ..)
  · rfl

/-- What follows a grant or a restore. -/
theorem lodging_goOn (ctx : Nat) : lodging (((s.resplit ctx).kick ctx).checkAsks ctx) = lodging s :=
  (lodging_checkAsks ctx).trans (lodging_of_tenancy ((tenancy_kick ctx).trans (tenancy_resplit ctx)))

end

/-! ### Owned partitions through the pursuit of `PREEMPT` -/

/-- What a pursuit leaves of the partitions that are owned, and what is due stays due. -/
def Tenanted (s t : State) : Prop :=
  s.agenda <+: t.agenda ∧ ∀ n, (s.partAt n).owner ≠ none → (t.partAt n).owner = (s.partAt n).owner ∧ (t.partAt n).halted = (s.partAt n).halted ∧
    (t.partAt n).fixed = (s.partAt n).fixed ∧ (t.partAt n).mhz = (s.partAt n).mhz ∧ (t.partAt n).waits ⊆ (s.partAt n).waits

section
variable {s t u : State}

theorem Tenanted.refl (s : State) : Tenanted s s := ⟨List.prefix_rfl, fun _ _ => ⟨rfl, rfl, rfl, rfl, fun _ h => h⟩⟩

theorem Tenanted.trans (h : Tenanted s t) (k : Tenanted t u) : Tenanted s u := by
  refine ⟨h.1.trans k.1, fun n hn => ?_⟩
  obtain ⟨ho, hh, hf, hm, hw⟩ := h.2 n hn
  obtain ⟨ko, kh, kf, km, kw⟩ := k.2 n (ho ▸ hn)
  exact ⟨ko.trans ho, kh.trans hh, kf.trans hf, km.trans hm, fun _ hc => hw (kw hc)⟩

theorem Tenanted.foldl {α : Type} {f : State → α → State} (h : ∀ s x, Tenanted s (f s x)) (l : List α) : ∀ s, Tenanted s (l.foldl f s) := by
  induction l with
  | nil => exact fun s => .refl s
  | cons x l ih => exact fun s => (h s x).trans (ih _)

/-- A partition changed that is free, or in what a pursuit changes alone. -/
theorem tenanted_modPart {p : Nat} {f : Partition → Partition} {a : List Due} (n : Nat) (ha : s.agenda <+: a)
    (h : (s.partAt p).owner = none ∨ ∀ x, (f x).owner = x.owner ∧ (f x).halted = x.halted ∧ (f x).fixed = x.fixed ∧ (f x).mhz = x.mhz ∧ (f x).waits ⊆ x.waits) :
    Tenanted s { s.modPart p f with agenda := a, free := n } := by
  refine ⟨ha, fun m hm => ?_⟩
  have hpart : ({ s.modPart p f with agenda := a, free := n } : State).partAt m = if m = p then f (s.partAt p) else s.partAt m := partAt_modPart ..
  rw [hpart]
  by_cases hmp : m = p
  · rw [if_pos hmp]
    subst hmp
    exact h.elim (fun h => absurd h hm) (· _)
  · rw [if_neg hmp]
    exact ⟨rfl, rfl, rfl, rfl, fun _ h => h⟩

theorem tenanted_askFirst {p ctx : Nat} (h : (s.partAt p).owner = none) : Tenanted s (s.askFirst p ctx) := tenanted_modPart s.free ⟨_, rfl⟩ (.inl h)

theorem tenanted_takePart (p ctx : Nat) : Tenanted s (s.takePart p ctx) :=
  tenanted_modPart (s.free + 1) ⟨_, rfl⟩ (.inr fun _ => ⟨rfl, rfl, rfl, rfl, fun _ h => h⟩)

theorem tenanted_onePart (ctx die : Nat) : Tenanted s (s.onePart ctx die) := by
  unfold State.onePart
  split
  · exact .refl s
  · split
    next p hp =>
      have hfree := List.find?_some hp
      simp only [Bool.and_eq_true, Option.isNone_iff_eq_none] at hfree
      exact tenanted_askFirst hfree.1.1
    · split
      · exact tenanted_takePart ..
      · exact .refl s

theorem tenanted_pursueDie (ctx die want : Nat) : Tenanted s (s.pursueDie ctx die want) := by
  unfold State.pursueDie
  dsimp only
  split
  · exact Tenanted.foldl (fun _ _ => tenanted_onePart ctx die) _ s
  · refine Tenanted.foldl (fun u p => ?_) _ s
    split
    · exact tenanted_modPart u.free ⟨_, rfl⟩ (.inr fun _ => ⟨rfl, rfl, rfl, rfl, fun _ h => h⟩)
    · exact tenanted_modPart (f := fun x => { x with waits := x.waits.filter fun c => c != ctx }) u.free List.prefix_rfl (.inr fun _ => ⟨rfl, rfl, rfl, rfl, fun _ h => List.mem_of_mem_filter h⟩)

theorem tenanted_pursueAll : Tenanted s s.pursueAll := by
  refine Tenanted.foldl (fun u k => Tenanted.foldl (fun v c => ?_) _ u) _ s
  split
  · unfold State.pursue
    split
    · exact .refl v
    · exact Tenanted.foldl (fun _ _ => tenanted_pursueDie ..) _ v
  · exact .refl v

end

/-! ### Admission -/

section
variable {s : State}

theorem fixedFor_iff (c : Nat) : s.fixedFor c = true ↔ (s.ctxAt c).fixed = true ∨ s.pkg.bring = .reduced := by
  unfold State.fixedFor
  rw [Bool.or_eq_true, beq_iff_eq]

theorem powerFor_iff (c : Nat) : ((s.ctxAt c).used && s.powerFor c) = true ↔
    (s.ctxAt c).used = true ∧ (¬((s.ctxAt c).fixed = true ∨ s.pkg.bring = .reduced) ∨ s.reserved + 120 ≤ s.pkg.powerLimit) := by
  unfold State.powerFor
  rw [Bool.and_eq_true, Bool.or_eq_true, Bool.not_eq_true', decide_eq_true_eq, ← fixedFor_iff, Bool.not_eq_true]

/-- The frequency at which a context starts on a partition (R16, R18, R24). -/
theorem startMhz_eq (p ctx : Nat) : s.startMhz (p / 4) (s.fixedFor ctx) = if s.pkg.bring = .reduced then 400
    else if ¬((s.ctxAt ctx).fixed = true ∨ s.pkg.bring = .reduced) ∧ s.pkg.throttled.getLsbD (p / 4) = true then 560 else 800 := by
  unfold State.startMhz
  refine if_congr beq_iff_eq rfl (if_congr ?_ rfl rfl)
  rw [Bool.and_eq_true, Bool.not_eq_true', ← fixedFor_iff, Bool.not_eq_true]

theorem partAt_setMode (p ctx : Nat) : (s.setMode p ctx).partAt p =
    { s.partAt p with fixed := s.fixedFor ctx, mhz := s.startMhz (p / 4) (s.fixedFor ctx) } := (partAt_modPart ..).trans (if_pos rfl)

/-- A partition in a context's hands. -/
def Partition.given (ctx no : Nat) (x : Partition) : Partition :=
  { owner := some ctx, granted := no, fixed := x.fixed, mhz := x.mhz, waits := x.waits.filter fun c => c != ctx }

/-- A partition that a context waits for before all others. -/
def Partition.asked (ctx : Nat) (x : Partition) : Partition := { x with waits := ctx :: x.waits.filter fun c => c != ctx }

theorem partAt_askFirst (p ctx n : Nat) : (s.askFirst p ctx).partAt n = if n = p then Partition.asked ctx (s.partAt p) else s.partAt n :=
  partAt_modPart p n (Partition.asked ctx)

theorem tenancy_grantPart (p ctx : Nat) : tenancy (s.grantPart p ctx) = tenancy (s.modPart p (Partition.given ctx s.grantNo)) :=
  tenancy_foldl (fun _ _ => tenancy_modCore ..) _

theorem partAt_grantPart (p ctx : Nat) : (s.grantPart p ctx).partAt p = Partition.given ctx s.grantNo (s.partAt p) :=
  (partAt_of_lodging (lodging_of_tenancy (tenancy_grantPart p ctx)) p).trans ((partAt_modPart ..).trans (if_pos rfl))

/-- What a grant leaves of the contexts and the package. -/
theorem fixedFor_grantPart (p ctx c : Nat) : (s.grantPart p ctx).fixedFor c = s.fixedFor c ∧ ∀ d b, (s.grantPart p ctx).startMhz d b = s.startMhz d b := by
  have ht := tenancy_grantPart (s := s) p ctx
  have hc : (s.grantPart p ctx).ctxs = s.ctxs := congrArg (fun x => x.2.2.1) ht
  have hp : (s.grantPart p ctx).pkg = s.pkg := congrArg (fun x => x.2.2.2) ht
  unfold State.fixedFor State.startMhz State.ctxAt
  rw [hc, hp]
  exact ⟨rfl, fun _ _ => rfl⟩

/-- The two ends of an admission. -/
theorem admission_owned {ctx : Nat} (ho : (s.partAt s.subj).owner = some ctx) : exec .partitionAdmission s =
    if !(s.partAt s.subj).releasing then .next s
    else if (coresOf s.subj).all fun c => ((s.moveQueued s.subj ctx).teamsOn c).isEmpty then .next ((s.moveQueued s.subj ctx).freePart s.subj)
    else .next (s.moveQueued s.subj ctx) := by
  rw [exec_partitionAdmission]
  unfold execPartitionAdmission
  dsimp only
  rw [ho]

theorem admission_none (ho : (s.partAt s.subj).owner = none) (hw : (s.partAt s.subj).waits.find? (fun c => (s.ctxAt c).used && s.powerFor c) = none) :
    exec .partitionAdmission s = .next s := by
  rw [exec_partitionAdmission]
  unfold execPartitionAdmission
  dsimp only
  rw [ho, hw]

theorem admission_blocked {ctx : Nat} (ho : (s.partAt s.subj).owner = none)
    (hw : (s.partAt s.subj).waits.find? (fun c => (s.ctxAt c).used && s.powerFor c) = some ctx)
    (h : s.pkg.admitting = false ∨ (s.partAt s.subj).taking ≠ none) : exec .partitionAdmission s = .next s := by
  rw [exec_partitionAdmission]
  unfold execPartitionAdmission
  dsimp only
  rw [ho, hw]
  refine if_pos ?_
  rw [Bool.or_eq_true, Bool.not_eq_true', Option.isSome_iff_ne_none]
  exact h

section
variable {ctx : Nat} (ho : (s.partAt s.subj).owner = none) (hw : (s.partAt s.subj).waits.find? (fun c => (s.ctxAt c).used && s.powerFor c) = some ctx)
  (ha : s.pkg.admitting = true) (ht : (s.partAt s.subj).taking = none)
include ho hw ha ht

theorem admission_image {i : Image} (hi : s.imageOf s.subj ctx = some i) : exec .partitionAdmission s =
    .next (((s.grantPart s.subj ctx).modPart s.subj fun x => { x with halted := true }).soon (.on s.subj) (.partitionRestore .data)).pursueAll := by
  rw [exec_partitionAdmission]
  unfold execPartitionAdmission
  dsimp only
  rw [ho, hw]
  exact (if_neg (by rw [ha, ht]; decide)).trans (by rw [hi])

theorem admission_plain (hi : s.imageOf s.subj ctx = none) : exec .partitionAdmission s =
    .next ((((((s.grantPart s.subj ctx).setMode s.subj ctx).resplit ctx).kick ctx).checkAsks ctx)).pursueAll := by
  rw [exec_partitionAdmission]
  unfold execPartitionAdmission
  dsimp only
  rw [ho, hw]
  exact (if_neg (by rw [ha, ht]; decide)).trans (by rw [hi])

end

theorem find_waits {ctx : Nat} {a b : List Nat} (hw : (s.partAt s.subj).waits = a ++ ctx :: b) (hc : ((s.ctxAt ctx).used && s.powerFor ctx) = true)
    (ha : ∀ c ∈ a, ¬((s.ctxAt c).used && s.powerFor c) = true) :
    (s.partAt s.subj).waits.find? (fun c => (s.ctxAt c).used && s.powerFor c) = some ctx := by
  rw [hw, List.find?_append, List.find?_eq_none.mpr ha, Option.none_or]
  exact List.find?_cons_of_pos hc

theorem admission_granted {ctx : Nat} (ho : (s.partAt s.subj).owner = none)
    (hw : (s.partAt s.subj).waits.find? (fun c => (s.ctxAt c).used && s.powerFor c) = some ctx) (ha : s.pkg.admitting = true)
    (ht : (s.partAt s.subj).taking = none) : ∃ t, exec .partitionAdmission s = .next t ∧ (t.partAt s.subj).owner = some ctx ∧ ctx ∉ (t.partAt s.subj).waits ∧
      ((s.imageOf s.subj ctx).isSome = false → ((t.partAt s.subj).fixed = s.fixedFor ctx) ∧ (t.partAt s.subj).mhz = s.startMhz (s.subj / 4) (s.fixedFor ctx)) ∧
      ((s.imageOf s.subj ctx).isSome = true → (t.partAt s.subj).halted = true ∧ (t.partAt s.subj).fixed = (s.partAt s.subj).fixed ∧
        (t.partAt s.subj).mhz = (s.partAt s.subj).mhz ∧ ∃ d ∈ t.agenda, d.subj = .on s.subj ∧ d.ev = .partitionRestore .data) := by
  have hout {l : List Nat} (hl : l ⊆ (s.partAt s.subj).waits.filter fun c => c != ctx) : ctx ∉ l := fun h => by
    simpa using (List.mem_filter.mp (hl h)).2
  cases hi : s.imageOf s.subj ctx with
  | none =>
    have hrun := admission_plain ho hw ha ht hi
    let u := ((s.grantPart s.subj ctx).setMode s.subj ctx)
    have hpart : ((((u.resplit ctx).kick ctx).checkAsks ctx)).partAt s.subj =
        { (s.grantPart s.subj ctx).partAt s.subj with fixed := s.fixedFor ctx, mhz := s.startMhz (s.subj / 4) (s.fixedFor ctx) } := by
      rw [partAt_of_lodging (lodging_goOn ctx), partAt_setMode, (fixedFor_grantPart ..).1, (fixedFor_grantPart s.subj ctx ctx).2]
    rw [partAt_grantPart] at hpart
    obtain ⟨-, hall⟩ := tenanted_pursueAll (s := ((u.resplit ctx).kick ctx).checkAsks ctx)
    obtain ⟨hto, -, tf, tm, tw⟩ := hall s.subj (by rw [hpart]; exact Option.some_ne_none _)
    rw [hpart] at hto tf tm tw
    exact ⟨_, hrun, hto, hout tw, fun _ => ⟨tf, tm⟩, fun h => absurd h (by decide)⟩
  | some i =>
    have hrun := admission_image ho hw ha ht hi
    let u := ((s.grantPart s.subj ctx).modPart s.subj fun x => { x with halted := true }).soon (.on s.subj) (.partitionRestore .data)
    have hpart : u.partAt s.subj = { (s.grantPart s.subj ctx).partAt s.subj with halted := true } :=
      (partAt_modPart (s := s.grantPart s.subj ctx) s.subj s.subj fun x => { x with halted := true }).trans (if_pos rfl)
    rw [partAt_grantPart] at hpart
    obtain ⟨hag, hall⟩ := tenanted_pursueAll (s := u)
    obtain ⟨hto, th, tf, tm, tw⟩ := hall s.subj (by rw [hpart]; exact Option.some_ne_none _)
    rw [hpart] at hto th tf tm tw
    exact ⟨_, hrun, hto, hout tw, nofun, fun _ => ⟨th, tf, tm, _, hag.subset (mem_soon ..), rfl, rfl⟩⟩

end

/-! ### Pre-emption and restoring -/

section
variable {s : State}

theorem exec_partitionPreempt_taken (ht : (s.partAt s.subj).taking ≠ none) : ∃ t, exec .partitionPreempt s = .next t ∧
    (∃ d ∈ t.agenda, d.subj = .on s.subj ∧ d.ev = .partitionHalted) ∧ t.mem = s.mem ∧ (t.partAt s.subj).owner = (s.partAt s.subj).owner := by
  let ns := (s.allGangs.filter fun g => partOf g.2.core == s.subj && g.2.slot.isSome && !g.2.retired).map (·.1)
  obtain ⟨d, hd, -, -, hj, he⟩ := mem_offCore (s := s.standAll ns) (.on s.subj) .partitionHalted
  have hparts : (s.standAll ns).parts = s.parts := standAll_kept State.parts focus_parts (fun _ _ _ => rfl) ns
  refine ⟨(s.standAll ns).offCore (.on s.subj) .partitionHalted, if_neg ?_, ⟨d, hd, hj, he⟩, State.standAll_mem s ns,
    congrArg (fun x : Table Partition => (tget x s.subj {}).owner) hparts⟩
  rw [Option.isNone_iff_eq_none]
  exact ht

theorem halted_run {ctx : Nat} (ho : (s.partAt s.subj).owner = some ctx) (ht : (s.partAt s.subj).taking ≠ none) (hh : (s.partAt s.subj).halted = false) :
    exec .partitionHalted s = if !s.drained s.subj then .next (s.later 16 (.on s.subj) .partitionHalted)
    else
      let r := State.saveCores (s.modPart s.subj fun x => { x with halted := true }) (coresOf s.subj) ctx { ctx := ctx, part := s.subj, order := s.grantNo }
      let old := r.1.images.map fun i => if i.part / 4 = s.subj / 4 then { i with spilled := true } else i
      .next (({ r.1 with images := if (s.ctxAt ctx).used then old ++ [r.2] else old, grantNo := s.grantNo + 1 } : State).offCore (.on s.subj)
        .shadowSaveComplete) := by
  rw [exec_partitionHalted]
  unfold execPartitionHalted
  dsimp only
  rw [ho]
  exact if_neg (by rw [hh, Option.isNone_eq_false_iff.mpr (Option.isSome_iff_ne_none.mpr ht)]; decide)

theorem exec_partitionHalted_drained {ctx : Nat} (ho : (s.partAt s.subj).owner = some ctx) (ht : (s.partAt s.subj).taking ≠ none)
    (hh : (s.partAt s.subj).halted = false) (hd : s.drained s.subj = true) : ∃ t, exec .partitionHalted s = .next t ∧ (t.partAt s.subj).halted = true ∧
      (∃ d ∈ t.agenda, d.subj = .on s.subj ∧ d.ev = .shadowSaveComplete) ∧
      ((s.ctxAt ctx).used = true → ∃ i, t.images.getLast? = some i ∧ i.ctx = ctx ∧ i.part = s.subj) := by
  have hrun := halted_run ho ht hh
  rw [hd] at hrun
  obtain ⟨hten, hctx, hpart⟩ := saveCores_spec (s := s.modPart s.subj fun x => { x with halted := true }) (coresOf s.subj) ctx
    { ctx := ctx, part := s.subj, order := s.grantNo }
  generalize State.saveCores (s.modPart s.subj fun x => { x with halted := true }) (coresOf s.subj) ctx { ctx := ctx, part := s.subj, order := s.grantNo } = r
    at hrun hten hctx hpart
  have hhalted : (r.1.partAt s.subj).halted = true :=
    congrArg Partition.halted ((partAt_of_lodging (lodging_of_tenancy hten) s.subj).trans ((partAt_modPart ..).trans (if_pos rfl)))
  refine ⟨_, hrun, hhalted, ?_, fun hu => ⟨r.2, ?_, hctx, hpart⟩⟩
  · exact ⟨_, List.mem_append_right _ (List.mem_singleton.mpr rfl), rfl, rfl⟩
  · refine (congrArg List.getLast? (if_pos hu)).trans ?_
    exact List.getLast?_concat

/-- A free partition for which contexts wait stays as it is when the partitions are looked at again; so does its owner, in any case. -/
theorem retryParts_partAt (n : Nat) : (s.retryParts.partAt n).owner = (s.partAt n).owner ∧ (s.retryParts.partAt n).halted = (s.partAt n).halted ∧
    ((s.partAt n).waits ≠ [] → (s.retryParts.partAt n).waits = (s.partAt n).waits) := by
  unfold State.retryParts
  induction partitions generalizing s with
  | nil => exact ⟨rfl, rfl, fun _ => rfl⟩
  | cons p ps ih =>
    rw [List.foldl_cons]
    dsimp only
    split
    · exact ih
    · split
      next hw => exact ih (s := s.soon (.on p) .partitionAdmission)
      next hw =>
        split
        next i hi =>
          obtain ⟨io, ih', iw⟩ := ih (s := s.askFirst p i.ctx)
          rw [partAt_askFirst] at io ih' iw
          by_cases hn : n = p
          · subst hn
            rw [if_pos rfl] at io ih'
            refine ⟨io, ih', fun h => absurd h fun h => hw ?_⟩
            cases hws : (s.partAt n).waits with
            | nil => exact absurd hws h
            | cons => rfl
          · rw [if_neg hn] at io ih' iw
            exact ⟨io, ih', iw⟩
        next => exact ih

theorem exec_shadowSaveComplete_taken {c : Nat} (ht : (s.partAt s.subj).taking = some c) : ∃ t, exec .shadowSaveComplete s = .next t ∧
    (t.partAt s.subj).owner = none ∧ (t.partAt s.subj).halted = false ∧ t.mem = s.mem ∧ (c < 64 → (t.partAt s.subj).waits.head? = some c) := by
  let s1 := s.modPart s.subj fun x => { waits := x.waits }
  have hrun : exec .shadowSaveComplete s = .next (if c < 64 then s1.askFirst s.subj c else s1).retryParts := by
    rw [exec_shadowSaveComplete]
    unfold execShadowSaveComplete
    dsimp only
    rw [ht]
  have hs1 : s1.partAt s.subj = { waits := (s.partAt s.subj).waits } := (partAt_modPart ..).trans (if_pos rfl)
  by_cases hc : c < 64
  · rw [if_pos hc] at hrun
    obtain ⟨ho, hh, hw⟩ := retryParts_partAt (s := s1.askFirst s.subj c) s.subj
    rw [partAt_askFirst, if_pos rfl, hs1] at ho hh hw
    exact ⟨_, hrun, ho, hh, retryParts_kept State.mem fun _ _ _ => rfl, fun _ => congrArg List.head? (hw (List.cons_ne_nil _ _))⟩
  · rw [if_neg hc] at hrun
    obtain ⟨ho, hh, -⟩ := retryParts_partAt (s := s1) s.subj
    rw [hs1] at ho hh
    exact ⟨_, hrun, ho, hh, retryParts_kept State.mem fun _ _ _ => rfl, fun h => absurd h hc⟩

theorem exec_partitionRestore_data {ctx : Nat} {i : Image} (ho : (s.partAt s.subj).owner = some ctx) (hi : s.imageOf s.subj ctx = some i)
    (hh : (s.partAt s.subj).halted = true) : exec (.partitionRestore .data) s = .next (s.offCore (.on s.subj) .restoreComplete) := by
  rw [exec_partitionRestore]
  unfold execPartitionRestore
  dsimp only
  rw [ho]
  exact if_neg (by rw [hi, hh]; exact Bool.false_ne_true)

theorem exec_partitionRestore_lost {ctx : Nat} {i : Image} {fate : ReplyFate} (hf : fate ≠ .data) (ho : (s.partAt s.subj).owner = some ctx)
    (hi : s.imageOf s.subj ctx = some i) (hh : (s.partAt s.subj).halted = true) :
    exec (.partitionRestore fate) s = .next (s.stopQueue ctx 0x102 (detailOf 0 3 9)) := by
  rw [exec_partitionRestore]
  unfold execPartitionRestore
  dsimp only
  rw [ho]
  refine (if_neg (by rw [hi, hh]; exact Bool.false_ne_true)).trans ?_
  cases fate with
  | data => exact absurd rfl hf
  | _ => rfl

/-- What an image holds put back on the cores of its partition. -/
def State.putBack (s : State) (p : Nat) (i : Image) : State :=
  let cs := coresOf p
  let back := (s.teams.filter fun t => cs.contains t.2.core && t.2.started && !t.2.admitted && (s.launchAt t.2.launch).ctx == i.ctx).map (·.1)
  let s1 := i.sems.foldl (fun s x => s.modCore x.1 fun c => { c with sems := x.2 }) s
  let s2 := i.copies.foldl (fun s x => s.modCore x.1 fun c => { c with copies := c.copies ++ x.2 }) s1
  let s3 := back.foldl (fun s n => (s.modTeam n fun t => { t with admitted := true }).restoreBins n) s2
  let s4 := i.gangs.foldl (fun s g =>
    let core := ((s.gangAt g.1).map (·.core)).getD 0
    (s.modCore core fun c => { c with slots := c.slots.set g.2 (some g.1) }).modGang g.1 fun y =>
      ({ y with slot := some g.2, waitsSlot := none } : Gang).takeMarks) s3
  i.copies.foldl (fun s x => x.2.foldl (fun s y => if y.running then s.offCore (.on x.1) (.copyComplete y.team y.num) else s) s) s4

theorem tenancy_putBack (p : Nat) (i : Image) : tenancy (State.putBack s p i) = tenancy s := by
  unfold State.putBack
  refine (tenancy_foldl (fun u x => tenancy_foldl (fun v y => ?_) _) _).trans ?_
  · split <;> rfl
  refine (tenancy_foldl (fun u g => (tenancy_modGang ..).trans (tenancy_modCore ..)) _).trans ?_
  refine (tenancy_foldl (fun u n => (tenancy_restoreBins n).trans (tenancy_modTeam ..)) _).trans ?_
  exact (tenancy_foldl (fun _ _ => tenancy_modCore ..) _).trans (tenancy_foldl (fun _ _ => tenancy_modCore ..) _)

theorem exec_restoreComplete_image {ctx : Nat} {i : Image} (ho : (s.partAt s.subj).owner = some ctx) (hi : s.imageOf s.subj ctx = some i) :
    ∃ t, exec .restoreComplete s = .next t ∧ (t.partAt s.subj).halted = false ∧ t.imageOf s.subj ctx = none ∧
      (t.partAt s.subj).fixed = s.fixedFor ctx ∧ (t.partAt s.subj).mhz = s.startMhz (s.subj / 4) (s.fixedFor ctx) := by
  have hictx : i.ctx = ctx := by
    have := List.find?_some hi
    simp only [Bool.and_eq_true, beq_iff_eq] at this
    exact this.2
  have hten := tenancy_putBack (s := s) s.subj i
  let s5 := State.putBack s s.subj i
  let s6 := (({ s5 with images := s5.images.filter fun x => !(x.part == s.subj && x.ctx == i.ctx) } : State).setMode s.subj i.ctx).modPart s.subj fun x =>
    { x with halted := false }
  have hrun : exec .restoreComplete s = .next (((s6.resplit i.ctx).kick i.ctx).checkAsks i.ctx) := by
    rw [exec_restoreComplete]
    unfold execRestoreComplete
    dsimp only
    rw [ho, Option.bind_some, hi]
    rfl
  have hlodge := lodging_goOn (s := s6) i.ctx
  have hfix : s5.fixedFor ctx = s.fixedFor ctx ∧ s5.startMhz (s.subj / 4) (s.fixedFor ctx) = s.startMhz (s.subj / 4) (s.fixedFor ctx) := by
    have hc : s5.ctxs = s.ctxs := congrArg (fun x => x.2.2.1) hten
    have hp : s5.pkg = s.pkg := congrArg (fun x => x.2.2.2) hten
    unfold State.fixedFor State.startMhz State.ctxAt
    rw [hc, hp]
    exact ⟨rfl, rfl⟩
  have hpart : (((s6.resplit i.ctx).kick i.ctx).checkAsks i.ctx).partAt s.subj =
      { s5.partAt s.subj with fixed := s.fixedFor ctx, mhz := s.startMhz (s.subj / 4) (s.fixedFor ctx), halted := false } := by
    rw [partAt_of_lodging hlodge, ← hfix.2, ← hfix.1, ← hictx]
    refine (partAt_modPart ..).trans ((if_pos rfl).trans ?_)
    exact congrArg (fun x : Partition => { x with halted := false }) (partAt_setMode ..)
  refine ⟨_, hrun, by rw [hpart], ?_, by rw [hpart], by rw [hpart]⟩
  have himages : (((s6.resplit i.ctx).kick i.ctx).checkAsks i.ctx).images = s5.images.filter fun x => !(x.part == s.subj && x.ctx == i.ctx) :=
    images_of_lodging hlodge
  unfold State.imageOf
  rw [himages, hictx]
  refine List.find?_eq_none.mpr fun x hx => ?_
  simpa [imp_iff_not_or] using (List.mem_filter.mp hx).2

end

/-- Settles O59: each event by its own lemma. -/
theorem partitions : Obligations.Partitions := by
  intro s ctx p x fixed fits first mhz
  have hfits (c : Nat) : ((s.ctxAt c).used && s.powerFor c) = true ↔ fits c := powerFor_iff c
  have hfind : first → x.waits.find? (fun c => (s.ctxAt c).used && s.powerFor c) = some ctx := fun ⟨a, b, hw, hc, ha⟩ =>
    find_waits hw ((hfits ctx).mpr hc) fun c hc => mt (hfits c).mp (ha c hc)
  have hmhz : s.startMhz (p / 4) (s.fixedFor ctx) = mhz := startMhz_eq p ctx
  refine ⟨fun ho hw => admission_none ho (List.find?_eq_none.mpr fun c hc => mt (hfits c).mp (hw c hc)), fun ho hf hn => ?_, fun ho hf ha ht => ?_,
    fun ho hr => ?_, fun ho hr => ?_, fun ht => if_pos (Option.isNone_iff_eq_none.mpr ht), exec_partitionPreempt_taken, fun ho ht hh => ⟨fun hd => ?_, fun hd => ?_⟩,
    fun c => exec_shadowSaveComplete_taken, fun ht => ?_, fun i ho hi hh => ⟨?_, fun fate hf => ?_⟩, fun i ho hi => ?_⟩
  · exact admission_blocked ho (hfind hf) hn
  · obtain ⟨t, hrun, hto, htw, hplain, himage⟩ := admission_granted ho (hfind hf) ha ht
    refine ⟨t, hrun, hto, htw, fun h => ?_, himage⟩
    obtain ⟨tf, tm⟩ := hplain h
    exact ⟨by rw [tf]; exact fixedFor_iff ctx, tm.trans hmhz⟩
  · exact (admission_owned ho).trans (if_pos (by rw [hr]; rfl))
  · refine (admission_owned ho).trans ((if_neg (by rw [hr]; decide)).trans ?_)
    exact (apply_ite ..).symm
  · refine (halted_run ho ht hh).trans (if_pos ?_)
    rw [hd]
    rfl
  · exact exec_partitionHalted_drained ho ht hh hd
  · rw [exec_shadowSaveComplete]
    unfold execShadowSaveComplete
    dsimp only
    rw [ht]
  · exact exec_partitionRestore_data ho hi hh
  · exact exec_partitionRestore_lost hf ho hi hh
  · obtain ⟨t, hrun, hth, hti, tf, tm⟩ := exec_restoreComplete_image ho hi
    exact ⟨t, hrun, hth, hti, by rw [tf]; exact fixedFor_iff ctx, tm.trans hmhz⟩

end Sys2Proof.Proofs
end

section
/-! PROOFS. Packets of a context's queue, resumes, sessions, halts and faults (O57). -/

namespace Sys2Proof.Proofs
open Sys2Proof Sys2Proof.Machine Sys2Proof.Laws.Shapes

/-! ### Packets at their start -/

section
variable {s : State}

theorem starting_stands (h : s.Stands) (f : Packet → State → State) :
    s.starting f = .next ((f s.pkt (s.acceptPacket s.pkt)).pump s.pkt.queue) := by
  obtain ⟨a, he, hs, -, hserve⟩ := h
  unfold State.starting
  dsimp only
  rw [he]
  exact if_neg (by rw [hs, hserve]; decide)

theorem tlwaitPacket_stands (h : s.Stands) : exec .tlwaitPacket s =
    let us := (s.pkt.words.getD 3 0).toNat % 2 ^ 32
    let s1 := s.modQueue s.pkt.queue fun q => { q with waits := some (s.pkt.words.getD 1 0, s.pkt.words.getD 2 0), waitNo := s.pkt.num }
    let s2 := if us = 0 then s1 else s1.later (800 * us) (.packet s.pkt) .tlwaitTimeout
    .next (if s2.tlMet s.pkt.queue then s2.soon (.on s.pkt.queue) .tlwaitSatisfied else s2) := by
  obtain ⟨a, he, hs, -, hserve⟩ := h
  rw [exec_tlwaitPacket]
  unfold execTlwaitPacket
  dsimp only
  rw [he]
  exact if_neg (by rw [hs, hserve]; decide)

/-- The packet in focus is the oldest that is not complete, and its queue and the Owl let it go on (R113). -/
def State.oldest (s t : State) : Prop :=
  (match (t.queueAt s.pkt.queue).accepted with | a :: _ => a.num = s.pkt.num | [] => False) ∧ (t.queueAt s.pkt.queue).qstate ≠ .stopped ∧ t.owl.state = 1

/-- What a packet that waits for those before it does when it is looked at. -/
def State.lastOf (s : State) (f : Packet → State → State) (t : State) : State :=
  match (t.queueAt s.pkt.queue).accepted with
  | a :: _ => if a.num = s.pkt.num && (t.queueAt s.pkt.queue).qstate != .stopped && t.owl.state == 1 then
      (f s.pkt t).completePacket s.pkt.queue s.pkt.num else t
  | [] => t

theorem lastOf_oldest {t : State} {a : Accepted} {rest : List Accepted} (ha : (t.queueAt s.pkt.queue).accepted = a :: rest) (hn : a.num = s.pkt.num)
    (hq : (t.queueAt s.pkt.queue).qstate ≠ .stopped) (ho : t.owl.state = 1) (f : Packet → State → State) :
    State.lastOf s f t = (f s.pkt t).completePacket s.pkt.queue s.pkt.num := by
  unfold State.lastOf
  rw [ha]
  refine if_pos ?_
  simp [hn, hq, ho]

theorem lastOf_waits {t : State} (h : ∀ a rest, (t.queueAt s.pkt.queue).accepted = a :: rest →
    ¬(a.num = s.pkt.num ∧ (t.queueAt s.pkt.queue).qstate ≠ .stopped ∧ t.owl.state = 1)) (f : Packet → State → State) : State.lastOf s f t = t := by
  unfold State.lastOf
  cases ha : (t.queueAt s.pkt.queue).accepted with
  | nil => rfl
  | cons a rest =>
    refine if_neg fun hc => h a rest ha ?_
    simpa [and_assoc] using hc

theorem afterAll_stands (h : s.Stands) (f : Packet → State → State) :
    s.afterAll f = .next ((State.lastOf s f (s.acceptPacket s.pkt)).pump s.pkt.queue) := by
  have hrun := starting_stands h fun _ => State.lastOf s f
  obtain ⟨a, he, hs, -, -⟩ := h
  refine Eq.trans ?_ hrun
  unfold State.afterAll
  dsimp only
  rw [he]
  exact (if_neg (by rw [hs]; decide))

theorem afterAll_again {a : Accepted} {rest : List Accepted} (ha : (s.queueAt s.pkt.queue).accepted = a :: rest) (hn : a.num = s.pkt.num)
    (hs : a.started = true) (f : Packet → State → State) : s.afterAll f = .next (State.lastOf s f s) := by
  have he : s.entryOfPacket s.pkt = some a := by
    unfold State.entryOfPacket
    rw [ha]
    exact List.find?_cons_of_pos (by rw [hn]; exact beq_self_eq_true _)
  unfold State.afterAll
  dsimp only
  rw [he]
  exact if_pos hs

theorem tracePacket_stands (h : s.Stands) (f : Packet → State → State) :
    s.tracePacket f = .next ((f s.pkt (s.acceptPacket s.pkt)).pump s.pkt.queue) := by
  rw [← starting_stands h]
  obtain ⟨a, he, hs, -, -⟩ := h
  unfold State.tracePacket
  rw [he]
  exact if_neg (by rw [hs]; decide)

theorem onContext_stands (h : s.Stands) (f : Packet → Nat → State → State) :
    let u := s.acceptPacket s.pkt
    let ctx := (s.pkt.words.getD 2 0).toNat % 64
    s.onContext f = .next ((if (u.ctxAt ctx).used && (u.ctxAt ctx).root == u.self then f s.pkt ctx u else u.endAdmin s.pkt.num 0 4).pump s.pkt.queue) :=
  starting_stands h _

theorem self_acceptPacket (p : Packet) : (s.acceptPacket p).self = s.self := house_state (house_modQcb ..) State.self fun _ => rfl

/-- A context that this package does not root. -/
theorem onContext_foreign (h : s.Stands) (f : Packet → Nat → State → State) {ctx : Nat} (hctx : (s.pkt.words.getD 2 0).toNat % 64 = ctx)
    (hu : ((s.acceptPacket s.pkt).ctxAt ctx).used = false ∨ ((s.acceptPacket s.pkt).ctxAt ctx).root ≠ s.self) :
    s.onContext f = .next (((s.acceptPacket s.pkt).endAdmin s.pkt.num 0 4).pump s.pkt.queue) := by
  rw [onContext_stands h f, hctx, if_neg]
  rw [self_acceptPacket, Bool.and_eq_true, beq_iff_eq]
  rintro ⟨g, k⟩
  exact hu.elim (fun hu => absurd (hu.symm.trans g) (by decide)) (· k)

theorem onContext_rooted (h : s.Stands) (f : Packet → Nat → State → State) {ctx : Nat} (hctx : (s.pkt.words.getD 2 0).toNat % 64 = ctx)
    (hu : ((s.acceptPacket s.pkt).ctxAt ctx).used = true) (hr : ((s.acceptPacket s.pkt).ctxAt ctx).root = s.self) :
    s.onContext f = .next ((f s.pkt ctx (s.acceptPacket s.pkt)).pump s.pkt.queue) := by
  rw [onContext_stands h f, hctx, if_pos]
  rw [self_acceptPacket, Bool.and_eq_true, beq_iff_eq]
  exact ⟨hu, hr⟩

theorem queueResumeReset_here (h : s.pkt.queue ≤ 64) : exec .queueResumeReset s = s.onContext fun p ctx s =>
    let s1 := (s.goOn ctx none).modQcb ctx fun q =>
      { q.letGo with qstate := .resetting, cause := 0, detail := 0, head := q.tail, bare := false,
                     accepted := q.accepted.filter fun a => !a.launches.isEmpty }
    (((s1.discardAll ctx).closeSession ctx 2).tryEndReset ctx).tellOthers ctx "QUEUE_RESET" p.words := if_neg (show ¬128 ≤ s.pkt.queue by omega)

theorem head_acceptPacket (p : Packet) : ((s.acceptPacket p).queueAt p.queue).head = (s.queueAt p.queue).after p.words := by
  unfold State.acceptPacket
  rw [queueAt_modQcb, if_pos rfl]
  rfl

/-! ### Sessions -/

theorem openSession_trace (ctx : Nat) (ws : List W64) : ∃ y, ((s.openSession ctx ws).ctxAt ctx).trace = some y ∧ y.ring = ws.getD 2 0 ∧
    y.size = 2 ^ (ws.getD 3 0).toNat ∧ y.area = ws.getD 4 0 ∧ y.period = (ws.getD 5 0).toNat ∧ y.evmask = w64 ((ws.getD 1 0).toNat / 256) ∧
    y.closing = none ∧ y.num = s.nextId := by
  let t : Trace := { ring := ws.getD 2 0, size := 2 ^ (ws.getD 3 0).toNat, area := ws.getD 4 0, period := (ws.getD 5 0).toNat,
                     evmask := w64 ((ws.getD 1 0).toNat / 256), breaks := s.breakList ctx (ws.getD 6 0).toNat (ws.getD 7 0).toNat, num := s.nextId }
  refine ⟨t, ?_, rfl, rfl, rfl, rfl, rfl, rfl, rfl⟩
  let s1 := (({ s with nextId := s.nextId + 1 } : State).writeVirt ctx (ws.getD 4 0).toNat (List.replicate 32 0) {}).2.modCtx ctx fun c => { c with trace := some t }
  have hs1 : (s1.ctxAt ctx).trace = some t := congrArg Ctx.trace ((ctxAt_modCtx ..).trans (if_pos rfl))
  have hctx : (s.openSession ctx ws).ctxAt ctx = s1.ctxAt ctx := by
    unfold State.openSession
    dsimp only
    split
    · rfl
    · exact foldl_kept (f := fun s c => s.laterOn c t.period (.on (sampleSubj t.num ctx c)) .sampleDue) (fun s => s.ctxAt ctx) (fun _ _ => rfl) _
  rw [hctx, hs1]

/-- Beside its bytes, a session's record changes nothing that the Owl reads. -/
theorem traceDrain_closes {y : Trace} {cause : Nat} (ht : (s.ctxAt s.subj).trace = some y) (hc : y.closing = some cause) :
    ∃ t, exec .traceDrainTimeout s = .next t ∧ (t.ctxAt s.subj).trace = none := by
  have hfinal : ((s.finalRecord s.subj y cause).ctxAt s.subj).trace = none := congrArg Ctx.trace ((ctxAt_modCtx ..).trans (if_pos rfl))
  let u := (((s.finalRecord s.subj y cause).queueAt s.subj).accepted.filter fun a => a.started && (a.words.getD 0 0).toNat % 256 == 7).foldl
    (fun s' a => s'.soon (.packet ⟨s.subj, a.num, a.words⟩) (packetEvent a.words)) (s.finalRecord s.subj y cause)
  have hu : estate u = estate (s.finalRecord s.subj y cause) := estate_foldl (fun _ _ => estate_soon ..) _
  have hrun : exec .traceDrainTimeout s = .next (u.tryEndReset s.subj) := by
    rw [exec_traceDrainTimeout]
    unfold execTraceDrainTimeout
    dsimp only
    rw [ht]
    dsimp only
    rw [hc]
  refine ⟨_, hrun, ?_⟩
  rw [← hfinal]
  refine estate_ctx (Eq.trans ?_ hu) Ctx.trace (fun _ => rfl) s.subj
  unfold State.tryEndReset
  dsimp only
  split
  · rfl
  · have hlook : estate (((u.modQcb s.subj fun q => { q with qstate := .idle }).ring s.subj).lookAtSlots s.subj) = estate u := by
      rw [estate_of_house (house_lookAtSlots _), estate_ring, estate_modQcb]
    split
    · exact (estate_endAdmin ..).trans hlook
    · exact hlook

end

/-! ### The reset of a queue -/

/-- The contexts, the queues and the launches. -/
def ledger (s : State) : Table Ctx × Table Queue × Table Launch := (s.ctxs, s.queues, s.launches)

section
variable {s t : State}

theorem ledger_of_calm (h : calm t = calm s) : ledger t = ledger s := calm_state h ledger fun _ => rfl

theorem ledger_foldl {α : Type} {f : State → α → State} (h : ∀ s x, ledger (f s x) = ledger s) (l : List α) : ledger (l.foldl f s) = ledger s :=
  foldl_kept ledger h l

theorem ctxAt_of_ledger (h : ledger t = ledger s) (n : Nat) : t.ctxAt n = s.ctxAt n := congrArg (fun x : Table Ctx × Table Queue × Table Launch => tget x.1 n {}) h

theorem queueAt_of_ledger (h : ledger t = ledger s) (n : Nat) : t.queueAt n = s.queueAt n :=
  congrArg (fun x : Table Ctx × Table Queue × Table Launch => tget x.2.1 n {}) h

theorem queues_of_ledger (h : ledger t = ledger s) : t.queues = s.queues := congrArg (fun x : Table Ctx × Table Queue × Table Launch => x.2.1) h

theorem launches_of_ledger (h : ledger t = ledger s) : t.launches = s.launches := congrArg (fun x => x.2.2) h

@[simp] theorem ledger_modTeam (n : Nat) (f : Team → Team) : ledger (s.modTeam n f) = ledger s := by
  unfold State.modTeam
  split <;> rfl

@[simp] theorem ledger_modGang (n : Nat) (f : Gang → Gang) : ledger (s.modGang n f) = ledger s := by
  unfold State.modGang
  split
  · rfl
  · split <;> rfl

@[simp] theorem ledger_focus (n : Nat) : ledger (s.focus n) = ledger s := by
  unfold State.focus
  split
  · rfl
  · split <;> rfl

@[simp] theorem ledger_vacate (n : Nat) (r : Bool) : ledger (s.vacate n r) = ledger s := by
  unfold State.vacate
  split
  · rfl
  · exact ledger_modGang ..

theorem ledger_dropGang (n : Nat) : ledger (s.dropGang n) = ledger s := by
  unfold State.dropGang
  split
  · rfl
  · dsimp only
    split
    · rfl
    · refine (ledger_modGang ..).trans ((ledger_vacate ..).trans ((ledger_focus _).trans ?_))
      exact ledger_focus n

theorem ledger_dropRegions (n : Nat) : ledger (s.dropRegions n) = ledger s := by
  unfold State.dropRegions
  refine (ledger_foldl (fun _ _ => ledger_foldl (fun _ _ => ledger_of_calm (calm_of_still (still_settleDie ..))) _) _).trans ((ledger_modTeam ..).trans ?_)
  exact ledger_foldl (fun _ _ => ledger_foldl (fun _ _ => ledger_of_calm (calm_of_still (by simp))) _) _

theorem ledger_discardWork (ids : List Nat) : ledger (s.discardWork ids) = ledger s := by
  unfold State.discardWork
  exact (ledger_foldl (fun _ n => ledger_dropRegions n) _).trans (ledger_foldl (fun _ n => ledger_dropGang n) _)

/-- A launch that its owner has discarded (R147). -/
def Launch.discarded (l : Launch) : Launch :=
  { l with units := [], parts := [], unsplit := [], retired := l.retired + l.exits.length, exits := [], status := 3, sub := 0 }

theorem tfind_modLaunch (n m : Nat) (f : Launch → Launch) :
    tfind (s.modLaunch n f).launches m = if m = n then (tfind s.launches m).map f else tfind s.launches m := by
  unfold State.modLaunch
  split
  next l hl =>
    rw [tfind_tset]
    split
    next h => rw [h, hl]; rfl
    next => rfl
  next hn =>
    split
    next h => rw [h, hn]; rfl
    next => rfl

/-- An entry that is not the first of its key stays when the key is set, and the first gives way to the new one. -/
theorem mem_tset {α : Type} {t : Table α} {x : Nat × α} (h : x ∈ t) (n : Nat) (v : α) : x ∈ tset t n v ∨ (tfind t n = some x.2 ∧ (n, v) ∈ tset t n v) := by
  induction t with
  | nil => exact absurd h List.not_mem_nil
  | cons p r ih =>
    obtain ⟨k, w⟩ := p
    rw [tset, tfind]
    by_cases hlt : n < k
    · rw [if_pos hlt]
      exact .inl (List.mem_cons_of_mem _ h)
    · rw [if_neg hlt]
      by_cases hk : n = k
      · rw [if_pos hk, if_pos hk.symm]
        rcases List.mem_cons.mp h with rfl | h
        · exact .inr ⟨rfl, List.mem_cons_self ..⟩
        · exact .inl (List.mem_cons_of_mem _ h)
      · rw [if_neg hk, if_neg (Ne.symm hk)]
        rcases List.mem_cons.mp h with rfl | h
        · exact .inl (List.mem_cons_self ..)
        · exact (ih h).imp (List.mem_cons_of_mem _) fun ⟨hf, hm⟩ => ⟨hf, List.mem_cons_of_mem _ hm⟩

/-- A context's launches stay its launches when they are changed. -/
theorem any_modLaunch {ctx : Nat} (n : Nat) {f : Launch → Launch} (hf : ∀ l, (f l).ctx = l.ctx) (h : ∃ x ∈ s.launches, x.2.ctx = ctx) :
    ∃ x ∈ (s.modLaunch n f).launches, x.2.ctx = ctx := by
  unfold State.modLaunch
  split
  next l hl =>
    obtain ⟨x, hx, hc⟩ := h
    rcases mem_tset hx n (f l) with hm | ⟨hm, hn⟩
    · exact ⟨x, hm, hc⟩
    · obtain rfl : l = x.2 := Option.some.inj (hl.symm.trans hm)
      exact ⟨_, hn, (hf _).trans hc⟩
  next => exact h

/-- Launches discarded in turn. -/
def State.discardEach (s : State) (ids : List Nat) : State := ids.foldl (fun s n => (s.modLaunch n Launch.discarded).soon (.on n) .launchComplete) s

theorem discardAll_eq (ctx : Nat) : s.discardAll ctx = State.discardEach (s.discardWork (s.launchesOf ctx)) (s.launchesOf ctx) := rfl

theorem discardEach_kept (ids : List Nat) : (State.discardEach s ids).ctxs = s.ctxs ∧ (State.discardEach s ids).queues = s.queues := by
  have hstep (u : State) (n : Nat) : ((u.modLaunch n Launch.discarded).soon (.on n) .launchComplete).ctxs = u.ctxs ∧
      ((u.modLaunch n Launch.discarded).soon (.on n) .launchComplete).queues = u.queues := by
    unfold State.modLaunch
    split <;> exact ⟨rfl, rfl⟩
  exact ⟨foldl_kept State.ctxs (fun u n => (hstep u n).1) ids, foldl_kept State.queues (fun u n => (hstep u n).2) ids⟩

theorem any_discardEach {ctx : Nat} (ids : List Nat) (h : ∃ x ∈ s.launches, x.2.ctx = ctx) : ∃ x ∈ (State.discardEach s ids).launches, x.2.ctx = ctx := by
  unfold State.discardEach
  induction ids generalizing s with
  | nil => exact h
  | cons n ids ih => exact ih (any_modLaunch n (fun _ => rfl) h)

theorem tfind_discardEach {id : Nat} {ids : List Nat} {y : Launch} (hy : tfind s.launches id = some y) (h : id ∈ ids ∨ (y.status = 3 ∧ y.units = [])) :
    ∃ z, tfind (State.discardEach s ids).launches id = some z ∧ z.status = 3 ∧ z.units = [] := by
  unfold State.discardEach
  induction ids generalizing s y with
  | nil => exact ⟨y, hy, h.resolve_left List.not_mem_nil⟩
  | cons n ids ih =>
    have hstep : tfind ((s.modLaunch n Launch.discarded).soon (.on n) .launchComplete).launches id = if id = n then (tfind s.launches id).map Launch.discarded
        else tfind s.launches id := tfind_modLaunch ..
    by_cases hn : id = n
    · rw [if_pos hn, hy] at hstep
      exact ih hstep (.inr ⟨rfl, rfl⟩)
    · rw [if_neg hn, hy] at hstep
      exact ih hstep (h.imp_left fun g => (List.mem_cons.mp g).resolve_left hn)

theorem closeSession_kept (ctx cause : Nat) : (s.closeSession ctx cause).queues = s.queues ∧ (s.closeSession ctx cause).launches = s.launches ∧
    (∀ n, ((s.closeSession ctx cause).ctxAt n).halt = (s.ctxAt n).halt) ∧
    ∀ n, (((s.closeSession ctx cause).ctxAt n).trace = none ↔ (s.ctxAt n).trace = none) := by
  unfold State.closeSession
  split
  next y hy =>
    split
    · exact ⟨rfl, rfl, fun _ => rfl, fun _ => Iff.rfl⟩
    · have hctx (n : Nat) : ((s.modCtx ctx fun c => { c with trace := some { y with closing := some cause } }).soon (.on ctx) .traceDrainTimeout).ctxAt n =
          if n = ctx then { s.ctxAt ctx with trace := some { y with closing := some cause } } else s.ctxAt n :=
        ctxAt_modCtx ctx n fun c => { c with trace := some { y with closing := some cause } }
      refine ⟨rfl, rfl, fun n => ?_, fun n => ?_⟩
      · rw [hctx]
        split
        next h => rw [h]
        next => rfl
      · rw [hctx]
        split
        next h =>
          rw [h, hy]
          exact ⟨nofun, nofun⟩
        next => rfl
  next => exact ⟨rfl, rfl, fun _ => rfl, fun _ => Iff.rfl⟩

/-- A context whose work goes on. -/
def Ctx.goes (c : Ctx) : Ctx := { c with halt := false }

theorem ledger_goOn (ctx : Nat) : ledger (s.goOn ctx none) = ledger (s.modCtx ctx Ctx.goes) :=
  ledger_foldl (fun u p => by split <;> rfl) _

theorem goOn_kept (ctx : Nat) : (s.goOn ctx none).queues = s.queues ∧ (s.goOn ctx none).launches = s.launches ∧
    (∀ n, ((s.goOn ctx none).ctxAt n).trace = (s.ctxAt n).trace) ∧ ((s.goOn ctx none).ctxAt ctx).halt = false := by
  have hk := ledger_goOn (s := s) ctx
  have hctx (n : Nat) : (s.goOn ctx none).ctxAt n = if n = ctx then Ctx.goes (s.ctxAt ctx) else s.ctxAt n := (ctxAt_of_ledger hk n).trans (ctxAt_modCtx ..)
  refine ⟨(queues_of_ledger hk).trans rfl, (launches_of_ledger hk).trans rfl, fun n => ?_, ?_⟩
  · rw [hctx]
    split
    next h => rw [h]; rfl
    next => rfl
  · rw [hctx, if_pos rfl]
    rfl

/-- A queue in the state of a reset (R115). -/
def Queue.reset (q : Queue) : Queue :=
  { q.letGo with qstate := .resetting, cause := 0, detail := 0, head := q.tail, bare := false, accepted := q.accepted.filter fun a => !a.launches.isEmpty }

/-- A reset begun (R115), before it is known whether it has ended. -/
def State.resetBegun (s : State) (ctx : Nat) : State := ((((s.goOn ctx none).modQcb ctx Queue.reset).discardAll ctx).closeSession ctx 2)

theorem mem_of_tfind {α : Type} {t : Table α} {n : Nat} {v : α} (h : tfind t n = some v) : (n, v) ∈ t := by
  induction t with
  | nil => exact absurd h nofun
  | cons p r ih =>
    obtain ⟨k, w⟩ := p
    rw [tfind] at h
    by_cases hk : k = n
    · rw [if_pos hk] at h
      exact List.mem_cons.mpr (.inl (Prod.ext hk.symm (Option.some.inj h).symm))
    · rw [if_neg hk] at h
      exact List.mem_cons_of_mem _ (ih h)

/-- What the discard of all launches of a context comes to. -/
theorem discardAll_spec (ctx : Nat) : let t := s.discardAll ctx
    t.ctxs = s.ctxs ∧ t.queues = s.queues ∧ ((∃ x ∈ s.launches, x.2.ctx = ctx) → ∃ x ∈ t.launches, x.2.ctx = ctx) ∧
    ∀ id y, tfind s.launches id = some y → y.ctx = ctx → ∃ z, tfind t.launches id = some z ∧ z.status = 3 ∧ z.units = [] := by
  have hk := ledger_discardWork (s := s) (s.launchesOf ctx)
  have hid {id : Nat} {y : Launch} (hy : tfind s.launches id = some y) (hc : y.ctx = ctx) : id ∈ s.launchesOf ctx :=
    List.mem_map.mpr ⟨(id, y), List.mem_filter.mpr ⟨mem_of_tfind hy, beq_iff_eq.mpr hc⟩, rfl⟩
  rw [discardAll_eq]
  generalize s.launchesOf ctx = ids at hk hid
  generalize s.discardWork ids = u at hk
  obtain ⟨dc, dq⟩ := discardEach_kept (s := u) ids
  have hl := launches_of_ledger hk
  refine ⟨dc.trans (congrArg (fun x : Table Ctx × Table Queue × Table Launch => x.1) hk),
    dq.trans (queues_of_ledger hk), fun h => ?_, fun id y hy hc => ?_⟩
  · rw [← hl] at h
    exact any_discardEach ids h
  · have hmem := hid hy hc
    rw [← hl] at hy
    exact tfind_discardEach hy (.inl hmem)

theorem resetBegun_spec (ctx : Nat) : let t := State.resetBegun s ctx
    ((t.queueAt ctx).qstate = .resetting ∧ (t.queueAt ctx).head = (s.queueAt ctx).tail) ∧ (t.ctxAt ctx).halt = false ∧
    ((t.ctxAt ctx).trace = none ↔ (s.ctxAt ctx).trace = none) ∧ ((∃ x ∈ s.launches, x.2.ctx = ctx) → ∃ x ∈ t.launches, x.2.ctx = ctx) ∧
    ∀ id y, tfind s.launches id = some y → y.ctx = ctx → ∃ z, tfind t.launches id = some z ∧ z.status = 3 ∧ z.units = [] := by
  obtain ⟨gq, gl, gt, gh⟩ := goOn_kept (s := s) ctx
  have hq : ((s.goOn ctx none).modQcb ctx Queue.reset).queueAt ctx = published (Queue.reset (s.queueAt ctx)) := by
    rw [queueAt_modQcb, if_pos rfl]
    exact congrArg (fun x : Table Queue => published (Queue.reset (tget x ctx {}))) gq
  have hhouse : house ((s.goOn ctx none).modQcb ctx Queue.reset) = house (s.goOn ctx none) := house_modQcb ..
  have hc := ctxs_of_house hhouse
  have hl := (house_state hhouse State.launches fun _ => rfl).trans gl
  unfold State.resetBegun
  generalize (s.goOn ctx none).modQcb ctx Queue.reset = u at hq hc hl
  obtain ⟨dc, dq, dany, dfind⟩ := discardAll_spec (s := u) ctx
  rw [hl] at dany dfind
  generalize u.discardAll ctx = v at dc dq dany dfind
  obtain ⟨cq, cl, ch, ct⟩ := closeSession_kept (s := v) ctx 2
  have hcv : v.ctxAt ctx = (s.goOn ctx none).ctxAt ctx := congrArg (fun x : Table Ctx => tget x ctx {}) (dc.trans hc)
  have hqv : (v.closeSession ctx 2).queueAt ctx = published (Queue.reset (s.queueAt ctx)) :=
    (congrArg (fun x : Table Queue => tget x ctx {}) (cq.trans dq)).trans hq
  dsimp only
  rw [cl, hqv, ch, ct, hcv, gh, gt]
  exact ⟨⟨rfl, rfl⟩, rfl, Iff.rfl, dany, dfind⟩

end

/-! ### What another package's root sends -/

section
variable {s : State}

/-- A far launch entered where it is new. -/
def State.launchEntered (s : State) (id : Nat) (l : Launch) : State := if (tfind s.launches id).isSome then s else { s with launches := tset s.launches id l }

theorem isSome_launchEntered (id : Nat) (l : Launch) : (tfind (State.launchEntered s id l).launches id).isSome = true := by
  unfold State.launchEntered
  split
  next h => exact h
  next =>
    rw [tfind_tset, if_pos rfl]
    rfl

theorem isSome_addUnits {id : Nat} (h : (tfind s.launches id).isSome = true) (part : Nat) (d : Int) :
    (tfind (s.addUnits id part d).launches id).isSome = true ∧ (s.addUnits id part d).now = s.now := by
  unfold State.addUnits
  split
  next hn => exact ⟨h, rfl⟩
  next l hl =>
    have hmod : (tfind (s.modLaunch id fun x => { x with units := tset x.units part (tget l.units part 0 + d) }).launches id).isSome = true := by
      rw [tfind_modLaunch, if_pos rfl, Option.isSome_map]
      exact h
    have hnow : (s.modLaunch id fun x => { x with units := tset x.units part (tget l.units part 0 + d) }).now = s.now := by
      unfold State.modLaunch
      rw [hl]
    dsimp only
    split
    · exact ⟨hmod, hnow⟩
    · exact ⟨hmod, hnow⟩

theorem acceptWork_spec (root : Nat) (ws : List W64) : let id := farLaunch root (ws.getD 0 0).toNat
    (tfind (s.acceptWork root ws).launches id).isSome = true ∧ (ws.drop 69 ≠ [] →
      ∃ x ∈ (s.acceptWork root ws).agenda, x.time = s.now ∧ x.ev = .split id none ((ws.drop 69).map BitVec.toNat)) := by
  obtain ⟨l, hl⟩ : ∃ l : Launch, s.acceptWork root ws =
      let s1 := State.launchEntered s (farLaunch root (ws.getD 0 0).toNat) l
      if ((ws.drop 69).map BitVec.toNat).isEmpty then s1 else
        (s1.addUnits (farLaunch root (ws.getD 0 0).toNat) 4 ((ws.drop 69).map BitVec.toNat).length).soon .none
          (.split (farLaunch root (ws.getD 0 0).toNat) none ((ws.drop 69).map BitVec.toNat)) := ⟨_, rfl⟩
  have hsome := isSome_launchEntered (s := s) (farLaunch root (ws.getD 0 0).toNat) l
  have hnow : (State.launchEntered s (farLaunch root (ws.getD 0 0).toNat) l).now = s.now := by
    unfold State.launchEntered
    split <;> rfl
  dsimp only at hl ⊢
  rw [hl]
  generalize State.launchEntered s (farLaunch root (ws.getD 0 0).toNat) l = u at hsome hnow
  by_cases he : ((ws.drop 69).map BitVec.toNat).isEmpty = true
  · rw [if_pos he]
    refine ⟨hsome, fun h => absurd (List.map_eq_nil_iff.mp (List.isEmpty_iff.mp he)) h⟩
  · rw [if_neg he]
    obtain ⟨ha, hn⟩ := isSome_addUnits hsome 4 ((ws.drop 69).map BitVec.toNat).length
    exact ⟨ha, fun _ => ⟨_, mem_soon .., hn.trans hnow, rfl⟩⟩

end

/-! ### Halts, stops and faults -/

section
variable {s : State}

theorem mem_sendVector {v : Nat} (h : (s.owl.vectorControl v).testBit 0 = false) : .msix v ∈ (s.sendVector v).out := by
  unfold State.sendVector
  rw [if_neg (by rw [h]; decide)]
  exact mem_emit _

theorem mem_raiseVector {v : Nat} (h : (s.owl.vectorControl v).testBit 0 = false) :
    .msix v ∈ (s.raiseVector v).out ∨ .source (32 + v) ∈ (s.raiseVector v).out := by
  unfold State.raiseVector
  split
  · exact .inr (mem_emit _)
  · exact .inl (mem_sendVector h)

theorem vectorOf_of_house {t : State} (h : house t = house s) (n : Nat) : t.vectorOf n = s.vectorOf n := by
  have hc := ctxs_of_house h
  have ho : t.owl.adminRing = s.owl.adminRing := owl_of_house h Owl.adminRing fun _ => rfl
  unfold State.vectorOf State.ctxAt
  rw [hc, ho]

/-- A queue that has halted. -/
def haltedQueue (k : Nat) (d : W64) (q : Queue) : Queue := { q.letGo with qstate := .halted, cause := k, detail := d }

theorem published_halted (k : Nat) (d : W64) (q : Queue) : let y := published (haltedQueue k d q)
    y.qstate = .halted ∧ y.cause = k ∧ y.detail = d ∧ y.head = q.head := ⟨rfl, rfl, rfl, rfl⟩

theorem haltQueue_run {n : Nat} (h : (s.queueAt n).qstate.reads = true) (k : Nat) (tag : W32) (sub : Nat) :
    s.haltQueue n k tag sub = (s.modQcb n (haltedQueue k (detailOf tag sub 0))).interrupt n := if_pos h

theorem mem_interrupt {n : Nat} (f : Queue → Queue) (h : (s.owl.vectorControl (s.vectorOf n)).testBit 0 = false) :
    .msix (s.vectorOf n) ∈ ((s.modQcb n f).interrupt n).out ∨ .source (32 + s.vectorOf n) ∈ ((s.modQcb n f).interrupt n).out := by
  have hhouse : house (s.modQcb n f) = house s := house_modQcb ..
  have hv := vectorOf_of_house hhouse n
  have howl : (s.modQcb n f).owl.vectorControl (s.vectorOf n) = s.owl.vectorControl (s.vectorOf n) :=
    owl_of_house hhouse (fun o => o.vectorControl (s.vectorOf n)) fun _ => rfl
  rw [← howl] at h
  generalize s.modQcb n f = u at hv h
  unfold State.interrupt
  rw [hv]
  exact mem_raiseVector h

theorem haltQueue_reads {n : Nat} (h : (s.queueAt n).qstate.reads = true) (k : Nat) (tag : W32) (sub : Nat) :
    ((s.haltQueue n k tag sub).queueAt n).qstate = .halted ∧ ((s.haltQueue n k tag sub).queueAt n).cause = k ∧
      ((s.haltQueue n k tag sub).queueAt n).detail = detailOf tag sub 0 ∧ ((s.haltQueue n k tag sub).queueAt n).head = (s.queueAt n).head ∧
      ((s.owl.vectorControl (s.vectorOf n)).testBit 0 = false →
        .msix (s.vectorOf n) ∈ (s.haltQueue n k tag sub).out ∨ .source (32 + s.vectorOf n) ∈ (s.haltQueue n k tag sub).out) := by
  rw [haltQueue_run h, queueAt_interrupt, queueAt_modQcb, if_pos rfl]
  obtain ⟨hs, hc, hd, hh⟩ := published_halted k (detailOf tag sub 0) (s.queueAt n)
  exact ⟨hs, hc, hd, hh, mem_interrupt _⟩

theorem stopQueue_running {n : Nat} (h : QState.ended (s.queueAt n).qstate = false) (k : Nat) (d : W64) : let t := s.stopQueue n k d
    (t.queueAt n).qstate = .stopped ∧ (t.queueAt n).cause = k ∧ (t.queueAt n).detail = d ∧ (t.queueAt n).waits = none ∧ (t.ctxAt n).halt = true ∧
      (t.queueAt n).head = (s.queueAt n).head := by
  have hq : (s.stopQueue n k d).queueAt n = stoppedQueue k d (s.queueAt n) := (queueAt_stopQueue_live h n).trans (if_pos rfl)
  have hhalt : ((s.stopQueue n k d).ctxAt n).halt = true := by
    rw [stopQueue_live h]
    have houter := outer_tellOthers (s := (((s.stopWork n).modQcb n fun q => { q.letGo with qstate := .stopped, cause := k, detail := d }).interrupt n)) n "STOP" []
    have hhouse := (house_of_outer houter).trans ((house_interrupt n).trans (house_modQcb ..))
    refine (congrArg (fun x : Table Ctx => (tget x n {}).halt) (ctxs_of_house hhouse)).trans ?_
    exact (halt_stopWork n n).trans (if_pos rfl)
  dsimp only
  rw [hq]
  exact ⟨rfl, rfl, rfl, rfl, hhalt, rfl⟩

theorem contextFault_far {n : Nat} (tag : W32) (sub code : Nat) (hn : s.subj = n) (hu : (s.ctxAt n).used = true) (hr : (s.ctxAt n).root ≠ s.self) :
    ∃ t, exec (.contextFault tag sub code) s = .next t ∧ t.mem = s.mem ∧
      .control (s.ctxAt n).root "CONTEXT_FAULT" [w64 n, tag.setWidth 64, w64 sub, w64 code] ∈ t.out := by
  subst hn
  refine ⟨s.tell (s.ctxAt s.subj).root "CONTEXT_FAULT" [w64 s.subj, tag.setWidth 64, w64 sub, w64 code], if_pos ?_, State.tell_mem .., mem_tell ..⟩
  rw [Bool.and_eq_true, bne_iff_ne]
  exact ⟨hu, hr⟩

theorem contextFault_here {n : Nat} (tag : W32) (sub code : Nat) (hn : s.subj = n) (h : (s.ctxAt n).used = false ∨ (s.ctxAt n).root = s.self) :
    exec (.contextFault tag sub code) s = .next (s.stopQueue n 0x102 (detailOf tag sub code)) := by
  subst hn
  refine if_neg ?_
  rw [Bool.and_eq_true, bne_iff_ne]
  rintro ⟨hu, hr⟩
  exact h.elim (fun h => absurd (h.symm.trans hu) (by decide)) hr

end

/-! ### The obligation -/

section
variable {s : State}

theorem tlwaitSatisfied_met {n : Nat} {a : Accepted} (hn : s.subj = n) (ha : (s.queueAt n).accepted.find? (fun a => a.num == (s.queueAt n).waitNo && !a.started) = some a)
    (hw : (s.queueAt n).waits.isSome = true) (hs : s.serves n = true) (ht : s.tlMet n = true ∨ s.tlRemote n = true) :
    exec .tlwaitSatisfied s = .next (((s.modQueue n fun y => { y with waits := none }).acceptPacket ⟨n, a.num, a.words⟩).completePacket n a.num) := by
  subst hn
  rw [exec_tlwaitSatisfied]
  unfold execTlwaitSatisfied
  dsimp only
  rw [ha]
  refine if_neg ?_
  have hm : (s.tlMet s.subj || s.tlRemote s.subj) = true := by rw [Bool.or_eq_true]; exact ht
  rw [hs, hm, Option.isNone_eq_false_iff.mpr hw]
  decide

theorem queueResumeReset_stands (h : s.Stands) {ctx : Nat} (hctx : (s.pkt.words.getD 2 0).toNat % 64 = ctx)
    (hu : ((s.acceptPacket s.pkt).ctxAt ctx).used = true) (hr : ((s.acceptPacket s.pkt).ctxAt ctx).root = s.self) :
    let u := s.acceptPacket s.pkt
    ∃ t : State, exec .queueResumeReset s = .next (t.pump s.pkt.queue) ∧
      ((u.ctxAt ctx).trace ≠ none ∨ (∃ x ∈ u.launches, x.2.ctx = ctx) → (t.queueAt ctx).qstate = .resetting ∧ (t.queueAt ctx).head = (u.queueAt ctx).tail ∧
        (t.ctxAt ctx).halt = false) ∧
      ∀ id y, tfind s.launches id = some y → y.ctx = ctx → (t.launchAt id).status = 3 ∧ (t.launchAt id).units = [] := by
  intro u
  have hlaunch : u.launches = s.launches := house_state (house_modQcb ..) State.launches fun _ => rfl
  obtain ⟨hqueue, hhalt, htrace, hany, hfind⟩ := resetBegun_spec (s := u) ctx
  have hrun : exec .queueResumeReset s = .next ((((State.resetBegun u ctx).tryEndReset ctx).tellOthers ctx "QUEUE_RESET" s.pkt.words).pump s.pkt.queue) :=
    (queueResumeReset_here h.choose_spec.2.2.1).trans (onContext_rooted h _ hctx hu hr)
  rw [hlaunch] at hany hfind ⊢
  generalize State.resetBegun u ctx = v at hrun hqueue hhalt htrace hany hfind
  have hstay (hb : (u.ctxAt ctx).trace ≠ none ∨ ∃ x ∈ s.launches, x.2.ctx = ctx) : v.tryEndReset ctx = v := by
    refine if_pos ?_
    rw [Bool.or_eq_true, Bool.or_eq_true]
    refine hb.elim (fun hb => .inl (.inr ?_)) fun hb => .inr ?_
    · rw [Option.isSome_iff_ne_none]
      exact mt htrace.mp hb
    · obtain ⟨x, hx, hc⟩ := hany hb
      exact List.any_eq_true.mpr ⟨x, hx, beq_iff_eq.mpr hc⟩
  refine ⟨_, hrun, fun hb => ?_, fun id y hy hc => ?_⟩
  · rw [hstay hb]
    have houter : outer (v.tellOthers ctx "QUEUE_RESET" s.pkt.words) = outer v := outer_tellOthers ..
    rw [queueAt_of_outer houter]
    refine ⟨hqueue.1, hqueue.2, ?_⟩
    exact (congrArg (fun x : Table Ctx => (tget x ctx {}).halt) (outer_state houter State.ctxs fun _ => rfl)).trans hhalt
  · rw [hstay (.inr ⟨(id, y), mem_of_tfind hy, hc⟩)]
    have houter : outer (v.tellOthers ctx "QUEUE_RESET" s.pkt.words) = outer v := outer_tellOthers ..
    obtain ⟨z, hz, h3, h0⟩ := hfind id y hy hc
    have hz' : tfind (v.tellOthers ctx "QUEUE_RESET" s.pkt.words).launches id = some z :=
      (congrArg (fun x : Table Launch => tfind x id) (outer_state houter State.launches fun _ => rfl)).trans hz
    have hat : (v.tellOthers ctx "QUEUE_RESET" s.pkt.words).launchAt id = z := congrArg (fun o : Option Launch => o.getD {}) hz'
    rw [hat]
    exact ⟨h3, h0⟩

end

section
variable {s : State} (h : s.Stands)
include h

theorem wrap_stands : exec .wrap s =
    .next ((if s.pkt.queue = 64 then (s.acceptPacket s.pkt).flushAdmin ((s.acceptPacket s.pkt).queueAt 64).accepted.length
      else (s.acceptPacket s.pkt).completePacket s.pkt.queue s.pkt.num).pump s.pkt.queue) := by
  rw [exec_wrap]
  exact starting_stands h _

theorem launch_stands : exec .launch s =
    let u := s.acceptPacket s.pkt
    .next ((u.startPacket s.pkt [(w64 ((u.queueAt s.pkt.queue).ringAt ((u.queueAt s.pkt.queue).head.toNat - 8 * s.pkt.words.length) + 8),
      wordBytes (s.pkt.words.drop 1))] none).pump s.pkt.queue) := by
  have hrun := starting_stands h fun p s =>
    s.startPacket p [(w64 ((s.queueAt p.queue).ringAt ((s.queueAt p.queue).head.toNat - 8 * p.words.length) + 8), wordBytes (p.words.drop 1))] none
  obtain ⟨a, -, -, hle, -⟩ := h
  rw [exec_launch]
  unfold execLaunch
  rw [if_neg (show ¬128 ≤ s.pkt.queue by omega)]
  exact hrun

theorem graph_stands : exec .graph s =
    let u := s.acceptPacket s.pkt
    .next ((u.startPacket s.pkt (u.recordsOf s.pkt.words) (some u.nextId)).pump s.pkt.queue) := by
  rw [exec_graph]
  exact starting_stands h _

theorem preempt_stands : exec .preempt s =
    .next ((((s.acceptPacket s.pkt).pursue s.pkt.queue).checkAsks s.pkt.queue).pump s.pkt.queue) := by
  rw [exec_preempt]
  exact starting_stands h _

theorem fencePacket_stands : exec .fencePacket s = .next ((State.lastOf s (fun _ s => s) (s.acceptPacket s.pkt)).pump s.pkt.queue) := by
  rw [exec_fencePacket]
  exact afterAll_stands h _

/-- What a `TLSIGNAL` does when it is the oldest (R113, R484). -/
def State.signals (p : Packet) (s : State) : State :=
  if (p.words.getD 3 0).toNat = 0 then s.raiseQtl p.queue (p.words.getD 2 0)
  else (s.raiseQtl p.queue (p.words.getD 2 0)).writeRecord p.queue (tagOf p.words) (p.words.getD 3 0).toNat (bytesOf 8 (p.words.getD 2 0).toNat)

theorem tlsignal_stands : exec .tlsignal s = .next ((State.lastOf s State.signals (s.acceptPacket s.pkt)).pump s.pkt.queue) := by
  rw [exec_tlsignal]
  exact afterAll_stands h _

theorem traceOpen_stands : exec .traceOpen s =
    let u := s.acceptPacket s.pkt
    .next ((if (u.ctxAt s.pkt.queue).trace.isSome then u.closeSession s.pkt.queue 1
      else (u.openSession s.pkt.queue s.pkt.words).completePacket s.pkt.queue s.pkt.num).pump s.pkt.queue) := by
  rw [exec_traceOpen]
  exact tracePacket_stands h _

theorem traceClose_stands : exec .traceClose s =
    let u := s.acceptPacket s.pkt
    .next ((if (u.ctxAt s.pkt.queue).trace.isSome then u.closeSession s.pkt.queue 1 else u.completePacket s.pkt.queue s.pkt.num).pump s.pkt.queue) := by
  rw [exec_traceClose]
  exact tracePacket_stands h _

/-- Every resume and halt of a context that this package does not root is refused. -/
theorem resumes_foreign {ctx : Nat} (hctx : (s.pkt.words.getD 2 0).toNat % 64 = ctx)
    (hu : ((s.acceptPacket s.pkt).ctxAt ctx).used = false ∨ ((s.acceptPacket s.pkt).ctxAt ctx).root ≠ s.self) {i : Instr}
    (hi : i ∈ [Instr.queueResume, .queueResumeSkip, .queueResumeReset, .hostHalt]) :
    exec i s = .next (((s.acceptPacket s.pkt).endAdmin s.pkt.num 0 4).pump s.pkt.queue) := by
  have hall (f : Packet → Nat → State → State) := onContext_foreign h f hctx hu
  obtain ⟨a, -, -, hle, -⟩ := h
  simp only [List.mem_cons, List.not_mem_nil, or_false] at hi
  rcases hi with rfl | rfl | rfl | rfl
  · rw [exec_queueResume]
    exact hall _
  · rw [exec_queueResumeSkip]
    exact hall _
  · rw [queueResumeReset_here hle]
    exact hall _
  · rw [exec_hostHalt]
    exact hall _

section
variable {ctx : Nat} (hctx : (s.pkt.words.getD 2 0).toNat % 64 = ctx) (hu : ((s.acceptPacket s.pkt).ctxAt ctx).used = true)
  (hr : ((s.acceptPacket s.pkt).ctxAt ctx).root = s.self)
include hctx hu hr

theorem queueResume_rooted : exec .queueResume s = .next ((((s.acceptPacket s.pkt).resumeQueue ctx).endAdmin s.pkt.num 0 0).pump s.pkt.queue) := by
  rw [exec_queueResume]
  exact onContext_rooted h _ hctx hu hr

theorem hostHalt_rooted : exec .hostHalt s = .next ((((s.acceptPacket s.pkt).haltQueue ctx 8 0 0).endAdmin s.pkt.num 0 0).pump s.pkt.queue) := by
  rw [exec_hostHalt]
  exact onContext_rooted h _ hctx hu hr

theorem queueResumeSkip_rooted : exec .queueResumeSkip s =
    let u := s.acceptPacket s.pkt
    let y := u.queueAt ctx
    let len := match u.ringFail y y.head.toNat 1 with | some _ => 1 | none => max 1 ((u.poolWord (y.ringAt y.head.toNat)).toNat / 2 ^ 16 % 2 ^ 16)
    let head := if y.head = y.tail then y.head else w64 (min (y.head.toNat + 8 * len) y.tail.toNat)
    .next ((((u.modQueue ctx fun z => { z.letGo with bare := false, head := head }).resumeQueue ctx).endAdmin s.pkt.num 0 0).pump s.pkt.queue) := by
  rw [exec_queueResumeSkip]
  exact onContext_rooted h _ hctx hu hr

end

end

/-- Settles O57: each packet and event by its own lemma. -/
theorem queuePackets : Obligations.QueuePackets := by
  intro s tag sub code from_ p n ws u q w ctx ends oldest waiting timed address far here closes
  refine ⟨rfl, fun h => ?_, fun hn hf => ?_, fun a ha hn hw hs ht => tlwaitSatisfied_met hn ha hw hs ht, fun hw hno hany => ?_,
    fun a rest ha hn hs hq ho => ⟨?_, fun h3 => ?_⟩, fun y cause ht hc => ?_, fun h k => ?_, fun h k => ?_,
    fun hn hu hr => ?_, fun hn hr h1 h2 h3 => ?_⟩
  · refine ⟨fun hn => ?_, fun hn => ?_, fun hw => ?_, fun hw => ?_, launch_stands h, graph_stands h, fun hm => ?_, fun hm => ?_, fun ho => ?_, fun ho => ?_,
      preempt_stands h, fun ht => ?_, fun ht => ?_, fun ht => ⟨?_, ?_, openSession_trace n ws⟩, fun hr i hi => resumes_foreign h rfl hr hi,
      fun hu hr => ⟨queueResume_rooted h rfl hu hr, hostHalt_rooted h rfl hu hr, queueResumeSkip_rooted h rfl hu hr, queueResumeReset_stands h rfl hu hr⟩⟩
    · exact (wrap_stands h).trans (by rw [if_neg hn])
    · exact (wrap_stands h).trans (by rw [if_pos hn])
    · exact (head_acceptPacket p).trans (if_pos hw)
    · exact (head_acceptPacket p).trans (if_neg hw)
    · exact (tlwaitPacket_stands h).trans (congrArg Host.Outcome.next (if_neg (by rw [show State.tlMet _ _ = false from hm]; decide)))
    · exact (tlwaitPacket_stands h).trans (congrArg Host.Outcome.next (if_pos hm))
    · obtain ⟨hold, hq, howl⟩ := ho
      cases ha : (u.queueAt n).accepted with
      | nil => exact absurd hold (by rw [ha]; exact id)
      | cons a rest =>
        rw [ha] at hold
        refine ⟨?_, fun h3 => ?_, fun h3 => ?_⟩
        · rw [fencePacket_stands h, lastOf_oldest ha hold hq howl]
        · rw [tlsignal_stands h, lastOf_oldest ha hold hq howl]
          exact congrArg (fun t : State => Host.Outcome.next ((t.completePacket n p.num).pump n)) (if_pos h3)
        · rw [tlsignal_stands h, lastOf_oldest ha hold hq howl]
          exact congrArg (fun t : State => Host.Outcome.next ((t.completePacket n p.num).pump n)) (if_neg h3)
    · have hlast (a : Accepted) (rest : List Accepted) (ha : (u.queueAt n).accepted = a :: rest) :
          ¬(a.num = p.num ∧ (u.queueAt n).qstate ≠ .stopped ∧ u.owl.state = 1) := fun ⟨hnum, hq, howl⟩ => ho ⟨by rw [ha]; exact hnum, hq, howl⟩
      exact ⟨(fencePacket_stands h).trans (by rw [lastOf_waits hlast]), (tlsignal_stands h).trans (by rw [lastOf_waits hlast])⟩
    · exact (traceOpen_stands h).trans (congrArg (fun t : State => Host.Outcome.next (t.pump n)) (if_pos ht))
    · exact (traceClose_stands h).trans (congrArg (fun t : State => Host.Outcome.next (t.pump n)) (if_pos ht))
    · exact (traceOpen_stands h).trans (congrArg (fun t : State => Host.Outcome.next (t.pump n)) (if_neg (by rw [ht]; decide)))
    · exact (traceClose_stands h).trans (congrArg (fun t : State => Host.Outcome.next (t.pump n)) (if_neg (by rw [ht]; decide)))
  · have hq : s.pkt.queue = 128 + from_ := hn
    obtain ⟨hsome, hsplit⟩ := acceptWork_spec (s := s) from_ ws
    refine ⟨(if_pos (show 128 ≤ s.pkt.queue by omega)).trans ?_, hsome, hsplit, if_pos (show 128 ≤ s.pkt.queue by omega)⟩
    rw [show s.pkt.queue - 128 = from_ by omega]
  · refine if_pos ?_
    rw [Bool.and_eq_true, Bool.and_eq_true, beq_iff_eq]
    exact ⟨⟨hw, hno⟩, hany⟩
  · rw [exec_fencePacket]
    refine (afterAll_again ha hn hs _).trans ?_
    rw [lastOf_oldest ha hn hq ho]
  · rw [exec_tlsignal]
    refine (afterAll_again ha hn hs State.signals).trans ?_
    rw [lastOf_oldest ha hn hq ho]
    exact congrArg (fun t : State => Host.Outcome.next (t.completePacket n p.num)) (if_pos h3)
  · exact traceDrain_closes ht hc
  · exact haltQueue_reads h k tag sub
  · exact if_neg (by rw [h]; decide)
  · exact contextFault_far tag sub code hn hu hr
  · have hlive : QState.ended (s.queueAt n).qstate = false := by
      cases hq : (s.queueAt n).qstate with
      | stopped => exact absurd hq h1
      | destroyed => exact absurd hq h2
      | resetting => exact absurd hq h3
      | _ => rfl
    exact ⟨_, contextFault_here tag sub code hn hr, stopQueue_running hlive 0x102 (detailOf tag sub code)⟩

end Sys2Proof.Proofs
end

section
/-! PROOFS. Packets of the admin queue (O55). -/

namespace Sys2Proof.Proofs
open Sys2Proof Sys2Proof.Machine Sys2Proof.Laws.Shapes

/-! ### Completion -/

section
variable {s : State}

/-- The admin queue with the end of a packet entered (R117). -/
def State.ended (s : State) (num : Nat) (v : W64) (st : Nat) : State :=
  s.modQueue 64 fun q => { q with accepted := q.accepted.map fun a => if a.num = num then { a with result := some (v, st) } else a }

theorem endAdmin_only {a : Accepted} {num : Nat} (v : W64) (st : Nat) (ha : (s.queueAt 64).accepted = [a]) (hn : a.num = num) :
    ∃ t : State, s.endAdmin num v st = (t.writeStatus ((a.words.getD 1 0).toNat % 2 ^ 48) v st).completePacket 64 num ∧ t.mem = s.mem ∧
      (t.queueAt 64).accepted = [{ a with result := some (v, st) }] := by
  subst hn
  have hacc : ((State.ended s a.num v st).queueAt 64).accepted = [{ a with result := some (v, st) }] := by
    unfold State.ended
    rw [queueAt_modQueue, if_pos rfl]
    dsimp only
    rw [ha, List.map_singleton, if_pos rfl]
  refine ⟨State.ended s a.num v st, ?_, rfl, hacc⟩
  have hend : s.endAdmin a.num v st = (State.ended s a.num v st).flushAdmin (s.queueAt 64).accepted.length := rfl
  rw [hend, ha]
  unfold State.flushAdmin
  rw [hacc]
  rfl

/-! ### Contexts -/

theorem ctxAt_enterContext (root : Nat) (ws : List W64) : ∃ c : Ctx, (s.enterContext root ws).ctxAt ((ws.getD 2 0).toNat % 64) = c ∧
    c.used = true ∧ c.prio = (ws.getD 2 0).toNat / 64 % 8 ∧ c.fixed = (ws.getD 2 0).toNat.testBit 9 ∧ c.rr = (ws.getD 2 0).toNat.testBit 10 ∧
    c.table = ws.getD 3 0 ∧ c.root = root ∧ c.trace = none := by
  obtain ⟨c, q, hrun, hc⟩ : ∃ (c : Ctx) (q : Queue), s.enterContext root ws =
      (localParts ((namedParts ws).getD s.self 0)).foldl (fun s p => s.askPart p ((ws.getD 2 0).toNat % 64))
        ((s.modCtx ((ws.getD 2 0).toNat % 64) fun _ => c).modQueue ((ws.getD 2 0).toNat % 64) fun _ => q) ∧
      c.used = true ∧ c.prio = (ws.getD 2 0).toNat / 64 % 8 ∧ c.fixed = (ws.getD 2 0).toNat.testBit 9 ∧ c.rr = (ws.getD 2 0).toNat.testBit 10 ∧
      c.table = ws.getD 3 0 ∧ c.root = root ∧ c.trace = none := ⟨_, _, rfl, rfl, rfl, rfl, rfl, rfl, rfl, rfl⟩
  refine ⟨c, ?_, hc⟩
  rw [hrun]
  refine (foldl_kept (f := fun s p => State.askPart s p ((ws.getD 2 0).toNat % 64)) (fun s => s.ctxAt ((ws.getD 2 0).toNat % 64)) (fun _ _ => rfl) _).trans ?_
  exact (ctxAt_modCtx _ _ fun _ => c).trans (if_pos rfl)

theorem mem_enterContext (root : Nat) (ws : List W64) : (s.enterContext root ws).mem = s.mem :=
  foldl_kept (f := fun s p => State.askPart s p ((ws.getD 2 0).toNat % 64)) State.mem (fun _ _ => rfl) _

theorem ctxs_createQcb (n a : Nat) : (s.createQcb n a).ctxs = s.ctxs := outer_state (outer_createQcb n a) State.ctxs fun _ => rfl

theorem ctxs_tellMembers (what : String) (ws : List W64) : (s.tellMembers what ws).ctxs = s.ctxs :=
  outer_state (outer_foldl (fun _ _ => outer_tell ..) _) State.ctxs fun _ => rfl

theorem ctxs_createContext (ws : List W64) : (s.createContext ws).ctxs = (s.enterContext s.self ws).ctxs := by
  have hqcb := ctxs_createQcb (s := s.enterContext s.self ws) ((ws.getD 2 0).toNat % 64) (ws.getD 4 0).toNat
  have hs2 : ((if (ws.getD 5 0).toNat = 0 then (s.enterContext s.self ws).createQcb ((ws.getD 2 0).toNat % 64) (ws.getD 4 0).toNat
      else ((s.enterContext s.self ws).createQcb ((ws.getD 2 0).toNat % 64) (ws.getD 4 0).toNat).createQcb ((ws.getD 2 0).toNat % 64)
        (ws.getD 5 0).toNat).tellMembers "CTX_CREATE" ws).ctxs = (s.enterContext s.self ws).ctxs := by
    rw [ctxs_tellMembers]
    split
    · exact hqcb
    · exact (ctxs_createQcb ..).trans hqcb
  obtain ⟨s2, hs2, hrun⟩ : ∃ s2 : State, s2.ctxs = (s.enterContext s.self ws).ctxs ∧ s.createContext ws =
      if (s2.ctxAt ((ws.getD 2 0).toNat % 64)).standby = 64 then s2 else s2.later 40000 (.on ((ws.getD 2 0).toNat % 64)) .heartbeat := ⟨_, hs2, rfl⟩
  rw [hrun]
  split
  · exact hs2
  · exact hs2

theorem ctxAt_createContext (ws : List W64) : let c := (s.createContext ws).ctxAt ((ws.getD 2 0).toNat % 64)
    c.used = true ∧ c.prio = (ws.getD 2 0).toNat / 64 % 8 ∧ c.fixed = (ws.getD 2 0).toNat.testBit 9 ∧ c.rr = (ws.getD 2 0).toNat.testBit 10 ∧
    c.table = ws.getD 3 0 ∧ c.root = s.self ∧ c.trace = none := by
  obtain ⟨c, hc, hrest⟩ := ctxAt_enterContext (s := s) s.self ws
  have hcc : (s.createContext ws).ctxAt ((ws.getD 2 0).toNat % 64) = c :=
    (congrArg (fun x : Table Ctx => tget x ((ws.getD 2 0).toNat % 64) {}) (ctxs_createContext ws)).trans hc
  dsimp only
  rw [hcc]
  exact hrest

theorem joinContext_spec (root : Nat) (ws : List W64) : let t := s.joinContext root ws
    (t.ctxAt ((ws.getD 2 0).toNat % 64)).used = true ∧ (t.ctxAt ((ws.getD 2 0).toNat % 64)).root = root ∧
    (t.ctxAt ((ws.getD 2 0).toNat % 64)).table = ws.getD 3 0 ∧ t.mem = s.mem := by
  obtain ⟨c, hc, hused, -, -, -, htable, hroot, -⟩ := ctxAt_enterContext (s := s) root ws
  have hmem := mem_enterContext (s := s) root ws
  have hkeep : (s.joinContext root ws).ctxAt ((ws.getD 2 0).toNat % 64) = c ∧ (s.joinContext root ws).mem = s.mem := by
    unfold State.joinContext
    dsimp only
    split
    · exact ⟨hc, hmem⟩
    · exact ⟨hc, hmem⟩
  dsimp only
  rw [hkeep.1]
  exact ⟨hused, hroot, htable, hkeep.2⟩

theorem ctxAt_releaseContext (n : Nat) : (s.releaseContext n).ctxAt n = {} := by
  have hforget (u : State) (hit : Cached → Bool) (page : Nat → Bool) (owners : Table Nat) :
      ({ (u.modCtx n fun _ => {}).forgetCached hit page with lastOwner := owners } : State).ctxAt n = {} :=
    (ctxAt_modCtx n n fun _ => {}).trans (if_pos rfl)
  unfold State.releaseContext
  exact hforget ..

/-! ### Pages -/

theorem entryOf_plain {page : Nat} (h : s.isAdmin page = false) : s.entryOf page = tget s.ind page 0 := if_neg (by rw [h]; decide)

theorem entryOf_backPage {page : Nat} (h : s.isAdmin page = false) (ctx stack frame : Nat) (explicit : Bool) :
    (s.backPage page ctx stack frame explicit).entryOf page = indEntry true explicit stack frame ctx := by
  have hadmin : (s.backPage page ctx stack frame explicit).isAdmin page = false := h
  rw [entryOf_plain hadmin]
  exact (tget_tset ..).trans (if_pos rfl)

/-- The page that the second word of a pool command names, where it is to stand, and the frame that it names (R115). -/
def State.placeFor (s : State) (w2 w3 : Nat) : Nat := if w3.testBit 1 then w3 / 2 ^ 8 % 512 else s.hashHome (w2 / 2 ^ 17 % 2 ^ 31)

theorem mapCommand_spec (w2 w3 : Nat) :
    let page := w2 / 2 ^ 17 % 2 ^ 31
    let at_ := State.placeFor s w2 w3
    let frame := w3 / 2 ^ 32 % 2 ^ 19
    let taken := s.frameReserved at_ frame = true ∨ (s.usedFrames at_).contains frame = true
    (s.isAdmin page = true ∨ s.stackKnown at_ = false → s.mapCommand w2 w3 = (4, s)) ∧
    (s.isAdmin page = false → s.stackKnown at_ = true →
      (entValid (s.entryOf page) = true → s.mapCommand w2 w3 = (1, s)) ∧
      (entValid (s.entryOf page) = false → w3.testBit 2 = true → taken → s.mapCommand w2 w3 = (4, s)) ∧
      (entValid (s.entryOf page) = false → w3.testBit 2 = false → s.freeFrame at_ = none → s.mapCommand w2 w3 = (6, s)) ∧
      (∀ k, entValid (s.entryOf page) = false → (if w3.testBit 2 then ¬taken ∧ k = frame else s.freeFrame at_ = some k) →
        s.mapCommand w2 w3 = (0, s.backPage page (w2 % 64) at_ k (w3.testBit 0 || s.pkg.bring == .reduced)))) := by
  dsimp only
  have hrun : s.mapCommand w2 w3 =
      if s.isAdmin (w2 / 2 ^ 17 % 2 ^ 31) || !s.stackKnown (State.placeFor s w2 w3) then (4, s)
      else if entValid (s.entryOf (w2 / 2 ^ 17 % 2 ^ 31)) then (1, s)
      else if w3.testBit 2 && (s.frameReserved (State.placeFor s w2 w3) (w3 / 2 ^ 32 % 2 ^ 19) ||
        (s.usedFrames (State.placeFor s w2 w3)).contains (w3 / 2 ^ 32 % 2 ^ 19)) then (4, s)
      else match (if w3.testBit 2 then some (w3 / 2 ^ 32 % 2 ^ 19) else s.freeFrame (State.placeFor s w2 w3)) with
        | none => (6, s)
        | some f => (0, s.backPage (w2 / 2 ^ 17 % 2 ^ 31) (w2 % 64) (State.placeFor s w2 w3) f (w3.testBit 0 || s.pkg.bring == .reduced)) := rfl
  generalize State.placeFor s w2 w3 = at_ at hrun
  generalize w2 / 2 ^ 17 % 2 ^ 31 = page at hrun
  generalize w3 / 2 ^ 32 % 2 ^ 19 = frame at hrun
  refine ⟨fun h => hrun.trans (if_pos ?_), fun ha hk => ?_⟩
  · rw [Bool.or_eq_true, Bool.not_eq_true']
    exact h
  rw [if_neg (by rw [ha, hk]; decide)] at hrun
  refine ⟨fun hv => hrun.trans (if_pos hv), fun hv hn ht => ?_, fun hv hn hf => ?_, fun k hv hk => ?_⟩
  · rw [if_neg (by rw [hv]; decide)] at hrun
    refine hrun.trans (if_pos ?_)
    rw [hn, Bool.true_and, Bool.or_eq_true]
    exact ht
  · rw [if_neg (by rw [hv]; decide), hn, if_neg (by rw [Bool.false_and]; decide), if_neg (by decide), hf] at hrun
    exact hrun
  · rw [if_neg (by rw [hv]; decide)] at hrun
    cases hn : w3.testBit 2 with
    | false =>
      rw [hn, if_neg (by decide)] at hk
      rw [hn, if_neg (by rw [Bool.false_and]; decide), if_neg (by decide), hk] at hrun
      exact hrun
    | true =>
      rw [hn, if_pos rfl] at hk
      obtain ⟨ht, rfl⟩ := hk
      rw [hn, if_neg (by rw [Bool.true_and, Bool.or_eq_true]; exact ht), if_pos rfl] at hrun
      exact hrun

end

/-! ### Packets that start -/

theorem pump_unserved {s : State} {n : Nat} (h : s.serves n = false) : s.pump n = s := if_pos (by rw [h]; rfl)

section
variable {s : State} (h : s.Stands)
include h

theorem ctxCreate_stands : exec .ctxCreate s =
    let u := s.acceptPacket s.pkt
    .next (((if u.createStatus s.pkt.words = 0 then u.createContext s.pkt.words else u).endAdmin s.pkt.num 0 (u.createStatus s.pkt.words)).pump s.pkt.queue) := by
  have hrun := starting_stands h fun p s =>
    (if s.createStatus p.words = 0 then s.createContext p.words else s).endAdmin p.num 0 (s.createStatus p.words)
  obtain ⟨a, -, -, hle, -⟩ := h
  rw [exec_ctxCreate]
  unfold execCtxCreate
  rw [if_neg (show ¬128 ≤ s.pkt.queue by omega)]
  exact hrun

theorem ctxDestroy_here : exec .ctxDestroy s = s.onContext fun p n s => ((s.destroyContext n).tellMembers "CTX_DESTROY" p.words).endAdmin p.num 0 0 := by
  obtain ⟨a, -, -, hle, -⟩ := h
  exact if_neg (show ¬128 ≤ s.pkt.queue by omega)

theorem poolCommand_stands (page : Nat) (f : Packet → State → Nat × State) : s.poolCommand page f =
    let u := s.acceptPacket s.pkt
    .next ((if u.entryHere page then (f s.pkt u).2.endAdmin s.pkt.num 0 (f s.pkt u).1 else u.sendCommand s.pkt (u.hashHome page / 8)).pump s.pkt.queue) := by
  have hrun := starting_stands h fun p s =>
    if s.entryHere page then (f p s).2.endAdmin p.num 0 (f p s).1 else s.sendCommand p (s.hashHome page / 8)
  obtain ⟨a, -, -, hle, -⟩ := h
  unfold State.poolCommand
  rw [if_neg (show ¬128 ≤ s.pkt.queue by omega)]
  exact hrun

/-- What `POOL_UNMAP` comes to where the entry is kept: its status, and the pages after it. -/
def State.unmapCommand (page : Nat) (s : State) : Nat × State :=
  if s.isAdmin page then (4, s) else if entValid (s.entryOf page) then (0, s.releasePage page) else (0, s)

omit h in
theorem unmapCommand_admin {page : Nat} (ha : s.isAdmin page = true) : State.unmapCommand page s = (4, s) := if_pos ha

omit h in
theorem unmapCommand_valid {page : Nat} (ha : s.isAdmin page = false) (hv : entValid (s.entryOf page) = true) :
    State.unmapCommand page s = (0, s.releasePage page) := (if_neg (by rw [ha]; decide)).trans (if_pos hv)

omit h in
theorem unmapCommand_invalid {page : Nat} (ha : s.isAdmin page = false) (hv : entValid (s.entryOf page) = false) : State.unmapCommand page s = (0, s) :=
  (if_neg (by rw [ha]; decide)).trans (if_neg (by rw [hv]; decide))

theorem poolMap_stands : exec .poolMap s =
    let u := s.acceptPacket s.pkt
    let m := u.mapCommand (s.pkt.words.getD 2 0).toNat (s.pkt.words.getD 3 0).toNat
    .next ((if u.entryHere (pageNamed s.pkt) then m.2.endAdmin s.pkt.num 0 m.1 else u.sendCommand s.pkt (u.hashHome (pageNamed s.pkt) / 8)).pump s.pkt.queue) := by
  rw [exec_poolMap]
  exact poolCommand_stands h _ _

theorem poolUnmap_stands : exec .poolUnmap s =
    let u := s.acceptPacket s.pkt
    let m := State.unmapCommand (pageNamed s.pkt) u
    .next ((if u.entryHere (pageNamed s.pkt) then m.2.endAdmin s.pkt.num 0 m.1 else u.sendCommand s.pkt (u.hashHome (pageNamed s.pkt) / 8)).pump s.pkt.queue) := by
  rw [exec_poolUnmap]
  exact poolCommand_stands h _ _

theorem migrate_stands : exec .migrate s =
    let u := s.acceptPacket s.pkt
    .next ((if u.entryHere (pageNamed s.pkt) then u.migrateNow s.pkt false fun s' st => s'.endAdmin s.pkt.num 0 st
      else u.sendCommand s.pkt (u.hashHome (pageNamed s.pkt) / 8)).pump s.pkt.queue) := by
  have hrun := starting_stands h fun p s =>
    if s.entryHere (pageNamed p) then s.migrateNow p false fun s st => s.endAdmin p.num 0 st else s.sendCommand p (s.hashHome (pageNamed p) / 8)
  obtain ⟨a, ha, hs, hle, -⟩ := h
  rw [exec_migrate]
  unfold execMigrate
  dsimp only
  rw [if_neg (show ¬128 ≤ s.pkt.queue by omega), ha]
  exact (if_neg (by rw [hs]; decide)).trans hrun

theorem pages_elsewhere (hp : (s.acceptPacket s.pkt).entryHere (pageNamed s.pkt) = false) {i : Instr} (hi : i ∈ [Instr.poolMap, .poolUnmap, .migrate]) :
    exec i s = .next (((s.acceptPacket s.pkt).sendCommand s.pkt ((s.acceptPacket s.pkt).hashHome (pageNamed s.pkt) / 8)).pump s.pkt.queue) := by
  simp only [List.mem_cons, List.not_mem_nil, or_false] at hi
  rcases hi with rfl | rfl | rfl
  · rw [poolMap_stands h]
    dsimp only
    rw [if_neg (by rw [hp]; decide)]
  · rw [poolUnmap_stands h]
    dsimp only
    rw [if_neg (by rw [hp]; decide)]
  · rw [migrate_stands h]
    dsimp only
    rw [if_neg (by rw [hp]; decide)]

theorem eqCreate_stands : exec .eqCreate s =
    let u := s.acceptPacket s.pkt
    let desc := (s.pkt.words.getD 2 0).toNat
    let base := (s.pkt.words.getD 3 0).toNat
    let cap := (s.pkt.words.getD 4 0).toNat / 2 ^ 0 % 2 ^ 25
    let slot := (s.pkt.words.getD 4 0).toNat / 2 ^ 32 % 2 ^ 9
    .next ((if 2 ^ 48 ≤ desc ∨ 2 ^ 48 ≤ base ∨ desc % 256 ≠ 0 ∨ base % 256 ≠ 0 ∨ cap = 0 ∨ 2 ^ 24 < cap ∨ slot < 8 ∨ 256 < slot ∨ slot % 8 ≠ 0 then
        u.endAdmin s.pkt.num 0 4
      else match u.writeFail desc 256 with
        | some c => u.endAdmin s.pkt.num 0 (if c = 8 then 3 else 4)
        | none => (u.makeEdge desc (edgeLine base cap slot)).endAdmin s.pkt.num 0 0).pump s.pkt.queue) := by
  rw [exec_eqCreate]
  exact starting_stands h _

theorem tableBase_stands : exec .tableBase s =
    let u := s.acceptPacket s.pkt
    let k := (s.pkt.words.getD 2 0).toNat % 512
    .next ((if !u.homes.contains k ∨ (s.pkt.words.getD 3 0).toNat % 4096 ≠ 0 then u.endAdmin s.pkt.num 0 4
      else if k / 8 = u.self then (u.baseCommand s.pkt).2.endAdmin s.pkt.num 0 (u.baseCommand s.pkt).1
      else u.sendCommand s.pkt (k / 8)).pump s.pkt.queue) := by
  have hrun := starting_stands h fun p s =>
    let k := (p.words.getD 2 0).toNat % 512
    if !s.homes.contains k ∨ (p.words.getD 3 0).toNat % 4096 ≠ 0 then s.endAdmin p.num 0 4
    else if k / 8 = s.self then (s.baseCommand p).2.endAdmin p.num 0 (s.baseCommand p).1
    else s.sendCommand p (k / 8)
  obtain ⟨a, -, -, hle, -⟩ := h
  rw [exec_tableBase]
  unfold execTableBase
  rw [if_neg (show ¬128 ≤ s.pkt.queue by omega)]
  exact hrun

theorem patchStage_stands : exec .patchStage s =
    let u := s.acceptPacket s.pkt
    let a := (s.pkt.words.getD 2 0).toNat
    let n := (s.pkt.words.getD 3 0).toNat % 2 ^ 32
    .next ((if a % 256 ≠ 0 ∨ 2 ^ 48 < a + n then u.endAdmin s.pkt.num 0 4
      else match u.runFail a n with
        | some c => u.endAdmin s.pkt.num 0 (if c = 8 then 3 else 4)
        | none => (u.stagePatch (u.poolRead a n)).2.endAdmin s.pkt.num 0 (if (u.stagePatch (u.poolRead a n)).1 then 0 else 5)).pump s.pkt.queue) := by
  rw [exec_patchStage]
  exact starting_stands h _

theorem attest_stands : exec .attest s =
    let u := s.acceptPacket s.pkt
    let a := (s.pkt.words.getD 2 0).toNat
    .next ((if a % 256 ≠ 0 ∨ 2 ^ 48 < a + 128 + sigLen then u.endAdmin s.pkt.num 0 4
      else (u.askReport (s.pkt.num + 1) (s.pkt.words.drop 2)).getD (u.endAdmin s.pkt.num 0 1)).pump s.pkt.queue) := by
  rw [exec_attest]
  exact starting_stands h _

theorem pairBind_stands : exec .pairBind s =
    let u := s.acceptPacket s.pkt
    let n := (s.pkt.words.getD 2 0).toNat % 64
    .next ((if n / 4 = u.self / 4 ∨ !u.inDomain n then u.endAdmin s.pkt.num 0 4
      else ({ u with owl := { u.owl with partner := some n } } : State).endAdmin s.pkt.num 0 0).pump s.pkt.queue) := by
  rw [exec_pairBind]
  exact starting_stands h _

theorem owlRestart_stands : exec .owlRestart s = .next (s.acceptPacket s.pkt).beginRestart := by
  rw [exec_owlRestart]
  exact (starting_stands h _).trans (congrArg Host.Outcome.next (pump_unserved rfl))

end

section
variable {s : State}

theorem edgeLine_eq (base cap slot : Nat) : edgeLine base cap slot =
    bytesOf 8 base ++ bytesOf 4 cap ++ bytesOf 2 slot ++ List.replicate 18 0 ++ bytesOf 4 cap ++ List.replicate 220 0 := by
  have h18 : bytesOf 2 0 ++ bytesOf 8 0 ++ bytesOf 8 0 = List.replicate 18 0 := by decide
  have h220 : bytesOf 4 0 ++ List.replicate 216 0 = List.replicate 220 0 := List.replicate_append_replicate (n := 4)
  unfold edgeLine
  rw [← h18, ← h220]
  simp only [List.append_assoc]

theorem mem_makeEdge (desc : Nat) (bs : List Byte) : desc ∈ (s.makeEdge desc bs).edges := by
  unfold State.makeEdge
  dsimp only
  split
  next h => exact List.contains_iff_mem.mp h
  · exact List.mem_cons_self ..

/-- The frame that another package's home agent has taken, so far as this package knows. -/
def State.farFrame (s : State) (w3 : Nat) : Nat := if w3.testBit 2 then w3 / 2 ^ 32 % 2 ^ 19 else (Config.freeValue s.free).toNat % 2 ^ 19

theorem farDone_map {p : Packet} (h0 : (p.words.getD 0 0).toNat % 256 = 0x43) : s.farDone p =
    ({ s with free := s.free + 1 } : State).backPage (pageNamed p) ((p.words.getD 2 0).toNat % 64)
      (if (p.words.getD 3 0).toNat.testBit 1 then (p.words.getD 3 0).toNat / 2 ^ 8 % 512 else s.hashHome (pageNamed p))
      (State.farFrame s (p.words.getD 3 0).toNat) ((p.words.getD 3 0).toNat.testBit 0) := by
  unfold State.farDone
  dsimp only
  split
  next => rfl
  next h => exact absurd (h0.symm.trans h) (by decide)
  next h => exact absurd (h0.symm.trans h) (by decide)
  next h _ _ => exact absurd h0 h

theorem farDone_unmapped {p : Packet} (h0 : (p.words.getD 0 0).toNat % 256 = 0x44) :
    s.farDone p = if entValid (s.entryOf (pageNamed p)) then s.releasePage (pageNamed p) else s := by
  unfold State.farDone
  dsimp only
  split
  next h => exact absurd (h0.symm.trans h) (by decide)
  next => rfl
  next h => exact absurd (h0.symm.trans h) (by decide)
  next _ h _ => exact absurd h0 h

end

/-! ### Requests of another package's Owl -/

section
variable {s : State} {from_ : Nat}

theorem queueCode {q k : Nat} (h : q = k + from_) (hk : k = 128 ∨ k = 192) (hf : from_ < 64) : 128 ≤ q ∧ q % 64 = from_ := by omega

theorem poolCommand_far (hq : s.pkt.queue = 128 + from_) (page : Nat) (f : Packet → State → Nat × State) : s.poolCommand page f =
    .next ((f s.pkt s).2.tell from_ "POOL_COMMAND_COMPLETION" [w64 s.pkt.num, w64 (f s.pkt s).1]) := by
  have h128 : 128 ≤ s.pkt.queue := by omega
  have hsub : s.pkt.queue - 128 = from_ := by omega
  unfold State.poolCommand
  rw [if_pos h128, hsub]

theorem migrate_far (hq : 128 ≤ s.pkt.queue) : exec .migrate s =
    .next (s.migrateNow s.pkt (decide (192 ≤ s.pkt.queue)) fun s' st =>
      s'.tell (s.pkt.queue % 64) "POOL_COMMAND_COMPLETION" [w64 s.pkt.num, w64 st]) := if_pos hq

theorem migrateNow_begun (p : Packet) (end_ : State → Nat → State) : s.migrateNow p true end_ =
    if s.moves.any fun m => m.page == pageNamed p then s.later 64 (.packet p) .migrate
    else end_ s (if entHome (s.entryOf (pageNamed p)) = stackNamed p then 0 else 3) := rfl

theorem migrateNow_new (p : Packet) (end_ : State → Nat → State) : s.migrateNow p false end_ =
    if s.moveStatus (pageNamed p) (stackNamed p) ≠ 0 then end_ s (s.moveStatus (pageNamed p) (stackNamed p))
    else (s.soon .none (.pageMoveStart (pageNamed p) (stackNamed p) false)).later 1
      (.packet { p with queue := if p.queue = 64 then 64 else p.queue + 64 }) .migrate := rfl

theorem moving_iff (page : Nat) : (s.moves.any fun m => m.page == page) = true ↔ ∃ m ∈ s.moves, m.page = page := by
  rw [List.any_eq_true]
  exact exists_congr fun m => and_congr_right fun _ => beq_iff_eq

/-- A move begun, and one that has ended or been refused. -/
theorem migrateNow_moving {p : Packet} {end_ : State → Nat → State} (h : ∃ m ∈ s.moves, m.page = pageNamed p) :
    s.migrateNow p true end_ = s.later 64 (.packet p) .migrate := (migrateNow_begun ..).trans (if_pos ((moving_iff _).mpr h))

theorem migrateNow_moved {p : Packet} {end_ : State → Nat → State} (h : ∀ m ∈ s.moves, m.page ≠ pageNamed p) :
    s.migrateNow p true end_ = end_ s (if entHome (s.entryOf (pageNamed p)) = stackNamed p then 0 else 3) :=
  (migrateNow_begun ..).trans (if_neg fun hm => by
    obtain ⟨m, hm, hp⟩ := (moving_iff _).mp hm
    exact h m hm hp)

theorem migrate_started {a : Accepted} (ha : s.entryOfPacket s.pkt = some a) (hs : a.started = true) (hr : a.result = none) (hq : s.pkt.queue = 64) :
    exec .migrate s = .next (s.migrateNow s.pkt true fun s' st => s'.endAdmin s.pkt.num 0 st) := by
  rw [exec_migrate]
  unfold execMigrate
  dsimp only
  rw [if_neg (show ¬128 ≤ s.pkt.queue by omega), ha]
  exact (if_pos hs).trans (if_neg (by rw [hr]; decide))

end

/-! ### Restarts and reports -/

section
variable {s t : State}

/-- What is read of the Owl beside its interrupts and what waits for its restart's end. -/
def warden (s : State) : Owl := { s.owl with pba := [], plic := [], adminWait := none }

theorem warden_of_estate (h : estate t = estate s) : warden t = warden s :=
  congrArg (fun o : Owl => { o with adminWait := none }) (estate_state h (fun s => { s.owl with pba := [], plic := [] }) fun _ => rfl)

theorem warden_read (h : warden t = warden s) {α : Type} (f : Owl → α) (hf : ∀ o : Owl, f { o with pba := [], plic := [], adminWait := none } = f o) :
    f t.owl = f s.owl := by
  rw [← hf t.owl, ← hf s.owl]
  exact congrArg f h

theorem warden_foldl {α : Type} {f : State → α → State} (h : ∀ s x, warden (f s x) = warden s) (l : List α) : warden (l.foldl f s) = warden s :=
  foldl_kept warden h l

theorem warden_reread (n : Nat) : warden (s.reread n) = warden s := by
  unfold State.reread
  by_cases hf : (s.owlFail (s.queueAt n).qcb.toNat).isSome = true
  · rw [if_pos hf]
  · rw [if_neg hf]
    exact warden_of_estate (estate_modQcb n _)

theorem warden_endRestarts : warden s.endRestarts = warden s :=
  warden_foldl (fun _ _ => warden_of_estate (estate_endAdmin ..)) _

theorem warden_modLaunch (n : Nat) (f : Launch → Launch) : warden (s.modLaunch n f) = warden s := by
  unfold State.modLaunch
  split <;> rfl

theorem warden_wakeContext (n : Nat) : warden (s.wakeContext n) = warden s := by
  have hsoon (u : State) (j : Subject) (e : Instr) : warden (u.soon j e) = warden u := rfl
  have hresplit : warden (s.resplit n) = warden s := by
    unfold State.resplit
    refine warden_foldl (fun u p => ?_) _
    split
    · exact (warden_foldl (fun v _ => hsoon v _ _) _).trans (warden_modLaunch ..)
    · rfl
  unfold State.wakeContext State.kick
  exact (warden_foldl (fun u _ => hsoon u _ _) _).trans ((warden_foldl (fun u _ => hsoon u _ _) _).trans hresplit)

theorem warden_takeAdmin : warden s.takeAdmin = warden s := by
  unfold State.takeAdmin
  split
  next w hw =>
    obtain ⟨-, -, -, howl⟩ := createAdminWith_queue (s := { s with owl := { s.owl with adminWait := none } }) w.1 w.2
    unfold warden
    rw [howl]
  · rfl

/-- The Owl as it runs again: a staged image is in force, or the patches are reloaded (R109). -/
def Owl.again (o : Owl) : Owl :=
  match o.staged.or o.patch with
  | some bs => Owl.load { o with state := 1, staged := none } bs
  | none => { o with state := 1, staged := none }

theorem exec_owlRestartDone_restarting (h : s.owl.state = 2) : ∃ t, exec .owlRestartDone s = .next t ∧ warden t = warden { s with owl := Owl.again s.owl } := by
  let s1 : State := { s with owl := Owl.again s.owl }
  let ns := (List.range 65).filter fun n => (s1.queueAt n).log2 != 0 && (n == 64 || ((s1.ctxAt n).used && (s1.ctxAt n).root == s.self))
  let s3 := (ns.foldl State.reread s1).endRestarts
  refine ⟨(ns.foldl (fun (s : State) n => ((s.wakeContext n).nudge n).ring n) s3).takeAdmin, if_neg (by rw [h]; decide), ?_⟩
  rw [warden_takeAdmin]
  refine (warden_foldl (fun u n => ?_) _).trans (warden_endRestarts.trans (warden_foldl (fun _ n => warden_reread n) _))
  exact (warden_of_estate ((estate_ring n).trans (estate_nudge n))).trans (warden_wakeContext n)

theorem again_spec (o : Owl) : (Owl.again o).state = 1 ∧ (Owl.again o).staged = none ∧
    ∀ bs, o.staged = some bs → (Owl.again o).patch = some bs ∧ (Owl.again o).fuses = max o.fuses (patchSecver bs) := by
  unfold Owl.again
  refine ⟨?_, ?_, fun bs hbs => ?_⟩
  · split <;> rfl
  · split <;> rfl
  · rw [hbs]
    exact ⟨rfl, rfl⟩

/-- The next report is begun, where one waits. -/
theorem attests_next {k : Nat} {bs : List Byte} {rest : List (Nat × List W64)} {u : State} (ha : u.owl.attests = rest)
    (ho : k = 0 → .reply "ATTESTATION" bs ∈ u.out) : ∃ t, Host.Outcome.next (φ := Fault) (ρ := Refusal)
      (if rest.isEmpty then u else u.offCore .none .attestSigned) = .next t ∧ t.owl.attests = rest ∧ (k = 0 → .reply "ATTESTATION" bs ∈ t.out) := by
  refine ⟨_, rfl, ?_⟩
  split
  · exact ⟨ha, ho⟩
  · exact ⟨ha, ho⟩

theorem estate_agentWrite (a : Nat) (bs : List Byte) : estate (s.agentWrite a bs) = estate s := by
  unfold State.agentWrite
  refine estate_of_house (house_of_outer ?_)
  rw [outer_nearLines, outer_clearLost, outer_poolWrite]

theorem exec_attestSigned_oldest {k : Nat} {xs : List W64} {rest : List (Nat × List W64)} (ha : s.owl.attests = (k, xs) :: rest) :
    ∃ t, exec .attestSigned s = .next t ∧ t.owl.attests = rest ∧ (k = 0 → .reply "ATTESTATION" (s.report (xs.drop 1)) ∈ t.out) := by
  have hread {u : State} (hu : estate u = estate { s with owl := { s.owl with attests := rest } }) : u.owl.attests = rest :=
    estate_state hu (fun s => s.owl.attests) fun _ => rfl
  rw [exec_attestSigned]
  unfold execAttestSigned
  split
  next hn => exact absurd (ha.symm.trans hn) nofun
  next k' ws' rest' hc =>
    have hcons := ha.symm.trans hc
    rw [List.cons.injEq, Prod.mk.injEq] at hcons
    obtain ⟨⟨rfl, rfl⟩, rfl⟩ := hcons
    generalize s.report (xs.drop 1) = bs
    dsimp only
    refine attests_next ?_ fun h0 => ?_
    · split
      · exact hread (estate_emit _)
      · split
        · exact hread (estate_endAdmin ..)
        · exact hread ((estate_endAdmin ..).trans (estate_agentWrite ..))
    · rw [if_pos h0]
      exact mem_emit _

theorem exec_owlWatchdog_again (h : s.owl.state = 1) (hn : (s.now :: s.owl.restartTimes.filter fun x => decide (s.now < x + 800000000)).length < 3) :
    exec .owlWatchdog s = .next (({ s with owl := { s.owl with restartTimes := s.now :: s.owl.restartTimes.filter fun x => decide (s.now < x + 800000000) } } :
      State).beginRestart) :=
  (if_neg (by rw [h]; decide)).trans (if_pos hn)

theorem exec_owlWatchdog_third (h : s.owl.state = 1) (hn : 3 ≤ (s.now :: s.owl.restartTimes.filter fun x => decide (s.now < x + 800000000)).length) :
    ∃ t, exec .owlWatchdog s = .next t ∧ t.owl.state = 3 ∧ .mgmt "OWL_FAILED" 0 ∈ t.out := by
  let o : Owl := { s.owl with restartTimes := s.now :: s.owl.restartTimes.filter fun x => decide (s.now < x + 800000000) }
  let s2 := ({ s with owl := { o with state := 3, restarts := if s.owl.restarts.toNat = 255 then s.owl.restarts else s.owl.restarts + 1 } } : State).emit
    (.mgmt "OWL_FAILED" 0)
  let mine := (List.range 64).filter fun c => (s.ctxAt c).used && (s.ctxAt c).root == s.self && (s.ctxAt c).standby == 64
  have hest : estate (mine.foldl (fun s c => s.stopQueue c 0x101 0) s2) = estate s2 := estate_foldl (fun _ _ => estate_stopQueue ..) _
  refine ⟨mine.foldl (fun s c => s.stopQueue c 0x101 0) s2, (if_neg (by rw [h]; decide)).trans (if_neg (not_lt.mpr hn)), ?_, ?_⟩
  · exact estate_state hest (fun s => s.owl.state) fun _ => rfl
  · exact (Onward.foldl (fun _ _ => onward_stopQueue ..) _ _).said (mem_emit _)

end

/-! ### The obligation -/

section
variable {s : State} (h : s.Stands)
include h

theorem ctxCreate_ends : let u := s.acceptPacket s.pkt
    (u.createStatus s.pkt.words ≠ 0 → exec .ctxCreate s = .next ((u.endAdmin s.pkt.num 0 (u.createStatus s.pkt.words)).pump s.pkt.queue)) ∧
    (u.createStatus s.pkt.words = 0 → exec .ctxCreate s = .next (((u.createContext s.pkt.words).endAdmin s.pkt.num 0 0).pump s.pkt.queue)) := by
  dsimp only
  rw [ctxCreate_stands h]
  dsimp only
  exact ⟨fun hn => by rw [if_neg hn], fun h0 => by rw [if_pos h0, h0]⟩

theorem poolMap_ends (he : (s.acceptPacket s.pkt).entryHere (pageNamed s.pkt) = true) : exec .poolMap s =
    let m := (s.acceptPacket s.pkt).mapCommand (s.pkt.words.getD 2 0).toNat (s.pkt.words.getD 3 0).toNat
    .next ((m.2.endAdmin s.pkt.num 0 m.1).pump s.pkt.queue) := by
  rw [poolMap_stands h]
  dsimp only
  rw [if_pos he]

theorem poolUnmap_ends (he : (s.acceptPacket s.pkt).entryHere (pageNamed s.pkt) = true) : exec .poolUnmap s =
    let m := State.unmapCommand (pageNamed s.pkt) (s.acceptPacket s.pkt)
    .next ((m.2.endAdmin s.pkt.num 0 m.1).pump s.pkt.queue) := by
  rw [poolUnmap_stands h]
  dsimp only
  rw [if_pos he]

theorem unmap_ends (he : (s.acceptPacket s.pkt).entryHere (pageNamed s.pkt) = true) : let u := s.acceptPacket s.pkt
    let page := pageNamed s.pkt
    (u.isAdmin page = false →
      (entValid (u.entryOf page) = true → exec .poolUnmap s = .next (((u.releasePage page).endAdmin s.pkt.num 0 0).pump s.pkt.queue)) ∧
      (entValid (u.entryOf page) = false → exec .poolUnmap s = .next ((u.endAdmin s.pkt.num 0 0).pump s.pkt.queue))) ∧
    (u.isAdmin page = true → exec .poolUnmap s = .next ((u.endAdmin s.pkt.num 0 4).pump s.pkt.queue)) := by
  have hrun := poolUnmap_ends h he
  dsimp only at hrun ⊢
  exact ⟨fun ha => ⟨fun hv => by rw [hrun, unmapCommand_valid ha hv], fun hv => by rw [hrun, unmapCommand_invalid ha hv]⟩,
    fun ha => by rw [hrun, unmapCommand_admin ha]⟩

theorem migrate_ends (he : (s.acceptPacket s.pkt).entryHere (pageNamed s.pkt) = true) : let u := s.acceptPacket s.pkt
    (u.moveStatus (pageNamed s.pkt) (stackNamed s.pkt) ≠ 0 →
      exec .migrate s = .next ((u.endAdmin s.pkt.num 0 (u.moveStatus (pageNamed s.pkt) (stackNamed s.pkt))).pump s.pkt.queue)) ∧
    (u.moveStatus (pageNamed s.pkt) (stackNamed s.pkt) = 0 → s.pkt.queue = 64 → exec .migrate s =
      .next (((u.soon .none (.pageMoveStart (pageNamed s.pkt) (stackNamed s.pkt) false)).later 1 (.packet s.pkt) .migrate).pump s.pkt.queue)) := by
  dsimp only
  rw [migrate_stands h]
  dsimp only
  rw [if_pos he, migrateNow_new]
  refine ⟨fun hn => by rw [if_pos hn], fun h0 hq => ?_⟩
  rw [if_neg (not_not.mpr h0), if_pos hq, ← hq]

theorem eqCreate_ends : let u := s.acceptPacket s.pkt
    let desc := (s.pkt.words.getD 2 0).toNat
    let base := (s.pkt.words.getD 3 0).toNat
    let cap := (s.pkt.words.getD 4 0).toNat % 2 ^ 25
    let slot := (s.pkt.words.getD 4 0).toNat / 2 ^ 32 % 512
    let good := desc < 2 ^ 48 ∧ base < 2 ^ 48 ∧ desc % 256 = 0 ∧ base % 256 = 0 ∧ 0 < cap ∧ cap ≤ 2 ^ 24 ∧ 8 ≤ slot ∧ slot ≤ 256 ∧ slot % 8 = 0
    (¬good → exec .eqCreate s = .next ((u.endAdmin s.pkt.num 0 4).pump s.pkt.queue)) ∧
    (∀ c, good → u.writeFail desc 256 = some c → exec .eqCreate s = .next ((u.endAdmin s.pkt.num 0 (if c = 8 then 3 else 4)).pump s.pkt.queue)) ∧
    (good → u.writeFail desc 256 = none →
      exec .eqCreate s = .next (((u.makeEdge desc (edgeLine base cap slot)).endAdmin s.pkt.num 0 0).pump s.pkt.queue)) := by
  have hrun := eqCreate_stands h
  rw [pow_zero, Nat.div_one] at hrun
  dsimp only at hrun ⊢
  generalize (s.pkt.words.getD 2 0).toNat = desc at hrun
  generalize (s.pkt.words.getD 3 0).toNat = base at hrun
  generalize (s.pkt.words.getD 4 0).toNat / 2 ^ 32 = high at hrun
  rw [show high % 2 ^ 9 = high % 512 from rfl] at hrun
  generalize (s.pkt.words.getD 4 0).toNat % 2 ^ 25 = cap at hrun
  generalize high % 512 = slot at hrun
  refine ⟨fun hg => ?_, fun c hg hf => ?_, fun hg hf => ?_⟩
  · rw [if_pos (by omega)] at hrun
    exact hrun
  · rw [if_neg (by omega), hf] at hrun
    exact hrun
  · rw [if_neg (by omega), hf] at hrun
    exact hrun

theorem tableBase_ends : let u := s.acceptPacket s.pkt
    let k := (s.pkt.words.getD 2 0).toNat % 512
    let w3 := (s.pkt.words.getD 3 0).toNat
    (u.homes.contains k = false ∨ w3 % 4096 ≠ 0 → exec .tableBase s = .next ((u.endAdmin s.pkt.num 0 4).pump s.pkt.queue)) ∧
    (u.homes.contains k = true → w3 % 4096 = 0 → k / 8 = s.self →
      ((u.ind.any fun e => entValid e.2 && u.hashHome e.1 == k) = true → exec .tableBase s = .next ((u.endAdmin s.pkt.num 0 1).pump s.pkt.queue)) ∧
      ((u.ind.any fun e => entValid e.2 && u.hashHome e.1 == k) = false →
        exec .tableBase s = .next ((({ u with tableBase := tset u.tableBase k (s.pkt.words.getD 3 0) } : State).endAdmin s.pkt.num 0 0).pump s.pkt.queue))) ∧
    (u.homes.contains k = true → w3 % 4096 = 0 → k / 8 ≠ s.self → exec .tableBase s = .next ((u.sendCommand s.pkt (k / 8)).pump s.pkt.queue)) := by
  have hrun := tableBase_stands h
  have hself : (s.acceptPacket s.pkt).self = s.self := self_acceptPacket _
  dsimp only at hrun ⊢
  rw [hself] at hrun
  refine ⟨fun hb => ?_, fun hc hw hk => ?_, fun hc hw hk => ?_⟩
  · rw [if_pos (by rw [Bool.not_eq_true']; exact hb)] at hrun
    exact hrun
  · rw [if_neg (by rw [hc, hw]; decide), if_pos hk] at hrun
    refine ⟨fun hb => hrun.trans ?_, fun hb => hrun.trans ?_⟩
    · rw [show (s.acceptPacket s.pkt).baseCommand s.pkt = (1, s.acceptPacket s.pkt) from if_pos hb]
    · rw [show (s.acceptPacket s.pkt).baseCommand s.pkt = (0, _) from if_neg (by rw [hb]; decide)]
  · rw [if_neg (by rw [hc, hw]; decide), if_neg hk] at hrun
    exact hrun

theorem patchStage_ends : let u := s.acceptPacket s.pkt
    let a := (s.pkt.words.getD 2 0).toNat
    let len := (s.pkt.words.getD 3 0).toNat % 2 ^ 32
    (a % 256 ≠ 0 ∨ 2 ^ 48 < a + len → exec .patchStage s = .next ((u.endAdmin s.pkt.num 0 4).pump s.pkt.queue)) ∧
    (∀ c, a % 256 = 0 → a + len ≤ 2 ^ 48 → u.runFail a len = some c →
      exec .patchStage s = .next ((u.endAdmin s.pkt.num 0 (if c = 8 then 3 else 4)).pump s.pkt.queue)) ∧
    (a % 256 = 0 → a + len ≤ 2 ^ 48 → u.runFail a len = none →
      (patchVerifies u.owl.fuses (u.poolRead a len) = true → exec .patchStage s =
        .next ((({ u with owl := { u.owl with staged := some (u.poolRead a len) } } : State).endAdmin s.pkt.num 0 0).pump s.pkt.queue)) ∧
      (patchVerifies u.owl.fuses (u.poolRead a len) = false → exec .patchStage s =
        .next ((({ u with owl := { u.owl with patchrej := true } } : State).endAdmin s.pkt.num 0 5).pump s.pkt.queue))) := by
  have hrun := patchStage_stands h
  dsimp only at hrun ⊢
  generalize (s.pkt.words.getD 2 0).toNat = a at hrun
  generalize (s.pkt.words.getD 3 0).toNat % 2 ^ 32 = len at hrun
  refine ⟨fun hb => ?_, fun c ha hl hf => ?_, fun ha hl hf => ?_⟩
  · rw [if_pos hb] at hrun
    exact hrun
  · rw [if_neg (by omega), hf] at hrun
    exact hrun
  · rw [if_neg (by omega), hf] at hrun
    refine ⟨fun hv => hrun.trans ?_, fun hv => hrun.trans ?_⟩
    · dsimp only
      rw [show (s.acceptPacket s.pkt).stagePatch ((s.acceptPacket s.pkt).poolRead a len) = (true, _) from if_pos hv]
      rfl
    · dsimp only
      rw [show (s.acceptPacket s.pkt).stagePatch ((s.acceptPacket s.pkt).poolRead a len) = (false, _) from if_neg (by rw [hv]; decide)]
      rfl

theorem attest_ends : let u := s.acceptPacket s.pkt
    let a := (s.pkt.words.getD 2 0).toNat
    (a % 256 ≠ 0 ∨ 2 ^ 48 < a + 29920 → exec .attest s = .next ((u.endAdmin s.pkt.num 0 4).pump s.pkt.queue)) ∧
    (a % 256 = 0 → a + 29920 ≤ 2 ^ 48 →
      (5 ≤ u.owl.attests.length → exec .attest s = .next ((u.endAdmin s.pkt.num 0 1).pump s.pkt.queue)) ∧
      (u.owl.attests.length < 5 → ∃ t : State, exec .attest s = .next (t.pump s.pkt.queue) ∧
        t.owl.attests = u.owl.attests ++ [(s.pkt.num + 1, s.pkt.words.drop 2)] ∧ t.mem = u.mem ∧
        (u.owl.attests = [] → ∃ x ∈ t.agenda, s.now < x.time ∧ x.ev = .attestSigned))) := by
  have hrun := attest_stands h
  have hlen (a : Nat) : a + 128 + sigLen = a + 29920 := by
    unfold sigLen
    omega
  have hnow : (s.acceptPacket s.pkt).now = s.now := house_state (house_modQcb ..) State.now fun _ => rfl
  dsimp only at hrun ⊢
  rw [hlen] at hrun
  refine ⟨fun hb => ?_, fun ha hl => ⟨fun hf => ?_, fun hf => ?_⟩⟩
  · rw [if_pos hb] at hrun
    exact hrun
  · rw [if_neg (not_or.mpr ⟨not_not.mpr ha, not_lt.mpr hl⟩), askReport_full _ _ hf] at hrun
    exact hrun
  · obtain ⟨t, ht, hatt, hmem, hdue⟩ := askReport_wait (s.pkt.num + 1) (s.pkt.words.drop 2) hf
    rw [if_neg (not_or.mpr ⟨not_not.mpr ha, not_lt.mpr hl⟩), ht] at hrun
    exact ⟨t, hrun, hatt, hmem, fun he => hnow ▸ hdue he⟩

theorem pairBind_ends : let u := s.acceptPacket s.pkt
    let n := (s.pkt.words.getD 2 0).toNat % 64
    (n / 4 = s.self / 4 ∨ u.inDomain n = false → exec .pairBind s = .next ((u.endAdmin s.pkt.num 0 4).pump s.pkt.queue)) ∧
    (n / 4 ≠ s.self / 4 → u.inDomain n = true →
      exec .pairBind s = .next ((({ u with owl := { u.owl with partner := some n } } : State).endAdmin s.pkt.num 0 0).pump s.pkt.queue)) := by
  have hrun := pairBind_stands h
  have hself : (s.acceptPacket s.pkt).self = s.self := self_acceptPacket _
  dsimp only at hrun ⊢
  rw [hself] at hrun
  refine ⟨fun hb => ?_, fun hn hd => ?_⟩
  · rw [if_pos (by rw [Bool.not_eq_true']; exact hb)] at hrun
    exact hrun
  · rw [if_neg (by rw [hd, Bool.not_true]; exact fun hc => hc.elim hn Bool.false_ne_true)] at hrun
    exact hrun

end

/-- Settles O55: each packet and event by its own lemma. -/
theorem adminPackets : Obligations.AdminPackets := by
  intro s status from_ p num ws u w ctx page stack ends restarted
  refine ⟨fun a st v ha hn => endAdmin_only v st ha hn, fun h => ?_, fun hq hf => ?_, fun hq hf => ?_, fun a ha hs hr hq => ?_, fun h0 ha => ?_,
    fun h0 => farDone_unmapped h0, fun k xs rest ha => exec_attestSigned_oldest ha, fun ho hn => ?_, fun ho hn => exec_owlWatchdog_third ho hn, fun ho => ?_⟩
  · refine ⟨head_acceptPacket p, (ctxCreate_ends h).1, (ctxCreate_ends h).2, ?_, fun hr => ?_, fun hu hr => ?_, ?_, fun he i hi => pages_elsewhere h he hi,
      fun he => poolMap_ends h he, ?_, fun he => (unmap_ends h he).1, fun he => (unmap_ends h he).2,
      fun he => (migrate_ends h he).1, fun he => (migrate_ends h he).2,
      ?_, tableBase_ends h, patchStage_ends h, ?_, (attest_ends h).1, (attest_ends h).2, pairBind_ends h⟩
    · obtain ⟨h1, h2, h3, h4, h5, h6, h7⟩ := ctxAt_createContext (s := u) ws
      exact ⟨h1, h2, h3, h4, h5, h6.trans (self_acceptPacket p), h7⟩
    · exact (ctxDestroy_here h).trans (onContext_foreign h _ rfl hr)
    · exact (ctxDestroy_here h).trans (onContext_rooted h _ rfl hu hr)
    · exact ctxAt_releaseContext ..
    · obtain ⟨hrefused, hrest⟩ := mapCommand_spec (s := u) (w 2) (w 3)
      refine ⟨hrefused, fun ha hk => ?_⟩
      obtain ⟨hvalid, htaken, hfull, hmap⟩ := hrest ha hk
      refine ⟨hvalid, htaken, hfull, fun k hv hfr => ?_⟩
      have hm := hmap k hv hfr
      refine ⟨congrArg Prod.fst hm, ?_, congrArg (fun m : Nat × State => m.2.dir) hm⟩
      exact (congrArg (fun m : Nat × State => m.2.entryOf page) hm).trans (entryOf_backPage ha ..)
    · obtain ⟨hbad, hfail, hgood⟩ := eqCreate_ends h
      refine ⟨hbad, hfail, fun hg hn => ?_⟩
      have hrun := hgood hg hn
      rw [edgeLine_eq] at hrun
      exact ⟨hrun, mem_makeEdge ..⟩
    · obtain ⟨hstate, hcount, hdue, -, -⟩ := beginRestart_spec (s := u)
      have howl : u.owl.restarts = s.owl.restarts := owl_of_house (house_modQcb ..) Owl.restarts fun _ => rfl
      have hnow : u.now = s.now := house_state (house_modQcb ..) State.now fun _ => rfl
      rw [howl] at hcount
      rw [hnow] at hdue
      exact ⟨_, owlRestart_stands h, hstate, hcount, hdue⟩
  · have hq' : s.pkt.queue = 128 + from_ := hq
    obtain ⟨h128, hmod⟩ := queueCode hq' (.inl rfl) hf
    have hnew : decide (192 ≤ s.pkt.queue) = false := decide_eq_false (by omega)
    have hmig := migrate_far (s := s) h128
    rw [hnew, migrateNow_new, hmod] at hmig
    refine ⟨poolCommand_far hq' _ _, ?_, ?_, fun hm => hmig.trans (congrArg _ (if_pos hm)), fun hm => ?_, ?_, ?_⟩
    · refine (poolCommand_far hq' _ fun p s => State.unmapCommand (pageNamed p) s).trans ?_
      unfold State.unmapCommand
      dsimp only
      by_cases ha : s.isAdmin (pageNamed s.pkt) = true
      · rw [if_pos ha]
        exact congrArg _ (if_pos ha).symm
      · rw [if_neg ha]
        refine (congrArg _ ((if_neg ha).trans ?_)).symm
        by_cases hv : entValid (s.entryOf (pageNamed s.pkt)) = true
        · rw [if_pos hv]
          exact if_pos hv
        · rw [if_neg hv]
          exact if_neg hv
    · refine (if_pos h128).trans ?_
      have hfrom : s.pkt.queue - 128 = from_ := by omega
      exact congrArg (fun n => Host.Outcome.next ((s.baseCommand s.pkt).2.tell n "POOL_COMMAND_COMPLETION" [w64 s.pkt.num, w64 (s.baseCommand s.pkt).1])) hfrom
    · refine hmig.trans ((congrArg _ (if_neg (not_not.mpr hm))).trans ?_)
      rw [if_neg (show ¬s.pkt.queue = 64 by omega), show s.pkt.queue + 64 = 192 + from_ by omega]
      rfl
    · refine ⟨_, if_pos h128, ?_⟩
      rw [show s.pkt.queue - 128 = from_ by omega]
      exact joinContext_spec from_ ws
    · exact ⟨_, if_pos h128, ctxAt_releaseContext ..⟩
  · have hq' : s.pkt.queue = 192 + from_ := hq
    obtain ⟨h128, hmod⟩ := queueCode hq' (.inr rfl) hf
    have hbegun : decide (192 ≤ s.pkt.queue) = true := decide_eq_true (by omega)
    have hmig := migrate_far (s := s) h128
    rw [hbegun, hmod] at hmig
    refine ⟨fun hm => hmig.trans (congrArg _ (migrateNow_moving hm)), fun hm => hmig.trans ((congrArg _ (migrateNow_moved hm)).trans ?_)⟩
    have hst : w64 (if entHome (s.entryOf page) = stack then 0 else 3) = if entHome (s.entryOf page) = stack then 0 else 3 := by split <;> rfl
    exact congrArg (fun x => Host.Outcome.next (s.tell from_ "POOL_COMMAND_COMPLETION" [w64 num, x])) hst
  · have hmig := migrate_started ha hs hr hq
    refine ⟨fun hm => hmig.trans (congrArg _ (migrateNow_moving hm)), fun hm => hmig.trans (congrArg _ (migrateNow_moved hm)), ?_⟩
    rw [exec_poolCommandCompletion]
    unfold execPoolCommandCompletion
    rw [show s.entryOfPacket s.pkt = some a from ha]
    refine if_pos ?_
    rw [hs, hr, show s.pkt.queue = 64 from hq]
    rfl
  · refine ⟨State.farFrame s (w 3), ?_⟩
    rw [farDone_map h0]
    exact entryOf_backPage (s := { s with free := s.free + 1 }) ha ..
  · obtain ⟨hstate, hcount, hdue, hmem, -⟩ := beginRestart_spec
      (s := { s with owl := { s.owl with restartTimes := s.now :: s.owl.restartTimes.filter fun x => decide (s.now < x + 800000000) } })
    exact ⟨_, exec_owlWatchdog_again ho hn, ⟨hstate, hcount, hdue⟩, hmem⟩
  · obtain ⟨t, hrun, ht⟩ := exec_owlRestartDone_restarting ho
    obtain ⟨hstate, hstaged, hload⟩ := again_spec s.owl
    have hs : t.owl.state = (Owl.again s.owl).state := warden_read ht Owl.state fun _ => rfl
    have hst : t.owl.staged = (Owl.again s.owl).staged := warden_read ht Owl.staged fun _ => rfl
    have hp : t.owl.patch = (Owl.again s.owl).patch := warden_read ht Owl.patch fun _ => rfl
    have hfu : t.owl.fuses = (Owl.again s.owl).fuses := warden_read ht Owl.fuses fun _ => rfl
    exact ⟨t, hrun, hs.trans hstate, hst.trans hstaged, fun bs hbs => ⟨hp.trans (hload bs hbs).1, hfu.trans (hload bs hbs).2⟩⟩

end Sys2Proof.Proofs
end

section
/-! PROOFS. The link layer (spec/02_links.md R39 to R43, R47 to R49, R60, R61): flits sent and received, replays and trainings, and the end
of a link. Nothing that a package does when it loses dies or other packages opens a link that is down (`Worn`). -/

namespace Sys2Proof.Proofs
open Sys2Proof Sys2Proof.Machine Sys2Proof.Laws.Shapes

/-! ### Links changed -/

section
variable {s : State} {l : Link} {vc : BitVec 3}

theorem linkAt_modLink (l k : Link) (f : LinkSt → LinkSt) :
    (s.modLink l f).linkAt k = if linkKey k = linkKey l then f (s.linkAt l) else s.linkAt k := tget_tset ..

@[simp] theorem linkAt_modLink_same (l : Link) (f : LinkSt → LinkSt) : (s.modLink l f).linkAt l = f (s.linkAt l) :=
  (linkAt_modLink ..).trans (if_pos rfl)

theorem linkAt_of_pkg {t : State} (h : t.pkg = s.pkg) (l : Link) : t.linkAt l = s.linkAt l :=
  congrArg (fun p : Pkg => tget p.links (linkKey l) {}) h

/-! ### Flits sent (R39, R40, R43) -/

/-- The flit that leaves by a link. -/
def State.flitFor (s : State) (l : Link) (vc : BitVec 3) : Flit := (s.makeFlit (s.linkAt l) vc).1

theorem flitBytes_check (f : Flit) (c : W64) : flitBytes { f with check := c } = flitBytes f := rfl

theorem flitFor_check : (State.flitFor s l vc).check = crc64 (flitBytes (State.flitFor s l vc)) := by
  unfold State.flitFor State.makeFlit
  dsimp only
  exact (congrArg crc64 (flitBytes_check ..)).symm

/-- A link once it has sent a flit. -/
def sentOn (x : LinkSt) (y : Flit) (vc : BitVec 3) (now : Nat) : LinkSt :=
  ({ x with next := x.next + 1, retry := x.retry ++ [y], ackAt := if x.retry.isEmpty then now else x.ackAt } : LinkSt).setCredits
    fun k n => if k = vc.toNat then n - 1 else n

theorem linkAt_launchFlit : (s.launchFlit l vc).linkAt l = sentOn (s.linkAt l) (State.flitFor s l vc) vc s.now := by
  have hsent : (((s.makeFlit (s.linkAt l) vc).2.modLink l fun x => sentOn x (State.flitFor s l vc) vc s.now).emit
      (.flit l (State.flitFor s l vc))).linkAt l = sentOn (s.linkAt l) (State.flitFor s l vc) vc s.now :=
    linkAt_modLink_same l _
  unfold State.launchFlit
  dsimp only
  split <;> exact hsent

theorem out_launchFlit : (s.launchFlit l vc).out = s.out ++ [.flit l (State.flitFor s l vc)] := by
  unfold State.launchFlit
  dsimp only
  split <;> rfl

theorem credit_setCredits (x : LinkSt) (f : Nat → Nat → Nat) {w : BitVec 3} (h : w.toNat < 5) :
    (x.setCredits f).credit w = f w.toNat (x.credit w) := by
  have hw : w.toNat % 8 = w.toNat := Nat.mod_eq_of_lt w.isLt
  simp [LinkSt.credit, LinkSt.setCredits, List.getD_eq_getElem?_getD, h, hw]

theorem sendFlit_closed (h : (s.linkAt l).down = true ∨ (s.linkAt l).fenced = true) : s.sendFlit l vc = s := by
  unfold State.sendFlit
  exact if_pos (by simpa using h)

/-- Whether a link lets a flit of a channel go. -/
theorem open_iff (x : LinkSt) : x.open vc = true ↔ x.up = true ∧ x.training = false ∧ x.retry.length < 512 ∧ 0 < x.credit vc := by
  unfold LinkSt.open
  simp [and_assoc]

theorem sendFlit_goes (hd : (s.linkAt l).down = false) (hf : (s.linkAt l).fenced = false) (ho : (s.linkAt l).open vc = true)
    (hw : (s.linkAt l).waiting.contains vc = false) : s.sendFlit l vc = s.launchFlit l vc := by
  unfold State.sendFlit
  dsimp only
  rw [if_neg (by simp [hd, hf]), if_pos (by simp only [ho, hw]; rfl)]

theorem sendFlit_waits (hd : (s.linkAt l).down = false) (hf : (s.linkAt l).fenced = false)
    (h : ¬(s.linkAt l).open vc = true ∨ (s.linkAt l).waiting.contains vc = true) :
    s.sendFlit l vc = s.modLink l fun x => { x with waiting := x.waiting ++ [vc] } := by
  unfold State.sendFlit
  dsimp only
  rw [if_neg (by simp [hd, hf]), if_neg]
  rw [Bool.and_eq_true, Bool.not_eq_true']
  rintro ⟨ho, hw⟩
  rcases h with h | h
  · exact h ho
  · rw [hw] at h
    exact absurd h (by decide)

/-! ### What sending leaves of a link -/

/-- A link goes on: it has sent flits, or keeps messages that wait. -/
def Runs (x y : LinkSt) : Prop :=
  y.expect = x.expect ∧ y.nakSent = x.nakSent ∧ y.up = x.up ∧ y.width = x.width ∧ y.training = x.training ∧ x.retry <+: y.retry

theorem Runs.refl (x : LinkSt) : Runs x x := ⟨rfl, rfl, rfl, rfl, rfl, List.prefix_rfl⟩

theorem Runs.trans {x y z : LinkSt} (h : Runs x y) (k : Runs y z) : Runs x z := by
  obtain ⟨h1, h2, h3, h4, h5, h6⟩ := h
  obtain ⟨k1, k2, k3, k4, k5, k6⟩ := k
  exact ⟨k1.trans h1, k2.trans h2, k3.trans h3, k4.trans h4, k5.trans h5, h6.trans k6⟩

theorem runs_sendFlit (l : Link) (vc : BitVec 3) : Runs (s.linkAt l) ((s.sendFlit l vc).linkAt l) := by
  unfold State.sendFlit
  dsimp only
  split
  · exact Runs.refl _
  · split
    · rw [linkAt_launchFlit]
      exact ⟨rfl, rfl, rfl, rfl, rfl, ⟨_, rfl⟩⟩
    · rw [linkAt_modLink_same]
      exact ⟨rfl, rfl, rfl, rfl, rfl, List.prefix_rfl⟩

theorem runs_sendWaiting (l : Link) : Runs (s.linkAt l) ((s.sendWaiting l).linkAt l) := by
  have hfold (w : List (BitVec 3)) : ∀ u : State, Runs (u.linkAt l) ((w.foldl (fun s vc => s.sendFlit l vc) u).linkAt l) := by
    induction w with
    | nil => exact fun u => Runs.refl _
    | cons vc w ih => exact fun u => (runs_sendFlit l vc).trans (ih _)
  refine Runs.trans ?_ (hfold _ _)
  rw [linkAt_modLink_same]
  exact ⟨rfl, rfl, rfl, rfl, rfl, List.prefix_rfl⟩

theorem onward_sendWaiting (l : Link) : Onward s (s.sendWaiting l) := by
  have hclear : Onward s (s.modLink l fun x => { x with waiting := [] }) := Onward.of_eq rfl rfl
  exact hclear.trans (Onward.foldl (fun _ vc => onward_sendFlit l vc) _ _)

/-- Where nothing waits at a link, nothing is offered to it again. -/
theorem sendWaiting_nil (h : (s.linkAt l).waiting = []) : s.sendWaiting l = s.modLink l fun x => { x with waiting := [] } := by
  unfold State.sendWaiting
  dsimp only
  rw [h]
  rfl

/-! ### Flits received (R40, R43) -/

/-- What an acknowledgement that covers no flit leaves. -/
theorem acked_none {x : LinkSt} {a : BitVec 12} {now : Nat} (h : ∀ y ∈ x.retry, y.seq ≠ a) : x.acked a now = x := by
  unfold LinkSt.acked
  exact if_neg (by simpa using h)

/-- What an acknowledgement leaves of the retry buffer: the flits behind the first that it names. -/
theorem acked_some {x : LinkSt} {f : BitVec 12} {now : Nat} {a b : List Flit} {y : Flit} (h : x.retry = a ++ y :: b) (hy : y.seq = f)
    (ha : ∀ z ∈ a, z.seq ≠ f) : x.acked f now = { x with retry := b, replays := 0, ackAt := now } := by
  unfold LinkSt.acked
  have hdrop : (x.retry.dropWhile fun g => g.seq != f) = y :: b := by
    rw [h, List.dropWhile_append_of_pos (by simpa using ha), List.dropWhile_cons_of_neg (by simp [hy])]
  rw [if_pos (by simp [h, hy]), hdrop]
  rfl

theorem acked_waiting (x : LinkSt) (a : BitVec 12) (now : Nat) : (x.acked a now).waiting = x.waiting := by
  unfold LinkSt.acked
  split <;> rfl

theorem deliverFlit_spec (f : Flit) : (s.deliverFlit f).pkg = s.pkg ∧ (s.deliverFlit f).agenda = s.agenda ++
    ((Config.messages f).filter fun m => channelOf m.2 == some f.vc && (match m.1 with | .packet _ => fromOutside m.1 | _ => true)).map
      fun m => ⟨s.now, none, m.1, m.2⟩ := by
  have hfold (ms : List (Subject × Instr)) : ∀ u : State, (ms.foldl (fun s m => s.soon m.1 m.2) u).pkg = u.pkg ∧
      (ms.foldl (fun s m => s.soon m.1 m.2) u).agenda = u.agenda ++ ms.map fun m => ⟨u.now, none, m.1, m.2⟩ := by
    induction ms with
    | nil => exact fun u => ⟨rfl, (List.append_nil _).symm⟩
    | cons m ms ih =>
      intro u
      obtain ⟨hp, ha⟩ := ih (u.soon m.1 m.2)
      refine ⟨hp, ha.trans ?_⟩
      exact List.append_assoc u.agenda [⟨u.now, none, m.1, m.2⟩] (ms.map fun m => ⟨u.now, none, m.1, m.2⟩)
  exact hfold _ s

theorem getD_setCredits (x : LinkSt) (f : Nat → Nat → Nat) {k : Nat} (h : k < 5) :
    (x.setCredits f).credits.getD k 0 = f k (x.credit (BitVec.ofNat 3 k)) := by
  simp [LinkSt.setCredits, List.getD_eq_getElem?_getD, h]

theorem credit_congr {x y : LinkSt} (h : y.credits = x.credits) (w : BitVec 3) : y.credit w = x.credit w := by
  unfold LinkSt.credit
  rw [h]

theorem acked_credits (x : LinkSt) (a : BitVec 12) (now : Nat) : (x.acked a now).credits = x.credits := by
  unfold LinkSt.acked
  split <;> rfl

/-- Whether a link takes what arrives. -/
def takes (x : LinkSt) : Prop := x.down = false ∧ x.fenced = false ∧ x.training = false

theorem flitGood_iff (f : Flit) : flitGood f = true ↔ f.check = crc64 (flitBytes f) ∧ f.vc.toNat ≤ 4 := by
  unfold flitGood
  simp

theorem exec_flitReceive_closed {f : Flit} (h : ¬takes (s.linkAt l)) : exec (.flitReceive l f) s = .next s := by
  refine if_pos ?_
  unfold takes at h
  cases hd : (s.linkAt l).down
  · cases hf : (s.linkAt l).fenced
    · cases ht : (s.linkAt l).training
      · exact absurd ⟨hd, hf, ht⟩ h
      · rfl
    · rfl
  · rfl

/-- A link once a good flit has arrived. -/
def received (x : LinkSt) (f : Flit) (now : Nat) : LinkSt :=
  (({ x with expect := x.expect + 1, nakSent := false } : LinkSt).acked f.ack now).setCredits fun k n => n + Config.creditReturn f.credit k

theorem received_buffer (x : LinkSt) (f : Flit) (now : Nat) :
    (received x f now).retry = (x.acked f.ack now).retry ∧ (received x f now).replays = (x.acked f.ack now).replays := by
  unfold received LinkSt.acked LinkSt.setCredits
  dsimp only
  split <;> exact ⟨rfl, rfl⟩

theorem exec_flitReceive_good {f : Flit} (h : takes (s.linkAt l)) (hg : flitGood f = true) (he : f.seq = (s.linkAt l).expect) :
    exec (.flitReceive l f) s = .next (((s.modLink l fun x => received x f s.now).deliverFlit f).sendWaiting l) := by
  obtain ⟨hd, hf, ht⟩ := h
  refine (if_neg (by simp [hd, hf, ht])).trans (if_pos ?_)
  simp [hg, he]

theorem exec_flitReceive_bad {f : Flit} (h : takes (s.linkAt l)) (hg : ¬(flitGood f = true ∧ f.seq = (s.linkAt l).expect)) :
    exec (.flitReceive l f) s = if (s.linkAt l).nakSent then .next s
      else .next ((s.modLink l fun x => { x with nakSent := true }).emit (.nak l (s.linkAt l).expect)) := by
  obtain ⟨hd, hf, ht⟩ := h
  refine (if_neg (by simp [hd, hf, ht])).trans (if_neg ?_)
  simpa using hg

/-! ### Replay (R40, R41) -/

/-- What flits put on the wire again leave. -/
theorem emitFlits_spec (ys : List Flit) : ∀ u : State, let t := ys.foldl (fun s f => s.emit (.flit l f)) u
    t.pkg = u.pkg ∧ t.agenda = u.agenda ∧ t.now = u.now ∧ t.out = u.out ++ ys.map (.flit l) := by
  induction ys with
  | nil => exact fun u => ⟨rfl, rfl, rfl, (List.append_nil _).symm⟩
  | cons y ys ih =>
    intro u
    obtain ⟨hp, ha, hn, ho⟩ := ih (u.emit (.flit l y))
    exact ⟨hp, ha, hn, ho.trans (List.append_assoc u.out [.flit l y] (ys.map (.flit l)))⟩

/-- A replay that goes out. -/
theorem replay_goes (hd : (s.linkAt l).down = false) (ht : (s.linkAt l).training = false) (hr : (s.linkAt l).retry ≠ [])
    (h8 : (s.linkAt l).replays < 8) : let t := s.replay l; let x := s.linkAt l
    t.linkAt l = { x with replays := x.replays + 1, ackAt := s.now } ∧ t.out = s.out ++ x.retry.map (.flit l) ∧
      ⟨s.now + 1600, none, .none, .ackTimeout l⟩ ∈ t.agenda := by
  unfold State.replay
  dsimp only
  rw [if_neg (by simp [hd, ht, hr]), if_neg (Nat.not_le.mpr h8)]
  obtain ⟨hp, -, hn, ho⟩ := emitFlits_spec (l := l) (s.linkAt l).retry (s.modLink l fun x => { x with replays := x.replays + 1, ackAt := s.now })
  generalize (s.linkAt l).retry.foldl _ _ = u at hp hn ho
  have hnow : u.now = s.now := hn
  refine ⟨(linkAt_of_pkg hp l).trans (linkAt_modLink_same ..), ho, ?_⟩
  rw [← hnow]
  exact mem_later ..

theorem replay_still (h : (s.linkAt l).retry = [] ∨ (s.linkAt l).down = true ∨ (s.linkAt l).training = true) : s.replay l = s := by
  unfold State.replay
  exact if_pos (by rcases h with h | h | h <;> simp [h])

theorem replay_ends (hd : (s.linkAt l).down = false) (ht : (s.linkAt l).training = false) (hr : (s.linkAt l).retry ≠ [])
    (h8 : 8 ≤ (s.linkAt l).replays) : s.replay l = s.soon .none (.linkRetrain l) := by
  unfold State.replay
  dsimp only
  rw [if_neg (by simp [hd, ht, hr]), if_pos h8]

/-- The flits of a retry buffer, out again. -/
def State.resent (s : State) (l : Link) (y : LinkSt) (t : State) : Prop :=
  (t.linkAt l).retry = y.retry ∧ (t.linkAt l).replays = y.replays + 1 ∧ t.out = s.out ++ y.retry.map (.flit l) ∧
    ∃ d ∈ t.agenda, d.time = s.now + 1600 ∧ d.ev = .ackTimeout l

theorem resent_replay (hd : (s.linkAt l).down = false) (ht : (s.linkAt l).training = false) (hr : (s.linkAt l).retry ≠ [])
    (h8 : (s.linkAt l).replays < 8) : State.resent s l (s.linkAt l) (s.replay l) := by
  obtain ⟨hl, ho, ha⟩ := replay_goes hd ht hr h8
  exact ⟨by rw [hl], by rw [hl], ho, _, ha, rfl, rfl⟩

theorem exec_negativeAcknowledgement (e : BitVec 12) :
    exec (.negativeAcknowledgement l e) s = .next (((s.modLink l fun x => x.acked (e - 1) s.now).replay l).sendWaiting l) := rfl

/-- A negative acknowledgement after which flits are left, with nothing that waits at the link. -/
theorem negativeAcknowledgement_resent {e : BitVec 12} {y : LinkSt} (hy : (s.linkAt l).acked (e - 1) s.now = y) (hd : y.down = false)
    (ht : y.training = false) (hw : y.waiting = []) (hr : y.retry ≠ []) (h8 : y.replays < 8) :
    ∃ t, exec (.negativeAcknowledgement l e) s = .next t ∧ State.resent s l y t := by
  have hl : (s.modLink l fun x => x.acked (e - 1) s.now).linkAt l = y := (linkAt_modLink_same ..).trans hy
  refine ⟨_, exec_negativeAcknowledgement e, ?_⟩
  generalize hu : (s.modLink l fun x => x.acked (e - 1) s.now) = u at hl
  have ho : u.out = s.out := by rw [← hu]; rfl
  have hn : u.now = s.now := by rw [← hu]; rfl
  obtain ⟨hk, hs, ha⟩ := replay_goes (s := u) (l := l) (by rwa [hl]) (by rwa [hl]) (by rwa [hl]) (by rwa [hl])
  rw [hl] at hk hs
  rw [sendWaiting_nil (by rw [hk]; exact hw)]
  have hz : ((u.replay l).modLink l fun x => { x with waiting := [] }).linkAt l = { y with replays := y.replays + 1, ackAt := u.now, waiting := [] } := by
    rw [linkAt_modLink_same, hk]
  refine ⟨by rw [hz], by rw [hz], ho ▸ hs, _, ha, ?_, rfl⟩
  exact congrArg (· + 1600) hn

theorem exec_ackTimeout_due (hd : (s.linkAt l).down = false) (ht : (s.linkAt l).training = false) (hr : (s.linkAt l).retry ≠ [])
    (h : (s.linkAt l).ackAt + 1600 ≤ s.now) : exec (.ackTimeout l) s = .next (s.replay l) :=
  (if_neg (by simp [hd, ht, hr])).trans (if_pos h)

theorem exec_ackTimeout_early (hd : (s.linkAt l).down = false) (ht : (s.linkAt l).training = false) (hr : (s.linkAt l).retry ≠ [])
    (h : s.now < (s.linkAt l).ackAt + 1600) :
    exec (.ackTimeout l) s = .next (s.later ((s.linkAt l).ackAt + 1600 - s.now) .none (.ackTimeout l)) :=
  (if_neg (by simp [hd, ht, hr])).trans (if_neg (Nat.not_le.mpr h))

theorem exec_ackTimeout_idle (h : (s.linkAt l).retry = [] ∨ (s.linkAt l).down = true ∨ (s.linkAt l).training = true) :
    exec (.ackTimeout l) s = .next s := if_pos (by rcases h with h | h | h <;> simp [h])

/-! ### Training (R41) -/

theorem exec_linkRetrain_closed (h : ¬takes (s.linkAt l)) : exec (.linkRetrain l) s = .next s := by
  refine if_pos ?_
  unfold takes at h
  cases hd : (s.linkAt l).down
  · cases hf : (s.linkAt l).fenced
    · cases ht : (s.linkAt l).training
      · exact absurd ⟨hd, hf, ht⟩ h
      · rfl
    · rfl
  · rfl

theorem exec_linkRetrain_begins (h : takes (s.linkAt l)) : exec (.linkRetrain l) s = .next (s.modLink l fun y =>
    { y with up := false, training := true, replays := 0,
             retrains := if y.trained && y.retrains.toNat < 255 then y.retrains + 1 else y.retrains }) := by
  obtain ⟨hd, hf, ht⟩ := h
  exact if_neg (by simp [hd, hf, ht])

/-- A link whose training has failed. -/
def State.untrained (s : State) (l : Link) : State := s.modLink l fun x => { x with training := false, width := 0, failed := x.failed + 1 }

theorem exec_retrainComplete_failed {n : Nat} (ht : (s.linkAt l).training = true) (hd : (s.linkAt l).down = false) (hw : lanesUsed l n = 0) :
    exec (.retrainComplete l n) s =
      .next ((State.untrained s l).soon .none (if (s.linkAt l).failed = 0 then .linkRetrain l else .linkDown l)) :=
  (if_neg (by simp [ht, hd])).trans (if_pos hw)

/-- A link that has trained. -/
def State.retrainedTo (s : State) (l : Link) (w : Nat) : State :=
  s.modLink l fun x => { x with training := false, trained := true, up := true, width := w, failed := 0 }

theorem exec_retrainComplete_done {n : Nat} (ht : (s.linkAt l).training = true) (hd : (s.linkAt l).down = false) (hw : lanesUsed l n ≠ 0) :
    let u := (((State.retrainedTo s l (lanesUsed l n)).replay l).sendWaiting l)
    ∃ t, exec (.retrainComplete l n) s = .next t ∧ t.pkg = u.pkg ∧ t.out = u.out := by
  have hexec := (if_neg (by simp [ht, hd]) : exec (.retrainComplete l n) s = _).trans (if_neg hw)
  intro u
  cases l with
  | port d p =>
    cases hh : !(s.linkAt (.port d p)).trained && s.pkg.bring == .reduced with
    | true => exact ⟨_, hexec.trans (if_pos hh), rfl, rfl⟩
    | false => exact ⟨_, hexec.trans (if_neg (by simp [hh])), rfl, rfl⟩
  | dieDie a b => exact ⟨_, hexec, rfl, rfl⟩
  | dieHub d => exact ⟨_, hexec, rfl, rfl⟩
  | far n d p => exact ⟨_, hexec, rfl, rfl⟩
  | farHub n d => exact ⟨_, hexec, rfl, rfl⟩

/-- What a link is once it has trained, and what has left by it. -/
theorem retrained_spec (w : Nat) (hd : (s.linkAt l).down = false) : let t := ((State.retrainedTo s l w).replay l).sendWaiting l
    let x := s.linkAt l
    (t.linkAt l).up = true ∧ (t.linkAt l).width = w ∧ (t.linkAt l).training = false ∧ x.retry <+: (t.linkAt l).retry ∧
      (x.replays < 8 → ∀ y ∈ x.retry, .flit l y ∈ t.out) := by
  have hl : (State.retrainedTo s l w).linkAt l =
      { s.linkAt l with training := false, trained := true, up := true, width := w, failed := 0 } := linkAt_modLink_same ..
  generalize State.retrainedTo s l w = u at hl ⊢
  intro t x
  have hruns (h : Runs (u.linkAt l) ((u.replay l).linkAt l)) : (t.linkAt l).up = true ∧ (t.linkAt l).width = w ∧
      (t.linkAt l).training = false ∧ x.retry <+: (t.linkAt l).retry := by
    obtain ⟨-, -, hu, hw, ht, hr⟩ := h.trans (runs_sendWaiting l)
    rw [hl] at hu hw ht hr
    exact ⟨hu, hw, ht, hr⟩
  by_cases hr : x.retry = []
  · have hstill : u.replay l = u := replay_still (.inl (by rw [hl]; exact hr))
    obtain ⟨h1, h2, h3, h4⟩ := hruns (by rw [hstill]; exact Runs.refl _)
    refine ⟨h1, h2, h3, h4, fun _ y hy => ?_⟩
    rw [hr] at hy
    exact absurd hy List.not_mem_nil
  · by_cases h8 : x.replays < 8
    · obtain ⟨hk, ho, -⟩ := replay_goes (s := u) (l := l) (by rw [hl]; exact hd) (by rw [hl]) (by rw [hl]; exact hr) (by rw [hl]; exact h8)
      obtain ⟨h1, h2, h3, h4⟩ := hruns (by rw [hk]; exact ⟨rfl, rfl, rfl, rfl, rfl, List.prefix_rfl⟩)
      refine ⟨h1, h2, h3, h4, fun _ y hy => (onward_sendWaiting l).said ?_⟩
      rw [ho, hl]
      exact List.mem_append_right _ (List.mem_map_of_mem hy)
    · have hend := replay_ends (s := u) (l := l) (by rw [hl]; exact hd) (by rw [hl]) (by rw [hl]; exact hr)
        (by rw [hl]; exact Nat.not_lt.mp h8)
      obtain ⟨h1, h2, h3, h4⟩ := hruns (by rw [hend]; exact Runs.refl _)
      exact ⟨h1, h2, h3, h4, fun h => absurd h h8⟩

/-! ### What the loss of a die leaves of the package (R60 to R64) -/

theorem pkg_foldl {α : Type} {f : State → α → State} (h : ∀ s x, (f s x).pkg = s.pkg) (ys : List α) : (ys.foldl f s).pkg = s.pkg :=
  foldl_kept State.pkg h ys

theorem pkg_of_still {t : State} (h : still t = still s) : t.pkg = s.pkg := still_state h State.pkg fun _ => rfl

theorem pkg_recordWrite (c : Nat) (tag : W32) (va : Nat) (bs : List Byte) (d : Nat) : (s.recordWrite c tag va bs d).pkg = s.pkg := by
  have hw := pkg_of_still (still_writeVirt (s := s) c va bs {})
  unfold State.recordWrite
  dsimp only
  split
  · exact hw
  · exact hw

theorem pkg_writeLoss (n : Nat) (e : List Byte) : (s.writeLoss n e).pkg = s.pkg := by
  unfold State.writeLoss
  dsimp only
  rw [modLaunch_pkg]
  split
  · rfl
  · exact pkg_recordWrite ..

theorem pkg_enqueue (c n : Nat) : (s.enqueue c n).pkg = s.pkg := modTeam_pkg ..

theorem pkg_addTeam (c : Nat) (t : Team) : (s.addTeam c t).pkg = s.pkg := pkg_enqueue ..

theorem pkg_addUnits (n p : Nat) (d : Int) : (s.addUnits n p d).pkg = s.pkg := by
  unfold State.addUnits
  split
  · rfl
  · dsimp only
    split <;> exact modLaunch_pkg ..

theorem pkg_placeTeams (c d : Nat) (ns : List Nat) : (s.placeTeams c d ns).pkg = s.pkg := by
  refine pkg_foldl (fun u n => ?_) ns
  dsimp only
  split
  · split
    · rfl
    · split
      · exact pkg_foldl (f := fun s m => s.enqueue _ m) (fun _ _ => pkg_enqueue ..) _
      · exact pkg_foldl (f := fun s (p : Nat × Nat) => (s.enqueue p.2 p.1).soon (.on p.2) .teamAdmit) (fun _ _ => pkg_enqueue ..) _
  · exact pkg_enqueue ..

theorem pkg_redo (ns : List Nat) : (s.redo ns).pkg = s.pkg := by
  unfold State.redo
  dsimp only
  refine (pkg_foldl (fun _ _ => pkg_placeTeams ..) _).trans (pkg_foldl (fun u p => ?_) _)
  split
  · exact modLaunch_pkg ..
  · exact (modLaunch_pkg ..).trans ((pkg_addUnits ..).trans (modTeam_pkg ..))

theorem pkg_recount (n : Nat) : (s.recount n).pkg = s.pkg := by
  unfold State.recount
  split <;> rfl

theorem pkg_vacate (n : Nat) (r : Bool) : (s.vacate n r).pkg = s.pkg := by
  unfold State.vacate
  split
  · rfl
  · exact modGang_pkg ..

theorem pkg_dropGang (n : Nat) : (s.dropGang n).pkg = s.pkg := by
  unfold State.dropGang
  split
  · rfl
  · split
    · rfl
    · exact (modGang_pkg ..).trans ((pkg_vacate ..).trans ((focus_pkg ..).trans (focus_pkg s n)))

theorem pkg_recall (d : Nat) : (s.recall d).pkg = s.pkg := by
  unfold State.recall
  refine (pkg_foldl (fun u x => ?_) _).trans rfl
  split
  · split
    · exact pkg_foldl (fun _ _ => pkg_enqueue ..) _
    · rfl
  · split
    · exact pkg_addTeam ..
    · rfl
  · rfl

/-- A fold that also gathers numbers keeps what each of its steps keeps. -/
theorem pkg_foldl_pair {α β : Type} {f : β × State → α → β × State} (h : ∀ x y, (f x y).2.pkg = x.2.pkg) (ys : List α) :
    ∀ x : β × State, (ys.foldl f x).2.pkg = x.2.pkg := by
  induction ys with
  | nil => exact fun _ => rfl
  | cons y ys ih => exact fun x => (ih _).trans (h x y)

theorem pkg_loseExits (d : Nat) : (s.loseExits d).2.pkg = s.pkg := by
  refine pkg_foldl_pair (fun x p => ?_) _ _
  dsimp only
  rw [modLaunch_pkg]
  exact pkg_foldl_pair (fun x e => pkg_writeLoss ..) _ _

theorem pkg_loseTeams (d : Nat) : (s.loseTeams d).pkg = s.pkg := by
  unfold State.loseTeams
  dsimp only
  have hparts (u : State) (qs : List Nat) : (qs.foldl (fun s q => s.modPart (4 * d + q) fun _ => {}) u).pkg = u.pkg :=
    pkg_foldl (f := fun s q => s.modPart (4 * d + q) fun _ => {}) (fun _ _ => rfl) qs
  refine (pkg_foldl (fun _ _ => pkg_recount ..) _).trans ((pkg_redo _).trans ((hparts _ _).trans ?_))
  refine (pkg_foldl (fun _ _ => modLaunch_pkg ..) _).trans ((focus_pkg ..).trans ((pkg_foldl (fun _ _ => pkg_dropGang _) _).trans ?_))
  exact (pkg_loseExits d).trans ((pkg_foldl (fun _ _ => pkg_writeLoss ..) _).trans (pkg_recall d))

theorem pkg_setDir (n : Nat) (d : Dir) : (s.setDir n d).pkg = s.pkg := pkg_of_still (still_setDir ..)

theorem pkg_nextTransaction (n : Nat) : (s.nextTransaction n).pkg = s.pkg := by
  unfold State.nextTransaction
  dsimp only
  split
  · rfl
  · split
    · exact pkg_setDir ..
    · split
      · exact pkg_setDir ..
      · rfl

theorem pkg_answered (d n : Nat) : (s.answered d n).pkg = s.pkg := by
  have hask (u : State) (d k : Nat) : (u.ask d k n).pkg = u.pkg := pkg_of_still (still_ask ..)
  unfold State.answered
  split
  · rfl
  · dsimp only
    split
    · exact hask ..
    · rfl

theorem pkg_probeDone (d n : Nat) (b : Bool) : (s.probeDone d n b).pkg = s.pkg := by
  have hend (x : Dir) (k : Nat) : (((s.setDir n x).answered k n).nextTransaction n).pkg = s.pkg :=
    (pkg_nextTransaction _).trans ((pkg_answered ..).trans (pkg_setDir ..))
  unfold State.probeDone
  dsimp only
  split
  · rfl
  · split
    · exact hend ..
    · split
      · exact pkg_setDir ..
      · split
        · exact (pkg_nextTransaction _).trans (pkg_setDir ..)
        · exact hend ..

theorem pkg_dropDie (d n : Nat) : (s.dropDie d n).pkg = s.pkg := by
  have hlose (b : Bool) : (if b = true then s.loseLine n else s).pkg = s.pkg := by
    cases b with
    | false => rfl
    | true => exact loseLine_kept State.pkg (fun _ _ _ _ => rfl) n
  unfold State.dropDie
  dsimp only
  split
  · split
    · exact (pkg_nextTransaction _).trans ((pkg_setDir ..).trans (hlose _))
    · split
      · exact (pkg_probeDone ..).trans ((pkg_setDir ..).trans (hlose _))
      · exact (pkg_setDir ..).trans (hlose _)
  · exact (pkg_nextTransaction _).trans ((pkg_setDir ..).trans (hlose _))

theorem pkg_dropPresence (d : Nat) : (s.dropPresence d).pkg = s.pkg := (pkg_foldl (fun _ _ => pkg_dropDie ..) _).trans rfl

theorem pkg_takeFault (r : FaultRec) (a : W64) (e : Bool) : (s.takeFault r a e).pkg = s.pkg := by
  cases h : s.g.sup with
  | false => exact (pkg_of_still (still_takeFault_user h)).trans rfl
  | true =>
    rw [takeFault_handler h]
    rfl

theorem pkg_faultGang (n c : Nat) : (s.faultGang n c).pkg = s.pkg := by
  unfold State.faultGang
  dsimp only
  split
  · rfl
  · exact (apply_ite State.pkg ..).trans ((ite_self _).trans ((pkg_takeFault ..).trans (focus_pkg ..)))

theorem pkg_raise (r : FaultRec) : (s.raise r).pkg = s.pkg := by
  unfold State.raise
  split
  · rfl
  · split
    · exact setBlk_pkg ..
    · exact pkg_takeFault ..

theorem pkg_replyLost (h : Bool) (p : Nat) : (s.replyLost h p).pkg = s.pkg := by
  unfold State.replyLost
  dsimp only
  split
  · split
    · exact pkg_faultGang ..
    · rfl
  · split
    · split
      · exact pkg_raise ..
      · rfl
    · rfl

theorem pkg_within {f : State → State} (n : Nat) (h : ∀ u, (f u).pkg = u.pkg) : (s.within n f).pkg = s.pkg := by
  unfold State.within
  dsimp only
  split
  · exact (focus_pkg ..).trans ((h _).trans (focus_pkg ..))
  · rfl

theorem pkg_loseParked : s.loseParked.pkg = s.pkg := by
  unfold State.loseParked
  dsimp only
  refine (pkg_foldl (fun u p => ?_) _).trans ((pkg_foldl (fun _ e => pkg_within _ fun _ => pkg_replyLost ..) _).trans rfl)
  split <;> rfl

theorem pkg_loseBadgers : s.loseBadgers.pkg = s.pkg := rfl

/-! ### What no loss undoes -/

/-- What stays as it is while dies and packages are lost: failed units, units out of service, lost packages, and links that are down. -/
def Worn (s t : State) : Prop :=
  (∀ u, s.pkg.failedUnits.contains u = true → t.pkg.failedUnits.contains u = true) ∧
    (∀ k, s.pkg.service.getLsbD k = false → t.pkg.service.getLsbD k = false) ∧
    (∀ k, s.pkg.lost.getLsbD k = true → t.pkg.lost.getLsbD k = true) ∧ ∀ l, (s.linkAt l).down = true → t.linkAt l = s.linkAt l

theorem Worn.of_pkg {t : State} (h : t.pkg = s.pkg) : Worn s t := by
  refine ⟨?_, ?_, ?_, fun l _ => linkAt_of_pkg h l⟩ <;> rw [h] <;> exact fun _ h => h

theorem Worn.refl (s : State) : Worn s s := Worn.of_pkg rfl

theorem Worn.trans {t u : State} (h : Worn s t) (k : Worn t u) : Worn s u := by
  obtain ⟨hf, hs, hl, hd⟩ := h
  obtain ⟨kf, ks, kl, kd⟩ := k
  exact ⟨fun x hx => kf x (hf x hx), fun x hx => ks x (hs x hx), fun x hx => kl x (hl x hx), fun l hx => (kd l (by rwa [hd l hx])).trans (hd l hx)⟩

theorem Worn.foldl {α : Type} {f : State → α → State} (h : ∀ s x, Worn s (f s x)) (ys : List α) : ∀ s, Worn s (ys.foldl f s) := by
  induction ys with
  | nil => exact Worn.refl
  | cons y ys ih => exact fun s => (h s y).trans (ih _)

theorem Worn.of_outer {t : State} (h : outer t = outer s) (hd : ∀ l, (s.linkAt l).down = true → t.linkAt l = s.linkAt l) : Worn s t := by
  refine ⟨?_, ?_, ?_, hd⟩
  · rw [outer_state h (fun s => s.pkg.failedUnits) fun _ => rfl]
    exact fun _ h => h
  · rw [outer_state h (fun s => s.pkg.service) fun _ => rfl]
    exact fun _ h => h
  · rw [outer_state h (fun s => s.pkg.lost) fun _ => rfl]
    exact fun _ h => h

theorem linkAt_launchFlit_other {k : Link} (h : linkKey k ≠ linkKey l) : (s.launchFlit l vc).linkAt k = s.linkAt k := by
  have hsent (f : LinkSt → LinkSt) : ((s.makeFlit (s.linkAt l) vc).2.modLink l f).linkAt k = s.linkAt k :=
    ((linkAt_modLink l k f).trans (if_neg h) :)
  unfold State.launchFlit
  dsimp only
  split <;> exact hsent _

theorem worn_sendFlit (l : Link) (vc : BitVec 3) : Worn s (s.sendFlit l vc) := by
  refine Worn.of_outer (outer_sendFlit ..) fun k hk => ?_
  by_cases h : linkKey k = linkKey l
  · have hl : s.linkAt k = s.linkAt l := congrArg (fun n => tget s.pkg.links n {}) h
    rw [sendFlit_closed (.inl (hl ▸ hk))]
  · unfold State.sendFlit
    dsimp only
    split
    · rfl
    · split
      · exact linkAt_launchFlit_other h
      · exact (linkAt_modLink ..).trans (if_neg h)

theorem worn_message (d : Option Nat) (n : Nat) (die : Option Nat) (vc : BitVec 3) (addr : Option Nat) (what : String) (ws : List W64) :
    Worn s (s.message d n die vc addr what ws) := by
  have hemit : Worn s (s.emit (.control n what ws)) := Worn.of_pkg rfl
  unfold State.message
  dsimp only
  split
  · exact hemit.trans (worn_sendFlit ..)
  · exact hemit

theorem worn_tellMembers (what : String) (ws : List W64) : Worn s (s.tellMembers what ws) := Worn.foldl (fun _ _ => worn_message ..) _ _

theorem worn_sendProbe (d n : Nat) (k : ProbeKind) : Worn s (s.sendProbe d n k) := by
  unfold State.sendProbe
  split
  · exact Worn.of_pkg rfl
  · exact worn_message ..

theorem worn_nearClear (n : Nat) : Worn s (s.nearClear n).2 := by
  unfold State.nearClear
  dsimp only
  split
  · exact Worn.refl s
  · split
    · exact Worn.of_pkg ((pkg_setDir ..).trans (pkg_foldl (fun _ _ => pkg_of_still (still_leaveDie ..)) _))
    · exact (Worn.of_pkg ((pkg_setDir ..).trans (pkg_foldl (fun _ _ => pkg_of_still (still_leaveDie ..)) _))).trans
        (Worn.foldl (fun _ _ => worn_sendProbe ..) _ _)

theorem worn_nearLines (ls : List Nat) : Worn s (s.nearLines ls) := by
  have hfold (b : Bool) (u : State) : Worn u (ls.foldl (fun x l => let y := x.2.nearClear l; (x.1 && y.1, y.2)) (b, u)).2 := by
    induction ls generalizing b u with
    | nil => exact Worn.refl u
    | cons l ls ih => exact (worn_nearClear l).trans (ih ..)
  exact hfold true s

theorem worn_putQcb (a n : Nat) (q : Queue) (g : Nat) : Worn s (s.putQcb a n q g) := by
  unfold State.putQcb
  split
  · exact Worn.refl s
  · exact (Worn.of_pkg ((pkg_of_still (still_poolWrite ..)).trans (pkg_of_still (still_poolWrite ..)))).trans (worn_nearLines _)

theorem worn_modQueue (n : Nat) (f : Queue → Queue) : Worn s (s.modQueue n f) := Worn.of_pkg rfl

theorem worn_writeQcb (n : Nat) : Worn s (s.writeQcb n) := by
  unfold State.writeQcb
  dsimp only
  split
  · exact ((worn_modQueue ..).trans (worn_putQcb ..)).trans (worn_putQcb ..)
  · exact (worn_modQueue ..).trans (worn_putQcb ..)

theorem worn_modQcb (n : Nat) (f : Queue → Queue) : Worn s (s.modQcb n f) := (worn_modQueue n f).trans (worn_writeQcb n)

theorem worn_publishService : Worn s s.publishService := Worn.foldl (fun _ _ => worn_modQcb ..) _ _

/-- A package one of whose dies has failed. -/
def without (d : Nat) (p : Pkg) : Pkg :=
  { p with failedUnits := p.failedUnits ++ [.die d], service := p.service &&& ~~~(BitVec.ofNat 8 (2 ^ (4 + d))) }

theorem contains_without (d : Nat) (p : Pkg) (u : FailUnit) :
    (without d p).failedUnits.contains u = (p.failedUnits.contains u || decide (u = .die d)) := by
  unfold without
  rw [List.contains_append]
  simp

theorem service_without (d : Nat) (p : Pkg) (k : Nat) (h : p.service.getLsbD k = false) : (without d p).service.getLsbD k = false := by
  unfold without
  rw [BitVec.getLsbD_and, h, Bool.false_and]

theorem service_without_same {d : Nat} (p : Pkg) (h : d < 4) : (without d p).service.getLsbD (4 + d) = false := by
  unfold without
  have hd : 4 + d < 8 := by omega
  rw [BitVec.getLsbD_and, BitVec.getLsbD_not, BitVec.getLsbD_ofNat, Nat.testBit_two_pow_self, decide_eq_true hd]
  exact Bool.and_false _

/-- A die that is lost is a failed unit and out of service. -/
theorem loseDie_spec (d : Nat) : Worn s (s.loseDie d) ∧ (s.loseDie d).pkg.failedUnits.contains (.die d) = true ∧
    (d < 4 → (s.loseDie d).pkg.service.getLsbD (4 + d) = false) := by
  obtain ⟨t, ht, hlose⟩ : ∃ t : State, t.pkg = without d s.pkg ∧ s.loseDie d = (t.publishService).emit (.mgmt "DIE_LOST" d) := by
    refine ⟨_, ?_, rfl⟩
    rw [pkg_loseParked, pkg_loseBadgers, pkg_dropPresence]
    exact pkg_loseTeams (s := s.modPkg (without d)) d
  have hstart : Worn s t := by
    refine ⟨fun u hu => ?_, fun k hk => ?_, fun k hk => ?_, fun l _ => ?_⟩
    · rw [ht, contains_without, hu, Bool.true_or]
    · rw [ht]
      exact service_without d _ k hk
    · rw [ht]
      exact hk
    · exact (congrArg (fun p : Pkg => tget p.links (linkKey l) ({} : LinkSt)) ht).trans rfl
  have hend : Worn t (s.loseDie d) := hlose ▸ worn_publishService.trans (Worn.of_pkg rfl)
  refine ⟨hstart.trans hend, hend.1 _ ?_, fun h => hend.2.1 _ ?_⟩
  · rw [ht, contains_without]
    simp
  · rw [ht]
    exact service_without_same _ h

theorem pkg_setMates (ns : List Nat) : (s.setMates ns).pkg = s.pkg := by
  refine pkg_foldl (fun u n => ?_) ns
  dsimp only
  split
  · rfl
  · exact modTeam_pkg ..

theorem pkg_loseSent (n k : Nat) : (s.loseSent n k).pkg = s.pkg := by
  unfold State.loseSent
  dsimp only
  refine (pkg_recount ..).trans ((pkg_redo _).trans ((pkg_setMates _).trans ?_))
  refine (pkg_foldl (f := fun u t => { u with nextId := u.nextId + 1, teams := tset u.teams u.nextId (gridTeam k (s.launchAt k).lr t 0) })
    (fun _ _ => rfl) _).trans ?_
  refine (modLaunch_pkg ..).trans ?_
  exact pkg_foldl (f := fun u t => ({ u with free := u.free + 1 } : State).writeLoss k (farEntry n t (Config.freeValue u.free)))
    (fun _ _ => pkg_writeLoss ..) _

theorem pkg_checkRoot (n : Nat) : (s.checkRoot n).pkg = s.pkg := by
  unfold State.checkRoot
  dsimp only
  split <;> rfl

/-- A package that is lost. -/
theorem pkg_dropPackage (n : Nat) : (s.dropPackage n).pkg = { s.pkg with lost := s.pkg.lost ||| pkgBit n } := by
  have hfold (u : State) (ds : List Nat) : (ds.foldl (fun s d => s.dropPresence (4 * n + d)) u).pkg = u.pkg :=
    pkg_foldl (f := fun s d => s.dropPresence (4 * n + d)) (fun _ _ => pkg_dropPresence _) ds
  unfold State.dropPackage
  rw [pkg_loseParked, pkg_loseBadgers, hfold]
  rfl

theorem pkg_losePackage (n : Nat) : (s.losePackage n).pkg = { s.pkg with lost := s.pkg.lost ||| pkgBit n } := by
  have hfar (u : State) (c : Nat) : ((u.loseFar c n).checkRoot c).pkg = u.pkg :=
    (pkg_checkRoot c).trans (pkg_foldl (f := fun s id => s.loseSent n id) (fun _ id => pkg_loseSent n id) _)
  have hstep (u : State) (c : Nat) : (if (u.ctxAt c).used && (u.ctxAt c).root == u.self && (u.ctxAt c).packages.contains n then
      (u.loseFar c n).checkRoot c else u).pkg = u.pkg := by
    split
    · exact hfar u c
    · rfl
  unfold State.losePackage
  rw [pkg_foldl hstep, pkg_dropPackage]

theorem losePackage_spec (n : Nat) : Worn s (s.losePackage n) ∧ (n < 64 → (s.losePackage n).pkg.lost.getLsbD n = true) := by
  have hp := pkg_losePackage (s := s) n
  refine ⟨⟨?_, ?_, fun k hk => ?_, fun l _ => ?_⟩, fun hn => ?_⟩
  · rw [hp]
    exact fun _ h => h
  · rw [hp]
    exact fun _ h => h
  · rw [hp, BitVec.getLsbD_or, hk, Bool.true_or]
  · exact (congrArg (fun p : Pkg => tget p.links (linkKey l) ({} : LinkSt)) hp).trans rfl
  · rw [hp, BitVec.getLsbD_or]
    exact (congrArg _ (getLsbD_bit hn)).trans (Bool.or_true _)

/-- What each step of a fold marks stays marked where no step undoes it. -/
theorem foldl_marks {α : Type} {f : State → α → State} {P : State → α → Prop} {ys : List α} (hw : ∀ s x, Worn s (f s x))
    (hp : ∀ s, ∀ x ∈ ys, P (f s x) x) (hs : ∀ s t x, Worn s t → P s x → P t x) : ∀ s, ∀ x ∈ ys, P (ys.foldl f s) x := by
  induction ys with
  | nil => exact fun _ _ h => absurd h List.not_mem_nil
  | cons y ys ih =>
    intro s x hx
    rcases List.mem_cons.mp hx with rfl | hx
    · exact hs _ _ _ (Worn.foldl hw ys _) (hp s x (List.mem_cons_self ..))
    · exact ih (fun s z hz => hp s z (List.mem_cons_of_mem _ hz)) _ x hx

/-! ### The end of a link (R41, R47 to R49, R60, R61) -/

/-- A link that is declared down. -/
def shut (x : LinkSt) : LinkSt := { x with down := true, up := false, training := false, width := 0, retry := [], waiting := [] }

theorem shutLink_spec (l : Link) : outer (s.shutLink l) = outer s ∧ (s.shutLink l).linkAt l = shut (s.linkAt l) := by
  have hbase : (s.modLink l shut).linkAt l = shut (s.linkAt l) := linkAt_modLink_same ..
  cases l with
  | port d p =>
    have hstep (u : State) (vc : BitVec 3) : outer (match u.members.findSome? fun n => u.outPort d n none none with
        | some o => u.sendFlit o vc
        | none => u) = outer u ∧ Worn u (match u.members.findSome? fun n => u.outPort d n none none with
        | some o => u.sendFlit o vc
        | none => u) := by
      cases u.members.findSome? fun n => u.outPort d n none none with
      | none => exact ⟨rfl, Worn.refl u⟩
      | some o => exact ⟨outer_sendFlit .., worn_sendFlit ..⟩
    refine ⟨(outer_foldl (fun u vc => (hstep u vc).1) _).trans (outer_modLink ..), ?_⟩
    obtain ⟨-, -, -, hl⟩ := Worn.foldl (fun u vc => (hstep u vc).2) (s.linkAt (.port d p)).waiting (s.modLink (.port d p) shut)
    exact (hl _ (by rw [hbase]; rfl)).trans hbase
  | dieDie a b => exact ⟨rfl, hbase⟩
  | dieHub d => exact ⟨rfl, hbase⟩
  | far n d p => exact ⟨rfl, hbase⟩
  | farHub n d => exact ⟨rfl, hbase⟩

theorem lt_of_mem_goodDies {d : Nat} (h : d ∈ s.goodDies) : d < 4 := by
  have hall : ∀ d ∈ [0, 1, 2, 3], d < 4 := by decide
  exact hall d (List.mem_filter.mp h).1

theorem lt_of_mem_outOfReach {n : Nat} (h : n ∈ s.outOfReach) : n < 64 := by
  unfold State.outOfReach at h
  split at h
  · exact List.mem_range.mp (List.mem_filter.mp (List.mem_filter.mp h).1).1
  · exact absurd h List.not_mem_nil

/-- What the other packages hear of a link that is down: they hear of ports. -/
def State.toldOf (s : State) : Link → State
  | .port d p => s.tellMembers "LINK_DOWN" [w64 (8 * d + p)]
  | _ => s

theorem worn_toldOf (l : Link) : Worn s (State.toldOf s l) := by
  cases l with
  | port d p => exact worn_tellMembers ..
  | dieDie a b => exact Worn.refl s
  | dieHub d => exact Worn.refl s
  | far n d p => exact Worn.refl s
  | farHub n d => exact Worn.refl s

/-- The dies that have no path any more. -/
def State.pathless (s : State) : List Nat := s.goodDies.filter fun d => !s.reachDie d

/-- A state once a link is down and the dies without a path are lost. -/
def State.cutOff (s : State) (l : Link) : State := (State.pathless (s.shutLink l)).foldl State.loseDie (s.shutLink l)

theorem exec_linkDown (l : Link) :
    exec (.linkDown l) s = .next (State.toldOf ((State.cutOff s l).outOfReach.foldl State.losePackage (State.cutOff s l)) l) := by
  cases l with
  | port d p => rfl
  | dieDie a b => rfl
  | dieHub d => rfl
  | far n d p => rfl
  | farHub n d => rfl

/-- What the end of a link leaves. -/
theorem linkDown_spec (l : Link) : let t := State.toldOf ((State.cutOff s l).outOfReach.foldl State.losePackage (State.cutOff s l)) l
    t.linkAt l = shut (s.linkAt l) ∧
      (∀ d ∈ State.pathless (s.shutLink l), t.pkg.failedUnits.contains (.die d) = true ∧ t.pkg.service.getLsbD (4 + d) = false) ∧
      ∀ k ∈ (State.cutOff s l).outOfReach, t.pkg.lost.getLsbD k = true := by
  intro t
  have hshut : (s.shutLink l).linkAt l = shut (s.linkAt l) := (shutLink_spec l).2
  have hdies : Worn (s.shutLink l) (State.cutOff s l) := Worn.foldl (fun _ _ => (loseDie_spec _).1) _ _
  have hpkgs : Worn (State.cutOff s l) ((State.cutOff s l).outOfReach.foldl State.losePackage (State.cutOff s l)) :=
    Worn.foldl (fun _ _ => (losePackage_spec _).1) _ _
  obtain ⟨hfail, hserv, hlost, hdown⟩ := hpkgs.trans (worn_toldOf l)
  refine ⟨?_, fun d hd => ?_, fun k hk => ?_⟩
  · exact ((hdies.trans (hpkgs.trans (worn_toldOf l))).2.2.2 l (by rw [hshut]; rfl)).trans hshut
  · have hmark := foldl_marks (P := fun u d => u.pkg.failedUnits.contains (.die d) = true ∧ u.pkg.service.getLsbD (4 + d) = false)
      (fun _ _ => (loseDie_spec _).1)
      (fun u d hd => ⟨(loseDie_spec d).2.1, (loseDie_spec d).2.2 (lt_of_mem_goodDies (List.mem_filter.mp hd).1)⟩)
      (fun u v d h k => ⟨h.1 _ k.1, h.2.1 _ k.2⟩) (s.shutLink l) d hd
    exact ⟨hfail _ hmark.1, hserv _ hmark.2⟩
  · have hmark := foldl_marks (P := fun u k => u.pkg.lost.getLsbD k = true) (fun _ _ => (losePackage_spec _).1)
      (fun u k hk => (losePackage_spec k).2 (lt_of_mem_outOfReach hk)) (fun u v k h => h.2.2.1 k) (State.cutOff s l) k hk
    exact (worn_toldOf l).2.2.1 k hmark

end

/-! ### The obligation -/

section
variable {s : State} {l : Link}

theorem good_iff {f : Flit} : (f.check = crc64 (flitBytes f) ∧ f.vc.toNat ≤ 4 ∧ f.seq = (s.linkAt l).expect) ↔
    flitGood f = true ∧ f.seq = (s.linkAt l).expect := by
  rw [flitGood_iff, and_assoc]

/-- What a good flit leaves (R40, R43). -/
theorem received_spec {f : Flit} : let t := ((s.modLink l fun x => received x f s.now).deliverFlit f).sendWaiting l
    let x := s.linkAt l
    let mine := (Config.messages f).filter fun m => channelOf m.2 == some f.vc && (match m.1 with | .packet _ => fromOutside m.1 | _ => true)
    (t.linkAt l).expect = x.expect + 1 ∧ (t.linkAt l).nakSent = false ∧
      (∃ r, t.agenda = s.agenda ++ (mine.map fun m => ⟨s.now, none, m.1, m.2⟩) ++ r) ∧
      (x.waiting = [] → (t.linkAt l).credits = (received x f s.now).credits ∧ (t.linkAt l).retry = (received x f s.now).retry ∧
        (t.linkAt l).replays = (received x f s.now).replays) := by
  intro t x mine
  obtain ⟨hp, ha⟩ := deliverFlit_spec (s := s.modLink l fun x => received x f s.now) f
  have hl : ((s.modLink l fun x => received x f s.now).deliverFlit f).linkAt l = received x f s.now :=
    (linkAt_of_pkg hp l).trans (linkAt_modLink_same ..)
  have hacked (y : LinkSt) : (y.acked f.ack s.now).expect = y.expect ∧ (y.acked f.ack s.now).nakSent = y.nakSent := by
    unfold LinkSt.acked
    split <;> exact ⟨rfl, rfl⟩
  obtain ⟨he, hn, -⟩ := runs_sendWaiting (s := (s.modLink l fun x => received x f s.now).deliverFlit f) l
  rw [hl] at he hn
  refine ⟨he.trans (hacked _).1, hn.trans (hacked _).2, ?_, fun hw => ?_⟩
  · obtain ⟨r, hr⟩ := (onward_sendWaiting (s := (s.modLink l fun x => received x f s.now).deliverFlit f) l).1
    exact ⟨r, hr.symm.trans (congrArg (· ++ r) ha)⟩
  · have hnone : (received x f s.now).waiting = [] := (acked_waiting _ _ _).trans hw
    have ht : t.linkAt l = { received x f s.now with waiting := [] } := by
      refine (congrArg (State.linkAt · l) (sendWaiting_nil (by rw [hl]; exact hnone))).trans ?_
      rw [linkAt_modLink_same, hl]
    rw [ht]
    exact ⟨rfl, rfl, rfl⟩

/-- Settles O51, clause by clause; what the end of a link leaves rests on `Worn`. -/
theorem linkLayer : Obligations.LinkLayer := by
  unfold Obligations.LinkLayer
  intro s l f n e vc x good width open_ carries resent retrained mine
  have hwidth : lanesUsed l n = width := by cases l <;> rfl
  have hcar : x.open vc = true ↔ carries := open_iff x
  have hgood : good ↔ flitGood f = true ∧ f.seq = x.expect := good_iff
  refine ⟨sendFlit_closed, fun hd hf hc hw => ?_, fun hd hf h => ?_, exec_flitReceive_closed, fun ho hg => ?_, fun ho hg hn => ?_,
    fun ho hg hn => ?_, fun hd ht hw => ⟨fun hno hr h8 => ?_, fun a y b hab hy ha hb => ?_⟩, fun hd ht hr h => ⟨fun h8 => ?_, fun h8 => ?_⟩,
    exec_ackTimeout_early, exec_ackTimeout_idle, exec_linkRetrain_begins, exec_linkRetrain_closed, fun ht hd hw => ?_, fun ht hd hw => ?_, ?_⟩
  · rw [sendFlit_goes hd hf (hcar.mpr hc) hw]
    refine ⟨State.flitFor s l vc, out_launchFlit, rfl, rfl, rfl, flitFor_check, ?_, ?_, fun h => ?_, fun w h hn => ?_⟩ <;> rw [linkAt_launchFlit]
    · rfl
    · rfl
    · exact (credit_setCredits _ _ h).trans (if_pos rfl)
    · exact (credit_setCredits _ _ h).trans (if_neg fun e => hn (BitVec.eq_of_toNat_eq e))
  · exact sendFlit_waits hd hf (h.imp_left (mt hcar.mp))
  · obtain ⟨hgf, hseq⟩ := hgood.mp hg
    obtain ⟨he, hn, ha, hw⟩ := received_spec (s := s) (l := l) (f := f)
    refine ⟨_, exec_flitReceive_good ho hgf hseq, he, hn, ha, fun h => ?_⟩
    obtain ⟨hc, hr, hp⟩ := hw h
    obtain ⟨hrb, hpb⟩ := received_buffer x f s.now
    refine ⟨fun k hk => ?_, fun hno => hr.trans (hrb.trans ?_), fun a y b hab hy hz => ⟨hr.trans (hrb.trans ?_), hp.trans (hpb.trans ?_)⟩⟩
    · rw [hc]
      refine (getD_setCredits _ _ hk).trans (congrArg (· + Config.creditReturn f.credit k) ?_)
      exact credit_congr (acked_credits ..) _
    · rw [acked_none hno]
    · rw [acked_some hab hy hz]
    · rw [acked_some hab hy hz]
  · refine ⟨_, (exec_flitReceive_bad ho (mt hgood.mpr hg)).trans (if_neg (by simpa using hn)), rfl, ?_, rfl⟩
    exact linkAt_modLink_same l fun x => { x with nakSent := true }
  · exact (exec_flitReceive_bad ho (mt hgood.mpr hg)).trans (if_pos hn)
  · exact negativeAcknowledgement_resent (acked_none hno) hd ht hw hr h8
  · exact negativeAcknowledgement_resent (y := { x with retry := b, replays := 0, ackAt := s.now }) (acked_some hab hy ha) hd ht hw hb
      (by decide : 0 < 8)
  · exact ⟨_, exec_ackTimeout_due hd ht hr h, resent_replay hd ht hr h8⟩
  · rw [exec_ackTimeout_due hd ht hr h, replay_ends hd ht hr h8]
  · refine ⟨_, exec_retrainComplete_failed ht hd (hwidth.trans hw), ?_, ?_, rfl⟩
    · exact congrArg LinkSt.training (linkAt_modLink_same l _)
    · exact congrArg LinkSt.width (linkAt_modLink_same l _)
  · obtain ⟨t, hexec, hp, hout⟩ := exec_retrainComplete_done (n := n) ht hd (fun h => hw (hwidth.symm.trans h))
    obtain ⟨hu, hwd, htr, ⟨r, hr⟩, hsent⟩ := retrained_spec (lanesUsed l n) hd
    have hl := linkAt_of_pkg hp l
    refine ⟨t, hexec, ?_, ?_, ?_, ⟨r, ?_⟩, fun h8 y hy => ?_⟩
    · rw [hl, hu]
    · rw [hl, hwd, hwidth]
    · rw [hl, htr]
    · rw [hl, hr]
    · rw [hout]
      exact hsent h8 y hy
  · obtain ⟨hl, hdies, hpkgs⟩ := linkDown_spec (s := s) l
    have hfail : (s.shutLink l).pkg.failedUnits = s.pkg.failedUnits := outer_state (shutLink_spec l).1 (fun s => s.pkg.failedUnits) fun _ => rfl
    have hlost : ([0, 1, 2, 3].filter fun d => !s.pkg.failedUnits.contains (.die d) && !(s.shutLink l).reachDie d) = State.pathless (s.shutLink l) := by
      unfold State.pathless State.goodDies
      rw [hfail, List.filter_filter]
      exact List.filter_congr fun d _ => Bool.and_comm ..
    refine ⟨_, exec_linkDown l, by rw [hl]; rfl, by rw [hl]; rfl, by rw [hl]; rfl, ?_⟩
    intro s1 lost s2
    have hs2 : s2 = State.cutOff s l := congrArg (fun ds : List Nat => ds.foldl State.loseDie s1) hlost
    refine ⟨fun hnone hreach => ?_, fun d hd => hdies d (hlost ▸ hd), fun k hk => hpkgs k (hs2 ▸ hk)⟩
    have hcut : State.cutOff s l = s1 := congrArg (fun ds : List Nat => ds.foldl State.loseDie s1) (hlost.symm.trans hnone)
    rw [hcut, hreach]
    cases l <;> rfl

end
end Sys2Proof.Proofs
end

section
/-! PROOFS. The rack domain (spec/02_links.md R44, R45, R51 to R59): hellos, forming, and a context's root with its standby. -/

namespace Sys2Proof.Proofs
open Sys2Proof Sys2Proof.Machine Sys2Proof.Laws.Shapes

/-! ### Ports (R53) -/

/-- What tells whether a link carries traffic. -/
def portState (x : LinkSt) : Bool × Bool × Bool := (x.up, x.down, x.fenced)

section
variable {s t : State}

theorem portState_sendFlit (l k : Link) (vc : BitVec 3) : portState ((s.sendFlit l vc).linkAt k) = portState (s.linkAt k) := by
  by_cases h : linkKey k = linkKey l
  · have hkey (u : State) : u.linkAt k = u.linkAt l := congrArg (fun n => tget u.pkg.links n {}) h
    rw [hkey, hkey]
    unfold State.sendFlit
    dsimp only
    split
    · rfl
    · split
      · rw [linkAt_launchFlit]
        rfl
      · rw [linkAt_modLink_same]
        rfl
  · unfold State.sendFlit
    dsimp only
    split
    · rfl
    · split
      · rw [linkAt_launchFlit_other h]
      · exact congrArg portState ((linkAt_modLink ..).trans (if_neg h))

theorem portState_tell (n : Nat) (what : String) (ws : List W64) (k : Link) : portState ((s.tell n what ws).linkAt k) = portState (s.linkAt k) := by
  unfold State.tell State.message
  dsimp only
  split
  · exact portState_sendFlit ..
  · rfl

theorem anyUp_congr (h : ∀ k, portState (t.linkAt k) = portState (s.linkAt k)) : t.anyUp = s.anyUp := by
  have hu (k : Link) : (t.linkAt k).up = (s.linkAt k).up := congrArg (·.1) (h k)
  have hd (k : Link) : (t.linkAt k).down = (s.linkAt k).down := congrArg (·.2.1) (h k)
  have hf (k : Link) : (t.linkAt k).fenced = (s.linkAt k).fenced := congrArg (·.2.2) (h k)
  unfold State.anyUp
  simp only [hu, hd, hf]

theorem anyUp_tells (what : String) (ws : List W64) (ns : List Nat) : (ns.foldl (fun s n => s.tell n what ws) s).anyUp = s.anyUp :=
  foldl_kept State.anyUp (fun _ n => anyUp_congr (portState_tell n what ws)) ns

/-- Each package of a list is told the same. -/
theorem mem_tells {ns : List Nat} {n : Nat} (what : String) (ws : List W64) (h : n ∈ ns) :
    .control n what ws ∈ (ns.foldl (fun s n => s.tell n what ws) s).out := mem_announce what (ws := fun _ => ws) (fun _ => rfl) h

/-! ### Forming (R53, R54) -/

/-- A package that has left forming with a set of members. -/
def State.Joined (s : State) (m : W64) (t : State) : Prop :=
  t.pkg.members = (if s.anyUp then m else w64 (2 ^ s.self)) ∧ t.pkg.epoch = s.pkg.epoch + 1 ∧ t.pkg.lost = 0 ∧
    t.pkg.dstate = (if s.anyUp then .member else .standalone)

theorem joined_join (m : W64) : State.Joined s m (s.join m) := by
  unfold State.Joined State.join
  cases s.anyUp <;> exact ⟨rfl, rfl, rfl, rfl⟩

/-- Messages before it change nothing of a join. -/
theorem joined_of_outer {u : State} {m : W64} (h : outer u = outer s) (ha : u.anyUp = s.anyUp) : State.Joined s m (u.join m) := by
  have hs : u.self = s.self := outer_state h State.self fun _ => rfl
  have he : u.pkg.epoch = s.pkg.epoch := outer_state h (fun s => s.pkg.epoch) fun _ => rfl
  have hj := joined_join (s := u) m
  unfold State.Joined at hj ⊢
  rwa [hs, he, ha] at hj

/-- The packages that a package hears of, without the excluded ones. -/
def State.heardSet (s : State) : W64 := s.known &&& ~~~s.pkg.excludedPkgs

theorem publish_formed (h : s.pkg.dstate ≠ .forming) : s.publish = s := by
  unfold State.publish
  exact if_pos (bne_iff_ne.mpr h)

/-- A set that is published: by a package alone, or by the lowest to all others in it. -/
theorem publish_forming (h : s.pkg.dstate = .forming) (hl : lowestPkg (State.heardSet s) = s.self ∨ s.anyUp = false) :
    State.Joined s (State.heardSet s) s.publish ∧ (s.anyUp = true → ∀ k, k < 64 → k ≠ s.self → (State.heardSet s).getLsbD k = true →
      .control k "MEMBER_SET" [State.heardSet s] ∈ s.publish.out) := by
  have hform : ¬(s.pkg.dstate != .forming) = true := by simp [h]
  cases ha : s.anyUp with
  | false =>
    have hp : s.publish = s.join (State.heardSet s) := by
      unfold State.publish
      exact (if_neg hform).trans (if_pos (by rw [ha]; rfl))
    rw [hp]
    exact ⟨joined_join _, fun e => absurd e (by decide)⟩
  | true =>
    have hlow : lowestPkg (State.heardSet s) = s.self := hl.resolve_right (by simp [ha])
    have hp : s.publish = ((((List.range 64).filter fun n => n != s.self && (State.heardSet s).getLsbD n)).foldl
        (fun s' n => s'.tell n "MEMBER_SET" [State.heardSet s]) s).join (State.heardSet s) := by
      unfold State.publish
      exact (if_neg hform).trans ((if_neg (by rw [ha]; decide)).trans (if_neg (not_not_intro hlow)))
    rw [hp]
    refine ⟨joined_of_outer (outer_announce _ _ fun _ => _) (anyUp_tells ..), fun _ k hk hs hb => ?_⟩
    exact mem_tells _ _ (List.mem_filter.mpr ⟨List.mem_range.mpr hk, by simp [hs, hb]⟩)

theorem allHeard_iff : s.allHeard = true ↔ s.pkg.present ≠ 0 ∧ s.pkg.present &&& ~~~s.known = 0 := by
  unfold State.allHeard
  rw [Bool.and_eq_true, bne_iff_ne, beq_iff_eq]

theorem exec_domainPublish_waits (h : s.pkg.present = 0 ∨ s.pkg.present &&& ~~~s.known ≠ 0) : exec .domainPublish s = .next s := by
  have hall : s.allHeard = false := Bool.eq_false_iff.mpr fun e => h.elim (allHeard_iff.mp e).1 (absurd (allHeard_iff.mp e).2)
  exact if_pos (by rw [hall]; exact Bool.or_true _)

theorem exec_domainPublish_heard (hb : s.pkg.bring = .reduced) (hp : s.pkg.present ≠ 0) (hk : s.pkg.present &&& ~~~s.known = 0) :
    exec .domainPublish s = .next s.publish := by
  have hall : s.allHeard = true := allHeard_iff.mpr ⟨hp, hk⟩
  exact if_neg (by rw [hall, hb]; decide)

/-- A package that is not forming publishes nothing. -/
theorem exec_domainPublish_formed (h : s.pkg.dstate ≠ .forming) : exec .domainPublish s = .next s := by
  have hp : exec .domainPublish s = if s.pkg.bring != .reduced || !s.allHeard then .next s else .next s.publish := rfl
  rw [hp, publish_formed h, ite_self]

theorem exec_formationTimeout : exec .formationTimeout s = .next s.publish := rfl

theorem exec_memberSet_joins {v : W64} (hf : s.pkg.dstate = .forming) (hb : s.pkg.bring = .reduced) (hv : v.getLsbD s.self = true)
    (hx : s.pkg.excludedPkgs.getLsbD s.self = false) : exec (.memberSet v) s = .next (s.join v) :=
  if_pos (by rw [hf, hb, hv, hx]; decide)

theorem exec_memberSet_other {v : W64} (h : s.pkg.dstate ≠ .forming ∨ v.getLsbD s.self = false ∨ s.pkg.excludedPkgs.getLsbD s.self = true) :
    exec (.memberSet v) s = .next s := by
  refine if_neg ?_
  rcases h with h | h | h <;> simp [h]

/-- Some context spans more than one package. -/
def State.spans (s : State) : Bool := s.ctxs.any fun y => y.2.used && decide (1 < y.2.packages.length)

theorem exec_domainReform (v : W64) : exec (.domainReform v) s = if State.spans s then .next (s.emit (.mgmt "REFORM_REFUSED" 0))
    else if !v.getLsbD s.self then .next s
    else .next (if s.pkg.bring == .full || s.pkg.bring == .degraded then { s.join v with homes := (s.join v).wideHomes } else s.join v) := rfl

theorem exec_domainReform_refused {v : W64} (h : State.spans s = true) : exec (.domainReform v) s = .next (s.emit (.mgmt "REFORM_REFUSED" 0)) := by
  rw [exec_domainReform, h, if_pos rfl]

theorem joined_homes {m : W64} {hs : List Nat} (h : State.Joined s m t) : State.Joined s m { t with homes := hs } := h

theorem exec_domainReform_done {v : W64} (h : State.spans s = false) (hv : v.getLsbD s.self = true) :
    ∃ t, exec (.domainReform v) s = .next t ∧ State.Joined s v t ∧ t.mem = s.mem := by
  rw [exec_domainReform, h, hv]
  refine ⟨_, rfl, ?_⟩
  split
  · exact ⟨joined_homes (joined_join v), rfl⟩
  · exact ⟨joined_join v, rfl⟩

/-! ### Numbers before the end of `BOOT` (R45, R52, R53) -/

/-- The package's numbers may still be written. -/
def State.early (s : State) : Prop := s.pkg.bring = .off ∨ s.pkg.bring = .boot

theorem early_iff : State.early s ↔ (s.pkg.bring == .off || s.pkg.bring == .boot) = true := by
  unfold State.early
  simp

theorem exec_packageNumberEffecter_early {a b : Nat} (h : State.early s) (ha : a < 16) (hb : b < 4) :
    ∃ t, exec (.packageNumberEffecter a b) s = .next t ∧ t.pkg = { s.pkg with tray := a, slot := b } ∧ t.mem = s.mem ∧
      t.homes = (if s.pkg.bring = .boot then [8 * (4 * a + b), 8 * (4 * a + b) + 1] else s.homes) := by
  have hcond : ((s.pkg.bring == .off || s.pkg.bring == .boot) && decide (a < 16) && decide (b < 4)) = true := by
    rw [early_iff.mp h, decide_eq_true ha, decide_eq_true hb]
    rfl
  refine ⟨_, if_pos hcond, ?_⟩
  by_cases hboot : s.pkg.bring = .boot
  · rw [if_pos (beq_iff_eq.mpr hboot), if_pos hboot]
    exact ⟨rfl, rfl, rfl⟩
  · rw [if_neg (by simpa using hboot), if_neg hboot]
    exact ⟨rfl, rfl, rfl⟩

theorem exec_packageNumberEffecter_late {a b : Nat} (h : ¬State.early s) : exec (.packageNumberEffecter a b) s = .next s := by
  refine if_neg ?_
  rw [Bool.eq_false_iff.mpr fun e => h (early_iff.mpr e)]
  exact Bool.false_ne_true

theorem exec_domainIdEffecter (v : W64) : exec (.domainIdEffecter v) s =
    if s.pkg.bring == .off || s.pkg.bring == .boot then .next (s.modPkg fun p => { p with domain := v }) else .next s := rfl

theorem exec_presentMaskEffecter (v : W64) : exec (.presentMaskEffecter v) s =
    if s.pkg.bring == .off || s.pkg.bring == .boot then .next (s.modPkg fun p => { p with present := v }) else .next s := rfl

/-! ### Hellos (R44, R45, R52) -/

/-- The number of the switch port to which a port is cabled (R44). -/
def State.cabledTo (s : State) (die port : Nat) : Nat := 8 * s.self + 2 * die + port % 2

/-- A hello of this package. -/
def State.greeting (s : State) (die port : Nat) : Hello :=
  { domain := s.pkg.domain, pkg := s.self, die := die, port := port, swport := State.cabledTo s die port, epoch := s.pkg.epoch }

theorem exec_helloSend {die port : Nat} (hb : s.pkg.bring = .reduced) (hd : (s.linkAt (.port die port)).down = false)
    (hf : (s.linkAt (.port die port)).fenced = false) :
    ∃ t, exec (.helloSend die port) s = .next t ∧ ⟨s.now + 800000, none, .none, .helloSend die port⟩ ∈ t.agenda ∧
      ((s.linkAt (.port die port)).up = true → .hello die port (State.greeting s die port) ∈ t.out) := by
  have hexec : exec (.helloSend die port) s = .next ((if (s.linkAt (.port die port)).up then
      (s.sendFlit (.port die port) 3).emit (.hello die port (State.greeting s die port)) else s).later 800000 .none (.helloSend die port)) :=
    if_neg (by rw [hb, hd, hf]; decide)
  have hnow (u : State) (h : u.now = s.now) :
      ⟨s.now + 800000, none, .none, .helloSend die port⟩ ∈ (u.later 800000 .none (.helloSend die port)).agenda := by
    rw [← h]
    exact mem_later ..
  refine ⟨_, hexec, ?_⟩
  split
  · exact ⟨hnow _ (outer_state (outer_sendFlit (s := s) (.port die port) 3) State.now fun _ => rfl), fun _ => mem_emit _⟩
  next h => exact ⟨hnow s rfl, fun e => absurd e h⟩

/-- The switch port that a hello names, kept with the link. -/
def State.heardPort (s : State) (die port : Nat) (h : Hello) : State := s.modLink (.port die port) fun x => { x with swport := h.swport % 512 }

theorem exec_helloReceive (die port : Nat) (h : Hello) : exec (.helloReceive die port h) s =
    if h.swport ≠ State.cabledTo s die port then
      .next (((State.heardPort s die port h).fence (.port die port) true).emit (.mgmt "CABLING" (8 * die + port)))
    else if h.domain ≠ s.pkg.domain then .next ((State.heardPort s die port h).fence (.port die port) false)
    else if h.pkg = s.self then .next (((State.heardPort s die port h).modPkg fun p =>
      { p with excludedPkgs := p.excludedPkgs ||| pkgBit s.self }).emit (.mgmt "CONFLICT" s.self))
    else if s.pkg.dstate == .forming && s.pkg.bring == .reduced && ((State.heardPort s die port h).hear die port h).allHeard then
      .next (((State.heardPort s die port h).hear die port h).soon .none .domainPublish)
    else .next ((State.heardPort s die port h).hear die port h) := rfl

theorem linkAt_fence (l : Link) (c : Bool) : (s.fence l c).linkAt l =
    { s.linkAt l with fenced := true, up := false, training := false, cabling := (s.linkAt l).cabling || c } := linkAt_modLink_same ..

/-- Two hellos of one port come too soon after each other (notes/assumptions/89.md). -/
def State.tooSoon (s : State) (die port : Nat) (h : Hello) : Prop :=
  ∃ at_, tfind s.pkg.heardAt (helloKey die port h) = some at_ ∧ s.now < at_ + 400000

theorem hear_spec (die port : Nat) (h : Hello) : let t := s.hear die port h
    t.pkg.heard = s.pkg.heard ||| w64 (2 ^ h.pkg) ∧ t.pkg.links = s.pkg.links ∧ t.pkg.present = s.pkg.present ∧ t.self = s.self ∧
      (State.tooSoon s die port h → t.pkg.excludedPkgs = s.pkg.excludedPkgs ||| w64 (2 ^ h.pkg)) ∧
      (¬State.tooSoon s die port h → t.pkg.excludedPkgs = s.pkg.excludedPkgs) := by
  unfold State.tooSoon State.hear
  refine ⟨rfl, rfl, rfl, rfl, ?_⟩
  cases ha : tfind s.pkg.heardAt (helloKey die port h) with
  | none => exact ⟨fun ⟨_, e, _⟩ => absurd e (by simp), fun _ => by simp [State.modPkg, ha]⟩
  | some at_ =>
    refine ⟨fun ⟨_, e, hlt⟩ => ?_, fun hn => ?_⟩
    · cases e
      simp [State.modPkg, ha, hlt, pkgBit]
    · have hge : ¬s.now < at_ + 400000 := fun hlt => hn ⟨_, rfl, hlt⟩
      simp [State.modPkg, ha, hge]

/-! ### Heartbeats and reports (R56, R57, R59) -/

/-- The other packages of a context that can be reached. -/
def State.peers (s : State) (ctx : Nat) : List Nat := (s.reachable (s.ctxAt ctx)).filter fun k => k != s.self

theorem mem_tellOthers {ctx n : Nat} (what : String) (ws : List W64) (h : n ∈ State.peers s ctx) :
    .control n what (w64 ctx :: ws) ∈ (s.tellOthers ctx what ws).out := mem_tells what (w64 ctx :: ws) h

theorem exec_heartbeat_root (hu : (s.ctxAt s.subj).used = true) (hr : (s.ctxAt s.subj).root = s.self) :
    exec .heartbeat s = if s.owl.state = 3 then .next s else
      .next ((if s.owl.state = 1 then s.tellOthers s.subj "HEARTBEAT" [] else s).later 40000 (.on s.subj) .heartbeat) :=
  (if_neg (by simp [hu])).trans (if_pos hr)

theorem exec_heartbeat_member (hu : (s.ctxAt s.subj).used = true) (hr : (s.ctxAt s.subj).root ≠ s.self) : exec .heartbeat s =
    .next ((s.modCtx s.subj fun c => { c with beat := s.now, reports := c.reports.filter fun n => n != s.self }).later 800000
      (.on s.subj) .heartbeatTimeout) :=
  (if_neg (by simp [hu])).trans (if_neg hr)

/-- A report of the root entered. -/
def State.reported (s : State) (ctx n : Nat) : State :=
  s.modCtx ctx fun c => { c with reports := if c.reports.contains n then c.reports else c.reports ++ [n] }

theorem contains_reported (ctx n k : Nat) :
    ((State.reported s ctx n).ctxAt ctx).reports.contains k = ((s.ctxAt ctx).reports.contains k || k == n) := by
  unfold State.reported
  rw [ctxAt_modCtx, if_pos rfl]
  dsimp only
  split
  next h =>
    cases hk : k == n with
    | false => exact (Bool.or_false _).symm
    | true => rw [beq_iff_eq.mp hk, h]; rfl
  next h =>
    rw [List.contains_append]
    exact congrArg _ ((List.contains_cons ..).trans (Bool.or_false _))

theorem mem_reported (ctx n : Nat) : n ∈ ((State.reported s ctx n).ctxAt ctx).reports := by
  rw [← List.contains_iff_mem, contains_reported, beq_self_eq_true, Bool.or_true]

/-- What is read of a context beside its reports. -/
theorem ctxAt_reported {α : Type} (f : Ctx → α) (hf : ∀ (c : Ctx) r, f { c with reports := r } = f c) (ctx n : Nat) :
    f ((State.reported s ctx n).ctxAt ctx) = f (s.ctxAt ctx) := by
  unfold State.reported
  rw [ctxAt_modCtx, if_pos rfl]
  exact hf ..

theorem reportRoot_root {ctx n : Nat} (h : (s.ctxAt ctx).root = s.self) : s.reportRoot ctx n = (State.reported s ctx n).checkRoot ctx := if_pos h
theorem reportRoot_member {ctx n : Nat} (h : (s.ctxAt ctx).root ≠ s.self) : s.reportRoot ctx n = (State.reported s ctx n).tally ctx := if_neg h

theorem estate_tally (ctx : Nat) : estate (s.tally ctx) = estate s := by
  unfold State.tally
  dsimp only
  split
  · rfl
  · split
    · rfl
    · split
      · exact estate_stopQueue ..
      · rfl

theorem onward_tally (ctx : Nat) : Onward s (s.tally ctx) := by
  unfold State.tally
  dsimp only
  split
  · exact Onward.refl s
  · split
    · exact onward_soon ..
    · split
      · exact onward_stopQueue ..
      · exact Onward.refl s

/-- The standby takes over once more than half of the packages have reported. -/
theorem tally_takeover {ctx : Nat} (hs : (s.ctxAt ctx).standby = s.self) (h : (s.ctxAt ctx).packages.length < 2 * (s.ctxAt ctx).reports.length) :
    s.tally ctx = s.soon (.on ctx) .standbyTakeover := (if_neg (Nat.not_le.mpr h)).trans (if_pos hs)

theorem reports_checkRoot (ctx : Nat) : ((s.checkRoot ctx).ctxAt ctx).reports = (s.ctxAt ctx).reports := by
  unfold State.checkRoot
  dsimp only
  split
  · rw [ctxAt_modCtx, if_pos rfl]
  · rfl

theorem frozen_checkRoot {ctx : Nat} (hu : (s.ctxAt ctx).used = true) (hr : (s.ctxAt ctx).root = s.self)
    (h : 2 * (s.rootReach (s.ctxAt ctx)).length < (s.ctxAt ctx).packages.length) : ((s.checkRoot ctx).ctxAt ctx).frozen = true := by
  unfold State.checkRoot
  dsimp only
  rw [if_pos (by simp [hu, hr, h]), ctxAt_modCtx, if_pos rfl]

/-- A filtered list without repeats, counted with one of its members apart. -/
theorem length_filter_apart {R : List Nat} (hR : R.Nodup) (a : Nat) (p : Nat → Bool) :
    (R.filter p).length = ((R.filter fun k => k != a).filter p).length + if a ∈ R ∧ p a = true then 1 else 0 := by
  induction R with
  | nil => rfl
  | cons b R ih =>
    obtain ⟨hb, hR⟩ := List.nodup_cons.mp hR
    have ih := ih hR
    by_cases hba : b = a
    · subst hba
      have hno : ¬(b ∈ R ∧ p b = true) := fun h => hb h.1
      rw [if_neg hno] at ih
      cases hp : p b <;> simp [hp, ih]
    · have hin : a ∈ b :: R ↔ a ∈ R := by simp [Ne.symm hba]
      have hkeep : (b :: R).filter (fun k => k != a) = b :: R.filter fun k => k != a := List.filter_cons_of_pos (by simpa using hba)
      simp only [hin, hkeep]
      cases hp : p b
      · simpa [List.filter_cons, hp] using ih
      · simp only [List.filter_cons, hp, if_true, List.length_cons, ih]
        omega

/-- The packages that a root reaches after a report: the others, and itself. -/
theorem rootReach_reported (ctx n : Nat) : let c := s.ctxAt ctx
    ((State.reported s ctx n).rootReach ((State.reported s ctx n).ctxAt ctx)).length =
      ((State.peers s ctx).filter fun k => k != n && !c.reports.contains k).length +
        (if s.self < 64 ∧ c.packages.contains s.self = true ∧ c.reports.contains s.self = false ∧ n ≠ s.self then 1 else 0) := by
  intro c
  have hpk : (State.reported s ctx n).reachable ((State.reported s ctx n).ctxAt ctx) = s.reachable c :=
    ctxAt_reported (fun c => s.reachable c) (fun _ _ => rfl) ctx n
  have hreach : (State.reported s ctx n).rootReach ((State.reported s ctx n).ctxAt ctx) =
      (s.reachable c).filter fun k => k != n && !c.reports.contains k := by
    unfold State.rootReach
    rw [hpk]
    refine List.filter_congr fun k _ => ?_
    rw [contains_reported, Bool.not_or, Bool.and_comm]
    rfl
  have hnodup : (s.reachable c).Nodup := (List.nodup_range.filter _).filter _
  have hself : s.self ∈ s.reachable c ↔ s.self < 64 ∧ c.packages.contains s.self = true := by
    have hlt : s.self ∈ c.packages → s.self < 64 := fun h => List.mem_range.mp (List.mem_filter.mp h).1
    unfold State.reachable
    rw [List.mem_filter, List.contains_iff_mem]
    simpa using hlt
  rw [hreach, length_filter_apart hnodup s.self]
  refine congrArg _ (if_congr ?_ rfl rfl)
  rw [hself, and_assoc, Bool.and_eq_true, bne_iff_ne, Bool.not_eq_true', and_comm (a := s.self ≠ n), ne_comm (a := s.self)]

theorem exec_heartbeatTimeout_early (h : s.now < (s.ctxAt s.subj).beat + 800000) : exec .heartbeatTimeout s = .next s :=
  if_pos (by rw [decide_eq_true h]; exact Bool.or_true _)

/-- The packages that hear of a root that is silent. -/
def State.hearers (s : State) : List Nat :=
  if s.standbyGone (s.ctxAt s.subj) then State.peers s s.subj else [(s.ctxAt s.subj).standby, (s.ctxAt s.subj).root].filter fun n => n != s.self

/-- The root's silence told. -/
def State.toldSilent (s : State) : State := State.announce s (State.hearers s) "UNREACHABLE" fun u => [w64 u.subj]

theorem exec_heartbeatTimeout_late (hu : (s.ctxAt s.subj).used = true) (hr : (s.ctxAt s.subj).root ≠ s.self)
    (h : (s.ctxAt s.subj).beat + 800000 ≤ s.now) : exec .heartbeatTimeout s = .next ((State.toldSilent s).reportRoot s.subj s.self) :=
  if_neg (by simp [hu, hr, h])

/-- A silent root is reported, and the report is counted here too. -/
theorem heartbeatTimeout_spec (hr : (s.ctxAt s.subj).root ≠ s.self) : let t := (State.toldSilent s).reportRoot s.subj s.self
    s.self ∈ (t.ctxAt s.subj).reports ∧ ∀ k ∈ State.hearers s, .control k "UNREACHABLE" [w64 s.subj] ∈ t.out := by
  have ho : outer (State.toldSilent s) = outer s := outer_announce ..
  have hm : ∀ k ∈ State.hearers s, .control k "UNREACHABLE" [w64 s.subj] ∈ (State.toldSilent s).out :=
    fun k hk => mem_announce "UNREACHABLE" (ws := fun u => [w64 u.subj]) (fun _ => rfl) hk
  generalize State.toldSilent s = u at ho hm
  have hroot : (u.ctxAt s.subj).root ≠ u.self := by
    rw [outer_state ho State.self fun _ => rfl, outer_state ho (fun u => u.ctxAt s.subj) fun _ => rfl]
    exact hr
  dsimp only
  rw [reportRoot_member hroot]
  refine ⟨?_, fun k hk => (onward_tally _).said (hm k hk)⟩
  rw [estate_ctx (estate_tally _) Ctx.reports fun _ => rfl]
  exact mem_reported ..

theorem exec_unreachableReport_order {n : Nat} (hu : (s.ctxAt s.subj).used = true) (hn : (s.ctxAt s.subj).packages.contains n = true)
    (hr : (s.ctxAt s.subj).root ≠ s.self)
    (h : n = (s.ctxAt s.subj).root ∨ (n = (s.ctxAt s.subj).standby ∧ (s.ctxAt s.subj).standby ≠ s.self)) :
    exec (.unreachableReport n) s = .next (s.stopWork s.subj) := by
  have hcond : ((s.ctxAt s.subj).root ≠ s.self &&
      (n = (s.ctxAt s.subj).root || (n = (s.ctxAt s.subj).standby && (s.ctxAt s.subj).standby ≠ s.self))) = true := by
    simpa [hr] using h
  exact (if_neg (by rw [hu, hn]; decide)).trans (if_pos hcond)

theorem exec_unreachableReport_counted {n : Nat} (hu : (s.ctxAt s.subj).used = true) (hn : (s.ctxAt s.subj).packages.contains n = true)
    (h : (s.ctxAt s.subj).root = s.self ∨ (n ≠ (s.ctxAt s.subj).root ∧ (s.ctxAt s.subj).standby = s.self)) :
    exec (.unreachableReport n) s = .next (s.reportRoot s.subj n) := by
  have hcond : ¬((s.ctxAt s.subj).root ≠ s.self &&
      (n = (s.ctxAt s.subj).root || (n = (s.ctxAt s.subj).standby && (s.ctxAt s.subj).standby ≠ s.self))) = true := by
    rcases h with h | ⟨h, k⟩
    · simp [h]
    · simp [h, k]
  exact (if_neg (by rw [hu, hn]; decide)).trans (if_neg hcond)

/-- A report that reaches the standby. -/
theorem reportRoot_standby {ctx n : Nat} (hr : (s.ctxAt ctx).root ≠ s.self) (hs : (s.ctxAt ctx).standby = s.self) :
    n ∈ ((s.reportRoot ctx n).ctxAt ctx).reports ∧ ((s.ctxAt ctx).packages.length < 2 * ((s.reportRoot ctx n).ctxAt ctx).reports.length →
      ⟨s.now, none, .on ctx, .standbyTakeover⟩ ∈ (s.reportRoot ctx n).agenda) := by
  rw [reportRoot_member hr]
  have hrep : (((State.reported s ctx n).tally ctx).ctxAt ctx).reports = ((State.reported s ctx n).ctxAt ctx).reports :=
    estate_ctx (estate_tally _) Ctx.reports (fun _ => rfl) _
  have hpk : ((State.reported s ctx n).ctxAt ctx).packages = (s.ctxAt ctx).packages := ctxAt_reported Ctx.packages (fun _ _ => rfl) ..
  have hst : ((State.reported s ctx n).ctxAt ctx).standby = (State.reported s ctx n).self := (ctxAt_reported Ctx.standby (fun _ _ => rfl) ..).trans hs
  rw [hrep]
  refine ⟨mem_reported .., fun h => ?_⟩
  rw [tally_takeover hst (by rwa [hpk])]
  exact mem_soon (s := State.reported s ctx n) ..

/-- A report that reaches the root. -/
theorem reportRoot_counted {ctx n : Nat} (hu : (s.ctxAt ctx).used = true) (hr : (s.ctxAt ctx).root = s.self) :
    n ∈ ((s.reportRoot ctx n).ctxAt ctx).reports ∧
      (2 * ((State.reported s ctx n).rootReach ((State.reported s ctx n).ctxAt ctx)).length < (s.ctxAt ctx).packages.length →
        ((s.reportRoot ctx n).ctxAt ctx).frozen = true) := by
  rw [reportRoot_root hr]
  refine ⟨?_, fun h => ?_⟩
  · rw [reports_checkRoot]
    exact mem_reported ..
  · refine frozen_checkRoot ?_ ?_ ?_
    · exact (ctxAt_reported Ctx.used (fun _ _ => rfl) ..).trans hu
    · exact (ctxAt_reported Ctx.root (fun _ _ => rfl) ..).trans hr
    · rwa [ctxAt_reported Ctx.packages fun _ _ => rfl]

/-! ### The takeover (R58) -/

theorem exec_standbyTakeover (hu : (s.ctxAt s.subj).used = true) (hr : (s.ctxAt s.subj).root ≠ s.self) (hs : (s.ctxAt s.subj).standby = s.self) :
    exec .standbyTakeover s =
      .next (((s.modCtx s.subj fun c => { c with census := [] }).tellOthers s.subj "FREEZE" []).soon (.on s.subj) .freeze) :=
  if_neg (by simp [hu, hr, hs])

theorem peers_modCtx {ctx : Nat} {f : Ctx → Ctx} (hf : ∀ c, (f c).packages = c.packages) : State.peers (s.modCtx ctx f) ctx = State.peers s ctx := by
  unfold State.peers State.reachable
  rw [ctxAt_modCtx, if_pos rfl, hf]
  rfl

theorem exec_freeze (hu : (s.ctxAt s.subj).used = true) : ∃ t, exec .freeze s = .next t ∧ (t.ctxAt s.subj).frozen = true ∧
    t.gangs = s.gangs ∧ t.g = s.g ∧ t.mem = s.mem ∧ ((s.ctxAt s.subj).standby ≠ s.self → .control (s.ctxAt s.subj).standby "CENSUS"
      (w64 s.subj :: (s.launchesOf s.subj).flatMap fun id => CensusPart.words (s.censusOf id)) ∈ t.out) := by
  have hexec : exec .freeze s =
      if (s.ctxAt s.subj).standby ≠ s.self then
        .next ((s.modCtx s.subj fun c => { c with frozen := true, census := c.census ++ (s.launchesOf s.subj).map s.censusOf }).tell
          (s.ctxAt s.subj).standby "CENSUS" (w64 s.subj :: ((s.launchesOf s.subj).map s.censusOf).flatMap CensusPart.words))
      else if (State.peers s s.subj).isEmpty then
        .next ((s.modCtx s.subj fun c => { c with frozen := true, census := c.census ++ (s.launchesOf s.subj).map s.censusOf }).soon
          (.on s.subj) (.census []))
      else .next (s.modCtx s.subj fun c => { c with frozen := true, census := c.census ++ (s.launchesOf s.subj).map s.censusOf }) :=
    if_neg (by simp [hu])
  have hfrozen : ((s.modCtx s.subj fun c => { c with frozen := true, census := c.census ++ (s.launchesOf s.subj).map s.censusOf }).ctxAt
      s.subj).frozen = true := by rw [ctxAt_modCtx, if_pos rfl]
  rw [hexec]
  by_cases hs : (s.ctxAt s.subj).standby ≠ s.self
  · rw [if_pos hs]
    have ho := outer_tell (s := s.modCtx s.subj fun c => { c with frozen := true, census := c.census ++ (s.launchesOf s.subj).map s.censusOf })
      (s.ctxAt s.subj).standby "CENSUS" (w64 s.subj :: ((s.launchesOf s.subj).map s.censusOf).flatMap CensusPart.words)
    refine ⟨_, rfl, ?_, ?_, ?_, State.tell_mem .., fun _ => ?_⟩
    · rw [outer_state ho (fun u => u.ctxAt s.subj) fun _ => rfl]
      exact hfrozen
    · exact (outer_state ho State.gangs fun _ => rfl).trans rfl
    · exact (outer_state ho State.g fun _ => rfl).trans rfl
    · rw [List.flatMap_map]
      exact mem_tell ..
  · rw [if_neg hs]
    split
    · exact ⟨_, rfl, hfrozen, rfl, rfl, rfl, fun h => absurd h hs⟩
    · exact ⟨_, rfl, hfrozen, rfl, rfl, rfl, fun h => absurd h hs⟩

theorem exec_census {parts : List CensusPart} (hu : (s.ctxAt s.subj).used = true) (hr : (s.ctxAt s.subj).root ≠ s.self)
    (hs : (s.ctxAt s.subj).standby = s.self) (hf : (s.ctxAt s.subj).frozen = true) : exec (.census parts) s =
      .next (((s.launchesOf s.subj).foldl (fun y id => y.settleLaunch ((s.ctxAt s.subj).census ++ parts) id) s).becomeRoot s.subj) :=
  if_neg (by simp [hu, hr, hs, hf])

/-- A queue as its copy in memory gives it, at the head of what was recorded (R58). -/
def State.takenOver (s : State) (adr : Nat) (q : Queue) : Queue :=
  { s.fromQcb adr q with tail := (s.fromQcb adr q).head, rootchg := !(s.fromQcb adr q).rootchg }

/-- The context of which this package becomes the root. -/
def State.rooted (s : State) (ctx : Nat) : State :=
  s.modCtx ctx fun c => { c with root := s.self, standby := standbyOf (s.reachable (s.ctxAt ctx)) s.self, reports := [], census := [] }

/-- A takeover: the root changes, the queue goes on, and the others hear of it. -/
theorem becomeRoot_run {u : State} {ctx adr : Nat} {q : Queue} (hu : s.dropPackage (s.ctxAt ctx).root = u)
    (h : u.takeoverQcb (u.queueAt ctx) = some (adr, q)) : ∃ y, s.becomeRoot ctx = State.soon y (.on ctx) .thaw ∧
      outer y = outer ((State.rooted u ctx).modQcb ctx fun _ => State.takenOver u adr q) := by
  unfold State.becomeRoot
  dsimp only
  rw [hu, h]
  refine ⟨_, rfl, ?_⟩
  split
  · exact outer_tellOthers ..
  · exact (outer_later ..).trans (outer_tellOthers ..)

/-- The context and its queue once this package has become the root. -/
theorem becomeRoot_spec {u : State} {ctx adr : Nat} {q : Queue} (hu : s.dropPackage (s.ctxAt ctx).root = u)
    (h : u.takeoverQcb (u.queueAt ctx) = some (adr, q)) : let t := s.becomeRoot ctx
    (t.ctxAt ctx).root = s.self ∧ (t.ctxAt ctx).reports = [] ∧ t.queueAt ctx = published (State.takenOver u adr q) := by
  have hself : u.self = s.self := by
    have hp := pkg_dropPackage (s := s) (s.ctxAt ctx).root
    rw [← hu]
    unfold State.self
    rw [hp]
  obtain ⟨y, hy, ho⟩ := becomeRoot_run hu h
  have hctx : y.ctxAt ctx = (State.rooted u ctx).ctxAt ctx :=
    (outer_state ho (fun s => s.ctxAt ctx) fun _ => rfl).trans (house_state (house_modQcb ..) (fun s => s.ctxAt ctx) fun _ => rfl)
  have hroot : (State.rooted u ctx).ctxAt ctx =
      { u.ctxAt ctx with root := u.self, standby := standbyOf (u.reachable (u.ctxAt ctx)) u.self, reports := [], census := [] } :=
    (ctxAt_modCtx ..).trans (if_pos rfl)
  have hq : y.queueAt ctx = published (State.takenOver u adr q) :=
    (queueAt_of_outer ho ctx).trans ((queueAt_modQcb ..).trans (if_pos rfl))
  dsimp only
  rw [hy]
  refine ⟨?_, ?_, hq⟩
  · change (y.ctxAt ctx).root = s.self
    rw [hctx, hroot]
    exact hself
  · change (y.ctxAt ctx).reports = []
    rw [hctx, hroot]

/-! ### Thaw (R58 step 5) -/

theorem ctxs_soons {α : Type} (j : α → Subject) (e : α → Instr) (xs : List α) : (xs.foldl (fun s x => s.soon (j x) (e x)) s).ctxs = s.ctxs :=
  foldl_kept State.ctxs (f := fun s x => s.soon (j x) (e x)) (fun _ _ => rfl) xs

theorem ctxs_wakeContext (ctx : Nat) : (s.wakeContext ctx).ctxs = s.ctxs := by
  have hsplit : (s.resplit ctx).ctxs = s.ctxs := by
    refine foldl_kept State.ctxs (fun u p => ?_) _
    split
    · exact (ctxs_soons (fun _ => .none) (fun ts => .split p.1 none ts) _).trans (modLaunch_ctxs ..)
    · rfl
  exact (ctxs_soons (fun n => .on n) (fun _ => .launchComplete) _).trans ((ctxs_soons (fun n => .on n) (fun _ => .teamAdmit) _).trans hsplit)

theorem ctxs_goOn (ctx : Nat) (m : Option Bool) :
    (s.goOn ctx m).ctxs = (s.modCtx ctx fun c => { c with halt := false, fixed := m.getD c.fixed }).ctxs := by
  refine foldl_kept State.ctxs (fun u p => ?_) _
  split
  · split <;> rfl
  · rfl

/-- The mode that the number above a context's gives (04 R115). -/
def thawMode : Nat → Option Bool
  | 1 => some false
  | 2 => some true
  | _ => none

/-- A context whose splits, steals and admission go on. -/
def State.thawed (s : State) (k : Nat) : State := s.modCtx k fun c => { c with frozen := false }

theorem frozen_thawed (k : Nat) : ((State.thawed s k).ctxAt k).frozen = false := by
  unfold State.thawed
  rw [ctxAt_modCtx, if_pos rfl]

theorem exec_thaw (hu : (s.ctxAt (s.subj % 64)).used = true) : exec .thaw s =
    if (s.ctxAt (s.subj % 64)).root = s.self then
      .next (if (s.ctxAt (s.subj % 64)).frozen then ((State.thawed s (s.subj % 64)).wakeContext (s.subj % 64)).ring (s.subj % 64) else s)
    else .next (((State.thawed s (s.subj % 64)).goOn (s.subj % 64) (thawMode (s.subj / 64))).wakeContext (s.subj % 64)) :=
  if_neg (by simp [hu])

/-- A context that thaws: its launches go on, and at a member its halt ends. -/
theorem thaw_spec {k : Nat} (hk : s.subj % 64 = k) (hu : (s.ctxAt k).used = true) : ∃ t, exec .thaw s = .next t ∧ (t.ctxAt k).frozen = false ∧
    ((s.ctxAt k).root ≠ s.self → (t.ctxAt k).halt = false ∧ ∀ f, thawMode (s.subj / 64) = some f → (t.ctxAt k).fixed = f) := by
  subst hk
  rw [exec_thaw hu]
  by_cases hr : (s.ctxAt (s.subj % 64)).root = s.self
  · rw [if_pos hr]
    refine ⟨_, rfl, ?_, fun h => absurd hr h⟩
    split
    · rw [estate_ctx (estate_ring _) Ctx.frozen fun _ => rfl]
      exact (congrArg (fun x : Table Ctx => (tget x (s.subj % 64) {}).frozen) (ctxs_wakeContext _)).trans (frozen_thawed _)
    next h => exact Bool.eq_false_iff.mpr h
  · rw [if_neg hr]
    have hctx : ((((State.thawed s (s.subj % 64)).goOn (s.subj % 64) (thawMode (s.subj / 64))).wakeContext (s.subj % 64)).ctxAt (s.subj % 64)) =
        { (State.thawed s (s.subj % 64)).ctxAt (s.subj % 64) with
          halt := false, fixed := (thawMode (s.subj / 64)).getD ((State.thawed s (s.subj % 64)).ctxAt (s.subj % 64)).fixed } := by
      refine (congrArg (fun x : Table Ctx => tget x (s.subj % 64) {}) ((ctxs_wakeContext _).trans (ctxs_goOn ..))).trans ?_
      exact (ctxAt_modCtx ..).trans (if_pos rfl)
    refine ⟨_, rfl, ?_, fun _ => ⟨?_, fun f hf => ?_⟩⟩
    · rw [hctx]
      exact frozen_thawed _
    · rw [hctx]
    · rw [hctx, hf]
      rfl

end

/-! ### The obligation -/

/-- Settles O52, clause by clause. -/
theorem rackDomain : Obligations.RackDomain := by
  unfold Obligations.RackDomain
  intro s die port a b n v h parts l early ctx c mine set joined others told
  refine ⟨exec_packageNumberEffecter_early, fun he => ?_, fun he => ⟨exec_packageNumberEffecter_late he, ?_, ?_⟩, fun hb hd hf => ?_, fun hw => ?_,
    fun hw hdom => ?_, fun hw hdom hp => ?_, fun hw hdom hp => ?_, fun hf hb => ⟨fun hv hx => ?_, fun h => ?_, fun hl => ⟨?_, fun hp hk => ?_⟩⟩,
    exec_domainPublish_waits, fun hf => ⟨?_, exec_domainPublish_formed hf, exec_memberSet_other (.inl hf)⟩, exec_domainReform_refused,
    exec_domainReform_done, fun hu hr => ⟨fun h => ?_, fun h => ?_, fun h => ?_⟩, fun hu hr => ?_, fun hu hr hbeat => ?_, exec_heartbeatTimeout_early,
    fun hu hn => ⟨exec_unreachableReport_order hu hn, fun hr hnr hs => ?_, fun hr => ?_⟩, fun hu hr hs => ?_, exec_freeze, exec_census,
    fun adr q hq => ?_, fun k hk hu => ⟨fun he => ?_, fun fixed he hr => ?_⟩⟩
  · have he' := early_iff.mp he
    rw [exec_domainIdEffecter, exec_presentMaskEffecter, if_pos he', if_pos he']
    exact ⟨rfl, rfl⟩
  · exact (exec_domainIdEffecter v).trans (if_neg (mt early_iff.mpr he))
  · exact (exec_presentMaskEffecter v).trans (if_neg (mt early_iff.mpr he))
  · obtain ⟨t, hexec, ha, hsent⟩ := exec_helloSend hb hd hf
    exact ⟨t, hexec, ⟨_, ha, rfl, rfl⟩, fun hu => ⟨_, hsent hu, rfl, rfl, rfl, rfl⟩⟩
  · rw [exec_helloReceive, if_pos (show h.swport ≠ State.cabledTo s die port from hw)]
    refine ⟨_, rfl, ?_, ?_, mem_emit _, rfl⟩
    · exact congrArg LinkSt.fenced (linkAt_fence l true)
    · exact (congrArg LinkSt.cabling (linkAt_fence l true)).trans (Bool.or_true _)
  · rw [exec_helloReceive, if_neg (not_not_intro (show h.swport = State.cabledTo s die port from hw)), if_pos hdom]
    exact ⟨_, rfl, congrArg LinkSt.fenced (linkAt_fence l false), rfl, rfl⟩
  · rw [exec_helloReceive, if_neg (not_not_intro (show h.swport = State.cabledTo s die port from hw)), if_neg (not_not_intro hdom), if_pos hp]
    exact ⟨_, rfl, mem_emit _, rfl⟩
  · obtain ⟨hheard, hlinks, hpres, hself, hagain, hnot⟩ := hear_spec (s := State.heardPort s die port h) die port h
    have hfence : (((State.heardPort s die port h).hear die port h).linkAt l).fenced = (s.linkAt l).fenced := by
      refine (congrArg (fun t : Table LinkSt => (tget t (linkKey l) {}).fenced) hlinks).trans ?_
      exact (congrArg LinkSt.fenced (linkAt_modLink_same (s := s) l fun x => { x with swport := h.swport % 512 }) :)
    rw [exec_helloReceive, if_neg (not_not_intro (show h.swport = State.cabledTo s die port from hw)), if_neg (not_not_intro hdom), if_neg hp]
    split
    · exact ⟨_, rfl, hheard, hfence, ⟨hagain, hnot⟩, fun _ _ _ _ => mem_soon (s := (State.heardPort s die port h).hear die port h) ..⟩
    next hno =>
      refine ⟨_, rfl, hheard, hfence, ⟨hagain, hnot⟩, fun hf hb hp0 hk => absurd ?_ hno⟩
      have hall : ((State.heardPort s die port h).hear die port h).allHeard = true := by
        refine allHeard_iff.mpr ⟨hpres ▸ hp0, ?_⟩
        have hknown : ((State.heardPort s die port h).hear die port h).known = s.known ||| w64 (2 ^ h.pkg) := by
          unfold State.known
          rw [hheard, hself, BitVec.or_assoc, BitVec.or_comm (w64 (2 ^ h.pkg)), ← BitVec.or_assoc]
          rfl
        rw [hpres, hknown]
        exact hk
      rw [hf, hb, hall]
      decide
  · exact ⟨_, exec_memberSet_joins hf hb hv hx, joined_join v, rfl⟩
  · exact exec_memberSet_other (.inr h)
  · exact ⟨_, exec_formationTimeout, (publish_forming hf hl).1⟩
  · exact ⟨_, exec_domainPublish_heard hb hp hk, publish_forming hf hl⟩
  · rw [exec_formationTimeout, publish_formed hf]
  · rw [exec_heartbeat_root hu hr, h, if_neg (by decide), if_pos rfl]
    have ho := outer_tellOthers (s := s) ctx "HEARTBEAT" []
    refine ⟨_, rfl, fun k hk => mem_tellOthers "HEARTBEAT" [] hk, ?_, ctxs_of_house (house_of_outer ho)⟩
    rw [← outer_state ho State.now fun _ => rfl]
    exact mem_later ..
  · rw [exec_heartbeat_root hu hr, h, if_neg (by decide), if_neg (by decide)]
  · rw [exec_heartbeat_root hu hr, if_pos h]
  · have hctx : (s.modCtx ctx fun c => { c with beat := s.now, reports := c.reports.filter fun n => n != s.self }).ctxAt ctx =
        { c with beat := s.now, reports := c.reports.filter fun n => n != s.self } := (ctxAt_modCtx ..).trans (if_pos rfl)
    refine ⟨_, exec_heartbeat_member hu hr, congrArg Ctx.beat hctx, ?_, rfl⟩
    intro hmem
    have hin : s.self ∈ c.reports.filter fun n => n != s.self := Eq.mp (congrArg (s.self ∈ ·) (congrArg Ctx.reports hctx)) hmem
    exact absurd (List.mem_filter.mp hin).2 (by simp)
  · obtain ⟨hrep, hheard⟩ := heartbeatTimeout_spec hr
    refine ⟨_, exec_heartbeatTimeout_late hu hr hbeat, hrep, fun hg k hk hne => hheard k ?_, fun hg k hk => hheard k ?_⟩
    · unfold State.hearers
      rw [if_neg (by rw [hg]; decide)]
      exact List.mem_filter.mpr ⟨hk, bne_iff_ne.mpr hne⟩
    · unfold State.hearers
      rw [if_pos hg]
      exact hk
  · exact ⟨_, exec_unreachableReport_counted hu hn (.inr ⟨hnr, hs⟩), reportRoot_standby hr hs⟩
  · obtain ⟨hrep, hfroz⟩ := reportRoot_counted (n := n) hu hr
    refine ⟨_, exec_unreachableReport_counted hu hn (.inl hr), hrep, fun hlt => hfroz ?_⟩
    rw [rootReach_reported, Nat.mul_add]
    exact hlt
  · have ho := outer_tellOthers (s := s.modCtx ctx fun c => { c with census := [] }) ctx "FREEZE" []
    refine ⟨_, exec_standbyTakeover hu hr hs, ?_, fun k hk => mem_tellOthers "FREEZE" [] ?_⟩
    · have hnow : ((s.modCtx ctx fun c => { c with census := [] }).tellOthers ctx "FREEZE" []).now = s.now :=
        (outer_state ho State.now fun _ => rfl).trans rfl
      rw [← hnow]
      exact mem_soon ..
    · rw [peers_modCtx (f := fun c => { c with census := [] }) fun _ => rfl]
      exact hk
  · obtain ⟨hroot, hrep, hqueue⟩ := becomeRoot_spec rfl hq
    intro copy
    rw [hqueue]
    refine ⟨hroot, hrep, rfl, rfl, rfl, rfl, ?_⟩
    exact congrArg (! ·) (BitVec.testBit_toNat ..)
  · have hmod : s.subj % 64 = k := by rw [show s.subj = k from he, Nat.mod_eq_of_lt hk]
    obtain ⟨t, hexec, hfroz, -⟩ := thaw_spec hmod hu
    exact ⟨t, hexec, hfroz⟩
  · have hmod : s.subj % 64 = k := by
      rw [show s.subj = _ from he, Nat.add_mul_mod_self_left, Nat.mod_eq_of_lt hk]
    have hdiv : s.subj / 64 = if fixed then 2 else 1 := by
      rw [show s.subj = _ from he, Nat.add_mul_div_left _ _ (by decide), Nat.div_eq_of_lt hk, Nat.zero_add]
    obtain ⟨t, hexec, hfroz, hgoes⟩ := thaw_spec hmod hu
    obtain ⟨hhalt, hfixed⟩ := hgoes hr
    refine ⟨t, hexec, hfroz, hhalt, hfixed fixed ?_⟩
    rw [hdiv]
    cases fixed <;> rfl

end Sys2Proof.Proofs
end

section
/-! PROOFS. A step runs the decoded instruction (notes/assumptions/3.md). Every meaning goes on to a next state: this is proved once for each
shape that meanings share, and along the branches of the others. -/

namespace Sys2Proof.Proofs
open Sys2Proof Sys2Proof.Machine Sys2Proof.Laws.Shapes

/-! ### Meanings that go on -/

/-- An outcome that is a next state. -/
def Goes (o : Out) : Prop := ∃ t, o = .next t

theorem goes_next (t : State) : Goes (.next t) := ⟨t, rfl⟩

theorem goes_ite {c : Prop} [Decidable c] {a b : Out} (ha : Goes a) (hb : Goes b) : Goes (if c then a else b) := by
  split <;> assumption

section
variable {f : Form} {i : Instr} {s : State}

/-! ### The shapes of instructions -/

theorem goes_compute {l : Nat × Nat} {res : Env → Opnd → Tok × BitVec 5} : Goes (compute f l res s) := by
  unfold compute
  split <;> exact goes_next _

theorem goes_computePair {l : Nat × Nat} {res : Env → Opnd → (Tok × Tok) × BitVec 5} : Goes (computePair f l res s) := by
  unfold computePair
  split <;> exact goes_next _

theorem goes_fpFun {v : Rnd → FVal → FVal → FRes} : Goes (fpFun f v s) := by
  unfold fpFun fpLanes
  exact goes_compute

theorem goes_depart : Goes (depart f i s) := by
  unfold depart
  split <;> exact goes_next _

theorem goes_departIf {chk : Opnd → Option FaultRec} : Goes (departIf f i chk s) := by
  unfold departIf
  split
  · exact goes_next _
  · split
    · exact goes_next _
    · exact goes_depart

theorem goes_needSup {n : Nat} {k : State → Out} (h : ∀ s, Goes (k s)) : Goes (needSup n k s) := by
  unfold needSup
  split
  · exact h s
  · split <;> exact goes_next _

theorem goes_nullReply {pair : Bool} {cls : TokClass} : Goes (nullReply f pair cls s) := by
  unfold nullReply
  split <;> exact goes_next _

/-- An access goes on where its good lanes do. -/
theorem goes_accesses {m : MemArg} {n : Nat} {store atomic aligned uni : Bool} {k : State → Opnd → List (Nat × List Place) → Out}
    (h : ∀ s o ls, Goes (k s o ls)) : Goes (accesses f m n store atomic aligned uni k s) := by
  unfold accesses
  dsimp only
  repeat' split
  all_goals simp only [goes_next, h]

theorem goes_issueOnce {again : Blk → Opnd → Lanes → State → State} {perform : Blk → Opnd → State → Out} (h : ∀ b o s, Goes (perform b o s)) :
    Goes (issueOnce f i again perform s) := by
  unfold issueOnce
  dsimp only
  repeat' split
  all_goals simp only [goes_next, goes_nullReply, h]


theorem goes_loadOp {m : MemArg} {aligned bypass : Bool} {mark : Option Instr} : Goes (loadOp f m aligned bypass mark s) := by
  refine goes_accesses fun u o ls => ?_
  split <;> exact goes_next _

theorem goes_storeOp {m : MemArg} {aligned : Bool} {op : Option (BitVec 3 × Ty)} : Goes (storeOp f m i aligned op s) := by
  refine goes_accesses fun u o ls => ?_
  split <;> exact goes_next _

theorem goes_atomicOp {m : MemArg} {cas : Bool} {new : Opnd → Nat → Nat → FRes × Bool} : Goes (atomicOp f m i cas new s) := by
  unfold atomicOp
  split
  · exact goes_next _
  · dsimp only
    split
    · exact goes_next _
    · refine goes_ite (goes_next _) (goes_ite (goes_next _) (goes_accesses fun u o ls => ?_))
      split <;> exact goes_next _

theorem goes_edgeRequest {send : Bool} : Goes (edgeRequest f i send s) := by
  unfold edgeRequest
  dsimp only
  repeat' split
  all_goals simp only [goes_next, goes_nullReply]

theorem goes_switchAllOff : Goes (switchAllOff f s) := by
  unfold switchAllOff
  split <;> exact goes_next _

theorem goes_waitFor {ok : Opnd → Bool} : Goes (waitFor f ok s) := by
  unfold waitFor
  split
  · exact goes_next _
  · dsimp only
    split <;> exact goes_next _

theorem goes_barOp {b : BitVec 9} {again : Blk → Opnd → Lanes → State → State} {perform : Opnd → W64 → State → Out}
    (h : ∀ o w s, Goes (perform o w s)) : Goes (barOp f i b again perform s) := by
  refine goes_issueOnce fun _ o u => ?_
  split
  · exact goes_next _
  · exact h ..

theorem goes_arriveOp {drop : Bool} {b : BitVec 9} : Goes (arriveOp drop f i b s) := by
  refine goes_barOp fun o w u => ?_
  split <;> exact goes_next _

theorem goes_timelineOp {k : Opnd → W64 → State → State} : Goes (timelineOp f k s) := by
  unfold timelineOp
  dsimp only
  repeat' split
  all_goals simp only [goes_next, goes_nullReply]

theorem goes_tileInstr {zr zw n d : Nat} {chk : Opnd → Option (Nat × Nat)} {res : Env → Opnd → Blk → List (List Nat) × Option Nat} :
    Goes (tileInstr f zr zw n d chk res s) := by
  unfold tileInstr
  dsimp only
  repeat' split
  all_goals exact goes_next _

theorem goes_rowOp {mx : Bool} {z : BitVec 4} : Goes (rowOp mx f z s) := by
  unfold rowOp
  split
  · exact goes_next _
  · dsimp only
    split
    · exact goes_next _
    · split <;> exact goes_next _

theorem goes_accUpdate {j : Nat} {new : Opnd → Nat → Int → Option Int × BitVec 5} {clears : Bool} : Goes (accUpdate f j new clears s) := by
  unfold accUpdate
  split
  · exact goes_next _
  · dsimp only
    split
    · exact goes_next _
    · split <;> exact goes_next _

theorem goes_accRead {j : Nat} {v : Env → Nat → Int → Bool → FRes} : Goes (accRead f j v s) := by
  unfold accRead
  split
  · exact goes_next _
  · dsimp only
    split
    · exact goes_next _
    · split <;> exact goes_next _

/-! ### The shapes of packets -/

theorem goes_starting {f : Packet → State → State} : Goes (s.starting f) := by
  unfold State.starting
  dsimp only
  repeat' split
  all_goals exact goes_next _

theorem goes_afterAll {f : Packet → State → State} : Goes (s.afterAll f) := by
  unfold State.afterAll
  dsimp only
  split
  · exact goes_next _
  · split
    · exact goes_next _
    · exact goes_starting

theorem goes_tracePacket {f : Packet → State → State} : Goes (s.tracePacket f) := by
  unfold State.tracePacket
  split
  · exact goes_next _
  · split
    · exact goes_next _
    · exact goes_starting

theorem goes_poolCommand {page : Nat} {f : Packet → State → Nat × State} : Goes (s.poolCommand page f) := by
  unfold State.poolCommand
  split
  · exact goes_next _
  · exact goes_starting

/-! ### Meanings of no shape that use one -/

theorem goes_chunk : Goes (execChunk f s) := by
  unfold execChunk
  dsimp only
  repeat' split
  all_goals simp only [goes_next, goes_nullReply]

theorem goes_red {m : MemArg} : Goes (execRed f m s) := by
  unfold execRed
  split
  · exact goes_next _
  · exact goes_ite (goes_next _) goes_storeOp

theorem goes_smap {l : BitVec 5} : Goes (execSmap f l s) := by
  unfold execSmap
  split
  · exact goes_next _
  · exact goes_ite goes_switchAllOff goes_depart

theorem goes_sunmap {l : BitVec 5} : Goes (execSunmap f l s) := by
  unfold execSunmap
  split
  · exact goes_next _
  · exact goes_ite goes_switchAllOff goes_depart

theorem goes_hfree {l : BitVec 5} : Goes (execHfree f l s) := by
  unfold execHfree
  split
  · exact goes_next _
  · refine goes_ite goes_depart ?_
    dsimp only
    split
    · exact goes_ite (goes_next _) goes_depart
    · exact goes_next _
    · exact goes_next _

theorem goes_sysrd {r : SysReg} : Goes (execSysrd f r s) := goes_ite (goes_needSup fun _ => goes_compute) goes_compute

theorem goes_syswr {r : SysReg} : Goes (execSyswr f r s) := goes_ite (goes_needSup fun _ => goes_depart) goes_depart

theorem goes_migrate : Goes (execMigrate s) := by
  refine goes_ite (goes_next _) ?_
  split
  · exact goes_next _
  · exact goes_ite (goes_ite (goes_next _) (goes_next _)) goes_starting

theorem goes_packetAdmission : Goes (execPacketAdmission s) := by
  refine goes_ite (goes_next _) (goes_ite (goes_next _) ?_)
  split
  · exact goes_next _
  · dsimp only
    split
    · exact goes_next _
    · exact goes_ite (goes_next _) (goes_next _)

/-! ### Every meaning -/

/-- Every instruction and every step goes on to a next state, by the shape of its meaning or along its branches. -/
theorem exec_goes (i : Instr) (s : State) : Goes (exec i s) := by
  cases i
  case mov | const | nul | sel | lid | adr | cvt | cmp | vote | shfl | redux | scan | lclk | stalls | cyc | fadd | fsub | fmul | fma | fdiv | fsqrt |
    frcp | frsqrt | fmin | fmax | fabs | fneg | fcmp | fclass | fcvt | fcvti | icvtf | frnd | fldx | pcvt | pdot =>
    simp only [exec_mov, execMov, exec_const, execConst, exec_nul, execNul, exec_sel, execSel, exec_lid, execLid, exec_adr, execAdr, exec_cvt,
      execCvt, exec_cmp, execCmp, exec_vote, execVote, exec_shfl, execShfl, exec_redux, execRedux, exec_scan, execScan, exec_lclk, execLclk,
      exec_stalls, execStalls, exec_cyc, execCyc, exec_fadd, execFadd, exec_fsub, execFsub, exec_fmul, execFmul, exec_fma, execFma, exec_fdiv,
      execFdiv, exec_fsqrt, execFsqrt, exec_frcp, execFrcp, exec_frsqrt, execFrsqrt, exec_fmin, execFmin, exec_fmax, execFmax, exec_fabs, execFabs,
      exec_fneg, execFneg, exec_fcmp, execFcmp, exec_fclass, execFclass, exec_fcvt, execFcvt, exec_fcvti, execFcvti, exec_icvtf, execIcvtf,
      exec_frnd, execFrnd, exec_fldx, execFldx, exec_pcvt, execPcvt, exec_pdot, execPdot, fpLanes]
    exact goes_compute
  case add | sub | mul | mulhi | mad | div | rem | min | max | abs | neg | not | shl | shr | sra | rot | bfx | bfi | popc | clz | ctz | brev | and |
    or | xor | adc | sbc | kand | kor | kxor | knot | kpop | kfst | pfma | padd | pmul | pmax =>
    simp only [exec_add, execAdd, exec_sub, execSub, exec_mul, execMul, exec_mulhi, execMulhi, exec_mad, execMad, exec_div, execDiv, exec_rem,
      execRem, exec_min, execMin, exec_max, execMax, exec_abs, execAbs, exec_neg, execNeg, exec_not, execNot, exec_shl, execShl, exec_shr, execShr,
      exec_sra, execSra, exec_rot, execRot, exec_bfx, execBfx, exec_bfi, execBfi, exec_popc, execPopc, exec_clz, execClz, exec_ctz, execCtz,
      exec_brev, execBrev, exec_and, execAnd, exec_or, execOr, exec_xor, execXor, exec_adc, execAdc, exec_sbc, execSbc, exec_kand, execKand,
      exec_kor, execKor, exec_kxor, execKxor, exec_knot, execKnot, exec_kpop, execKpop, exec_kfst, execKfst, exec_pfma, execPfma, exec_padd,
      execPadd, exec_pmul, execPmul, exec_pmax, execPmax, intOp, bitOp, patOp, carryOp, maskOp, countOp, packOp, fpLanes]
    exact goes_compute
  case ffrx =>
    simp only [exec_ffrx, execFfrx]
    exact goes_computePair
  case fexp | fexp2 | flog | flog2 | fsin | fcos | ftanh | flgst | ferf | fatan2 | fpow =>
    simp only [exec_fexp, execFexp, exec_fexp2, execFexp2, exec_flog, execFlog, exec_flog2, execFlog2, exec_fsin, execFsin, exec_fcos, execFcos,
      exec_ftanh, execFtanh, exec_flgst, execFlgst, exec_ferf, execFerf, exec_fatan2, execFatan2, exec_fpow, execFpow]
    exact goes_fpFun
  case wr | br | yield | swb | sinv | trc | trap | brk =>
    simp only [exec_wr, execWr, exec_br, execBr, exec_yield, execYield, exec_swb, execSwb, exec_sinv, execSinv, exec_trc, execTrc, exec_trap,
      execTrap, exec_brk, execBrk]
    exact goes_depart
  case jr | regang | exit | spawn | enq | cpy | cpyg | cpyx | cfill | pfill | pcopy | pcmp | predx | pgath | tld | tst | tclr | tcvt =>
    simp only [exec_jr, execJr, exec_regang, execRegang, exec_exit, execExit, exec_spawn, execSpawn, exec_enq, execEnq, exec_cpy, execCpy, exec_cpyg,
      execCpyg, exec_cpyx, execCpyx, exec_cfill, execCfill, exec_pfill, execPfill, exec_pcopy, execPcopy, exec_pcmp, execPcmp, exec_predx, execPredx,
      exec_pgath, execPgath, exec_tld, execTld, exec_tst, execTst, exec_tclr, execTclr, exec_tcvt, execTcvt, sendDescriptor, queueInstr]
    exact goes_departIf
  case pmap | punmap =>
    simp only [exec_pmap, execPmap, exec_punmap, execPunmap, mapOp]
    exact goes_needSup fun _ => goes_departIf
  case tlbinv | tret | halt =>
    simp only [exec_tlbinv, execTlbinv, exec_tret, execTret, exec_halt, execHalt]
    exact goes_needSup fun _ => goes_depart
  case ld | ldp =>
    simp only [exec_ld, execLd, exec_ldp, execLdp]
    exact goes_loadOp
  case st =>
    simp only [exec_st, execSt]
    exact goes_storeOp
  case atom | cas =>
    simp only [exec_atom, execAtom, exec_cas, execCas]
    exact goes_atomicOp
  case qsend | qtake =>
    simp only [exec_qsend, execQsend, exec_qtake, execQtake]
    exact goes_edgeRequest
  case fence | wait | waitr | waitc =>
    simp only [exec_fence, execFence, exec_wait, execWait, exec_waitr, execWaitr, exec_waitc, execWaitc]
    exact goes_waitFor
  case barArr | barDrop =>
    simp only [exec_barArr, execBarArr, exec_barDrop, execBarDrop]
    exact goes_arriveOp
  case tlwait | tlread =>
    simp only [exec_tlwait, execTlwait, exec_tlread, execTlread]
    exact goes_timelineOp
  case ttopk | trscl | tmma | tdist =>
    simp only [exec_ttopk, execTtopk, exec_trscl, execTrscl, exec_tmma, execTmma, exec_tdist, execTdist, mmaOp]
    exact goes_tileInstr
  case trmax | trsum =>
    simp only [exec_trmax, execTrmax, exec_trsum, execTrsum]
    exact goes_rowOp
  case xclr | xacc | xadd =>
    simp only [exec_xclr, execXclr, exec_xacc, execXacc, exec_xadd, execXadd]
    exact goes_accUpdate
  case xrnd | xsgn =>
    simp only [exec_xrnd, execXrnd, exec_xsgn, execXsgn]
    exact goes_accRead
  case semAcq | semRel | semTry =>
    simp only [exec_semAcq, execSemAcq, exec_semRel, execSemRel, exec_semTry, execSemTry]
    refine goes_issueOnce fun _ _ u => ?_
    repeat' split
    all_goals exact goes_next _
  case barInit | barWait | barAw | barTx | barGen =>
    simp only [exec_barInit, execBarInit, exec_barWait, execBarWait, exec_barAw, execBarAw, exec_barTx, execBarTx, exec_barGen, execBarGen]
    refine goes_barOp fun _ _ u => ?_
    repeat' split
    all_goals exact goes_next _
  case graph | preempt | wrap | eqCreate | patchStage | owlRestart | attest | pairBind | queueResume | queueResumeSkip | hostHalt =>
    simp only [exec_graph, execGraph, exec_preempt, execPreempt, exec_wrap, execWrap, exec_eqCreate, execEqCreate, exec_patchStage, execPatchStage,
      exec_owlRestart, execOwlRestart, exec_attest, execAttest, exec_pairBind, execPairBind, exec_queueResume, execQueueResume, exec_queueResumeSkip,
      execQueueResumeSkip, exec_hostHalt, execHostHalt, State.onContext]
    exact goes_starting
  case tlsignal | fencePacket =>
    simp only [exec_tlsignal, execTlsignal, exec_fencePacket, execFencePacket]
    exact goes_afterAll
  case traceOpen | traceClose =>
    simp only [exec_traceOpen, execTraceOpen, exec_traceClose, execTraceClose]
    exact goes_tracePacket
  case poolMap | poolUnmap =>
    simp only [exec_poolMap, execPoolMap, exec_poolUnmap, execPoolUnmap]
    exact goes_poolCommand
  case thermalThrottle | negativeAcknowledgement | rds | rdx | upg | edgeSend | edgeTake | edgeRetry | apertureWrite | adminQcb | lrmRemapComplete |
    translationWalk | copyPartArrive | regionWritebackComplete | droopEnd | coldReset | formationTimeout | adminDoorbell | doorbell | tailPoll |
    pldmDiscovery | certificateRead =>
    exact goes_next _
  case launch | queueResumeReset | ctxCreate | tableBase | ctxDestroy =>
    simp only [exec_launch, execLaunch, exec_queueResumeReset, execQueueResumeReset, exec_ctxCreate, execCtxCreate, exec_tableBase, execTableBase,
      exec_ctxDestroy, execCtxDestroy, State.onContext]
    exact goes_ite (goes_next _) goes_starting
  case chunk => exact goes_chunk
  case red => exact goes_red
  case smap => exact goes_smap
  case sunmap => exact goes_sunmap
  case hfree => exact goes_hfree
  case sysrd => exact goes_sysrd
  case syswr => exact goes_syswr
  case migrate => exact goes_migrate
  case packetAdmission => exact goes_packetAdmission
  case rd | bl | rquota =>
    simp only [exec_rd, execRd, exec_bl, execBl, exec_rquota, execRquota]
    (repeat' split) <;> exact goes_next _
  case pref | halloc =>
    simp only [exec_pref, execPref, exec_halloc, execHalloc]
    (repeat' split) <;> exact goes_next _
  case dsync | prov =>
    simp only [exec_dsync, execDsync, exec_prov, execProv]
    (repeat' split) <;> exact goes_next _
  case trainingFailure | targetFrequencyChange | powerSample | droopStretch | thermalWarning | thermalThrottleRelease | scrubRead |
    sequencerWatchdog | powerLimitEffecter | standbyPowerGood | warmReset | bootComplete | trainingEnd | serviceTransitionTimeout | droopGuard =>
    simp only [exec_trainingFailure, execTrainingFailure, exec_targetFrequencyChange, execTargetFrequencyChange, exec_powerSample, execPowerSample,
      exec_droopStretch, execDroopStretch, exec_thermalWarning, execThermalWarning, exec_thermalThrottleRelease, execThermalThrottleRelease,
      exec_scrubRead, execScrubRead, exec_sequencerWatchdog, execSequencerWatchdog, exec_powerLimitEffecter, execPowerLimitEffecter,
      exec_standbyPowerGood, execStandbyPowerGood, exec_warmReset, execWarmReset, exec_bootComplete, execBootComplete, exec_trainingEnd,
      execTrainingEnd, exec_serviceTransitionTimeout, execServiceTransitionTimeout, exec_droopGuard, execDroopGuard]
    (repeat' split) <;> exact goes_next _
  case flitReceive | ackTimeout | linkRetrain | retrainComplete | linkDown | helloSend | helloReceive | memberSet | unreachableReport | census |
    packageNumberEffecter | domainIdEffecter | presentMaskEffecter | domainReform | thermalStop | domainPublish | heartbeat | heartbeatTimeout |
    standbyTakeover | freeze | thaw =>
    simp only [exec_flitReceive, execFlitReceive, exec_ackTimeout, execAckTimeout, exec_linkRetrain, execLinkRetrain, exec_retrainComplete,
      execRetrainComplete, Machine.exec_linkDown, execLinkDown, Machine.exec_helloSend, execHelloSend, Machine.exec_helloReceive, execHelloReceive,
      exec_memberSet, execMemberSet, exec_unreachableReport, execUnreachableReport, Machine.exec_census, execCensus, exec_packageNumberEffecter,
      execPackageNumberEffecter, Machine.exec_domainIdEffecter, execDomainIdEffecter, Machine.exec_presentMaskEffecter, execPresentMaskEffecter,
      Machine.exec_domainReform, execDomainReform, exec_thermalStop, execThermalStop, exec_domainPublish, execDomainPublish, exec_heartbeat,
      execHeartbeat, exec_heartbeatTimeout, execHeartbeatTimeout, Machine.exec_standbyTakeover, execStandbyTakeover, Machine.exec_freeze, execFreeze,
      Machine.exec_thaw, execThaw]
    (repeat' split) <;> exact goes_next _
  case wb | cleanEviction | probe | probeReply | redirect | pageMoveStart | moveCopyComplete | moveFinish | chunkRequest =>
    simp only [exec_wb, execWb, exec_cleanEviction, execCleanEviction, exec_probe, execProbe, exec_probeReply, execProbeReply, exec_redirect,
      execRedirect, exec_pageMoveStart, execPageMoveStart, exec_moveCopyComplete, execMoveCopyComplete, exec_moveFinish, execMoveFinish,
      exec_chunkRequest, execChunkRequest]
    (repeat' split) <;> exact goes_next _
  case badgerOperation | badgerComplete | copyComplete | copyFailureReport | smapComplete | badgerFailureReport | sampleDue =>
    simp only [exec_badgerOperation, execBadgerOperation, exec_badgerComplete, execBadgerComplete, exec_copyComplete, execCopyComplete,
      exec_copyFailureReport, execCopyFailureReport, exec_smapComplete, execSmapComplete, exec_badgerFailureReport, execBadgerFailureReport,
      exec_sampleDue, execSampleDue]
    (repeat' split) <;> exact goes_next _
  case pcieLinkTrain | apertureRead | admitDigest | registerWrite | sensorRead | firmwareUpdate | firmwareActivate | pcieAtomicop | admitTimeout =>
    simp only [exec_pcieLinkTrain, execPcieLinkTrain, exec_apertureRead, execApertureRead, exec_admitDigest, execAdmitDigest, exec_registerWrite,
      execRegisterWrite, exec_sensorRead, execSensorRead, exec_firmwareUpdate, execFirmwareUpdate, exec_firmwareActivate, execFirmwareActivate,
      exec_pcieAtomicop, execPcieAtomicop, exec_admitTimeout, execAdmitTimeout]
    (repeat' split) <;> exact goes_next _
  case poolCommandCompletion | mctpAttestation | attestSigned | owlWatchdog | owlRestartDone =>
    simp only [exec_poolCommandCompletion, execPoolCommandCompletion, exec_mctpAttestation, execMctpAttestation, exec_attestSigned, execAttestSigned,
      exec_owlWatchdog, execOwlWatchdog, exec_owlRestartDone, execOwlRestartDone]
    (repeat' split) <;> exact goes_next _
  case split | stealRequest | stealReply | taskArrival | counterPartReport | teamAdmit | stealBackoff | launchComplete =>
    simp only [exec_split, execSplit, exec_stealRequest, execStealRequest, exec_stealReply, execStealReply, exec_taskArrival, execTaskArrival,
      exec_counterPartReport, execCounterPartReport, exec_teamAdmit, execTeamAdmit, exec_stealBackoff, execStealBackoff, exec_launchComplete,
      execLaunchComplete]
    (repeat' split) <;> exact goes_next _
  case binTimer | binLaunch | watchedWrite | parkTimeout | slotTakeover | coreCycle =>
    simp only [exec_binTimer, execBinTimer, exec_binLaunch, execBinLaunch, exec_watchedWrite, execWatchedWrite, exec_parkTimeout, execParkTimeout,
      exec_slotTakeover, execSlotTakeover, exec_coreCycle, execCoreCycle]
    (repeat' split) <;> exact goes_next _
  case registerFill | memoryReply | missReplay | tlbinvComplete =>
    simp only [exec_registerFill, execRegisterFill, exec_memoryReply, execMemoryReply, exec_missReplay, execMissReplay, exec_tlbinvComplete,
      execTlbinvComplete]
    (repeat' split) <;> exact goes_next _
  case contextFault | tlwaitPacket | tlwaitSatisfied | tlwaitTimeout =>
    simp only [exec_contextFault, execContextFault, exec_tlwaitPacket, execTlwaitPacket, exec_tlwaitSatisfied, execTlwaitSatisfied,
      exec_tlwaitTimeout, execTlwaitTimeout]
    (repeat' split) <;> exact goes_next _
  case partitionRestore | partitionAdmission | partitionPreempt | partitionHalted | shadowSaveComplete | restoreComplete =>
    simp only [exec_partitionRestore, execPartitionRestore, exec_partitionAdmission, execPartitionAdmission, exec_partitionPreempt,
      execPartitionPreempt, exec_partitionHalted, execPartitionHalted, exec_shadowSaveComplete, execShadowSaveComplete, exec_restoreComplete,
      execRestoreComplete]
    (repeat' split) <;> exact goes_next _
  case traceDrainTimeout =>
    simp only [exec_traceDrainTimeout, execTraceDrainTimeout]
    (repeat' split) <;> exact goes_next _
  case blockStall | blockFetch | headerDecode | blockCommit | timedDeadline =>
    simp only [exec_blockStall, execBlockStall, exec_blockFetch, execBlockFetch, exec_headerDecode, execHeaderDecode, exec_blockCommit,
      execBlockCommit, exec_timedDeadline, execTimedDeadline]
    (repeat' split) <;> exact goes_next _
  case tileQueueStart | tileQueueComplete =>
    simp only [exec_tileQueueStart, execTileQueueStart, exec_tileQueueComplete, execTileQueueComplete]
    (repeat' split) <;> exact goes_next _

end

/-! ### What comes next -/

section
variable {s : State}

theorem step_of_next {u : State} {i : Instr} (h : s.nextWork = (.ok (some i), u)) : step s = exec i u := by
  unfold step
  rw [h]

theorem step_of_idle {u : State} (h : s.nextWork = (.ok none, u)) : step s = .next u := by
  unfold step
  rw [h]

theorem focus_self (s : State) : s.focus s.gid = s := if_pos rfl

/-- The choice of an instruction of the gang in focus. -/
theorem atIssue_ok {sec : Bool} {n : Nat} {b : Blk} {i : Instr} (hb : (if sec then s.g.sec else s.g.prim) = some b) (hi : b.instrAt n = .ok i) :
    s.atIssue ⟨s.gid, sec, n⟩ = (.ok (some i), { s with isec := sec, idx := n }) := by
  unfold State.atIssue
  dsimp only
  rw [focus_self, if_neg (not_not_intro rfl)]
  unfold State.blk?
  dsimp only
  rw [hb]
  dsimp only
  rw [hi]

theorem atIssue_error {sec : Bool} {n : Nat} {b : Blk} {e : DecodeErr} (hb : (if sec then s.g.sec else s.g.prim) = some b)
    (he : b.instrAt n = .error e) : s.atIssue ⟨s.gid, sec, n⟩ = (.error e.subcode, { s with isec := sec, idx := n }) := by
  unfold State.atIssue
  dsimp only
  rw [focus_self, if_neg (not_not_intro rfl)]
  unfold State.blk?
  dsimp only
  rw [hb]
  dsimp only
  rw [he]

theorem nextWork_issue {r : IssueRef} {rest : List IssueRef} (h : s.issue = r :: rest) :
    s.nextWork = State.atIssue { s with issue := rest } r := by
  unfold State.nextWork
  rw [h]

theorem step_issue_ok {sec : Bool} {n : Nat} {rest : List IssueRef} {b : Blk} {i : Instr} (h : s.issue = ⟨s.gid, sec, n⟩ :: rest)
    (hb : (if sec then s.g.sec else s.g.prim) = some b) (hi : b.instrAt n = .ok i) :
    step s = exec i { s with issue := rest, isec := sec, idx := n } :=
  step_of_next ((nextWork_issue h).trans (atIssue_ok (s := { s with issue := rest }) hb hi))

theorem step_issue_error {sec : Bool} {n : Nat} {rest : List IssueRef} {b : Blk} {e : DecodeErr} (h : s.issue = ⟨s.gid, sec, n⟩ :: rest)
    (hb : (if sec then s.g.sec else s.g.prim) = some b) (he : b.instrAt n = .error e) : step s = .refused (.undecodable e.subcode) := by
  have hw : s.nextWork = (.error e.subcode, { s with issue := rest, isec := sec, idx := n }) :=
    (nextWork_issue h).trans (atIssue_error (s := { s with issue := rest }) hb he)
  unfold step
  rw [hw]

/-! ### Steps that are due -/

theorem takeDue_first {d : Due} {early rest : List Due} (he : ∀ x ∈ early, s.reached x = false) (hd : s.reached d = true) :
    takeDue s (early ++ d :: rest) = some (d, early ++ rest) := by
  induction early with
  | nil => exact if_pos hd
  | cons x early ih =>
    have hx : ¬s.reached x = true := Bool.eq_false_iff.mp (he x (List.mem_cons_self ..))
    rw [List.cons_append, takeDue, if_neg hx, ih fun y hy => he y (List.mem_cons_of_mem _ hy)]
    rfl

theorem takeDue_none {l : List Due} (h : ∀ x ∈ l, s.reached x = false) : takeDue s l = none := by
  induction l with
  | nil => rfl
  | cons x l ih =>
    have hx : ¬s.reached x = true := Bool.eq_false_iff.mp (h x (List.mem_cons_self ..))
    rw [takeDue, if_neg hx, ih fun y hy => h y (List.mem_cons_of_mem _ hy)]

theorem nextWork_due {d : Due} {rest : List Due} (hi : s.issue = []) (h : takeDue s s.agenda = some (d, rest)) : s.nextWork =
    if ({ s with agenda := rest } : State).subjectLive d.subj then (.ok (some d.ev), ({ s with agenda := rest } : State).focusOn d.subj)
    else (.ok none, { s with agenda := rest }) := by
  unfold State.nextWork
  rw [hi]
  dsimp only
  rw [h]

theorem step_due {d : Due} {rest : List Due} {u : State} (hi : s.issue = []) (h : takeDue s s.agenda = some (d, rest))
    (hl : ({ s with agenda := rest } : State).subjectLive d.subj = true) (hu : ({ s with agenda := rest } : State).focusOn d.subj = u) :
    step s = exec d.ev u := step_of_next ((nextWork_due hi h).trans ((if_pos hl).trans (by rw [hu])))

theorem step_due_gone {d : Due} {rest : List Due} (hi : s.issue = []) (h : takeDue s s.agenda = some (d, rest))
    (hl : ({ s with agenda := rest } : State).subjectLive d.subj = false) : step s = .next { s with agenda := rest } :=
  step_of_idle ((nextWork_due hi h).trans (if_neg (Bool.eq_false_iff.mp hl)))

theorem step_turn {c : Nat} {rest : List Nat} (hi : s.issue = []) (h : takeDue s s.agenda = none) (ht : s.turn = c :: rest) :
    step s = exec .coreCycle { s with turn := rest, subj := c } := by
  refine step_of_next ?_
  unfold State.nextWork
  rw [hi]
  dsimp only
  rw [h]
  dsimp only
  rw [ht]

theorem step_tick (hi : s.issue = []) (h : takeDue s s.agenda = none) (ht : s.turn = []) :
    step s = .next (if s.twice = [] then s.tick else s.tickAgain) := by
  have hw : s.nextWork = (.ok none, if s.twice.isEmpty then s.tick else s.tickAgain) := by
    unfold State.nextWork
    rw [hi]
    dsimp only
    rw [h]
    dsimp only
    rw [ht]
  rw [step_of_idle hw]
  exact congrArg _ (if_congr List.isEmpty_iff rfl rfl)

/-! ### A tick (01 R13, R14) -/

theorem coreAt_tick {n : Nat} {c : Sys2Proof.Machine.Core} (h : tfind s.cores n = some c) : s.tick.coreAt n = c.advance (s.pace n) := by
  have hmap : tfind s.tick.cores n = (tfind s.cores n).map fun c => c.advance (s.pace n) :=
    tfind_map_values (fun k (c : Sys2Proof.Machine.Core) => c.advance (s.pace k)) s.cores n
  unfold State.coreAt tget
  rw [hmap, h]
  rfl

theorem advance_spec (c : Sys2Proof.Machine.Core) (p : Nat) :
    (c.advance p).cyc = (if 2400 ≤ c.phase + p then c.cyc + 1 else c.cyc) ∧
      (c.advance p).phase = (if 2400 ≤ c.phase + p then c.phase + p - 2400 else c.phase + p) := by
  unfold Core.advance
  split <;> exact ⟨rfl, rfl⟩

/-! ### A word placed for the next step -/

theorem instrAt_wordBlock {ws : List W32} {i : Instr} (h : decode (ws.flatMap bytesOfWord) = .ok i) : (wordBlock ws).instrAt 0 = .ok i := by
  unfold decode at h
  rw [wordsOfBytes_flatMap] at h
  cases hd : decodeWords ws with
  | error e =>
    rw [hd] at h
    exact absurd h (by simp [Except.map])
  | ok x =>
    rw [hd] at h
    obtain ⟨t, ht, hi, -⟩ := takeInstr_of_decodeWords (r := x.2) (i := i) (by rw [hd, ← Except.ok.inj h])
    cases ws with
    | nil => exact nomatch ht
    | cons w ws =>
      have hwalk : (wordBlock (w :: ws)).code = decodeTaken t :: walk ws.length t.rest := by
        unfold Blk.code
        change walk (ws.length + 1) (w :: ws) = _
        rw [walk, ht]
      unfold Blk.instrAt
      rw [hwalk, hi]
      rfl

theorem decode_of_tableWord {nbits w : Nat} {i : Instr} (h : decodeTableWord nbits w = some i) :
    decode ((tableWords nbits w).flatMap bytesOfWord) = .ok i := by
  unfold decodeTableWord at h
  split at h
  next j hj => rw [hj, Option.some.inj h]
  next => exact absurd h (by simp)

end

/-! ### The obligation -/

/-- Settles O46, by what `nextWork` chooses; that every meaning goes on is `exec_goes`. -/
theorem stepRunsDecoded : Obligations.StepRunsDecoded := by
  unfold Obligations.StepRunsDecoded
  intro s
  refine ⟨fun sec n rest b h hb => ⟨fun i hi => step_issue_ok h hb hi, fun e he => step_issue_error h hb he⟩, ?_, ⟨rfl, rfl, rfl, rfl, fun n c h => ?_⟩,
    fun nbits w i h => ?_, fun i => exec_goes i s⟩
  · intro come
    have hcome (d : Due) : come d ↔ s.reached d = true := by
      unfold State.reached
      cases hc : d.clock <;> simp [come, hc]
    have hnot (d : Due) (h : ¬come d) : s.reached d = false := Bool.eq_false_iff.mpr (mt (hcome d).mpr h)
    refine ⟨fun d early rest hi ha he hd => ?_, fun c rest hi h ht => ?_, fun hi h ht => ?_⟩
    · have htake : takeDue s s.agenda = some (d, early ++ rest) := ha ▸ takeDue_first (fun x hx => hnot x (he x hx)) ((hcome d).mp hd)
      refine ⟨fun h => ?_, fun n h => ?_, fun p h => ?_, fun h => ?_, fun n h hg => ?_⟩
      · exact step_due hi htake (by rw [h]; rfl) (by rw [h]; rfl)
      · exact step_due hi htake (by rw [h]; rfl) (by rw [h]; rfl)
      · exact step_due hi htake (by rw [h]; rfl) (by rw [h]; rfl)
      · refine step_due hi htake ?_ ?_
        · rw [h]
          exact congrArg Option.isSome (if_pos rfl : s.gangAt s.gid = some s.g)
        · rw [h]
          exact focus_self { s with agenda := early ++ rest }
      · refine step_due_gone hi htake ?_
        rw [h]
        exact congrArg Option.isSome hg
    · exact step_turn hi (takeDue_none fun x hx => hnot x (h x hx)) ht
    · exact step_tick hi (takeDue_none fun x hx => hnot x (h x hx)) ht
  · intro sum
    rw [coreAt_tick h]
    exact advance_spec c (s.pace n)
  · exact step_issue_ok (s := s.withFetchWord nbits w) (sec := false) (n := 0) (rest := []) rfl rfl (instrAt_wordBlock (decode_of_tableWord h))

end Sys2Proof.Proofs
end
